-- ==== Sys2Proof/Word.lean ====
section
/-! DEFINITION. Word.lean: the word types of the VX4 and the plain data types that instructions and inputs carry.
Names follow the manual (spec/03_core.md R16 to R22, spec/05_encoding_assembly.md R78). -/

namespace Sys2Proof

abbrev Byte := BitVec 8
abbrev Half := BitVec 16
abbrev Word := BitVec 32
abbrev DWord := BitVec 64
abbrev VWord := BitVec 512

/-- A scalar, vector or bank register number, or a named barrier, by the size of its file (R16). -/
abbrev Reg := Fin 32
abbrev HReg := Fin 16
abbrev KReg := Fin 8
abbrev Tree := Fin 16
abbrev BarName := Fin 512

/-- The element types of page 2 (R78): mod6 codes 0 to 10 in this order. -/
inductive ElemType where
  | f32 | bf16 | f16 | e4m3 | e5m2 | i32 | i16 | i8 | u8 | u16 | u32
  deriving DecidableEq, Repr, Inhabited

/-- The mask field of a maskable vector instruction (R116): SAT, Z and the mask register KM. -/
structure VMod where
  sat : Bool
  z : Bool
  km : KReg
  deriving DecidableEq, Repr, Inhabited

/-- Tile types of the matrix slice (R129, ACC). -/
inductive AccType where
  | f32 | bf16 | f16 | i32
  deriving DecidableEq, Repr, Inhabited

/-- Output types of mdrq (R129). -/
inductive DrqType where
  | i8 | u8 | i16
  deriving DecidableEq, Repr, Inhabited

/-- Combine operations of xrecva (R179). -/
inductive CombOp where
  | add | max | min | or | and
  deriving DecidableEq, Repr, Inhabited

/-- Operations of the reduction tree (R187). -/
inductive RedOp where
  | add | max | min | and | or | bar
  deriving DecidableEq, Repr, Inhabited

/-- The B4 element types (R47, field T). -/
inductive B4Type where
  | int4 | e2m1 | pow2 | hyb
  deriving DecidableEq, Repr, Inhabited

/-- Trap causes (R20). `pfx` is the cause PREFIX. -/
inductive Cause where
  | illegal | pfx | priv | phase | slot | late | straggler | barrierOver | accHeld | accBank
  | handle | align | localRange | view | heapSpill | engine | grant | break_ | eccUncorr | monitor
  deriving DecidableEq, Repr, Inhabited

/-- The code of a cause (R20). -/
def Cause.code : Cause → Nat
  | .illegal => 0x01 | .pfx => 0x02 | .priv => 0x03 | .phase => 0x04 | .slot => 0x05
  | .late => 0x06 | .straggler => 0x07 | .barrierOver => 0x08 | .accHeld => 0x09 | .accBank => 0x0A
  | .handle => 0x0B | .align => 0x0C | .localRange => 0x0D | .view => 0x0E | .heapSpill => 0x0F
  | .engine => 0x10 | .grant => 0x11 | .break_ => 0x12 | .eccUncorr => 0x13 | .monitor => 0x14

/-- The control registers of R18. -/
inductive Csr where
  | status | tvec | epc | cause | eaddr | eword | scratch | core | lcore | ncore | tile | part | chip
  | phase | lphase | stragg | xerr | xmiss | cyc | cych | xcyc | fmode | sbase | launch | slew | mcheck
  | accmap | spillmap | tv | lbudget | lmargin | vpcfg | vpst | ecfg | age | thot | tmig | snapctl | snapseq
  deriving DecidableEq, Repr, Inhabited

/-- The number of a control register (R18). -/
def Csr.number : Csr → BitVec 6
  | .status => 0x00 | .tvec => 0x01 | .epc => 0x02 | .cause => 0x03 | .eaddr => 0x04 | .eword => 0x05
  | .scratch => 0x06 | .core => 0x08 | .lcore => 0x09 | .ncore => 0x0A | .tile => 0x0B | .part => 0x0C
  | .chip => 0x0D | .phase => 0x10 | .lphase => 0x11 | .stragg => 0x12 | .xerr => 0x13 | .xmiss => 0x14
  | .cyc => 0x15 | .cych => 0x16 | .xcyc => 0x17 | .fmode => 0x18 | .sbase => 0x19 | .launch => 0x1A
  | .slew => 0x1C | .mcheck => 0x20 | .accmap => 0x21 | .spillmap => 0x22 | .tv => 0x28 | .lbudget => 0x29
  | .lmargin => 0x2A | .vpcfg => 0x30 | .vpst => 0x31 | .ecfg => 0x32 | .age => 0x33 | .thot => 0x34
  | .tmig => 0x35 | .snapctl => 0x36 | .snapseq => 0x37

/-- All control registers, in the order of R18. -/
def Csr.all : List Csr :=
  [.status, .tvec, .epc, .cause, .eaddr, .eword, .scratch, .core, .lcore, .ncore, .tile, .part, .chip,
   .phase, .lphase, .stragg, .xerr, .xmiss, .cyc, .cych, .xcyc, .fmode, .sbase, .launch, .slew, .mcheck,
   .accmap, .spillmap, .tv, .lbudget, .lmargin, .vpcfg, .vpst, .ecfg, .age, .thot, .tmig, .snapctl, .snapseq]

/-- A TLB entry (R231), its reserved fields left out because they read as zero (R4). -/
structure TlbEntry where
  valid : Bool := false
  w : Bool := false
  d : Bool := false
  sz : Fin 4 := 0
  asid : Byte := 0
  vpn : Word := 0
  ppn : Word := 0
  key : BitVec 10 := 0
  deriving DecidableEq, Repr, Inhabited

/-- One participant's contribution to a reduction (R163): its logical core, operation, type, SAT, lane count, lanes. -/
structure RedContrib where
  lcore : Nat
  op : RedOp
  type : ElemType
  sat : Bool
  n : Nat
  lanes : List Word
  deriving DecidableEq, Repr, Inhabited

/-- What one receiver of an optical path measured (R300): margin in tenths of a dB, CRC failures. -/
structure RxMeas where
  margin : Int
  crc : Nat
  deriving DecidableEq, Repr, Inhabited

/-- An allowance {granting chip, WIN, OFF, LEN, TAG} (R331), and the chip it is granted to. -/
structure Allowance where
  granter : Nat := 0
  grantee : Nat := 0
  win : Nat := 0
  off : Nat := 0
  len : Nat := 0
  tag : Half := 0
  deriving DecidableEq, Repr, Inhabited

/-- The class of a packet (R324): the first four are requests. -/
inductive PacketClass where
  | put | get | allowance | deregNotice | ack | readData | needAllowance | deregAnswer | reject
  deriving DecidableEq, Repr, Inhabited

def PacketClass.request : PacketClass → Bool
  | .put | .get | .allowance | .deregNotice => true
  | .ack | .readData | .needAllowance | .deregAnswer | .reject => false

/-- A packet between chips (R324): its header, with the number that the chip it is for or from gave the operation, and what
its payload says. Of a put or of read data the payload is the bytes from `pos` on, of `len` in all; `bad` are its 16-byte
units, counted in the whole, that are not sent (R330). In an acknowledgement `len` is the bytes moved. -/
structure Packet where
  cls : PacketClass := .put
  dest : Nat := 0
  origin : Nat := 0
  tv : Option Half := none
  op : Nat := 0
  win : Nat := 0
  off : Nat := 0
  len : Nat := 0
  pos : Nat := 0
  status : Nat := 0
  aperture : Bool := false
  allow : Option Allowance := none
  data : List Byte := []
  bad : List Nat := []
  deriving DecidableEq, Repr, Inhabited

/-- The last packet of its class for its operation. -/
def Packet.last (k : Packet) : Bool :=
  match k.cls with
  | .put | .readData => decide (k.len ≤ k.pos + k.data.length)
  | _ => true

/-- What a frame carries (R321, R337, R338). -/
inductive Line where
  | packet (k : Packet)
  | drainMarker
  | commitMarker (v : Half)
  deriving DecidableEq, Repr, Inhabited

/-- The mode of a tile gate (R214). -/
inductive GateMode where
  | retain | off
  deriving DecidableEq, Repr, Inhabited

/-- The settings firmware gives a partition (R190), and whether its service firmware runs with fault notices on (R217). -/
structure PartSettings where
  tiles : List Nat := []
  stragg : Word := 0
  mcheck : Bool := false
  preemptLimit : Nat := 1
  lbudget : Nat := 0
  notices : Bool := false
  runtime : List Byte := []
  deriving DecidableEq, Repr, Inhabited

/-- The memory a data error arises in (R239, R240). -/
inductive MemKind where
  | local_ | acc | lpddr | host
  deriving DecidableEq, Repr, Inhabited

/-- What another core of the tile row shows this core over the row's wires (R33, R34, R139, R140): its column, the
size code of an mgang it waits at, its gang size code, the matrix instruction it waits with (fn, mod6) and, where it
leads, its A slot with the slot's view and scale bytes; whether it waits at mfollow, leads or follows. -/
structure RowCore where
  col : Fin 4
  gang : Option (Fin 3) := none
  gsz : Fin 3 := 0
  op : Option (Nat × BitVec 6) := none
  slotView : Nat := 0
  slot : List Byte := []
  scales : List Byte := []
  wantsFollow : Bool := false
  following : Bool := false
  deriving DecidableEq, Repr, Inhabited

/-- What a step of another agent carries with it (log 1). Each step reads the fields that its meaning names; the rest
stay at their defaults. -/
structure Input where
  /-- The number that says what the step is about: a place in the copy FIFO, a TLB entry, a grant, a wavelength, a
  collective, a slot, a counter, an index. -/
  n : Nat := 0
  status : Nat := 0
  port : Fin 32 := 0
  peerPort : Nat := 0
  chip : Nat := 0
  seq : Nat := 0
  op : Nat := 0
  win : Nat := 0
  off : Nat := 0
  len : Nat := 0
  addr : Nat := 0
  value : Word := 0
  flag : Bool := false
  flag2 : Bool := false
  tree : Tree := 0
  data : List Byte := []
  msgs : List DWord := []
  nums : List Nat := []
  pairs : List (Nat × Nat) := []
  contribs : List RedContrib := []
  meas : List (Nat × List RxMeas) := []
  tlb : TlbEntry := {}
  allow : Option Allowance := none
  packet : Packet := {}
  cfg : PartSettings := {}
  /-- a signed image, from the first byte of its header on -/
  img : List Byte := []
  mem : MemKind := .local_
  gate : GateMode := .retain
  temps : List Int := []
  /-- losses that firmware measures: source, lane, tile, tenths of a dB -/
  losses : List (Nat × Nat × Nat × Nat) := []
  row : Option (List RowCore) := none
  stream : List (Word × List Half) := []
  deriving DecidableEq, Repr, Inhabited

end Sys2Proof
end

