-- ==== Sys2Proof/Syntax.lean ====
section
/-! DEFINITION. Syntax.lean: the instructions, one constructor for each row of the table of operations and events
(spec/opcode_table.json). The first part holds the encoded instructions (spec/05 R72), the special forms of R21, R186,
R195, R324 and R350 that the table lists as rows of their own, and the two ways a fetch fails. The second part holds
the steps of engines, controllers, firmware, links, boot and the outside (spec/95): what such a step carries with it
(a port, a packet, an image) stands in the field `input` of the state (log 1). -/

namespace Sys2Proof

inductive Instr where
  /- Page 0: scalar arithmetic (R88, R89). -/
  | add (d : Reg) (a : Reg) (b : Reg)
  | sub (d : Reg) (a : Reg) (b : Reg)
  | and (d : Reg) (a : Reg) (b : Reg)
  | or (d : Reg) (a : Reg) (b : Reg)
  | xor (d : Reg) (a : Reg) (b : Reg)
  | shl (d : Reg) (a : Reg) (b : Reg)
  | shr (d : Reg) (a : Reg) (b : Reg)
  | sra (d : Reg) (a : Reg) (b : Reg)
  | slt (d : Reg) (a : Reg) (b : Reg)
  | sltu (d : Reg) (a : Reg) (b : Reg)
  | seq (d : Reg) (a : Reg) (b : Reg)
  | sne (d : Reg) (a : Reg) (b : Reg)
  | min (d : Reg) (a : Reg) (b : Reg)
  | max (d : Reg) (a : Reg) (b : Reg)
  | minu (d : Reg) (a : Reg) (b : Reg)
  | maxu (d : Reg) (a : Reg) (b : Reg)
  | mul (d : Reg) (a : Reg) (b : Reg)
  | mulh (d : Reg) (a : Reg) (b : Reg)
  | mulhu (d : Reg) (a : Reg) (b : Reg)
  | div (d : Reg) (a : Reg) (b : Reg)
  | divu (d : Reg) (a : Reg) (b : Reg)
  | rem (d : Reg) (a : Reg) (b : Reg)
  | remu (d : Reg) (a : Reg) (b : Reg)
  | madd (d : Reg) (a : Reg) (b : Reg) (c : Reg)
  | clz (d : Reg) (a : Reg)
  | ctz (d : Reg) (a : Reg)
  | popc (d : Reg) (a : Reg)
  | sextB (d : Reg) (a : Reg)
  | sextH (d : Reg) (a : Reg)
  | zextB (d : Reg) (a : Reg)
  | zextH (d : Reg) (a : Reg)
  | sel (d : Reg) (a : Reg) (b : Reg) (c : Reg)
  /- Immediate arithmetic (R90, R91). -/
  | addi (d : Reg) (a : Reg) (imm : BitVec 26)
  | andi (d : Reg) (a : Reg) (imm : BitVec 26)
  | ori (d : Reg) (a : Reg) (imm : BitVec 26)
  | xori (d : Reg) (a : Reg) (imm : BitVec 26)
  | slti (d : Reg) (a : Reg) (imm : BitVec 26)
  | sltiu (d : Reg) (a : Reg) (imm : BitVec 26)
  | shli (d : Reg) (a : Reg) (n : BitVec 5)
  | shri (d : Reg) (a : Reg) (n : BitVec 5)
  | srai (d : Reg) (a : Reg) (n : BitVec 5)
  /- Loads and stores to local memory (R92, R93). -/
  | ldW (d : Reg) (a : Reg) (imm : BitVec 26)
  | stW (d : Reg) (a : Reg) (imm : BitVec 26)
  | ldB (d : Reg) (a : Reg) (b : Reg)
  | ldBu (d : Reg) (a : Reg) (b : Reg)
  | ldH (d : Reg) (a : Reg) (b : Reg)
  | ldHu (d : Reg) (a : Reg) (b : Reg)
  | ldWx (d : Reg) (a : Reg) (b : Reg)
  | stB (d : Reg) (a : Reg) (b : Reg)
  | stH (d : Reg) (a : Reg) (b : Reg)
  | stWx (d : Reg) (a : Reg) (b : Reg)
  /- Branches, jumps, the hardware loop (R94 to R99). -/
  | bz (a : Reg) (off : BitVec 26)
  | bnz (a : Reg) (off : BitVec 26)
  | bltz (a : Reg) (off : BitVec 26)
  | bgez (a : Reg) (off : BitVec 26)
  | bgtz (a : Reg) (off : BitVec 26)
  | blez (a : Reg) (off : BitVec 26)
  | j (off : BitVec 31)
  | jal (off : BitVec 31)
  | jr (a : Reg)
  | jalr (a : Reg)
  | loop (a : Reg) (e : BitVec 26)
  /- Control registers (R100); the last three rows are the special accesses of R21, R195 and R324. -/
  | csrr (d : Reg) (n : Csr)
  | csrw (n : Csr) (a : Reg)
  | csrs (n : Csr) (a : Reg)
  | csrc (n : Csr) (a : Reg)
  | cycRead (d : Reg)
  | ageWrite (a : Reg)
  | tvWrite (a : Reg)
  /- System (R101 to R108). -/
  | trap (a : Reg)
  | eret
  | halt
  | snap (d : Reg)
  | xload (d : Reg) (a : Reg)
  | fence
  | evwr (a : Reg) (b : Reg)
  /- Page 1: handles (R110 to R113). -/
  | hset (d : HReg) (a : Reg)
  | hget (d : Reg) (a : HReg) (sel : Fin 8)
  | hwaitf (d : HReg) (a : Reg)
  | hwaite (d : HReg) (a : Reg)
  | hadvc (d : HReg) (a : Reg)
  | hadvp (d : HReg) (a : Reg)
  | hreset (d : HReg)
  /- Named barriers (R174 to R177). -/
  | barm (a : Reg) (n : BarName)
  | barr (n : BarName)
  | bwait (a : Reg) (n : BarName)
  | btest (a : Reg) (n : BarName)
  | bstat (a : Reg) (n : BarName)
  | bexp (a : Reg) (n : BarName)
  | binv (n : BarName)
  /- Mailbox (R172, R173). -/
  | wmsg (d : Reg)
  | rmsg (d : Reg) (a : Reg)
  | mcnt (d : Reg)
  | msend (a : Reg) (b : Reg)
  /- Wait-on-address (R171). -/
  | waita (d : Reg) (a : Reg)
  | clra (a : Reg)
  | monn (d : Reg) (a : Reg)
  /- Page 2: vector arithmetic (R119, R120). -/
  | vadd (t : ElemType) (d : Reg) (a : Reg) (b : Reg) (m : VMod)
  | vsub (t : ElemType) (d : Reg) (a : Reg) (b : Reg) (m : VMod)
  | vmul (t : ElemType) (d : Reg) (a : Reg) (b : Reg) (m : VMod)
  | vmin (t : ElemType) (d : Reg) (a : Reg) (b : Reg) (m : VMod)
  | vmax (t : ElemType) (d : Reg) (a : Reg) (b : Reg) (m : VMod)
  | vand (t : ElemType) (d : Reg) (a : Reg) (b : Reg) (m : VMod)
  | vor (t : ElemType) (d : Reg) (a : Reg) (b : Reg) (m : VMod)
  | vxor (t : ElemType) (d : Reg) (a : Reg) (b : Reg) (m : VMod)
  | vfma (t : ElemType) (d : Reg) (a : Reg) (b : Reg) (c : Reg) (m : VMod)
  | vabs (t : ElemType) (d : Reg) (a : Reg) (m : VMod)
  | vneg (t : ElemType) (d : Reg) (a : Reg) (m : VMod)
  | vshl (t : ElemType) (d : Reg) (a : Reg) (b : Reg) (m : VMod)
  | vshr (t : ElemType) (d : Reg) (a : Reg) (b : Reg) (m : VMod)
  | vsra (t : ElemType) (d : Reg) (a : Reg) (b : Reg) (m : VMod)
  | vsel (t : ElemType) (d : Reg) (a : Reg) (b : Reg) (c : KReg)
  | vcmpeq (t : ElemType) (d : KReg) (a : Reg) (b : Reg) (m : VMod)
  | vcmplt (t : ElemType) (d : KReg) (a : Reg) (b : Reg) (m : VMod)
  | vcmple (t : ElemType) (d : KReg) (a : Reg) (b : Reg) (m : VMod)
  | vexp (t : ElemType) (d : Reg) (a : Reg) (m : VMod)
  | vrcp (t : ElemType) (d : Reg) (a : Reg) (m : VMod)
  | vrsqrt (t : ElemType) (d : Reg) (a : Reg) (m : VMod)
  | vsat (t : ElemType) (d : Reg) (a : Reg) (b : Reg) (m : VMod)
  /- Conversion, permutation, reduction (R121, R122). -/
  | vcvt (td : ElemType) (ts : ElemType) (sat : Bool) (d : Reg) (a : Reg)
  | vpack (td : ElemType) (ts : ElemType) (sat : Bool) (d : Reg) (a : Reg) (b : Reg)
  | vunpack (td : ElemType) (ts : ElemType) (sat : Bool) (d : Reg) (a : Reg) (h : Bool)
  | vshuf (t : ElemType) (d : Reg) (a : Reg) (b : Reg) (m : VMod)
  | vbcast (t : ElemType) (d : Reg) (a : Reg) (m : VMod)
  | vmov (t : ElemType) (d : Reg) (a : Reg) (m : VMod)
  | vredsum (t : ElemType) (d : Reg) (a : Reg) (m : VMod)
  | vredmax (t : ElemType) (d : Reg) (a : Reg) (m : VMod)
  | vredmin (t : ElemType) (d : Reg) (a : Reg) (m : VMod)
  | vscan (t : ElemType) (d : Reg) (a : Reg) (m : VMod)
  | vmovs (t : ElemType) (d : Reg) (a : Reg) (b : Reg)
  | vext (t : ElemType) (d : Reg) (a : Reg) (b : Reg) (m : VMod)
  /- Vector loads and stores (R123 to R126). -/
  | vld (d : Reg) (a : Reg) (imm : BitVec 26)
  | vst (d : Reg) (a : Reg) (imm : BitVec 26)
  | vldc (t : ElemType) (d : Reg) (a : Reg) (sat : Bool) (u : Bool)
  | vstc (t : ElemType) (d : Reg) (a : Reg) (sat : Bool) (u : Bool) (b4 : B4Type)
  | vldb (t : ElemType) (d : Reg) (a : Reg) (m : VMod)
  | vldx (t : ElemType) (d : Reg) (a : Reg) (b : Reg) (m : VMod)
  | vstx (t : ElemType) (d : Reg) (a : Reg) (b : Reg) (m : VMod)
  | vldh (d : Reg) (a : HReg) (b : Reg)
  | vsth (d : Reg) (a : HReg) (b : Reg)
  /- Masks (R127). -/
  | kand (d : KReg) (a : KReg) (b : KReg)
  | kor (d : KReg) (a : KReg) (b : KReg)
  | kxor (d : KReg) (a : KReg) (b : KReg)
  | knot (d : KReg) (a : KReg)
  | kmov (d : KReg) (a : Reg) (b : Reg)
  | kpop (d : Reg) (a : KReg)
  /- Page 3: matrix (R128 to R140). -/
  | mma (acc : AccType) (d : Reg) (a : HReg) (b : HReg)
  | mmai (sat : Bool) (ua : Bool) (ub : Bool) (d : Reg) (a : HReg) (b : HReg)
  | mzero (acc : AccType) (d : Reg)
  | mload (acc : AccType) (bc : Bool) (d : Reg) (a : Reg)
  | mdrain (acc : AccType) (d : Reg) (a : Reg)
  | mdrq (o : DrqType) (d : Reg) (a : Reg) (b : Reg)
  | mrsum (sat : Bool) (u : Bool) (d : Reg) (a : HReg) (b : Reg)
  | mcsum (sat : Bool) (u : Bool) (d : Reg) (a : HReg) (b : Reg)
  | mgang (n : Fin 3)
  | mfollow
  | munfollow (a : Reg)
  | mwait (d : Reg)
  /- Banks and parking (R141, R142). -/
  | aalloc (a : Reg) (b : Reg) (n : Nat)
  | afree (b : Reg) (n : Nat)
  | aquery (a : Reg) (q : Fin 4)
  | spill (vec : Bool) (a : Reg)
  | fill (vec : Bool) (a : Reg)
  /- Page 4: copy engine (R247 to R258). -/
  | cpush (a : Reg)
  | cpushnb (d : Reg) (a : Reg)
  | cfree (d : Reg)
  | cfence
  | cset (n : Fin 3) (a : Reg) (b : Reg)
  | cget (d : Reg) (n : Fin 4) (h : Bool)
  /- Page 5: exchange (R178 to R181). -/
  | xsend (cls : Fin 8) (a : Reg) (off : BitVec 13)
  | xrecv (cls : Fin 8) (a : Reg) (off : BitVec 13)
  | xrecva (t : ElemType) (op : CombOp) (sat : Bool) (cls : Fin 8) (a : Reg) (off : BitVec 13)
  | xmc (lane : Fin 4) (cls : Fin 8) (a : Reg) (off : BitVec 13)
  | xsel (port : Fin 5) (off : BitVec 13)
  | xend (off : BitVec 13)
  /- Phase and tree control (R182 to R186); phase is one encoding, its two requests are the last two rows. -/
  | sync (a : Reg)
  | lsync (g : Tree) (a : Reg)
  | arrive (g : Tree)
  | await (g : Tree)
  | dom (g : Tree) (a : Reg) (b : Reg)
  | phaseQuery (d : Reg) (a : Reg)
  | phaseCancel (d : Reg) (a : Reg)
  /- Reductions (R187). -/
  | redAdd (t : ElemType) (sat : Bool) (d : Reg) (a : Reg) (g : Tree) (c : Reg) (n : Fin 16)
  | redMax (t : ElemType) (sat : Bool) (d : Reg) (a : Reg) (g : Tree) (c : Reg) (n : Fin 16)
  | redMin (t : ElemType) (sat : Bool) (d : Reg) (a : Reg) (g : Tree) (c : Reg) (n : Fin 16)
  | redAnd (t : ElemType) (sat : Bool) (d : Reg) (a : Reg) (g : Tree) (c : Reg) (n : Fin 16)
  | redOr (t : ElemType) (sat : Bool) (d : Reg) (a : Reg) (g : Tree) (c : Reg) (n : Fin 16)
  | redBar (g : Tree)
  /- Page 6: vocabulary projection (R279 to R288). -/
  | vpinit (d : Reg) (a : Reg) (b : Reg)
  | vpfold (d : Reg) (a : Reg) (b : Reg)
  | vpmerge (d : Reg) (a : Reg)
  | vpread (d : Reg) (a : Reg)
  | vpregen (d : Reg) (a : Reg) (b : Reg)
  | vpspill (a : Reg)
  | vplabel (d : Reg) (a : Reg)
  | vpstat (d : Reg)
  /- Optics (R305 to R311). -/
  | lgrant (d : Reg) (a : Reg)
  | lrelease (a : Reg)
  | lstat (d : Reg) (a : Reg)
  | lmargin (d : Reg) (a : Reg)
  | lmode (d : Reg) (a : Reg) (b : Reg)
  /- Fabric (R344 to R350); drain is one encoding, its other operations are the three rows after it. -/
  | wreg (d : Reg) (a : Reg)
  | wdereg (d : Reg) (a : Reg)
  | wput (d : Reg) (a : Reg)
  | wget (d : Reg) (a : Reg)
  | wrtr (d : Reg) (a : Reg)
  | wcnt (d : Reg) (a : Reg) (b : Reg)
  | wwait (d : Reg) (a : Reg) (b : Reg)
  | tvget (d : Reg) (a : Reg)
  | tvstage (d : Reg) (a : Reg)
  | tvcommit (d : Reg) (a : Reg)
  | cstep (d : Reg) (a : Reg)
  | cstat (d : Reg) (a : Reg)
  | cresume (d : Reg) (a : Reg) (b : Reg)
  | drain (d : Reg) (a : Reg) (b : Reg)
  | drainFec (d : Reg) (a : Reg) (b : Reg)
  | drainRetrain (d : Reg) (a : Reg) (b : Reg)
  | undrain (d : Reg) (a : Reg) (b : Reg)
  | lnkstat (d : Reg) (a : Reg)
  /- Fetched chains that are no instruction, and fetch faults (R62, R66, R73). -/
  | illegalEncoding (cause : Cause)
  | fetchFault (cause : Cause) (addr : Word)
  /- Steps of other agents. -/
  /- The mailbox (R172). -/
  | mailboxPost
  /- The matrix slice (R132). -/
  | matrixStart
  | matrixRetire
  /- Copy commands at work (R219 to R235). -/
  | load
  | store
  | gather
  | scatter
  | im2col
  | update
  | fillCommand
  | copyBeat
  | tlbWrite
  | tlbInvalidate
  | commandEndByFirmware
  | copyCompletion
  | updateApply
  | scrubPass
  /- An arriving exchange beat (R153). -/
  | exchangeBeatReceive
  /- Steps of the reduction tree, the phase controller and the wired trees (R145 to R163). -/
  | reductionResult
  | reductionStraggler
  | phaseRelease
  | stragglerExpiry
  | exchangePhaseEnd
  | localRelease
  | localPhaseEnd
  | treeComplete
  | awaitStraggler
  /- The head unit (R265). -/
  | headOpComplete
  /- Steps of light (R299 to R304). -/
  | settlingEnd
  | measurementWindow
  | wavelengthFail
  | wavelengthRestore
  | linkStep
  | linkStepTimeout
  /- Time-outs of waiting fabric instructions (R338, R345, R347, R350). -/
  | drainTimeout
  | commitTimeout
  | wderegTimeout
  | wwaitTimeout
  /- Links and ports (R318 to R323). -/
  | lightDetect
  | lockAcquired
  | lockTimeout
  | burstLoss
  | lossOfLock
  | idleBurst
  | linkBringup
  | frameReceive
  | frameAck
  | fecRequest
  | fecAck
  | fecRequestRepeat
  | fecRevert
  | fecChangeTimeout
  /- Packets between chips (R324 to R340). -/
  | transitPacket
  | staleTv
  | putArrive
  | getArrive
  | getDataArrive
  | allowanceArrive
  | rendezvousAnswer
  | putAckArrive
  | drainMarkerArrive
  | commitMarkerArrive
  | deregNoticeArrive
  | deregAnswerArrive
  /- The collective engine (R341 to R343). -/
  | collectivePut
  | collectiveWait
  | collectiveReduce
  | collectiveEnd
  | collectiveFreeze
  /- Launches and scheduling (R190 to R215). -/
  | launchSubmit
  | launchAdmit
  | agingRaise
  | counterWrite
  | launchComplete
  | launchEndedByFirmware
  | coreRestart
  | preemptSwap
  | preemptOverdue
  | shadowPage
  | partitionConfig
  | sensorSample
  | thermal
  | thermalMigration
  | slewWindow
  | tileGate
  | tileUngate
  /- Power, boot and system services (R353 to R365). -/
  | powerGood
  | resetRelease
  | railFault
  | thermalTrip
  | bootSourceTimeout
  | boot
  | mgmtStatus
  | bootimg
  | attest
  | keyload
  | keyclear
  | mgmtSnap
  | snapread
  | snapshotLatch
  | evread
  | checkpoint
  | restore
  | svncommit
  | mgmtReset
  | eventRecordDeliver
  | logTailWrite
  | hostRegisterWrite
  /- Further events. -/
  | serviceInboxTake
  | resetNAssert
  | memoryError
  | checkpointEnd
  deriving DecidableEq, Repr

end Sys2Proof
end

