-- ==== Sys2Proof/WellFormed.lean ====
section
/-! DEFINITION. WellFormed.lean: which instructions an encoding can name. The checks are the ILLEGAL rules that depend
on the words alone: accepted element types and modifiers, operand ranges (R73, R116, R119 to R127, R141, R179, R187,
R254). A row of the table that has no encoding is not well-formed. -/

namespace Sys2Proof

namespace ElemType

/-- Class F of R119. -/
def isF : ElemType → Bool
  | .f32 | .bf16 | .f16 => true
  | _ => false

/-- Class S of R119. -/
def isS : ElemType → Bool
  | .i32 | .i16 | .i8 => true
  | _ => false

/-- Class U of R119. -/
def isU : ElemType → Bool
  | .u32 | .u16 | .u8 => true
  | _ => false

/-- Class I of R119: S and U together. -/
def isI (t : ElemType) : Bool := t.isS || t.isU

/-- Floating-point formats: F and F8 (R119). -/
def isFloat (t : ElemType) : Bool := !t.isI

/-- The width of an element in bits (R44, R45). -/
def width : ElemType → Nat
  | .f32 | .i32 | .u32 => 32
  | .bf16 | .f16 | .i16 | .u16 => 16
  | .e4m3 | .e5m2 | .i8 | .u8 => 8

/-- The width of an element in bytes. -/
def bytes (t : ElemType) : Nat := t.width / 8

/-- The lanes of a vector register of this type: N = 512 / w (R115). -/
def lanes (t : ElemType) : Nat := 512 / t.width

end ElemType

/-- A modifier without SAT, where an entry accepts none (R116, R119). -/
def VMod.noSat (m : VMod) : Bool := !m.sat

/-- SAT only with integer types (R119). -/
def VMod.satI (m : VMod) (t : ElemType) : Bool := !m.sat || t.isI

/-- Class F or I: everything but F8 (R119). -/
def ElemType.arith (t : ElemType) : Bool := t.isF || t.isI

/-- The combines of R179: or and and take integers; SAT goes with add. -/
def combOk (t : ElemType) (op : CombOp) (sat : Bool) : Bool :=
  match op with
  | .add => true
  | .max | .min => !sat
  | .or | .and => t.isI && !sat

/-- The types and SAT of a reduction (R187). -/
def redOk (op : RedOp) (t : ElemType) (sat : Bool) : Bool :=
  match op with
  | .add => (t == .f32 && !sat) || t == .i32 || t == .u32
  | .max | .min => (t == .f32 || t == .i32 || t == .u32) && !sat
  | .and | .or => (t == .i32 || t == .u32) && !sat
  | .bar => t == .f32 && !sat

/-- Well-formed instructions: those that some encoding names. Rows that are steps of other agents are not. -/
def Instr.wf : Instr → Bool
  | .add .. | .sub .. | .and .. | .or .. | .xor .. | .shl .. | .shr .. | .sra .. | .slt .. | .sltu .. | .seq ..
  | .sne .. | .min .. | .max .. | .minu .. | .maxu .. | .mul .. | .mulh .. | .mulhu .. | .div .. | .divu ..
  | .rem .. | .remu .. | .madd .. | .clz .. | .ctz .. | .popc .. | .sextB .. | .sextH .. | .zextB .. | .zextH ..
  | .sel .. | .addi .. | .andi .. | .ori .. | .xori .. | .slti .. | .sltiu .. | .shli .. | .shri .. | .srai ..
  | .ldW .. | .stW .. | .ldB .. | .ldBu .. | .ldH .. | .ldHu .. | .ldWx .. | .stB .. | .stH .. | .stWx ..
  | .bz .. | .bnz .. | .bltz .. | .bgez .. | .bgtz .. | .blez .. | .j .. | .jal .. | .jr .. | .jalr .. | .loop ..
  | .csrr .. | .csrw .. | .csrs .. | .csrc .. | .trap .. | .eret | .halt | .snap .. | .xload .. | .fence
  | .evwr .. | .hset .. | .hget .. | .hwaitf .. | .hwaite .. | .hadvc .. | .hadvp .. | .hreset .. | .barm ..
  | .barr .. | .bwait .. | .btest .. | .bstat .. | .bexp .. | .binv .. | .wmsg .. | .rmsg .. | .mcnt ..
  | .msend .. | .waita .. | .clra .. | .monn .. => true
  | .vadd t _ _ _ m | .vsub t _ _ _ m | .vmul t _ _ _ m => t.arith && m.satI t
  | .vfma t _ _ _ _ m => t.arith && m.satI t
  | .vmin t _ _ _ m | .vmax t _ _ _ m | .vsat t _ _ _ m => t.arith && m.noSat
  | .vand _ _ _ _ m | .vor _ _ _ _ m | .vxor _ _ _ _ m => m.noSat
  | .vabs t _ _ m | .vneg t _ _ m => (t.isF || t.isS) && (!m.sat || t.isS)
  | .vshl t _ _ _ m | .vshr t _ _ _ m => t.isI && m.noSat
  | .vsra t _ _ _ m => t.isS && m.noSat
  | .vsel .. => true
  | .vcmpeq _ _ _ _ m | .vcmplt _ _ _ _ m | .vcmple _ _ _ _ m => m.noSat
  | .vexp t _ _ m | .vrcp t _ _ m | .vrsqrt t _ _ m => t.isF && m.noSat
  | .vcvt .. => true
  | .vpack td ts _ _ _ _ => ts.width == 2 * td.width
  | .vunpack td ts _ _ _ _ => td.width == 2 * ts.width
  | .vshuf _ _ _ _ m | .vext _ _ _ _ m => m.noSat
  | .vbcast _ _ _ m | .vmov _ _ _ m => m.noSat
  | .vredsum t _ _ m | .vredmax t _ _ m | .vredmin t _ _ m => t.arith && m.satI t && !m.z
  | .vscan t _ _ m => t.arith && m.satI t
  | .vmovs .. | .vld .. | .vst .. | .vldc .. | .vstc .. => true
  | .vldb _ _ _ m => m.noSat
  | .vldx t _ _ _ m | .vstx t _ _ _ m => t.isI && m.noSat
  | .vldh .. | .vsth .. | .kand .. | .kor .. | .kxor .. | .knot .. | .kmov .. | .kpop .. => true
  | .mma acc _ _ _ => acc != .i32
  | .mmai .. | .mzero .. | .mload .. | .mdrain .. | .mdrq .. | .mrsum .. | .mcsum .. | .mgang .. | .mfollow
  | .munfollow .. | .mwait .. => true
  | .aalloc _ _ n | .afree _ n => n ≤ 32
  | .aquery .. | .spill .. | .fill .. => true
  | .cpush a | .cpushnb _ a => a.val ≤ 28
  | .cfree .. | .cfence | .cset .. | .cget .. => true
  | .xsend _ _ off | .xrecv _ _ off | .xmc _ _ _ off | .xsel _ off => off.toNat ≤ 4095
  | .xrecva t op sat _ _ off => combOk t op sat && off.toNat ≤ 4095
  | .xend off => 1 ≤ off.toNat && off.toNat ≤ 4096
  | .sync .. | .lsync .. | .arrive .. | .await .. | .dom .. | .phaseQuery .. => true
  | .redAdd t sat _ _ _ _ _ => redOk .add t sat
  | .redMax t sat _ _ _ _ _ => redOk .max t sat
  | .redMin t sat _ _ _ _ _ => redOk .min t sat
  | .redAnd t sat _ _ _ _ _ => redOk .and t sat
  | .redOr t sat _ _ _ _ _ => redOk .or t sat
  | .redBar .. => true
  | .vpinit .. | .vpfold .. | .vpmerge .. | .vpread .. | .vpregen .. | .vpspill .. | .vplabel .. | .vpstat ..
  | .lgrant .. | .lrelease .. | .lstat .. | .lmargin .. | .lmode .. | .wreg .. | .wdereg .. | .wput .. | .wget ..
  | .wrtr .. | .wcnt .. | .wwait .. | .tvget .. | .tvstage .. | .tvcommit .. | .cstep .. | .cstat .. | .cresume ..
  | .drain .. | .lnkstat .. => true
  | .cycRead .. | .ageWrite .. | .tvWrite .. | .mailboxPost .. | .matrixStart | .matrixRetire .. | .load ..
  | .store .. | .gather .. | .scatter .. | .im2col .. | .update .. | .fillCommand .. | .copyBeat ..
  | .tlbWrite .. | .tlbInvalidate .. | .commandEndByFirmware .. | .copyCompletion .. | .updateApply ..
  | .scrubPass | .exchangeBeatReceive .. | .phaseCancel .. | .reductionResult .. | .reductionStraggler
  | .phaseRelease .. | .stragglerExpiry | .exchangePhaseEnd | .localRelease .. | .localPhaseEnd
  | .treeComplete .. | .awaitStraggler | .headOpComplete | .settlingEnd .. | .measurementWindow ..
  | .wavelengthFail .. | .wavelengthRestore .. | .linkStep .. | .linkStepTimeout .. | .drainFec ..
  | .drainRetrain .. | .undrain .. | .drainTimeout | .commitTimeout | .wderegTimeout | .wwaitTimeout
  | .lightDetect .. | .lockAcquired .. | .lockTimeout .. | .burstLoss .. | .lossOfLock .. | .idleBurst ..
  | .linkBringup .. | .frameReceive .. | .frameAck .. | .fecRequest .. | .fecAck .. | .fecRequestRepeat ..
  | .fecRevert .. | .fecChangeTimeout .. | .transitPacket .. | .staleTv .. | .putArrive .. | .getArrive ..
  | .getDataArrive .. | .allowanceArrive .. | .rendezvousAnswer .. | .putAckArrive .. | .drainMarkerArrive ..
  | .commitMarkerArrive .. | .deregNoticeArrive .. | .deregAnswerArrive .. | .collectivePut ..
  | .collectiveWait .. | .collectiveReduce .. | .collectiveEnd .. | .collectiveFreeze .. | .launchSubmit ..
  | .launchAdmit | .agingRaise .. | .counterWrite .. | .launchComplete | .launchEndedByFirmware
  | .coreRestart .. | .preemptSwap | .preemptOverdue | .shadowPage .. | .partitionConfig .. | .sensorSample ..
  | .thermal | .thermalMigration .. | .slewWindow | .tileGate .. | .tileUngate | .powerGood | .resetRelease ..
  | .railFault | .thermalTrip | .bootSourceTimeout | .boot .. | .mgmtStatus | .bootimg .. | .attest ..
  | .keyload .. | .keyclear .. | .mgmtSnap | .snapread .. | .snapshotLatch | .evread .. | .checkpoint ..
  | .restore .. | .svncommit .. | .mgmtReset | .eventRecordDeliver .. | .logTailWrite ..
  | .hostRegisterWrite .. | .illegalEncoding .. | .fetchFault .. | .serviceInboxTake | .resetNAssert
  | .memoryError .. | .checkpointEnd .. => false

end Sys2Proof
end

