-- ==== Sys2Proof/Decode.lean ====
section
/-! DEFINITION. Decode.lean: instruction words (spec/05 R62 to R73). A chain of up to four words whose bits 15:12 are
0xF (kinds XP, XR, XM, XI) and one base word is read into `Fields`; the opcode map gives the entry of the fields, with
what the entry uses (R66) and the instruction, or none. After it, the encoder of the same tables. -/

namespace Sys2Proof

/-- The kind of a word that precedes a base word (R65). -/
inductive PfxKind where
  | xi | xr | xp | xm
  deriving DecidableEq, Repr

/-- Why a chain is refused. The first six raise PREFIX, the last three ILLEGAL (R66, R73). -/
inductive DecodeError where
  | short         -- the words end before a base word
  | fiveWords     -- R71: a fifth word of the chain is no base word
  | order         -- R66 rules 1 and 2
  | form          -- R66 rules 3 and 4
  | needXm        -- R66 rule 5
  | strayField    -- R66 rules 5 and 6
  | noEntry       -- R73: the encoding names no instruction
  | badOperand    -- R73: a register beyond its file, an unused base field, a selector out of range
  | badValue      -- R73: an element type or modifier the entry does not accept
  deriving DecidableEq, Repr

/-- The trap cause of a refusal (R66, R73). -/
def DecodeError.cause : DecodeError → Cause
  | .short | .fiveWords | .order | .form | .needXm | .strayField => .pfx
  | .noEntry | .badOperand | .badValue => .illegal

/-- The fields of a chain (R63, R65); fields of absent words are 0. -/
structure Fields where
  page : BitVec 4
  mod6 : BitVec 6
  xp : Bool
  xr : Bool
  dhi : BitVec 2
  ahi : BitVec 2
  bhi : BitVec 2
  fnhi : BitVec 4
  xm : Bool
  c : BitVec 5
  mod5 : BitVec 5
  xi : List (BitVec 10)
  base : Half
  deriving DecidableEq, Repr

/-- The chain of a base word alone. -/
def Fields.ofBase (w : Half) : Fields :=
  { page := 0, mod6 := 0, xp := false, xr := false, dhi := 0, ahi := 0, bhi := 0, fnhi := 0, xm := false, c := 0,
    mod5 := 0, xi := [], base := w }

namespace Fields

def maj (f : Fields) : BitVec 4 := f.base.extractLsb' 12 4
def dlo (f : Fields) : BitVec 3 := f.base.extractLsb' 9 3
def alo (f : Fields) : BitVec 3 := f.base.extractLsb' 6 3
def blo (f : Fields) : BitVec 3 := f.base.extractLsb' 3 3
def fnlo (f : Fields) : BitVec 3 := f.base.extractLsb' 0 3
def imm6 (f : Fields) : BitVec 6 := f.base.extractLsb' 0 6
/-- R68: fn widened by XR. -/
def fn (f : Fields) : BitVec 7 := f.fnhi ++ f.fnlo
/-- R68: the register fields widened by XR. -/
def d (f : Fields) : Reg := (f.dhi ++ f.dlo).toFin
def a (f : Fields) : Reg := (f.ahi ++ f.alo).toFin
def b (f : Fields) : Reg := (f.bhi ++ f.blo).toFin
/-- The register of a B-form word: bits 11:9 widened by a-hi (R68). -/
def ba (f : Fields) : Reg := (f.ahi ++ f.dlo).toFin
/-- R70: the third register. -/
def creg (f : Fields) : Reg := f.c.toFin
/-- The amount of a shift-immediate (R63). -/
def sh (f : Fields) : BitVec 5 := f.base.extractLsb' 0 5
/-- L of the J form. -/
def jl (f : Fields) : Bool := f.base.getLsbD 11

/-- A handle or tree number: beyond 15 names nothing (R73). -/
def h16 (r : Reg) : Option HReg := if h : r.val < 16 then some ⟨r.val, h⟩ else none
/-- A mask number: beyond 7 names nothing (R73). -/
def k8 (r : Reg) : Option KReg := if h : r.val < 8 then some ⟨r.val, h⟩ else none

def hd (f : Fields) : Option HReg := h16 f.d
def ha (f : Fields) : Option HReg := h16 f.a
def hb (f : Fields) : Option HReg := h16 f.b
def kd (f : Fields) : Option KReg := k8 f.d
def ka (f : Fields) : Option KReg := k8 f.a
def kb (f : Fields) : Option KReg := k8 f.b
def kc (f : Fields) : Option KReg := k8 f.creg

/-- R67: a 6-bit field widened by the XI words and sign-extended; 26 bits hold every value of one or two XI. -/
def imm26 (f : Fields) : BitVec 26 :=
  match f.xi with
  | [] => f.imm6.signExtend 26
  | [x] => (x ++ f.imm6).signExtend 26
  | x :: y :: _ => y ++ x ++ f.imm6

/-- R67: a 6-bit field widened by the XI words and zero-extended. -/
def widenU (f : Fields) (x6 : BitVec 6) : BitVec 26 :=
  match f.xi with
  | [] => x6.zeroExtend 26
  | [x] => (x ++ x6).zeroExtend 26
  | x :: y :: _ => y ++ x ++ x6

/-- R67: the 11-bit offset of the J form. -/
def imm31 (f : Fields) : BitVec 31 :=
  let o : BitVec 11 := f.base.extractLsb' 0 11
  match f.xi with
  | [] => o.signExtend 31
  | [x] => (x ++ o).signExtend 31
  | x :: y :: _ => y ++ x ++ o

/-- R64: the number {d, b} and the number {a, b}, zero-extended (R63). -/
def num26db (f : Fields) : BitVec 26 := f.widenU (f.dlo ++ f.blo)
def num26ab (f : Fields) : BitVec 26 := f.widenU (f.alo ++ f.blo)

/-- R18, R19: the control register of a number, none for a number not in the table. -/
def csr (_f : Fields) (n : BitVec 26) : Option Csr := Csr.all.find? fun c => c.number.zeroExtend 26 == n

/-- R174: the barrier name, widened by one XI at most: none above 511. A second XI names none (log 45). -/
def bar (f : Fields) : Option BarName :=
  let n := f.widenU f.imm6
  if 2 ≤ f.xi.length then none
  else if h : n.toNat < 512 then some ⟨n.toNat, h⟩ else none

/-- R178: the cycle offset, widened by one XI at most: none above 4,096. A second XI traps (log 45). -/
def off (f : Fields) : Option (BitVec 13) :=
  let n := f.widenU f.imm6
  if 2 ≤ f.xi.length then none
  else if n.toNat ≤ 4096 then some (n.truncate 13) else none

/-- R141: 32 n + b as (n, b), none outside 0 to 1,055. R67 widens it by both XI; that a second XI, which the table of R141
does not show, is accepted is the model's choice (log 45). -/
def bank (f : Fields) : Option (Nat × Reg) :=
  let v := f.imm26.toNat
  if v ≤ 1055 then some (v / 32, ⟨v % 32, Nat.mod_lt _ (by decide)⟩) else none

end Fields

/-- R78: the element type of a mod6 code. -/
def ElemType.ofCode (x : BitVec 6) : Option ElemType :=
  match x.toNat with
  | 0 => some .f32 | 1 => some .bf16 | 2 => some .f16 | 3 => some .e4m3 | 4 => some .e5m2 | 5 => some .i32
  | 6 => some .i16 | 7 => some .i8 | 8 => some .u8 | 9 => some .u16 | 10 => some .u32 | _ => none

/-- R78: the code of an element type. -/
def ElemType.code : ElemType → BitVec 6
  | .f32 => 0 | .bf16 => 1 | .f16 => 2 | .e4m3 => 3 | .e5m2 => 4 | .i32 => 5 | .i16 => 6 | .i8 => 7 | .u8 => 8
  | .u16 => 9 | .u32 => 10

/-- R47: the B4 type of a code. -/
def B4Type.ofCode (x : BitVec 2) : B4Type :=
  match x.toNat with
  | 0 => .int4 | 1 => .e2m1 | 2 => .pow2 | _ => .hyb

def B4Type.code : B4Type → BitVec 2
  | .int4 => 0 | .e2m1 => 1 | .pow2 => 2 | .hyb => 3

/-- R129: the tile type of ACC. -/
def AccType.ofCode (x : BitVec 2) : AccType :=
  match x.toNat with
  | 0 => .f32 | 1 => .bf16 | 2 => .f16 | _ => .i32

def AccType.code : AccType → BitVec 6
  | .f32 => 0 | .bf16 => 1 | .f16 => 2 | .i32 => 3

def DrqType.code : DrqType → BitVec 6
  | .i8 => 0 | .u8 => 1 | .i16 => 2

/-- R179: OP of xrecva; 5 to 7 name nothing. -/
def CombOp.ofCode (x : BitVec 3) : Option CombOp :=
  match x.toNat with
  | 0 => some .add | 1 => some .max | 2 => some .min | 3 => some .or | 4 => some .and | _ => none

def CombOp.code : CombOp → BitVec 3
  | .add => 0 | .max => 1 | .min => 2 | .or => 3 | .and => 4

namespace Fields

def et (f : Fields) : Option ElemType := ElemType.ofCode f.mod6
/-- R121: the source type in mod5 bits 3:0; 11 to 15 name nothing. -/
def ts (f : Fields) : Option ElemType := ElemType.ofCode ((f.mod5.extractLsb' 0 4).zeroExtend 6)
/-- R116: the mask field. -/
def vm (f : Fields) : VMod :=
  { sat := f.mod5.getLsbD 4, z := f.mod5.getLsbD 3, km := (f.mod5.extractLsb' 0 3).toFin }
/-- A half selector in the b field: 0 or 1 (R121, R247). -/
def half (f : Fields) : Option Bool :=
  match f.blo.toNat with
  | 0 => some false | 1 => some true | _ => none
def acc (f : Fields) : AccType := AccType.ofCode (f.mod6.extractLsb' 0 2)
/-- R129: the output type of mdrq. -/
def drq (f : Fields) : Option DrqType :=
  match f.mod6.toNat with
  | 0 => some .i8 | 1 => some .u8 | 2 => some .i16 | _ => none

/-- An entry that takes mod6 = 0 only. -/
def m0 (f : Fields) (i : Option Instr) : Option Instr := if f.mod6 = 0 then i else none
def mz (f : Fields) (i : Instr) : Option Instr := f.m0 (some i)
/-- A field that must be 0. -/
def d0 (f : Fields) (i : Option Instr) : Option Instr := if f.dlo = 0 then i else none
def a0 (f : Fields) (i : Option Instr) : Option Instr := if f.alo = 0 then i else none
def b0 (f : Fields) (i : Option Instr) : Option Instr := if f.blo = 0 then i else none

end Fields

/-- How an entry takes XM (R66 rule 5). -/
inductive XmUse where
  | none | optional | required
  deriving DecidableEq, Repr

/-- What an entry uses of the widening words (R66): which base fields name registers, whether it carries an
immediate, whether XR may stand before it, fn, and XM with its two fields. -/
structure Use where
  d : Bool
  a : Bool
  b : Bool
  fn : Bool
  xi : Bool
  xr : Bool
  xm : XmUse
  c : Bool
  mod5 : Bool
  deriving DecidableEq, Repr

namespace Use

/-- R form with the named register fields and no XM. -/
def r (d a b : Bool) : Use :=
  { d := d, a := a, b := b, fn := true, xi := false, xr := true, xm := .none, c := false, mod5 := false }
def rrr : Use := r true true true
def rr : Use := r true true false
def rd : Use := r true false false
def ra : Use := r false true false
def rab : Use := r false true true
def r0 : Use := r false false false
def rbOnly : Use := r false false true
def rrrc : Use := { rrr with xm := .required, c := true }
def v3 : Use := { rrr with xm := .optional, mod5 := true }
def v2 : Use := { rr with xm := .optional, mod5 := true }
/-- R119, R120: vsel takes mod5 = 0 only, and another value is a value that it does not accept. -/
def vsel : Use := { rrr with xm := .required, c := true, mod5 := true }
def v3c : Use := { rrr with xm := .required, c := true, mod5 := true }
def red : Use := { rrr with xm := .optional, c := true, mod5 := true }
def raImm : Use := { ra with xi := true }
def rdImm : Use := { rd with xi := true }
/-- I form, d and a registers. -/
def imm : Use := { rr with fn := false, xi := true }
def shift : Use := { rr with fn := false }
/-- I form, d a sub-operation, length class, lane or port. -/
def subA : Use := { ra with fn := false, xi := true }
def sub0 : Use := { r0 with fn := false, xi := true }
def subAm : Use := { subA with xm := .required, mod5 := true }
def branch : Use := { ra with fn := false, xi := true }
def jump : Use := { r0 with fn := false, xi := true, xr := false }

/-- R66 rules 3 to 6 for an entry. -/
def check (u : Use) (f : Fields) : Option DecodeError :=
  if (f.xi ≠ [] ∧ u.xi = false) ∨ (f.xr = true ∧ u.xr = false) then some .form
  else if f.xm = true ∧ u.xm = .none then some .strayField
  else if f.xm = false ∧ u.xm = .required then some .needXm
  else if (f.dhi ≠ 0 ∧ u.d = false) ∨ (f.ahi ≠ 0 ∧ u.a = false) ∨ (f.bhi ≠ 0 ∧ u.b = false)
      ∨ (f.fnhi ≠ 0 ∧ u.fn = false) ∨ (f.c ≠ 0 ∧ u.c = false) ∨ (f.mod5 ≠ 0 ∧ u.mod5 = false) then some .strayField
  else none

end Use

/-- R88, R89: page 0, MAJ 0x0. -/
def entryP0M0 (f : Fields) : Option (Use × Option Instr) :=
  match f.fn.toNat with
  | 0 => some (.rrr, f.mz (.add f.d f.a f.b))
  | 1 => some (.rrr, f.mz (.sub f.d f.a f.b))
  | 2 => some (.rrr, f.mz (.and f.d f.a f.b))
  | 3 => some (.rrr, f.mz (.or f.d f.a f.b))
  | 4 => some (.rrr, f.mz (.xor f.d f.a f.b))
  | 5 => some (.rrr, f.mz (.shl f.d f.a f.b))
  | 6 => some (.rrr, f.mz (.shr f.d f.a f.b))
  | 7 => some (.rrr, f.mz (.sra f.d f.a f.b))
  | 8 => some (.rrr, f.mz (.slt f.d f.a f.b))
  | 9 => some (.rrr, f.mz (.sltu f.d f.a f.b))
  | 10 => some (.rrr, f.mz (.seq f.d f.a f.b))
  | 11 => some (.rrr, f.mz (.sne f.d f.a f.b))
  | 12 => some (.rrr, f.mz (.min f.d f.a f.b))
  | 13 => some (.rrr, f.mz (.max f.d f.a f.b))
  | 14 => some (.rrr, f.mz (.minu f.d f.a f.b))
  | 15 => some (.rrr, f.mz (.maxu f.d f.a f.b))
  | 16 => some (.rrr, f.mz (.mul f.d f.a f.b))
  | 17 => some (.rrr, f.mz (.mulh f.d f.a f.b))
  | 18 => some (.rrr, f.mz (.mulhu f.d f.a f.b))
  | 19 => some (.rrr, f.mz (.div f.d f.a f.b))
  | 20 => some (.rrr, f.mz (.divu f.d f.a f.b))
  | 21 => some (.rrr, f.mz (.rem f.d f.a f.b))
  | 22 => some (.rrr, f.mz (.remu f.d f.a f.b))
  | 23 => some (.rrrc, f.mz (.madd f.d f.a f.b f.creg))
  | 24 => some (.rr, f.b0 (f.mz (.clz f.d f.a)))
  | 25 => some (.rr, f.b0 (f.mz (.ctz f.d f.a)))
  | 26 => some (.rr, f.b0 (f.mz (.popc f.d f.a)))
  | 27 => some (.rr, f.b0 (f.mz (.sextB f.d f.a)))
  | 28 => some (.rr, f.b0 (f.mz (.sextH f.d f.a)))
  | 29 => some (.rr, f.b0 (f.mz (.zextB f.d f.a)))
  | 30 => some (.rr, f.b0 (f.mz (.zextH f.d f.a)))
  | 31 => some (.rrrc, f.mz (.sel f.d f.a f.b f.creg))
  | _ => none

/-- R92: page 0, MAJ 0xB, the indexed accesses. -/
def entryP0MB (f : Fields) : Option (Use × Option Instr) :=
  match f.fn.toNat with
  | 0 => some (.rrr, f.mz (.ldB f.d f.a f.b))
  | 1 => some (.rrr, f.mz (.ldBu f.d f.a f.b))
  | 2 => some (.rrr, f.mz (.ldH f.d f.a f.b))
  | 3 => some (.rrr, f.mz (.ldHu f.d f.a f.b))
  | 4 => some (.rrr, f.mz (.ldWx f.d f.a f.b))
  | 5 => some (.rrr, f.mz (.stB f.d f.a f.b))
  | 6 => some (.rrr, f.mz (.stH f.d f.a f.b))
  | 7 => some (.rrr, f.mz (.stWx f.d f.a f.b))
  | _ => none

/-- R94: page 0, MAJ 0xC, the branches; cond is the field at bits 8:6. Conditions 6 and 7 are no fn and no I-form selector:
rules 5 and 6 of R66 apply to them as to the others (log 14). -/
def entryP0MC (f : Fields) : Option (Use × Option Instr) :=
  match f.alo.toNat with
  | 0 => some (.branch, f.mz (.bz f.ba f.imm26))
  | 1 => some (.branch, f.mz (.bnz f.ba f.imm26))
  | 2 => some (.branch, f.mz (.bltz f.ba f.imm26))
  | 3 => some (.branch, f.mz (.bgez f.ba f.imm26))
  | 4 => some (.branch, f.mz (.bgtz f.ba f.imm26))
  | 5 => some (.branch, f.mz (.blez f.ba f.imm26))
  | _ => some (.branch, none)

/-- R97, R98, R100: page 0, MAJ 0xE. -/
def entryP0ME (f : Fields) : Option (Use × Option Instr) :=
  match f.fn.toNat with
  | 0 => some (.ra, f.d0 (f.b0 (f.mz (.jr f.a))))
  | 1 => some (.ra, f.d0 (f.b0 (f.mz (.jalr f.a))))
  | 2 => some (.raImm, f.mz (.loop f.a f.num26db))
  | 3 => some (.rdImm, (f.csr f.num26ab).bind fun n => f.mz (.csrr f.d n))
  | 4 => some (.raImm, (f.csr f.num26db).bind fun n => f.mz (.csrw n f.a))
  | 5 => some (.raImm, (f.csr f.num26db).bind fun n => f.mz (.csrs n f.a))
  | 6 => some (.raImm, (f.csr f.num26db).bind fun n => f.mz (.csrc n f.a))
  | _ => none

/-- R72: page 0. -/
def entryP0 (f : Fields) : Option (Use × Option Instr) :=
  match f.maj.toNat with
  | 0x0 => entryP0M0 f
  | 0x1 => some (.imm, f.mz (.addi f.d f.a f.imm26))
  | 0x2 => some (.imm, f.mz (.andi f.d f.a f.imm26))
  | 0x3 => some (.imm, f.mz (.ori f.d f.a f.imm26))
  | 0x4 => some (.imm, f.mz (.xori f.d f.a f.imm26))
  | 0x5 => some (.imm, f.mz (.slti f.d f.a f.imm26))
  | 0x6 => some (.imm, f.mz (.sltiu f.d f.a f.imm26))
  | 0x7 => if f.imm6.getLsbD 5 then none else some (.shift, f.mz (.shli f.d f.a f.sh))
  | 0x8 => some (.shift, f.m0 (if f.imm6.getLsbD 5 then some (.srai f.d f.a f.sh) else some (.shri f.d f.a f.sh)))
  | 0x9 => some (.imm, f.mz (.ldW f.d f.a f.imm26))
  | 0xA => some (.imm, f.mz (.stW f.d f.a f.imm26))
  | 0xB => entryP0MB f
  | 0xC => entryP0MC f
  | 0xD => some (.jump, f.mz (if f.jl then .jal f.imm31 else .j f.imm31))
  | 0xE => entryP0ME f
  | _ => none

/-- R110: page 1, MAJ 0x0, the handles. -/
def entryP1M0 (f : Fields) : Option (Use × Option Instr) :=
  match f.fn.toNat with
  | 0 => some (.rr, f.b0 (f.hd.bind fun d => f.mz (.hset d f.a)))
  | 1 => some (.rr, f.ha.bind fun a => f.mz (.hget f.d a f.blo.toFin))
  | 2 => some (.rr, f.b0 (f.hd.bind fun d => f.mz (.hwaitf d f.a)))
  | 3 => some (.rr, f.b0 (f.hd.bind fun d => f.mz (.hwaite d f.a)))
  | 4 => some (.rr, f.b0 (f.hd.bind fun d => f.mz (.hadvc d f.a)))
  | 5 => some (.rr, f.b0 (f.hd.bind fun d => f.mz (.hadvp d f.a)))
  | 6 => some (.rd, f.a0 (f.b0 (f.hd.bind fun d => f.mz (.hreset d))))
  | _ => none

/-- R174: page 1, MAJ 0x1, the named barriers; d is the sub-operation. It selects in the I form, so that an unlisted one has
no entry for rules 5 and 6 of R66 is the model's choice (log 14). -/
def entryP1M1 (f : Fields) : Option (Use × Option Instr) :=
  match f.dlo.toNat with
  | 0 => some (.subA, f.bar.bind fun n => f.mz (.barm f.a n))
  | 1 => some (.sub0, f.a0 (f.bar.bind fun n => f.mz (.barr n)))
  | 2 => some (.subA, f.bar.bind fun n => f.mz (.bwait f.a n))
  | 3 => some (.subA, f.bar.bind fun n => f.mz (.btest f.a n))
  | 4 => some (.subA, f.bar.bind fun n => f.mz (.bstat f.a n))
  | 5 => some (.subA, f.bar.bind fun n => f.mz (.bexp f.a n))
  | 6 => some (.sub0, f.a0 (f.bar.bind fun n => f.mz (.binv n)))
  | _ => none

/-- R173: page 1, MAJ 0x2, the mailbox. -/
def entryP1M2 (f : Fields) : Option (Use × Option Instr) :=
  match f.fn.toNat with
  | 0 => some (.rd, f.a0 (f.b0 (f.mz (.wmsg f.d))))
  | 1 => some (.rr, f.b0 (f.mz (.rmsg f.d f.a)))
  | 2 => some (.rd, f.a0 (f.b0 (f.mz (.mcnt f.d))))
  | 3 => some (.rab, f.d0 (f.mz (.msend f.a f.b)))
  | _ => none

/-- R171: page 1, MAJ 0x3, wait-on-address. -/
def entryP1M3 (f : Fields) : Option (Use × Option Instr) :=
  match f.fn.toNat with
  | 0 => some (.rr, f.b0 (f.mz (.waita f.d f.a)))
  | 1 => some (.ra, f.d0 (f.b0 (f.mz (.clra f.a))))
  | 2 => some (.rr, f.b0 (f.mz (.monn f.d f.a)))
  | _ => none

/-- R119: page 2, MAJ 0x0, vector arithmetic. -/
def entryP2M0 (f : Fields) : Option (Use × Option Instr) :=
  match f.fn.toNat with
  | 0 => some (.v3, f.et.map fun t => .vadd t f.d f.a f.b f.vm)
  | 1 => some (.v3, f.et.map fun t => .vsub t f.d f.a f.b f.vm)
  | 2 => some (.v3, f.et.map fun t => .vmul t f.d f.a f.b f.vm)
  | 3 => some (.v3, f.et.map fun t => .vmin t f.d f.a f.b f.vm)
  | 4 => some (.v3, f.et.map fun t => .vmax t f.d f.a f.b f.vm)
  | 5 => some (.v3, f.et.map fun t => .vand t f.d f.a f.b f.vm)
  | 6 => some (.v3, f.et.map fun t => .vor t f.d f.a f.b f.vm)
  | 7 => some (.v3, f.et.map fun t => .vxor t f.d f.a f.b f.vm)
  | 8 => some (.v3c, f.et.map fun t => .vfma t f.d f.a f.b f.creg f.vm)
  | 9 => some (.v2, f.b0 (f.et.map fun t => .vabs t f.d f.a f.vm))
  | 10 => some (.v2, f.b0 (f.et.map fun t => .vneg t f.d f.a f.vm))
  | 11 => some (.v3, f.et.map fun t => .vshl t f.d f.a f.b f.vm)
  | 12 => some (.v3, f.et.map fun t => .vshr t f.d f.a f.b f.vm)
  | 13 => some (.v3, f.et.map fun t => .vsra t f.d f.a f.b f.vm)
  | 14 => some (.vsel, f.et.bind fun t => f.kc.bind fun c => if f.mod5 = 0 then some (.vsel t f.d f.a f.b c) else none)
  | 15 => some (.v3, f.et.bind fun t => f.kd.map fun d => .vcmpeq t d f.a f.b f.vm)
  | 16 => some (.v3, f.et.bind fun t => f.kd.map fun d => .vcmplt t d f.a f.b f.vm)
  | 17 => some (.v3, f.et.bind fun t => f.kd.map fun d => .vcmple t d f.a f.b f.vm)
  | 18 => some (.v2, f.b0 (f.et.map fun t => .vexp t f.d f.a f.vm))
  | 19 => some (.v2, f.b0 (f.et.map fun t => .vrcp t f.d f.a f.vm))
  | 20 => some (.v2, f.b0 (f.et.map fun t => .vrsqrt t f.d f.a f.vm))
  | 21 => some (.v3, f.et.map fun t => .vsat t f.d f.a f.b f.vm)
  | _ => none

/-- R121, R122: page 2, MAJ 0x1, conversion, permutation, reduction. That a nonzero b field of a member without a b operand
is refused, as R119 and R124 say of theirs, is the model's choice (log 45). -/
def entryP2M1 (f : Fields) : Option (Use × Option Instr) :=
  match f.fn.toNat with
  | 0 => some (.v2, f.b0 (f.et.bind fun t => f.ts.map fun s => .vcvt t s (f.mod5.getLsbD 4) f.d f.a))
  | 1 => some (.v3, f.et.bind fun t => f.ts.map fun s => .vpack t s (f.mod5.getLsbD 4) f.d f.a f.b)
  | 2 => some (.v2, f.et.bind fun t => f.ts.bind fun s => f.half.map fun h => .vunpack t s (f.mod5.getLsbD 4) f.d f.a h)
  | 3 => some (.v3, f.et.map fun t => .vshuf t f.d f.a f.b f.vm)
  | 4 => some (.v2, f.b0 (f.et.map fun t => .vbcast t f.d f.a f.vm))
  | 5 => some (.v2, f.b0 (f.et.map fun t => .vmov t f.d f.a f.vm))
  | 6 => some (.v2, f.b0 (f.et.map fun t => .vredsum t f.d f.a f.vm))
  | 7 => some (.v2, f.b0 (f.et.map fun t => .vredmax t f.d f.a f.vm))
  | 8 => some (.v2, f.b0 (f.et.map fun t => .vredmin t f.d f.a f.vm))
  | 9 => some (.v2, f.b0 (f.et.map fun t => .vscan t f.d f.a f.vm))
  | 10 => some (.rrr, f.et.map fun t => .vmovs t f.d f.a f.b)
  | 11 => some (.v3, f.et.map fun t => .vext t f.d f.a f.b f.vm)
  | _ => none

/-- R124: page 2, MAJ 0x4, the other vector loads and stores. -/
def entryP2M4 (f : Fields) : Option (Use × Option Instr) :=
  match f.fn.toNat with
  | 0 => some (.v2, f.b0 (if f.mod5 &&& 0x0E = 0 then f.et.map fun t => .vldc t f.d f.a (f.mod5.getLsbD 4) (f.mod5.getLsbD 0) else none))
  | 1 => some (.v2, f.b0 (if f.mod5.getLsbD 3 then none else f.et.map fun t => .vstc t f.d f.a (f.mod5.getLsbD 4) (f.mod5.getLsbD 2) (B4Type.ofCode (f.mod5.extractLsb' 0 2))))
  | 2 => some (.v2, f.b0 (f.et.map fun t => .vldb t f.d f.a f.vm))
  | 3 => some (.v3, f.et.map fun t => .vldx t f.d f.a f.b f.vm)
  | 4 => some (.v3, f.et.map fun t => .vstx t f.d f.a f.b f.vm)
  | 5 => some (.rrr, f.ha.bind fun a => f.mz (.vldh f.d a f.b))
  | 6 => some (.rrr, f.ha.bind fun a => f.mz (.vsth f.d a f.b))
  | _ => none

/-- R127: page 2, MAJ 0x5, the masks. -/
def entryP2M5 (f : Fields) : Option (Use × Option Instr) :=
  match f.fn.toNat with
  | 0 => some (.rrr, f.kd.bind fun d => f.ka.bind fun a => f.kb.bind fun b => f.mz (.kand d a b))
  | 1 => some (.rrr, f.kd.bind fun d => f.ka.bind fun a => f.kb.bind fun b => f.mz (.kor d a b))
  | 2 => some (.rrr, f.kd.bind fun d => f.ka.bind fun a => f.kb.bind fun b => f.mz (.kxor d a b))
  | 3 => some (.rr, f.b0 (f.kd.bind fun d => f.ka.bind fun a => f.mz (.knot d a)))
  | 4 => some (.rrr, f.kd.bind fun d => f.mz (.kmov d f.a f.b))
  | 5 => some (.rr, f.b0 (f.ka.bind fun a => f.mz (.kpop f.d a)))
  | _ => none

/-- R72: page 2. -/
def entryP2 (f : Fields) : Option (Use × Option Instr) :=
  match f.maj.toNat with
  | 0 => entryP2M0 f
  | 1 => entryP2M1 f
  | 2 => some (.imm, f.mz (.vld f.d f.a f.imm26))
  | 3 => some (.imm, f.mz (.vst f.d f.a f.imm26))
  | 4 => entryP2M4 f
  | 5 => entryP2M5 f
  | _ => none

/-- R128, R129: page 3, MAJ 0x0, the matrix slice. -/
def entryP3M0 (f : Fields) : Option (Use × Option Instr) :=
  match f.fn.toNat with
  | 0 => some (.rrr, if f.mod6 &&& 0x3C = 0 then f.ha.bind fun a => f.hb.map fun b => .mma f.acc f.d a b else none)
  | 1 => some (.rrr, if f.mod6 &&& 0x23 = 3 then f.ha.bind fun a => f.hb.map fun b => .mmai (f.mod6.getLsbD 2) (f.mod6.getLsbD 3) (f.mod6.getLsbD 4) f.d a b else none)
  | 2 => some (.rd, f.a0 (f.b0 (if f.mod6 &&& 0x3C = 0 then some (.mzero f.acc f.d) else none)))
  | 3 => some (.rr, f.b0 (if f.mod6 &&& 0x1C = 0 then some (.mload f.acc (f.mod6.getLsbD 5) f.d f.a) else none))
  | 4 => some (.rr, f.b0 (if f.mod6 &&& 0x3C = 0 then some (.mdrain f.acc f.d f.a) else none))
  | 5 => some (.rrr, f.drq.map fun o => .mdrq o f.d f.a f.b)
  | 6 => some (.rrr, if f.mod6 &&& 0x33 = 3 then f.ha.map fun a => .mrsum (f.mod6.getLsbD 2) (f.mod6.getLsbD 3) f.d a f.b else none)
  | 7 => some (.rrr, if f.mod6 &&& 0x2B = 3 then f.ha.map fun a => .mcsum (f.mod6.getLsbD 2) (f.mod6.getLsbD 4) f.d a f.b else none)
  | 8 => some (.r0, f.d0 (f.a0 (f.m0 (if h : f.blo.toNat < 3 then some (.mgang ⟨f.blo.toNat, h⟩) else none))))
  | 9 => some (.r0, f.d0 (f.a0 (f.b0 (f.mz .mfollow))))
  | 10 => some (.ra, f.d0 (f.b0 (f.mz (.munfollow f.a))))
  | 11 => some (.rd, f.a0 (f.b0 (f.mz (.mwait f.d))))
  | _ => none

/-- R141: page 3, MAJ 0x1, banks and parking; d is the sub-operation, an unlisted one as at `entryP1M1` (log 14). -/
def entryP3M1 (f : Fields) : Option (Use × Option Instr) :=
  match f.dlo.toNat with
  | 0 => some (.subA, f.bank.bind fun p => f.mz (.aalloc f.a p.2 p.1))
  | 1 => some (.sub0, f.a0 (f.bank.bind fun p => f.mz (.afree p.2 p.1)))
  | 2 => some (.subA, if h : f.imm26.toNat < 4 then f.mz (.aquery f.a ⟨f.imm26.toNat, h⟩) else none)
  | 3 => some (.subA, if f.imm26.toNat < 2 then f.mz (.spill (f.imm26.getLsbD 0) f.a) else none)
  | 4 => some (.subA, if f.imm26.toNat < 2 then f.mz (.fill (f.imm26.getLsbD 0) f.a) else none)
  | _ => none

/-- R247: page 4, the copy engine. -/
def entryP4 (f : Fields) : Option (Use × Option Instr) :=
  match f.maj.toNat, f.fn.toNat with
  | 0, 0 => some (.ra, f.d0 (f.b0 (f.mz (.cpush f.a))))
  | 0, 1 => some (.rr, f.b0 (f.mz (.cpushnb f.d f.a)))
  | 0, 2 => some (.rd, f.a0 (f.b0 (f.mz (.cfree f.d))))
  | 0, 3 => some (.r0, f.d0 (f.a0 (f.b0 (f.mz .cfence))))
  | 0, 4 => some (.rab, f.m0 (if h : f.dlo.toNat < 3 then some (.cset ⟨f.dlo.toNat, h⟩ f.a f.b) else none))
  | 0, 5 => some (.rd, f.m0 (if h : f.alo.toNat < 4 then f.half.map (fun x => .cget f.d ⟨f.alo.toNat, h⟩ x) else none))
  | _, _ => none

/-- R182: page 5, MAJ 0x6, phases and trees. -/
def entryP5M6 (f : Fields) : Option (Use × Option Instr) :=
  match f.fn.toNat with
  | 0 => some (.ra, f.d0 (f.b0 (f.mz (.sync f.a))))
  | 1 => some (.rr, f.b0 (f.hd.bind fun g => f.mz (.lsync g f.a)))
  | 2 => some (.rd, f.a0 (f.b0 (f.hd.bind fun g => f.mz (.arrive g))))
  | 3 => some (.rd, f.a0 (f.b0 (f.hd.bind fun g => f.mz (.await g))))
  | 4 => some (.rrr, f.hd.bind fun g => f.mz (.dom g f.a f.b))
  | 5 => some (.rr, f.b0 (f.mz (.phaseQuery f.d f.a)))
  | _ => none

/-- R187: page 5, MAJ 0x7, the reduction tree. -/
def entryP5M7 (f : Fields) : Option (Use × Option Instr) :=
  match f.fn.toNat with
  | 0 => some (.red, f.et.bind fun t => f.hb.map fun g => .redAdd t (f.mod5.getLsbD 4) f.d f.a g f.creg (f.mod5.extractLsb' 0 4).toFin)
  | 1 => some (.red, f.et.bind fun t => f.hb.map fun g => .redMax t (f.mod5.getLsbD 4) f.d f.a g f.creg (f.mod5.extractLsb' 0 4).toFin)
  | 2 => some (.red, f.et.bind fun t => f.hb.map fun g => .redMin t (f.mod5.getLsbD 4) f.d f.a g f.creg (f.mod5.extractLsb' 0 4).toFin)
  | 3 => some (.red, f.et.bind fun t => f.hb.map fun g => .redAnd t (f.mod5.getLsbD 4) f.d f.a g f.creg (f.mod5.extractLsb' 0 4).toFin)
  | 4 => some (.red, f.et.bind fun t => f.hb.map fun g => .redOr t (f.mod5.getLsbD 4) f.d f.a g f.creg (f.mod5.extractLsb' 0 4).toFin)
  | 5 => some (.rbOnly, f.d0 (f.a0 (f.hb.bind fun g => f.mz (.redBar g))))
  | _ => none

/-- R178, R182, R187: page 5. d is a length class, lane or port in MAJ 0x0 to 0x5; a lane of xmc above 3 is a value of a
field that the entry does not define (R66, log 14). -/
def entryP5 (f : Fields) : Option (Use × Option Instr) :=
  match f.maj.toNat with
  | 0 => some (.subA, f.off.bind fun o => f.mz (.xsend f.dlo.toFin f.a o))
  | 1 => some (.subA, f.off.bind fun o => f.mz (.xrecv f.dlo.toFin f.a o))
  | 2 => some (.subAm, f.off.bind fun o => f.et.bind fun t => (CombOp.ofCode (f.mod5.extractLsb' 0 3)).bind fun op =>
      if f.mod5.getLsbD 3 then none else some (.xrecva t op (f.mod5.getLsbD 4) f.dlo.toFin f.a o))
  | 3 => some (.subA, f.off.bind fun o => if h : f.dlo.toNat < 4 then
      if f.mod6 &&& 0x38 = 0 then some (.xmc ⟨f.dlo.toNat, h⟩ (f.mod6.extractLsb' 0 3).toFin f.a o) else none else none)
  | 4 => some (.sub0, f.a0 (f.off.bind fun o => f.m0 (if h : f.dlo.toNat < 5 then some (.xsel ⟨f.dlo.toNat, h⟩ o) else none)))
  | 5 => some (.sub0, f.d0 (f.a0 (f.off.bind fun o => f.mz (.xend o))))
  | 6 => entryP5M6 f
  | 7 => entryP5M7 f
  | _ => none

/-- R279: page 6, vocabulary projection. -/
def entryP6 (f : Fields) : Option (Use × Option Instr) :=
  match f.maj.toNat, f.fn.toNat with
  | 0, 0 => some (.rrr, f.mz (.vpinit f.d f.a f.b))
  | 0, 1 => some (.rrr, f.mz (.vpfold f.d f.a f.b))
  | 0, 2 => some (.rr, f.b0 (f.mz (.vpmerge f.d f.a)))
  | 0, 3 => some (.rr, f.b0 (f.mz (.vpread f.d f.a)))
  | 0, 4 => some (.rrr, f.mz (.vpregen f.d f.a f.b))
  | 0, 5 => some (.ra, f.d0 (f.b0 (f.mz (.vpspill f.a))))
  | 0, 6 => some (.rr, f.b0 (f.mz (.vplabel f.d f.a)))
  | 0, 7 => some (.rd, f.a0 (f.b0 (f.mz (.vpstat f.d))))
  | _, _ => none

/-- R101, R305, R344: page 7, system, optics and fabric. -/
def entryP7 (f : Fields) : Option (Use × Option Instr) :=
  match f.maj.toNat, f.fn.toNat with
  | 0, 0 => some (.ra, f.d0 (f.b0 (f.mz (.trap f.a))))
  | 0, 1 => some (.r0, f.d0 (f.a0 (f.b0 (f.mz .eret))))
  | 0, 2 => some (.r0, f.d0 (f.a0 (f.b0 (f.mz .halt))))
  | 0, 3 => some (.rd, f.a0 (f.b0 (f.mz (.snap f.d))))
  | 0, 4 => some (.rr, f.b0 (f.mz (.xload f.d f.a)))
  | 0, 5 => some (.r0, f.d0 (f.a0 (f.b0 (f.mz .fence))))
  | 0, 6 => some (.rab, f.d0 (f.mz (.evwr f.a f.b)))
  | 1, 0 => some (.rr, f.b0 (f.mz (.lgrant f.d f.a)))
  | 1, 1 => some (.ra, f.d0 (f.b0 (f.mz (.lrelease f.a))))
  | 1, 2 => some (.rr, f.b0 (f.mz (.lstat f.d f.a)))
  | 1, 3 => some (.rr, f.b0 (f.mz (.lmargin f.d f.a)))
  | 1, 4 => some (.rrr, f.mz (.lmode f.d f.a f.b))
  | 2, 0 => some (.rr, f.b0 (f.mz (.wreg f.d f.a)))
  | 2, 1 => some (.rr, f.b0 (f.mz (.wdereg f.d f.a)))
  | 2, 2 => some (.rr, f.b0 (f.mz (.wput f.d f.a)))
  | 2, 3 => some (.rr, f.b0 (f.mz (.wget f.d f.a)))
  | 2, 4 => some (.rr, f.b0 (f.mz (.wrtr f.d f.a)))
  | 2, 5 => some (.rrr, f.mz (.wcnt f.d f.a f.b))
  | 2, 6 => some (.rrr, f.mz (.wwait f.d f.a f.b))
  | 2, 7 => some (.rr, f.b0 (f.mz (.tvget f.d f.a)))
  | 2, 8 => some (.rr, f.b0 (f.mz (.tvstage f.d f.a)))
  | 2, 9 => some (.rr, f.b0 (f.mz (.tvcommit f.d f.a)))
  | 2, 10 => some (.rr, f.b0 (f.mz (.cstep f.d f.a)))
  | 2, 11 => some (.rr, f.b0 (f.mz (.cstat f.d f.a)))
  | 2, 12 => some (.rrr, f.mz (.cresume f.d f.a f.b))
  | 2, 13 => some (.rrr, f.mz (.drain f.d f.a f.b))
  | 2, 14 => some (.rr, f.b0 (f.mz (.lnkstat f.d f.a)))
  | _, _ => none

/-- R72: the opcode map; none for every encoding that names no instruction (R73). -/
def entryOf (f : Fields) : Option (Use × Option Instr) :=
  match f.page.toNat with
  | 0 => entryP0 f
  | 1 => match f.maj.toNat with
    | 0 => entryP1M0 f | 1 => entryP1M1 f | 2 => entryP1M2 f | 3 => entryP1M3 f | _ => none
  | 2 => entryP2 f
  | 3 => match f.maj.toNat with
    | 0 => entryP3M0 f | 1 => entryP3M1 f | _ => none
  | 4 => entryP4 f
  | 5 => entryP5 f
  | 6 => entryP6 f
  | 7 => entryP7 f
  | _ => none

/-- R63, R66: whether the words of an encoding that names no instruction pass rules 3 and 4, judged by the form of the
base word: no XI before an R-form word, no XR before a J-form word. A MAJ value that the page's map does not hold has
no form, and no rule of form is broken before it. XI before a word of page 0 MAJ 0x7, some of which name no instruction, breaks the
rule that R91 states for that MAJ, though by its form alone it would pass (DESIGN CHOICE, log 14). -/
def formCheck (f : Fields) : Option DecodeError :=
  let rForm : Bool :=
    match f.page.toNat, f.maj.toNat with
    | 0, m => m == 0 || m == 0xB || m == 0xE
    | 1, m => m == 0 || m == 2 || m == 3
    | 2, m => m == 0 || m == 1 || m == 4 || m == 5
    | 3, m => m == 0
    | 4, m => m == 0
    | 5, m => m == 6 || m == 7
    | 6, m => m == 0
    | 7, m => m == 0 || m == 1 || m == 2
    | _, _ => false
  if f.xi ≠ [] ∧ rForm = true then some .form
  else if f.xi ≠ [] ∧ f.page = 0 ∧ f.maj = 7 then some .form
  else none

/-- R66 rules 1 and 2, one word at a time: XP, then XR, then XM, then one or two XI. -/
def Fields.push (f : Fields) (w : Half) : Option Fields :=
  match (w.extractLsb' 10 2).toNat with
  | 0 => if f.xi.length < 2 then some { f with xi := f.xi ++ [w.extractLsb' 0 10] } else none
  | 1 => if f.xr = false ∧ f.xm = false ∧ f.xi = [] then
      some { f with xr := true, dhi := w.extractLsb' 8 2, ahi := w.extractLsb' 6 2, bhi := w.extractLsb' 4 2,
                    fnhi := w.extractLsb' 0 4 } else none
  | 2 => if f.xp = false ∧ f.xr = false ∧ f.xm = false ∧ f.xi = [] then
      some { f with xp := true, page := w.extractLsb' 6 4, mod6 := w.extractLsb' 0 6 } else none
  | _ => if f.xm = false ∧ f.xi = [] then
      some { f with xm := true, c := w.extractLsb' 5 5, mod5 := w.extractLsb' 0 5 } else none

/-- A word whose bits 15:12 are 0xF stands before a base word (R62). -/
def isPfx (w : Half) : Bool := w.extractLsb' 12 4 == 0xF

/-- All words of a chain before its base word. -/
def pushAll : Fields → List Half → Option Fields
  | f, [] => some f
  | f, w :: ws => match f.push w with
    | some f' => pushAll f' ws
    | none => none

/-- The chain of words as fields: at most four words and a base word (R62, R71). -/
def chainOf (ws : List Half) : Except DecodeError (Fields × Nat) :=
  let ps := ws.takeWhile isPfx
  match ws.drop ps.length with
  | [] => if ps.length < 5 then .error .short else .error .fiveWords
  | base :: _ =>
    if 5 ≤ ps.length then .error .fiveWords
    else match pushAll (Fields.ofBase base) ps with
      | none => .error .order
      | some f => .ok (f, ps.length + 1)

/-- The instruction of a chain's fields (R66, R72, R73). PREFIX comes before ILLEGAL (R40). -/
def decodeFields (f : Fields) : Except DecodeError Instr :=
  match entryOf f with
  | none => match formCheck f with
    | some e => .error e
    | none => .error .noEntry
  | some (u, i) => match u.check f with
    | some e => .error e
    | none => match i with
      | none => .error .badOperand
      | some i => if i.wf then .ok i else .error .badValue

/-- The instruction at the head of a list of words, and its length in words. -/
def decode (ws : List Half) : Except DecodeError (Instr × Nat) :=
  match chainOf ws with
  | .error e => .error e
  | .ok (f, n) => match decodeFields f with
    | .error e => .error e
    | .ok i => .ok (i, n)

/-! The encoder (R63 to R72, R79): the fields of an instruction, and the fewest words that hold them. -/

/-- An R-form base word. -/
def baseR (maj : BitVec 4) (d a b fn : BitVec 3) : Half := maj ++ d ++ a ++ b ++ fn

/-- An R-form chain: 5-bit register fields and a 7-bit fn. -/
def mkR (page : BitVec 4) (mod6 : BitVec 6) (maj : BitVec 4) (d a b : BitVec 5) (fn : BitVec 7) : Fields :=
  { page := page, mod6 := mod6, xp := page != 0 || mod6 != 0,
    xr := d.extractLsb' 3 2 != 0 || a.extractLsb' 3 2 != 0 || b.extractLsb' 3 2 != 0 || fn.extractLsb' 3 4 != 0,
    dhi := d.extractLsb' 3 2, ahi := a.extractLsb' 3 2, bhi := b.extractLsb' 3 2, fnhi := fn.extractLsb' 3 4,
    xm := false, c := 0, mod5 := 0, xi := [],
    base := baseR maj (d.truncate 3) (a.truncate 3) (b.truncate 3) (fn.truncate 3) }

/-- The same with XM. -/
def withXm (f : Fields) (c mod5 : BitVec 5) : Fields := { f with xm := true, c := c, mod5 := mod5 }

/-- The same with XM only where a field of it is nonzero (R79). -/
def withXmOpt (f : Fields) (c mod5 : BitVec 5) : Fields := { f with xm := c != 0 || mod5 != 0, c := c, mod5 := mod5 }

/-- The XI words of a sign-extended immediate with a w-bit low part already in the base word (R67, R79). -/
def xiS26 (v : BitVec 26) : List (BitVec 10) :=
  if (v.truncate 6 : BitVec 6).signExtend 26 = v then []
  else if (v.truncate 16 : BitVec 16).signExtend 26 = v then [v.extractLsb' 6 10]
  else [v.extractLsb' 6 10, v.extractLsb' 16 10]

def xiU26 (v : BitVec 26) : List (BitVec 10) :=
  if v.toNat < 64 then []
  else if v.toNat < 65536 then [v.extractLsb' 6 10]
  else [v.extractLsb' 6 10, v.extractLsb' 16 10]

def xiS31 (v : BitVec 31) : List (BitVec 10) :=
  if (v.truncate 11 : BitVec 11).signExtend 31 = v then []
  else if (v.truncate 21 : BitVec 21).signExtend 31 = v then [v.extractLsb' 11 10]
  else [v.extractLsb' 11 10, v.extractLsb' 21 10]

/-- An I-form chain: d3 is the d field of the base word, dhi its widening. -/
def mkI (page : BitVec 4) (mod6 : BitVec 6) (maj : BitVec 4) (d a : BitVec 5) (xi : List (BitVec 10))
    (imm : BitVec 6) : Fields :=
  { mkR page mod6 maj d a 0 0 with
    xi := xi, base := baseR maj (d.truncate 3) (a.truncate 3) (imm.extractLsb' 3 3) (imm.extractLsb' 0 3) }

def mkIS (page : BitVec 4) (maj : BitVec 4) (d a : BitVec 5) (v : BitVec 26) : Fields :=
  mkI page 0 maj d a (xiS26 v) (v.truncate 6)

def mkIU (page : BitVec 4) (mod6 : BitVec 6) (maj : BitVec 4) (d a : BitVec 5) (v : BitVec 26) : Fields :=
  mkI page mod6 maj d a (xiU26 v) (v.truncate 6)

/-- A B-form chain. -/
def mkB (cond : BitVec 3) (a : BitVec 5) (v : BitVec 26) : Fields :=
  { mkR 0 0 0xC 0 a 0 0 with
    xi := xiS26 v,
    base := baseR 0xC (a.truncate 3) cond (v.extractLsb' 3 3) (v.extractLsb' 0 3) }

/-- A J-form chain. -/
def mkJ (l : Bool) (v : BitVec 31) : Fields :=
  { Fields.ofBase ((0xD : BitVec 4) ++ BitVec.ofBool l ++ (v.truncate 11 : BitVec 11)) with xi := xiS31 v }

/-- An R-form chain that carries a number in {d, b} (R64). -/
def mkNdb (a : BitVec 5) (v : BitVec 26) (fn : BitVec 3) : Fields :=
  { mkR 0 0 0xE 0 a 0 0 with
    xi := xiU26 v, base := baseR 0xE (v.extractLsb' 3 3) (a.truncate 3) (v.extractLsb' 0 3) fn }

/-- An R-form chain that carries a number in {a, b} (R64). -/
def mkNab (d : BitVec 5) (v : BitVec 26) (fn : BitVec 3) : Fields :=
  { mkR 0 0 0xE d 0 0 0 with
    xi := xiU26 v, base := baseR 0xE (d.truncate 3) (v.extractLsb' 3 3) (v.extractLsb' 0 3) fn }

def Reg.bits (r : Reg) : BitVec 5 := BitVec.ofFin r
def hbits (r : HReg) : BitVec 5 := BitVec.ofNat 5 r.val
def kbits (r : KReg) : BitVec 5 := BitVec.ofNat 5 r.val
def VMod.bits (m : VMod) : BitVec 5 := BitVec.ofBool m.sat ++ BitVec.ofBool m.z ++ (BitVec.ofFin m.km : BitVec 3)
def b1 (b : Bool) : BitVec 6 := if b then 1 else 0

/-- Page 2 chains. -/
def mkV (t : ElemType) (maj : BitVec 4) (d a b : BitVec 5) (fn : BitVec 7) (mod5 : BitVec 5) : Fields :=
  withXmOpt (mkR 2 t.code maj d a b fn) 0 mod5

/-- The fields of an instruction; none for a row that has no encoding. -/
def fieldsOf : Instr → Option Fields
  | .add d a b => some (mkR 0 0 0 d.bits a.bits b.bits 0)
  | .sub d a b => some (mkR 0 0 0 d.bits a.bits b.bits 1)
  | .and d a b => some (mkR 0 0 0 d.bits a.bits b.bits 2)
  | .or d a b => some (mkR 0 0 0 d.bits a.bits b.bits 3)
  | .xor d a b => some (mkR 0 0 0 d.bits a.bits b.bits 4)
  | .shl d a b => some (mkR 0 0 0 d.bits a.bits b.bits 5)
  | .shr d a b => some (mkR 0 0 0 d.bits a.bits b.bits 6)
  | .sra d a b => some (mkR 0 0 0 d.bits a.bits b.bits 7)
  | .slt d a b => some (mkR 0 0 0 d.bits a.bits b.bits 8)
  | .sltu d a b => some (mkR 0 0 0 d.bits a.bits b.bits 9)
  | .seq d a b => some (mkR 0 0 0 d.bits a.bits b.bits 10)
  | .sne d a b => some (mkR 0 0 0 d.bits a.bits b.bits 11)
  | .min d a b => some (mkR 0 0 0 d.bits a.bits b.bits 12)
  | .max d a b => some (mkR 0 0 0 d.bits a.bits b.bits 13)
  | .minu d a b => some (mkR 0 0 0 d.bits a.bits b.bits 14)
  | .maxu d a b => some (mkR 0 0 0 d.bits a.bits b.bits 15)
  | .mul d a b => some (mkR 0 0 0 d.bits a.bits b.bits 16)
  | .mulh d a b => some (mkR 0 0 0 d.bits a.bits b.bits 17)
  | .mulhu d a b => some (mkR 0 0 0 d.bits a.bits b.bits 18)
  | .div d a b => some (mkR 0 0 0 d.bits a.bits b.bits 19)
  | .divu d a b => some (mkR 0 0 0 d.bits a.bits b.bits 20)
  | .rem d a b => some (mkR 0 0 0 d.bits a.bits b.bits 21)
  | .remu d a b => some (mkR 0 0 0 d.bits a.bits b.bits 22)
  | .madd d a b c => some (withXm (mkR 0 0 0 d.bits a.bits b.bits 23) c.bits 0)
  | .clz d a => some (mkR 0 0 0 d.bits a.bits 0 24)
  | .ctz d a => some (mkR 0 0 0 d.bits a.bits 0 25)
  | .popc d a => some (mkR 0 0 0 d.bits a.bits 0 26)
  | .sextB d a => some (mkR 0 0 0 d.bits a.bits 0 27)
  | .sextH d a => some (mkR 0 0 0 d.bits a.bits 0 28)
  | .zextB d a => some (mkR 0 0 0 d.bits a.bits 0 29)
  | .zextH d a => some (mkR 0 0 0 d.bits a.bits 0 30)
  | .sel d a b c => some (withXm (mkR 0 0 0 d.bits a.bits b.bits 31) c.bits 0)
  | .addi d a v => some (mkIS 0 1 d.bits a.bits v)
  | .andi d a v => some (mkIS 0 2 d.bits a.bits v)
  | .ori d a v => some (mkIS 0 3 d.bits a.bits v)
  | .xori d a v => some (mkIS 0 4 d.bits a.bits v)
  | .slti d a v => some (mkIS 0 5 d.bits a.bits v)
  | .sltiu d a v => some (mkIS 0 6 d.bits a.bits v)
  | .shli d a n => some (mkI 0 0 7 d.bits a.bits [] (n.zeroExtend 6))
  | .shri d a n => some (mkI 0 0 8 d.bits a.bits [] (n.zeroExtend 6))
  | .srai d a n => some (mkI 0 0 8 d.bits a.bits [] ((1 : BitVec 1) ++ n))
  | .ldW d a v => some (mkIS 0 9 d.bits a.bits v)
  | .stW d a v => some (mkIS 0 0xA d.bits a.bits v)
  | .ldB d a b => some (mkR 0 0 0xB d.bits a.bits b.bits 0)
  | .ldBu d a b => some (mkR 0 0 0xB d.bits a.bits b.bits 1)
  | .ldH d a b => some (mkR 0 0 0xB d.bits a.bits b.bits 2)
  | .ldHu d a b => some (mkR 0 0 0xB d.bits a.bits b.bits 3)
  | .ldWx d a b => some (mkR 0 0 0xB d.bits a.bits b.bits 4)
  | .stB d a b => some (mkR 0 0 0xB d.bits a.bits b.bits 5)
  | .stH d a b => some (mkR 0 0 0xB d.bits a.bits b.bits 6)
  | .stWx d a b => some (mkR 0 0 0xB d.bits a.bits b.bits 7)
  | .bz a v => some (mkB 0 a.bits v)
  | .bnz a v => some (mkB 1 a.bits v)
  | .bltz a v => some (mkB 2 a.bits v)
  | .bgez a v => some (mkB 3 a.bits v)
  | .bgtz a v => some (mkB 4 a.bits v)
  | .blez a v => some (mkB 5 a.bits v)
  | .j v => some (mkJ false v)
  | .jal v => some (mkJ true v)
  | .jr a => some (mkR 0 0 0xE 0 a.bits 0 0)
  | .jalr a => some (mkR 0 0 0xE 0 a.bits 0 1)
  | .loop a e => some (mkNdb a.bits e 2)
  | .csrr d n => some (mkNab d.bits (n.number.zeroExtend 26) 3)
  | .csrw n a => some (mkNdb a.bits (n.number.zeroExtend 26) 4)
  | .csrs n a => some (mkNdb a.bits (n.number.zeroExtend 26) 5)
  | .csrc n a => some (mkNdb a.bits (n.number.zeroExtend 26) 6)
  | .trap a => some (mkR 7 0 0 0 a.bits 0 0)
  | .eret => some (mkR 7 0 0 0 0 0 1)
  | .halt => some (mkR 7 0 0 0 0 0 2)
  | .snap d => some (mkR 7 0 0 d.bits 0 0 3)
  | .xload d a => some (mkR 7 0 0 d.bits a.bits 0 4)
  | .fence => some (mkR 7 0 0 0 0 0 5)
  | .evwr a b => some (mkR 7 0 0 0 a.bits b.bits 6)
  | .hset d a => some (mkR 1 0 0 (hbits d) a.bits 0 0)
  | .hget d a s => some (mkR 1 0 0 d.bits (hbits a) (BitVec.ofNat 5 s.val) 1)
  | .hwaitf d a => some (mkR 1 0 0 (hbits d) a.bits 0 2)
  | .hwaite d a => some (mkR 1 0 0 (hbits d) a.bits 0 3)
  | .hadvc d a => some (mkR 1 0 0 (hbits d) a.bits 0 4)
  | .hadvp d a => some (mkR 1 0 0 (hbits d) a.bits 0 5)
  | .hreset d => some (mkR 1 0 0 (hbits d) 0 0 6)
  | .barm a n => some (mkIU 1 0 1 0 a.bits (BitVec.ofNat 26 n.val))
  | .barr n => some (mkIU 1 0 1 1 0 (BitVec.ofNat 26 n.val))
  | .bwait a n => some (mkIU 1 0 1 2 a.bits (BitVec.ofNat 26 n.val))
  | .btest a n => some (mkIU 1 0 1 3 a.bits (BitVec.ofNat 26 n.val))
  | .bstat a n => some (mkIU 1 0 1 4 a.bits (BitVec.ofNat 26 n.val))
  | .bexp a n => some (mkIU 1 0 1 5 a.bits (BitVec.ofNat 26 n.val))
  | .binv n => some (mkIU 1 0 1 6 0 (BitVec.ofNat 26 n.val))
  | .wmsg d => some (mkR 1 0 2 d.bits 0 0 0)
  | .rmsg d a => some (mkR 1 0 2 d.bits a.bits 0 1)
  | .mcnt d => some (mkR 1 0 2 d.bits 0 0 2)
  | .msend a b => some (mkR 1 0 2 0 a.bits b.bits 3)
  | .waita d a => some (mkR 1 0 3 d.bits a.bits 0 0)
  | .clra a => some (mkR 1 0 3 0 a.bits 0 1)
  | .monn d a => some (mkR 1 0 3 d.bits a.bits 0 2)
  | .vadd t d a b m => some (mkV t 0 d.bits a.bits b.bits 0 m.bits)
  | .vsub t d a b m => some (mkV t 0 d.bits a.bits b.bits 1 m.bits)
  | .vmul t d a b m => some (mkV t 0 d.bits a.bits b.bits 2 m.bits)
  | .vmin t d a b m => some (mkV t 0 d.bits a.bits b.bits 3 m.bits)
  | .vmax t d a b m => some (mkV t 0 d.bits a.bits b.bits 4 m.bits)
  | .vand t d a b m => some (mkV t 0 d.bits a.bits b.bits 5 m.bits)
  | .vor t d a b m => some (mkV t 0 d.bits a.bits b.bits 6 m.bits)
  | .vxor t d a b m => some (mkV t 0 d.bits a.bits b.bits 7 m.bits)
  | .vfma t d a b c m => some (withXm (mkR 2 t.code 0 d.bits a.bits b.bits 8) c.bits m.bits)
  | .vabs t d a m => some (mkV t 0 d.bits a.bits 0 9 m.bits)
  | .vneg t d a m => some (mkV t 0 d.bits a.bits 0 10 m.bits)
  | .vshl t d a b m => some (mkV t 0 d.bits a.bits b.bits 11 m.bits)
  | .vshr t d a b m => some (mkV t 0 d.bits a.bits b.bits 12 m.bits)
  | .vsra t d a b m => some (mkV t 0 d.bits a.bits b.bits 13 m.bits)
  | .vsel t d a b c => some (withXm (mkR 2 t.code 0 d.bits a.bits b.bits 14) (kbits c) 0)
  | .vcmpeq t d a b m => some (mkV t 0 (kbits d) a.bits b.bits 15 m.bits)
  | .vcmplt t d a b m => some (mkV t 0 (kbits d) a.bits b.bits 16 m.bits)
  | .vcmple t d a b m => some (mkV t 0 (kbits d) a.bits b.bits 17 m.bits)
  | .vexp t d a m => some (mkV t 0 d.bits a.bits 0 18 m.bits)
  | .vrcp t d a m => some (mkV t 0 d.bits a.bits 0 19 m.bits)
  | .vrsqrt t d a m => some (mkV t 0 d.bits a.bits 0 20 m.bits)
  | .vsat t d a b m => some (mkV t 0 d.bits a.bits b.bits 21 m.bits)
  | .vcvt td ts sat d a => some (mkV td 1 d.bits a.bits 0 0 (BitVec.ofBool sat ++ (ts.code.truncate 4 : BitVec 4)))
  | .vpack td ts sat d a b => some (mkV td 1 d.bits a.bits b.bits 1 (BitVec.ofBool sat ++ (ts.code.truncate 4 : BitVec 4)))
  | .vunpack td ts sat d a h => some (mkV td 1 d.bits a.bits (if h then 1 else 0) 2 (BitVec.ofBool sat ++ (ts.code.truncate 4 : BitVec 4)))
  | .vshuf t d a b m => some (mkV t 1 d.bits a.bits b.bits 3 m.bits)
  | .vbcast t d a m => some (mkV t 1 d.bits a.bits 0 4 m.bits)
  | .vmov t d a m => some (mkV t 1 d.bits a.bits 0 5 m.bits)
  | .vredsum t d a m => some (mkV t 1 d.bits a.bits 0 6 m.bits)
  | .vredmax t d a m => some (mkV t 1 d.bits a.bits 0 7 m.bits)
  | .vredmin t d a m => some (mkV t 1 d.bits a.bits 0 8 m.bits)
  | .vscan t d a m => some (mkV t 1 d.bits a.bits 0 9 m.bits)
  | .vmovs t d a b => some (mkR 2 t.code 1 d.bits a.bits b.bits 10)
  | .vext t d a b m => some (mkV t 1 d.bits a.bits b.bits 11 m.bits)
  | .vld d a v => some (mkIS 2 2 d.bits a.bits v)
  | .vst d a v => some (mkIS 2 3 d.bits a.bits v)
  | .vldc t d a sat u => some (mkV t 4 d.bits a.bits 0 0 (BitVec.ofBool sat ++ (0 : BitVec 3) ++ BitVec.ofBool u))
  | .vstc t d a sat u b4 => some (mkV t 4 d.bits a.bits 0 1 (BitVec.ofBool sat ++ (0 : BitVec 1) ++ BitVec.ofBool u ++ b4.code))
  | .vldb t d a m => some (mkV t 4 d.bits a.bits 0 2 m.bits)
  | .vldx t d a b m => some (mkV t 4 d.bits a.bits b.bits 3 m.bits)
  | .vstx t d a b m => some (mkV t 4 d.bits a.bits b.bits 4 m.bits)
  | .vldh d a b => some (mkR 2 0 4 d.bits (hbits a) b.bits 5)
  | .vsth d a b => some (mkR 2 0 4 d.bits (hbits a) b.bits 6)
  | .kand d a b => some (mkR 2 0 5 (kbits d) (kbits a) (kbits b) 0)
  | .kor d a b => some (mkR 2 0 5 (kbits d) (kbits a) (kbits b) 1)
  | .kxor d a b => some (mkR 2 0 5 (kbits d) (kbits a) (kbits b) 2)
  | .knot d a => some (mkR 2 0 5 (kbits d) (kbits a) 0 3)
  | .kmov d a b => some (mkR 2 0 5 (kbits d) a.bits b.bits 4)
  | .kpop d a => some (mkR 2 0 5 d.bits (kbits a) 0 5)
  | .mma acc d a b => some (mkR 3 acc.code 0 d.bits (hbits a) (hbits b) 0)
  | .mmai sat ua ub d a b => some (mkR 3 (3 ||| b1 sat <<< 2 ||| b1 ua <<< 3 ||| b1 ub <<< 4) 0 d.bits (hbits a) (hbits b) 1)
  | .mzero acc d => some (mkR 3 acc.code 0 d.bits 0 0 2)
  | .mload acc bc d a => some (mkR 3 (acc.code ||| b1 bc <<< 5) 0 d.bits a.bits 0 3)
  | .mdrain acc d a => some (mkR 3 acc.code 0 d.bits a.bits 0 4)
  | .mdrq o d a b => some (mkR 3 o.code 0 d.bits a.bits b.bits 5)
  | .mrsum sat u d a b => some (mkR 3 (3 ||| b1 sat <<< 2 ||| b1 u <<< 3) 0 d.bits (hbits a) b.bits 6)
  | .mcsum sat u d a b => some (mkR 3 (3 ||| b1 sat <<< 2 ||| b1 u <<< 4) 0 d.bits (hbits a) b.bits 7)
  | .mgang n => some (mkR 3 0 0 0 0 (BitVec.ofNat 5 n.val) 8)
  | .mfollow => some (mkR 3 0 0 0 0 0 9)
  | .munfollow a => some (mkR 3 0 0 0 a.bits 0 10)
  | .mwait d => some (mkR 3 0 0 d.bits 0 0 11)
  | .aalloc a b n => some (mkIS 3 1 0 a.bits (BitVec.ofNat 26 (32 * n + b.val)))
  | .afree b n => some (mkIS 3 1 1 0 (BitVec.ofNat 26 (32 * n + b.val)))
  | .aquery a q => some (mkIS 3 1 2 a.bits (BitVec.ofNat 26 q.val))
  | .spill v a => some (mkIS 3 1 3 a.bits (if v then 1 else 0))
  | .fill v a => some (mkIS 3 1 4 a.bits (if v then 1 else 0))
  | .cpush a => some (mkR 4 0 0 0 a.bits 0 0)
  | .cpushnb d a => some (mkR 4 0 0 d.bits a.bits 0 1)
  | .cfree d => some (mkR 4 0 0 d.bits 0 0 2)
  | .cfence => some (mkR 4 0 0 0 0 0 3)
  | .cset n a b => some (mkR 4 0 0 (BitVec.ofNat 5 n.val) a.bits b.bits 4)
  | .cget d n h => some (mkR 4 0 0 d.bits (BitVec.ofNat 5 n.val) (if h then 1 else 0) 5)
  | .xsend c a o => some (mkIU 5 0 0 (BitVec.ofNat 5 c.val) a.bits (o.zeroExtend 26))
  | .xrecv c a o => some (mkIU 5 0 1 (BitVec.ofNat 5 c.val) a.bits (o.zeroExtend 26))
  | .xrecva t op sat c a o => some (withXm (mkIU 5 t.code 2 (BitVec.ofNat 5 c.val) a.bits (o.zeroExtend 26)) 0 (BitVec.ofBool sat ++ (0 : BitVec 1) ++ op.code))
  | .xmc l c a o => some (mkIU 5 (BitVec.ofNat 6 c.val) 3 (BitVec.ofNat 5 l.val) a.bits (o.zeroExtend 26))
  | .xsel p o => some (mkIU 5 0 4 (BitVec.ofNat 5 p.val) 0 (o.zeroExtend 26))
  | .xend o => some (mkIU 5 0 5 0 0 (o.zeroExtend 26))
  | .sync a => some (mkR 5 0 6 0 a.bits 0 0)
  | .lsync g a => some (mkR 5 0 6 (hbits g) a.bits 0 1)
  | .arrive g => some (mkR 5 0 6 (hbits g) 0 0 2)
  | .await g => some (mkR 5 0 6 (hbits g) 0 0 3)
  | .dom g a b => some (mkR 5 0 6 (hbits g) a.bits b.bits 4)
  | .phaseQuery d a => some (mkR 5 0 6 d.bits a.bits 0 5)
  | .redAdd t sat d a g c n => some (withXmOpt (mkR 5 t.code 7 d.bits a.bits (hbits g) 0) c.bits (BitVec.ofBool sat ++ (BitVec.ofFin n : BitVec 4)))
  | .redMax t sat d a g c n => some (withXmOpt (mkR 5 t.code 7 d.bits a.bits (hbits g) 1) c.bits (BitVec.ofBool sat ++ (BitVec.ofFin n : BitVec 4)))
  | .redMin t sat d a g c n => some (withXmOpt (mkR 5 t.code 7 d.bits a.bits (hbits g) 2) c.bits (BitVec.ofBool sat ++ (BitVec.ofFin n : BitVec 4)))
  | .redAnd t sat d a g c n => some (withXmOpt (mkR 5 t.code 7 d.bits a.bits (hbits g) 3) c.bits (BitVec.ofBool sat ++ (BitVec.ofFin n : BitVec 4)))
  | .redOr t sat d a g c n => some (withXmOpt (mkR 5 t.code 7 d.bits a.bits (hbits g) 4) c.bits (BitVec.ofBool sat ++ (BitVec.ofFin n : BitVec 4)))
  | .redBar g => some (mkR 5 0 7 0 0 (hbits g) 5)
  | .vpinit d a b => some (mkR 6 0 0 d.bits a.bits b.bits 0)
  | .vpfold d a b => some (mkR 6 0 0 d.bits a.bits b.bits 1)
  | .vpmerge d a => some (mkR 6 0 0 d.bits a.bits 0 2)
  | .vpread d a => some (mkR 6 0 0 d.bits a.bits 0 3)
  | .vpregen d a b => some (mkR 6 0 0 d.bits a.bits b.bits 4)
  | .vpspill a => some (mkR 6 0 0 0 a.bits 0 5)
  | .vplabel d a => some (mkR 6 0 0 d.bits a.bits 0 6)
  | .vpstat d => some (mkR 6 0 0 d.bits 0 0 7)
  | .lgrant d a => some (mkR 7 0 1 d.bits a.bits 0 0)
  | .lrelease a => some (mkR 7 0 1 0 a.bits 0 1)
  | .lstat d a => some (mkR 7 0 1 d.bits a.bits 0 2)
  | .lmargin d a => some (mkR 7 0 1 d.bits a.bits 0 3)
  | .lmode d a b => some (mkR 7 0 1 d.bits a.bits b.bits 4)
  | .wreg d a => some (mkR 7 0 2 d.bits a.bits 0 0)
  | .wdereg d a => some (mkR 7 0 2 d.bits a.bits 0 1)
  | .wput d a => some (mkR 7 0 2 d.bits a.bits 0 2)
  | .wget d a => some (mkR 7 0 2 d.bits a.bits 0 3)
  | .wrtr d a => some (mkR 7 0 2 d.bits a.bits 0 4)
  | .wcnt d a b => some (mkR 7 0 2 d.bits a.bits b.bits 5)
  | .wwait d a b => some (mkR 7 0 2 d.bits a.bits b.bits 6)
  | .tvget d a => some (mkR 7 0 2 d.bits a.bits 0 7)
  | .tvstage d a => some (mkR 7 0 2 d.bits a.bits 0 8)
  | .tvcommit d a => some (mkR 7 0 2 d.bits a.bits 0 9)
  | .cstep d a => some (mkR 7 0 2 d.bits a.bits 0 10)
  | .cstat d a => some (mkR 7 0 2 d.bits a.bits 0 11)
  | .cresume d a b => some (mkR 7 0 2 d.bits a.bits b.bits 12)
  | .drain d a b => some (mkR 7 0 2 d.bits a.bits b.bits 13)
  | .lnkstat d a => some (mkR 7 0 2 d.bits a.bits 0 14)
  | .cycRead .. | .ageWrite .. | .tvWrite .. | .mailboxPost .. | .matrixStart | .matrixRetire .. | .load ..
  | .store .. | .gather .. | .scatter .. | .im2col .. | .update .. | .fillCommand .. | .copyBeat ..
  | .tlbWrite .. | .tlbInvalidate .. | .commandEndByFirmware .. | .copyCompletion .. | .updateApply ..
  | .scrubPass | .exchangeBeatReceive .. | .phaseCancel .. | .reductionResult .. | .reductionStraggler
  | .phaseRelease .. | .stragglerExpiry | .exchangePhaseEnd | .localRelease .. | .localPhaseEnd
  | .treeComplete .. | .awaitStraggler | .headOpComplete | .settlingEnd .. | .measurementWindow ..
  | .wavelengthFail .. | .wavelengthRestore .. | .linkStep .. | .linkStepTimeout .. | .drainFec ..
  | .drainRetrain .. | .undrain .. | .drainTimeout | .commitTimeout | .wderegTimeout | .wwaitTimeout
  | .lightDetect .. | .lockAcquired .. | .lockTimeout .. | .burstLoss .. | .lossOfLock .. | .idleBurst ..
  | .linkBringup .. | .frameReceive .. | .frameAck .. | .fecRequest .. | .fecAck .. | .fecRequestRepeat ..
  | .fecRevert .. | .fecChangeTimeout .. | .transitPacket .. | .staleTv .. | .putArrive .. | .getArrive ..
  | .getDataArrive .. | .allowanceArrive .. | .rendezvousAnswer .. | .putAckArrive .. | .drainMarkerArrive ..
  | .commitMarkerArrive .. | .deregNoticeArrive .. | .deregAnswerArrive .. | .collectivePut ..
  | .collectiveWait .. | .collectiveReduce .. | .collectiveEnd .. | .collectiveFreeze .. | .launchSubmit ..
  | .launchAdmit | .agingRaise .. | .counterWrite .. | .launchComplete | .launchEndedByFirmware
  | .coreRestart .. | .preemptSwap | .preemptOverdue | .shadowPage .. | .partitionConfig .. | .sensorSample ..
  | .thermal | .thermalMigration .. | .slewWindow | .tileGate .. | .tileUngate | .powerGood | .resetRelease ..
  | .railFault | .thermalTrip | .bootSourceTimeout | .boot .. | .mgmtStatus | .bootimg .. | .attest ..
  | .keyload .. | .keyclear .. | .mgmtSnap | .snapread .. | .snapshotLatch | .evread .. | .checkpoint ..
  | .restore .. | .svncommit .. | .mgmtReset | .eventRecordDeliver .. | .logTailWrite ..
  | .hostRegisterWrite .. | .illegalEncoding .. | .fetchFault .. | .serviceInboxTake | .resetNAssert
  | .memoryError .. | .checkpointEnd .. => none

/-- The words of a chain: the words that widen it, in the order of R66, then the base word. -/
def Fields.words (f : Fields) : List Half :=
  (if f.xp then [(0xF : BitVec 4) ++ (2 : BitVec 2) ++ f.page ++ f.mod6] else []) ++
  (if f.xr then [(0xF : BitVec 4) ++ (1 : BitVec 2) ++ f.dhi ++ f.ahi ++ f.bhi ++ f.fnhi] else []) ++
  (if f.xm then [(0xF : BitVec 4) ++ (3 : BitVec 2) ++ f.c ++ f.mod5] else []) ++
  f.xi.map (fun x => (0xF : BitVec 4) ++ (0 : BitVec 2) ++ x) ++ [f.base]

/-- The words knas emits for an instruction (R79); none for a row that has no encoding. -/
def encode (i : Instr) : List Half :=
  match fieldsOf i with
  | some f => f.words
  | none => []

/-- The words of a number of the table of operations: the table writes the first word of a chain in the highest bits
(log 15). A pair in which only the low word is one of the widening words is read in the other order. -/
def tableWords (nbits w : Nat) : List Half :=
  if nbits ≤ 16 then [BitVec.ofNat 16 w]
  else
    let hi : Half := BitVec.ofNat 16 (w / 65536)
    let lo : Half := BitVec.ofNat 16 w
    if isPfx lo && !isPfx hi then [lo, hi] else [hi, lo]

/-- The bytes of words in memory: little-endian, the first word lowest (R43, R62). -/
def wordBytes : List Half → List Byte
  | [] => []
  | w :: ws => w.truncate 8 :: w.extractLsb' 8 8 :: wordBytes ws

/-- The words of bytes in memory. -/
def bytesWords : List Byte → List Half
  | a :: b :: bs => (b ++ a) :: bytesWords bs
  | _ => []

/-- The instruction that the decoder reads from a number of the table, laid out in memory as the hardware stores it. -/
def decodeTableWord (nbits w : Nat) : Option Instr :=
  match decode (bytesWords (wordBytes (tableWords nbits w))) with
  | .ok (i, _) => some i
  | .error _ => none

end Sys2Proof
end

