-- ==== Sys2Proof/Machine/Aes.lean ====
section
/-! DEFINITION. Machine/Aes.lean: AES-256-XTS, the cipher of LPDDR 6 (R235): the manual names the standard (FIPS 197, IEEE
1619), whose definitions these are. A block is 16 bytes, as numbers; the 512 bits of a key are its two AES keys, the lower
first and each with its lowest byte first (log 49). -/

namespace Sys2Proof.Machine.Aes

/-- The product by x in GF(2^8), and the product of two elements. -/
def xtime (a : Nat) : Nat := if a < 128 then 2 * a else (2 * a - 256) ^^^ 0x1B
def mul (a b : Nat) : Nat :=
  ((List.range 8).foldl (fun p i => (if b.testBit i then p.1 ^^^ p.2 else p.1, xtime p.2)) (0, a)).1

/-- The inverse, 0 for 0: the power 254. -/
def inv (a : Nat) : Nat := ((List.range 7).foldl (fun p _ => let q := mul p.2 p.2; (mul p.1 q, q)) (1, a)).1

def rot (b n : Nat) : Nat := b * 2 ^ n % 256 + b * 2 ^ n / 256

/-- The substitution of a byte, and its inverse. -/
def sub (b : Nat) : Nat := let x := inv b; x ^^^ rot x 1 ^^^ rot x 2 ^^^ rot x 3 ^^^ rot x 4 ^^^ 0x63
def unsub (b : Nat) : Nat := inv (rot b 1 ^^^ rot b 3 ^^^ rot b 6 ^^^ 0x05)

/-- Row r of a block moves r places to the left, or back. -/
def shift (b : List Nat) : List Nat := (List.range 16).map fun i => b.getD (i % 4 + 4 * ((i / 4 + i % 4) % 4)) 0
def unshift (b : List Nat) : List Nat := (List.range 16).map fun i => b.getD (i % 4 + 4 * ((i / 4 + 4 - i % 4) % 4)) 0

/-- The columns of a block times a polynomial, by its coefficients. -/
def mix (m : List Nat) (b : List Nat) : List Nat :=
  (List.range 16).map fun i =>
    (List.range 4).foldl (fun x j => x ^^^ mul (m.getD ((j + 4 - i % 4) % 4) 0) (b.getD (i / 4 * 4 + j) 0)) 0

def add (a b : List Nat) : List Nat := List.zipWith (· ^^^ ·) a b

/-- Word i of the key schedule of AES-256, from those before it. -/
def nextWord (ws : List (List Nat)) (i : Nat) : List Nat :=
  let t := ws.getD (i - 1) []
  let t :=
    if i % 8 = 0 then
      let u := ((t.drop 1) ++ t.take 1).map sub
      add u [(List.range (i / 8 - 1)).foldl (fun x _ => xtime x) 1, 0, 0, 0]
    else if i % 8 = 4 then t.map sub
    else t
  add (ws.getD (i - 8) []) t

/-- The round keys of 32 key bytes. -/
def schedule (key : List Nat) : List (List Nat) :=
  let ws := (List.range 52).foldl (fun ws i => ws ++ [nextWord ws (i + 8)])
    ((List.range 8).map fun i => (key.drop (4 * i)).take 4)
  (List.range 15).map fun r => ((ws.drop (4 * r)).take 4).flatten

def encrypt (ks : List (List Nat)) (b : List Nat) : List Nat :=
  let round (b : List Nat) (r : Nat) : List Nat := add (mix [2, 3, 1, 1] (shift (b.map sub))) (ks.getD (r + 1) [])
  add (shift (((List.range 13).foldl round (add b (ks.getD 0 []))).map sub)) (ks.getD 14 [])

def decrypt (ks : List (List Nat)) (b : List Nat) : List Nat :=
  let round (b : List Nat) (r : Nat) : List Nat := mix [14, 11, 13, 9] (add ((unshift b).map unsub) (ks.getD (13 - r) []))
  add ((unshift ((List.range 13).foldl round (add b (ks.getD 14 [])))).map unsub) (ks.getD 0 [])

/-- The n bytes of a number, and the number of bytes. -/
def toBytes (n x : Nat) : List Nat := (List.range n).map fun i => x / 256 ^ i % 256
def ofBytes (bs : List Nat) : Nat := bs.foldr (fun b x => b + 256 * x) 0

/-- The tweak of the next block of a data unit. -/
def nextTweak (t : Nat) : Nat := if t < 2 ^ 127 then 2 * t else (2 * t - 2 ^ 128) ^^^ 0x87

/-- XTS over the blocks of a data unit: `f` is the cipher under the first key. -/
def blocks (f : List Nat → List Nat) : Nat → Nat → List Nat → List Nat
  | 0, _, _ => []
  | n + 1, t, bs =>
    let w := toBytes 16 t
    add (f (add (bs.take 16) w)) w ++ blocks f n (nextTweak t) (bs.drop 16)

/-- A data unit of 64 bytes under a key and the number that is its tweak: encrypted, or decrypted. -/
def xts (decr : Bool) (key unit : Nat) (bs : List Nat) : List Nat :=
  let k1 := schedule (toBytes 32 key)
  let t := ofBytes (encrypt (schedule (toBytes 32 (key / 2 ^ 256))) (toBytes 16 unit))
  blocks (if decr then decrypt k1 else encrypt k1) 4 t bs

/-- R358, RFC 3394: the key of 64 bytes that is wrapped in 72 under a key of 32; none where the check value does not come out. -/
def unwrap (kek : Nat) (bs : List Byte) : Option Nat :=
  let ks := schedule (toBytes 32 kek)
  let part (i : Nat) : List Nat := ((bs.drop (8 * i)).take 8).map (·.toNat)
  let back (m : List Nat × List (List Nat)) (j : Nat) : List Nat × List (List Nat) :=
    let t := 48 - j
    let i := (t - 1) % 8
    let b := decrypt ks (add m.1 (toBytes 8 t).reverse ++ m.2.getD i [])
    (b.take 8, m.2.set i (b.drop 8))
  let m := (List.range 48).foldl back (part 0, (List.range 8).map fun i => part (i + 1))
  if bs.length = 72 ∧ m.1 = List.replicate 8 0xA6 then some (ofBytes m.2.flatten) else none

/-- R235: a beat written under one key as it reads under another. -/
def across (k key beat : Nat) (bs : List Byte) : List Byte :=
  (xts true key beat (xts false k beat (bs.map (·.toNat)))).map (BitVec.ofNat 8)

end Sys2Proof.Machine.Aes
end

