-- ==== Sys2Proof/Config.lean ====
section
/-! DEFINITION. Config.lean: what an implementation fixes and the free values of the manual. Every constant here is
opaque and has no body: no proof sees a value, so a statement holds whatever the value is (notes/assumptions 2). -/

namespace Sys2Proof.Config

/-- DESIGN CHOICE (log 2). Core cycles that pass before step number n beyond one (R2, R87, R138: times are not modelled). -/
opaque stepCycles : Nat → Nat

/-- R303: whether the beat that is crossing when its light fails checks, by the step number of its handling. -/
opaque crossing : Nat → Bool

/-- R166: whether the step of an engine falls in the same core cycle as the step before it, step number n (log 2). -/
opaque sameCycle : Nat → Bool

/-- DESIGN CHOICE (log 2). Whether an engine takes a step before the pipeline at step number n (R137, R242: open order). -/
opaque engineFirst : Nat → Bool

/-- DESIGN CHOICE (log 2). Which of the enabled engine steps is taken at step number n. -/
opaque engineChoice : Nat → Nat

/-- R26, R109: how many of the writes since the fetch buffer was last discarded the fetch of the word at an address does not
yet see in step n, taken modulo one more than their number. -/
opaque fetchStale : Nat → Nat → Nat

/-- R25: the 8 bytes of a monitor in the table window, whose layout the manual does not give (log 16): from armed,
fired, line and byte number, and back from the bytes. -/
opaque monByte : Bool → Bool → Nat → Nat → Byte
opaque monDecode : List Byte → Bool × Bool × Nat

/-- R295: calibrated loss where no measurement stands in the state, in tenths of a dB from a source (tile, or 144 + fibre port), lane, to a tile. -/
opaque loss : Nat → Nat → Nat → Nat

/-- R230, R362: the channel controller that holds a beat of LPDDR 6; the interleaving is not given (log 28). -/
opaque channel : Nat → Nat

/-- R221: the scale byte that rides in a beat of a copy into view 0x5, whose place in global memory is not given (log 26):
by step number and block. -/
opaque rideScale : Nat → Nat → Byte

/-- A word to which the manual gives no value: in a record of a token block that meets an uncorrectable error (R276, log 30),
in WORST before a measurement (R310, log 31): by step number and index. -/
opaque openWord : Nat → Nat → Word

/-- R210, R362: the code of a thermal state in an event record (true: THROTTLED), which the manual does not give (log 32). -/
opaque thermalCode : Bool → Word

/-- R228: the function firmware loaded into update slot 8 to 15, which the manual does not give (log 51): slot, target, operand; the
new target. -/
opaque updateFn : Nat → Word → Word → Word

/-- DESIGN CHOICE (log 58). What this machine does not hold of other cores, as step number n finds it: a byte of the local memory of a core,
whether the 16 bytes at a multiple of 16 meet an uncorrectable error, and whether a tile is gated. -/
opaque otherByte : Nat → Nat → Nat → Byte
opaque otherBad : Nat → Nat → Nat → Bool
opaque otherGated : Nat → Nat → Bool

/-- R357: the certificate chain, the signature of the device over a message, made with a key that never leaves it, and the ML-KEM
encapsulation key that firmware of boot number n generated (log 51). -/
opaque certChain : List Byte
opaque mlDsaSign : List Byte → List Byte
opaque mlKemKey : Nat → List Byte

/-- R357: the device serial, 16 bytes. -/
opaque serial : BitVec 128

/-- R358: the transport key agreed through an ML-KEM encapsulation key, as it stands when step number n takes a key (log 51). -/
opaque transportKey : List Byte → Nat → Nat

/-- R1: the ordering code of the part, as a number. -/
opaque orderingCode : Nat

/-- R358: the fresh key drawn from the entropy source at boot number n. -/
opaque entropyKey : Nat → Nat

/-- R355: the fuse values VENDKEY and CUSTKEY, 64 bytes each. -/
opaque vendKey : List Byte
opaque custKey : List Byte

/-- R360, R361: the words a snapshot group latches at step n that the model does not hold (group, index). -/
opaque snapWord : Nat → Nat → Nat → Word

end Sys2Proof.Config
end

