-- ==== Sys2Proof/Machine/State.lean ====
section
/-! DEFINITION. Machine/State.lean: everything the manual gives the machine, as plain data: the context of the compute
core (spec/03, 09, 10, 13, 16), its tile, its partition and its chip (11, 13, 18, 20, 21), and the inputs that other
agents have in store for it (log 1). INVENTORY.md lists each piece with its rule and its reset value. -/

namespace Sys2Proof.Machine

/-- No step of this machine ends in a Lean fault: every trap, error and stop of the manual is a state. The type has no
constructor, so nothing raises it: safe. -/
inductive Fault where
  deriving DecidableEq, Repr

/-- Why a step has no meaning. -/
inductive Refusal where
  /-- Raised by an arm of `exec` whose instruction has no meaning yet. Safe: the run stops. -/
  | notModelled (mnemonic : String)
  deriving DecidableEq, Repr

/-- Memory in canonical form: addresses rise strictly and no entry holds 0, what an unlisted address reads as (log 3). -/
abbrev Memory := List Host.Cell

/-! The compute core (03). -/

/-- The instruction being executed: its length in words and what c.eword would hold (R18, R62). -/
structure Fetched where
  len : Nat := 1
  eword : Word := 0
  deriving DecidableEq, Repr, Inhabited

/-- What the core does (R104, R42, R197): no launch, running, halted, or stopped by a double trap. -/
inductive RunState where
  | idle | running | halted | stopped
  deriving DecidableEq, Repr, Inhabited

/-- A hardware-loop state (R99); `stop` is its field END. -/
structure LoopState where
  act : Bool := false
  start : Word := 0
  stop : Word := 0
  reg : Reg := 0
  deriving DecidableEq, Repr, Inhabited

/-- A handle (R30). -/
structure Handle where
  base : Word := 0
  size : Word := 0
  count : Word := 0
  head : Half := 0
  tail : Half := 0
  deriving DecidableEq, Repr, Inhabited

/-- An entry of the spill record (R29). -/
structure Parked where
  v : Bool := false
  bank : BitVec 5 := 0
  slot : BitVec 5 := 0
  deriving DecidableEq, Repr, Inhabited

/-- A named barrier (R165). -/
structure Barrier where
  expa : Byte := 1
  pena : Byte := 0
  ph : Bool := false
  src : BitVec 2 := 0
  expb : BitVec 24 := 0
  penb : BitVec 24 := 0
  status : Word := 0
  deriving DecidableEq, Repr, Inhabited

/-- A wait-on-address monitor (R168): the 64-byte line it watches, by the offset of its first byte. -/
structure Monitor where
  armed : Bool := false
  fired : Bool := false
  line : Nat := 0
  deriving DecidableEq, Repr, Inhabited

/-- A queued matrix instruction (R132): the instruction, the offset and view of the slots it recorded, the handles it
pops at retirement, its scalar operands and c.sbase at issue, the slot and scale bytes that a gang leader broadcast to
it (R33), and whether it has started. -/
structure MxOp where
  op : Instr
  slotA : Nat := 0
  slotB : Nat := 0
  viewA : Nat := 0
  viewB : Nat := 0
  popA : Option HReg := none
  popB : Option HReg := none
  opnd : Word := 0
  tbl : Word := 0
  sbase : Nat := 0
  lead : Option (List Byte × List Byte) := none
  started : Bool := false
  deriving DecidableEq, Repr

/-- An entry of the state directory (R264). -/
structure DirEntry where
  bank : Nat := 0
  t : Nat := 0
  mode : Nat := 0
  cap : Nat := 0
  delta : Word := 0
  nb : Nat := 0
  deriving DecidableEq, Repr, Inhabited

/-- A queued head-unit operation (R265) with its scalar operand and the directory entry of its state at issue. -/
structure HeadOp where
  op : Instr
  x : Word := 0
  ent : DirEntry := {}
  deriving DecidableEq, Repr

/-- What a beat of a copy command waits for: its notice (R232, R233), a free notice, or an operation of the fabric engine
(R335). -/
inductive CopyStall where
  | none | notice | noNotice | remote
  deriving DecidableEq, Repr, Inhabited

/-- R230: where a physical address lies. -/
inductive Region where
  | lpddr (pa key : Nat) | host (addr : Nat) | aperture (chip win off : Nat) | core (p off : Nat)
  deriving DecidableEq, Repr

/-- Work of a copy command that its later beats do not wait for (R219, R232): a beat by its number and virtual address, a
list beat, or (`rows`) the beats up to a number whose list came late. It waits for a notice or an operation of the fabric
engine (`ref`), or holds its bytes in hand: on their way out, or to be written locally where `back` or a reading kind says
so (R151); `rsp` is the answer of the fabric engine (R335). -/
structure Aside where
  pos : Nat := 0
  va : Nat := 0
  isList : Bool := false
  rows : Option (Nat × List Word) := none
  stall : CopyStall := .none
  ref : Nat := 0
  data : Option (List Byte) := none
  back : Bool := false
  rsp : Option (Nat × List Byte × List Nat) := none
  deriving DecidableEq, Repr, Inhabited

/-- A copy command in the FIFO (R219 to R226, R248, R254): the request words, what the push copied, the slot index fixed
at push, whether it has begun, progress in beats, the index words of the current list beat, the FILL pattern, the beats put
aside, the places that a SCATTER has written past them (R222), its outcome so far, and the step in which it fell due. -/
structure CopyCmd where
  w0 : Word := 0
  w1 : Word := 0
  w2 : Word := 0
  w3 : Word := 0
  rb : BitVec 48 := 0
  imgeo : BitVec 48 := 0
  pad : Word := 0
  ecfg : Word := 0
  svc : Bool := false
  asid : Byte := 0
  i0 : Half := 0
  fence : Bool := false
  begun : Bool := false
  pos : Nat := 0
  haveList : Bool := false
  list : List Word := []
  pat : List Byte := []
  aside : List Aside := []
  wrote : List (Region × Nat) := []
  errAt : Option Nat := none
  stop : Option (Nat × Nat) := none
  fell : Nat := 0
  deriving DecidableEq, Repr, Inhabited

/-- The first trap deferred in an exchange phase (R41, R156): c.cause, c.eaddr, c.eword, and for a trap that arose while
fetching the first word's address (R62). -/
structure Deferred where
  cause : Word := 0
  eaddr : Word := 0
  eword : Word := 0
  epc : Option Word := none
  deriving DecidableEq, Repr, Inhabited

/-- A slot entry, a switch entry and a segment of an installed Caravan image (R160). -/
structure Slot where
  core : Nat := 0
  off : Nat := 0
  kind : Nat := 0
  cls : Nat := 0
  lane : Nat := 0
  port : Nat := 0
  deriving DecidableEq, Repr, Inhabited

structure Switch where
  tile : Nat := 0
  elem : Nat := 0
  off : Nat := 0
  set : Nat := 0
  dur : Nat := 0
  deriving DecidableEq, Repr, Inhabited

structure Segment where
  seg : Nat := 0
  loc : Bool := false
  len : Nat := 0
  slots : List Slot := []
  switches : List Switch := []
  paths : List Nat := []
  deriving DecidableEq, Repr, Inhabited

/-- An installed Caravan image (R159). -/
structure Image where
  ncore : Nat := 0
  segs : List Segment := []
  deriving DecidableEq, Repr, Inhabited

/-- A receive or combine slot that an instruction claimed (R154, R155): the index of the slot among the core's receive
slots, its offset, the block's address and length, the combine if any, the beats written, and whether a beat that was
lacking has set its c.xmiss bit. -/
structure Claim where
  idx : Nat := 0
  off : Nat := 0
  addr : Nat := 0
  len : Nat := 0
  comb : Option (ElemType × CombOp × Bool) := none
  got : List Nat := []
  missed : Bool := false
  deriving DecidableEq, Repr, Inhabited

/-- A send beat on its way out (R153): the offset it is read in, the offset of the send, its beat number, the lane of an
optical send and the index of its path in the segment's list, its address and length. -/
structure SendBeat where
  at_ : Nat := 0
  off : Nat := 0
  j : Nat := 0
  lane : Option Nat := none
  path : Nat := 0
  addr : Nat := 0
  len : Nat := 0
  deriving DecidableEq, Repr, Inhabited

/-- The exchange unit in an exchange phase (R153 to R158, R180): the release xc, the segment, the mode of each of its paths
at release (R303), the tree of a local segment, the least offset that the next instruction may name, the offset up to which
beats have been handled, the claims, the send beats on their way, the offsets of the send slots claimed, the ports selected,
each from its offset on, the latest first; the paths whose light has failed, with the offset (R302); and the beats that have arrived in the offset
`handled`, which are written once it has passed: its sends read before them (R158), and a receive or an xsel of it still counts. -/
structure Exch where
  xr : Nat := 0
  seg : Segment := {}
  tree : Tree := 0
  nextOff : Nat := 0
  handled : Nat := 0
  arrived : List Input := []
  claims : List Claim := []
  sends : List SendBeat := []
  sent : List Nat := []
  ports : List (Nat × Nat) := []
  modes : List Nat := []
  fails : List (Nat × Nat) := []
  deriving DecidableEq, Repr, Inhabited

/-- A reduction the core waits on (R163): its tree, contribution, number on that tree, and the xc of its issue. -/
structure RedWait where
  tree : Tree := 0
  con : RedContrib
  num : Nat := 0
  xc : Nat := 0
  deriving DecidableEq, Repr

/-- What the instruction at pc has done while it waits. -/
inductive Pend where
  | none
  /-- arrived at sync (g0) or lsync with a segment (R148), and released -/
  | sync (g : Tree) (seg : Nat)
  | released
  /-- await, issued in an xc (R184) -/
  | await (g : Tree) (xc : Nat)
  /-- a reduction waits, and has its result: lanes and status (R163) -/
  | red (w : RedWait)
  | redDone (lanes : List Word) (status : Word)
  /-- snap waits for its snapshot (R105); the latch gives it the sequence number -/
  | snap (seq : Option Word)
  /-- mgang, mfollow have been issued and wait for the row (R139, R140) -/
  | gang
  | follow
  /-- waita waits on a monitor (R169) -/
  | waita
  /-- the waiting fabric instructions, with the xc of issue: drain, its FEC and RETRAIN operations on a mask of ports,
  tvcommit, wdereg, wwait (R338, R340, R347, R350) -/
  | drain (xc : Nat)
  | fec (ports : List Nat) (xc : Nat)
  | retrain (ports : List Nat) (xc : Nat)
  | commit (v : Half) (xc : Nat)
  | dereg (win : Nat) (xc : Nat)
  /-- `reg` says that the window was registered at the last look -/
  | wwait (xc : Nat) (reg : Bool)
  deriving DecidableEq, Repr

/-- A context of the compute core: what a launch owns and a swap exchanges (R204), and what belongs to the core's
foreground while it runs. `lid` is the number of its launch; `issue` is the instruction that waits at pc, with its words;
`stale` keeps the writes that the fetch buffer may not show yet, the latest first, each with the bytes it replaced (R26);
`cycleBar` keeps the barriers that the present core cycle has updated, as they were before its flip test (R166). -/
structure Ctx where
  run : RunState := .idle
  lid : Nat := 0
  s : Vector Word 32 := Vector.replicate 32 0
  v : Vector VWord 32 := Vector.replicate 32 0
  k : Vector DWord 8 := Vector.replicate 8 0
  h : Vector Handle 16 := Vector.replicate 16 {}
  pc : Word := 0
  status : Word := 1
  tvec : Word := 0x40
  epc : Word := 0
  cause : Word := 0
  eaddr : Word := 0
  eword : Word := 0
  scratch : Word := 0
  lcore : Word := 0
  ncore : Word := 1
  part : Word := 0
  phase : Word := 0
  lphase : Word := 0
  stragg : Word := 0
  xerr : Word := 0
  xmiss : Word := 0
  cyc : DWord := 0
  cycLatch : Option Word := none
  fmode : Word := 0
  sbase : Word := 0
  launch : Word := 0x100
  mcheck : Word := 1
  accmap : Word := 0
  spillmap : Word := 0
  vpcfg : Word := 0
  vpst : Word := 0
  ecfg : Word := 0
  loopU : LoopState := {}
  loopS : LoopState := {}
  mem : Memory := []
  memErr : List Nat := []
  stale : List (Nat × List Byte) := []
  acc : Memory := []
  accErr : List Nat := []
  parked : Vector Parked 64 := Vector.replicate 64 {}
  bar : Vector Barrier 512 := Vector.replicate 512 {}
  cycleBar : List (BarName × Barrier) := []
  mbox : Vector DWord 32 := Vector.replicate 32 0
  mboxHead : BitVec 5 := 0
  mboxCount : BitVec 6 := 0
  held : List DWord := []
  mon : Vector Monitor 8 := Vector.replicate 8 {}
  mx : List MxOp := []
  mxStatus : Word := 0
  head : List HeadOp := []
  headStatus : Byte := 0
  dir : List DirEntry := []
  copy : List CopyCmd := []
  cfence : Bool := false
  e0 : BitVec 48 := 0
  e1 : BitVec 48 := 0
  e2 : BitVec 48 := 0
  copyDone : Half := 0
  arr : BitVec 16 := 0
  done : BitVec 16 := 0
  redNum : List (Nat × Nat) := []
  deferred : Option Deferred := none
  fetchStop : Bool := false
  exch : Option Exch := none
  pend : Pend := .none
  stall : Bool := false
  issue : Option (Instr × Fetched) := none
  evSeq : Word := 0
  asid : Byte := 0
  deriving DecidableEq, Repr

/-! The tile (03 R35, 11, 13). -/

/-- An entry of the slot table (R35). -/
structure SlotEntry where
  v : Bool := true
  it : Bool := false
  phys : Fin 16 := 0
  deriving DecidableEq, Repr, Inhabited

/-- The kind of a notice (R232, R233). -/
inductive NoticeKind where
  | miss | light | writeFault
  deriving DecidableEq, Repr, Inhabited

/-- A notice outstanding at the service core, by a number of the model's own. -/
structure Notice where
  id : Nat := 0
  kind : NoticeKind := .miss
  va : Nat := 0
  asid : Byte := 0
  write : Bool := false
  deriving DecidableEq, Repr, Inhabited

/-- A message in the service inbox (R173, R232, R42), and what only the service core of tile 0 gets: the failure of a
wavelength (R302) and PREEMPT_OVERDUE (R208). -/
inductive InboxMsg where
  | user (idx : Nat) (m : DWord)
  | notice (idx : Nat) (n : Notice)
  | machineCheck (idx : Nat) (pc eaddr : Word)
  | laserFail (lam : Nat)
  | overdue
  deriving DecidableEq, Repr

/-- An event record (R362) without its DROP field. -/
structure EventRec where
  src : Nat := 0
  kind : Nat := 0
  seq : Word := 0
  xcyc : Word := 0
  d0 : Word := 0
  d1 : Word := 0
  d2 : Word := 0
  d3 : Word := 0
  deriving DecidableEq, Repr, Inhabited

/-- The tile: its number, this core's index and the slot by which its context is reached (R35). -/
structure Tile where
  num : Nat := 0
  idx : Fin 16 := 0
  slot : Fin 16 := 0
  throttled : Bool := false
  /-- the sensors of the 16 cores, then the router's -/
  temps : List Int := List.replicate 17 25
  thermXc : Option Nat := none
  thot : Byte := 95
  tmig : Byte := 105
  slew : BitVec 6 := 16
  /-- core cycles of the tile's clock, and the governor: the window dealt with last, the starts of the one before it and its own,
  the core served last in the one before and in it (R213) -/
  clock : Nat := 0
  slewWin : Nat := 0
  slewPrev : Nat := 0
  slewCur : Nat := 0
  slewFrom : Nat := 15
  slewLast : Nat := 15
  gate : Option GateMode := none
  slots : List SlotEntry := (List.finRange 16).map fun i => { phys := i }
  /-- the core to which this core's context is on its way, where its slot entry is in transit (R36, R211) -/
  target : Fin 16 := 0
  tlb : List (Nat × TlbEntry) := []
  /-- writes of TLB entries that are not complete, with the operations of the fabric engine that they wait for (R234) -/
  tlbWaits : List (Nat × List Nat) := []
  notices : List Notice := []
  noticeNum : Nat := 0
  inbox : List InboxMsg := []
  evq : List EventRec := []
  deriving DecidableEq, Repr

/-! The partition (09, 11). -/

/-- The address space of a launch as firmware gives it (log 32): its pages of 64 KiB by number, their key slot, its id. -/
structure Space where
  pages : List (Nat × Nat) := []
  key : Nat := 0
  asid : Byte := 0
  deriving DecidableEq, Repr, Inhabited

/-- A queued launch record (R193, R195): its 64 bytes and address space, level, whether aging raised it, its place in time,
and the exchange cycle in which it was queued. -/
structure QRec where
  bytes : List Byte := []
  space : Space := {}
  level : Nat := 0
  raised : Bool := false
  order : Nat := 0
  xc : Nat := 0
  deriving DecidableEq, Repr, Inhabited

/-- A launch that runs or waits in the shadow (R197, R203): its number, level, placement (physical cores by logical
core) and DONE counter. -/
structure Launch where
  id : Nat := 0
  level : Nat := 0
  cores : List Nat := []
  done : Option Nat := none
  deriving DecidableEq, Repr, Inhabited

/-- The arrivals at sync or lsync on one tree (R148, R149): (physical core, segment) in order, the c.stragg of the first
and the xc of the first. -/
structure Gathering where
  tree : Tree := 0
  arrivals : List (Nat × Nat) := []
  stragg : Word := 0
  xc : Nat := 0
  deriving DecidableEq, Repr, Inhabited

/-- The trees of a launch (R147): membership masks by (tree, tile), masks staged by dom, pending arrivals of the split
barriers by (tree, physical core), the arrivals at sync and lsync, and the cores that have halted. -/
structure Trees where
  masks : List (Nat × Nat × BitVec 16) := []
  staged : List (Nat × Nat × BitVec 16) := []
  arrived : List (Nat × Nat) := []
  gather : List Gathering := []
  halted : List Nat := []
  deriving DecidableEq, Repr, Inhabited

/-- A local exchange that has been released on a tree of the partition: its release xc and segment (R162). -/
structure LocalRun where
  tree : Tree := 0
  xr : Nat := 0
  seg : Segment := {}
  deriving DecidableEq, Repr, Inhabited

/-- A launch paged out of the shadow (R207), with this core's context of it; `waits` says that it has not run yet. -/
structure Paged where
  waits : Bool := false
  since : Nat := 0
  launch : Launch := {}
  ctx : Ctx := {}
  trees : Trees := {}
  image : Option Image := none
  deriving DecidableEq, Repr

/-- A partition (R190). `evaluate` says that its controller is to evaluate admission (R194); `since` is the xc in which the
record of the prepared launch was admitted, `told` that PREEMPT_OVERDUE has been sent for it (R208). -/
structure Part where
  num : Nat := 0
  cfg : PartSettings := { tiles := [0], mcheck := true }
  lbudget : BitVec 14 := 9600
  lmargin : Byte := 10
  age : BitVec 24 := 10000
  queue : List QRec := []
  order : Nat := 0
  launches : Nat := 0
  running : Option Launch := none
  prepared : Option Launch := none
  shadowed : Option Launch := none
  evaluate : Bool := false
  since : Nat := 0
  told : Bool := false
  /-- a pre-emption point has come, and the cores are to swap (R203) -/
  swapDue : Bool := false
  trees : Trees := {}
  treesSh : Trees := {}
  image : Option Image := none
  imageSh : Option Image := none
  paged : List Paged := []
  locals : List LocalRun := []
  deriving DecidableEq, Repr

/-! The chip (13, 18, 20, 21). -/

/-- The state of a grant (R299). -/
inductive PathState where
  | dark | settling | lit | degraded | stepping
  deriving DecidableEq, Repr, Inhabited

/-- An allocated grant (R299 to R313): `part` is none for a fibre grant; `next` is the mode and power a step of R304
leads to; `litXc` is the xc in which it last became LIT (R300). -/
structure Grant where
  id : Nat := 0
  part : Option Nat := none
  owner : Nat := 0
  src : Nat := 0
  lane : Nat := 0
  dests : List Nat := []
  gu : Nat := 0
  mode : Nat := 0
  margin : Nat := 0
  rxp : Int := 0
  state : PathState := .settling
  fail : Bool := false
  crc : Nat := 0
  /-- CRC failures of the present window that are counted already (R310) -/
  seen : Nat := 0
  worst : Nat := 0
  mmargin : Option Int := none
  next : Option (Nat × Nat) := none
  litXc : Nat := 0
  deriving DecidableEq, Repr, Inhabited

/-- R354: the fixed fibre grant of boot source 0, on port 0, lane 0: 64 GU at PAM4, which is 12.0 dB above 4 GU (R295); its id is the
one that lgrant gives that lane (R307). -/
def Grant.boot : Grant := { id := 0x8000, src := 144, dests := [0], gu := 64, mode := 1, rxp := 120 - Config.loss 144 0 0 }

/-- The lock state of a port (R319). -/
inductive Lock where
  | dark | locking | locked | failed
  deriving DecidableEq, Repr, Inhabited

/-- An FEC change (R323): that a sender has requested, `closed` once it is acknowledged, so that the sender switches at the
first even frame at or after F; or that a receiver has acknowledged, `closed` once it decodes with one code again. `other` is the xc
in which another core's drain began the change. -/
structure FecReq where
  n : Byte := 0
  mode : Nat := 0
  f : Nat := 0
  closed : Bool := false
  other : Option Nat := none
  deriving DecidableEq, Repr, Inhabited

/-- A frame in a retransmission buffer (R321): its sequence number and what it carries. -/
structure Frame where
  seq : Nat := 0
  line : Line := .drainMarker
  deriving DecidableEq, Repr, Inhabited

/-- A fibre port (R317 to R323, R337, R338): `queue` is what waits for room in the retransmission buffer, `count` the frames
it has sent, `clearXc` the xc in which it last ceased to drain or to be DRAINED. -/
structure Port where
  lock : Lock := .dark
  peerChip : Nat := 0
  peerPort : Nat := 0
  hadPeer : Bool := false
  draining : Bool := false
  drained : Bool := false
  markerIn : Bool := false
  commitIn : Option Half := none
  frames : List Frame := []
  queue : List Line := []
  txSeq : Nat := 0
  rxSeq : Nat := 0
  count : Nat := 0
  fec : Nat := 0
  rxFec : Nat := 0
  fecSeq : Byte := 0
  fecReq : Option FecReq := none
  fecWin : Option FecReq := none
  reverts : Nat := 0
  pver : Nat := 0
  retrain : Bool := false
  clearXc : Nat := 0
  deriving DecidableEq, Repr, Inhabited

/-- A routing table (R325). -/
structure Routing where
  ver : Half := 0
  n : Nat := 0
  routes : List Nat := []
  deriving DecidableEq, Repr, Inhabited

/-- A request that crosses this chip (R324 to R326): the chip that made it, its operation, the ports by which it came and
left, and whether its response is still to cross. -/
structure Crossing where
  chip : Nat := 0
  op : Nat := 0
  came : Fin 32 := 0
  left : Fin 32 := 0
  owes : Bool := false
  deriving DecidableEq, Repr, Inhabited

/-- A put of another chip whose packets have not all come (R324): its port, chip and operation, the bytes so far, and the units
not sent. -/
structure Arriving where
  port : Fin 32 := 0
  chip : Nat := 0
  op : Nat := 0
  data : List Byte := []
  bad : List Nat := []
  deriving DecidableEq, Repr, Inhabited

/-- A deregistration answer owed (R340): to a chip for its window, by the port and for the operation of its notice. -/
structure Owed where
  chip : Nat := 0
  win : Nat := 0
  port : Fin 32 := 0
  op : Nat := 0
  deriving DecidableEq, Repr, Inhabited

/-- A registered window (R327, R328, R332, R340): `core` is the core that registered it where it is not this one, `half` the half of this
core's SRAM (R202) that its local memory or head word lies in, `waits` the chips whose deregistration answer is owed, `tell` those of them to which the notice has not gone
yet because their port drains or is DRAINED (R337). -/
structure Window where
  win : Nat := 0
  kind : Nat := 0
  loc : Bool := false
  base : Nat := 0
  key : Nat := 0
  len : Nat := 0
  headw : Nat := 0
  core : Option Nat := none
  org : Word := 0
  tgt : Word := 0
  tail : Word := 0
  dereg : Bool := false
  half : Bool := false
  waits : List Nat := []
  tell : List Nat := []
  deriving DecidableEq, Repr, Inhabited

/-- What an operation of the fabric engine is for (R329, R331, R335, R342). -/
inductive FabKind where
  | put | get | allow | aperture (write : Bool) | coll (id : Nat)
  deriving DecidableEq, Repr, Inhabited

/-- Where an operation stands (R331, R337). -/
inductive FabState where
  | sent | held | waitAllow
  deriving DecidableEq, Repr, Inhabited

/-- An outstanding operation of the fabric engine; an allowance granted is one until it ends (R346). `lid` is the context
that issued it, `core` the core where it is not this one, `data` its bytes, those of a get as far as they have come, `bad` the
16-byte units of them that could not be read (R330). -/
structure FabOp where
  id : Nat := 0
  kind : FabKind := .put
  lid : Nat := 0
  core : Option Nat := none
  peer : Nat := 0
  win : Nat := 0
  off : Nat := 0
  len : Nat := 0
  laddr : Nat := 0
  tag : Half := 0
  state : FabState := .sent
  allow : Option Allowance := none
  data : List Byte := []
  bad : List Nat := []
  deriving DecidableEq, Repr, Inhabited

/-- A tvstage or tvcommit behind a tvcommit that waits (R348), with the xc of its arrival and its core: this core's own, another
core's table, another core's version. -/
inductive FabReq where
  | mine (xc core : Nat)
  | stage (xc core : Nat) (table : List Byte)
  | commit (xc core : Nat) (v : Half)
  deriving DecidableEq, Repr, Inhabited

/-- A collective (R341 to R343, R349): `core` is the core that started it where it is not this one; `busy` while its PUT waits for its answer, `void` once an outside event is to
freeze it; `notice` is the notice that its step waits for (R341). -/
structure Coll where
  id : Nat := 0
  pva : Nat := 0
  nstep : Nat := 0
  tag : Half := 0
  core : Option Nat := none
  lid : Nat := 0
  asid : Byte := 0
  next : Nat := 0
  status : Nat := 0
  frozen : Bool := false
  busy : Bool := false
  void : Bool := false
  notice : Option Nat := none
  deriving DecidableEq, Repr, Inhabited

/-- The event log (R362, R363): the ring in LPDDR 6, records held at their sources with their DROP counts, and the
sequence of each source. -/
structure EventLog where
  base : Nat := 0
  size : Nat := 0
  head : Nat := 0
  tail : Nat := 0
  cfg : Word := 0
  held : List EventRec := []
  drops : List (Nat × Nat) := []
  seqs : List (Nat × Word) := []
  deriving DecidableEq, Repr, Inhabited

/-- Power, boot and identity (R353 to R358). `firmware` says that first-stage firmware runs, `status` is what STATUS
reports, `source` the boot source now tried and `since` the xc from which it is, `record` the boot ROM's own buffer, `micro` that a
verified image of the fabric engine's microcontroller runs (R320). -/
structure Boot where
  power : Bool := true
  resetN : Bool := true
  faultN : Bool := true
  thermtripN : Bool := true
  status : Nat := 1
  firmware : Bool := false
  source : Nat := 0
  since : Nat := 0
  tried : List Nat := []
  record : List EventRec := []
  log : List Byte := []
  fuses : List Nat := [0, 0, 0, 0]
  running : List Nat := [0, 0, 0, 0]
  boots : Nat := 0
  micro : Bool := false
  deriving DecidableEq, Repr, Inhabited

/-- The small state of this core's two contexts and of the partitions (R204), as the reserved area of LPDDR 6 holds it (R359,
log 33). -/
structure SmallState where
  c : Ctx := {}
  sh : Ctx := {}
  p : Part := {}
  others : List Part := []
  deriving DecidableEq, Repr

/-- What a storage peer keeps of a checkpoint (R359, log 33): the small state and the halves of the SRAM, LPDDR 6 with the keys it is
written under, the place of the event log, and the part it was taken from: its ordering code and capacity. -/
structure Saved where
  small : SmallState := {}
  gmem : Memory := []
  gkeys : List (Nat × Nat) := []
  log : EventLog := {}
  code : Nat := 0
  capacity : Nat := 384
  deriving DecidableEq, Repr

structure Chip where
  num : Word := 0
  snapctl : Word := 0x13F
  snapseq : Word := 0
  snapTrig : Bool := false
  snapRegs : List (Nat × List Word) := []
  tv : Word := 0
  gmem : Memory := []
  gkeys : List (Nat × Nat) := []
  gerr : List Nat := []
  capacity : Nat := 384
  keys : List (Nat × Nat) := []
  fnSlots : List Nat := []
  corrected : List (Nat × Nat) := []
  /-- entries of the slot tables of other tiles that migrations have changed (R35): tile, slot, physical index -/
  slotTables : List (Nat × Nat × Nat) := []
  /-- correctable errors in beats of LPDDR 6 that nothing has met yet (R239) -/
  soft : List Nat := []
  counters : List (Nat × Word) := []
  active : Option Routing := none
  /-- the version of another core's tvcommit that waits, with the xc of its start, and what waits behind a tvcommit (R348) -/
  commitBy : Option (Half × Nat) := none
  later : List FabReq := []
  /-- the inactive bank, and whether its table is one that tvstage has staged (R338) -/
  inactive : Option Routing := none
  staged : Bool := false
  windows : List Window := []
  /-- allowances held from other chips, the oldest first (R331), and deregistration answers owed (R340) -/
  allows : List Allowance := []
  owed : List Owed := []
  crossings : List Crossing := []
  arriving : List Arriving := []
  ops : List FabOp := []
  nextOp : Nat := 0
  ports : Vector Port 32 := Vector.replicate 32 {}
  burst : Bool := true
  grants : List Grant := []
  /-- calibrated losses as firmware has measured them (R295, R304): source, lane, tile, tenths of a dB; any other is
  Config.loss (log 31) -/
  losses : List (Nat × Nat × Nat × Nat) := []
  failed : List Nat := []
  /-- the measurement windows whose end has been dealt with (R300) -/
  window : Nat := 0
  colls : List Coll := []
  log : EventLog := {}
  boot : Boot := {}
  /-- the checkpoint under way: the ports it names and its peer; the small state in its area of LPDDR 6; what the peer keeps; and
  that a RESTORE has loaded it and launches have not yet resumed (R359) -/
  ckpt : Option (List Nat × Nat) := none
  area : Option SmallState := none
  saved : Option Saved := none
  resuming : Bool := false
  deriving DecidableEq, Repr

/-- What the device sends to other agents. -/
inductive Out where
  /-- A send beat (R153): offset of its first byte's departure, beat, lane of an optical send, strobe, bytes. -/
  | beat (off j : Nat) (lane : Option Nat) (strobe : Bool) (data : List Byte)
  /-- Machine-check messages (R42, R302) and PREEMPT_OVERDUE (R208) to service cores. -/
  | laserFail (lam : Nat)
  | overdue
  /-- The halt reported to the phase controller (R104). -/
  | halted (core : Nat)
  /-- A contribution to the reduction tree, and its withdrawal (R163). -/
  | contribute (g : Tree) (num : Nat) (c : RedContrib)
  | withdraw (g : Tree) (num : Nat)
  /-- Frames by port, with packets and markers, and what else the link carries (R318, R321, R323). -/
  | frame (port seq : Nat) (x : Line)
  | idleBurst (port : Nat)
  | frameAck (port seq : Nat)
  | fecReq (port : Nat) (n : Byte) (mode f : Nat)
  | fecAck (port : Nat) (n : Byte) (f : Nat)
  | linkMarker (grant : Nat)
  /-- An answer on the host or the management port (R364, R365). -/
  | reply (status : Nat) (data : List Byte)
  /-- An access to host memory through the PCIe port (R230, R364). -/
  | hostWrite (addr : Nat) (data : List Byte)
  /-- A write to the local memory of another core by a privileged copy command (R230), and the answer to a beat of another
  core's: the context it is bound to, the status, and bytes read. -/
  | coreWrite (core off : Nat) (data : List Byte)
  | coreAnswer (op lid status : Nat) (data : List Byte)
  /-- The write of a TLB entry is complete (R234). -/
  | tlbDone (entry : Nat)
  /-- A message to the mailbox of another core (R334). -/
  | message (core : Nat) (m : DWord)
  /-- A checkpoint stream (R359): the ports and the peer, LPDDR 6 as stored, that is as ciphertext, with its reserved area, both halves
  of the SRAM, and the event log. -/
  | stream (ports : List Nat) (peer : Nat) (g : Memory) (area : SmallState) (l sh : Memory) (log : List Byte)
  deriving DecidableEq, Repr

/-- A step of another agent and what it carries (log 1). -/
structure Event where
  step : Instr
  input : Input := {}
  deriving DecidableEq, Repr

/-- The machine. -/
structure State where
  c : Ctx := {}
  /-- the shadow of this core: its own half and state set (R202); `idle` where it holds no context -/
  sh : Ctx := {}
  /-- which half of the SRAM the foreground has (R202, R204) -/
  half : Bool := false
  t : Tile := {}
  p : Part := {}
  /-- the other partitions, as far as firmware has set them up (R190) -/
  others : List Part := []
  chip : Chip := {}
  /-- the partition has just begun a compute phase, and the core has issued nothing since (R145, R211) -/
  boundary : Bool := false
  /-- Exchange cycles since reset; c.xcyc reads the low 32 bits (R18). -/
  xc : Nat := 0
  /-- Core cycles of the present exchange cycle that have passed (R2). -/
  cc : Nat := 0
  ir : Fetched := {}
  row : List RowCore := []
  stream : List (Word × List Half) := []
  input : Input := {}
  /-- What other agents do next; `none` leaves a step to the core and its engines (log 1). -/
  agenda : List (Option Event) := []
  out : List Out := []
  /-- The last step was an engine's: an instruction that waits is issued again before the next one (log 2). -/
  turn : Bool := false
  /-- The model's own counter, to which the free values of Config are applied (log 2). -/
  tick : Nat := 0
  deriving DecidableEq, Repr

/-- The machine right after reset: every field at the value of R18 and of the reset columns; a register whose reset
value the manual does not give holds 0 (log 4); tile 0 is ungated, the straps have selected boot source 0, and the boot ROM waits for an
image from it, under its fixed grant (R354; DESIGN CHOICE, log 33). -/
def State.reset : State := { chip := { grants := [Grant.boot] } }

end Sys2Proof.Machine
end

