-- ==== Sys2Proof/Machine/Ops.lean ====
section
/-! DEFINITION. Machine/Ops.lean: the named operations over registers, memory, barriers, mailbox and monitors, taking a
trap and returning from one, and the event log. Every meaning is written over these. -/

namespace Sys2Proof.Machine

abbrev Result := Host.Outcome State Fault Refusal

/-! Bytes and numbers (R43: little-endian). -/

/-- The number that bytes hold, the first byte lowest. -/
def leNat : List Byte → Nat
  | [] => 0
  | b :: bs => b.toNat + 256 * leNat bs

/-- The low n bytes of a number, the lowest first. -/
def leBytes : Nat → Nat → List Byte
  | 0, _ => []
  | n + 1, x => BitVec.ofNat 8 x :: leBytes n (x / 256)

/-- The 32-bit words of bytes. -/
def words32 : List Byte → List Word
  | a :: b :: c :: d :: bs => BitVec.ofNat 32 (leNat [a, b, c, d]) :: words32 bs
  | _ => []

/-- The signed reading of the low w bits of a number. -/
def signedOf (w x : Nat) : Int :=
  let y := x % 2 ^ w
  if y < 2 ^ (w - 1) then (y : Int) else (y : Int) - 2 ^ w

/-- Bits hi down to lo of a number. -/
def bitsOf (x lo n : Nat) : Nat := x / 2 ^ lo % 2 ^ n

/-! Memory. -/

namespace Memory

/-- The byte at an address; an unlisted address reads as 0 (log 3). -/
def read : Memory → Nat → Byte
  | [], _ => 0
  | (k, v) :: m, a => if k = a then v else read m a

/-- Bytes as cells from an address on; zeros are not listed. -/
def cells : Nat → List Byte → Memory
  | _, [] => []
  | a, b :: bs => if b = 0 then cells (a + 1) bs else (a, b) :: cells (a + 1) bs

/-- Memory with bytes stored from an address on. -/
def writeBytes (m : Memory) (a : Nat) (bs : List Byte) : Memory :=
  m.filter (fun c => c.1 < a) ++ cells a bs ++ m.filter (fun c => a + bs.length ≤ c.1)

/-- The n bytes from an address on. -/
def readBytes (m : Memory) (a n : Nat) : List Byte := (List.range n).map fun i => read m (a + i)

/-- Canonical form: addresses rise strictly, no cell holds 0. -/
def wf : Memory → Bool
  | [] => true
  | (a, b) :: m => b != 0 && (match m with | [] => true | c :: _ => decide (a < c.1)) && wf m

end Memory

/-! Registers. -/

namespace State

/-- R16: s0 reads as zero. -/
def reg (s : State) (r : Reg) : Word := if r = 0 then 0 else s.c.s[r]

/-- R16: a write to s0 is ignored. -/
def setReg (s : State) (r : Reg) (x : Word) : State :=
  if r = 0 then s else { s with c := { s.c with s := s.c.s.set r x } }

def vreg (s : State) (r : Reg) : VWord := s.c.v[r]

def setV (s : State) (r : Reg) (x : VWord) : State := { s with c := { s.c with v := s.c.v.set r x } }

/-- R16: k0 reads as all ones. -/
def kreg (s : State) (r : KReg) : DWord := if r = 0 then BitVec.allOnes 64 else s.c.k[r]

/-- R16: a write to k0 is ignored. -/
def setK (s : State) (r : KReg) (x : DWord) : State :=
  if r = 0 then s else { s with c := { s.c with k := s.c.k.set r x } }

def handle (s : State) (h : HReg) : Handle := s.c.h[h]

def setHandle (s : State) (h : HReg) (x : Handle) : State := { s with c := { s.c with h := s.c.h.set h x } }

def barrier (s : State) (n : BarName) : Barrier := s.c.bar[n]

def setBarrier (s : State) (n : BarName) (b : Barrier) : State := { s with c := { s.c with bar := s.c.bar.set n b } }

/-- R19: the mode, true in S. -/
def svc (s : State) : Bool := s.c.status.getLsbD 0

/-- R18: c.core of the core's physical place. -/
def coreId (s : State) : Nat := 16 * s.t.num + s.t.idx.val

/-- R18: c.xcyc. -/
def xcyc (s : State) : Word := BitVec.ofNat 32 s.xc

/-- R162: a core is in an exchange phase while c.phase or c.lphase is odd. A core that dom has removed from its domain runs
outside every phase (R201): its exchange unit runs no segment. -/
def inExchange (s : State) : Bool := (s.c.phase.getLsbD 0 || s.c.lphase.getLsbD 0) && s.c.exch.isSome

/-- R34: a follower in follow mode. -/
def follower (s : State) : Bool := s.c.status.getLsbD 10

/-- R156, R180: the offset of the present xc from the release of the segment now running. -/
def offset (s : State) : Nat := match s.c.exch with
  | some e => s.xc - e.xr
  | none => 0

/-- R156, R180: the offset at which the instruction at pc issues: an exchange instruction takes up the whole of its xc. -/
def issueOffset (s : State) : Nat := match s.c.exch with
  | some e => max (s.xc - e.xr) e.nextOff
  | none => 0

/-- The address of the base word, and of the word after it. -/
def basePc (s : State) : Word := s.c.pc + BitVec.ofNat 32 (2 * (s.ir.len - 1))
def seqPc (s : State) : Word := s.c.pc + BitVec.ofNat 32 (2 * s.ir.len)

def setPc (s : State) (a : Word) : State := { s with c := { s.c with pc := a, stall := false, pend := .none } }

/-- R99: the loop state of the current mode. -/
def loop (s : State) : LoopState := if s.svc then s.c.loopS else s.c.loopU

def setLoop (s : State) (l : LoopState) : State :=
  if s.svc then { s with c := { s.c with loopS := l } } else { s with c := { s.c with loopU := l } }

/-- An instruction completes and the next in sequence follows, by the loop rule of R99. A follower evaluates no loop
(R34). -/
def adv (s : State) : State :=
  if !s.follower && s.loop.act && s.seqPc == s.loop.stop then
    if s.reg s.loop.reg - 1 ≠ 0 then (s.setReg s.loop.reg (s.reg s.loop.reg - 1)).setPc s.loop.start
    else ((s.setReg s.loop.reg 0).setLoop { s.loop with act := false }).setPc s.loop.stop
  else s.setPc s.seqPc

/-- Control goes to an address, by the loop rule of R99. -/
def jumpTo (s : State) (a : Word) : State :=
  if s.loop.act && (a.ult s.loop.start || s.loop.stop.ule a) then
    (s.setLoop { s.loop with act := false }).setPc a
  else s.setPc a

/-- The instruction waits: it is issued again, and meanwhile engines and other agents go on. -/
def wait (s : State) : Result := .next { s with c := { s.c with stall := true } }

/-- The same with what the waiting instruction has done. -/
def waitAt (s : State) (p : Pend) : Result := .next { s with c := { s.c with stall := true, pend := p } }

/-- The instruction completes. -/
def fin (s : State) : Result := .next s.adv

def put (s : State) (o : Out) : State := { s with out := s.out ++ [o] }

end State

/-! Time (R2). -/

namespace State

/-- R2: core cycles in one exchange cycle: 2 on the high rail, 1 on the low. -/
def ccPerXc (s : State) : Nat := if s.t.throttled then 1 else 2

/-- R2, R21: n core cycles pass. -/
def advance (s : State) (n : Nat) : State :=
  { s with
    xc := s.xc + (s.cc + n) / s.ccPerXc
    cc := (s.cc + n) % s.ccPerXc
    t := { s.t with clock := s.t.clock + n }
    c := { s.c with cyc := s.c.cyc + BitVec.ofNat 64 n } }

/-- R2: the core cycles until an exchange cycle begins; none where it has begun. -/
def ccUntil (s : State) (x : Nat) : Nat := (x - s.xc) * s.ccPerXc - s.cc

/-- Time passes until an exchange cycle begins, unless it has begun. -/
def advanceTo (s : State) (x : Nat) : State :=
  { s with
    xc := max s.xc x
    cc := if s.xc < x then 0 else s.cc
    t := { s.t with clock := s.t.clock + s.ccUntil x }
    c := { s.c with cyc := s.c.cyc + BitVec.ofNat 64 (s.ccUntil x) } }

end State

/-! Messages to the service core of tile 0 (R208, R302). -/

/-- The message enters the inbox where this is tile 0, and leaves the tile otherwise. -/
def State.tellTile0 (s : State) (m : InboxMsg) (o : Out) : State :=
  if s.t.num = 0 then { s with t := { s.t with inbox := s.t.inbox ++ [m] } } else { s with out := s.out ++ [o] }

/-! Event records (R362, R363). -/

namespace State

def seqOf (s : State) (src : Nat) : Word := ((s.chip.log.seqs.find? (·.1 = src)).map (·.2)).getD 0

/-- R363: the records for which the log has room. It is a ring of records from base on; head and tail count records. -/
def logFree (s : State) : Nat := s.chip.log.size / 32 - (s.chip.log.head - s.chip.log.tail)

/-- A source other than a core has a record for the log. While the log is full it holds 64 at most; one more is counted in DROP
(R363). -/
def logRecord (s : State) (src kind : Nat) (d0 d1 d2 d3 : Word) : State :=
  let l := s.chip.log
  if (l.held.filter (·.src = src)).length < 64 + s.logFree then
    { s with chip := { s.chip with log := { l with
        held := l.held ++ [{ src := src, kind := kind, xcyc := s.xcyc, d0 := d0, d1 := d1, d2 := d2, d3 := d3 }] } } }
  else
    let n := ((l.drops.find? (·.1 = src)).map (·.2)).getD 0
    { s with chip := { s.chip with log := { l with
        drops := (src, min 255 (n + 1)) :: l.drops.filter (·.1 ≠ src) } } }

/-- R240: the error record of an uncorrectable error: memory code 0 local, 1 accumulator, 2 LPDDR 6, 3 host. -/
def logError (s : State) (src mem addr : Nat) (tag : Word) : State :=
  s.logRecord src 3 (BitVec.ofNat 32 (16 * mem + 1)) (BitVec.ofNat 32 addr) tag (BitVec.ofNat 32 (addr / 2 ^ 32))

/-- R239: the code words, of those with uncorrectable errors, that n bytes from an offset touch. -/
def badWords (errs : List Nat) (off n : Nat) : List Nat := errs.filter fun w => decide (8 * w < off + n ∧ off < 8 * w + 8)

/-- R240: a record for each code word with an uncorrectable error among n bytes of local memory (code 0) or of the accumulator (1). -/
def logWords (s : State) (mem off n : Nat) (tag : Word) : State :=
  (badWords (if mem = 1 then s.c.accErr else s.c.memErr) off n).foldl
    (fun t w => t.logError (0x1000 + s.t.num) mem (8 * w) tag) s

end State

/-! Traps (R37 to R42, R156). -/

/-- A trap as an instruction raises it: cause, DETAIL and what c.eaddr holds (R39). -/
structure Trap where
  cause : Cause
  detail : Nat := 0
  eaddr : Word := 0
  deriving DecidableEq, Repr

/-- c.cause of a trap (R20). -/
def causeWord (c : Cause) (detail ilen : Nat) : Word :=
  BitVec.ofNat 32 (detail % 65536 * 65536 + ilen % 8 * 256 + c.code)

namespace State

/-- R38, R42: a trap is taken with these contents of c.cause, c.epc, c.eaddr and c.eword. With TE = 0 it is a double
trap: c.cause alone is written, with DBL, the core stops and sends a machine-check message. A follower leaves follow
mode (R34). -/
def enter (s : State) (cause epc eaddr eword : Word) : State :=
  if s.c.status.getLsbD 1 == false then
    { s with
      c := { s.c with cause := cause ||| 0x8000, run := .stopped, stall := false, pend := .none },
      t := { s.t with inbox := s.t.inbox ++ [.machineCheck s.t.idx.val epc eaddr] } }
  else
    { s with c := { s.c with
        epc := epc, cause := cause, eaddr := eaddr, eword := eword,
        status := (s.c.status &&& 0xFFFFFBF0) ||| ((s.c.status &&& 3) <<< 2) ||| 1,
        pc := s.c.tvec, stall := false, pend := .none } }

/-- R156: the first cause deferred in an exchange phase is kept; c.xerr records it. `off` is the offset recorded. -/
def deferTrap (s : State) (t : Trap) (off : Nat) (d : Deferred) : State :=
  let bit : Word := match t.cause with
    | .slot => 0x10000
    | .late => 0x20000
    | _ => 0x40000
  let first := s.c.xerr &&& 0x70000 == 0
  let x : Word := if first then
      (if bit = 0x40000 then (s.c.xerr &&& 0x00FFFFFF) ||| BitVec.ofNat 32 (t.cause.code * 16777216) else s.c.xerr)
        &&& 0xFFFF0000 ||| BitVec.ofNat 32 (off % 65536)
    else s.c.xerr
  { s with c := { s.c with xerr := x ||| bit, deferred := some (s.c.deferred.getD d) } }

/-- R156: the trap of the instruction at pc is deferred with an offset, and the next instruction issues. -/
def deferAt (s : State) (t : Trap) (off : Nat) : Result :=
  .next (s.deferTrap t off { cause := causeWord t.cause t.detail 0, eaddr := t.eaddr, eword := s.ir.eword }).adv

/-- A trap of the instruction at pc. In an exchange phase it is deferred (R156). -/
def raise (s : State) (t : Trap) : Result :=
  if s.inExchange then s.deferAt t (if t.cause = .slot ∨ t.cause = .late then t.eaddr.toNat else s.issueOffset)
  else .next (s.enter (causeWord t.cause t.detail s.ir.len) s.c.pc t.eaddr s.ir.eword)

/-- The same with the parts written out. -/
def trap (s : State) (c : Cause) (detail : Nat := 0) (eaddr : Word := 0) : Result := s.raise ⟨c, detail, eaddr⟩

/-- A trap of the instruction that waits at pc, raised by the agent that it waits for (R149, R150, R163, R186). -/
def trapWaiting (s : State) (t : Trap) : State :=
  let f := (s.c.issue.map (·.2)).getD s.ir
  s.enter (causeWord t.cause t.detail f.len) s.c.pc t.eaddr f.eword

/-- R41: a deferred trap is taken at the start of a compute phase, before its first instruction issues. -/
def takeDeferred (s : State) : State :=
  match s.c.deferred with
  | none => s
  | some d =>
    let s := { s with c := { s.c with deferred := none } }
    s.enter d.cause (d.epc.getD s.c.pc) d.eaddr d.eword

/-- R103: the state that eret leaves: mode and TE as before the trap, and pc by the loop rule of that mode. -/
def eret (s : State) : State :=
  ({ s with c := { s.c with status := (s.c.status &&& 0xFFFFFFFC) ||| ((s.c.status >>> 2) &&& 3) } }).jumpTo s.c.epc

/-- R74: an instruction of class C in an exchange phase traps with PHASE; in a compute phase its meaning follows. -/
def classC (s : State) (k : Result) : Result := if s.inExchange then s.trap .phase else k

/-- An S-only instruction of class C: PRIV comes before PHASE (R40). -/
def privC (s : State) (k : Result) : Result := if s.svc then s.classC k else s.trap .priv

/-- The first of some traps, else the meaning. -/
def check (s : State) (t : Option Trap) (k : Result) : Result :=
  match t with
  | some t => s.raise t
  | none => k

end State

/-! Monitors, barriers, mailbox. -/

namespace State

/-- R168: a write by an engine or by the exchange unit fires the monitors of the lines it touches. -/
def fire (s : State) (off len : Nat) : State :=
  let hit (m : Monitor) : Bool := m.armed && decide (m.line < off + len ∧ off < m.line + 64 ∧ 0 < len)
  { s with c := { s.c with mon := s.c.mon.map fun m => if hit m then { m with fired := true } else m } }

end State

namespace Barrier

/-- R166: the flip test of an update. -/
def flip (b : Barrier) : Barrier :=
  if b.pena = b.expa ∧ b.expb.toNat ≤ b.penb.toNat then { b with ph := !b.ph, pena := 0, penb := 0 } else b

/-- R166: an arrival of a bound engine; beyond EXPA it is refused and sets ARR_OVER. -/
def arrive (b : Barrier) : Barrier :=
  if b.pena.toNat + 1 ≤ b.expa.toNat then { b with pena := b.pena + 1 } else { b with status := b.status ||| 0x1000000 }

/-- R166: a credit of n bytes; beyond EXPB it sets BYTE_OVER and PENB stops at EXPB. -/
def credit (b : Barrier) (n : Nat) : Barrier :=
  if b.penb.toNat + n ≤ b.expb.toNat then { b with penb := BitVec.ofNat 24 (b.penb.toNat + n) }
  else { b with penb := b.expb, status := b.status ||| 0x2000000 }

/-- R166, R167: the arrival of an engine with its status bits. MAT takes the bits of a drain that is counted, HEAD those of
every head-unit operation. -/
def engine (b : Barrier) (bits : Word) : Barrier :=
  if b.src = 1 ∧ b.expa.toNat < b.pena.toNat + 1 then b.arrive else ({ b with status := b.status ||| bits } : Barrier).arrive

/-- R167: COPY keeps the first status other than OK. -/
def noteCopy (b : Barrier) (st : Nat) : Barrier :=
  if st ≠ 0 ∧ b.status &&& 0xFF00 = 0 then { b with status := b.status ||| BitVec.ofNat 32 (st % 256 * 256) } else b

end Barrier

namespace State

/-- R166: a barrier as the updates of the present core cycle have left it, before its flip test. -/
def cycleBarrier (s : State) (n : BarName) : Barrier :=
  ((s.c.cycleBar.find? (·.1 = n)).map (·.2)).getD (s.barrier n)

/-- R166, R176: arrivals and credits of engines join the update that the same core cycle has made of the object: what they
make of it before the flip test, and the flip test after it. -/
def engineBarriers (s : State) (f : BarName → Barrier → Option Barrier) : State :=
  let new (n : BarName) : Option (BarName × Barrier) := (f n (s.cycleBarrier n)).map fun b => (n, b)
  let bs := (List.finRange 512).filterMap new
  { s with c := { s.c with
      bar := bs.foldl (fun v e => v.set e.1 e.2.flip) s.c.bar
      cycleBar := bs ++ s.c.cycleBar.filter fun e => (new e.1).isNone } }

/-- R166, R167: an engine's arrival at every barrier bound to it, with its status bits. -/
def engineArrive (s : State) (src : BitVec 2) (bits : Word) : State :=
  s.engineBarriers fun _ b => if b.src = src then some (b.engine bits) else none

/-- R166, R167: the credit of a copy command that names a barrier, with its status. -/
def creditBarrier (s : State) (n : BarName) (bytes st : Nat) : State :=
  s.engineBarriers fun m b => if m = n then some ((b.credit bytes).noteCopy st) else none

/-- R172: a message enters the mailbox. -/
def enqueue (s : State) (m : DWord) : State :=
  { s with c := { s.c with
      mbox := s.c.mbox.set ((s.c.mboxHead.toNat + s.c.mboxCount.toNat) % 32) m (Nat.mod_lt _ (by decide)),
      mboxCount := s.c.mboxCount + 1 } }

/-- R353: the device has power, is not in reset and has met no rail fault. -/
def alive (s : State) : Bool := s.chip.boot.power && s.chip.boot.resetN && s.chip.boot.faultN

/-- R36: the core's slot entry is in transit. -/
def inTransit (s : State) : Bool := s.t.slots[s.t.slot.val]?.any (·.it)

/-- R36, R151, R172: messages are held while the core's slot entry is in transit, in an exchange phase, and while the
mailbox is full. -/
def mboxHeld (s : State) : Bool :=
  s.inExchange || 32 ≤ s.c.mboxCount.toNat || s.inTransit

/-- R172: an agent has a message; behind held messages it is held too. The order in which the held messages of several agents
enter is open; here it is that in which they came (DESIGN CHOICE, log 56). -/
def post (s : State) (m : DWord) : State :=
  if s.c.held ≠ [] ∨ s.mboxHeld = true then { s with c := { s.c with held := s.c.held ++ [m] } } else s.enqueue m

/-- The layout of a message (R172). -/
def message (kind status : Nat) (tag : Nat) (data : Nat) : DWord :=
  BitVec.ofNat 64 (data % 2 ^ 32 * 2 ^ 32 + tag % 65536 * 65536 + status % 256 * 256 + kind % 16)

end State

/-! Local memory (R23 to R29). -/

namespace State

/-- R239: whether some 64-bit code word of the n bytes from an offset holds an uncorrectable error. -/
def memBad (s : State) (off n : Nat) : Bool := s.c.memErr.any fun w => decide (8 * w < off + n ∧ off < 8 * w + 8)

def accBad (s : State) (off n : Nat) : Bool := s.c.accErr.any fun w => decide (8 * w < off + n ∧ off < 8 * w + 8)

/-- The core's own store to local memory (R93). -/
def storeMem (s : State) (off : Nat) (bs : List Byte) : State :=
  { s with c := { s.c with mem := s.c.mem.writeBytes off bs, stale := (off, s.c.mem.readBytes off bs.length) :: s.c.stale } }

/-- A write by an engine: whole code words are replaced with their check codes (R239), monitors fire (R168). -/
def engineMem (s : State) (off : Nat) (bs : List Byte) : State :=
  ({ s with c := { s.c with
      mem := s.c.mem.writeBytes off bs, stale := (off, s.c.mem.readBytes off bs.length) :: s.c.stale,
      memErr := s.c.memErr.filter fun w => !decide (off ≤ 8 * w ∧ 8 * w + 8 ≤ off + bs.length) } }).fire off bs.length

def storeAcc (s : State) (off : Nat) (bs : List Byte) : State :=
  { s with c := { s.c with acc := s.c.acc.writeBytes off bs } }

/-- R26: the fetch buffer is discarded. -/
def discardFetch (s : State) : State := { s with c := { s.c with stale := [] } }

/-- R26: the byte at an offset as it was before the latest of these writes, each kept with the bytes that it replaced. -/
def byteBefore (a : Nat) (b : Byte) (ws : List (Nat × List Byte)) : Byte :=
  ws.foldl (fun b w => if w.1 ≤ a ∧ a < w.1 + w.2.length then w.2.getD (a - w.1) b else b) b

/-- R26, R109: a word as fetch sees it: as it is, or as it was before some of the latest writes, all of it from one moment.
Which moment is a free value (log 2). -/
def fetchWord (s : State) (a : Nat) : Half :=
  let ws := match s.c.stale with
    | [] => []
    | w :: ws => (w :: ws).take (Config.fetchStale s.tick a % (ws.length + 2))
  let byte (a : Nat) : Byte := byteBefore a (s.c.mem.read a) ws
  byte (a + 1) ++ byte a

/-- R27: whether a bank is allocated. -/
def allocated (s : State) (b : Nat) : Bool := decide (b < 32) && s.c.accmap.getLsbD b

end State

/-! Contexts: foreground, shadow and paged out (R206, R207). -/

namespace State

/-- What happens in the shadow of the core; its monitors do not fire (R206). -/
def onShadow (s : State) (f : State → State) : State :=
  let t := f { s with c := s.sh, sh := s.c, half := !s.half }
  { t with c := t.sh, sh := { t.c with mon := s.sh.mon }, half := s.half }

/-- What happens to a context that is paged out (log 48). -/
def onPaged (s : State) (lid : Nat) (f : State → State) : State :=
  match s.p.paged.find? (·.ctx.lid = lid) with
  | none => s
  | some g =>
    let t := f { s with c := g.ctx }
    let paged := t.p.paged.map fun x => if x.ctx.lid = lid then { x with ctx := { t.c with mon := g.ctx.mon } } else x
    { t with c := s.c, p := { t.p with paged := paged } }

/-- What happens to the context of a launch, wherever it is; nothing where it has ended. -/
def onContext (s : State) (lid : Nat) (f : State → State) : State :=
  if s.c.lid = lid then f s else if s.sh.lid = lid then s.onShadow f else s.onPaged lid f

/-- R151, R207: bytes for the local memory of a context wait for the end of its exchange phase, and for its return where it
is paged out. -/
def landable (s : State) (lid : Nat) : Bool :=
  if s.c.lid = lid then !s.inExchange else s.sh.lid == lid || s.p.paged.all (·.ctx.lid != lid)

/-- R202, R327: what happens in a half of the SRAM, whichever context has it. -/
def onHalf (s : State) (half : Bool) (f : State → State) : State := if half = s.half then f s else s.onShadow f

/-- The context that has a half. -/
def ctxOf (s : State) (half : Bool) : Ctx := if half = s.half then s.c else s.sh

/-- R151: deliveries into the half of the foreground wait for the end of its exchange phase. -/
def deliverable (s : State) (half : Bool) : Bool := !(half == s.half && s.inExchange)

end State

/-! What the engines' queues name. -/

/-- The banks of a tile of a matrix instruction (R130). -/
def tileBanks (t : AccType) (b : Reg) : List Nat :=
  match t with
  | .f32 | .i32 => [b.val, b.val + 1]
  | .bf16 | .f16 => [b.val]

/-- The banks that a matrix instruction names (R128, R130, R134). -/
def mxBanks : Instr → List Nat
  | .mma t d _ _ => tileBanks t d
  | .mmai _ _ _ d _ _ | .mrsum _ _ d _ _ | .mcsum _ _ d _ _ => tileBanks .i32 d
  | .mzero t d | .mload t _ d _ => tileBanks t d
  | .mdrain t _ a => tileBanks t a
  | .mdrq _ _ a _ => tileBanks .i32 a
  | _ => []

/-- R263: the banks of a state. -/
def DirEntry.banks (e : DirEntry) : List Nat := (List.range e.nb).map (e.bank + ·)

/-- The banks that a queued head-unit operation names (R266). -/
def HeadOp.banks (q : HeadOp) : List Nat :=
  match q.op with
  | .vpfold _ a _ => q.ent.banks ++ [a.val, a.val + 1]
  | .vpregen d a _ => [d.val, a.val, a.val + 1]
  | _ => q.ent.banks

/-- The handles that a matrix instruction names. -/
def mxHandles : Instr → List HReg
  | .mma _ _ a b | .mmai _ _ _ _ a b => [a, b]
  | .mrsum _ _ _ a _ | .mcsum _ _ _ a _ => [a]
  | _ => []

namespace State

/-- R93, R266: a queued matrix or head-unit operation names the bank. -/
def mxBusy (s : State) (bs : List Nat) : Bool := s.c.mx.any fun q => (mxBanks q.op).any (bs.contains ·)
def headBusy (s : State) (bs : List Nat) : Bool := s.c.head.any fun q => q.banks.any (bs.contains ·)
def bankBusy (s : State) (b : Nat) : Bool := s.mxBusy [b] || s.headBusy [b]

end State

/-! The fields of a request (R248). -/

namespace CopyCmd
def kind (q : CopyCmd) : Nat := bitsOf q.w0.toNat 0 4
def msg (q : CopyCmd) : Bool := q.w0.getLsbD 4
def hv (q : CopyCmd) : Bool := q.w0.getLsbD 5
def bv (q : CopyCmd) : Bool := q.w0.getLsbD 6
def barName (q : CopyCmd) : BarName := (q.w0.extractLsb' 7 9).toFin
def tag (q : CopyCmd) : Nat := bitsOf q.w0.toNat 16 12
def hreg (q : CopyCmd) : HReg := (q.w0.extractLsb' 28 4).toFin
def fn (q : CopyCmd) : Nat := bitsOf q.w0.toNat 28 4
def va (q : CopyCmd) : Nat := q.w2.toNat + bitsOf q.w3.toNat 0 16 * 2 ^ 32
def len (q : CopyCmd) : Nat := bitsOf q.w3.toNat 16 16
def rs (q : CopyCmd) : Nat := bitsOf q.ecfg.toNat 0 16
def stride (q : CopyCmd) : Nat := bitsOf q.ecfg.toNat 16 16
/-- R249: producers advance the tail, consumers the head. -/
def producer (q : CopyCmd) : Bool := q.kind == 0 || q.kind == 2 || q.kind == 4
def consumer (q : CopyCmd) : Bool := q.kind == 1 || q.kind == 3
/-- A row kind (R222, R223). -/
def rows (q : CopyCmd) : Bool := q.kind == 2 || q.kind == 3 || q.kind == 4
/-- R224: the operand size of UPDATE. -/
def opSize (q : CopyCmd) : Nat := if q.fn = 7 then 8 else 4
/-- R249: the local extent in bytes. -/
def extent (q : CopyCmd) : Nat :=
  match q.kind with
  | 0 | 1 => 64 * q.len
  | 5 => 16 * q.len * q.opSize
  | 6 => 64
  | _ => 16 * q.len * q.rs
/-- R220: the nominal bytes N. -/
def nominal (q : CopyCmd) : Nat := if q.rows then 16 * q.len * q.rs else 64 * q.len
end CopyCmd

namespace State

/-- R32: an issued, unretired matrix instruction names the handle; R251: an outstanding copy command names it. -/
def handleBusy (s : State) (h : HReg) : Bool :=
  s.c.mx.any (fun q => (mxHandles q.op).contains h) || s.c.copy.any (fun q => q.hv && q.hreg == h)

/-- The copy engine is idle: every command has completed and its message has landed (R104, R107). -/
def copyIdle (s : State) : Bool := s.c.copy.isEmpty && s.c.held.all fun m => m.extractLsb' 0 4 != 1

/-- R107: vector unit, matrix slice, head unit and copy engine are idle. -/
def enginesIdle (s : State) : Bool := s.c.mx.isEmpty && s.c.head.isEmpty && s.copyIdle

end State

/-! The privileged windows (R25, R367). -/

def Handle.toWords (h : Handle) : List Word := [h.base, h.size, h.count, h.tail ++ h.head]

def Barrier.word0 (b : Barrier) : Word :=
  (0 : BitVec 13) ++ b.src ++ BitVec.ofBool b.ph ++ b.pena ++ b.expa

def Barrier.toWords (b : Barrier) : List Word := [b.word0, (0 : Byte) ++ b.expb, (0 : Byte) ++ b.penb, b.status]

def Parked.toWord (p : Parked) : Word :=
  (0 : BitVec 19) ++ p.slot ++ BitVec.ofBool p.v ++ (0 : BitVec 2) ++ p.bank

/-- The bytes of a list of words. -/
def wordsBytes (ws : List Word) : List Byte := ws.flatMap fun w => leBytes 4 w.toNat

/-- The bytes of a window, by the register or entry an offset falls in; none where nothing is listed. -/
inductive WinItem where
  | s (r : Reg) | v (r : Reg) | k (r : KReg) | h (r : HReg) | parked (n : Fin 64) | bar (n : BarName)
  | msg (n : Fin 32) | mboxPtr | mon (n : Fin 8)
  deriving DecidableEq, Repr

/-- R25: the item at an offset of view 0x9 or 0xA, and the byte within it. -/
def winItem (view off : Nat) : Option (WinItem × Nat) :=
  if view = 9 then
    if h : off < 0x80 then some (.s ⟨off / 4, by omega⟩, off % 4)
    else if h : 0x100 ≤ off ∧ off < 0x900 then some (.v ⟨(off - 0x100) / 64, by omega⟩, off % 64)
    else if h : 0x900 ≤ off ∧ off < 0x940 then some (.k ⟨(off - 0x900) / 8, by omega⟩, off % 8)
    else none
  else
    if h : off < 0x100 then some (.h ⟨off / 16, by omega⟩, off % 16)
    else if h : off < 0x200 then some (.parked ⟨(off - 0x100) / 4, by omega⟩, off % 4)
    else if h : 0x1000 ≤ off ∧ off < 0x3000 then some (.bar ⟨(off - 0x1000) / 16, by omega⟩, off % 16)
    else if h : 0x3000 ≤ off ∧ off < 0x3100 then some (.msg ⟨(off - 0x3000) / 8, by omega⟩, off % 8)
    else if 0x3100 ≤ off ∧ off < 0x3104 then some (.mboxPtr, off % 4)
    else if h : 0x3200 ≤ off ∧ off < 0x3240 then some (.mon ⟨(off - 0x3200) / 8, by omega⟩, off % 8)
    else none

namespace State

/-- The bytes of a window item, the lowest first (R25, R29, R31, R165; log 16 for the monitors). -/
def itemBytes (s : State) : WinItem → List Byte
  | .s r => leBytes 4 (s.reg r).toNat
  | .v r => leBytes 64 (s.vreg r).toNat
  | .k r => leBytes 8 (s.kreg r).toNat
  | .h r => wordsBytes (s.handle r).toWords
  | .parked n => leBytes 4 s.c.parked[n].toWord.toNat
  | .bar n => wordsBytes (s.barrier n).toWords
  | .msg n => leBytes 8 s.c.mbox[n].toNat
  | .mboxPtr => [s.c.mboxHead.zeroExtend 8, s.c.mboxCount.zeroExtend 8, 0, 0]
  | .mon n => (List.range 8).map fun i => Config.monByte s.c.mon[n].armed s.c.mon[n].fired s.c.mon[n].line i

/-- R367: the item's state written raw from its bytes; reserved bits are dropped, SRC 3 is written as 0 (R165). A write
of a spill-record entry leaves c.spillmap as it is, and csrw of c.spillmap leaves the record (DESIGN CHOICE, log 47). -/
def setItem (s : State) (w : WinItem) (bs : List Byte) : State :=
  let x := leNat bs
  match w with
  | .s r => s.setReg r (BitVec.ofNat 32 x)
  | .v r => s.setV r (BitVec.ofNat 512 x)
  | .k r => s.setK r (BitVec.ofNat 64 x)
  | .h r => s.setHandle r
      { base := BitVec.ofNat 32 x, size := BitVec.ofNat 32 (x / 2 ^ 32), count := BitVec.ofNat 32 (x / 2 ^ 64),
        head := BitVec.ofNat 16 (x / 2 ^ 96), tail := BitVec.ofNat 16 (x / 2 ^ 112) }
  | .parked n =>
    let e : Parked := { v := bitsOf x 7 1 == 1, bank := BitVec.ofNat 5 x, slot := BitVec.ofNat 5 (x / 2 ^ 8) }
    { s with c := { s.c with parked := s.c.parked.set n e } }
  | .bar n => s.setBarrier n
      { expa := BitVec.ofNat 8 x, pena := BitVec.ofNat 8 (x / 2 ^ 8), ph := bitsOf x 16 1 == 1,
        src := if bitsOf x 17 2 = 3 then 0 else BitVec.ofNat 2 (x / 2 ^ 17),
        expb := BitVec.ofNat 24 (x / 2 ^ 32), penb := BitVec.ofNat 24 (x / 2 ^ 64),
        status := BitVec.ofNat 32 (x / 2 ^ 96) &&& 0x03FFFF3F }
  | .msg n => { s with c := { s.c with mbox := s.c.mbox.set n (BitVec.ofNat 64 x) } }
  | .mboxPtr => { s with c := { s.c with mboxHead := BitVec.ofNat 5 x, mboxCount := BitVec.ofNat 6 (x / 2 ^ 8) } }
  | .mon n => let m := Config.monDecode bs
      { s with c := { s.c with mon := s.c.mon.set n { armed := m.1, fired := m.2.1, line := m.2.2 } } }

/-- R25: a byte of a window; a byte not listed reads as zero. -/
def winByte (s : State) (view off : Nat) : Byte :=
  match winItem view off with
  | some (w, i) => ((s.itemBytes w)[i]?).getD 0
  | none => 0

/-- R25: a byte stored to a window; a byte not listed ignores the write. -/
def winPut (s : State) (view off : Nat) (b : Byte) : State :=
  match winItem view off with
  | some (w, i) => s.setItem w ((s.itemBytes w).set i b)
  | none => s

/-- The bytes of a store through a window. -/
def winStore (s : State) (view : Nat) : Nat → List Byte → State
  | _, [] => s
  | off, b :: bs => winStore (s.winPut view off b) view (off + 1) bs

/-- R367: a store to a handle's bytes waits as hset does. -/
def winWaits (s : State) (view off n : Nat) : Bool :=
  view == 10 && (List.finRange 16).any fun h => decide (16 * h.val < off + n ∧ off < 16 * h.val + 16) && s.handleBusy h

end State

/-! The access rule of loads and stores (R93, R123): checks in the order of R40, then the wait, then the bytes. -/

def viewOf (ea : Word) : Nat := ea.toNat / 2 ^ 28
def offOf (ea : Word) : Nat := ea.toNat % 2 ^ 28

/-- R23: a reserved view. -/
def reservedView (v : Nat) : Bool := v == 7 || 11 ≤ v

/-- R23: the last valid offset of a view. -/
def viewLimit (v : Nat) : Nat := if v = 8 then 0xFFFF else if v = 9 ∨ v = 10 then 0x3FFF else 0x9FFFF

namespace State

/-- R93: the trap of an access of size bytes at ea that needs no wait: PRIV, PHASE, LOCAL_RANGE, ALIGN, ACC_BANK. -/
def accessTrap (s : State) (ea : Word) (size : Nat) : Option Trap :=
  let view := viewOf ea
  let off := offOf ea
  if (view = 9 ∨ view = 10) ∧ s.svc = false then some ⟨.priv, 0, 0⟩
  else if s.inExchange then some ⟨.phase, 0, 0⟩
  else if reservedView view ∨ viewLimit view < off + size - 1 then some ⟨.localRange, 0, ea⟩
  else if view = 5 ∧ 0x9FFFF < s.c.sbase.toNat + off / 4 then some ⟨.localRange, 0, ea⟩
  else if off % size ≠ 0 then some ⟨.align, 0, ea⟩
  else if view = 8 ∧ s.allocated (off / 0x800) = false then some ⟨.accBank, 0, ea⟩
  else none

/-- R93: the code word holds an uncorrectable error. -/
def accessBad (s : State) (ea : Word) (size : Nat) : Bool :=
  if viewOf ea ≤ 6 then s.memBad (offOf ea) size
  else if viewOf ea = 8 then s.accBad (offOf ea) size else false

/-- The bytes that a load through a view returns (R23, R25). -/
def loadBytes (s : State) (ea : Word) (size : Nat) : List Byte :=
  let view := viewOf ea
  let off := offOf ea
  if view ≤ 6 then s.c.mem.readBytes off size
  else if view = 8 then s.c.acc.readBytes off size
  else (List.range size).map fun i => s.winByte view (off + i)

/-- The state after a store of bytes through a view. -/
def storeBytes (s : State) (ea : Word) (bs : List Byte) : State :=
  let view := viewOf ea
  let off := offOf ea
  if view ≤ 6 then s.storeMem off bs
  else if view = 8 then s.storeAcc off bs
  else s.winStore view off bs

/-- An ECC_UNCORR trap logs the error too (R239, R240). -/
def eccTrap (s : State) (ea : Word) (mem n : Nat) : Result := (s.logWords mem (offOf ea) n 0).trap .eccUncorr 0 ea

/-- R93: an access that passes every check. `store` says that it writes. -/
def access (s : State) (ea : Word) (size : Nat) (store : Bool) (k : State → Result) : Result :=
  s.check (s.accessTrap ea size) <|
    if viewOf ea = 8 ∧ s.bankBusy (offOf ea / 0x800) = true then s.wait
    else if s.accessBad ea size then s.eccTrap ea (if viewOf ea = 8 then 1 else 0) size
    else if store = true ∧ s.winWaits (viewOf ea) (offOf ea) size = true then s.wait
    else k s

/-- Address operands of engines and requests: view 0x0, n bytes within local memory, alignment (R134, R279, R344).
`d` is the DETAIL of VIEW. -/
def addrTrap (ea : Word) (n align d : Nat) : Option Trap :=
  if viewOf ea ≠ 0 ∧ reservedView (viewOf ea) = false then some ⟨.view, d, ea⟩
  else if viewOf ea ≠ 0 ∨ 0x9FFFF < offOf ea + n - 1 then some ⟨.localRange, 0, ea⟩
  else if offOf ea % align ≠ 0 then some ⟨.align, 0, ea⟩
  else none

/-- A word of local memory. -/
def memWord (s : State) (off : Nat) : Word := BitVec.ofNat 32 (leNat (s.c.mem.readBytes off 4))

end State

/-! Words and lanes of the global memory map (R230, R235). -/

namespace State

/-- R230: the fitted LPDDR 6 in bytes. -/
def fitted (s : State) : Nat := s.chip.capacity * 2 ^ 30

/-- R358: the key a slot holds. -/
def keyOf (s : State) (slot : Nat) : Option Nat := (s.chip.keys.find? (·.1 = slot)).map (·.2)

/-- R235: the bytes of LPDDR 6 read under a key: those written, or what a beat decrypts to under another key than it was
written with; the tweak is its number, PA bits 47:6. A beat that nothing has written holds zeros under every key (log 3). -/
def gread (s : State) (pa n key : Nat) : List Byte :=
  (List.range n).map fun i =>
    let a := pa + i
    let b := s.chip.gmem.read a
    match s.chip.gkeys.find? (·.1 = a / 64) with
    | some (_, k) =>
      if k = key then b else (Aes.across k key (a / 64) (s.chip.gmem.readBytes (a / 64 * 64) 64)).getD (a % 64) 0
    | none => b

/-- A write within LPDDR 6 under a key: the beats it touches are held under that key from then on; what such a beat held
before is decrypted under it first (R235). -/
def gwrite (s : State) (pa : Nat) (bs : List Byte) (key : Nat) : State :=
  let lo := pa / 64
  let hi := (pa + bs.length + 63) / 64
  let old := s.gread (64 * lo) (64 * (hi - lo)) key
  { s with chip := { s.chip with
      gmem := (s.chip.gmem.writeBytes (64 * lo) old).writeBytes pa bs,
      gkeys := ((List.range (hi - lo)).map fun i => (lo + i, key)) ++
        s.chip.gkeys.filter fun e => !decide (lo ≤ e.1 ∧ e.1 < hi),
      gerr := s.chip.gerr.filter fun w => !decide (pa ≤ 64 * w ∧ 64 * w + 64 ≤ pa + bs.length)
      soft := s.chip.soft.filter fun w => !decide (pa ≤ 64 * w ∧ 64 * w + 64 ≤ pa + bs.length) } }

/-- R239, R240: an uncorrectable error of a beat of LPDDR 6 is logged. -/
def gLog (s : State) (pa : Nat) (tag : Word) : State := s.logError (0x1100 + Config.channel (pa / 64 * 64) % 48) 2 pa tag

/-- R239, R240: correctable errors of a beat are corrected, counted, and logged where LOGCFG says so, with the tag of the
command that met them. -/
def gCorrect (s : State) (beat : Nat) (tag : Word) : State :=
  if s.chip.soft.contains beat then
    let src := 0x1100 + Config.channel (64 * beat) % 48
    let n := ((s.chip.corrected.find? (·.1 = src)).map (·.2)).getD 0
    let s := { s with chip := { s.chip with
      soft := s.chip.soft.filter (· ≠ beat)
      corrected := (src, min 0xFFFFFFFF (n + 1)) :: s.chip.corrected.filter (·.1 ≠ src) } }
    if s.chip.log.cfg.getLsbD 0 then
      s.logRecord src 3 0x20 (BitVec.ofNat 32 (64 * beat)) tag (BitVec.ofNat 32 (64 * beat / 2 ^ 32))
    else s
  else s

end State

end Sys2Proof.Machine
end

