-- ==== Sys2Proof/Machine/Flags.lean ====
section
/-! DEFINITION. Machine/Flags.lean: number formats, roundings and the flags they raise (spec/04 R43 to R61). A value is
held exactly, as sign, magnitude and power of two; it is rounded once, by `roundFin`. Flags stand at their places in
c.fmode (R22): NX 0x80, UF 0x40, OF 0x20, NV 0x10. -/

namespace Sys2Proof.Machine

/-- A decoded value: (-1)^neg × m × 2^e, an infinity, or a NaN. -/
inductive Val where
  | nan
  | inf (neg : Bool)
  | fin (neg : Bool) (m : Nat) (e : Int)
  deriving DecidableEq, Repr, Inhabited

abbrev Flags := Word

def flagNX : Flags := 0x80
def flagUF : Flags := 0x40
def flagOF : Flags := 0x20
def flagNV : Flags := 0x10

/-- A floating-point format (R45): exponent and fraction widths, bias, whether it has infinities. -/
structure Fmt where
  eb : Nat
  fb : Nat
  bias : Nat
  infs : Bool
  deriving DecidableEq, Repr

def fp32 : Fmt := ⟨8, 23, 127, true⟩
def fp16 : Fmt := ⟨5, 10, 15, true⟩
def bf16 : Fmt := ⟨8, 7, 127, true⟩
def e4m3 : Fmt := ⟨4, 3, 7, false⟩
def e5m2 : Fmt := ⟨5, 2, 15, true⟩

namespace Fmt

def width (f : Fmt) : Nat := 1 + f.eb + f.fb
/-- The exponent of the last place of the subnormals. -/
def qmin (f : Fmt) : Int := 1 - (f.bias : Int) - f.fb
/-- The exponent of the last place of the largest finite value, and that value in this place (R45). -/
def qmax (f : Fmt) : Int := (2 ^ f.eb - 1 - (if f.infs then 1 else 0) : Int) - f.bias - f.fb
def nmax (f : Fmt) : Nat := if f.infs then 2 ^ (f.fb + 1) - 1 else 2 ^ (f.fb + 1) - 2
/-- The pattern of the largest finite value. -/
def maxBits (f : Fmt) : Nat := (f.qmax - f.qmin).toNat * 2 ^ f.fb + f.nmax
def sign (f : Fmt) (neg : Bool) : Nat := if neg then 2 ^ (f.eb + f.fb) else 0
/-- The canonical NaN (R45). -/
def nanBits (f : Fmt) : Nat :=
  if f.infs then (2 ^ f.eb - 1) * 2 ^ f.fb + 2 ^ (f.fb - 1) else 2 ^ (f.eb + f.fb) - 1
def infBits (f : Fmt) : Nat := (2 ^ f.eb - 1) * 2 ^ f.fb

/-- R46: the value of a pattern. -/
def decode (f : Fmt) (x : Nat) : Val :=
  let neg := bitsOf x (f.eb + f.fb) 1 == 1
  let ex := bitsOf x f.fb f.eb
  let fr := bitsOf x 0 f.fb
  if f.infs && ex == 2 ^ f.eb - 1 then (if fr = 0 then .inf neg else .nan)
  else if !f.infs && ex == 2 ^ f.eb - 1 && fr == 2 ^ f.fb - 1 then .nan
  else if ex = 0 then .fin neg fr f.qmin
  else .fin neg (2 ^ f.fb + fr) (f.qmin + ex - 1)

/-- R53: the pattern is a subnormal. -/
def subnormal (f : Fmt) (x : Nat) : Bool := bitsOf x f.fb f.eb == 0 && bitsOf x 0 f.fb != 0

/-- R53: the value of a source element, a subnormal taken as a zero of its sign under FTZ. -/
def source (f : Fmt) (ftz : Bool) (x : Nat) : Val :=
  if ftz && f.subnormal x then .fin (bitsOf x (f.eb + f.fb) 1 == 1) 0 0 else f.decode x

/-- R50, R54: the finite value (-1)^neg × m × 2^e, with something smaller than its last place above it where `more`
holds, rounded to nearest, ties to even, with the flags. -/
def roundFin (f : Fmt) (sat neg : Bool) (m : Nat) (e : Int) (more : Bool := false) : Nat × Flags :=
  if m = 0 then (f.sign neg, 0)
  else
    let q := max ((Nat.log2 m : Int) + e - f.fb) f.qmin
    let sh := (q - e).toNat
    let low := m % 2 ^ sh
    let n0 := m / 2 ^ sh * 2 ^ (e - q).toNat
    let up := decide (2 ^ sh < 2 * low) || (decide (2 ^ sh = 2 * low) && (more || n0 % 2 == 1))
    let n := if up then n0 + 1 else n0
    let inexact := low != 0 || more
    if f.qmax < q ∨ (q = f.qmax ∧ f.nmax < n) then
      (if sat then f.sign neg + f.maxBits else if f.infs then f.sign neg + f.infBits else f.nanBits, flagOF ||| flagNX)
    else
      (f.sign neg + ((q - f.qmin).toNat * 2 ^ f.fb + n),
        if inexact then flagNX ||| (if n < 2 ^ f.fb then flagUF else 0) else 0)

/-- R50: a value in the format. -/
def encode (f : Fmt) (sat : Bool) : Val → Nat × Flags
  | .nan => (f.nanBits, 0)
  | .inf neg => if f.infs then (f.sign neg + f.infBits, 0)
      else (if sat then f.sign neg + f.maxBits else f.nanBits, flagNV)
  | .fin neg m e => f.roundFin sat neg m e

/-- R53: a result, a subnormal replaced by a zero of its sign under FTZ. -/
def flush (f : Fmt) (ftz : Bool) (r : Nat × Flags) : Nat × Flags :=
  if ftz && f.subnormal r.1 then (f.sign (bitsOf r.1 (f.eb + f.fb) 1 == 1), r.2 ||| flagUF ||| flagNX) else r

end Fmt

/-! Exact operations. The Bool says that the operation is invalid (NV of R54). -/

/-- A signed magnitude in units of 2^e. -/
def Val.toInt (neg : Bool) (m : Nat) : Int := if neg then -(m : Int) else m

/-- The exact sum; an exact zero is -0 only where both are -0 (R55). -/
def addVal : Val → Val → Val × Bool
  | .nan, _ | _, .nan => (.nan, false)
  | .inf a, .inf b => if a = b then (.inf a, false) else (.nan, true)
  | .inf a, _ => (.inf a, false)
  | _, .inf b => (.inf b, false)
  | .fin na ma ea, .fin nb mb eb =>
    let e := min ea eb
    let x := Val.toInt na (ma * 2 ^ (ea - e).toNat) + Val.toInt nb (mb * 2 ^ (eb - e).toNat)
    (.fin (if x = 0 then na && nb else decide (x < 0)) x.natAbs e, false)

def negVal : Val → Val
  | .nan => .nan
  | .inf a => .inf !a
  | .fin a m e => .fin (!a) m e

def absVal : Val → Val
  | .nan => .nan
  | .inf _ => .inf false
  | .fin _ m e => .fin false m e

/-- The exact product. -/
def mulVal : Val → Val → Val × Bool
  | .nan, _ | _, .nan => (.nan, false)
  | .inf a, .inf b => (.inf (a != b), false)
  | .inf a, .fin b m _ | .fin b m _, .inf a => if m = 0 then (.nan, true) else (.inf (a != b), false)
  | .fin a ma ea, .fin b mb eb => (.fin (a != b) (ma * mb) (ea + eb), false)

/-- a × b + c, exact; a NaN source sets no flag (R54). -/
def fmaVal (a b c : Val) : Val × Bool :=
  let p := mulVal a b
  let r := addVal p.1 c
  (r.1, (p.2 || r.2) && c != .nan)

/-- The order of two values that are no NaN, with +0 and -0 equal. -/
def ltVal : Val → Val → Bool
  | .nan, _ | _, .nan => false
  | .inf a, .inf b => a && !b
  | .inf a, _ => a
  | _, .inf b => !b
  | .fin na ma ea, .fin nb mb eb =>
    let e := min ea eb
    decide (Val.toInt na (ma * 2 ^ (ea - e).toNat) < Val.toInt nb (mb * 2 ^ (eb - e).toNat))

def isZero : Val → Bool
  | .fin _ m _ => m == 0
  | _ => false

def isNeg : Val → Bool
  | .inf a | .fin a _ _ => a
  | .nan => false

/-- R120: -0 orders below +0. -/
def ltSigned (a b : Val) : Bool := ltVal a b || (isZero a && isZero b && isNeg a && !isNeg b)

/-- R120: a compare with a NaN is false. -/
def eqVal (a b : Val) : Bool := a != .nan && b != .nan && !ltVal a b && !ltVal b a

/-- The larger and the smaller by R120; NaN where either is one. -/
def maxVal (a b : Val) : Val := if a = .nan ∨ b = .nan then .nan else if ltSigned a b then b else a
def minVal (a b : Val) : Val := if a = .nan ∨ b = .nan then .nan else if ltSigned b a then b else a

/-- An integer as a value. -/
def intVal (x : Int) : Val := .fin (decide (x < 0)) x.natAbs 0

/-! Integers (R44, R51). -/

/-- x / 2^s rounded to nearest, ties to even. -/
def rneShift (x : Int) (s : Nat) : Int :=
  let d : Int := 2 ^ s
  let q := x / d
  let r := x % d
  if d < 2 * r ∨ (d = 2 * r ∧ q % 2 = 1) then q + 1 else q

/-- Range of an integer type, signed or not, w bits wide. -/
def intMin (sgn : Bool) (w : Nat) : Int := if sgn then -(2 ^ (w - 1)) else 0
def intMax (sgn : Bool) (w : Nat) : Int := if sgn then 2 ^ (w - 1) - 1 else 2 ^ w - 1
def clampInt (sgn : Bool) (w : Nat) (x : Int) : Int := max (intMin sgn w) (min (intMax sgn w) x)
/-- The low w bits of an integer. -/
def wrapInt (w : Nat) (x : Int) : Nat := (x % 2 ^ w).toNat
/-- R44: wrap, or clamp with .sat. -/
def fitInt (sgn sat : Bool) (w : Nat) (x : Int) : Nat := wrapInt w (if sat then clampInt sgn w x else x)
def readInt (sgn : Bool) (w x : Nat) : Int := if sgn then signedOf w x else (x % 2 ^ w : Nat)

/-- R51: a value to an integer type: rounded, always saturated; NV for a NaN or a value out of range, NX else. A nonzero
value that becomes 0 sets NX alone, as R51 says, and no UF (DESIGN CHOICE, log 46). -/
def toIntType (sgn : Bool) (w : Nat) : Val → Nat × Flags
  | .nan => (0, flagNV)
  | .inf neg => (wrapInt w (if neg then intMin sgn w else intMax sgn w), flagNV)
  | .fin neg m e =>
    let s := (-e).toNat
    let x := Val.toInt neg (m * 2 ^ e.toNat)
    let r := rneShift x s
    if r = clampInt sgn w r then (wrapInt w r, if r * 2 ^ s = x then 0 else flagNX)
    else (wrapInt w (clampInt sgn w r), flagNV)

/-! FP32 steps by patterns, each rounded once. -/

def addF (f : Fmt) (a b : Nat) : Nat := (f.encode false (addVal (f.decode a) (f.decode b)).1).1
def mulF (f : Fmt) (a b : Nat) : Nat := (f.encode false (mulVal (f.decode a) (f.decode b)).1).1
def add32 (a b : Nat) : Nat := addF fp32 a b
def mul32 (a b : Nat) : Nat := mulF fp32 a b
def neg32 (a : Nat) : Nat := (fp32.encode false (negVal (fp32.decode a))).1
/-- round_rne_fp32(a - b). -/
def sub32 (a b : Nat) : Nat := add32 a (neg32 b)
def isNan32 (a : Nat) : Bool := fp32.decode a == .nan
def one32 : Nat := 0x3F800000
def inf32 : Nat := 0x7F800000
def ninf32 : Nat := 0xFF800000
def nan32 : Nat := 0x7FC00000

/-- R59: the constants C5 to C0, the FP32 values nearest to (ln 2)^k / k!. -/
def expC : List Nat := [0x3C1D955B, 0x3D635847, 0x3E75FDF0, 0x3F317218, 0x3F800000]
def expC5 : Nat := 0x3AAEC3FF

/-- R59: exp_k on an FP32 pattern. -/
def expK (x : Nat) : Nat :=
  match fp32.decode x with
  | .nan => nan32
  | .inf neg => if neg then 0 else inf32
  | .fin .. =>
    let t := mul32 x 0x3FB8AA3B
    match fp32.decode t with
    | .nan => nan32
    | .inf neg => if neg then 0 else inf32
    | .fin neg m e =>
      let big := decide (256 ≤ m * 2 ^ e.toNat / 2 ^ (-e).toNat)
      if big then (if neg then 0 else inf32)
      else
        let n := rneShift (Val.toInt neg (m * 2 ^ e.toNat)) (-e).toNat
        let f := (fp32.encode false (addVal (fp32.decode t) (intVal (-n))).1).1
        let p := expC.foldl (fun p c => add32 (mul32 p f) c) expC5
        match fp32.decode p with
        | .fin pn pm pe => (fp32.roundFin false pn pm (pe + n)).1
        | _ => p

/-- floor(√N) by its bits, i downwards. -/
def isqrtFrom (n : Nat) : Nat → Nat → Nat
  | 0, r => if (r + 1) * (r + 1) ≤ n then r + 1 else r
  | i + 1, r => isqrtFrom n i (if (r + 2 ^ (i + 1)) * (r + 2 ^ (i + 1)) ≤ n then r + 2 ^ (i + 1) else r)

def isqrt (n : Nat) : Nat := isqrtFrom n (Nat.log2 n / 2 + 1) 0

/-- R60: 1 / x rounded once, with its flags. -/
def rcpF (f : Fmt) : Val → Nat × Flags
  | .nan => (f.nanBits, 0)
  | .inf neg => (f.sign neg, 0)
  | .fin neg m e =>
    if m = 0 then (f.sign neg + f.infBits, flagOF)
    else
      let k := Nat.log2 m + 40
      f.roundFin false neg (2 ^ k / m) (-e - k) (2 ^ k % m != 0)

/-- R60: 1 / √x rounded once, with its flags. -/
def rsqrtF (f : Fmt) : Val → Nat × Flags
  | .nan => (f.nanBits, 0)
  | .inf neg => if neg then (f.nanBits, flagNV) else (0, 0)
  | .fin neg m e =>
    if m = 0 then (f.sign neg + f.infBits, flagOF)
    else if neg then (f.nanBits, flagNV)
    else
      let m' := if e % 2 = 0 then m else 2 * m
      let e' := if e % 2 = 0 then e else e - 1
      let k := Nat.log2 m' + 40
      let y := isqrt (2 ^ (2 * k) / m')
      f.roundFin false false y (-e' / 2 - k) (y * y * m' != 2 ^ (2 * k))

/-! The natural logarithm (R61), in units of 2^-200 (log 12). -/

/-- Σ z^(2i+1) / (2i+1) from term i on, for z² in units of 2^-200; p is z^(2i+1). -/
def atanhFrom (z2 : Nat) : Nat → Nat → Nat → Nat
  | 0, _, _ => 0
  | k + 1, i, p => p / (2 * i + 1) + atanhFrom z2 k (i + 1) (p * z2 / 2 ^ 200)

/-- 2 artanh(a / b) = ln((b + a) / (b - a)) in units of 2^-200. -/
def atanh2 (a b : Nat) : Nat :=
  let z := a * 2 ^ 200 / b
  2 * atanhFrom (z * z / 2 ^ 200) 72 0 z

/-- R61: ln_k on an FP32 pattern. -/
def lnK (x : Nat) : Nat :=
  match fp32.decode x with
  | .nan => nan32
  | .inf neg => if neg then nan32 else inf32
  | .fin neg m e =>
    if m = 0 then ninf32
    else if neg then nan32
    else
      let k := Nat.log2 m
      -- m / 2^k = (b + a) / (b - a) with a = m - 2^k, b = m + 2^k
      let l : Int := atanh2 (m - 2 ^ k) (m + 2 ^ k) + (e + k) * atanh2 1 3
      if m = 2 ^ k ∧ e + k = 0 then 0
      else (fp32.roundFin false (decide (l < 0)) l.natAbs (-200) true).1

/-! The B4 block family (R47 to R49). -/

/-- Eight times code_value(T, c) (R48). -/
def codeValue8 (t : B4Type) (c : Nat) : Int :=
  let m := c % 8
  let mag : Nat := match t with
    | .int4 => 0
    | .e2m1 => [0, 4, 8, 12, 16, 24, 32, 48].getD m 0
    | .pow2 => if m = 0 then 0 else 2 ^ (m - 1)
    | .hyb => [0, 8, 16, 24, 32, 48, 64, 96].getD m 0
  match t with
  | .int4 => 8 * (if c < 8 then (c : Int) else (c : Int) - 16)
  | _ => if c < 8 then (mag : Int) else -(mag : Int)

/-- R47: the value of a code under a scale byte. -/
def b4Value (scale c : Nat) : Val :=
  let e := scale % 64
  let t := B4Type.ofCode (BitVec.ofNat 2 (scale / 64))
  if e = 63 then .nan
  else
    let v := codeValue8 t c
    .fin (decide (v < 0) || (v == 0 && 8 ≤ c && t != .int4)) v.natAbs ((e : Int) - 31 - 3)

/-- The eight codes in 4 bytes: element i in byte i / 2, low nibble first (R47). -/
def b4Bytes (codes : List Nat) : List Byte :=
  (List.range 4).map fun i => BitVec.ofNat 8 (codes.getD (2 * i) 0 + 16 * codes.getD (2 * i + 1) 0)

def b4Code (bs : List Byte) (i : Nat) : Nat := (bs.getD (i / 2) 0).toNat / 16 ^ (i % 2) % 16

/-- R49: the code nearest to x / 2^(E-31); on a tie the even code value (INT4) or even magnitude code. -/
def b4Nearest (t : B4Type) (neg : Bool) (m : Nat) (e : Int) : Nat :=
  -- eight times the quotient in units of 2^-u
  let u := (-(e + 3)).toNat
  let q8 := Val.toInt neg (m * 2 ^ (e + 3).toNat)
  let dist (c : Nat) : Nat := (q8 - codeValue8 t c * 2 ^ u).natAbs
  let odd (c : Nat) : Bool := match t with
    | .int4 => codeValue8 t c / 8 % 2 != 0
    | _ => c % 2 == 1
  let best := (List.range 16).foldl (fun b c =>
    if dist c < dist b ∨ (dist c = dist b ∧ odd b = true ∧ odd c = false) then c else b) 0
  if codeValue8 t best = 0 then 0 else best

/-- R49: eight values to a block: codes, scale byte, flags. A nonzero value whose code is zero sets UF beside NX, by R54
(DESIGN CHOICE, log 46: R49's example names NX only); no B4 element counts as subnormal (DESIGN CHOICE, log 46). -/
def b4Convert (xs : List Val) (t : B4Type) : List Nat × Nat × Flags :=
  let bad := xs.any fun x => match x with | .fin .. => false | _ => true
  let tcode := t.code.toNat * 64
  if bad then (List.replicate 8 0, tcode + 63, flagNV)
  else
    let logs := xs.filterMap fun x => match x with
      | .fin _ m e => if m = 0 then none else some ((Nat.log2 m : Int) + e)
      | _ => none
    match logs with
    | [] => (List.replicate 8 0, tcode, 0)
    | l :: ls =>
      let emax : Int := match t with | .int4 | .e2m1 => 2 | _ => 3
      let e := (max 0 (min 62 (ls.foldl max l - emax + 31))).toNat
      let one (x : Val) : Nat × Flags := match x with
        | .fin neg m ex =>
          let c := b4Nearest t neg m (ex - (e : Int) + 31)
          let v := b4Value (tcode + e) c
          (c, if eqVal v x then 0 else flagNX ||| (if isZero v then flagUF else 0))
        | _ => (0, 0)
      (xs.map fun x => (one x).1, tcode + e, xs.foldl (fun fl x => fl ||| (one x).2) 0)

/-! Element types (R78) and conversion between them (R50, R51). -/

/-- The floating-point format of an element type, none for an integer type. -/
def fmtOf : ElemType → Option Fmt
  | .f32 => some fp32
  | .bf16 => some bf16
  | .f16 => some fp16
  | .e4m3 => some e4m3
  | .e5m2 => some e5m2
  | _ => none

/-- The integer that a lane of an integer type holds. -/
def laneInt (t : ElemType) (x : Nat) : Int := readInt t.isS t.width x

/-- R50, R53, R54: an exact result in a lane of the format, within the limits of the .sat column where `sat` asks for it, and
flushed under FTZ; the Bool says that the operation is invalid. -/
def Fmt.result (f : Fmt) (sat ftz : Bool) (v : Val × Bool) : Nat × Flags :=
  let r := f.flush ftz (f.encode sat v.1)
  (r.1, r.2 ||| (if v.2 then flagNV else 0))

/-- R50, R51: convert a lane of one element type to another. -/
def convert (td ts : ElemType) (sat ftz : Bool) (x : Nat) : Nat × Flags :=
  match fmtOf ts, fmtOf td with
  | some fs, some fd => fd.flush ftz (fd.encode sat (fs.source ftz x))
  | some fs, none => toIntType td.isS td.width (fs.source ftz x)
  | none, some fd => fd.flush ftz (fd.encode sat (intVal (laneInt ts x)))
  | none, none => (fitInt td.isS sat td.width (laneInt ts x), 0)

/-- A value (a B4 element) to an element type, by the rules of R50 and R51. -/
def fromVal (td : ElemType) (sat ftz : Bool) (v : Val) : Nat × Flags :=
  match fmtOf td with
  | some fd => fd.flush ftz (fd.encode sat v)
  | none => toIntType td.isS td.width v

/-- The value of a lane as a conversion's source. -/
def toVal (ts : ElemType) (ftz : Bool) (x : Nat) : Val :=
  match fmtOf ts with
  | some f => f.source ftz x
  | none => intVal (laneInt ts x)

/-! Lane operations by element type: an exact floating-point operation rounded once, or an integer operation that wraps
or saturates (R117). No integer operation raises a flag: R117 gives R53 to R60 to floating-point arithmetic (DESIGN CHOICE,
log 46: R54's words on saturation leave it open). -/

def laneOp1 (t : ElemType) (sat ftz : Bool) (fop : Val → Val × Bool) (iop : Int → Int) (a : Nat) : Nat × Flags :=
  match fmtOf t with
  | some f => f.result sat ftz (fop (f.source ftz a))
  | none => (fitInt t.isS sat t.width (iop (laneInt t a)), 0)

def laneOp2 (t : ElemType) (sat ftz : Bool) (fop : Val → Val → Val × Bool) (iop : Int → Int → Int) (a b : Nat) :
    Nat × Flags :=
  match fmtOf t with
  | some f => f.result sat ftz (fop (f.source ftz a) (f.source ftz b))
  | none => (fitInt t.isS sat t.width (iop (laneInt t a) (laneInt t b)), 0)

def laneOp3 (t : ElemType) (sat ftz : Bool) (fop : Val → Val → Val → Val × Bool) (iop : Int → Int → Int → Int)
    (a b c : Nat) : Nat × Flags :=
  match fmtOf t with
  | some f => f.result sat ftz (fop (f.source ftz a) (f.source ftz b) (f.source ftz c))
  | none => (fitInt t.isS sat t.width (iop (laneInt t a) (laneInt t b) (laneInt t c)), 0)

/-- An operation that is never invalid. -/
def sure (v : Val) : Val × Bool := (v, false)

/-- A sum, a maximum, a minimum of two lanes. -/
def laneAdd (t : ElemType) (sat ftz : Bool) : Nat → Nat → Nat × Flags := laneOp2 t sat ftz addVal (· + ·)
def laneSub (t : ElemType) (sat ftz : Bool) : Nat → Nat → Nat × Flags :=
  laneOp2 t sat ftz (fun a b => addVal a (negVal b)) (· - ·)
def laneMul (t : ElemType) (sat ftz : Bool) : Nat → Nat → Nat × Flags := laneOp2 t sat ftz mulVal (· * ·)
def laneFma (t : ElemType) (sat ftz : Bool) : Nat → Nat → Nat → Nat × Flags :=
  laneOp3 t sat ftz fmaVal (fun a b c => a * b + c)
def laneAbs (t : ElemType) (sat ftz : Bool) : Nat → Nat × Flags := laneOp1 t sat ftz (sure ∘ absVal) (fun a => a.natAbs)
def laneNeg (t : ElemType) (sat ftz : Bool) : Nat → Nat × Flags := laneOp1 t sat ftz (sure ∘ negVal) (fun a => -a)

/-- R120; no flag. -/
def laneMin (t : ElemType) (ftz : Bool) (a b : Nat) : Nat × Flags :=
  ((laneOp2 t false ftz (fun a b => sure (minVal a b)) min a b).1, 0)
def laneMax (t : ElemType) (ftz : Bool) (a b : Nat) : Nat × Flags :=
  ((laneOp2 t false ftz (fun a b => sure (maxVal a b)) max a b).1, 0)

/-- R119, R120: vsat. -/
def laneSat (t : ElemType) (ftz : Bool) (a b : Nat) : Nat × Flags :=
  if t.isU then laneMin t ftz a b
  else ((laneOp2 t false ftz (fun a b => sure (minVal (maxVal a (negVal b)) b)) (fun a b => min (max a (-b)) b) a b).1, 0)

/-- R120: the compares. -/
def laneCmp (t : ElemType) (ftz : Bool) (fop : Val → Val → Bool) (iop : Int → Int → Bool) (a b : Nat) : Bool :=
  match fmtOf t with
  | some f => fop (f.source ftz a) (f.source ftz b)
  | none => iop (laneInt t a) (laneInt t b)

def laneEq (t : ElemType) (ftz : Bool) : Nat → Nat → Bool := laneCmp t ftz eqVal (fun a b => decide (a = b))
def laneLt (t : ElemType) (ftz : Bool) : Nat → Nat → Bool := laneCmp t ftz ltVal (fun a b => decide (a < b))
def laneLe (t : ElemType) (ftz : Bool) : Nat → Nat → Bool :=
  laneCmp t ftz (fun a b => ltVal a b || eqVal a b) (fun a b => decide (a ≤ b))

/-- R119: the shifts by sh, the low log2 w bits of a lane. -/
def laneShl (t : ElemType) (a b : Nat) : Nat × Flags := (a * 2 ^ (b % t.width) % 2 ^ t.width, 0)
def laneShr (t : ElemType) (a b : Nat) : Nat × Flags := (a / 2 ^ (b % t.width), 0)
def laneSra (t : ElemType) (a b : Nat) : Nat × Flags := (wrapInt t.width (laneInt t a / 2 ^ (b % t.width)), 0)

/-- R59: vexp on a lane. Flags are judged against the mathematical exponential. -/
def laneExp (t : ElemType) (ftz : Bool) (a : Nat) : Nat × Flags :=
  match fmtOf t with
  | none => (a, 0)
  | some f =>
    let x := f.source ftz a
    let y := expK (fp32.encode false x).1
    let r := (f.flush ftz (f.encode false (fp32.decode y))).1
    match x with
    | .fin _ m _ =>
      if m = 0 then (r, 0)
      else (r, flagNX ||| (match f.decode r with
        | .inf _ => flagOF
        | .fin _ n _ => if n = 0 ∨ f.subnormal r then flagUF else 0
        | .nan => 0))
    | _ => (r, 0)

/-- R60: vrcp and vrsqrt on a lane. -/
def laneRcp (t : ElemType) (ftz : Bool) (a : Nat) : Nat × Flags :=
  match fmtOf t with
  | none => (a, 0)
  | some f => f.flush ftz (rcpF f (f.source ftz a))

def laneRsqrt (t : ElemType) (ftz : Bool) (a : Nat) : Nat × Flags :=
  match fmtOf t with
  | none => (a, 0)
  | some f => f.flush ftz (rsqrtF f (f.source ftz a))

/-! Reductions (R56, R57). -/

/-- One level of the pairwise tree. -/
def pairLevel (op : Nat → Nat → Nat × Flags) : List Nat → List Nat × Flags
  | a :: b :: xs =>
    let r := op a b
    let q := pairLevel op xs
    (r.1 :: q.1, r.2 ||| q.2)
  | xs => (xs, 0)

/-- The pairwise tree over 2^k lanes. -/
def pairTree (op : Nat → Nat → Nat × Flags) : Nat → List Nat → Nat × Flags
  | 0, xs => (xs.headD 0, 0)
  | k + 1, xs =>
    let q := pairLevel op xs
    let r := pairTree op k q.1
    (r.1, q.2 ||| r.2)

/-- R56: the identity a masked lane enters as. -/
def sumIdentity (t : ElemType) : Nat := match fmtOf t with
  | some f => f.sign true
  | none => 0
def maxIdentity (t : ElemType) : Nat := match fmtOf t with
  | some f => f.sign true + f.infBits
  | none => wrapInt t.width (intMin t.isS t.width)
def minIdentity (t : ElemType) : Nat := match fmtOf t with
  | some f => f.infBits
  | none => wrapInt t.width (intMax t.isS t.width)

/-- R56: a reduction over the lanes, masked lanes replaced by the identity. -/
def laneReduce (t : ElemType) (op : Nat → Nat → Nat × Flags) (xs : List Nat) : Nat × Flags :=
  pairTree op (Nat.log2 t.lanes) xs

/-- R56: the running combination from an accumulated lane on. -/
def scanFrom (op : Nat → Nat → Nat × Flags) : Nat → List Nat → List (Nat × Flags)
  | _, [] => []
  | acc, x :: xs => let r := op acc x; r :: scanFrom op r.1 xs

/-- The largest power of two below n, by its exponent: 2^log2 (n - 1). -/
def halfOf (n : Nat) : Nat := 2 ^ Nat.log2 (n - 1)

/-- R57: tree_sum over contributions in ascending order of their cores; `fuel` is at least their number. -/
def treeFold (op : Nat → Nat → Nat) : Nat → List Nat → Nat
  | 0, xs => xs.headD 0
  | fuel + 1, xs =>
    if xs.length ≤ 1 then xs.headD 0
    else op (treeFold op fuel (xs.take (halfOf xs.length))) (treeFold op fuel (xs.drop (halfOf xs.length)))

end Sys2Proof.Machine
end

