-- ==== Sys2Proof/Machine/Operands.lean ====
section
/-! DEFINITION. Machine/Operands.lean: the operand forms: vector lanes under a mask (R115 to R117), the slots of a
handle (R30, R31, R113), elements of local memory through a view (R23, R24, R131), tiles in the banks (R130). -/

namespace Sys2Proof
namespace Machine

namespace State

/-- A scalar result (R86): s[d] is written and the instruction completes. -/
def result (s : State) (d : Reg) (x : Word) : Result := (s.setReg d x).fin

end State

/-- The number of one bits among the low w bits. -/
def bitCount (w x : Nat) : Nat := ((List.range w).filter fun i => x.testBit i).length

/-! Lanes (R43, R115). -/

/-- Lane i of a vector register as the type's bits. -/
def laneAt (t : ElemType) (x : VWord) (i : Nat) : Nat := bitsOf x.toNat (t.width * i) t.width

/-- All lanes of a vector register. -/
def lanesOf (t : ElemType) (x : VWord) : List Nat := (List.range t.lanes).map (laneAt t x)

/-- A number from fields of w bits, the first lowest. -/
def packBits (w : Nat) : List Nat → Nat
  | [] => 0
  | x :: xs => x % 2 ^ w + 2 ^ w * packBits w xs

/-- A vector register from its lanes. -/
def ofLanes (t : ElemType) (xs : List Nat) : VWord := BitVec.ofNat 512 (packBits t.width xs)

/-- The flags that a list of lane results raises (R54). -/
def orFlags (rs : List (Nat × Flags)) : Flags := rs.foldl (fun f r => f ||| r.2) 0

namespace State

/-- R22: FTZ. -/
def ftz (s : State) : Bool := s.c.fmode.getLsbD 0

/-- R54: flags stay set until software clears them. -/
def addFlags (s : State) (f : Flags) : State := { s with c := { s.c with fmode := s.c.fmode ||| f } }

/-- R116: lane i is active. -/
def active (s : State) (m : VMod) (i : Nat) : Bool := (s.kreg m.km).getLsbD i

/-- R116, R119: what the lanes of the destination become: results where active, else kept or zero. -/
def maskedLanes (s : State) (t : ElemType) (d : Reg) (m : VMod) (f : Nat → Nat × Flags) : List (Nat × Flags) :=
  (List.range t.lanes).map fun i =>
    if s.active m i then f i else (if m.z then 0 else laneAt t (s.vreg d) i, 0)

/-- R119: an instruction that writes v[d] lane by lane. -/
def lanewise (s : State) (t : ElemType) (d : Reg) (m : VMod) (f : Nat → Nat × Flags) : State :=
  let rs := s.maskedLanes t d m f
  (s.addFlags (orFlags rs)).setV d (ofLanes t (rs.map (·.1)))

/-- The same of one, two or three vector sources. -/
def lane1 (s : State) (t : ElemType) (d a : Reg) (m : VMod) (f : Nat → Nat × Flags) : State :=
  s.lanewise t d m fun i => f (laneAt t (s.vreg a) i)
def lane2 (s : State) (t : ElemType) (d a b : Reg) (m : VMod) (f : Nat → Nat → Nat × Flags) : State :=
  s.lanewise t d m fun i => f (laneAt t (s.vreg a) i) (laneAt t (s.vreg b) i)
def lane3 (s : State) (t : ElemType) (d a b c : Reg) (m : VMod) (f : Nat → Nat → Nat → Nat × Flags) : State :=
  s.lanewise t d m fun i => f (laneAt t (s.vreg a) i) (laneAt t (s.vreg b) i) (laneAt t (s.vreg c) i)

/-- R119: a compare into a mask register: inactive lanes and bits from N on are 0. -/
def compareLanes (s : State) (t : ElemType) (d : KReg) (a b : Reg) (m : VMod) (f : Nat → Nat → Bool) : State :=
  s.setK d (BitVec.ofNat 64 (packBits 1 ((List.range t.lanes).map fun i =>
    if s.active m i && f (laneAt t (s.vreg a) i) (laneAt t (s.vreg b) i) then 1 else 0)))

/-- R122: a reduction: lane 0 is the tree over the active lanes, the others 0. -/
def reduceLanes (s : State) (t : ElemType) (d a : Reg) (m : VMod) (identity : Nat) (op : Nat → Nat → Nat × Flags) :
    State :=
  let r := laneReduce t op ((List.range t.lanes).map fun i =>
    if s.active m i then laneAt t (s.vreg a) i else identity)
  (s.addFlags r.2).setV d (ofLanes t [r.1])

end State

/-! Handles (R30 to R32, R367). -/

namespace Handle

def filled (h : Handle) : Nat := (h.tail - h.head).toNat
/-- R30: free = count - filled; 0 where a raw write left filled above count. -/
def free (h : Handle) : Nat := h.count.toNat - h.filled
/-- The address of the slot of an index value. -/
def slot (h : Handle) (i : Nat) : Word :=
  if h.count = 0 then 0 else h.base + BitVec.ofNat 32 (i % h.count.toNat * h.size.toNat)

/-- R31: the fields that hset accepts. -/
def ok (h : Handle) : Bool :=
  viewOf h.base ≤ 6 && offOf h.base % 64 == 0 &&
  h.size.toNat % 64 == 0 && decide (64 ≤ h.size.toNat ∧ h.size.toNat ≤ 65536) &&
  h.count.toNat == 2 ^ Nat.log2 h.count.toNat && decide (h.count.toNat ≤ 4096) &&
  decide (offOf h.base + h.size.toNat * h.count.toNat ≤ 0xA0000) && decide (h.filled ≤ h.count.toNat)

end Handle

/-- A HANDLE trap (R39, R114). -/
def handleTrap (h : HReg) (detail : Nat) : Trap := ⟨.handle, detail, BitVec.ofNat 32 h.val⟩

namespace State

/-- R113, R367: an unset handle traps with DETAIL 5, one that fails R31 with DETAIL 1. -/
def useHandle (s : State) (h : HReg) : Option Trap :=
  if (s.handle h).count = 0 then some (handleTrap h 5)
  else if (s.handle h).ok = false then some (handleTrap h 1)
  else none

/-- R113: an outstanding producer copy command can advance the tail. -/
def canFill (s : State) (h : HReg) : Bool := s.c.copy.any fun q => q.hv && q.hreg == h && q.producer

/-- The pops that queued mma and mmai owe a handle (R132); one instruction with both fields on it pops one slot. -/
def popsOwed (s : State) (h : HReg) : Nat :=
  (s.c.mx.filter fun q => q.popA == some h || q.popB == some h).length

/-- R113: a queued mma or mmai that reads the handle, or an outstanding consumer copy command, can pop it. -/
def canPop (s : State) (h : HReg) : Bool :=
  decide (0 < s.popsOwed h) || s.c.copy.any fun q => q.hv && q.hreg == h && q.consumer

/-- hadvp and hadvc as state changes, and the pop of a retirement (R32). -/
def advTail (s : State) (h : HReg) (n : Nat) : State :=
  s.setHandle h { s.handle h with tail := (s.handle h).tail + BitVec.ofNat 16 n }
def advHead (s : State) (h : HReg) (n : Nat) : State :=
  s.setHandle h { s.handle h with head := (s.handle h).head + BitVec.ofNat 16 n }

/-- R31: the handle in four words of memory. -/
def descriptor (s : State) (off : Nat) : Handle :=
  let w := s.memWord (off + 12)
  { base := s.memWord off, size := s.memWord (off + 4), count := s.memWord (off + 8),
    head := w.extractLsb' 0 16, tail := w.extractLsb' 16 16 }

end State

/-! Elements of local memory through a view (R24, R125, R131). -/

/-- The element type that a view supplies; `u` reads view 0x6 as UINT8. View 0x5 is apart. -/
def viewType (view : Nat) (u : Bool) : ElemType :=
  match view with
  | 1 => .e4m3
  | 2 => .e5m2
  | 3 => .bf16
  | 4 => .f16
  | _ => if u then .u8 else .i8

namespace State

/-- R24: the offset of the scale byte of the block at an offset. -/
def scaleOff (s : State) (off : Nat) : Nat := s.c.sbase.toNat + off / 4

/-- Element i (w bits wide) of packed bytes. -/
def elemBits (bs : List Byte) (w i : Nat) : Nat := leNat ((bs.drop (w / 8 * i)).take (w / 8))

/-- The value of element k of B4 codes and their scale bytes (R47). -/
def b4At (codes scales : List Byte) (k : Nat) : Val :=
  b4Value ((scales[k / 8]?).getD 0).toNat (b4Code codes k)

end State

/-! Tiles (R130). -/

end Machine

namespace AccType

/-- The bytes of an element and of a tile. -/
def size : AccType → Nat
  | .f32 | .i32 => 4
  | .bf16 | .f16 => 2
def tileBytes (t : AccType) : Nat := 1024 * t.size
def wide : AccType → Bool
  | .f32 | .i32 => true
  | _ => false
/-- The format of a floating-point tile. -/
def fmt : AccType → Option Machine.Fmt
  | .f32 => some Machine.fp32
  | .bf16 => some Machine.bf16
  | .f16 => some Machine.fp16
  | .i32 => none

end AccType

/-- The bytes of an output element of mdrq (R134). -/
def DrqType.bytes : DrqType → Nat
  | .i8 | .u8 => 1
  | .i16 => 2

namespace Machine

namespace State

/-- R28, R130: the banks of a tile are an even pair where it is 32-bit, and all are allocated. -/
def tileTrap (s : State) (t : AccType) (b : Reg) : Option Trap :=
  if t.wide && b.val % 2 == 1 then some ⟨.accBank, 0, 0⟩
  else if (tileBanks t b).all s.allocated then none
  else some ⟨.accBank, 0, 0⟩

/-- The elements of a tile, row by row, as bit patterns. -/
def tileElems (s : State) (t : AccType) (b : Reg) : List Nat :=
  let bs := s.c.acc.readBytes (0x800 * b.val) t.tileBytes
  (List.range 1024).map fun n => elemBits bs (8 * t.size) n

/-- A tile written from its elements. -/
def setTile (s : State) (t : AccType) (b : Reg) (xs : List Nat) : State :=
  s.storeAcc (0x800 * b.val) (xs.flatMap (leBytes t.size))

end State

end Machine
end Sys2Proof
end

