-- ==== Sys2Proof/Machine/Scalar.lean ====
section
/-! DEFINITION. Machine/Scalar.lean: page 0, register and immediate arithmetic (R86 to R91). All are of class A. -/

namespace Sys2Proof.Machine

/-- 1 for true. -/
def flagWord (b : Bool) : Word := if b then 1 else 0

/-- The 32-bit sign extension of an immediate (R67). -/
def immWord (i : BitVec 26) : Word := i.signExtend 32

/-- A shift amount (R89). -/
def shiftAmount (x : Word) : Nat := x.toNat % 32

/-- R89: the quotients and remainders, with their results for a zero divisor and the quotient that overflows. -/
def divSigned (a b : Word) : Word := if b = 0 then 0xFFFFFFFF else a.sdiv b
def divUnsigned (a b : Word) : Word := if b = 0 then 0xFFFFFFFF else a.udiv b
def remSigned (a b : Word) : Word := if b = 0 then a else a.srem b
def remUnsigned (a b : Word) : Word := if b = 0 then a else a.umod b

/-- The high half of a 64-bit product. -/
def mulHigh (x : Int) : Word := BitVec.ofInt 32 (x / 2 ^ 32)

/-- R89: zeros above the highest and below the lowest one bit. -/
def leadingZeros (x : Word) : Nat := if x = 0 then 32 else 31 - Nat.log2 x.toNat
def trailingZeros (x : Word) : Nat := ((List.range 32).find? fun i => x.getLsbD i).getD 32

def execAdd (d a b : Reg) (s : State) : Result := s.result d (s.reg a + s.reg b)
def execSub (d a b : Reg) (s : State) : Result := s.result d (s.reg a - s.reg b)
def execAnd (d a b : Reg) (s : State) : Result := s.result d (s.reg a &&& s.reg b)
def execOr (d a b : Reg) (s : State) : Result := s.result d (s.reg a ||| s.reg b)
def execXor (d a b : Reg) (s : State) : Result := s.result d (s.reg a ^^^ s.reg b)
def execShl (d a b : Reg) (s : State) : Result := s.result d (s.reg a <<< shiftAmount (s.reg b))
def execShr (d a b : Reg) (s : State) : Result := s.result d (s.reg a >>> shiftAmount (s.reg b))
def execSra (d a b : Reg) (s : State) : Result := s.result d ((s.reg a).sshiftRight (shiftAmount (s.reg b)))
def execSlt (d a b : Reg) (s : State) : Result := s.result d (flagWord ((s.reg a).slt (s.reg b)))
def execSltu (d a b : Reg) (s : State) : Result := s.result d (flagWord ((s.reg a).ult (s.reg b)))
def execSeq (d a b : Reg) (s : State) : Result := s.result d (flagWord (s.reg a == s.reg b))
def execSne (d a b : Reg) (s : State) : Result := s.result d (flagWord (s.reg a != s.reg b))
def execMin (d a b : Reg) (s : State) : Result := s.result d (if (s.reg a).slt (s.reg b) then s.reg a else s.reg b)
def execMax (d a b : Reg) (s : State) : Result := s.result d (if (s.reg a).slt (s.reg b) then s.reg b else s.reg a)
def execMinu (d a b : Reg) (s : State) : Result := s.result d (if (s.reg a).ult (s.reg b) then s.reg a else s.reg b)
def execMaxu (d a b : Reg) (s : State) : Result := s.result d (if (s.reg a).ult (s.reg b) then s.reg b else s.reg a)
def execMul (d a b : Reg) (s : State) : Result := s.result d (s.reg a * s.reg b)
def execMulh (d a b : Reg) (s : State) : Result := s.result d (mulHigh ((s.reg a).toInt * (s.reg b).toInt))
def execMulhu (d a b : Reg) (s : State) : Result := s.result d (mulHigh ((s.reg a).toNat * (s.reg b).toNat))
def execDiv (d a b : Reg) (s : State) : Result := s.result d (divSigned (s.reg a) (s.reg b))
def execDivu (d a b : Reg) (s : State) : Result := s.result d (divUnsigned (s.reg a) (s.reg b))
def execRem (d a b : Reg) (s : State) : Result := s.result d (remSigned (s.reg a) (s.reg b))
def execRemu (d a b : Reg) (s : State) : Result := s.result d (remUnsigned (s.reg a) (s.reg b))
def execMadd (d a b c : Reg) (s : State) : Result := s.result d (s.reg a * s.reg b + s.reg c)
def execClz (d a : Reg) (s : State) : Result := s.result d (BitVec.ofNat 32 (leadingZeros (s.reg a)))
def execCtz (d a : Reg) (s : State) : Result := s.result d (BitVec.ofNat 32 (trailingZeros (s.reg a)))
def execPopc (d a : Reg) (s : State) : Result := s.result d (BitVec.ofNat 32 (bitCount 32 (s.reg a).toNat))
def execSextB (d a : Reg) (s : State) : Result := s.result d (((s.reg a).extractLsb' 0 8).signExtend 32)
def execSextH (d a : Reg) (s : State) : Result := s.result d (((s.reg a).extractLsb' 0 16).signExtend 32)
def execZextB (d a : Reg) (s : State) : Result := s.result d (((s.reg a).extractLsb' 0 8).zeroExtend 32)
def execZextH (d a : Reg) (s : State) : Result := s.result d (((s.reg a).extractLsb' 0 16).zeroExtend 32)
def execSel (d a b c : Reg) (s : State) : Result := s.result d (if s.reg c ≠ 0 then s.reg a else s.reg b)

/-! Immediate arithmetic (R90, R91). -/

def execAddi (d a : Reg) (imm : BitVec 26) (s : State) : Result := s.result d (s.reg a + immWord imm)
def execAndi (d a : Reg) (imm : BitVec 26) (s : State) : Result := s.result d (s.reg a &&& immWord imm)
def execOri (d a : Reg) (imm : BitVec 26) (s : State) : Result := s.result d (s.reg a ||| immWord imm)
def execXori (d a : Reg) (imm : BitVec 26) (s : State) : Result := s.result d (s.reg a ^^^ immWord imm)
def execSlti (d a : Reg) (imm : BitVec 26) (s : State) : Result := s.result d (flagWord ((s.reg a).slt (immWord imm)))
def execSltiu (d a : Reg) (imm : BitVec 26) (s : State) : Result := s.result d (flagWord ((s.reg a).ult (immWord imm)))
def execShli (d a : Reg) (n : BitVec 5) (s : State) : Result := s.result d (s.reg a <<< n.toNat)
def execShri (d a : Reg) (n : BitVec 5) (s : State) : Result := s.result d (s.reg a >>> n.toNat)
def execSrai (d a : Reg) (n : BitVec 5) (s : State) : Result := s.result d ((s.reg a).sshiftRight n.toNat)

end Sys2Proof.Machine
end

