-- ==== Sys2Proof/Machine/Banks.lean ====
section
/-! DEFINITION. Machine/Banks.lean: page 3 MAJ 0x1: allocation of the accumulator banks and parking (R27 to R29, R141,
R142). A parked copy lies in its slot of the bank's own bytes. -/

namespace Sys2Proof.Machine

namespace State

/-- R29: the bank and slot of a parked copy among the bank's bytes. -/
def slotAddr (bank slot : Nat) : Nat := 0x800 * bank + 64 * slot

end State

namespace Parked

def holds (p : Parked) (bank slot : Nat) : Bool := p.v && p.bank.toNat == bank && p.slot.toNat == slot

end Parked

/-- R29: the lowest free slot of the lowest bank that may be used. -/
def freeSlot (ps : Vector Parked 64) (usable : Nat → Bool) : Option (Nat × Nat) :=
  (((List.range 32).filter usable).flatMap fun b => (List.range 32).map fun i => (b, i)).find? fun p =>
    !ps.toList.any fun e => e.holds p.1 p.2

namespace State

/-- R18, R29: c.spillmap as the spill record has it. -/
def spillmapOf (ps : Vector Parked 64) : Word :=
  BitVec.ofNat 32 (packBits 1 ((List.range 32).map fun b => if ps.toList.any fun e => e.v && e.bank.toNat == b then 1 else 0))

def setParked (s : State) (ps : Vector Parked 64) : State :=
  { s with c := { s.c with parked := ps, spillmap := spillmapOf ps } }

/-- R27: one parked register moved out of the requested range, none where there is no room. -/
def moveOut (usable inRange : Nat → Bool) (s : State) (n : Fin 64) : Option State :=
  let e := s.c.parked[n]
  if e.v && inRange e.bank.toNat then
    match freeSlot s.c.parked usable with
    | none => none
    | some (b, i) =>
      let bs := s.c.acc.readBytes (slotAddr e.bank.toNat e.slot.toNat) 64
      some ((s.storeAcc (slotAddr b i) bs).setParked
        (s.c.parked.set n { v := true, bank := BitVec.ofNat 5 b, slot := BitVec.ofNat 5 i }))
  else some s

/-- R27: all of them, in the order of the spill record. -/
def moveAll (usable inRange : Nat → Bool) : State → List (Fin 64) → Option State
  | s, [] => some s
  | s, n :: ns => match moveOut usable inRange s n with
    | none => none
    | some t => moveAll usable inRange t ns

/-- The bits of a range of banks. -/
def bankMask (b n : Nat) : Word := BitVec.ofNat 32 ((2 ^ n - 1) * 2 ^ b)

/-- R27: the banks are granted and read as zero. -/
def grantBanks (s : State) (b n : Nat) : State :=
  let t := s.storeAcc (0x800 * b) (List.replicate (0x800 * n) 0)
  { t with c := { t.c with
      accmap := t.c.accmap ||| bankMask b n
      accErr := t.c.accErr.filter fun w => !decide (0x800 * b ≤ 8 * w ∧ 8 * w < 0x800 * (b + n)) } }

/-- R264: the states whose banks overlap a range leave the directory. -/
def dropStates (s : State) (b n : Nat) : State :=
  { s with c := { s.c with dir := s.c.dir.filter fun e => !decide (e.bank < b + n ∧ b < e.bank + e.nb) } }

/-- R29: the bytes of a register that is parked. -/
def parkBytes (s : State) (vec : Bool) (a : Reg) : List Byte :=
  if vec then leBytes 64 (s.vreg a).toNat else leBytes 4 (s.reg a).toNat

end State

/-- R29: the register's entry in the spill record. -/
def parkIndex (vec : Bool) (a : Reg) : Fin 64 := if vec then ⟨32 + a.val, by omega⟩ else ⟨a.val, by omega⟩

/-- R27, R142: aalloc. Where the range passes a31 and a bank of it is allocated, status 3 comes before status 1 (DESIGN CHOICE,
log 47). -/
def execAalloc (a b : Reg) (n : Nat) (s : State) : Result :=
  s.classC <|
    if n = 0 ∨ 32 < b.val + n then s.result a 3
    else if (List.range n).any fun i => s.allocated (b.val + i) then s.result a 1
    else
      let inRange (x : Nat) : Bool := decide (b.val ≤ x ∧ x < b.val + n)
      match State.moveAll (fun x => !s.allocated x && !inRange x) inRange s (List.finRange 64) with
      | none => s.result a 2
      | some t => (t.grantBanks b.val n).result a 0

/-- R28, R142: afree. -/
def execAfree (b : Reg) (n : Nat) (s : State) : Result :=
  s.classC <|
    if (List.range n).any fun i => s.bankBusy (b.val + i) then s.wait
    else if n = 0 ∨ 32 < b.val + n ∨ ((List.range n).all fun i => s.allocated (b.val + i)) = false then s.trap .accBank
    else
      let t := s.dropStates b.val n
      ({ t with c := { t.c with accmap := t.c.accmap &&& ~~~(State.bankMask b.val n) } } : State).fin

/-- R142: aquery. -/
def execAquery (a : Reg) (q : Fin 4) (s : State) : Result :=
  let free := (List.range 32).filter fun b => !s.allocated b
  s.classC <| s.result a <|
    match q with
    | 0 => s.c.accmap
    | 1 => s.c.spillmap
    | 2 => BitVec.ofNat 32 free.length
    | 3 => BitVec.ofNat 32 (32 * free.length - (s.c.parked.toList.filter fun e => e.v && free.contains e.bank.toNat).length)

/-- R29: spill. -/
def execSpill (vec : Bool) (a : Reg) (s : State) : Result :=
  let n := parkIndex vec a
  let e := s.c.parked[n]
  s.classC <|
    if e.v then (s.storeAcc (State.slotAddr e.bank.toNat e.slot.toNat) (s.parkBytes vec a)).fin
    else match freeSlot s.c.parked fun b => !s.allocated b with
      | none => s.trap .accBank
      | some (b, i) =>
        ((s.storeAcc (State.slotAddr b i) (s.parkBytes vec a)).setParked
          (s.c.parked.set n { v := true, bank := BitVec.ofNat 5 b, slot := BitVec.ofNat 5 i })).fin

/-- R29: fill. The entry keeps the SLOT and BANK it had, with V = 0 (DESIGN CHOICE, log 47). A copy in a code word with an uncorrectable
error traps with ECC_UNCORR, as a load of it would (DESIGN CHOICE, log 57). -/
def execFill (vec : Bool) (a : Reg) (s : State) : Result :=
  let n := parkIndex vec a
  let e := s.c.parked[n]
  s.classC <|
    if e.v = false then s.trap .accBank
    else
      let at_ := State.slotAddr e.bank.toNat e.slot.toNat
      let size := if vec then 64 else 4
      if s.accBad at_ size then s.eccTrap (BitVec.ofNat 32 (0x80000000 + at_)) 1 size
      else
        let x := leNat (s.c.acc.readBytes at_ size)
        let t := s.setParked (s.c.parked.set n { e with v := false })
        (if vec then t.setV a (BitVec.ofNat 512 x) else t.setReg a (BitVec.ofNat 32 x)).fin

end Sys2Proof.Machine
end

