-- ==== Sys2Proof/Machine/System.lean ====
section
/-! DEFINITION. Machine/System.lean: page 7 MAJ 0x0 but for xload: trap, eret, halt, snap, fence, evwr (R101 to R108). -/

namespace Sys2Proof.Machine

namespace State

/-- R104: what halt leaves: parked copies and c.spillmap gone, monitors disarmed, the mailbox empty, and the core
stopped, which its phase controller is told. -/
def halted (s : State) : State :=
  let c := { s.c with
    run := .halted
    stall := false
    pend := .none
    parked := Vector.replicate 64 {}
    spillmap := 0
    mon := Vector.replicate 8 {}
    mbox := Vector.replicate 32 0
    mboxHead := 0
    mboxCount := 0 }
  let trees := { s.p.trees with halted := s.p.trees.halted ++ [s.coreId] }
  { s with c := c, p := { s.p with trees := trees }, out := s.out ++ [.halted s.coreId] }

/-- R108: a record of the core. -/
def ownRecord (s : State) (x y : Word) : EventRec :=
  { src := s.coreId, kind := 0, seq := s.c.evSeq, xcyc := s.xcyc, d0 := x, d1 := y }

end State

/-- R102: trap raises BREAK with s[a] bits 15:0 as DETAIL. -/
def execTrap (a : Reg) (s : State) : Result := s.classC <| s.trap .break_ (s.reg a).toNat

/-- R103: eret. -/
def execEret (s : State) : Result :=
  s.privC <| if s.c.epc.getLsbD 0 then s.trap .align 0 s.c.epc else .next s.eret

/-- R104: halt. -/
def execHalt (s : State) : Result :=
  s.classC <|
    if s.c.accmap ≠ 0 then s.trap .accHeld 0 s.c.accmap
    else if s.enginesIdle = false then s.wait
    else .next s.halted

/-- R105: a trigger travels, the one that does already or a new one. -/
def State.trigger (s : State) : State := { s with chip := { s.chip with snapTrig := true } }

/-- R105: snap. A trigger is sent unless one is travelling; the latch hands over the sequence number. -/
def execSnap (d : Reg) (s : State) : Result :=
  s.privC <|
    match s.c.pend with
    | .snap (some n) => s.result d n
    | .snap none => s.wait
    | _ => s.trigger.waitAt (.snap none)

/-- R107: fence. -/
def execFence (s : State) : Result := s.classC <| if s.enginesIdle then s.discardFetch.fin else s.wait

/-- R108: evwr stalls while the tile's queue of 16 records is full. The record's c.xcyc is that of the xc in which it
enters the queue (DESIGN CHOICE, log 47). -/
def execEvwr (a b : Reg) (s : State) : Result :=
  s.classC <|
    if 16 ≤ s.t.evq.length then s.wait
    else
      let t := { s.t with evq := s.t.evq ++ [s.ownRecord (s.reg a) (s.reg b)] }
      ({ s with t := t, c := { s.c with evSeq := s.c.evSeq + 1 } } : State).fin

end Sys2Proof.Machine
end

