-- ==== Sys2Proof/Machine/Fabric.lean ====
section
/-! DEFINITION. Machine/Fabric.lean: the fabric engine: windows, puts, gets and allowances, and the packets that carry them
(R324 to R336, R340, R344 to R347). Other chips act through the input of a step (log 1). -/

namespace Sys2Proof.Machine

/-! Completion statuses (R227). -/
def stProt : Nat := 3
def stGated : Nat := 6
def stUnreach : Nat := 7
def stStale : Nat := 8
def stRing : Nat := 9
def stKey : Nat := 10
def stVoided : Nat := 11
def stData : Nat := 12

/-- R322, R323: a port sends n frames more. Where one of them is the first even frame at or after the boundary of a request
that has been acknowledged, the port switches to the new mode at it. -/
def Port.sendFrames (x : Port) (n : Nat) : Port :=
  let y := { x with count := x.count + n }
  match x.fecReq with
  | some r => if r.closed = true ∧ (max x.count r.f + 1) / 2 * 2 < x.count + n then { y with fec := r.mode, fecReq := none } else y
  | none => y

namespace State

/-- R334: the message of an operation, to the core that issued it. -/
def fabMessage (s : State) (o : FabOp) (status data : Nat) : State :=
  let m := message 3 status o.tag.toNat data
  match o.core with
  | some p => s.put (.message p m)
  | none => s.onContext o.lid fun t => t.post m

/-! Routes and frames (R321, R325). -/

/-- Where the active table sends a request: to this chip, nowhere, or to a port. -/
inductive Route where
  | here | nowhere | port (p : Fin 32)
  deriving DecidableEq, Repr

/-- R317: the number of this chip, and whether it takes part in traffic between chips. -/
def chipNum (s : State) : Nat := s.chip.num.toNat
def takesPart (s : State) : Bool := decide (s.chipNum < 4096)

def routeIn (s : State) (r : Option Routing) (peer : Nat) : Route :=
  if 4096 ≤ peer then .nowhere
  else if peer = s.chipNum then .here
  else if s.takesPart = false then .nowhere
  else match r with
    | none => .nowhere
    | some r => match r.routes[peer]? with
      | none => .nowhere
      | some x => if h : x < 32 then .port ⟨x, h⟩ else .nowhere

def route (s : State) (peer : Nat) : Route := s.routeIn s.chip.active peer

/-- The chips that the active table reaches (R340). -/
def reachable (s : State) : List Nat :=
  match s.chip.active with
  | none => []
  | some r => (List.range r.routes.length).filter fun j => match s.route j with | .port _ => true | _ => false

def port (s : State) (p : Fin 32) : Port := s.chip.ports[p]
def setPort (s : State) (p : Fin 32) (x : Port) : State := { s with chip := { s.chip with ports := s.chip.ports.set p x } }

/-- R321: the frames that a retransmission buffer of 64 KiB holds, a frame of 2,720 bits being 340 bytes. -/
def bufferFrames : Nat := 65536 / 340

/-- R321, R322: what waits at a port leaves in frames as far as the retransmission buffer has room. One frame carries one
packet: the largest fits (log 35). -/
def pump (s : State) (p : Fin 32) : State :=
  let x := s.port p
  let go := x.queue.take (bufferFrames - x.frames.length)
  let new : List Frame := go.zipIdx.map fun l => { seq := x.txSeq + l.2, line := l.1 }
  new.foldl (fun t f => t.put (.frame p.val f.seq f.line))
    (s.setPort p { x.sendFrames go.length with
      frames := x.frames ++ new, queue := x.queue.drop go.length, txSeq := x.txSeq + go.length })

/-- R321, R338: a packet or a marker leaves by a port; a DRAINED one carries markers only. -/
def transmit (s : State) (p : Fin 32) (l : Line) : State :=
  let stays : Bool := match l with
    | .packet _ => (s.port p).drained
    | .drainMarker | .commitMarker _ => false
  if stays then s else (s.setPort p { s.port p with queue := (s.port p).queue ++ [l] }).pump p

/-- R322: a frame without a packet leaves by a port: an acknowledgement, an FEC request, the acknowledgement of one. -/
def control (s : State) (p : Fin 32) (o : Out) : State := (s.setPort p ((s.port p).sendFrames 1)).put o

/-! Windows (R327, R328). -/

def window (s : State) (n : Nat) : Option Window := s.chip.windows.find? (·.win = n)
def setWindow (s : State) (w : Window) : State :=
  { s with chip := { s.chip with windows := s.chip.windows.map fun x => if x.win = w.win then w else x } }
def dropWindow (s : State) (n : Nat) : State :=
  { s with chip := { s.chip with windows := s.chip.windows.filter (·.win ≠ n) } }

/-- R330: the 16-byte units of local bytes that meet an uncorrectable error. -/
def badUnits (s : State) (off len : Nat) : List Nat := (List.range (len / 16)).filter fun i => s.memBad (off + 16 * i) 16

/-- R239, R240: local bytes read by the fabric engine: their bad units, and the state with those errors logged. -/
def readUnits (s : State) (off len : Nat) (tag : Word) : State × List Nat :=
  (s.logWords 0 off (16 * (len / 16)) tag, s.badUnits off len)

/-- The bytes of a unit. -/
def unitBytes (data : List Byte) (i : Nat) : List Byte := (data.drop (16 * i)).take 16

/-- What a write to a window or to local memory has done: the state, an error, the bytes moved. -/
structure Moved where
  s : State
  err : Bool := false
  bytes : Nat := 0
  deriving DecidableEq, Repr

/-- The beats of LPDDR 6 that bytes lie in. -/
def beatsOf (pa len : Nat) : List Nat := (List.range ((pa + len + 63) / 64 - pa / 64)).map (pa / 64 + ·)

/-- R239, R330: the units of a put that fall into beat b of LPDDR 6. A beat that the put covers whole replaces the beat; a
part of a beat with an uncorrectable error is not written. -/
def gputBeat (pa key : Nat) (data : List Byte) (bad : List Nat) (tag : Word) (m : Moved) (b : Nat) : Moved :=
  let units := (List.range (data.length / 16)).filter fun i => (pa + 16 * i) / 64 == b
  let good := units.filter fun i => !bad.contains i
  if units.length ≠ 4 ∨ good.length ≠ 4 then
    if m.s.chip.gerr.contains b then { m with err := true, s := m.s.gLog (64 * b) tag }
    else
      { m with
        s := good.foldl (fun t i => t.gwrite (pa + 16 * i) (unitBytes data i) key) (m.s.gCorrect b tag)
        bytes := m.bytes + 16 * good.length }
  else { m with s := m.s.gwrite (64 * b) (units.flatMap (unitBytes data)) key, bytes := m.bytes + 64 }

/-- A write of bytes to LPDDR 6, beat by beat; `tag` is that of the operation where this chip knows it (R240). -/
def gput (s : State) (pa key : Nat) (data : List Byte) (bad : List Nat) (tag : Word) : Moved :=
  (beatsOf pa data.length).foldl (gputBeat pa key data bad tag) { s := s, err := !bad.isEmpty }

/-- The units without error written to local memory. -/
def putUnits (off : Nat) (data : List Byte) (bad : List Nat) (s : State) : State :=
  ((List.range (data.length / 16)).filter fun i => !bad.contains i).foldl
    (fun t i => t.engineMem (off + 16 * i) (unitBytes data i)) s

/-- The bytes of the units without error. -/
def goodBytes (data : List Byte) (bad : List Nat) : Nat :=
  16 * ((List.range (data.length / 16)).filter fun i => !bad.contains i).length

/-- R151, R334: units without error for the local memory of another core, whose local side lets them in. -/
def sendUnits (p off : Nat) (data : List Byte) (bad : List Nat) (s : State) : State :=
  ((List.range (data.length / 16)).filter fun i => !bad.contains i).foldl
    (fun t i => t.put (.coreWrite p (off + 16 * i) (unitBytes data i))) s

/-- R330: bytes written at an offset of a window. -/
def windowWrite (s : State) (w : Window) (off : Nat) (data : List Byte) (bad : List Nat) (tag : Word) : Moved :=
  if w.loc then
    let t := match w.core with
      | some p => s.sendUnits p (w.base + off) data bad
      | none => s.onHalf w.half (putUnits (w.base + off) data bad)
    { s := t, err := !bad.isEmpty, bytes := goodBytes data bad }
  else s.gput (w.base + off) ((s.keyOf w.key).getD 0) data bad tag

/-- R239, R240: what reading a beat of LPDDR 6 does to its errors. -/
def gMeet (tag : Word) (s : State) (b : Nat) : State :=
  let s := s.gCorrect b tag
  if s.chip.gerr.contains b then s.gLog (64 * b) tag else s

/-- R333, R239: bytes read from a window, with the units that meet an uncorrectable error. What a window of another core holds is open
(log 58). -/
def windowRead (s : State) (w : Window) (off len : Nat) (tag : Word) : State × List Byte × List Nat :=
  let a := w.base + off
  if w.loc then match w.core with
  | some p =>
    (s, (List.range len).map fun i => Config.otherByte s.tick p (a + i),
      (List.range (len / 16)).filter fun i => Config.otherBad s.tick p (a / 16 + i))
  | none =>
    let here : State := { s with c := s.ctxOf w.half }
    ({ (here.readUnits a len tag).1 with c := s.c }, here.c.mem.readBytes a len, here.badUnits a len)
  else
    ((beatsOf a len).foldl (gMeet tag) s, s.gread a len ((s.keyOf w.key).getD 0),
      (List.range (len / 16)).filter fun i => s.chip.gerr.contains ((a + 16 * i) / 64))

/-- R215: the tile of the core whose local memory a window lies in is gated. -/
def windowGated (s : State) (w : Window) : Bool := match w.core with
  | some p => if p / 16 = s.t.num then s.t.gate.isSome else Config.otherGated s.tick (p / 16)
  | none => s.t.gate.isSome

/-- R330: the refusals of a window that is registered, for bytes off to off + len - 1. -/
def windowFault (s : State) (w : Window) (off len : Nat) : Option Nat :=
  if w.dereg = true ∨ w.len < off + len then some stProt
  else if w.loc = true ∧ s.windowGated w = true then some stGated
  else if w.loc = false ∧ (s.keyOf w.key).isNone = true then some stKey
  else none

/-! Operations and their ends (R331, R334, R339, R340). -/

def dropOp (s : State) (id : Nat) : State := { s with chip := { s.chip with ops := s.chip.ops.filter (·.id ≠ id) } }
def setOp (s : State) (o : FabOp) : State :=
  { s with chip := { s.chip with ops := s.chip.ops.map fun x => if x.id = o.id then o else x } }
def findOp (s : State) (id : Nat) : Option FabOp := s.chip.ops.find? (·.id = id)

/-- R328: the origin counter of a window counts a put that completed OK. -/
def countOrigin (s : State) (n : Nat) : State :=
  match s.window n with
  | some w => s.setWindow { w with org := w.org + 1 }
  | none => s

/-- R331: an allowance goes back to those that are held, unless its chip is out of reach. -/
def giveBack (s : State) (o : FabOp) (status : Nat) : State :=
  match o.allow with
  | some a =>
    if status = 0 ∨ status = stData ∨ s.route o.peer = .nowhere then s
    else { s with chip := { s.chip with allows := a :: s.chip.allows } }
  | none => s

/-- R335: the beat of a copy command that waits for an operation gets its answer. -/
def answerCopy (s : State) (lid id : Nat) (r : Nat × List Byte × List Nat) : State :=
  let give (a : Aside) : Aside := if a.stall = .remote ∧ a.ref = id then { a with stall := .none, rsp := some r } else a
  s.onContext lid fun t =>
    { t with c := { t.c with copy := t.c.copy.map fun q => { q with aside := q.aside.map give } } }

/-- R234: an access through the aperture has ended; the writes of TLB entries that waited for it alone are complete. -/
def endAccess (s : State) (id : Nat) : State :=
  let left := s.t.tlbWaits.map fun w => (w.1, w.2.filter (· ≠ id))
  (left.filter (·.2.isEmpty)).foldl (fun t w => t.put (.tlbDone w.1))
    { s with t := { s.t with tlbWaits := left.filter fun w => !w.2.isEmpty } }

/-- The message of a collective, to the core that started it. -/
def collMessage (s : State) (k : Coll) (m : DWord) : State := match k.core with
  | some p => s.put (.message p m)
  | none => s.onContext k.lid fun t => t.post m

/-- R342, R343: a step of a collective finishes; with a status other than OK the collective freezes and posts its message.
The next step is the one after it (log 29). -/
def collFinish (s : State) (id status : Nat) : State :=
  match s.chip.colls.find? (·.id = id) with
  | none => s
  | some k =>
    let k := { k with busy := false, status := status, frozen := status != 0, next := k.next + 1 }
    let s := { s with chip := { s.chip with colls := s.chip.colls.map fun x => if x.id = id then k else x } }
    if status = 0 then s else s.collMessage k (message 4 status k.tag.toNat k.next)

/-- R334: an operation ends: with its counter, its message, or its answer to the engine that made it. -/
def finishOp (s : State) (o : FabOp) (status moved : Nat) (data : List Byte := []) (bad : List Nat := []) : State :=
  let s := (s.dropOp o.id).giveBack o status
  let m := if status = 0 ∨ status = stData then moved else 0
  match o.kind with
  | .put => (if status = 0 then s.countOrigin o.win else s).fabMessage o status m
  | .get | .allow => s.fabMessage o status m
  | .aperture _ => (s.answerCopy o.lid o.id (status, data, bad)).endAccess o.id
  | .coll id => (if status = 0 then s.countOrigin o.win else s).collFinish id status

/-- R331: the allowance that a put from a chip uses is outstanding here. -/
def grantedOp (s : State) (origin : Nat) (a : Allowance) : Option FabOp :=
  s.chip.ops.find? fun o => o.kind == .allow && o.peer == origin && o.win == a.win && o.off == a.off &&
    o.len == a.len && o.tag == a.tag

/-! A put or a get at its target (R330 to R333). -/

/-- The answer of a target: none where it asks for an allowance. -/
structure Served where
  s : State
  status : Option Nat
  moved : Nat := 0
  deriving DecidableEq, Repr

/-- R328: the target counter counts a put. -/
def counted (m : Moved) (w : Window) (tail : Nat) : Served :=
  { s := m.s.setWindow { (m.s.window w.win).getD w with tgt := w.tgt + 1, tail := w.tail + BitVec.ofNat 32 tail }
    status := some (if m.err then stData else 0)
    moved := m.bytes }

/-- R332: the free bytes of a ring window, by the head word that its core has stored. -/
def ringFree (s : State) (w : Window) : Nat :=
  let bytes := match w.core with
    | some p => (List.range 4).map fun i => Config.otherByte s.tick p (w.headw + i)
    | none => (s.ctxOf w.half).mem.readBytes w.headw 4
  let head : Word := BitVec.ofNat 32 (leNat bytes)
  w.len - (w.tail - head).toNat

/-- R332: a put to a ring that R330 does not refuse: from tail mod LEN on, split where it passes the end. -/
def ringPut (s : State) (w : Window) (data : List Byte) (bad : List Nat) (tag : Word) : Served :=
  match s.windowFault w 0 0 with
  | some f => { s := s, status := some f }
  | none =>
    if s.ringFree w < data.length then { s := s, status := some stRing }
    else
      let pos := w.tail.toNat % w.len
      let n := min data.length (w.len - pos)
      let a := s.windowWrite w pos (data.take n) (bad.filter (· < n / 16)) tag
      let b := a.s.windowWrite w 0 (data.drop n) ((bad.filter (n / 16 ≤ ·)).map (· - n / 16)) tag
      counted { s := b.s, err := a.err || b.err, bytes := a.bytes + b.bytes } w data.length

/-- R330, R331: a put of a chip to a window of this chip. One through an aperture (`ap`) reaches plain windows only and
advances no counter (R328, R335). -/
def putAt (s : State) (origin win off : Nat) (data : List Byte) (bad : List Nat) (allow : Option Allowance) (ap : Bool)
    (tag : Word := 0) : Served :=
  match s.window win with
  | none => { s := s, status := some stProt }
  | some w =>
    if w.dereg || (ap && w.kind != 0) then { s := s, status := some stProt }
    else if w.kind = 1 then s.ringPut w data bad tag
    else if w.kind = 2 then
      match allow with
      | none => { s := s, status := none }
      | some a =>
        match s.grantedOp origin a, s.windowFault w (a.off + off) data.length with
        | none, _ => { s := s, status := some stProt }
        | _, some f => { s := s, status := some f }
        | some o, none =>
          if a.len < off + data.length then { s := s, status := some stProt }
          else
            let r := counted (s.windowWrite w (a.off + off) data bad tag) w 0
            { r with s := r.s.finishOp o 0 r.moved }
    else match s.windowFault w off data.length with
      | some f => { s := s, status := some f }
      | none =>
        let m := s.windowWrite w off data bad tag
        if ap then { s := m.s, status := some (if m.err then stData else 0), moved := m.bytes } else counted m w 0

/-- R333: a get from a window of this chip: status, bytes, units not read. -/
def getAt (s : State) (win off len : Nat) (tag : Word := 0) : State × Nat × List Byte × List Nat :=
  match s.window win with
  | none => (s, stProt, [], [])
  | some w =>
    if w.kind ≠ 0 then (s, stProt, [], [])
    else match s.windowFault w off len with
      | some f => (s, f, [], [])
      | none => let r := s.windowRead w off len tag; (r.1, if r.2.2.isEmpty then 0 else stData, r.2.1, r.2.2)

/-- R333: the bytes of a get are written before its message. -/
def finishGet (s : State) (o : FabOp) (status : Nat) (data : List Byte) (bad : List Nat) : State :=
  if (status = 0 ∨ status = stData) ∧ o.kind = .get then
    let t := match o.core with
      | some p => s.sendUnits p o.laddr data bad
      | none => s.onContext o.lid (putUnits o.laddr data bad)
    t.finishOp o status (goodBytes data bad)
  else s.finishOp o status 0 data bad

/-- R151: a window of this core whose local bytes, or whose head word, no agent may touch now. -/
def windowHeld (s : State) (n : Nat) : Bool := match s.window n with
  | some w => (w.loc || w.kind == 1) && w.core.isNone && !s.deliverable w.half
  | none => false

/-- R151, R329: an operation on a window of a chip that is this one must wait. -/
def heldHere (s : State) (peer win : Nat) : Bool := s.route peer == .here && s.windowHeld win

/-- R331, R335: the target of a put has asked for an allowance: the put waits for one; an access through the aperture ends. -/
def awaitAllow (s : State) (o : FabOp) : State :=
  match o.kind with
  | .aperture _ => s.finishOp o stProt 0
  | _ => s.setOp { o with state := .waitAllow }

/-- R329: an operation that names this chip is served here. -/
def serveHere (s : State) (o : FabOp) : State :=
  let read : State := let r := s.getAt o.win o.off o.len (o.tag.zeroExtend 32); r.1.finishGet o r.2.1 r.2.2.1 r.2.2.2
  let write (ap : Bool) : State :=
    let r := s.putAt s.chipNum o.win o.off o.data o.bad o.allow ap (o.tag.zeroExtend 32)
    match r.status with
    | some st => r.s.finishOp o st r.moved
    | none => s.awaitAllow o
  match o.kind with
  | .put | .coll _ => write false
  | .aperture true => write true
  | .get | .aperture false => read
  | .allow =>
    let a : Allowance :=
      { granter := s.chipNum, grantee := s.chipNum, win := o.win, off := o.off, len := o.len, tag := o.tag }
    { s with chip := { s.chip with allows := s.chip.allows ++ [a] } }

/-- R331: the oldest allowance held from a chip for a window. -/
def heldAllow (s : State) (peer win : Nat) : Option Allowance :=
  s.chip.allows.find? fun a => a.granter == peer && a.win == win

/-- R331: a put takes the oldest allowance, where one is held. -/
def takeAllow (s : State) (o : FabOp) : State × FabOp :=
  let puts : Bool := match o.kind with | .put | .coll _ => true | _ => false
  match if puts && o.allow.isNone then s.heldAllow o.peer o.win else none with
  | some a =>
    let o := { o with allow := some a }
    (({ s with chip := { s.chip with allows := s.chip.allows.erase a } } : State).setOp o, o)
  | none => (s, o)

/-- R324: the version that this chip stamps. -/
def version (s : State) : Half := s.chip.tv.extractLsb' 0 16

/-- R324: bytes in packets of at most 256: each with its part of them. -/
def splitPacket (k : Packet) (data : List Byte) : List Packet :=
  (List.range (max 1 ((data.length + 255) / 256))).map fun i =>
    { k with pos := 256 * i, data := (data.drop (256 * i)).take 256 }

/-- R324, R331: the packets of an operation. -/
def packetsOf (s : State) (o : FabOp) : List Packet :=
  let k : Packet :=
    { cls := .put, dest := o.peer, origin := s.chipNum, tv := some s.version, op := o.id, win := o.win, off := o.off, len := o.len }
  match o.kind with
  | .put | .coll _ => splitPacket { k with allow := o.allow, bad := o.bad } o.data
  | .aperture true => splitPacket { k with aperture := true, bad := o.bad } o.data
  | .get | .aperture false => [{ k with cls := .get }]
  | .allow =>
    let a : Allowance :=
      { granter := s.chipNum, grantee := o.peer, win := o.win, off := o.off, len := o.len, tag := o.tag }
    [{ k with cls := .allowance, allow := some a }]

/-- Packets leave by a port. -/
def sendPackets (s : State) (p : Fin 32) (ks : List Packet) : State := ks.foldl (fun t k => t.transmit p (.packet k)) s

/-- R329, R331, R337: an operation starts, or starts again: it is served here, completes PEER_UNREACHABLE, is held for a
draining or DRAINED port, or is sent. -/
def startOp (s : State) (o : FabOp) : State :=
  match s.route o.peer with
  | .nowhere => s.finishOp o stUnreach 0
  | .here => let (t, o) := s.takeAllow o; (t.setOp { o with state := .sent }).serveHere { o with state := .sent }
  | .port p =>
    let (t, o) := s.takeAllow o
    if (t.port p).draining || (t.port p).drained then t.setOp { o with state := .held }
    else (t.setOp { o with state := .sent }).sendPackets p (t.packetsOf o)

/-- A new operation is entered and started. -/
def newOp (s : State) (o : FabOp) : State :=
  let o := { o with id := s.chip.nextOp }
  ({ s with chip := { s.chip with ops := s.chip.ops ++ [o], nextOp := s.chip.nextOp + 1 } } : State).startOp o

/-- R331: waiting puts for which an allowance is held are sent again. -/
def matchAllows (s : State) : State :=
  let waiting := s.chip.ops.filter (·.state = .waitAllow)
  waiting.foldl (fun t o =>
    if (t.heldAllow o.peer o.win).isSome && !t.heldHere o.peer o.win then t.startOp o else t) s

/-- A packet of this chip answers the operation of another. -/
def answer (s : State) (cls : PacketClass) (chip op : Nat) : Packet :=
  { cls := cls, dest := chip, origin := s.chipNum, tv := if cls = .reject then none else some s.version, op := op }

/-- R340: a deregistration is answered, by the way its notice came, once the operations toward the window have ended; an
allowance that this chip has granted is about its own window and is none. -/
def answerOwed (s : State) : State :=
  let free (w : Owed) : Bool := s.chip.ops.all fun o => !(o.kind != .allow && o.peer == w.chip && o.win == w.win)
  let done := s.chip.owed.filter free
  done.foldl (fun t w => t.transmit w.port (.packet { t.answer .deregAnswer w.chip w.op with win := w.win }))
    { s with chip := { s.chip with owed := s.chip.owed.filter fun w => !free w } }

/-- R337: a response is owed in either direction by a port: of an operation sent by it, to a put or a notice that came by it,
or of a request that crosses this chip. An allowance owes none. -/
def owes (s : State) (p : Fin 32) : Bool :=
  s.chip.ops.any (fun o => o.state == .sent && o.kind != .allow && s.route o.peer == .port p) ||
    s.chip.owed.any (·.port == p) || s.chip.arriving.any (·.port == p) ||
    s.chip.crossings.any fun x => x.owes && (x.came == p || x.left == p)

/-- R337: a draining port becomes DRAINED: the peer's marker is here, its frames are acknowledged, and no response is owed. -/
def drainedNow (s : State) (p : Fin 32) : Bool :=
  (s.port p).draining && (s.port p).markerIn && (s.port p).frames.isEmpty && (s.port p).queue.isEmpty && !s.owes p

def refreshPorts (s : State) : State :=
  (List.finRange 32).foldl (fun t p =>
    if t.drainedNow p then t.setPort p { t.port p with draining := false, drained := true } else t) s

/-- What follows the end of an operation. -/
def settle (s : State) : State := s.matchAllows.answerOwed.refreshPorts

end State

/-! Registration (R327, R345). -/

/-- R344: the address operand of a fabric instruction, read without error (R239). -/
def State.fabAddr (s : State) (a : Word) (n align : Nat) (k : Result) : Result :=
  s.check (State.addrTrap a n align 4) <| if s.memBad (offOf a) n then s.eccTrap a 0 n else k

/-- R351: DETAIL 19. -/
def State.operand (s : State) (ok : Bool) (k : Result) : Result := if ok then k else s.trap .illegal 19

/-- R327: the window of the eight words of a descriptor, and the status of wreg: 0, or 1 to 3. -/
def State.describe (s : State) (w : Nat → Nat) : Window × Nat :=
  let loc := bitsOf (w 0) 14 1 == 1
  let base := if loc then w 1 else w 1 + bitsOf (w 2) 0 16 * 2 ^ 32
  let kind := bitsOf (w 0) 12 2
  let x : Window :=
    { win := bitsOf (w 0) 0 12, kind := kind, loc := loc, base := base, key := bitsOf (w 2) 16 10, len := w 3,
      headw := w 4, half := s.half }
  let malformed : Bool :=
    bitsOf (w 0) 15 17 != 0 || bitsOf (w 2) 26 6 != 0 || w 5 != 0 || w 6 != 0 || w 7 != 0 || kind == 3 ||
    base % 64 != 0 || w 3 % 64 != 0 || w 3 == 0 || (loc && w 2 != 0) ||
    (if kind = 1 then w 4 % 4 != 0 || decide (0x9FFFF < w 4 + 3) else w 4 != 0)
  (x,
    if (s.window x.win).isSome then 1
    else if malformed then 2
    else if (if loc then 0xA0000 else s.fitted) < base + w 3 then 3
    else 0)

/-- R345: a window that wreg accepts is registered. -/
def State.register (s : State) (r : Window × Nat) : State :=
  if r.2 = 0 then { s with chip := { s.chip with windows := s.chip.windows ++ [r.1] } } else s

def execWreg (d a : Reg) (s : State) : Result :=
  s.privC <| s.fabAddr (s.reg a) 32 32 <|
    let r := s.describe fun i => (s.memWord (offOf (s.reg a) + 4 * i)).toNat
    (s.register r).result d (BitVec.ofNat 32 r.2)

/-- The words of what the input of a step gives as bytes. -/
def State.inputWord (s : State) (i : Nat) : Nat := leNat ((s.input.data.drop (4 * i)).take 4)

/-- R327, R345: wreg of core `input.n` of this chip, its descriptor in `input.data`. -/
def State.registerByOther (s : State) : State :=
  let r := s.describe s.inputWord
  s.register ({ r.1 with core := some s.input.n }, r.2)

namespace State

/-- R337, R340: the deregistration notices of a window that may go out now go out; the others wait for their port. -/
def sendNotices (s : State) (n : Nat) : State :=
  match s.window n with
  | none => s
  | some w =>
    let goes (j : Nat) : Bool := match s.route j with
      | .port p => !((s.port p).draining || (s.port p).drained)
      | _ => true
    let notice (t : State) (j : Nat) : State := match t.route j with
      | .port p =>
        let k : Packet :=
          { cls := .deregNotice, dest := j, origin := s.chipNum, tv := some t.version, op := t.chip.nextOp, win := n }
        ({ t with chip := { t.chip with nextOp := t.chip.nextOp + 1 } } : State).transmit p (.packet k)
      | _ => t
    (w.tell.filter goes).foldl notice (s.setWindow { w with tell := w.tell.filter fun j => !goes j })

/-- R337 to R340: the ports have changed: every notice that waited goes out where it may. -/
def resendNotices (s : State) : State := (s.chip.windows.map (·.win)).foldl sendNotices s

/-- R340: what wdereg does first: the window stops, its allowances end VOIDED, notices go out, and the waiting puts of this
chip to it end. -/
def beginDereg (s : State) (w : Window) : State :=
  let s := s.setWindow { w with dereg := true, waits := s.reachable, tell := s.reachable }
  let granted := s.chip.ops.filter fun o => o.kind == .allow && o.win == w.win
  let s := granted.foldl (fun t o => t.finishOp o stVoided 0) s
  let mine := s.chip.ops.filter fun o => o.state == .waitAllow && o.peer == s.chipNum && o.win == w.win
  let s := mine.foldl (fun t o => t.finishOp o stProt 0) s
  let here := s.chipNum
  let s := { s with chip := { s.chip with allows := s.chip.allows.filter fun a => !(a.granter == here && a.win == w.win) } }
  s.sendNotices w.win

/-- R345: whether a wdereg that waits has ended: every reachable peer has answered. -/
def deregDone (s : State) (n : Nat) : Bool := match s.window n with
  | some w => w.waits.isEmpty
  | none => true

end State

def execWdereg (d a : Reg) (s : State) : Result :=
  let n := (s.reg a).toNat
  match s.c.pend with
  | .dereg w _ => if s.deregDone w then (s.dropWindow w).result d 0 else s.wait
  | _ =>
    s.operand (decide (n < 4096)) <| s.privC <|
      match s.window n with
      | none => s.result d 1
      | some w =>
        let t := if w.dereg then s else s.beginDereg w
        if t.deregDone n then (t.dropWindow n).result d 0 else t.waitAt (.dereg n s.xc)

/-- R340, R345: wdereg of another core, of window `input.win`: it begins the deregistration, or ends it where every peer has answered. -/
def State.deregByOther (s : State) : State :=
  match s.window s.input.win with
  | none => s
  | some w =>
    let t := if w.dereg then s else s.beginDereg w
    if t.deregDone w.win then t.dropWindow w.win else t

/-- R345: wdereg has waited c.stragg xc: it ends with status 2, unless every peer has answered. The destination stands in the waiting instruction. -/
def execWderegTimeout (s : State) : Result :=
  match s.c.pend, s.c.issue with
  | .dereg w x, some (.wdereg d _, f) =>
    if s.c.stragg = 0 then .next s
    else if s.deregDone w then (({ s with ir := f } : State).dropWindow w).result d 0
    else (({ s with ir := f } : State).advanceTo (x + s.c.stragg.toNat)).result d 2
  | _, _ => .next s

/-! Requests (R329, R346). -/

namespace State

/-- R346: there is no room for one more operation of a core: this one (none) or another. -/
def fabBusy (s : State) (core : Option Nat) (allow : Bool) : Bool :=
  let mine := s.chip.ops.filter fun o => o.core == core && (o.kind == .put || o.kind == .get || o.kind == .allow)
  decide (64 ≤ mine.length ∨ 4096 ≤ s.chip.ops.length) ||
    (allow && decide (1024 ≤ (s.chip.ops.filter (·.kind == .allow)).length))

/-- R329: the request in four words, as an operation of a context. -/
def request (w : Nat → Nat) (kind : FabKind) (lid : Nat) : FabOp :=
  { kind := kind, lid := lid, peer := bitsOf (w 0) 0 16, win := bitsOf (w 0) 16 12, off := w 1, laddr := w 2,
    len := bitsOf (w 3) 0 16, tag := BitVec.ofNat 16 (w 3 / 65536) }

/-- R329, R346: a request that breaks the layout. -/
def badRequest (w : Nat → Nat) (o : FabOp) : Bool :=
  bitsOf (w 0) 28 4 != 0 || o.off % 16 != 0 || o.laddr % 16 != 0 || o.len == 0 || o.len % 16 != 0 ||
    (o.kind == .allow && o.laddr != 0)

/-- R346: the steps that wput, wget and wrtr share, their traps in the order of R40, as R344 says: VIEW and LOCAL_RANGE of LADDR
come before ECC_UNCORR and ENGINE (log 55). `k` starts the operation. -/
def fabRequest (s : State) (d a : Reg) (kind : FabKind) (k : State → FabOp → State) : Result :=
  s.classC <| s.check (addrTrap (s.reg a) 16 16 4) <|
    let w (i : Nat) : Nat := (s.memWord (offOf (s.reg a) + 4 * i)).toNat
    let o := request w kind s.c.lid
    s.check (if kind = .allow then none else addrTrap (BitVec.ofNat 32 o.laddr) o.len 1 6) <|
      if s.memBad (offOf (s.reg a)) 16 then s.eccTrap (s.reg a) 0 16
      else if badRequest w o then s.trap .engine 11
      else if s.fabBusy none (kind == .allow) then s.result d 13
      else ((k s { o with laddr := o.laddr % 2 ^ 28 }).settle).result d 0

end State

/-- R330, R346: a put's bytes are read as it is accepted, after every earlier store of the core. -/
def execWput (d a : Reg) (s : State) : Result :=
  s.fabRequest d a .put fun s o =>
    let r := s.readUnits o.laddr o.len (o.tag.zeroExtend 32)
    r.1.newOp { o with data := s.c.mem.readBytes o.laddr o.len, bad := r.2 }

def execWget (d a : Reg) (s : State) : Result := s.fabRequest d a .get fun s o => s.newOp o

/-- R346: wrtr checks its own window; where it is refused its message is posted at once. -/
def State.allowPut (s : State) (o : FabOp) : State :=
  if (s.window o.win).any fun w => w.kind == 2 && !w.dereg then s.newOp o else s.fabMessage o stProt 0

def execWrtr (d a : Reg) (s : State) : Result := s.fabRequest d a .allow fun s o => s.allowPut o

/-- R328, R329, R346: wput, wget or wrtr of core `input.n` of this chip, as far as it is accepted: the request is the first 16
bytes of `input.data`, the bytes of a put follow it, `input.nums` are their units that could not be read. One to a local window of this
core waits for the end of its exchange phase (R151). -/
def State.requestByOther (s : State) (kind : FabKind) : State :=
  let o := request s.inputWord kind 0
  let o := { o with core := some s.input.n, laddr := o.laddr % 2 ^ 28 }
  if badRequest s.inputWord o || s.fabBusy o.core (kind == .allow) || (kind != .allow && s.heldHere o.peer o.win) then s
  else match kind with
    | .put => (s.newOp { o with data := (s.input.data.drop 16).take o.len, bad := s.input.nums }).settle
    | .allow => (s.allowPut o).settle
    | _ => (s.newOp o).settle

/-! Counters (R347). -/

namespace State

def windowWord (s : State) (n sel : Nat) : Word :=
  match s.window n, sel with
  | some w, 0 => w.org
  | some w, 1 => w.tgt
  | some w, 2 => w.tail
  | some w, _ => BitVec.ofNat 32 (1 + 2 * w.kind + if w.dereg then 8 else 0)
  | none, _ => 0

end State

def execWcnt (d a b : Reg) (s : State) : Result :=
  s.operand (decide ((s.reg a).toNat < 4096 ∧ (s.reg b).toNat < 4)) <| s.classC <|
    s.result d (s.windowWord (s.reg a).toNat (s.reg b).toNat)

/-- R347: wwait on a window's counter: it ends once the condition holds, or a window that was registered is so no more. The
counter of a window that is not registered reads 0. -/
def execWwait (d a b : Reg) (s : State) : Result :=
  let x := s.reg a
  s.operand (x &&& 0xFFFEF000 == 0) <| s.classC <|
    let n := (x.extractLsb' 0 12).toNat
    let v := s.windowWord n (if x.getLsbD 16 then 1 else 0)
    let reg := (s.window n).isSome
    if (0 : Word).sle (v - s.reg b) then s.result d v
    else match s.c.pend with
      | .wwait x was => if was && !reg then s.result d v else s.waitAt (.wwait x reg)
      | _ => s.waitAt (.wwait s.xc reg)

/-- R347: wwait has waited c.stragg xc: it returns the counter. -/
def execWwaitTimeout (s : State) : Result :=
  match s.c.pend, s.c.issue with
  | .wwait x _, some (.wwait d a _, f) =>
    if s.c.stragg = 0 then .next s
    else
      let s := ({ s with ir := f } : State).advanceTo (x + s.c.stragg.toNat)
      s.result d (s.windowWord ((s.reg a).extractLsb' 0 12).toNat (if (s.reg a).getLsbD 16 then 1 else 0))
  | _, _ => .next s

/-! Packets that arrive (R324 to R326, R330 to R334, R340): `input.packet`, at `input.port`. -/

namespace State

/-- R326: a request packet of another topology version. -/
def staleTv (s : State) (k : Packet) : Bool := k.tv != some s.version

/-- A response leaves by the port by which its request came. -/
def respond (s : State) (k : Packet) : State := s.transmit s.input.port (.packet k)

/-- R325, R326: a request is rejected back over the link by which it came; nothing of it stays here. -/
def rejectBack (s : State) (k : Packet) (st : Nat) : State :=
  let arriving := s.chip.arriving.filter fun x => !(x.chip == k.origin && x.op == k.op)
  let crossings := s.chip.crossings.filter fun x => !(x.chip == k.origin && x.op == k.op)
  ({ s with chip := { s.chip with arriving := arriving, crossings := crossings } } : State).respond
    { s.answer .reject k.origin k.op with status := st }

/-- R325, R337: a request in transit goes on by the active table; its way is kept for what answers it. -/
def passRequest (s : State) (k : Packet) : State :=
  match s.route k.dest with
  | .here => s
  | .nowhere => s.rejectBack k stUnreach
  | .port p =>
    if (s.port p).draining || (s.port p).drained then s.rejectBack k stUnreach
    else
      let x : Crossing := { chip := k.origin, op := k.op, came := s.input.port, left := p, owes := k.last && k.cls != .allowance }
      let rest := s.chip.crossings.filter fun y => !(y.chip == k.origin && y.op == k.op)
      ({ s with chip := { s.chip with crossings := x :: rest } } : State).transmit p (.packet k)

/-- R324, R326: a response or a reject in transit goes back along the path of its request. -/
def passBack (s : State) (k : Packet) : State :=
  match s.chip.crossings.find? fun x => x.chip == k.dest && x.op == k.op with
  | none => s
  | some x =>
    let keep (y : Crossing) : Bool := !(k.last && y.chip == k.dest && y.op == k.op)
    (({ s with chip := { s.chip with crossings := s.chip.crossings.filter keep } } : State).transmit x.came (.packet k)).refreshPorts

/-- R317, R324 to R326, R338: the packet at a port: one of this class for this chip is what `f` makes of it. A DRAINED port
carries none. -/
def receive (s : State) (cls : PacketClass) (f : Packet → State) : Result :=
  let k := s.input.packet
  .next <|
    if s.takesPart = false ∨ k.cls ≠ cls ∨ (s.port s.input.port).drained = true then s
    else if cls.request then
      if s.staleTv k then s.rejectBack k stStale else if k.dest = s.chipNum then f k else s.passRequest k
    else if k.dest = s.chipNum then f k else s.passBack k

/-- The operation that a response answers. -/
def answering (s : State) (k : Packet) (f : FabOp → State) : State :=
  match s.findOp k.op with
  | some o => if o.state = .sent then f o else s
  | none => s

end State

/-- R326: a request packet whose version differs is rejected. -/
def execStaleTv (s : State) : Result := s.receive s.input.packet.cls fun _ => s

/-- R325, R326, R337: a packet in transit goes on. -/
def execTransitPacket (s : State) : Result := s.receive s.input.packet.cls fun _ => s

namespace State

/-- R324: the packet joins those of its put that have come: the put so far, none for a packet out of its place. -/
def gather (s : State) (k : Packet) : Option Arriving :=
  let x : Arriving := (s.chip.arriving.find? fun x => x.chip == k.origin && x.op == k.op).getD
    { port := s.input.port, chip := k.origin, op := k.op }
  if x.data.length = k.pos then some { x with data := x.data ++ k.data, bad := k.bad } else none

/-- The put so far, kept or let go. -/
def setArriving (s : State) (x : Arriving) (keep : Bool) : State :=
  let rest := s.chip.arriving.filter fun y => !(y.chip == x.chip && y.op == x.op)
  { s with chip := { s.chip with arriving := if keep then rest ++ [x] else rest } }

end State

/-- R330 to R332: a packet of a put arrives; with the last the put is performed and answered. -/
def execPutArrive (s : State) : Result :=
  s.receive .put fun k =>
    match s.gather k with
    | none => s
    | some x =>
      if k.last = false then s.setArriving x true
      else if s.windowHeld k.win then s
      else
        let r := (s.setArriving x false).putAt k.origin k.win k.off x.data x.bad k.allow k.aperture
        match r.status with
        | some st =>
          (r.s.respond { s.answer .ack k.origin k.op with status := st, len := if st = 0 ∨ st = stData then r.moved else 0 }).settle
        | none => ((s.setArriving x false).respond (s.answer .needAllowance k.origin k.op)).settle

/-- R333: a get of another chip arrives. -/
def execGetArrive (s : State) : Result :=
  s.receive .get fun k =>
    if s.windowHeld k.win then s
    else
      let r := s.getAt k.win k.off k.len
      let a : Packet := { s.answer .readData k.origin k.op with status := r.2.1, len := r.2.2.1.length, bad := r.2.2.2 }
      (State.splitPacket a r.2.2.1).foldl (fun t x => t.respond x) r.1

/-- R333, R334: a packet of the answer to a get of this chip arrives; with the last the bytes are written. -/
def execGetDataArrive (s : State) : Result :=
  s.receive .readData fun k => s.answering k fun o =>
    if (o.kind ≠ .get ∧ o.kind ≠ .aperture false) ∨ o.data.length ≠ k.pos then s
    else if k.last = false then s.setOp { o with data := o.data ++ k.data }
    else if o.kind = .get ∧ o.core = none ∧ s.landable o.lid = false then s
    else (s.finishGet o k.status (o.data ++ k.data) k.bad).settle

/-- R326, R334: the acknowledgement of a put of this chip, with the bytes moved, or the reject of any operation. -/
def execPutAckArrive (s : State) : Result :=
  if s.input.packet.cls = .reject then s.receive .reject fun k => s.answering k fun o => (s.finishOp o k.status 0).settle
  else s.receive .ack fun k => s.answering k fun o =>
    if o.kind = .get ∨ o.kind = .aperture false ∨ o.kind = .allow then s else (s.finishOp o k.status k.len).settle

/-- R331: the target of a put asks for an allowance. -/
def execRendezvousAnswer (s : State) : Result :=
  s.receive .needAllowance fun k => s.answering k fun o => (s.awaitAllow o).settle

/-- R331: an allowance of another chip arrives and is held. -/
def execAllowanceArrive (s : State) : Result :=
  s.receive .allowance fun k =>
    ({ s with chip := { s.chip with allows := s.chip.allows ++ k.allow.toList } } : State).settle

/-- R340: a chip deregisters a window: waiting puts to it end, allowances for it are discarded, and the answer follows the
operations toward it. -/
def execDeregNoticeArrive (s : State) : Result :=
  s.receive .deregNotice fun k =>
    let toward := s.chip.ops.filter fun o => o.state == .waitAllow && o.peer == k.origin && o.win == k.win
    let s := toward.foldl (fun t o => t.finishOp o stProt 0) s
    let keep (a : Allowance) : Bool := !(a.granter == k.origin && a.win == k.win)
    let owed : Owed := { chip := k.origin, win := k.win, port := s.input.port, op := k.op }
    ({ s with chip := { s.chip with allows := s.chip.allows.filter keep, owed := s.chip.owed ++ [owed] } } : State).settle

/-- R340: the answer of a chip for a window. -/
def execDeregAnswerArrive (s : State) : Result :=
  s.receive .deregAnswer fun k => match s.window k.win with
    | some w => s.setWindow { w with waits := w.waits.filter (· ≠ k.origin) }
    | none => s

end Sys2Proof.Machine
end

