-- ==== Sys2Proof/Machine/Links.lean ====
section
/-! DEFINITION. Machine/Links.lean: fibre ports and links, FEC changes, draining, routing tables and commits (R317 to R326,
R337 to R339, R348, R350). -/

namespace Sys2Proof.Machine

/-- R323: the FEC change that another core began has had no switch within 60 µs. -/
def FecReq.late (r : FecReq) (xc : Nat) : Bool := r.other.any fun x => decide (x + 60000 ≤ xc)

/-- When a request came, and the core that made it (R348). -/
def FabReq.xc : FabReq → Nat
  | .mine x _ | .stage x _ _ | .commit x _ _ => x

def FabReq.core : FabReq → Nat
  | .mine _ c | .stage _ c _ | .commit _ c _ => c

namespace State

/-! Routing tables (R325, R338, R339, R348). -/

/-- The ports that a table routes to. -/
def routedPorts (r : Routing) : List (Fin 32) := (List.finRange 32).filter fun p => r.routes.contains p.val

/-- R325: a table is malformed. -/
def badTable (s : State) (ver : Nat) (n : Nat) (routes : List Nat) : Bool :=
  bitsOf ver 16 16 != 0 || n == 0 || decide (4096 < n) || routes.any (fun x => decide (32 ≤ x ∧ x < 0xFE)) ||
    (List.range n).filter (fun j => routes[j]? == some 0xFE) != [s.chipNum]

/-- R338: the table that tvstage has staged. -/
def stagedTable (s : State) : Option Routing := if s.chip.staged then s.chip.inactive else none

/-- R338: every marker has arrived. -/
def commitReady (s : State) (v : Half) : Bool := match s.stagedTable with
  | some r => (routedPorts r).all fun p => (s.port p).commitIn == some v
  | none => false

/-- R338, R339: the banks swap, and the items in flight meet their fates. -/
def commit (s : State) : State :=
  match s.stagedTable with
  | none => s
  | some r =>
    let s := { s with chip := { s.chip with
      active := some r, inactive := s.chip.active, staged := false, tv := r.ver.zeroExtend 32, crossings := [] } }
    let clear (t : State) (p : Fin 32) : State :=
      t.setPort p { t.port p with
        draining := false, drained := false, markerIn := false, commitIn := none, clearXc := t.xc }
    let s := (routedPorts r).foldl clear s
    let lost (t : State) (peer : Nat) : Bool := t.route peer == .nowhere
    let void := s.chip.ops.filter fun o => o.kind == .allow && o.state != .held && lost s o.peer
    let s := void.foldl (fun t o => t.finishOp o stVoided 0) s
    let waiting := s.chip.ops.filter fun o => o.state == .waitAllow && lost s o.peer
    let s := waiting.foldl (fun t o => t.finishOp o stUnreach 0) s
    let held := s.chip.ops.filter (·.state == .held)
    let s := held.foldl startOp s
    let keep (a : Allowance) : Bool := !lost s a.granter
    let near (w : Window) : Window :=
      { w with waits := w.waits.filter fun j => !lost s j, tell := w.tell.filter fun j => !lost s j }
    ({ s with chip := { s.chip with
      allows := s.chip.allows.filter keep, windows := s.chip.windows.map near } } : State).resendNotices.settle

/-- R338: commit markers leave by the ports of the staged table. -/
def sendMarkers (s : State) (r : Routing) : State :=
  (routedPorts r).foldl (fun t p => t.transmit p (.commitMarker r.ver)) s

/-- R348: the status of a tvstage of this version, number of chips and table, and the state that it leaves. -/
def stageTable (s : State) (ver n : Nat) (routes : List Nat) : State × Nat :=
  if s.badTable ver n routes then (s, 1)
  else if BitVec.ofNat 16 ver = s.chip.tv.extractLsb' 0 16 then (s, 2)
  else
    ({ s with chip := { s.chip with
        inactive := some { ver := BitVec.ofNat 16 ver, n := n, routes := routes }, staged := true } }, 0)

/-- R338: the first three steps of tvcommit: the table that is to be committed, or the status. -/
def commitTable (s : State) (v : Half) : Except Nat Routing :=
  match s.stagedTable with
  | none => .error 1
  | some r =>
    if r.ver ≠ v then .error 1
    else if ((List.finRange 32).any fun p => (s.port p).lock != .dark && !(s.port p).drained) ||
        (routedPorts r).any fun p => (s.port p).lock != .locked then .error 2
    else .ok r

/-! Requests behind a tvcommit that waits (R348): served in the order of their arrival, those of one xc by ascending core. -/

/-- A tvcommit of the chip waits. -/
def commitWaits (s : State) : Bool := s.chip.commitBy.isSome || match s.c.pend with
  | .commit _ _ => true
  | _ => false

/-- A request takes its place: behind those of earlier xc, and those of the same xc and a lower core. -/
def queueLater (s : State) (r : FabReq) : State :=
  let before (x : FabReq) : Bool := decide (x.xc < r.xc ∨ x.xc = r.xc ∧ x.core ≤ r.core)
  let l := s.chip.later
  { s with chip := { s.chip with later := l.filter before ++ r :: l.filter fun x => !before x } }

/-- This core waits at tvstage or tvcommit for its turn. -/
def waitsTurn (s : State) : Bool := s.c.stall && match s.c.issue with
  | some (.tvstage _ _, _) | some (.tvcommit _ _, _) => true
  | _ => false

/-- A request of another core is served. -/
def serveReq (s : State) : FabReq → State
  | .mine .. => s
  | .stage _ _ bs =>
    (s.stageTable (leNat (bs.take 4)) (leNat ((bs.drop 4).take 4)) ((bs.drop 8).take (leNat ((bs.drop 4).take 4)) |>.map (·.toNat))).1
  | .commit _ _ v =>
    let s := s.refreshPorts
    match s.commitTable v with
    | .error _ => s
    | .ok r =>
      let t := s.sendMarkers r
      if t.commitReady v then t.commit else { t with chip := { t.chip with commitBy := some (v, t.xc) } }

/-- What waits is served until a tvcommit waits again, or this core's turn has come; n bounds the number. -/
def serveLater : Nat → State → State
  | 0, s => s
  | n + 1, s =>
    match s.chip.later with
    | [] => s
    | r :: rest =>
      let mine : Bool := match r with
        | .mine .. => s.waitsTurn
        | _ => false
      if s.commitWaits || mine then s
      else serveLater n (({ s with chip := { s.chip with later := rest } } : State).serveReq r)

def serveAll (s : State) : State := serveLater s.chip.later.length s

/-- This core's tvstage or tvcommit runs when its turn has come, and waits for it otherwise. -/
def inTurn (s : State) (k : State → Result) : Result :=
  let mine (r : FabReq) : Bool := match r with
    | .mine .. => true
    | _ => false
  let first : Bool := match s.chip.later with
    | [] => true
    | r :: _ => mine r
  if s.chip.commitBy.isNone && first then k { s with chip := { s.chip with later := s.chip.later.filter fun r => !mine r } }
  else ((if s.chip.later.any mine then s else s.queueLater (.mine s.xc s.coreId))).wait

/-- R348: a result of this core's tvstage or tvcommit; what waited behind it is served. -/
def turnOver (s : State) (d : Reg) (x : Nat) : Result := s.serveAll.result d (BitVec.ofNat 32 x)

/-- This core's tvcommit has waited and ends. -/
def endCommit (s : State) (d : Reg) (x : Nat) : Result :=
  ({ s with c := { s.c with pend := .none } } : State).turnOver d x

/-- R348: tvstage of core `input.n` (the table in `input.data`), tvcommit of core `input.n` (the version in `input.value`). -/
def stageByOther (s : State) : State := (s.queueLater (.stage s.xc s.input.n s.input.data)).serveAll
def commitByOther (s : State) : State :=
  if s.input.value.toNat < 65536 then (s.queueLater (.commit s.xc s.input.n (s.input.value.extractLsb' 0 16))).serveAll else s

/-- R338: another core's tvcommit has every marker. -/
def commitOther (s : State) : State :=
  match s.chip.commitBy with
  | some (v, _) =>
    if s.commitReady v then ({ s.commit with chip := { s.commit.chip with commitBy := none } } : State).serveAll else s
  | none => s

end State

def execTvget (d a : Reg) (s : State) : Result :=
  s.operand (decide ((s.reg a).toNat < 2)) <| s.classC <|
    let low : Word := if s.reg a = 0 then s.chip.tv &&& 0xFFFF else match s.stagedTable with
      | some r => r.ver.zeroExtend 32
      | none => 0
    s.result d (if s.reg a = 0 ∧ s.stagedTable.isSome = true then low ||| 0x10000 else low)

/-- R348: tvstage: the extent of 8 + N bytes is checked first, whatever N is. -/
def execTvstage (d a : Reg) (s : State) : Result :=
  let x := s.reg a
  s.privC <| s.fabAddr x 8 4 <|
    let ver := (s.memWord (offOf x)).toNat
    let n := (s.memWord (offOf x + 4)).toNat
    s.fabAddr x (8 + n) 4 <| s.inTurn fun s =>
      let r := s.stageTable ver n ((s.c.mem.readBytes (offOf x + 8) n).map (·.toNat))
      r.1.turnOver d r.2

/-- R338, R348: tvcommit. -/
def execTvcommit (d a : Reg) (s : State) : Result :=
  match s.c.pend with
  | .commit v _ => if s.commitReady v then s.commit.endCommit d 0 else s.wait
  | _ =>
    s.operand (decide ((s.reg a).toNat < 65536)) <| s.privC <| s.inTurn fun s =>
      let v := (s.reg a).extractLsb' 0 16
      let s := s.refreshPorts
      match s.commitTable v with
      | .error st => s.turnOver d st
      | .ok r =>
        let t := s.sendMarkers r
        if t.commitReady v then t.commit.turnOver d 0 else t.waitAt (.commit v s.xc)

/-- R338: a marker is missing, or carries another version, 1 ms (1,000,000 xc) after the tvcommit of this core or of another:
status 3, and nothing changes. -/
def execCommitTimeout (s : State) : Result :=
  match s.c.pend, s.c.issue with
  | .commit v x, some (.tvcommit d _, f) =>
    if s.commitReady v then ({ s with ir := f } : State).commit.endCommit d 0
    else (({ s with ir := f } : State).advanceTo (x + 1000000)).endCommit d 3
  | _, _ => match s.chip.commitBy with
    | some (_, x) =>
      let t := s.advanceTo (x + 1000000)
      .next ({ t with chip := { t.chip with commitBy := none } } : State).serveAll
    | none => .next s

/-- R338: a commit marker of version `input.value` arrives at `input.port`; a repeated one is answered with this chip's. -/
def execCommitMarkerArrive (s : State) : Result :=
  let p := s.input.port
  let v := s.input.value.extractLsb' 0 16
  let waits : Bool := match s.c.pend with
    | .commit w _ => w == v
    | _ => s.chip.commitBy.any (·.1 == v)
  let again := (waits && (s.port p).commitIn == some v) || s.chip.tv.extractLsb' 0 16 == v
  let s := if again then s.transmit p (.commitMarker v) else s
  .next (if s.chip.tv.extractLsb' 0 16 = v then s else (s.setPort p { s.port p with commitIn := some v }).commitOther)

/-! drain (R337, R350). -/

namespace State

/-- The ports of a mask. -/
def maskPorts (x : Word) : List (Fin 32) := (List.finRange 32).filter fun p => x.getLsbD p.val

/-- R337: a port sends its drain marker, in a frame of its own. -/
def beginDrain (s : State) (p : Fin 32) : State :=
  if (s.port p).draining || (s.port p).drained then s
  else
    let t := s.transmit p .drainMarker
    t.setPort p { t.port p with draining := true }

/-- R323: the boundary of a request: the first even frame at least 256 after the present count. -/
def fecBoundary (count : Nat) : Nat := (count + 256 + 1) / 2 * 2

/-- R323: a port requests an FEC mode with the next sequence number; `by_` is the xc in which another core began the change. -/
def beginFec (mode : Nat) (by_ : Option Nat) (s : State) (p : Fin 32) : State :=
  let x := s.port p
  let r : FecReq := { n := x.fecSeq + 1, mode := mode, f := fecBoundary x.count, other := by_ }
  (s.setPort p { x with fecSeq := r.n, fecReq := some r }).control p (.fecReq p.val r.n r.mode r.f)

/-- R319, R350: a port retrains; one without light stays DARK. -/
def beginRetrain (s : State) (p : Fin 32) : State :=
  if (s.port p).lock = .dark then s else s.setPort p { s.port p with lock := .locking, retrain := true }

/-- R350: UNDRAIN. -/
def undrainPort (s : State) (p : Fin 32) : State :=
  s.setPort p { s.port p with
    draining := false, drained := false, markerIn := false
    clearXc := if (s.port p).draining || (s.port p).drained then s.xc else (s.port p).clearXc }

/-- R350: the operations held in the engine are sent on the active table, and so are the notices that waited (R337). -/
def resendHeld (s : State) : State := ((s.chip.ops.filter (·.state == .held)).foldl startOp s).resendNotices.settle

/-- R350: DRAIN waits until every port is DRAINED. -/
def drainWait (s : State) (d : Reg) (ps : List (Fin 32)) (first : Bool) : Result :=
  let s := s.refreshPorts
  if ps.all fun p => (s.port p).drained then s.result d 0 else if first then s.waitAt (.drain s.xc) else s.wait

/-- R350: FEC waits until every port has switched. -/
def fecWait (s : State) (d : Reg) (ps : List (Fin 32)) (first : Bool) : Result :=
  if ps.all fun p => (s.port p).fecReq.isNone then s.result d 0
  else if first then s.waitAt (.fec (ps.map (·.val)) s.xc) else s.wait

/-- R350: RETRAIN waits until no port is LOCKING. -/
def retrainWait (s : State) (d : Reg) (ps : List (Fin 32)) (first : Bool) : Result :=
  if ps.all fun p => (s.port p).lock != .locking then
    s.result d (if ps.all fun p => (s.port p).lock == .locked then 0 else 1)
  else if first then s.waitAt (.retrain (ps.map (·.val)) s.xc) else s.wait

/-- R350: drain with the operation in s[b] bits 3:0 on the ports of s[a]. -/
def drainOp (s : State) (d a b : Reg) : Result :=
  let op := bitsOf (s.reg b).toNat 0 4
  let mode := bitsOf (s.reg b).toNat 4 2
  let ps := maskPorts (s.reg a)
  let off : Bool := ps.any fun p => (s.port p).lock == .dark || (s.port p).lock == .failed
  s.operand (decide ((s.reg b).toNat < 64 ∧ op ≤ 3 ∧ (op = 1 → mode ≤ 2))) <| s.privC <|
    if ps.isEmpty then s.result d 0
    else match op with
      | 0 => match s.c.pend with
        | .drain _ => s.drainWait d ps false
        | _ => if off then s.result d 1 else (ps.foldl beginDrain s).drainWait d ps true
      | 1 => match s.c.pend with
        | .fec _ _ => s.fecWait d ps false
        | _ => if off then s.result d 1 else (ps.foldl (beginFec mode none) s).fecWait d ps true
      | 2 => match s.c.pend with
        | .retrain _ _ => s.retrainWait d ps false
        | _ => (ps.foldl beginRetrain s).retrainWait d ps true
      | _ => ((ps.foldl undrainPort s).resendHeld).result d 0

end State

def execDrain (d a b : Reg) (s : State) : Result := s.drainOp d a b

/-- R323, R350: the operation FEC of drain. -/
def execDrainFec (d a b : Reg) (s : State) : Result := s.drainOp d a b

/-- R320, R350: the operation RETRAIN of drain. -/
def execDrainRetrain (d a b : Reg) (s : State) : Result := s.drainOp d a b

/-- R350: the operation UNDRAIN of drain. -/
def execUndrain (d a b : Reg) (s : State) : Result := s.drainOp d a b

namespace State

/-- The destination of a drain that waits, and its ports. -/
def drainDest (s : State) : Option (Reg × List (Fin 32) × Fetched) :=
  match s.c.issue with
  | some (.drain d a _, f) | some (.drainFec d a _, f) | some (.drainRetrain d a _, f) => some (d, maskPorts (s.reg a), f)
  | _ => none

/-- R350: what a drain of another core does to the ports: its mask is `input.value`, its operation `input.n`, its FEC mode
`input.status`. -/
def drainByOther (s : State) : State :=
  let ps := maskPorts s.input.value
  let off : Bool := ps.any fun p => (s.port p).lock == .dark || (s.port p).lock == .failed
  match s.input.n with
  | 0 => if off then s else (ps.foldl beginDrain s).refreshPorts
  | 1 => if off || decide (2 < s.input.status) then s else ps.foldl (beginFec s.input.status (some s.xc)) s
  | 2 => ps.foldl beginRetrain s
  | 3 => if ps.isEmpty then s else (ps.foldl undrainPort s).resendHeld
  | _ => s

end State

/-- R350: a DRAIN ends with status 2 after 1 ms, unless every port is DRAINED by then; its ports stay draining. -/
def execDrainTimeout (s : State) : Result :=
  match s.c.pend, s.drainDest with
  | .drain x, some (d, ps, f) =>
    if ps.all fun p => (s.refreshPorts.port p).drained then ({ s.refreshPorts with ir := f } : State).result d 0
    else (({ s with ir := f } : State).advanceTo (x + 1000000)).result d 2
  | _, _ => .next s

namespace State

/-- R323: the FEC changes of other cores that have had no switch within 60 µs end. -/
def endLateFec (s : State) : State :=
  (List.finRange 32).foldl (fun t p =>
    if (t.port p).fecReq.any (·.late t.xc) then t.setPort p { t.port p with fecReq := none } else t) s

end State

/-- R323: no switch within 60 µs ends the FEC change with status 3; where every port has switched it ends with 0. The changes that
other cores have begun end likewise. -/
def execFecChangeTimeout (s : State) : Result :=
  match s.c.pend, s.drainDest with
  | .fec ps x, some (d, _, f) =>
    let stop (t : State) (p : Fin 32) : State :=
      if ps.contains p.val then t.setPort p { t.port p with fecReq := none } else t
    if (List.finRange 32).all fun p => !ps.contains p.val || (s.port p).fecReq.isNone then ({ s with ir := f } : State).result d 0
    else (({ (List.finRange 32).foldl stop s with ir := f } : State).advanceTo (x + 60000)).result d 3
  | _, _ => .next s.endLateFec

/-- R337: the peer's drain marker arrives at `input.port`: no more of a put comes by it. -/
def execDrainMarkerArrive (s : State) : Result :=
  let p := s.input.port
  let arriving := s.chip.arriving.filter (·.port ≠ p)
  .next (({ s with chip := { s.chip with arriving := arriving } } : State).setPort p { s.port p with markerIn := true }).refreshPorts

/-! lnkstat (R350). -/

def Lock.code : Lock → Nat
  | .dark => 0
  | .locking => 1
  | .locked => 2
  | .failed => 3

namespace State

/-- R317: the lanes of a port whose fibre grant is lit. -/
def litLanes (s : State) (p : Nat) : Nat :=
  packBits 1 ((List.range 8).map fun j =>
    if s.chip.grants.any fun g => g.id == 0x8000 + 8 * p + j && (g.state == .lit || g.state == .degraded || g.state == .stepping)
    then 1 else 0)

def linkWord (s : State) (p : Fin 32) (sel : Nat) : Word :=
  let x := s.port p
  let b (v : Bool) (n : Nat) : Nat := if v then 2 ^ n else 0
  if sel = 0 then
    BitVec.ofNat 32 (
      (if x.lock = .locked then x.peerChip % 65536 * 65536 + x.peerPort % 256 * 256 else 0xFFFFFF00) +
      b s.chip.burst 7 + b x.fecReq.isSome 6 + x.fec % 4 * 16 + b x.retrain 3 + b x.drained 2 + x.lock.code)
  else BitVec.ofNat 32 (min 0xFFFF x.reverts * 65536 + (if s.chip.burst then 0 else x.pver % 256) * 256 + s.litLanes p.val)

end State

def execLnkstat (d a : Reg) (s : State) : Result :=
  let x := s.reg a
  s.operand (x &&& 0xFFFFFEE0 == 0) <| s.classC <|
    s.result d (s.refreshPorts.linkWord (x.extractLsb' 0 5).toFin (bitsOf x.toNat 8 2))

/-! Lock states (R318 to R321). -/

namespace State

/-- R321: a frame that a relock discards carried a request: it completes PEER_UNREACHABLE at its origin. -/
def loseLine (s : State) : Line → State
  | .packet k =>
    if k.cls.request = false then s
    else if k.origin = s.chipNum then match s.findOp k.op with
      | some o => s.finishOp o stUnreach 0
      | none => s
    else s.passBack { s.answer .reject k.origin k.op with status := stUnreach }
  | .drainMarker | .commitMarker _ => s

/-- R321: the answers that the old peer of a port owes are lost with the frames that it holds: operations sent by the port, and those
of other chips that crossed this one by it, complete PEER_UNREACHABLE. -/
def loseAnswers (s : State) (p : Fin 32) : State :=
  let mine := s.chip.ops.filter fun o => o.state == .sent && o.kind != .allow && s.route o.peer == .port p
  let theirs := s.chip.crossings.filter fun x => x.owes && x.left == p && x.came != p
  theirs.foldl (fun t x => t.passBack { t.answer .reject x.chip x.op with status := stUnreach })
    (mine.foldl (fun t o => t.finishOp o stUnreach 0) s)

/-- R321, R322: the frames in the retransmission buffer are sent again. -/
def resend (s : State) (p : Fin 32) : State :=
  let x := s.port p
  x.frames.foldl (fun t f => t.put (.frame p.val f.seq f.line)) (s.setPort p (x.sendFrames x.frames.length))

/-- R321, R338: a port locks to a peer. With another peer than before, held frames are discarded: where the port was not
DRAINED their operations complete PEER_UNREACHABLE and it stands DRAINED; a waiting tvcommit sends its marker again. With
the same peer the held frames are sent again. What the old peer has begun and what is owed to it ends with it: its puts that have
not come whole, the deregistration answers owed to it, and the requests that cross this chip by the port. An operation whose answer
the old peer still owes ends too, since its frames are discarded there. -/
def lockTo (s : State) (p : Fin 32) (peer peerPort pver : Nat) : State :=
  let x := s.port p
  let y := { x with lock := .locked, peerChip := peer, peerPort := peerPort, hadPeer := true, retrain := false, pver := pver }
  if x.hadPeer && (x.peerChip != peer || x.peerPort != peerPort) then
    let lost := x.frames.map (·.line) ++ x.queue
    let s := s.setPort p { y with
      frames := [], queue := [], draining := false, drained := true, markerIn := false, commitIn := none, txSeq := 0, rxSeq := 0 }
    let s := (lost.foldl loseLine s).loseAnswers p
    let s := ({ s with chip := { s.chip with
      arriving := s.chip.arriving.filter (·.port ≠ p), owed := s.chip.owed.filter (·.port ≠ p)
      crossings := s.chip.crossings.filter fun y => !(y.came == p || y.left == p) } } : State).settle
    match s.c.pend, s.stagedTable with
    | .commit v _, some r => if (routedPorts r).contains p then s.transmit p (.commitMarker v) else s
    | _, some r => match s.chip.commitBy with
      | some (v, _) => if (routedPorts r).contains p then s.transmit p (.commitMarker v) else s
      | none => s
    | _, none => s
  else (s.setPort p y).resend p

end State

/-- R319: light is detected on a DARK port. -/
def execLightDetect (s : State) : Result :=
  let x := s.port s.input.port
  .next (if x.lock = .dark then s.setPort s.input.port { x with lock := .locking } else s)

/-- R318, R319: in burst mode the header of a burst names chip `input.chip` and port `input.peerPort`: a LOCKING port reaches lock
with it, and a LOCKED one, whose receiver keeps no state of its peer, goes over to another peer; in continuous mode bring-up firmware
alone locks a port (R320). -/
def execLockAcquired (s : State) : Result :=
  let x := s.port s.input.port
  let other := x.peerChip != s.input.chip || x.peerPort != s.input.peerPort
  .next (if s.chip.burst = true ∧ (x.lock = .locking ∨ (x.lock = .locked ∧ other = true)) then s.lockTo s.input.port s.input.chip s.input.peerPort x.pver else s)

/-- R319: no lock within 60 µs. -/
def execLockTimeout (s : State) : Result :=
  let x := s.port s.input.port
  .next (if x.lock = .locking then s.setPort s.input.port { x with lock := .dark, retrain := false } else s)

/-- R319: in burst mode, no valid burst for 2 µs. -/
def execBurstLoss (s : State) : Result :=
  let x := s.port s.input.port
  .next (if s.chip.burst = true ∧ x.lock = .locked then s.setPort s.input.port { x with lock := .dark } else s)

/-- R319: in continuous mode, loss of lock is a retrain. -/
def execLossOfLock (s : State) : Result :=
  let x := s.port s.input.port
  .next (if s.chip.burst = false ∧ x.lock = .locked then
    s.setPort s.input.port { x with lock := .locking, retrain := true } else s)

/-- R318, R322: a transmitter with nothing to send sends an idle burst, whatever the state of its port; in continuous mode it
sends idle frames, `input.n` after the first (log 35). The frame counter counts them. -/
def execIdleBurst (s : State) : Result :=
  let p := s.input.port
  .next (if s.chip.burst then s.control p (.idleBurst p.val) else s.setPort p ((s.port p).sendFrames (1 + s.input.n)))

/-- R295, R304, R320: firmware measures losses, those of some sources (`input.losses`). -/
def State.measureLoss (s : State) (of : Nat → Bool) : State :=
  { s with chip := { s.chip with losses := s.input.losses.filter (fun e => of e.1) ++ s.chip.losses } }

/-- R320: the microcontroller, where a verified image of it runs, `input.nums` holds the lowest and highest versions of this side and of the
peer, `input.flag` says that the peer's firmware verified. A port that fails freezes the collectives (R343). -/
def execLinkBringup (s : State) : Result :=
  let p := s.input.port
  let n (i : Nat) : Nat := s.input.nums.getD i 0
  let v := min (n 1) (n 3)
  if s.chip.burst = false ∧ (s.port p).lock = .locking ∧ s.chip.boot.micro = true then
    if s.input.flag = true ∧ max (n 0) (n 2) ≤ v then .next ((s.measureLoss (· = 144 + p.val)).lockTo p s.input.chip s.input.peerPort v)
    else
      let s := s.setPort p { s.port p with lock := .failed, retrain := false }
      let colls := s.chip.colls.map fun k => { k with void := true }
      .next { s with chip := { s.chip with colls := colls } }
  else .next s

/-! Frames and FEC (R321 to R323). -/

namespace State

/-- R323: the window of a port ends without a frame under the new code: the old code stays, and a record is written. -/
def revertFec (s : State) (p : Fin 32) : State :=
  let x := s.port p
  match x.fecWin with
  | some w =>
    if w.closed then s
    else
      let s := s.setPort p { x with fecWin := some { w with closed := true }, reverts := min 0xFFFF (x.reverts + 1) }
      s.logRecord (0x1400 + p.val) 5 (w.n.zeroExtend 32) (BitVec.ofNat 32 x.rxFec) 0 0
  | none => s

/-- R323: frame n of the peer lies behind the window of a port, or in it. -/
def windowOver (s : State) (p : Fin 32) (n : Nat) : Bool := (s.port p).fecWin.any fun w => decide (w.f + 1023 < n)
def inWindow (s : State) (p : Fin 32) (n : Nat) : Bool :=
  (s.port p).fecWin.any fun w => !w.closed && decide (w.f ≤ n ∧ n ≤ w.f + 1023)

/-- R323: the first frame of the window that checks only under the new code fixes it. -/
def fixCode (s : State) (p : Fin 32) : State :=
  let x := s.port p
  match x.fecWin with
  | some w => s.setPort p { x with rxFec := w.mode, fecWin := some { w with closed := true } }
  | none => s

/-- R321: a good frame is taken where it is the next one; the last good one is acknowledged. -/
def takeFrame (s : State) (p : Fin 32) (good : Bool) : State :=
  let x := s.port p
  let y := if good = true ∧ s.input.seq = x.rxSeq then { x with rxSeq := x.rxSeq + 1 } else x
  if y.rxSeq = 0 then s.setPort p y else (s.setPort p y).control p (.frameAck p.val (y.rxSeq - 1))

end State

/-- R321, R323: frame `input.n` of the peer, with sequence number `input.seq`, arrives: `input.flag` says that it checks under
the code in force, `input.flag2` that it checks only under the new code, which counts in the window. -/
def execFrameReceive (s : State) : Result :=
  let p := s.input.port
  if (s.port p).lock = .locked then
    let s := if s.windowOver p s.input.n then s.revertFec p else s
    let new := s.input.flag2 && s.inWindow p s.input.n
    .next ((if new then s.fixCode p else s).takeFrame p (s.input.flag || new))
  else .next s

/-- R321: frames up to `input.seq` are acknowledged and leave the buffer, which what waits fills again; where the peer has met a
bad frame (`input.flag`) those after it are sent again. -/
def execFrameAck (s : State) : Result :=
  let p := s.input.port
  let x := s.port p
  let s := s.setPort p { x with frames := x.frames.filter fun f => s.input.seq < f.seq }
  .next ((if s.input.flag then s.resend p else s).pump p).refreshPorts

/-- R323: a request with sequence number `input.seq`, mode `input.status` and boundary `input.off`: acknowledged each time;
the first one opens a window, and ends one that is still open. -/
def execFecRequest (s : State) : Result :=
  let p := s.input.port
  let n : Byte := BitVec.ofNat 8 s.input.seq
  let known : Bool := (s.port p).fecWin.any fun w => w.n == n
  let s := if known then s else
    let t := s.revertFec p
    t.setPort p { t.port p with fecWin := some { n := n, mode := s.input.status, f := s.input.off } }
  .next (s.control p (.fecAck p.val n s.input.off))

/-- R323: the acknowledgement of request `input.seq`: the sender is to switch at the first even frame at or after F that it
sends, or starts again where frame F + 1,023 has been sent. -/
def execFecAck (s : State) : Result :=
  let p := s.input.port
  let x := s.port p
  match x.fecReq with
  | some r =>
    if r.n ≠ BitVec.ofNat 8 s.input.seq ∨ r.closed = true then .next s
    else if r.late s.xc then .next (s.setPort p { x with fecReq := none })
    else if x.count ≤ r.f + 1023 then .next (s.setPort p { x with fecReq := some { r with closed := true } })
    else .next (State.beginFec r.mode r.other s p)
  | none => .next s

/-- R323: the sender repeats a request every 2 µs until it is acknowledged. -/
def execFecRequestRepeat (s : State) : Result :=
  match (s.port s.input.port).fecReq with
  | some r => .next (if r.closed then s else s.control s.input.port (.fecReq s.input.port.val r.n r.mode r.f))
  | none => .next s

/-- R323: frame `input.n` of the peer lies behind the window, and none in it has checked under the new code. -/
def execFecRevert (s : State) : Result :=
  .next (if s.windowOver s.input.port s.input.n then s.revertFec s.input.port else s)

end Sys2Proof.Machine
end

