-- ==== Sys2Proof/Machine/Copy.lean ====
section
/-! DEFINITION. Machine/Copy.lean: the copy engine, translation and the update units (R219 to R235, R239, R247 to R258). -/

namespace Sys2Proof.Machine

/-! Requests (R248, R249, R252). -/

namespace State

/-- R254: the four words of a request, from s[a] on. -/
def requestCmd (s : State) (a : Reg) : CopyCmd :=
  let w (i : Nat) : Word := if h : a.val + i < 32 then s.reg ⟨a.val + i, h⟩ else 0
  { w0 := w 0, w1 := w 1, w2 := w 2, w3 := w 3, rb := s.c.e0, imgeo := s.c.e1, pad := s.c.e2.extractLsb' 0 32,
    ecfg := s.c.ecfg, svc := s.svc, asid := s.c.asid }

end State

namespace CopyCmd

/-- R253: the geometry of IM2COL. -/
def geoW (q : CopyCmd) : Nat := bitsOf q.imgeo.toNat 0 12
def geoH (q : CopyCmd) : Nat := bitsOf q.imgeo.toNat 16 12
def geoN (q : CopyCmd) : Nat := bitsOf q.imgeo.toNat 32 9
def geoOk (q : CopyCmd) : Bool :=
  decide (1 ≤ q.geoW ∧ q.geoW ≤ 2048 ∧ 1 ≤ q.geoH ∧ q.geoH ≤ 2048 ∧ 1 ≤ q.geoN ∧ q.geoN ≤ 256)

end CopyCmd

namespace State

/-- R252: the malformations of a request in their order, 0 where there is none. -/
def malformed (s : State) (q : CopyCmd) : Nat :=
  let size := (s.handle q.hreg).size.toNat
  if 7 ≤ q.kind then 1
  else if q.len = 0 then 2
  else if q.va % 64 ≠ 0 then 3
  else if (q.hv = false ∧ q.kind ≠ 5 ∧ q.fn ≠ 0) ∨ (q.bv = false ∧ q.barName.val ≠ 0) ∨ (q.hv = true ∧ q.w1 ≠ 0) then 4
  else if q.rows = true ∧ (q.rs = 0 ∨ q.rs % 64 ≠ 0 ∨ q.stride % 64 ≠ 0 ∨ q.rb.toNat % 64 ≠ 0) then 5
  else if q.kind = 4 ∧ q.geoOk = false then 6
  else if q.kind = 5 ∧ s.chip.fnSlots.contains q.fn = false then 7
  else if q.hv = true ∧ (q.kind = 5 ∨ q.kind = 6) then 8
  else if q.hv = true ∧ (q.extent % size ≠ 0 ∨ (s.handle q.hreg).count.toNat < q.extent / size) then 9
  else if 2 ^ 48 < q.va + 64 * q.len then 10
  else 0

/-- R252: the trap of a request. A handle that fails R31 follows row 4 (R367). -/
def pushTrap (s : State) (q : CopyCmd) : Option Trap :=
  let h := s.handle q.hreg
  let loc := if q.hv then h.base else q.w1
  let view := viewOf loc
  let extent := if q.hv then h.size.toNat * h.count.toNat else max 1 q.extent
  let last := offOf loc + extent - 1
  if 8 ≤ view ∧ view ≤ 10 then some ⟨.view, 6, loc⟩
  else if reservedView view ∨ 0x9FFFF < last ∨ (view = 5 ∧ 0x9FFFF < s.scaleOff last) then some ⟨.localRange, 0, loc⟩
  else if q.hv = false ∧ offOf loc % 64 ≠ 0 then some ⟨.align, 0, loc⟩
  else match if q.hv then s.useHandle q.hreg else none with
    | some t => some t
    | none => if s.malformed q = 0 then none else some ⟨.engine, s.malformed q, 0⟩

/-- R250: the whole slots that a command covers. -/
def cmdSlots (s : State) (q : CopyCmd) : Nat := q.extent / (s.handle q.hreg).size.toNat

/-- R250: commands of one handle and direction. -/
def sameRing (q r : CopyCmd) : Bool := q.hv && r.hv && q.hreg == r.hreg && q.producer == r.producer

/-- R250: i0 of a command pushed now. -/
def firstSlot (s : State) (q : CopyCmd) : Half :=
  let h := s.handle q.hreg
  let covered := (s.c.copy.filter (sameRing q)).foldl (fun n r => n + s.cmdSlots r) 0
  (if q.producer then h.tail else h.head) + BitVec.ofNat 16 covered

/-- R254: a request enters the FIFO; it takes up a pending cfence (R257). -/
def pushCmd (s : State) (q : CopyCmd) : State :=
  let q := { q with i0 := if q.hv then s.firstSlot q else 0, fence := s.c.cfence }
  { s with c := { s.c with copy := s.c.copy ++ [q], cfence := false } }

end State

def execCpush (a : Reg) (s : State) : Result :=
  if 28 < a.val then s.trap .illegal
  else s.classC <| s.check (s.pushTrap (s.requestCmd a)) <|
    if 16 ≤ s.c.copy.length then s.wait else (s.pushCmd (s.requestCmd a)).fin

def execCpushnb (d a : Reg) (s : State) : Result :=
  if 28 < a.val then s.trap .illegal
  else s.classC <| s.check (s.pushTrap (s.requestCmd a)) <|
    if 16 ≤ s.c.copy.length then s.result d 13 else (s.pushCmd (s.requestCmd a)).result d 0

def execCfree (d : Reg) (s : State) : Result := s.classC <| s.result d (BitVec.ofNat 32 (16 - s.c.copy.length))

/-- R257: cfence does not wait; it holds the commands pushed after it. R241 has a sentence to the contrary (DEDUCED, log 54). -/
def execCfence (s : State) : Result := s.classC ({ s with c := { s.c with cfence := true } } : State).fin

namespace State

/-- R257: command i is held by a cfence: one at or before it was pushed behind a cfence and is not the oldest. -/
def fenced (s : State) (i : Nat) : Bool :=
  (List.range i).any fun j => ((s.c.copy[j + 1]?).map (·.fence)).getD false

/-- R253: the commands that wait on a notice. -/
def stalledCmds (s : State) : Nat :=
  (s.c.copy.filter fun q => q.aside.any fun a => a.stall == .notice || a.stall == .noNotice).length

/-- R253: an engine register. -/
def engineReg (s : State) (n : Fin 4) : BitVec 48 :=
  match n.val with
  | 0 => s.c.e0
  | 1 => s.c.e1
  | 2 => s.c.e2
  | _ =>
    let held := (List.range s.c.copy.length).any s.fenced
    BitVec.ofNat 48 (s.c.copyDone.toNat * 2 ^ 32 + (if held then 2 ^ 24 else 0) + s.stalledCmds % 32 * 65536 +
      s.c.copy.length % 32)

end State

/-- R258: cset; reserved fields keep 0. -/
def execCset (n : Fin 3) (a b : Reg) (s : State) : Result :=
  s.classC <|
    let x : BitVec 48 := (s.reg b).extractLsb' 0 16 ++ s.reg a
    match n.val with
    | 0 => ({ s with c := { s.c with e0 := x } } : State).fin
    | 1 => ({ s with c := { s.c with e1 := x &&& 0x1FF0FFF0FFF } } : State).fin
    | _ => ({ s with c := { s.c with e2 := x &&& 0xFFFFFFFF } } : State).fin

def execCget (d : Reg) (n : Fin 4) (h : Bool) (s : State) : Result :=
  s.classC <| s.result d (if h then ((s.engineReg n).extractLsb' 32 16).zeroExtend 32 else (s.engineReg n).extractLsb' 0 32)

/-! Translation (R230 to R235). -/

end Sys2Proof.Machine

namespace Sys2Proof.TlbEntry

/-- R231: the bytes of the entry's page, none for SZ 3. -/
def size (e : TlbEntry) : Option Nat :=
  match e.sz.val with
  | 0 => some 0x10000
  | 1 => some 0x200000
  | 2 => some 0x40000000
  | _ => none

/-- R231: a beat matches. -/
def hits (e : TlbEntry) (asid : Byte) (va : Nat) : Bool :=
  match e.size with
  | some n => e.valid && e.asid == asid && decide (e.vpn.toNat * 65536 / n = va / n)
  | none => false

/-- The physical address of a beat that matches. -/
def translate (e : TlbEntry) (va : Nat) : Nat :=
  let n := e.size.getD 0x10000
  e.ppn.toNat * 65536 / n * n + va % n

end Sys2Proof.TlbEntry

namespace Sys2Proof.Machine

/-- What the translation of a beat leads to: a notice to wait for, a stop, or a place. -/
inductive Xlate where
  | notice (k : NoticeKind)
  | stop (status : Nat)
  | go (r : Region)
  deriving DecidableEq, Repr

namespace State

/-- R231: the entry that a beat uses: the lowest index. -/
def tlbFind (s : State) (asid : Byte) (va : Nat) : Option (Nat × TlbEntry) :=
  let hit (e : Nat × TlbEntry) : Bool := e.2.hits asid va
  match ((s.t.tlb.filter hit).map (·.1)).min? with
  | some i => s.t.tlb.find? fun e => e.1 == i && hit e
  | none => none

/-- R227, R230, R235: the region of a physical address, or the status that stops the command. -/
def regionOf (s : State) (pa : Nat) (key : Nat) (svc update : Bool) : Xlate :=
  if pa < s.fitted then
    match s.keyOf key with
    | some k => .go (.lpddr pa k)
    | none => .stop stKey
  else if update then .stop stProt
  else if 2 ^ 46 ≤ pa ∧ pa < 2 ^ 47 then .go (.host (pa - 2 ^ 46))
  else if 2 ^ 47 ≤ pa ∧ pa < 2 ^ 47 + 2 ^ 46 then .go (.aperture (bitsOf pa 34 12) (bitsOf pa 22 12) (bitsOf pa 0 22))
  else if 0xC00000000000 ≤ pa ∧ pa < 0xC00090000000 then
    let off := (pa - 0xC00000000000) % 0x100000
    if svc = false ∨ 0xA0000 ≤ off then .stop stProt else .go (.core ((pa - 0xC00000000000) / 0x100000) off)
  else .stop stProt

/-- R231 to R235: a beat of 64 bytes translated. -/
def xlate (s : State) (asid : Byte) (va : Nat) (write svc update : Bool) : Xlate :=
  match s.tlbFind asid va with
  | none => .notice .miss
  | some (_, e) =>
    if write && !e.w then .notice .writeFault
    else if write && !e.d then .notice .light
    else s.regionOf (e.translate va) e.key.toNat svc update

/-- R232: a notice for a beat of a core of the tile, and its number. A miss in a granule whose notice is outstanding waits on
that notice, and so does a light fault (DEDUCED, log 38: R218 has one light fault for two beats); none goes out where 8 are
outstanding. -/
def notify (s : State) (k : NoticeKind) (asid : Byte) (va : Nat) (write : Bool) (idx : Nat := s.t.idx.val) :
    State × CopyStall × Nat :=
  match s.t.notices.find? fun n => k != .writeFault && n.kind == k && n.asid == asid && n.va / 65536 == va / 65536 with
  | some n => (s, .notice, n.id)
  | none =>
    if 8 ≤ s.t.notices.length then (s, .noNotice, 0)
    else
      let n : Notice := { id := s.t.noticeNum, kind := k, va := va, asid := asid, write := write }
      ({ s with t := { s.t with
          notices := s.t.notices ++ [n], noticeNum := s.t.noticeNum + 1
          inbox := s.t.inbox ++ [.notice idx n] } }, .notice, n.id)

/-! Beats of the global side. -/

/-- A beat of host memory or of another core is read with what that agent answers: its bytes are beat n of `input.data`, an
error there is `input.flag` (log 1). Until it answers, the beat waits. -/
def answered (s : State) (r : Region) (n : Nat) : Bool :=
  let here := s.input.flag || decide (64 * (n + 1) ≤ s.input.data.length)
  match r with
  | .host _ => here
  | .core p _ => p == s.coreId || here
  | _ => true

/-- A beat read: its bytes, or none where it meets an uncorrectable error. -/
def gRead (s : State) (r : Region) (n : Nat) (tag : Word) : State × Option (List Byte) :=
  let given : List Byte := (List.range 64).map fun i => s.input.data.getD (64 * n + i) 0
  match r with
  | .lpddr pa k =>
    let s := s.gCorrect (pa / 64) tag
    if s.chip.gerr.contains (pa / 64) then (s.gLog pa tag, none) else (s, some (s.gread pa 64 k))
  | .host a => if s.input.flag then (s.logError 0x1200 3 a tag, none) else (s, some given)
  | .core p off =>
    if p = s.coreId then
      if s.memBad off 64 then (s.logWords 0 off 64 tag, none) else (s, some (s.c.mem.readBytes off 64))
    else (s, if s.input.flag then none else some given)
  | .aperture .. => (s, none)

/-- A beat written. -/
def gWrite (s : State) (r : Region) (bs : List Byte) : State :=
  match r with
  | .lpddr pa k => s.gwrite pa bs k
  | .host a => s.put (.hostWrite a bs)
  | .core p off => if p = s.coreId then s.engineMem off bs else s.put (.coreWrite p off bs)
  | .aperture .. => s

end State

/-! Update units (R228, R229). -/

/-- R228: an update function: target and operand words to the new target. -/
def updateWord (slot : Nat) (g x y : Word) : Word :=
  let f (v : Nat) : Word := BitVec.ofNat 32 v
  match slot with
  | 0 => g + x
  | 1 => f (add32 g.toNat x.toNat)
  | 2 => if g.slt x then x else g
  | 3 => if x.slt g then x else g
  | 4 => f (laneMax .f32 false g.toNat x.toNat).1
  | 5 => f (laneMin .f32 false g.toNat x.toNat).1
  | 6 => x
  | 7 => if g = x then y else g
  | n => Config.updateFn n g x

namespace State

/-- R229: one update at a target of LPDDR 6, and the old target; none where its beat holds an uncorrectable error. -/
def updateAt (s : State) (slot pa key : Nat) (x y : Word) : State × Option Word :=
  if s.chip.gerr.contains (pa / 64) then (s, none)
  else
    let g : Word := BitVec.ofNat 32 (leNat (s.gread pa 4 key))
    (s.gwrite pa (leBytes 4 (updateWord slot g x y).toNat) key, some g)

end State

/-- R229: an update of another command reaches its unit: function slot `input.op`, the target's address `input.addr` under
key slot `input.n`, operand `input.value` and, for cas, `input.off`; the command's tag is `input.seq`. -/
def execUpdateApply (s : State) : Result :=
  let i := s.input
  let tag : Word := BitVec.ofNat 32 i.seq
  match s.keyOf i.n with
  | some k =>
    if i.addr % 4 = 0 ∧ i.addr < s.fitted ∧ s.chip.fnSlots.contains i.op = true then
      let s := s.gCorrect (i.addr / 64) tag
      .next (match s.updateAt i.op i.addr k i.value (BitVec.ofNat 32 i.off) with
        | (t, some _) => t
        | (t, none) => t.gLog i.addr tag)
    else .next s
  | none => .next s

/-! The beats of a command (R221 to R224, R250). -/

/-- A beat put aside that has not been translated, or is to be translated again; `writes` says that its command writes. -/
def Aside.untranslated (a : Aside) (writes : Bool) : Bool :=
  a.stall == .none && a.rsp.isNone && (a.rows.isSome || a.data.isNone || (writes && !a.back))

namespace CopyCmd

/-- The beats of a row, the beats of the command, and the row of the next beat. -/
def rowBeats (q : CopyCmd) : Nat := max 1 (q.rs / 64)
def total (q : CopyCmd) : Nat := if q.rows then 16 * q.len * q.rowBeats else q.len
def row (q : CopyCmd) : Nat := q.pos / q.rowBeats

/-- R226: the nominal offset of a beat, and the fault point of its unit. -/
def nominalAt (q : CopyCmd) (pos : Nat) : Nat :=
  if q.rows then pos / q.rowBeats * q.rs + pos % q.rowBeats * 64 else 64 * pos
def faultAt (q : CopyCmd) (pos : Nat) : Nat := if q.rows then pos / q.rowBeats * q.rs else 64 * pos
def faultPoint (q : CopyCmd) : Nat := q.faultAt q.pos

/-- Every beat has been performed or abandoned. -/
def finished (q : CopyCmd) : Bool := q.aside.isEmpty && (q.stop.isSome || decide (q.total ≤ q.pos))

/-- R226: a beat is still to be performed: no fault point lies at or before it. -/
def wanted (q : CopyCmd) (pos : Nat) : Bool := match q.stop with
  | some r => decide (q.faultAt pos < r.2)
  | none => true

/-- R226: a stopping status at a fault point; the least one stands, and what lies at or beyond it is abandoned, but for what is under
way in the fabric engine: its access is performed, and the command does not complete before it (R234, R335). -/
def stopAt (q : CopyCmd) (st p : Nat) : CopyCmd :=
  let r : Nat × Nat := match q.stop with
    | some r => if p < r.2 then (st, p) else r
    | none => (st, p)
  { q with stop := some r, aside := q.aside.filter fun a => a.stall == .remote || decide (q.faultAt a.pos < r.2) }

/-- R226: the outcome: status and DATA. -/
def outcome (q : CopyCmd) : Nat × Nat :=
  match q.stop, q.errAt with
  | some r, _ => r
  | none, some p => (stData, p)
  | none, none => (0, q.nominal)

/-- The first erroneous beat is kept. -/
def noteErr (q : CopyCmd) (p : Nat) : CopyCmd := { q with errAt := some (min p (q.errAt.getD p)) }

/-- A list beat comes before the first beat of every 16 rows (R222). -/
def wantsList (q : CopyCmd) : Bool := q.rows && !q.haveList

/-- One beat on: a new list follows the last row of a list beat. -/
def next (q : CopyCmd) : CopyCmd :=
  { q with pos := q.pos + 1, haveList := q.rows && (q.pos + 1) % (16 * q.rowBeats) != 0 }

/-- The 16 rows of a list beat are passed over (R226). -/
def skipRows (q : CopyCmd) : CopyCmd := { q with pos := q.pos + 16 * q.rowBeats, haveList := false }

/-- The writing kinds (R233). -/
def writes (q : CopyCmd) : Bool := q.kind == 1 || q.kind == 3 || q.kind == 5 || q.kind == 6

/-- The index word of the next row. -/
def index (q : CopyCmd) : Nat := (q.list.getD (q.row % 16) 0).toNat

/-- R223: the pixel of the next row: its number in the image, none where it is padded. -/
def pixel (q : CopyCmd) : Option Nat :=
  let e := q.index
  let n := bitsOf e 24 8
  let y := signedOf 12 (bitsOf e 12 12)
  let x := signedOf 12 (bitsOf e 0 12)
  if 0 ≤ x ∧ x < q.geoW ∧ 0 ≤ y ∧ y < q.geoH ∧ n < q.geoN then some ((n * q.geoH + y.toNat) * q.geoW + x.toNat) else none

end CopyCmd

/-- What the next beat of a command is: a list beat, a pad beat, a row beyond 2^48, or a beat at a virtual address. -/
inductive BeatAt where
  | list (va : Nat) | pad | beyond | data (va : Nat)
  deriving DecidableEq, Repr

/-- R222, R223: the next beat. -/
def CopyCmd.beatAt (q : CopyCmd) : BeatAt :=
  if q.wantsList then .list (q.va + 64 * (q.row / 16))
  else if q.rows then
    match if q.kind = 4 then q.pixel else some q.index with
    | none => .pad
    | some n =>
      let a := q.rb.toNat + n * q.stride
      if 2 ^ 48 < a + q.rs then .beyond else .data (a + q.pos % q.rowBeats * 64)
  else .data (q.va + 64 * q.pos)

namespace State

def cmd (s : State) (i : Nat) : Option CopyCmd := s.c.copy[i]?
def setCmd (s : State) (i : Nat) (q : CopyCmd) : State := { s with c := { s.c with copy := s.c.copy.set i q } }

/-- R250: the local address of a nominal byte: view and offset. -/
def localAt (s : State) (q : CopyCmd) (p : Nat) : Nat × Nat :=
  if q.hv then
    let h := s.handle q.hreg
    let a := h.slot (q.i0.toNat + p / h.size.toNat)
    (viewOf a, offOf a + p % h.size.toNat)
  else (viewOf q.w1, offOf q.w1 + p)

/-- R221, R239: n local bytes read, none where they or their scale bytes meet an uncorrectable error. -/
def localRead (s : State) (loc : Nat × Nat) (n : Nat) (tag : Word) : State × Option (List Byte) :=
  if s.memBad loc.2 n then (s.logWords 0 loc.2 n tag, none)
  else if loc.1 = 5 ∧ s.memBad (s.scaleOff loc.2) (n / 4) = true then (s.logWords 0 (s.scaleOff loc.2) (n / 4) tag, none)
  else (s, some (s.c.mem.readBytes loc.2 n))

/-- R221, R239: local bytes written; through view 0x5 with the scale bytes that ride in the beat. A scale byte whose code
word holds an uncorrectable error is not written, which is logged (false). -/
def localWrite (s : State) (loc : Nat × Nat) (bs : List Byte) (tag : Word) : State × Bool :=
  let u := s.engineMem loc.2 bs
  let o := s.scaleOff loc.2
  let n := bs.length / 4
  let scales := (List.range n).map (Config.rideScale s.tick)
  if loc.1 ≠ 5 then (u, true)
  else if u.memBad o n = false then (u.engineMem o scales, true)
  else
    let bad := badWords u.c.memErr o n
    let write (t : State) (i : Nat) : State :=
      if bad.contains ((o + i) / 8) then t else t.engineMem (o + i) [scales.getD i 0]
    (((List.range n).foldl write u).logWords 0 o n tag, false)

/-- The mailbox tag of a command as a record holds it. -/
def cmdTag (q : CopyCmd) : Word := BitVec.ofNat 32 q.tag

/-- R224, R228: the 16 words of an UPDATE beat, from its operands, at targets from pa on: the state and the old targets;
none where the beat of the targets holds an uncorrectable error. -/
def updateBeat (s : State) (q : CopyCmd) (ops : List Byte) (pa key : Nat) : State × Option (List Word) :=
  let s := s.gCorrect (pa / 64) (cmdTag q)
  let word (i : Nat) : Word := BitVec.ofNat 32 (leNat ((ops.drop i).take 4))
  let one (m : State × List Word) (i : Nat) : State × List Word :=
    match m.1.updateAt q.fn (pa + 4 * i) key (word (q.opSize * i)) (word (q.opSize * i + 4)) with
    | (t, g) => (t, m.2 ++ [g.getD 0])
  if s.chip.gerr.contains (pa / 64) then (s.gLog pa (cmdTag q), none)
  else
    let m := (List.range 16).foldl one (s, [])
    (m.1, some m.2)

/-- R224: where a beat's local bytes lie within the command, and how many they are: UPDATE's operands lie at their own
pitch. -/
def localPos (q : CopyCmd) (pos : Nat) : Nat := if q.kind = 5 then 16 * q.opSize * pos else q.nominalAt pos
def localLen (q : CopyCmd) : Nat := if q.kind = 5 then 16 * q.opSize else 64

/-- R224: swap and cas write the old targets back into bits 31:0 of their operands. -/
def writeBack (s : State) (q : CopyCmd) (pos : Nat) (old : List Byte) : State × Bool :=
  let loc := s.localAt q (localPos q pos)
  if q.opSize = 4 then s.localWrite loc old (cmdTag q)
  else
    let one (m : State × Bool) (i : Nat) : State × Bool :=
      let n := m.1.localWrite (loc.1, loc.2 + 8 * i) ((old.drop (4 * i)).take 4) (cmdTag q)
      (n.1, m.2 && n.2)
    (List.range 16).foldl one (s, true)

end State

/-- What a step on a beat leads to: it is done (with or without error, or with the place that a SCATTER wrote), it stops the
command, it waits, its bytes are in hand, a list has been read or met an error, or nothing can be done now. -/
inductive BeatEnd where
  | done (ok : Bool)
  | wrote (r : Region)
  | stop (status : Nat)
  | wait (k : CopyStall) (ref : Nat) (r : Option Region)
  | hold (bs : List Byte) (back : Bool)
  | list (ws : List Word)
  | badList
  | idle
  deriving DecidableEq, Repr

namespace State

/-- The bytes that a beat of a writing kind sends: those in hand, the pattern of FILL, else local bytes, which are not read
in an exchange phase (R151); the inner none is an error. -/
def source (s : State) (q : CopyCmd) (a : Aside) : Option (State × Option (List Byte)) :=
  match a.data with
  | some bs => some (s, some bs)
  | none =>
    if q.kind = 6 then some (s, some q.pat)
    else if s.inExchange then none
    else some (s.localRead (s.localAt q (localPos q a.pos)) (localLen q) (cmdTag q))

/-- R151: the bytes of reading kinds that wait to be written locally, and those that are on their way from another chip, in
beats of the buffer of 4 KiB. -/
def buffered (s : State) : Nat :=
  let held (a : Aside) : Bool := !a.isList && (a.data.isSome || a.rsp.isSome || a.stall == .remote)
  (s.c.copy.map fun q => if q.writes then 0 else (q.aside.filter held).length).foldl (· + ·) 0

/-- Bytes read go to local memory, or stay in hand: in an exchange phase, or where the engine reads ahead (`half`). -/
def arrive (s : State) (q : CopyCmd) (a : Aside) (half : Bool) (bs : List Byte) : State × BeatEnd :=
  if s.inExchange || half then (s, .hold bs false)
  else
    let m := s.localWrite (s.localAt q (localPos q a.pos)) bs (cmdTag q)
    (m.1, .done m.2)

/-- Bytes in hand that are to be written locally. -/
def putLocal (s : State) (q : CopyCmd) (a : Aside) (bs : List Byte) : State × BeatEnd :=
  if s.inExchange then (s, .idle)
  else
    let m := if q.kind = 5 then s.writeBack q a.pos bs else s.localWrite (s.localAt q (localPos q a.pos)) bs (cmdTag q)
    (m.1, .done m.2)

/-- R335: a beat through the aperture: an operation of the fabric engine, which starts once the beat waits for it. `bs` are the
bytes of a write. -/
def apertureAsk (s : State) (q : CopyCmd) (write : Bool) (chip win off : Nat) (bs : List Byte) (r : Option Region) :
    State × BeatEnd :=
  let o : FabOp :=
    { id := s.chip.nextOp, kind := .aperture write, lid := s.c.lid, peer := chip, win := win, off := off, len := 64,
      tag := BitVec.ofNat 16 q.tag, state := .held, data := bs }
  ({ s with chip := { s.chip with ops := s.chip.ops ++ [o], nextOp := s.chip.nextOp + 1 } }, .wait .remote o.id r)

/-- The operations entered behind the first n start. -/
def startNew (s : State) (n : Nat) : State :=
  match s.chip.ops.drop n with
  | [] => s
  | new => (new.foldl startOp s).settle

/-- R227, R335: the answer to a beat through the aperture. -/
def apertureAnswer (s : State) (q : CopyCmd) (a : Aside) (r : Nat × List Byte × List Nat) : State × BeatEnd :=
  if r.1 ≠ 0 ∧ r.1 ≠ stData then (s, .stop r.1)
  else
    let bytes := (List.range 64).map fun k => r.2.1.getD k 0
    if a.isList then (s, if r.1 = 0 then .list (words32 bytes) else .badList)
    else if q.writes then (s, .done (r.1 == 0))
    else if r.1 = 0 then s.arrive q a false bytes else (s, .done false)

/-- R222: within one SCATTER the row with the highest number stands: a beat that comes late does not write over one of a
later row. -/
def scatterKeeps (q : CopyCmd) (a : Aside) (r : Region) : Bool := q.wrote.any fun w => w.1 == r && decide (a.pos < w.2)

/-- R221 to R224: a translated beat. R230: a beat that reaches another core ends with GATED or PROT where `input.status`
says so, and a write to it is done once that core takes it (`input.flag`); one to this core's own window waits in an exchange
phase (R151). -/
def goBeat (s : State) (q : CopyCmd) (a : Aside) (half : Bool) (r : Region) : State × BeatEnd :=
  let write := q.writes && !a.isList
  if (r matches .core ..) = true ∧ (s.input.status = stGated ∨ s.input.status = stProt) then (s, .stop s.input.status)
  else if (match r with
    | .core p _ => if p = s.coreId then s.inExchange else write && !s.input.flag
    | _ => false) then (s, .idle)
  else if write = false then
    if s.answered r 0 = false || (!a.isList && s.inExchange && decide (64 ≤ s.buffered)) then (s, .idle)
    else match s.gRead r 0 (cmdTag q) with
      | (t, some bs) => if a.isList then (t, .list (words32 bs)) else t.arrive q a half bs
      | (t, none) => (t, if a.isList then .badList else .done false)
  else match s.source q a with
    | none => (s, .idle)
    | some (t, none) => (t, .done false)
    | some (t, some bs) =>
      match q.kind, r with
      | 5, .lpddr pa k =>
        match t.updateBeat q bs pa k with
        | (u, none) => (u, .done false)
        | (u, some old) =>
          let back := old.flatMap fun g => leBytes 4 g.toNat
          if q.fn ≠ 6 ∧ q.fn ≠ 7 then (u, .done true)
          else if s.inExchange || half then (u, .hold back true)
          else let m := u.writeBack q a.pos back; (m.1, .done m.2)
      | _, _ => if scatterKeeps q a r then (t, .done true) else (t.gWrite r bs, .wrote r)

/-- R221 to R235: a step on a beat of a command: its answer, its bytes in hand, or its translation and access. Where `half`
says so, the engine reads ahead: the beat's bytes stay in hand. -/
def tryBeat (s : State) (q : CopyCmd) (a : Aside) (half : Bool) : State × BeatEnd :=
  let write := q.writes && !a.isList
  match a.rsp, a.data with
  | some r, _ => if s.inExchange && !q.writes && !a.isList then (s, .idle) else s.apertureAnswer q a r
  | none, some bs => if a.back || !q.writes then s.putLocal q a bs else reach s q a write half
  | none, none =>
    if half && write && q.kind != 6 then
      match s.source q a with
      | none => (s, .idle)
      | some (t, some bs) => (t, .hold bs false)
      | some (t, none) => (t, .done false)
    else reach s q a write half
where
  /-- The beat translated, and its access. A beat takes no fault while an earlier beat of its command has not been translated:
  the first fault of a command is that of its earliest beat (DEDUCED, log 38, from the messages of R218). -/
  reach (s : State) (q : CopyCmd) (a : Aside) (write half : Bool) : State × BeatEnd :=
    match s.xlate q.asid a.va write q.svc (q.kind == 5 && !a.isList) with
    | .notice k =>
      if q.aside.any fun b => b.untranslated q.writes && decide (b.pos < a.pos) then (s, .idle)
      else let n := s.notify k q.asid a.va write; (n.1, .wait n.2.1 n.2.2 none)
    | .stop st => (s, .stop st)
    | .go (.aperture c w o) =>
      if s.heldHere c w then (s, .idle)
      else if write then
        match s.source q a with
        | none => (s, .idle)
        | some (t, none) => (t, .done false)
        | some (t, some bs) =>
          if scatterKeeps q a (.aperture c w o) then (t, .done true)
          else t.apertureAsk q true c w o bs (some (.aperture c w o))
      else if s.inExchange && !a.isList && decide (64 ≤ s.buffered) then (s, .idle)
      else s.apertureAsk q false c w o [] none
    | .go r => s.goBeat q a (half && !write) r

end State

namespace CopyCmd

/-- The place that a SCATTER has written, kept while an earlier beat is put aside. -/
def noteWrite (q : CopyCmd) (pos : Nat) (r : Option Region) : CopyCmd :=
  { q with wrote := if q.kind = 3 then (r.map fun r => (r, pos)).toList ++ q.wrote else q.wrote }

/-- The beat `a` at the front of the command has come to an end; one that waits is put aside, and the front goes on. -/
def frontEnd (q : CopyCmd) (a : Aside) (e : BeatEnd) : CopyCmd :=
  let past : CopyCmd := if a.isList then q.skipRows else q.next
  match e with
  | .done ok => (if ok then q else q.noteErr (q.nominalAt a.pos)).next
  | .wrote r => past.noteWrite a.pos (some r)
  | .stop st => q.stopAt st (q.faultAt a.pos)
  | .wait k n r => { past.noteWrite a.pos r with aside := q.aside ++ [{ a with stall := k, ref := n }] }
  | .hold bs back => { past with aside := q.aside ++ [{ a with data := some bs, back := back }] }
  | .list ws => { q with list := ws, haveList := true }
  | .badList => (q.noteErr (q.nominalAt a.pos)).skipRows
  | .idle => q

/-- The same for a beat or a list at place k of those put aside. -/
def asideEnd (q : CopyCmd) (k : Nat) (a : Aside) (e : BeatEnd) : CopyCmd :=
  let gone : CopyCmd := { q with aside := q.aside.eraseIdx k }
  let put (b : Aside) : CopyCmd := { q with aside := q.aside.set k b }
  match e with
  | .done ok => if ok then gone else gone.noteErr (q.nominalAt a.pos)
  | .wrote r => gone.noteWrite a.pos (some r)
  | .stop st => gone.stopAt st (q.faultAt a.pos)
  | .wait w n r => (put { a with stall := w, ref := n, rsp := none }).noteWrite a.pos r
  | .hold bs back => put { a with data := some bs, back := back, rsp := none }
  | .list ws => put { a with isList := false, stall := .none, rsp := none, rows := some (a.pos + 16 * q.rowBeats, ws) }
  | .badList => gone.noteErr (q.nominalAt a.pos)
  | .idle => q

/-- The beats of a late list at place k, up to `stop`: they go on behind their first one. -/
def rowsOn (q : CopyCmd) (k : Nat) (a : Aside) (last : Nat) : CopyCmd :=
  if last ≤ a.pos + 1 then { q with aside := q.aside.eraseIdx k }
  else { q with aside := q.aside.set k { a with pos := a.pos + 1 } }

/-- The first of them has come to an end. -/
def rowsEnd (q : CopyCmd) (k : Nat) (a b : Aside) (last : Nat) (e : BeatEnd) : CopyCmd :=
  let on := q.rowsOn k a last
  match e with
  | .done ok => if ok then on else on.noteErr (q.nominalAt a.pos)
  | .wrote r => on.noteWrite a.pos (some r)
  | .stop st => ({ q with aside := q.aside.eraseIdx k } : CopyCmd).stopAt st (q.faultAt a.pos)
  | .wait w n r => { on.noteWrite a.pos r with aside := on.aside ++ [{ b with stall := w, ref := n }] }
  | .hold bs back => { on with aside := on.aside ++ [{ b with data := some bs, back := back }] }
  | .list _ | .badList | .idle => q

end CopyCmd

namespace State

/-- R223: the pad beat of a pixel outside the image; in an exchange phase its bytes wait in the buffer (R151). -/
def padBeat (s : State) (q : CopyCmd) (pos : Nat) : State × BeatEnd :=
  let bytes := (List.replicate 16 (leBytes 4 q.pad.toNat)).flatten
  if s.inExchange then (s, if 64 ≤ s.buffered then .idle else .hold bytes false)
  else
    let m := s.localWrite (s.localAt q (localPos q pos)) bytes (cmdTag q)
    (m.1, .done m.2)

/-- R221: FILL reads its pattern at the start; with an error no beat is written. -/
def fillPattern (s : State) (q : CopyCmd) : State × CopyCmd :=
  if q.kind = 6 then
    match s.localRead (s.localAt q 0) 64 (cmdTag q) with
    | (t, some bs) => (t, { q with pat := bs })
    | (t, none) => (t, { q.noteErr 0 with pos := q.total })
  else (s, q)

/-- R219, R257: command i may begin: every earlier one has begun, and no cfence holds it. -/
def mayBegin (s : State) (i : Nat) : Bool := (s.c.copy.take i).all (·.begun) && !s.fenced i && !s.inExchange

/-- R251: the slots of a command are ready. -/
def cmdReady (s : State) (q : CopyCmd) : Bool :=
  let h := s.handle q.hreg
  let n := BitVec.ofNat 16 (s.cmdSlots q)
  !q.hv ||
    (if q.producer then decide ((q.i0 + n - h.head).toNat ≤ h.count.toNat) else decide (n.toNat ≤ (h.tail - q.i0).toNat))

/-- A step on a command that has begun: its next beat (`work` 0), or what is put aside at place work - 1. -/
def copyWork (s : State) (q : CopyCmd) (work : Nat) (half : Bool) : State × CopyCmd :=
  if work = 0 then
    if q.stop.isSome || decide (q.total ≤ q.pos) then (s, q)
    else
      let go (a : Aside) (m : State × BeatEnd) : State × CopyCmd := (m.1, q.frontEnd a m.2)
      match q.beatAt with
      | .list va => let a : Aside := { pos := q.pos, va := va, isList := true }; go a (s.tryBeat q a half)
      | .beyond => (s, q.stopAt 5 q.faultPoint)
      | .pad => go { pos := q.pos } (s.padBeat q q.pos)
      | .data va => let a : Aside := { pos := q.pos, va := va }; go a (s.tryBeat q a half)
  else match q.aside[work - 1]? with
    | none => (s, q)
    | some a =>
      let k := work - 1
      if a.stall ≠ .none then (s, q)
      else if a.rows.isNone && !q.wanted a.pos then (s, { q with aside := q.aside.eraseIdx k })
      else match a.rows with
        | none => let m := s.tryBeat q a half; (m.1, q.asideEnd k a m.2)
        | some (last, ws) =>
          if q.wanted a.pos = false then (s, { q with aside := q.aside.eraseIdx k })
          else
            let go (b : Aside) (m : State × BeatEnd) : State × CopyCmd := (m.1, q.rowsEnd k a b last m.2)
            match ({ q with pos := a.pos, list := ws, haveList := true } : CopyCmd).beatAt with
            | .data va => let b : Aside := { pos := a.pos, va := va }; go b (s.tryBeat q b half)
            | .pad => go { pos := a.pos } (s.padBeat q a.pos)
            | _ => (s, ({ q with aside := q.aside.eraseIdx k } : CopyCmd).stopAt 5 (q.faultAt a.pos))

/-- A command as a step leaves it: what a SCATTER wrote is kept while a beat is put aside, and the step in which it has
come to fall due is noted (R151). -/
def keepCmd (s : State) (i : Nat) (q : CopyCmd) : State :=
  let q := if q.aside.isEmpty then { q with wrote := [] } else q
  s.setCmd i (if q.finished && q.fell == 0 then { q with fell := s.tick + 1 } else q)

/-- R219, R251: a step on command i, where the engine may take it; the first one begins it. -/
def copyStep (s : State) (i work : Nat) (half : Bool) : State :=
  match s.cmd i with
  | none => s
  | some q =>
    if q.finished || !(q.begun || s.mayBegin i) then s
    else
      let (s, q) := if q.begun then (s, q) else let m := s.fillPattern q; (m.1, { m.2 with begun := true })
      let m := if s.cmdReady q then s.copyWork q work half else (s, q)
      (m.1.keepCmd i m.2).startNew s.chip.ops.length

/-- The same for a command of one kind. -/
def copyStepOf (s : State) (k : Nat) : State :=
  match s.cmd s.input.n with
  | some q => if q.kind = k then s.copyStep s.input.n s.input.op s.input.flag2 else s
  | none => s

end State

/-- R221: a step on the copy command at place `input.n` of the FIFO: on its next beat, or where `input.op` is not 0 on what
is put aside at place `input.op` - 1; with `input.flag2` the engine reads ahead. The next seven are steps on a command of one
kind. -/
def execCopyBeat (s : State) : Result := .next (s.copyStep s.input.n s.input.op s.input.flag2)
def execLoad (s : State) : Result := .next (s.copyStepOf 0)
def execStore (s : State) : Result := .next (s.copyStepOf 1)
def execGather (s : State) : Result := .next (s.copyStepOf 2)
def execScatter (s : State) : Result := .next (s.copyStepOf 3)
def execIm2col (s : State) : Result := .next (s.copyStepOf 4)
def execUpdate (s : State) : Result := .next (s.copyStepOf 5)
def execFillCommand (s : State) : Result := .next (s.copyStepOf 6)

/-! Completion (R225, R226, R251). -/

/-- R251: a command of a ring whose earlier command has failed ends with its status and DATA 0, once the accesses that it has under
way in the fabric engine have been performed (R335). -/
def CopyCmd.voided (q : CopyCmd) (st tick : Nat) : CopyCmd :=
  let r := q.stopAt st 0
  { r with stop := some (st, 0), fell := if r.finished && q.fell == 0 then tick + 1 else q.fell }

namespace State

/-- R36, R151: landings are held in an exchange phase and while the core's slot entry is in transit. -/
def landingHeld (s : State) : Bool := s.inExchange || s.inTransit

/-- R251: command i may complete: every beat is done, and no earlier command of its ring is outstanding. -/
def canLand (s : State) (i : Nat) : Bool :=
  match s.cmd i with
  | some q => q.finished && !s.landingHeld && !((s.c.copy.take i).any (sameRing q))
  | none => false

/-- R225, R251: the landing of a command that has left the FIFO. -/
def land (s : State) (q : CopyCmd) : State :=
  let (st, data) := q.outcome
  let s := { s with c := { s.c with copyDone := s.c.copyDone + 1 } }
  let s :=
    if q.hv then
      if st = 0 then
        if q.producer then s.advTail q.hreg (s.cmdSlots q) else s.advHead q.hreg (s.cmdSlots q)
      else { s with c := { s.c with copy := s.c.copy.map fun r => if sameRing q r then r.voided st s.tick else r } }
    else s
  let s := if q.bv then s.creditBarrier q.barName q.nominal st else s
  if q.msg then s.post (message 1 st q.tag data) else s

end State

/-- R257: a command leaves the FIFO; the hold of a cfence before it goes over to the command behind it, while an earlier
one is outstanding. -/
def State.takeCmd (s : State) (i : Nat) (q : CopyCmd) : State :=
  let rest := s.c.copy.eraseIdx i
  if q.fence = true ∧ 0 < i then
    if i < rest.length then { s with c := { s.c with copy := rest.modify i fun r => { r with fence := true } } }
    else { s with c := { s.c with copy := rest, cfence := true } }
  else { s with c := { s.c with copy := rest } }

/-- The command at a place lands, where it can. -/
def State.landAt (s : State) (i : Nat) : State :=
  match s.cmd i with
  | some q => if s.canLand i then (s.takeCmd i q).land q else s
  | none => s

/-- R225: the command at place `input.n` reaches its completion point. -/
def execCopyCompletion (s : State) : Result := .next (s.landAt s.input.n)

/-- R151: the completions that fell due in an exchange phase land before the compute phase's first instruction issues, in
the order in which they fell due. -/
def State.landDue (s : State) : State :=
  let first (s : State) : Option Nat :=
    let due := (List.range s.c.copy.length).filter s.canLand
    let fell (i : Nat) : Nat := ((s.cmd i).map (·.fell)).getD 0
    due.find? fun i => due.all fun j => decide (fell i ≤ fell j)
  ((List.range s.c.copy.length).foldl (fun s _ => match first s with | some i => s.landAt i | none => s) s).matchAllows

/-! Firmware and the TLB (R231 to R234). -/

namespace CopyCmd

/-- R232: beats whose notice has been served, and those that wait for a free notice, translate again. -/
def released (q : CopyCmd) (served : List Nat) : CopyCmd :=
  let free (a : Aside) : Bool := a.stall == .noNotice || (a.stall == .notice && served.contains a.ref)
  { q with aside := q.aside.map fun a => if free a then { a with stall := .none } else a }

/-- R226: of what waits on one of some notices, the beat with the lowest number. -/
def waitsOn (q : CopyCmd) (ids : List Nat) : Option Aside :=
  let on := q.aside.filter fun a => a.stall == .notice && ids.contains a.ref
  on.find? fun a => on.all fun b => decide (a.pos ≤ b.pos)

end CopyCmd

namespace State

/-- The commands of every context (R204: those of a context in the shadow keep their progress). -/
def onCopies (s : State) (f : CopyCmd → CopyCmd) : State :=
  let on (c : Ctx) : Ctx := { c with copy := c.copy.map f }
  { s with c := on s.c, sh := on s.sh, p := { s.p with paged := s.p.paged.map fun g => { g with ctx := on g.ctx } } }

def allCopies (s : State) : List CopyCmd := s.c.copy ++ s.sh.copy ++ s.p.paged.flatMap (·.ctx.copy)

/-- R232: notices are served: they are outstanding no longer, and their beats translate again. -/
def serve (s : State) (ids : List Nat) : State :=
  let t := s.onCopies (·.released ids)
  let free (k : Coll) : Coll := if k.notice.any ids.contains then { k with notice := none } else k
  { t with
    t := { t.t with notices := t.t.notices.filter fun n => !ids.contains n.id }
    chip := { t.chip with colls := t.chip.colls.map free } }

/-- R217: with fault notices on, firmware posts a message for a copy command of a context that waits on notice `id`, a miss
or a light fault. -/
def postNotice (s : State) (id lid : Nat) (q : CopyCmd) : State :=
  if s.p.cfg.notices = false then s
  else match q.waitsOn [id], s.t.notices.find? (·.id = id) with
    | some a, some n => match n.kind with
      | .writeFault => s
      | .miss => s.onContext lid fun u => u.post (message 2 1 q.tag a.va)
      | .light => s.onContext lid fun u => u.post (message 2 4 q.tag a.va)
    | _, _ => s

/-- The contexts of this core: foreground, shadow, paged out. -/
def contexts (s : State) : List Ctx := s.c :: s.sh :: s.p.paged.map (·.ctx)

/-- R217: the messages for some notices that firmware serves, one for each command that waits on each of them. -/
def postNotices (s : State) (ids : List Nat) : State :=
  ids.foldl (fun t id => s.contexts.foldl (fun t c => c.copy.foldl (fun t q => t.postNotice id c.lid q) t) t) s

/-- R172, R217: firmware acts only after posting: no message of the step is held for want of room. -/
def posted (s t : State) : Bool := t.contexts.map (·.held) == s.contexts.map (·.held)

def setTlb (s : State) (i : Nat) (e : TlbEntry) : State :=
  { s with t := { s.t with tlb := (i, e) :: s.t.tlb.filter (·.1 ≠ i) } }

/-- R234: the beats that translated through entry i and have not performed their access yet: they are operations of the fabric
engine, by their numbers. -/
def tlbUses (s : State) (i : Nat) : List Nat :=
  match s.t.tlb.find? (·.1 = i) with
  | none => []
  | some (_, e) => s.allCopies.flatMap fun q => (q.aside.filter fun a => a.stall == .remote && e.hits q.asid a.va).map (·.ref)

/-- R234: entry i is written: beats translate through the new contents at once, and the write is complete when the beats that
translated through the old ones have performed their accesses. -/
def writeTlb (s : State) (i : Nat) (e : TlbEntry) : State :=
  let t := s.setTlb i e
  match s.tlbUses i with
  | [] => t.put (.tlbDone i)
  | ops => { t with t := { t.t with tlbWaits := t.t.tlbWaits ++ [(i, ops)] } }

end State

/-- R217, R231 to R234: the service core writes entry `input.n`, once the messages for the notices that its page concerns have
been posted, and serves those notices. -/
def execTlbWrite (s : State) : Result :=
  let e := s.input.tlb
  let ids := (s.t.notices.filter fun n => e.hits n.asid n.va).map (·.id)
  let t := s.postNotices ids
  .next (if s.input.n < 1024 ∧ s.posted t = true then (t.writeTlb s.input.n e).serve ids else s)

/-- R234: an entry is written with V = 0. -/
def execTlbInvalidate (s : State) : Result := .next (if s.input.n < 1024 then s.writeTlb s.input.n {} else s)

namespace State

/-- The statuses with which firmware ends a wait on a notice (R232). -/
def endStatus (s : State) : Bool := s.input.status == 2 || s.input.status == stProt || s.input.status == stKey

/-- R232: a notice on which nothing of this core waits any longer, or ever did, is served. -/
def serveIdle (s : State) (id : Nat) : State :=
  let waited := s.allCopies.any (fun r => (r.waitsOn [id]).isSome) || s.chip.colls.any fun k => k.notice == some id
  s.serve (if waited then [] else [id])

/-- R217, R226, R232: command i of a context ends with a status at the first beat that waits on notice `id`, once its message is
posted: what lies before that beat is still performed. -/
def endWait (s : State) (c : Ctx) (i id : Nat) (keep : State → CopyCmd → State) : State :=
  match c.copy[i]? with
  | none => s.serveIdle id
  | some q => match q.waitsOn [id] with
    | none => s.serveIdle id
    | some a =>
      let t := s.postNotice id c.lid q
      if s.posted t then
        let q := q.stopAt s.input.status (q.faultAt a.pos)
        (keep t (if q.finished then { q with fell := s.tick + 1 } else q)).serveIdle id
      else s

end State

/-- R232, R341: firmware ends the step of collective `input.n` (`input.flag2`), or the command at place `input.n` of the FIFO
that waits on notice `input.op`, with NOT_PRESENT, PROT or KEY at the waiting beat: of the foreground, of the context in the
shadow (`input.flag`), or of the launch `input.seq` that is paged out (`input.win` 1). A notice on which nothing waits, since
its beats are abandoned or another core's, is then served. -/
def execCommandEndByFirmware (s : State) : Result :=
  .next (if s.endStatus = false then s
  else if s.input.flag2 then
    match s.chip.colls.find? (·.id = s.input.n) with
    | some k => if !k.frozen && !k.busy && k.notice.isSome then (s.serve k.notice.toList).collFinish k.id s.input.status else s
    | none => s
  else
    let set (t : State) (q : CopyCmd) : State := { t with c := { t.c with copy := t.c.copy.set s.input.n q } }
    if s.input.flag then s.endWait s.sh s.input.n s.input.op fun t q => t.onShadow fun u => set u q
    else if s.input.win = 1 then
      match s.p.paged.find? (·.ctx.lid = s.input.seq) with
      | some g => s.endWait g.ctx s.input.n s.input.op fun t q => t.onPaged s.input.seq fun u => set u q
      | none => s
    else s.endWait s.c s.input.n s.input.op set)

/-! Copy commands of other cores (R230, R232, R244). -/

/-- R232: a beat of a copy command of core `input.n` of this tile takes a fault at virtual address `input.addr` under ASID
`input.value`: a miss (`input.status` 0), a light fault (1) or a write fault (2); `input.flag2` says that it writes. -/
def State.noticeByOther (s : State) : State :=
  let k : NoticeKind := match s.input.status with
    | 0 => .miss
    | 1 => .light
    | _ => .writeFault
  (s.notify k (s.input.value.extractLsb' 0 8) s.input.addr s.input.flag2 s.input.n).1

/-- R230, R243: a beat of another core's copy command, at physical address `input.addr` under key slot `input.n`; `input.flag2`
says that it writes `input.data`. In LPDDR 6 it is a write of 64 bytes or a read, which meets the beat's errors. In this core's window it
is bound, at the first beat (`input.flag`) to the context in the foreground, later to context `input.seq`: it waits in an
exchange phase, while a swap is due and while that context is not in the foreground; where it has ended the answer is PROT. The
tag of the command is `input.status`. -/
def State.copyByOther (s : State) : State :=
  let i := s.input
  let bytes := (List.range 64).map fun k => i.data.getD k 0
  match s.regionOf i.addr i.n true false with
  | .go (.lpddr pa k) =>
    if pa % 64 ≠ 0 then s
    else if i.flag2 then s.gWrite (.lpddr pa k) bytes
    else (s.gRead (.lpddr pa k) 0 (BitVec.ofNat 32 i.status)).1
  | .go (.core p off) =>
    let lid := if i.flag then s.c.lid else i.seq
    let answer (t : State) (st : Nat) (bs : List Byte) : State := t.put (.coreAnswer i.op lid st bs)
    if p ≠ s.coreId ∨ off % 64 ≠ 0 then s
    else if s.t.gate.isSome then answer s stGated []
    else if s.inExchange || s.p.swapDue || s.inTransit then s
    else if lid = s.c.lid then
      if i.flag2 then answer (s.engineMem off bytes) 0 []
      else if s.memBad off 64 then answer (s.logWords 0 off 64 (BitVec.ofNat 32 i.status)) stData []
      else answer s 0 (s.c.mem.readBytes off 64)
    else if lid = s.sh.lid ∨ (s.p.paged.any fun g => g.ctx.lid == lid) then s
    else answer s stProt []
  | _ => s

/-! Memory errors (R239, R240). -/

/-- R240: a scrub corrects the correctable errors of LPDDR 6. -/
def execScrubPass (s : State) : Result := .next (s.chip.soft.foldl (fun s b => s.gCorrect b 0) s)

/-- R239: an error arises in a code word at `input.addr` of a memory; `input.flag` says that it cannot be corrected. A
correctable error of local or accumulator memory is corrected and counted at once (log 27). -/
def execMemoryError (s : State) : Result :=
  let i := s.input
  let count : State :=
    let src := 0x1000 + s.t.num
    let n := ((s.chip.corrected.find? (·.1 = src)).map (·.2)).getD 0
    let s := { s with chip := { s.chip with
      corrected := (src, min 0xFFFFFFFF (n + 1)) :: s.chip.corrected.filter (·.1 ≠ src) } }
    let code : Word := if i.mem = .acc then 0x10 else 0
    if s.chip.log.cfg.getLsbD 0 then s.logRecord src 3 code (BitVec.ofNat 32 i.addr) 0 0 else s
  match i.mem with
  | .local_ => .next (if i.flag then { s with c := { s.c with memErr := i.addr / 8 :: s.c.memErr } } else count)
  | .acc => .next (if i.flag then { s with c := { s.c with accErr := i.addr / 8 :: s.c.accErr } } else count)
  | .lpddr =>
    .next (if i.flag then { s with chip := { s.chip with gerr := i.addr / 64 :: s.chip.gerr } }
      else { s with chip := { s.chip with soft := i.addr / 64 :: s.chip.soft } })
  | .host => .next s

end Sys2Proof.Machine
end

