-- ==== Sys2Proof/Machine/Csr.lean ====
section
/-! DEFINITION. Machine/Csr.lean: access to the control registers (R18 to R22, R100, R195, R209, R298, R324). -/

namespace Sys2Proof.Machine

/-- R18: the registers with no access in user mode, those that user mode writes, and those that no mode writes. -/
def Csr.hidden : Csr → Bool
  | .epc | .cause | .eaddr | .eword | .scratch => true
  | _ => false
def Csr.userWrites : Csr → Bool
  | .fmode | .sbase | .vpcfg | .ecfg => true
  | _ => false
def Csr.readOnly : Csr → Bool
  | .core | .tile | .phase | .lphase | .cyc | .cych | .xcyc | .snapseq => true
  | _ => false

/-- R18 to R22 and the field tables of the chapters: the bits that a write sets; the others keep their values (R4). c.part has no
field table, and a write sets all 32 bits of it; of c.mcheck and c.tv, which have none either, a write sets the bits that R18's table
names, and the others read 0 (DESIGN CHOICE, log 24). -/
def Csr.writeMask : Csr → Word
  | .status => 0xF
  | .tvec => 0x0FFFFFFE
  | .cause => 0xFFFF87FF
  | .xerr => 0xFF07FFFF
  | .fmode => 0xF1
  | .sbase => 0x0FFFFFC0
  | .slew => 0x3F
  | .mcheck => 1
  | .tv => 0xFFFF
  | .lbudget => 0x3FFF
  | .lmargin => 0xFF
  | .vpcfg => 0x00FF7F03
  | .vpst => 0xFF9F
  | .age => 0x00FFFFFF
  | .thot => 0xFF
  | .tmig => 0xFF
  | .snapctl => 0x13F
  | .chip => 0xFFFF
  | _ => 0xFFFFFFFF

namespace State

/-- R19: what an access to a control register traps with. -/
def csrTrap (s : State) (n : Csr) (write : Bool) : Option Trap :=
  if s.svc = false ∧ Csr.hidden n = true then some ⟨.priv, 0, 0⟩
  else if write = false then none
  else if s.svc then (if Csr.readOnly n then some ⟨.illegal, 0, 0⟩ else none)
  else if Csr.userWrites n then none
  else if Csr.readOnly n then some ⟨.illegal, 0, 0⟩
  else some ⟨.priv, 0, 0⟩

/-- The value of a control register (R18). c.cych is latched by a read of c.cyc (R21). -/
def csrGet (s : State) : Csr → Word
  | .status => s.c.status
  | .tvec => s.c.tvec
  | .epc => s.c.epc
  | .cause => s.c.cause
  | .eaddr => s.c.eaddr
  | .eword => s.c.eword
  | .scratch => s.c.scratch
  | .core => BitVec.ofNat 32 s.coreId
  | .lcore => s.c.lcore
  | .ncore => s.c.ncore
  | .tile => BitVec.ofNat 32 s.t.num
  | .part => s.c.part
  | .chip => s.chip.num
  | .phase => s.c.phase
  | .lphase => s.c.lphase
  | .stragg => s.c.stragg
  | .xerr => s.c.xerr
  | .xmiss => s.c.xmiss
  | .cyc => s.c.cyc.extractLsb' 0 32
  | .cych => s.c.cycLatch.getD (s.c.cyc.extractLsb' 32 32)
  | .xcyc => s.xcyc
  | .fmode => s.c.fmode
  | .sbase => s.c.sbase
  | .launch => s.c.launch
  | .slew => s.t.slew.zeroExtend 32
  | .mcheck => s.c.mcheck
  | .accmap => s.c.accmap
  | .spillmap => s.c.spillmap
  | .tv => s.chip.tv
  | .lbudget => s.p.lbudget.zeroExtend 32
  | .lmargin => s.p.lmargin.zeroExtend 32
  | .vpcfg => s.c.vpcfg
  | .vpst => s.c.vpst
  | .ecfg => s.c.ecfg
  | .age => s.p.age.zeroExtend 32
  | .thot => s.t.thot.zeroExtend 32
  | .tmig => s.t.tmig.zeroExtend 32
  | .snapctl => s.chip.snapctl
  | .snapseq => s.chip.snapseq

/-- R195: a record that has stayed queued for c.age µs (1,000 xc each) is raised one level, once, also into a level whose queue is full
(DESIGN CHOICE, log 32); c.age = 0 disables. -/
def overdue (s : State) (q : QRec) : Bool :=
  s.p.age != 0 && !q.raised && decide (q.level < 3) && decide (s.p.age.toNat * 1000 ≤ s.xc - q.xc)

def raiseOverdue (s : State) : State :=
  let raise (q : QRec) : QRec := if s.overdue q then { q with level := q.level + 1, raised := true } else q
  { s with p := { s.p with queue := s.p.queue.map raise } }

/-- R209: thresholds are stored within 40 to 115. -/
def clampTemp (x : Word) : Byte := BitVec.ofNat 8 (max 40 (min 115 (x.toNat % 256)))

/-- A control register set to a value whose bits outside the write mask are those it holds. -/
def csrSet (s : State) (n : Csr) (x : Word) : State :=
  match n with
  | .status => { s with c := { s.c with status := x } }
  | .tvec => { s with c := { s.c with tvec := x } }
  | .epc => { s with c := { s.c with epc := x } }
  | .cause => { s with c := { s.c with cause := x } }
  | .eaddr => { s with c := { s.c with eaddr := x } }
  | .eword => { s with c := { s.c with eword := x } }
  | .scratch => { s with c := { s.c with scratch := x } }
  | .lcore => { s with c := { s.c with lcore := x } }
  | .ncore => { s with c := { s.c with ncore := x } }
  | .part => { s with c := { s.c with part := x } }
  | .chip => { s with chip := { s.chip with num := x } }
  | .stragg => { s with c := { s.c with stragg := x } }
  | .xerr => { s with c := { s.c with xerr := x } }
  | .xmiss => { s with c := { s.c with xmiss := x } }
  | .fmode => { s with c := { s.c with fmode := x } }
  | .sbase => { s with c := { s.c with sbase := x } }
  | .launch => { s with c := { s.c with launch := x } }
  | .slew => { s with t := { s.t with slew := x.extractLsb' 0 6 } }
  | .mcheck => { s with c := { s.c with mcheck := x } }
  | .accmap => { s with c := { s.c with accmap := x } }
  | .spillmap => { s with c := { s.c with spillmap := x } }
  | .tv => { s with chip := { s.chip with tv := x } }
  | .lbudget => { s with p := { s.p with lbudget := BitVec.ofNat 14 (min 9600 (x.toNat % 16384)) } }
  | .lmargin => { s with p := { s.p with lmargin := x.extractLsb' 0 8 } }
  | .vpcfg => { s with c := { s.c with vpcfg := x } }
  | .vpst => { s with c := { s.c with vpst := x } }
  | .ecfg => { s with c := { s.c with ecfg := x } }
  | .age => ({ s with p := { s.p with age := x.extractLsb' 0 24, evaluate := true } } : State).raiseOverdue
  | .thot => { s with t := { s.t with thot := clampTemp x } }
  | .tmig => { s with t := { s.t with tmig := clampTemp x } }
  | .snapctl => { s with chip := { s.chip with snapctl := x } }
  | .core | .tile | .phase | .lphase | .cyc | .cych | .xcyc | .snapseq => s

/-- R19, R100: a write; reserved and read-only fields keep their values. -/
def csrPut (s : State) (n : Csr) (x : Word) : State :=
  s.csrSet n ((s.csrGet n &&& ~~~(Csr.writeMask n)) ||| (x &&& Csr.writeMask n))

/-- R21: a read of c.cyc latches bits 63:32 of the count. -/
def latchCyc (s : State) (n : Csr) : State :=
  if n = .cyc then { s with c := { s.c with cycLatch := some (s.c.cyc.extractLsb' 32 32) } } else s

/-- R100: csrr. -/
def csrRead (s : State) (d : Reg) (n : Csr) : Result :=
  s.check (s.csrTrap n false) ((s.latchCyc n).result d (s.csrGet n))

/-- R100: csrw, csrs, csrc, of class C (R74). -/
def csrWrite (s : State) (n : Csr) (f : Word → Word) : Result :=
  s.check (s.csrTrap n true) <| s.classC (s.csrPut n (f (s.csrGet n))).fin

end State

/-- The registers that other cores share: of the partition, the tile and the chip (R195, R209, R213, R298, R317, R324,
R360). -/
def Csr.shared : Csr → Bool
  | .slew | .thot | .tmig | .lbudget | .lmargin | .age | .chip | .tv | .snapctl => true
  | _ => false

/-- A write of a shared register by another core; its value is `input.value`. -/
def State.csrByOther (s : State) (n : Csr) : State := if Csr.shared n then s.csrPut n s.input.value else s

def execCsrr (d : Reg) (n : Csr) (s : State) : Result := s.csrRead d n
def execCsrw (n : Csr) (a : Reg) (s : State) : Result := s.csrWrite n fun _ => s.reg a
def execCsrs (n : Csr) (a : Reg) (s : State) : Result := s.csrWrite n fun x => x ||| s.reg a
def execCsrc (n : Csr) (a : Reg) (s : State) : Result := s.csrWrite n fun x => x &&& ~~~(s.reg a)

/-- R21: a read of c.cyc. -/
def execCycRead (d : Reg) (s : State) : Result := s.csrRead d .cyc

/-- R195: a write of c.age; it evaluates admission, which raises every record then overdue at once. -/
def execAgeWrite (a : Reg) (s : State) : Result := s.csrWrite .age fun _ => s.reg a

/-- R324: a write of c.tv, the version that the chip stamps and accepts; the routing banks stay. -/
def execTvWrite (a : Reg) (s : State) : Result := s.csrWrite .tv fun _ => s.reg a

end Sys2Proof.Machine
end

