-- ==== Sys2Proof/Machine/Image.lean ====
section
/-! DEFINITION. Machine/Image.lean: Caravan images: their layout and checks (R159 to R161) and xload (R106). -/

namespace Sys2Proof.Machine

/-- A segment entry as the image holds it (R160): first index and count in the slot, switch and path tables. -/
structure SegEntry where
  seg : Nat
  loc : Bool
  len : Nat
  slot0 : Nat
  nslot : Nat
  sw0 : Nat
  nsw : Nat
  path0 : Nat
  npath : Nat
  deriving DecidableEq, Repr, Inhabited

/-- A word of an image. -/
def imgWord (bs : List Byte) (off : Nat) : Nat := leNat ((bs.drop off).take 4)

/-- The fields of the header (R159). -/
def imgNseg (bs : List Byte) : Nat := bitsOf (imgWord bs 4) 8 8
def imgNcore (bs : List Byte) : Nat := bitsOf (imgWord bs 4) 16 16
def imgSegOff (bs : List Byte) : Nat := imgWord bs 0x08
def imgSlotOff (bs : List Byte) : Nat := imgWord bs 0x0C
def imgSwOff (bs : List Byte) : Nat := imgWord bs 0x10
def imgPathOff (bs : List Byte) : Nat := imgWord bs 0x14
def imgLen (bs : List Byte) : Nat := imgWord bs 0x18

/-- R159, R161: the header, for an image that may take up `room` bytes: its status, 0 where it passes. An NSEG of 0 or above 64
counts as malformed (DESIGN CHOICE, log 47). -/
def headerStatus (bs : List Byte) (room ncore : Nat) : Nat :=
  if imgWord bs 0 = 0x43415256 ∧ bitsOf (imgWord bs 4) 0 8 = 1 ∧ 1 ≤ imgNseg bs ∧ imgNseg bs ≤ 64 ∧
      imgSegOff bs % 16 = 0 ∧ imgSlotOff bs % 8 = 0 ∧ imgSwOff bs % 8 = 0 ∧ imgPathOff bs % 8 = 0 ∧
      64 ≤ imgLen bs ∧ imgLen bs ≤ room ∧ ((bs.drop 0x1C).take 0x24).all (· == 0) = true then
    if imgNcore bs = ncore then 0 else 3
  else 2

/-- Segment entry i. -/
def segEntry (bs : List Byte) (i : Nat) : SegEntry :=
  let w (k : Nat) : Nat := imgWord bs (imgSegOff bs + 16 * i + 4 * k)
  { seg := bitsOf (w 0) 0 6
    loc := bitsOf (w 0) 8 1 == 1
    len := bitsOf (w 0) 16 16
    slot0 := bitsOf (w 1) 0 16
    nslot := bitsOf (w 1) 16 16
    sw0 := bitsOf (w 2) 0 16
    nsw := bitsOf (w 2) 16 16
    path0 := bitsOf (w 3) 0 16
    npath := bitsOf (w 3) 16 16 }

def segEntries (bs : List Byte) : List SegEntry := (List.range (imgNseg bs)).map (segEntry bs)

namespace SegEntry

/-- Whether a segment holds an entry of a table. -/
def hasSlot (e : SegEntry) (j : Nat) : Bool := decide (e.slot0 ≤ j ∧ j < e.slot0 + e.nslot)
def hasSwitch (e : SegEntry) (j : Nat) : Bool := decide (e.sw0 ≤ j ∧ j < e.sw0 + e.nsw)
def hasPath (e : SegEntry) (j : Nat) : Bool := decide (e.path0 ≤ j ∧ j < e.path0 + e.npath)

end SegEntry

/-- The statuses that an entry fails with, 2 before 3 before 4 (R161). -/
def worst (two three four : Bool) : Nat := if two then 2 else if three then 3 else if four then 4 else 0

/-- R160, R161: segment entry i. -/
def segStatus (bs : List Byte) (i : Nat) : Nat :=
  let e := segEntry bs i
  let off := imgSegOff bs + 16 * i
  worst
    (decide (imgLen bs < off + 16) || bitsOf (imgWord bs off) 6 2 != 0 || bitsOf (imgWord bs off) 9 7 != 0 ||
      ((List.range i).any fun k => (segEntry bs k).seg == e.seg))
    false
    (e.len == 0 || decide (4096 < e.len))

/-- Slot entry j. -/
def slotEntry (bs : List Byte) (j : Nat) : Slot :=
  let a := imgWord bs (imgSlotOff bs + 8 * j)
  let b := imgWord bs (imgSlotOff bs + 8 * j + 4)
  { core := bitsOf a 0 16, off := bitsOf a 16 12, kind := bitsOf a 28 3, cls := bitsOf b 0 3, lane := bitsOf b 3 2,
    port := bitsOf b 5 3 }

/-- R160, R161: slot entry j in a segment that holds it. -/
def slotStatus (bs : List Byte) (e : SegEntry) (j : Nat) : Nat :=
  let x := slotEntry bs j
  let p := slotEntry bs (j - 1)
  worst
    (decide (imgLen bs < imgSlotOff bs + 8 * j + 8) ||
      bitsOf (imgWord bs (imgSlotOff bs + 8 * j)) 31 1 != 0 || bitsOf (imgWord bs (imgSlotOff bs + 8 * j + 4)) 8 24 != 0 ||
      decide (4 < x.kind ∨ e.len ≤ x.off) ||
      (decide (e.slot0 < j) && decide (x.core < p.core ∨ (x.core = p.core ∧ x.off < p.off))))
    (decide (imgNcore bs ≤ x.core))
    false

/-- Switch entry j; DUR 0 encodes 4,096. -/
def switchEntry (bs : List Byte) (j : Nat) : Switch :=
  let a := imgWord bs (imgSwOff bs + 8 * j)
  let b := imgWord bs (imgSwOff bs + 8 * j + 4)
  { tile := bitsOf a 0 8, elem := bitsOf a 8 2, off := bitsOf a 16 12, set := bitsOf b 0 20,
    dur := if bitsOf b 20 12 = 0 then 4096 else bitsOf b 20 12 }

/-- R160: SET has no reserved bit or unlisted code, for its element and a segment of n paths; a code beyond those listed
(a side above 4, a source above 17, a path index of n or more) counts as malformed (DESIGN CHOICE, log 47). -/
def setOk (x : Switch) (n : Nat) : Bool :=
  match x.elem with
  | 0 => bitsOf x.set 3 1 == 0 && bitsOf x.set 7 13 == 0 && decide (bitsOf x.set 0 3 ≤ 4 ∧ bitsOf x.set 4 3 ≤ 4)
  | 1 => bitsOf x.set 9 11 == 0 && decide (bitsOf x.set 4 5 ≤ 17)
  | 2 => bitsOf x.set 3 5 == 0 && bitsOf x.set 16 4 == 0 && decide (bitsOf x.set 8 8 < n)
  | _ => false

/-- R160: the connection that a switch entry sets: tile, element and output. -/
def connection (x : Switch) : Nat × Nat × Nat := (x.tile, x.elem, if x.elem = 1 then bitsOf x.set 0 4 else bitsOf x.set 0 3)

/-- R160: the order of switch entries: element, then offset; of elements the tile is the major key, then ELEM (DESIGN CHOICE,
log 25). -/
def switchKey (x : Switch) : Nat := (x.tile * 4 + x.elem) * 4096 + x.off

/-- R160, R161: switch entry j in a segment that holds it; `all` is the number of entries in the table. An element's
excess is counted over the image, which is what it holds once the image is installed (DEDUCED, log 25). -/
def switchStatus (bs : List Byte) (e : SegEntry) (j : Nat) : Nat :=
  let x := switchEntry bs j
  let clash (k : Nat) : Bool :=
    let y := switchEntry bs k
    connection y == connection x && decide (x.off < y.off + y.dur ∧ y.off < x.off + x.dur)
  worst
    (decide (imgLen bs < imgSwOff bs + 8 * j + 8) ||
      bitsOf (imgWord bs (imgSwOff bs + 8 * j)) 10 6 != 0 || bitsOf (imgWord bs (imgSwOff bs + 8 * j)) 28 4 != 0 ||
      decide (143 < x.tile ∨ e.len ≤ x.off) || !setOk x e.npath ||
      (decide (e.sw0 < j) && decide (switchKey x < switchKey (switchEntry bs (j - 1)))) ||
      ((List.range (j - e.sw0)).any fun k => clash (e.sw0 + k)))
    false
    (decide (4096 ≤ ((List.range j).filter fun k =>
      (segEntries bs).any (·.hasSwitch k) && (switchEntry bs k).tile == x.tile && (switchEntry bs k).elem == x.elem).length))

/-- R160, R161: path entry j: the grant id alone, at most 1,023. -/
def pathStatus (bs : List Byte) (j : Nat) : Nat :=
  worst (decide (imgLen bs < imgPathOff bs + 8 * j + 8 ∨ 1023 < imgWord bs (imgPathOff bs + 8 * j)) || imgWord bs (imgPathOff bs + 8 * j + 4) != 0) false false

/-- The grant id of path entry j. -/
def pathId (bs : List Byte) (j : Nat) : Nat := bitsOf (imgWord bs (imgPathOff bs + 8 * j)) 0 16

/-- The first entry of a table that fails: status and index. -/
def firstBad (n : Nat) (status : Nat → Nat) : Option (Nat × Nat) :=
  (List.range n).findSome? fun j => if status j = 0 then none else some (status j, j)

/-- The status of an entry in the segments that hold it: the least of those that are not 0. -/
def overSegs (es : List SegEntry) (has : SegEntry → Nat → Bool) (status : SegEntry → Nat → Nat) (j : Nat) : Nat :=
  (((es.filter (has · j)).map (status · j)).filter (· ≠ 0)).min?.getD 0

/-- R161: the checks of an image in their order: status and index, or none where every entry passes. -/
def imageFault (bs : List Byte) (room ncore : Nat) : Option (Nat × Nat) :=
  if headerStatus bs room ncore ≠ 0 then some (headerStatus bs room ncore, 0)
  else
    match firstBad (imgNseg bs) (segStatus bs) with
    | some r => some r
    | none =>
      let es := segEntries bs
      let top (f : SegEntry → Nat) : Nat := (es.map f).foldl max 0
      match firstBad (top fun e => e.slot0 + e.nslot) (overSegs es SegEntry.hasSlot (slotStatus bs)) with
      | some r => some r
      | none =>
        match firstBad (top fun e => e.sw0 + e.nsw) (overSegs es SegEntry.hasSwitch (switchStatus bs)) with
        | some r => some r
        | none => firstBad (top fun e => e.path0 + e.npath) (overSegs es SegEntry.hasPath fun _ => pathStatus bs)

/-- A segment with its entries. -/
def segmentOf (bs : List Byte) (e : SegEntry) : Segment :=
  { seg := e.seg
    loc := e.loc
    len := e.len
    slots := (List.range e.nslot).map fun k => slotEntry bs (e.slot0 + k)
    switches := (List.range e.nsw).map fun k => switchEntry bs (e.sw0 + k)
    paths := (List.range e.npath).map fun k => pathId bs (e.path0 + k) }

/-- The image as installed. -/
def imageOf (bs : List Byte) : Image := { ncore := imgNcore bs, segs := (segEntries bs).map (segmentOf bs) }

namespace State

/-- R299: the state of the partition's path with a grant id; an id that holds no grant is dark (R308). -/
def pathState (s : State) (id : Nat) : PathState :=
  ((s.chip.grants.find? fun g => g.id == id && (g.part == some s.p.num || g.part == none)).map (·.state)).getD .dark

/-- R303: the mode of the partition's path with a grant id, PAM4 where it holds no grant (log 31). -/
def pathMode (s : State) (id : Nat) : Nat :=
  ((s.chip.grants.find? fun g => g.id == id && g.part == some s.p.num).map (·.mode)).getD 1

/-- R162: the local exchanges of the partition that are running. -/
def localRuns (s : State) : List LocalRun := s.p.locals.filter fun l => decide (s.xc < l.xr + l.seg.len)

/-- R303: a running local exchange uses a transmit lane, or a receive lane of a destination. -/
def laneRunning (s : State) (src lane : Nat) (dests : List Nat) : Bool :=
  s.localRuns.any fun l => l.seg.switches.any fun x =>
    x.elem == 2 && x.set % 4 == lane && (if x.set.testBit 2 then dests.contains x.tile else x.tile == src)

/-- R106: the path entries whose path is not LIT: the first index. -/
def pathFault (s : State) (bs : List Byte) : Option Nat :=
  let es := segEntries bs
  let top := (es.map fun e => e.path0 + e.npath).foldl max 0
  (List.range top).find? fun j => (es.any (·.hasPath j)) && s.pathState (pathId bs j) != .lit

/-- R106, R161: the result of installing an image of bytes, with status 0 where it installs: index above status. -/
def imageStatus (s : State) (bs : List Byte) (room ncore : Nat) : Nat × Nat :=
  match imageFault bs room ncore with
  | some r => r
  | none => match s.pathFault bs with
    | some j => (1, j)
    | none => (0, 0)

end State

/-- R106: the domain's image is replaced. -/
def State.install (s : State) (bs : List Byte) : State := { s with p := { s.p with image := some (imageOf bs) } }

/-- R106: xload of another core of the domain, of the image `input.data` at offset `input.off`, in a domain of `input.n`
cores: it installs the image where every check passes. -/
def State.xloadByOther (s : State) : State :=
  if (s.imageStatus s.input.data (0xA0000 - s.input.off) s.input.n).1 = 0 ∧ s.localRuns = [] then s.install s.input.data
  else s

/-- R106: xload; it waits for the end of the domain's local exchanges. An image with an uncorrectable error in it traps with ECC_UNCORR
(DESIGN CHOICE, log 57). -/
def execXload (d a : Reg) (s : State) : Result :=
  let x := s.reg a
  s.privC <|
    s.check (State.addrTrap x 64 64 0) <|
      let room := 0xA0000 - offOf x
      let len := imgLen (s.c.mem.readBytes (offOf x) 64)
      let bs := s.c.mem.readBytes (offOf x) (if len ≤ room then max 64 len else 64)
      let r := s.imageStatus bs room s.c.ncore.toNat
      if s.memBad (offOf x) bs.length then s.eccTrap x 0 bs.length
      else if s.localRuns ≠ [] then s.wait
      else (if r.1 = 0 then s.install bs else s).result d (BitVec.ofNat 32 (r.2 % 65536 * 65536 + r.1))

end Sys2Proof.Machine
end

