-- ==== Sys2Proof/Machine/Optics.lean ====
section
/-! DEFINITION. Machine/Optics.lean: grants and the optical layer (R292 to R313). The grant instructions of other cores act
as the same instructions with `input.flag` and their request in the input (log 31). -/

namespace Sys2Proof.Machine

/-! Arithmetic (R293, R295). -/

/-- R293: the wavelength of a lane. -/
def waveOf (src lane : Nat) : Nat := if src < 144 then 4 * (src % 4) + lane else 8 * ((src - 144) % 2) + lane

/-- R295: round(100 log10(a / b)) for a / b from 1/4 to 100: the greatest n with 10^(2n-1) b^200 ≤ a^200. -/
def log100 (a b : Nat) : Int :=
  (((List.range 262).filter fun m => decide (10 ^ (2 * m) * b ^ 200 ≤ a ^ 200 * 10 ^ 123)).length : Int) - 62

/-- R295: ceil(log2 f). -/
def log2Up (f : Nat) : Nat := ((List.range 5).filter fun k => decide (2 ^ k < f)).length

/-- R295: the launched power and the split, in tenths. -/
def power (gu : Nat) : Int := log100 gu 4
def split (f : Nat) : Int := log100 f 1 + 2 * log2Up f

/-- R294: the sensitivity of a mode. -/
def sensitivity (mode : Nat) : Int :=
  match mode with
  | 0 => -120
  | 1 => -70
  | _ => -25

/-- R295, R304: the loss to a destination, as firmware has measured it last; a fibre lane has one, whatever the tile. -/
def State.lossTo (s : State) (src lane dest : Nat) : Int :=
  let d := if src < 144 then dest else 0
  match s.chip.losses.find? fun e => e.1 == src && e.2.1 == lane && e.2.2.1 == d with
  | some e => e.2.2.2
  | none => Config.loss src lane d

/-- R295: rxmin. -/
def State.rxMin (s : State) (gu src lane : Nat) (dests : List Nat) : Int :=
  let rx (d : Nat) : Int := power gu - split dests.length - s.lossTo src lane d
  ((dests.map rx).min?).getD 0

/-- R295, R296: the mode granted for a request of mode 0 to 3, none where it is not feasible. -/
def modeFor (rx : Int) (margin mode : Nat) : Option Nat :=
  let ok (m : Nat) : Bool := decide (sensitivity m + margin ≤ rx)
  if mode = 3 then [2, 1, 0].find? ok else if ok mode then some mode else none

namespace Grant

def wave (g : Grant) : Nat := waveOf g.src g.lane
/-- R297: an active grant. -/
def active (g : Grant) : Bool := g.state != .dark
/-- What it takes from the budgets; a step of R304 holds the greater of both powers. -/
def budget (g : Grant) : Nat := match g.next with
  | some n => max g.gu n.2
  | none => g.gu
/-- R300: the health limit. -/
def health (g : Grant) : Int := g.margin / 2
/-- Its place in the model's inputs: partition and id. -/
def key (g : Grant) : Nat := g.part.getD 0 * 65536 + g.id
def fibre (g : Grant) : Bool := g.part.isNone

end Grant

/-- R299: the codes of the states. -/
def PathState.code : PathState → Nat
  | .dark => 0
  | .settling => 1
  | .lit => 2
  | .degraded => 3
  | .stepping => 4

/-- Who asks for a grant: partition, launch, mode, and the partition's registers and tiles. -/
structure Asker where
  part : Nat
  lid : Nat
  svc : Bool
  lbudget : Nat
  lmargin : Nat
  tiles : List Nat
  deriving DecidableEq, Repr

/-- R306: a request. -/
structure GrantReq where
  gu : Nat
  src : Nat
  lane : Nat
  mode : Nat
  margin : Nat
  f : Nat
  dlist : Word
  reserved : Bool
  lanex : Bool
  deriving DecidableEq, Repr

/-- R306: the request in 16 bytes. -/
def grantReq (bs : List Byte) : GrantReq :=
  let w (i : Nat) : Nat := leNat ((bs.drop (4 * i)).take 4)
  let src := bitsOf (w 1) 0 8
  { gu := bitsOf (w 0) 0 16, src := src, lane := bitsOf (w 1) 8 2 + if src < 144 then 0 else 4 * bitsOf (w 1) 10 1,
    mode := bitsOf (w 1) 12 4, margin := bitsOf (w 1) 16 16, f := bitsOf (w 2) 0 5, dlist := BitVec.ofNat 32 (w 3),
    reserved := bitsOf (w 0) 16 16 != 0 || bitsOf (w 1) 11 1 != 0 || bitsOf (w 2) 5 27 != 0, lanex := bitsOf (w 1) 10 1 == 1 }

namespace GrantReq

/-- R307: the request has a destination list to read. -/
def listed (q : GrantReq) : Bool := decide (q.src < 144 ∧ 1 ≤ q.f ∧ q.f ≤ 16)

/-- R306: the request is malformed. -/
def malformed (q : GrantReq) (k : Asker) (dests : List Nat) : Bool :=
  q.reserved || decide (q.gu < 1 ∨ 400 < q.gu ∨ 3 < q.mode ∨ 255 < q.margin ∨ 175 < q.src) ||
  (if q.src < 144 then
    !k.tiles.contains q.src || q.lanex || !q.listed || !dests.all k.tiles.contains || dests.contains q.src ||
      !decide dests.Nodup
  else !k.svc || q.f != 1)

end GrantReq

namespace State

/-! The tables and their sums. -/

def asker (s : State) : Asker :=
  { part := s.p.num, lid := s.c.lid, svc := s.svc, lbudget := s.p.lbudget.toNat, lmargin := s.p.lmargin.toNat,
    tiles := s.p.cfg.tiles }

/-- Another core: its partition `input.chip`, launch `input.seq`, mode `input.flag2`; of another partition also its budget
`input.off`, default margin `input.len` and tiles `input.nums`. -/
def otherAsker (s : State) : Asker :=
  let i := s.input
  if i.chip = s.p.num then { s.asker with lid := i.seq, svc := i.flag2 }
  else { part := i.chip, lid := i.seq, svc := i.flag2, lbudget := i.off, lmargin := i.len, tiles := i.nums }

/-- The grant of an id, as a partition sees it. -/
def grantOf (s : State) (part id : Nat) : Option Grant :=
  s.chip.grants.find? fun g => g.id == id && (g.fibre || g.part == some part)
def setGrant (s : State) (g : Grant) : State :=
  { s with chip := { s.chip with grants := s.chip.grants.map fun x => if x.id = g.id ∧ x.part = g.part then g else x } }
def dropGrant (s : State) (g : Grant) : State :=
  { s with chip := { s.chip with grants := s.chip.grants.filter fun x => !(x.id == g.id && x.part == g.part) } }

/-- The GU of the active grants that satisfy a test. -/
def guSum (s : State) (p : Grant → Bool) : Nat :=
  ((s.chip.grants.filter fun g => g.active && p g).map Grant.budget).foldl (· + ·) 0

/-- R297, R298: taking `new` GU in the place of `old` exceeds a limit; one that adds none is never refused. -/
def overBudget (s : State) (part : Option Nat) (lbudget wave old new : Nat) : Bool :=
  decide (old < new) &&
  ((part.isSome && decide (lbudget + old < s.guSum (fun g => g.part == part) + new)) ||
    decide (9600 + old < s.guSum (fun _ => true) + new) ||
    decide (600 + old < s.guSum (fun g => g.wave == wave) + new))

/-- R292, R307: the transmit lane or a receive lane is held by an allocated grant. -/
def laneTaken (s : State) (src lane : Nat) (dests : List Nat) : Bool :=
  s.chip.grants.any fun g => g.lane == lane &&
    (g.src == src || (decide (src < 144 ∧ g.src < 144) && g.dests.any dests.contains))

/-- R307: the lowest free id of a partition. -/
def freeId (s : State) (part : Nat) : Option Nat := (List.range 1024).find? fun i => (s.grantOf part i).isNone

/-- R307: the decision on a request: the state after it and what s[d] becomes. -/
def decideGrant (s : State) (k : Asker) (q : GrantReq) (dests : List Nat) : State × Word :=
  let dests := if q.src < 144 then dests else [0]
  let id := if q.src < 144 then s.freeId k.part else some (0x8000 + 8 * (q.src - 144) + q.lane)
  let margin := if q.margin = 0 then k.lmargin else q.margin
  let rx := s.rxMin q.gu q.src q.lane dests
  let part := if q.src < 144 then some k.part else none
  if q.malformed k dests then (s, 4)
  else match id with
    | none => (s, 3)
    | some id =>
      if s.laneTaken q.src q.lane dests || s.chip.failed.contains (waveOf q.src q.lane) then (s, 3)
      else match modeFor rx margin q.mode with
        | none => (s, 2)
        | some mode =>
          if s.overBudget part k.lbudget (waveOf q.src q.lane) 0 q.gu then (s, 1)
          else
            let g : Grant :=
              { id := id, part := part, owner := k.lid, src := q.src, lane := q.lane, dests := dests, gu := q.gu,
                mode := mode, margin := margin, rxp := rx }
            ({ s with chip := { s.chip with grants := s.chip.grants ++ [g] } }, BitVec.ofNat 32 (id * 65536 + mode * 256))

end State

/-- R307: lgrant. -/
def execLgrant (d a : Reg) (s : State) : Result :=
  if s.input.flag then
    let q := grantReq s.input.data
    let dests := if q.listed then ((s.input.data.drop 16).take q.f).map (·.toNat) else []
    .next (if s.laneRunning q.src q.lane dests then s else (s.decideGrant s.otherAsker q dests).1)
  else
    s.classC <| s.check (State.addrTrap (s.reg a) 16 16 4) <|
      let off := offOf (s.reg a)
      let q := grantReq (s.c.mem.readBytes off 16)
      s.check (if q.listed then State.addrTrap q.dlist q.f 1 4 else none) <|
        if s.memBad off 16 then s.eccTrap (s.reg a) 0 16
        else if q.listed = true ∧ s.memBad (offOf q.dlist) q.f = true then s.eccTrap q.dlist 0 q.f
        else
          let dests := if q.listed then (s.c.mem.readBytes (offOf q.dlist) q.f).map (·.toNat) else []
          if s.laneRunning q.src q.lane dests then s.wait
          else let r := s.decideGrant s.asker q dests; r.1.result d r.2

namespace State

/-- R308, R311: a grant that an asker in U mode may not change. -/
def foreign (k : Asker) (g : Grant) : Bool := !k.svc && (g.fibre || g.owner != k.lid)

/-- R308, R304: the path goes dark, and its lanes, GU and id are free; a fibre lane sends a drain marker first. -/
def releaseGrant (s : State) (g : Grant) : State := (if g.fibre then s.put (.linkMarker g.id) else s).dropGrant g

/-- R303: the grant that an asker may change holds a lane that a running local exchange uses; a fibre lane is none. -/
def grantHeld (s : State) (k : Asker) (id : Nat) : Bool :=
  (s.grantOf k.part id).any fun g => !g.fibre && !foreign k g && s.laneRunning g.src g.lane g.dests

/-- R308: lrelease of an id. -/
def releaseId (s : State) (k : Asker) (id : Nat) : State :=
  match s.grantOf k.part id with
  | some g => if foreign k g then s else s.releaseGrant g
  | none => s

/-- R313: the grants of a launch that has ended are released. -/
def releaseLaunch (s : State) (lid : Nat) : State :=
  (s.chip.grants.filter fun g => !g.fibre && g.part == some s.p.num && g.owner == lid).foldl releaseGrant s

end State

/-- R308: lrelease; of another core: id `input.n`. -/
def execLrelease (a : Reg) (s : State) : Result :=
  if s.input.flag then
    .next (if s.grantHeld s.otherAsker s.input.n then s else s.releaseId s.otherAsker s.input.n)
  else
    let id := (s.reg a).toNat % 65536
    s.classC <| if s.grantHeld s.asker id then s.wait else (s.releaseId s.asker id).fin

/-- R309: what lstat reads of a grant. -/
def Grant.word (g : Grant) : Word :=
  BitVec.ofNat 32 ((g.rxp % 65536).toNat * 65536 + g.mode % 16 * 256 + (if g.fail then 8 else 0) + g.state.code)

/-- R309: what lstat reads. -/
def State.lstatWord (s : State) (x : Word) : Word :=
  let q := x.toNat
  let src := bitsOf q 0 8
  let lane := bitsOf q 8 3
  let tile := bitsOf q 16 8
  if x.getLsbD 31 then
    if (src < 144 ∧ lane < 4 ∧ tile < 144) ∨ (144 ≤ src ∧ src < 176) then
      BitVec.ofNat 32 ((s.lossTo src lane tile).toNat % 65536)
    else 0xFFFF
  else if q = 0xFFFF then BitVec.ofNat 32 (s.p.lbudget.toNat - s.guSum fun g => g.part == some s.p.num)
  else if q = 0xFFFE then BitVec.ofNat 32 (9600 - s.guSum fun _ => true)
  else if 65535 < q then 0
  else match s.grantOf s.p.num q with
    | some g => g.word
    | none => 0

def execLstat (d a : Reg) (s : State) : Result := s.classC <| s.result d (s.lstatWord (s.reg a))

/-- R310: lmargin reads a grant's health and clears its CRC count. WORST before the first measurement is open (log 31). -/
def execLmargin (d a : Reg) (s : State) : Result :=
  s.classC <|
    match s.grantOf s.p.num ((s.reg a).toNat % 65536) with
    | none => s.result d 0x8000
    | some g =>
      let (worst, m) : Nat × Nat := match g.mmargin with
        | some m => (g.worst, (m % 65536).toNat)
        | none => ((Config.openWord s.tick 0).toNat, 0x8000)
      (s.setGrant { g with crc := 0 }).result d (BitVec.ofNat 32 (g.crc % 256 * 2 ^ 24 + worst % 256 * 65536 + m))

/-- R310: lmargin of another core, of partition `input.chip`, on id `input.n`: it clears the count. -/
def State.lmarginByOther (s : State) : State :=
  match s.grantOf s.input.chip s.input.n with
  | some g => s.setGrant { g with crc := 0 }
  | none => s

namespace State

/-- R304, R311: a change that has been granted: a LIT or STEPPING fibre lane steps, any other path settles again. -/
def changeGrant (s : State) (g : Grant) (gu mode : Nat) (rx : Int) : State :=
  if g.fibre = true ∧ (g.state = .lit ∨ g.state = .stepping) then
    let t := if mode < g.mode ∨ gu < g.gu then s.put (.linkMarker g.id) else s
    t.setGrant { g with state := .stepping, next := some (mode, gu) }
  else s.setGrant { g with gu := gu, mode := mode, rxp := rx, state := .settling, next := none }

/-- R311: lmode of an id with a change; the state after it and what s[d] becomes. -/
def modeChange (s : State) (k : Asker) (id x : Nat) : State × Word :=
  let word (mode r : Nat) : Word := BitVec.ofNat 32 (id % 65536 * 65536 + mode * 256 + r)
  match s.grantOf k.part id with
  | none => (s, word 0 5)
  | some g =>
    let m := bitsOf x 0 4
    if g.fail || foreign k g then (s, word g.mode 5)
    else if bitsOf x 4 12 ≠ 0 ∨ 400 < bitsOf x 16 16 ∨ (3 < m ∧ m < 15) then (s, word g.mode 4)
    else
      let gu := if bitsOf x 16 16 = 0 then g.gu else bitsOf x 16 16
      let rx := s.rxMin gu g.src g.lane g.dests
      match modeFor rx g.margin (if m = 15 then g.mode else m) with
      | none => (s, word g.mode 2)
      | some mode =>
        if s.overBudget g.part k.lbudget g.wave g.budget gu then (s, word g.mode 1)
        else (s.changeGrant g gu mode rx, word mode 0)

end State

/-- R311: lmode; of another core: id `input.n`, change `input.value`. -/
def execLmode (d a b : Reg) (s : State) : Result :=
  if s.input.flag then
    .next (if s.grantHeld s.otherAsker s.input.n then s
      else (s.modeChange s.otherAsker s.input.n s.input.value.toNat).1)
  else
    let id := (s.reg a).toNat % 65536
    s.classC <|
      if s.grantHeld s.asker id then s.wait
      else let r := s.modeChange s.asker id (s.reg b).toNat; r.1.result d r.2

/-! Measurement and failure (R299 to R302, R304). -/

namespace State

/-- The measurements of a grant, one for each destination; none where the input has not got them all. -/
def measured (s : State) (g : Grant) : Option (List RxMeas) :=
  match s.input.meas.find? (·.1 = g.key) with
  | some m => if m.2.length = g.dests.length ∧ m.2 ≠ [] then some m.2 else none
  | none => none

/-- R300: a path passes. -/
def passes (g : Grant) (ms : List RxMeas) : Bool := ms.all fun m => decide (g.health ≤ m.margin) && decide (m.crc < 2)

/-- R310: the CRC failures of a window so far, at any destination; those that were counted before are not counted again. -/
def withCrc (g : Grant) (ms : List RxMeas) : Grant :=
  let n := (ms.map (·.crc)).foldl (· + ·) 0
  { g with crc := min 255 (g.crc + (n - g.seen)), seen := max n g.seen }

/-- R310: what a window leaves in a grant. -/
def withMeas (g : Grant) (ms : List RxMeas) : Grant :=
  let least := ((ms.map (·.margin)).min?).getD 0
  { withCrc g ms with seen := 0, worst := ms.findIdx (·.margin = least), mmargin := some least }

/-- R362: the record of a path, from the controller of its partition or of the chip. -/
def pathRecord (s : State) (g : Grant) (st : PathState) : State :=
  s.logRecord (match g.part with | some p => 0x1310 + p | none => 0x1314) 4 (BitVec.ofNat 32 g.id)
    (BitVec.ofNat 32 st.code) 0 0

/-- R300: the windows that have ended by an xc: one ends wherever c.xcyc, which wraps modulo 2^32, is a multiple of 10,000. -/
def windowsEnded (xc : Nat) : Nat := xc / 2 ^ 32 * 429497 + xc % 2 ^ 32 / 10000

/-- R300: the xc in which window n ends, and its length: the one that ends as c.xcyc wraps is shorter. -/
def windowStop (n : Nat) : Nat := n / 429497 * 2 ^ 32 + n % 429497 * 10000
def windowLength (stop : Nat) : Nat := if stop % 2 ^ 32 = 0 then 2 ^ 32 % 10000 else 10000

/-- R301: the window of a grant that ends in xc `stop`: a path that became LIT within it is not judged, nor is a fibre lane while
its port drains or is DRAINED, up to the first full window after that. CRC failures count all the same, on a path that has gone
dark too (R310). -/
def windowEnd (stop : Nat) (s : State) (g : Grant) : State :=
  let off : Bool := g.fibre && (List.finRange 32).any fun p =>
    p.val == (g.id - 0x8000) / 8 && ((s.port p).draining || (s.port p).drained || decide (stop < (s.port p).clearXc + windowLength stop))
  match s.measured g with
  | none => s
  | some ms =>
    let h := withMeas g ms
    if off = true ∨ g.state = .dark then s.setGrant { g with crc := h.crc, seen := 0 }
    else if g.state = .lit ∧ g.litXc + windowLength stop ≤ stop ∧ passes g ms = false then
      (s.setGrant { h with state := .degraded }).pathRecord g .degraded
    else s.setGrant h

end State

/-- R299, R300: the settling of the grant with key `input.n` ends. CRC failures of the measurement count
once: those of one that spans the end of a window count with its windows (R310). -/
def execSettlingEnd (s : State) : Result :=
  match s.chip.grants.find? (·.key = s.input.n) with
  | some g =>
    match s.measured g with
    | some ms =>
      let g' := if State.windowStop (State.windowsEnded s.xc) + 2000 ≤ s.xc then State.withCrc g ms else g
      .next (if g.state = .settling then
        s.setGrant (if State.passes g ms then { g' with state := .lit, litXc := s.xc } else { g' with state := .degraded })
      else s)
    | none => .next s
  | none => .next s

/-- R300, R301: the next measurement window that has ended and has not been dealt with ends. Within a window (`input.flag`)
the CRC failures that have come in it so far are counted (R310). -/
def execMeasurementWindow (s : State) : Result :=
  let n := s.chip.window + 1
  let count (t : State) (g : Grant) : State := match s.measured g with
    | some ms => t.setGrant (State.withCrc g ms)
    | none => t
  .next (if s.input.flag then s.chip.grants.foldl count s
  else if n ≤ State.windowsEnded s.xc then
    s.chip.grants.foldl (State.windowEnd (State.windowStop n)) { s with chip := { s.chip with window := n } }
  else s)

/-- R302: wavelength `input.n` fails: every grant on it goes dark, with a record for each; the service core of tile 0 gets a
machine-check message; fibre lanes freeze the collectives (R343). -/
def execWavelengthFail (s : State) : Result :=
  let hit := s.chip.grants.filter fun g => g.wave == s.input.n && !g.fail
  let dark (t : State) (g : Grant) : State :=
    (t.setGrant { g with state := .dark, fail := true, next := none }).pathRecord g .dark
  let fails := (hit.filter (·.part == some s.p.num)).map fun g => (g.id, s.offset)
  let note (e : Exch) : Exch := { e with fails := fails ++ e.fails }
  let t := hit.foldl dark { s with c := { s.c with exch := s.c.exch.map note } }
  let colls := if hit.any Grant.fibre then t.chip.colls.map fun k => { k with void := true } else t.chip.colls
  .next (if s.input.n < 16 ∧ s.chip.failed.contains s.input.n = false then
    ({ t with chip := { t.chip with failed := t.chip.failed ++ [s.input.n], colls := colls } } : State).tellTile0
      (.laserFail s.input.n) (.laserFail s.input.n)
  else s)

/-- R302: firmware returns wavelength `input.n` to service. -/
def execWavelengthRestore (s : State) : Result :=
  .next { s with chip := { s.chip with failed := s.chip.failed.filter (· ≠ s.input.n) } }

/-- R304: the step of fibre grant `input.n` ends at the agreed boundary. -/
def execLinkStep (s : State) : Result :=
  match s.chip.grants.find? (fun g => g.fibre && g.id == s.input.n) with
  | some g =>
    .next (match g.state, g.next with
      | .stepping, some (mode, gu) =>
        s.setGrant { g with state := .lit, litXc := s.xc, mode := mode, gu := gu, rxp := s.rxMin gu g.src g.lane g.dests, next := none }
      | _, _ => s)
  | none => .next s

/-- R304: no boundary is agreed: mode and power stay as they were, and a record is written. -/
def execLinkStepTimeout (s : State) : Result :=
  match s.chip.grants.find? (fun g => g.fibre && g.id == s.input.n) with
  | some g =>
    .next (if g.state = .stepping then
      (s.setGrant { g with state := .lit, litXc := s.xc, next := none }).logRecord 0x1314 6 (BitVec.ofNat 32 g.id) 1 0 0
    else s)
  | none => .next s

end Sys2Proof.Machine
end

