-- ==== Sys2Proof/Machine/Sync.lean ====
section
/-! DEFINITION. Machine/Sync.lean: page 1 MAJ 0x1 to 0x3: named barriers, mailbox, wait-on-address (R165 to R177). -/

namespace Sys2Proof.Machine

/-! Named barriers (R174 to R177). -/

namespace Barrier

/-- R165: the reset state. -/
def fresh : Barrier := {}

/-- R177: the flip still needs an arrival or a credit. -/
def lacks (b : Barrier) : Bool := b.pena != b.expa || decide (b.penb.toNat < b.expb.toNat)

end Barrier

/-- R268: a queued head-unit operation that writes local memory. -/
def headWrites : Instr → Bool
  | .vpread .. => true
  | _ => false

/-- R166: a drain. -/
def isDrain : Instr → Bool
  | .mdrain .. | .mdrq .. => true
  | _ => false

namespace State

/-- R176: an update of an object by the core's own instruction, with the flip test. It is the first of its core cycle: what
engines bring in the same cycle joins it (`engineBarriers`). -/
def barrierUpdate (s : State) (n : BarName) (b : Barrier) : State :=
  let t := s.setBarrier n b.flip
  { t with c := { t.c with cycleBar := [(n, b)] } }

/-- R177: something outstanding can still bring an arrival or a credit. -/
def barrierAble (s : State) (n : BarName) : Bool :=
  s.c.copy.any (fun q => q.bv && q.barName == n) ||
  ((s.barrier n).src == 1 && s.c.mx.any fun q => isDrain q.op) ||
  ((s.barrier n).src == 2 && s.c.head.any fun q => headWrites q.op)

end State

def execBarm (a : Reg) (n : BarName) (s : State) : Result :=
  if (s.reg a).extractLsb' 0 2 = 3 then s.trap .illegal
  else s.classC (s.barrierUpdate n { s.barrier n with src := (s.reg a).extractLsb' 0 2 }).fin

def execBarr (n : BarName) (s : State) : Result :=
  s.classC <|
    if (s.barrier n).expa.toNat < (s.barrier n).pena.toNat + 1 then s.trap .barrierOver
    else (s.barrierUpdate n { s.barrier n with pena := (s.barrier n).pena + 1 }).fin

/-- R177; ILLEGAL comes before PHASE (R40). -/
def execBwait (a : Reg) (n : BarName) (s : State) : Result :=
  let waits := (s.barrier n).ph == (s.reg a).getLsbD 0
  if waits && (s.barrier n).lacks && !s.barrierAble n then s.trap .illegal 14
  else s.classC (if waits then s.wait else s.fin)

def execBtest (a : Reg) (n : BarName) (s : State) : Result := s.classC <| s.result a (s.barrier n).word0

def execBstat (a : Reg) (n : BarName) (s : State) : Result :=
  s.classC <| (s.barrierUpdate n { s.barrier n with status := 0 }).result a (s.barrier n).status

def execBexp (a : Reg) (n : BarName) (s : State) : Result :=
  let b := { s.barrier n with expa := (s.reg a).extractLsb' 0 8, expb := (s.reg a).extractLsb' 8 24 }
  if s.reg a = 0 then s.trap .illegal else s.classC (s.barrierUpdate n b).fin

def execBinv (n : BarName) (s : State) : Result := s.classC <| (s.barrierUpdate n Barrier.fresh).fin

/-! The mailbox (R172, R173). -/

namespace State

/-- The oldest message, and the mailbox without it. -/
def oldest (s : State) : DWord := s.c.mbox[s.c.mboxHead.toNat]
def popMessage (s : State) : State := { s with c := { s.c with mboxHead := s.c.mboxHead + 1, mboxCount := s.c.mboxCount - 1 } }

/-- The messages in the mailbox. -/
def mailCount (s : State) : Word := s.c.mboxCount.zeroExtend 32

end State

def execWmsg (d : Reg) (s : State) : Result :=
  s.classC <| if s.c.mboxCount = 0 then s.wait else s.result d s.mailCount

def execRmsg (d a : Reg) (s : State) : Result :=
  s.classC <|
    if s.c.mboxCount = 0 then ((s.setReg d 0).setReg a 0).fin
    else ((s.popMessage.setReg d (s.oldest.extractLsb' 0 32)).setReg a (s.oldest.extractLsb' 32 32)).fin

def execMcnt (d : Reg) (s : State) : Result := s.classC <| s.result d s.mailCount

def execMsend (a b : Reg) (s : State) : Result :=
  s.classC <|
    if 64 ≤ s.t.inbox.length then s.wait
    else
      let t := { s.t with inbox := s.t.inbox ++ [.user s.t.idx.val (s.reg b ++ s.reg a)] }
      ({ s with t := t } : State).fin

/-- R172: an agent posts its messages, or the oldest held one enters the mailbox when it has room; with `input.flag` they are
for the context in the shadow, and enter its mailbox (R206). -/
def execMailboxPost (s : State) : Result :=
  let post (s : State) : State :=
    let s := s.input.msgs.foldl State.post s
    match s.c.held with
    | m :: ms => if s.mboxHeld then s else ({ s with c := { s.c with held := ms } } : State).enqueue m
    | [] => s
  .next (if s.input.flag then s.onShadow post else post s)

/-- R173: the tile service core takes a message from its inbox. -/
def execServiceInboxTake (s : State) : Result :=
  .next { s with t := { s.t with inbox := s.t.inbox.drop 1 } }

/-! Wait-on-address (R168 to R171). -/

namespace State

/-- R171: the address names a line of a data view. -/
def lineTrap (ea : Word) : Option Trap :=
  if 8 ≤ viewOf ea ∧ viewOf ea ≤ 10 then some ⟨.view, 5, ea⟩
  else if 6 < viewOf ea ∨ 0x9FFFF < offOf ea then some ⟨.localRange, 0, ea⟩
  else none

def lineOf (ea : Word) : Nat := offOf ea / 64 * 64

/-- The monitor that watches a line, and a free one. -/
def watching (s : State) (l : Nat) : Option (Fin 8) :=
  (List.finRange 8).find? fun i => s.c.mon[i].armed && s.c.mon[i].line == l
def freeMonitor (s : State) : Option (Fin 8) := (List.finRange 8).find? fun i => !s.c.mon[i].armed

def setMonitor (s : State) (i : Fin 8) (m : Monitor) : State := { s with c := { s.c with mon := s.c.mon.set i m } }

end State

def execMonn (d a : Reg) (s : State) : Result :=
  let l := State.lineOf (s.reg a)
  s.classC <| s.check (State.lineTrap (s.reg a)) <|
    match s.watching l, s.freeMonitor with
    | some _, _ => s.result d 0
    | none, some i => (s.setMonitor i { armed := true, line := l }).result d 0
    | none, none => s.result d 1

def execWaita (d a : Reg) (s : State) : Result :=
  let l := State.lineOf (s.reg a)
  s.classC <| s.check (State.lineTrap (s.reg a)) <|
    match s.watching l, s.freeMonitor with
    | some i, _ => if s.c.mon[i].fired then (s.setMonitor i {}).result d 0 else s.waitAt .waita
    | none, some i => (s.setMonitor i { armed := true, line := l }).waitAt .waita
    | none, none => s.result d 1

def execClra (a : Reg) (s : State) : Result :=
  s.classC <| s.check (State.lineTrap (s.reg a)) <|
    match s.watching (State.lineOf (s.reg a)) with
    | some i => (s.setMonitor i {}).fin
    | none => s.fin

end Sys2Proof.Machine
end

