-- ==== Sys2Proof/Machine/Matrix.lean ====
section
/-! DEFINITION. Machine/Matrix.lean: the matrix slice, page 3 MAJ 0x0 (R128 to R140, with R33, R34, R55, R213). -/

namespace Sys2Proof.Machine

/-! Values of rows and columns (R131). -/

/-- The views that combine share a class: FP8, 16-bit, B4, INT8. -/
def viewClass (v : Nat) : Nat :=
  match v with
  | 1 | 2 => 1
  | 3 | 4 => 2
  | 5 => 3
  | _ => 4

/-- Row r of A, or column r of B: 64 bytes of the slot, with their scale bytes for view 0x5. -/
def rowVals (view : Nat) (slot scales : List Byte) (r : Nat) : List Val :=
  let bs := (slot.drop (64 * r)).take 64
  if view = 5 then (List.range 128).map (State.b4At bs ((scales.drop (16 * r)).take 16))
  else
    let t := viewType view false
    (List.range (512 / t.width)).map fun k => toVal t false (State.elemBits bs t.width k)

/-- The same as integers, through view 0x6. -/
def rowInts (u : Bool) (slot : List Byte) (r : Nat) : List Int :=
  let t : ElemType := if u then .u8 else .i8
  ((slot.drop (64 * r)).take 64).map fun b => laneInt t b.toNat

/-- R55: the exact sum of products; its first product starts it, so that it is -0 only where every product is. -/
def exactDot (xs ys : List Val) : Val :=
  match List.zipWith (fun x y => (mulVal x y).1) xs ys with
  | [] => .fin false 0 0
  | p :: ps => ps.foldl (fun a x => (addVal a x).1) p

def intDot (xs ys : List Int) : Int := (List.zipWith (· * ·) xs ys).foldl (· + ·) 0

/-- R135: the status bits. -/
def mxECC : Word := 1
def mxRerun : Word := 2
def mxFail : Word := 4
def mxSAT : Word := 8
def mxNAN : Word := 16
def mxINF : Word := 32

/-- R55, R135: a floating-point element updated by D, with its status bits. -/
def accumF (f : Fmt) (old : Nat) (d : Val) : Nat × Word :=
  let a := f.decode old
  let r := (f.encode false (addVal a d).1).1
  let finite (v : Val) : Bool := match v with | .fin .. => true | _ => false
  match f.decode r with
  | .nan => (r, if a = .nan then 0 else mxNAN)
  | .inf _ => (r, if finite a && finite d then mxINF else 0)
  | .fin .. => (r, 0)

/-- R55: an INT32 element updated by D. -/
def accumI (sat : Bool) (old : Nat) (d : Int) : Nat × Word :=
  let x := signedOf 32 old + d
  (fitInt true sat 32 x, if sat && decide (clampInt true 32 x ≠ x) then mxSAT else 0)

/-- R134: one requantised element: the exact rational T × M / 2^S rounded, then saturated. -/
def requant (o : DrqType) (x m : Int) (sh : Nat) : Nat × Word :=
  let q := rneShift (x * m) sh
  let (sgn, w) := match o with
    | .i8 => (true, 8)
    | .u8 => (false, 8)
    | .i16 => (true, 16)
  (wrapInt w (clampInt sgn w q), if clampInt sgn w q ≠ q then mxSAT else 0)

/-! What a matrix instruction names. -/

/-- The tile type and the bank of a matrix instruction. -/
def mxTile : Instr → Option (AccType × Reg)
  | .mma t d _ _ => some (t, d)
  | .mmai _ _ _ d _ _ | .mrsum _ _ d _ _ | .mcsum _ _ d _ _ => some (.i32, d)
  | .mzero t d | .mload t _ d _ => some (t, d)
  | .mdrain t _ a => some (t, a)
  | .mdrq _ _ a _ => some (.i32, a)
  | _ => none

/-- Whether it is one of those that gangs share and that pop. -/
def isMma : Instr → Bool
  | .mma .. | .mmai .. => true
  | _ => false

/-- The function and modifier that the members of a gang compare (R33). -/
def mxCode (i : Instr) : Nat × BitVec 6 :=
  match fieldsOf i with
  | some f => (f.fn.toNat, f.mod6)
  | none => (0, 0)

/-- The bytes that mload and mdrain move. -/
def mloadBytes (t : AccType) (bc : Bool) : Nat := if bc then t.tileBytes / 32 else t.tileBytes

namespace State

/-- R139: the core's column, and the columns of its group of a size code. -/
def column (s : State) : Nat := s.t.idx.val % 4
def group (s : State) (code : Nat) : List Nat :=
  match code with
  | 0 => [s.column]
  | 1 => [s.column / 2 * 2, s.column / 2 * 2 + 1]
  | _ => [0, 1, 2, 3]

/-- R19: GSZ, LEAD, FOL. -/
def gsz (s : State) : Nat := (s.c.status.extractLsb' 8 2).toNat
def leads (s : State) : Bool := s.c.status.getLsbD 11

/-- The other members of a group as the row's wires show them (R33). -/
def partners (s : State) (code : Nat) : List RowCore :=
  s.row.filter fun r => (s.group code).contains r.col.val && r.col.val != s.column

/-- R33: the member in the lowest column leads. -/
def gangLeader (s : State) : Bool := (s.group s.gsz).head? == some s.column

/-- The rings whose slots an instruction reads: a member that does not lead reads no A ring (R33). -/
def mxRings (s : State) : Instr → List HReg
  | .mma _ _ a b | .mmai _ _ _ _ a b => if s.gsz ≠ 0 ∧ s.gangLeader = false then [b] else if a = b then [a] else [a, b]
  | .mrsum _ _ _ a _ | .mcsum _ _ _ a _ => [a]
  | _ => []

/-- The view of a ring that the view checks cover: an unset ring, or one in a view that hset refuses, is checked only
for HANDLE (R131). -/
def ringView (s : State) (h : HReg) : Option Nat :=
  if (s.handle h).count = 0 ∨ 6 < viewOf (s.handle h).base then none else some (viewOf (s.handle h).base)

/-- The slot that an instruction would read next: the index is head + pops owed (R132). -/
def nextSlot (s : State) (h : HReg) : Nat := offOf ((s.handle h).slot ((s.handle h).head.toNat + s.popsOwed h))

/-- R131: the views an instruction accepts. -/
def viewOk (op : Instr) (v : Nat) : Bool :=
  match op with
  | .mma .. => decide (1 ≤ v ∧ v ≤ 5)
  | _ => v == 6

/-- R131: accumulation that 16-bit inputs do not allow. -/
def accBadFor (op : Instr) (v : Nat) : Bool :=
  match op with
  | .mma t _ _ _ => viewClass v == 2 && t != .f32
  | _ => false

/-- R131: the traps for rings, c.eaddr holding the ring's base, that of A where the views of A and B do not combine
(DESIGN CHOICE, log 47). DEDUCED (log 17): the accumulation type is checked for a
set pair of inputs only. -/
def ringsTrap (s : State) (op : Instr) (hs : List HReg) : Option Trap :=
  let base (h : HReg) : Word := (s.handle h).base
  let vs := hs.filterMap fun h => (s.ringView h).map fun v => (h, v)
  match vs.find? fun p => !viewOk op p.2 with
  | some p => some ⟨.view, 1, base p.1⟩
  | none =>
    match vs.find? fun p => vs.any fun q => viewClass q.2 != viewClass p.2 with
    | some p => some ⟨.view, 2, base p.1⟩
    | none =>
      match if vs.length = hs.length then vs.find? fun p => accBadFor op p.2 else none with
      | some p => some ⟨.view, 3, base p.1⟩
      | none =>
        match vs.find? fun p => p.2 == 5 && decide (0x9FFFF < s.scaleOff (s.nextSlot p.1) + 511) with
        | some p => some ⟨.localRange, 0, base p.1⟩
        | none => none

/-- R134: the address operands with their extents and alignments. -/
def mxAddrs (s : State) : Instr → List (Word × Nat × Nat)
  | .mload t bc _ a => [(s.reg a, mloadBytes t bc, 64)]
  | .mdrain t d _ => [(s.reg d, t.tileBytes, 64)]
  | .mdrq o d _ b => [(s.reg d, 1024 * o.bytes, 64), (s.reg b, 160, 4)]
  | _ => []

/-- R40, R134: every view, then every range, then every alignment. -/
def addrsTrap (as : List (Word × Nat × Nat)) : Option Trap :=
  match as.find? fun a => viewOf a.1 != 0 && !reservedView (viewOf a.1) with
  | some a => some ⟨.view, 4, a.1⟩
  | none =>
    match as.find? fun a => viewOf a.1 != 0 || decide (0x9FFFF < offOf a.1 + a.2.1 - 1) with
    | some a => some ⟨.localRange, 0, a.1⟩
    | none =>
      match as.find? fun a => offOf a.1 % a.2.2 != 0 with
      | some a => some ⟨.align, 0, a.1⟩
      | none => none

/-- R114: the HANDLE checks of the rings. -/
def ringHandleTrap (s : State) (h : HReg) : Option Trap :=
  match s.useHandle h with
  | some t => some t
  | none => if (s.handle h).size.toNat < 2048 then some (handleTrap h 7) else none

/-- R132: a filled slot that no queued instruction will pop is there. -/
def slotReady (s : State) (h : HReg) : Bool := decide (s.popsOwed h < (s.handle h).filled)

/-- R132: the traps of issue, in order: rings and views, addresses, banks, handles, and a ring that can never fill. -/
def mxTrap (s : State) (op : Instr) : Option Trap :=
  let hs := s.mxRings op
  match s.ringsTrap op hs with
  | some t => some t
  | none =>
    match addrsTrap (s.mxAddrs op) with
    | some t => some t
    | none =>
      match (mxTile op).bind fun p => s.tileTrap p.1 p.2 with
      | some t => some t
      | none =>
        match hs.findSome? s.ringHandleTrap with
        | some t => some t
        | none => match hs.find? fun h => !s.slotReady h with
          | some h => if s.canFill h then none else some (handleTrap h 4)
          | none => none

/-- R33: what a gang member finds at its partners: none while one is missing, else whether their instructions agree. -/
def gangMeets (s : State) (op : Instr) : Option Bool :=
  if s.gsz = 0 ∨ isMma op = false then some true
  else
    let ps := s.partners s.gsz
    if ps.length + 1 < (s.group s.gsz).length ∨ ps.any fun r => r.op.isNone then none
    else some (ps.all fun r => r.op == some (mxCode op))

/-- R33: the leader's slot, its scale bytes and its view, as broadcast to a member that does not lead. -/
def leaderSlot (s : State) (op : Instr) : Option RowCore :=
  if s.gsz = 0 ∨ isMma op = false ∨ s.gangLeader then none
  else s.row.find? fun r => (s.group s.gsz).head? == some r.col.val

/-- R131: a member's B ring must combine with the A ring that the leader broadcasts: it is checked when the partners have met, with the
base of the member's own ring (DESIGN CHOICE, log 47). -/
def leaderTrap (s : State) (op : Instr) : Option Trap :=
  match s.leaderSlot op, op with
  | some r, .mma _ _ _ b | some r, .mmai _ _ _ _ _ b =>
    if viewClass r.slotView ≠ viewClass (viewOf (s.handle b).base) then some ⟨.view, 2, (s.handle b).base⟩ else none
  | _, _ => none

/-- R213: the governor's windows, each of 64 cc of the tile's clock, as far as they have passed. -/
def slewRoll (s : State) : State :=
  let n := s.t.clock / 64
  if n ≤ s.t.slewWin then s
  else { s with t := { s.t with
    slewWin := n, slewPrev := if n = s.t.slewWin + 1 then s.t.slewCur else 0, slewCur := 0, slewFrom := s.t.slewLast } }

/-- R213: the starts of a window that an instruction adds, one for each member of its gang, and whether the allowance of this window
covers it with `more` starts before it. -/
def slewCount (s : State) : Nat := (s.group s.gsz).length
def slewAllows (s : State) (more : Nat) : Bool :=
  let t := s.slewRoll.t
  t.slew == 0 || decide (t.slewCur + more + s.slewCount ≤ t.slewPrev + t.slew.toNat)

/-- R213: the governor holds an instruction back at issue: the allowance does not cover it after those that this core has issued
and not started. -/
def slewHolds (s : State) (op : Instr) : Bool :=
  let ahead := (s.c.mx.filter fun q => isMma q.op && !q.started).length
  isMma op && !s.slewAllows (ahead * s.slewCount)

/-- R132: the queue entry: the slots it reads, what it pops, its scalar operands. -/
def mxEntry (s : State) (op : Instr) : MxOp :=
  let base : MxOp := { op := op, sbase := s.c.sbase.toNat }
  let ofRing (h : HReg) : Nat × Nat := (s.nextSlot h, viewOf (s.handle h).base)
  match op with
  | .mma _ _ a b | .mmai _ _ _ _ a b =>
    match s.leaderSlot op with
    | some r => { base with
        slotB := (ofRing b).1, viewA := r.slotView, viewB := (ofRing b).2, popB := some b, lead := some (r.slot, r.scales) }
    | none => { base with
        slotA := (ofRing a).1, slotB := (ofRing b).1, viewA := (ofRing a).2, viewB := (ofRing b).2,
        popA := some a, popB := if a = b then none else some b }
  | .mrsum _ _ _ a b | .mcsum _ _ _ a b => { base with slotA := (ofRing a).1, viewA := (ofRing a).2, opnd := s.reg b }
  | .mload _ _ _ a => { base with opnd := s.reg a }
  | .mdrain _ d _ => { base with opnd := s.reg d }
  | .mdrq _ d _ b => { base with opnd := s.reg d, tbl := s.reg b }
  | _ => base

/-- The instruction enters the queue; a gang's wires have carried it (R33). -/
def mxEnter (s : State) (op : Instr) : State :=
  let clear (r : RowCore) : RowCore := if isMma op && (s.group s.gsz).contains r.col.val then { r with op := none } else r
  { s with c := { s.c with mx := s.c.mx ++ [s.mxEntry op] }, row := s.row.map clear }

/-- R132: issue: every check, then the waits for slots, partners, the head unit (R266), the governor (R213) and a queue
entry. -/
def mxIssue (s : State) (op : Instr) : Result :=
  s.classC <| s.check (s.mxTrap op) <|
    if (s.mxRings op).any fun h => !s.slotReady h then s.wait
    else match s.gangMeets op with
      | none => s.wait
      | some false => s.trap .illegal 3
      | some true => s.check (s.leaderTrap op) <|
        if s.headBusy (mxBanks op) || s.slewHolds op || decide (4 ≤ s.c.mx.length) then s.wait
        else (s.mxEnter op).fin

end State

def execMma (acc : AccType) (d : Reg) (a b : HReg) (s : State) : Result := s.mxIssue (.mma acc d a b)
def execMmai (sat ua ub : Bool) (d : Reg) (a b : HReg) (s : State) : Result := s.mxIssue (.mmai sat ua ub d a b)
def execMzero (acc : AccType) (d : Reg) (s : State) : Result := s.mxIssue (.mzero acc d)
def execMload (acc : AccType) (bc : Bool) (d a : Reg) (s : State) : Result := s.mxIssue (.mload acc bc d a)
def execMdrain (acc : AccType) (d a : Reg) (s : State) : Result := s.mxIssue (.mdrain acc d a)
def execMdrq (o : DrqType) (d a b : Reg) (s : State) : Result := s.mxIssue (.mdrq o d a b)
def execMrsum (sat u : Bool) (d : Reg) (a : HReg) (b : Reg) (s : State) : Result := s.mxIssue (.mrsum sat u d a b)
def execMcsum (sat u : Bool) (d : Reg) (a : HReg) (b : Reg) (s : State) : Result := s.mxIssue (.mcsum sat u d a b)

/-- R135: mwait. -/
def execMwait (d : Reg) (s : State) : Result :=
  s.classC <|
    if s.c.mx ≠ [] then s.wait
    else ({ s with c := { s.c with mxStatus := 0 } } : State).result d s.c.mxStatus

/-! The queue at work (R132 to R137). -/

/-- The regions of local memory that a queued instruction reads. A gang member that does not lead computes with the broadcast bytes
of its leader's slot and meets no error in them: the leader reports it (DESIGN CHOICE, log 17). -/
def mxReads (q : MxOp) : List (Nat × Nat) :=
  let slot (off view : Nat) : List (Nat × Nat) :=
    (off, 2048) :: if view = 5 then [(q.sbase + off / 4, 512)] else []
  match q.op with
  | .mma .. | .mmai .. => (if q.lead.isSome then [] else slot q.slotA q.viewA) ++ slot q.slotB q.viewB
  | .mrsum .. | .mcsum .. => slot q.slotA q.viewA
  | .mload t bc _ _ => [(offOf q.opnd, mloadBytes t bc)]
  | .mdrq .. => [(offOf q.tbl, 160)]
  | _ => []

/-- Whether it reads its tile. -/
def mxReadsTile : Instr → Bool
  | .mma .. | .mmai .. | .mrsum .. | .mcsum .. | .mdrain .. | .mdrq .. => true
  | _ => false

namespace State

/-- R136, R240: the code words with uncorrectable errors that a queued instruction reads: memory code and number, each once. -/
def mxErrors (s : State) (q : MxOp) : List (Nat × Nat) :=
  let here := s.c.memErr.filter fun w => (mxReads q).any fun r => decide (8 * w < r.1 + r.2 ∧ r.1 < 8 * w + 8)
  let tile := match mxTile q.op with
    | some (t, b) => if mxReadsTile q.op then badWords s.c.accErr (0x800 * b.val) t.tileBytes else []
    | none => []
  here.map (fun w => (0, w)) ++ tile.map fun w => (1, w)

/-- A tile written by the slice: whole code words are replaced with their check codes. -/
def mxTileOut (s : State) (t : AccType) (b : Reg) (xs : List Nat) : State :=
  let u := s.setTile t b xs
  let keep (w : Nat) : Bool := !decide (0x800 * b.val ≤ 8 * w ∧ 8 * w < 0x800 * b.val + t.tileBytes)
  { u with c := { u.c with accErr := u.c.accErr.filter keep } }

/-- A tile updated element by element, with the status bits. -/
def mxUpdate (s : State) (t : AccType) (b : Reg) (f : Nat → Nat → Nat × Word) : State × Word :=
  let rs := (s.tileElems t b).mapIdx fun n old => f n old
  (s.mxTileOut t b (rs.map (·.1)), rs.foldl (fun w r => w ||| r.2) 0)

/-- The A and B slots of a queued mma or mmai. -/
def mxSlots (s : State) (q : MxOp) : (List Byte × List Byte) × (List Byte × List Byte) :=
  let local_ (off : Nat) : List Byte × List Byte :=
    (s.c.mem.readBytes off 2048, s.c.mem.readBytes (q.sbase + off / 4) 512)
  (q.lead.getD (local_ q.slotA), local_ q.slotB)

/-- R133, R134: the effect of a queued instruction and its status bits. -/
def mxEffect (s : State) (q : MxOp) : State × Word :=
  match q.op with
  | .mma t d _ _ =>
    let (a, b) := s.mxSlots q
    let rows := (List.range 32).map (rowVals q.viewA a.1 a.2)
    let cols := (List.range 32).map (rowVals q.viewB b.1 b.2)
    s.mxUpdate t d fun n old =>
      accumF (t.fmt.getD fp32) old (exactDot (rows.getD (n / 32) []) (cols.getD (n % 32) []))
  | .mmai sat ua ub d _ _ =>
    let (a, b) := s.mxSlots q
    let rows := (List.range 32).map (rowInts ua a.1)
    let cols := (List.range 32).map (rowInts ub b.1)
    s.mxUpdate .i32 d fun n old => accumI sat old (intDot (rows.getD (n / 32) []) (cols.getD (n % 32) []))
  | .mrsum sat u d _ _ =>
    let rows := (List.range 32).map (rowInts u (s.c.mem.readBytes q.slotA 2048))
    s.mxUpdate .i32 d fun n old => accumI sat old (q.opnd.toInt * (rows.getD (n / 32) []).foldl (· + ·) 0)
  | .mcsum sat u d _ _ =>
    let cols := (List.range 32).map (rowInts u (s.c.mem.readBytes q.slotA 2048))
    s.mxUpdate .i32 d fun n old => accumI sat old (q.opnd.toInt * (cols.getD (n % 32) []).foldl (· + ·) 0)
  | .mzero t d => (s.mxTileOut t d (List.replicate 1024 0), 0)
  | .mload t bc d _ =>
    let bs := s.c.mem.readBytes (offOf q.opnd) (mloadBytes t bc)
    let xs := (List.range 1024).map fun n => elemBits bs (8 * t.size) (if bc then n % 32 else n)
    (s.mxTileOut t d xs, 0)
  | .mdrain t _ a => (s.engineMem (offOf q.opnd) (s.c.acc.readBytes (0x800 * a.val) t.tileBytes), 0)
  | .mdrq o _ a _ =>
    let tab := s.c.mem.readBytes (offOf q.tbl) 160
    let rs := (s.tileElems .i32 a).mapIdx fun n x =>
      requant o (signedOf 32 x) (signedOf 32 (elemBits tab 32 (n % 32))) ((tab.getD (128 + n % 32) 0).toNat % 64)
    (s.engineMem (offOf q.opnd) (rs.flatMap fun r => leBytes o.bytes r.1), rs.foldl (fun w r => w ||| r.2) 0)
  | _ => (s, 0)

/-- R136: checksum mode, as c.mcheck has it at retirement (DESIGN CHOICE, log 47): mismatches on the first run and on the rerun, as the
device finds them. -/
def mxChecksum (s : State) (op : Instr) : Word :=
  if s.c.mcheck = 0 ∨ isMma op = false ∨ s.input.n = 0 then 0
  else if s.input.n = 1 then mxRerun else mxRerun ||| mxFail

/-- R132: retirement: the effect, or ECC with none (R136); the status word; the pops; a drain's arrival (R166). -/
def mxRetire (s : State) (q : MxOp) : State :=
  let r : State × Word := match s.mxErrors q with
    | [] => let e := s.mxEffect q; (e.1, e.2 ||| s.mxChecksum q.op)
    | es => (es.foldl (fun t e => t.logError (0x1000 + s.t.num) e.1 (8 * e.2) 0) s, mxECC)
  let pop (t : State) (h : Option HReg) : State := match h with
    | some h => t.advHead h 1
    | none => t
  let t := pop (pop r.1 q.popA) q.popB
  let t : State := { t with c := { t.c with mxStatus := t.c.mxStatus ||| r.2 } }
  if isDrain q.op then t.engineArrive 1 r.2 else t

end State

/-- R213: n starts by the core with an index are counted, the last served. -/
def State.slewStart (s : State) (idx n : Nat) : State :=
  let t := s.slewRoll.t
  { s with t := { t with slewCur := t.slewCur + n, slewLast := idx } }

/-- R132, R213: the oldest queued instruction starts, an mma or mmai where the allowance covers it; its partners have issued theirs
(R33). -/
def State.mxStart (s : State) : State :=
  match s.c.mx with
  | [] => s
  | q :: qs =>
    if q.started then s
    else if isMma q.op && !s.slewAllows 0 then s
    else
      let t := if isMma q.op then s.slewStart s.t.idx.val s.slewCount else s
      { t with c := { t.c with mx := { q with started := true } :: qs } }

/-- R213: an mma or mmai of the core with index i, this one or another of the tile, which counts `n` starts where the allowance covers
them. -/
def State.slewServe (n : Nat) (s : State) (i : Nat) : State :=
  let t := s.slewRoll.t
  if i = s.t.idx.val then s.mxStart
  else if t.slew == 0 || decide (t.slewCur + n ≤ t.slewPrev + t.slew.toNat) then s.slewStart i n
  else s

/-- R132, R213: the oldest queued instruction starts. With `input.flag` the cores of the tile `input.nums` start one each, of `input.n`
starts, in the same cc: they are served in index order, from the core after the last one served in the previous window on. -/
def execMatrixStart (s : State) : Result :=
  if s.input.flag then
    let from_ := s.slewRoll.t.slewFrom
    let order := (List.range 16).map fun k => (from_ + 1 + k) % 16
    .next ((order.filter s.input.nums.contains).foldl (State.slewServe s.input.n) s)
  else .next s.mxStart

/-- R132: the running instruction retires. -/
def execMatrixRetire (s : State) : Result :=
  match s.c.mx with
  | [] => .next s
  | q :: qs =>
    .next (if q.started then ({ s with c := { s.c with mx := qs } } : State).mxRetire q else s)

/-- R213: the windows of the governor that have passed end. -/
def execSlewWindow (s : State) : Result := .next s.slewRoll

/-! Gangs and follow mode (R139, R140). -/

namespace State

def setGsz (s : State) (n : Nat) : State :=
  { s with c := { s.c with status := (s.c.status &&& 0xFFFFFCFF) ||| BitVec.ofNat 32 (n % 4 * 256) } }

/-- R139: a core of the row waits at mgang with another size than n for a group that overlaps the group of a code. -/
def gangClash (s : State) (n code : Nat) : Bool :=
  s.row.any fun r => r.col.val != s.column && match r.gang with
    | some k => decide (k.val ≠ n) && ((s.group code).contains r.col.val || k.val == 2 ||
        (k.val == 1 && (s.group code).any fun c => c / 2 == r.col.val / 2))
    | none => false

/-- The row's wires after a group has met. -/
def clearGang (s : State) (code : Nat) : State :=
  let clear (r : RowCore) : RowCore := if (s.group code).contains r.col.val then { r with gang := none } else r
  { s with row := s.row.map clear }

end State

/-- R139: mgang. -/
def execMgang (n : Fin 3) (s : State) : Result :=
  let code := if n.val = 0 then s.gsz else n.val
  if n.val ≠ 0 ∧ s.gsz ≠ 0 then s.trap .illegal 4
  else s.classC <|
    if s.c.mx ≠ [] then s.wait
    else if code = 0 then s.fin
    else if s.gangClash n.val code then s.trap .illegal 2
    else
      let ps := s.partners code
      if ps.length + 1 < (s.group code).length ∨ (ps.all fun r => r.gang == some n) = false then s.waitAt .gang
      else ((s.clearGang code).setGsz n.val).fin

/-- R140: mfollow. -/
def execMfollow (s : State) : Result :=
  if s.gsz = 0 ∨ s.leads = true ∨ s.follower = true then s.trap .illegal 5
  else s.classC <|
    let ps := s.partners s.gsz
    if ps.length + 1 < (s.group s.gsz).length ∨ (ps.all fun r => r.wantsFollow || r.following) = false then s.waitAt .follow
    else
      let bit : Word := if s.gangLeader then 0x800 else 0x400
      ({ s.adv with c := { s.adv.c with status := s.adv.c.status ||| bit }, stream := [] } : State) |> .next

/-- R140: munfollow: the leader clears LEAD; a follower resumes at the address in its own register. -/
def execMunfollow (a : Reg) (s : State) : Result :=
  if s.follower then
    s.classC <|
      if (s.reg a).getLsbD 0 then s.trap .align 0 (s.reg a)
      else .next (({ s with c := { s.c with status := s.c.status &&& 0xFFFFFBFF }, stream := [] } : State).setPc (s.reg a))
  else if s.leads = false then s.trap .illegal 5
  else s.classC ({ s with c := { s.c with status := s.c.status &&& 0xFFFFF7FF } } : State).fin

end Sys2Proof.Machine
end

