-- ==== Sys2Proof/Machine/Exchange.lean ====
section
/-! DEFINITION. Machine/Exchange.lean: the exchange unit: its instructions, beats and the end of a phase (R151 to R158,
R178 to R181). The beats that reach this core's receive port, and the xc in which they do, are steps of the fabric (log 1). -/

namespace Sys2Proof.Machine

/-- R72: the bytes of a length class. -/
def classBytes (cls : Nat) : Nat := 16 * 2 ^ cls

/-- R153: the beats of a block, and the bytes up to the end of beat j. -/
def beatCount (len : Nat) : Nat := max 1 (len / 64)
def beatEnd (len j : Nat) : Nat := min (64 * (j + 1)) len

/-- R294: the payload rate of a mode, in bytes per xc. -/
def modeRate (mode : Nat) : Nat := 8 * (mode + 1)

/-- R179: the combine of one element: local, arriving. -/
def combineLane (t : ElemType) (op : CombOp) (sat : Bool) (old x : Nat) : Nat :=
  match op with
  | .add => (laneAdd t sat false old x).1
  | .max => (laneMax t false old x).1
  | .min => (laneMin t false old x).1
  | .or => old ||| x
  | .and => old &&& x

/-- R179: the combine of the bytes of a beat. -/
def combineBytes (t : ElemType) (op : CombOp) (sat : Bool) (old new : List Byte) : List Byte :=
  (List.range (old.length / (t.width / 8))).flatMap fun i =>
    leBytes (t.width / 8) (combineLane t op sat (State.elemBits old t.width i) (State.elemBits new t.width i))

namespace Exch

/-- The slots of a logical core. -/
def slotsOf (e : Exch) (lcore : Nat) : List Slot := e.seg.slots.filter (·.core = lcore)

/-- R155: the offsets of its receive and combine slots, ascending, and the index of the one at an offset. -/
def receives (e : Exch) (lcore : Nat) : List Nat :=
  (((e.slotsOf lcore).filter fun x => x.kind == 1 || x.kind == 2).map (·.off)).mergeSort (· ≤ ·)
def missIndex (e : Exch) (lcore off : Nat) : Nat := min 31 ((e.receives lcore).findIdx (· = off))

/-- R180: the receive port's input at an offset. -/
def portAt (e : Exch) (t : Nat) : Nat := ((e.ports.find? fun p => p.1 ≤ t).map (·.2)).getD 0

/-- R303: the rate of a path of the segment, by its index: that of the mode in force at release. -/
def rate (e : Exch) (path : Nat) : Nat := modeRate (e.modes.getD path 1)

end Exch

namespace State

/-- The exchange unit; outside an exchange phase it has no segment. -/
def exch (s : State) : Exch := s.c.exch.getD { xr := s.xc }
def setExch (s : State) (e : Exch) : State := { s with c := { s.c with exch := some e } }

/-- Time goes on to an offset, where it has not passed it. -/
def toOffset (s : State) (off : Nat) : State := s.advanceTo (s.exch.xr + off)

/-- R160, R303: the sending entry of the tile's optical port for a lane in force at an offset: how long it still lasts, and the
index of its path in the segment's list. -/
def laneEntry (s : State) (lane off : Nat) : Option (Nat × Nat) :=
  let e := s.exch
  (e.seg.switches.find? fun x =>
    x.tile == s.t.num && x.elem == 2 && decide (x.off ≤ off ∧ off < x.off + x.dur) && x.set % 8 == lane).map
    fun x => (x.off + x.dur - off, bitsOf x.set 8 8)

/-- R153, R303: the beats of a send. An optical beat that its switch entry's duration cannot carry is not sent. -/
def sendBeats (s : State) (lane : Option Nat) (off addr len : Nat) : List SendBeat :=
  let beat (at_ path j : Nat) : SendBeat :=
    { at_ := at_, off := off, j := j, lane := lane, path := path, addr := addr + 64 * j, len := min 64 len }
  match lane with
  | none => (List.range (beatCount len)).map fun j => beat (off + j) 0 j
  | some l =>
    let (dur, path) := (s.laneEntry l off).getD (4096, 0xFFFF)
    let rate := s.exch.rate path
    ((List.range (beatCount len)).filter fun j => decide (beatEnd len j ≤ dur * rate)).map
      fun j => beat (off + 64 * j / rate) path j

/-- R302, R303: a path of the segment now running, by its index, carries no light for what leaves in an offset. Whether it still
carries what crosses as the light fails is open. -/
def pathDark (s : State) (path off : Nat) : Bool :=
  match s.exch.seg.paths[path]? with
  | some id =>
    s.pathState id == .dark && match s.exch.fails.find? (·.1 = id) with
      | some f => decide (f.2 < off) || (f.2 == off && !Config.crossing s.tick)
      | none => true
  | none => false

/-- R153, R181: a send beat leaves: with its strobe clear where its bytes cannot be read, and without its data where its
path is dark (R302). -/
def sendBeat (s : State) (b : SendBeat) : State :=
  if s.memBad b.addr b.len then (s.logWords 0 b.addr b.len 0).put (.beat b.off b.j b.lane false [])
  else if b.lane.isSome && s.pathDark b.path b.at_ then s.put (.beat b.off b.j b.lane false [])
  else s.put (.beat b.off b.j b.lane true (s.c.mem.readBytes b.addr b.len))

/-- R153: the send beats up to an offset leave. -/
def flushSends (s : State) (t : Nat) : State :=
  let e := s.exch
  let now := e.sends.filter (·.at_ ≤ t)
  let u := now.foldl sendBeat s
  u.setExch { e with sends := e.sends.filter fun b => t < b.at_ }

/-- R180: an exchange instruction at its offset: its address, the matching slot and its action. -/
def exchangeAt (s : State) (off : Nat) (addr : Option (Word × Nat)) (fits : Slot → Bool) (act : State → State) : Result :=
  if s.inExchange = false then s.trap .phase
  else s.check (addr.bind fun a => addrTrap a.1 a.2 (min 64 a.2) 5) <|
    if off < s.issueOffset then s.trap .late 0 (BitVec.ofNat 32 off)
    else if s.exch.seg.len ≤ off then (s.toOffset s.exch.seg.len).trap .late 0 (BitVec.ofNat 32 off)
    else
      let s := s.toOffset off
      let s := s.setExch { s.exch with nextOff := off + 1 }
      if (s.exch.slotsOf s.c.lcore.toNat).any fun x => x.off == off && fits x then (act s).fin
      else s.trap .slot 0 (BitVec.ofNat 32 off)

/-- R153: a send claims its slot, and its beats are on their way. -/
def claimSend (s : State) (lane : Option Nat) (off : Nat) (a : Word) (len : Nat) : State :=
  let e := s.exch
  s.setExch { e with sends := e.sends ++ s.sendBeats lane off (offOf a) len, sent := off :: e.sent }

/-! Beats that arrive (R153 to R158, R178, R181). -/

/-- R153: the offset in which beat j of a receive of len bytes is written; `rate` is that of an optical path. -/
def arrivalOffset (off len j : Nat) (rate : Option Nat) : Nat :=
  match rate with
  | none => off + j
  | some r => off + (beatEnd len j + r - 1) / r - 1

/-- R155, R181: the c.xmiss bit of a claim. -/
def miss (s : State) (c : Claim) : State :=
  let e := s.exch
  let s := s.setExch { e with claims := e.claims.map fun d => if d.off = c.off then { d with missed := true } else d }
  { s with c := { s.c with xmiss := s.c.xmiss ||| BitVec.ofNat 32 (2 ^ min 31 c.idx) } }

/-- R154: beat j of a claimed block is written. -/
def writeBeat (s : State) (c : Claim) (j : Nat) (bytes : List Byte) : State :=
  let e := s.exch
  (s.setExch { e with claims := e.claims.map fun d => if d.off = c.off then { d with got := j :: d.got } else d }).engineMem
    (c.addr + 64 * j) bytes

/-- R158, R180, R181: a beat with its strobe set is written or combined. -/
def receiveBeat (s : State) (c : Claim) (j : Nat) (data : List Byte) : State :=
  let addr := c.addr + 64 * j
  let n := min 64 c.len
  let bytes := (List.range n).map fun i => data.getD i 0
  match c.comb with
  | none => s.writeBeat c j bytes
  | some (ty, op, sat) =>
    if s.memBad addr n then (s.logWords 0 addr n 0).miss c
    else s.writeBeat c j (combineBytes ty op sat (s.c.mem.readBytes addr n) bytes)

/-- R154, R178, R181: a beat of a claimed block, in the offset t: without its strobe, on a path that was dark when it left, 12 xc
before (R153), or by an input that the port does not take, it is lacking. -/
def takeBeat (s : State) (c : Claim) (t : Nat) (i : Input) : State :=
  if i.flag = true ∧ s.exch.portAt t = i.port.val ∧ (i.flag2 && s.pathDark i.op (t - 12)) = false then s.receiveBeat c i.n i.data
  else s.miss c

/-- R154: a beat of a block that no instruction has claimed is discarded. -/
def handleBeat (t : Nat) (s : State) (i : Input) : State :=
  match s.exch.claims.find? (·.off = i.off) with
  | some c => s.takeBeat c t i
  | none => s

/-- The beats that arrived in the offset last dealt with, which has passed: first the sends up to it leave (R158), then each beat
goes where the receives and the port selections of that offset send it. -/
def settleBeats (s : State) : State :=
  match s.c.exch with
  | none => s
  | some e =>
    if e.arrived = [] then s
    else
      let u := s.flushSends e.handled
      e.arrived.foldl (handleBeat e.handled) (u.setExch { u.exch with arrived := [] })

/-- The same once time has gone past that offset. -/
def settlePast (s : State) : State := if s.exch.handled < s.offset then s.settleBeats else s

/-- A beat that arrives in the offset t waits for what that offset still brings. -/
def beatAt (s : State) (t : Nat) (i : Input) : State :=
  let s := if s.exch.handled < t then s.settleBeats else s
  s.setExch { s.exch with handled := t, arrived := s.exch.arrived ++ [i] }

/-- R154, R155: a receive or combine claims its slot. -/
def claimReceive (s : State) (off : Nat) (a : Word) (len : Nat) (comb : Option (ElemType × CombOp × Bool)) : State :=
  let e := s.exch
  let c : Claim := { idx := e.missIndex s.c.lcore.toNat off, off := off, addr := offOf a, len := len, comb := comb }
  s.setExch { e with claims := e.claims ++ [c] }

end State

/-- A beat at the receive port: beat `input.n` of the block whose receive offset is `input.off`, by input port
`input.port`, where `input.flag2` says so on the optical path with index `input.op` in the segment's list, with its strobe
`input.flag` and its bytes. It is discarded where the core has no such receive slot, and out of turn. -/
def execExchangeBeatReceive (s : State) : Result :=
  let i := s.input
  match s.c.exch.bind fun e => (e.slotsOf s.c.lcore.toNat).find? fun x => (x.kind == 1 || x.kind == 2) && x.off == i.off with
  | none => .next s
  | some x =>
    let len := classBytes x.cls
    let t := State.arrivalOffset i.off len i.n (if i.flag2 then some (s.exch.rate i.op) else none)
    .next (if i.n < beatCount len ∧ s.exch.handled ≤ t ∧ t < s.exch.seg.len then (s.toOffset t).beatAt t i else s)

def execXsend (cls : Fin 8) (a : Reg) (off : BitVec 13) (s : State) : Result :=
  s.exchangeAt off.toNat (some (s.reg a, classBytes cls)) (fun x => x.kind == 0 && x.cls == cls.val) fun t =>
    t.claimSend none off.toNat (s.reg a) (classBytes cls)

def execXrecv (cls : Fin 8) (a : Reg) (off : BitVec 13) (s : State) : Result :=
  s.exchangeAt off.toNat (some (s.reg a, classBytes cls)) (fun x => x.kind == 1 && x.cls == cls.val) fun t =>
    t.claimReceive off.toNat (s.reg a) (classBytes cls) none

def execXrecva (ty : ElemType) (op : CombOp) (sat : Bool) (cls : Fin 8) (a : Reg) (off : BitVec 13) (s : State) : Result :=
  s.exchangeAt off.toNat (some (s.reg a, classBytes cls)) (fun x => x.kind == 2 && x.cls == cls.val) fun t =>
    t.claimReceive off.toNat (s.reg a) (classBytes cls) (some (ty, op, sat))

def execXmc (lane : Fin 4) (cls : Fin 8) (a : Reg) (off : BitVec 13) (s : State) : Result :=
  s.exchangeAt off.toNat (some (s.reg a, classBytes cls))
    (fun x => x.kind == 3 && x.cls == cls.val && x.lane == lane.val) fun t =>
    t.claimSend (some lane.val) off.toNat (s.reg a) (classBytes cls)

def execXsel (port : Fin 5) (off : BitVec 13) (s : State) : Result :=
  s.exchangeAt off.toNat none (fun x => x.kind == 4 && x.port == port.val) fun t =>
    t.setExch { t.exch with ports := (off.toNat, port.val) :: t.exch.ports }

/-- R157, R180: xend. A wrong offset is recorded with the offset at issue (R156). -/
def execXend (off : BitVec 13) (s : State) : Result :=
  let o := off.toNat
  if s.inExchange = false then s.trap .phase
  else if o < s.issueOffset then s.trap .late 0 (BitVec.ofNat 32 o)
  else if s.exch.seg.len < o then (s.toOffset s.exch.seg.len).trap .late 0 (BitVec.ofNat 32 o)
  else if o = s.exch.seg.len then (s.toOffset o).fin
  else ((s.toOffset o).setExch { s.exch with nextOff := o + 1 }).deferAt ⟨.illegal, 11, 0⟩ s.issueOffset

/-! The end of an exchange phase (R41, R145, R151, R154, R157). -/

namespace State

/-- The masks that dom staged take effect at a transition of the partition: the arrivals on their trees are withdrawn,
ARR and DONE cleared (R147, R185). Both the release and the end are such a transition (DESIGN CHOICE, log 34). -/
def stageMasks (s : State) : State :=
  let tr := s.p.trees
  let gs := tr.staged.map (·.1)
  let kept := tr.masks.filter fun m => tr.staged.all fun n => !(n.1 == m.1 && n.2.1 == m.2.1)
  let trees : Trees := { tr with
    masks := kept ++ tr.staged
    staged := []
    arrived := tr.arrived.filter fun a => !gs.contains a.1
    gather := tr.gather.filter fun g => !gs.contains g.tree.val }
  let mask : BitVec 16 := gs.foldl (fun m g => m &&& ~~~(BitVec.ofNat 16 (2 ^ g))) (BitVec.allOnes 16)
  { s with p := { s.p with trees := trees }, c := { s.c with arr := s.c.arr &&& mask, done := s.c.done &&& mask } }

/-- R151, R172: held messages enter the mailbox while it has room. -/
def postHeld (s : State) : State :=
  let post (t : State) (m : DWord) : State :=
    if t.mboxHeld then { t with c := { t.c with held := t.c.held ++ [m] } } else t.enqueue m
  s.c.held.foldl post { s with c := { s.c with held := [] } }

/-- R153 to R155: the segment is over: the last beats leave, send slots that no instruction claimed send theirs with the
strobe clear, and receives that lack a beat are recorded. Beats that would leave at or beyond L leave all the same, and one that
would arrive there is discarded, so its receive lacks it (DESIGN CHOICE, log 22). -/
def closeSegment (s : State) : State :=
  let s := (s.toOffset s.exch.seg.len).settleBeats.flushSends (s.exch.seg.len + 4096)
  let e := s.exch
  let unsent := (e.slotsOf s.c.lcore.toNat).filter fun x => (x.kind == 0 || x.kind == 3) && !e.sent.contains x.off
  let silent (t : State) (x : Slot) : State :=
    (List.range (beatCount (classBytes x.cls))).foldl
      (fun t j => t.put (.beat x.off j (if x.kind = 3 then some x.lane else none) false [])) t
  let s := unsent.foldl silent s
  let lacking := e.claims.filter fun c => !c.missed && (List.range (beatCount c.len)).any fun j => !c.got.contains j
  let s := lacking.foldl miss s
  ({ s with c := { s.c with exch := none, fetchStop := false } } : State).discardFetch

/-- R151, R41: a compute phase starts: what fell due lands, held messages follow, and a running core takes its deferred trap,
unless its context is about to leave (R203). -/
def startCompute (s : State) : State :=
  let s := s.landDue.postHeld
  if s.c.run = .running ∧ s.p.swapDue = false then s.takeDeferred else s

end State

/-- R157: the partition's exchange phase ends. A launch prepared in the shadow now comes in (R203), and a
checkpoint stops the core (R359). -/
def execExchangePhaseEnd (s : State) : Result :=
  if s.c.phase.getLsbD 0 then
    let s := if s.c.exch.isSome then s.closeSegment else s
    let s := { s with c := { s.c with phase := s.c.phase + 1 } }
    let s := { s.stageMasks with boundary := true }
    .next ({ s with p := { s.p with swapDue := s.p.prepared.isSome || s.chip.ckpt.isSome } } : State).startCompute
  else .next s

/-- R162: a local exchange phase ends. -/
def execLocalPhaseEnd (s : State) : Result :=
  if s.c.lphase.getLsbD 0 then
    let s := s.closeSegment
    .next ({ s with c := { s.c with lphase := s.c.lphase + 1 } } : State).startCompute
  else .next s

end Sys2Proof.Machine
end

