-- ==== Sys2Proof/Machine/Trees.lean ====
section
/-! DEFINITION. Machine/Trees.lean: the phase controller and the wired trees: sync, lsync, arrive, await, dom, phase
(R145 to R150, R162, R182 to R186), and the reduction tree (R57, R163, R164, R187, R188). What other cores do there
comes in the input of a step (log 1). -/

namespace Sys2Proof.Machine

namespace State

/-! Membership and arrivals (R146 to R149). -/

/-- The members of a tree: physical cores of the partition whose mask bit is set. -/
def members (s : State) (g : Tree) : List Nat :=
  (s.p.trees.masks.filter fun m => m.1 == g.val && s.p.cfg.tiles.contains m.2.1).flatMap fun m =>
    ((List.range 16).filter fun i => m.2.2.getLsbD i).map (16 * m.2.1 + ·)

def isMember (s : State) (g : Tree) : Bool := (s.members g).contains s.coreId

/-- The arrivals at sync or lsync on a tree. -/
def gathering (s : State) (g : Tree) : Option Gathering := s.p.trees.gather.find? (·.tree = g)
def arrivals (s : State) (g : Tree) : List (Nat × Nat) := ((s.gathering g).map (·.arrivals)).getD []

def setTrees (s : State) (t : Trees) : State := { s with p := { s.p with trees := t } }

/-- R148, R149: a member arrives with a segment; the first arrival's c.stragg and xc are kept. -/
def arriveTree (s : State) (g : Tree) (core seg : Nat) (stragg : Word) : State :=
  let tr := s.p.trees
  match s.gathering g with
  | none =>
    let x : Gathering := { tree := g, arrivals := [(core, seg)], stragg := stragg, xc := s.xc }
    s.setTrees { tr with gather := x :: tr.gather }
  | some x =>
    if x.arrivals.any (·.1 = core) then s
    else s.setTrees { tr with gather := tr.gather.map fun y =>
      if y.tree = g then { y with arrivals := y.arrivals ++ [(core, seg)] } else y }

/-- Every arrival on a tree is withdrawn. -/
def withdraw (s : State) (g : Tree) : State :=
  s.setTrees { s.p.trees with gather := s.p.trees.gather.filter (·.tree ≠ g) }

/-- Every member has arrived. -/
def allArrived (s : State) (g : Tree) : Bool :=
  !(s.members g).isEmpty && (s.members g).all fun m => (s.arrivals g).any (·.1 = m)

/-- R147: every member has arrived, by arrive or at lsync. -/
def allIn (s : State) (g : Tree) : Bool :=
  !(s.members g).isEmpty && (s.members g).all fun m =>
    s.p.trees.arrived.contains (g.val, m) || (s.arrivals g).any (·.1 = m)

/-- Whether this core waits at sync or lsync on a tree. -/
def waitsOn (s : State) (g : Tree) : Bool :=
  match s.c.pend with
  | .sync h _ => h == g
  | _ => false

/-- R149, R150, R186: every member that has arrived traps at its sync, and the arrivals are withdrawn. -/
def failSync (s : State) (g : Tree) (t : Trap) : State := (if s.waitsOn g then s.trapWaiting t else s).withdraw g

/-- R147: the trap of a core that names g0, or a tree that it is no member of. -/
def treeTrap (s : State) (g : Tree) : Option Trap :=
  if g = 0 then some ⟨.illegal, 10, 0⟩ else if s.isMember g then none else some ⟨.illegal, 9, 0⟩

/-- R149: whether the straggler time-out of a tree runs, and when it expires. -/
def expiry (s : State) (g : Tree) : Option Nat :=
  match s.gathering g with
  | some x => if x.stragg = 0 ∨ s.allIn g = true then none else some (x.xc + x.stragg.toNat)
  | none => none

/-- R149: the time-out of a tree expires at an xc: every member that has arrived traps. On g0 a launch prepared in the
shadow comes in then (R203), and a checkpoint stops the core (R359). -/
def expire (s : State) (g : Tree) (x : Nat) : State :=
  let t := s.failSync g ⟨.straggler, 0, BitVec.ofNat 32 x⟩
  if g = 0 then { t with p := { t.p with swapDue := t.p.prepared.isSome || t.chip.ckpt.isSome } } else t

/-- A time-out that has come, before an arrival that comes after it (R149). -/
def expireFirst (s : State) (g : Tree) : State :=
  match s.expiry g with
  | some x => if x ≤ s.xc then s.expire g x else s
  | none => s

def hasArr (s : State) (g : Tree) : Bool := s.c.arr.getLsbD g.val
def hasDone (s : State) (g : Tree) : Bool := s.c.done.getLsbD g.val

/-- R148: arrival at sync or lsync, once the vector unit, the slice and the head unit are idle; then the wait. A core whose
arrive on the tree is pending would arrive a second time (R147). The sync of a core that dom has removed from g0 does not arrive
and is released by no phase (R201): it waits, and arrives once the core is a member again (DESIGN CHOICE, log 34). -/
def syncOn (s : State) (g : Tree) (seg : Nat) : Result :=
  if s.waitsOn g || !s.isMember g then s.wait
  else if s.c.mx.isEmpty && s.c.head.isEmpty then
    if g ≠ 0 ∧ s.hasArr g = true then s.trap .barrierOver
    else ((s.expireFirst g).arriveTree g s.coreId seg s.c.stragg).waitAt (.sync g seg)
  else s.wait

/-- R180: the segment of an image. -/
def findSegment (s : State) (n : Nat) : Option Segment := s.p.image.bind fun i => i.segs.find? (·.seg = n)

end State

/-- R148, R183: sync. It has been released once the phase controller says so. -/
def execSync (a : Reg) (s : State) : Result :=
  if s.c.pend = .released then s.fin
  else if 63 < (s.reg a).toNat then s.trap .illegal 7
  else s.classC <| s.syncOn 0 (s.reg a).toNat

/-- R162, R183: lsync. Of several DETAIL values that apply, 7 (a segment above 63) comes before 9 and 10; the manual gives no
order among them (DESIGN CHOICE, log 34). -/
def execLsync (g : Tree) (a : Reg) (s : State) : Result :=
  if s.c.pend = .released then s.fin
  else if 63 < (s.reg a).toNat then s.trap .illegal 7
  else s.check (s.treeTrap g) <| s.classC <| s.syncOn g (s.reg a).toNat

/-! Release (R148 to R150, R162). -/

/-- What the controller finds once every member has arrived: a trap for every member, a hold, or the segment. -/
inductive Verdict where
  | fail (t : Trap)
  | hold
  | go (seg : Segment)
  deriving DecidableEq, Repr

namespace State

/-- R150: the first path of a segment that is DARK or DEGRADED, by its index in the segment's list. -/
def darkPath (s : State) (seg : Segment) : Option Nat :=
  (List.range seg.paths.length).find? fun i =>
    s.pathState (seg.paths.getD i 0) == .dark || s.pathState (seg.paths.getD i 0) == .degraded

/-- R162: a slot of the segment names a core, or a switch a tile, outside the sub-domain. A logical core's place is that
of the running launch (R198). -/
def strays (s : State) (g : Tree) (seg : Segment) : Bool :=
  let place (c : Nat) : Option Nat := s.p.running.bind fun l => l.cores[c]?
  (seg.slots.any fun x => match place x.core with
    | some m => !(s.members g).contains m
    | none => true) ||
  seg.switches.any fun x => !((s.members g).any fun m => m / 16 == x.tile)

/-- R162: the torus links, optical lanes and crossbar ports that a switch entry uses: its connection, and at a crossbar the
port it takes its beats from (DEDUCED, log 22). -/
def resources (x : Switch) : List (Nat × Nat × Nat) :=
  if x.elem = 1 then [connection x, (x.tile, 3, bitsOf x.set 4 5)] else [connection x]

/-- R162, R106: the release of a local segment is held while a running local exchange uses what it would use, and while this
core's xload waits. -/
def localHeld (s : State) (seg : Segment) : Bool :=
  let used := s.localRuns.flatMap fun l => l.seg.switches.flatMap resources
  (seg.switches.any fun x => (resources x).any used.contains) ||
    (s.c.stall && match s.c.issue with
      | some (.xload _ _, _) => true
      | _ => false)

/-- R150, R162: the checks of a release, in their order. -/
def verdict (s : State) (g : Tree) : Verdict :=
  let segs := ((s.arrivals g).filter fun a => (s.members g).contains a.1).map (·.2)
  let n := segs.headD 0
  if segs.any (· != n) then .fail ⟨.illegal, 6, 0⟩
  else match s.findSegment n with
    | none => .fail ⟨.illegal, 7, 0⟩
    | some seg =>
      if seg.loc ≠ decide (g ≠ 0) then .fail ⟨.illegal, 7, 0⟩
      else if g ≠ 0 ∧ s.strays g seg = true then .fail ⟨.illegal, 8, 0⟩
      else match s.darkPath seg with
        | some i => .fail ⟨.grant, i, 0⟩
        | none =>
          if (seg.paths.any fun id => s.pathState id == .settling) || (g ≠ 0 && s.localHeld seg) then .hold else .go seg

/-- R148, R162: no phase stands in the way of a release: the partition is in none, nor is this core in a local one where it is a
member; a local exchange of other cores holds a release by the resources that it uses alone (`localHeld`). -/
def phaseFree (s : State) (g : Tree) : Bool :=
  !s.c.phase.getLsbD 0 && !(s.isMember g && s.c.lphase.getLsbD 0)

/-- A member's exchange unit starts a segment at this xc, and its sync completes at offset 0 (R148). -/
def enterSegment (s : State) (g : Tree) (seg : Segment) : State :=
  if s.waitsOn g then
    let e : Exch := { xr := s.xc, seg := seg, tree := g, modes := seg.paths.map s.pathMode }
    ({ s with c := { s.c with exch := some e, pend := .released } } : State).discardFetch
  else s

end State

/-- The arrivals of other members that the input of a step brings: core and segment, and the c.stragg of the first. Only members
arrive (R148). -/
def State.takeArrivals (s : State) (g : Tree) : State :=
  (s.input.pairs.filter fun p => p.1 != s.coreId && (s.members g).contains p.1).foldl (fun s p => (s.expireFirst g).arriveTree g p.1 p.2 s.input.value) s

/-- R148, R150: the phase controller, once every member has arrived: it releases the phase, holds it, or lets every
member trap. Before that, the step only brings arrivals. -/
def execPhaseRelease (s : State) : Result :=
  let s := s.takeArrivals 0
  if s.allArrived 0 = true ∧ s.phaseFree 0 = true then
    match s.verdict 0 with
    | .fail t => .next (s.failSync 0 t)
    | .hold => .next s
    | .go seg =>
      let s := (s.enterSegment 0 seg).withdraw 0
      .next { ({ s with c := { s.c with phase := s.c.phase + 1 } } : State).stageMasks with boundary := true }
  else .next s

/-- R162: the same on the tree `input.tree`, for a local segment. The release sets no DONE bit (DESIGN CHOICE, log 34). -/
def execLocalRelease (s : State) : Result :=
  let g := s.input.tree
  if g = 0 then .next s
  else
    let s := s.takeArrivals g
    if s.allArrived g = true ∧ s.phaseFree g = true then
      match s.verdict g with
      | .fail t => .next (s.failSync g t)
      | .hold => .next s
      | .go seg =>
        let mine := s.waitsOn g
        let s := (s.enterSegment g seg).withdraw g
        let s := { s with p := { s.p with locals := { tree := g, xr := s.xc, seg := seg } :: s.localRuns } }
        .next (if mine then { s with c := { s.c with lphase := s.c.lphase + 1 } } else s)
    else .next s

/-- R149: the time-out on the tree `input.tree` expires. -/
def execStragglerExpiry (s : State) : Result :=
  match s.expiry s.input.tree with
  | none => .next s
  | some x => .next ((s.advanceTo x).expire s.input.tree x)

/-! Split barriers (R184). -/

namespace State

def bit (g : Tree) : BitVec 16 := BitVec.ofNat 16 (2 ^ g.val)

end State

def execArrive (g : Tree) (s : State) : Result :=
  s.check (s.treeTrap g) <| s.classC <|
    if s.hasArr g then s.trap .barrierOver
    else
      let c := { s.c with arr := s.c.arr ||| State.bit g, done := s.c.done &&& ~~~(State.bit g) }
      let trees := { s.p.trees with arrived := s.p.trees.arrived ++ [(g.val, s.coreId)] }
      ({ s with c := c, p := { s.p with trees := trees } } : State).fin

def execAwait (g : Tree) (s : State) : Result :=
  match s.c.pend with
  | .await _ _ =>
    if s.hasDone g then ({ s with c := { s.c with done := s.c.done &&& ~~~(State.bit g) } } : State).fin else s.wait
  | _ =>
    s.check (s.treeTrap g) <|
      if s.hasDone g = false ∧ s.hasArr g = false then s.trap .illegal 12
      else s.classC <|
        if s.hasDone g then ({ s with c := { s.c with done := s.c.done &&& ~~~(State.bit g) } } : State).fin
        else s.waitAt (.await g s.xc)

namespace State

/-- R184: the time-out of an await on g from xc x: the arrival is withdrawn. -/
def expireAwait (s : State) (g : Tree) (x : Nat) : State :=
  let x := x + s.c.stragg.toNat
  let s := s.advanceTo x
  let s := s.setTrees { s.p.trees with arrived := s.p.trees.arrived.filter (· ≠ (g.val, s.coreId)) }
  ({ s with c := { s.c with arr := s.c.arr &&& ~~~(bit g) } } : State).trapWaiting ⟨.straggler, 0, BitVec.ofNat 32 x⟩

/-- R184: an await whose time-out has come before what comes after it. -/
def expireAwaitFirst (s : State) : State :=
  match s.c.pend with
  | .await g x => if s.c.stragg ≠ 0 ∧ s.hasDone g = false ∧ x + s.c.stragg.toNat ≤ s.xc then s.expireAwait g x else s
  | _ => s

end State

/-- R147: arrivals of other members on `input.tree` (`input.nums`), and the completion where every member has arrived. Where
some have arrived at lsync and others by arrive, the tree completes, and those at lsync trap with ILLEGAL, DETAIL 6, since not
every member has named their segment (DESIGN CHOICE, log 34). -/
def execTreeComplete (s : State) : Result :=
  let g := s.input.tree
  let s := s.expireAwaitFirst
  let news := s.input.nums.filter fun n => n != s.coreId && !s.p.trees.arrived.contains (g.val, n)
  let s := s.setTrees { s.p.trees with arrived := s.p.trees.arrived ++ news.eraseDups.map fun n => (g.val, n) }
  if g ≠ 0 ∧ s.allIn g = true ∧ s.allArrived g = false then
    let s := s.setTrees { s.p.trees with arrived := s.p.trees.arrived.filter (·.1 ≠ g.val) }
    let s := if s.isMember g then
      { s with c := { s.c with arr := s.c.arr &&& ~~~(State.bit g), done := s.c.done ||| State.bit g } } else s
    .next (if s.arrivals g = [] then s else s.failSync g ⟨.illegal, 6, 0⟩)
  else .next s

/-- R184: the time-out of an await: the arrival is withdrawn. -/
def execAwaitStraggler (s : State) : Result :=
  match s.c.pend with
  | .await g x =>
    .next (if s.c.stragg = 0 ∨ s.hasDone g = true then s else s.expireAwait g x)
  | _ => .next s

/-! dom and phase (R185, R186). -/

/-- R185: a mask is staged; the last one staged for a tree and tile stands. -/
def State.stage (s : State) (g : Tree) (tile : Nat) (mask : Word) : State :=
  let others := s.p.trees.staged.filter fun m => !(m.1 == g.val && m.2.1 == tile)
  s.setTrees { s.p.trees with staged := others ++ [(g.val, tile, mask.extractLsb' 0 16)] }

/-- R185: dom of another core of the partition, for tile `input.n` with mask `input.value`. -/
def State.domByOther (s : State) (g : Tree) : State :=
  if s.p.cfg.tiles.contains s.input.n then s.stage g s.input.n s.input.value else s

/-- R185: dom. -/
def execDom (g : Tree) (a b : Reg) (s : State) : Result :=
  if s.p.cfg.tiles.contains (s.reg a).toNat = false then s.trap .illegal 13
  else s.privC (s.stage g (s.reg a).toNat (s.reg b)).fin

namespace State

/-- R186: what Query reads: the controller runs an exchange, is idle, collects arrivals, or holds a release. While no arrival
stands, bits 13:8 read 0 (DESIGN CHOICE, log 34). -/
def phaseWord (s : State) : Word :=
  let xs := s.arrivals 0
  let st := if s.c.phase.getLsbD 0 then 3 else if xs.isEmpty then 0 else if s.allArrived 0 then 2 else 1
  BitVec.ofNat 32 (xs.length % 65536 * 65536 + (xs.headD (0, 0)).2 % 64 * 256 + st)

/-- R186: Cancel: the members waiting at sync, and the state with every one of them trapped. -/
def cancel (s : State) : State := s.failSync 0 ⟨.straggler, 1, s.xcyc⟩

end State

/-- R186: phase, with request 0 or 1. -/
def execPhaseQuery (d a : Reg) (s : State) : Result :=
  if 1 < (s.reg a).toNat then s.trap .illegal
  else s.privC <|
    if s.reg a = 0 then s.result d s.phaseWord
    else s.cancel.result d (BitVec.ofNat 32 (s.arrivals 0).length)

/-- R186: phase with request 1; with `input.flag` it is the Cancel of another core. -/
def execPhaseCancel (d a : Reg) (s : State) : Result :=
  if s.input.flag then .next s.cancel
  else if s.reg a ≠ 1 then execPhaseQuery d a s
  else s.privC <| s.cancel.result d (BitVec.ofNat 32 (s.arrivals 0).length)

/-! Reductions (R57, R163, R164, R187). -/

/-- R164: saturating sums and their clamp. -/
def redSat (t : ElemType) (xs : List Nat) : Nat × Bool :=
  let x := (xs.map (readInt (t == .i32) 32)).foldl (· + ·) 0
  (fitInt (t == .i32) true 32 x, decide (clampInt (t == .i32) 32 x ≠ x))

/-- R57: a node of the FP32 tree: an infinity that arises at a node shows in the result of the node. -/
def redNode (op : RedOp) (a b : Nat) : Nat :=
  match op with
  | .max => (laneMax .f32 false a b).1
  | .min => (laneMin .f32 false a b).1
  | _ => add32 a b

/-- The infinities that arise from finite operands anywhere in the tree of R57, or are contributed. -/
def redInf (op : RedOp) : Nat → List Nat → Bool
  | 0, xs => xs.any fun x => x % 2 ^ 31 == 0x7F800000
  | n + 1, xs =>
    match xs with
    | [] => false
    | [x] => x % 2 ^ 31 == 0x7F800000
    | _ =>
      let h := halfOf xs.length
      redInf op n (xs.take h) || redInf op n (xs.drop h) ||
        treeFold (redNode op) (n + 1) xs % 2 ^ 31 == 0x7F800000

/-- R164: one lane over the contributions in ascending logical core: result and status bits. -/
def redLane (op : RedOp) (t : ElemType) (sat : Bool) (xs : List Nat) : Nat × Nat :=
  if t = .f32 then
    let r := treeFold (redNode op) 16 xs
    let nan := isNan32 r
    let r := if nan then nan32 else r
    (r, (if nan then 4 else 0) + (if redInf op 16 xs then 2 else 0))
  else
    let sgn := t == .i32
    match op with
    | .add => if sat then let r := redSat t xs; (r.1, if r.2 then 1 else 0) else (xs.foldl (· + ·) 0 % 2 ^ 32, 0)
    | .max => (wrapInt 32 ((xs.map (readInt sgn 32)).foldl max (intMin sgn 32)), 0)
    | .min => (wrapInt 32 ((xs.map (readInt sgn 32)).foldl min (intMax sgn 32)), 0)
    | .and => (xs.foldl (· &&& ·) (2 ^ 32 - 1), 0)
    | .or => (xs.foldl (· ||| ·) 0, 0)
    | .bar => (0, 0)

/-- R163: whether two participants agree. -/
def redAgree (a b : RedContrib) : Bool := a.op == b.op && a.type == b.type && a.sat == b.sat && a.n == b.n

/-- R163, R164: the lanes and the status of a reduction, from every contribution in ascending logical core. -/
def reduceAll (cs : List RedContrib) : List Word × Word :=
  match cs with
  | [] => ([], 0)
  | c :: rest =>
    if rest.all (redAgree c) = false then (List.replicate 16 0, 8)
    else
      let rs := (List.range c.n).map fun i => redLane c.op c.type c.sat (cs.map fun x => (x.lanes.getD i 0).toNat)
      (rs.map fun r => BitVec.ofNat 32 r.1, BitVec.ofNat 32 (rs.foldl (fun w r => w ||| r.2) 0))

namespace State

/-- The reductions that this core has completed on a tree. -/
def redCount (s : State) (g : Tree) : Nat := ((s.c.redNum.find? (·.1 = g.val)).map (·.2)).getD 0

/-- R187: the first n lanes of a vector register. -/
def redLanes (s : State) (a : Reg) (n : Nat) : List Word := (List.range n).map fun i => (s.vreg a).extractLsb' (32 * i) 32

/-- R163, R187: a reduction: membership, the contribution, the wait; `out` takes the result. -/
def reduce (s : State) (g : Tree) (con : RedContrib) (out : State → List Word → Word → State) : Result :=
  match s.c.pend with
  | .redDone lanes st => (out s lanes st).fin
  | .red _ => s.wait
  | _ =>
    if s.isMember g = false then s.trap .illegal 9
    else s.classC <|
      (s.put (.contribute g (s.redCount g) con)).waitAt (.red { tree := g, con := con, num := s.redCount g, xc := s.xc })

/-- R187: a reduction with lanes: mod5's lane count, 0 for 16. -/
def reduceLanesOn (s : State) (op : RedOp) (t : ElemType) (sat : Bool) (d a : Reg) (g : Tree) (c : Reg) (n : Fin 16) : Result :=
  let k := if n.val = 0 then 16 else n.val
  s.reduce g { lcore := s.c.lcore.toNat, op := op, type := t, sat := sat, n := k, lanes := s.redLanes a k } fun u lanes st =>
    (u.setV d (BitVec.ofNat 512 (packBits 32 ((lanes.take k).map (·.toNat))))).setReg c st

end State

def execRedAdd (t : ElemType) (sat : Bool) (d a : Reg) (g : Tree) (c : Reg) (n : Fin 16) (s : State) : Result :=
  s.reduceLanesOn .add t sat d a g c n
def execRedMax (t : ElemType) (sat : Bool) (d a : Reg) (g : Tree) (c : Reg) (n : Fin 16) (s : State) : Result :=
  s.reduceLanesOn .max t sat d a g c n
def execRedMin (t : ElemType) (sat : Bool) (d a : Reg) (g : Tree) (c : Reg) (n : Fin 16) (s : State) : Result :=
  s.reduceLanesOn .min t sat d a g c n
def execRedAnd (t : ElemType) (sat : Bool) (d a : Reg) (g : Tree) (c : Reg) (n : Fin 16) (s : State) : Result :=
  s.reduceLanesOn .and t sat d a g c n
def execRedOr (t : ElemType) (sat : Bool) (d a : Reg) (g : Tree) (c : Reg) (n : Fin 16) (s : State) : Result :=
  s.reduceLanesOn .or t sat d a g c n

def execRedBar (g : Tree) (s : State) : Result :=
  s.reduce g { lcore := s.c.lcore.toNat, op := .bar, type := .u32, sat := false, n := 0, lanes := [] } fun u _ _ => u

/-- R163: the time-out of a reduction has come; it is counted from the xc of issue. -/
def State.redLate (s : State) (w : RedWait) : Bool := s.c.stragg != 0 && decide (w.xc + s.c.stragg.toNat ≤ s.xc)

/-- R163: the result reaches this core: the contributions of the other participants are `input.contribs`, one for each
other member of the tree. A result that comes after the time-out finds the contribution withdrawn. -/
def execReductionResult (s : State) : Result :=
  match s.c.pend with
  | .red w =>
    if s.redLate w = false ∧ s.input.contribs.length + 1 = (s.members w.tree).length then
      let cs := (w.con :: s.input.contribs).mergeSort fun x y => x.lcore ≤ y.lcore
      let r := reduceAll cs
      let num := (w.tree.val, w.num + 1) :: s.c.redNum.filter (·.1 ≠ w.tree.val)
      .next { s with c := { s.c with pend := .redDone r.1 r.2, redNum := num } }
    else .next s
  | _ => .next s

/-- R163: the time-out of a reduction: the contribution is withdrawn. -/
def execReductionStraggler (s : State) : Result :=
  match s.c.pend with
  | .red w =>
    if s.c.stragg = 0 then .next s
    else
      let x := w.xc + s.c.stragg.toNat
      .next (((s.advanceTo x).put (.withdraw w.tree w.num)).trapWaiting ⟨.straggler, 0, BitVec.ofNat 32 x⟩)
  | _ => .next s

end Sys2Proof.Machine
end

