-- ==== Sys2Proof/Machine/Launch.lean ====
section
/-! DEFINITION. Machine/Launch.lean: launches, pre-emption and the shadow, temperature and rails, tile gating (R190 to R215,
with R17, R36, R170). Firmware, the host and other cores act through the input of a step (log 32). -/

namespace Sys2Proof.Machine

/-! Records and queues (R191 to R196). -/

/-- A word of a record. -/
def recWord (bs : List Byte) (off : Nat) : Nat := leNat ((bs.drop off).take 4)
def recVa (bs : List Byte) (off : Nat) : Nat := leNat ((bs.drop off).take 6)

/-- R191: the fields of a record. -/
def recEntry (bs : List Byte) : Nat := recWord bs 0
def recPrio (bs : List Byte) : Nat := bitsOf (recWord bs 4) 0 2
def recCore (bs : List Byte) : Nat := bitsOf (recWord bs 0x20) 0 12
def recDone (bs : List Byte) : Option Nat :=
  if bitsOf (recWord bs 0x38) 15 1 = 1 then some (bitsOf (recWord bs 0x38) 0 12) else none

/-- R191: the dependences in force: counter and target. -/
def recDeps (bs : List Byte) : List (Nat × Word) :=
  [0x28, 0x30].filterMap fun o =>
    if bitsOf (recWord bs o) 15 1 = 1 then some (bitsOf (recWord bs o) 0 12, BitVec.ofNat 32 (recWord bs (o + 4))) else none

/-- R191: a record is well formed. Bits 14:12 of the words at +0x28, +0x30 and +0x38 stand in no row of the table; a record
with one of them set is malformed (DESIGN CHOICE, log 32). -/
def recOk (bs : List Byte) : Bool :=
  bs.length == 64 && recEntry bs % 2 == 0 && decide (0x200 ≤ recEntry bs ∧ recEntry bs ≤ 0x9FFFF) &&
  bitsOf (recWord bs 4) 2 30 == 0 && [0x0C, 0x14, 0x1C].all (fun o => bitsOf (recWord bs o) 16 16 == 0) &&
  decide (1 ≤ recCore bs ∧ recCore bs ≤ 2304) && bitsOf (recWord bs 0x20) 12 20 == 0 && recWord bs 0x24 == 0 &&
  [0x28, 0x30, 0x38].all (fun o => bitsOf (recWord bs o) 12 3 == 0 && bitsOf (recWord bs o) 16 16 == 0) &&
  recWord bs 0x3C == 0

/-- R193: a record of 64 bytes comes to the queue of its level in a partition. -/
def Part.submit (p : Part) (bs : List Byte) (space : Space) (xc : Nat) : Part × Nat :=
  if recOk bs = false then (p, 2)
  else if 64 ≤ (p.queue.filter (·.level = recPrio bs)).length then (p, 1)
  else
    let q : QRec := { bytes := bs, space := space, level := recPrio bs, order := p.order, xc := xc }
    ({ p with queue := p.queue ++ [q], order := p.order + 1, evaluate := true }, 0)

namespace State

/-- R193: a record is submitted to this partition: the status is 0 queued, 1 full, 2 malformed. -/
def submit (s : State) (bs : List Byte) : State × Nat :=
  let space : Space := { pages := s.input.pairs, key := s.input.op, asid := BitVec.ofNat 8 s.input.n }
  let r := s.p.submit bs space s.xc
  ({ s with p := r.1 }, r.2)

/-- R193: a record is submitted to partition n; one that firmware has not set up has no queue, and is answered like a full one
(DESIGN CHOICE, log 32). -/
def submitTo (s : State) (n : Nat) (bs : List Byte) : State × Nat :=
  let space : Space := { pages := s.input.pairs, key := s.input.op, asid := BitVec.ofNat 8 s.input.n }
  if n = s.p.num then s.submit bs
  else match s.others.find? (·.num = n) with
    | some p =>
      let r := p.submit bs space s.xc
      ({ s with others := s.others.map fun x => if x.num = n then r.1 else x }, r.2)
    | none => (s, if recOk bs then 1 else 2)

/-- R194, R196: completion counters; a change of one calls for an evaluation. -/
def counter (s : State) (n : Nat) : Word := ((s.chip.counters.find? (·.1 = n)).map (·.2)).getD 0
def setCounter (s : State) (n : Nat) (x : Word) : State :=
  { s with
    chip := { s.chip with counters := (n, x) :: s.chip.counters.filter (·.1 ≠ n) }
    p := { s.p with evaluate := true } }

/-- R194: a record is ready. -/
def ready (s : State) (q : QRec) : Bool := (recDeps q.bytes).all fun d => (0 : Word).sle (s.counter d.1 - d.2)

/-- R194: the record that the controller takes: of the highest level that holds a ready one, the earliest. -/
def nextRecord (s : State) : Option QRec :=
  let ok := s.p.queue.filter s.ready
  match (ok.map (·.level)).max? with
  | none => none
  | some top =>
    let at_ := ok.filter (·.level = top)
    match (at_.map (·.order)).min? with
    | none => none
    | some n => at_.find? (·.order = n)

end State

/-- R193: a record of 64 bytes, `input.data`, is submitted, and answered at once. With it firmware gives the launch its
address space: pages `input.pairs`, key slot `input.op`, id `input.n` (log 32). -/
def execLaunchSubmit (s : State) : Result :=
  let r := s.submit s.input.data
  .next (r.1.put (.reply r.2 []))

/-- R194, R195: aging raises the records that are overdue, which calls for an evaluation. -/
def execAgingRaise (s : State) : Result :=
  .next (if s.p.queue.any s.overdue then { s.raiseOverdue with p := { s.raiseOverdue.p with evaluate := true } } else s)

/-- R196: the host or firmware writes counter `input.n`. -/
def execCounterWrite (s : State) : Result :=
  .next (if s.input.n < 4096 then s.setCounter s.input.n s.input.value else s)

/-! Reading what a record names (R191, R192, R197). Host memory from `input.addr` on stands in `input.data`,
and `input.nums` are the addresses of its beats that the PCIe port reports as erroneous (log 32). -/

/-- What a copy of a launch leads to. -/
inductive Loaded where
  | bytes (bs : List Byte)
  | failed
  | waits
  deriving DecidableEq, Repr

/-- Two runs of bytes one after the other. -/
def Loaded.append : Loaded → Loaded → Loaded
  | .bytes a, .bytes b => .bytes (a ++ b)
  | .bytes _, x => x
  | x, _ => x

namespace State

/-- A beat of 64 bytes at a virtual address that is a multiple of 64. -/
def launchBeat (s : State) (m : Space) (va : Nat) : Loaded :=
  match m.pages.find? (·.1 = va / 65536) with
  | none => .failed
  | some p =>
    match s.regionOf (p.2 * 65536 + va % 65536) m.key true false with
    | .go (.lpddr pa k) => if s.chip.gerr.contains (pa / 64) then .failed else .bytes (s.gread pa 64 k)
    | .go (.host a) =>
      let bs := (s.input.data.drop (a - s.input.addr)).take 64
      if s.input.nums.contains a then .failed
      else if a < s.input.addr ∨ bs.length < 64 then .waits else .bytes bs
    | _ => .failed

/-- n bytes from a virtual address on. -/
def launchRead (s : State) (m : Space) (va n : Nat) : Loaded :=
  let beats := (List.range ((va + n + 63) / 64 - va / 64)).map fun i => s.launchBeat m (64 * (va / 64 + i))
  match beats.foldl Loaded.append (.bytes []) with
  | .bytes bs => .bytes ((bs.drop (va % 64)).take n)
  | x => x

end State

/-- R192: a directory entry. Bits 14:12 of the word at +16 stand in no row of the table; an entry with one of them set is
malformed (DESIGN CHOICE, log 32). -/
structure DirRec where
  img : Nat := 0
  len : Nat := 0
  load : Nat := 0
  tile : Nat := 0
  slot : Nat := 0
  pl : Bool := false
  ok : Bool := false
  deriving DecidableEq, Repr, Inhabited

def dirRec (bs : List Byte) : DirRec :=
  let len := recWord bs 8
  let load := recWord bs 12
  { img := recVa bs 0, len := len, load := load, tile := bitsOf (recWord bs 16) 0 8, slot := bitsOf (recWord bs 16) 8 4,
    pl := bitsOf (recWord bs 16) 15 1 == 1
    ok := bitsOf (recWord bs 4) 16 16 == 0 && len % 64 == 0 && load % 64 == 0 && decide (0x200 ≤ load ∧ load + len ≤ 0xA0000) &&
      bitsOf (recWord bs 16) 12 3 == 0 && bitsOf (recWord bs 16) 16 16 == 0 && (bs.drop 20).all (· == 0) }

namespace State

/-- R35: the physical core of a slot. -/
def slotCore (s : State) (tile slot : Nat) : Nat :=
  16 * tile +
    if tile = s.t.num then (s.t.slots[slot]?.map (·.phys.val)).getD slot
    else ((s.chip.slotTables.find? fun e => e.1 == tile && e.2.1 == slot).map (·.2.2)).getD slot

/-- R198: the cores of a partition by tile and slot. -/
def placeOrder (s : State) : List (Nat × Nat) :=
  (s.p.cfg.tiles.mergeSort (· ≤ ·)).flatMap fun t => (List.range 16).map fun i => (t, i)

/-- R198, R199: the placement by tile and slot, none where it is impossible. Logical core c takes the c-th free core; where
entries with PL = 1 have left none of that number, the first that no other takes (DESIGN CHOICE, log 32). -/
def placement (s : State) (ds : List DirRec) : Option (List (Nat × Nat)) :=
  let claimed := (ds.filter (·.pl)).map fun d => (d.tile, d.slot)
  let free := s.placeOrder.filter fun c => !claimed.contains c
  let first := ds.mapIdx fun c d => if d.pl then some (d.tile, d.slot) else free[c]?
  let rest := free.filter fun c => !first.contains (some c)
  let ps := first.mapIdx fun c x => x.or rest[((first.take c).filter Option.isNone).length]?
  if ps.all Option.isSome && claimed.all (fun c => s.p.cfg.tiles.contains c.1) && decide claimed.Nodup then
    some (ps.filterMap id)
  else none

end State

/-! Starting (R17, R197). -/

/-- R145: the counters after the end of an exchange phase that ran. -/
def Ctx.evenPhase (c : Ctx) : Ctx := { c with phase := c.phase + (c.phase &&& 1), lphase := c.lphase + (c.lphase &&& 1) }

/-- The state of a core without a context: the context that it held is gone, its memories keep their bytes. -/
def Ctx.idleOf (c : Ctx) : Ctx :=
  { c.evenPhase with
    run := .idle
    lid := 0
    mx := []
    head := []
    copy := []
    held := []
    exch := none
    pend := .none
    stall := false
    issue := none
    fetchStop := false
    deferred := none }

/-- R17: the context of logical core n of a launch, over the half and the banks of an older one. -/
def Ctx.launchOf (old : Ctx) (lid n ncore entry part : Nat) (asid : Byte) (cfg : PartSettings) (mem : Memory)
    (memErr : List Nat) : Ctx :=
  let zero : Vector Word 32 := Vector.replicate 32 0
  { run := .running
    lid := lid
    s := (((zero.set 1 0x100).set 2 (BitVec.ofNat 32 n)).set 3 (BitVec.ofNat 32 ncore)).set 30 0xA0000
    pc := BitVec.ofNat 32 entry
    status := 2
    lcore := BitVec.ofNat 32 n
    ncore := BitVec.ofNat 32 ncore
    part := BitVec.ofNat 32 part
    stragg := cfg.stragg
    mcheck := if cfg.mcheck then 1 else 0
    mem := mem
    memErr := memErr
    acc := old.acc
    accErr := old.accErr
    asid := asid }

/-- What the steps of R197 lead to: a launch that starts, with the memory that this core gets, one that ends with a status, or
a wait for the host. -/
inductive Prepared where
  | start (l : Launch) (mem : Memory) (memErr : List Nat) (masks : List (Nat × Nat × BitVec 16)) (image : Option Image)
  | ends (status : Nat) (image : Nat)
  | waits
  deriving DecidableEq, Repr

namespace State

/-- R197: the membership masks of g0 for a placement. -/
def launchMasks (cores : List Nat) : List (Nat × Nat × BitVec 16) :=
  let tiles := (cores.map (· / 16)).eraseDups
  tiles.map fun t => (0, t, (cores.filter (· / 16 = t)).foldl (fun m c => m ||| BitVec.ofNat 16 (2 ^ (c % 16))) 0)

/-- R197: the Caravan image of a record: none where XTABLE is 0; its status where it is refused. -/
def launchImage (s : State) (m : Space) (va ncore : Nat) : Loaded × Option Image × Nat :=
  if va = 0 then (.bytes [], none, 0)
  else match s.launchRead m va 64 with
    | .bytes h => match s.launchRead m va (max 64 (imgLen h)) with
      | .bytes bs => (.bytes bs, some (imageOf bs), (s.imageStatus bs (2 ^ 32) ncore).1)
      | x => (x, none, 0)
    | x => (x, none, 0)

/-- R197: the image and the block of the core of a directory entry, one after the other. -/
def coreLoad (s : State) (q : QRec) (k : Nat) (d : DirRec) : Loaded :=
  (s.launchRead q.space d.img d.len).append (s.launchRead q.space (recVa q.bytes 0x10 + 256 * k) 256)

/-- R197, R215: a copy fails: of the cores' bytes, to a core of this tile while it is gated, or, as `input.flag2` says, to
another core. -/
def copiesFail (s : State) (cores : List Nat) (loads : List Loaded) : Bool :=
  loads.contains .failed || (s.t.gate.isSome && cores.any (· / 16 == s.t.num)) || s.input.flag2

/-- R197: the half `mem` of this core with runtime block, image and launch block in place, and what is left of its errors: the
copies replace whole words with their codes (R239). -/
def loadHalf (s : State) (d : DirRec) (bytes : List Byte) (mem : Memory) (memErr : List Nat) : Memory × List Nat :=
  let runtime := (List.range 256).map fun j => s.p.cfg.runtime.getD j 0
  let kept (w : Nat) : Bool := decide (512 ≤ 8 * w ∧ (8 * w < d.load ∨ d.load + d.len ≤ 8 * w))
  (((mem.writeBytes 0 runtime).writeBytes d.load (bytes.take d.len)).writeBytes 0x100 (bytes.drop d.len), memErr.filter kept)

/-- R197 to R199: a record's launch: its directory, placement, copies (those to this core over the half `mem`) and image. -/
def prepare (s : State) (q : QRec) (mem : Memory) (memErr : List Nat) : Prepared :=
  let bs := q.bytes
  let n := recCore bs
  match s.launchRead q.space (recVa bs 8) (32 * n) with
  | .waits => .waits
  | .failed => .ends 2 0
  | .bytes dir =>
    let ds := (List.range n).map fun i => dirRec ((dir.drop (32 * i)).take 32)
    if ds.any fun d => !d.ok then .ends 1 0
    else match s.placement ds with
      | none => .ends 4 0
      | some ps =>
        let cores := ps.map fun p => s.slotCore p.1 p.2
        let k := cores.findIdx (· = s.coreId)
        let loads := ds.mapIdx (s.coreLoad q)
        let x := s.launchImage q.space (recVa bs 0x18) n
        if s.copiesFail cores loads then .ends 2 0
        else if loads.contains .waits then .waits
        else match x.1 with
          | .waits => .waits
          | .failed => .ends 2 0
          | .bytes _ =>
            if x.2.2 ≠ 0 then .ends 3 x.2.2
            else
              let bytes : List Byte := match loads[k]? with
                | some (.bytes b) => b
                | _ => []
              let m := if cores.contains s.coreId then s.loadHalf (ds.getD k {}) bytes mem memErr else (mem, memErr)
              .start { id := s.p.launches + 1, level := q.level, cores := cores, done := recDone bs } m.1 m.2
                (launchMasks cores) x.2.1

/-- The beats that a read of a launch's copies touches. -/
def launchBeats (s : State) (m : Space) (va n : Nat) : List Region :=
  (List.range ((va + n + 63) / 64 - va / 64)).filterMap fun i =>
    let a := 64 * (va / 64 + i)
    match m.pages.find? (·.1 = a / 65536) with
    | none => none
    | some p => match s.regionOf (p.2 * 65536 + a % 65536) m.key true false with
      | .go r => some r
      | _ => none

/-- R239, R240: what reading such a beat meets. -/
def meetBeat (s : State) : Region → State
  | .lpddr pa _ => gMeet 0 s (pa / 64)
  | .host a => if s.input.nums.contains a then s.logError 0x1200 3 a 0 else s
  | _ => s

/-- R239, R240: what the reads of a record's launch meet: correctable errors are corrected, uncorrectable ones logged. -/
def meetLaunch (s : State) (q : QRec) : State :=
  let bs := q.bytes
  let n := recCore bs
  let dirBeats := s.launchBeats q.space (recVa bs 8) (32 * n)
  let rest : List Region := match s.launchRead q.space (recVa bs 8) (32 * n) with
    | .bytes dir =>
      let ds := (List.range n).map fun i => dirRec ((dir.drop (32 * i)).take 32)
      if (ds.any fun d => !d.ok) || (s.placement ds).isNone then []
      else
        let image : List Region := if recVa bs 0x18 = 0 then [] else match s.launchRead q.space (recVa bs 0x18) 64 with
          | .bytes h => s.launchBeats q.space (recVa bs 0x18) (max 64 (imgLen h))
          | _ => s.launchBeats q.space (recVa bs 0x18) 64
        (ds.zipIdx.flatMap fun d =>
          s.launchBeats q.space d.1.img d.1.len ++ s.launchBeats q.space (recVa bs 0x10 + 256 * d.2) 256) ++ image
    | _ => []
  (dirBeats ++ rest).eraseDups.foldl meetBeat s

/-- R199, R362: the record of the end of a launch. -/
def launchRecord (s : State) (status image : Nat) (done : Option Nat) : State :=
  s.logRecord (0x1300 + s.p.num) 1 (BitVec.ofNat 32 (status + 256 * image)) (BitVec.ofNat 32 (done.getD 0)) 0 0

/-- A record leaves the queue. -/
def unqueue (s : State) (q : QRec) : State :=
  { s with p := { s.p with queue := s.p.queue.filter (·.order ≠ q.order), launches := s.p.launches + 1 } }

/-- R197: a launch starts in the foreground; the phase counter of the partition is 0 (R145). -/
def startLaunch (s : State) (q : QRec) (l : Launch) (mem : Memory) (memErr : List Nat)
    (masks : List (Nat × Nat × BitVec 16)) (image : Option Image) : State :=
  let k := l.cores.findIdx (· = s.coreId)
  let c := if l.cores.contains s.coreId then
      s.c.launchOf l.id k l.cores.length (recEntry q.bytes) s.p.num q.space.asid s.p.cfg mem memErr
    else { s.c with phase := 0 }
  { s with c := c, p := { s.p with running := some l, trees := { masks := masks }, image := image, locals := [] } }

/-- R203: a launch is prepared in the shadow. -/
def shadowLaunch (s : State) (q : QRec) (l : Launch) (mem : Memory) (memErr : List Nat)
    (masks : List (Nat × Nat × BitVec 16)) (image : Option Image) : State :=
  let k := l.cores.findIdx (· = s.coreId)
  let c := if l.cores.contains s.coreId then
      s.sh.launchOf l.id k l.cores.length (recEntry q.bytes) s.p.num q.space.asid s.p.cfg mem memErr
    else { s.sh with phase := 0 }
  { s with sh := c, p := { s.p with
      prepared := some l, treesSh := { masks := masks }, imageSh := image, since := s.xc, told := false } }

/-- R194, R197, R203: an evaluation: the next record starts in the foreground, is prepared in the shadow of a running launch of
a lower level, or waits. One whose copies wait for the host is evaluated again. -/
def evaluate (s : State) : State :=
  let seen : State := { s with p := { s.p with evaluate := false } }
  let met (q : QRec) : State := seen.meetLaunch q
  let fails (q : QRec) (st i : Nat) : State :=
    let t := ((met q).unqueue q).launchRecord st i (recDone q.bytes)
    { t with p := { t.p with evaluate := true } }
  match s.nextRecord with
  | none => seen
  | some q =>
    let free := s.p.shadowed.isNone && s.p.prepared.isNone
    match s.p.running with
    | none =>
      if free then match s.prepare q s.c.mem s.c.memErr with
        | .start l m e g i => ((met q).unqueue q).startLaunch q l m e g i
        | .ends st i => fails q st i
        | .waits => s
      else seen
    | some r =>
      if free && decide (r.level < q.level) then match s.prepare q s.sh.mem s.sh.memErr with
        | .start l m e g i => ((met q).unqueue q).shadowLaunch q l m e g i
        | .ends st i => fails q st i
        | .waits => s
      else seen

end State

/-- R194, R195: the controller evaluates admission where something calls for it; records that are overdue rise first. -/
def execLaunchAdmit (s : State) : Result := .next (if s.p.evaluate then s.raiseOverdue.evaluate else s)

/-! The swap (R170, R203 to R206). -/

/-- R204: a beat of a command as its context leaves: what has been fetched and not yet written is dropped, and read again
later; a write that has been made stays made. -/
def Aside.leave (q : CopyCmd) (a : Aside) : Aside :=
  if q.writes && !a.isList then (if a.back then a else { a with data := none })
  else { a with data := none, rsp := none, stall := if a.stall = .remote then .none else a.stall }

/-- R204: a context as it leaves: its monitors and fetch buffer do not go along. -/
def Ctx.leave (c : Ctx) : Ctx :=
  let stop (q : CopyCmd) : CopyCmd := { q with aside := q.aside.map (Aside.leave q) }
  { c with mon := Vector.replicate 8 {}, stale := [], cycleBar := [], copy := c.copy.map stop }

namespace State

/-- R170: a waita whose context left traps with MONITOR. -/
def resumeWait (s : State) : State := if s.c.pend = .waita then s.trapWaiting ⟨.monitor, 0, 0⟩ else s

/-- R202 to R204: foreground and shadow change places on this core, with their halves; the incoming context goes on in a
compute phase. -/
def swapCores (s : State) : State :=
  let t := { s with c := s.sh.leave, sh := s.c.leave, half := !s.half }
  if t.c.run = .running then t.resumeWait.startCompute else t

/-- R145, R204: on a core outside both launches the phase counter of the partition changes with them. -/
def swapPhases (s : State) : State :=
  { s with c := { s.c with phase := s.sh.phase }, sh := { s.sh with phase := s.c.phase } }

/-- Whether this core belongs to a launch. -/
def inLaunch (s : State) (l : Option Launch) : Bool := match l with
  | some l => l.cores.contains s.coreId
  | none => false

/-- R203: the prepared launch comes in, and the running one waits in the shadow. -/
def swapIn (s : State) : State :=
  let p := s.p
  let both := s.inLaunch p.prepared || s.inLaunch p.running
  let t := { s with p := { p with
    running := p.prepared
    prepared := none
    shadowed := p.running
    swapDue := false
    evaluate := true
    trees := p.treesSh
    treesSh := p.trees
    image := p.imageSh
    imageSh := p.image } }
  if both then t.swapCores else t.swapPhases

/-- R203: the launch in the shadow, pre-empted or prepared, comes to the foreground, which holds none: the cores of a
pre-empted launch and of the one that has ended swap back. -/
def swapBack (s : State) (ended : Option Launch) : State :=
  let p := s.p
  match p.shadowed.or p.prepared with
  | none => s
  | some l =>
    let t := { s with p := { p with
      running := some l
      prepared := none
      shadowed := none
      swapDue := false
      trees := p.treesSh
      treesSh := {}
      image := p.imageSh
      imageSh := none } }
    if s.inLaunch (some l) || (p.shadowed.isSome && s.inLaunch ended) then t.swapCores else t.swapPhases

end State

/-- R203, R205: the swap at a pre-emption point, once the slice and the head unit have finished. The point has come where
this core's launch says so, or where this core runs none (`input.flag`). -/
def execPreemptSwap (s : State) : Result :=
  let due := s.p.swapDue || (s.input.flag && !s.inLaunch s.p.running)
  .next (if due && s.p.prepared.isSome && s.c.mx.isEmpty && s.c.head.isEmpty && !s.inExchange then s.swapIn else s)

/-- R208: no pre-emption point has come when the pre-emption limit, in µs, has passed since the record was admitted. -/
def State.limitPassed (s : State) : Bool :=
  s.p.prepared.isSome && !s.p.swapDue && !s.p.told && decide (s.p.since + 1000 * s.p.cfg.preemptLimit ≤ s.xc)

/-- R208: PREEMPT_OVERDUE goes to the service core of tile 0. -/
def execPreemptOverdue (s : State) : Result :=
  .next (if s.limitPassed then { s.tellTile0 .overdue .overdue with p := { s.p with told := true } } else s)

namespace State

/-- R207: the launch in the shadow, pre-empted or prepared, is paged out. -/
def pageOut (s : State) : State :=
  match s.p.shadowed.or s.p.prepared with
  | none => s
  | some l =>
    let g : Paged :=
      { waits := s.p.shadowed.isNone, since := s.p.since, launch := l, ctx := s.sh, trees := s.p.treesSh, image := s.p.imageSh }
    { s with
      sh := if s.inLaunch (some l) then s.sh.idleOf else s.sh
      p := { s.p with
        paged := g :: s.p.paged, shadowed := none, prepared := none, treesSh := {}, imageSh := none } }

/-- R207: a launch that is paged out comes back into the shadow, and resumes where the foreground is free. -/
def pageIn (s : State) (g : Paged) : State :=
  let t := { s with
    sh := if s.inLaunch (some g.launch) then g.ctx else { s.sh with phase := g.ctx.phase }
    p := { s.p with
      paged := s.p.paged.filter (·.launch.id ≠ g.launch.id), treesSh := g.trees, imageSh := g.image
      shadowed := if g.waits then none else some g.launch, prepared := if g.waits then some g.launch else none
      since := g.since, told := false } }
  if s.p.running.isNone then t.swapBack none else t

end State

/-- R207: the launch in the shadow is paged out, or launch `input.n` back into it (`input.flag`), where nothing is there. -/
def execShadowPage (s : State) : Result :=
  .next <|
    if s.input.flag then
      match s.p.paged.find? (·.launch.id = s.input.n), s.p.shadowed.or s.p.prepared with
      | some g, none => s.pageIn g
      | _, _ => s
    else if s.p.swapDue then s else s.pageOut

/-! Ending (R199 to R201). -/

namespace State

/-- R199, R200, R313: the running launch ends with a status, its pending arrivals withdrawn; the launch in the shadow resumes.
The masks of its trees and its Caravan image stay until another launch comes (R291). -/
def endRunning (s : State) (l : Launch) (status : Nat) : State :=
  let s := (s.releaseLaunch l.id).launchRecord status 0 l.done
  let c := if s.inLaunch (some l) then s.c.idleOf else s.c.evenPhase
  ({ s with c := c, p := { s.p with
      running := none, trees := { masks := s.p.trees.masks }, swapDue := false, evaluate := true, locals := [] } } : State).swapBack (some l)

/-- The same of the launch in the shadow. -/
def endShadow (s : State) (l : Launch) (status : Nat) : State :=
  let s := (s.releaseLaunch l.id).launchRecord status 0 l.done
  let c := if s.inLaunch (some l) then s.sh.idleOf else s.sh
  { s with sh := c, p := { s.p with
      shadowed := none, prepared := none, treesSh := {}, imageSh := none, swapDue := false, evaluate := true } }

/-- R201: every core whose g0 bit is set has halted. -/
def allHalted (s : State) : Bool := (s.members 0).all s.p.trees.halted.contains

/-- R196: every copy command of the launch has completed: of this core, and of each other core, which has halted or, removed by
dom, has reported that its commands have completed. -/
def copiesDone (s : State) : Bool :=
  let cores := (s.p.running.map (·.cores)).getD []
  (!s.inLaunch s.p.running || s.copyIdle) && cores.all fun m => m == s.coreId || s.p.trees.halted.contains m

end State

/-- R196, R201: the running launch is complete. `input.nums` brings the halts of other cores, and the reports of those that dom has
removed that their copy commands have completed. -/
def execLaunchComplete (s : State) : Result :=
  let others := s.input.nums.filter (· ≠ s.coreId)
  let s := s.setTrees { s.p.trees with halted := s.p.trees.halted ++ others }
  .next <|
    match s.p.running with
    | some l =>
      if s.allHalted && s.copiesDone then
        let s := match l.done with
          | some n => s.setCounter n (s.counter n + 1)
          | none => s
        s.endRunning l 0
      else s
    | none => s

/-- R200: firmware ends launch `input.n`. -/
def execLaunchEndedByFirmware (s : State) : Result :=
  let named (l : Option Launch) : Option Launch := l.filter (·.id = s.input.n)
  .next <|
    match named s.p.running, named (s.p.shadowed.or s.p.prepared) with
    | some l, _ => s.endRunning l 5
    | none, some l => s.endShadow l 5
    | none, none =>
      match s.p.paged.find? (·.launch.id = s.input.n) with
      | some g =>
        ({ s with p := { s.p with paged := s.p.paged.filter (·.launch.id ≠ s.input.n) } } : State).releaseLaunch g.launch.id
          |>.launchRecord 5 0 g.launch.done
      | none => s

/-- R200: firmware restarts a core that a double trap has stopped, after it has written `input.value` to c.cause. -/
def execCoreRestart (s : State) : Result :=
  .next (if s.c.run = .stopped ∧ s.alive = true then
    let s := s.csrPut .cause s.input.value
    { s with c := { s.c with
        run := .running
        status := (s.c.status &&& 0xFFFFFFFC) ||| 1
        pc := s.c.tvec
        stall := false
        pend := .none
        issue := none } }
  else s)

/-! Settings (R190). -/

/-- R190: the settings are in range. -/
def settingsOk (g : PartSettings) : Bool :=
  !g.tiles.isEmpty && decide g.tiles.Nodup && g.tiles.all (· < 144) && decide (1 ≤ g.preemptLimit ∧ g.preemptLimit ≤ 2 ^ 24)

/-- R190: a partition in which a context is resident. -/
def Part.busy (p : Part) : Bool := p.running.isSome || p.shadowed.isSome || p.prepared.isSome

/-- R356: first-stage firmware, while it boots, loads key slot 0 before it sets up the first partition; the partitions are ready
after the last one (`input.flag`), and STATUS reports 0. -/
def State.bootPartition (s : State) : State :=
  let b := s.chip.boot
  if b.firmware = true ∧ b.status = 1 then
    let keys := if s.chip.keys.any (·.1 == 0) then s.chip.keys else (0, Config.entropyKey b.boots) :: s.chip.keys
    { s with chip := { s.chip with keys := keys, boot := { b with status := if s.input.flag then 0 else 1 } } }
  else s

/-- R190: firmware sets the settings of partition `input.n`; it changes the tiles only while no context is resident, and takes
no tile of another partition. Each partition keeps its own state; this core is in the one that holds its tile. -/
def execPartitionConfig (s : State) : Result :=
  let g := s.input.cfg
  let n := s.input.n
  let rest := s.others.filter (·.num ≠ n)
  let old : Part := if n = s.p.num then s.p else (s.others.find? (·.num = n)).getD { num := n, cfg := {} }
  let new : Part := { old with cfg := g, lbudget := BitVec.ofNat 14 (min 9600 g.lbudget) }
  let apart : Bool := ((if n = s.p.num then [] else [s.p]) ++ rest).all fun p => p.cfg.tiles.all fun t => !g.tiles.contains t
  .next (if n < 4 ∧ settingsOk g = true ∧ apart = true ∧ (g.tiles = old.cfg.tiles ∨ old.busy = false) then
    let t : State :=
      if n = s.p.num then { s with p := new }
      else if g.tiles.contains s.t.num then { s with p := new, others := s.p :: rest }
      else { s with others := new :: rest }
    t.bootPartition
  else s)

/-! Temperature (R209 to R211). -/

/-- R209: the sensors are sampled: the 16 cores, then the router. -/
def execSensorSample (s : State) : Result :=
  .next (if s.input.temps.length = 17 then { s with t := { s.t with temps := s.input.temps } } else s)

namespace State

/-- R209: the temperature of the tile. -/
def tileTemp (s : State) : Int := (s.t.temps.max?).getD 0

/-- R210: at least 1 ms since the last transition of the tile. -/
def thermReady (s : State) : Bool := match s.t.thermXc with
  | some x => decide (x + 1000000 ≤ s.xc)
  | none => true

end State

/-- R210: the change of rail that is due: to the low rail, or to the high one. -/
def State.thermalDue (s : State) : Option Bool :=
  if s.t.throttled then (if s.tileTemp ≤ (s.t.thot.toNat : Int) - 3 then some false else none)
  else if (s.t.thot.toNat : Int) ≤ s.tileTemp then some true else none

/-- R9, R210: a core of the tile is in an exchange phase, the partition's or a local one, or has an instruction in flight
(`input.flag` for another core's). An instruction that waits at pc is not in flight (DESIGN CHOICE, log 32). -/
def State.thermalBusy (s : State) : Bool :=
  let near (l : LocalRun) : Bool := (s.members l.tree).any (· / 16 == s.t.num)
  s.c.phase.getLsbD 0 || s.c.lphase.getLsbD 0 || s.localRuns.any near || !s.c.mx.isEmpty || !s.c.head.isEmpty || s.input.flag

/-- R9, R210: the rail changes. -/
def execThermal (s : State) : Result :=
  .next (match s.thermalDue with
    | some down =>
      if s.thermReady && !s.thermalBusy then
        ({ s with cc := 0, t := { s.t with throttled := down, thermXc := some s.xc } } : State).logRecord (0x1000 + s.t.num) 2
          (Config.thermalCode down) (BitVec.ofInt 32 s.tileTemp) 0 0
      else s
    | none => s)

namespace State

/-- R211: the coolest of the idle cores that are cool enough, the lower index first. -/
def coolest (s : State) (idle : List Nat) : Option (Fin 16) :=
  let temp (i : Fin 16) : Int := s.t.temps.getD i.val 0
  let ok := (List.finRange 16).filter fun i => idle.contains i.val && i != s.t.idx && decide (temp i ≤ (s.t.tmig.toNat : Int) - 3)
  match (ok.map temp).min? with
  | some t => ok.find? fun i => temp i = t
  | none => none

/-- R36: an entry of the tile's slot table changed. -/
def mapSlot (s : State) (slot : Nat) (f : SlotEntry → SlotEntry) : State :=
  { s with t := { s.t with slots := s.t.slots.modify slot f } }

/-- R36, R211: a member of the running launch has moved from core a to core b: its places in the launch and the trees. -/
def renameCore (s : State) (a b : Nat) : State :=
  let f (n : Nat) : Nat := if n = a then b else n
  let bit (n : Nat) : BitVec 16 := BitVec.ofNat 16 (2 ^ (n % 16))
  let mask (m : Nat × Nat × BitVec 16) : Nat × Nat × BitVec 16 :=
    if m.2.1 = a / 16 ∧ m.2.2.getLsbD (a % 16) = true then (m.1, m.2.1, (m.2.2 &&& ~~~(bit a)) ||| bit b) else m
  let tr := s.p.trees
  let trees : Trees :=
    { masks := tr.masks.map mask
      staged := tr.staged.map mask
      arrived := tr.arrived.map fun x => (x.1, f x.2)
      gather := tr.gather.map fun x => { x with arrivals := x.arrivals.map fun y => (f y.1, y.2) }
      halted := tr.halted.map f }
  { s with p := { s.p with trees := trees, running := s.p.running.map fun l => { l with cores := l.cores.map f } } }

/-- R36: the context has arrived at core n of the tile; what was held for its slot is delivered. The entry of the slot under which core
n was known stays as it is (DESIGN CHOICE, log 32). -/
def arriveAt (s : State) (n : Fin 16) : State :=
  let old := s.coreId
  let u := s.mapSlot s.t.slot.val fun e => { e with v := true, it := false, phys := n }
  let w : State := { u with c := u.c.leave, t := { u.t with idx := n, thermXc := some u.xc } }
  (w.renameCore old w.coreId).resumeWait.landDue.postHeld

/-- R35, R210, R211: another core's context, in slot `input.off` of tile `input.chip`, has moved to core `input.op` of the tile.
On this tile it moves where 1 ms has passed since the tile's last transition, and is one itself. -/
def otherMoved (s : State) : State :=
  let i := s.input
  let old := s.slotCore i.chip i.off
  if h : i.op < 16 then
    if i.chip = s.t.num then
      if i.off = s.t.slot.val ∨ s.thermReady = false then s
      else (({ s with t := { s.t with thermXc := some s.xc } } : State).mapSlot i.off fun e => { e with phys := ⟨i.op, h⟩ }).renameCore old (16 * i.chip + i.op)
    else
      let tables := (i.chip, i.off, i.op) :: s.chip.slotTables.filter fun e => !(e.1 == i.chip && e.2.1 == i.off)
      ({ s with chip := { s.chip with slotTables := tables } } : State).renameCore old (16 * i.chip + i.op)
  else s

end State

/-- R211, R36: at a transition of the partition a hot core's context goes to the coolest of the idle cores `input.nums` of
its tile, which is fixed at the transition: first its slot entry is in transit, and in a second step it has arrived. With `input.flag` it is another core's
context that has moved. -/
def execThermalMigration (s : State) : Result :=
  let calm := s.boundary && s.c.mx.isEmpty && s.c.head.isEmpty
  let hot := decide ((s.t.tmig.toNat : Int) ≤ s.t.temps.getD s.t.idx.val 0)
  .next <|
    if s.input.flag then s.otherMoved
    else if s.inTransit then s.arriveAt s.t.target
    else match s.coolest s.input.nums with
      | none => s
      | some n =>
        if calm && hot && s.c.run != .idle && s.sh.run == .idle && s.thermReady then
          let t := s.mapSlot s.t.slot.val fun e => { e with v := false, it := true }
          { t with t := { t.t with thermXc := some s.xc, target := n } }
        else s

/-! Gating (R214, R215). -/

/-- R214: a tree with a pending arrival has a member on the tile. -/
def State.treePending (s : State) : Bool :=
  (List.finRange 16).any fun g =>
    (s.members g).any (· / 16 == s.t.num) &&
      (s.p.trees.arrived.any (·.1 == g.val) || s.p.trees.gather.any fun x => x.tree == g && !x.arrivals.isEmpty)

/-- R214: why a gate is refused: a context on the tile (`input.flag` for another core's), a pending arrival on a tree of one of
its cores, a grant that names its port; a partition with a running launch only at its transitions. -/
def State.gateRefused (s : State) : Bool :=
  s.input.flag || s.c.run != .idle || s.sh.run != .idle || s.treePending ||
    s.chip.grants.any (fun g => g.src == s.t.num || (!g.fibre && g.dests.contains s.t.num)) ||
    (s.p.running.isSome && !s.input.flag2)

/-- R214, R215: firmware gates the tile in mode `input.gate`; `input.flag2` says that the partition is at a transition. In
OFF the memories lose their contents (log 3). -/
def execTileGate (s : State) : Result :=
  if s.gateRefused || s.t.gate.isSome then .next s
  else
    let s := { s with t := { s.t with gate := some s.input.gate, tlb := [] } }
    .next (match s.input.gate with
      | .retain => s
      | .off => { s with c := { s.c with mem := [], memErr := [] }, sh := { s.sh with mem := [], memErr := [] } })

/-- R215: firmware ungates the tile: its cores are in the reset state, with their memories as they are. -/
def execTileUngate (s : State) : Result :=
  if s.t.gate.isNone then .next s
  else
    let fresh : Tile := {}
    .next { s with
      c := { mem := s.c.mem, memErr := s.c.memErr }
      sh := { mem := s.sh.mem, memErr := s.sh.memErr }
      t := { s.t with
        gate := none, tlb := [], slots := fresh.slots, slot := s.t.idx, thot := fresh.thot, tmig := fresh.tmig, slew := fresh.slew,
        notices := [], tlbWaits := [] } }

end Sys2Proof.Machine
end

