-- ==== Sys2Proof/Machine/Shake.lean ====
section
/-! DEFINITION. Machine/Shake.lean: SHAKE128 and SHAKE256 (R355, R357): the manual names the functions, whose standard is FIPS
202. A state is its 25 lanes of 64 bits, lane (x, y) at place 5y + x (log 51). -/

namespace Sys2Proof.Machine.Shake

abbrev Lanes := List DWord

def lane (a : Lanes) (x y : Nat) : DWord := a.getD (5 * (y % 5) + x % 5) 0

/-- A state by its lanes. -/
def build (f : Nat → Nat → DWord) : Lanes := (List.range 25).map fun i => f (i % 5) (i / 5)

/-- θ: every lane takes up the parities of two columns. -/
def theta (a : Lanes) : Lanes :=
  let col (x : Nat) : DWord := (List.range 5).foldl (fun v y => v ^^^ lane a x y) 0
  let cols := (List.range 5).map col
  build fun x y => lane a x y ^^^ cols.getD ((x + 4) % 5) 0 ^^^ (cols.getD ((x + 1) % 5) 0).rotateLeft 1

/-- ρ: by how much the lane at (x, y) turns: along the walk from (1, 0) to (y, 2x + 3y), the triangle numbers. -/
def offsets : List (Nat × Nat × Nat) :=
  ((List.range 24).foldl (fun w t => ((w.1.2, 2 * w.1.1 + 3 * w.1.2), w.2 ++ [(w.1.1 % 5, w.1.2 % 5, (t + 1) * (t + 2) / 2 % 64)]))
    (((1, 0) : Nat × Nat), ([] : List (Nat × Nat × Nat)))).2

def turn (x y : Nat) : Nat := ((offsets.find? fun o => o.1 == x && o.2.1 == y).map (·.2.2)).getD 0

/-- ρ and π. -/
def rhoPi (a : Lanes) : Lanes := build fun x y => let u := (x + 3 * y) % 5; (lane a u x).rotateLeft (turn u x)

/-- χ. -/
def chi (a : Lanes) : Lanes := build fun x y => lane a x y ^^^ (~~~(lane a (x + 1) y) &&& lane a (x + 2) y)

/-- ι: the shift register that gives the round constants, and the constant of a round. -/
def register (t : Nat) : Nat := (List.range (t % 255)).foldl (fun r _ => if r < 128 then 2 * r else (2 * r) ^^^ 0x171) 1
def constant (round : Nat) : DWord :=
  (List.range 7).foldl (fun v j => if register (j + 7 * round) % 2 = 1 then v ||| BitVec.ofNat 64 (2 ^ (2 ^ j - 1)) else v) 0

/-- The permutation, of 24 rounds. -/
def permute (a : Lanes) : Lanes :=
  (List.range 24).foldl (fun a r => (chi (rhoPi (theta a))).modify 0 (· ^^^ constant r)) a

/-- The bytes of a state, and a block of bytes as lanes. -/
def stateBytes (a : Lanes) : List Byte := a.flatMap fun w => (List.range 8).map fun i => w.extractLsb' (8 * i) 8
def blockLanes (bs : List Byte) : Lanes :=
  build fun x y => (List.range 8).foldr (fun i v => (v <<< 8) ||| (bs.getD (8 * (5 * y + x) + i) 0).zeroExtend 64) 0

/-- A message with the suffix of SHAKE and the padding to whole blocks. -/
def padded (rate : Nat) (m : List Byte) : List Byte :=
  let n := rate - m.length % rate
  m ++ if n = 1 then [0x9F] else 0x1F :: List.replicate (n - 2) 0 ++ [0x80]

/-- What the sponge gives: n blocks after the message. -/
def squeeze (rate : Nat) : Nat → Lanes → List Byte
  | 0, _ => []
  | n + 1, a => (stateBytes a).take rate ++ squeeze rate n (permute a)

def sponge (rate : Nat) (m : List Byte) (n : Nat) : List Byte :=
  let p := padded rate m
  let absorb (a : Lanes) (i : Nat) : Lanes :=
    permute (List.zipWith (· ^^^ ·) a (blockLanes ((p.drop (rate * i)).take rate)))
  (squeeze rate ((n + rate - 1) / rate) ((List.range (p.length / rate)).foldl absorb (build fun _ _ => 0))).take n

end Sys2Proof.Machine.Shake

namespace Sys2Proof.Machine

/-- The first n bytes of SHAKE128 and of SHAKE256 of a message. -/
def shake128 (m : List Byte) (n : Nat) : List Byte := Shake.sponge 168 m n
def shake256 (m : List Byte) (n : Nat) : List Byte := Shake.sponge 136 m n

end Sys2Proof.Machine
end

