-- ==== Sys2Proof/Machine/MlDsa.lean ====
section
/-! DEFINITION. Machine/MlDsa.lean: the verification of an ML-DSA-65 signature (R355): the manual names the scheme, whose
standard is FIPS 204, in its pure form with an empty context (log 51). A polynomial is its 256 coefficients modulo q. -/

namespace Sys2Proof.Machine.MlDsa

/-! The parameters of ML-DSA-65. -/
def q : Nat := 8380417
def gamma1 : Nat := 2 ^ 19
def gamma2 : Nat := (q - 1) / 32
def beta : Nat := 196
def omega : Nat := 55

abbrev Poly := List Nat

/-- The powers of ζ = 1753, a root of unity of order 512. -/
def zetas : Array Nat := (List.range 511).foldl (fun z _ => z.push (1753 * z.back! % q)) #[1]
def zeta (n : Nat) : Nat := zetas.getD (n % 512) 0

/-- The order of the 8 bits of a number turned round. -/
def rev8 (i : Nat) : Nat := (List.range 8).foldl (fun v j => 2 * v + i / 2 ^ j % 2) 0

/-- The exponent of the root of X^256 + 1 at place i of a transform. -/
def rootAt (i : Nat) : Nat := 2 * rev8 i + 1

/-- The sum of terms modulo q. -/
def total (n : Nat) (f : Nat → Nat) : Nat := (List.range n).foldl (fun v i => (v + f i) % q) 0

/-- The transform: the values at the 256 roots; and the polynomial of a transform, 8347681 being the inverse of 256. -/
def ntt (f : Poly) : Poly :=
  let a := f.toArray
  (List.range 256).map fun i => let r := rootAt i; total 256 fun j => a.getD j 0 * zeta (r * j)
def unNtt (g : Poly) : Poly :=
  let a := g.toArray
  (List.range 256).map fun j => 8347681 * total 256 (fun i => a.getD i 0 * zeta ((512 - rootAt i) * j)) % q

def addP (a b : Poly) : Poly := List.zipWith (fun x y => (x + y) % q) a b
def subP (a b : Poly) : Poly := List.zipWith (fun x y => (x + q - y % q) % q) a b
def mulP (a b : Poly) : Poly := List.zipWith (fun x y => x * y % q) a b

/-- The numbers of w bits that bytes hold, the lowest bits first. -/
def unpack (w n : Nat) (bs : List Byte) : List Nat :=
  let x := bs.foldr (fun b v => b.toNat + 256 * v) 0
  (List.range n).map fun i => x / 2 ^ (w * i) % 2 ^ w

/-- An entry of the matrix A, in transformed form: the numbers of 23 bits below q from the stream of its seed. -/
def entryA (rho : List Byte) (r c : Nat) : Poly :=
  let xs := shake128 (rho ++ [BitVec.ofNat 8 c, BitVec.ofNat 8 r]) (3 * 1024)
  let three (i : Nat) : Nat :=
    (xs.getD (3 * i) 0).toNat + 256 * (xs.getD (3 * i + 1) 0).toNat + 65536 * ((xs.getD (3 * i + 2) 0).toNat % 128)
  (((List.range 1024).map three).filter (· < q)).take 256

/-- The first byte of a stream that is at most i, and what follows it. -/
def nextIndex (i : Nat) : List Byte → Nat × List Byte
  | [] => (0, [])
  | b :: bs => if b.toNat ≤ i then (b.toNat, bs) else nextIndex i bs

/-- The polynomial with 49 coefficients 1 or -1 that a seed gives. -/
def inBall (seed : List Byte) : Poly :=
  let xs := shake256 seed 1024
  let signs := (xs.take 8).foldr (fun b v => b.toNat + 256 * v) 0
  let place (m : Poly × List Byte) (k : Nat) : Poly × List Byte :=
    let i := 207 + k
    match nextIndex i m.2 with
    | (j, rest) => ((m.1.set i (m.1.getD j 0)).set j (if signs.testBit k then q - 1 else 1), rest)
  ((List.range 49).foldl place (List.replicate 256 0, xs.drop 8)).1

/-- The hints of six polynomials, each as the places that it marks; none where their encoding is not the one allowed. -/
def hints (y : List Byte) : Option (List (List Nat)) :=
  let at_ (i : Nat) : Nat := (y.getD i 0).toNat
  let stop (i : Nat) : Nat := at_ (omega + i)
  let start (i : Nat) : Nat := if i = 0 then 0 else stop (i - 1)
  let rises (i : Nat) : Bool :=
    decide (start i ≤ stop i ∧ stop i ≤ omega) &&
      (List.range (stop i - start i - 1)).all fun k => decide (at_ (start i + k) < at_ (start i + k + 1))
  if (List.range 6).all rises && (List.range omega).all fun i => decide (i < stop 5) || at_ i == 0 then
    some ((List.range 6).map fun i => (List.range (stop i - start i)).map fun k => at_ (start i + k))
  else none

/-- The high part of a residue, moved by one where a hint says so: up where the low part is positive, else down. -/
def useHint (hint : Bool) (r : Nat) : Nat :=
  let m := 2 * gamma2
  let low := r % m
  let up := decide (gamma2 < low)
  let high := (r / m + if up then 1 else 0) % 16
  if hint = false then high else if decide (0 < low) && !up then (high + 1) % 16 else (high + 15) % 16

/-- Two numbers of 4 bits in each byte. -/
def packHigh (w : Poly) : List Byte := (List.range 128).map fun i => BitVec.ofNat 8 (w.getD (2 * i) 0 + 16 * w.getD (2 * i + 1) 0)

/-- The coefficients of z, modulo q, and whether they are all small enough. -/
def coeffZ (x : Nat) : Nat := (gamma1 + q - x) % q
def smallZ (x : Nat) : Bool := decide (x < 2 * gamma1 - beta ∧ beta < x)

end Sys2Proof.Machine.MlDsa

namespace Sys2Proof.Machine

open MlDsa in
/-- R355: whether a signature of 3,309 bytes verifies over a message under a public key of 1,952 bytes. -/
def mlDsaVerify (key msg sig : List Byte) : Bool :=
  let rho := key.take 32
  let t1 := (List.range 6).map fun i => unpack 10 256 ((key.drop (32 + 320 * i)).take 320)
  let zs := (List.range 5).map fun i => unpack 20 256 ((sig.drop (48 + 640 * i)).take 640)
  match hints (sig.drop 3248) with
  | none => false
  | some hs =>
    let mu := shake256 (shake256 key 64 ++ [0, 0] ++ msg) 64
    let c := ntt (inBall (sig.take 48))
    let z := zs.map fun x => ntt (x.map coeffZ)
    let row (r : Nat) : Poly :=
      let az := z.mapIdx fun k x => mulP (entryA rho r k) x
      let ct := mulP c (ntt ((t1.getD r []).map (· * 2 ^ 13)))
      let w := unNtt (subP (az.foldl addP (List.replicate 256 0)) ct)
      w.mapIdx fun j x => useHint ((hs.getD r []).contains j) x
    let w1 := (List.range 6).flatMap fun r => packHigh (row r)
    decide (key.length = 1952 ∧ sig.length = 3309) && zs.all (·.all smallZ) && shake256 (mu ++ w1) 48 == sig.take 48

end Sys2Proof.Machine
end

