-- ==== Sys2Proof/Machine/Boot.lean ====
section
/-! DEFINITION. Machine/Boot.lean: power, boot, identity, keys, checkpoints, snapshots, the event log, the host port and the
management port (R352 to R365). Firmware, the host and the carrier act through the input of a step (log 33). -/

namespace Sys2Proof.Machine

namespace State

def boot (s : State) : Boot := s.chip.boot
def setBoot (s : State) (b : Boot) : State := { s with chip := { s.chip with boot := b } }

/-- Every laser is dark (R353): no path carries light. -/
def darken (s : State) : State :=
  { s with chip := { s.chip with grants := s.chip.grants.map fun g =>
      { g with state := .dark, fail := true, next := none } } }

/-- R365: tile 0 firmware serves the ports: the device is alive, and firmware runs. -/
def serves (s : State) : Bool := s.alive && s.boot.firmware

/-- Both contexts of the core stop. -/
def stopCores (s : State) : State :=
  let stop (c : Ctx) : Ctx := { c with run := if c.run = .idle then .idle else .stopped }
  { s with c := stop s.c, sh := stop s.sh }

end State

/-! Power and reset (R353, R354). -/

/-- R353: the carrier asserts PWRGOOD as power returns; the device is in reset, and no memory holds what it held. -/
def execPowerGood (s : State) : Result :=
  let b := s.boot
  let t : State := { s with
    c := {}
    sh := {}
    chip := { s.chip with gmem := [], gkeys := [], gerr := [], soft := [], area := none } }
  .next (if b.power then s else t.setBoot { b with power := true, resetN := false, faultN := true, thermtripN := true })

namespace State

/-- R354: the fixed fibre grant of boot source 0, with the loss that firmware has measured last. -/
def bootGrant (s : State) : Grant := { Grant.boot with rxp := s.rxMin 64 144 0 [0] }

/-- R354: a boot source is tried from now on; source 0 under its grant, and another without it. -/
def trySource (s : State) (n : Nat) : State :=
  let grants := s.chip.grants.filter (·.id ≠ 0x8000) ++ if n = 0 then [s.bootGrant] else []
  let t : State := { s with chip := { s.chip with grants := grants } }
  t.setBoot { s.boot with source := n, since := s.xc }

end State

/-- R354: RESET_N is released: every register holds its reset value, tile 0 is ungated and every other tile gated OFF, and
the boot ROM starts with the source that the straps select (`input.n`, 3 read as 0). Fuses, the fitted memory and what
memory holds stay. -/
def execResetRelease (s : State) : Result :=
  let b := s.boot
  if b.power = true ∧ b.resetN = false ∧ b.faultN = true then
    let off := s.t.num ≠ 0
    let keep (c : Ctx) : Ctx := if off then {} else { mem := c.mem, memErr := c.memErr }
    let t : State := { State.reset with
      c := keep s.c
      sh := keep s.sh
      t := { State.reset.t with num := s.t.num, idx := s.t.idx, slot := s.t.idx, gate := if off then some .off else none }
      chip := { State.reset.chip with
        gmem := s.chip.gmem
        gkeys := s.chip.gkeys
        gerr := s.chip.gerr
        soft := s.chip.soft
        capacity := s.chip.capacity
        saved := s.chip.saved
        area := s.chip.area
        boot := { State.reset.chip.boot with fuses := b.fuses, boots := b.boots + 1 } }
      row := s.row
      input := s.input
      agenda := s.agenda
      out := s.out
      tick := s.tick }
    .next (t.trySource (if s.input.n < 3 then s.input.n else 0))
  else .next s

/-- R353: RESET_N is asserted: the device is in reset until its release. -/
def State.assertReset (s : State) : State := s.stopCores.darken.setBoot { s.boot with resetN := false }
def execResetNAssert (s : State) : Result := .next s.assertReset

/-- R365: RESET is equivalent to RESET_N. -/
def execMgmtReset (s : State) : Result := .next (if s.serves then s.assertReset else s)

/-- R353: a rail leaves its tolerance: every tile stops, every laser is dark, FAULT_N is low until a power cycle. With `input.flag` the
rails fall: the device has no power, and answers on no port, until PWRGOOD. -/
def execRailFault (s : State) : Result :=
  let b := s.boot
  .next (s.stopCores.darken.setBoot (if s.input.flag then { b with power := false } else { b with faultN := false }))

/-- R353: a sensor of this tile, or of another (`input.flag`), reads 120 °C or more. -/
def execThermalTrip (s : State) : Result :=
  .next (if s.input.flag || s.t.temps.any (120 ≤ ·) then s.darken.setBoot { s.boot with thermtripN := false } else s)

/-! Boot (R354 to R356). -/

/-- R355: a signed image by the fields of its header, the 128 bytes that its signature covers, and its payload. -/
structure SignedImage where
  magic : Nat := 0
  kind : Nat := 0
  svn : Nat := 0
  reservedZero : Bool := true
  signed : List Byte := []
  digest : List Byte := []
  pubkey : List Byte := []
  sig : List Byte := []
  payload : List Byte := []
  deriving DecidableEq, Repr, Inhabited

def signedImage (bs : List Byte) : SignedImage :=
  let part (off n : Nat) : List Byte := (bs.drop off).take n
  { magic := recWord bs 0, kind := recWord bs 4, svn := recWord bs 8
    reservedZero := (part 0x18 40 ++ part 0x150D 243).all (· == 0)
    signed := part 0 128, digest := part 0x40 64, pubkey := part 0x80 1952, sig := part 0x820 3309
    payload := part 0x1600 (recWord bs 12) }

namespace State

/-- R354: the source after one that is abandoned; with none left, STATUS reports 2 and the boot ROM keeps a record with the
check that failed (R356). A source abandoned takes the fixed grant with it. -/
def abandon (s : State) (check : Word) : State :=
  let b := s.boot
  let tried := b.tried ++ [b.source]
  let next := (b.source + 1) % 3
  if tried.contains next then
    let r : EventRec := { src := 0x1500, kind := 7, xcyc := s.xcyc, d0 := BitVec.ofNat 32 b.source, d1 := check }
    s.setBoot { b with tried := tried, status := 2, record := b.record ++ [r] }
  else (s.setBoot { b with tried := tried }).trySource next

/-- R355: the first check that an image fails, 0 where it passes them all. -/
def imageCheck (s : State) (g : SignedImage) : Nat :=
  let key := shake256 g.pubkey 64
  if g.magic ≠ 0x56574D49 ∨ 3 < g.kind ∨ g.reservedZero = false then 1
  else if key ≠ Config.vendKey ∧ (g.kind ≠ 3 ∨ key ≠ Config.custKey) then 2
  else if mlDsaVerify g.pubkey g.signed g.sig = false then 3
  else if shake256 g.payload 64 ≠ g.digest then 4
  else if g.svn < s.boot.fuses.getD g.kind 0 then 5
  else 0

/-- R355: an accepted image is measured, and is the running image of its kind. -/
def measure (s : State) (g : SignedImage) : State :=
  let b := s.boot
  s.setBoot { b with log := b.log ++ g.digest, running := b.running.set g.kind g.svn, micro := b.micro || g.kind == 2 }

/-- R356, R318: what first-stage firmware does first: it finds `input.len` GiB, measures the losses of the tiles' lanes (R295), loads
the built-in update units, and sets the link mode from the span's size, `input.chip`. Images of kind 3 fill the other slots after it, then
key slot 0 is loaded and the partitions are set up (State.bootPartition). -/
def firstStage (s : State) : State :=
  let cap := if s.input.len = 768 then 768 else 384
  let s := (s.measureLoss (· < 144)).setBoot { s.boot with firmware := true }
  { s with chip := { s.chip with
      burst := decide (s.input.chip ≤ 64)
      capacity := cap, fnSlots := [0, 1, 2, 3, 4, 5, 6, 7] } }

/-- R355, R356: an image from a source. The boot ROM takes images of kind 0 and abandons the source of a rejected one;
firmware takes the others, those of kind 3 into update slot `input.op` and only while it boots, before it loads key slot 0. -/
def takeImage (s : State) (source : Nat) (g : SignedImage) : State :=
  let check := s.imageCheck g
  let slot3 := if g.kind = 3 then s.input.op else 0
  let fits := if s.boot.firmware then g.kind != 0 && (g.kind != 3 || (s.boot.status == 1 && (s.keyOf 0).isNone && decide (8 ≤ slot3 ∧ slot3 < 16)))
    else g.kind == 0
  if check ≠ 0 then
    if s.boot.firmware then s.logRecord 0x1500 7 (BitVec.ofNat 32 source) (BitVec.ofNat 32 check) 0 0
    else s.abandon (BitVec.ofNat 32 check)
  else if fits = false then s
  else
    let s := s.measure g
    let s := if g.kind = 0 then s.firstStage else s
    let s := if g.kind = 3 then { s with chip := { s.chip with fnSlots := s.chip.fnSlots ++ [slot3] } } else s
    s.logRecord 0x1500 7 (BitVec.ofNat 32 source) 0 (BitVec.ofNat 32 slot3) 0

/-- R354: the xc in which the boot ROM has waited 10 s for the source that it tries. -/
def bootLimit (s : State) : Nat := s.boot.since + 10000000000

/-- R354: the boot ROM waits for an image from a source. -/
def romWaits (s : State) (source : Nat) : Bool :=
  s.alive && s.boot.status == 1 && !s.boot.firmware && s.boot.source == source && decide (s.xc ≤ s.bootLimit)

end State

/-- R354: a source gives no image within 10 s, which pass. No check has failed, so the record's check is open (log 33). -/
def execBootSourceTimeout (s : State) : Result :=
  .next (if s.alive = true ∧ s.boot.status = 1 ∧ s.boot.firmware = false then
    (s.advanceTo s.bootLimit).abandon (Config.openWord s.tick 0)
  else s)

/-- R355: an image arrives: from the source that the boot ROM waits for, or for the firmware that runs. -/
def execBoot (s : State) : Result :=
  .next (if s.romWaits s.boot.source || s.serves then s.takeImage s.boot.source (signedImage s.input.img) else s)

/-- R365: STATUS. A device without power, in reset or with a rail fault does not answer (R353). -/
def execMgmtStatus (s : State) : Result := .next (if s.alive then s.put (.reply s.boot.status []) else s)

/-- R354, R365: BOOTIMG supplies an image to the boot ROM. -/
def execBootimg (s : State) : Result := .next (if s.romWaits 2 then s.takeImage 2 (signedImage s.input.img) else s)

/-! Identity and keys (R357, R358). -/

/-- R357: the report, for the nonce `input.data`; `input.flag` asks for the key-transport report. -/
def execAttest (s : State) : Result :=
  let nonce := (List.range 32).map fun i => s.input.data.getD i 0
  let svn := (List.range 4).flatMap fun i => leBytes 4 (s.boot.running.getD i 0)
  let digest := shake256 (if s.input.flag then Config.mlKemKey s.boot.boots else s.boot.log) 64
  let report := nonce ++ leBytes 16 Config.serial.toNat ++ svn ++ digest
  .next (if s.serves then s.put (.reply 0 (Config.certChain ++ report ++ Config.mlDsaSign report)) else s)

namespace State

/-- R358: firmware invalidates the entries that name a slot before it changes it. -/
def dropKey (s : State) (n : Nat) : State :=
  { s with
    t := { s.t with tlb := s.t.tlb.filter fun e => e.2.key.toNat != n }
    chip := { s.chip with keys := s.chip.keys.filter (·.1 ≠ n) } }

/-- R358: KEYLOAD: a wrapped key, `input.data`, for slot `input.n`, under the transport key that the ML-KEM key of this boot has
agreed; one that does not unwrap is refused, and so is slot 0, which is loaded at boot alone (the status of a refusal: log 33). -/
def keyload (s : State) : State :=
  if s.serves = false ∨ 1024 ≤ s.input.n then s
  else if s.input.n = 0 then s.put (.reply 1 [])
  else match Aes.unwrap (Config.transportKey (Config.mlKemKey s.boot.boots) s.tick) s.input.data with
    | some k =>
      let t := s.dropKey s.input.n
      ({ t with chip := { t.chip with keys := t.chip.keys ++ [(s.input.n, k)] } } : State).put (.reply 0 [])
    | none => s.put (.reply 1 [])

/-- R358: KEYCLEAR: slot `input.n` is emptied. -/
def keyclear (s : State) : State :=
  if s.serves = false ∨ 1024 ≤ s.input.n then s else (s.dropKey s.input.n).put (.reply 0 [])

end State

def execKeyload (s : State) : Result := .next s.keyload
def execKeyclear (s : State) : Result := .next s.keyclear

/-- R365: the fuse counter of kind `input.n` rises to the SVN of its running image. -/
def execSvncommit (s : State) : Result :=
  let b := s.boot
  let n := s.input.n
  .next (if s.serves = true ∧ n < 4 then
    (s.setBoot { b with fuses := b.fuses.set n (max (b.fuses.getD n 0) (b.running.getD n 0)) }).put (.reply 0 [])
  else s)

/-! Snapshots (R360, R361). -/

/-- R361: SNAP triggers a snapshot, or joins one, where MGMT allows it. -/
def execMgmtSnap (s : State) : Result :=
  .next <|
    if s.serves = false then s
    else if s.chip.snapctl.getLsbD 8 = false then s.put (.reply 1 [])
    else ({ s with chip := { s.chip with snapTrig := true } } : State).put (.reply 0 [])

namespace State

/-- R240: the count of corrected errors of a channel controller. -/
def channelCount (s : State) (i : Nat) : Word :=
  BitVec.ofNat 32 (((s.chip.corrected.find? (·.1 = 0x1100 + i)).map (·.2)).getD 0)

/-- R360: the words that a group latches: those of MEM by channel controller, its counts of corrected errors first. Their order, and
those that the model does not hold, are open (log 33). -/
def snapWords (s : State) (group : Nat) : List Word :=
  match group with
  | 0 =>
    [s.c.cyc.extractLsb' 0 32, s.c.cyc.extractLsb' 32 32, s.xcyc, s.c.phase, (s.engineReg 3).extractLsb' 0 32,
      (s.engineReg 3).extractLsb' 32 16 |>.zeroExtend 32, s.c.mxStatus, s.c.headStatus.zeroExtend 32]
  | 2 => (List.finRange 32).flatMap fun p =>
    [s.refreshPorts.linkWord p 0, s.refreshPorts.linkWord p 1, BitVec.ofNat 32 (s.port p).count]
  | 3 => s.chip.grants.flatMap fun g => [g.word, BitVec.ofNat 32 g.crc]
  | 4 => (List.range 48).map s.channelCount ++ (List.range 48).map (Config.snapWord s.tick 4)
  | 5 => s.t.temps.map (BitVec.ofInt 32)
  | n => (List.range 16).map (Config.snapWord s.tick n)

/-- R105, R361: a snap that waits gets the sequence number, in whichever context of this core it waits. -/
def snapAnswer (s : State) : State :=
  let told (c : Ctx) : Ctx := match c.pend with
    | .snap none => { c with pend := .snap (some s.chip.snapseq) }
    | _ => c
  { s with c := told s.c, sh := told s.sh, p := { s.p with paged := s.p.paged.map fun g => { g with ctx := told g.ctx } } }

end State

/-- R361: every enabled group latches, and SEQ advances. -/
def execSnapshotLatch (s : State) : Result :=
  if s.chip.snapTrig then
    let groups := (List.range 6).map fun g =>
      (g, if s.chip.snapctl.getLsbD g then s.snapWords g else ((s.chip.snapRegs.find? (·.1 = g)).map (·.2)).getD [])
    .next ({ s with chip := { s.chip with
      snapTrig := false, snapseq := s.chip.snapseq + 1, snapRegs := groups } } : State).snapAnswer
  else .next s

/-- R361: the latched words of a group, after SEQ. -/
def State.snapReply (s : State) (group : Nat) : State :=
  let ws := ((s.chip.snapRegs.find? (·.1 = group)).map (·.2)).getD []
  s.put (.reply 0 (wordsBytes (s.chip.snapseq :: ws)))

/-- R361: SNAPREAD of group `input.n`. -/
def execSnapread (s : State) : Result := .next (if s.serves then s.snapReply s.input.n else s)

/-! The event log (R362, R363). -/

/-- R362: a record in 32 bytes. -/
def EventRec.bytes (r : EventRec) (drop : Nat) : List Byte :=
  wordsBytes [BitVec.ofNat 32 (r.src % 65536 + r.kind % 256 * 65536 + drop % 256 * 2 ^ 24), r.seq, r.xcyc, r.d0, r.d1, r.d2,
    r.d3, 0]

namespace State

/-- R363: the log has room for a record. -/
def logRoom (s : State) : Bool := decide (0 < s.logFree)

/-- Where record n of the log lies. -/
def logAt (s : State) (n : Nat) : Nat := s.chip.log.base + 32 * n % s.chip.log.size

/-- R363: a record enters the log, which lies in LPDDR 6 under key slot 0 (log 33). It is part of a beat: where that beat holds an
uncorrectable error the write is not performed, and the error is logged (R239). -/
def logEnter (s : State) (r : EventRec) (drop : Nat) : State :=
  let pa := s.logAt s.chip.log.head
  let t := s.gCorrect (pa / 64) 0
  let t := if t.chip.gerr.contains (pa / 64) then t.gLog pa 0 else t.gwrite pa (r.bytes drop) ((s.keyOf 0).getD 0)
  { t with chip := { t.chip with log := { t.chip.log with head := s.chip.log.head + 1 } } }

/-- R363: the oldest record of a source that holds records: its SEQ and DROP are those of its delivery. -/
def deliverHeld (s : State) (r : EventRec) : State :=
  let l := s.chip.log
  let drop := ((l.drops.find? (·.1 = r.src)).map (·.2)).getD 0
  let t : State := { s with chip := { s.chip with log := { l with
      held := l.held.erase r
      drops := l.drops.filter (·.1 ≠ r.src)
      seqs := (r.src, s.seqOf r.src + 1) :: l.seqs.filter (·.1 ≠ r.src) } } }
  t.logEnter { r with seq := s.seqOf r.src } drop

end State

/-- R363: a record enters the log: the oldest of the tile's queue (`input.flag`), or of source `input.n`. -/
def execEventRecordDeliver (s : State) : Result :=
  .next <|
    if s.logRoom = false then s
    else if s.input.flag then
      match s.t.evq with
      | r :: rs => ({ s with t := { s.t with evq := rs } } : State).logEnter r 0
      | [] => s
    else
      match s.chip.log.held.find? (·.src = s.input.n) with
      | some r => s.deliverHeld r
      | none => s

namespace State

/-- R363: the records between tail and head. -/
def logRecords (s : State) : List Nat := (List.range (s.chip.log.head - s.chip.log.tail)).map (s.chip.log.tail + ·)

/-- R239, R240: the beats of those records are read: correctable errors are corrected, the others logged, each once. -/
def logMeet (s : State) : State :=
  let beats := (s.logRecords.map fun n => s.logAt n / 64).eraseDups
  beats.foldl (fun t b => let t := t.gCorrect b 0; if t.chip.gerr.contains b then t.gLog (64 * b) 0 else t) s

/-- The bytes of the log. -/
def logBytes (s : State) : List Byte := s.logRecords.flatMap fun n => s.gread (s.logAt n) 32 ((s.keyOf 0).getD 0)

/-- R363: firmware places the log in the fitted LPDDR 6: a power of two from 64 KiB to 1 GiB. -/
def placeLog (s : State) (base size : Nat) : State :=
  if size = 2 ^ Nat.log2 size ∧ 65536 ≤ size ∧ size ≤ 2 ^ 30 ∧ base % 64 = 0 ∧ base + size ≤ s.fitted then
    { s with chip := { s.chip with log := { s.chip.log with base := base, size := size, head := 0, tail := 0 } } }
  else s

/-- R363: the host advances the tail. -/
def moveTail (s : State) (n : Nat) : State :=
  let l := s.chip.log
  if l.tail ≤ n ∧ n ≤ l.head then { s with chip := { s.chip with log := { l with tail := n } } } else s

end State

/-- R363: the host advances the tail to `input.n` records. -/
def execLogTailWrite (s : State) : Result := .next (s.moveTail s.input.n)

/-- R365: EVREAD reads the records of the log. The manual gives the read of a beat with an uncorrectable error no status here: it is
reported as DATA_ERR, with the bytes as they stand (DESIGN CHOICE, log 33). -/
def execEvread (s : State) : Result :=
  let bad := s.logRecords.any fun n => s.chip.gerr.contains (s.logAt n / 64)
  .next (if s.serves then s.logMeet.put (.reply (if bad then stData else 0) s.logBytes) else s)

/-! The host port (R364). The offset in BAR0 is `input.off`; within the log, key and snapshot regions, whose inner layout the manual does
not give, `input.op` says which register (log 33). -/

namespace State

/-- R364: a write to BAR0. -/
def bar0Write (s : State) : State :=
  let i := s.input
  let l := s.chip.log
  if i.off < 0x0100000 then (if s.romWaits 1 then s.takeImage 1 (signedImage i.img) else s)
  else if i.off < 0x0104000 then
    let r := s.submitTo ((i.off - 0x0100000) / 4096) i.data
    r.1.put (.reply r.2 [])
  else if 0x0110000 ≤ i.off ∧ i.off < 0x0114000 then s.setCounter ((i.off - 0x0110000) / 4) i.value
  else if 0x0120000 ≤ i.off ∧ i.off < 0x0130000 then
    match i.op with
    | 0 => s.placeLog i.addr i.len
    | 3 => s.moveTail i.n
    | 4 => { s with chip := { s.chip with log := { l with cfg := i.value &&& 1 } } }
    | _ => s
  else if 0x0130000 ≤ i.off ∧ i.off < 0x0140000 then (if i.op = 0 then s.keyload else if i.op = 1 then s.keyclear else s)
  else s

/-- R364: a read from BAR0: STATUS, a completion counter, a register of the log (base, size, head, tail, LOGCFG), a group of the snapshot
region. -/
def bar0Read (s : State) : State :=
  let i := s.input
  let l := s.chip.log
  if i.off < 0x0100000 then s.put (.reply 0 (leBytes 4 s.boot.status))
  else if 0x0110000 ≤ i.off ∧ i.off < 0x0114000 then s.put (.reply 0 (leBytes 4 (s.counter ((i.off - 0x0110000) / 4)).toNat))
  else if 0x0120000 ≤ i.off ∧ i.off < 0x0130000 then
    s.put (.reply 0 (leBytes 8 ([l.base, l.size, l.head, l.tail, l.cfg.toNat].getD i.op 0)))
  else if 0x1000000 ≤ i.off ∧ i.off < 0x4000000 then s.snapReply i.n
  else s

end State

/-- R364: a host write to BAR0, or a read from it (`input.flag2`). -/
def execHostRegisterWrite (s : State) : Result := .next (if s.input.flag2 then s.bar0Read else s.bar0Write)

/-! Checkpoints (R359). -/

/-- R359: CHECKPOINT names 1 to 32 ports, `input.nums`, and a storage peer, `input.chip`; one that does not is refused (log 33). Launches
stop at their next pre-emption points. -/
def execCheckpoint (s : State) : Result :=
  let ports := s.input.nums
  .next <|
    if s.serves = false ∨ s.chip.ckpt.isSome = true then s
    else if ports = [] ∨ (decide ports.Nodup) = false ∨ (ports.all (· < 32)) = false then s.put (.reply 1 [])
    else (({ s with chip := { s.chip with ckpt := some (ports, s.input.chip) } } : State).logRecord 0x1500 8 0 0 0 0).put (.reply 0 [])

namespace State

/-- R359, R235: LPDDR 6 as stored: the beats under a key as ciphertext. -/
def storedMem (s : State) : Memory :=
  let cipher (m : Memory) (e : Nat × Nat) : Memory :=
    m.writeBytes (64 * e.1) ((Aes.xts false e.2 e.1 ((s.chip.gmem.readBytes (64 * e.1) 64).map (·.toNat))).map (BitVec.ofNat 8))
  s.chip.gkeys.foldl cipher s.chip.gmem

/-- R204: the small state of this core and of its partition. -/
def smallState (s : State) : SmallState := { c := s.c, sh := s.sh, p := s.p, others := s.others }

/-- R359: the MiB that a checkpoint streams: the fitted LPDDR 6, the two halves of 640 KiB of each of the 2,304 cores, and the event
log; a part of a MiB is not counted (DESIGN CHOICE, log 33). -/
def streamMib (s : State) : Nat := (s.fitted + 2304 * 2 * 0xA0000 + s.logBytes.length) / 2 ^ 20

/-- R239, R240: what streaming meets: errors of LPDDR 6, and those of the halves of the SRAM. -/
def meetStream (s : State) : State :=
  let s := (s.chip.gerr ++ s.chip.soft.filter fun b => !s.chip.gerr.contains b).foldl (gMeet 0) s
  (s.c.memErr ++ s.sh.memErr).foldl (fun t w => t.logError (0x1000 + s.t.num) 0 (8 * w) 0) s

/-- R239: what a restore writes whole is clean. -/
def cleanCtx (c : Ctx) : Ctx := { c with memErr := [], accErr := [] }

/-- R359: the launches of the partition go on, where a swap is due after it. -/
def resumeLaunches (s : State) : State := ({ s with p := { s.p with swapDue := s.p.prepared.isSome } } : State).startCompute

end State

/-- R359: a checkpoint ends, the cores stopped: the small state goes to its area, LPDDR 6, the halves of the SRAM and the event log are
streamed to the peer, or the streaming fails (`input.flag`) after `input.len` MiB of them; the launches resume. -/
def execCheckpointEnd (s : State) : Result :=
  .next <|
    match s.chip.ckpt with
    | none => s
    | some (ports, peer) =>
      if s.p.swapDue = false ∧ s.c.run = .running then s
      else
        let saved : Saved :=
          { small := s.smallState, gmem := s.chip.gmem, gkeys := s.chip.gkeys, log := s.chip.log, code := Config.orderingCode,
            capacity := s.chip.capacity }
        let t : State := { s with chip := { s.chip with ckpt := none, area := some s.smallState } }
        let t : State := if s.input.flag then t else
          ({ t.meetStream with chip := { t.meetStream.chip with saved := some saved } } : State).put
            (.stream ports peer s.storedMem s.smallState s.c.mem s.sh.mem s.logBytes)
        let mib := if s.input.flag then min s.input.len s.streamMib else s.streamMib
        (t.logRecord 0x1500 8 (if s.input.flag then 2 else 1) (BitVec.ofNat 32 mib) 0 0).resumeLaunches

/-- R359: RESTORE of the checkpoint, onto a part of the same ordering code and capacity: LPDDR 6, the halves of the SRAM and the event
log are written whole, so they hold no errors (R239). The launches stay stopped while tenants load
their keys, and resume in a second step (`input.flag`). A slot that holds another key decrypts to unrelated bytes. -/
def execRestore (s : State) : Result :=
  .next <|
    if s.serves = false then s
    else if s.input.flag then
      (if s.chip.resuming then ({ s with chip := { s.chip with resuming := false } } : State).resumeLaunches.put (.reply 0 []) else s)
    else match s.chip.saved with
      | some v =>
        if v.code = Config.orderingCode ∧ v.capacity = s.chip.capacity then
          let l := s.chip.log
          ({ s with
            c := State.cleanCtx v.small.c
            sh := State.cleanCtx v.small.sh
            p := v.small.p
            others := v.small.others
            chip := { s.chip with
              gmem := v.gmem, gkeys := v.gkeys, gerr := [], soft := [], area := some v.small, resuming := true
              log := { l with base := v.log.base, size := v.log.size, head := v.log.head, tail := v.log.tail } } } : State).put
            (.reply 0 [])
        else s.put (.reply 1 [])
      | none => s.put (.reply 1 [])

end Sys2Proof.Machine
end

