-- ==== Sys2Proof/Machine/Coll.lean ====
section
/-! DEFINITION. Machine/Coll.lean: the collective engine (R341 to R343, R349). A step of a collective is performed at once;
`input.n` names the collective (log 29). -/

namespace Sys2Proof.Machine

namespace State

def coll (s : State) (id : Nat) : Option Coll := s.chip.colls.find? (·.id = id)
def setColl (s : State) (k : Coll) : State :=
  { s with chip := { s.chip with colls := s.chip.colls.map fun x => if x.id = k.id then k else x } }
def dropColl (s : State) (id : Nat) : State := { s with chip := { s.chip with colls := s.chip.colls.filter (·.id ≠ id) } }

/-- R341: the ids that are free. -/
def freeColls (s : State) : List Nat := (List.range 16).filter fun i => (s.coll i).isNone

/-- R341: the collective of the four words of a start record, and whether it is malformed. -/
def startRecord (w : Nat → Nat) : Coll × Bool :=
  let k : Coll := { pva := w 0 + bitsOf (w 1) 0 16 * 2 ^ 32, nstep := bitsOf (w 1) 16 16, tag := BitVec.ofNat 16 (w 2) }
  (k, k.pva % 32 != 0 || k.nstep == 0 || bitsOf (w 2) 16 16 != 0 || w 3 != 0)

/-- R349: cstep of a start record, for the core and the context in `k`: the state and what s[d] becomes. Which free id it takes is
open (log 2). -/
def startColl (s : State) (w : Nat → Nat) (k : Coll) : State × Word :=
  let r := startRecord w
  let free := s.freeColls
  let id := free.getD (Config.engineChoice s.tick % free.length) 0
  let new : Coll := { r.1 with id := id, core := k.core, lid := k.lid, asid := k.asid }
  if r.2 then (s, 2)
  else if free = [] then (s, 13)
  else ({ s with chip := { s.chip with colls := s.chip.colls ++ [new] } }, BitVec.ofNat 32 (id * 65536))

/-- R349: cresume of a collective from step k on: the state and what s[d] becomes. -/
def resumeColl (s : State) (id k : Nat) : State × Word :=
  match s.coll id with
  | none => (s, 1)
  | some x =>
    if x.frozen = false then (s, 1)
    else if k = 0xFFFF then (s.dropColl x.id, 0)
    else if x.nstep ≤ k then (s, 2)
    else (s.setColl { x with next := k, frozen := false, void := false }, 0)

/-- R341, R349: cstep of core `input.n` of this chip, its start record in `input.data`, under ASID `input.value`; cresume of another
core, of collective `input.op` at step `input.off`. -/
def startByOther (s : State) : State :=
  (s.startColl s.inputWord { core := some s.input.n, asid := s.input.value.extractLsb' 0 8 }).1
def resumeByOther (s : State) : State :=
  if s.input.op < 16 then (s.resumeColl s.input.op (s.input.off % 65536)).1 else s

end State

/-- R349: cstep. -/
def execCstep (d a : Reg) (s : State) : Result :=
  s.classC <| s.fabAddr (s.reg a) 16 16 <|
    let r := s.startColl (fun i => (s.memWord (offOf (s.reg a) + 4 * i)).toNat) { lid := s.c.lid, asid := s.c.asid }
    r.1.result d r.2

/-- R349: the state record of a collective; 0 where its id is free. -/
def State.collWord (s : State) (id : Nat) : Word :=
  match s.coll id with
  | some k => BitVec.ofNat 32 (k.next % 65536 * 65536 + k.status % 256 * 256 + if k.frozen then 2 else 1)
  | none => 0

def execCstat (d a : Reg) (s : State) : Result :=
  s.operand (decide ((s.reg a).toNat < 16)) <| s.classC <| s.result d (s.collWord (s.reg a).toNat)

/-- R349: cresume. -/
def execCresume (d a b : Reg) (s : State) : Result :=
  s.operand (decide ((s.reg a).toNat < 16)) <| s.privC <|
    let r := s.resumeColl (s.reg a).toNat ((s.reg b).extractLsb' 0 16).toNat
    r.1.result d r.2

/-! Memory as a collective sees it (R341, R232, R233). -/

/-- The beats of a run of bytes translated: a notice to wait for, a stop, their places, or a wait for another tile. -/
inductive Run where
  | waits
  | notice (k : NoticeKind) (va : Nat)
  | stop (status : Nat)
  | go (rs : List Region)
  deriving DecidableEq, Repr

/-- The bytes of a run of beats, and for each beat whether it met an error. -/
structure RunBytes where
  s : State
  bytes : List Byte := []
  bad : List Bool := []
  deriving DecidableEq, Repr

namespace State

/-- The beats that hold len bytes from a virtual address on. -/
def runBeats (va len : Nat) : List Nat := (List.range ((va + len + 63) / 64 - va / 64)).map fun i => 64 * (va / 64 + i)

/-- R341: a beat of a collective translated through the TLB of the tile of the core that started it. That of another tile stands in the
input: `input.pairs` are its pages of 64 KiB by number, `input.op` their key slot; until they are there the step waits (log 29). -/
def collXlate (s : State) (k : Coll) (va : Nat) (write : Bool) : Option Xlate :=
  if k.core.all fun p => p / 16 == s.t.num then some (s.xlate k.asid va write false false)
  else (s.input.pairs.find? (·.1 = va / 65536)).map fun p => s.regionOf (p.2 * 65536 + va % 65536) s.input.op false false

/-- A collective reaches LPDDR 6 and host memory; any other address gives PROT (log 29). -/
def runOf (s : State) (k : Coll) (write : Bool) : List Nat → Run
  | [] => .go []
  | va :: vas =>
    match s.collXlate k va write with
    | none => .waits
    | some (.notice n) => .notice n va
    | some (.stop st) => .stop st
    | some (.go (.aperture ..)) | some (.go (.core ..)) => .stop stProt
    | some (.go r) =>
      match runOf s k write vas with
      | .go rs => .go (r :: rs)
      | x => x

/-- Beat n and those after it are read. -/
def readRun (s : State) (tag : Word) (n : Nat) : List Region → RunBytes
  | [] => { s := s }
  | r :: rs =>
    let m := s.gRead r n tag
    let x := readRun m.1 tag (n + 1) rs
    { s := x.s, bytes := m.2.getD (List.replicate 64 0) ++ x.bytes, bad := m.2.isNone :: x.bad }

/-- The host has answered for beats n and later. -/
def runAnswered (s : State) (n : Nat) (rs : List Region) : Bool := rs.zipIdx.all fun r => s.answered r.1 (n + r.2)

/-- The beats without error are written. -/
def writeRun (s : State) (bytes : List Byte) (bad : List Bool) (rs : List Region) : State :=
  rs.zipIdx.foldl (fun t r => if bad.getD r.2 false then t else t.gWrite r.1 ((bytes.drop (64 * r.2)).take 64)) s

/-- A collective that may begin a step (R342, R343). -/
def collReady (s : State) (id : Nat) : Option Coll :=
  match s.coll id with
  | some k => if k.frozen || k.busy || k.void || k.notice.isSome || decide (k.nstep ≤ k.next) then none else some k
  | none => none

end State

/-- R342: a step, by its eight words. -/
structure CollStep where
  op : Nat
  type : Nat
  peer : Nat
  win : Nat
  sel : Bool
  a : Nat
  b : Nat
  len : Nat
  off : Nat
  deriving DecidableEq, Repr

def collStepOf (bs : List Byte) : CollStep :=
  let w (i : Nat) : Nat := leNat ((bs.drop (4 * i)).take 4)
  { op := bitsOf (w 0) 0 4, type := bitsOf (w 0) 4 4, peer := bitsOf (w 0) 16 16, win := bitsOf (w 1) 0 12,
    sel := bitsOf (w 1) 16 1 == 1, a := w 2 + bitsOf (w 3) 0 16 * 2 ^ 32, b := w 4 + bitsOf (w 5) 0 16 * 2 ^ 32,
    len := w 6, off := w 7 }

namespace State

/-- A run that is not ready: its notice goes out and the step waits for it, or the step finishes with its status. -/
def runFails (s : State) (k : Coll) (write : Bool) : Run → State
  | .notice n va =>
    let m := s.notify n k.asid va write ((k.core.map (· % 16)).getD s.t.idx.val)
    if m.2.1 = .notice then m.1.setColl { k with notice := some m.2.2 } else m.1
  | .stop st => s.collFinish k.id st
  | .waits | .go _ => s

/-- R341, R342: the next step of a collective is fetched; an operation that is not defined fails with PROT; a step of the
operation asked for goes on in `f`. The host's answer for the step is beat 0. -/
def collStep (s : State) (op : Nat) (f : State → Coll → CollStep → State) : Result :=
  match s.collReady s.input.n with
  | none => .next s
  | some k =>
    let va := k.pva + 32 * k.next
    match s.runOf k false (runBeats va 32) with
    | .go rs =>
      if s.runAnswered 0 rs = false then .next s
      else
        let m := s.readRun (k.tag.zeroExtend 32) 0 rs
        if m.bad.contains true then .next (m.s.collFinish k.id stData)
        else
          let x := collStepOf (m.bytes.drop (va % 64))
          .next (if 3 < x.op then m.s.collFinish k.id stProt else if x.op = op then f m.s k x else s)
    | r => .next (s.runFails k false r)

end State

/-- R342: PUT is a put under R330 to R332; it finishes when it is acknowledged. -/
def execCollectivePut (s : State) : Result :=
  s.collStep 0 fun s k x =>
    match s.runOf k false (State.runBeats x.a x.len) with
    | .go rs =>
      if s.runAnswered 1 rs = false ∨ s.heldHere x.peer x.win = true ∨ 4096 ≤ s.chip.ops.length then s
      else
        let m := s.readRun (k.tag.zeroExtend 32) 1 rs
        let unit (i : Nat) : Nat := (x.a % 64 + 16 * i) / 64
        let bad := (List.range (x.len / 16)).filter fun i => m.bad.getD (unit i) false
        ((m.s.setColl { k with busy := true }).newOp
          { kind := .coll k.id, core := k.core, lid := k.lid, peer := x.peer, win := x.win, off := x.off, len := x.len, tag := k.tag,
            data := (m.bytes.drop (x.a % 64)).take x.len, bad := bad }).settle
    | r => s.runFails k false r

/-- R342: WAIT finishes when (counter - VAL), read as INT32, is 0 or more. -/
def execCollectiveWait (s : State) : Result :=
  s.collStep 1 fun s k x =>
    if (0 : Word).sle (s.windowWord x.win (if x.sel then 1 else 0) - BitVec.ofNat 32 x.len) then s.collFinish k.id 0 else s

/-- R342: the sums of REDUCE: element e of B takes A's. An element in a beat that met an error stays as it is. -/
def reduceRun (t : ElemType) (a b : List Byte) (ok : Nat → Bool) : List Byte :=
  (List.range (b.length / (t.width / 8))).flatMap fun e =>
    let y := State.elemBits b t.width e
    leBytes (t.width / 8) (if ok e then (laneAdd t false false y (State.elemBits a t.width e)).1 else y)

/-- R342: the types of REDUCE. -/
def reduceType (n : Nat) : Option ElemType :=
  match n with
  | 0 => some .f32
  | 1 => some .bf16
  | 2 => some .i32
  | _ => none

def execCollectiveReduce (s : State) : Result :=
  s.collStep 2 fun s k x =>
    match reduceType x.type with
    | none => s.collFinish k.id stProt
    | some t =>
      match s.runOf k false (State.runBeats x.a x.len), s.runOf k true (State.runBeats x.b x.len) with
      | .go ra, .go rb =>
        if s.runAnswered 1 ra = false ∨ s.runAnswered (1 + ra.length) rb = false then s
        else
          let tag : Word := k.tag.zeroExtend 32
          let ma := s.readRun tag 1 ra
          let mb := ma.s.readRun tag (1 + ra.length) rb
          let size := t.width / 8
          let clean (bad : List Bool) (va e : Nat) : Bool :=
            !(bad.getD ((va % 64 + size * e) / 64) false || bad.getD ((va % 64 + size * e + size - 1) / 64) false)
          let old := (mb.bytes.drop (x.b % 64)).take x.len
          let new := reduceRun t ((ma.bytes.drop (x.a % 64)).take x.len) old fun e =>
            clean ma.bad x.a e && clean mb.bad x.b e
          let bytes := mb.bytes.take (x.b % 64) ++ new ++ mb.bytes.drop (x.b % 64 + new.length)
          (mb.s.writeRun bytes mb.bad rb).collFinish k.id (if (ma.bad ++ mb.bad).contains true then stData else 0)
      | .go _, r => s.runFails k true r
      | r, _ => s.runFails k false r

/-- R342: END posts its message and frees the id. -/
def execCollectiveEnd (s : State) : Result :=
  s.collStep 3 fun s k _ => (s.dropColl k.id).collMessage k (State.message 4 0 k.tag.toNat k.next)

/-- R343: an outside event freezes a collective at its next step boundary. -/
def execCollectiveFreeze (s : State) : Result :=
  match s.coll s.input.n with
  | some k =>
    .next (if k.void && !k.busy && !k.frozen then
      (s.setColl { k with frozen := true }).collMessage k (State.message 4 stVoided k.tag.toNat k.next)
    else s)
  | none => .next s

end Sys2Proof.Machine
end

