-- ==== Sys2Proof/Machine/Control.lean ====
section
/-! DEFINITION. Machine/Control.lean: branches, jumps and the hardware loop (R94 to R99), chains that are no instruction
(R73) and fetches that fail (R62). -/

namespace Sys2Proof.Machine

namespace State

/-- R95: control goes to t, after `link`; an odd target traps with ALIGN and nothing changes. A follower does nothing
(R34). -/
def transfer (s : State) (t : Word) (link : State → State) : Result :=
  if s.follower then s.fin
  else if t.getLsbD 0 then s.trap .align 0 t
  else .next ((link s).jumpTo t)

/-- R94: the target of an offset in words from the base word. -/
def target (s : State) (off : Word) : Word := s.basePc + off * 2

/-- R94: a branch. -/
def branch (s : State) (taken : Bool) (off : BitVec 26) : Result :=
  if taken then s.transfer (s.target (immWord off)) id else s.fin

/-- R96, R97: s31 becomes the address of the word after the base word. -/
def link (s : State) : State := s.setReg 31 (s.basePc + 2)

end State

def execBz (a : Reg) (off : BitVec 26) (s : State) : Result := s.branch (s.reg a == 0) off
def execBnz (a : Reg) (off : BitVec 26) (s : State) : Result := s.branch (s.reg a != 0) off
def execBltz (a : Reg) (off : BitVec 26) (s : State) : Result := s.branch ((s.reg a).slt 0) off
def execBgez (a : Reg) (off : BitVec 26) (s : State) : Result := s.branch (!(s.reg a).slt 0) off
def execBgtz (a : Reg) (off : BitVec 26) (s : State) : Result := s.branch ((0 : Word).slt (s.reg a)) off
def execBlez (a : Reg) (off : BitVec 26) (s : State) : Result := s.branch (!(0 : Word).slt (s.reg a)) off

def execJ (off : BitVec 31) (s : State) : Result := s.transfer (s.target (off.signExtend 32)) id
def execJal (off : BitVec 31) (s : State) : Result := s.transfer (s.target (off.signExtend 32)) State.link
def execJr (a : Reg) (s : State) : Result := s.transfer (s.reg a) id
def execJalr (a : Reg) (s : State) : Result := s.transfer (s.reg a) State.link

/-- R98, R99: loop. -/
def execLoop (a : Reg) (e : BitVec 26) (s : State) : Result :=
  let stop := s.target (e.zeroExtend 32)
  if s.follower then s.fin
  else if s.loop.act then s.trap .illegal 1
  else if e.toNat < 2 then s.trap .illegal
  else if s.reg a = 0 then .next (s.setPc stop)
  else .next ((s.setLoop { act := true, start := s.basePc + 2, stop := stop, reg := a }).setPc s.seqPc)

/-- R66, R73: a fetched chain that is no instruction traps, and no state changes. -/
def execIllegalEncoding (cause : Cause) (s : State) : Result := s.trap cause

/-- R62, R95: a fetch that fails. `addr` is the address of the faulting word; an uncorrectable error is logged (R239).
In an exchange phase the trap is deferred and the core issues nothing further (R62, R156). -/
def execFetchFault (cause : Cause) (addr : Word) (s : State) : Result :=
  let s := if cause = .eccUncorr then s.logError (0x1000 + s.t.num) 0 (offOf addr) 0 else s
  let word := causeWord cause 0 s.ir.len
  if s.inExchange then
    let s := s.deferTrap ⟨cause, 0, addr⟩ s.offset { cause := word, eaddr := addr, eword := s.ir.eword, epc := some s.c.pc }
    .next { s with c := { s.c with fetchStop := true } }
  else .next (s.enter word s.c.pc addr s.ir.eword)

end Sys2Proof.Machine
end

