-- ==== Sys2Proof/Machine/Handles.lean ====
section
/-! DEFINITION. Machine/Handles.lean: page 1 MAJ 0x0, the circular buffers of the matrix slice (R110 to R114). -/

namespace Sys2Proof.Machine

/-- R111: hset. -/
def execHset (d : HReg) (a : Reg) (s : State) : Result :=
  let x := s.reg a
  s.classC <| s.check (State.addrTrap x 16 16 0) <|
    if s.memBad (offOf x) 16 then s.eccTrap x 0 16
    else if s.handleBusy d then s.wait
    else if (s.descriptor (offOf x)).ok = false then s.raise (handleTrap d 1)
    else (s.setHandle d (s.descriptor (offOf x))).fin

/-- R112: what hget reads by its selector. -/
def Handle.select (h : Handle) (sel : Fin 8) : Word :=
  match sel with
  | 0 => h.base
  | 1 => h.size
  | 2 => h.count
  | 3 => h.tail ++ h.head
  | 4 => BitVec.ofNat 32 h.filled
  | 5 => h.count - BitVec.ofNat 32 h.filled
  | 6 => h.slot h.head.toNat
  | 7 => h.slot h.tail.toNat

def execHget (d : Reg) (a : HReg) (sel : Fin 8) (s : State) : Result :=
  s.classC <| s.result d ((s.handle a).select sel)

namespace State

/-- R113: a wait for n slots; `present` of them are there, and `able` says that something outstanding can bring more. -/
def handleWait (s : State) (d : HReg) (n present : Nat) (able : Bool) : Result :=
  s.check (s.useHandle d) <|
    if (s.handle d).count.toNat < n then s.raise (handleTrap d 3)
    else if n ≤ present then s.fin
    else if able then s.wait
    else s.raise (handleTrap d 4)

/-- R32, R113: an advance by n of at most `present`. -/
def handleAdvance (s : State) (d : HReg) (n present : Nat) (t : State) : Result :=
  s.check (s.useHandle d) <| if present < n then s.raise (handleTrap d 2) else t.fin

end State

def execHwaitf (d : HReg) (a : Reg) (s : State) : Result :=
  s.classC <| s.handleWait d (s.reg a).toNat (s.handle d).filled (s.canFill d)

def execHwaite (d : HReg) (a : Reg) (s : State) : Result :=
  s.classC <| s.handleWait d (s.reg a).toNat (s.handle d).free (s.canPop d)

def execHadvc (d : HReg) (a : Reg) (s : State) : Result :=
  s.classC <| s.handleAdvance d (s.reg a).toNat (s.handle d).filled (s.advHead d (s.reg a).toNat)

def execHadvp (d : HReg) (a : Reg) (s : State) : Result :=
  s.classC <| s.handleAdvance d (s.reg a).toNat (s.handle d).free (s.advTail d (s.reg a).toNat)

/-- R111: hreset keeps base, size and count. -/
def execHreset (d : HReg) (s : State) : Result :=
  s.classC <|
    if s.handleBusy d then s.wait
    else (s.setHandle d { s.handle d with head := 0, tail := 0 }).fin

end Sys2Proof.Machine
end

