-- ==== Sys2Proof/Machine/Head.lean ====
section
/-! DEFINITION. Machine/Head.lean: the head unit, page 6 (R261 to R288). An operation acts on the banks when it completes. -/

namespace Sys2Proof.Machine

/-! Candidates (R269). -/

/-- A candidate: its logit as FP32 bits, its vocabulary index. -/
abbrev Pair := Nat × Nat

/-- R269: p comes before q. -/
def Pair.before (p q : Pair) : Bool :=
  ltVal (fp32.decode q.1) (fp32.decode p.1) || (eqVal (fp32.decode p.1) (fp32.decode q.1) && decide (p.2 < q.2))

/-- A pair added in key order: behind those with its key. -/
def Pair.insert (p : Pair) : List Pair → List Pair
  | [] => [p]
  | q :: qs => if p.before q then p :: q :: qs else q :: Pair.insert p qs

/-- R269: neither a NaN nor -Inf enters a heap. -/
def Pair.enters (p : Pair) : Bool := !isNan32 p.1 && p.1 != ninf32

/-- R271: the threshold, and the pairs that reach it. -/
def threshold (m delta : Nat) : Nat := if delta = inf32 then ninf32 else sub32 m delta
def Pair.reaches (thr : Nat) (p : Pair) : Bool :=
  ltVal (fp32.decode thr) (fp32.decode p.1) || eqVal (fp32.decode p.1) (fp32.decode thr)

/-! Status bits (R278). -/

def hdNAN : Nat := 1
def hdDUP : Nat := 2
def hdMISMATCH : Nat := 4
def hdINF : Nat := 8
def hdBAD : Nat := 16
def hdECC : Nat := 32

/-! States in the banks (R263). -/

/-- A token block: M, S, LAB as FP32 bits, LID, TST and the heap. -/
structure Token where
  m : Nat := ninf32
  s : Nat := 0
  lab : Nat := ninf32
  lid : Nat := 0xFFFFFFFF
  tst : Nat := 0
  heap : List Pair := []
  deriving DecidableEq, Repr

namespace DirEntry

/-- R263: B, the number of banks, where token block t begins, and whether the mode is threshold. -/
def blockOf (cap : Nat) : Nat := 64 * ((32 + 8 * cap + 63) / 64)
def banksOf (t cap : Nat) : Nat := (64 + t * blockOf cap + 2047) / 2048
def block (e : DirEntry) : Nat := blockOf e.cap
def tokenAt (e : DirEntry) (t : Nat) : Nat := 0x800 * e.bank + 64 + t * e.block
def thresh (e : DirEntry) : Bool := e.mode == 1

end DirEntry

/-- Pairs as bytes. -/
def pairBytes (ps : List Pair) : List Byte := ps.flatMap fun p => leBytes 4 p.1 ++ leBytes 4 p.2

/-- Bytes with zeros behind them up to a length. -/
def padTo (n : Nat) (bs : List Byte) : List Byte := bs ++ List.replicate (n - bs.length) 0

/-- Words as bytes. -/
def natBytes (ws : List Nat) : List Byte := ws.flatMap (leBytes 4)

/-- Word i of bytes. -/
def wordAt (bs : List Byte) (i : Nat) : Nat := leNat ((bs.drop (4 * i)).take 4)

/-- The pairs from byte 32 of a block on. -/
def blockPairs (bs : List Byte) (n : Nat) : List Pair :=
  (List.range n).map fun i => (wordAt bs (8 + 2 * i), wordAt bs (9 + 2 * i))

/-- R263: a token block in B bytes; pairs at CNT and beyond are 0. -/
def Token.bytes (k : Token) (b : Nat) : List Byte :=
  padTo b (natBytes [k.m, k.s, k.lab, k.lid, k.heap.length, k.tst % 256, 0, 0] ++ pairBytes k.heap)

namespace State

/-- The head unit writes to the banks: whole code words are replaced with their check codes (R239). -/
def headAcc (s : State) (off : Nat) (bs : List Byte) : State :=
  let u := s.storeAcc off bs
  { u with c := { u.c with accErr := u.c.accErr.filter fun w => !decide (off ≤ 8 * w ∧ 8 * w + 8 ≤ off + bs.length) } }

/-- Token t of a state, and whether its block holds an uncorrectable error. -/
def token (s : State) (e : DirEntry) (t : Nat) : Token :=
  let bs := s.c.acc.readBytes (e.tokenAt t) e.block
  { m := wordAt bs 0, s := wordAt bs 1, lab := wordAt bs 2, lid := wordAt bs 3, tst := wordAt bs 5 % 256,
    heap := blockPairs bs (min (wordAt bs 4) e.cap) }
def tokenBad (s : State) (e : DirEntry) (t : Nat) : Bool := s.accBad (e.tokenAt t) e.block
def setToken (s : State) (e : DirEntry) (t : Nat) (k : Token) : State := s.headAcc (e.tokenAt t) (k.bytes e.block)

/-- R278: the log of errors in local memory or in the banks. -/
def logLocal (s : State) (off n : Nat) : State := s.logWords 0 off n 0
def logAcc (s : State) (off n : Nat) : State := s.logWords 1 off n 0

/-- R278: status bits ORed into the TST of a token in place, its other bytes untouched. -/
def noteToken (s : State) (e : DirEntry) (t st : Nat) : State :=
  let off := e.tokenAt t + 20
  s.storeAcc off [BitVec.ofNat 8 (leNat (s.c.acc.readBytes off 1) ||| st)]

/-- Every token of a state changed by `f`, with the statuses it raises. A token whose own block holds an uncorrectable
error keeps its bytes but for ECC in its TST (R278, log 30). -/
def eachToken (s : State) (e : DirEntry) (f : Nat → Token → Token × Nat) : State × Nat :=
  (List.range e.t).foldl (fun m t =>
    if m.1.tokenBad e t then ((m.1.logAcc (e.tokenAt t) e.block).noteToken e t hdECC, m.2 ||| hdECC)
    else
      let r := f t (m.1.token e t)
      (m.1.setToken e t { r.1 with tst := r.1.tst ||| r.2 }, m.2 ||| r.2)) (s, 0)

end State

/-! Folding (R270, R271). -/

/-- R270: one logit at a vocabulary index; `cap` bounds the heap in top-K mode and is none in threshold mode. -/
def foldOne (cap : Option Nat) (r : Token × Nat) (x v : Nat) : Token × Nat :=
  let k := r.1
  let val := fp32.decode x
  let k :=
    if x = ninf32 ∨ val = .nan then k
    else
      let mn := if ltVal (fp32.decode k.m) val then x else k.m
      let e1 := if eqVal (fp32.decode k.m) (fp32.decode mn) then one32 else expK (sub32 k.m mn)
      let e2 := if eqVal val (fp32.decode mn) then one32 else expK (sub32 x mn)
      { k with
        s := add32 (mul32 k.s e1) e2
        m := mn
        heap := match cap with
          | some n => (Pair.insert (x, v) k.heap).take n
          | none => k.heap }
  let st := match val with
    | .nan => hdNAN
    | .inf _ => hdINF
    | .fin .. => 0
  (if v = k.lid then { k with lab := if val = .nan then nan32 else x } else k, r.2 ||| st)

/-- R271: the heap of threshold mode: the old pairs and those to come that reach the threshold. -/
def thresholdHeap (m delta : Nat) (old more : List Pair) : List Pair :=
  let thr := threshold m delta
  (more.filter fun p => p.enters && p.reaches thr).foldl (fun h p => p.insert h) (old.filter (Pair.reaches thr))

/-- R270, R271: a row folded into a token; in threshold mode the heap may be longer than the capacity. -/
def foldRow (e : DirEntry) (xs : List Nat) (v0 : Nat) (k : Token) : Token × Nat :=
  let ps : List Pair := xs.mapIdx fun j x => (x, v0 + j)
  let r := ps.foldl (fun r p => foldOne (if e.thresh then none else some e.cap) r p.1 p.2) (k, 0)
  if e.thresh then ({ r.1 with heap := thresholdHeap r.1.m e.delta.toNat k.heap ps }, r.2) else r

/-- The heap within the capacity: only bytes that changed between the check and the fold could exceed it (R267). -/
def capped (e : DirEntry) (r : Token × Nat) : Token × Nat := ({ r.1 with heap := r.1.heap.take e.cap }, r.2)

/-! Merging (R273). -/

/-- R273: a token block of a peer's record merged into a token, and the status of the events this merge met; the
status bits that the record carries go into the token's TST alone. -/
def mergeToken (e : DirEntry) (bs : List Byte) (k : Token) : Token × Nat :=
  let rm := wordAt bs 0
  let rs := wordAt bs 1
  let rlab := wordAt bs 3
  let count := wordAt bs 6
  if e.cap < count then (k, hdBAD)
  else
    let nan := isNan32 k.m || isNan32 k.s || isNan32 rm || isNan32 rs
    let mn := if ltVal (fp32.decode k.m) (fp32.decode rm) then rm else k.m
    let ea := if eqVal (fp32.decode k.m) (fp32.decode mn) then one32 else expK (sub32 k.m mn)
    let eb := if eqVal (fp32.decode rm) (fp32.decode mn) then one32 else expK (sub32 rm mn)
    let m := if nan then nan32 else mn
    let s := if nan then nan32 else add32 (mul32 k.s ea) (mul32 rs eb)
    let theirs := blockPairs bs count
    let ours := k.heap.filter fun p => !isNan32 p.1
    let heap :=
      if e.thresh then thresholdHeap m e.delta.toNat ours theirs
      else ((theirs.filter Pair.enters).foldl (fun h p => p.insert h) ours).take e.cap
    let st := (if nan || (k.heap ++ theirs).any (fun p => isNan32 p.1) then hdNAN else 0) |||
      (if rlab ≠ ninf32 ∧ k.lab ≠ ninf32 then hdDUP else 0) |||
      (if wordAt bs 5 ≠ k.lid then hdMISMATCH else 0)
    ({ k with
      m := m
      s := s
      lab := if rlab ≠ ninf32 ∧ k.lab = ninf32 then rlab else k.lab
      tst := k.tst ||| wordAt bs 7 % 64
      heap := heap }, st)

/-- R276: a token as a record holds it. -/
def Token.record (k : Token) (b : Nat) : List Byte :=
  let lse := add32 k.m (lnK k.s)
  padTo b (natBytes [k.m, k.s, lse, k.lab, sub32 lse k.lab, k.lid, k.heap.length, k.tst] ++ pairBytes k.heap)

/-! Operations at completion. -/

namespace State

/-- R281: a state is created. -/
def headInit (s : State) (e : DirEntry) : State × Nat :=
  let t := s.headAcc (0x800 * e.bank) (padTo 64 (natBytes [e.t, e.mode, e.cap, e.delta.toNat]))
  ((List.range e.t).foldl (fun u i => u.setToken e i {}) t, 0)

/-- R282: labels read from local memory: each token's LAB and LID are written, one code word of its block, whatever the
rest of the block holds; an error in the list sets ECC in the TST of every token and changes nothing else. -/
def headLabel (s : State) (e : DirEntry) (off : Nat) : State × Nat :=
  if s.memBad off (4 * e.t) then
    ((List.range e.t).foldl (fun u t => u.noteToken e t hdECC) (s.logLocal off (4 * e.t)), hdECC)
  else
    ((List.range e.t).foldl (fun u t =>
      u.headAcc (e.tokenAt t + 8) (natBytes [ninf32, (s.memWord (off + 4 * t)).toNat])) s, 0)

/-- Row t of an FP32 tile. -/
def tileRow (s : State) (a t : Nat) : List Nat :=
  let bs := s.c.acc.readBytes (0x800 * a + 128 * t) 128
  (List.range 32).map (wordAt bs)

/-- R270, R271, R278: a tile folded; one with an uncorrectable error folds nothing and sets ECC (log 30). -/
def headFold (s : State) (e : DirEntry) (a v0 : Nat) : State × Nat :=
  if s.accBad (0x800 * a) 4096 then
    let r := (s.logAcc (0x800 * a) 4096).eachToken e fun _ k => (k, hdECC)
    (r.1, r.2 ||| hdECC)
  else s.eachToken e fun t k => capped e (foldRow e (s.tileRow a t) v0 k)

/-- R273: a record merged. -/
def headMerge (s : State) (e : DirEntry) (off : Nat) : State × Nat :=
  let bad (t : Nat) : Bool := s.memBad (off + t * e.block) e.block
  let u := if s.memBad off (e.t * e.block) then s.logLocal off (e.t * e.block) else s
  u.eachToken e fun t k =>
    if bad t then (k, hdECC) else capped e (mergeToken e (s.c.mem.readBytes (off + t * e.block) e.block) k)

/-- R276: the block of a token in a record. One read with an uncorrectable error has m, s, lse and loss replaced by NaN,
count 0 and ECC set; its label logit, label id and other status bits stand as the block holds them. -/
def recordBlock (s : State) (e : DirEntry) (t : Nat) : List Byte :=
  let k := s.token e t
  if s.tokenBad e t then
    padTo e.block (natBytes [nan32, nan32, nan32, k.lab, nan32, k.lid, 0, k.tst ||| hdECC])
  else k.record e.block

/-- R276, R285: a record written. -/
def headRead (s : State) (e : DirEntry) (off : Nat) : State × Nat :=
  let bad := (List.range e.t).filter (s.tokenBad e)
  let u := s.engineMem off ((List.range e.t).flatMap (s.recordBlock e))
  (bad.foldl (fun v t => v.logAcc (e.tokenAt t) e.block) u, if bad = [] then 0 else hdECC)

end State

/-- R277: one element of the gradient: FP32 logit, lse of its token, whether its index is the label. -/
def regenElem (x lse : Nat) (label : Bool) : Nat × Nat :=
  let e := if eqVal (fp32.decode x) (fp32.decode lse) then one32 else expK (sub32 x lse)
  let g := if label then sub32 e one32 else e
  let st := (if isNan32 x || isNan32 lse then hdNAN else 0) |||
    (match fp32.decode x with | .inf _ => hdINF | _ => 0)
  ((bf16.encode false (fp32.decode g)).1, st)

namespace State

/-- R277: the gradient tile. An error in a tile or in the parameter block leaves tile d as it is (log 30). -/
def headRegen (s : State) (d a off : Nat) : State × Nat :=
  let ps := s.c.mem.readBytes off 264
  let base := wordAt ps 0
  let n := wordAt ps 1
  if s.memBad off 264 then (s.logLocal off 264, hdECC)
  else if s.accBad (0x800 * a) 4096 then (s.logAcc (0x800 * a) 4096, hdECC)
  else if s.accBad (0x800 * d) 2048 then (s.logAcc (0x800 * d) 2048, hdECC)
  else if n < 1 ∨ 32 < n then (s.headAcc (0x800 * d) (List.replicate 2048 0), hdBAD)
  else
    let rs := (List.range 32).flatMap fun i =>
      (s.tileRow a i).mapIdx fun j x =>
        if n ≤ i then (0, 0) else regenElem x (wordAt ps (2 + 2 * i)) ((base + j) % 2 ^ 32 == wordAt ps (3 + 2 * i))
    (s.headAcc (0x800 * d) (rs.flatMap fun r => leBytes 2 r.1), rs.foldl (fun w r => w ||| r.2) 0)

/-- The effect of a queued operation, and its status. -/
def headEffect (s : State) (q : HeadOp) : State × Nat :=
  match q.op with
  | .vpinit .. => s.headInit q.ent
  | .vplabel .. => s.headLabel q.ent (offOf q.x)
  | .vpfold _ a _ => s.headFold q.ent a.val q.x.toNat
  | .vpmerge .. => s.headMerge q.ent (offOf q.x)
  | .vpread .. => s.headRead q.ent (offOf q.x)
  | .vpregen d a _ => s.headRegen d.val a.val (offOf q.x)
  | _ => (s, 0)

/-- R262, R278: a status goes into the head status word and into STICKY. -/
def headNote (s : State) (st : Nat) : State :=
  { s with c := { s.c with
      headStatus := s.c.headStatus ||| BitVec.ofNat 8 st
      vpst := s.c.vpst ||| BitVec.ofNat 32 (st % 256 * 256) } }

/-- R166, R167: an operation that writes local memory arrives at the barriers whose SRC is 2. -/
def headArrive (s : State) (st : Nat) : State := s.engineArrive 2 (BitVec.ofNat 32 (st % 256 * 65536))

end State

/-- R265: the oldest queued operation completes. -/
def execHeadOpComplete (s : State) : Result :=
  match s.c.head with
  | [] => .next s
  | q :: qs =>
    let r := ({ s with c := { s.c with head := qs } } : State).headEffect q
    let t := r.1.headNote r.2
    .next (match q.op with
      | .vpread .. => t.headArrive r.2
      | _ => t)

/-! Issue. -/

namespace State

/-- R264: the state that begins at a bank. -/
def stateAt (s : State) (b : Nat) : Option DirEntry := s.c.dir.find? (·.bank = b)

/-- R280: a tile of n banks overlaps a state. -/
def overlapsState (s : State) (b n : Nat) : Bool :=
  s.c.dir.any fun e => decide (e.bank < b + n ∧ b < e.bank + e.nb)

/-- R280: DETAIL 16 unless a state begins at the bank. -/
def withState (s : State) (b : Nat) (k : DirEntry → Result) : Result :=
  match s.stateAt b with
  | some e => k e
  | none => s.trap .illegal 16

/-- R265, R266: an operation enters the queue once the matrix slice has left its banks and the queue has room. -/
def headQueue (s : State) (q : HeadOp) : Result :=
  if s.mxBusy q.banks || decide (4 ≤ s.c.head.length) then s.wait
  else ({ s with c := { s.c with head := s.c.head ++ [q] } } : State).fin

/-- R265, R271: the capacity check of threshold mode, once every queued operation on the state and on the tile has
completed; `spills` says that a token's count would exceed CAP. -/
def spillCheck (s : State) (q : HeadOp) (spills : Bool) (k : Result) : Result :=
  if q.ent.thresh = false then k
  else if s.mxBusy q.banks || s.headBusy q.banks then s.wait
  else if spills then
    let x := (s.c.vpst &&& 0xFFFFFF60) ||| 0x80 ||| BitVec.ofNat 32 q.ent.bank
    ({ s with c := { s.c with vpst := x } } : State).trap .heapSpill
  else k

/-- R271: a fold would overflow the heap of some token. -/
def foldOver (s : State) (e : DirEntry) (a v0 : Nat) : Bool :=
  !s.accBad (0x800 * a) 4096 && (List.range e.t).any fun t =>
    !s.tokenBad e t && decide (e.cap < (foldRow e (s.tileRow a t) v0 (s.token e t)).1.heap.length)

/-- R271: the same of a merge. -/
def mergeOver (s : State) (e : DirEntry) (off : Nat) : Bool :=
  (List.range e.t).any fun t =>
    !s.tokenBad e t && !s.memBad (off + t * e.block) e.block &&
      decide (e.cap < (mergeToken e (s.c.mem.readBytes (off + t * e.block) e.block) (s.token e t)).1.heap.length)

end State

/-- R261, R280: the state that vpinit is to create, none where DETAIL 15 stands. -/
def State.newState (s : State) (d a b : Reg) : Option DirEntry :=
  let mode := bitsOf s.c.vpcfg.toNat 0 2
  let cap := if mode = 0 then bitsOf s.c.vpcfg.toNat 8 7 else bitsOf s.c.vpcfg.toNat 16 8
  let t := (s.reg a).toNat
  let delta := (s.reg b).toNat
  let badDelta := isNan32 delta || (decide (2 ^ 31 ≤ delta) && delta != 2 ^ 31)
  if 1 < mode ∨ cap < 1 ∨ (if mode = 0 then 64 else 128) < cap ∨ t < 1 ∨ 32 < t ∨ (mode = 1 ∧ badDelta = true) then none
  else some
    { bank := d.val, t := t, mode := mode, cap := cap, delta := if mode = 1 then s.reg b else 0,
      nb := DirEntry.banksOf t cap }

/-- R281: vpinit. -/
def execVpinit (d a b : Reg) (s : State) : Result :=
  match s.newState d a b with
  | none => s.trap .illegal 15
  | some e =>
    s.classC <|
      if (e.banks.all s.allocated) = false then s.trap .accBank
      else if s.mxBusy e.banks || decide (4 ≤ s.c.head.length) then s.wait
      else
        let t := s.dropStates e.bank e.nb
        ({ t with c := { t.c with dir := t.c.dir ++ [e] } } : State).headQueue { op := .vpinit d a b, ent := e }

/-- R282: vplabel. -/
def execVplabel (d a : Reg) (s : State) : Result :=
  s.withState d.val fun e =>
    s.classC <| s.check (State.addrTrap (s.reg a) (4 * e.t) 4 4) <|
      s.headQueue { op := .vplabel d a, x := s.reg a, ent := e }

/-- R283: vpfold. -/
def execVpfold (d a b : Reg) (s : State) : Result :=
  s.withState d.val fun e =>
    if s.overlapsState a.val 2 then s.trap .illegal 16
    else if 0xFFFFFFE0 < (s.reg b).toNat then s.trap .illegal 18
    else s.classC <| s.check (s.tileTrap .f32 a) <|
      let q : HeadOp := { op := .vpfold d a b, x := s.reg b, ent := e }
      s.spillCheck q (s.foldOver e a.val (s.reg b).toNat) (s.headQueue q)

/-- R284: vpmerge. -/
def execVpmerge (d a : Reg) (s : State) : Result :=
  s.withState d.val fun e =>
    s.classC <| s.check (State.addrTrap (s.reg a) (e.t * e.block) 64 4) <|
      let q : HeadOp := { op := .vpmerge d a, x := s.reg a, ent := e }
      s.spillCheck q (s.mergeOver e (offOf (s.reg a))) (s.headQueue q)

/-- R285: vpread. -/
def execVpread (d a : Reg) (s : State) : Result :=
  s.withState a.val fun e =>
    s.classC <| s.check (State.addrTrap (s.reg d) (e.t * e.block) 64 4) <|
      s.headQueue { op := .vpread d a, x := s.reg d, ent := e }

/-- R286: vpregen. -/
def execVpregen (d a b : Reg) (s : State) : Result :=
  if s.overlapsState d.val 1 || s.overlapsState a.val 2 || d == a || d.val == a.val + 1 then s.trap .illegal 16
  else
    s.classC <| s.check (State.addrTrap (s.reg b) 264 8 4) <| s.check (s.tileTrap .f32 a) <| s.check (s.tileTrap .bf16 d) <|
      s.headQueue { op := .vpregen d a b, x := s.reg b }

namespace State

/-- R272, R287: what vpspill writes for a token, and the token with its heap empty. -/
def spillBytes (s : State) (e : DirEntry) (t : Nat) : List Byte :=
  let k := s.token e t
  if k.heap.isEmpty then [] else natBytes [t, k.heap.length] ++ pairBytes k.heap

/-- R272, R287: the heap of a token is emptied, whatever its block holds: CNT and the pairs are written, in place; M, S, LAB and LID
are not. A block that holds an uncorrectable error raises ECC (R278). -/
def emptyHeap (s : State) (e : DirEntry) (t : Nat) : State × Nat :=
  let off := e.tokenAt t
  let bad := s.tokenBad e t
  let u := if bad then s.logAcc off e.block else s
  let tst := (s.token e t).tst ||| (if bad then hdECC else 0)
  ((u.headAcc (off + 16) (natBytes [0, tst])).headAcc (off + 32) (List.replicate (e.block - 32) 0), if bad then hdECC else 0)

/-- R287: vpspill once its checks have passed: the spill area, the pointer word, the heaps, SPILLP; SBANK
stays (DEDUCED, log 54). -/
def spillHeaps (s : State) (e : DirEntry) (off : Nat) : State :=
  let p := s.memWord off
  let out := (List.range e.t).flatMap (s.spillBytes e)
  let r := (List.range e.t).foldl (fun m t => let r := m.1.emptyHeap e t; (r.1, m.2 ||| r.2)) (s, 0)
  let t := (r.1.engineMem (offOf p) out).engineMem off (leBytes 4 (p.toNat + out.length))
  (({ t with c := { t.c with vpst := t.c.vpst &&& 0xFFFFFF7F } } : State).headNote r.2).headArrive r.2

end State

/-- R287: vpspill. -/
def execVpspill (a : Reg) (s : State) : Result :=
  if s.c.vpst.getLsbD 7 = false then s.trap .illegal 17
  else s.withState (bitsOf s.c.vpst.toNat 0 5) fun e =>
    s.classC <| s.check (State.addrTrap (s.reg a) 4 4 4) <|
      if s.c.head ≠ [] ∨ s.mxBusy e.banks = true then s.wait
      else if s.memBad (offOf (s.reg a)) 4 then s.eccTrap (s.reg a) 0 4
      else
        let n := ((List.range e.t).flatMap (s.spillBytes e)).length
        s.check (State.addrTrap (s.memWord (offOf (s.reg a))) (max n 1) 8 4) (s.spillHeaps e (offOf (s.reg a))).fin

/-- R288: vpstat. -/
def execVpstat (d : Reg) (s : State) : Result :=
  s.classC <|
    if s.c.head ≠ [] then s.wait
    else ({ s with c := { s.c with headStatus := 0 } } : State).result d (s.c.headStatus.zeroExtend 32)

end Sys2Proof.Machine
end

