-- ==== Sys2Proof/Machine/LoadStore.lean ====
section
/-! DEFINITION. Machine/LoadStore.lean: scalar loads and stores to local memory (R92, R93). -/

namespace Sys2Proof.Machine

namespace State

/-- R93: the effective addresses of the I form and of the indexed form. -/
def eaImm (s : State) (a : Reg) (imm : BitVec 26) : Word := s.reg a + immWord imm * 4
def eaIndex (s : State) (a b : Reg) (size : Nat) : Word := s.reg a + s.reg b * BitVec.ofNat 32 size

/-- R93: a load of size bytes; `ext` extends them to the word written. -/
def load (s : State) (d : Reg) (ea : Word) (size : Nat) (ext : Nat → Word) : Result :=
  s.access ea size false fun s => s.result d (ext (leNat (s.loadBytes ea size)))

/-- R93: a store of the low bytes of s[d]. -/
def store (s : State) (d : Reg) (ea : Word) (size : Nat) : Result :=
  s.access ea size true fun s => (s.storeBytes ea (leBytes size (s.reg d).toNat)).fin

end State

/-- Sign and zero extension of loaded bytes. -/
def extS (w : Nat) (x : Nat) : Word := BitVec.ofInt 32 (signedOf w x)
def extZ (x : Nat) : Word := BitVec.ofNat 32 x

def execLdW (d a : Reg) (imm : BitVec 26) (s : State) : Result := s.load d (s.eaImm a imm) 4 extZ
def execStW (d a : Reg) (imm : BitVec 26) (s : State) : Result := s.store d (s.eaImm a imm) 4
def execLdB (d a b : Reg) (s : State) : Result := s.load d (s.eaIndex a b 1) 1 (extS 8)
def execLdBu (d a b : Reg) (s : State) : Result := s.load d (s.eaIndex a b 1) 1 extZ
def execLdH (d a b : Reg) (s : State) : Result := s.load d (s.eaIndex a b 2) 2 (extS 16)
def execLdHu (d a b : Reg) (s : State) : Result := s.load d (s.eaIndex a b 2) 2 extZ
def execLdWx (d a b : Reg) (s : State) : Result := s.load d (s.eaIndex a b 4) 4 extZ
def execStB (d a b : Reg) (s : State) : Result := s.store d (s.eaIndex a b 1) 1
def execStH (d a b : Reg) (s : State) : Result := s.store d (s.eaIndex a b 2) 2
def execStWx (d a b : Reg) (s : State) : Result := s.store d (s.eaIndex a b 4) 4

end Sys2Proof.Machine
end

