-- ==== Sys2Proof/Machine/Vector.lean ====
section
/-! DEFINITION. Machine/Vector.lean: page 2 (R115 to R127). Every instruction is of class C (R74). -/

namespace Sys2Proof.Machine

/-! Arithmetic: MAJ 0x0 (R119, R120). -/

def execVadd (t : ElemType) (d a b : Reg) (m : VMod) (s : State) : Result :=
  s.classC (s.lane2 t d a b m (laneAdd t m.sat s.ftz)).fin
def execVsub (t : ElemType) (d a b : Reg) (m : VMod) (s : State) : Result :=
  s.classC (s.lane2 t d a b m (laneSub t m.sat s.ftz)).fin
def execVmul (t : ElemType) (d a b : Reg) (m : VMod) (s : State) : Result :=
  s.classC (s.lane2 t d a b m (laneMul t m.sat s.ftz)).fin
def execVmin (t : ElemType) (d a b : Reg) (m : VMod) (s : State) : Result :=
  s.classC (s.lane2 t d a b m (laneMin t s.ftz)).fin
def execVmax (t : ElemType) (d a b : Reg) (m : VMod) (s : State) : Result :=
  s.classC (s.lane2 t d a b m (laneMax t s.ftz)).fin
def execVand (t : ElemType) (d a b : Reg) (m : VMod) (s : State) : Result :=
  s.classC (s.lane2 t d a b m fun x y => (x &&& y, 0)).fin
def execVor (t : ElemType) (d a b : Reg) (m : VMod) (s : State) : Result :=
  s.classC (s.lane2 t d a b m fun x y => (x ||| y, 0)).fin
def execVxor (t : ElemType) (d a b : Reg) (m : VMod) (s : State) : Result :=
  s.classC (s.lane2 t d a b m fun x y => (x ^^^ y, 0)).fin
def execVfma (t : ElemType) (d a b c : Reg) (m : VMod) (s : State) : Result :=
  s.classC (s.lane3 t d a b c m (laneFma t m.sat s.ftz)).fin
def execVabs (t : ElemType) (d a : Reg) (m : VMod) (s : State) : Result :=
  s.classC (s.lane1 t d a m (laneAbs t m.sat s.ftz)).fin
def execVneg (t : ElemType) (d a : Reg) (m : VMod) (s : State) : Result :=
  s.classC (s.lane1 t d a m (laneNeg t m.sat s.ftz)).fin
def execVshl (t : ElemType) (d a b : Reg) (m : VMod) (s : State) : Result := s.classC (s.lane2 t d a b m (laneShl t)).fin
def execVshr (t : ElemType) (d a b : Reg) (m : VMod) (s : State) : Result := s.classC (s.lane2 t d a b m (laneShr t)).fin
def execVsra (t : ElemType) (d a b : Reg) (m : VMod) (s : State) : Result := s.classC (s.lane2 t d a b m (laneSra t)).fin

/-- A maskable instruction's fields without XM (R116). -/
def noMask : VMod := { sat := false, z := false, km := 0 }

def execVsel (t : ElemType) (d a b : Reg) (c : KReg) (s : State) : Result :=
  s.classC (s.lanewise t d noMask fun i =>
    (if (s.kreg c).getLsbD i then laneAt t (s.vreg a) i else laneAt t (s.vreg b) i, 0)).fin

def execVcmpeq (t : ElemType) (d : KReg) (a b : Reg) (m : VMod) (s : State) : Result :=
  s.classC (s.compareLanes t d a b m (laneEq t s.ftz)).fin
def execVcmplt (t : ElemType) (d : KReg) (a b : Reg) (m : VMod) (s : State) : Result :=
  s.classC (s.compareLanes t d a b m (laneLt t s.ftz)).fin
def execVcmple (t : ElemType) (d : KReg) (a b : Reg) (m : VMod) (s : State) : Result :=
  s.classC (s.compareLanes t d a b m (laneLe t s.ftz)).fin

def execVexp (t : ElemType) (d a : Reg) (m : VMod) (s : State) : Result := s.classC (s.lane1 t d a m (laneExp t s.ftz)).fin
def execVrcp (t : ElemType) (d a : Reg) (m : VMod) (s : State) : Result := s.classC (s.lane1 t d a m (laneRcp t s.ftz)).fin
def execVrsqrt (t : ElemType) (d a : Reg) (m : VMod) (s : State) : Result :=
  s.classC (s.lane1 t d a m (laneRsqrt t s.ftz)).fin
def execVsat (t : ElemType) (d a b : Reg) (m : VMod) (s : State) : Result :=
  s.classC (s.lane2 t d a b m (laneSat t s.ftz)).fin

/-! Conversion, permutation, reduction: MAJ 0x1 (R121, R122). -/

/-- R121: lane i of the destination from the lane of the sources that `src` names, 0 where it names none. -/
def State.convertLanes (s : State) (td ts : ElemType) (sat : Bool) (d : Reg) (src : Nat → Option Nat) : State :=
  s.lanewise td d noMask fun i => match src i with
    | some x => convert td ts sat s.ftz x
    | none => (0, 0)

def execVcvt (td ts : ElemType) (sat : Bool) (d a : Reg) (s : State) : Result :=
  s.classC (s.convertLanes td ts sat d fun i => if i < ts.lanes then some (laneAt ts (s.vreg a) i) else none).fin

def execVpack (td ts : ElemType) (sat : Bool) (d a b : Reg) (s : State) : Result :=
  s.classC (s.convertLanes td ts sat d fun i =>
    some (if i < ts.lanes then laneAt ts (s.vreg a) i else laneAt ts (s.vreg b) (i - ts.lanes))).fin

def execVunpack (td ts : ElemType) (sat : Bool) (d a : Reg) (h : Bool) (s : State) : Result :=
  s.classC (s.convertLanes td ts sat d fun i => some (laneAt ts (s.vreg a) (i + if h then td.lanes else 0))).fin

def execVshuf (t : ElemType) (d a b : Reg) (m : VMod) (s : State) : Result :=
  s.classC (s.lanewise t d m fun i => (laneAt t (s.vreg a) (laneAt t (s.vreg b) i % t.lanes), 0)).fin

def execVbcast (t : ElemType) (d a : Reg) (m : VMod) (s : State) : Result :=
  s.classC (s.lanewise t d m fun _ => ((s.reg a).toNat % 2 ^ t.width, 0)).fin

def execVmov (t : ElemType) (d a : Reg) (m : VMod) (s : State) : Result :=
  s.classC (s.lane1 t d a m fun x => (x, 0)).fin

def execVredsum (t : ElemType) (d a : Reg) (m : VMod) (s : State) : Result :=
  s.classC (s.reduceLanes t d a m (sumIdentity t) (laneAdd t m.sat s.ftz)).fin

def execVredmax (t : ElemType) (d a : Reg) (m : VMod) (s : State) : Result :=
  s.classC (s.reduceLanes t d a m (maxIdentity t) (laneMax t s.ftz)).fin

def execVredmin (t : ElemType) (d a : Reg) (m : VMod) (s : State) : Result :=
  s.classC (s.reduceLanes t d a m (minIdentity t) (laneMin t s.ftz)).fin

/-- R56: the running sums, an inactive lane entering as the identity. -/
def State.running (s : State) (t : ElemType) (a : Reg) (m : VMod) : List (Nat × Flags) :=
  scanFrom (laneAdd t m.sat s.ftz) (sumIdentity t) ((List.range t.lanes).map fun i =>
    if s.active m i then laneAt t (s.vreg a) i else sumIdentity t)

def execVscan (t : ElemType) (d a : Reg) (m : VMod) (s : State) : Result :=
  let rs := s.running t a m
  s.classC (s.lanewise t d m fun i => rs.getD i (0, 0)).fin

def execVmovs (t : ElemType) (d a b : Reg) (s : State) : Result :=
  let x := laneAt t (s.vreg a) ((s.reg b).toNat % t.lanes)
  s.classC <| s.result d (if t.isS then BitVec.ofInt 32 (signedOf t.width x) else BitVec.ofNat 32 x)

def execVext (t : ElemType) (d a b : Reg) (m : VMod) (s : State) : Result :=
  s.classC (s.lanewise t d m fun i =>
    (if i + (s.reg b).toNat < t.lanes then laneAt t (s.vreg a) (i + (s.reg b).toNat) else 0, 0)).fin

/-! Masks: MAJ 0x5 (R127). -/

def execKand (d a b : KReg) (s : State) : Result := s.classC (s.setK d (s.kreg a &&& s.kreg b)).fin
def execKor (d a b : KReg) (s : State) : Result := s.classC (s.setK d (s.kreg a ||| s.kreg b)).fin
def execKxor (d a b : KReg) (s : State) : Result := s.classC (s.setK d (s.kreg a ^^^ s.kreg b)).fin
def execKnot (d a : KReg) (s : State) : Result := s.classC (s.setK d (~~~(s.kreg a))).fin
def execKmov (d : KReg) (a b : Reg) (s : State) : Result := s.classC (s.setK d (s.reg b ++ s.reg a)).fin
def execKpop (d : Reg) (a : KReg) (s : State) : Result :=
  s.classC <| s.result d (BitVec.ofNat 32 (bitCount 64 (s.kreg a).toNat))

end Sys2Proof.Machine
end

