-- ==== Sys2Proof/Machine/VectorMem.lean ====
section
/-! DEFINITION. Machine/VectorMem.lean: vector loads and stores, page 2 MAJ 0x2 to 0x4 (R123 to R126). -/

namespace Sys2Proof.Machine

namespace State

/-- R123: the address of vld and vst. -/
def eaVector (s : State) (a : Reg) (imm : BitVec 26) : Word := s.reg a + immWord imm * 64

/-- 64 raw bytes into and out of a vector register. -/
def loadV (s : State) (d : Reg) (ea : Word) : Result :=
  s.access ea 64 false fun s => (s.setV d (BitVec.ofNat 512 (leNat (s.loadBytes ea 64)))).fin
def storeV (s : State) (d : Reg) (ea : Word) : Result :=
  s.access ea 64 true fun s => (s.storeBytes ea (leBytes 64 (s.vreg d).toNat)).fin

end State

def execVld (d a : Reg) (imm : BitVec 26) (s : State) : Result := s.loadV d (s.eaVector a imm)
def execVst (d a : Reg) (imm : BitVec 26) (s : State) : Result := s.storeV d (s.eaVector a imm)

/-! Converting accesses (R125). -/

namespace State

/-- The bytes of n elements in a view's format, and the element size that aligns them. -/
def viewExtent (view n : Nat) : Nat := if view = 5 then n / 2 else n * (viewType view false).bytes
def viewAlign (view : Nat) : Nat := if view = 5 then 4 else (viewType view false).bytes

/-- R23, R124, R125: what vldc and vstc of n elements trap with, ECC apart. `bad` says that U or T stands where it does
not apply. -/
def convTrap (s : State) (ea : Word) (n : Nat) (bad : Bool) : Option Trap :=
  let view := viewOf ea
  let off := offOf ea
  if bad then some ⟨.illegal, 0, 0⟩
  else if (view = 9 ∨ view = 10) ∧ s.svc = false then some ⟨.priv, 0, 0⟩
  else if s.inExchange then some ⟨.phase, 0, 0⟩
  else if reservedView view then some ⟨.localRange, 0, ea⟩
  else if view = 0 ∨ 6 < view then some ⟨.view, 4, ea⟩
  else if 0x9FFFF < off + viewExtent view n - 1 then some ⟨.localRange, 0, ea⟩
  else if view = 5 ∧ 0x9FFFF < s.scaleOff off + n / 8 - 1 then some ⟨.localRange, 0, ea⟩
  else if off % viewAlign view ≠ 0 then some ⟨.align, 0, ea⟩
  else none

/-- The code words of the elements or of their scale bytes hold an uncorrectable error. -/
def convBad (s : State) (ea : Word) (n : Nat) : Bool :=
  s.memBad (offOf ea) (viewExtent (viewOf ea) n) || (viewOf ea == 5 && s.memBad (s.scaleOff (offOf ea)) (n / 8))

/-- R93, R240: the trap for them, with a record for each. -/
def convEcc (s : State) (ea : Word) (n : Nat) : Result :=
  let t := s.logWords 0 (offOf ea) (viewExtent (viewOf ea) n) 0
  (if viewOf ea = 5 then t.logWords 0 (s.scaleOff (offOf ea)) (n / 8) 0 else t).trap .eccUncorr 0 ea

/-- R125: element i of the elements at ea, converted. -/
def convLoad (s : State) (t : ElemType) (ea : Word) (sat u : Bool) (n : Nat) : Nat → Nat × Flags :=
  let off := offOf ea
  if viewOf ea = 5 then
    let codes := s.c.mem.readBytes off (n / 2)
    let scales := s.c.mem.readBytes (s.scaleOff off) (n / 8)
    fun i => fromVal t sat s.ftz (b4At codes scales i)
  else
    let v := viewType (viewOf ea) u
    let bs := s.c.mem.readBytes off (n * v.bytes)
    fun i => convert t v sat s.ftz (elemBits bs v.width i)

/-- R49: the blocks of eight lanes, each as codes, scale byte and flags. -/
def b4Blocks (s : State) (t : ElemType) (x : VWord) (b4 : B4Type) : List (List Nat × Nat × Flags) :=
  (List.range (t.lanes / 8)).map fun k =>
    b4Convert ((List.range 8).map fun i => toVal t s.ftz (laneAt t x (8 * k + i))) b4

/-- R125: the lanes of a register stored in the view's format. Through view 0x5 .sat makes no difference (DESIGN CHOICE, log 46). -/
def convStore (s : State) (t : ElemType) (d : Reg) (ea : Word) (sat u : Bool) (b4 : B4Type) : State :=
  let off := offOf ea
  if viewOf ea = 5 then
    let bs := s.b4Blocks t (s.vreg d) b4
    ((s.addFlags (bs.foldl (fun f b => f ||| b.2.2) 0)).storeMem off (bs.flatMap fun b => b4Bytes b.1)).storeMem
      (s.scaleOff off) (bs.map fun b => BitVec.ofNat 8 b.2.1)
  else
    let v := viewType (viewOf ea) u
    let rs := (lanesOf t (s.vreg d)).map (convert v t sat s.ftz)
    (s.addFlags (orFlags rs)).storeMem off (rs.flatMap fun r => leBytes v.bytes r.1)

end State

def execVldc (t : ElemType) (d a : Reg) (sat u : Bool) (s : State) : Result :=
  let ea := s.reg a
  s.check (s.convTrap ea t.lanes (u && viewOf ea != 6)) <|
    if s.convBad ea t.lanes then s.convEcc ea t.lanes
    else (s.lanewise t d ⟨false, false, 0⟩ (s.convLoad t ea sat u t.lanes)).fin

def execVstc (t : ElemType) (d a : Reg) (sat u : Bool) (b4 : B4Type) (s : State) : Result :=
  let ea := s.reg a
  s.check (s.convTrap ea t.lanes ((u && viewOf ea != 6) || (b4 != .int4 && viewOf ea != 5))) <|
    if s.convBad ea t.lanes then s.convEcc ea t.lanes
    else (s.convStore t d ea sat u b4).fin

def execVldb (t : ElemType) (d a : Reg) (m : VMod) (s : State) : Result :=
  let ea := s.reg a
  s.access ea t.bytes false fun s => (s.lanewise t d m fun _ => (leNat (s.loadBytes ea t.bytes), 0)).fin

/-! Indexed accesses (R124, R126). -/

namespace State

/-- The address of lane i. -/
def laneEa (s : State) (t : ElemType) (a b : Reg) (i : Nat) : Word :=
  s.reg a + BitVec.ofNat 32 (laneAt t (s.vreg b) i * t.bytes)

/-- The active lanes with their addresses, in ascending order. -/
def laneEas (s : State) (t : ElemType) (a b : Reg) (m : VMod) : List (Nat × Word) :=
  ((List.range t.lanes).filter (s.active m)).map fun i => (i, s.laneEa t a b i)

/-- R126: the accesses checked in lane order, each as R93 does, and then the effect. -/
def accessAll (s : State) (size : Nat) (store : Bool) (k : Result) : List (Nat × Word) → Result
  | [] => k
  | (_, ea) :: es => s.access ea size store fun _ => accessAll s size store k es

end State

def execVldx (t : ElemType) (d a b : Reg) (m : VMod) (s : State) : Result :=
  let es := s.laneEas t a b m
  let k := (s.lanewise t d m fun i => (leNat (s.loadBytes (s.laneEa t a b i) t.bytes), 0)).fin
  if es.isEmpty then s.classC k else s.accessAll t.bytes false k es

def execVstx (t : ElemType) (d a b : Reg) (m : VMod) (s : State) : Result :=
  let es := s.laneEas t a b m
  let k := (es.foldl (fun u e => u.storeBytes e.2 (leBytes t.bytes (laneAt t (s.vreg d) e.1))) s).fin
  if es.isEmpty then s.classC k else s.accessAll t.bytes true k es

/-! Ring accesses (R124, R126). -/

namespace State

/-- R124, R126: the traps of a ring access at ea in the order of R40: those of the address first, then the HANDLE
checks: failing R31 (R367), no slot `present`, the offset beyond the slot. A handle that is not set has no slot and so no
address: PHASE or HANDLE 5 stands alone (log 45). -/
def ringTrap (s : State) (h : HReg) (b : Reg) (ea : Word) (present : Nat) : Option Trap :=
  if (s.handle h).count = 0 then some (if s.inExchange then ⟨.phase, 0, 0⟩ else handleTrap h 5)
  else
    match s.accessTrap ea 64, s.useHandle h with
    | some t, _ | none, some t => some t
    | none, none =>
      if present = 0 then some (handleTrap h 6)
      else if (s.handle h).size.toNat ≤ (s.reg b).toNat * 64 then some (handleTrap h 8)
      else none

end State

def execVldh (d : Reg) (a : HReg) (b : Reg) (s : State) : Result :=
  let ea := (s.handle a).slot (s.handle a).head.toNat + s.reg b * 64
  s.check (s.ringTrap a b ea (s.handle a).filled) <| s.loadV d ea

def execVsth (d : Reg) (a : HReg) (b : Reg) (s : State) : Result :=
  let ea := (s.handle a).slot (s.handle a).tail.toNat + s.reg b * 64
  s.check (s.ringTrap a b ea (s.handle a).free) <| s.storeV d ea

end Sys2Proof.Machine
end

