-- ==== Sys2Proof/Machine/Dispatch.lean ====
section
/-! DEFINITION. Machine/Dispatch.lean: which meaning each instruction has: one arm per constructor. -/

namespace Sys2Proof.Machine

def exec (i : Instr) (s : State) : Host.Outcome State Fault Refusal :=
  match i with
  | .add d a b => Sys2Proof.Machine.execAdd d a b s
  | .sub d a b => Sys2Proof.Machine.execSub d a b s
  | .and d a b => Sys2Proof.Machine.execAnd d a b s
  | .or d a b => Sys2Proof.Machine.execOr d a b s
  | .xor d a b => Sys2Proof.Machine.execXor d a b s
  | .shl d a b => Sys2Proof.Machine.execShl d a b s
  | .shr d a b => Sys2Proof.Machine.execShr d a b s
  | .sra d a b => Sys2Proof.Machine.execSra d a b s
  | .slt d a b => Sys2Proof.Machine.execSlt d a b s
  | .sltu d a b => Sys2Proof.Machine.execSltu d a b s
  | .seq d a b => Sys2Proof.Machine.execSeq d a b s
  | .sne d a b => Sys2Proof.Machine.execSne d a b s
  | .min d a b => Sys2Proof.Machine.execMin d a b s
  | .max d a b => Sys2Proof.Machine.execMax d a b s
  | .minu d a b => Sys2Proof.Machine.execMinu d a b s
  | .maxu d a b => Sys2Proof.Machine.execMaxu d a b s
  | .mul d a b => Sys2Proof.Machine.execMul d a b s
  | .mulh d a b => Sys2Proof.Machine.execMulh d a b s
  | .mulhu d a b => Sys2Proof.Machine.execMulhu d a b s
  | .div d a b => Sys2Proof.Machine.execDiv d a b s
  | .divu d a b => Sys2Proof.Machine.execDivu d a b s
  | .rem d a b => Sys2Proof.Machine.execRem d a b s
  | .remu d a b => Sys2Proof.Machine.execRemu d a b s
  | .madd d a b c => Sys2Proof.Machine.execMadd d a b c s
  | .clz d a => Sys2Proof.Machine.execClz d a s
  | .ctz d a => Sys2Proof.Machine.execCtz d a s
  | .popc d a => Sys2Proof.Machine.execPopc d a s
  | .sextB d a => Sys2Proof.Machine.execSextB d a s
  | .sextH d a => Sys2Proof.Machine.execSextH d a s
  | .zextB d a => Sys2Proof.Machine.execZextB d a s
  | .zextH d a => Sys2Proof.Machine.execZextH d a s
  | .sel d a b c => Sys2Proof.Machine.execSel d a b c s
  | .addi d a imm => Sys2Proof.Machine.execAddi d a imm s
  | .andi d a imm => Sys2Proof.Machine.execAndi d a imm s
  | .ori d a imm => Sys2Proof.Machine.execOri d a imm s
  | .xori d a imm => Sys2Proof.Machine.execXori d a imm s
  | .slti d a imm => Sys2Proof.Machine.execSlti d a imm s
  | .sltiu d a imm => Sys2Proof.Machine.execSltiu d a imm s
  | .shli d a n => Sys2Proof.Machine.execShli d a n s
  | .shri d a n => Sys2Proof.Machine.execShri d a n s
  | .srai d a n => Sys2Proof.Machine.execSrai d a n s
  | .ldW d a imm => Sys2Proof.Machine.execLdW d a imm s
  | .stW d a imm => Sys2Proof.Machine.execStW d a imm s
  | .ldB d a b => Sys2Proof.Machine.execLdB d a b s
  | .ldBu d a b => Sys2Proof.Machine.execLdBu d a b s
  | .ldH d a b => Sys2Proof.Machine.execLdH d a b s
  | .ldHu d a b => Sys2Proof.Machine.execLdHu d a b s
  | .ldWx d a b => Sys2Proof.Machine.execLdWx d a b s
  | .stB d a b => Sys2Proof.Machine.execStB d a b s
  | .stH d a b => Sys2Proof.Machine.execStH d a b s
  | .stWx d a b => Sys2Proof.Machine.execStWx d a b s
  | .bz a off => Sys2Proof.Machine.execBz a off s
  | .bnz a off => Sys2Proof.Machine.execBnz a off s
  | .bltz a off => Sys2Proof.Machine.execBltz a off s
  | .bgez a off => Sys2Proof.Machine.execBgez a off s
  | .bgtz a off => Sys2Proof.Machine.execBgtz a off s
  | .blez a off => Sys2Proof.Machine.execBlez a off s
  | .j off => Sys2Proof.Machine.execJ off s
  | .jal off => Sys2Proof.Machine.execJal off s
  | .jr a => Sys2Proof.Machine.execJr a s
  | .jalr a => Sys2Proof.Machine.execJalr a s
  | .loop a e => Sys2Proof.Machine.execLoop a e s
  | .csrr d n => Sys2Proof.Machine.execCsrr d n s
  | .csrw n a => Sys2Proof.Machine.execCsrw n a s
  | .csrs n a => Sys2Proof.Machine.execCsrs n a s
  | .csrc n a => Sys2Proof.Machine.execCsrc n a s
  | .cycRead d => Sys2Proof.Machine.execCycRead d s
  | .ageWrite a => Sys2Proof.Machine.execAgeWrite a s
  | .tvWrite a => Sys2Proof.Machine.execTvWrite a s
  | .trap a => Sys2Proof.Machine.execTrap a s
  | .eret => Sys2Proof.Machine.execEret s
  | .halt => Sys2Proof.Machine.execHalt s
  | .snap d => Sys2Proof.Machine.execSnap d s
  | .xload d a => Sys2Proof.Machine.execXload d a s
  | .fence => Sys2Proof.Machine.execFence s
  | .evwr a b => Sys2Proof.Machine.execEvwr a b s
  | .hset d a => Sys2Proof.Machine.execHset d a s
  | .hget d a sel => Sys2Proof.Machine.execHget d a sel s
  | .hwaitf d a => Sys2Proof.Machine.execHwaitf d a s
  | .hwaite d a => Sys2Proof.Machine.execHwaite d a s
  | .hadvc d a => Sys2Proof.Machine.execHadvc d a s
  | .hadvp d a => Sys2Proof.Machine.execHadvp d a s
  | .hreset d => Sys2Proof.Machine.execHreset d s
  | .barm a n => Sys2Proof.Machine.execBarm a n s
  | .barr n => Sys2Proof.Machine.execBarr n s
  | .bwait a n => Sys2Proof.Machine.execBwait a n s
  | .btest a n => Sys2Proof.Machine.execBtest a n s
  | .bstat a n => Sys2Proof.Machine.execBstat a n s
  | .bexp a n => Sys2Proof.Machine.execBexp a n s
  | .binv n => Sys2Proof.Machine.execBinv n s
  | .wmsg d => Sys2Proof.Machine.execWmsg d s
  | .rmsg d a => Sys2Proof.Machine.execRmsg d a s
  | .mcnt d => Sys2Proof.Machine.execMcnt d s
  | .msend a b => Sys2Proof.Machine.execMsend a b s
  | .waita d a => Sys2Proof.Machine.execWaita d a s
  | .clra a => Sys2Proof.Machine.execClra a s
  | .monn d a => Sys2Proof.Machine.execMonn d a s
  | .vadd t d a b m => Sys2Proof.Machine.execVadd t d a b m s
  | .vsub t d a b m => Sys2Proof.Machine.execVsub t d a b m s
  | .vmul t d a b m => Sys2Proof.Machine.execVmul t d a b m s
  | .vmin t d a b m => Sys2Proof.Machine.execVmin t d a b m s
  | .vmax t d a b m => Sys2Proof.Machine.execVmax t d a b m s
  | .vand t d a b m => Sys2Proof.Machine.execVand t d a b m s
  | .vor t d a b m => Sys2Proof.Machine.execVor t d a b m s
  | .vxor t d a b m => Sys2Proof.Machine.execVxor t d a b m s
  | .vfma t d a b c m => Sys2Proof.Machine.execVfma t d a b c m s
  | .vabs t d a m => Sys2Proof.Machine.execVabs t d a m s
  | .vneg t d a m => Sys2Proof.Machine.execVneg t d a m s
  | .vshl t d a b m => Sys2Proof.Machine.execVshl t d a b m s
  | .vshr t d a b m => Sys2Proof.Machine.execVshr t d a b m s
  | .vsra t d a b m => Sys2Proof.Machine.execVsra t d a b m s
  | .vsel t d a b c => Sys2Proof.Machine.execVsel t d a b c s
  | .vcmpeq t d a b m => Sys2Proof.Machine.execVcmpeq t d a b m s
  | .vcmplt t d a b m => Sys2Proof.Machine.execVcmplt t d a b m s
  | .vcmple t d a b m => Sys2Proof.Machine.execVcmple t d a b m s
  | .vexp t d a m => Sys2Proof.Machine.execVexp t d a m s
  | .vrcp t d a m => Sys2Proof.Machine.execVrcp t d a m s
  | .vrsqrt t d a m => Sys2Proof.Machine.execVrsqrt t d a m s
  | .vsat t d a b m => Sys2Proof.Machine.execVsat t d a b m s
  | .vcvt td ts sat d a => Sys2Proof.Machine.execVcvt td ts sat d a s
  | .vpack td ts sat d a b => Sys2Proof.Machine.execVpack td ts sat d a b s
  | .vunpack td ts sat d a h => Sys2Proof.Machine.execVunpack td ts sat d a h s
  | .vshuf t d a b m => Sys2Proof.Machine.execVshuf t d a b m s
  | .vbcast t d a m => Sys2Proof.Machine.execVbcast t d a m s
  | .vmov t d a m => Sys2Proof.Machine.execVmov t d a m s
  | .vredsum t d a m => Sys2Proof.Machine.execVredsum t d a m s
  | .vredmax t d a m => Sys2Proof.Machine.execVredmax t d a m s
  | .vredmin t d a m => Sys2Proof.Machine.execVredmin t d a m s
  | .vscan t d a m => Sys2Proof.Machine.execVscan t d a m s
  | .vmovs t d a b => Sys2Proof.Machine.execVmovs t d a b s
  | .vext t d a b m => Sys2Proof.Machine.execVext t d a b m s
  | .vld d a imm => Sys2Proof.Machine.execVld d a imm s
  | .vst d a imm => Sys2Proof.Machine.execVst d a imm s
  | .vldc t d a sat u => Sys2Proof.Machine.execVldc t d a sat u s
  | .vstc t d a sat u b4 => Sys2Proof.Machine.execVstc t d a sat u b4 s
  | .vldb t d a m => Sys2Proof.Machine.execVldb t d a m s
  | .vldx t d a b m => Sys2Proof.Machine.execVldx t d a b m s
  | .vstx t d a b m => Sys2Proof.Machine.execVstx t d a b m s
  | .vldh d a b => Sys2Proof.Machine.execVldh d a b s
  | .vsth d a b => Sys2Proof.Machine.execVsth d a b s
  | .kand d a b => Sys2Proof.Machine.execKand d a b s
  | .kor d a b => Sys2Proof.Machine.execKor d a b s
  | .kxor d a b => Sys2Proof.Machine.execKxor d a b s
  | .knot d a => Sys2Proof.Machine.execKnot d a s
  | .kmov d a b => Sys2Proof.Machine.execKmov d a b s
  | .kpop d a => Sys2Proof.Machine.execKpop d a s
  | .mma acc d a b => Sys2Proof.Machine.execMma acc d a b s
  | .mmai sat ua ub d a b => Sys2Proof.Machine.execMmai sat ua ub d a b s
  | .mzero acc d => Sys2Proof.Machine.execMzero acc d s
  | .mload acc bc d a => Sys2Proof.Machine.execMload acc bc d a s
  | .mdrain acc d a => Sys2Proof.Machine.execMdrain acc d a s
  | .mdrq o d a b => Sys2Proof.Machine.execMdrq o d a b s
  | .mrsum sat u d a b => Sys2Proof.Machine.execMrsum sat u d a b s
  | .mcsum sat u d a b => Sys2Proof.Machine.execMcsum sat u d a b s
  | .mgang n => Sys2Proof.Machine.execMgang n s
  | .mfollow => Sys2Proof.Machine.execMfollow s
  | .munfollow a => Sys2Proof.Machine.execMunfollow a s
  | .mwait d => Sys2Proof.Machine.execMwait d s
  | .aalloc a b n => Sys2Proof.Machine.execAalloc a b n s
  | .afree b n => Sys2Proof.Machine.execAfree b n s
  | .aquery a q => Sys2Proof.Machine.execAquery a q s
  | .spill vec a => Sys2Proof.Machine.execSpill vec a s
  | .fill vec a => Sys2Proof.Machine.execFill vec a s
  | .cpush a => Sys2Proof.Machine.execCpush a s
  | .cpushnb d a => Sys2Proof.Machine.execCpushnb d a s
  | .cfree d => Sys2Proof.Machine.execCfree d s
  | .cfence => Sys2Proof.Machine.execCfence s
  | .cset n a b => Sys2Proof.Machine.execCset n a b s
  | .cget d n h => Sys2Proof.Machine.execCget d n h s
  | .xsend cls a off => Sys2Proof.Machine.execXsend cls a off s
  | .xrecv cls a off => Sys2Proof.Machine.execXrecv cls a off s
  | .xrecva t op sat cls a off => Sys2Proof.Machine.execXrecva t op sat cls a off s
  | .xmc lane cls a off => Sys2Proof.Machine.execXmc lane cls a off s
  | .xsel port off => Sys2Proof.Machine.execXsel port off s
  | .xend off => Sys2Proof.Machine.execXend off s
  | .sync a => Sys2Proof.Machine.execSync a s
  | .lsync g a => Sys2Proof.Machine.execLsync g a s
  | .arrive g => Sys2Proof.Machine.execArrive g s
  | .await g => Sys2Proof.Machine.execAwait g s
  | .dom g a b => Sys2Proof.Machine.execDom g a b s
  | .phaseQuery d a => Sys2Proof.Machine.execPhaseQuery d a s
  | .phaseCancel d a => Sys2Proof.Machine.execPhaseCancel d a s
  | .redAdd t sat d a g c n => Sys2Proof.Machine.execRedAdd t sat d a g c n s
  | .redMax t sat d a g c n => Sys2Proof.Machine.execRedMax t sat d a g c n s
  | .redMin t sat d a g c n => Sys2Proof.Machine.execRedMin t sat d a g c n s
  | .redAnd t sat d a g c n => Sys2Proof.Machine.execRedAnd t sat d a g c n s
  | .redOr t sat d a g c n => Sys2Proof.Machine.execRedOr t sat d a g c n s
  | .redBar g => Sys2Proof.Machine.execRedBar g s
  | .vpinit d a b => Sys2Proof.Machine.execVpinit d a b s
  | .vpfold d a b => Sys2Proof.Machine.execVpfold d a b s
  | .vpmerge d a => Sys2Proof.Machine.execVpmerge d a s
  | .vpread d a => Sys2Proof.Machine.execVpread d a s
  | .vpregen d a b => Sys2Proof.Machine.execVpregen d a b s
  | .vpspill a => Sys2Proof.Machine.execVpspill a s
  | .vplabel d a => Sys2Proof.Machine.execVplabel d a s
  | .vpstat d => Sys2Proof.Machine.execVpstat d s
  | .lgrant d a => Sys2Proof.Machine.execLgrant d a s
  | .lrelease a => Sys2Proof.Machine.execLrelease a s
  | .lstat d a => Sys2Proof.Machine.execLstat d a s
  | .lmargin d a => Sys2Proof.Machine.execLmargin d a s
  | .lmode d a b => Sys2Proof.Machine.execLmode d a b s
  | .wreg d a => Sys2Proof.Machine.execWreg d a s
  | .wdereg d a => Sys2Proof.Machine.execWdereg d a s
  | .wput d a => Sys2Proof.Machine.execWput d a s
  | .wget d a => Sys2Proof.Machine.execWget d a s
  | .wrtr d a => Sys2Proof.Machine.execWrtr d a s
  | .wcnt d a b => Sys2Proof.Machine.execWcnt d a b s
  | .wwait d a b => Sys2Proof.Machine.execWwait d a b s
  | .tvget d a => Sys2Proof.Machine.execTvget d a s
  | .tvstage d a => Sys2Proof.Machine.execTvstage d a s
  | .tvcommit d a => Sys2Proof.Machine.execTvcommit d a s
  | .cstep d a => Sys2Proof.Machine.execCstep d a s
  | .cstat d a => Sys2Proof.Machine.execCstat d a s
  | .cresume d a b => Sys2Proof.Machine.execCresume d a b s
  | .drain d a b => Sys2Proof.Machine.execDrain d a b s
  | .drainFec d a b => Sys2Proof.Machine.execDrainFec d a b s
  | .drainRetrain d a b => Sys2Proof.Machine.execDrainRetrain d a b s
  | .undrain d a b => Sys2Proof.Machine.execUndrain d a b s
  | .lnkstat d a => Sys2Proof.Machine.execLnkstat d a s
  | .illegalEncoding cause => Sys2Proof.Machine.execIllegalEncoding cause s
  | .fetchFault cause addr => Sys2Proof.Machine.execFetchFault cause addr s
  | .mailboxPost => Sys2Proof.Machine.execMailboxPost s
  | .matrixStart => Sys2Proof.Machine.execMatrixStart s
  | .matrixRetire => Sys2Proof.Machine.execMatrixRetire s
  | .load => Sys2Proof.Machine.execLoad s
  | .store => Sys2Proof.Machine.execStore s
  | .gather => Sys2Proof.Machine.execGather s
  | .scatter => Sys2Proof.Machine.execScatter s
  | .im2col => Sys2Proof.Machine.execIm2col s
  | .update => Sys2Proof.Machine.execUpdate s
  | .fillCommand => Sys2Proof.Machine.execFillCommand s
  | .copyBeat => Sys2Proof.Machine.execCopyBeat s
  | .tlbWrite => Sys2Proof.Machine.execTlbWrite s
  | .tlbInvalidate => Sys2Proof.Machine.execTlbInvalidate s
  | .commandEndByFirmware => Sys2Proof.Machine.execCommandEndByFirmware s
  | .copyCompletion => Sys2Proof.Machine.execCopyCompletion s
  | .updateApply => Sys2Proof.Machine.execUpdateApply s
  | .scrubPass => Sys2Proof.Machine.execScrubPass s
  | .exchangeBeatReceive => Sys2Proof.Machine.execExchangeBeatReceive s
  | .reductionResult => Sys2Proof.Machine.execReductionResult s
  | .reductionStraggler => Sys2Proof.Machine.execReductionStraggler s
  | .phaseRelease => Sys2Proof.Machine.execPhaseRelease s
  | .stragglerExpiry => Sys2Proof.Machine.execStragglerExpiry s
  | .exchangePhaseEnd => Sys2Proof.Machine.execExchangePhaseEnd s
  | .localRelease => Sys2Proof.Machine.execLocalRelease s
  | .localPhaseEnd => Sys2Proof.Machine.execLocalPhaseEnd s
  | .treeComplete => Sys2Proof.Machine.execTreeComplete s
  | .awaitStraggler => Sys2Proof.Machine.execAwaitStraggler s
  | .headOpComplete => Sys2Proof.Machine.execHeadOpComplete s
  | .settlingEnd => Sys2Proof.Machine.execSettlingEnd s
  | .measurementWindow => Sys2Proof.Machine.execMeasurementWindow s
  | .wavelengthFail => Sys2Proof.Machine.execWavelengthFail s
  | .wavelengthRestore => Sys2Proof.Machine.execWavelengthRestore s
  | .linkStep => Sys2Proof.Machine.execLinkStep s
  | .linkStepTimeout => Sys2Proof.Machine.execLinkStepTimeout s
  | .drainTimeout => Sys2Proof.Machine.execDrainTimeout s
  | .commitTimeout => Sys2Proof.Machine.execCommitTimeout s
  | .wderegTimeout => Sys2Proof.Machine.execWderegTimeout s
  | .wwaitTimeout => Sys2Proof.Machine.execWwaitTimeout s
  | .lightDetect => Sys2Proof.Machine.execLightDetect s
  | .lockAcquired => Sys2Proof.Machine.execLockAcquired s
  | .lockTimeout => Sys2Proof.Machine.execLockTimeout s
  | .burstLoss => Sys2Proof.Machine.execBurstLoss s
  | .lossOfLock => Sys2Proof.Machine.execLossOfLock s
  | .idleBurst => Sys2Proof.Machine.execIdleBurst s
  | .linkBringup => Sys2Proof.Machine.execLinkBringup s
  | .frameReceive => Sys2Proof.Machine.execFrameReceive s
  | .frameAck => Sys2Proof.Machine.execFrameAck s
  | .fecRequest => Sys2Proof.Machine.execFecRequest s
  | .fecAck => Sys2Proof.Machine.execFecAck s
  | .fecRequestRepeat => Sys2Proof.Machine.execFecRequestRepeat s
  | .fecRevert => Sys2Proof.Machine.execFecRevert s
  | .fecChangeTimeout => Sys2Proof.Machine.execFecChangeTimeout s
  | .transitPacket => Sys2Proof.Machine.execTransitPacket s
  | .staleTv => Sys2Proof.Machine.execStaleTv s
  | .putArrive => Sys2Proof.Machine.execPutArrive s
  | .getArrive => Sys2Proof.Machine.execGetArrive s
  | .getDataArrive => Sys2Proof.Machine.execGetDataArrive s
  | .allowanceArrive => Sys2Proof.Machine.execAllowanceArrive s
  | .rendezvousAnswer => Sys2Proof.Machine.execRendezvousAnswer s
  | .putAckArrive => Sys2Proof.Machine.execPutAckArrive s
  | .drainMarkerArrive => Sys2Proof.Machine.execDrainMarkerArrive s
  | .commitMarkerArrive => Sys2Proof.Machine.execCommitMarkerArrive s
  | .deregNoticeArrive => Sys2Proof.Machine.execDeregNoticeArrive s
  | .deregAnswerArrive => Sys2Proof.Machine.execDeregAnswerArrive s
  | .collectivePut => Sys2Proof.Machine.execCollectivePut s
  | .collectiveWait => Sys2Proof.Machine.execCollectiveWait s
  | .collectiveReduce => Sys2Proof.Machine.execCollectiveReduce s
  | .collectiveEnd => Sys2Proof.Machine.execCollectiveEnd s
  | .collectiveFreeze => Sys2Proof.Machine.execCollectiveFreeze s
  | .launchSubmit => Sys2Proof.Machine.execLaunchSubmit s
  | .launchAdmit => Sys2Proof.Machine.execLaunchAdmit s
  | .agingRaise => Sys2Proof.Machine.execAgingRaise s
  | .counterWrite => Sys2Proof.Machine.execCounterWrite s
  | .launchComplete => Sys2Proof.Machine.execLaunchComplete s
  | .launchEndedByFirmware => Sys2Proof.Machine.execLaunchEndedByFirmware s
  | .coreRestart => Sys2Proof.Machine.execCoreRestart s
  | .preemptSwap => Sys2Proof.Machine.execPreemptSwap s
  | .preemptOverdue => Sys2Proof.Machine.execPreemptOverdue s
  | .shadowPage => Sys2Proof.Machine.execShadowPage s
  | .partitionConfig => Sys2Proof.Machine.execPartitionConfig s
  | .sensorSample => Sys2Proof.Machine.execSensorSample s
  | .thermal => Sys2Proof.Machine.execThermal s
  | .thermalMigration => Sys2Proof.Machine.execThermalMigration s
  | .slewWindow => Sys2Proof.Machine.execSlewWindow s
  | .tileGate => Sys2Proof.Machine.execTileGate s
  | .tileUngate => Sys2Proof.Machine.execTileUngate s
  | .powerGood => Sys2Proof.Machine.execPowerGood s
  | .resetRelease => Sys2Proof.Machine.execResetRelease s
  | .railFault => Sys2Proof.Machine.execRailFault s
  | .thermalTrip => Sys2Proof.Machine.execThermalTrip s
  | .bootSourceTimeout => Sys2Proof.Machine.execBootSourceTimeout s
  | .boot => Sys2Proof.Machine.execBoot s
  | .mgmtStatus => Sys2Proof.Machine.execMgmtStatus s
  | .bootimg => Sys2Proof.Machine.execBootimg s
  | .attest => Sys2Proof.Machine.execAttest s
  | .keyload => Sys2Proof.Machine.execKeyload s
  | .keyclear => Sys2Proof.Machine.execKeyclear s
  | .mgmtSnap => Sys2Proof.Machine.execMgmtSnap s
  | .snapread => Sys2Proof.Machine.execSnapread s
  | .snapshotLatch => Sys2Proof.Machine.execSnapshotLatch s
  | .evread => Sys2Proof.Machine.execEvread s
  | .checkpoint => Sys2Proof.Machine.execCheckpoint s
  | .restore => Sys2Proof.Machine.execRestore s
  | .svncommit => Sys2Proof.Machine.execSvncommit s
  | .mgmtReset => Sys2Proof.Machine.execMgmtReset s
  | .eventRecordDeliver => Sys2Proof.Machine.execEventRecordDeliver s
  | .logTailWrite => Sys2Proof.Machine.execLogTailWrite s
  | .hostRegisterWrite => Sys2Proof.Machine.execHostRegisterWrite s
  | .serviceInboxTake => Sys2Proof.Machine.execServiceInboxTake s
  | .resetNAssert => Sys2Proof.Machine.execResetNAssert s
  | .memoryError => Sys2Proof.Machine.execMemoryError s
  | .checkpointEnd => Sys2Proof.Machine.execCheckpointEnd s

end Sys2Proof.Machine
end

