-- ==== Sys2Proof/Machine/Engines.lean ====
section
/-! DEFINITION. Machine/Engines.lean: which steps the engines and controllers of this machine can take by themselves (log 2).
What needs another agent comes from the agenda only (log 1). -/

namespace Sys2Proof.Machine

/-- A step, with the number and the tree that it is about. -/
def Event.of (i : Instr) (n : Nat := 0) (g : Tree := 0) (flag : Bool := false) : Event :=
  { step := i, input := { n := n, tree := g, flag := flag } }

namespace State

/-- Engines work: not without power, in reset or after a rail fault (R353), nor while a checkpoint is loaded and has not resumed
(R359). -/
def works (s : State) : Bool := s.alive && !s.chip.resuming

/-- R157, R162: the end of the exchange phase that has come. -/
def phaseDue (s : State) : Option Event :=
  match if s.works then s.c.exch else none with
  | some e =>
    if e.xr + e.seg.len ≤ s.xc then some (.of (if e.tree = 0 then .exchangePhaseEnd else .localPhaseEnd)) else none
  | none => none

/-- The queues of the slice, the head unit and the governor (R132, R213, R265). -/
def computeSteps (s : State) : List Event :=
  (match s.c.mx with
    | q :: _ => if q.started then [.of .matrixRetire] else if isMma q.op && !s.slewAllows 0 then [] else [.of .matrixStart]
    | [] => []) ++
  (if s.c.head.isEmpty then [] else [.of .headOpComplete]) ++
  (if (s.t.slewPrev ≠ 0 ∨ s.t.slewCur ≠ 0) ∧ s.t.slewWin < s.t.clock / 64 then [.of .slewWindow] else [])

/-- What the copy engine can work on in a command (R151, R219, R232): its next beat, now or read ahead, and the beats put aside
that wait for nothing. In an exchange phase bytes in hand go out, and bytes are fetched while the buffer has room. -/
def copyWorks (s : State) (q : CopyCmd) : List (Nat × Bool) :=
  let free (a : Aside) : Bool :=
    a.stall == .none && (!s.inExchange || a.isList || a.rows.isSome ||
      if q.writes then (a.data.isSome && !a.back) || a.rsp.isSome else a.data.isNone && a.rsp.isNone && decide (s.buffered < 64))
  let front : List (Nat × Bool) :=
    if q.stop.isSome || decide (q.total ≤ q.pos) then []
    else if s.inExchange then
      (if q.wantsList || q.kind == 6 || (!q.writes && decide (s.buffered < 64)) then [(0, false)] else [])
    else [(0, false), (0, true)]
  if s.cmdReady q then
    front ++ (List.range q.aside.length).filterMap fun k =>
      if q.aside[k]?.any free then some (k + 1, false) else none
  else if q.begun then [] else [(0, false)]

/-- The copy engine and the mailbox (R219, R225, R172). -/
def copySteps (s : State) : List Event :=
  (List.range s.c.copy.length).flatMap (fun i =>
    match s.cmd i with
    | some q =>
      if s.canLand i then [.of .copyCompletion i]
      else if q.finished || !(q.begun || s.mayBegin i) then []
      else (s.copyWorks q).map fun w => { step := .copyBeat, input := { n := i, op := w.1, flag2 := w.2 } }
    | none => []) ++
  (if s.c.held ≠ [] ∧ s.mboxHeld = false then [.of .mailboxPost] else [])

/-- The phase controller and the trees (R148 to R150, R162, R147, R163, R194, R201, R205). -/
def phaseSteps (s : State) : List Event :=
  let goes (g : Tree) : Bool := s.phaseFree g && s.allArrived g && s.verdict g != .hold
  let full (g : Tree) : Bool := s.allIn g && !s.allArrived g
  let late (g : Tree) : Bool := match s.expiry g with
    | some t => decide (t ≤ s.xc)
    | none => false
  let locals := (List.finRange 16).filter (· ≠ (0 : Tree))
  (if goes 0 then [.of .phaseRelease] else []) ++
  (locals.filter goes).map (Event.of .localRelease 0 ·) ++
  (locals.filter full).map (Event.of .treeComplete 0 ·) ++
  ((List.finRange 16).filter late).map (Event.of .stragglerExpiry 0 ·) ++
  (match s.c.pend with
    | .red w => if s.members w.tree = [s.coreId] then [.of .reductionResult] else []
    | _ => []) ++
  (if s.p.queue.any s.overdue then [.of .agingRaise] else []) ++
  (if s.p.evaluate then [.of .launchAdmit] else []) ++
  (if s.limitPassed then [.of .preemptOverdue] else []) ++
  (if s.thermalDue.isSome && s.thermReady && !s.thermalBusy then [.of .thermal] else []) ++
  (if s.p.running.isSome && s.allHalted && s.copiesDone then [.of .launchComplete] else []) ++
  (if s.p.swapDue && s.p.prepared.isSome && s.c.mx.isEmpty && s.c.head.isEmpty then [.of .preemptSwap] else [])

/-- Time-outs that have come (R163, R184, R338, R345, R347, R350). -/
def timeouts (s : State) : List Event :=
  let after (x n : Nat) (i : Instr) : List Event := if n ≠ 0 ∧ x + n ≤ s.xc then [.of i] else []
  let stragg := s.c.stragg.toNat
  match s.c.pend with
  | .await _ x => after x stragg .awaitStraggler
  | .red w => after w.xc stragg .reductionStraggler
  | .dereg _ x => after x stragg .wderegTimeout
  | .wwait x _ => after x stragg .wwaitTimeout
  | .commit _ x => after x 1000000 .commitTimeout
  | .drain x => after x 1000000 .drainTimeout
  | .fec _ x => after x 60000 .fecChangeTimeout
  | _ => (match s.chip.commitBy with
    | some (_, x) => after x 1000000 .commitTimeout
    | none => []) ++
      if (List.finRange 32).any fun p => (s.port p).fecReq.any (·.late s.xc) then [.of .fecChangeTimeout] else []

/-- The chip: snapshots, the event log and the collectives (R361, R363, R342, R343). The step of a collective of another tile needs the
translations of that tile. -/
def chipSteps (s : State) : List Event :=
  (if s.chip.snapTrig then [.of .snapshotLatch] else []) ++
  (if s.logRoom then
    (if s.t.evq.isEmpty then [] else [.of .eventRecordDeliver 0 0 true]) ++
      s.chip.log.held.map fun r => .of .eventRecordDeliver r.src
  else []) ++
  s.chip.colls.flatMap fun k =>
    if k.frozen || k.busy || k.notice.isSome then []
    else if k.void then [.of .collectiveFreeze k.id]
    else if decide (k.nstep ≤ k.next) || !k.core.all (fun p => p / 16 == s.t.num) then []
    else [.of .collectivePut k.id, .of .collectiveWait k.id, .of .collectiveReduce k.id, .of .collectiveEnd k.id]

/-- R353: a sensor of this tile reads 120 °C or more. -/
def tripSteps (s : State) : List Event :=
  if s.t.temps.any (120 ≤ ·) && s.boot.thermtripN then [.of .thermalTrip] else []

/-- R354: the boot ROM has waited 10 s for a source; no core holds a context yet (R197). -/
def bootSteps (s : State) : List Event :=
  if s.c.run = .idle ∧ s.boot.status = 1 ∧ s.boot.firmware = false ∧ s.bootLimit ≤ s.xc then [.of .bootSourceTimeout] else []

/-- The steps that engines and controllers of this machine can take now. -/
def enabledSteps (s : State) : List Event :=
  if s.works then
    s.tripSteps ++ s.computeSteps ++ s.copySteps ++ s.phaseSteps ++ s.timeouts ++ s.chipSteps ++ s.bootSteps
  else []

end State

end Sys2Proof.Machine
end

