-- ==== Sys2Proof/Machine/Fetch.lean ====
section
/-! DEFINITION. Machine/Fetch.lean: time, the words at the program counter (R26, R62), the words that a gang leader
forwards (R34), and which step comes next. -/

namespace Sys2Proof.Machine

namespace State

/-- Another step in the core cycle of the step before it: the model's counter alone goes on. -/
def joined (s : State) : State := { s with tick := s.tick + 1 }

/-- Time passes: the model's counter and core cycles, with the exchange cycles that they make (R2); beats that arrived in an offset
that has passed are written. DESIGN CHOICE (log 2,
13): how many core cycles a step takes is open. -/
def pass (s : State) : State :=
  (({ s with tick := s.tick + 1, c := { s.c with cycleBar := [] } } : State).advance (1 + Config.stepCycles s.tick)).settlePast

/-- R62, R95: why a word at an address cannot be fetched. -/
def fetchBad (s : State) (a : Word) : Option Cause :=
  if viewOf a ≠ 0 then some (if reservedView (viewOf a) then .localRange else .view)
  else if 0x9FFFF < offOf a + 1 then some .localRange
  else if s.memBad (offOf a) 2 then some .eccUncorr
  else none

/-- A word as fetch sees it (R26, R43). -/
def fetchHalf (s : State) (a : Word) : Half := s.fetchWord (offOf a)

/-- R62, R71: the words of a chain from an address on, at most n, and the fetch that failed, if one did. -/
def fetchWords (s : State) : Nat → Word → List Half × Option (Cause × Word)
  | 0, _ => ([], none)
  | n + 1, a =>
    match s.fetchBad a with
    | some c => ([], some (c, a))
    | none =>
      if isPfx (s.fetchHalf a) then
        let r := fetchWords s n (a + 2)
        (s.fetchHalf a :: r.1, r.2)
      else ([s.fetchHalf a], none)

end State

/-- R18, R62: c.eword of fetched words: the last one, and above it the one before. -/
def ewordOf : List Half → Word
  | [] => 0
  | [w] => (0 : Half) ++ w
  | [p, w] => p ++ w
  | _ :: ws => ewordOf ws

/-- The step that fetched words lead to: the instruction they encode, the refusal of the chain, or the fetch fault. A chain
is fetched whole before it is judged, so a fault of a later word comes before a breach of R66 by the words before it; which
comes first is open (DESIGN CHOICE, log 45). -/
def instrOf (r : List Half × Option (Cause × Word)) : Instr :=
  match r.2 with
  | some (c, a) => .fetchFault c a
  | none => match decode r.1 with
    | .ok (i, _) => i
    | .error e => .illegalEncoding e.cause

/-- R20: ILEN of fetched words, the faulting one included. -/
def fetchedLen (r : List Half × Option (Cause × Word)) : Nat := r.1.length + (if r.2.isSome then 1 else 0)

namespace State

/-- What the core issues next: the instruction that waits at pc; else its own words (at most five, R71), or in follow
mode the words that its leader forwards, with their address (R34); none where it does not issue. -/
def nextInstr (s : State) : Option (Instr × State) :=
  if s.c.run ≠ .running ∨ s.c.fetchStop = true ∨ s.p.swapDue = true ∨ s.inTransit = true ∨ s.chip.resuming = true then none
  else match if s.c.stall then s.c.issue else none with
    | some (i, f) => some (i, { s with ir := f })
    | none =>
      if s.follower then
        match s.stream with
        | [] => none
        | (a, ws) :: rest =>
          some (instrOf (ws, none),
            { s with c := { s.c with pc := a }, ir := { len := ws.length, eword := ewordOf ws }, stream := rest })
      else
        let r := s.fetchWords 5 s.c.pc
        some (instrOf r, { s with ir := { len := fetchedLen r, eword := ewordOf r.1 } })

/-- An instruction that waits is kept with its words, to be issued again. -/
def noteIssue (i : Instr) (f : Fetched) (r : Result) : Result :=
  match r with
  | .next t => .next { t with c := { t.c with issue := if t.c.stall then some (i, f) else none } }
  | r => r

/-- One of several engine steps that are possible (log 2). -/
def pick (n : Nat) : List Event → Option Event
  | [] => none
  | [i] => some i
  | i :: is => some ((i :: is).getD (Config.engineChoice n % (is.length + 1)) i)

/-- The engine step that comes before the pipeline's next instruction. The end of an exchange phase that is due comes
first (R157). An instruction that waits is issued again after each step of an engine, so that it misses no flip (R177);
otherwise an engine acts wherever the pipeline does not issue, and where the open order of R137 and R242 lets it (log 2). -/
def engineStep (s : State) : Option Event :=
  match s.phaseDue with
  | some e => some e
  | none => match s.enabledSteps with
    | [] => none
    | is => if s.nextInstr.isNone || (if s.c.stall then !s.turn else Config.engineFirst s.tick) then pick s.tick is else none

/-- The engine step that comes next, and the machine it acts on: it may fall in the core cycle of the step before it, whose
updates of a barrier it then joins (R166, R176; log 2). -/
def due (s : State) : Option (Event × State) :=
  match s.pass.engineStep with
  | none => none
  | some e => some (match (if Config.sameCycle s.tick then s.joined.engineStep else none) with
    | some e => (e, s.joined)
    | none => (e, s.pass))

/-- Whether the instruction that waits is to be issued again before any other agent acts (R177). -/
def retries (s : State) : Bool := s.turn && s.c.stall && s.nextInstr.isSome

/-- R211: an entry of the agenda moves this core's context at a transition of the partition, which comes before the core issues
anything: at a release, before its sync completes. -/
def movesFirst (s : State) (e : Option Event) : Bool :=
  s.boundary && match e with
    | some e => e.step == .thermalMigration
    | none => false

/-- R140: a leader whose last follower has left leads no longer. -/
def dropLead (s : State) : State :=
  if (s.partners s.gsz).any fun r => r.following || r.wantsFollow then s
  else { s with c := { s.c with status := s.c.status &&& 0xFFFFF7FF } }

/-- The machine with an entry of the agenda taken up: its input in place, the row's wires as it shows them (R33, R34). -/
def takeInput (s : State) (e : Event) : State :=
  let t := match e.input.row with
    | some row => ({ s with row := row } : State).dropLead
    | none => s
  { t with input := e.input, stream := t.stream ++ e.input.stream, turn := true }

/-- The machine as a step of the agenda finds it: in the core cycle of the step before it, or later (log 2). -/
def passAgenda (s : State) : State := if Config.sameCycle s.tick then s.joined else s.pass

end State

/-- Whether an entry of the agenda is a step of another agent or an engine: a row from `mailboxPost` on, or the Cancel
(R186) or the grant request (R312) of another core. -/
def isStep (e : Event) : Bool :=
  decide (Instr.mailboxPost.ctorIdx ≤ e.step.ctorIdx) ||
    (e.input.flag && match e.step with
      | .phaseCancel .. | .lgrant .. | .lrelease .. | .lmode .. => true
      | _ => false)

/-- R353: what happens to a device without power, in reset or with a rail fault: nothing else does. -/
def wakes : Instr → Bool
  | .powerGood | .resetRelease | .resetNAssert | .railFault | .thermalTrip => true
  | _ => false

namespace State

/-- R108, R363: a record of another core, `input.n`: words `input.value` and `input.addr`, the first of its launch where `input.flag2`
says so. A core of this tile queues it in the tile's queue, of 16, or waits; that of another tile comes from that tile's queue, and
enters the log when it has room. -/
def evwrByOther (s : State) : State :=
  let i := s.input
  let seq := if i.flag2 then 0 else s.seqOf i.n
  let r : EventRec := { src := i.n, kind := 0, seq := seq, xcyc := s.xcyc, d0 := i.value, d1 := BitVec.ofNat 32 i.addr }
  let t : State := { s with chip := { s.chip with log := { s.chip.log with
    seqs := (i.n, seq + 1) :: s.chip.log.seqs.filter (·.1 ≠ i.n) } } }
  if i.n = s.coreId ∨ 2304 ≤ i.n then s
  else if i.n / 16 = s.t.num then
    if 16 ≤ s.t.evq.length then s else { t with t := { t.t with evq := t.t.evq ++ [r] } }
  else if s.logRoom then t.logEnter r 0
  else s

/-- R173: a message of another core of the tile, of index `input.n`, for the service core, or of several in turn; it waits while the
inbox is full. -/
def msendByOther (s : State) : State :=
  let send (s : State) (m : DWord) : State :=
    if 64 ≤ s.t.inbox.length then s else { s with t := { s.t with inbox := s.t.inbox ++ [.user s.input.n m] } }
  if s.input.n < 16 ∧ s.input.n ≠ s.t.idx.val then s.input.msgs.foldl send s else s

end State

/-- What an instruction of another core changes of what this core shares with it: a write of a shared register (R195, R209,
R213, R298), snap (R105), xload (R106), dom (R185), lmargin (R310), each beat of a copy command that it has pushed
(R230, R243) and its notices (R232), an event record (R108), a message for the service core (R173), its windows (R345)
and requests to the fabric engine (R346), collectives (R349), routing tables and drains (R348, R350); the operands stand in the input. Of any other instruction of another core this machine sees nothing. -/
def byOther (i : Instr) (s : State) : State :=
  match i with
  | .csrw n _ => s.csrByOther n
  | .ageWrite _ => s.csrByOther .age
  | .tvWrite _ => s.csrByOther .tv
  | .snap _ => s.trigger
  | .xload _ _ => s.xloadByOther
  | .dom g _ _ => s.domByOther g
  | .cpush _ => s.copyByOther
  | .cpushnb _ _ => s.noticeByOther
  | .lmargin _ _ => s.lmarginByOther
  | .evwr _ _ => s.evwrByOther
  | .msend _ _ => s.msendByOther
  | .wput _ _ => s.requestByOther .put
  | .wget _ _ => s.requestByOther .get
  | .wrtr _ _ => s.requestByOther .allow
  | .wreg _ _ => s.registerByOther
  | .wdereg _ _ => s.deregByOther
  | .cstep _ _ => s.startByOther
  | .cresume _ _ _ => s.resumeByOther
  | .tvstage _ _ => s.stageByOther
  | .tvcommit _ _ => s.commitByOther
  | .drain _ _ _ | .drainFec _ _ _ | .drainRetrain _ _ _ | .undrain _ _ _ => s.drainByOther
  | _ => s

end Sys2Proof.Machine
end

