-- ==== Sys2Proof/Machine/Step.lean ====
section
/-! DEFINITION. Machine/Step.lean: one step of the machine, and where the next instruction is fetched. -/

namespace Sys2Proof.Machine

/-- A step of the core or of its engines. -/
def coreStep (s : State) : Host.Outcome State Fault Refusal :=
  match s.due with
  | some (e, t) => exec e.step { t with input := e.input, turn := true }
  | none =>
    match s.pass.nextInstr with
    | some (i, t) => State.noteIssue i t.ir (exec i { t with turn := false, boundary := false })
    | none => .next s.pass

/-- One step: the next entry of the agenda, or a step of the core or its engines (log 1). Without power, in reset and after a rail
fault nothing is done but what ends that (R353). An instruction that waits is issued
again after each entry of the agenda, but for a migration at a transition (R211). -/
def step (s : State) : Host.Outcome State Fault Refusal :=
  match s.agenda with
  | e :: rest =>
    if s.retries && !s.movesFirst e then coreStep { s with input := {} }
    else match e with
      | some e =>
        let t := State.takeInput { s.passAgenda with agenda := rest } e
        if (s.alive || wakes e.step) = false then .next t
        else if isStep e then exec e.step t else .next (byOther e.step t)
      | none => coreStep { s with agenda := rest, input := {} }
  | [] => coreStep { s with input := {} }

/-- The machine with the instruction of a number of the table stored where the core fetches next: the core runs, it
waits for nothing, no other agent acts first, and the words are in memory at pc (log 1 says how a program comes to run
otherwise). -/
def State.withFetchWord (s : State) (nbits w : Nat) : State :=
  let ws := tableWords nbits w
  let bs := wordBytes (ws ++ List.replicate (5 - ws.length) 0)
  { s with
    agenda := []
    c := { s.c with
      run := .running, stall := false, issue := none, pend := .none, fetchStop := false, stale := [],
      status := s.c.status &&& 0xFFFFFBFF,
      memErr := [], mem := s.c.mem.writeBytes (offOf s.c.pc) bs } }

end Sys2Proof.Machine
end

