-- ==== Sys2Proof/Safety.lean ====
section
/-! DEFINITION. Safety.lean: what counts as a well-kept state and a safe run, and the words in which the statements speak
of an instruction's effect: its completion, what it leaves alone, and which instructions share a shape. -/

namespace Sys2Proof.Machine

/-! The invariant. -/

/-- The memories of a context are in canonical form. -/
structure Ctx.Canonical (c : Ctx) : Prop where
  mem : c.mem.wf = true
  acc : c.acc.wf = true

/-- The contexts that a partition keeps outside the core. -/
def Part.Canonical (p : Part) : Prop := ∀ g ∈ p.paged, g.ctx.Canonical

/-- The contexts that a checkpoint keeps. -/
def SmallState.Canonical (v : SmallState) : Prop :=
  v.c.Canonical ∧ v.sh.Canonical ∧ v.p.Canonical ∧ ∀ p ∈ v.others, p.Canonical

/-- What every step keeps: every memory that the state holds, wherever a swap, a page or a checkpoint has put it, is in
canonical form. -/
structure State.Inv (s : State) : Prop where
  core : s.c.Canonical
  shadow : s.sh.Canonical
  paged : s.p.Canonical
  others : ∀ p ∈ s.others, p.Canonical
  global : s.chip.gmem.wf = true
  area : ∀ v, s.chip.area = some v → v.Canonical
  saved : ∀ v, s.chip.saved = some v → v.small.Canonical ∧ v.gmem.wf = true

/-- A step that ends in no refusal. -/
def Safe (s : State) : Prop := ∃ t, step s = .next t

/-! Completion. -/

/-- The instruction completes with this next state. -/
abbrev Completes (i : Instr) (s t : State) : Prop := exec i s = .next t

/-- The instruction completes, writes x to s[d] (R16 for s0) and goes on in sequence (R99); nothing else changes. -/
abbrev Writes (i : Instr) (s : State) (d : Reg) (x : Word) : Prop := exec i s = .next (s.setReg d x).adv

/-- The instruction completes, leaves u and goes on in sequence (R99). -/
abbrev Leaves (i : Instr) (s u : State) : Prop := exec i s = .next u.adv

/-- The instruction takes a trap outside an exchange phase: entry as R38 and R42 say, with these values. -/
abbrev Traps (i : Instr) (s : State) (c : Cause) (detail : Nat) (eaddr : Word) : Prop :=
  exec i s = .next (s.enter (causeWord c detail s.ir.len) s.c.pc eaddr s.ir.eword)

/-- The instruction waits at pc: it is issued again. -/
abbrev Waits (i : Instr) (s : State) : Prop := exec i s = .next { s with c := { s.c with stall := true } }

/-! Accesses to local memory (R93). -/

/-- The address names size bytes of local memory through a data view, aligned, and the code words that hold them have no
uncorrectable error; no exchange phase runs. -/
structure DataAccess (s : State) (ea : Word) (size : Nat) : Prop where
  compute : s.inExchange = false
  view : viewOf ea ≤ 6
  range : offOf ea + size ≤ 0xA0000
  scale : viewOf ea = 5 → s.c.sbase.toNat + offOf ea / 4 ≤ 0x9FFFF
  aligned : offOf ea % size = 0
  clean : ∀ w ∈ s.c.memErr, ¬(8 * w < offOf ea + size ∧ offOf ea < 8 * w + 8)

/-- The same of a bank that is allocated and that no queued operation names (view 0x8). -/
structure BankAccess (s : State) (ea : Word) (size : Nat) : Prop where
  compute : s.inExchange = false
  view : viewOf ea = 8
  range : offOf ea + size ≤ 0x10000
  aligned : offOf ea % size = 0
  allocated : s.c.accmap.getLsbD (offOf ea / 0x800) = true
  free : s.bankBusy (offOf ea / 0x800) = false
  clean : ∀ w ∈ s.c.accErr, ¬(8 * w < offOf ea + size ∧ offOf ea < 8 * w + 8)

/-- The number that n bytes from an address on hold, the lowest byte first (R43). -/
def littleEndian (m : Memory) (a : Nat) : Nat → Nat
  | 0 => 0
  | n + 1 => (m.read a).toNat + 256 * littleEndian m (a + 1) n

/-- The scalar loads and stores, with the address and the size that each computes (R92, R93). -/
def scalarAccess (s : State) : Instr → Option (Word × Nat)
  | .ldW _ a imm | .stW _ a imm => some (s.eaImm a imm, 4)
  | .ldB _ a b | .ldBu _ a b | .stB _ a b => some (s.eaIndex a b 1, 1)
  | .ldH _ a b | .ldHu _ a b | .stH _ a b => some (s.eaIndex a b 2, 2)
  | .ldWx _ a b | .stWx _ a b => some (s.eaIndex a b 4, 4)
  | _ => none

/-- The instructions among them that store, with their data register. -/
def scalarStore : Instr → Option Reg
  | .stW d _ _ | .stB d _ _ | .stH d _ _ | .stWx d _ _ => some d
  | _ => none

/-! Phase classes and privilege (R37, R74). -/

/-- Instructions of class C that nothing can keep from PHASE in an exchange phase: no check of R40 comes before it. -/
def computeOnly : Instr → Bool
  | .trap .. | .halt | .fence | .evwr .. | .hset .. | .hget .. | .hwaitf .. | .hwaite .. | .hadvc .. | .hadvp ..
  | .hreset .. | .barr .. | .btest .. | .bstat .. | .binv .. | .wmsg .. | .rmsg .. | .mcnt .. | .msend ..
  | .waita .. | .clra .. | .monn .. | .vadd .. | .vsub .. | .vmul .. | .vmin .. | .vmax .. | .vand .. | .vor ..
  | .vxor .. | .vfma .. | .vabs .. | .vneg .. | .vshl .. | .vshr .. | .vsra .. | .vsel .. | .vcmpeq .. | .vcmplt ..
  | .vcmple .. | .vexp .. | .vrcp .. | .vrsqrt .. | .vsat .. | .vcvt .. | .vpack .. | .vunpack .. | .vshuf ..
  | .vbcast .. | .vmov .. | .vredsum .. | .vredmax .. | .vredmin .. | .vscan .. | .vmovs .. | .vext .. | .kand .. | .kor .. | .kxor .. | .knot .. | .kmov .. | .kpop .. | .mwait .. | .aalloc .. | .afree ..
  | .aquery .. | .spill .. | .fill .. | .cfree .. | .cfence | .cset .. | .cget .. | .vpstat .. | .lstat ..
  | .lmargin .. | .cstep .. => true
  | _ => false

/-- Exchange instructions: class X. -/
def exchangeOnly : Instr → Bool
  | .xsend .. | .xrecv .. | .xrecva .. | .xmc .. | .xsel .. | .xend .. => true
  | _ => false

/-- Privileged instructions that nothing can keep from PRIV in U mode. -/
def serviceOnly : Instr → Bool
  | .eret | .snap .. | .xload .. | .wreg .. | .tvstage .. => true
  | _ => false

/-- The branches, and the condition under which each is taken (R94): signed comparisons with 0. -/
def branchTaken (x : Int) (a : Reg) (off : BitVec 26) : Instr → Option Bool
  | .bz b o => if b = a ∧ o = off then some (decide (x = 0)) else none
  | .bnz b o => if b = a ∧ o = off then some (decide (x ≠ 0)) else none
  | .bltz b o => if b = a ∧ o = off then some (decide (x < 0)) else none
  | .bgez b o => if b = a ∧ o = off then some (decide (0 ≤ x)) else none
  | .bgtz b o => if b = a ∧ o = off then some (decide (0 < x)) else none
  | .blez b o => if b = a ∧ o = off then some (decide (x ≤ 0)) else none
  | _ => none

/-- What a vector instruction may change beside v[d]: the sticky flags, and what completion in sequence changes. -/
def VectorCompletes (i : Instr) (s : State) (d : Reg) (x : VWord) (fl : Flags) : Prop :=
  exec i s = .next ((s.addFlags fl).setV d x).adv

/-- The element type of a data view but 0x0 and 0x5; u reads view 0x6 as UINT8 (R23, R125). -/
def viewElement (view : Nat) (u : Bool) : ElemType :=
  if view = 1 then .e4m3 else if view = 2 then .e5m2 else if view = 3 then .bf16 else if view = 4 then .f16
  else if u then .u8 else .i8

/-- A converting access of n elements through view 0x1 to 0x6 passes its checks (R124, R125): compute phase, U only with
view 0x6, every byte (and scale byte) within local memory and free of uncorrectable errors, elements aligned. -/
structure ConvAccess (s : State) (ea : Word) (n : Nat) (u : Bool) : Prop where
  compute : s.inExchange = false
  view : 1 ≤ viewOf ea ∧ viewOf ea ≤ 6
  u6 : u = true → viewOf ea = 6
  range : if viewOf ea = 5 then offOf ea + n / 2 ≤ 0xA0000 ∧ s.c.sbase.toNat + offOf ea / 4 + n / 8 ≤ 0xA0000
    else offOf ea + n * (viewElement (viewOf ea) false).bytes ≤ 0xA0000
  aligned : if viewOf ea = 5 then offOf ea % 4 = 0 else offOf ea % (viewElement (viewOf ea) false).bytes = 0
  clean : s.c.memErr = []

/-- Element k of the elements that a converting load reads, as a lane of type t with its flags (R47, R50, R51, R125). -/
def convElement (s : State) (t : ElemType) (ea : Word) (sat u : Bool) (k : Nat) : Nat × Flags :=
  let off := offOf ea
  if viewOf ea = 5 then
    let code := (s.c.mem.read (off + k / 2)).toNat / 16 ^ (k % 2) % 16
    let scale := (s.c.mem.read (s.c.sbase.toNat + off / 4 + k / 8)).toNat
    fromVal t sat s.ftz (b4Value scale code)
  else
    let e := viewElement (viewOf ea) u
    convert t e sat s.ftz (littleEndian s.c.mem (off + k * e.bytes) e.bytes)

/-! Handles (R30, R31). -/

/-- The fields that R31 accepts: a base on a 64-byte line of a data view, a slot size that is a multiple of 64 from 64 to
65,536, a count that is a power of two up to 4,096, all slots within local memory, no more slots filled than there are. -/
def HandleFields (h : Handle) : Prop :=
  viewOf h.base ≤ 6 ∧ h.base.toNat % 64 = 0 ∧
  h.size.toNat % 64 = 0 ∧ 64 ≤ h.size.toNat ∧ h.size.toNat ≤ 65536 ∧
  (∃ k, k ≤ 12 ∧ h.count.toNat = 2 ^ k) ∧
  offOf h.base + h.size.toNat * h.count.toNat ≤ 0xA0000 ∧ (h.tail.toNat + 65536 - h.head.toNat) % 65536 ≤ h.count.toNat

/-- The handle that the four words at an address describe (R31). -/
def descriptorAt (m : Memory) (a : Nat) : Handle :=
  { base := BitVec.ofNat 32 (littleEndian m a 4)
    size := BitVec.ofNat 32 (littleEndian m (a + 4) 4)
    count := BitVec.ofNat 32 (littleEndian m (a + 8) 4)
    head := BitVec.ofNat 16 (littleEndian m (a + 12) 2)
    tail := BitVec.ofNat 16 (littleEndian m (a + 14) 2) }

/-- An operand names size bytes of local memory through view 0x0, aligned to their size, free of uncorrectable errors. -/
structure RawBlock (s : State) (ea : Word) (size align : Nat) : Prop where
  view : viewOf ea = 0
  range : offOf ea + size ≤ 0xA0000
  aligned : offOf ea % align = 0
  clean : ∀ w ∈ s.c.memErr, ¬(8 * w < offOf ea + size ∧ offOf ea < 8 * w + 8)

/-! The matrix slice (R128 to R135). -/

/-- A tile that an instruction may name: an even bank where it is 32-bit, and every bank of it allocated. -/
structure TileReady (s : State) (t : AccType) (b : Reg) : Prop where
  even : t.wide = true → b.val % 2 = 0
  allocated : ∀ x ∈ tileBanks t b, x < 32 ∧ s.c.accmap.getLsbD x = true

/-- A ring that an instruction may read: set, slots of 2,048 bytes, and a filled slot that no queued instruction pops; through
view 0x5 its scale bytes lie within local memory. -/
structure RingReady (s : State) (h : HReg) : Prop where
  fields : HandleFields (s.handle h)
  size : 2048 ≤ (s.handle h).size.toNat
  filled : s.popsOwed h < ((s.handle h).tail.toNat + 65536 - (s.handle h).head.toNat) % 65536
  scale : viewOf (s.handle h).base = 5 → s.c.sbase.toNat + s.nextSlot h / 4 + 512 ≤ 0xA0000

/-- Nothing holds an instruction back that names these banks: no gang, a queue entry, no head-unit operation on a bank, and
the governor's window covers it after those that this core has issued and not started (R213). -/
structure SliceReady (s : State) (i : Instr) : Prop where
  compute : s.inExchange = false
  alone : s.c.status.toNat / 256 % 4 = 0
  room : s.c.mx.length < 4
  head : s.headBusy (mxBanks i) = false
  slew : isMma i = true → s.t.slew = 0 ∨ s.slewRoll.t.slewCur + (s.c.mx.filter fun q => isMma q.op && !q.started).length + 1 ≤
    s.slewRoll.t.slewPrev + s.t.slew.toNat

/-- The instruction enters the queue with this entry; nothing else changes but the row's wires and what completion in sequence
changes. -/
def Enqueues (i : Instr) (s : State) (q : MxOp) : Prop :=
  ∃ row, exec i s = .next (State.adv { s with
    c := { s.c with mx := s.c.mx ++ [q] }
    row := row })

/-- Element n of a tile, by its bytes in the banks (R130). -/
def tileElement (m : Memory) (t : AccType) (b : Reg) (n : Nat) : Nat :=
  littleEndian m (0x800 * b.val + t.size * n) t.size

/-- The two's complement reading of the low w bits (R44). -/
def signedBits (w x : Nat) : Int := if x % 2 ^ w < 2 ^ (w - 1) then ((x % 2 ^ w : Nat) : Int) else (x % 2 ^ w : Nat) - 2 ^ w

/-- Byte k of row or column r of a slot as INT8 or UINT8. -/
def slotByte (m : Memory) (off r k : Nat) (u : Bool) : Int :=
  let x := (m.read (off + 64 * r + k)).toNat
  if u then x else signedBits 8 x

/-- A number rounded to nearest, ties to even, after division by 2^sh (R134). -/
def roundedShift (x : Int) (sh : Nat) : Int :=
  let q := x / 2 ^ sh
  let r := x % 2 ^ sh
  if 2 * r < 2 ^ sh ∨ (2 * r = 2 ^ sh ∧ q % 2 = 0) then q else q + 1

/-- What an update leaves of a barrier (R166): it flips once the arrivals equal EXPA and the bytes reach EXPB. -/
def flipped (b : Barrier) : Barrier :=
  if b.pena.toNat = b.expa.toNat ∧ b.expb.toNat ≤ b.penb.toNat then { b with ph := !b.ph, pena := 0, penb := 0 } else b

/-! The copy engine (R219 to R235, R249 to R252). -/

/-- A request that passes R252: each field within its range, and the local block or ring that it names. -/
structure PushOk (s : State) (q : CopyCmd) : Prop where
  kind : q.kind < 7
  len : q.len ≠ 0
  line : q.va % 64 = 0
  top : q.va + 64 * q.len ≤ 2 ^ 48
  unused : (q.hv = false → q.kind ≠ 5 → q.fn = 0) ∧ (q.bv = false → q.barName.val = 0) ∧ (q.hv = true → q.w1 = 0)
  rows : q.rows = true → q.rs ≠ 0 ∧ q.rs % 64 = 0 ∧ q.stride % 64 = 0 ∧ q.rb.toNat % 64 = 0
  image : q.kind = 4 → q.geoOk = true
  fn : q.kind = 5 → s.chip.fnSlots.contains q.fn = true
  ring : q.hv = true → q.kind ≠ 5 ∧ q.kind ≠ 6 ∧ HandleFields (s.handle q.hreg) ∧
    q.extent % (s.handle q.hreg).size.toNat = 0 ∧
    q.extent / (s.handle q.hreg).size.toNat ≤ (s.handle q.hreg).count.toNat
  block : q.hv = false → viewOf q.w1 ≤ 6 ∧ offOf q.w1 % 64 = 0 ∧ offOf q.w1 + q.extent ≤ 0xA0000
  scale :
    let h := s.handle q.hreg
    (q.hv = false → viewOf q.w1 = 5 → s.c.sbase.toNat + (offOf q.w1 + q.extent - 1) / 4 ≤ 0x9FFFF) ∧
    (q.hv = true → viewOf h.base = 5 →
      s.c.sbase.toNat + (offOf h.base + h.size.toNat * h.count.toNat - 1) / 4 ≤ 0x9FFFF)

/-- The next beat of the command at place input.n can be made, with nothing read ahead: it goes on, has begun or may begin,
and no slot holds it. -/
structure FrontReady (s : State) (q : CopyCmd) : Prop where
  cmd : s.cmd s.input.n = some q
  front : s.input.op = 0 ∧ s.input.flag2 = false
  compute : s.inExchange = false
  going : q.stop = none ∧ q.pos < q.total
  begun : q.begun = true ∨ (q.kind ≠ 6 ∧ s.mayBegin s.input.n = true)
  ready : s.cmdReady q = true

/-- A data beat that the engine can make: its beat lies at va and translates to a beat of LPDDR 6 without a pending error, its
local side is raw and clean, and no later row of a scatter has been written there. -/
structure BeatReady (s : State) (q : CopyCmd) (va pa key : Nat) : Prop where
  front : FrontReady s q
  beat : q.beatAt = .data va
  place : s.xlate q.asid va q.writes q.svc (q.kind == 5) = .go (.lpddr pa key)
  line : pa % 64 = 0
  sound : s.chip.gerr.contains (pa / 64) = false ∧ s.chip.soft.contains (pa / 64) = false
  pattern : q.pat.length = if q.kind = 6 then 64 else 0
  view : (s.localAt q (State.localPos q q.pos)).1 ≠ 5
  clean : s.c.memErr = []
  late : ∀ w ∈ q.wrote, w.1 = .lpddr pa key → w.2 ≤ q.pos

/-- A command after its front beat: begun and one beat on; the places that a scatter wrote are kept while a beat is put aside;
with its last beat the step in which it fell due is noted. -/
def beaten (q : CopyCmd) (wrote : List (Region × Nat)) (tick : Nat) : CopyCmd :=
  let n : CopyCmd := { q.next with begun := true, wrote := if q.aside = [] then [] else wrote }
  if q.aside = [] ∧ q.total ≤ q.pos + 1 ∧ q.fell = 0 then { n with fell := tick + 1 } else n

/-- What a beat of a load, gather or image copy does: 64 bytes of LPDDR 6, read under the key, lie at the local place; no
other byte of local memory changes, nor global memory; the command is one beat on. -/
def BeatLoads (i : Instr) (s : State) (q : CopyCmd) (pa key : Nat) : Prop :=
  let at_ := (s.localAt q (State.localPos q q.pos)).2
  ∃ t, Completes i s t ∧ t.c.copy = s.c.copy.set s.input.n (beaten q q.wrote s.tick) ∧ t.chip = s.chip ∧
    t.c.mem.readBytes at_ 64 = s.gread pa 64 key ∧
    ∀ k, k < at_ ∨ at_ + 64 ≤ k → t.c.mem.read k = s.c.mem.read k

/-- What a beat of a store, scatter or fill does: the bytes lie in LPDDR 6 and read back under the key; no other byte of
it changes, nor local memory; the command is one beat on. -/
def BeatStores (i : Instr) (s : State) (q : CopyCmd) (pa key : Nat) (bs : List Byte) : Prop :=
  let wrote := if q.kind = 3 then (.lpddr pa key, q.pos) :: q.wrote else q.wrote
  ∃ t, Completes i s t ∧ t.c.copy = s.c.copy.set s.input.n (beaten q wrote s.tick) ∧ t.c.mem = s.c.mem ∧
    t.gread pa 64 key = bs ∧
    ∀ k, k < pa ∨ pa + 64 ≤ k → t.chip.gmem.read k = s.chip.gmem.read k

/-! The exchange unit and the trees (R145 to R164, R178 to R187). -/

/-- An exchange instruction whose offset is still to come in the running segment and matches a slot of this core. -/
structure SlotReady (s : State) (e : Exch) (off : Nat) (fits : Slot → Prop) : Prop where
  phase : s.inExchange = true
  unit : s.c.exch = some e
  time : s.xc ≤ e.xr + off
  order : e.nextOff ≤ off
  inside : off < e.seg.len
  slot : ∃ x ∈ e.seg.slots, x.core = s.c.lcore.toNat ∧ x.off = off ∧ fits x

/-- The block that an exchange instruction names: view 0x0, inside local memory, aligned to its size or to a beat. -/
structure ExchBlock (s : State) (a : Reg) (len : Nat) : Prop where
  view : viewOf (s.reg a) = 0
  range : offOf (s.reg a) + len ≤ 0xA0000
  aligned : offOf (s.reg a) % Nat.min 64 len = 0

/-- The exchange unit after an instruction at an offset: time has come to it, and what the instruction did is in the unit. -/
def unitAt (s : State) (off : Nat) (e : Exch) : State :=
  { s.advanceTo (e.xr + off) with c := { (s.advanceTo (e.xr + off)).c with exch := some { e with nextOff := off + 1 } } }

/-- What an exchange phase of this core leaves when it ends: the unit is empty, time is at the end of the segment at least,
and each receive that lacks a beat has its bit in c.xmiss; then the compute phase starts. -/
structure PhaseCloses (s t : State) (e : Exch) (swap : Bool) : Prop where
  unit : t.c.exch = none
  time : t.xc = Nat.max s.xc (e.xr + e.seg.len)
  stop : t.c.fetchStop = false
  buffer : t.c.stale = []
  memory : t.c.mem = s.c.mem
  missed : ∀ b, t.c.xmiss.getLsbD b = (s.c.xmiss.getLsbD b || decide (b < 32 ∧ ∃ k ∈ e.claims,
    k.missed = false ∧ Nat.min 31 k.idx = b ∧ ∃ j, j < Nat.max 1 (k.len / 64) ∧ j ∉ k.got))
  quiet : s.c.deferred = none ∨ s.c.run ≠ .running ∨ swap = true →
    t.c.pc = s.c.pc ∧ t.c.status = s.c.status ∧ t.c.deferred = s.c.deferred
  trapped : ∀ d, s.c.deferred = some d → s.c.run = .running → swap = false → s.c.status.getLsbD 1 = true →
    t.c.pc = s.c.tvec ∧ t.c.cause = d.cause ∧ t.c.eaddr = d.eaddr ∧ t.c.eword = d.eword ∧
    t.c.epc = d.epc.getD s.c.pc ∧ t.c.deferred = none

/-- A core with no exchange phase running and no instruction waiting. -/
structure Fresh (s : State) : Prop where
  compute : s.inExchange = false
  free : s.c.pend = .none

/-! The head unit (R261 to R288). -/

/-- A state that begins at a bank, with a place in the queue for an operation on these banks. -/
structure HeadReady (s : State) (e : DirEntry) (bank : Nat) (banks : List Nat) : Prop where
  compute : s.inExchange = false
  state : s.stateAt bank = some e
  room : s.c.head.length < 4
  slice : s.mxBusy banks = false

/-- An address operand: view 0x0, n bytes inside local memory, aligned (R279). -/
structure Operand (ea : Word) (n align : Nat) : Prop where
  view : viewOf ea = 0
  range : offOf ea + n ≤ 0xA0000
  aligned : offOf ea % align = 0

/-- The operation enters the head unit's queue. -/
abbrev HeadTakes (i : Instr) (s : State) (q : HeadOp) : Prop := Leaves i s { s with c := { s.c with head := s.c.head ++ [q] } }

/-- The size of a token block, and where block t of a state begins in the banks (R263). -/
def blockSize (cap : Nat) : Nat := 64 * ((32 + 8 * cap + 63) / 64)
def tokenPlace (e : DirEntry) (t : Nat) : Nat := 0x800 * e.bank + 64 + t * blockSize e.cap

/-- Word i of a token block in the banks. -/
def tokenWord (s : State) (e : DirEntry) (t i : Nat) : Nat := littleEndian s.c.acc (tokenPlace e t + 4 * i) 4

/-- The n pairs that lie from an address on: a logit and an index each. -/
def pairsAt (m : Memory) (a n : Nat) : List Pair :=
  (List.range n).map fun j => (littleEndian m (a + 8 * j) 4, littleEndian m (a + 8 * j + 4) 4)

/-- Token t as its block holds it (R263). -/
def tokenOf (s : State) (e : DirEntry) (t : Nat) : Token :=
  { m := tokenWord s e t 0
    s := tokenWord s e t 1
    lab := tokenWord s e t 2
    lid := tokenWord s e t 3
    tst := tokenWord s e t 5 % 256
    heap := pairsAt s.c.acc (tokenPlace e t + 32) (Nat.min (tokenWord s e t 4) e.cap) }

/-- The block of token t holds k, and 0 in every byte that R263 does not name and from the end of the heap on. -/
def TokenIs (s : State) (e : DirEntry) (t : Nat) (k : Token) : Prop :=
  tokenWord s e t 0 = k.m ∧ tokenWord s e t 1 = k.s ∧ tokenWord s e t 2 = k.lab ∧ tokenWord s e t 3 = k.lid ∧
  tokenWord s e t 4 = k.heap.length ∧ tokenWord s e t 5 = k.tst ∧ tokenWord s e t 6 = 0 ∧ tokenWord s e t 7 = 0 ∧
  pairsAt s.c.acc (tokenPlace e t + 32) k.heap.length = k.heap ∧
  ∀ j, 32 + 8 * k.heap.length ≤ j → j < blockSize e.cap → s.c.acc.read (tokenPlace e t + j) = 0

/-- No byte of the banks changed but those of the token blocks of a state. -/
def OnlyTokens (s t : State) (e : DirEntry) : Prop :=
  ∀ k, k < tokenPlace e 0 ∨ tokenPlace e e.t ≤ k → t.c.acc.read k = s.c.acc.read k

/-- An operation's status goes into the head status word and into STICKY (R278). -/
def Notes (s t : State) (st : Nat) : Prop :=
  t.c.headStatus = s.c.headStatus ||| BitVec.ofNat 8 st ∧ t.c.vpst = s.c.vpst ||| BitVec.ofNat 32 (256 * st)

/-! The arithmetic of R270 to R277: sums, differences, products, comparisons and exponentials of FP32 lanes without saturation or
flushing (FloatLaneArithmetic and ConversionsAndExponential say what those are). -/

namespace Fp32

def sum (x y : Nat) : Nat := (laneAdd .f32 false false x y).1
def diff (x y : Nat) : Nat := (laneSub .f32 false false x y).1
def prod (x y : Nat) : Nat := (laneMul .f32 false false x y).1
def above (x y : Nat) : Bool := laneLt .f32 false y x
def equal (x y : Nat) : Bool := laneEq .f32 false x y
def nan (x : Nat) : Bool := !laneEq .f32 false x x

/-- 1 where x equals the maximum, else exp_k of their difference. -/
def factor (x top : Nat) : Nat := if equal x top then 0x3F800000 else (laneExp .f32 false (diff x top)).1

end Fp32

/-- R269: pair p comes before pair q. -/
def keyBefore (p q : Pair) : Bool := Fp32.above p.1 q.1 || (Fp32.equal p.1 q.1 && decide (p.2 < q.2))

/-- R269: a pair added to pairs in key order goes behind every one that it does not come before. -/
def addPair (h : List Pair) (p : Pair) : List Pair :=
  h.takeWhile (fun q => !keyBefore p q) ++ p :: h.dropWhile fun q => !keyBefore p q

/-- R269: neither a NaN nor -Inf enters a heap. -/
def entering (p : Pair) : Bool := !Fp32.nan p.1 && p.1 != 0xFF800000

/-- R271: the heap of threshold mode below a maximum: the old pairs and the new that reach the threshold. -/
def keptBelow (m delta : Nat) (old new : List Pair) : List Pair :=
  let thr := if delta = 0x7F800000 then 0xFF800000 else Fp32.diff m delta
  let reaches (p : Pair) : Bool := Fp32.above p.1 thr || Fp32.equal p.1 thr
  (new.filter fun p => entering p && reaches p).foldl addPair (old.filter reaches)

/-- R270: one logit x at index v folded into a token; the heap is rebuilt here in top-K mode only. -/
def logitFolded (e : DirEntry) (k : Token) (x v : Nat) : Token :=
  let top := if Fp32.above x k.m then x else k.m
  let taken : Token := if Fp32.nan x ∨ x = 0xFF800000 then k else { k with
    m := top
    s := Fp32.sum (Fp32.prod k.s (Fp32.factor k.m top)) (Fp32.factor x top)
    heap := if e.mode = 1 then k.heap else (addPair k.heap (x, v)).take e.cap }
  if v = k.lid then { taken with lab := if Fp32.nan x then 0x7FC00000 else x } else taken

/-- R270, R271: a row of logits, the first at index v, folded into a token. -/
def rowFolded (e : DirEntry) (row : List Nat) (v : Nat) (k : Token) : Token :=
  let ps : List Pair := row.mapIdx fun j x => (x, v + j)
  let r := ps.foldl (fun k p => logitFolded e k p.1 p.2) k
  if e.mode = 1 then { r with heap := keptBelow r.m e.delta.toNat k.heap ps } else r

/-- R278: what folding a row raises: NAN, and INF. -/
def rowStatus (row : List Nat) : Nat :=
  (if row.any Fp32.nan then 1 else 0) ||| if row.any fun x => x % 2 ^ 31 == 0x7F800000 then 8 else 0

/-- R273: a token of a record, its words w and its pairs, merged into token k, with the status that this raises; TST is not in it. -/
def tokenMerged (e : DirEntry) (k : Token) (w : Nat → Nat) (pairs : List Pair) : Token × Nat :=
  if e.cap < w 6 then (k, 16)
  else
    let nan := Fp32.nan k.m || Fp32.nan k.s || Fp32.nan (w 0) || Fp32.nan (w 1)
    let top := if Fp32.above (w 0) k.m then w 0 else k.m
    let m := if nan then 0x7FC00000 else top
    let ours := k.heap.filter fun p => !Fp32.nan p.1
    ({ k with
        m := m
        s := if nan then 0x7FC00000
          else Fp32.sum (Fp32.prod k.s (Fp32.factor k.m top)) (Fp32.prod (w 1) (Fp32.factor (w 0) top))
        lab := if w 3 ≠ 0xFF800000 ∧ k.lab = 0xFF800000 then w 3 else k.lab
        heap := if e.mode = 1 then keptBelow m e.delta.toNat ours pairs
          else ((pairs.filter entering).foldl addPair ours).take e.cap },
      (if nan || (k.heap ++ pairs).any (fun p => Fp32.nan p.1) then 1 else 0) |||
        (if w 3 ≠ 0xFF800000 ∧ k.lab ≠ 0xFF800000 then 2 else 0) ||| if w 5 ≠ k.lid then 4 else 0)

/-- R277: an element of the gradient, of a logit, the lse of its token, and whether its index is the label. -/
def gradient (x lse : Nat) (label : Bool) : Nat :=
  let y := Fp32.factor x lse
  (convert .bf16 .f32 false false (if label then Fp32.diff y 0x3F800000 else y)).1

/-! Grants (R292 to R311). -/

/-- The power units that the active grants that satisfy a test hold (R297). -/
def heldGu (s : State) (p : Grant → Prop) [DecidablePred p] : Nat :=
  ((s.chip.grants.filter fun g => decide (g.state ≠ .dark ∧ p g)).map Grant.budget).sum

/-- A request for a tile's lane with nothing malformed about it (R306). -/
structure RequestOk (s : State) (q : GrantReq) (dests : List Nat) : Prop where
  power : 1 ≤ q.gu ∧ q.gu ≤ 400
  mode : q.mode ≤ 2
  margin : q.margin ≤ 255
  plain : q.reserved = false ∧ q.lanex = false
  source : q.src < 144 ∧ q.src ∈ s.p.cfg.tiles
  fan : 1 ≤ q.f ∧ q.f ≤ 16
  dests : dests.Nodup ∧ q.src ∉ dests ∧ ∀ x ∈ dests, x ∈ s.p.cfg.tiles

/-- The state with one grant changed. -/
def withGrant (s : State) (g h : Grant) : State :=
  { s with chip := { s.chip with grants := s.chip.grants.map fun x => if x.id = g.id ∧ x.part = g.part then h else x } }

/-! The fabric engine and the links (R317 to R350). -/

/-- Nothing is about to move in the fabric engine: no put waits for an allowance, no answer is owed, no port drains or has
something that waits for room, no tvcommit of another core waits, and the operations have numbers below the next one; the
chip takes part in traffic. -/
structure FabricCalm (s : State) : Prop where
  compute : s.inExchange = false
  waiting : ∀ o ∈ s.chip.ops, o.state ≠ .waitAllow ∧ o.id < s.chip.nextOp
  owed : s.chip.owed = []
  ports : ∀ p, (s.port p).draining = false ∧ (s.port p).queue = []
  turns : s.chip.commitBy = none ∧ s.chip.later = []
  number : s.chip.num.toNat < 4096

/-- A request of R329 in 16 bytes at the address in s[a], as an operation of a kind that an engine may start. -/
structure RequestAt (s : State) (a : Reg) (kind : FabKind) (peer win off laddr len tag : Nat) : Prop where
  block : RawBlock s (s.reg a) 16 16
  word0 : littleEndian s.c.mem (offOf (s.reg a)) 4 = peer + 2 ^ 16 * win
  word1 : littleEndian s.c.mem (offOf (s.reg a) + 4) 4 = off
  word2 : littleEndian s.c.mem (offOf (s.reg a) + 8) 4 = laddr
  word3 : littleEndian s.c.mem (offOf (s.reg a) + 12) 4 = len + 2 ^ 16 * tag
  fields : peer < 2 ^ 16 ∧ win < 2 ^ 12 ∧ off < 2 ^ 32 ∧ tag < 2 ^ 16
  units : off % 16 = 0 ∧ laddr % 16 = 0 ∧ len % 16 = 0 ∧ 0 < len ∧ len < 2 ^ 16
  local_ : if kind = .allow then laddr = 0 else laddr + len ≤ 0xA0000
  room : s.chip.ops.length < 64

/-- The state with one port changed. -/
def withPort (s : State) (p : Fin 32) (x : Port) : State := { s with chip := { s.chip with ports := s.chip.ports.set p x } }

/-- The port after it has sent n frames more: each counts, and where one of them is an even frame at or after the boundary of
a request that has been acknowledged, the port sends in the new mode from it on (R322, R323). -/
def sending (x : Port) (n : Nat) : Port :=
  let reached (r : FecReq) : Bool :=
    r.closed && (List.range n).any fun i => (x.count + i) % 2 == 0 && decide (r.f ≤ x.count + i)
  { x with
    count := x.count + n
    fec := ((x.fecReq.filter reached).map (·.mode)).getD x.fec
    fecReq := if x.fecReq.any reached then none else x.fecReq }

/-- The state after a frame without a packet has left by a port: it counts too (R322). -/
def controlled (s : State) (p : Fin 32) (o : Out) : State :=
  let t := withPort s p (sending (s.port p) 1)
  { t with out := t.out ++ [o] }

/-- The state after lines have left by a port where nothing waits, each in a frame of its own, as far as its
retransmission buffer of 64 KiB has room for frames of 340 bytes; the others wait (R321, R322). One packet to a frame is the
model's choice (log 35). -/
def framed (s : State) (p : Fin 32) (ls : List Line) : State :=
  let x := s.port p
  let room := 65536 / 340 - x.frames.length
  let go := ls.take room
  let y : Port := { sending x go.length with
    frames := x.frames ++ go.mapIdx fun i l => { seq := x.txSeq + i, line := l }
    queue := ls.drop room
    txSeq := x.txSeq + go.length }
  { withPort s p y with out := s.out ++ go.mapIdx fun i l => .frame p.val (x.txSeq + i) l }

/-- The parts of at most 256 bytes in which bytes are carried between chips (R324): their places and their bytes. -/
def parts (bytes : List Byte) : List (Nat × List Byte) :=
  (List.range (Nat.max 1 ((bytes.length + 255) / 256))).map fun i => (256 * i, (bytes.drop (256 * i)).take 256)

/-- The state in which an operation of the fabric engine has left by a port in packets. -/
def sentBy (s : State) (p : Fin 32) (o : FabOp) (ks : List Packet) : State :=
  let t := framed s p (ks.map .packet)
  { t with chip := { t.chip with ops := t.chip.ops ++ [o], nextOp := t.chip.nextOp + 1 } }

/-- The waiting instruction ends by its time-out: its result is written at its own place, and time has come to the limit. -/
def TimedOut (i : Instr) (s : State) (f : Fetched) (from_ limit : Nat) (d : Reg) (x : Word) : Prop :=
  let t := ({ s with ir := f } : State).advanceTo (from_ + limit)
  Completes i s (t.setReg d x).adv

/-! Collectives (R341 to R343). -/

/-- Collective input.n may make its next step, whose 32 bytes lie in one clean beat of LPDDR 6 and hold these words. -/
structure StepReady (s : State) (k : Coll) (w : Nat → Nat) : Prop where
  ready : s.collReady s.input.n = some k
  own : k.core = none ∧ k.lid = s.c.lid
  unique : s.chip.colls = [k]
  place : ∃ pa key, s.runOf k false (State.runBeats (k.pva + 32 * k.next) 32) = .go [.lpddr pa key] ∧
    s.chip.gerr.contains (pa / 64) = false ∧ s.chip.soft.contains (pa / 64) = false ∧
    ∀ i, i < 8 → leNat (((s.gread pa 64 key).drop ((k.pva + 32 * k.next) % 64 + 4 * i)).take 4) = w i

/-- The collective has finished a step with OK. -/
def stepDone (s : State) (k : Coll) : State :=
  { s with chip := { s.chip with colls := [{ k with busy := false, status := 0, frozen := false, next := k.next + 1 }] } }

/-! Launches (R190 to R201). -/

/-- Nothing of a launch is resident. -/
structure NoLaunch (s : State) : Prop where
  running : s.p.running = none
  prepared : s.p.prepared = none
  shadowed : s.p.shadowed = none

/-- The context with which a launch starts on this core: the registers R17 and R197 set, everything else at its reset value,
the banks of the half it takes over, and the errors that the copies left. -/
def launchContext (old : Ctx) (l : Launch) (logical ncore entry part : Nat) (asid : Byte) (cfg : PartSettings)
    (mem : Memory) (memErr : List Nat) : Ctx :=
  { ({} : Ctx) with
    run := .running
    lid := l.id
    s := (((({} : Ctx).s.set 1 0x100).set 2 (BitVec.ofNat 32 logical)).set 3 (BitVec.ofNat 32 ncore)).set 30 0xA0000
    pc := BitVec.ofNat 32 entry
    status := 2
    lcore := BitVec.ofNat 32 logical
    ncore := BitVec.ofNat 32 ncore
    part := BitVec.ofNat 32 part
    stragg := cfg.stragg
    mcheck := if cfg.mcheck then 1 else 0
    mem := mem
    memErr := memErr
    acc := old.acc
    accErr := old.accErr
    asid := asid }

/-! Vector lanes (R115 to R122). -/

/-- The vector instructions that write v[d] lane by lane: type, destination, mask, and the result of each lane with the
flags it raises, by the tables of R119 to R122; without a mask every lane is active. -/
def laneResult (s : State) : Instr → Option (ElemType × Reg × VMod × (Nat → Nat × Flags))
  | .vadd t d a b m => some (t, d, m, fun i => laneAdd t m.sat s.ftz (laneAt t (s.vreg a) i) (laneAt t (s.vreg b) i))
  | .vsub t d a b m => some (t, d, m, fun i => laneSub t m.sat s.ftz (laneAt t (s.vreg a) i) (laneAt t (s.vreg b) i))
  | .vmul t d a b m => some (t, d, m, fun i => laneMul t m.sat s.ftz (laneAt t (s.vreg a) i) (laneAt t (s.vreg b) i))
  | .vmin t d a b m => some (t, d, m, fun i => laneMin t s.ftz (laneAt t (s.vreg a) i) (laneAt t (s.vreg b) i))
  | .vmax t d a b m => some (t, d, m, fun i => laneMax t s.ftz (laneAt t (s.vreg a) i) (laneAt t (s.vreg b) i))
  | .vand t d a b m => some (t, d, m, fun i => (laneAt t (s.vreg a &&& s.vreg b) i, 0))
  | .vor t d a b m => some (t, d, m, fun i => (laneAt t (s.vreg a ||| s.vreg b) i, 0))
  | .vxor t d a b m => some (t, d, m, fun i => (laneAt t (s.vreg a ^^^ s.vreg b) i, 0))
  | .vfma t d a b c m => some (t, d, m, fun i =>
      laneFma t m.sat s.ftz (laneAt t (s.vreg a) i) (laneAt t (s.vreg b) i) (laneAt t (s.vreg c) i))
  | .vabs t d a m => some (t, d, m, fun i => laneAbs t m.sat s.ftz (laneAt t (s.vreg a) i))
  | .vneg t d a m => some (t, d, m, fun i => laneNeg t m.sat s.ftz (laneAt t (s.vreg a) i))
  | .vshl t d a b m => some (t, d, m, fun i => (laneAt t (s.vreg a) i * 2 ^ (laneAt t (s.vreg b) i % t.width), 0))
  | .vshr t d a b m => some (t, d, m, fun i => (laneAt t (s.vreg a) i / 2 ^ (laneAt t (s.vreg b) i % t.width), 0))
  | .vsra t d a b m => some (t, d, m, fun i => laneSra t (laneAt t (s.vreg a) i) (laneAt t (s.vreg b) i))
  | .vsel t d a b c => some (t, d, noMask, fun i =>
      (laneAt t (if (s.kreg c).getLsbD i then s.vreg a else s.vreg b) i, 0))
  | .vexp t d a m => some (t, d, m, fun i => laneExp t s.ftz (laneAt t (s.vreg a) i))
  | .vrcp t d a m => some (t, d, m, fun i => laneRcp t s.ftz (laneAt t (s.vreg a) i))
  | .vrsqrt t d a m => some (t, d, m, fun i => laneRsqrt t s.ftz (laneAt t (s.vreg a) i))
  | .vsat t d a b m => some (t, d, m, fun i => laneSat t s.ftz (laneAt t (s.vreg a) i) (laneAt t (s.vreg b) i))
  | .vcvt td ts sat d a => some (td, d, noMask, fun i =>
      if i < Nat.min td.lanes ts.lanes then convert td ts sat s.ftz (laneAt ts (s.vreg a) i) else (0, 0))
  | .vpack td ts sat d a b => some (td, d, noMask, fun i => convert td ts sat s.ftz
      (if i < ts.lanes then laneAt ts (s.vreg a) i else laneAt ts (s.vreg b) (i - ts.lanes)))
  | .vunpack td ts sat d a h => some (td, d, noMask, fun i =>
      convert td ts sat s.ftz (laneAt ts (s.vreg a) (h.toNat * td.lanes + i)))
  | .vshuf t d a b m => some (t, d, m, fun i => (laneAt t (s.vreg a) (laneAt t (s.vreg b) i % t.lanes), 0))
  | .vbcast t d a m => some (t, d, m, fun _ => ((s.reg a).toNat, 0))
  | .vmov t d a m => some (t, d, m, fun i => (laneAt t (s.vreg a) i, 0))
  | .vext t d a b m => some (t, d, m, fun i =>
      (if (s.reg b).toNat + i < t.lanes then laneAt t (s.vreg a) ((s.reg b).toNat + i) else 0, 0))
  | _ => none

/-- The number that a lane of an integer type holds (R44). -/
def laneNumber (t : ElemType) (x : Nat) : Int :=
  if t.isS ∧ 2 ^ (t.width - 1) ≤ x then (x : Int) - 2 ^ t.width else x

/-- A number as the bits of a lane: clamped to the type's range with SAT, else its low bits (R44). -/
def laneBits (t : ElemType) (sat : Bool) (z : Int) : Nat :=
  let lo : Int := if t.isS then -(2 ^ (t.width - 1)) else 0
  let hi : Int := if t.isS then 2 ^ (t.width - 1) - 1 else 2 ^ t.width - 1
  ((if sat then Max.max lo (Min.min hi z) else z) % 2 ^ t.width).toNat

/-! Floating-point numbers (R45, R46, R50 to R57). -/

/-- What a pattern of a floating-point format holds: a NaN, an infinity, or a sign and a number in units of the format's
smallest subnormal. -/
inductive Held where
  | nan
  | inf (neg : Bool)
  | num (neg : Bool) (n : Nat)
  deriving DecidableEq, Repr

namespace Held

/-- The signed number; 0 for a NaN or an infinity. -/
def int : Held → Int
  | .num neg n => if neg then -(n : Int) else n
  | _ => 0

/-- The sign. -/
def neg : Held → Bool
  | .num s _ | .inf s => s
  | .nan => false

/-- The same with the other sign. -/
def opposite : Held → Held
  | .num s n => .num (!s) n
  | .inf s => .inf !s
  | .nan => .nan

/-- The same number in units k times smaller. -/
def finer (k : Nat) : Held → Held
  | .num s n => .num s (n * k)
  | h => h

/-- The exact product, in the product of the units (R55): NaN of a NaN, and of 0 and an infinity. -/
def times : Held → Held → Held
  | .num a m, .num b n => .num (a != b) (m * n)
  | .inf a, .num b n | .num a n, .inf b => if n = 0 then .nan else .inf (a != b)
  | .inf a, .inf b => .inf (a != b)
  | _, _ => .nan

/-- The exact sum of values in one unit (R55): NaN of a NaN and of infinities of both signs, an infinity of that sign of
others, and of numbers their sum, -0 only where every one is -0. -/
def sum (xs : List Held) : Held :=
  if .nan ∈ xs ∨ (.inf true ∈ xs ∧ .inf false ∈ xs) then .nan
  else if .inf true ∈ xs then .inf true
  else if .inf false ∈ xs then .inf false
  else
    let z := (xs.map int).sum
    .num (if z = 0 then xs.all neg else decide (z < 0)) z.natAbs

end Held

/-- The number of an unsigned pattern in units of the smallest subnormal; from the largest finite value on as though the exponent
range were unbounded (R46, R50). -/
def Fmt.units (f : Fmt) (p : Nat) : Nat :=
  if p < 2 ^ f.fb then p else (2 ^ f.fb + p % 2 ^ f.fb) * 2 ^ (p / 2 ^ f.fb - 1)

/-- The smallest subnormal is 2 to minus this (R45). -/
def Fmt.scale (f : Fmt) : Nat := f.bias + f.fb - 1

/-- The patterns of the largest finite value and of the canonical NaN (R45). -/
def Fmt.top (f : Fmt) : Nat := if f.infs then 2 ^ (f.eb + f.fb) - 2 ^ f.fb - 1 else 2 ^ (f.eb + f.fb) - 2
def Fmt.canonical (f : Fmt) : Nat := if f.infs then f.top + 1 + 2 ^ (f.fb - 1) else f.top + 1

/-- A pattern without its sign. -/
def Fmt.unsigned (f : Fmt) (x : Nat) : Nat := x % 2 ^ (f.eb + f.fb)

/-- What a pattern holds (R46). -/
def Fmt.held (f : Fmt) (x : Nat) : Held :=
  let neg := decide (x / 2 ^ (f.eb + f.fb) % 2 = 1)
  if f.unsigned x ≤ f.top then .num neg (f.units (f.unsigned x))
  else if f.infs ∧ f.unsigned x = f.top + 1 then .inf neg
  else .nan

/-- How a number of half-units stands to the exact value z / u. -/
def halves (z u : Nat) : Nat → Ordering := fun n => compare (n * u) (2 * z)

/-- R50, R54: a value, to which a number of half-units stands as c says, rounded to nearest, ties to even, with its flags: the
pattern p lies nearest on the format's grid; beyond the largest finite value it is an infinity (in E4M3 the NaN), or that value
with SAT. -/
def Fmt.Rounds (f : Fmt) (sat neg : Bool) (c : Nat → Ordering) (r : Nat × Flags) : Prop :=
  ∃ p, (c (f.units p + f.units (p + 1)) = .gt ∨ (c (f.units p + f.units (p + 1)) = .eq ∧ p % 2 = 0)) ∧
    (p = 0 ∨ c (f.units (p - 1) + f.units p) = .lt ∨ (c (f.units (p - 1) + f.units p) = .eq ∧ p % 2 = 0)) ∧
    r = if p ≤ f.top then
        (f.sign neg + p, if c (2 * f.units p) = .eq then 0 else if p < 2 ^ f.fb then flagNX ||| flagUF else flagNX)
      else
        (if sat then f.sign neg + f.top else if f.infs then f.sign neg + f.top + 1 else f.canonical, flagOF ||| flagNX)

/-- R53: a result, a subnormal replaced by a zero of its sign under FTZ. -/
def Fmt.flushed (f : Fmt) (ftz : Bool) (r : Nat × Flags) : Nat × Flags :=
  if ftz = true ∧ 0 < f.unsigned r.1 ∧ f.unsigned r.1 < 2 ^ f.fb then
    (r.1 - f.unsigned r.1, r.2 ||| flagUF ||| flagNX) else r

/-- R53: a source element, a subnormal taken as a zero of its sign under FTZ. -/
def Fmt.taken (f : Fmt) (ftz : Bool) (x : Nat) : Nat := (f.flushed ftz (x, 0)).1

/-- R50, R53, R54: an exact result, in units u times smaller than the format's, gives this pattern with these flags; `nv` says
that a NaN is the result of an invalid operation. -/
def Fmt.Gives (f : Fmt) (sat ftz : Bool) (h : Held) (u : Nat) (nv : Bool) (r : Nat × Flags) : Prop :=
  match h with
  | .nan => r = (f.canonical, if nv then flagNV else 0)
  | .inf a =>
    r = if f.infs then (f.sign a + f.top + 1, 0) else (if sat then f.sign a + f.top else f.canonical, flagNV)
  | .num a z => ∃ q, f.Rounds sat a (halves z u) q ∧ r = f.flushed ftz q

/-- The value of a lane as an operation or a conversion takes it, in units of 2 to minus `laneScale` (R46, R53). -/
def laneHeld (t : ElemType) (ftz : Bool) (x : Nat) : Held :=
  match fmtOf t with
  | some f => f.held (f.taken ftz x)
  | none => .num (decide (laneNumber t x < 0)) (laneNumber t x).natAbs
def laneScale (t : ElemType) : Nat :=
  match fmtOf t with
  | some f => f.scale
  | none => 0

/-- R59: the steps of the exponential of a finite FP32 pattern that is no zero: reduction, the chain of five multiplies and adds,
and the scaling; every step rounds by itself. -/
def ExpSteps (x y : Nat) : Prop :=
  let mul (a b : Nat) : Nat := (laneMul .f32 false false a b).1
  let add (a b : Nat) : Nat := (laneAdd .f32 false false a b).1
  let far (neg : Bool) : Nat := if neg then 0 else 0x7F800000
  let t := fp32.held (mul x 0x3FB8AA3B)
  match t with
  | .nan => False
  | .inf neg => y = far neg
  | .num neg n =>
    if 256 * 2 ^ 149 ≤ n then y = far neg
    else ∃ (k : Int) (g : Nat × Flags),
      ((2 * (t.int - k * 2 ^ 149)).natAbs < 2 ^ 149 ∨ ((2 * (t.int - k * 2 ^ 149)).natAbs = 2 ^ 149 ∧ k % 2 = 0)) ∧
      fp32.Rounds false (decide (t.int < k * 2 ^ 149)) (halves (t.int - k * 2 ^ 149).natAbs 1) g ∧
      let p := [0x3C1D955B, 0x3D635847, 0x3E75FDF0, 0x3F317218, 0x3F800000].foldl (fun p c => add (mul p g.1) c) 0x3AAEC3FF
      match fp32.held p with
      | .num s m => ∃ fl, fp32.Rounds false s (halves (m * 2 ^ k.toNat) (2 ^ (-k).toNat)) (y, fl)
      | _ => y = p

/-- R61: y is the FP32 value nearest to a number that lies within 2^-170 of the natural logarithm of x; special values as the rule
says. (How near the model's series comes: log 12.) -/
def LnGives (x y : Nat) : Prop :=
  match fp32.held x with
  | .nan => y = 0x7FC00000
  | .inf neg => y = if neg then 0x7FC00000 else 0x7F800000
  | .num neg n =>
    if n = 0 then y = 0xFF800000
    else if neg then y = 0x7FC00000
    else ∃ (z u : Nat) (fl : Flags), 0 < u ∧
      |(z : ℝ) / u - |Real.log ((n : ℝ) / 2 ^ 149)| * 2 ^ 149| ≤ 1 / 2 ^ 21 ∧
      fp32.Rounds false (decide (n < 2 ^ 149)) (halves z u) (y, fl)

/-- R57: the tree over contributions, the largest power of two below their number to the left, each node combined by `node`; the
Bool says that an infinity is contributed or arises at a node. -/
inductive TreeGives (node : Nat → Nat → Nat → Prop) : List Nat → Nat → Bool → Prop where
  | leaf (x : Nat) : TreeGives node [x] x (decide (x % 2 ^ 31 = 0x7F800000))
  | node (xs ys : List Nat) (k a b r : Nat) (i j : Bool) : TreeGives node xs a i → TreeGives node ys b j →
      xs.length = 2 ^ k → 0 < ys.length → ys.length ≤ 2 ^ k → node a b r →
      TreeGives node (xs ++ ys) r (i || j || decide (r % 2 ^ 31 = 0x7F800000))

/-! Elements of blocks and slots (R47, R48, R131). -/

/-- Eight times the value of a B4 code: INT4, E2M1, powers of two, hybrid (R48). -/
def codeEighths (type code : Nat) : Int :=
  let mags : List Int := [[0, 8, 16, 24, 32, 40, 48, 56], [0, 4, 8, 12, 16, 24, 32, 48],
    [0, 1, 2, 4, 8, 16, 32, 64], [0, 8, 16, 24, 32, 48, 64, 96]].getD type []
  if code < 8 then mags.getD code 0 else if type = 0 then 8 * ((code : Int) - 16) else -(mags.getD (code - 8) 0)

/-- An element of a B4 block by its scale byte and its code, in units of 2^-34 (R47). -/
def b4Held (scale code : Nat) : Held :=
  if scale % 64 = 63 then .nan
  else
    let v := codeEighths (scale / 64) code
    .num (decide (v < 0 ∨ (v = 0 ∧ 8 ≤ code))) (v.natAbs * 2 ^ (scale % 64))

/-- The floating-point format of a view, and the units of its elements: 2 to minus this (R23, R45, R47). -/
def viewFmt (view : Nat) : Fmt := if view = 1 then e4m3 else if view = 2 then e5m2 else if view = 3 then bf16 else fp16
def viewScale (view : Nat) : Nat := if view = 5 then 34 else (viewFmt view).scale

/-- The elements of row or column r of a slot of 2,048 bytes, one row to 64 bytes, with a scale byte for each eight elements of view
0x5 (R131). -/
def slotHeld (m : Memory) (off view sbase r : Nat) : List Held :=
  if view = 5 then (List.range 128).map fun k =>
    b4Held (m.read (sbase + off / 4 + 16 * r + k / 8)).toNat ((m.read (off + 64 * r + k / 2)).toNat / 16 ^ (k % 2) % 16)
  else
    let w := (viewFmt view).width / 8
    (List.range (64 / w)).map fun k => (viewFmt view).held (littleEndian m (off + 64 * r + w * k) w)

end Sys2Proof.Machine
end

