-- ==== Sys2Proof/Certificates/Slice0/Obligations.lean ====
section
/-! DEFINITION. Certificates/Slice0/Obligations.lean: the statements about this machine, in the words of Safety.lean. Each
docstring names the rules of spec/ it comes from. -/

open Sys2Proof Sys2Proof.Machine

/-! The whole machine. -/

/-- Reset leaves every control register at the value of R18's table (and of R19, R262, R360), both loops inactive, no bank
allocated, no trap deferred, nothing queued, the fixed grant of R354 and no other, and the invariant holds. The place of the core, partition 0 and chip 0 are the
model's choice (log 5, 7). -/
def Obligations.ResetLeavesTheResetValues : Prop :=
  let r := State.reset
  let table : List (Csr × Word) :=
    [(.status, 1), (.tvec, 0x40), (.epc, 0), (.cause, 0), (.eaddr, 0), (.eword, 0), (.scratch, 0), (.lcore, 0), (.ncore, 1),
     (.part, 0), (.chip, 0), (.phase, 0), (.lphase, 0), (.stragg, 0), (.xerr, 0), (.xmiss, 0), (.cych, 0), (.xcyc, 0),
     (.fmode, 0), (.sbase, 0), (.launch, 0x100), (.slew, 16), (.mcheck, 1), (.accmap, 0), (.spillmap, 0), (.tv, 0),
     (.lbudget, 9600), (.lmargin, 10), (.vpcfg, 0), (.vpst, 0), (.ecfg, 0), (.age, 10000), (.thot, 95), (.tmig, 105),
     (.snapctl, 0x13F), (.snapseq, 0)]
  r.Inv ∧ (∀ e ∈ table, r.csrGet e.1 = e.2) ∧ r.c.loopU.act = false ∧ r.c.loopS.act = false ∧ r.c.deferred = none ∧
    (∀ n, r.barrier n = { expa := 1 }) ∧ (∀ h, r.handle h = {}) ∧ r.c.mboxCount = 0 ∧ (∀ i : Fin 8, r.c.mon[i].armed = false) ∧
    (∀ i : Fin 64, r.c.parked[i].v = false) ∧ r.c.mx = [] ∧ r.c.head = [] ∧ r.c.copy = [] ∧ r.p.running = none ∧
    r.chip.grants = [Grant.boot] ∧ r.chip.windows = [] ∧ r.chip.boot.firmware = false

/-- A step passes time, and then runs the entry of another agent that the agenda holds, or an engine's step that is due, or the
instruction that waits at pc, or the one that the words at pc decode to, or the one that a gang's leader forwards; an instruction
that waits is kept, and is issued again before the next entry of the agenda, but for a migration at a transition (R211); an entry that is an instruction of another core does
what it does to what the cores share; without power, in reset and after a rail fault only what ends that is done (R353). -/
def Obligations.StepRunsTheDecodedInstruction : Prop :=
  ∀ (s : State) (i : Instr) (f : Fetched) (ws : List Half),
    let v : State := { s with input := {} }
    let u : State := v.pass
    let issued (w : State) (f : Fetched) : Prop :=
      step s = match exec i { w with turn := false, boundary := false, ir := f } with
      | .next t => .next { t with c := { t.c with issue := if t.c.stall then some (i, f) else none } }
      | r => r
    let goes := s.agenda = [] ∧ v.due = none ∧ s.c.run = .running ∧ s.c.fetchStop = false ∧ s.p.swapDue = false ∧
      s.inTransit = false ∧ s.chip.resuming = false
    let alive := s.chip.boot.power = true ∧ s.chip.boot.resetN = true ∧ s.chip.boot.faultN = true
    let heard (i : Instr) := i ∈ [.powerGood, .resetRelease, .resetNAssert, .railFault, .thermalTrip]
    let moves (e : Event) := s.boundary = true ∧ e.step = .thermalMigration
    (goes → s.c.stall = true → s.c.issue = some (i, f) → issued u f) ∧
    (goes → s.c.stall = false → s.follower = false → s.c.stale = [] → s.c.memErr = [] → viewOf s.c.pc = 0 →
      offOf s.c.pc + 2 * ws.length ≤ 0xA0000 →
      (∀ k, k < ws.length → ws[k]? = some (BitVec.ofNat 16 (littleEndian s.c.mem (offOf s.c.pc + 2 * k) 2))) →
      decode ws = .ok (i, ws.length) → issued u { len := ws.length, eword := ewordOf ws }) ∧
    (∀ a rest, goes → s.c.stall = false → s.follower = true → s.stream = (a, ws) :: rest →
      decode ws = .ok (i, ws.length) →
      issued { u with c := { u.c with pc := a }, stream := rest } { len := ws.length, eword := ewordOf ws }) ∧
    (∀ e t, s.agenda = [] → v.due = some (e, t) → step s = exec e.step { t with input := e.input, turn := true }) ∧
    (∀ e rest, s.agenda = some e :: rest → s.retries = false ∨ moves e →
      let t := State.takeInput { s.passAgenda with agenda := rest } e
      (alive ∨ heard e.step → (isStep e = true → step s = exec e.step t) ∧
        (isStep e = false → step s = .next (byOther e.step t))) ∧
      (¬alive → ¬heard e.step → step s = .next t)) ∧
    (∀ rest, s.agenda = none :: rest → s.retries = false → step s = coreStep { v with agenda := rest }) ∧
    (s.retries = true → (∀ e, s.agenda.head? = some (some e) → ¬moves e) → step s = coreStep v)

/-- The worked encodings of the manual decode to the instructions they stand for, one or more of each family. -/
def Obligations.WorkedEncodingsDecode : Prop :=
  decode [0x0000] = .ok (.add 0 0 0, 1) ∧
  decode [0x0728] = .ok (.add 3 4 5, 1) ∧
  decode [0xF540, 0x14BF] = .ok (.addi 10 10 (-1), 2) ∧
  decode [0xF402, 0xFD00, 0x0BBF] = .ok (.madd 5 6 7 8, 3) ∧
  decode [0xF0D1, 0xF012, 0x1816] = .ok (.addi 4 0 0x123456, 3) ∧
  decode [0x8BA3] = .ok (.srai 5 6 3, 1) ∧
  decode [0xAB82] = .ok (.stW 5 6 2, 1) ∧
  decode [0xB51D] = .ok (.stB 2 4 3, 1) ∧
  decode [0xF440, 0xC470] = .ok (.bnz 10 (-16), 2) ∧
  decode [0xD864] = .ok (.jal 100, 1) ∧
  decode [0xF4C0, 0xE1C0] = .ok (.jr 31, 2) ∧
  decode [0xEAAB] = .ok (.csrr 5 .cyc, 1) ∧
  decode [0xF840, 0xF440, 0x0085] = .ok (.hadvp 0 10, 3) ∧
  decode [0xF840, 0xF004, 0x1B6C] = .ok (.bexp 5 300, 3) ∧
  decode [0xF885, 0xFC12, 0x0298] = .ok (.vadd .i32 1 2 3 { sat := true, z := false, km := 2 }, 3) ∧
  decode [0xF880, 0x2302] = .ok (.vld 1 4 2, 2) ∧
  decode [0xF880, 0x42AD] = .ok (.vldh 1 2 5, 2) ∧
  decode [0xF8CF, 0x0009] = .ok (.mmai true true false 0 0 1, 2) ∧
  decode [0xF8C0, 0xF440, 0xF001, 0x1140] = .ok (.aalloc 13 0 2, 4) ∧
  decode [0xF900, 0xF480, 0x0B01] = .ok (.cpushnb 5 20, 3) ∧
  decode [0xF941, 0xF440, 0xFC00, 0x24CC] = .ok (.xrecva .bf16 .add false 2 11 12, 4) ∧
  decode [0xF945, 0xFCB4, 0x7298] = .ok (.redAdd .i32 true 1 2 3 5 4, 3) ∧
  decode [0xF980, 0x042C] = .ok (.vpregen 2 0 5, 2)

/-- The decoder reads back every encoded instruction, whatever words follow: no operand of any of the 212 entries loses a
bit. -/
def Obligations.DecodeInvertsEncode : Prop :=
  ∀ i : Instr, i.wf = true → encode i ≠ [] ∧ ∀ rest, decode (encode i ++ rest) = .ok (i, (encode i).length)

/-- Every memory that the state holds, local, accumulator, global, shadow, paged or saved, stays in canonical form. -/
def Obligations.StepKeepsMemoriesCanonical : Prop :=
  ∀ s t : State, s.Inv → step s = .next t → t.Inv

/-- R37: no instruction of a core in U mode changes what S mode alone may write, and U mode is left only by a trap, which goes
to c.tvec and saves the pc. -/
def Obligations.UserModeKeepsServiceState : Prop :=
  ∀ (s t : State) (i : Instr), i.wf = true → s.svc = false → exec i s = .next t →
    t.c.tvec = s.c.tvec ∧ t.c.scratch = s.c.scratch ∧ t.c.lcore = s.c.lcore ∧ t.c.ncore = s.c.ncore ∧ t.c.part = s.c.part ∧
    t.c.stragg = s.c.stragg ∧ t.c.launch = s.c.launch ∧ t.c.mcheck = s.c.mcheck ∧ t.t.slew = s.t.slew ∧
    t.t.thot = s.t.thot ∧ t.t.tmig = s.t.tmig ∧ t.p.lbudget = s.p.lbudget ∧ t.p.lmargin = s.p.lmargin ∧ t.p.age = s.p.age ∧
    t.chip.num = s.chip.num ∧ t.chip.snapctl = s.chip.snapctl ∧ t.c.loopS = s.c.loopS ∧
    (t.svc = true → t.c.pc = s.c.tvec ∧ t.c.epc = s.c.pc)

/-! Page 0: arithmetic (06). -/

/-- R89, the members of MAJ 0x0 on 32-bit patterns: the word each writes to s[d], for every state and all registers (d may
be s0, a or b). A member has no other effect than that write and the pc's advance.
R89, the unary members: clz and ctz are known by the powers of two that bound s[a] or divide it, popc by the sum of
its bits, the extensions by the signed and unsigned reading of its low byte or half.
R90, R91: the immediate forms, with the immediate read as the signed number of its 26 bits and a shift amount as the
number of its 5 bits. -/
def Obligations.ScalarArithmeticResults : Prop :=
  (∀ (s : State) (d a b c : Reg),
    let A := (s.reg a).toNat
    let B := (s.reg b).toNat
    let X := (s.reg a).toInt
    let Y := (s.reg b).toInt
    Writes (.add d a b) s d (BitVec.ofNat 32 (A + B)) ∧
    Writes (.sub d a b) s d (BitVec.ofInt 32 (X - Y)) ∧
    Writes (.and d a b) s d (s.reg a &&& s.reg b) ∧
    Writes (.or d a b) s d (s.reg a ||| s.reg b) ∧
    Writes (.xor d a b) s d (s.reg a ^^^ s.reg b) ∧
    Writes (.shl d a b) s d (BitVec.ofNat 32 (A * 2 ^ (B % 32))) ∧
    Writes (.shr d a b) s d (BitVec.ofNat 32 (A / 2 ^ (B % 32))) ∧
    Writes (.sra d a b) s d (BitVec.ofInt 32 (X / 2 ^ (B % 32))) ∧
    Writes (.slt d a b) s d (if X < Y then 1 else 0) ∧
    Writes (.sltu d a b) s d (if A < B then 1 else 0) ∧
    Writes (.seq d a b) s d (if A = B then 1 else 0) ∧
    Writes (.sne d a b) s d (if A = B then 0 else 1) ∧
    Writes (.min d a b) s d (BitVec.ofInt 32 (Min.min X Y)) ∧
    Writes (.max d a b) s d (BitVec.ofInt 32 (Max.max X Y)) ∧
    Writes (.minu d a b) s d (BitVec.ofNat 32 (Min.min A B)) ∧
    Writes (.maxu d a b) s d (BitVec.ofNat 32 (Max.max A B)) ∧
    Writes (.mul d a b) s d (BitVec.ofNat 32 (A * B)) ∧
    Writes (.mulh d a b) s d (BitVec.ofInt 32 (X * Y / 2 ^ 32)) ∧
    Writes (.mulhu d a b) s d (BitVec.ofNat 32 (A * B / 2 ^ 32)) ∧
    Writes (.div d a b) s d (if B = 0 then 0xFFFFFFFF else BitVec.ofInt 32 (X.tdiv Y)) ∧
    Writes (.divu d a b) s d (if B = 0 then 0xFFFFFFFF else BitVec.ofNat 32 (A / B)) ∧
    Writes (.rem d a b) s d (if B = 0 then s.reg a else BitVec.ofInt 32 (X.tmod Y)) ∧
    Writes (.remu d a b) s d (if B = 0 then s.reg a else BitVec.ofNat 32 (A % B)) ∧
    Writes (.madd d a b c) s d (BitVec.ofNat 32 (A * B + (s.reg c).toNat)) ∧
    Writes (.sel d a b c) s d (if (s.reg c).toNat = 0 then s.reg b else s.reg a)) ∧
  (∀ (s : State) (d a : Reg),
    let A := (s.reg a).toNat
    (∃ n : Nat, n ≤ 32 ∧ A < 2 ^ (32 - n) ∧ (n < 32 → 2 ^ (31 - n) ≤ A) ∧ Writes (.clz d a) s d (BitVec.ofNat 32 n)) ∧
    (∃ n : Nat, n ≤ 32 ∧ A % 2 ^ n = 0 ∧ (n < 32 → A / 2 ^ n % 2 = 1) ∧ Writes (.ctz d a) s d (BitVec.ofNat 32 n)) ∧
    Writes (.popc d a) s d (BitVec.ofNat 32 ((List.range 32).map fun i => A / 2 ^ i % 2).sum) ∧
    Writes (.sextB d a) s d (BitVec.ofInt 32 (if A % 256 < 128 then (A % 256 : Int) else A % 256 - 256)) ∧
    Writes (.sextH d a) s d (BitVec.ofInt 32 (if A % 65536 < 32768 then (A % 65536 : Int) else A % 65536 - 65536)) ∧
    Writes (.zextB d a) s d (BitVec.ofNat 32 (A % 256)) ∧
    Writes (.zextH d a) s d (BitVec.ofNat 32 (A % 65536))) ∧
  (∀ (s : State) (d a : Reg) (imm : BitVec 26) (n : BitVec 5),
    let A := (s.reg a).toNat
    let X := (s.reg a).toInt
    let I := imm.toInt
    Writes (.addi d a imm) s d (BitVec.ofInt 32 (A + I)) ∧
    Writes (.andi d a imm) s d (s.reg a &&& BitVec.ofInt 32 I) ∧
    Writes (.ori d a imm) s d (s.reg a ||| BitVec.ofInt 32 I) ∧
    Writes (.xori d a imm) s d (s.reg a ^^^ BitVec.ofInt 32 I) ∧
    Writes (.slti d a imm) s d (if X < I then 1 else 0) ∧
    Writes (.sltiu d a imm) s d (if (A : Int) < I % 2 ^ 32 then 1 else 0) ∧
    Writes (.shli d a n) s d (BitVec.ofNat 32 (A * 2 ^ n.toNat)) ∧
    Writes (.shri d a n) s d (BitVec.ofNat 32 (A / 2 ^ n.toNat)) ∧
    Writes (.srai d a n) s d (BitVec.ofInt 32 (X / 2 ^ n.toNat)))

/-! Loads and stores to local memory (06). -/

/-- The effective addresses of R93 and R123 are formed modulo 2^32 from the registers and the scaled immediate or index.
Through a data view a load completes and writes the bytes at its offset, little-endian, sign-extended by ld.b and
ld.h and zero-extended by the others; through view 0x8 it reads the bytes of the banks in the same way. -/
def Obligations.LoadsWriteLittleEndianBytes : Prop :=
  (∀ (s : State) (a b : Reg) (imm : BitVec 26) (size : Nat),
    s.eaImm a imm = BitVec.ofInt 32 ((s.reg a).toNat + 4 * imm.toInt) ∧
    s.eaIndex a b size = BitVec.ofNat 32 ((s.reg a).toNat + (s.reg b).toNat * size) ∧
    s.eaVector a imm = BitVec.ofInt 32 ((s.reg a).toNat + 64 * imm.toInt)) ∧
  (∀ (s : State) (d a b : Reg) (imm : BitVec 26),
    let signed (w x : Nat) : Word := BitVec.ofInt 32 (if x < 2 ^ (w - 1) then (x : Int) else x - 2 ^ w)
    (∀ ea size (m : Memory), (DataAccess s ea size ∧ m = s.c.mem) ∨ (BankAccess s ea size ∧ m = s.c.acc) →
      let x := littleEndian m (offOf ea) size
      (ea = s.eaImm a imm → size = 4 → Writes (.ldW d a imm) s d (BitVec.ofNat 32 x)) ∧
      (ea = s.eaIndex a b 4 → size = 4 → Writes (.ldWx d a b) s d (BitVec.ofNat 32 x)) ∧
      (ea = s.eaIndex a b 2 → size = 2 → Writes (.ldHu d a b) s d (BitVec.ofNat 32 x)) ∧
      (ea = s.eaIndex a b 2 → size = 2 → Writes (.ldH d a b) s d (signed 16 x)) ∧
      (ea = s.eaIndex a b 1 → size = 1 → Writes (.ldBu d a b) s d (BitVec.ofNat 32 x)) ∧
      (ea = s.eaIndex a b 1 → size = 1 → Writes (.ldB d a b) s d (signed 8 x))))

/-- Through a data view a store completes; the bytes from its offset on become the low bytes of s[d], every other byte of
local memory reads as before, and beside the pc and the loop of R99 nothing else changes but what the fetch buffer may
still hold (R26). Through view 0x8 the same holds of the banks. -/
def Obligations.StoresWriteOnlyTheirBytes : Prop :=
  ∀ (s : State) (i : Instr) (d : Reg) (ea : Word) (size : Nat),
    scalarAccess s i = some (ea, size) → scalarStore i = some d →
    (DataAccess s ea size → ∃ m st,
      Completes i s { s.adv with c := { s.adv.c with mem := m, stale := st } } ∧
      (∀ k, k < size → Memory.read m (offOf ea + k) = BitVec.ofNat 8 ((s.reg d).toNat / 256 ^ k)) ∧
      (∀ x, x < offOf ea ∨ offOf ea + size ≤ x → Memory.read m x = s.c.mem.read x)) ∧
    (BankAccess s ea size → ∃ m,
      Completes i s { s.adv with c := { s.adv.c with acc := m } } ∧
      (∀ k, k < size → Memory.read m (offOf ea + k) = BitVec.ofNat 8 ((s.reg d).toNat / 256 ^ k)) ∧
      (∀ x, x < offOf ea ∨ offOf ea + size ≤ x → Memory.read m x = s.c.acc.read x))

/-- The checks of R93 in their order: what a scalar load or store traps with outside an exchange phase, and that it then
has no other effect; last, a code word with an uncorrectable error traps with ECC_UNCORR and is logged (R239).
Through the register window of view 0x9 in S mode a load reads s[r], a half of k[r] or a word of v[r], and a store writes it
raw; s0 and k0 read as they always do and ignore the write. vld and vst move all of v[r] (R16, R25).
Through the window of view 0xA in S mode a load reads a word of a handle, of the spill record, of a named barrier, of the mailbox
or of its head and count, and a store writes it raw, without the checks of the instruction that normally writes it; a store to a
handle that is in use waits; reserved bits of a barrier hold 0; an offset that R25 does not list reads as 0 and ignores the write (R25, R367). How the monitors lie in
their 64 bytes the manual leaves open (log 16). -/
def Obligations.ScalarAccessTrapsAndWindow : Prop :=
  (∀ (s : State) (i : Instr) (ea : Word) (size : Nat), scalarAccess s i = some (ea, size) → s.inExchange = false →
    let view := viewOf ea
    let off := offOf ea
    let limit := if view ≤ 6 then 0x9FFFF else if view = 8 then 0xFFFF else 0x3FFF
    let absent := view = 7 ∨ 11 ≤ view ∨ limit < off + size - 1 ∨ (view = 5 ∧ 0x9FFFF < s.c.sbase.toNat + off / 4)
    let hidden := (view = 9 ∨ view = 10) ∧ s.svc = false
    (hidden → Traps i s .priv 0 0) ∧
    (¬hidden → absent → Traps i s .localRange 0 ea) ∧
    (¬hidden → ¬absent → off % size ≠ 0 → Traps i s .align 0 ea) ∧
    (¬absent → off % size = 0 → view = 8 → s.c.accmap.getLsbD (off / 0x800) = false → Traps i s .accBank 0 ea) ∧
    (¬absent → off % size = 0 → view = 8 → s.c.accmap.getLsbD (off / 0x800) = true →
      s.bankBusy (off / 0x800) = true → Waits i s) ∧
    (∀ w (view8 : Bool), ¬absent → off % size = 0 → (if view8 then view = 8 else view ≤ 6) →
      (view8 = true → s.c.accmap.getLsbD (off / 0x800) = true ∧ s.bankBusy (off / 0x800) = false) →
      (if view8 then s.c.accErr else s.c.memErr) = [w] → 8 * w < off + size → off < 8 * w + 8 →
      Completes i s ((s.logError (0x1000 + s.t.num) (if view8 then 1 else 0) (8 * w) 0).enter
        (causeWord .eccUncorr 0 s.ir.len) s.c.pc ea s.ir.eword))) ∧
  (∀ (s : State) (d a r : Reg) (imm : BitVec 26), s.svc = true → s.inExchange = false →
    (s.eaImm a imm = BitVec.ofNat 32 (0x90000000 + 4 * r.val) →
      Writes (.ldW d a imm) s d (s.reg r) ∧ Leaves (.stW d a imm) s (s.setReg r (s.reg d))) ∧
    (∀ k : KReg,
      (s.eaImm a imm = BitVec.ofNat 32 (0x90000900 + 8 * k.val) →
        Writes (.ldW d a imm) s d ((s.kreg k).extractLsb' 0 32) ∧
        Leaves (.stW d a imm) s (s.setK k ((s.kreg k).extractLsb' 32 32 ++ s.reg d))) ∧
      (s.eaImm a imm = BitVec.ofNat 32 (0x90000904 + 8 * k.val) →
        Writes (.ldW d a imm) s d ((s.kreg k).extractLsb' 32 32) ∧
        Leaves (.stW d a imm) s (s.setK k (s.reg d ++ (s.kreg k).extractLsb' 0 32)))) ∧
    (∀ j : Fin 16, s.eaImm a imm = BitVec.ofNat 32 (0x90000100 + 64 * r.val + 4 * j.val) →
      Writes (.ldW d a imm) s d ((s.vreg r).extractLsb' (32 * j.val) 32) ∧
      ∃ x : VWord, Leaves (.stW d a imm) s (s.setV r x) ∧
        ∀ n : Fin 16, x.extractLsb' (32 * n.val) 32 = if n = j then s.reg d else (s.vreg r).extractLsb' (32 * n.val) 32) ∧
    (s.eaVector a imm = BitVec.ofNat 32 (0x90000100 + 64 * r.val) →
      Leaves (.vld d a imm) s (s.setV d (s.vreg r)) ∧ Leaves (.vst d a imm) s (s.setV r (s.vreg d)))) ∧
  (∀ (s : State) (d a : Reg) (imm : BitVec 26), s.svc = true → s.inExchange = false →
    let at_ (off : Nat) : Prop := s.eaImm a imm = BitVec.ofNat 32 (0xA0000000 + off)
    let reads (x : Nat) : Prop := Writes (.ldW d a imm) s d (BitVec.ofNat 32 x)
    let writes (t : State) : Prop := Leaves (.stW d a imm) s t
    let x := s.reg d
    (∀ h : HReg,
      let g := s.handle h
      let puts (off : Nat) (n : Handle) : Prop := at_ (16 * h.val + off) →
        (s.handleBusy h = false → writes (s.setHandle h n)) ∧ (s.handleBusy h = true → Waits (.stW d a imm) s)
      (at_ (16 * h.val) → reads g.base.toNat) ∧ (at_ (16 * h.val + 4) → reads g.size.toNat) ∧
      (at_ (16 * h.val + 8) → reads g.count.toNat) ∧
      (at_ (16 * h.val + 12) → reads (g.head.toNat + 2 ^ 16 * g.tail.toNat)) ∧
      puts 0 { g with base := x } ∧ puts 4 { g with size := x } ∧ puts 8 { g with count := x } ∧
      puts 12 { g with head := x.extractLsb' 0 16, tail := x.extractLsb' 16 16 }) ∧
    (∀ n : Fin 64, at_ (0x100 + 4 * n.val) →
      let e := s.c.parked[n]
      let new : Parked := { v := x.getLsbD 7, bank := x.extractLsb' 0 5, slot := x.extractLsb' 8 5 }
      reads (e.bank.toNat + (if e.v then 128 else 0) + 256 * e.slot.toNat) ∧
      writes { s with c := { s.c with parked := s.c.parked.set n new } }) ∧
    (∀ n : BarName,
      let b := s.barrier n
      let place := 0x1000 + 16 * n.val
      let clean := b.status &&& 0x03FFFF3F = b.status
      (at_ place → reads (b.expa.toNat + 2 ^ 8 * b.pena.toNat + (if b.ph then 2 ^ 16 else 0) + 2 ^ 17 * b.src.toNat) ∧
        (clean → writes (s.setBarrier n { b with
          expa := x.extractLsb' 0 8, pena := x.extractLsb' 8 8, ph := x.getLsbD 16
          src := if x.extractLsb' 17 2 = 3 then 0 else x.extractLsb' 17 2 }))) ∧
      (at_ (place + 4) → reads b.expb.toNat ∧ (b.src ≠ 3 → clean →
        writes (s.setBarrier n { b with expb := x.extractLsb' 0 24 }))) ∧
      (at_ (place + 8) → reads b.penb.toNat ∧ (b.src ≠ 3 → clean →
        writes (s.setBarrier n { b with penb := x.extractLsb' 0 24 }))) ∧
      (at_ (place + 12) → reads b.status.toNat ∧ (b.src ≠ 3 → writes (s.setBarrier n { b with status := x &&& 0x03FFFF3F })))) ∧
    (∀ n : Fin 32,
      let m := s.c.mbox[n]
      let puts (y : DWord) : Prop := writes { s with c := { s.c with mbox := s.c.mbox.set n y } }
      (at_ (0x3000 + 8 * n.val) → reads (m.toNat % 2 ^ 32) ∧ puts (m.extractLsb' 32 32 ++ x)) ∧
      (at_ (0x3004 + 8 * n.val) → reads (m.toNat / 2 ^ 32) ∧ puts (x ++ m.extractLsb' 0 32))) ∧
    (at_ 0x3100 → reads (s.c.mboxHead.toNat + 2 ^ 8 * s.c.mboxCount.toNat) ∧
      writes { s with c := { s.c with mboxHead := x.extractLsb' 0 5, mboxCount := x.extractLsb' 8 6 } }) ∧
    (∀ off, off % 4 = 0 → (0x200 ≤ off ∧ off < 0x1000) ∨ (0x3104 ≤ off ∧ off < 0x3200) ∨ (0x3240 ≤ off ∧ off < 0x4000) →
      at_ off → reads 0 ∧ writes s))

/-! Branches, jumps and the hardware loop (06). -/

/-- A branch whose condition holds goes to its target, 2 * off bytes from its base word, by the loop rule; one whose
condition fails goes on in sequence; an odd target traps with ALIGN and c.eaddr holds it; in follow mode nothing happens.
j and jal go to their target, jr and jalr to s[a] as it was; jal and jalr leave the address of the word after the base
word in s31; an odd target traps with ALIGN and s31 is not written; in follow mode nothing happens.
The loop rule of R99. In sequence: at the END of the active loop of the mode the count in s[REG] steps down and pc goes
to START, or it becomes 0, the loop ends and pc goes to END; elsewhere pc goes to the next word and nothing else changes;
a follower evaluates no loop. At a transfer: a target outside START to END ends the loop. The loop state of the other mode
and every other scalar register keep their values.
loop: with a loop of the mode active it traps with ILLEGAL, DETAIL 1; with an end offset below 2 it traps with ILLEGAL;
a count of 0 skips the body; else the loop state of the mode is set and the body follows. In follow mode nothing happens. -/
def Obligations.TransfersOfControl : Prop :=
  (∀ (s : State) (a : Reg) (off : BitVec 26) (i : Instr) (taken : Bool),
    branchTaken (s.reg a).toInt a off i = some taken →
    let t : Word := BitVec.ofInt 32 (s.basePc.toNat + 2 * off.toInt)
    (taken = false ∨ s.follower = true → Leaves i s s) ∧
    (taken = true → s.follower = false → t.toNat % 2 = 0 → Completes i s (s.jumpTo t)) ∧
    (taken = true → s.follower = false → t.toNat % 2 = 1 → s.inExchange = false → Traps i s .align 0 t)) ∧
  (∀ (s : State) (a : Reg) (off : BitVec 31),
    let t : Word := BitVec.ofInt 32 (s.basePc.toNat + 2 * off.toInt)
    let next : Word := s.basePc + 2
    (s.follower = false → t.toNat % 2 = 0 →
      Completes (.j off) s (s.jumpTo t) ∧ Completes (.jal off) s ((s.setReg 31 next).jumpTo t)) ∧
    (s.follower = false → (s.reg a).toNat % 2 = 0 →
      Completes (.jr a) s (s.jumpTo (s.reg a)) ∧ Completes (.jalr a) s ((s.setReg 31 next).jumpTo (s.reg a))) ∧
    (s.follower = false → s.inExchange = false → t.toNat % 2 = 1 →
      Traps (.j off) s .align 0 t ∧ Traps (.jal off) s .align 0 t) ∧
    (s.follower = false → s.inExchange = false → (s.reg a).toNat % 2 = 1 →
      Traps (.jr a) s .align 0 (s.reg a) ∧ Traps (.jalr a) s .align 0 (s.reg a)) ∧
    (s.follower = true → Leaves (.j off) s s ∧ Leaves (.jal off) s s ∧ Leaves (.jr a) s s ∧ Leaves (.jalr a) s s)) ∧
  (∀ (s : State) (t : Word),
    let l := s.loop
    let n := s.reg l.reg
    let atEnd := s.follower = false ∧ l.act = true ∧ s.seqPc = l.stop
    (atEnd → n ≠ 1 → s.adv.c.pc = l.start ∧ s.adv.loop = l ∧ (l.reg ≠ 0 → s.adv.reg l.reg = n - 1)) ∧
    (atEnd → n = 1 → s.adv.c.pc = l.stop ∧ s.adv.loop = { l with act := false } ∧ s.adv.reg l.reg = 0) ∧
    (¬atEnd → s.adv.c.pc = s.seqPc ∧ s.adv.loop = l ∧ s.adv.reg l.reg = n) ∧
    (∀ r, r ≠ l.reg → s.adv.reg r = s.reg r) ∧
    ((s.jumpTo t).c.pc = t ∧ (s.jumpTo t).c.s = s.c.s ∧
      (s.jumpTo t).loop = { l with act := l.act && !(t.ult l.start || l.stop.ule t) }) ∧
    (s.svc = true → s.adv.c.loopU = s.c.loopU ∧ (s.jumpTo t).c.loopU = s.c.loopU) ∧
    (s.svc = false → s.adv.c.loopS = s.c.loopS ∧ (s.jumpTo t).c.loopS = s.c.loopS)) ∧
  (∀ (s : State) (a : Reg) (e : BitVec 26),
    let stop : Word := BitVec.ofNat 32 (s.basePc.toNat + 2 * e.toNat)
    (s.follower = true → Leaves (.loop a e) s s) ∧
    (s.follower = false → s.inExchange = false → s.loop.act = true → Traps (.loop a e) s .illegal 1 0) ∧
    (s.follower = false → s.inExchange = false → s.loop.act = false → e.toNat < 2 → Traps (.loop a e) s .illegal 0 0) ∧
    (s.follower = false → s.loop.act = false → 2 ≤ e.toNat → s.reg a = 0 → Completes (.loop a e) s (s.setPc stop)) ∧
    (s.follower = false → s.loop.act = false → 2 ≤ e.toNat → s.reg a ≠ 0 →
      Completes (.loop a e) s ((s.setLoop { act := true, start := s.basePc + 2, stop := stop, reg := a }).setPc s.seqPc)))

/-! Traps and the return from one (03, 06, 09). -/

/-- R38: a trap with TE = 1 saves pc, cause, address and words, moves MODE and TE to PMODE and PTE, enters S mode with TE
clear and goes to c.tvec; the trapped instruction changes nothing else.
trap in a compute phase takes BREAK with s[a] bits 15:0 as DETAIL and c.eaddr 0 (R102). -/
def Obligations.TrapEntrySavesAndVectors : Prop :=
  (∀ (s : State) (c : Cause) (detail : Nat) (eaddr : Word), s.c.status.getLsbD 1 = true →
    let t := s.enter (causeWord c detail s.ir.len) s.c.pc eaddr s.ir.eword
    t.c.epc = s.c.pc ∧ t.c.eaddr = eaddr ∧ t.c.eword = s.ir.eword ∧ t.c.pc = s.c.tvec ∧
    t.c.cause.toNat / 65536 = detail % 65536 ∧ t.c.cause.toNat % 256 = c.code ∧ t.c.cause.getLsbD 15 = false ∧
    t.c.cause.toNat / 256 % 8 = s.ir.len % 8 ∧
    t.c.status.getLsbD 0 = true ∧ t.c.status.getLsbD 1 = false ∧
    t.c.status.getLsbD 2 = s.c.status.getLsbD 0 ∧ t.c.status.getLsbD 3 = true ∧
    (∀ b, 4 ≤ b → b ≠ 10 → t.c.status.getLsbD b = s.c.status.getLsbD b) ∧ t.c.status.getLsbD 10 = false ∧
    t = { s with
      c := { s.c with
        epc := t.c.epc, cause := t.c.cause, eaddr := t.c.eaddr, eword := t.c.eword, status := t.c.status, pc := t.c.pc,
        stall := false, pend := .none } }) ∧
  (∀ (s : State) (a : Reg), s.inExchange = false → Traps (.trap a) s .break_ ((s.reg a).toNat % 65536) 0)

/-- R42: a trap with TE = 0 writes c.cause with DBL set and leaves the other trap registers and c.status; the core stops
issuing, and its tile's service core gets the pc and the address that c.eaddr would have held. -/
def Obligations.DoubleTrapStopsTheCore : Prop :=
  ∀ (s : State) (c : Cause) (detail : Nat) (eaddr : Word), s.c.status.getLsbD 1 = false →
    let t := s.enter (causeWord c detail s.ir.len) s.c.pc eaddr s.ir.eword
    t = { s with
      c := { s.c with cause := causeWord c detail s.ir.len ||| 0x8000, run := .stopped, stall := false, pend := .none }
      t := { s.t with inbox := s.t.inbox ++ [.machineCheck s.t.idx.val s.c.pc eaddr] } } ∧
    (causeWord c detail s.ir.len).getLsbD 15 = false ∧ t.nextInstr = none

/-- R103: eret in S mode goes to c.epc with MODE and TE from PMODE and PTE, by the loop rule of the mode returned to, and
touches neither c.cause, c.eaddr nor c.eword; an odd c.epc traps with ALIGN and c.eaddr holds it; in U mode it traps with
PRIV. -/
def Obligations.EretRestoresModeAndPc : Prop :=
  ∀ (s : State), s.inExchange = false →
    (s.svc = false → Traps .eret s .priv 0 0) ∧
    (s.svc = true → s.c.epc.toNat % 2 = 1 → Traps .eret s .align 0 s.c.epc) ∧
    (s.svc = true → s.c.epc.toNat % 2 = 0 → ∃ t, Completes .eret s t ∧
      t.c.pc = s.c.epc ∧ t.c.status.getLsbD 0 = s.c.status.getLsbD 2 ∧ t.c.status.getLsbD 1 = s.c.status.getLsbD 3 ∧
      (∀ b, 2 ≤ b → t.c.status.getLsbD b = s.c.status.getLsbD b) ∧
      (t.svc = true → t.c.loopU = s.c.loopU ∧ t.c.loopS = { s.c.loopS with
        act := s.c.loopS.act && !(s.c.epc.ult s.c.loopS.start || s.c.loopS.stop.ule s.c.epc) }) ∧
      (t.svc = false → t.c.loopS = s.c.loopS ∧ t.c.loopU = { s.c.loopU with
        act := s.c.loopU.act && !(s.c.epc.ult s.c.loopU.start || s.c.loopU.stop.ule s.c.epc) }) ∧
      t = { s with
        c := { s.c with
          pc := t.c.pc, status := t.c.status, loopU := t.c.loopU, loopS := t.c.loopS, stall := false, pend := .none } })

/-- R156: in an exchange phase an instruction that traps is suppressed and the next one issues; the first cause is kept with
the address and words R39 and R18 give; c.xerr gets the bit of the cause, and OFFSET and FCODE when bits 18:16 were 0: the offset at
which the instruction issued, which comes after that of an exchange instruction before it.
R74: in an exchange phase an instruction of class C is suppressed with PHASE, deferred, where no cause that R40 ranks
higher stands; outside one, an exchange instruction traps with PHASE at once. R37: in U mode a privileged instruction traps with
PRIV.
R66, R73: a chain that is no instruction traps with its cause and changes nothing else. R62: a fetch that fails traps
with the address of the word, an uncorrectable error is logged, and in an exchange phase the trap is deferred with the pc
and the core issues nothing further.
That a suppressed instruction counts as completed for the loop rule is the model’s choice (log 19, DEDUCED). -/
def Obligations.TrapsByPhaseModeAndFetch : Prop :=
  (∀ (s : State) (c : Cause) (detail : Nat) (eaddr : Word), s.inExchange = true → c ≠ .slot → c ≠ .late →
    ∃ t : State, s.raise ⟨c, detail, eaddr⟩ = .next t.adv ∧
      t.c.deferred = some (s.c.deferred.getD
        { cause := causeWord c detail 0, eaddr := eaddr, eword := s.ir.eword, epc := none }) ∧
      t.c.xerr.getLsbD 18 = true ∧ t.c.xerr.getLsbD 17 = s.c.xerr.getLsbD 17 ∧
      t.c.xerr.getLsbD 16 = s.c.xerr.getLsbD 16 ∧
      (∀ e, s.c.exch = some e → s.c.xerr &&& 0x70000 = 0 →
        t.c.xerr.toNat % 65536 = Nat.max (s.xc - e.xr) e.nextOff % 65536 ∧ t.c.xerr.toNat / 2 ^ 24 = c.code) ∧
      (s.c.xerr &&& 0x70000 ≠ 0 → t.c.xerr = s.c.xerr ||| 0x40000) ∧
      t = { s with c := { s.c with xerr := t.c.xerr, deferred := t.c.deferred } }) ∧
  (∀ (s : State) (i : Instr),
    (computeOnly i = true → s.inExchange = true → exec i s = s.raise ⟨.phase, 0, 0⟩) ∧
    (serviceOnly i = true → s.svc = true → s.inExchange = true → exec i s = s.raise ⟨.phase, 0, 0⟩) ∧
    (exchangeOnly i = true → s.inExchange = false → Traps i s .phase 0 0) ∧
    (serviceOnly i = true → s.svc = false → s.inExchange = false → Traps i s .priv 0 0) ∧
    (∀ d h b, s.inExchange = true → s.svc = true ∨ (s.handle h).count = 0 →
      exec (.vldh d h b) s = s.raise ⟨.phase, 0, 0⟩ ∧ exec (.vsth d h b) s = s.raise ⟨.phase, 0, 0⟩) ∧
    (∀ a n, s.inExchange = true → (s.barrier n).ph ≠ (s.reg a).getLsbD 0 → exec (.bwait a n) s = s.raise ⟨.phase, 0, 0⟩)) ∧
  (∀ (s : State) (c : Cause) (addr : Word),
    (s.inExchange = false → Traps (.illegalEncoding c) s c 0 0) ∧
    (s.inExchange = false → c ≠ .eccUncorr → Traps (.fetchFault c addr) s c 0 addr) ∧
    (s.inExchange = false → Completes (.fetchFault .eccUncorr addr) s
      ((s.logError (0x1000 + s.t.num) 0 (offOf addr) 0).enter (causeWord .eccUncorr 0 s.ir.len) s.c.pc addr s.ir.eword)) ∧
    (s.inExchange = true → ∃ t, Completes (.fetchFault c addr) s t ∧ t.c.fetchStop = true ∧ t.c.pc = s.c.pc ∧
      t.c.deferred = some (s.c.deferred.getD
        { cause := causeWord c 0 s.ir.len, eaddr := addr, eword := s.ir.eword, epc := some s.c.pc })))

/-! Control registers (03, 06). -/

/-- csrr completes in S mode for every register, and in U mode for every one but c.epc, c.cause, c.eaddr, c.eword and
c.scratch, with the value that R18 gives; a read of c.cyc latches the upper half of the count for c.cych (R21).
csrw, csrs and csrc complete in S mode for every register that S mode writes and in U mode for c.fmode, c.sbase, c.vpcfg
and c.ecfg; each reads and writes at once, and takes effect before the next instruction, c.status for the loop rule too.
A register that no mode writes traps with ILLEGAL, one that only S mode writes with PRIV in U mode, and nothing changes.
Which loop state the loop rule uses after a csrw of c.status is the model’s choice (log 24, DEDUCED). -/
def Obligations.ControlRegisterAccess : Prop :=
  (∀ (s : State) (d : Reg),
    let table : List (Csr × Word) :=
      [(.status, s.c.status), (.tvec, s.c.tvec), (.core, BitVec.ofNat 32 (16 * s.t.num + s.t.idx.val)),
       (.lcore, s.c.lcore), (.ncore, s.c.ncore), (.tile, BitVec.ofNat 32 s.t.num), (.part, s.c.part), (.chip, s.chip.num),
       (.phase, s.c.phase), (.lphase, s.c.lphase), (.stragg, s.c.stragg), (.xerr, s.c.xerr), (.xmiss, s.c.xmiss),
       (.cych, match s.c.cycLatch with | some x => x | none => BitVec.ofNat 32 (s.c.cyc.toNat / 2 ^ 32)),
       (.xcyc, BitVec.ofNat 32 s.xc), (.fmode, s.c.fmode), (.sbase, s.c.sbase), (.launch, s.c.launch),
       (.slew, BitVec.ofNat 32 s.t.slew.toNat), (.mcheck, s.c.mcheck), (.accmap, s.c.accmap), (.spillmap, s.c.spillmap),
       (.tv, s.chip.tv), (.lbudget, BitVec.ofNat 32 s.p.lbudget.toNat), (.lmargin, BitVec.ofNat 32 s.p.lmargin.toNat),
       (.vpcfg, s.c.vpcfg), (.vpst, s.c.vpst), (.ecfg, s.c.ecfg), (.age, BitVec.ofNat 32 s.p.age.toNat),
       (.thot, BitVec.ofNat 32 s.t.thot.toNat), (.tmig, BitVec.ofNat 32 s.t.tmig.toNat), (.snapctl, s.chip.snapctl),
       (.snapseq, s.chip.snapseq)]
    let service : List (Csr × Word) :=
      [(.epc, s.c.epc), (.cause, s.c.cause), (.eaddr, s.c.eaddr), (.eword, s.c.eword), (.scratch, s.c.scratch)]
    let latched : State := { s with c := { s.c with cycLatch := some (BitVec.ofNat 32 (s.c.cyc.toNat / 2 ^ 32)) } }
    let low : Word := BitVec.ofNat 32 s.c.cyc.toNat
    (∀ e ∈ table, Writes (.csrr d e.1) s d e.2) ∧
    (s.svc = true → ∀ e ∈ service, Writes (.csrr d e.1) s d e.2) ∧
    (s.svc = false → s.inExchange = false → ∀ e ∈ service, Traps (.csrr d e.1) s .priv 0 0) ∧
    Leaves (.csrr d .cyc) s (latched.setReg d low) ∧ Leaves (.cycRead d) s (latched.setReg d low)) ∧
  (∀ (s : State) (n : Csr) (a : Reg), s.inExchange = false →
    let readOnly := n ∈ [Csr.core, .tile, .phase, .lphase, .cyc, .cych, .xcyc, .snapseq]
    let user := n ∈ [Csr.fmode, .sbase, .vpcfg, .ecfg]
    (¬readOnly → (s.svc = true ∨ user) →
      Leaves (.csrw n a) s (s.csrPut n (s.reg a)) ∧
      Leaves (.csrs n a) s (s.csrPut n (s.csrGet n ||| s.reg a)) ∧
      Leaves (.csrc n a) s (s.csrPut n (s.csrGet n &&& ~~~(s.reg a)))) ∧
    (readOnly → Traps (.csrw n a) s .illegal 0 0 ∧ Traps (.csrs n a) s .illegal 0 0 ∧ Traps (.csrc n a) s .illegal 0 0) ∧
    (¬readOnly → ¬user → s.svc = false →
      Traps (.csrw n a) s .priv 0 0 ∧ Traps (.csrs n a) s .priv 0 0 ∧ Traps (.csrc n a) s .priv 0 0) ∧
    (s.svc = true → Leaves (.ageWrite a) s (s.csrPut .age (s.reg a)) ∧ Leaves (.tvWrite a) s (s.csrPut .tv (s.reg a))))

/-- What a write leaves: the fields that R18 to R22 and the chapters let software write take the operand's bits, reserved
and read-only fields keep theirs (R4), every other control register keeps its value; c.lbudget stops at 9,600 and the
temperature thresholds stay within 40 to 115 (R209, R298). What a write of c.age does to queued records (R195) is in
QueuesOrderTheLaunches, not here.
That c.chip keeps 16 bits (DEDUCED), c.part all 32, and c.mcheck and c.tv none beyond the named ones (DESIGN CHOICE), is
the model’s choice (log 24). -/
def Obligations.ControlRegisterWriteMasks : Prop :=
  ∀ (s : State) (n : Csr) (x : Word), n ∉ [Csr.core, .tile, .phase, .lphase, .cyc, .cych, .xcyc, .snapseq] →
    let mask : Word := match n with
      | .status => 0xF | .tvec => 0x0FFFFFFE | .cause => 0xFFFF87FF | .xerr => 0xFF07FFFF | .fmode => 0xF1
      | .sbase => 0x0FFFFFC0 | .slew => 0x3F | .mcheck => 1 | .tv => 0xFFFF | .lmargin => 0xFF | .vpcfg => 0x00FF7F03
      | .vpst => 0xFF9F | .age => 0x00FFFFFF | .snapctl => 0x13F | .chip => 0xFFFF | _ => 0xFFFFFFFF
    let t := s.csrPut n x
    (n ∉ [Csr.lbudget, .thot, .tmig] → t.csrGet n = (s.csrGet n &&& ~~~mask) ||| (x &&& mask)) ∧
    (n = .lbudget → (t.csrGet n).toNat = Nat.min 9600 (x.toNat % 16384)) ∧
    (n = .thot ∨ n = .tmig → (t.csrGet n).toNat = Nat.max 40 (Nat.min 115 (x.toNat % 256))) ∧
    (∀ m, m ≠ n → t.csrGet m = s.csrGet m) ∧ t.c.mem = s.c.mem ∧ t.c.acc = s.c.acc ∧ t.c.s = s.c.s ∧ t.c.v = s.c.v

/-! System instructions (06). -/

/-- halt traps with ACC_HELD while a bank is allocated, and waits while an engine works; then the core stops, parked copies,
monitors and messages are gone, c.spillmap is 0, and the phase controller is told; memory and registers stay.
fence waits for the engines and discards the fetch buffer (R107). evwr queues a record with c.core, the next sequence
number, c.xcyc and its operands, and waits while the tile's queue holds 16 (R108).
snap sends a trigger and waits, and once the snapshot is latched it writes its sequence number (R105). xload checks an
image in local memory, installs it where every check passes, and writes the index above the status (R106); it waits for the
local exchanges of the domain that run. A malformed header gives status 2, another NCORE than c.ncore 3, an SLEN of 0 or above 4,096 4
(R161); an image of one segment without entries is installed as R160 lays it out. That a code word of the image with an uncorrectable
error traps with ECC_UNCORR and is logged is the model's choice (log 57, DESIGN CHOICE).
That evwr records the xc in which its record enters the queue (log 47, DESIGN CHOICE) and that xload waits for running
local exchanges of the whole partition (log 22, DEDUCED) is the model’s choice. -/
def Obligations.HaltFenceEventAndImage : Prop :=
  (∀ (s : State), s.inExchange = false →
    let idle := s.c.mx = [] ∧ s.c.head = [] ∧ s.c.copy = [] ∧ ∀ m ∈ s.c.held, m.toNat % 16 ≠ 1
    (s.c.accmap ≠ 0 → Traps .halt s .accHeld 0 s.c.accmap) ∧
    (s.c.accmap = 0 → ¬idle → Waits .halt s) ∧
    (s.c.accmap = 0 → idle → Completes .halt s { s with
      c := { s.c with
        run := .halted, stall := false, pend := .none, parked := Vector.replicate 64 {}, spillmap := 0,
        mon := Vector.replicate 8 {}, mbox := Vector.replicate 32 0, mboxHead := 0, mboxCount := 0 }
      p := { s.p with trees := { s.p.trees with halted := s.p.trees.halted ++ [16 * s.t.num + s.t.idx.val] } }
      out := s.out ++ [.halted (16 * s.t.num + s.t.idx.val)] })) ∧
  (∀ (s : State) (a b : Reg), s.inExchange = false →
    let idle := s.c.mx = [] ∧ s.c.head = [] ∧ s.c.copy = [] ∧ ∀ m ∈ s.c.held, m.toNat % 16 ≠ 1
    (idle → Leaves .fence s { s with c := { s.c with stale := [] } }) ∧
    (¬idle → Waits .fence s) ∧
    (s.t.evq.length < 16 → Leaves (.evwr a b) s { s with
      c := { s.c with evSeq := s.c.evSeq + 1 }
      t := { s.t with evq := s.t.evq ++ [{ src := 16 * s.t.num + s.t.idx.val, kind := 0, seq := s.c.evSeq,
                                           xcyc := BitVec.ofNat 32 s.xc, d0 := s.reg a, d1 := s.reg b }] } }) ∧
    (16 ≤ s.t.evq.length → Waits (.evwr a b) s)) ∧
  (∀ (s : State) (d a : Reg), s.svc = true → s.inExchange = false →
    (∀ n, s.c.pend = .snap (some n) → Writes (.snap d) s d n) ∧
    (s.c.pend = .none → Completes (.snap d) s { s with
      chip := { s.chip with snapTrig := true }
      c := { s.c with stall := true, pend := .snap none } }) ∧
    (viewOf (s.reg a) = 0 → offOf (s.reg a) + 64 ≤ 0xA0000 → (s.reg a).toNat % 64 = 0 → s.c.memErr = [] → s.localRuns ≠ [] →
      Waits (.xload d a) s) ∧
    (∀ w, viewOf (s.reg a) = 0 → offOf (s.reg a) + 64 ≤ 0xA0000 → (s.reg a).toNat % 64 = 0 → s.c.memErr = [w] →
      8 * w < offOf (s.reg a) + 64 → offOf (s.reg a) < 8 * w + 8 →
      Completes (.xload d a) s ((s.logError (0x1000 + s.t.num) 0 (8 * w) 0).enter (causeWord .eccUncorr 0 s.ir.len) s.c.pc
        (s.reg a) s.ir.eword)) ∧
    (RawBlock s (s.reg a) 64 64 → s.c.memErr = [] → s.localRuns = [] →
      let off := offOf (s.reg a)
      let word (i : Nat) := littleEndian s.c.mem (off + 4 * i) 4
      let entry (i : Nat) := littleEndian s.c.mem (off + word 2 + 4 * i) 4
      let nseg := word 1 / 2 ^ 8 % 2 ^ 8
      let malformed := word 0 ≠ 0x43415256 ∨ word 1 % 2 ^ 8 ≠ 1 ∨ word 2 % 16 ≠ 0 ∨ word 3 % 8 ≠ 0 ∨ word 4 % 8 ≠ 0 ∨
        word 5 % 8 ≠ 0 ∨ word 6 < 64 ∨ 0xA0000 < off + word 6 ∨ ∃ i, 7 ≤ i ∧ i < 16 ∧ word i ≠ 0
      let len := entry 0 / 2 ^ 16
      let seg : Segment := { seg := entry 0 % 64, loc := decide (entry 0 / 2 ^ 8 % 2 = 1), len := len }
      (malformed → Writes (.xload d a) s d 2) ∧
      (¬malformed → 1 ≤ nseg → nseg ≤ 64 → word 1 / 2 ^ 16 ≠ s.c.ncore.toNat → Writes (.xload d a) s d 3) ∧
      (¬malformed → nseg = 1 → word 1 / 2 ^ 16 = s.c.ncore.toNat → word 2 + 16 ≤ word 6 →
        entry 0 / 2 ^ 6 % 4 = 0 → entry 0 / 2 ^ 9 % 2 ^ 7 = 0 → (∀ i, 1 ≤ i → i < 4 → entry i = 0) →
        (len = 0 ∨ 4096 < len → Writes (.xload d a) s d 4) ∧
        (1 ≤ len → len ≤ 4096 → Leaves (.xload d a) s (({ s with p := { s.p with
          image := some { ncore := s.c.ncore.toNat, segs := [seg] } } } : State).setReg d 0)))) ∧
    (viewOf (s.reg a) = 0 → offOf (s.reg a) + 64 ≤ 0xA0000 → (s.reg a).toNat % 64 = 0 → s.c.memErr = [] → s.localRuns = [] →
      let room := 0xA0000 - offOf (s.reg a)
      let len := imgLen (s.c.mem.readBytes (offOf (s.reg a)) 64)
      let bytes := s.c.mem.readBytes (offOf (s.reg a)) (if len ≤ room then max 64 len else 64)
      let r := s.imageStatus bytes room s.c.ncore.toNat
      (r.1 = 0 → Leaves (.xload d a) s (({ s with p := { s.p with image := some (imageOf bytes) } } : State).setReg d
        (BitVec.ofNat 32 (r.2 % 65536 * 65536)))) ∧
      (r.1 ≠ 0 → Writes (.xload d a) s d (BitVec.ofNat 32 (r.2 % 65536 * 65536 + r.1)))))

/-! Page 1 (07, 09, 10). -/

/-- hset loads a handle from 16 bytes of local memory that pass R31, and traps with HANDLE, DETAIL 1, on fields that do not;
an operand in another view, beyond local memory or not aligned traps with VIEW, LOCAL_RANGE or ALIGN; hget reads a field, a
slot count or a slot address; hreset empties the handle; hset and hreset wait while it is in use.
hwaitf and hwaite go on once n slots are filled or free, wait while something outstanding can bring them, and else trap;
hadvc and hadvp step head or tail by n slots that are filled or free; an unset handle traps with DETAIL 5. -/
def Obligations.HandleInstructions : Prop :=
  (∀ (s : State) (d : HReg) (r a : Reg), s.inExchange = false →
    let h := s.handle d
    let filled := (h.tail.toNat + 65536 - h.head.toNat) % 65536
    let slot (i : Half) : Word := if h.count = 0 then 0 else BitVec.ofNat 32 (h.base.toNat + i.toNat % h.count.toNat * h.size.toNat)
    (RawBlock s (s.reg a) 16 16 → s.handleBusy d = false →
      let x := descriptorAt s.c.mem (offOf (s.reg a))
      (HandleFields x → Leaves (.hset d a) s (s.setHandle d x)) ∧
      (¬HandleFields x → Traps (.hset d a) s .handle 1 (BitVec.ofNat 32 d.val))) ∧
    (RawBlock s (s.reg a) 16 16 → s.handleBusy d = true → Waits (.hset d a) s) ∧
    (let reserved := viewOf (s.reg a) = 7 ∨ 11 ≤ viewOf (s.reg a)
     (viewOf (s.reg a) ≠ 0 → ¬reserved → Traps (.hset d a) s .view 0 (s.reg a)) ∧
     (reserved ∨ (viewOf (s.reg a) = 0 ∧ 0xA0000 < offOf (s.reg a) + 16) → Traps (.hset d a) s .localRange 0 (s.reg a)) ∧
     (viewOf (s.reg a) = 0 → offOf (s.reg a) + 16 ≤ 0xA0000 → offOf (s.reg a) % 16 ≠ 0 →
       Traps (.hset d a) s .align 0 (s.reg a))) ∧
    Writes (.hget r d 0) s r h.base ∧ Writes (.hget r d 1) s r h.size ∧ Writes (.hget r d 2) s r h.count ∧
    Writes (.hget r d 3) s r (BitVec.ofNat 32 (h.head.toNat + 65536 * h.tail.toNat)) ∧
    Writes (.hget r d 4) s r (BitVec.ofNat 32 filled) ∧ Writes (.hget r d 5) s r (h.count - BitVec.ofNat 32 filled) ∧
    Writes (.hget r d 6) s r (slot h.head) ∧ Writes (.hget r d 7) s r (slot h.tail) ∧
    (s.handleBusy d = false → Leaves (.hreset d) s (s.setHandle d { h with head := 0, tail := 0 })) ∧
    (s.handleBusy d = true → Waits (.hreset d) s)) ∧
  (∀ (s : State) (d : HReg) (a : Reg), s.inExchange = false →
    let h := s.handle d
    let n := (s.reg a).toNat
    let filled := (h.tail.toNat + 65536 - h.head.toNat) % 65536
    let free := h.count.toNat - filled
    let no := BitVec.ofNat 32 d.val
    let brings := ∃ q ∈ s.c.copy, q.hv = true ∧ q.hreg = d ∧ (q.kind = 0 ∨ q.kind = 2 ∨ q.kind = 4)
    let takes := (∃ q ∈ s.c.mx, q.popA = some d ∨ q.popB = some d) ∨
      ∃ q ∈ s.c.copy, q.hv = true ∧ q.hreg = d ∧ (q.kind = 1 ∨ q.kind = 3)
    (h.count = 0 → Traps (.hwaitf d a) s .handle 5 no ∧ Traps (.hwaite d a) s .handle 5 no ∧
      Traps (.hadvc d a) s .handle 5 no ∧ Traps (.hadvp d a) s .handle 5 no) ∧
    (HandleFields h →
      (h.count.toNat < n → Traps (.hwaitf d a) s .handle 3 no ∧ Traps (.hwaite d a) s .handle 3 no) ∧
      (n ≤ h.count.toNat →
        (n ≤ filled → Leaves (.hwaitf d a) s s) ∧ (filled < n → brings → Waits (.hwaitf d a) s) ∧
        (filled < n → ¬brings → Traps (.hwaitf d a) s .handle 4 no) ∧
        (n ≤ free → Leaves (.hwaite d a) s s) ∧ (free < n → takes → Waits (.hwaite d a) s) ∧
        (free < n → ¬takes → Traps (.hwaite d a) s .handle 4 no)) ∧
      (n ≤ filled → Leaves (.hadvc d a) s (s.setHandle d { h with head := BitVec.ofNat 16 (h.head.toNat + n) })) ∧
      (filled < n → Traps (.hadvc d a) s .handle 2 no) ∧
      (n ≤ free → Leaves (.hadvp d a) s (s.setHandle d { h with tail := BitVec.ofNat 16 (h.tail.toNat + n) })) ∧
      (free < n → Traps (.hadvp d a) s .handle 2 no)))

/-- Each barrier instruction updates its object with the flip test, reads its words, waits for its phase, or traps: an arrival
beyond EXPA with BARRIER_OVER, an expectation of zero and source 3 with ILLEGAL, a wait that nothing can end with DETAIL 14.
wmsg waits for a message and writes the count; rmsg takes the oldest, low word to s[d] and high word to s[a], and zeros
where there is none; mcnt reads the count; msend puts a word pair into the service inbox and waits while it holds 64. A
posted message enters the mailbox where nothing holds it, and is held in an exchange phase or while the mailbox is full; one for
the context in the shadow enters that context's mailbox (R206).
monn arms a monitor on the line of an address and writes 0, or 1 where eight others are armed; waita waits on it until a
write fires it, disarms it and writes 0; clra disarms it. An address in the bank and register views traps with VIEW, DETAIL 5,
one in a reserved view or beyond local memory with LOCAL_RANGE. -/
def Obligations.BarrierMailboxAndMonitorInstructions : Prop :=
  (∀ (s : State) (a : Reg) (n : BarName), s.inExchange = false →
    let b := s.barrier n
    let lacks := b.pena ≠ b.expa ∨ b.penb.toNat < b.expb.toNat
    let updated (x : Barrier) : State :=
      { s with c := { s.c with bar := s.c.bar.set n (flipped x), cycleBar := [(n, x)] } }
    ((s.reg a).toNat % 4 ≠ 3 →
      Leaves (.barm a n) s (updated { b with src := BitVec.ofNat 2 (s.reg a).toNat })) ∧
    ((s.reg a).toNat % 4 = 3 → Traps (.barm a n) s .illegal 0 0) ∧
    (b.pena.toNat < b.expa.toNat → Leaves (.barr n) s (updated { b with pena := b.pena + 1 })) ∧
    (b.expa.toNat ≤ b.pena.toNat → Traps (.barr n) s .barrierOver 0 0) ∧
    (b.ph ≠ (s.reg a).getLsbD 0 → Leaves (.bwait a n) s s) ∧
    (b.ph = (s.reg a).getLsbD 0 → ¬lacks ∨ s.barrierAble n = true → Waits (.bwait a n) s) ∧
    (b.ph = (s.reg a).getLsbD 0 → lacks → s.barrierAble n = false → Traps (.bwait a n) s .illegal 14 0) ∧
    Writes (.btest a n) s a (BitVec.ofNat 32
      (b.expa.toNat + 2 ^ 8 * b.pena.toNat + 2 ^ 16 * b.ph.toNat + 2 ^ 17 * b.src.toNat)) ∧
    Leaves (.bstat a n) s ((updated { b with status := 0 }).setReg a b.status) ∧
    (s.reg a ≠ 0 → Leaves (.bexp a n) s (updated
      { b with expa := BitVec.ofNat 8 (s.reg a).toNat, expb := BitVec.ofNat 24 ((s.reg a).toNat / 256) })) ∧
    (s.reg a = 0 → Traps (.bexp a n) s .illegal 0 0) ∧
    Leaves (.binv n) s (updated
      { expa := 1, pena := 0, ph := false, src := 0, expb := 0, penb := 0, status := 0 })) ∧
  (∀ (s : State) (d a b : Reg) (m : DWord),
    let count := s.c.mboxCount.toNat
    let oldest := s.c.mbox[s.c.mboxHead.toNat]
    let popped : State := { s with c := { s.c with mboxHead := s.c.mboxHead + 1, mboxCount := s.c.mboxCount - 1 } }
    let posted : State := { s with input := { s.input with msgs := [m], flag := false } }
    let shadow : State := { s with input := { s.input with msgs := [m], flag := true } }
    (s.inExchange = false →
      (count = 0 → Waits (.wmsg d) s ∧ Leaves (.rmsg d a) s ((s.setReg d 0).setReg a 0)) ∧
      (count ≠ 0 → Writes (.wmsg d) s d (BitVec.ofNat 32 count) ∧
        Leaves (.rmsg d a) s ((popped.setReg d (BitVec.ofNat 32 oldest.toNat)).setReg a
          (BitVec.ofNat 32 (oldest.toNat / 2 ^ 32)))) ∧
      Writes (.mcnt d) s d (BitVec.ofNat 32 count) ∧
      (s.t.inbox.length < 64 → Leaves (.msend a b) s { s with t := { s.t with inbox :=
        s.t.inbox ++ [.user s.t.idx.val (BitVec.ofNat 64 ((s.reg a).toNat + 2 ^ 32 * (s.reg b).toNat))] } }) ∧
      (64 ≤ s.t.inbox.length → Waits (.msend a b) s) ∧
      (s.c.held = [] → s.inTransit = false → count < 32 → Completes .mailboxPost posted (posted.enqueue m))) ∧
    (s.c.held = [] → s.inExchange = true ∨ s.inTransit = true ∨ 32 ≤ count →
      Completes .mailboxPost posted { posted with c := { s.c with held := [m] } }) ∧
    (s.sh.held = [] → s.sh.exch = none → s.inTransit = false → s.sh.mboxCount.toNat < 32 →
      Completes .mailboxPost shadow { shadow with sh := (State.enqueue { s with c := s.sh } m).c }) ∧
    Completes .serviceInboxTake s { s with t := { s.t with inbox := s.t.inbox.drop 1 } }) ∧
  (∀ (s : State) (d a : Reg), s.inExchange = false →
    let ea := s.reg a
    let line := offOf ea / 64 * 64
    let armed (i : Fin 8) := s.c.mon[i].armed = true ∧ s.c.mon[i].line = line
    (8 ≤ viewOf ea → viewOf ea ≤ 10 → Traps (.monn d a) s .view 5 ea ∧ Traps (.waita d a) s .view 5 ea ∧
      Traps (.clra a) s .view 5 ea) ∧
    (viewOf ea = 7 ∨ 11 ≤ viewOf ea ∨ (viewOf ea ≤ 6 ∧ 0x9FFFF < offOf ea) → Traps (.monn d a) s .localRange 0 ea ∧
      Traps (.waita d a) s .localRange 0 ea ∧ Traps (.clra a) s .localRange 0 ea) ∧
    (viewOf ea ≤ 6 → offOf ea ≤ 0x9FFFF →
      (∀ i : Fin 8, armed i → (∀ j, j < i → ¬armed j) → Writes (.monn d a) s d 0 ∧
        Leaves (.clra a) s (s.setMonitor i { armed := false, fired := false, line := 0 }) ∧
        (s.c.mon[i].fired = true → Leaves (.waita d a) s
          ((s.setMonitor i { armed := false, fired := false, line := 0 }).setReg d 0)) ∧
        (s.c.mon[i].fired = false → Completes (.waita d a) s { s with c := { s.c with stall := true, pend := .waita } })) ∧
      ((∀ i, ¬armed i) → Leaves (.clra a) s s ∧
        (∀ i : Fin 8, s.c.mon[i].armed = false → (∀ j : Fin 8, j < i → s.c.mon[j].armed = true) →
          let t := s.setMonitor i { armed := true, fired := false, line := line }
          Leaves (.monn d a) s (t.setReg d 0) ∧
          Completes (.waita d a) s { t with c := { t.c with stall := true, pend := .waita } }) ∧
        ((∀ i : Fin 8, s.c.mon[i].armed = true) → Writes (.monn d a) s d 1 ∧ Writes (.waita d a) s d 1))))

/-! Vector instructions (04, 07). -/

/-- Every lane-by-lane instruction completes in a compute phase: an active lane holds its result, an inactive one keeps its
bits or becomes 0 by Z, c.fmode gains the flags of the active lanes, and nothing else changes but pc and the loop. -/
def Obligations.VectorLanesUnderMask : Prop :=
  ∀ (s : State) (i : Instr) (t : ElemType) (d : Reg) (m : VMod) (f : Nat → Nat × Flags),
    laneResult s i = some (t, d, m, f) → s.inExchange = false →
    let active (k : Nat) : Bool := m.km = 0 || s.c.k[m.km].getLsbD k
    ∃ x fl, VectorCompletes i s d x fl ∧
      (∀ k, k < t.lanes → laneAt t x k =
        if active k then (f k).1 % 2 ^ t.width else if m.z then 0 else laneAt t (s.vreg d) k) ∧
      (∀ bit, fl.getLsbD bit = true ↔ ∃ k, k < t.lanes ∧ active k = true ∧ (f k).2.getLsbD bit = true)

/-- R119, R120 on integer types: sums, differences, products, products with a sum, magnitudes and negations wrap or
saturate; minima, maxima, vsat and compares follow the type's signedness; shifts take the amount modulo the width.
That an integer lane which wraps or is clamped raises no flag is the model’s choice (log 46, DESIGN CHOICE). -/
def Obligations.IntegerLaneArithmetic : Prop :=
  ∀ (t : ElemType) (sat ftz : Bool) (x y z : Nat), t.isI = true → x < 2 ^ t.width → y < 2 ^ t.width → z < 2 ^ t.width →
    let X := laneNumber t x
    let Y := laneNumber t y
    let Z := laneNumber t z
    laneAdd t sat ftz x y = (laneBits t sat (X + Y), 0) ∧
    laneSub t sat ftz x y = (laneBits t sat (X - Y), 0) ∧
    laneMul t sat ftz x y = (laneBits t sat (X * Y), 0) ∧
    laneFma t sat ftz x y z = (laneBits t sat (X * Y + Z), 0) ∧
    (t.isS = true → laneAbs t sat ftz x = (laneBits t sat X.natAbs, 0) ∧ laneNeg t sat ftz x = (laneBits t sat (-X), 0)) ∧
    laneMin t ftz x y = (if X ≤ Y then x else y, 0) ∧
    laneMax t ftz x y = (if X ≤ Y then y else x, 0) ∧
    (t.isS = true → laneSat t ftz x y = (laneBits t false (Min.min (Max.max X (-Y)) Y), 0)) ∧
    (t.isS = false → laneSat t ftz x y = (if X ≤ Y then x else y, 0)) ∧
    (laneEq t ftz x y = true ↔ X = Y) ∧ (laneLt t ftz x y = true ↔ X < Y) ∧ (laneLe t ftz x y = true ↔ X ≤ Y) ∧
    (t.isS = true → laneSra t x y = (laneBits t false (X / 2 ^ (y % t.width)), 0))

/-- The compares write one bit for each active lane and 0 elsewhere; k0 stays all ones. The mask instructions work on whole
mask registers (R119, R127).
The reductions leave the tree over the active lanes in lane 0 and 0 in every other lane (R56, R122); vscan leaves the
running sums in the active lanes, with the flags of their steps; vmovs reads one lane, extended by its type.
The tree of R56 over a power of two of lanes pairs neighbours, then pairs the results, and so on. -/
def Obligations.CompareMaskAndReduceResults : Prop :=
  (∀ (s : State) (t : ElemType) (d e f : KReg) (r a b : Reg) (m : VMod), s.inExchange = false →
    let active (k : Nat) : Bool := m.km = 0 || s.c.k[m.km].getLsbD k
    let mask (test : Nat → Nat → Bool) (x : DWord) : Prop := ∀ k, x.getLsbD k =
      (decide (k < t.lanes) && active k && test (laneAt t (s.vreg a) k) (laneAt t (s.vreg b) k))
    (∃ x, mask (laneEq t s.ftz) x ∧ Leaves (.vcmpeq t d a b m) s (s.setK d x)) ∧
    (∃ x, mask (laneLt t s.ftz) x ∧ Leaves (.vcmplt t d a b m) s (s.setK d x)) ∧
    (∃ x, mask (laneLe t s.ftz) x ∧ Leaves (.vcmple t d a b m) s (s.setK d x)) ∧
    Leaves (.kand d e f) s (s.setK d (s.kreg e &&& s.kreg f)) ∧ Leaves (.kor d e f) s (s.setK d (s.kreg e ||| s.kreg f)) ∧
    Leaves (.kxor d e f) s (s.setK d (s.kreg e ^^^ s.kreg f)) ∧ Leaves (.knot d e) s (s.setK d (~~~(s.kreg e))) ∧
    Leaves (.kmov d a b) s (s.setK d (BitVec.ofNat 64 ((s.reg a).toNat + 2 ^ 32 * (s.reg b).toNat))) ∧
    Writes (.kpop r e) s r (BitVec.ofNat 32 ((List.range 64).map fun k => ((s.kreg e).getLsbD k).toNat).sum) ∧
    s.kreg 0 = BitVec.allOnes 64 ∧ (∀ x, s.setK 0 x = s)) ∧
  (∀ (s : State) (t : ElemType) (d a b : Reg) (m : VMod), s.inExchange = false →
    let active (k : Nat) : Bool := m.km = 0 || s.c.k[m.km].getLsbD k
    let entering (identity : Nat) : List Nat :=
      (List.range t.lanes).map fun k => if active k then laneAt t (s.vreg a) k else identity
    let reduced (i : Instr) (r : Nat × Flags) : Prop := ∃ x, VectorCompletes i s d x r.2 ∧
      laneAt t x 0 = r.1 % 2 ^ t.width ∧ ∀ k, 0 < k → k < t.lanes → laneAt t x k = 0
    reduced (.vredsum t d a m) (laneReduce t (laneAdd t m.sat s.ftz) (entering (sumIdentity t))) ∧
    reduced (.vredmax t d a m) (laneReduce t (laneMax t s.ftz) (entering (maxIdentity t))) ∧
    reduced (.vredmin t d a m) (laneReduce t (laneMin t s.ftz) (entering (minIdentity t))) ∧
    (let sums := scanFrom (laneAdd t m.sat s.ftz) (sumIdentity t) (entering (sumIdentity t))
     ∃ x fl, VectorCompletes (.vscan t d a m) s d x fl ∧
       (∀ k, k < t.lanes → laneAt t x k =
         if active k then (sums.getD k (0, 0)).1 % 2 ^ t.width else if m.z then 0 else laneAt t (s.vreg d) k) ∧
       ∀ bit, fl.getLsbD bit = true ↔ ∃ k, k < t.lanes ∧ active k = true ∧ (sums.getD k (0, 0)).2.getLsbD bit = true) ∧
    (let x := laneAt t (s.vreg a) ((s.reg b).toNat % t.lanes)
     Writes (.vmovs t d a b) s d (BitVec.ofInt 32 (laneNumber t x)))) ∧
  (∀ (op : Nat → Nat → Nat × Flags) (k : Nat) (xs : List Nat), xs.length = 2 ^ (k + 1) →
    pairTree op 0 [xs.headD 0] = (xs.headD 0, 0) ∧
    ∃ ys fl, ys.length = 2 ^ k ∧
      (∀ j, j < 2 ^ k → ys.getD j 0 = (op (xs.getD (2 * j) 0) (xs.getD (2 * j + 1) 0)).1) ∧
      (∀ bit, fl.getLsbD bit = true ↔ ∃ j, j < 2 ^ k ∧ (op (xs.getD (2 * j) 0) (xs.getD (2 * j + 1) 0)).2.getLsbD bit = true) ∧
      pairTree op (k + 1) xs = ((pairTree op k ys).1, fl ||| (pairTree op k ys).2))

/-- A floating-point lane rounds the exact sum, difference, product, product with a sum, reciprocal or reciprocal root once, to
nearest, ties to even, with its flags, and flushes under FTZ; NaNs, infinities and zeros give what R54, R55 and R60 say. Minima,
maxima, vsat and compares go by the order of the values, -0 below +0 but equal to it; vabs and vneg change the sign alone. -/
def Obligations.FloatLaneArithmetic : Prop :=
  ∀ (t : ElemType) (f : Fmt) (sat ftz : Bool) (x y z : Nat), fmtOf t = some f → f.infs = true →
    x < 2 ^ t.width → y < 2 ^ t.width → z < 2 ^ t.width →
    let X := laneHeld t ftz x
    let Y := laneHeld t ftz y
    let Z := laneHeld t ftz z
    let one := 2 ^ f.scale
    let inf (neg : Bool) : Nat := f.sign neg + f.top + 1
    let negative (v : Nat) : Prop := v / 2 ^ (f.eb + f.fb) % 2 = 1
    let u := f.taken ftz x
    let v := f.taken ftz y
    let rank (w : Nat) : Int := if w / 2 ^ (f.eb + f.fb) % 2 = 1 then -(f.unsigned w : Int) else f.unsigned w
    let numbers := X ≠ .nan ∧ Y ≠ .nan
    f.Gives sat ftz (Held.sum [X, Y]) 1 (decide numbers) (laneAdd t sat ftz x y) ∧
    f.Gives sat ftz (Held.sum [X, Y.opposite]) 1 (decide numbers) (laneSub t sat ftz x y) ∧
    f.Gives sat ftz (X.times Y) one (decide numbers) (laneMul t sat ftz x y) ∧
    f.Gives sat ftz (Held.sum [X.times Y, Z.finer one]) one (decide (numbers ∧ Z ≠ .nan)) (laneFma t sat ftz x y z) ∧
    (∀ a m, X = .num a m → m ≠ 0 → f.Gives false ftz (.num a (one * one)) m false (laneRcp t ftz x)) ∧
    (∀ a, X = .num a 0 → laneRcp t ftz x = (inf a, flagOF) ∧ laneRsqrt t ftz x = (inf a, flagOF)) ∧
    (∀ a, X = .inf a → laneRcp t ftz x = (f.sign a, 0) ∧ laneRsqrt t ftz x = if a then (f.canonical, flagNV) else (0, 0)) ∧
    (∀ m, X = .num true m → m ≠ 0 → laneRsqrt t ftz x = (f.canonical, flagNV)) ∧
    (∀ m, X = .num false m → m ≠ 0 → ∃ q, f.Rounds false false (fun n => compare (n * n * m) (4 * one * one * one)) q ∧
      laneRsqrt t ftz x = f.flushed ftz q) ∧
    (X = .nan → laneRcp t ftz x = (f.canonical, 0) ∧ laneRsqrt t ftz x = (f.canonical, 0) ∧
      laneAbs t sat ftz x = (f.canonical, 0) ∧ laneNeg t sat ftz x = (f.canonical, 0)) ∧
    (X ≠ .nan → laneAbs t sat ftz x = (f.unsigned u, 0) ∧
      laneNeg t sat ftz x = (if negative u then f.unsigned u else f.sign true + f.unsigned u, 0)) ∧
    (¬numbers → laneMax t ftz x y = (f.canonical, 0) ∧ laneMin t ftz x y = (f.canonical, 0)) ∧
    (numbers →
      laneMax t ftz x y = (if rank u < rank v ∨ (rank u = rank v ∧ negative u) then v else u, 0) ∧
      laneMin t ftz x y = (if rank v < rank u ∨ (rank u = rank v ∧ negative v) then v else u, 0)) ∧
    laneSat t ftz x y = laneMin t ftz (laneMax t ftz x (laneNeg t false ftz y).1).1 y ∧
    (laneLt t ftz x y = true ↔ numbers ∧ rank u < rank v) ∧ (laneLe t ftz x y = true ↔ numbers ∧ rank u ≤ rank v) ∧
    (laneEq t ftz x y = true ↔ numbers ∧ rank u = rank v)

/-- A conversion rounds once to the target's format and meets its limits, or rounds to an integer and saturates, with the flags of
R50 and R51; elements of a B4 block convert by the same rules (R47).
vexp takes the steps of R59 in FP32, rounds their result to the lane's format, and sets the flags that R59 names; NaNs,
infinities and zeros give what it says.
A block of eight lanes becomes a B4 block: the exponent that its largest magnitude gives, each code nearest to its value on ties
even, NaN or infinite lanes the NaN block with NV (R49).
That a nonzero value whose integer is 0 raises NX without UF, and one whose B4 code is zero UF besides NX, is the
model’s choice (log 46, DESIGN CHOICE). -/
def Obligations.ConversionsAndExponential : Prop :=
  (∀ (td ts : ElemType) (sat ftz : Bool) (x scale code : Nat), x < 2 ^ ts.width → scale < 256 → code < 16 →
    let lo : Int := if td.isS then -(2 ^ (td.width - 1)) else 0
    let hi : Int := if td.isS then 2 ^ (td.width - 1) - 1 else 2 ^ td.width - 1
    let toInteger (h : Held) (place : Nat) (r : Nat × Flags) : Prop :=
      (h = .nan → r = (0, flagNV)) ∧
      (∀ a, h = .inf a → r = (laneBits td false (if a then lo else hi), flagNV)) ∧
      (∀ a n, h = .num a n → ∃ k : Int,
        ((2 * (h.int - k * 2 ^ place)).natAbs < 2 ^ place ∨ ((2 * (h.int - k * 2 ^ place)).natAbs = 2 ^ place ∧ k % 2 = 0)) ∧
        r = (laneBits td true k, if lo ≤ k ∧ k ≤ hi then (if k * 2 ^ place = h.int then 0 else flagNX) else flagNV))
    (∀ fd, fmtOf td = some fd →
      fd.Gives sat ftz ((laneHeld ts ftz x).finer (2 ^ fd.scale)) (2 ^ laneScale ts) false (convert td ts sat ftz x) ∧
      fd.Gives sat ftz ((b4Held scale code).finer (2 ^ fd.scale)) (2 ^ 34) false (fromVal td sat ftz (b4Value scale code))) ∧
    (∀ fs, fmtOf td = none → fmtOf ts = some fs → toInteger (laneHeld ts ftz x) fs.scale (convert td ts sat ftz x)) ∧
    (fmtOf td = none → toInteger (b4Held scale code) 34 (fromVal td sat ftz (b4Value scale code))) ∧
    (fmtOf td = none → fmtOf ts = none → convert td ts sat ftz x = (laneBits td sat (laneNumber ts x), 0))) ∧
  (∀ (t : ElemType) (f : Fmt) (ftz : Bool) (x : Nat), fmtOf t = some f → f.infs = true → x < 2 ^ t.width →
    let X := laneHeld t ftz x
    (X = .nan → laneExp t ftz x = (f.canonical, 0)) ∧
    (∀ a, X = .inf a → laneExp t ftz x = (if a then 0 else f.top + 1, 0)) ∧
    (∀ a, X = .num a 0 → laneExp t ftz x = (f.bias * 2 ^ f.fb, 0)) ∧
    (∀ a m, X = .num a m → m ≠ 0 → ∃ y, ExpSteps (convert .f32 t false false (f.taken ftz x)).1 y ∧
      let r := (f.flushed ftz ((convert t .f32 false false y).1, 0)).1
      laneExp t ftz x = (r, flagNX ||| match f.held r with
        | .inf _ => flagOF
        | .num _ n => if n < 2 ^ f.fb then flagUF else 0
        | .nan => 0))) ∧
  (∀ (t : ElemType) (ftz : Bool) (xs : List Nat) (b4 : B4Type), xs.length = 8 → (∀ x ∈ xs, x < 2 ^ t.width) →
    let type := b4.code.toNat
    let held := xs.map (laneHeld t ftz)
    let largest := (held.map fun h => h.int.natAbs).foldl Nat.max 0
    let r := b4Convert (xs.map (toVal t ftz)) b4
    let finite := ∀ h ∈ held, ∃ a n, h = .num a n
    (¬finite → r = (List.replicate 8 0, 64 * type + 63, flagNV)) ∧
    (finite → largest = 0 → r = (List.replicate 8 0, 64 * type, 0)) ∧
    (finite → largest ≠ 0 →
      let e := (Max.max (0 : Int) (Min.min 62 (Nat.log2 largest - laneScale t - (if type ≤ 1 then 2 else 3) + 31))).toNat
      let dist (i c : Nat) : Nat :=
        ((held.getD i .nan).int * 2 ^ 34 - codeEighths type c * 2 ^ (e + laneScale t)).natAbs
      r.1.length = 8 ∧ r.2.1 = 64 * type + e ∧
      (∀ i, i < 8 →
        let c := r.1.getD i 0
        c < 16 ∧ (codeEighths type c = 0 → c = 0) ∧
        ∀ k, k < 16 → dist i c < dist i k ∨ (dist i c = dist i k ∧ (c % 2 = 0 ∨ codeEighths type k = codeEighths type c))) ∧
      ∀ bit, r.2.2.getLsbD bit = true ↔
        (bit = 7 ∧ ∃ i, i < 8 ∧ dist i (r.1.getD i 0) ≠ 0) ∨
        (bit = 6 ∧ ∃ i, i < 8 ∧ dist i (r.1.getD i 0) ≠ 0 ∧ codeEighths type (r.1.getD i 0) = 0)))

/-- A retiring mma adds to each element of its tile the exact sum of the products of a row and a column, rounded once to the
accumulator's format, with the rule of NaNs, infinities and zeros of R55.
A reduction of FP32 lanes combines the contributions in ascending logical core by the tree of R57, each node rounded; a NaN
becomes the canonical one and sets bit 2 of the status, an infinity that is contributed or arises sets bit 1 (R164).
That the operation reads and writes memory in the one step of its retirement is the model’s choice (log 17, DEDUCED). -/
def Obligations.FloatSums : Prop :=
  (∀ (s : State) (q : MxOp) (qs : List MxOp) (acc : AccType) (f : Fmt) (d : Reg) (a b : HReg),
    s.c.mx = q :: qs → q.started = true → q.op = .mma acc d a b → acc.fmt = some f → s.c.memErr = [] → s.c.accErr = [] →
    q.lead = none → 1 ≤ q.viewA → q.viewA ≤ 5 → 1 ≤ q.viewB → q.viewB ≤ 5 → viewClass q.viewA = viewClass q.viewB →
    ∃ t, Completes .matrixRetire s t ∧ t.c.mx = qs ∧ t.c.mem = s.c.mem ∧
      (∀ k, k < 0x800 * d.val ∨ 0x800 * d.val + acc.tileBytes ≤ k → t.c.acc.read k = s.c.acc.read k) ∧
      ∀ n, n < 1024 →
        let row := slotHeld s.c.mem q.slotA q.viewA q.sbase (n / 32)
        let column := slotHeld s.c.mem q.slotB q.viewB q.sbase (n % 32)
        let g := viewScale q.viewA + viewScale q.viewB
        let old := f.held (tileElement s.c.acc acc d n)
        let new := tileElement t.c.acc acc d n
        ∃ fl, f.Gives false false
          (Held.sum [old.finer (2 ^ g), (Held.sum (List.zipWith Held.times row column)).finer (2 ^ f.scale)]) (2 ^ g) false (new, fl)) ∧
  (∀ (s : State) (w : RedWait) (cs : List RedContrib), s.c.pend = .red w →
    s.c.stragg = 0 ∨ s.xc < w.xc + s.c.stragg.toNat → s.input.contribs.length + 1 = (s.members w.tree).length →
    cs.Perm (w.con :: s.input.contribs) → cs.Pairwise (fun x y => x.lcore < y.lcore) → cs.length ≤ 2304 →
    (∀ c ∈ cs, c.op = w.con.op ∧ c.type = .f32 ∧ c.sat = w.con.sat ∧ c.n = w.con.n) →
    w.con.op = .add ∨ w.con.op = .max ∨ w.con.op = .min →
    let node (a b r : Nat) : Prop := match w.con.op with
      | .max => r = (laneMax .f32 false a b).1
      | .min => r = (laneMin .f32 false a b).1
      | _ => ∃ fl, fp32.Gives false false (Held.sum [fp32.held a, fp32.held b]) 1 false (r, fl)
    let lane (i : Nat) : List Nat := cs.map fun c => (c.lanes.getD i 0).toNat
    ∃ (lanes : List Word) (st : Word) (tree : Nat → Nat) (infs : Nat → Bool),
      Completes .reductionResult s { s with c := { s.c with
        pend := .redDone lanes st
        redNum := (w.tree.val, w.num + 1) :: s.c.redNum.filter (·.1 ≠ w.tree.val) } } ∧
      lanes.length = w.con.n ∧
      (∀ i, i < w.con.n → TreeGives node (lane i) (tree i) (infs i) ∧
        lanes.getD i 0 = BitVec.ofNat 32 (if fp32.held (tree i) = .nan then fp32.canonical else tree i)) ∧
      ∀ bit, st.getLsbD bit = true ↔ (bit = 2 ∧ ∃ i, i < w.con.n ∧ fp32.held (tree i) = .nan) ∨
        (bit = 1 ∧ ∃ i, i < w.con.n ∧ infs i = true))

/-! Vector loads and stores (07). -/

/-- vld and vst move 64 raw bytes, vldh and vsth the same at a slot of a ring that is set and has a filled or free slot;
a store changes no byte outside its 64. The head and the tail stay. With no such slot an access that nothing else stops
traps with HANDLE.
vldb gives every active lane the element at s[a]; vldx reads each active lane's element at its own address, vstx stores
it there, the highest lane last, and no other byte changes. -/
def Obligations.VectorLoadsAndStores : Prop :=
  (∀ (s : State) (d a b : Reg) (h : HReg) (imm : BitVec 26),
    let g := s.handle h
    let filled := (g.tail.toNat + 65536 - g.head.toNat) % 65536
    let slot (i : Half) : Word := BitVec.ofNat 32
      (g.base.toNat + i.toNat % g.count.toNat * g.size.toNat + 64 * (s.reg b).toNat)
    let ring := HandleFields g ∧ (s.reg b).toNat * 64 < g.size.toNat
    let loads (i : Instr) (ea : Word) : Prop :=
      Leaves i s (s.setV d (BitVec.ofNat 512 (littleEndian s.c.mem (offOf ea) 64)))
    let stores (i : Instr) (ea : Word) : Prop := ∃ m st, Completes i s { s.adv with c := { s.adv.c with mem := m, stale := st } } ∧
      (∀ k, k < 64 → Memory.read m (offOf ea + k) = BitVec.ofNat 8 ((s.vreg d).toNat / 256 ^ k)) ∧
      (∀ x, x < offOf ea ∨ offOf ea + 64 ≤ x → Memory.read m x = s.c.mem.read x)
    (DataAccess s (s.eaVector a imm) 64 →
      loads (.vld d a imm) (s.eaVector a imm) ∧ stores (.vst d a imm) (s.eaVector a imm)) ∧
    (ring → 0 < filled → DataAccess s (slot g.head) 64 → loads (.vldh d h b) (slot g.head)) ∧
    (ring → filled < g.count.toNat → DataAccess s (slot g.tail) 64 → stores (.vsth d h b) (slot g.tail)) ∧
    (s.inExchange = false → ring →
      (filled = 0 → DataAccess s (slot g.head) 64 → Traps (.vldh d h b) s .handle 6 (BitVec.ofNat 32 h.val)) ∧
      (filled = g.count.toNat → DataAccess s (slot g.tail) 64 → Traps (.vsth d h b) s .handle 6 (BitVec.ofNat 32 h.val)))) ∧
  (∀ (s : State) (t : ElemType) (d a b : Reg) (m : VMod),
    let active (k : Nat) : Bool := m.km = 0 || s.c.k[m.km].getLsbD k
    let other (k : Nat) : Nat := if m.z then 0 else laneAt t (s.vreg d) k
    let ea (k : Nat) : Word := BitVec.ofNat 32 ((s.reg a).toNat + laneAt t (s.vreg b) k * t.bytes)
    (DataAccess s (s.reg a) t.bytes → ∃ x, VectorCompletes (.vldb t d a m) s d x 0 ∧
      ∀ k, k < t.lanes → laneAt t x k = if active k then littleEndian s.c.mem (offOf (s.reg a)) t.bytes else other k) ∧
    (s.inExchange = false → (∀ k, k < t.lanes → active k = true → DataAccess s (ea k) t.bytes) →
      (∃ x, VectorCompletes (.vldx t d a b m) s d x 0 ∧
        ∀ k, k < t.lanes → laneAt t x k = if active k then littleEndian s.c.mem (offOf (ea k)) t.bytes else other k) ∧
      (∃ mem st, Completes (.vstx t d a b m) s { s.adv with c := { s.adv.c with mem := mem, stale := st } } ∧
        (∀ k j, k < t.lanes → active k = true → j < t.bytes →
          (∀ l, k < l → l < t.lanes → active l = true → ¬(offOf (ea l) ≤ offOf (ea k) + j ∧ offOf (ea k) + j < offOf (ea l) + t.bytes)) →
          Memory.read mem (offOf (ea k) + j) = BitVec.ofNat 8 (laneAt t (s.vreg d) k / 256 ^ j)) ∧
        (∀ x, (∀ k, k < t.lanes → active k = true → x < offOf (ea k) ∨ offOf (ea k) + t.bytes ≤ x) →
          Memory.read mem x = s.c.mem.read x))))

/-- vldc decodes the elements of its view into the lanes of v[d], with the flags of the conversions.
vstc converts the lanes to the format of its view, B4 blocks of eight lanes with their scale bytes through view 0x5, and
changes no other byte; the flags of the conversions are kept. -/
def Obligations.ConvertingLoadsAndStores : Prop :=
  (∀ (s : State) (t : ElemType) (d a : Reg) (sat u : Bool), ConvAccess s (s.reg a) t.lanes u →
    ∃ x fl, VectorCompletes (.vldc t d a sat u) s d x fl ∧
      (∀ k, k < t.lanes → laneAt t x k = (convElement s t (s.reg a) sat u k).1 % 2 ^ t.width) ∧
      (∀ bit, fl.getLsbD bit = true ↔ ∃ k, k < t.lanes ∧ (convElement s t (s.reg a) sat u k).2.getLsbD bit = true)) ∧
  (∀ (s : State) (t : ElemType) (d a : Reg) (sat u : Bool) (b4 : B4Type), ConvAccess s (s.reg a) t.lanes u →
    let off := offOf (s.reg a)
    let e := viewElement (viewOf (s.reg a)) u
    let lane (k : Nat) : Nat := laneAt t (s.vreg d) k
    let block (j : Nat) : List Nat × Nat × Flags :=
      b4Convert ((List.range 8).map fun i => toVal t s.ftz (lane (8 * j + i))) b4
    let scales := s.c.sbase.toNat + off / 4
    (viewOf (s.reg a) ≠ 5 → b4 = .int4 → ∃ m st fl,
      Completes (.vstc t d a sat u b4) s { (s.addFlags fl).adv with c := { (s.addFlags fl).adv.c with mem := m, stale := st } } ∧
      (∀ k j, k < t.lanes → j < e.bytes → Memory.read m (off + k * e.bytes + j) =
        BitVec.ofNat 8 ((convert e t sat s.ftz (lane k)).1 / 256 ^ j)) ∧
      (∀ bit, fl.getLsbD bit = true ↔ ∃ k, k < t.lanes ∧ (convert e t sat s.ftz (lane k)).2.getLsbD bit = true) ∧
      (∀ x, x < off ∨ off + t.lanes * e.bytes ≤ x → Memory.read m x = s.c.mem.read x)) ∧
    (viewOf (s.reg a) = 5 → off + t.lanes / 2 ≤ scales ∨ scales + t.lanes / 8 ≤ off → ∃ m st fl,
      Completes (.vstc t d a sat u b4) s { (s.addFlags fl).adv with c := { (s.addFlags fl).adv.c with mem := m, stale := st } } ∧
      (∀ k, k < t.lanes → (Memory.read m (off + k / 2)).toNat / 16 ^ (k % 2) % 16 = (block (k / 8)).1.getD (k % 8) 0) ∧
      (∀ j, j < t.lanes / 8 → Memory.read m (scales + j) = BitVec.ofNat 8 (block j).2.1) ∧
      (∀ bit, fl.getLsbD bit = true ↔ ∃ j, j < t.lanes / 8 ∧ (block j).2.2.getLsbD bit = true) ∧
      (∀ x, (x < off ∨ off + t.lanes / 2 ≤ x) → (x < scales ∨ scales + t.lanes / 8 ≤ x) →
        Memory.read m x = s.c.mem.read x)))

/-! The matrix slice (07). -/

/-- With its operands ready each matrix instruction enters the slice's queue, with the slots, addresses and scalars that it
recorded; mwait waits for the queue to drain, then reads and clears the status; a bank that is not allocated traps. -/
def Obligations.MatrixInstructionsEnterTheQueue : Prop :=
  ∀ (s : State) (acc : AccType) (o : DrqType) (sat ua ub bc : Bool) (d a b : Reg) (x y : HReg),
    let view (h : HReg) : Nat := viewOf (s.handle h).base
    let entry (i : Instr) : MxOp := { op := i, sbase := s.c.sbase.toNat }
    let pair (i : Instr) : MxOp := { entry i with
      slotA := s.nextSlot x, slotB := s.nextSlot y, viewA := view x, viewB := view y
      popA := some x, popB := if x = y then none else some y }
    (acc ≠ .i32 → SliceReady s (.mma acc d x y) → TileReady s acc d → RingReady s x → RingReady s y →
      1 ≤ view x → view x ≤ 5 → 1 ≤ view y → view y ≤ 5 → viewClass (view x) = viewClass (view y) →
      (viewClass (view x) = 2 → acc = .f32) → Enqueues (.mma acc d x y) s (pair (.mma acc d x y))) ∧
    (SliceReady s (.mmai sat ua ub d x y) → TileReady s .i32 d → RingReady s x → RingReady s y → view x = 6 → view y = 6 →
      Enqueues (.mmai sat ua ub d x y) s (pair (.mmai sat ua ub d x y))) ∧
    (SliceReady s (.mzero acc d) → TileReady s acc d → Enqueues (.mzero acc d) s (entry (.mzero acc d))) ∧
    (SliceReady s (.mload acc bc d a) → TileReady s acc d →
      viewOf (s.reg a) = 0 → offOf (s.reg a) + mloadBytes acc bc ≤ 0xA0000 → (s.reg a).toNat % 64 = 0 →
      Enqueues (.mload acc bc d a) s { entry (.mload acc bc d a) with opnd := s.reg a }) ∧
    (SliceReady s (.mdrain acc d a) → TileReady s acc a →
      viewOf (s.reg d) = 0 → offOf (s.reg d) + acc.tileBytes ≤ 0xA0000 → (s.reg d).toNat % 64 = 0 →
      Enqueues (.mdrain acc d a) s { entry (.mdrain acc d a) with opnd := s.reg d }) ∧
    (SliceReady s (.mdrq o d a b) → TileReady s .i32 a →
      viewOf (s.reg d) = 0 → offOf (s.reg d) + 1024 * o.bytes ≤ 0xA0000 → (s.reg d).toNat % 64 = 0 →
      viewOf (s.reg b) = 0 → offOf (s.reg b) + 160 ≤ 0xA0000 → (s.reg b).toNat % 4 = 0 →
      Enqueues (.mdrq o d a b) s { entry (.mdrq o d a b) with opnd := s.reg d, tbl := s.reg b }) ∧
    (SliceReady s (.mrsum sat ua d x b) → TileReady s .i32 d → RingReady s x → view x = 6 →
      Enqueues (.mrsum sat ua d x b) s { entry (.mrsum sat ua d x b) with
        slotA := s.nextSlot x, viewA := view x, opnd := s.reg b }) ∧
    (SliceReady s (.mcsum sat ua d x b) → TileReady s .i32 d → RingReady s x → view x = 6 →
      Enqueues (.mcsum sat ua d x b) s { entry (.mcsum sat ua d x b) with
        slotA := s.nextSlot x, viewA := view x, opnd := s.reg b }) ∧
    (s.inExchange = false → s.c.mx = [] →
      Leaves (.mwait d) s (({ s with c := { s.c with mxStatus := 0 } } : State).setReg d s.c.mxStatus)) ∧
    (s.inExchange = false → s.c.mx ≠ [] → Waits (.mwait d) s) ∧
    (s.inExchange = false → (∃ k ∈ tileBanks acc d, s.c.accmap.getLsbD k = false) → Traps (.mzero acc d) s .accBank 0 0)

/-- The oldest queued instruction starts, an mma or mmai once the governor's window of 64 cc covers the starts of its gang, of several
cores in one cc the first in index order after the last served; when it retires its tile or its block of local memory holds the
result that R134 gives for integers; a tile is changed only where the instruction writes it, memory only by a drain; the slots of
mmai are popped.
That a queued operation reads and writes memory in the one step of its retirement (log 17, DEDUCED), and that other
cores bring their starts with the input (log 13, DESIGN CHOICE), is the model’s choice. -/
def Obligations.MatrixRetirementResults : Prop :=
  ∀ (s : State) (q : MxOp) (qs : List MxOp), s.c.mx = q :: qs →
    let win := s.t.clock / 64
    let u : Tile := if win ≤ s.t.slewWin then s.t else { s.t with
      slewWin := win, slewPrev := if win = s.t.slewWin + 1 then s.t.slewCur else 0, slewCur := 0, slewFrom := s.t.slewLast }
    let starts := if s.c.status.toNat / 256 % 4 = 0 then 1 else if s.c.status.toNat / 256 % 4 = 1 then 2 else 4
    let covers (n : Nat) : Prop := u.slew = 0 ∨ u.slewCur + n ≤ u.slewPrev + u.slew.toNat
    let started : Ctx := { s.c with mx := { q with started := true } :: qs }
    let counted (i n : Nat) : State := { s with t := { u with slewCur := u.slewCur + n, slewLast := i } }
    (s.input.flag = false →
      (q.started = true → Completes .matrixStart s s) ∧
      (q.started = false → isMma q.op = false → Completes .matrixStart s { s with c := started }) ∧
      (q.started = false → isMma q.op = true →
        (covers starts → Completes .matrixStart s { counted s.t.idx.val starts with c := started }) ∧
        (¬covers starts → Completes .matrixStart s s))) ∧
    (s.input.flag = true → ∀ i j : Nat, i < 16 → j < 16 → i ≠ s.t.idx.val → j ≠ s.t.idx.val → i ≠ j →
      (s.input.nums = [i] → covers s.input.n → Completes .matrixStart s (counted i s.input.n)) ∧
      (s.input.nums = [i] → ¬covers s.input.n → Completes .matrixStart s s) ∧
      (s.input.nums = [i, j] ∨ s.input.nums = [j, i] → covers s.input.n → ¬covers (2 * s.input.n) → u.slewFrom < 16 →
        (i + 15 - u.slewFrom) % 16 < (j + 15 - u.slewFrom) % 16 → Completes .matrixStart s (counted i s.input.n))) ∧
    (q.started = true → s.c.memErr = [] → s.c.accErr = [] → q.lead = none → s.input.n = 0 → ∃ t,
      Completes .matrixRetire s t ∧ t.c.mx = qs ∧
      (∀ acc d, q.op = .mzero acc d → t.c.mem = s.c.mem ∧ (∀ n, n < 1024 → tileElement t.c.acc acc d n = 0) ∧
        (∀ k, k < 0x800 * d.val ∨ 0x800 * d.val + acc.tileBytes ≤ k → t.c.acc.read k = s.c.acc.read k)) ∧
      (∀ acc bc d a, q.op = .mload acc bc d a → t.c.mem = s.c.mem ∧
        (∀ n, n < 1024 → tileElement t.c.acc acc d n =
          littleEndian s.c.mem (offOf q.opnd + acc.size * (if bc then n % 32 else n)) acc.size) ∧
        (∀ k, k < 0x800 * d.val ∨ 0x800 * d.val + acc.tileBytes ≤ k → t.c.acc.read k = s.c.acc.read k)) ∧
      (∀ acc d a, q.op = .mdrain acc d a → t.c.acc = s.c.acc ∧
        (∀ k, k < acc.tileBytes → t.c.mem.read (offOf q.opnd + k) = s.c.acc.read (0x800 * a.val + k)) ∧
        (∀ k, k < offOf q.opnd ∨ offOf q.opnd + acc.tileBytes ≤ k → t.c.mem.read k = s.c.mem.read k)) ∧
      (∀ o d a b, q.op = .mdrq o d a b → t.c.acc = s.c.acc ∧
        (∀ n j, n < 1024 → j < o.bytes →
          let x := signedBits 32 (tileElement s.c.acc .i32 a n)
          let m := signedBits 32 (littleEndian s.c.mem (offOf q.tbl + 4 * (n % 32)) 4)
          let r := roundedShift (x * m) ((s.c.mem.read (offOf q.tbl + 128 + n % 32)).toNat % 64)
          let lo : Int := match o with | .i8 => -128 | .u8 => 0 | .i16 => -32768
          let hi : Int := match o with | .i8 => 127 | .u8 => 255 | .i16 => 32767
          t.c.mem.read (offOf q.opnd + o.bytes * n + j) =
            BitVec.ofInt 8 (Max.max lo (Min.min hi r) / 256 ^ j)) ∧
        (∀ k, k < offOf q.opnd ∨ offOf q.opnd + 1024 * o.bytes ≤ k → t.c.mem.read k = s.c.mem.read k)) ∧
      (∀ sat ua ub d a b, q.op = .mmai sat ua ub d a b → t.c.mem = s.c.mem ∧
        (∀ n, n < 1024 → tileElement t.c.acc .i32 d n = laneBits .i32 sat (signedBits 32 (tileElement s.c.acc .i32 d n) +
          ((List.range 64).map fun k =>
            slotByte s.c.mem q.slotA (n / 32) k ua * slotByte s.c.mem q.slotB (n % 32) k ub).sum)) ∧
        (∀ k, k < 0x800 * d.val ∨ 0x800 * d.val + 4096 ≤ k → t.c.acc.read k = s.c.acc.read k) ∧
        (q.popA = some a → q.popB = some b → a ≠ b →
          t.c.h[a].head = s.c.h[a].head + 1 ∧ t.c.h[b].head = s.c.h[b].head + 1)) ∧
      (∀ sat u d a b, q.op = .mrsum sat u d a b → t.c.mem = s.c.mem ∧
        (∀ k, k < 0x800 * d.val ∨ 0x800 * d.val + 4096 ≤ k → t.c.acc.read k = s.c.acc.read k) ∧
        ∀ n, n < 1024 → tileElement t.c.acc .i32 d n = laneBits .i32 sat (signedBits 32 (tileElement s.c.acc .i32 d n) +
          q.opnd.toInt * ((List.range 64).map fun k => slotByte s.c.mem q.slotA (n / 32) k u).sum)) ∧
      (∀ sat u d a b, q.op = .mcsum sat u d a b → t.c.mem = s.c.mem ∧
        (∀ k, k < 0x800 * d.val ∨ 0x800 * d.val + 4096 ≤ k → t.c.acc.read k = s.c.acc.read k) ∧
        ∀ n, n < 1024 → tileElement t.c.acc .i32 d n = laneBits .i32 sat (signedBits 32 (tileElement s.c.acc .i32 d n) +
          q.opnd.toInt * ((List.range 64).map fun k => slotByte s.c.mem q.slotA (n % 32) k u).sum))) ∧
    Completes .slewWindow s { s with t := u }

/-- mgang forms a group once every other core of it waits at mgang with the same size, and dissolves one once every member waits with
size 0; mfollow
sets LEAD in the lowest column and FOL elsewhere once the group waits; munfollow takes a follower to the address in its
register and lets a leader lead no longer (R139, R140). -/
def Obligations.GangAndFollowModes : Prop :=
  ∀ (s : State) (a : Reg) (n : Fin 3), s.inExchange = false → s.c.mx = [] →
    let size := s.c.status.toNat / 256 % 4
    let others (code : Nat) : List Nat := (s.group code).filter (· ≠ s.t.idx.val % 4)
    let here (code : Nat) (p : RowCore → Prop) : Prop :=
      (s.row.filter fun r => (s.group code).contains r.col.val && r.col.val != s.t.idx.val % 4).length = (others code).length ∧
      ∀ r ∈ s.row, r.col.val ∈ others code → p r
    (size = 0 → Leaves (.mgang 0) s s) ∧
    (size = 0 → n.val ≠ 0 → s.gangClash n.val n.val = false → here n.val (fun r => r.gang = some n) → ∃ row st,
      Leaves (.mgang n) s { s with c := { s.c with status := st }, row := row } ∧
      st.toNat / 256 % 4 = n.val ∧ ∀ k, k ≠ 8 → k ≠ 9 → st.getLsbD k = s.c.status.getLsbD k) ∧
    (size ≠ 0 → s.gangClash 0 size = false → here size (fun r => r.gang = some 0) → ∃ row st,
      Leaves (.mgang 0) s { s with c := { s.c with status := st }, row := row } ∧
      ∀ k, st.getLsbD k = (s.c.status.getLsbD k && k != 8 && k != 9)) ∧
    (size ≠ 0 → n.val ≠ 0 → Traps (.mgang n) s .illegal 4 0) ∧
    (size ≠ 0 → s.c.status.getLsbD 10 = false → s.c.status.getLsbD 11 = false →
      here size (fun r => r.wantsFollow = true ∨ r.following = true) →
      Completes .mfollow s { s.adv with
        stream := []
        c := { s.adv.c with status := s.adv.c.status ||| if (s.group size).head? = some (s.t.idx.val % 4) then 0x800 else 0x400 } }) ∧
    (size = 0 → Traps .mfollow s .illegal 5 0) ∧
    (s.c.status.getLsbD 10 = true → (s.reg a).toNat % 2 = 0 → ∃ st, Completes (.munfollow a) s
        (State.setPc { s with c := { s.c with status := st }, stream := [] } (s.reg a)) ∧
      ∀ k, st.getLsbD k = (s.c.status.getLsbD k && k != 10)) ∧
    (s.c.status.getLsbD 10 = false → s.c.status.getLsbD 11 = true → ∃ st,
      Leaves (.munfollow a) s { s with c := { s.c with status := st } } ∧
      ∀ k, st.getLsbD k = (s.c.status.getLsbD k && k != 11)) ∧
    (s.c.status.getLsbD 10 = false → s.c.status.getLsbD 11 = false → Traps (.munfollow a) s .illegal 5 0)

/-! Banks and parking (03, 07). -/

/-- aalloc answers 3 for a bad range, 1 where a bank is allocated, 2 where a parked copy has nowhere to go, else 0, with the
banks allocated and zero; whatever it answers, every parked copy keeps its bytes.
afree waits for queued operations on the banks, traps with ACC_BANK where one is not allocated, else frees them and drops
the states that lie in them; aquery reads the maps and the counts of free banks and free slots.
spill writes the register to its slot, or to a free slot of a bank that is not allocated, and traps with ACC_BANK where
there is none; no other parked copy changes; fill reads the parked copy back and gives up its slot, and traps where the
register is not parked. That fill of a copy with an uncorrectable error traps with ECC_UNCORR is the model's choice (log 57, DESIGN
CHOICE).
That a freed bank keeps its bytes until it is allocated again is the model’s choice (log 36, DEDUCED). -/
def Obligations.BankAllocation : Prop :=
  (∀ (s : State) (a b : Reg) (n : Nat), s.inExchange = false →
    let inRange (x : Nat) : Prop := b.val ≤ x ∧ x < b.val + n
    let taken (x : Nat) : Bool := s.c.accmap.getLsbD x
    let copy (t : State) (k : Fin 64) : List Byte :=
      t.c.acc.readBytes (0x800 * t.c.parked[k].bank.toNat + 64 * t.c.parked[k].slot.toNat) 64
    (n = 0 ∨ 32 < b.val + n → Writes (.aalloc a b n) s a 3) ∧
    (0 < n → b.val + n ≤ 32 → (∃ x, inRange x ∧ taken x = true) → Writes (.aalloc a b n) s a 1) ∧
    (0 < n → b.val + n ≤ 32 → (∀ x, inRange x → taken x = false) →
      (∃ k : Fin 64, s.c.parked[k].v = true ∧ inRange s.c.parked[k].bank.toNat) → (∀ x, x < 32 → ¬inRange x → taken x = true) →
      Writes (.aalloc a b n) s a 2) ∧
    (0 < n → b.val + n ≤ 32 → (∀ x, inRange x → taken x = false) →
      (∀ k : Fin 64, s.c.parked[k].v = true → ¬inRange s.c.parked[k].bank.toNat) → ∃ m map err,
      Leaves (.aalloc a b n) s (({ s with c := { s.c with acc := m, accmap := map, accErr := err } } : State).setReg a 0) ∧
      (∀ x, map.getLsbD x = (taken x || decide (inRange x))) ∧
      (∀ k, 0x800 * b.val ≤ k → k < 0x800 * (b.val + n) → Memory.read m k = 0) ∧
      (∀ k, k < 0x800 * b.val ∨ 0x800 * (b.val + n) ≤ k → Memory.read m k = s.c.acc.read k)) ∧
    (∀ t, exec (.aalloc a b n) s = .next t →
      ∀ k : Fin 64, s.c.parked[k].v = true → t.c.parked[k].v = true ∧ copy t k = copy s k)) ∧
  (∀ (s : State) (a b : Reg) (n : Nat), s.inExchange = false →
    let inRange (x : Nat) : Prop := b.val ≤ x ∧ x < b.val + n
    let taken (x : Nat) : Bool := s.c.accmap.getLsbD x
    let free := (List.range 32).filter fun x => !taken x
    ((∃ x, inRange x ∧ s.bankBusy x = true) → Waits (.afree b n) s) ∧
    ((∀ x, inRange x → s.bankBusy x = false) → (n = 0 ∨ 32 < b.val + n ∨ ∃ x, inRange x ∧ taken x = false) →
      Traps (.afree b n) s .accBank 0 0) ∧
    ((∀ x, inRange x → s.bankBusy x = false) → 0 < n → b.val + n ≤ 32 → (∀ x, inRange x → taken x = true) → ∃ map,
      Leaves (.afree b n) s { s with c := { s.c with
        accmap := map, dir := s.c.dir.filter fun e => !decide (e.bank < b.val + n ∧ b.val < e.bank + e.nb) } } ∧
      ∀ x, map.getLsbD x = (taken x && !decide (inRange x))) ∧
    Writes (.aquery a 0) s a s.c.accmap ∧ Writes (.aquery a 1) s a s.c.spillmap ∧
    Writes (.aquery a 2) s a (BitVec.ofNat 32 free.length) ∧
    Writes (.aquery a 3) s a (BitVec.ofNat 32 (32 * free.length -
      (s.c.parked.toList.filter fun e => e.v && free.contains e.bank.toNat).length))) ∧
  (∀ (s : State) (vec : Bool) (a : Reg), s.inExchange = false →
    let n : Fin 64 := parkIndex vec a
    let e := s.c.parked[n]
    let at_ (p : Parked) : Nat := 0x800 * p.bank.toNat + 64 * p.slot.toNat
    let size := if vec then 64 else 4
    let value := if vec then (s.vreg a).toNat else (s.reg a).toNat
    let open_ (x i : Nat) : Prop := x < 32 ∧ i < 32 ∧ s.c.accmap.getLsbD x = false ∧
      ∀ k : Fin 64, ¬(s.c.parked[k].v = true ∧ s.c.parked[k].bank.toNat = x ∧ s.c.parked[k].slot.toNat = i)
    n.val = a.val + (if vec then 32 else 0) ∧
    (e.v = true ∨ (∃ x i, open_ x i) → ∃ m ps,
      Leaves (.spill vec a) s (if e.v then { s with c := { s.c with acc := m } }
        else { s with c := { s.c with acc := m, parked := ps, spillmap := State.spillmapOf ps } }) ∧
      (let p := if e.v then e else ps[n]
       (e.v = false → p.v = true ∧ open_ p.bank.toNat p.slot.toNat ∧ ∀ k : Fin 64, k ≠ n → ps[k] = s.c.parked[k]) ∧
       littleEndian m (at_ p) size = value ∧
       ∀ x, x < at_ p ∨ at_ p + size ≤ x → Memory.read m x = s.c.acc.read x)) ∧
    (e.v = false → (∀ x i, ¬open_ x i) → Traps (.spill vec a) s .accBank 0 0) ∧
    (e.v = true → (∀ w ∈ s.c.accErr, 8 * w + 8 ≤ at_ e ∨ at_ e + size ≤ 8 * w) → ∃ ps, (∀ k : Fin 64, ps[k].v = (s.c.parked[k].v && k != n)) ∧
      (let t : State := { s with c := { s.c with parked := ps, spillmap := State.spillmapOf ps } }
       let x := littleEndian s.c.acc (at_ e) size
       Leaves (.fill vec a) s (if vec then t.setV a (BitVec.ofNat 512 x) else t.setReg a (BitVec.ofNat 32 x)))) ∧
    (∀ w, e.v = true → s.c.accErr = [w] → 8 * w < at_ e + size → at_ e < 8 * w + 8 →
      Completes (.fill vec a) s ((s.logError (0x1000 + s.t.num) 1 (8 * w) 0).enter (causeWord .eccUncorr 0 s.ir.len) s.c.pc
        (BitVec.ofNat 32 (0x80000000 + at_ e)) s.ir.eword)) ∧
    (e.v = false → Traps (.fill vec a) s .accBank 0 0))

/-! The copy engine (13, 14). -/

/-- cpush and cpushnb enter a request that passes R252 into the FIFO behind the others, with the slot index fixed and a
pending cfence taken up; with 16 outstanding cpush waits and cpushnb writes 13. cfree, cfence, cset and cget do as R254 to
R258 say. -/
def Obligations.CopyRequestInstructions : Prop :=
  ∀ (s : State) (d a b : Reg), s.inExchange = false →
    let q := s.requestCmd a
    let pushed (i : Half) : State := { s with c := { s.c with
      copy := s.c.copy ++ [{ q with i0 := i, fence := s.c.cfence }], cfence := false } }
    let half (x : BitVec 48) (high : Bool) : Word := BitVec.ofNat 32 (if high then x.toNat / 2 ^ 32 else x.toNat)
    (a.val ≤ 28 → PushOk s q → s.c.copy.length < 16 → ∃ i,
      Leaves (.cpush a) s (pushed i) ∧ Leaves (.cpushnb d a) s ((pushed i).setReg d 0) ∧
      (q.hv = false → i = 0) ∧
      (q.hv = true → (∀ r ∈ s.c.copy, State.sameRing q r = false) →
        i = if q.kind = 1 ∨ q.kind = 3 then (s.handle q.hreg).head else (s.handle q.hreg).tail)) ∧
    (a.val ≤ 28 → PushOk s q → 16 ≤ s.c.copy.length → Waits (.cpush a) s ∧ Writes (.cpushnb d a) s d 13) ∧
    (28 < a.val → Traps (.cpush a) s .illegal 0 0 ∧ Traps (.cpushnb d a) s .illegal 0 0) ∧
    Writes (.cfree d) s d (BitVec.ofNat 32 (16 - s.c.copy.length)) ∧
    Leaves .cfence s { s with c := { s.c with cfence := true } } ∧
    (let x : BitVec 48 := BitVec.ofNat 48 ((s.reg a).toNat + 2 ^ 32 * ((s.reg b).toNat % 2 ^ 16))
     Leaves (.cset 0 a b) s { s with c := { s.c with e0 := x } } ∧
     Leaves (.cset 1 a b) s { s with c := { s.c with e1 := x &&& 0x1FF0FFF0FFF } } ∧
     Leaves (.cset 2 a b) s { s with c := { s.c with e2 := x &&& 0xFFFFFFFF } }) ∧
    (∀ high, Writes (.cget d 0 high) s d (half s.c.e0 high) ∧ Writes (.cget d 1 high) s d (half s.c.e1 high) ∧
      Writes (.cget d 2 high) s d (half s.c.e2 high)) ∧
    Writes (.cget d 3 true) s d (s.c.copyDone.zeroExtend 32) ∧
    (∃ x : Word, Writes (.cget d 3 false) s d x ∧ x.toNat % 2 ^ 16 = s.c.copy.length % 32 ∧
      x.toNat / 2 ^ 16 % 2 ^ 8 = (s.c.copy.filter fun r => r.aside.any fun a => a.stall == .notice || a.stall == .noNotice).length % 32 ∧
      (x.getLsbD 24 = true ↔ ∃ m, 1 ≤ m ∧ m < s.c.copy.length ∧ (s.c.copy.getD m {}).fence = true))

/-- R231: a beat uses the matching entry with the lowest index; a page number and the offset within the page make its address, which
lies in a region of R230 or gives PROT; a key slot without a key gives KEY (R235), a write to a page that is not writable or not dirty
a fault (R233), and a beat that matches no entry a miss (R232). A beat of a command that meets a fault is put aside, and the service
inbox gets a notice, but where one is outstanding for its granule of 64 KiB or eight are outstanding; one that is refused stops its
command with the status at its offset (R226, R227). That light faults share a notice as misses do is the model's choice (log 38,
DEDUCED). -/
def Obligations.TranslationUsesTheLowestEntry : Prop :=
  (∀ (s : State) (asid : Byte) (va i : Nat) (e : TlbEntry) (write svc update : Bool),
    let size := 2 ^ (if e.sz = 0 then 16 else if e.sz = 1 then 21 else 30)
    let matches_ (e : TlbEntry) : Prop := e.valid = true ∧ e.asid = asid ∧ e.sz ≠ 3 ∧
      e.vpn.toNat * 65536 / 2 ^ (if e.sz = 0 then 16 else if e.sz = 1 then 21 else 30) =
        va / 2 ^ (if e.sz = 0 then 16 else if e.sz = 1 then 21 else 30)
    let pa := e.ppn.toNat * 65536 / size * size + va % size
    (s.t.tlb.map (·.1)).Nodup → (i, e) ∈ s.t.tlb → matches_ e → (∀ x ∈ s.t.tlb, x.1 < i → ¬matches_ x.2) →
    let at_ := s.xlate asid va write svc update
    (write = true → e.w = false → at_ = .notice .writeFault) ∧
    (write = true → e.w = true → e.d = false → at_ = .notice .light) ∧
    ((write = true → e.w = true ∧ e.d = true) →
      (pa < s.chip.capacity * 2 ^ 30 → ∀ k, (e.key.toNat, k) ∈ s.chip.keys → (s.chip.keys.map (·.1)).Nodup → at_ = .go (.lpddr pa k)) ∧
      (pa < s.chip.capacity * 2 ^ 30 → (∀ k ∈ s.chip.keys, k.1 ≠ e.key.toNat) → at_ = .stop 10) ∧
      (s.chip.capacity * 2 ^ 30 ≤ pa →
        let host := 0x400000000000 ≤ pa ∧ pa < 0x800000000000
        let window := 0x800000000000 ≤ pa ∧ pa < 0xC00000000000
        let core := 0xC00000000000 ≤ pa ∧ pa < 0xC00090000000 ∧ pa % 2 ^ 20 < 0xA0000 ∧ svc = true
        (update = true → at_ = .stop 3) ∧ (¬host → ¬window → ¬core → at_ = .stop 3) ∧
        (update = false → host → at_ = .go (.host (pa - 0x400000000000))) ∧
        (update = false → window → at_ = .go (.aperture (pa / 2 ^ 34 % 2 ^ 12) (pa / 2 ^ 22 % 2 ^ 12) (pa % 2 ^ 22))) ∧
        (update = false → core → at_ = .go (.core ((pa - 0xC00000000000) / 2 ^ 20) (pa % 2 ^ 20)))))) ∧
  (∀ (s : State) (asid : Byte) (va : Nat) (write svc update : Bool),
    (∀ x ∈ s.t.tlb, ¬(x.2.valid = true ∧ x.2.asid = asid ∧ x.2.sz ≠ 3 ∧
      x.2.vpn.toNat * 65536 / 2 ^ (if x.2.sz = 0 then 16 else if x.2.sz = 1 then 21 else 30) =
        va / 2 ^ (if x.2.sz = 0 then 16 else if x.2.sz = 1 then 21 else 30))) →
    s.xlate asid va write svc update = .notice .miss) ∧
  (∀ (s : State) (q : CopyCmd) (va : Nat), FrontReady s q → q.aside = [] → q.beatAt = .data va → q.kind ≠ 6 →
    let place := s.xlate q.asid va q.writes q.svc (q.kind == 5)
    let same (k : NoticeKind) (n : Notice) : Prop := k ≠ .writeFault ∧ n.kind = k ∧ n.asid = q.asid ∧ n.va / 65536 = va / 65536
    let asides (st : CopyStall) (ref : Nat) : Ctx := { s.c with copy := s.c.copy.set s.input.n { q.next with
      begun := true, aside := [{ pos := q.pos, va := va, stall := st, ref := ref }] } }
    (∀ k, place = .notice k →
      (∀ n, s.t.notices = [n] → same k n → Completes .copyBeat s { s with c := asides .notice n.id }) ∧
      ((∀ n ∈ s.t.notices, ¬same k n) → 8 ≤ s.t.notices.length → Completes .copyBeat s { s with c := asides .noNotice 0 }) ∧
      ((∀ n ∈ s.t.notices, ¬same k n) → s.t.notices.length < 8 →
        let n : Notice := { id := s.t.noticeNum, kind := k, va := va, asid := q.asid, write := q.writes }
        Completes .copyBeat s { s with
          c := asides .notice n.id
          t := { s.t with
            notices := s.t.notices ++ [n]
            noticeNum := s.t.noticeNum + 1
            inbox := s.t.inbox ++ [.notice s.t.idx.val n] } })) ∧
    (∀ st, place = .stop st → q.fell = 0 → Completes .copyBeat s { s with c := { s.c with copy := s.c.copy.set s.input.n { q with
      begun := true, stop := some (st, q.faultAt q.pos), wrote := [], fell := s.tick + 1 } } }))

/-- The service core's write of an entry acts at once, serves the notices that its page concerns, and is complete when the beats that
translated through the old contents are done (R234); with fault notices on (R217) each command that waits gets a message for each
notice first, and while the mailbox has no room the write waits. An invalidation, firmware's end of a waiting command, an update
that another command's unit receives, a scrub, and an error in a memory do as R229, R232 to R234, R239 and R240 say.
R228: the update functions of slots 0 to 7: sums modulo 2^32; FP32 sums rounded once, subnormals kept; signed and FP32 maxima and
minima, -0 below +0, a NaN the canonical one; swap; compare and swap.
That a TLB write answers every notice whose address its page holds, and which step ends a notice on which nothing waits,
is the model’s choice (log 38, DEDUCED); that a local correctable error is corrected at once, too (log 27, DESIGN
CHOICE). -/
def Obligations.TranslationServiceErrorsAndUpdates : Prop :=
  (∀ (s : State) (q : CopyCmd),
    let i := s.input
    let others := s.t.tlb.filter fun e => e.1 ≠ i.n
    let ids := (s.t.notices.filter fun n => i.tlb.hits n.asid n.va).map (·.id)
    let wakes (a : Aside) : Prop := a.stall = .noNotice ∨ (a.stall = .notice ∧ a.ref ∈ ids)
    let awake (r : CopyCmd) : CopyCmd := { r with aside := r.aside.map fun a => if wakes a then { a with stall := .none } else a }
    let uses := s.tlbUses i.n
    let waits := if uses = [] then [] else [(i.n, uses)]
    let told : List Out := if uses = [] then [.tlbDone i.n] else []
    let served (t : State) : Prop := t.t = { s.t with
        tlb := (i.n, i.tlb) :: others, notices := s.t.notices.filter fun n => n.id ∉ ids, tlbWaits := s.t.tlbWaits ++ waits } ∧
      t.c.copy = s.c.copy.map awake ∧ t.sh.copy = s.sh.copy.map awake ∧ t.out = s.out ++ told
    let only (qs : List CopyCmd) : Prop := s.c.copy = qs ∧ s.sh.copy = [] ∧ s.p.paged = [] ∧ s.chip.colls = []
    let ends (a : Aside) : Prop := a.stall = .notice ∧ a.ref = i.op
    let onNotice (n : Notice) (a : Aside) : Prop := a.stall = .notice ∧ n.id = a.ref ∧ i.tlb.hits n.asid n.va = true
    (i.n < 1024 → s.p.cfg.notices = false → ∃ t, Completes .tlbWrite s t ∧ served t ∧
      t.c = { s.c with copy := t.c.copy } ∧ t.sh = { s.sh with copy := t.sh.copy } ∧ t.chip = { s.chip with colls := t.chip.colls }) ∧
    (∀ a n, i.n < 1024 → s.p.cfg.notices = true → only [q] → q.aside = [a] → s.t.notices = [n] → onNotice n a →
      s.c.held = [] → s.sh.held = [] →
      (n.kind = .writeFault → ∃ t, Completes .tlbWrite s t ∧ served t ∧ t.c.mboxCount = s.c.mboxCount) ∧
      (n.kind ≠ .writeFault → s.mboxHeld = false → ∃ t, Completes .tlbWrite s t ∧ served t ∧
        t.c.mbox = (s.enqueue (State.message 2 (if n.kind = .miss then 1 else 4) q.tag a.va)).c.mbox ∧
        t.c.mboxCount = s.c.mboxCount + 1) ∧
      (n.kind ≠ .writeFault → s.mboxHeld = true → Completes .tlbWrite s s)) ∧
    (∀ a b n m, i.n < 1024 → s.p.cfg.notices = true → only [q] → q.aside = [a, b] → s.t.notices = [n, m] → n.id ≠ m.id →
      onNotice n a → onNotice m b → n.kind = .miss → m.kind = .miss → s.c.held = [] → s.sh.held = [] →
      s.mboxHeld = false → s.c.mboxCount.toNat ≤ 30 → ∃ t, Completes .tlbWrite s t ∧ served t ∧
        t.c.mbox = ((s.enqueue (State.message 2 1 q.tag a.va)).enqueue (State.message 2 1 q.tag b.va)).c.mbox ∧
        t.c.mboxCount = s.c.mboxCount + 2) ∧
    (i.n < 1024 → Completes .tlbInvalidate s { s with
      t := { s.t with tlb := (i.n, {}) :: others, tlbWaits := s.t.tlbWaits ++ waits }, out := s.out ++ told }) ∧
    (∀ a, i.flag2 = false → i.flag = false → i.win ≠ 1 → s.cmd i.n = some q → q.stop = none → s.p.cfg.notices = false →
      a ∈ q.aside → ends a → (∀ b ∈ q.aside, ends b → a.pos ≤ b.pos) → i.status = 2 ∨ i.status = 3 ∨ i.status = 10 → ∃ t r,
      Completes .commandEndByFirmware s t ∧ t.c.copy[i.n]? = some r ∧ r.stop = some (i.status, q.faultAt a.pos) ∧
      (∀ b ∈ r.aside, b.stall = .remote ∨ q.faultAt b.pos < q.faultAt a.pos) ∧ (∀ n ∈ t.t.notices, n ∈ s.t.notices) ∧
      (only [q] → t.t.notices = s.t.notices.filter fun n => n.id ≠ i.op) ∧
      t.c.mem = s.c.mem ∧ t.chip.gmem = s.chip.gmem) ∧
    (i.flag2 = false → i.flag = false → i.win ≠ 1 → only [] → i.status = 2 ∨ i.status = 3 ∨ i.status = 10 → ∃ t,
      Completes .commandEndByFirmware s t ∧ t.t.notices = s.t.notices.filter fun n => n.id ≠ i.op) ∧
    (∀ k, s.keyOf i.n = some k → i.addr % 4 = 0 → i.addr < s.chip.capacity * 2 ^ 30 → s.chip.fnSlots.contains i.op = true →
      s.chip.gerr.contains (i.addr / 64) = false → ∃ t, Completes .updateApply s t ∧
      leNat (t.gread i.addr 4 k) =
        (updateWord i.op (BitVec.ofNat 32 (leNat (s.gread i.addr 4 k))) i.value (BitVec.ofNat 32 i.off)).toNat ∧
      (∀ x, x < i.addr / 64 * 64 ∨ i.addr / 64 * 64 + 64 ≤ x → t.chip.gmem.read x = s.chip.gmem.read x) ∧ t.c = s.c) ∧
    (∀ k, s.keyOf i.n = some k → s.chip.gerr.contains (i.addr / 64) = true → ∃ t, Completes .updateApply s t ∧
      t.chip.gmem = s.chip.gmem ∧ t.chip.gkeys = s.chip.gkeys ∧ t.c = s.c) ∧
    (∃ t, Completes .scrubPass s t ∧ t.chip.soft = [] ∧ t.chip.gmem = s.chip.gmem ∧ t.chip.gerr = s.chip.gerr ∧ t.c = s.c) ∧
    (i.flag = true → i.mem = .local_ →
      Completes .memoryError s { s with c := { s.c with memErr := i.addr / 8 :: s.c.memErr } }) ∧
    (i.flag = true → i.mem = .acc →
      Completes .memoryError s { s with c := { s.c with accErr := i.addr / 8 :: s.c.accErr } }) ∧
    (i.flag = false → i.mem = .local_ ∨ i.mem = .acc → ∃ t n, Completes .memoryError s t ∧ t.c = s.c ∧
      t.chip.gmem = s.chip.gmem ∧ t.chip.corrected = (0x1000 + s.t.num, n) :: s.chip.corrected.filter (·.1 ≠ 0x1000 + s.t.num) ∧
      n = Nat.min (2 ^ 32 - 1) (((s.chip.corrected.find? (·.1 = 0x1000 + s.t.num)).map (·.2)).getD 0 + 1)) ∧
    (i.mem = .host → Completes .memoryError s s) ∧
    (i.mem = .lpddr → Completes .memoryError s { s with chip := { s.chip with
      gerr := if i.flag then i.addr / 64 :: s.chip.gerr else s.chip.gerr
      soft := if i.flag then s.chip.soft else i.addr / 64 :: s.chip.soft } })) ∧
  (∀ g x y : Word,
    let nan := fp32.held g.toNat = .nan ∨ fp32.held x.toNat = .nan
    let rank (w : Word) : Int := if 2 ^ 31 ≤ w.toNat then -((w.toNat % 2 ^ 31 : Nat) : Int) else w.toNat
    updateWord 0 g x y = BitVec.ofNat 32 (g.toNat + x.toNat) ∧
    (∃ fl, fp32.Gives false false (Held.sum [fp32.held g.toNat, fp32.held x.toNat]) 1 false ((updateWord 1 g x y).toNat, fl)) ∧
    updateWord 4 g x y = (if nan then 0x7FC00000 else if rank g < rank x ∨ (rank g = rank x ∧ 2 ^ 31 ≤ g.toNat) then x else g) ∧
    updateWord 5 g x y = (if nan then 0x7FC00000 else if rank x < rank g ∨ (rank g = rank x ∧ 2 ^ 31 ≤ x.toNat) then x else g) ∧
    updateWord 2 g x y = BitVec.ofInt 32 (Max.max g.toInt x.toInt) ∧
    updateWord 3 g x y = BitVec.ofInt 32 (Min.min g.toInt x.toInt) ∧
    updateWord 6 g x y = x ∧
    updateWord 7 g x y = if g.toNat = x.toNat then y else g)

/-- A beat of each kind of command moves 64 bytes between LPDDR 6 and local memory, or updates 16 words of LPDDR 6, and the
command is one beat on; copyBeat does the same for a command of any kind.
R222, R223: the rows of a gather, scatter or image copy lie where the list beats and the geometry put them; a list beat is
read before every 16 rows, and a padded row gets the padding word.
That the 16 updates of a beat are one step, and the order of beats, is the model’s choice (log 18, DESIGN CHOICE). -/
def Obligations.CopyBeatsMoveData : Prop :=
  (∀ (s : State) (q : CopyCmd) (va pa key : Nat), BeatReady s q va pa key →
    let at_ := (s.localAt q (State.localPos q q.pos)).2
    let word (bs : List Byte) (i : Nat) : Word := BitVec.ofNat 32 (leNat ((bs.drop (4 * i)).take 4))
    let updates (i : Instr) : Prop := ∃ t, Completes i s t ∧ t.c.copy = s.c.copy.set s.input.n (beaten q q.wrote s.tick) ∧
      (∀ i, i < 16 →
        let size := if q.fn = 7 then 8 else 4
        let x := word (s.c.mem.readBytes (at_ + size * i) 4) 0
        let y := word (s.c.mem.readBytes (at_ + size * i + 4) 4) 0
        let g := word (s.gread pa 64 key) i
        word (t.gread pa 64 key) i = updateWord q.fn g x y ∧
        ((q.fn = 6 ∨ q.fn = 7) → word (t.c.mem.readBytes (at_ + size * i) 4) 0 = g)) ∧
      (q.fn ≠ 6 → q.fn ≠ 7 → t.c.mem = s.c.mem) ∧
      ∀ k, k < pa ∨ pa + 64 ≤ k → t.chip.gmem.read k = s.chip.gmem.read k
    (q.kind = 0 → BeatLoads .load s q pa key ∧ BeatLoads .copyBeat s q pa key) ∧
    (q.kind = 2 → BeatLoads .gather s q pa key ∧ BeatLoads .copyBeat s q pa key) ∧
    (q.kind = 4 → BeatLoads .im2col s q pa key ∧ BeatLoads .copyBeat s q pa key) ∧
    (q.kind = 1 → BeatStores .store s q pa key (s.c.mem.readBytes at_ 64) ∧
      BeatStores .copyBeat s q pa key (s.c.mem.readBytes at_ 64)) ∧
    (q.kind = 3 → BeatStores .scatter s q pa key (s.c.mem.readBytes at_ 64) ∧
      BeatStores .copyBeat s q pa key (s.c.mem.readBytes at_ 64)) ∧
    (q.kind = 6 → BeatStores .fillCommand s q pa key q.pat ∧ BeatStores .copyBeat s q pa key q.pat) ∧
    (q.kind = 5 → updates .update ∧ updates .copyBeat)) ∧
  (∀ (s : State) (q : CopyCmd), q.rows = true → q.rs ≠ 0 → q.rs % 64 = 0 →
    let row := q.pos * 64 / q.rs
    let n := (q.list.getD (row % 16) 0).toNat
    let x := signedBits 12 n
    let y := signedBits 12 (n / 2 ^ 12)
    let m := n / 2 ^ 24
    let inside : Prop := 0 ≤ x ∧ x < q.geoW ∧ 0 ≤ y ∧ y < q.geoH ∧ m < q.geoN
    let base (k : Nat) := q.rb.toNat + k * q.stride
    let rest := q.pos * 64 % q.rs
    let pixel := (m * q.geoH + y.toNat) * q.geoW + x.toNat
    (q.haveList = false → q.beatAt = .list (q.va + 64 * (row / 16))) ∧
    (q.haveList = true → q.kind ≠ 4 →
      (base n + q.rs ≤ 2 ^ 48 → q.beatAt = .data (base n + rest)) ∧ (2 ^ 48 < base n + q.rs → q.beatAt = .beyond)) ∧
    (q.haveList = true → q.kind = 4 → inside → base pixel + q.rs ≤ 2 ^ 48 → q.beatAt = .data (base pixel + rest)) ∧
    (q.haveList = true → q.kind = 4 → ¬inside → q.beatAt = .pad) ∧
    (q.kind = 4 → q.haveList = true → ¬inside → FrontReady s q → (s.localAt q (State.localPos q q.pos)).1 ≠ 5 → ∃ t,
      Completes .im2col s t ∧ t.c.copy = s.c.copy.set s.input.n (beaten q q.wrote s.tick) ∧ t.chip = s.chip ∧
      t.c.mem.readBytes (s.localAt q (State.localPos q q.pos)).2 64 =
        (List.replicate 16 (leBytes 4 q.pad.toNat)).flatten))

/-- A command that has made its beats leaves the FIFO: its count steps up, then its handle, its barrier and its message follow
from its outcome, each where the request asked for it; a hold that a cfence set before it goes over to the command behind it.
A credit joins the update that its core cycle has made of the barrier. -/
def Obligations.CopyCompletionLands : Prop :=
  ∀ (s : State) (q : CopyCmd), s.cmd s.input.n = some q → q.finished = true → s.inExchange = false →
    s.inTransit = false → (∀ r ∈ s.c.copy.take s.input.n, State.sameRing q r = false) →
    let u : State := { s with c := { s.c with copy := s.c.copy.eraseIdx s.input.n, copyDone := s.c.copyDone + 1 } }
    let h := s.handle q.hreg
    let slots := BitVec.ofNat 16 (q.extent / h.size.toNat)
    let good := q.stop = none ∧ q.errAt = none
    let b := ((s.c.cycleBar.find? (·.1 = q.barName)).map (·.2)).getD (s.barrier q.barName)
    let credited (x : Barrier) : State := { u with c := { u.c with
      bar := s.c.bar.set q.barName (flipped x)
      cycleBar := (q.barName, x) :: s.c.cycleBar.filter fun e => e.1 ≠ q.barName } }
    let tell (t : State) (status data : Nat) : State := if q.msg then t.post (State.message 1 status q.tag data) else t
    (q.fence = true → 0 < s.input.n → s.input.n + 1 < s.c.copy.length → good → q.hv = false → q.bv = false → q.msg = false → ∃ t,
      Completes .copyCompletion s t ∧ t.c.copy.length + 1 = s.c.copy.length ∧
      ∃ r ∈ s.c.copy[s.input.n + 1]?, t.c.copy[s.input.n]? = some { r with fence := true }) ∧
    (q.fence = false ∨ s.input.n = 0 →
    (good → q.hv = false → q.bv = false → Completes .copyCompletion s (tell u 0 q.nominal)) ∧
    (good → q.hv = true → q.bv = false → q.kind = 0 ∨ q.kind = 2 ∨ q.kind = 4 →
      Completes .copyCompletion s (tell (u.setHandle q.hreg { h with tail := h.tail + slots }) 0 q.nominal)) ∧
    (good → q.hv = true → q.bv = false → q.kind = 1 ∨ q.kind = 3 →
      Completes .copyCompletion s (tell (u.setHandle q.hreg { h with head := h.head + slots }) 0 q.nominal)) ∧
    (good → q.hv = false → q.bv = true → b.penb.toNat + q.nominal ≤ b.expb.toNat →
      Completes .copyCompletion s (tell (credited { b with penb := BitVec.ofNat 24 (b.penb.toNat + q.nominal) }) 0 q.nominal)) ∧
    (∀ st data, q.stop = some (st, data) → q.hv = false → q.bv = false →
      Completes .copyCompletion s (tell u st data)) ∧
    (∀ p, q.stop = none → q.errAt = some p → q.hv = false → q.bv = false →
      Completes .copyCompletion s (tell u 12 p)))

/-! The exchange and the trees (09, 10). -/

/-- At its offset an exchange instruction with a matching slot claims it: a send puts its beats on their way, a receive or
combine records its block, xsel selects its port from there on; xend at the length of the segment ends the core's part, and
at another offset within it records ILLEGAL with the offset at issue, which comes after the xc of an exchange instruction before it.
That a path without a grant has the rate of PAM4 is the model’s choice (log 31). -/
def Obligations.ExchangeInstructionsClaimSlots : Prop :=
  ∀ (s : State) (e : Exch) (cls : Fin 8) (a : Reg) (off : BitVec 13),
    let o := off.toNat
    let len := 2 ^ (cls.val + 4)
    let beats := Nat.max 1 (len / 64)
    let block := offOf (s.reg a)
    let index := Nat.min 31 ((e.seg.slots.filter fun x =>
      x.core == s.c.lcore.toNat && (x.kind == 1 || x.kind == 2) && decide (x.off < o)).length)
    let claim (comb : Option (ElemType × CombOp × Bool)) : Claim :=
      { idx := index, off := o, addr := block, len := len, comb := comb, got := [] }
    (SlotReady s e o (fun x => x.kind = 0 ∧ x.cls = cls.val) → ExchBlock s a len →
      Leaves (.xsend cls a off) s (unitAt s o { e with
        sends := e.sends ++ (List.range beats).map fun j =>
          { at_ := o + j, off := o, j := j, lane := none, addr := block + 64 * j, len := Nat.min 64 len }
        sent := o :: e.sent })) ∧
    (SlotReady s e o (fun x => x.kind = 1 ∧ x.cls = cls.val) → ExchBlock s a len →
      Leaves (.xrecv cls a off) s (unitAt s o { e with claims := e.claims ++ [claim none] })) ∧
    (∀ ty op sat, SlotReady s e o (fun x => x.kind = 2 ∧ x.cls = cls.val) → ExchBlock s a len →
      Leaves (.xrecva ty op sat cls a off) s (unitAt s o { e with claims := e.claims ++ [claim (some (ty, op, sat))] })) ∧
    (∀ (lane : Fin 4) dur path, SlotReady s e o (fun x => x.kind = 3 ∧ x.cls = cls.val ∧ x.lane = lane.val) →
      ExchBlock s a len → s.laneEntry lane.val o = some (dur, path) →
      let rate := 8 * (e.modes.getD path 1 + 1)
      Leaves (.xmc lane cls a off) s (unitAt s o { e with
        sends := e.sends ++ ((List.range beats).filter fun j => decide (Nat.min (64 * (j + 1)) len ≤ dur * rate)).map
          fun j => { at_ := o + 64 * j / rate, off := o, j := j, lane := some lane.val, path := path
                     addr := block + 64 * j, len := Nat.min 64 len }
        sent := o :: e.sent })) ∧
    (∀ port : Fin 5, SlotReady s e o (fun x => x.kind = 4 ∧ x.port = port.val) →
      Leaves (.xsel port off) s (unitAt s o { e with ports := (o, port.val) :: e.ports })) ∧
    (s.inExchange = true → s.c.exch = some e → s.xc ≤ e.xr + o → e.nextOff ≤ o → o = e.seg.len →
      Leaves (.xend off) s (s.advanceTo (e.xr + o))) ∧
    (s.inExchange = true → s.c.exch = some e → s.xc ≤ e.xr + o → e.nextOff ≤ o → o < e.seg.len →
      Leaves (.xend off) s ((unitAt s o e).deferTrap ⟨.illegal, 11, 0⟩ (Nat.max (s.xc - e.xr) e.nextOff)
        { cause := causeWord .illegal 11 0, eaddr := 0, eword := s.ir.eword })) ∧
    (s.inExchange = true → s.c.exch = some e → ExchBlock s a len → o < s.xc - e.xr ∨ o < e.nextOff →
      exec (.xsend cls a off) s = s.raise ⟨.late, 0, BitVec.ofNat 32 o⟩ ∧
      exec (.xrecv cls a off) s = s.raise ⟨.late, 0, BitVec.ofNat 32 o⟩ ∧
      exec (.xend off) s = s.raise ⟨.late, 0, BitVec.ofNat 32 o⟩) ∧
    (s.inExchange = true → s.c.exch = some e → ExchBlock s a len → s.xc ≤ e.xr + o → e.nextOff ≤ o → o < e.seg.len →
      (∀ x ∈ e.seg.slots, x.core = s.c.lcore.toNat → x.off = o → x.kind ≠ 0) →
      exec (.xsend cls a off) s = (unitAt s o e).raise ⟨.slot, 0, BitVec.ofNat 32 o⟩)

/-- A beat that arrives waits for what its xc still brings. Once the xc has passed, the sends of the xc leave with the bytes as they were
(R158), and the beat, where a receive has claimed its block, its strobe is set and it comes through the port then selected, is written
to its place or combined with it by the operation that the instruction names (R179); no other byte of local memory changes. One that
has its strobe clear, or comes by another input, writes nothing and is recorded in c.xmiss (R155); one that no receive has claimed is
discarded. That beats are written only when their xc has passed is the model's way to make the order of the steps of one xc
immaterial (log 34, DEDUCED).
The partition's exchange phase and a local one end: the beats that have arrived are written, the phase number steps to even, what the segment left is recorded, and
a running core takes its deferred trap. -/
def Obligations.ExchangeBeatsAndPhaseEnds : Prop :=
  ((∀ (s : State) (e : Exch) (x : Slot),
    let i := s.input
    let at_ := i.off + i.n
    let u : State := s.advanceTo (e.xr + at_)
    let v : State := if e.handled < at_ then u.settleBeats else u
    s.c.exch = some e → i.flag2 = false → x ∈ e.seg.slots →
    (∀ y ∈ e.seg.slots, y.core = s.c.lcore.toNat ∧ (y.kind = 1 ∨ y.kind = 2) ∧ y.off = i.off ↔ y = x) →
    i.n < Nat.max 1 (2 ^ (x.cls + 4) / 64) → e.handled ≤ at_ → at_ < e.seg.len →
    Completes .exchangeBeatReceive s { v with c := { v.c with
      exch := some { v.exch with handled := at_, arrived := v.exch.arrived ++ [i] } } }) ∧
  (∀ (s : State) (e : Exch) (i : Input), s.c.exch = some e → e.arrived = [i] → s.c.memErr = [] →
    let t : State := s.settleBeats
    (e.xr + e.handled < s.xc → s.settlePast = t) ∧
    (∀ b : SendBeat, e.sends = [b] → b.lane = none → b.at_ ≤ e.handled →
      t.out = s.out ++ [.beat b.off b.j none true (s.c.mem.readBytes b.addr b.len)]) ∧
    ((∀ k ∈ e.claims, k.off ≠ i.off) → t.c.mem = s.c.mem ∧ t.c.xmiss = s.c.xmiss) ∧
    (∀ k : Claim, e.claims.find? (·.off = i.off) = some k → i.flag2 = false → Nat.min 64 k.len ≤ i.data.length →
      let place := k.addr + 64 * i.n
      let size := Nat.min 64 k.len
      (∀ x, x < place ∨ place + size ≤ x → t.c.mem.read x = s.c.mem.read x) ∧
      (i.flag = false ∨ e.portAt e.handled ≠ i.port.val → t.c.mem = s.c.mem ∧
        t.c.xmiss = s.c.xmiss ||| BitVec.ofNat 32 (2 ^ Nat.min 31 k.idx)) ∧
      (i.flag = true → e.portAt e.handled = i.port.val → t.c.xmiss = s.c.xmiss ∧
        (k.comb = none → t.c.mem.readBytes place size = i.data.take size) ∧
        (∀ ty op sat, k.comb = some (ty, op, sat) → ∀ n, (n + 1) * ty.bytes ≤ size →
          let old := littleEndian s.c.mem (place + n * ty.bytes) ty.bytes
          let x := leNat ((i.data.drop (n * ty.bytes)).take ty.bytes)
          littleEndian t.c.mem (place + n * ty.bytes) ty.bytes = (match op with
            | .add => (laneAdd ty sat false old x).1
            | .max => (laneMax ty false old x).1
            | .min => (laneMin ty false old x).1
            | .or => old ||| x
            | .and => old &&& x) % 2 ^ ty.width) ∧
        ∃ f, t.c.exch = some f ∧ f.arrived = [] ∧
          f.claims = e.claims.map fun d => if d.off = k.off then { d with got := i.n :: d.got } else d)))) ∧
  (∀ (s : State) (e : Exch), s.c.exch = some e → (∀ o ∈ s.chip.ops, o.state ≠ .waitAllow) →
    let swap := s.p.prepared.isSome || s.chip.ckpt.isSome
    let u : State := (s.advanceTo (e.xr + e.seg.len)).settleBeats
    (s.c.phase.getLsbD 0 = true → s.c.lphase.getLsbD 0 = false → ∃ t, Completes .exchangePhaseEnd s t ∧
      t.c.phase = s.c.phase + 1 ∧ t.p.swapDue = swap ∧ t.p.trees.staged = [] ∧ t.boundary = true ∧ PhaseCloses u t u.exch swap) ∧
    (s.c.lphase.getLsbD 0 = true → s.c.phase.getLsbD 0 = false → ∃ t, Completes .localPhaseEnd s t ∧
      t.c.lphase = s.c.lphase + 1 ∧ t.p = s.p ∧ PhaseCloses u t u.exch s.p.swapDue))

/-- sync and lsync arrive once the slice and the head unit are idle, wait, and complete when they have been released; a segment
number above 63, tree 0, a tree of which the core is no member and one at which its own arrive is pending trap. The sync of a core
that is no member of g0 does not arrive (R201). At lsync, that DETAIL 7 comes before 9 and 10, and that such a sync waits, is the
model's choice (log 34, DESIGN CHOICE).
Once every member has arrived with one segment, the controller starts it: the phase number becomes odd and the core's unit
runs the segment from this exchange cycle on. With two segments every member traps; an expired time-out traps with
STRAGGLER, and c.eaddr holds the exchange cycle of its expiry.
That lsync behind the core’s own pending arrive traps with BARRIER_OVER is the model’s choice (log 34, DEDUCED). -/
def Obligations.SyncArrivesAndReleases : Prop :=
  (∀ (s : State) (a : Reg) (g : Tree),
    let seg := (s.reg a).toNat
    let arrived (h : Tree) : State := { s with p := { s.p with trees := { s.p.trees with
      gather := { tree := h, arrivals := [(s.coreId, seg)], stragg := s.c.stragg, xc := s.xc } :: s.p.trees.gather } } }
    let waiting (t : State) (h : Tree) : State := { t with c := { t.c with stall := true, pend := .sync h seg } }
    (s.c.pend = .released → Leaves (.sync a) s s ∧ Leaves (.lsync g a) s s) ∧
    (Fresh s → seg ≤ 63 → s.coreId ∈ s.members 0 → s.c.mx = [] → s.c.head = [] → (∀ x ∈ s.p.trees.gather, x.tree ≠ 0) →
      Completes (.sync a) s (waiting (arrived 0) 0)) ∧
    (Fresh s → seg ≤ 63 → g ≠ 0 → s.coreId ∈ s.members g → s.c.mx = [] → s.c.head = [] →
      s.c.arr.getLsbD g.val = false → (∀ x ∈ s.p.trees.gather, x.tree ≠ g) → Completes (.lsync g a) s (waiting (arrived g) g)) ∧
    (Fresh s → seg ≤ 63 → g ≠ 0 → s.coreId ∈ s.members g → s.c.mx = [] → s.c.head = [] → s.c.arr.getLsbD g.val = true →
      Traps (.lsync g a) s .barrierOver 0 0) ∧
    (Fresh s → seg ≤ 63 → s.c.mx ≠ [] ∨ s.c.head ≠ [] ∨ s.coreId ∉ s.members 0 → Waits (.sync a) s) ∧
    (Fresh s → 63 < seg → Traps (.sync a) s .illegal 7 0 ∧ Traps (.lsync g a) s .illegal 7 0) ∧
    (Fresh s → seg ≤ 63 → Traps (.lsync 0 a) s .illegal 10 0) ∧
    (Fresh s → seg ≤ 63 → g ≠ 0 → s.coreId ∉ s.members g → Traps (.lsync g a) s .illegal 9 0)) ∧
  (∀ (s : State) (g : Tree) (n : Nat) (seg : Segment) (x : Gathering),
    s.input.pairs = [] → s.input.tree = g → s.c.pend = .sync g n → s.p.trees.gather.find? (·.tree = g) = some x →
    s.coreId ∈ s.members g → s.p.trees.staged = [] → s.c.phase.getLsbD 0 = false → s.c.lphase.getLsbD 0 = false →
    let all := ∀ m ∈ s.members g, ∃ y ∈ x.arrivals, y.1 = m
    let agree := ∀ y ∈ x.arrivals, y.2 = n
    let rest := s.p.trees.gather.filter (·.tree ≠ g)
    let started (t : State) : Prop := t.c.exch = some { xr := s.xc, seg := seg, tree := g } ∧ t.c.pend = .released ∧
      t.c.stale = [] ∧ t.p.trees.gather = rest ∧ t.c.pc = s.c.pc ∧ t.c.mem = s.c.mem
    let failed (cause : Cause) (detail : Nat) (addr : Word) (t : State) : Prop :=
      t.p.trees.gather = rest ∧ t.c.pend = .none ∧
      (s.c.status.getLsbD 1 = true → t.c.pc = s.c.tvec ∧ t.c.epc = s.c.pc ∧ t.c.eaddr = addr ∧
        t.c.cause.toNat / 65536 = detail ∧ t.c.cause.toNat % 256 = cause.code)
    let img := s.p.image.bind fun i => i.segs.find? (·.seg = n)
    (g = 0 → all → agree → img = some seg → seg.loc = false → seg.paths = [] →
      ∃ t, Completes .phaseRelease s t ∧ started t ∧ t.c.phase = s.c.phase + 1 ∧ t.c.lphase = s.c.lphase ∧ t.boundary = true) ∧
    (g ≠ 0 → all → agree → img = some seg → seg.loc = true → seg.paths = [] → seg.slots = [] → seg.switches = [] →
      (∀ d a f, s.c.issue ≠ some (.xload d a, f)) →
      ∃ t, Completes .localRelease s t ∧ started t ∧ t.c.lphase = s.c.lphase + 1 ∧ t.c.phase = s.c.phase) ∧
    (all → (∃ y ∈ x.arrivals, ∃ z ∈ x.arrivals, y.1 ∈ s.members g ∧ z.1 ∈ s.members g ∧ y.2 ≠ z.2) →
      (g = 0 → ∃ t, Completes .phaseRelease s t ∧ failed .illegal 6 0 t ∧ t.c.phase = s.c.phase) ∧
      (g ≠ 0 → ∃ t, Completes .localRelease s t ∧ failed .illegal 6 0 t ∧ t.c.lphase = s.c.lphase)) ∧
    (¬(∀ m ∈ s.members g, (g.val, m) ∈ s.p.trees.arrived ∨ ∃ y ∈ x.arrivals, y.1 = m) → x.stragg ≠ 0 →
      ∃ t, Completes .stragglerExpiry s t ∧
      t.xc = Nat.max s.xc (x.xc + x.stragg.toNat) ∧ failed .straggler 0 (BitVec.ofNat 32 (x.xc + x.stragg.toNat)) t))

/-- arrive sets ARR and clears DONE of its tree; await takes DONE or waits for it; the last arrival of a tree sets DONE of its
members, and a member that waits at lsync then traps with ILLEGAL, DETAIL 6; the time-out of await withdraws the arrival and traps,
also where the last arrival comes after it.
In S mode dom stages a mask of a tile of the partition, and phase reads the controller's state or cancels a sync that its
members wait in. Both trap in U mode with PRIV; a tile outside the partition and another request trap with ILLEGAL.
That dom’s ILLEGAL 13 comes before PRIV (log 21, DEDUCED), what becomes of lsync waits when arrivals are mixed, and bits
13:8 of Query with no arrival (log 34, DESIGN CHOICE) are the model’s choice. -/
def Obligations.SplitBarriersDomAndPhase : Prop :=
  (∀ (s : State) (g : Tree), s.inExchange = false → g ≠ 0 → s.coreId ∈ s.members g →
    let bits (t : State) (a d : Bool) : Prop := t.c.arr.getLsbD g.val = a ∧ t.c.done.getLsbD g.val = d ∧
      ∀ h, h ≠ g.val → t.c.arr.getLsbD h = s.c.arr.getLsbD h ∧ t.c.done.getLsbD h = s.c.done.getLsbD h
    let others := s.p.trees.arrived.filter (·.1 ≠ g.val)
    (s.c.arr.getLsbD g.val = false → ∃ u, Leaves (.arrive g) s u ∧ bits u true false ∧
      u = { s with
        c := { s.c with arr := u.c.arr, done := u.c.done }
        p := { s.p with trees := { s.p.trees with arrived := s.p.trees.arrived ++ [(g.val, s.coreId)] } } }) ∧
    (s.c.arr.getLsbD g.val = true → Traps (.arrive g) s .barrierOver 0 0) ∧
    (s.c.pend = .none ∨ (∃ x, s.c.pend = .await g x) → s.c.done.getLsbD g.val = true → ∃ u, Leaves (.await g) s u ∧
      bits u (s.c.arr.getLsbD g.val) false ∧ u = { s with c := { s.c with done := u.c.done } }) ∧
    (s.c.pend = .none → s.c.done.getLsbD g.val = false → s.c.arr.getLsbD g.val = true →
      Completes (.await g) s { s with c := { s.c with stall := true, pend := .await g s.xc } }) ∧
    (s.c.pend = .none → s.c.done.getLsbD g.val = false → s.c.arr.getLsbD g.val = false →
      Traps (.await g) s .illegal 12 0) ∧
    (s.input.tree = g → (∀ h x, s.c.pend = .await h x → s.c.stragg = 0 ∨ s.c.done.getLsbD h.val = true ∨ s.xc < x + s.c.stragg.toNat) →
      (∀ y ∈ s.p.trees.gather, y.tree ≠ g) →
      (∀ m ∈ s.members g, (g.val, m) ∈ s.p.trees.arrived ∨ (m ∈ s.input.nums ∧ m ≠ s.coreId)) →
      ∃ t, Completes .treeComplete s t ∧ bits t false true ∧ t.p.trees.arrived = others) ∧
    (∀ n y, s.input.tree = g → s.input.nums = [] → s.c.pend = .sync g n → s.p.trees.gather.find? (·.tree = g) = some y →
      (∀ m ∈ s.members g, (g.val, m) ∈ s.p.trees.arrived ∨ ∃ z ∈ y.arrivals, z.1 = m) →
      (∃ m ∈ s.members g, ∀ z ∈ y.arrivals, z.1 ≠ m) → s.c.status.getLsbD 1 = true → ∃ t, Completes .treeComplete s t ∧
      bits t false true ∧ t.p.trees.arrived = others ∧ t.p.trees.gather = s.p.trees.gather.filter (·.tree ≠ g) ∧
      t.c.pend = .none ∧ t.c.pc = s.c.tvec ∧ t.c.cause.toNat / 65536 = 6 ∧ t.c.cause.toNat % 256 = Cause.illegal.code) ∧
    (∀ x, s.input.tree = g → s.c.pend = .await g x → s.c.stragg ≠ 0 → s.c.done.getLsbD g.val = false →
      x + s.c.stragg.toNat ≤ s.xc → s.c.status.getLsbD 1 = true → ∃ t, Completes .treeComplete s t ∧ bits t false false ∧
      t.c.pc = s.c.tvec ∧ t.c.cause.toNat % 256 = 7 ∧ t.c.eaddr = BitVec.ofNat 32 (x + s.c.stragg.toNat)) ∧
    (∀ x, s.c.pend = .await g x → s.c.stragg ≠ 0 → s.c.done.getLsbD g.val = false → s.c.status.getLsbD 1 = true → ∃ t,
      Completes .awaitStraggler s t ∧ t.xc = Nat.max s.xc (x + s.c.stragg.toNat) ∧ bits t false false ∧
      t.p.trees.arrived = s.p.trees.arrived.filter (· ≠ (g.val, s.coreId)) ∧
      t.c.pc = s.c.tvec ∧ t.c.cause.toNat % 256 = 7 ∧ t.c.eaddr = BitVec.ofNat 32 (x + s.c.stragg.toNat))) ∧
  (∀ (s : State) (g : Tree) (d a b : Reg), Fresh s → s.input.flag = false →
    let tile := (s.reg a).toNat
    let xs := s.arrivals 0
    let cancelled : State := { s with p := { s.p with trees := { s.p.trees with
      gather := s.p.trees.gather.filter (·.tree ≠ 0) } } }
    let number := BitVec.ofNat 32 xs.length
    (s.svc = true → tile ∈ s.p.cfg.tiles → ∃ staged, Leaves (.dom g a b) s { s with
        p := { s.p with trees := { s.p.trees with staged := staged } } } ∧
      (∀ h k m, (h, k, m) ∈ staged ↔ if h = g.val ∧ k = tile then m.toNat = (s.reg b).toNat % 2 ^ 16
        else (h, k, m) ∈ s.p.trees.staged)) ∧
    (tile ∉ s.p.cfg.tiles → Traps (.dom g a b) s .illegal 13 0) ∧
    (s.svc = false → tile ∈ s.p.cfg.tiles → Traps (.dom g a b) s .priv 0 0) ∧
    (s.svc = true → s.reg a = 0 → ∃ w : Word, Writes (.phaseQuery d a) s d w ∧ w.toNat / 2 ^ 16 = xs.length % 2 ^ 16 ∧
      w.toNat / 2 ^ 8 % 2 ^ 8 = (xs.headD (0, 0)).2 % 64 ∧
      w.toNat % 2 ^ 8 = if s.c.phase.getLsbD 0 then 3 else if xs = [] then 0 else if s.allArrived 0 then 2 else 1) ∧
    (s.svc = true → s.reg a = 1 → Leaves (.phaseQuery d a) s (cancelled.setReg d number) ∧
      Leaves (.phaseCancel d a) s (cancelled.setReg d number)) ∧
    ((s.reg a).toNat ≤ 1 → s.svc = false → Traps (.phaseQuery d a) s .priv 0 0) ∧
    (1 < (s.reg a).toNat → Traps (.phaseQuery d a) s .illegal 0 0 ∧ Traps (.phaseCancel d a) s .illegal 0 0))

/-- A reduction sends its contribution and waits; when the result has come it goes to the low lanes of v[d], with zeros above
them, and the status to s[c]. A core that is no member of the tree traps with ILLEGAL, DETAIL 9. -/
def Obligations.ReductionInstructions : Prop :=
  ∀ (s : State) (t : ElemType) (sat : Bool) (d a c : Reg) (g : Tree) (n : Fin 16),
    let k := if n.val = 0 then 16 else n.val
    let forms : List (Instr × RedOp) := [(.redAdd t sat d a g c n, .add), (.redMax t sat d a g c n, .max),
      (.redMin t sat d a g c n, .min), (.redAnd t sat d a g c n, .and), (.redOr t sat d a g c n, .or)]
    let con (op : RedOp) : RedContrib :=
      { lcore := s.c.lcore.toNat, op := op, type := t, sat := sat, n := k
        lanes := (List.range k).map fun i => BitVec.ofNat 32 ((s.vreg a).toNat / 2 ^ (32 * i)) }
    let bar : RedContrib := { lcore := s.c.lcore.toNat, op := .bar, type := .u32, sat := false, n := 0, lanes := [] }
    let sent (x : RedContrib) : State := { s with
      out := s.out ++ [.contribute g (s.redCount g) x]
      c := { s.c with stall := true, pend := .red { tree := g, con := x, num := s.redCount g, xc := s.xc } } }
    (Fresh s → s.coreId ∈ s.members g →
      (∀ f ∈ forms, Completes f.1 s (sent (con f.2))) ∧ Completes (.redBar g) s (sent bar)) ∧
    (Fresh s → s.coreId ∉ s.members g →
      (∀ f ∈ forms, Traps f.1 s .illegal 9 0) ∧ Traps (.redBar g) s .illegal 9 0) ∧
    (∀ lanes st, s.c.pend = .redDone lanes st →
      (lanes.length = k → ∀ f ∈ forms, ∃ x : VWord,
        Leaves f.1 s ((s.setV d x).setReg c st) ∧
        ∀ i, i < 16 → x.extractLsb' (32 * i) 32 = lanes.getD i 0) ∧
      Leaves (.redBar g) s s)

/-- The result of a reduction does not depend on the order of the contributions where their type is an integer: the sum modulo
2^32 or, saturating, the exact sum clamped, with SAT where one is clamped; the largest, the smallest, the and, the or of each lane; participants that disagree get zeros and status 8. A
time-out withdraws the contribution and traps with STRAGGLER, and a result that comes after it is not taken. -/
def Obligations.ReductionResults : Prop :=
  ∀ (s : State) (w : RedWait), s.c.pend = .red w →
    let all := w.con :: s.input.contribs
    let done (lanes : List Word) (st : Word) : State := { s with c := { s.c with
      pend := .redDone lanes st
      redNum := (w.tree.val, w.num + 1) :: s.c.redNum.filter (·.1 ≠ w.tree.val) } }
    let inTime := s.c.stragg = 0 ∨ s.xc < w.xc + s.c.stragg.toNat
    let agree := ∀ c ∈ all, c.op = w.con.op ∧ c.type = w.con.type ∧ c.sat = w.con.sat ∧ c.n = w.con.n
    let lane (c : RedContrib) (i : Nat) : Nat := (c.lanes.getD i 0).toNat
    let slane (c : RedContrib) (i : Nat) : Int := (c.lanes.getD i 0).toInt
    (inTime → s.input.contribs.length + 1 = (s.members w.tree).length → agree → w.con.type = .i32 ∨ w.con.type = .u32 →
      w.con.sat = false ∨ w.con.op ≠ .add → w.con.op ≠ .bar → ∃ lanes, Completes .reductionResult s (done lanes 0) ∧
      lanes.length = w.con.n ∧ ∀ i, i < w.con.n → ∀ x : Word, lanes[i]? = some x →
        (w.con.op = .add → x.toNat = (all.map (lane · i)).sum % 2 ^ 32) ∧
        (w.con.op = .max → w.con.type = .u32 → (∃ c ∈ all, x.toNat = lane c i) ∧ ∀ c ∈ all, lane c i ≤ x.toNat) ∧
        (w.con.op = .min → w.con.type = .u32 → (∃ c ∈ all, x.toNat = lane c i) ∧ ∀ c ∈ all, x.toNat ≤ lane c i) ∧
        (w.con.op = .max → w.con.type = .i32 → (∃ c ∈ all, x.toInt = slane c i) ∧ ∀ c ∈ all, slane c i ≤ x.toInt) ∧
        (w.con.op = .min → w.con.type = .i32 → (∃ c ∈ all, x.toInt = slane c i) ∧ ∀ c ∈ all, x.toInt ≤ slane c i) ∧
        (w.con.op = .and → ∀ b, b < 32 → (x.getLsbD b = true ↔ ∀ c ∈ all, (c.lanes.getD i 0).getLsbD b = true)) ∧
        (w.con.op = .or → ∀ b, b < 32 → (x.getLsbD b = true ↔ ∃ c ∈ all, (c.lanes.getD i 0).getLsbD b = true))) ∧
    (inTime → s.input.contribs.length + 1 = (s.members w.tree).length → agree → w.con.type = .i32 ∨ w.con.type = .u32 →
      w.con.sat = true → w.con.op = .add →
      let lo : Int := if w.con.type = .i32 then -(2 ^ 31) else 0
      let hi : Int := if w.con.type = .i32 then 2 ^ 31 - 1 else 2 ^ 32 - 1
      let total (i : Nat) : Int := (all.map fun c => if w.con.type = .i32 then slane c i else lane c i).sum
      let clamped (i : Nat) : Int := Max.max lo (Min.min hi (total i))
      ∃ lanes st, Completes .reductionResult s (done lanes st) ∧ lanes.length = w.con.n ∧
        (∀ i, i < w.con.n → lanes[i]? = some (BitVec.ofInt 32 (clamped i))) ∧
        ((∃ i, i < w.con.n ∧ clamped i ≠ total i) → st = 1) ∧ ((∀ i, i < w.con.n → clamped i = total i) → st = 0)) ∧
    (inTime → s.input.contribs.length + 1 = (s.members w.tree).length → ¬agree →
      Completes .reductionResult s (done (List.replicate 16 0) 8)) ∧
    (¬inTime → Completes .reductionResult s s) ∧
    (s.c.stragg ≠ 0 → s.c.status.getLsbD 1 = true → ∃ t, Completes .reductionStraggler s t ∧
      t.xc = Nat.max s.xc (w.xc + s.c.stragg.toNat) ∧ t.c.pc = s.c.tvec ∧ t.c.epc = s.c.pc ∧
      t.c.cause.toNat % 256 = 7 ∧ t.c.eaddr = BitVec.ofNat 32 (w.xc + s.c.stragg.toNat) ∧ t.c.pend = .none ∧
      t.out = s.out ++ [.withdraw w.tree w.num])

/-! The head unit (16). -/

/-- With its state, its operands and a place in the queue each operation enters the head unit with its scalar operand and the
state's entry; vpinit makes the entry; vpstat reads and clears the status once the queue is empty. What R280 turns away traps
with ILLEGAL, and a fold or merge that would overflow a heap in threshold mode traps with HEAP_SPILL.
R272, R287: vpspill appends each token's pairs to the spill area, moves the pointer on, empties the heaps, clears OVF.
That vpspill leaves SBANK is the model’s choice (log 54, DEDUCED). -/
def Obligations.HeadInstructionsEnterAndSpill : Prop :=
  (∀ (s : State) (e : DirEntry) (d a b : Reg),
    let mode := s.c.vpcfg.toNat % 4
    let cap := if mode = 0 then s.c.vpcfg.toNat / 2 ^ 8 % 2 ^ 7 else s.c.vpcfg.toNat / 2 ^ 16 % 2 ^ 8
    let tokens := (s.reg a).toNat
    let blockSize (cap : Nat) := 64 * ((32 + 8 * cap + 63) / 64)
    let made : DirEntry := { bank := d.val, t := tokens, mode := mode, cap := cap, delta := if mode = 1 then s.reg b else 0
                             nb := (64 + tokens * blockSize cap + 2047) / 2048 }
    let sound := mode ≤ 1 ∧ 1 ≤ cap ∧ cap ≤ (if mode = 0 then 64 else 128) ∧ 1 ≤ tokens ∧ tokens ≤ 32 ∧
      (mode = 1 → (s.reg b).toNat ≤ 0x7F800000 ∨ (s.reg b).toNat = 2 ^ 31)
    let size := e.t * blockSize e.cap
    let apart (x n : Nat) : Prop := ∀ f ∈ s.c.dir, ¬(f.bank < x + n ∧ x < f.bank + f.nb)
    let spills (i : Instr) := exec i s = .next (State.enter
      { s with c := { s.c with vpst := (s.c.vpst &&& 0xFFFFFF60) ||| 0x80 ||| BitVec.ofNat 32 e.bank } }
      (causeWord .heapSpill 0 s.ir.len) s.c.pc 0 s.ir.eword)
    let tile := e.banks ++ [a.val, a.val + 1]
    (s.inExchange = false → sound → (∀ x, d.val ≤ x → x < d.val + made.nb → x < 32 ∧ s.c.accmap.getLsbD x = true) →
      s.mxBusy made.banks = false → s.c.head.length < 4 →
      Leaves (.vpinit d a b) s { s with c := { s.c with
        dir := s.c.dir.filter (fun f => !decide (f.bank < d.val + made.nb ∧ d.val < f.bank + f.nb)) ++ [made]
        head := s.c.head ++ [{ op := .vpinit d a b, x := 0, ent := made }] } }) ∧
    (HeadReady s e d.val e.banks → Operand (s.reg a) (4 * e.t) 4 →
      HeadTakes (.vplabel d a) s { op := .vplabel d a, x := s.reg a, ent := e }) ∧
    (HeadReady s e d.val tile → TileReady s .f32 a → apart a.val 2 → (s.reg b).toNat ≤ 0xFFFFFFE0 →
      (e.mode ≠ 1 ∨ (s.headBusy tile = false ∧ s.foldOver e a.val (s.reg b).toNat = false) →
        HeadTakes (.vpfold d a b) s { op := .vpfold d a b, x := s.reg b, ent := e }) ∧
      (e.mode = 1 → s.headBusy tile = false → s.foldOver e a.val (s.reg b).toNat = true → spills (.vpfold d a b))) ∧
    (HeadReady s e d.val e.banks → Operand (s.reg a) size 64 →
      (e.mode ≠ 1 ∨ (s.headBusy e.banks = false ∧ s.mergeOver e (offOf (s.reg a)) = false) →
        HeadTakes (.vpmerge d a) s { op := .vpmerge d a, x := s.reg a, ent := e }) ∧
      (e.mode = 1 → s.headBusy e.banks = false → s.mergeOver e (offOf (s.reg a)) = true → spills (.vpmerge d a))) ∧
    (HeadReady s e a.val e.banks → Operand (s.reg d) size 64 →
      HeadTakes (.vpread d a) s { op := .vpread d a, x := s.reg d, ent := e }) ∧
    (s.inExchange = false → apart d.val 1 → apart a.val 2 → d ≠ a → d.val ≠ a.val + 1 → Operand (s.reg b) 264 8 →
      TileReady s .f32 a → TileReady s .bf16 d → s.mxBusy [d.val, a.val, a.val + 1] = false → s.c.head.length < 4 →
      HeadTakes (.vpregen d a b) s { op := .vpregen d a b, x := s.reg b, ent := {} }) ∧
    (s.inExchange = false → s.c.head = [] →
      Leaves (.vpstat d) s (({ s with c := { s.c with headStatus := 0 } } : State).setReg d (s.c.headStatus.zeroExtend 32))) ∧
    (s.inExchange = false → s.c.head ≠ [] → Waits (.vpstat d) s) ∧
    (s.inExchange = false → ¬sound → Traps (.vpinit d a b) s .illegal 15 0) ∧
    (s.inExchange = false → (∀ f ∈ s.c.dir, f.bank ≠ d.val) → Traps (.vplabel d a) s .illegal 16 0 ∧
      Traps (.vpfold d a b) s .illegal 16 0 ∧ Traps (.vpmerge d a) s .illegal 16 0) ∧
    (s.inExchange = false → s.c.vpst.getLsbD 7 = false → Traps (.vpspill a) s .illegal 17 0)) ∧
  (∀ (s : State) (e : DirEntry) (a : Reg),
    let at_ := offOf (s.reg a)
    let p := littleEndian s.c.mem at_ 4
    let place := p % 2 ^ 28
    let bytes (i : Nat) : List Byte :=
      if tokenWord s e i 4 = 0 then []
      else leBytes 4 i ++ s.c.acc.readBytes (tokenPlace e i + 16) 4 ++ s.c.acc.readBytes (tokenPlace e i + 32) (8 * tokenWord s e i 4)
    let all := (List.range e.t).flatMap bytes
    s.inExchange = false → s.c.vpst.getLsbD 7 = true → s.stateAt (s.c.vpst.toNat % 32) = some e → s.c.head = [] →
    s.mxBusy e.banks = false → Operand (s.reg a) 4 4 → s.c.memErr = [] → s.c.accErr = [] →
    (∀ i, i < e.t → tokenWord s e i 4 ≤ e.cap) → Operand (BitVec.ofNat 32 p) (Nat.max all.length 1) 8 →
    (at_ + 4 ≤ place ∨ place + all.length ≤ at_) → ∃ t : State,
      Leaves (.vpspill a) s t ∧ littleEndian t.c.mem at_ 4 = (p + all.length) % 2 ^ 32 ∧
      t.c.mem.readBytes place all.length = all ∧ t.c.vpst.getLsbD 7 = false ∧
      (∀ i, i < e.t → tokenWord t e i 4 = 0 ∧ tokenWord t e i 0 = tokenWord s e i 0) ∧
      ∀ k, (k < at_ ∨ at_ + 4 ≤ k) → (k < place ∨ place + all.length ≤ k) → t.c.mem.read k = s.c.mem.read k)

/-- The oldest operation completes with the effect R270 to R286 give it: a state's header and fresh tokens; labels; rows folded, and
records merged, into M, S, the label logit, the status and the heap of each token, by the steps of the rules in FP32; a record
in local memory with lse and loss; a gradient tile; and its status in the head status word and in STICKY. No other byte of the banks
or of local memory changes. A heap is stated where it stays within the capacity (R271 turns others away at issue); how near lse comes
to the logarithm is in LnGives.
That an operation reads memory in the one step of its completion (log 17, DEDUCED), and what a bad token keeps (log 30,
DEDUCED), is the model’s choice. -/
def Obligations.HeadOperationResults : Prop :=
  ∀ (s : State) (q : HeadOp) (qs : List HeadOp), s.c.head = q :: qs → s.c.accErr = [] → s.c.memErr = [] →
    let e := q.ent
    let off := offOf q.x
    let size := blockSize e.cap
    let mem (i n : Nat) := littleEndian s.c.mem (off + i * size + 4 * n) 4
    let logit (a : Reg) (i j : Nat) := littleEndian s.c.acc (0x800 * a.val + 128 * i + 4 * j) 4
    let row (a : Reg) (i : Nat) : List Nat := (List.range 32).map (logit a i)
    let all (f : Nat → Nat) : Nat := (List.range e.t).foldl (fun w i => w ||| f i) 0
    ∃ t, Completes .headOpComplete s t ∧ t.c.head = qs ∧
      (∀ d a b, q.op = .vpinit d a b → t.c.mem = s.c.mem ∧ Notes s t 0 ∧
        (∀ k, k < 0x800 * e.bank ∨ tokenPlace e e.t ≤ k → t.c.acc.read k = s.c.acc.read k) ∧
        (∀ k, 16 ≤ k → k < 64 → t.c.acc.read (0x800 * e.bank + k) = 0) ∧
        (∀ n, n < 4 → littleEndian t.c.acc (0x800 * e.bank + 4 * n) 4 =
          [e.t % 2 ^ 32, e.mode % 2 ^ 32, e.cap % 2 ^ 32, e.delta.toNat].getD n 0) ∧
        ∀ i, i < e.t → TokenIs t e i
          { m := 0xFF800000, s := 0, lab := 0xFF800000, lid := 0xFFFFFFFF, tst := 0, heap := [] }) ∧
      (∀ d a, q.op = .vplabel d a → t.c.mem = s.c.mem ∧ Notes s t 0 ∧
        (∀ i, i < e.t → tokenWord t e i 2 = 0xFF800000 ∧ tokenWord t e i 3 = littleEndian s.c.mem (off + 4 * i) 4) ∧
        ∀ k, (∀ i, i < e.t → k < tokenPlace e i + 8 ∨ tokenPlace e i + 16 ≤ k) → t.c.acc.read k = s.c.acc.read k) ∧
      (∀ d a b, q.op = .vpfold d a b → q.x.toNat ≤ 0xFFFFFFE0 → t.c.mem = s.c.mem ∧ OnlyTokens s t e ∧
        Notes s t (all fun i => rowStatus (row a i)) ∧
        ∀ i, i < e.t →
          let k := rowFolded e (row a i) q.x.toNat (tokenOf s e i)
          k.heap.length ≤ e.cap → TokenIs t e i { k with tst := (tokenOf s e i).tst ||| rowStatus (row a i) }) ∧
      (∀ d a, q.op = .vpmerge d a → t.c.mem = s.c.mem ∧ OnlyTokens s t e ∧
        let merged (i : Nat) := tokenMerged e (tokenOf s e i) (mem i) (pairsAt s.c.mem (off + i * size + 32) (mem i 6))
        Notes s t (all fun i => (merged i).2) ∧
        ∀ i, i < e.t → (merged i).1.heap.length ≤ e.cap → TokenIs t e i { (merged i).1 with
          tst := (tokenOf s e i).tst ||| (merged i).2 ||| if e.cap < mem i 6 then 0 else mem i 7 % 64 }) ∧
      (∀ d a, q.op = .vpread d a → t.c.acc = s.c.acc ∧ Notes s t 0 ∧
        (∀ k, k < off ∨ off + e.t * size ≤ k → t.c.mem.read k = s.c.mem.read k) ∧
        ∀ i, i < e.t →
          let k := tokenOf s e i
          let word (n : Nat) := littleEndian t.c.mem (off + i * size + 4 * n) 4
          word 0 = k.m ∧ word 1 = k.s ∧ (∃ y, LnGives k.s y ∧ word 2 = Fp32.sum k.m y) ∧ word 3 = k.lab ∧
          word 4 = Fp32.diff (word 2) k.lab ∧ word 5 = k.lid ∧ word 6 = k.heap.length ∧ word 7 = k.tst ∧
          pairsAt t.c.mem (off + i * size + 32) k.heap.length = k.heap ∧
          ∀ j, 32 + 8 * k.heap.length ≤ j → j < size → t.c.mem.read (off + i * size + j) = 0) ∧
      (∀ d a b, q.op = .vpregen d a b → t.c.mem = s.c.mem ∧
        (∀ k, k < 0x800 * d.val ∨ 0x800 * d.val + 2048 ≤ k → t.c.acc.read k = s.c.acc.read k) ∧
        let par (n : Nat) := littleEndian s.c.mem (off + 4 * n) 4
        let n := par 1
        let tile (i j : Nat) := littleEndian t.c.acc (0x800 * d.val + 64 * i + 2 * j) 2
        (n < 1 ∨ 32 < n → Notes s t 16 ∧ ∀ i j, i < 32 → j < 32 → tile i j = 0) ∧
        (1 ≤ n → n ≤ 32 →
          Notes s t ((List.range n).foldl (fun w i =>
            w ||| rowStatus (row a i) ||| if Fp32.nan (par (2 + 2 * i)) then 1 else 0) 0) ∧
          ∀ i j, i < 32 → j < 32 → tile i j =
            if n ≤ i then 0
            else gradient (logit a i j) (par (2 + 2 * i)) (decide ((par 0 + j) % 2 ^ 32 = par (3 + 2 * i)))))

/-! The optical layer (18). -/

/-- lgrant grants a well-formed request whose lanes are free, whose path is feasible and which the budgets hold, with the lowest
free id; it answers 4, 3, 2 or 1 for the first of these that fails. lrelease frees a grant; lstat, lmargin and lmode read and
change one. The three that change lanes wait while a running local exchange uses the lane; a fibre lane is no such lane: its release
sends a marker first, and a change of mode steps it. -/
def Obligations.GrantInstructions : Prop :=
  ∀ (s : State) (d a b : Reg), s.inExchange = false → s.input.flag = false →
    let q := grantReq (s.c.mem.readBytes (offOf (s.reg a)) 16)
    let dests := (s.c.mem.readBytes (offOf q.dlist) q.f).map (·.toNat)
    let rx := s.rxMin q.gu q.src q.lane dests
    let margin := if q.margin = 0 then s.p.lmargin.toNat else q.margin
    let wave := 4 * (q.src % 4) + q.lane
    let busy := ∃ g ∈ s.chip.grants, g.lane = q.lane ∧ (g.src = q.src ∨ (g.src < 144 ∧ ∃ x ∈ g.dests, x ∈ dests))
    let room := heldGu s (fun g => g.part = some s.p.num) + q.gu ≤ s.p.lbudget.toNat ∧
      heldGu s (fun _ => True) + q.gu ≤ 9600 ∧ heldGu s (fun g => waveOf g.src g.lane = wave) + q.gu ≤ 600
    let free (i : Nat) : Prop := ∀ g ∈ s.chip.grants, g.id = i → g.part ≠ none ∧ g.part ≠ some s.p.num
    (RawBlock s (s.reg a) 16 16 → q.listed = true → RawBlock s q.dlist q.f 1 → s.laneRunning q.src q.lane dests = true →
      Waits (.lgrant d a) s) ∧
    (RawBlock s (s.reg a) 16 16 → q.listed = true → RawBlock s q.dlist q.f 1 → s.laneRunning q.src q.lane dests = false →
      (RequestOk s q dests → ¬busy → s.chip.failed.contains wave = false → room → (∃ i, i < 1024 ∧ free i) →
        ∃ i, i < 1024 ∧ free i ∧ (∀ j, j < i → ¬free j) ∧
        Leaves (.lgrant d a) s (if sensitivity q.mode + margin ≤ rx then
          ({ s with chip := { s.chip with grants := s.chip.grants ++
            [{ id := i, part := some s.p.num, owner := s.c.lid, src := q.src, lane := q.lane, dests := dests, gu := q.gu
               mode := q.mode, margin := margin, rxp := rx }] } } : State).setReg d
            (BitVec.ofNat 32 (i * 65536 + q.mode * 256))
          else s.setReg d 2)) ∧
      (q.reserved = true ∨ q.gu = 0 ∨ 400 < q.gu ∨ q.src ∉ s.p.cfg.tiles → q.src < 144 → Writes (.lgrant d a) s d 4) ∧
      (RequestOk s q dests → (∃ i, i < 1024 ∧ free i) → busy ∨ s.chip.failed.contains wave = true →
        Writes (.lgrant d a) s d 3) ∧
      (RequestOk s q dests → (∃ i, i < 1024 ∧ free i) → ¬busy → s.chip.failed.contains wave = false → ¬room →
        Writes (.lgrant d a) s d (if sensitivity q.mode + margin ≤ rx then 1 else 2))) ∧
    (let id := (s.reg a).toNat % 65536
     let word (mode r : Nat) : Word := BitVec.ofNat 32 (id * 65536 + mode * 256 + r)
     (free id → Leaves (.lrelease a) s s ∧ Writes (.lmargin d a) s d 0x8000 ∧ Writes (.lmode d a b) s d (word 0 5)) ∧
     (∀ g, s.grantOf s.p.num id = some g → g.part = some s.p.num →
       (s.laneRunning g.src g.lane g.dests = true → s.svc = true ∨ g.owner = s.c.lid →
         Waits (.lrelease a) s ∧ Waits (.lmode d a b) s) ∧
       (s.laneRunning g.src g.lane g.dests = false → s.svc = true ∨ g.owner = s.c.lid →
         Leaves (.lrelease a) s { s with chip := { s.chip with
           grants := s.chip.grants.filter fun x => !(x.id == g.id && x.part == g.part) } }) ∧
       (s.svc = false → g.owner ≠ s.c.lid → Leaves (.lrelease a) s s ∧ Writes (.lmode d a b) s d (word g.mode 5)) ∧
       (∀ m, g.mmargin = some m → 
         Leaves (.lmargin d a) s ((withGrant s g { g with crc := 0 }).setReg d
           (BitVec.ofNat 32 (g.crc % 256 * 2 ^ 24 + g.worst % 256 * 2 ^ 16 + (m % 2 ^ 16).toNat)))) ∧
       (s.laneRunning g.src g.lane g.dests = false → s.svc = true → g.fail = false → (s.reg b).toNat = g.mode → g.mode ≤ 2 → g.next = none →
         let rx := s.rxMin g.gu g.src g.lane g.dests
         Leaves (.lmode d a b) s (if sensitivity g.mode + g.margin ≤ rx then
           (withGrant s g { g with rxp := rx, state := .settling }).setReg d (word g.mode 0)
           else s.setReg d (word g.mode 2)))) ∧
     (∀ g, s.grantOf s.p.num id = some g → g.part = none → s.svc = true →
       Leaves (.lrelease a) s { s with
         out := s.out ++ [.linkMarker g.id]
         chip := { s.chip with grants := s.chip.grants.filter fun x => !(x.id == g.id && x.part == g.part) } } ∧
       (g.fail = false → (s.reg b).toNat = g.mode → g.mode ≤ 2 → g.next = none → g.state = .lit →
         let rx := s.rxMin g.gu g.src g.lane g.dests
         Leaves (.lmode d a b) s (if sensitivity g.mode + g.margin ≤ rx then
           (withGrant s g { g with state := .stepping, next := some (g.mode, g.gu) }).setReg d (word g.mode 0)
           else s.setReg d (word g.mode 2))))) ∧
    ((s.reg a).toNat = 0xFFFF → Writes (.lstat d a) s d
      (BitVec.ofNat 32 (s.p.lbudget.toNat - heldGu s fun g => g.part = some s.p.num))) ∧
    ((s.reg a).toNat = 0xFFFE → Writes (.lstat d a) s d (BitVec.ofNat 32 (9600 - heldGu s fun _ => True))) ∧
    ((s.reg a).toNat < 0xFFFE → free (s.reg a).toNat → Writes (.lstat d a) s d 0) ∧
    (∀ g, (s.reg a).toNat < 0xFFFE → s.grantOf s.p.num (s.reg a).toNat = some g → Writes (.lstat d a) s d
      (BitVec.ofNat 32 ((g.rxp % 2 ^ 16).toNat * 2 ^ 16 + g.mode % 16 * 256 + (if g.fail then 8 else 0) + g.state.code)))

/-- Settling ends LIT or DEGRADED, and the CRC failures of its 2 µs count once, with the window that they lie in; the windows end one by one wherever c.xcyc, which wraps, is a multiple of 10,000, and a full window
degrades a LIT path that fails it; CRC failures count within a window too, and on a DARK path; a failed wavelength darkens its
grants, from the present offset on; a step of a fibre lane ends at its boundary or is given up.
That SETTLING to DEGRADED leaves no PATH record, and a completed step no LINK_STEP record, is the model’s choice (log
31, DEDUCED). -/
def Obligations.PathStatesFollowMeasurement : Prop :=
  ∀ (s : State) (g : Grant) (ms : List RxMeas),
    let i := s.input
    let least := ((ms.map (·.margin)).min?).getD 0
    let pass := ∀ m ∈ ms, (g.margin : Int) / 2 ≤ m.margin ∧ m.crc < 2
    let failures := (ms.map (·.crc)).sum
    let crc := Nat.min 255 (g.crc + (failures - g.seen))
    let n := s.chip.window + 1
    let ended := s.xc / 2 ^ 32 * 429497 + s.xc % 2 ^ 32 / 10000
    let begun := ended / 429497 * 2 ^ 32 + ended % 429497 * 10000
    let stop := n / 429497 * 2 ^ 32 + n % 429497 * 10000
    let length := if stop % 2 ^ 32 = 0 then 2 ^ 32 % 10000 else 10000
    let measured := i.meas.find? (·.1 = g.key) = some (g.key, ms) ∧ ms.length = g.dests.length ∧ ms ≠ []
    (s.chip.grants.find? (·.key = i.n) = some g → measured → g.state = .settling →
      let h : Grant := if begun + 2000 ≤ s.xc then { g with crc := crc, seen := Nat.max failures g.seen } else g
      (pass → Completes .settlingEnd s (withGrant s g { h with state := .lit, litXc := s.xc })) ∧
      (¬pass → Completes .settlingEnd s (withGrant s g { h with state := .degraded }))) ∧
    (i.flag = false → ended < n → Completes .measurementWindow s s) ∧
    (s.chip.grants = [g] → measured → i.flag = false → n ≤ ended →
      (g.part ≠ none → g.state = .lit → g.litXc + length ≤ stop →
        ∃ u, Completes .measurementWindow s u ∧ u.chip.window = n ∧ u.chip.grants = [{ g with
          crc := crc, seen := 0, worst := ms.findIdx (·.margin = least), mmargin := some least
          state := if (ms.all fun m => decide ((g.margin : Int) / 2 ≤ m.margin) && decide (m.crc < 2)) then .lit else .degraded }]) ∧
      (g.state = .dark → Completes .measurementWindow s { s with chip := { s.chip with
        window := n, grants := [{ g with crc := crc, seen := 0 }] } })) ∧
    (s.chip.grants = [g] → measured → i.flag = true → Completes .measurementWindow s { s with chip := { s.chip with
      grants := [{ g with crc := crc, seen := Nat.max failures g.seen }] } }) ∧
    (i.n < 16 → s.chip.failed.contains i.n = false → (∀ x ∈ s.chip.grants, x.fail = false) →
      (s.chip.grants.map fun x => (x.id, x.part)).Nodup → ∃ u, (Completes .wavelengthFail s u ∧
      u.chip.failed = s.chip.failed ++ [i.n] ∧
      (if s.t.num = 0 then u.t.inbox = s.t.inbox ++ [.laserFail i.n] else u.out = s.out ++ [.laserFail i.n]) ∧
      u.chip.grants = s.chip.grants.map fun x => if waveOf x.src x.lane = i.n
        then { x with state := .dark, fail := true, next := none } else x) ∧
      (∀ e, s.c.exch = some e → u.c.exch = some { e with
        fails := ((s.chip.grants.filter fun x => decide (waveOf x.src x.lane = i.n ∧ x.part = some s.p.num)).map
          fun x => (x.id, s.xc - e.xr)) ++ e.fails })) ∧
    Completes .wavelengthRestore s { s with chip := { s.chip with failed := s.chip.failed.filter (· ≠ i.n) } } ∧
    (s.chip.grants.find? (fun x => x.fibre && x.id == i.n) = some g → g.state = .stepping → ∀ mode gu, g.next = some (mode, gu) →
      Completes .linkStep s (withGrant s g { g with
        state := .lit, litXc := s.xc, mode := mode, gu := gu, rxp := s.rxMin gu g.src g.lane g.dests, next := none }) ∧
      (∃ u, Completes .linkStepTimeout s u ∧ u.c = s.c ∧
        u.chip.grants = (withGrant s g { g with state := .lit, litXc := s.xc, next := none }).chip.grants))

/-! The fabric engine and the links (20). -/

/-- wput, wget and wrtr turn the request at s[a] into an operation that leaves by the port of its route, with 0 in s[d], in
packets of at most 256 bytes that carry this chip's number and topology version; where 64 puts, gets and allowances of the core
are outstanding the engine answers 13, and a peer without a route ends the put at once with PEER_UNREACHABLE.
That one frame carries one packet is the model’s choice (log 35, DESIGN CHOICE). -/
def Obligations.FabricRequestsLeaveByTheirRoute : Prop :=
  ∀ (s : State) (d a : Reg) (p : Fin 32) (peer win off laddr len tag : Nat), FabricCalm s →
    let op (kind : FabKind) : FabOp := { id := s.chip.nextOp, kind := kind, lid := s.c.lid, peer := peer, win := win
                                         off := off, len := len, laddr := laddr, tag := BitVec.ofNat 16 tag }
    let id := s.chip.nextOp
    let granted := ∃ r ∈ s.chip.allows, r.granter = peer ∧ r.win = win
    let bytes := s.c.mem.readBytes laddr len
    let packet (cls : PacketClass) : Packet :=
      { cls := cls, dest := peer, origin := s.chip.num.toNat, tv := some (s.chip.tv.extractLsb' 0 16), op := id, win := win
        off := off, len := len }
    let right : Allowance :=
      { granter := s.chip.num.toNat, grantee := peer, win := win, off := off, len := len, tag := BitVec.ofNat 16 tag }
    (s.route peer = .port p → (s.port p).drained = false →
      (RequestAt s a .put peer win off laddr len tag → s.c.memErr = [] → ¬granted →
        Leaves (.wput d a) s ((sentBy s p { op .put with data := bytes }
          ((parts bytes).map fun x => { packet .put with pos := x.1, data := x.2 })).setReg d 0)) ∧
      (RequestAt s a .get peer win off laddr len tag →
        Leaves (.wget d a) s ((sentBy s p (op .get) [packet .get]).setReg d 0)) ∧
      (RequestAt s a .allow peer win off laddr len tag → (∃ w, s.window win = some w ∧ w.kind = 2 ∧ w.dereg = false) →
        Leaves (.wrtr d a) s ((sentBy s p (op .allow) [{ packet .allowance with allow := some right }]).setReg d 0))) ∧
    (RequestAt s a .put peer win off laddr len tag → s.route peer = .nowhere → s.c.memErr = [] → ¬granted →
      Leaves (.wput d a) s (({ s with chip := { s.chip with nextOp := id + 1 } } : State).post
        (State.message 3 7 tag 0) |>.setReg d 0)) ∧
    (64 ≤ (s.chip.ops.filter fun x => x.core == none && (x.kind == .put || x.kind == .get || x.kind == .allow)).length →
      (RequestAt { s with chip := { s.chip with ops := [] } } a .put peer win off laddr len tag →
        Writes (.wput d a) s d 13 ∧ Writes (.wget d a) s d 13) ∧
      (RequestAt { s with chip := { s.chip with ops := [] } } a .allow peer win off laddr len tag →
        Writes (.wrtr d a) s d 13))

/-- wreg registers a plain window of local memory or LPDDR 6; wdereg drops one that no peer knows; wcnt and wwait read the
counters, that of a window which is not registered as 0; wwait waits until its condition holds or a registered window is so no
more; operands out of range trap with ILLEGAL, DETAIL 19.
tvget reads the versions, tvstage stages a table in the inactive bank, or waits behind a tvcommit that waits; tvcommit swaps
the banks where every port stands dark; a time-out ends the waiting instruction with its status, unless what it waited for has
come.
That a LOC base with view bits gives 3, that a window names the half it was registered in, and that wwait waits on a
window that is not registered is the model’s choice (log 35, DEDUCED). -/
def Obligations.WindowAndVersionInstructions : Prop :=
  (∀ (s : State) (d a b : Reg), FabricCalm s →
    let at_ := offOf (s.reg a)
    let w (i : Nat) := littleEndian s.c.mem (at_ + 4 * i) 4
    let n := (s.reg a).toNat
    let loc := w 0 / 2 ^ 14 % 2 = 1
    let base := if w 0 / 2 ^ 14 % 2 = 1 then w 1 else w 1 + 2 ^ 32 * (w 2 % 2 ^ 16)
    let limit := if w 0 / 2 ^ 14 % 2 = 1 then 0xA0000 else s.chip.capacity * 2 ^ 30
    let plain := w 0 / 2 ^ 12 % 4 = 0 ∧ w 0 < 2 ^ 15 ∧ w 2 < 2 ^ 26 ∧ (loc → w 2 = 0) ∧ base % 64 = 0 ∧ w 3 % 64 = 0 ∧
      w 3 ≠ 0 ∧ w 4 = 0 ∧ w 5 = 0 ∧ w 6 = 0 ∧ w 7 = 0
    let reached (x : Window) (sel : Nat) : Word := if sel = 0 then x.org else if sel = 1 then x.tgt else x.tail
    let ctr := n / 2 ^ 16 % 2
    let waiting (w : Pend) : State := { s with c := { s.c with stall := true, pend := w } }
    (s.svc = true → RawBlock s (s.reg a) 32 32 → plain → s.window (w 0 % 4096) = none →
      (base + w 3 ≤ limit → ∃ l, (l = true ↔ loc) ∧ Leaves (.wreg d a) s
        (({ s with chip := { s.chip with windows := s.chip.windows ++
          [{ win := w 0 % 4096, kind := 0, loc := l, base := base, key := w 2 / 2 ^ 16, len := w 3, headw := 0
             half := s.half }] } } : State).setReg d 0)) ∧
      (limit < base + w 3 → Writes (.wreg d a) s d 3)) ∧
    (s.svc = true → RawBlock s (s.reg a) 32 32 → (s.window (w 0 % 4096)).isSome = true → Writes (.wreg d a) s d 1) ∧
    (s.svc = true → s.c.pend = .none → n < 4096 → s.window n = none → Writes (.wdereg d a) s d 1) ∧
    (∀ x, s.svc = true → s.c.pend = .none → n < 4096 → s.window n = some x → x.dereg = false → s.chip.active = none →
      s.chip.ops = [] → s.chip.allows = [] → Leaves (.wdereg d a) s
        (({ s with chip := { s.chip with windows := s.chip.windows.filter (·.win ≠ n) } } : State).setReg d 0)) ∧
    (4096 ≤ n → s.c.pend = .none → Traps (.wdereg d a) s .illegal 19 0 ∧ Traps (.wcnt d a b) s .illegal 19 0) ∧
    (n < 4096 → (s.reg b).toNat < 3 → ∀ x, s.window n = some x →
      Writes (.wcnt d a b) s d (reached x (s.reg b).toNat)) ∧
    (n < 4096 → (s.reg b).toNat = 3 → ∀ x, s.window n = some x →
      Writes (.wcnt d a b) s d (BitVec.ofNat 32 (1 + 2 * x.kind + if x.dereg then 8 else 0))) ∧
    (n < 4096 → (s.reg b).toNat ≤ 3 → s.window n = none → Writes (.wcnt d a b) s d 0) ∧
    (n < 2 ^ 17 → n / 2 ^ 12 % 16 = 0 → ∀ x, s.window (n % 4096) = some x →
      (0 ≤ (reached x ctr - s.reg b).toInt → Writes (.wwait d a b) s d (reached x ctr)) ∧
      ((reached x ctr - s.reg b).toInt < 0 →
        (s.c.pend = .none → Completes (.wwait d a b) s (waiting (.wwait s.xc true))) ∧
        (∀ y was, s.c.pend = .wwait y was → Completes (.wwait d a b) s (waiting (.wwait y true))))) ∧
    (n < 2 ^ 17 → n / 2 ^ 12 % 16 = 0 → s.window (n % 4096) = none →
      (0 ≤ (0 - s.reg b).toInt → Writes (.wwait d a b) s d 0) ∧
      ((0 - s.reg b).toInt < 0 →
        (s.c.pend = .none → Completes (.wwait d a b) s (waiting (.wwait s.xc false))) ∧
        (∀ y, s.c.pend = .wwait y true → Writes (.wwait d a b) s d 0) ∧
        (∀ y, s.c.pend = .wwait y false → Completes (.wwait d a b) s (waiting (.wwait y false))))) ∧
    (s.svc = false → RawBlock s (s.reg a) 32 32 → Traps (.wreg d a) s .priv 0 0)) ∧
  (∀ (s : State) (d a b : Reg) (f : Fetched) (x : Nat), s.inExchange = false →
    let at_ := offOf (s.reg a)
    let ver := littleEndian s.c.mem at_ 4
    let n := littleEndian s.c.mem (at_ + 4) 4
    let routes := (s.c.mem.readBytes (at_ + 8) n).map (·.toNat)
    let sound := ver < 2 ^ 16 ∧ (∀ r ∈ routes, r < 32 ∨ 0xFE ≤ r) ∧
      ∀ j, j < n → (routes[j]? = some 0xFE ↔ j = s.chip.num.toNat)
    (s.reg a = 0 → ∃ w : Word, Writes (.tvget d a) s d w ∧ w.toNat % 2 ^ 16 = s.chip.tv.toNat % 2 ^ 16 ∧
      w.toNat / 2 ^ 16 = if s.stagedTable.isSome then 1 else 0) ∧
    (s.reg a = 1 → ∀ r, s.stagedTable = some r → Writes (.tvget d a) s d (r.ver.zeroExtend 32)) ∧
    (1 < (s.reg a).toNat → Traps (.tvget d a) s .illegal 19 0) ∧
    let dropped (w : Nat) (t : State) : State :=
      { t with chip := { t.chip with windows := t.chip.windows.filter (·.win ≠ w) } }
    (s.svc = true → RawBlock s (s.reg a) 8 4 → s.chip.commitBy.isSome = true → s.chip.later = [] → 1 ≤ n → n ≤ 4096 →
      RawBlock s (s.reg a) (8 + n) 4 → Completes (.tvstage d a) s
        { s with c := { s.c with stall := true }, chip := { s.chip with later := [.mine s.xc s.coreId] } }) ∧
    (s.svc = true → RawBlock s (s.reg a) 8 4 → s.chip.commitBy = none → s.chip.later = [] →
      (n = 0 ∨ 4096 < n → RawBlock s (s.reg a) (8 + n) 4 → Writes (.tvstage d a) s d 1) ∧
      (0xA0000 < offOf (s.reg a) + (8 + n) → Traps (.tvstage d a) s .localRange 0 (s.reg a)) ∧
      (1 ≤ n → n ≤ 4096 → RawBlock s (s.reg a) (8 + n) 4 →
        (¬sound ∨ n ≤ s.chip.num.toNat → Writes (.tvstage d a) s d 1) ∧
        (sound → s.chip.num.toNat < n → ver = s.chip.tv.toNat % 2 ^ 16 → Writes (.tvstage d a) s d 2) ∧
        (sound → s.chip.num.toNat < n → ver ≠ s.chip.tv.toNat % 2 ^ 16 → Leaves (.tvstage d a) s
          (({ s with chip := { s.chip with
            inactive := some { ver := BitVec.ofNat 16 ver, n := n, routes := routes }
            staged := true } } : State).setReg d 0)))) ∧
    (FabricCalm s → s.svc = true → s.c.pend = .none → (s.reg a).toNat < 2 ^ 16 →
      ((∀ r, s.stagedTable = some r → r.ver.toNat ≠ (s.reg a).toNat) → Writes (.tvcommit d a) s d 1) ∧
      (∀ r, s.stagedTable = some r → r.ver.toNat = (s.reg a).toNat → (∀ y ∈ r.routes, 32 ≤ y) →
        (∀ p, (s.port p).lock = .dark) → s.chip.ops = [] → s.chip.allows = [] → s.chip.windows = [] →
        Leaves (.tvcommit d a) s (({ s with chip := { s.chip with
          active := some r, inactive := s.chip.active, staged := false, tv := r.ver.zeroExtend 32
          crossings := [] } } : State).setReg d 0))) ∧
    (∀ v, s.c.pend = .commit v x → s.c.issue = some (.tvcommit d a, f) → s.chip.later = [] →
      (∀ r, s.stagedTable = some r → ∃ p : Fin 32, p.val ∈ r.routes ∧ (s.port p).commitIn ≠ some v) →
      TimedOut .commitTimeout s f x 1000000 d 3) ∧
    (∀ v, s.c.pend = .none → s.chip.commitBy = some (v, x) → s.chip.later = [] →
      Completes .commitTimeout s
        (let t := s.advanceTo (x + 1000000)
         { t with chip := { t.chip with commitBy := none } })) ∧
    (∀ i, s.c.pend = .drain x → s.c.issue = some (i, f) → i = .drain d a b ∨ i = .drainFec d a b →
      ((∃ p : Fin 32, (s.reg a).getLsbD p.val = true ∧ (s.port p).drained = false ∧ (s.port p).markerIn = false) →
        TimedOut .drainTimeout s f x 1000000 d 2) ∧
      (FabricCalm s → (∀ p : Fin 32, (s.reg a).getLsbD p.val = true → (s.port p).drained = true) →
        Completes .drainTimeout s (({ s with ir := f } : State).setReg d 0).adv)) ∧
    (∀ w y, s.c.pend = .dereg w x → s.c.issue = some (.wdereg d a, f) → s.c.stragg ≠ 0 → s.window w = some y →
      (y.waits ≠ [] → TimedOut .wderegTimeout s f x s.c.stragg.toNat d 2) ∧
      (y.waits = [] → Completes .wderegTimeout s ((dropped w { s with ir := f }).setReg d 0).adv)) ∧
    (∀ w reg, s.c.pend = .wwait x reg → s.c.issue = some (.wwait d a b, f) → s.c.stragg ≠ 0 →
      s.window ((s.reg a).toNat % 4096) = some w → (s.reg a).getLsbD 16 = false →
      TimedOut .wwaitTimeout s f x s.c.stragg.toNat d w.org))

/-- drain begins and ends its four operations on the ports of a mask; an empty mask answers 0, a dark port 1, an operation that
is not defined traps with ILLEGAL, DETAIL 19. lnkstat reads a port.
R318 to R321: the lock state of a port follows light, lock (in burst mode alone), time-outs and losses; at a lock with the
same peer the frames in the buffer are sent again, with another peer, which a burst on a LOCKED port may name too, the port stands
DRAINED and what the old peer owed ends with PEER_UNREACHABLE; idle bursts and idle frames count;
the microcontroller's bring-up chooses the highest common version, or the port fails.
R321 to R323: frames are acknowledged in sequence and leave the buffer, and are sent again after a bad one; every frame that
is sent counts; an FEC change is requested, acknowledged (the switch follows at an even frame), repeated until then or, after its
window, reverted with a record in the log; 60 µs without a switch end it at its sender, also where another core began it.
How frames, markers and frames without a packet are laid out and counted is the model’s choice (log 35, DESIGN CHOICE). -/
def Obligations.LinksLockDrainAndChangeCode : Prop :=
  (∀ (s : State) (d a b : Reg) (p : Fin 32) (x : Nat), FabricCalm s → s.svc = true →
    let op := (s.reg b).toNat % 16
    let mode := (s.reg b).toNat / 16
    let q := s.port p
    let only := (s.reg a).toNat = 2 ^ p.val
    let waiting (t : State) (w : Pend) : State := { t with c := { t.c with stall := true, pend := w } }
    (op ≤ 3 → mode < 4 → (op = 1 → mode ≤ 2) → s.reg a = 0 → Writes (.drain d a b) s d 0 ∧ Writes (.drainFec d a b) s d 0 ∧
      Writes (.drainRetrain d a b) s d 0 ∧ Writes (.undrain d a b) s d 0) ∧
    (3 < op → Traps (.drain d a b) s .illegal 19 0) ∧
    (op = 0 → mode < 4 → only →
      (q.lock = .dark ∨ q.lock = .failed → s.c.pend = .none → Writes (.drain d a b) s d 1) ∧
      (s.c.pend = .drain x → q.drained = true → Writes (.drain d a b) s d 0) ∧
      (s.c.pend = .none → q.lock ≠ .dark → q.lock ≠ .failed → q.drained = false → q.markerIn = false →
        Completes (.drain d a b) s (waiting
          (let t := framed s p [.drainMarker]
           withPort t p { t.port p with draining := true }) (.drain s.xc)))) ∧
    (op = 1 → mode ≤ 2 → only →
      (∀ ps, s.c.pend = .fec ps x → q.fecReq = none → Writes (.drainFec d a b) s d 0) ∧
      (s.c.pend = .none → q.lock = .locked → ∃ f, f % 2 = 0 ∧ q.count + 256 ≤ f ∧ f ≤ q.count + 257 ∧
        Completes (.drainFec d a b) s (waiting
          (let t := withPort s p { q with
            count := q.count + 1, fecSeq := q.fecSeq + 1
            fecReq := some { n := q.fecSeq + 1, mode := mode, f := f, closed := false } }
           { t with out := t.out ++ [.fecReq p.val (q.fecSeq + 1) mode f] }) (.fec [p.val] s.xc)))) ∧
    (op = 2 → mode < 4 → only →
      (∀ ps, s.c.pend = .retrain ps x → q.lock = .locked → Writes (.drainRetrain d a b) s d 0) ∧
      (∀ ps, s.c.pend = .retrain ps x → q.lock = .dark ∨ q.lock = .failed → Writes (.drainRetrain d a b) s d 1) ∧
      (s.c.pend = .none → q.lock ≠ .dark → Completes (.drainRetrain d a b) s (waiting
        (withPort s p { q with lock := .locking, retrain := true }) (.retrain [p.val] s.xc))) ∧
      (s.c.pend = .none → q.lock = .dark → Writes (.drainRetrain d a b) s d 1)) ∧
    (op = 3 → mode < 4 → only → (∀ o ∈ s.chip.ops, o.state ≠ .held) → (s.chip.windows.map (·.win)).Nodup →
      (∀ w ∈ s.chip.windows, w.tell = []) → Leaves (.undrain d a b) s
      ((withPort s p { q with
        draining := false, drained := false, markerIn := false, clearXc := if q.drained then s.xc else q.clearXc }).setReg d 0)) ∧
    ((s.reg a).toNat = p.val → ∃ w : Word, Writes (.lnkstat d a) s d w ∧ w.toNat % 4 = q.lock.code ∧
      w.getLsbD 2 = q.drained ∧ w.getLsbD 3 = q.retrain ∧ w.toNat / 16 % 4 = q.fec % 4 ∧ w.getLsbD 6 = q.fecReq.isSome ∧
      w.getLsbD 7 = s.chip.burst ∧ (q.lock = .locked → w.toNat / 2 ^ 16 = q.peerChip % 2 ^ 16 ∧
        w.toNat / 2 ^ 8 % 2 ^ 8 = q.peerPort % 2 ^ 8)) ∧
    ((s.reg a).toNat = p.val + 256 → ∃ w : Word, Writes (.lnkstat d a) s d w ∧ w.toNat / 2 ^ 16 = Nat.min 0xFFFF q.reverts)) ∧
  (∀ (s : State),
    let i := s.input
    let p := i.port
    let q := s.port p
    let locked (v : Nat) : State :=
      let t := withPort s p
        { sending q q.frames.length with
          lock := .locked, peerChip := i.chip, peerPort := i.peerPort, hadPeer := true, retrain := false, pver := v }
      { t with out := t.out ++ q.frames.map fun f => .frame p.val f.seq f.line }
    let known := q.hadPeer = false ∨ (q.peerChip = i.chip ∧ q.peerPort = i.peerPort)
    let low := Nat.max (i.nums.getD 0 0) (i.nums.getD 2 0)
    let high := Nat.min (i.nums.getD 1 0) (i.nums.getD 3 0)
    (q.lock = .dark → Completes .lightDetect s (withPort s p { q with lock := .locking })) ∧
    (s.chip.burst = true → q.lock = .locking → known → Completes .lockAcquired s (locked q.pver)) ∧
    let other := q.hadPeer = true ∧ (q.peerChip ≠ i.chip ∨ q.peerPort ≠ i.peerPort)
    (s.chip.burst = true → q.lock = .locked → q.peerChip = i.chip → q.peerPort = i.peerPort → Completes .lockAcquired s s) ∧
    (s.chip.burst = true → q.lock = .locking ∨ q.lock = .locked → other → FabricCalm s → q.frames = [] → s.c.pend = .none →
      (∀ o ∈ s.chip.ops, ¬(o.state = .sent ∧ o.kind ≠ .allow ∧ s.route o.peer = .port p)) →
      (∀ x ∈ s.chip.crossings, x.owes = true → x.left ≠ p) →
      Completes .lockAcquired s
        (let t := withPort s p
          { q with
            lock := .locked, peerChip := i.chip, peerPort := i.peerPort, hadPeer := true, retrain := false, queue := []
            draining := false, drained := true, markerIn := false, commitIn := none, txSeq := 0, rxSeq := 0 }
         { t with chip := { t.chip with
            arriving := t.chip.arriving.filter fun x => decide (x.port ≠ p)
            crossings := t.chip.crossings.filter fun x => decide (x.came ≠ p ∧ x.left ≠ p) } })) ∧
    (∀ o, s.chip.burst = true → q.lock = .locking ∨ q.lock = .locked → other → FabricCalm s → q.frames = [] → s.c.pend = .none →
      s.chip.ops = [o] → o.state = .sent → o.kind = .put ∨ o.kind = .get → o.core = none → o.lid = s.c.lid → s.route o.peer = .port p →
      s.chip.crossings = [] → ∃ t, Completes .lockAcquired s t ∧ t.chip.ops = [] ∧
        t.c = (s.post (State.message 3 7 o.tag.toNat 0)).c ∧ (t.port p).lock = .locked ∧ (t.port p).drained = true) ∧
    (s.chip.burst = false → Completes .lockAcquired s s) ∧
    (q.lock = .locking → Completes .lockTimeout s (withPort s p { q with lock := .dark, retrain := false })) ∧
    (s.chip.burst = true → q.lock = .locked → Completes .burstLoss s (withPort s p { q with lock := .dark })) ∧
    (s.chip.burst = false → q.lock = .locked →
      Completes .lossOfLock s (withPort s p { q with lock := .locking, retrain := true })) ∧
    (s.chip.burst = true → Completes .idleBurst s (controlled s p (.idleBurst p.val))) ∧
    (s.chip.burst = false → Completes .idleBurst s (withPort s p (sending q (1 + i.n)))) ∧
    (s.chip.boot.micro = false → Completes .linkBringup s s) ∧
    (s.chip.boot.micro = true → s.chip.burst = false → q.lock = .locking →
      (i.flag = true → low ≤ high → known → Completes .linkBringup s
        (let t := locked high
         { t with chip := { t.chip with
             losses := i.losses.filter (fun e => decide (e.1 = 144 + p.val)) ++ t.chip.losses } })) ∧
      (i.flag = false ∨ high < low → Completes .linkBringup s
        (let t := withPort s p { q with lock := .failed, retrain := false }
         { t with chip := { t.chip with colls := t.chip.colls.map fun k => { k with void := true } } })))) ∧
  (∀ (s : State), FabricCalm s →
    let i := s.input
    let p := i.port
    let q := s.port p
    let n : Byte := BitVec.ofNat 8 i.seq
    let tell (t : State) (o : Out) : State := controlled t p o
    let last (x : Port) : State :=
      if x.rxSeq = 0 then withPort s p x else tell (withPort s p x) (.frameAck p.val (x.rxSeq - 1))
    let l := s.chip.log
    let noted (w : FecReq) (log : EventLog) : Prop := (l.held.filter (·.src = 0x1400 + p.val)).length < 64 →
      log = { l with held := l.held ++
        [{ src := 0x1400 + p.val, kind := 5, xcyc := s.xcyc, d0 := w.n.zeroExtend 32, d1 := BitVec.ofNat 32 q.rxFec }] }
    let took (x : Port) : State := last (if i.seq = q.rxSeq then { x with rxSeq := q.rxSeq + 1 } else x)
    let inTime := ∀ w, q.fecWin = some w → i.n ≤ w.f + 1023
    let rest := q.frames.filter fun f => i.seq < f.seq
    let late (r : FecReq) : Prop := ∃ y, r.other = some y ∧ y + 60000 ≤ s.xc
    let asked : FecReq := { n := n, mode := i.status, f := i.off, closed := false }
    (q.lock = .locked → inTime → i.flag = true → i.flag2 = false → Completes .frameReceive s (took q)) ∧
    (q.lock = .locked → inTime → i.flag = false → i.flag2 = false → Completes .frameReceive s (last q)) ∧
    (∀ w, q.lock = .locked → i.flag = false → i.flag2 = true → q.fecWin = some w → w.closed = false →
      w.f ≤ i.n → i.n ≤ w.f + 1023 →
      Completes .frameReceive s (took { q with rxFec := w.mode, fecWin := some { w with closed := true } })) ∧
    (q.lock ≠ .locked → Completes .frameReceive s s) ∧
    (i.flag = false → Completes .frameAck s (withPort s p { q with frames := rest })) ∧
    (i.flag = true → Completes .frameAck s
      (let t := withPort s p { sending q rest.length with frames := rest }
       { t with out := t.out ++ rest.map fun f => .frame p.val f.seq f.line })) ∧
    ((∀ w, q.fecWin = some w → w.n ≠ n ∧ w.closed = true) → Completes .fecRequest s (tell
      (withPort s p { q with fecWin := some asked }) (.fecAck p.val n i.off))) ∧
    (∀ w, q.fecWin = some w → w.n ≠ n → w.closed = false → ∃ log, noted w log ∧ Completes .fecRequest s (tell
      (let t := withPort s p { q with fecWin := some asked, reverts := Nat.min 0xFFFF (q.reverts + 1) }
       { t with chip := { t.chip with log := log } }) (.fecAck p.val n i.off))) ∧
    (∀ w, q.fecWin = some w → w.n = n → Completes .fecRequest s (tell s (.fecAck p.val n i.off))) ∧
    (∀ r, q.fecReq = some r → r.n = n → r.closed = false → ¬late r → q.count ≤ r.f + 1023 →
      Completes .fecAck s (withPort s p { q with fecReq := some { r with closed := true } })) ∧
    (∀ r, q.fecReq = some r → r.n = n → r.closed = false → late r → Completes .fecAck s (withPort s p { q with fecReq := none })) ∧
    (∀ r, q.fecReq = some r → r.n ≠ n ∨ r.closed = true → Completes .fecAck s s) ∧
    (∀ r, q.fecReq = some r → r.n = n → r.closed = false → ¬late r → r.f + 1023 < q.count → ∃ t, Completes .fecAck s t ∧
      ∃ r', (t.port p).fecReq = some r' ∧ r'.n = q.fecSeq + 1 ∧ r'.mode = r.mode ∧ r'.other = r.other ∧ q.count + 256 ≤ r'.f) ∧
    (∀ r, q.fecReq = some r →
      (r.closed = false → Completes .fecRequestRepeat s (tell s (.fecReq p.val r.n r.mode r.f))) ∧
      (r.closed = true → Completes .fecRequestRepeat s s)) ∧
    (inTime → Completes .fecRevert s s) ∧
    (∀ w, q.fecWin = some w → w.closed = false → w.f + 1023 < i.n → ∃ log, noted w log ∧ Completes .fecRevert s
      (let t := withPort s p { q with
        fecWin := some { w with closed := true }, reverts := Nat.min 0xFFFF (q.reverts + 1) }
       { t with chip := { t.chip with log := log } })) ∧
    (s.c.pend = .none → ∃ t, Completes .fecChangeTimeout s t ∧ t.c = s.c ∧ ∀ o : Fin 32,
      (∀ r, (s.port o).fecReq = some r → late r → t.port o = { s.port o with fecReq := none }) ∧
      ((∀ r, (s.port o).fecReq = some r → ¬late r) → t.port o = s.port o)) ∧
    (∀ (d a b : Reg) f x, s.c.pend = .fec [p.val] x → s.c.issue = some (.drainFec d a b, f) →
      (q.fecReq = none → Completes .fecChangeTimeout s (({ s with ir := f } : State).setReg d 0).adv) ∧
      (q.fecReq.isSome = true → Completes .fecChangeTimeout s
        (let t : State := { withPort s p { q with fecReq := none } with ir := f }
         ((t.advanceTo (x + 60000)).setReg d 3).adv))))

/-- R327, R330 to R335: the packets of a put gather; with the last a put to a plain window here (local memory, or LPDDR 6 under
its key) is written there, counted unless it came through an aperture, and acknowledged; outside its window it is refused with
PROT, in a gated tile with GATED, without a key with KEY, and writes nothing; a get answers with the bytes of its window, in
packets. A put to a ring goes in at the tail, split at the end, or is refused whole with RING_FULL; one to a rendezvous window is
written by an allowance, which is then consumed with a message, or asks for one. A put through an aperture reaches plain windows
only, and a get too.
That answers leave as one packet to a frame is the model’s choice (log 35, DESIGN CHOICE). -/
def Obligations.PutsAndGetsReachTheirWindow : Prop :=
  ∀ (s : State) (w : Window), FabricCalm s →
    let i := s.input
    let k := i.packet
    let place := w.base + k.off
    let mine (x : Arriving) : Bool := x.chip == k.origin && x.op == k.op
    let bytes := ((s.chip.arriving.find? mine).getD {}).data ++ k.data
    let n := bytes.length
    let answer (cls : PacketClass) (st len : Nat) : Packet :=
      { cls := cls, dest := k.origin, origin := s.chip.num.toNat, tv := some (s.chip.tv.extractLsb' 0 16), op := k.op
        status := st, len := len }
    let sent (t : State) (ks : List Packet) : Prop :=
      t.out = (framed s i.port (ks.map .packet)).out ∧ t.chip.ports = (framed s i.port (ks.map .packet)).chip.ports
    let refused (cls : PacketClass) (st : Nat) : Prop := ∃ t, sent t [answer cls st 0] ∧ t.c = s.c ∧ t.sh = s.sh ∧
      t.chip.windows = s.chip.windows ∧ t.chip.gmem = s.chip.gmem ∧ t.chip.ops = s.chip.ops ∧
      Completes (if cls = .readData then .getArrive else .putArrive) s t
    let whole := k.cls = .put ∧ k.pos + k.data.length = n ∧ k.len ≤ n
    let counts (t : State) (tail : Nat) : Prop :=
      t.window k.win = some (if k.aperture then w else { w with tgt := w.tgt + 1, tail := w.tail + BitVec.ofNat 32 tail })
    let scalars (t : State) : Prop := t.c.s = s.c.s ∧ t.c.pc = s.c.pc
    let here := w.loc = true ∧ w.half = s.half ∧ s.c.memErr = []
    let data := s.c.mem.readBytes place k.len
    k.tv = some (s.chip.tv.extractLsb' 0 16) → k.dest = s.chip.num.toNat → (s.port i.port).drained = false →
    s.window k.win = some w → w.core = none → w.dereg = false → k.bad = [] → n % 16 = 0 →
    (k.cls = .put → k.pos + k.data.length = n → n < k.len → ∃ t, Completes .putArrive s t ∧ t.c = s.c ∧ t.out = s.out ∧
      ∃ x, t.chip.arriving.find? mine = some x ∧ x.data = bytes) ∧
    (w.kind = 0 →
      (here → s.t.gate = none → whole → k.off + n ≤ w.len →
        ∃ t, Completes .putArrive s t ∧ sent t [answer .ack 0 n] ∧ t.c.mem.readBytes place n = bytes ∧
          (∀ x, x < place ∨ place + n ≤ x → t.c.mem.read x = s.c.mem.read x) ∧ counts t 0 ∧ scalars t ∧
          t.chip.gmem = s.chip.gmem) ∧
      (whole → w.len < k.off + n → refused .ack 3) ∧
      (w.loc = true → s.t.gate ≠ none → whole → k.off + n ≤ w.len → refused .ack 6) ∧
      (here → s.t.gate = none → k.cls = .get → k.off + k.len ≤ w.len → Completes .getArrive s (framed s i.port
        ((parts data).map fun x => .packet { answer .readData 0 k.len with pos := x.1, data := x.2 }))) ∧
      (k.cls = .get → w.len < k.off + k.len → refused .readData 3) ∧
      (w.loc = true → s.t.gate ≠ none → k.cls = .get → k.off + k.len ≤ w.len → refused .readData 6) ∧
      (w.loc = false → s.keyOf w.key = none →
        (whole → k.off + n ≤ w.len → refused .ack 10) ∧ (k.cls = .get → k.off + k.len ≤ w.len → refused .readData 10)) ∧
      (∀ key, w.loc = false → s.keyOf w.key = some key → s.chip.gerr = [] → s.chip.soft = [] →
        (whole → place % 16 = 0 → k.off + n ≤ w.len →
          ∃ t, Completes .putArrive s t ∧ sent t [answer .ack 0 n] ∧ t.gread place n key = bytes ∧
            (∀ x, x < place ∨ place + n ≤ x → t.gread x 1 key = s.gread x 1 key) ∧ counts t 0 ∧ t.c = s.c) ∧
        (k.cls = .get → k.off + k.len ≤ w.len → Completes .getArrive s (framed s i.port
          ((parts (s.gread place k.len key)).map fun x =>
            .packet { answer .readData 0 k.len with pos := x.1, data := x.2 }))))) ∧
    (w.kind ≠ 0 → (whole → k.aperture = true → refused .ack 3) ∧ (k.cls = .get → refused .readData 3)) ∧
    (w.kind = 1 → here → s.t.gate = none → whole → k.aperture = false → 0 < n →
      w.len % 64 = 0 → w.tail.toNat % 16 = 0 →
      let used := (w.tail - BitVec.ofNat 32 (littleEndian s.c.mem w.headw 4)).toNat
      let spot (j : Nat) := w.base + (w.tail.toNat + j) % w.len
      (used + n ≤ w.len → ∃ t, Completes .putArrive s t ∧ sent t [answer .ack 0 n] ∧
        (∀ j, j < n → t.c.mem.read (spot j) = bytes.getD j 0) ∧
        (∀ x, (∀ j, j < n → x ≠ spot j) → t.c.mem.read x = s.c.mem.read x) ∧ counts t n ∧ scalars t) ∧
      (w.len < used + n → refused .ack 9)) ∧
    (w.kind = 2 → whole → k.aperture = false →
      (k.allow = none → ∃ t, Completes .putArrive s t ∧ sent t [answer .needAllowance 0 0] ∧ t.c = s.c ∧
        t.chip.windows = s.chip.windows) ∧
      (∀ a o, here → s.t.gate = none → k.allow = some a → a.win = k.win →
        s.chip.ops.find? (fun x => x.kind == .allow && x.peer == k.origin && x.win == a.win && x.off == a.off &&
          x.len == a.len && x.tag == a.tag) = some o →
        o.allow = none → o.core = none → o.lid = s.c.lid → a.off + k.off + n ≤ w.len →
        (k.off + n ≤ a.len → ∃ t, Completes .putArrive s t ∧ sent t [answer .ack 0 n] ∧
          t.c.mem.readBytes (w.base + a.off + k.off) n = bytes ∧
          (∀ x, x < w.base + a.off + k.off ∨ w.base + a.off + k.off + n ≤ x → t.c.mem.read x = s.c.mem.read x) ∧
          counts t 0 ∧ scalars t ∧ t.chip.ops = s.chip.ops.filter (·.id ≠ o.id) ∧
          let u := s.post (State.message 3 0 a.tag.toNat n)
          t.c.mbox = u.c.mbox ∧ t.c.mboxCount = u.c.mboxCount ∧ t.c.held = u.c.held) ∧
        (a.len < k.off + n → refused .ack 3)))

/-- R325, R326, R337: a request of another version is rejected with STALE_TV over the link by which it came; one in transit goes
on by the port of its route, or is rejected with PEER_UNREACHABLE where there is none or its port is DRAINED; what answers it
goes back by the port by which it came; a DRAINED port carries no packet.
R326, R331, R334, R335, R337, R338, R340: what the answers, rejects, markers and notices of other chips do to the
operations of this one.
That answers leave as one packet to a frame, and the list of crossings, is the model’s choice (log 35, DESIGN CHOICE and
DEDUCED). -/
def Obligations.AnswersTransitAndNotices : Prop :=
  (∀ (s : State) (p : Fin 32), FabricCalm s →
    let i := s.input
    let k := i.packet
    let stale := k.tv ≠ some (s.chip.tv.extractLsb' 0 16)
    let same (chip op : Nat) : Bool := chip == k.origin && op == k.op
    let rejected (st : Nat) : State := framed
      { s with chip := { s.chip with
          arriving := s.chip.arriving.filter fun x => !same x.chip x.op
          crossings := s.chip.crossings.filter fun x => !same x.chip x.op } } i.port
      [.packet { cls := .reject, dest := k.origin, origin := s.chip.num.toNat, op := k.op, status := st }]
    ((s.port i.port).drained = true → Completes .staleTv s s ∧ Completes .transitPacket s s ∧ Completes .putArrive s s ∧
      Completes .getArrive s s ∧ Completes .getDataArrive s s ∧ Completes .putAckArrive s s ∧ Completes .rendezvousAnswer s s ∧
      Completes .allowanceArrive s s ∧ Completes .deregNoticeArrive s s ∧ Completes .deregAnswerArrive s s) ∧
    ((s.port i.port).drained = false → k.cls.request = true → stale → Completes .staleTv s (rejected 8) ∧ Completes .transitPacket s (rejected 8) ∧
      (k.cls = .put → Completes .putArrive s (rejected 8)) ∧ (k.cls = .get → Completes .getArrive s (rejected 8)) ∧
      (k.cls = .allowance → Completes .allowanceArrive s (rejected 8)) ∧
      (k.cls = .deregNotice → Completes .deregNoticeArrive s (rejected 8))) ∧
    ((s.port i.port).drained = false → k.cls.request = true → ¬stale → s.route k.dest = .port p → (s.port p).drained = true →
      Completes .transitPacket s (rejected 7)) ∧
    ((s.port i.port).drained = false → k.cls.request = true → ¬stale → s.route k.dest = .port p → (s.port p).drained = false →
      let way : Crossing :=
        { chip := k.origin, op := k.op, came := i.port, left := p, owes := k.last && k.cls != .allowance }
      let others := s.chip.crossings.filter fun x => !same x.chip x.op
      Completes .transitPacket s (framed { s with chip := { s.chip with crossings := way :: others } } p [.packet k])) ∧
    ((s.port i.port).drained = false → k.cls.request = true → ¬stale → s.route k.dest = .nowhere → Completes .transitPacket s (rejected 7)) ∧
    (∀ x, (s.port i.port).drained = false → k.cls.request = false → k.dest ≠ s.chip.num.toNat → s.chip.crossings = [x] →
      x.chip = k.dest → x.op = k.op → (s.port x.came).drained = false →
      Completes .transitPacket s (framed { s with chip := { s.chip with
        crossings := if k.last then [] else [x] } } x.came [.packet k]))) ∧
  (∀ (s : State) (o : FabOp), FabricCalm s →
    let i := s.input
    let k := i.packet
    let here := k.dest = s.chip.num.toNat ∧ (s.port i.port).drained = false
    let current := k.tv = some (s.chip.tv.extractLsb' 0 16)
    let rest := s.chip.ops.filter (·.id ≠ o.id)
    let ended : State := { s with chip := { s.chip with ops := rest } }
    let mine := s.findOp k.op = some o ∧ o.state = .sent ∧ o.lid = s.c.lid ∧ o.core = none ∧ o.allow = none
    let tell (t : State) (status moved : Nat) : State := t.post (State.message 3 status o.tag.toNat moved)
    let bytes := o.data ++ k.data
    let held : State := { s with chip := { s.chip with
      allows := s.chip.allows.filter fun r => !(r.granter == k.origin && r.win == k.win) } }
    (here → mine → k.cls = .ack → o.kind = .put →
      (k.status ≠ 0 → k.status ≠ 12 → Completes .putAckArrive s (tell ended k.status 0)) ∧
      (k.status = 0 → (∀ w ∈ s.chip.windows, w.win ≠ o.win) → Completes .putAckArrive s (tell ended 0 k.len)) ∧
      (∀ w, k.status = 0 → s.chip.windows = [w] → w.win = o.win → Completes .putAckArrive s (tell
        { ended with chip := { ended.chip with windows := [{ w with org := w.org + 1 }] } } 0 k.len))) ∧
    (∀ c, here → s.findOp k.op = some o → o.state = .sent → o.core = some c → o.allow = none → k.cls = .ack →
      o.kind = .put → k.status ≠ 0 → k.status ≠ 12 → Completes .putAckArrive s
        { ended with out := s.out ++ [.message c (State.message 3 k.status o.tag.toNat 0)] }) ∧
    (here → mine → k.cls = .reject → o.kind = .put ∨ o.kind = .get ∨ o.kind = .allow → k.status ≠ 0 →
      Completes .putAckArrive s (tell ended k.status 0)) ∧
    (here → mine → k.cls = .readData → o.kind = .get → k.pos = o.data.length →
      (bytes.length < k.len → Completes .getDataArrive s { s with chip := { s.chip with
        ops := s.chip.ops.map fun x => if x.id = o.id then { o with data := bytes } else x } }) ∧
      (k.len ≤ bytes.length → k.status = 0 → k.bad = [] → bytes.length % 16 = 0 → ∃ t,
        Completes .getDataArrive s t ∧ t.chip.ops = rest ∧
        t.c.mem.readBytes o.laddr bytes.length = bytes ∧
        (∀ x, x < o.laddr ∨ o.laddr + bytes.length ≤ x → t.c.mem.read x = s.c.mem.read x))) ∧
    (here → mine → k.cls = .needAllowance → s.chip.ops = [o] →
      (o.kind = .put → (∀ r ∈ s.chip.allows, r.granter ≠ o.peer ∨ r.win ≠ o.win) →
        Completes .rendezvousAnswer s { s with chip := { s.chip with ops := [{ o with state := .waitAllow }] } }) ∧
      (∀ b, o.kind = .aperture b → ∃ t, Completes .rendezvousAnswer s t ∧ t.chip.ops = [])) ∧
    (here → current → k.cls = .allowance → ∀ r, k.allow = some r → Completes .allowanceArrive s
      { s with chip := { s.chip with allows := s.chip.allows ++ [r] } }) ∧
    (here → current → k.cls = .deregNotice →
      ((∃ x ∈ s.chip.ops, x.kind ≠ .allow ∧ x.peer = k.origin ∧ x.win = k.win) → Completes .deregNoticeArrive s
        { held with chip := { held.chip with owed := [{ chip := k.origin, win := k.win, port := i.port, op := k.op }] } }) ∧
      ((∀ x ∈ s.chip.ops, x.kind = .allow ∨ x.peer ≠ k.origin ∨ x.win ≠ k.win) → Completes .deregNoticeArrive s (framed held i.port
        [.packet { cls := .deregAnswer, dest := k.origin, origin := s.chip.num.toNat
                   tv := some (s.chip.tv.extractLsb' 0 16), op := k.op, win := k.win }]))) ∧
    (∀ w, here → k.cls = .deregAnswer → s.chip.windows = [w] → w.win = k.win →
      Completes .deregAnswerArrive s { s with chip := { s.chip with
        windows := [{ w with waits := w.waits.filter (· ≠ k.origin) }] } }) ∧
    Completes .drainMarkerArrive s
      (let t := withPort s i.port { s.port i.port with markerIn := true }
       { t with chip := { t.chip with arriving := t.chip.arriving.filter (·.port ≠ i.port) } }) ∧
    (i.value.toNat < 2 ^ 16 → i.value.toNat ≠ s.chip.tv.toNat % 2 ^ 16 → s.c.pend = .none →
      Completes .commitMarkerArrive s
        (withPort s i.port { s.port i.port with commitIn := some (i.value.extractLsb' 0 16) })) ∧
    (i.value.toNat < 2 ^ 16 → i.value.toNat = s.chip.tv.toNat % 2 ^ 16 → Completes .commitMarkerArrive s
      (framed s i.port [.commitMarker (i.value.extractLsb' 0 16)])))

/-- cstep starts the collective of a well-formed record under a free id, cstat reads it, cresume sets a frozen one going from a
step or ends it.
R342, R343: a step of each operation: a put leaves by its route, a wait ends once its counter is reached, a reduction adds
element by element, an end posts the message; an outside event freezes the collective.
That cstep answers 2 before 13, cresume 1 first, and NEXT after a failed step is the model’s choice (log 29, DEDUCED). -/
def Obligations.CollectivesStepThroughTheirProgram : Prop :=
  (∀ (s : State) (d a b : Reg), s.inExchange = false →
    let w (i : Nat) := littleEndian s.c.mem (offOf (s.reg a) + 4 * i) 4
    let n := (s.reg a).toNat
    let step := (s.reg b).toNat % 2 ^ 16
    let free (i : Nat) : Prop := i < 16 ∧ ∀ k ∈ s.chip.colls, k.id ≠ i
    let sound := w 0 % 32 = 0 ∧ 0 < w 1 / 2 ^ 16 ∧ w 2 < 2 ^ 16 ∧ w 3 = 0
    (RawBlock s (s.reg a) 16 16 → sound → (∃ i, free i) → ∃ i, free i ∧ Leaves (.cstep d a) s
      (({ s with chip := { s.chip with colls := s.chip.colls ++
        [{ id := i, pva := w 0 + 2 ^ 32 * (w 1 % 2 ^ 16), nstep := w 1 / 2 ^ 16, tag := BitVec.ofNat 16 (w 2)
           lid := s.c.lid, asid := s.c.asid }] } } : State).setReg d (BitVec.ofNat 32 (i * 2 ^ 16)))) ∧
    (RawBlock s (s.reg a) 16 16 → ¬sound → Writes (.cstep d a) s d 2) ∧
    (RawBlock s (s.reg a) 16 16 → sound → (∀ i, ¬free i) → Writes (.cstep d a) s d 13) ∧
    (free n → Writes (.cstat d a) s d 0) ∧
    (16 ≤ n → Traps (.cstat d a) s .illegal 19 0 ∧ Traps (.cresume d a b) s .illegal 19 0) ∧
    (∀ k, n < 16 → s.coll n = some k → Writes (.cstat d a) s d
      (BitVec.ofNat 32 (k.next % 2 ^ 16 * 2 ^ 16 + k.status % 2 ^ 8 * 2 ^ 8 + if k.frozen then 2 else 1))) ∧
    (s.svc = true → free n → Writes (.cresume d a b) s d 1) ∧
    (∀ k, s.svc = true → n < 16 → s.coll n = some k →
      (k.frozen = false → Writes (.cresume d a b) s d 1) ∧
      (k.frozen = true → step = 0xFFFF → Leaves (.cresume d a b) s
        (({ s with chip := { s.chip with colls := s.chip.colls.filter (·.id ≠ n) } } : State).setReg d 0)) ∧
      (k.frozen = true → step ≠ 0xFFFF → k.nstep ≤ step → Writes (.cresume d a b) s d 2) ∧
      (k.frozen = true → step ≠ 0xFFFF → step < k.nstep → Leaves (.cresume d a b) s
        (({ s with chip := { s.chip with colls := s.chip.colls.map fun x =>
          if x.id = n then { k with next := step, frozen := false, void := false } else x } } : State).setReg d 0)))) ∧
  (∀ (s : State) (k : Coll) (w : Nat → Nat),
    let va (i : Nat) := w i + 2 ^ 32 * (w (i + 1) % 2 ^ 16)
    let clean (pa : Nat) := s.chip.gerr.contains (pa / 64) = false ∧ s.chip.soft.contains (pa / 64) = false
    let word (bs : List Byte) (i : Nat) := leNat ((bs.drop (4 * i)).take 4)
    let counter (x : Window) : Word := if w 1 / 2 ^ 16 % 2 = 1 then x.tgt else x.org
    (StepReady s k w → FabricCalm s → w 0 % 16 = 0 → w 6 = 64 → va 2 % 64 = 0 → ∀ p pa key,
      s.runOf k false (State.runBeats (va 2) 64) = .go [.lpddr pa key] → clean pa → pa % 64 = 0 →
      s.route (w 0 / 2 ^ 16 % 2 ^ 16) = .port p → (s.port p).drained = false → s.chip.ops.length < 4096 →
      (∀ r ∈ s.chip.allows, r.granter ≠ w 0 / 2 ^ 16 % 2 ^ 16) →
      Completes .collectivePut s (sentBy { s with chip := { s.chip with colls := [{ k with busy := true }] } } p
        { id := s.chip.nextOp, kind := .coll k.id, lid := k.lid, peer := w 0 / 2 ^ 16 % 2 ^ 16, win := w 1 % 2 ^ 12
          off := w 7, len := 64, tag := k.tag, data := s.gread pa 64 key }
        ((parts (s.gread pa 64 key)).map fun x =>
          { cls := .put, dest := w 0 / 2 ^ 16 % 2 ^ 16, origin := s.chip.num.toNat
            tv := some (s.chip.tv.extractLsb' 0 16), op := s.chip.nextOp, win := w 1 % 2 ^ 12, off := w 7, len := 64
            pos := x.1, data := x.2 }))) ∧
    (StepReady s k w → w 0 % 16 = 1 → ∀ x, s.window (w 1 % 2 ^ 12) = some x →
      (0 ≤ (counter x - BitVec.ofNat 32 (w 6)).toInt → Completes .collectiveWait s (stepDone s k)) ∧
      ((counter x - BitVec.ofNat 32 (w 6)).toInt < 0 → Completes .collectiveWait s s)) ∧
    (StepReady s k w → w 0 % 256 = 2 + 16 * 2 → w 6 = 64 → va 2 % 64 = 0 → va 4 % 64 = 0 → ∀ pa ka pb kb,
      s.runOf k false (State.runBeats (va 2) 64) = .go [.lpddr pa ka] → clean pa →
      s.runOf k true (State.runBeats (va 4) 64) = .go [.lpddr pb kb] → clean pb → pb % 64 = 0 →
      ∃ t, Completes .collectiveReduce s t ∧ t.chip.colls = (stepDone s k).chip.colls ∧ t.c = s.c ∧
      (∀ i, i < 16 → word (t.gread pb 64 kb) i = (word (s.gread pb 64 kb) i + word (s.gread pa 64 ka) i) % 2 ^ 32) ∧
      ∀ x, x < pb ∨ pb + 64 ≤ x → t.chip.gmem.read x = s.chip.gmem.read x) ∧
    (StepReady s k w → w 0 % 16 = 3 → Completes .collectiveEnd s
      (({ s with chip := { s.chip with colls := [] } } : State).post (State.message 4 0 k.tag.toNat k.next))) ∧
    (StepReady s k w → 3 < w 0 % 16 → Completes .collectiveWait s
      (({ s with chip := { s.chip with colls := [{ k with busy := false, status := 3, frozen := true, next := k.next + 1 }] } }
        : State).post (State.message 4 3 k.tag.toNat (k.next + 1)))) ∧
    (s.coll s.input.n = some k → s.chip.colls = [k] → k.core = none → k.lid = s.c.lid → k.void = true → k.busy = false → k.frozen = false →
      Completes .collectiveFreeze s (({ s with chip := { s.chip with colls := [{ k with frozen := true }] } } : State).post
        (State.message 4 11 k.tag.toNat k.next))))

/-! Launches, power and management (11, 21). -/

/-- R193 to R196: a record is queued, refused or called malformed; the controller takes the earliest ready record of the highest
level; aging raises the overdue ones; a counter is written. A record, a counter and a raised level call for an evaluation.
R17, R194, R196, R197, R199, R201: where an evaluation is called for, the record that the controller takes starts in the foreground, with the registers of R17, or ends with a
status in its event record; a launch of which every core has halted, with every copy command complete, is complete, counts and leaves the core idle; firmware ends
a launch and restarts a core that a double trap stopped.
That a record brings its address space with its submission is the model’s choice (log 32, DEDUCED). -/
def Obligations.LaunchesQueueStartAndEnd : Prop :=
  (∀ (s : State),
    let bs := s.input.data
    let level := leNat ((bs.drop 4).take 4) % 4
    let here (n : Nat) := (s.p.queue.filter fun q => q.level == n).length
    let reply (t : State) (r : Nat) : State := { t with out := t.out ++ [.reply r []] }
    (recOk bs = true → here level < 64 → Completes .launchSubmit s (reply { s with p := { s.p with
      queue := s.p.queue ++ [{ bytes := bs, level := level, raised := false, order := s.p.order, xc := s.xc
                               space := { pages := s.input.pairs, key := s.input.op, asid := BitVec.ofNat 8 s.input.n } }]
      order := s.p.order + 1, evaluate := true } } 0)) ∧
    (recOk bs = true → 64 ≤ here level → Completes .launchSubmit s (reply s 1)) ∧
    (bs.length ≠ 64 ∨ leNat (bs.take 4) % 2 = 1 ∨ leNat (bs.take 4) < 0x200 → Completes .launchSubmit s (reply s 2)) ∧
    (∀ q, s.nextRecord = some q → q ∈ s.p.queue ∧ s.ready q = true ∧
      ∀ r ∈ s.p.queue, s.ready r = true → r.level < q.level ∨ (r.level = q.level ∧ q.order ≤ r.order)) ∧
    (s.nextRecord = none → ∀ r ∈ s.p.queue, s.ready r = false) ∧
    (∃ queue e, Completes .agingRaise s { s with p := { s.p with queue := queue, evaluate := e } } ∧
      (queue = s.p.queue → e = s.p.evaluate) ∧ (queue ≠ s.p.queue → e = true) ∧ queue.length = s.p.queue.length ∧
      ∀ (n : Nat) (q : QRec), s.p.queue[n]? = some q → queue[n]? = some
        (if s.p.age ≠ 0 ∧ q.raised = false ∧ q.level < 3 ∧ s.p.age.toNat * 1000 ≤ s.xc - q.xc
          then { q with level := q.level + 1, raised := true } else q)) ∧
    (s.input.n < 4096 → ∃ counters, Completes .counterWrite s
        { s with chip := { s.chip with counters := counters }, p := { s.p with evaluate := true } } ∧
      ∀ n, ((counters.find? (·.1 = n)).map (·.2)).getD 0 = if n = s.input.n then s.input.value else s.counter n)) ∧
  (∀ (s : State) (q : QRec) (l : Launch) (mem : Memory) (errs : List Nat)
    (masks : List (Nat × Nat × BitVec 16)) (img : Option Image),
    let logical := l.cores.findIdx (· = s.coreId)
    let entry := leNat (q.bytes.take 4)
    let queue := s.p.queue.filter (·.order ≠ q.order)
    let gone := s.releaseLaunch l.id
    let idle (t : State) : Prop := t.p.running = none ∧ t.c.run = .idle ∧ t.c.mem = s.c.mem ∧ t.c.mx = [] ∧ t.c.copy = [] ∧
      t.chip.grants = gone.chip.grants ∧ t.p.queue = s.p.queue
    let evaluates := s.p.evaluate = true ∧ ∀ x ∈ s.p.queue, s.overdue x = false
    let clean := s.chip.gerr = [] ∧ s.chip.soft = []
    let halted (m : Nat) : Prop := m ∈ s.p.trees.halted ∨ (m ∈ s.input.nums ∧ m ≠ s.coreId)
    let source := 0x1300 + s.p.num
    let counted := leNat ((q.bytes.drop 0x38).take 4)
    let ending (status image : Nat) : EventRec :=
      { src := source, kind := 1, xcyc := s.xcyc, d0 := BitVec.ofNat 32 (status + 256 * image)
        d1 := BitVec.ofNat 32 (if counted / 2 ^ 15 % 2 = 1 then counted % 2 ^ 12 else 0) }
    (NoLaunch s → evaluates → clean → s.nextRecord = some q →
      s.prepare q s.c.mem s.c.memErr = .start l mem errs masks img → Completes .launchAdmit s { s with
        c := if s.coreId ∈ l.cores then
            launchContext s.c l logical l.cores.length entry s.p.num q.space.asid s.p.cfg mem errs
          else { s.c with phase := 0 }
        p := { s.p with
          queue := queue, launches := s.p.launches + 1, evaluate := false, running := some l, trees := { masks := masks }
          image := img, locals := [] } }) ∧
    (∀ status image, NoLaunch s → evaluates → s.nextRecord = some q →
      s.prepare q s.c.mem s.c.memErr = .ends status image → ∃ chip, Completes .launchAdmit s { s with
        p := { s.p with queue := queue, launches := s.p.launches + 1, evaluate := true }, chip := chip } ∧
      (clean → (s.chip.log.held.filter (·.src = source)).length < 64 → chip = { s.chip with log := { s.chip.log with
        held := s.chip.log.held ++ [ending status image] } })) ∧
    (evaluates → s.nextRecord = none → Completes .launchAdmit s { s with p := { s.p with evaluate := false } }) ∧
    (s.p.evaluate = false → Completes .launchAdmit s s) ∧
    (s.p.running = some l → s.p.shadowed = none → s.p.prepared = none → s.coreId ∈ l.cores →
      ((∀ m ∈ s.members 0, halted m) → (∀ m ∈ l.cores, m ≠ s.coreId → halted m) → s.copyIdle = true →
        ∃ t, Completes .launchComplete s t ∧ idle t ∧ ∀ n, l.done = some n → t.counter n = s.counter n + 1) ∧
      ((∃ m ∈ s.members 0, ¬halted m) ∨ (∃ m ∈ l.cores, m ≠ s.coreId ∧ ¬halted m) ∨ s.copyIdle = false →
        ∃ t, Completes .launchComplete s t ∧ t.p.running = some l ∧ t.c = s.c) ∧
      (l.id = s.input.n → ∃ t, Completes .launchEndedByFirmware s t ∧ idle t ∧ t.chip.counters = s.chip.counters)) ∧
    (s.c.run = .stopped → s.chip.boot.power = true → s.chip.boot.resetN = true → s.chip.boot.faultN = true → ∃ status,
      Completes .coreRestart s { s with c := { s.c with
        run := .running, status := status
        cause := (s.c.cause &&& 0x7800) ||| (s.input.value &&& 0xFFFF87FF), pc := s.c.tvec, stall := false, pend := .none
        issue := none } } ∧
      status.getLsbD 0 = true ∧ status.getLsbD 1 = false ∧ ∀ b, 2 ≤ b → status.getLsbD b = s.c.status.getLsbD b))

/-- R145, R170, R203 to R208: at a pre-emption point the prepared launch comes in and the running one waits in the shadow; a
pre-emption limit that has passed is reported once; a launch in the shadow, pre-empted or prepared, is paged out and in.
That a prepared launch may be paged out and that PREEMPT_OVERDUE is raised once is the model’s choice (log 52, DESIGN
CHOICE). -/
def Obligations.PreemptionSwapsForegroundAndShadow : Prop :=
  ∀ (s : State) (l r : Launch),
    let away (c : Ctx) : Ctx := { c with mon := Vector.replicate 8 {}, stale := [], cycleBar := [] }
    let limit := s.p.since + 1000 * s.p.cfg.preemptLimit
    (s.p.prepared = some l → s.p.running = some r → s.p.swapDue = true → s.c.mx = [] → s.c.head = [] →
      s.inExchange = false → s.sh.pend = .none → s.sh.deferred = none → s.sh.held = [] → s.sh.copy = [] →
      s.c.copy = [] → (∀ o ∈ s.chip.ops, o.state ≠ .waitAllow) → ∃ t, Completes .preemptSwap s t ∧
      t.p.running = some l ∧ t.p.shadowed = some r ∧ t.p.prepared = none ∧ t.p.swapDue = false ∧ t.p.evaluate = true ∧
      t.p.trees = s.p.treesSh ∧ t.p.treesSh = s.p.trees ∧ t.p.image = s.p.imageSh ∧ t.p.imageSh = s.p.image ∧
      (s.coreId ∈ l.cores ∨ s.coreId ∈ r.cores → t.half = !s.half ∧ t.c = away s.sh ∧ t.sh = away s.c) ∧
      (s.coreId ∉ l.cores → s.coreId ∉ r.cores → t.half = s.half ∧ t.c = { s.c with phase := s.sh.phase } ∧
        t.sh = { s.sh with phase := s.c.phase })) ∧
    (s.p.prepared = some l → s.p.swapDue = false → s.p.told = false → limit ≤ s.xc → ∃ t, Completes .preemptOverdue s t ∧
      t.p = { s.p with told := true } ∧
      if s.t.num = 0 then t.t.inbox = s.t.inbox ++ [.overdue] else t.out = s.out ++ [.overdue]) ∧
    (s.p.prepared = none ∨ s.p.swapDue = true ∨ s.p.told = true ∨ s.xc < limit → Completes .preemptOverdue s s) ∧
    (∀ w, s.input.flag = false → s.p.swapDue = false →
      (if w then s.p.shadowed = none ∧ s.p.prepared = some l else s.p.shadowed = some l) → ∃ sh, Completes .shadowPage s { s with
        sh := sh
        p := { s.p with
          paged := { waits := w, since := s.p.since, launch := l, ctx := s.sh, trees := s.p.treesSh, image := s.p.imageSh } ::
            s.p.paged
          shadowed := none, prepared := none, treesSh := {}, imageSh := none } } ∧
      (s.coreId ∉ l.cores → sh = s.sh) ∧ (s.coreId ∈ l.cores → sh.run = .idle ∧ sh.mem = s.sh.mem)) ∧
    (∀ g, s.input.flag = true → s.p.paged.find? (·.launch.id = s.input.n) = some g → s.p.shadowed = none →
      s.p.prepared = none → s.p.running = some r → Completes .shadowPage s { s with
        sh := if s.coreId ∈ g.launch.cores then g.ctx else { s.sh with phase := g.ctx.phase }
        p := { s.p with
          paged := s.p.paged.filter (·.launch.id ≠ g.launch.id), treesSh := g.trees, imageSh := g.image
          shadowed := if g.waits then none else some g.launch, prepared := if g.waits then some g.launch else none
          since := g.since, told := false } })

/-- R190, R209 to R215, R356: settings (the first of a boot load key slot 0, and the last set STATUS), sensors, the rail (no change while a core of the tile is in an exchange phase or has work in
flight), migration and gates of a tile.
Empty memory after OFF (log 3, DESIGN CHOICE), migration in two steps, the registers after an ungate, and that a waiting
instruction is not in flight (log 32) are the model’s choice. -/
def Obligations.SettingsTemperatureAndGates : Prop :=
  ∀ (s : State),
    let i := s.input
    let hottest := s.tileTemp
    let near (l : LocalRun) : Prop := s.xc < l.xr + l.seg.len ∧ ∃ m ∈ s.members l.tree, m / 16 = s.t.num
    let calm := s.c.phase.getLsbD 0 = false ∧ s.c.lphase.getLsbD 0 = false ∧ s.c.mx = [] ∧ s.c.head = [] ∧ i.flag = false ∧
      ∀ l ∈ s.p.locals, ¬near l
    let g := i.cfg
    let fits := g.tiles ≠ [] ∧ g.tiles.Nodup ∧ (∀ x ∈ g.tiles, x < 144) ∧ 1 ≤ g.preemptLimit ∧ g.preemptLimit ≤ 2 ^ 24
    let budget := BitVec.ofNat 14 (Nat.min 9600 g.lbudget)
    let waited := ∀ x, s.t.thermXc = some x → x + 1000000 ≤ s.xc
    let rail (v : Bool) (t : State) : Prop := t.t = { s.t with throttled := v, thermXc := some s.xc } ∧ t.cc = 0 ∧ t.c = s.c
    let vacant := s.c.run = .idle ∧ s.sh.run = .idle ∧ s.p.running = none ∧ s.chip.grants = [] ∧
      s.p.trees.arrived = [] ∧ s.p.trees.gather = []
    (i.n = s.p.num → i.n < 4 → s.chip.boot.status ≠ 1 → fits → g.tiles = s.p.cfg.tiles →
      (∀ o ∈ s.others, o.num ≠ i.n → ∀ x ∈ o.cfg.tiles, x ∉ g.tiles) →
      Completes .partitionConfig s { s with p := { s.p with cfg := g, lbudget := budget } }) ∧
    (i.n = s.p.num → i.n < 4 → s.chip.boot.status = 1 → s.chip.boot.firmware = true → fits → g.tiles = s.p.cfg.tiles →
      (∀ o ∈ s.others, o.num ≠ i.n → ∀ x ∈ o.cfg.tiles, x ∉ g.tiles) → ∃ keys, Completes .partitionConfig s { s with
        p := { s.p with cfg := g, lbudget := budget }
        chip := { s.chip with keys := keys, boot := { s.chip.boot with status := if i.flag then 0 else 1 } } } ∧
      (∃ k, (0, k) ∈ keys) ∧ ∀ e ∈ keys, e ∈ s.chip.keys ∨ e.1 = 0) ∧
    (i.n ≠ s.p.num → i.n < 4 → s.chip.boot.status ≠ 1 → fits → s.t.num ∉ g.tiles → (∀ o ∈ s.others, o.num ≠ i.n) →
      (∀ o ∈ s.p :: s.others, ∀ x ∈ o.cfg.tiles, x ∉ g.tiles) →
      Completes .partitionConfig s { s with others := { num := i.n, cfg := g, lbudget := budget } :: s.others }) ∧
    (¬fits ∨ 4 ≤ i.n → Completes .partitionConfig s s) ∧
    (i.temps.length = 17 → Completes .sensorSample s { s with t := { s.t with temps := i.temps } }) ∧
    ((s.t.temps ≠ [] → hottest ∈ s.t.temps) ∧ ∀ x ∈ s.t.temps, x ≤ hottest) ∧
    (calm → waited → s.t.throttled = false → (s.t.thot.toNat : Int) ≤ hottest → ∃ t, Completes .thermal s t ∧ rail true t) ∧
    (calm → waited → s.t.throttled = true → hottest ≤ (s.t.thot.toNat : Int) - 3 → ∃ t, Completes .thermal s t ∧ rail false t) ∧
    (s.t.throttled = false → hottest < (s.t.thot.toNat : Int) → Completes .thermal s s) ∧
    (i.flag = true ∨ s.c.phase.getLsbD 0 = true ∨ s.c.lphase.getLsbD 0 = true ∨ s.c.mx ≠ [] ∨ s.c.head ≠ [] ∨
      (∃ l ∈ s.p.locals, near l) ∨ ¬waited → Completes .thermal s s) ∧
    (i.flag = true → i.op < 16 → i.chip = s.t.num → i.off ≠ s.t.slot.val →
      (¬waited → Completes .thermalMigration s s) ∧
      (waited → ∃ t, Completes .thermalMigration s t ∧ t.t.thermXc = some s.xc ∧ t.c = s.c ∧ t.t.idx = s.t.idx ∧
        (t.t.slots[i.off]?).map (·.phys.val) = (s.t.slots[i.off]?).map fun _ => i.op)) ∧
    (∀ n : Fin 16, s.coolest i.nums = some n →
      n ≠ s.t.idx ∧ n.val ∈ i.nums ∧ s.t.temps.getD n.val 0 ≤ (s.t.tmig.toNat : Int) - 3 ∧
      (∀ m : Fin 16, m ≠ s.t.idx → m.val ∈ i.nums → s.t.temps.getD n.val 0 ≤ s.t.temps.getD m.val 0) ∧
      (i.flag = false → s.inTransit = false → s.boundary = true → s.c.mx = [] → s.c.head = [] →
        (s.t.tmig.toNat : Int) ≤ s.t.temps.getD s.t.idx.val 0 → s.c.run ≠ .idle → s.sh.run = .idle → waited →
        Completes .thermalMigration s { s with t := { s.t with
          thermXc := some s.xc
          target := n
          slots := s.t.slots.modify s.t.slot.val fun e => { e with v := false, it := true } } })) ∧
    (i.flag = false → s.inTransit = false → s.boundary = false ∨ s.coolest i.nums = none →
      Completes .thermalMigration s s) ∧
    (let n := s.t.target;
      i.flag = false → s.inTransit = true → s.c.pend = .none → s.c.held = [] → s.c.copy = [] →
        (∀ o ∈ s.chip.ops, o.state ≠ .waitAllow) → ∃ t, Completes .thermalMigration s t ∧ t.t.idx = n ∧
        t.t.slots = s.t.slots.modify s.t.slot.val (fun e => { e with v := true, it := false, phys := n }) ∧
        t.t.thermXc = some s.xc ∧
        t.c = { s.c with mon := Vector.replicate 8 {}, stale := [], cycleBar := [] } ∧
        ∀ l, s.p.running = some l → t.p.running = some { l with
          cores := l.cores.map fun m => if m = s.coreId then 16 * s.t.num + n.val else m }) ∧
    (∀ (h : Tree) m x, m ∈ s.members h → m / 16 = s.t.num → (h.val, x) ∈ s.p.trees.arrived → Completes .tileGate s s) ∧
    (vacant → s.t.gate = none → i.flag = false → i.gate = .retain →
      Completes .tileGate s { s with t := { s.t with gate := some .retain, tlb := [] } }) ∧
    (vacant → s.t.gate = none → i.flag = false → i.gate = .off → Completes .tileGate s { s with
      t := { s.t with gate := some .off, tlb := [] }
      c := { s.c with mem := [], memErr := [] }
      sh := { s.sh with mem := [], memErr := [] } }) ∧
    (s.t.gate ≠ none → ∃ t, Completes .tileUngate s t ∧ t.c = { ({} : Ctx) with mem := s.c.mem, memErr := s.c.memErr } ∧
      t.sh = { ({} : Ctx) with mem := s.sh.mem, memErr := s.sh.memErr } ∧ t.t.gate = none ∧ t.t.tlb = [] ∧
      t.t.thot = 95 ∧ t.t.tmig = 105 ∧ t.t.slew = 16 ∧
      t.t.slots = (List.finRange 16).map (fun k => { v := true, it := false, phys := k }) ∧ t.p = s.p ∧ t.chip = s.chip)

/-- R353, R354: a power cycle and RESET_N hold the device in reset; at its release every register has its reset value and memory
and fuses stay, tile 0 is ungated and the others are OFF, and boot source 0 has its fixed fibre grant; a rail fault stops the cores
and darkens every path, and takes the power away where the rails fall; a thermal trip darkens every path.
What memory (log 3), registers without a reset value (log 4) and the partition (log 7) hold after a power cycle and a
reset is the model’s choice (DESIGN CHOICE). -/
def Obligations.PowerAndResetStates : Prop :=
  ∀ (s : State),
    let b := s.chip.boot
    let dark (gs : List Grant) : List Grant := gs.map fun g => { g with state := .dark, fail := true, next := none }
    let halt (c : Ctx) : Ctx := { c with run := if c.run = .idle then .idle else .stopped }
    let held (t : State) (boot : Boot) : Prop := t = { s with
      c := halt s.c
      sh := halt s.sh
      chip := { s.chip with grants := dark s.chip.grants, boot := boot } }
    let serves := b.power = true ∧ b.resetN = true ∧ b.faultN = true ∧ b.firmware = true
    let source := if s.input.n < 3 then s.input.n else 0
    let fixed (x : Int) : Grant := { id := 0x8000, src := 144, dests := [0], gu := 64, mode := 1, rxp := x }
    (b.power = false → ∃ t, Completes .powerGood s t ∧ t.c = {} ∧ t.sh = {} ∧ t.chip.gmem = [] ∧ t.chip.area = none ∧
      t.chip.saved = s.chip.saved ∧
      t.chip.boot = { b with power := true, resetN := false, faultN := true, thermtripN := true }) ∧
    (b.power = true → Completes .powerGood s s) ∧
    (∃ t, Completes .resetNAssert s t ∧ held t { b with resetN := false }) ∧
    (serves → ∃ t, Completes .mgmtReset s t ∧ held t { b with resetN := false }) ∧
    (¬serves → Completes .mgmtReset s s) ∧
    (∃ t, Completes .railFault s t ∧ held t (if s.input.flag then { b with power := false } else { b with faultN := false })) ∧
    (s.input.flag = true ∨ (∃ x ∈ s.t.temps, 120 ≤ x) → Completes .thermalTrip s { s with chip := { s.chip with
      grants := dark s.chip.grants, boot := { b with thermtripN := false } } }) ∧
    (s.input.flag = false → (∀ x ∈ s.t.temps, x < 120) → Completes .thermalTrip s s) ∧
    (b.power = true → b.resetN = false → b.faultN = true → ∃ t, Completes .resetRelease s t ∧
      (s.t.num = 0 → t.c = { ({} : Ctx) with mem := s.c.mem, memErr := s.c.memErr } ∧
        t.sh = { ({} : Ctx) with mem := s.sh.mem, memErr := s.sh.memErr } ∧
        t.t = { ({} : Tile) with idx := s.t.idx, slot := s.t.idx }) ∧
      (s.t.num ≠ 0 → t.c = {} ∧ t.sh = {} ∧
        t.t = { ({} : Tile) with num := s.t.num, idx := s.t.idx, slot := s.t.idx, gate := some .off }) ∧
      t.p = {} ∧ t.xc = 0 ∧ t.chip.gmem = s.chip.gmem ∧ t.chip.windows = [] ∧ t.chip.keys = [] ∧
      (source ≠ 0 → t.chip.grants = []) ∧ (source = 0 → ∃ x, t.chip.grants = [fixed x]) ∧
      t.chip.boot = { ({} : Boot) with fuses := b.fuses, boots := b.boots + 1, source := source }) ∧
    (b.power = false ∨ b.resetN = true ∨ b.faultN = false → Completes .resetRelease s s)

/-- R353 to R358, R365: an image that passes its checks is measured and its kind counts as running; a rejected one, or 10 s without
one, abandons its source; an image of kind 3 fills its update slot while firmware boots; what the management port answers once
first-stage firmware runs, and that it does nothing before, in reset, without power or after a rail fault.
The link mode from the span that the input brings, the statuses of refusals and key slot 0 (log 33), and the standards’
functions (log 51, PRESUMED) are the model’s choice. -/
def Obligations.BootImagesAndIdentity : Prop :=
  ∀ (s : State),
    let b := s.chip.boot
    let g := signedImage s.input.img
    let n := s.input.n
    let key := shake256 g.pubkey 64
    let good := g.magic = 0x56574D49 ∧ g.kind ≤ 3 ∧ g.reservedZero = true ∧
      (key = Config.vendKey ∨ (g.kind = 3 ∧ key = Config.custKey)) ∧ mlDsaVerify g.pubkey g.signed g.sig = true ∧
      shake256 g.payload 64 = g.digest ∧ b.fuses.getD g.kind 0 ≤ g.svn
    let told (t : State) (r : Nat) (bs : List Byte) : State := { t with out := t.out ++ [.reply r bs] }
    let measured (t : State) : Prop := t.chip.boot.log = b.log ++ g.digest ∧ t.chip.boot.running = b.running.set g.kind g.svn ∧
      t.c = s.c ∧ t.chip.keys = s.chip.keys ∧ t.chip.boot.status = b.status
    let alive := b.power = true ∧ b.resetN = true ∧ b.faultN = true
    let serves := alive ∧ b.firmware = true
    let trying := alive ∧ b.status = 1 ∧ b.firmware = false
    let limit := b.since + 10000000000
    let rom := trying ∧ s.xc ≤ limit
    let next := (b.source + 1) % 3
    let fixed (x : Int) : Grant := { id := 0x8000, src := 144, dests := [0], gu := 64, mode := 1, rxp := x }
    let moved (t : State) (x : Int) : State := { t with chip := { t.chip with
      grants := t.chip.grants.filter (·.id ≠ 0x8000) ++ if next = 0 then [fixed x] else []
      boot := { b with tried := b.tried ++ [b.source], source := next, since := t.xc } } }
    let wrapping := Config.transportKey (Config.mlKemKey b.boots) s.tick
    let report := s.input.data ++ leBytes 16 Config.serial.toNat ++
      ((List.range 4).flatMap fun i => leBytes 4 (b.running.getD i 0)) ++
      shake256 (if s.input.flag then Config.mlKemKey b.boots else b.log) 64
    (rom → ∃ t, Completes .boot s t ∧ (b.source = 2 → Completes .bootimg s t) ∧
      (good → g.kind = 0 → measured t ∧ t.chip.boot.firmware = true ∧ t.chip.burst = decide (s.input.chip ≤ 64) ∧
        t.chip.fnSlots = [0, 1, 2, 3, 4, 5, 6, 7]) ∧
      (¬good → next ∉ b.tried ++ [b.source] → ∃ x, t = moved s x) ∧
      (¬good → next ∈ b.tried ++ [b.source] → t.chip.boot.status = 2)) ∧
    (serves → g.kind = 1 ∨ g.kind = 2 → ∃ t, Completes .boot s t ∧
      (good → measured t ∧ t.chip.fnSlots = s.chip.fnSlots ∧ (g.kind = 2 → t.chip.boot.micro = true))) ∧
    (serves → g.kind = 3 → good → b.status = 1 → s.keyOf 0 = none → 8 ≤ s.input.op → s.input.op < 16 →
      ∃ t, Completes .boot s t ∧ measured t ∧ t.chip.fnSlots = s.chip.fnSlots ++ [s.input.op]) ∧
    (rom → b.source ≠ 2 → Completes .bootimg s s) ∧
    (trying → next ∉ b.tried ++ [b.source] → ∃ x, Completes .bootSourceTimeout s (moved (s.advanceTo limit) x)) ∧
    (trying → next ∈ b.tried ++ [b.source] → ∃ t, Completes .bootSourceTimeout s t ∧ t.chip.boot.status = 2) ∧
    (alive → Completes .mgmtStatus s (told s b.status [])) ∧ (¬alive → Completes .mgmtStatus s s) ∧
    (serves →
      (s.input.data.length = 32 →
        Completes .attest s (told s 0 (Config.certChain ++ report ++ Config.mlDsaSign report))) ∧
      (n = 0 → Completes .keyload s (told s 1 [])) ∧
      (0 < n → n < 1024 → ∃ t, Completes .keyload s t ∧ t.c = s.c ∧
        (∀ k, Aes.unwrap wrapping s.input.data = some k → t.keyOf n = some k ∧ (∀ m, m ≠ n → t.keyOf m = s.keyOf m) ∧
          ∀ e ∈ t.t.tlb, e.2.key.toNat ≠ n) ∧
        (Aes.unwrap wrapping s.input.data = none → t = told s 1 [])) ∧
      (n < 1024 → ∃ t, Completes .keyclear s t ∧ t.keyOf n = none ∧ (∀ m, m ≠ n → t.keyOf m = s.keyOf m) ∧ t.c = s.c ∧
        ∀ e ∈ t.t.tlb, e.2.key.toNat ≠ n) ∧
      (n < 4 → Completes .svncommit s (told { s with chip := { s.chip with boot := { b with
        fuses := b.fuses.set n (Nat.max (b.fuses.getD n 0) (b.running.getD n 0)) } } } 0 []))) ∧
    (¬serves → Completes .attest s s ∧ Completes .keyload s s ∧ Completes .keyclear s s ∧
      Completes .svncommit s s ∧ Completes .restore s s ∧ Completes .checkpoint s s ∧ Completes .snapread s s ∧
      Completes .evread s s ∧ Completes .mgmtSnap s s)

/-- R359 to R364: snapshots latch and are read, records enter the log while it has room, the host moves its tail and its place, reads
and writes the registers of BAR0 and submits to the partition of a window; a checkpoint names its ports and its peer, streams what
LPDDR 6 stores, and is restored onto a part of the same ordering code and capacity, whose launches resume in a second step.
That record n of the log lies at base + 32n under key slot 0, what Chip.saved, Chip.area and the stream hold, the
statuses of refusals and the inner layout of BAR0 are the model’s choice (log 33). -/
def Obligations.SnapshotsLogAndCheckpoints : Prop :=
  ∀ (s : State),
    let l := s.chip.log
    let b := s.chip.boot
    let i := s.input
    let told (t : State) (r : Nat) (bs : List Byte) : State := { t with out := t.out ++ [.reply r bs] }
    let latched (g : Nat) : List Word := ((s.chip.snapRegs.find? (·.1 = g)).map (·.2)).getD []
    let calm := ∀ o ∈ s.chip.ops, o.state ≠ .waitAllow
    let firm := b.power = true ∧ b.resetN = true ∧ b.faultN = true ∧ b.firmware = true
    let place (n : Nat) : Nat := l.base + 32 * n % l.size
    let bad (n : Nat) : Bool := s.chip.gerr.contains (place n / 64)
    let room := l.head - l.tail < l.size / 32
    let entered (r : EventRec) (drop : Nat) (t : State) : Prop := t.chip.log.head = l.head + 1 ∧ t.chip.log.tail = l.tail ∧
      (bad l.head = true → t.chip.gmem = s.chip.gmem) ∧
      ∀ k, bad l.head = false → s.keyOf 0 = some k →
        t.gread (place l.head) 32 k = wordsBytes [BitVec.ofNat 32
          (r.src % 2 ^ 16 + r.kind % 2 ^ 8 * 2 ^ 16 + drop % 2 ^ 8 * 2 ^ 24), r.seq, r.xcyc, r.d0, r.d1, r.d2, r.d3, 0]
    let logs := 0x120000 ≤ i.off ∧ i.off < 0x130000
    let quiet (c : Ctx) : Prop := c.run = .idle ∧ c.held = [] ∧ c.copy = []
    let small : SmallState := { c := s.c, sh := s.sh, p := s.p, others := s.others }
    let named := i.nums ≠ [] ∧ i.nums.Nodup ∧ ∀ p ∈ i.nums, p < 32
    (firm → s.chip.snapctl.getLsbD 8 = true →
      Completes .mgmtSnap s (told { s with chip := { s.chip with snapTrig := true } } 0 [])) ∧
    (firm → s.chip.snapctl.getLsbD 8 = false → Completes .mgmtSnap s (told s 1 [])) ∧
    (s.chip.snapTrig = true → ∃ t, Completes .snapshotLatch s t ∧ t.chip.snapTrig = false ∧
      t.chip.snapseq = s.chip.snapseq + 1 ∧ t.c.s = s.c.s ∧ t.c.mem = s.c.mem ∧
      (s.c.pend = .snap none → t.c.pend = .snap (some (s.chip.snapseq + 1))) ∧
      (s.sh.pend = .snap none → t.sh.pend = .snap (some (s.chip.snapseq + 1))) ∧
      (s.chip.snapctl.getLsbD 4 = true → ∃ ws, (4, ws) ∈ t.chip.snapRegs ∧ ∀ n, n < 48 → (ws[n]?).map BitVec.toNat =
        some (((s.chip.corrected.find? (·.1 = 0x1100 + n)).map (·.2)).getD 0 % 2 ^ 32)) ∧
      (s.chip.snapctl.getLsbD 5 = true → (5, s.t.temps.map (BitVec.ofInt 32)) ∈ t.chip.snapRegs) ∧
      ∀ g, g < 6 → s.chip.snapctl.getLsbD g = false → (g, latched g) ∈ t.chip.snapRegs) ∧
    (firm → Completes .snapread s (told s 0 (wordsBytes (s.chip.snapseq :: latched i.n)))) ∧
    (∀ r rs, room → i.flag = true → s.t.evq = r :: rs → ∃ t, Completes .eventRecordDeliver s t ∧
      t.t.evq = rs ∧ entered r 0 t) ∧
    (∀ r, room → i.flag = false → l.held.find? (·.src = i.n) = some r → ∃ t,
      Completes .eventRecordDeliver s t ∧ t.seqOf r.src = s.seqOf r.src + 1 ∧
      entered { r with seq := s.seqOf r.src } (((l.drops.find? (·.1 = r.src)).map (·.2)).getD 0) t ∧
      (bad l.head = false → s.chip.soft = [] → t.chip.log.held = l.held.erase r)) ∧
    (l.size / 32 ≤ l.head - l.tail → Completes .eventRecordDeliver s s) ∧
    (l.tail ≤ i.n → i.n ≤ l.head → Completes .logTailWrite s { s with chip := { s.chip with log := { l with tail := i.n } } }) ∧
    (firm → s.chip.gerr = [] → s.chip.soft = [] → ∃ bs, Completes .evread s (told s 0 bs) ∧
      bs.length = 32 * (l.head - l.tail)) ∧
    (∀ n, firm → l.tail ≤ n → n < l.head → bad n = true → ∃ t bs, Completes .evread s t ∧
      t.out = s.out ++ [.reply 12 bs] ∧ t.c = s.c) ∧
    (i.flag2 = false → logs → i.op = 4 →
      Completes .hostRegisterWrite s { s with chip := { s.chip with log := { l with cfg := i.value &&& 1 } } }) ∧
    (∀ k, i.flag2 = false → logs → i.op = 0 → i.len = 2 ^ k → 16 ≤ k → k ≤ 30 → i.addr % 64 = 0 →
      (i.addr + i.len ≤ s.chip.capacity * 2 ^ 30 → Completes .hostRegisterWrite s
        { s with chip := { s.chip with log := { l with base := i.addr, size := i.len, head := 0, tail := 0 } } }) ∧
      (s.chip.capacity * 2 ^ 30 < i.addr + i.len → Completes .hostRegisterWrite s s)) ∧
    (∀ t, i.flag2 = false → s.p.num < 4 → i.off = 0x100000 + 4096 * s.p.num → Completes .launchSubmit s t →
      Completes .hostRegisterWrite s t) ∧
    (∀ o, i.flag2 = false → o.num < 4 → i.off = 0x100000 + 4096 * o.num → o.num ≠ s.p.num → s.others = [o] →
      recOk i.data = true → (o.queue.filter fun q => q.level == leNat ((i.data.drop 4).take 4) % 4).length < 64 →
      ∃ o', Completes .hostRegisterWrite s (told { s with others := [o'] } 0 []) ∧ o'.evaluate = true ∧
        o'.num = o.num ∧ o'.queue.length = o.queue.length + 1) ∧
    (∀ n, n < 4096 → i.off = 0x110000 + 4 * n →
      (i.flag2 = false → ∃ t, Completes .hostRegisterWrite s t ∧ t.counter n = i.value ∧ t.p.evaluate = true ∧ t.c = s.c) ∧
      (i.flag2 = true → Completes .hostRegisterWrite s (told s 0 (leBytes 4 (s.counter n).toNat)))) ∧
    (i.flag2 = true → i.off < 0x100000 → Completes .hostRegisterWrite s (told s 0 (leBytes 4 b.status))) ∧
    (i.flag2 = true → logs → (i.op = 2 → Completes .hostRegisterWrite s (told s 0 (leBytes 8 l.head))) ∧
      (i.op = 3 → Completes .hostRegisterWrite s (told s 0 (leBytes 8 l.tail)))) ∧
    (firm → s.chip.ckpt = none →
      (named → ∃ log, Completes .checkpoint s
        (told { s with chip := { s.chip with ckpt := some (i.nums, i.chip), log := log } } 0 [])) ∧
      (¬named → Completes .checkpoint s (told s 1 []))) ∧
    (∀ ports peer, s.chip.ckpt = some (ports, peer) →
      (s.p.swapDue = false → s.c.run = .running → Completes .checkpointEnd s s) ∧
      (quiet s.c → calm → i.flag = false → ∃ t cipher records, Completes .checkpointEnd s t ∧
        t.c = s.c ∧ t.chip.ckpt = none ∧ t.chip.area = some small ∧
        t.chip.saved = some { small := small, gmem := s.chip.gmem, gkeys := s.chip.gkeys, log := l,
                              code := Config.orderingCode, capacity := s.chip.capacity } ∧
        t.out = s.out ++ [.stream ports peer cipher small s.c.mem s.sh.mem records] ∧
        (s.chip.gkeys = [] → cipher = s.chip.gmem) ∧ records.length = 32 * (l.head - l.tail)) ∧
      (quiet s.c → calm → i.flag = true → ∃ t, Completes .checkpointEnd s t ∧ t.c = s.c ∧ t.chip.ckpt = none ∧
        t.chip.saved = s.chip.saved ∧ t.out = s.out)) ∧
    (∀ v, firm → i.flag = false → s.chip.saved = some v →
      (v.code = Config.orderingCode → v.capacity = s.chip.capacity → Completes .restore s (told { s with
        c := { v.small.c with memErr := [], accErr := [] }
        sh := { v.small.sh with memErr := [], accErr := [] }
        p := v.small.p, others := v.small.others
        chip := { s.chip with
          gmem := v.gmem, gkeys := v.gkeys, gerr := [], soft := [], area := some v.small, resuming := true
          log := { l with base := v.log.base, size := v.log.size, head := v.log.head, tail := v.log.tail } } } 0 [])) ∧
      (v.code ≠ Config.orderingCode ∨ v.capacity ≠ s.chip.capacity → Completes .restore s (told s 1 []))) ∧
    (firm → i.flag = false → s.chip.saved = none → Completes .restore s (told s 1 [])) ∧
    (firm → i.flag = true → s.chip.resuming = true → quiet s.c → calm → ∃ t, Completes .restore s t ∧ t.c = s.c ∧
      t.chip.resuming = false ∧ t.p.swapDue = s.p.prepared.isSome ∧ t.out = s.out ++ [.reply 0 []]) ∧
    (firm → i.flag = true → s.chip.resuming = false → Completes .restore s s)

/-! Completion. -/

/-- The next state of the forms that several rules share, under conditions on the state and the operands alone: converting
accesses (vldc, vstc: R124, R125), gangs (mgang, mfollow, munfollow: R139, R140), the head unit (vpinit, vplabel, vpfold,
vpmerge, vpread, vpregen, vpspill, vpstat: R279 to R287), grants (lgrant, lrelease, lmode, lmargin, lstat: R305 to R311), the
fabric engine (wput, wget, wrtr, wcnt, wwait, wreg, wdereg, tvget, tvstage, tvcommit: R345 to R348; cstep, cstat, cresume:
R349), the links (drain, drainFec, drainRetrain, undrain, lnkstat: R350). And every row of the table, an instruction or a step of
an engine or of another agent (mailboxPost to checkpointEnd), answers a next state in every state: it has its effect, waits or takes
a trap, and none stops the run (the model's choice, log 1).
Steps of the engines and time-outs in their plain cases: matrixStart, matrixRetire, headOpComplete, tlbWrite, tlbInvalidate,
commandEndByFirmware, updateApply, scrubPass, memoryError, commitTimeout, drainTimeout, wderegTimeout, wwaitTimeout (R128, R232 to
R234, R229, R239, R240, R267, R345 to R350). -/
def Obligations.EveryFormCompletes : Prop :=
  ((∀ (s : State) (t : ElemType) (d a : Reg) (sat u : Bool) (b4 : B4Type), ConvAccess s (s.reg a) t.lanes u →
    let off := offOf (s.reg a)
    let size := if viewOf (s.reg a) = 5 then t.lanes / 2 else t.lanes * (viewElement (viewOf (s.reg a)) u).bytes
    let scales := s.c.sbase.toNat + off / 4
    (∃ x fl, exec (.vldc t d a sat u) s = .next (State.adv ((s.addFlags fl).setV d x)) ∧
      ∀ k, k < t.lanes → laneAt t x k = (convElement s t (s.reg a) sat u k).1 % 2 ^ t.width) ∧
    (viewOf (s.reg a) = 5 ∨ b4 = .int4 → ∃ m st fl, exec (.vstc t d a sat u b4) s =
        .next { State.adv (s.addFlags fl) with c := { (State.adv (s.addFlags fl)).c with mem := m, stale := st } } ∧
      ∀ x, (x < off ∨ off + size ≤ x) → (viewOf (s.reg a) = 5 → x < scales ∨ scales + t.lanes / 8 ≤ x) →
        Memory.read m x = s.c.mem.read x)) ∧
  (∀ (s : State) (a : Reg) (n : Fin 3), s.inExchange = false → s.c.mx = [] →
    let size := s.c.status.toNat / 256 % 4
    let col := s.t.idx.val % 4
    let others (code : Nat) : List Nat := (s.group code).filter (· ≠ col)
    let met (code : Nat) : Prop :=
      (s.row.filter fun r => (s.group code).contains r.col.val && r.col.val != col).length = (others code).length
    (size = 0 → exec (.mgang 0) s = .next (State.adv s)) ∧
    (size = 0 → n.val ≠ 0 → s.gangClash n.val n.val = false → met n.val →
      (∀ r ∈ s.row, r.col.val ∈ others n.val → r.gang = some n) → ∃ u, exec (.mgang n) s = .next (State.adv u) ∧
      u.c.status.toNat / 256 % 4 = n.val ∧ u.c.s = s.c.s ∧ u.c.mem = s.c.mem) ∧
    (size ≠ 0 → s.gangClash 0 size = false → met size → (∀ r ∈ s.row, r.col.val ∈ others size → r.gang = some 0) →
      ∃ u, exec (.mgang 0) s = .next (State.adv u) ∧ u.c.status.toNat / 256 % 4 = 0 ∧ u.c.s = s.c.s ∧ u.c.mem = s.c.mem) ∧
    (size ≠ 0 → s.c.status.getLsbD 10 = false → s.c.status.getLsbD 11 = false → met size →
      (∀ r ∈ s.row, r.col.val ∈ others size → r.wantsFollow = true ∨ r.following = true) →
      ∃ u, exec .mfollow s = .next u ∧ u.c.pc = (State.adv s).c.pc ∧ u.c.s = (State.adv s).c.s ∧ u.c.mem = s.c.mem ∧
        ((s.group size).head? = some col → u.c.status.getLsbD 11 = true) ∧
        ((s.group size).head? ≠ some col → u.c.status.getLsbD 10 = true)) ∧
    (s.c.status.getLsbD 10 = true → (s.reg a).toNat % 2 = 0 → ∃ u, exec (.munfollow a) s = .next u ∧ u.c.pc = s.reg a ∧
      u.c.status.getLsbD 10 = false ∧ u.c.s = s.c.s ∧ u.c.mem = s.c.mem) ∧
    (s.c.status.getLsbD 10 = false → s.c.status.getLsbD 11 = true → ∃ u, exec (.munfollow a) s = .next (State.adv u) ∧
      u.c.status.getLsbD 11 = false ∧ u.c.s = s.c.s ∧ u.c.mem = s.c.mem)) ∧
  (∀ (s : State) (e : DirEntry) (d a b : Reg), s.inExchange = false → s.c.head.length < 4 →
    let cap := s.c.vpcfg.toNat / 2 ^ 8 % 2 ^ 7
    let made : DirEntry := { bank := d.val, t := (s.reg a).toNat, mode := 0, cap := cap, delta := 0
                             nb := (64 + (s.reg a).toNat * (64 * ((32 + 8 * cap + 63) / 64)) + 2047) / 2048 }
    let takes (i : Instr) (x : Word) : Prop := exec i s = .next (State.adv { s with c := { s.c with
      head := s.c.head ++ [{ op := i, x := x, ent := e }] } })
    let block := e.t * (64 * ((32 + 8 * e.cap + 63) / 64))
    (s.c.vpcfg.toNat % 4 = 0 → 1 ≤ cap → cap ≤ 64 → 1 ≤ (s.reg a).toNat → (s.reg a).toNat ≤ 32 →
      (∀ x, d.val ≤ x → x < d.val + made.nb → x < 32 ∧ s.c.accmap.getLsbD x = true) → s.mxBusy made.banks = false →
      exec (.vpinit d a b) s = .next (State.adv { s with c := { s.c with
        dir := s.c.dir.filter (fun f => !decide (f.bank < d.val + made.nb ∧ d.val < f.bank + f.nb)) ++ [made]
        head := s.c.head ++ [{ op := .vpinit d a b, x := 0, ent := made }] } })) ∧
    (s.stateAt d.val = some e → s.mxBusy e.banks = false → Operand (s.reg a) (4 * e.t) 4 →
      takes (.vplabel d a) (s.reg a)) ∧
    (s.stateAt d.val = some e → e.mode = 0 → s.mxBusy (e.banks ++ [a.val, a.val + 1]) = false → TileReady s .f32 a →
      (∀ f ∈ s.c.dir, ¬(f.bank < a.val + 2 ∧ a.val < f.bank + f.nb)) → (s.reg b).toNat ≤ 0xFFFFFFE0 →
      takes (.vpfold d a b) (s.reg b)) ∧
    (s.stateAt d.val = some e → e.mode = 0 → s.mxBusy e.banks = false → Operand (s.reg a) block 64 →
      takes (.vpmerge d a) (s.reg a)) ∧
    (s.stateAt a.val = some e → s.mxBusy e.banks = false → Operand (s.reg d) block 64 → takes (.vpread d a) (s.reg d)) ∧
    (e = {} → s.mxBusy [d.val, a.val, a.val + 1] = false → TileReady s .f32 a → TileReady s .bf16 d →
      (∀ f ∈ s.c.dir, ¬(f.bank < d.val + 1 ∧ d.val < f.bank + f.nb) ∧ ¬(f.bank < a.val + 2 ∧ a.val < f.bank + f.nb)) →
      d ≠ a → d.val ≠ a.val + 1 → Operand (s.reg b) 264 8 → takes (.vpregen d a b) (s.reg b)) ∧
    (s.c.head = [] → exec (.vpstat d) s =
      .next (State.adv (({ s with c := { s.c with headStatus := 0 } } : State).setReg d (s.c.headStatus.zeroExtend 32)))) ∧
    (s.c.head = [] → s.c.vpst.getLsbD 7 = true → s.stateAt (s.c.vpst.toNat % 32) = some e → s.mxBusy e.banks = false →
      s.c.memErr = [] → s.c.accErr = [] → (∀ i, i < e.t → tokenWord s e i 4 = 0) → Operand (s.reg a) 4 4 →
      Operand (BitVec.ofNat 32 (littleEndian s.c.mem (offOf (s.reg a)) 4)) 1 8 →
      ∃ u, exec (.vpspill a) s = .next (State.adv u) ∧ u.c.vpst.getLsbD 7 = false ∧ u.c.dir = s.c.dir ∧ u.c.s = s.c.s)) ∧
  (∀ (s : State) (d a b : Reg) (g : Grant), s.inExchange = false → s.input.flag = false → s.svc = true →
    s.grantOf s.p.num ((s.reg a).toNat % 65536) = some g → g.part = some s.p.num →
    let word (r : Nat) : Word := BitVec.ofNat 32 ((s.reg a).toNat % 65536 * 65536 + g.mode * 256 + r)
    (s.laneRunning g.src g.lane g.dests = false → exec (.lrelease a) s = .next (State.adv { s with chip := { s.chip with
      grants := s.chip.grants.filter fun x => !(x.id == g.id && x.part == g.part) } })) ∧
    (s.laneRunning g.src g.lane g.dests = false → g.fail = false → (s.reg b).toNat = g.mode → g.mode ≤ 2 → g.next = none →
      let rx := s.rxMin g.gu g.src g.lane g.dests
      sensitivity g.mode + g.margin ≤ rx → exec (.lmode d a b) s = .next (State.adv
        ((withGrant s g { g with rxp := rx, state := .settling }).setReg d (word 0)))) ∧
    (∀ m, g.mmargin = some m → exec (.lmargin d a) s = .next (State.adv ((withGrant s g { g with crc := 0 }).setReg d
      (BitVec.ofNat 32 (g.crc % 256 * 2 ^ 24 + g.worst % 256 * 2 ^ 16 + (m % 2 ^ 16).toNat))))) ∧
    ((s.reg a).toNat < 0xFFFE → exec (.lstat d a) s = .next (State.adv (s.setReg d
      (BitVec.ofNat 32 ((g.rxp % 2 ^ 16).toNat * 2 ^ 16 + g.mode % 16 * 256 + (if g.fail then 8 else 0) + g.state.code)))))) ∧
  (∀ (s : State) (d a : Reg), s.inExchange = false → s.input.flag = false → s.chip.grants = [] → s.chip.failed = [] →
    RawBlock s (s.reg a) 16 16 →
    let q := grantReq (s.c.mem.readBytes (offOf (s.reg a)) 16)
    let dests := (s.c.mem.readBytes (offOf q.dlist) q.f).map (·.toNat)
    let rx := s.rxMin q.gu q.src q.lane dests
    RequestOk s q dests → q.listed = true → RawBlock s q.dlist q.f 1 → s.laneRunning q.src q.lane dests = false →
    1 ≤ q.margin → sensitivity q.mode + q.margin ≤ rx → q.gu ≤ s.p.lbudget.toNat →
    exec (.lgrant d a) s = .next (State.adv (({ s with chip := { s.chip with grants :=
      [{ id := 0, part := some s.p.num, owner := s.c.lid, src := q.src, lane := q.lane, dests := dests, gu := q.gu
         mode := q.mode, margin := q.margin, rxp := rx }] } } : State).setReg d (BitVec.ofNat 32 (q.mode * 256))))) ∧
  (∀ (s : State) (d a : Reg) (p : Fin 32) (peer win off laddr len tag : Nat), FabricCalm s → s.route peer = .port p →
    (s.port p).drained = false → s.chip.allows = [] → s.c.memErr = [] →
    let leaves (i : Instr) : Prop := ∃ u : State, exec i s = .next (State.adv (u.setReg d 0)) ∧ u.c = s.c ∧
      ∃ o, u.chip.ops = s.chip.ops ++ [o] ∧ o.id = s.chip.nextOp ∧ o.peer = peer ∧ o.win = win
    (RequestAt s a .put peer win off laddr len tag → leaves (.wput d a)) ∧
    (RequestAt s a .get peer win off laddr len tag → leaves (.wget d a)) ∧
    (∀ w, RequestAt s a .allow peer win off laddr len tag → s.window win = some w → w.kind = 2 → w.dereg = false →
      leaves (.wrtr d a))) ∧
  (∀ (s : State) (d a b : Reg) (w : Window), FabricCalm s → s.svc = true → s.c.pend = .none →
    let at_ := offOf (s.reg a)
    let word (i : Nat) := littleEndian s.c.mem (at_ + 4 * i) 4
    let n := (s.reg a).toNat
    let routes := (s.c.mem.readBytes (at_ + 8) (word 1)).map (·.toNat)
    (n < 4096 → s.window n = some w → s.reg b = 0 → exec (.wcnt d a b) s = .next (State.adv (s.setReg d w.org))) ∧
    (n < 4096 → s.window n = some w → 0 ≤ (w.org - s.reg b).toInt →
      exec (.wwait d a b) s = .next (State.adv (s.setReg d w.org))) ∧
    (n < 4096 → s.window n = some w → w.dereg = false → s.chip.active = none → s.chip.ops = [] → s.chip.allows = [] →
      exec (.wdereg d a) s = .next (State.adv
        (({ s with chip := { s.chip with windows := s.chip.windows.filter (·.win ≠ n) } } : State).setReg d 0))) ∧
    (RawBlock s (s.reg a) 32 32 → s.window (word 0 % 4096) = none → word 0 / 4096 = 4 →
      word 1 % 64 = 0 → word 2 = 0 → word 3 % 64 = 0 → word 3 ≠ 0 → (∀ i, 4 ≤ i → i < 8 → word i = 0) →
      word 1 + word 3 ≤ 0xA0000 → exec (.wreg d a) s = .next (State.adv (({ s with chip := { s.chip with
        windows := s.chip.windows ++ [{ win := word 0 % 4096, loc := true, base := word 1, len := word 3, half := s.half }]
        } } : State).setReg d 0))) ∧
    (s.reg a = 0 → ∃ x, exec (.tvget d a) s = .next (State.adv (s.setReg d x)) ∧
      x.toNat % 2 ^ 16 = s.chip.tv.toNat % 2 ^ 16) ∧
    (RawBlock s (s.reg a) 8 4 → RawBlock s (s.reg a) (8 + word 1) 4 → s.chip.num.toNat < word 1 → word 1 ≤ 4096 →
      word 0 < 2 ^ 16 → word 0 ≠ s.chip.tv.toNat % 2 ^ 16 → (∀ r ∈ routes, r < 32 ∨ 0xFE ≤ r) →
      (∀ j, j < word 1 → (routes[j]? = some 0xFE ↔ j = s.chip.num.toNat)) → exec (.tvstage d a) s = .next (State.adv
        (({ s with chip := { s.chip with
            inactive := some { ver := BitVec.ofNat 16 (word 0), n := word 1, routes := routes }
            staged := true } } : State).setReg d 0))) ∧
    (∀ r, s.stagedTable = some r → r.ver.toNat = n → (∀ y ∈ r.routes, 32 ≤ y) → (∀ p, (s.port p).lock = .dark) →
      s.chip.ops = [] → s.chip.allows = [] → s.chip.windows = [] → exec (.tvcommit d a) s = .next (State.adv
        (({ s with chip := { s.chip with
            active := some r, inactive := s.chip.active, staged := false, tv := r.ver.zeroExtend 32
            crossings := [] } } : State).setReg d 0)))) ∧
  (∀ (s : State) (d a b : Reg) (k : Coll), s.inExchange = false → s.svc = true →
    let word (i : Nat) := littleEndian s.c.mem (offOf (s.reg a) + 4 * i) 4
    let n := (s.reg a).toNat
    let step := (s.reg b).toNat % 2 ^ 16
    (RawBlock s (s.reg a) 16 16 → s.chip.colls = [] → word 0 % 32 = 0 → 0 < word 1 / 2 ^ 16 → word 2 < 2 ^ 16 →
      word 3 = 0 → ∃ i, i < 16 ∧ exec (.cstep d a) s = .next (State.adv (({ s with chip := { s.chip with
        colls := [{ id := i, pva := word 0 + 2 ^ 32 * (word 1 % 2 ^ 16), nstep := word 1 / 2 ^ 16
                    tag := BitVec.ofNat 16 (word 2), lid := s.c.lid, asid := s.c.asid }] } } : State).setReg d
        (BitVec.ofNat 32 (i * 2 ^ 16))))) ∧
    (n < 16 → s.coll n = some k → exec (.cstat d a) s = .next (State.adv (s.setReg d
      (BitVec.ofNat 32 (k.next % 2 ^ 16 * 2 ^ 16 + k.status % 2 ^ 8 * 2 ^ 8 + if k.frozen then 2 else 1))))) ∧
    (n < 16 → s.coll n = some k → k.frozen = true → step ≠ 0xFFFF → step < k.nstep → exec (.cresume d a b) s =
      .next (State.adv (({ s with chip := { s.chip with colls := s.chip.colls.map fun x =>
        if x.id = n then { k with next := step, frozen := false, void := false } else x } } : State).setReg d 0)))) ∧
  (∀ (s : State) (d a b : Reg) (p : Fin 32) (x : Nat), FabricCalm s → s.svc = true → (s.reg a).toNat = 2 ^ p.val →
    ((s.reg b).toNat = 0 → s.c.pend = .drain x → (s.port p).drained = true →
      exec (.drain d a b) s = .next (State.adv (s.setReg d 0))) ∧
    (∀ ps, (s.reg b).toNat = 1 → s.c.pend = .fec ps x → (s.port p).fecReq = none →
      exec (.drainFec d a b) s = .next (State.adv (s.setReg d 0))) ∧
    (∀ ps, (s.reg b).toNat = 2 → s.c.pend = .retrain ps x → (s.port p).lock = .locked →
      exec (.drainRetrain d a b) s = .next (State.adv (s.setReg d 0))) ∧
    ((s.reg b).toNat = 3 → (∀ o ∈ s.chip.ops, o.state ≠ .held) → (s.chip.windows.map (·.win)).Nodup →
      (∀ w ∈ s.chip.windows, w.tell = []) → ∃ q : Port, q.draining = false ∧ q.drained = false ∧
      exec (.undrain d a b) s = .next (State.adv ((withPort s p q).setReg d 0)))) ∧
  (∀ (s : State) (d a : Reg) (p : Fin 32), s.inExchange = false → (s.reg a).toNat = p.val →
    ∃ x : Word, exec (.lnkstat d a) s = .next (State.adv (s.setReg d x)) ∧ x.toNat % 4 = (s.port p).lock.code) ∧
  (∀ (s : State) (i : Instr), ∃ t, exec i s = .next t)) ∧
  ((∀ (s : State) (q : MxOp) (qs : List MxOp), s.c.mx = q :: qs → s.input.flag = false →
    (q.started = false → isMma q.op = false → exec .matrixStart s =
      .next { s with c := { s.c with mx := { q with started := true } :: qs } }) ∧
    (∀ acc d, q.started = true → q.lead = none → s.input.n = 0 → s.c.accErr = [] → s.c.memErr = [] → q.op = .mzero acc d →
      ∃ t, exec .matrixRetire s = .next t ∧ t.c.mx = qs ∧ t.c.mem = s.c.mem ∧ t.c.s = s.c.s ∧
        ∀ n, n < 1024 → tileElement t.c.acc acc d n = 0)) ∧
  (∀ (s : State) (q : HeadOp) (qs : List HeadOp) (d a : Reg), s.c.head = q :: qs → s.c.accErr = [] → s.c.memErr = [] →
    q.op = .vplabel d a → ∃ t, exec .headOpComplete s = .next t ∧ t.c.head = qs ∧ t.c.mem = s.c.mem ∧ t.c.s = s.c.s ∧
      ∀ i, i < q.ent.t → tokenWord t q.ent i 3 = littleEndian s.c.mem (offOf q.x + 4 * i) 4) ∧
  (∀ (s : State),
    let i := s.input
    let others := s.t.tlb.filter fun e => e.1 ≠ i.n
    let entered (e : TlbEntry) : State :=
      { s with t := { s.t with tlb := (i.n, e) :: others }, out := s.out ++ [.tlbDone i.n] }
    (i.n < 1024 → s.tlbUses i.n = [] → s.p.cfg.notices = false → s.t.notices = [] → s.c.copy = [] → s.sh.copy = [] →
      s.p.paged = [] → s.chip.colls = [] → exec .tlbWrite s = .next (entered i.tlb)) ∧
    (i.n < 1024 → s.tlbUses i.n = [] → exec .tlbInvalidate s = .next (entered {})) ∧
    (i.flag2 = false → i.flag = false → i.win ≠ 1 → i.status = 2 ∨ i.status = 3 ∨ i.status = 10 → s.c.copy = [] → s.sh.copy = [] →
      s.p.paged = [] → s.chip.colls = [] → ∃ t, exec .commandEndByFirmware s = .next t ∧
      t.t.notices = s.t.notices.filter fun n => n.id ≠ i.op) ∧
    (∀ k, s.keyOf i.n = some k → i.addr % 4 = 0 → i.addr < s.chip.capacity * 2 ^ 30 → s.chip.fnSlots.contains i.op = true →
      s.chip.gerr.contains (i.addr / 64) = false → ∃ t, exec .updateApply s = .next t ∧ t.c = s.c ∧ leNat (t.gread i.addr 4 k) =
        (updateWord i.op (BitVec.ofNat 32 (leNat (s.gread i.addr 4 k))) i.value (BitVec.ofNat 32 i.off)).toNat) ∧
    (∃ t, exec .scrubPass s = .next t ∧ t.chip.soft = [] ∧ t.chip.gmem = s.chip.gmem ∧ t.c = s.c) ∧
    (i.flag = true → i.mem = .local_ →
      exec .memoryError s = .next { s with c := { s.c with memErr := i.addr / 8 :: s.c.memErr } })) ∧
  (∀ (s : State) (d a b : Reg) (f : Fetched) (x : Nat), s.inExchange = false →
    let late (limit : Nat) (d : Reg) (v : Word) : State := ((({ s with ir := f } : State).advanceTo (x + limit)).setReg d v).adv
    (∀ v, s.c.pend = .commit v x → s.c.issue = some (.tvcommit d a, f) → s.chip.later = [] →
      (∀ r, s.stagedTable = some r → ∃ p : Fin 32, p.val ∈ r.routes ∧ (s.port p).commitIn ≠ some v) →
      exec .commitTimeout s = .next (late 1000000 d 3)) ∧
    (s.c.pend = .drain x → s.c.issue = some (.drain d a b, f) →
      (∃ p : Fin 32, (s.reg a).getLsbD p.val = true ∧ (s.port p).drained = false ∧ (s.port p).markerIn = false) →
      exec .drainTimeout s = .next (late 1000000 d 2)) ∧
    (∀ w y, s.c.pend = .dereg w x → s.c.issue = some (.wdereg d a, f) → s.c.stragg ≠ 0 → s.window w = some y → y.waits ≠ [] →
      exec .wderegTimeout s = .next (late s.c.stragg.toNat d 2)) ∧
    (∀ w reg, s.c.pend = .wwait x reg → s.c.issue = some (.wwait d a b, f) → s.c.stragg ≠ 0 →
      s.window ((s.reg a).toNat % 4096) = some w → (s.reg a).getLsbD 16 = false →
      exec .wwaitTimeout s = .next (late s.c.stragg.toNat d w.org))))
end

