-- ==== Sys2Proof/Laws/Decode.lean ====
section
/-! SUPPORT. Laws/Decode.lean: what each way to build the fields of a chain reads back as: the register fields, the
immediates with their widening words, the operands of one entry. -/

namespace Sys2Proof.Laws


/-! R form. -/

theorem join_hi_lo3 (x : BitVec 5) : x.extractLsb' 3 2 ++ (x.truncate 3 : BitVec 3) = x := by
  revert x; decide
theorem join_fn (x : BitVec 7) : x.extractLsb' 3 4 ++ (x.truncate 3 : BitVec 3) = x := by
  revert x; decide
theorem baseR_maj (M : BitVec 4) (d a b f : BitVec 3) : (baseR M d a b f).extractLsb' 12 4 = M := by
  apply BitVec.eq_of_getLsbD_eq
  intro i h
  simp only [baseR, BitVec.getLsbD_append, BitVec.getLsbD_extractLsb']
  interval_cases i <;> rfl
theorem baseR_d (M : BitVec 4) (d a b f : BitVec 3) : (baseR M d a b f).extractLsb' 9 3 = d := by
  apply BitVec.eq_of_getLsbD_eq
  intro i h
  simp only [baseR, BitVec.getLsbD_append, BitVec.getLsbD_extractLsb']
  interval_cases i <;> rfl
theorem baseR_a (M : BitVec 4) (d a b f : BitVec 3) : (baseR M d a b f).extractLsb' 6 3 = a := by
  apply BitVec.eq_of_getLsbD_eq
  intro i h
  simp only [baseR, BitVec.getLsbD_append, BitVec.getLsbD_extractLsb']
  interval_cases i <;> rfl
theorem baseR_b (M : BitVec 4) (d a b f : BitVec 3) : (baseR M d a b f).extractLsb' 3 3 = b := by
  apply BitVec.eq_of_getLsbD_eq
  intro i h
  simp only [baseR, BitVec.getLsbD_append, BitVec.getLsbD_extractLsb']
  interval_cases i <;> rfl
theorem baseR_fn (M : BitVec 4) (d a b f : BitVec 3) : (baseR M d a b f).extractLsb' 0 3 = f := by
  apply BitVec.eq_of_getLsbD_eq
  intro i h
  simp only [baseR, BitVec.getLsbD_append, BitVec.getLsbD_extractLsb']
  interval_cases i <;> rfl
theorem baseR_imm (M : BitVec 4) (d a b f : BitVec 3) : (baseR M d a b f).extractLsb' 0 6 = b ++ f := by
  apply BitVec.eq_of_getLsbD_eq
  intro i h
  simp only [baseR, BitVec.getLsbD_append, BitVec.getLsbD_extractLsb']
  interval_cases i <;> rfl

section
variable (p : BitVec 4) (m : BitVec 6) (M : BitVec 4) (d a b : BitVec 5) (fn : BitVec 7)
@[simp] theorem mkR_d : (mkR p m M d a b fn).d = d.toFin := by simp only [Fields.d, Fields.dlo, mkR, baseR_d, join_hi_lo3]
@[simp] theorem mkR_a : (mkR p m M d a b fn).a = a.toFin := by simp only [Fields.a, Fields.alo, mkR, baseR_a, join_hi_lo3]
@[simp] theorem mkR_b : (mkR p m M d a b fn).b = b.toFin := by simp only [Fields.b, Fields.blo, mkR, baseR_b, join_hi_lo3]
@[simp] theorem mkR_fn : (mkR p m M d a b fn).fn = fn := by simp only [Fields.fn, Fields.fnlo, mkR, baseR_fn, join_fn]
@[simp] theorem mkR_maj : (mkR p m M d a b fn).maj = M := by simp only [Fields.maj, mkR, baseR_maj]
@[simp] theorem mkR_blo : (mkR p m M d a b fn).blo = b.truncate 3 := by simp only [Fields.blo, mkR, baseR_b]
@[simp] theorem mkR_alo : (mkR p m M d a b fn).alo = a.truncate 3 := by simp only [Fields.alo, mkR, baseR_a]
@[simp] theorem mkR_dlo : (mkR p m M d a b fn).dlo = d.truncate 3 := by simp only [Fields.dlo, mkR, baseR_d]
@[simp] theorem mkR_page : (mkR p m M d a b fn).page = p := rfl
@[simp] theorem mkR_mod6 : (mkR p m M d a b fn).mod6 = m := rfl
@[simp] theorem mkR_xi : (mkR p m M d a b fn).xi = [] := rfl
@[simp] theorem mkR_xm : (mkR p m M d a b fn).xm = false := rfl
@[simp] theorem mkR_c : (mkR p m M d a b fn).c = 0 := rfl
@[simp] theorem mkR_mod5 : (mkR p m M d a b fn).mod5 = 0 := rfl
@[simp] theorem mkR_dhi : (mkR p m M d a b fn).dhi = d.extractLsb' 3 2 := rfl
@[simp] theorem mkR_ahi : (mkR p m M d a b fn).ahi = a.extractLsb' 3 2 := rfl
@[simp] theorem mkR_bhi : (mkR p m M d a b fn).bhi = b.extractLsb' 3 2 := rfl
@[simp] theorem mkR_fnhi : (mkR p m M d a b fn).fnhi = fn.extractLsb' 3 4 := rfl
end
@[simp] theorem reg_bits (r : Reg) : r.bits.toFin = r := rfl


/-! Immediates. -/

theorem join16 (v : BitVec 26) : v.extractLsb' 6 10 ++ (v.truncate 6 : BitVec 6) = (v.truncate 16 : BitVec 16) := by
  apply BitVec.eq_of_getLsbD_eq
  intro i h
  simp only [BitVec.truncate, BitVec.getLsbD_append, BitVec.getLsbD_extractLsb', BitVec.getLsbD_setWidth]
  interval_cases i <;> rfl
theorem join26 (v : BitVec 26) :
    v.extractLsb' 16 10 ++ v.extractLsb' 6 10 ++ (v.truncate 6 : BitVec 6) = v := by
  apply BitVec.eq_of_getLsbD_eq
  intro i h
  simp only [BitVec.truncate, BitVec.getLsbD_append, BitVec.getLsbD_extractLsb', BitVec.getLsbD_setWidth]
  interval_cases i <;> rfl
theorem join21 (v : BitVec 31) : v.extractLsb' 11 10 ++ (v.truncate 11 : BitVec 11) = (v.truncate 21 : BitVec 21) := by
  apply BitVec.eq_of_getLsbD_eq
  intro i h
  simp only [BitVec.truncate, BitVec.getLsbD_append, BitVec.getLsbD_extractLsb', BitVec.getLsbD_setWidth]
  interval_cases i <;> rfl
theorem join31 (v : BitVec 31) :
    v.extractLsb' 21 10 ++ v.extractLsb' 11 10 ++ (v.truncate 11 : BitVec 11) = v := by
  apply BitVec.eq_of_getLsbD_eq
  intro i h
  simp only [BitVec.truncate, BitVec.getLsbD_append, BitVec.getLsbD_extractLsb', BitVec.getLsbD_setWidth]
  interval_cases i <;> rfl
theorem split6 (x : BitVec 6) : x.extractLsb' 3 3 ++ x.extractLsb' 0 3 = x := by revert x; decide
theorem low6 (v : BitVec 26) : v.extractLsb' 3 3 ++ v.extractLsb' 0 3 = (v.truncate 6 : BitVec 6) := by
  apply BitVec.eq_of_getLsbD_eq
  intro i h
  simp only [BitVec.truncate, BitVec.getLsbD_append, BitVec.getLsbD_extractLsb', BitVec.getLsbD_setWidth]
  interval_cases i <;> rfl

theorem imm26_of (f : Fields) (v : BitVec 26) (hx : f.xi = xiS26 v) (h6 : f.imm6 = v.truncate 6) : f.imm26 = v := by
  unfold Fields.imm26 xiS26 at *
  rw [hx, h6]
  split_ifs with h1 h2
  · exact h1
  · simpa only [join16] using h2
  · exact join26 v

theorem widenU_of (f : Fields) (v : BitVec 26) (hx : f.xi = xiU26 v) : f.widenU (v.truncate 6) = v := by
  unfold Fields.widenU xiU26 at *
  rw [hx]
  split_ifs with h1 h2
  · apply BitVec.eq_of_toNat_eq; simp; omega
  · simp only [join16]; apply BitVec.eq_of_toNat_eq; simp; omega
  · exact join26 v

theorem imm31_of (f : Fields) (v : BitVec 31) (hx : f.xi = xiS31 v) (h6 : f.base.extractLsb' 0 11 = v.truncate 11) :
    f.imm31 = v := by
  unfold Fields.imm31 xiS31 at *
  simp only [hx, h6]
  split_ifs with h1 h2
  · exact h1
  · simpa only [join21] using h2
  · exact join31 v

/-! I form. -/
section
variable (p : BitVec 4) (m : BitVec 6) (M : BitVec 4) (d a : BitVec 5) (xi : List (BitVec 10)) (x : BitVec 6)
@[simp] theorem mkI_imm6 : (mkI p m M d a xi x).imm6 = x := by simp only [Fields.imm6, mkI, baseR_imm, split6]
@[simp] theorem mkI_d : (mkI p m M d a xi x).d = d.toFin := by simp only [Fields.d, Fields.dlo, mkI, mkR, baseR_d, join_hi_lo3]
@[simp] theorem mkI_a : (mkI p m M d a xi x).a = a.toFin := by simp only [Fields.a, Fields.alo, mkI, mkR, baseR_a, join_hi_lo3]
@[simp] theorem mkI_maj : (mkI p m M d a xi x).maj = M := by simp only [Fields.maj, mkI, baseR_maj]
@[simp] theorem mkI_dlo : (mkI p m M d a xi x).dlo = d.truncate 3 := by simp only [Fields.dlo, mkI, baseR_d]
@[simp] theorem mkI_alo : (mkI p m M d a xi x).alo = a.truncate 3 := by simp only [Fields.alo, mkI, baseR_a]
@[simp] theorem mkI_page : (mkI p m M d a xi x).page = p := rfl
@[simp] theorem mkI_mod6 : (mkI p m M d a xi x).mod6 = m := rfl
@[simp] theorem mkI_xi : (mkI p m M d a xi x).xi = xi := rfl
@[simp] theorem mkI_xm : (mkI p m M d a xi x).xm = false := rfl
@[simp] theorem mkI_c : (mkI p m M d a xi x).c = 0 := rfl
@[simp] theorem mkI_mod5 : (mkI p m M d a xi x).mod5 = 0 := rfl
@[simp] theorem mkI_dhi : (mkI p m M d a xi x).dhi = d.extractLsb' 3 2 := rfl
@[simp] theorem mkI_ahi : (mkI p m M d a xi x).ahi = a.extractLsb' 3 2 := rfl
@[simp] theorem mkI_bhi : (mkI p m M d a xi x).bhi = 0 := rfl
@[simp] theorem mkI_fnhi : (mkI p m M d a xi x).fnhi = 0 := rfl
@[simp] theorem mkI_imm26 (v : BitVec 26) : (mkI p m M d a (xiS26 v) (v.truncate 6)).imm26 = v :=
  imm26_of _ v rfl (mkI_imm6 ..)
@[simp] theorem mkI_widenU (v : BitVec 26) : (mkI p m M d a (xiU26 v) (v.truncate 6)).widenU (v.truncate 6) = v :=
  widenU_of _ v rfl
end


/-! With XM. -/
section
variable (f : Fields) (c m : BitVec 5)
@[simp] theorem withXm_d : (withXm f c m).d = f.d := rfl
@[simp] theorem withXm_a : (withXm f c m).a = f.a := rfl
@[simp] theorem withXm_b : (withXm f c m).b = f.b := rfl
@[simp] theorem withXm_fn : (withXm f c m).fn = f.fn := rfl
@[simp] theorem withXm_maj : (withXm f c m).maj = f.maj := rfl
@[simp] theorem withXm_page : (withXm f c m).page = f.page := rfl
@[simp] theorem withXm_mod6 : (withXm f c m).mod6 = f.mod6 := rfl
@[simp] theorem withXm_dlo : (withXm f c m).dlo = f.dlo := rfl
@[simp] theorem withXm_alo : (withXm f c m).alo = f.alo := rfl
@[simp] theorem withXm_blo : (withXm f c m).blo = f.blo := rfl
@[simp] theorem withXm_dhi : (withXm f c m).dhi = f.dhi := rfl
@[simp] theorem withXm_ahi : (withXm f c m).ahi = f.ahi := rfl
@[simp] theorem withXm_bhi : (withXm f c m).bhi = f.bhi := rfl
@[simp] theorem withXm_fnhi : (withXm f c m).fnhi = f.fnhi := rfl
@[simp] theorem withXm_xi : (withXm f c m).xi = f.xi := rfl
@[simp] theorem withXm_xm : (withXm f c m).xm = true := rfl
@[simp] theorem withXm_c : (withXm f c m).c = c := rfl
@[simp] theorem withXm_creg : (withXm f c m).creg = c.toFin := rfl
@[simp] theorem withXm_mod5 : (withXm f c m).mod5 = m := rfl
@[simp] theorem withXm_off : (withXm f c m).off = f.off := rfl
@[simp] theorem withXmOpt_d : (withXmOpt f c m).d = f.d := rfl
@[simp] theorem withXmOpt_a : (withXmOpt f c m).a = f.a := rfl
@[simp] theorem withXmOpt_b : (withXmOpt f c m).b = f.b := rfl
@[simp] theorem withXmOpt_fn : (withXmOpt f c m).fn = f.fn := rfl
@[simp] theorem withXmOpt_maj : (withXmOpt f c m).maj = f.maj := rfl
@[simp] theorem withXmOpt_page : (withXmOpt f c m).page = f.page := rfl
@[simp] theorem withXmOpt_mod6 : (withXmOpt f c m).mod6 = f.mod6 := rfl
@[simp] theorem withXmOpt_dlo : (withXmOpt f c m).dlo = f.dlo := rfl
@[simp] theorem withXmOpt_alo : (withXmOpt f c m).alo = f.alo := rfl
@[simp] theorem withXmOpt_blo : (withXmOpt f c m).blo = f.blo := rfl
@[simp] theorem withXmOpt_dhi : (withXmOpt f c m).dhi = f.dhi := rfl
@[simp] theorem withXmOpt_ahi : (withXmOpt f c m).ahi = f.ahi := rfl
@[simp] theorem withXmOpt_bhi : (withXmOpt f c m).bhi = f.bhi := rfl
@[simp] theorem withXmOpt_fnhi : (withXmOpt f c m).fnhi = f.fnhi := rfl
@[simp] theorem withXmOpt_xi : (withXmOpt f c m).xi = f.xi := rfl
@[simp] theorem withXmOpt_c : (withXmOpt f c m).c = c := rfl
@[simp] theorem withXmOpt_creg : (withXmOpt f c m).creg = c.toFin := rfl
@[simp] theorem withXmOpt_mod5 : (withXmOpt f c m).mod5 = m := rfl
@[simp] theorem withXm_vm (x : VMod) : (withXm f c x.bits).vm = x := by
  obtain ⟨s, z, k⟩ := x; revert s z k; unfold Fields.vm VMod.bits; simp only [withXm_mod5]; decide
@[simp] theorem withXmOpt_vm (x : VMod) : (withXmOpt f c x.bits).vm = x := by
  obtain ⟨s, z, k⟩ := x; revert s z k; unfold Fields.vm VMod.bits; simp only [withXmOpt_mod5]; decide
end

/-! Operands. -/
@[simp] theorem h16_hbits (h : HReg) : Fields.h16 (hbits h).toFin = some h := by revert h; decide
@[simp] theorem k8_kbits (k : KReg) : Fields.k8 (kbits k).toFin = some k := by revert k; decide
@[simp] theorem ofCode_code (t : ElemType) : ElemType.ofCode t.code = some t := by cases t <;> rfl
@[simp] theorem combOfCode (x : CombOp) : CombOp.ofCode x.code = some x := by cases x <;> rfl

/-- The mod5 of a conversion. -/
def conv (sat : Bool) (ts : ElemType) : BitVec 5 := BitVec.ofBool sat ++ (ts.code.truncate 4 : BitVec 4)
theorem ts_of (f : Fields) (sat : Bool) (ts : ElemType) (h : f.mod5 = conv sat ts) :
    f.ts = some ts ∧ f.mod5.getLsbD 4 = sat := by
  unfold Fields.ts; rw [h]; cases ts <;> cases sat <;> exact ⟨rfl, rfl⟩

/-! B form, J form, numbers. -/
section
variable (k : BitVec 3) (a : BitVec 5) (v : BitVec 26) (l : Bool) (w : BitVec 31) (fn : BitVec 3)
@[simp] theorem mkB_ba : (mkB k a v).ba = a.toFin := by simp only [Fields.ba, Fields.dlo, mkB, mkR, baseR_d, join_hi_lo3]
@[simp] theorem mkB_alo : (mkB k a v).alo = k := by simp only [Fields.alo, mkB, baseR_a]
@[simp] theorem mkB_maj : (mkB k a v).maj = 0xC := by simp only [Fields.maj, mkB, baseR_maj]
@[simp] theorem mkB_imm26 : (mkB k a v).imm26 = v :=
  imm26_of _ v rfl (by simp only [Fields.imm6, mkB, baseR_imm, low6])
@[simp] theorem mkB_page : (mkB k a v).page = 0 := rfl
@[simp] theorem mkB_mod6 : (mkB k a v).mod6 = 0 := rfl
@[simp] theorem mkB_xm : (mkB k a v).xm = false := rfl
@[simp] theorem mkB_c : (mkB k a v).c = 0 := rfl
@[simp] theorem mkB_mod5 : (mkB k a v).mod5 = 0 := rfl
@[simp] theorem mkB_dhi : (mkB k a v).dhi = 0 := rfl
@[simp] theorem mkB_bhi : (mkB k a v).bhi = 0 := rfl
@[simp] theorem mkB_fnhi : (mkB k a v).fnhi = 0 := rfl
@[simp] theorem mkJ_maj : (mkJ l w).maj = 0xD := by
  simp only [Fields.maj, mkJ, Fields.ofBase]
  apply BitVec.eq_of_getLsbD_eq
  intro i h
  simp only [BitVec.getLsbD_append, BitVec.getLsbD_extractLsb']
  interval_cases i <;> rfl
@[simp] theorem mkJ_jl : (mkJ l w).jl = l := by
  simp only [Fields.jl, mkJ, Fields.ofBase, BitVec.getLsbD_append, BitVec.getLsbD_ofBool]
  simp
@[simp] theorem mkJ_imm31 : (mkJ l w).imm31 = w := by
  refine imm31_of _ w rfl ?_
  simp only [mkJ, Fields.ofBase]
  apply BitVec.eq_of_getLsbD_eq
  intro i h
  simp only [BitVec.getLsbD_append, BitVec.getLsbD_extractLsb']
  interval_cases i <;> simp
@[simp] theorem mkJ_page : (mkJ l w).page = 0 := rfl
@[simp] theorem mkJ_mod6 : (mkJ l w).mod6 = 0 := rfl
@[simp] theorem mkJ_xm : (mkJ l w).xm = false := rfl
@[simp] theorem mkJ_xr : (mkJ l w).xr = false := rfl
@[simp] theorem mkJ_c : (mkJ l w).c = 0 := rfl
@[simp] theorem mkJ_mod5 : (mkJ l w).mod5 = 0 := rfl
@[simp] theorem mkJ_dhi : (mkJ l w).dhi = 0 := rfl
@[simp] theorem mkJ_ahi : (mkJ l w).ahi = 0 := rfl
@[simp] theorem mkJ_bhi : (mkJ l w).bhi = 0 := rfl
@[simp] theorem mkJ_fnhi : (mkJ l w).fnhi = 0 := rfl
@[simp] theorem mkNdb_a : (mkNdb a v fn).a = a.toFin := by simp only [Fields.a, Fields.alo, mkNdb, mkR, baseR_a, join_hi_lo3]
@[simp] theorem mkNdb_maj : (mkNdb a v fn).maj = 0xE := by simp only [Fields.maj, mkNdb, baseR_maj]
@[simp] theorem mkNdb_fn : (mkNdb a v fn).fn = (0 : BitVec 4) ++ fn := by
  simp only [Fields.fn, Fields.fnlo, mkNdb, mkR, baseR_fn]; rfl
@[simp] theorem mkNdb_num : (mkNdb a v fn).num26db = v := by
  unfold Fields.num26db
  rw [show (mkNdb a v fn).dlo ++ (mkNdb a v fn).blo = v.truncate 6 by
    simp only [Fields.dlo, Fields.blo, mkNdb, baseR_d, baseR_b, low6]]
  exact widenU_of _ v rfl
@[simp] theorem mkNdb_page : (mkNdb a v fn).page = 0 := rfl
@[simp] theorem mkNdb_mod6 : (mkNdb a v fn).mod6 = 0 := rfl
@[simp] theorem mkNdb_xm : (mkNdb a v fn).xm = false := rfl
@[simp] theorem mkNdb_c : (mkNdb a v fn).c = 0 := rfl
@[simp] theorem mkNdb_mod5 : (mkNdb a v fn).mod5 = 0 := rfl
@[simp] theorem mkNdb_dhi : (mkNdb a v fn).dhi = 0 := rfl
@[simp] theorem mkNdb_bhi : (mkNdb a v fn).bhi = 0 := rfl
@[simp] theorem mkNdb_fnhi : (mkNdb a v fn).fnhi = 0 := rfl
@[simp] theorem mkNab_d : (mkNab a v fn).d = a.toFin := by simp only [Fields.d, Fields.dlo, mkNab, mkR, baseR_d, join_hi_lo3]
@[simp] theorem mkNab_maj : (mkNab a v fn).maj = 0xE := by simp only [Fields.maj, mkNab, baseR_maj]
@[simp] theorem mkNab_fn : (mkNab a v fn).fn = (0 : BitVec 4) ++ fn := by
  simp only [Fields.fn, Fields.fnlo, mkNab, mkR, baseR_fn]; rfl
@[simp] theorem mkNab_num : (mkNab a v fn).num26ab = v := by
  unfold Fields.num26ab
  rw [show (mkNab a v fn).alo ++ (mkNab a v fn).blo = v.truncate 6 by
    simp only [Fields.alo, Fields.blo, mkNab, baseR_a, baseR_b, low6]]
  exact widenU_of _ v rfl
@[simp] theorem mkNab_page : (mkNab a v fn).page = 0 := rfl
@[simp] theorem mkNab_mod6 : (mkNab a v fn).mod6 = 0 := rfl
@[simp] theorem mkNab_xm : (mkNab a v fn).xm = false := rfl
@[simp] theorem mkNab_c : (mkNab a v fn).c = 0 := rfl
@[simp] theorem mkNab_mod5 : (mkNab a v fn).mod5 = 0 := rfl
@[simp] theorem mkNab_ahi : (mkNab a v fn).ahi = 0 := rfl
@[simp] theorem mkNab_bhi : (mkNab a v fn).bhi = 0 := rfl
@[simp] theorem mkNab_fnhi : (mkNab a v fn).fnhi = 0 := rfl
@[simp] theorem csr_number (f : Fields) (n : Csr) : f.csr (n.number.zeroExtend 26) = some n := by cases n <;> rfl
end

section
variable (p : BitVec 4) (m : BitVec 6) (M : BitVec 4) (d a : BitVec 5)
/-- A number below 65,536 takes one widening word at most (R67, R79). -/
theorem xiU26_short (v : BitVec 26) (h : v.toNat < 65536) : ¬2 ≤ (xiU26 v).length := by
  unfold xiU26; split <;> simp
@[simp] theorem mkIU_bar (n : BarName) : (mkI p m M d a (xiU26 (BitVec.ofNat 26 n.val)) ((BitVec.ofNat 26 n.val).truncate 6)).bar = some n := by
  simp only [Fields.bar, mkI_imm6, mkI_widenU]
  have h : (BitVec.ofNat 26 n.val).toNat = n.val := by rw [BitVec.toNat_ofNat]; omega
  simp only [h]
  rw [if_neg (show ¬2 ≤ (mkI p m M d a (xiU26 (BitVec.ofNat 26 n.val)) _).xi.length from xiU26_short _ (by rw [h]; omega)), dif_pos n.isLt]
@[simp] theorem mkIU_off (o : BitVec 13) (h : o.toNat ≤ 4096) :
    (mkI p m M d a (xiU26 (o.zeroExtend 26)) ((o.zeroExtend 26).truncate 6)).off = some o := by
  simp only [Fields.off, mkI_imm6, mkI_widenU]
  have e : (o.zeroExtend 26).toNat = o.toNat := by
    simp only [BitVec.zeroExtend, BitVec.toNat_setWidth]; omega
  rw [if_neg (show ¬2 ≤ (mkI p m M d a (xiU26 (o.zeroExtend 26)) _).xi.length from xiU26_short _ (by rw [e]; omega)), e, if_pos h]
  congr 1
  apply BitVec.eq_of_toNat_eq
  simp only [BitVec.truncate, BitVec.zeroExtend, BitVec.toNat_setWidth]
  omega
@[simp] theorem mkIS_bank (n : Nat) (b : Reg) (h : n ≤ 32) :
    (mkI p m M d a (xiS26 (BitVec.ofNat 26 (32 * n + b.val))) ((BitVec.ofNat 26 (32 * n + b.val)).truncate 6)).bank =
      some (n, b) := by
  have hb := b.isLt
  simp only [Fields.bank, mkI_imm26]
  have e : (BitVec.ofNat 26 (32 * n + b.val)).toNat = 32 * n + b.val := by rw [BitVec.toNat_ofNat]; omega
  simp only [e]
  rw [if_pos (by omega)]
  congr 1
  refine Prod.ext ?_ (Fin.ext ?_) <;> simp only [] <;> omega
end

/-! Small operands, in the shape that the simplifier leaves them. -/
section
variable (p : BitVec 4) (m : BitVec 6) (M : BitVec 4) (d a : BitVec 5) (f : Fields) (c : BitVec 5)
@[simp] theorem mkI_sh (xi : List (BitVec 10)) (x : BitVec 6) : (mkI p m M d a xi x).sh = x.extractLsb' 0 5 := by
  simp only [Fields.sh, mkI, baseR]
  apply BitVec.eq_of_getLsbD_eq
  intro i h
  simp only [BitVec.getLsbD_append, BitVec.getLsbD_extractLsb']
  interval_cases i <;> simp
theorem shift_low (n : BitVec 5) : (BitVec.setWidth 6 n).extractLsb' 0 5 = n ∧ (1#1 ++ n).extractLsb' 0 5 = n ∧
    (1#1 ++ n)[5] = true := by revert n; decide
@[simp] theorem mkIU_bar' (n : BarName) :
    (mkI p m M d a (xiU26 (BitVec.ofNat 26 n.val)) (BitVec.ofNat 6 n.val)).bar = some n := by
  have e : BitVec.ofNat 6 n.val = (BitVec.ofNat 26 n.val).truncate 6 := by
    apply BitVec.eq_of_toNat_eq
    simp only [BitVec.truncate, BitVec.toNat_setWidth, BitVec.toNat_ofNat]; omega
  rw [e, mkIU_bar]
theorem mkIU_off' (o : BitVec 13) (h : o.toNat ≤ 4096) :
    (mkI p m M d a (xiU26 (BitVec.setWidth 26 o)) (BitVec.setWidth 6 o)).off = some o := by
  have e : BitVec.setWidth 6 o = (o.zeroExtend 26).truncate 6 := by
    apply BitVec.eq_of_toNat_eq
    simp only [BitVec.truncate, BitVec.zeroExtend, BitVec.toNat_setWidth]; omega
  rw [e]; exact mkIU_off p m M d a o h
theorem ofNat6 (x : Nat) : BitVec.ofNat 6 x = (BitVec.ofNat 26 x).truncate 6 := by
  apply BitVec.eq_of_toNat_eq
  simp only [BitVec.truncate, BitVec.toNat_setWidth, BitVec.toNat_ofNat]; omega
theorem mkIS_bank' (n : Nat) (b : Reg) (h : n ≤ 32) :
    (mkI p m M d a (xiS26 (BitVec.ofNat 26 (32 * n + b.val))) (BitVec.ofNat 6 (32 * n + b.val))).bank = some (n, b) := by
  rw [ofNat6]; exact mkIS_bank p m M d a n b h
@[simp] theorem conv_ts (sat : Bool) (ts : ElemType) : (withXmOpt f c (conv sat ts)).ts = some ts := (ts_of _ sat ts rfl).1
@[simp] theorem conv_sat (sat : Bool) (ts : ElemType) : (conv sat ts)[4] = sat := by cases ts <;> cases sat <;> rfl
/-- The mod5 of a combine and of a reduction. -/
def combMod (sat : Bool) (op : CombOp) : BitVec 5 := BitVec.ofBool sat ++ (0 : BitVec 1) ++ op.code
@[simp] theorem combMod_op (sat : Bool) (op : CombOp) : (combMod sat op).extractLsb' 0 3 = op.code := by cases sat <;> cases op <;> rfl
@[simp] theorem combMod_3 (sat : Bool) (op : CombOp) : (combMod sat op)[3] = false := by cases sat <;> cases op <;> rfl
@[simp] theorem combMod_4 (sat : Bool) (op : CombOp) : (combMod sat op)[4] = sat := by cases sat <;> cases op <;> rfl
def redMod (sat : Bool) (n : Fin 16) : BitVec 5 := BitVec.ofBool sat ++ (BitVec.ofFin n : BitVec 4)
@[simp] theorem redMod_4 (sat : Bool) (n : Fin 16) : (redMod sat n)[4] = sat := by revert sat n; decide
@[simp] theorem redMod_n (sat : Bool) (n : Fin 16) : (BitVec.extractLsb' 0 4 (redMod sat n)).toFin = n := by revert sat n; decide
theorem small5 (n : Fin 8) : BitVec.extractLsb' 3 2 (BitVec.ofNat 5 n.val) = 0#2 := by revert n; decide
theorem small6 (n : Fin 8) : BitVec.ofNat 6 n.val &&& 56#6 = 0#6 ∧ (BitVec.extractLsb' 0 3 (BitVec.ofNat 6 n.val)).toFin = n := by
  revert n; decide
end

end Sys2Proof.Laws
end

