-- ==== Sys2Proof/Laws/Memory.lean ====
section
/-! SUPPORT. Laws/Memory.lean: a read after a write, the canonical form, and that every memory operation keeps it (R43,
log 3). -/

namespace Sys2Proof.Machine

/-! Reads. -/

theorem Memory.read_append (m n : Memory) (a : Nat) (h : ∀ c ∈ m, c.1 ≠ a) : Memory.read (m ++ n) a = Memory.read n a := by
  induction m with
  | nil => rfl
  | cons c m ih =>
    obtain ⟨k, v⟩ := c
    have hk : k ≠ a := h (k, v) (by simp)
    simp only [List.cons_append, Memory.read, hk, if_false]
    exact ih fun c hc => h c (by simp [hc])

theorem Memory.read_of_absent (m : Memory) (a : Nat) (h : ∀ c ∈ m, c.1 ≠ a) : Memory.read m a = 0 := by
  simpa [Memory.read] using Memory.read_append m [] a h

theorem Memory.read_append_left (m n : Memory) (a : Nat) (h : ∀ c ∈ n, c.1 ≠ a) :
    Memory.read (m ++ n) a = Memory.read m a := by
  induction m with
  | nil => simpa [Memory.read] using Memory.read_of_absent n a h
  | cons c m ih => obtain ⟨k, v⟩ := c; simp only [List.cons_append, Memory.read, ih]

theorem Memory.read_filter (m : Memory) (p : Host.Cell → Bool) (a : Nat) (h : ∀ c ∈ m, c.1 = a → p c = true) :
    Memory.read (m.filter p) a = Memory.read m a := by
  induction m with
  | nil => rfl
  | cons c m ih =>
    obtain ⟨k, v⟩ := c
    have ih := ih fun c hc => h c (by simp [hc])
    by_cases hk : k = a
    · have hp : p (k, v) = true := h (k, v) (by simp) hk
      rw [List.filter_cons_of_pos hp]; simp [Memory.read, hk]
    · by_cases hp : p (k, v) = true <;> simp [hp, Memory.read, hk, ih]

theorem Memory.cells_key (a : Nat) (bs : List Byte) : ∀ c ∈ Memory.cells a bs, a ≤ c.1 ∧ c.1 < a + bs.length := by
  induction bs generalizing a with
  | nil => simp [Memory.cells]
  | cons b bs ih =>
    intro c hc
    have tail : c ∈ Memory.cells (a + 1) bs → a ≤ c.1 ∧ c.1 < a + (b :: bs).length := fun h => by
      have := ih (a + 1) c h; simp only [List.length_cons]; omega
    simp only [Memory.cells] at hc
    split at hc
    · exact tail hc
    · rcases List.mem_cons.mp hc with rfl | h
      · simp
      · exact tail h

theorem Memory.read_cells (a : Nat) (bs : List Byte) (i : Nat) (h : i < bs.length) :
    Memory.read (Memory.cells a bs) (a + i) = bs[i] := by
  induction bs generalizing a i with
  | nil => simp at h
  | cons b bs ih =>
    cases i with
    | zero =>
      by_cases hb : b = 0
      · subst hb
        have := Memory.read_of_absent (Memory.cells (a + 1) bs) a fun c hc => by
          have := Memory.cells_key _ _ c hc; omega
        simpa [Memory.cells] using this
      · simp only [Memory.cells, if_neg hb]; simp [Memory.read]
    | succ i =>
      have := ih (a + 1) i (by simpa using h)
      have e : a + (i + 1) = a + 1 + i := by omega
      by_cases hb : b = 0
      · simpa [Memory.cells, hb, e] using this
      · have : a ≠ a + 1 + i := by omega
        simp only [Memory.cells, hb, if_false, e, Memory.read, this, List.getElem_cons_succ]
        assumption

/-- A byte that a store wrote. -/
theorem Memory.read_writeBytes_inside (m : Memory) (a : Nat) (bs : List Byte) (i : Nat) (h : i < bs.length) :
    Memory.read (m.writeBytes a bs) (a + i) = bs[i] := by
  unfold Memory.writeBytes
  rw [Memory.read_append_left, Memory.read_append, Memory.read_cells _ _ _ h]
  · intro c hc
    simp only [List.mem_filter, decide_eq_true_eq] at hc; omega
  · intro c hc
    simp only [List.mem_filter, decide_eq_true_eq] at hc; omega

/-- A byte outside a store reads as before. -/
theorem Memory.read_writeBytes_outside (m : Memory) (a : Nat) (bs : List Byte) (x : Nat) (h : x < a ∨ a + bs.length ≤ x) :
    Memory.read (m.writeBytes a bs) x = Memory.read m x := by
  unfold Memory.writeBytes
  have hk := Memory.cells_key a bs
  rcases h with h | h
  · rw [Memory.read_append_left, Memory.read_append_left, Memory.read_filter]
    · intro c _ hc; simp; omega
    · intro c hc; have := hk c hc; omega
    · intro c hc; simp only [List.mem_filter, decide_eq_true_eq] at hc; omega
  · rw [Memory.read_append, Memory.read_filter]
    · intro c _ hc; simp; omega
    · intro c hc
      rcases List.mem_append.mp hc with hc | hc
      · simp only [List.mem_filter, decide_eq_true_eq] at hc; omega
      · have := hk c hc; omega

/-- A store, byte by byte. -/
theorem Memory.read_writeBytes (m : Memory) (a : Nat) (bs : List Byte) (x : Nat) :
    Memory.read (m.writeBytes a bs) x =
      if h : a ≤ x ∧ x < a + bs.length then bs[x - a]'(by omega) else Memory.read m x := by
  split
  · rename_i h
    have r := Memory.read_writeBytes_inside m a bs (x - a) (by omega)
    rwa [show a + (x - a) = x by omega] at r
  · rename_i h
    exact Memory.read_writeBytes_outside m a bs x (by omega)

theorem Memory.readBytes_length (m : Memory) (a n : Nat) : (m.readBytes a n).length = n := by simp [Memory.readBytes]

theorem Memory.readBytes_getElem (m : Memory) (a n i : Nat) (h : i < (m.readBytes a n).length) :
    (m.readBytes a n)[i] = m.read (a + i) := by simp [Memory.readBytes]

/-- Reading back what a store wrote. -/
theorem Memory.readBytes_writeBytes (m : Memory) (a : Nat) (bs : List Byte) :
    (m.writeBytes a bs).readBytes a bs.length = bs := by
  apply List.ext_getElem (by simp [Memory.readBytes])
  intro i h1 h2
  rw [Memory.readBytes_getElem, Memory.read_writeBytes_inside _ _ _ _ h2]

/-! The canonical form. -/

theorem Memory.wf_iff (m : Memory) : m.wf = true ↔ m.Pairwise (fun c d => c.1 < d.1) ∧ ∀ c ∈ m, c.2 ≠ 0 := by
  induction m with
  | nil => simp [Memory.wf]
  | cons c m ih =>
    obtain ⟨a, b⟩ := c
    cases m with
    | nil => simp [Memory.wf]
    | cons d m =>
      have step : Memory.wf ((a, b) :: d :: m) = (b != 0 && decide (a < d.1) && Memory.wf (d :: m)) := rfl
      rw [step, Bool.and_eq_true, Bool.and_eq_true, bne_iff_ne, decide_eq_true_eq, ih, List.pairwise_cons (a := (a, b))]
      constructor
      · rintro ⟨⟨hb, hd⟩, hp, hz⟩
        refine ⟨⟨fun e he => ?_, hp⟩, fun e he => ?_⟩
        · rcases List.mem_cons.mp he with rfl | he
          · exact hd
          · exact Nat.lt_trans hd ((List.pairwise_cons.mp hp).1 e he)
        · rcases List.mem_cons.mp he with rfl | he
          · exact hb
          · exact hz e he
      · rintro ⟨⟨hd, hp⟩, hz⟩
        exact ⟨⟨hz (a, b) (by simp), hd d (by simp)⟩, hp, fun e he => hz e (by simp [he])⟩

theorem Memory.cells_wf (a : Nat) (bs : List Byte) :
    (Memory.cells a bs).Pairwise (fun c d => c.1 < d.1) ∧ ∀ c ∈ Memory.cells a bs, c.2 ≠ 0 := by
  induction bs generalizing a with
  | nil => simp [Memory.cells]
  | cons b bs ih =>
    simp only [Memory.cells]
    split
    · exact ih (a + 1)
    · next hb =>
      refine ⟨List.pairwise_cons.mpr ⟨fun c hc => ?_, (ih (a + 1)).1⟩, fun c hc => ?_⟩
      · have := Memory.cells_key _ _ c hc
        exact this.1
      · rcases List.mem_cons.mp hc with rfl | h
        · exact hb
        · exact (ih (a + 1)).2 c h

/-- A store keeps the canonical form. -/
theorem Memory.writeBytes_wf (m : Memory) (a : Nat) (bs : List Byte) (h : m.wf = true) : (m.writeBytes a bs).wf = true := by
  rw [Memory.wf_iff] at h ⊢
  obtain ⟨hp, hz⟩ := h
  have hk := Memory.cells_key a bs
  have hc := Memory.cells_wf a bs
  unfold Memory.writeBytes
  constructor
  · rw [List.pairwise_append, List.pairwise_append]
    refine ⟨⟨hp.filter _, hc.1, ?_⟩, hp.filter _, ?_⟩
    · intro c h1 d h2
      have := hk d h2
      simp only [List.mem_filter, decide_eq_true_eq] at h1; omega
    · intro c h1 d h2
      simp only [List.mem_filter, decide_eq_true_eq] at h2
      rcases List.mem_append.mp h1 with h1 | h1
      · simp only [List.mem_filter, decide_eq_true_eq] at h1; omega
      · have := hk c h1; omega
  · intro c hc'
    simp only [List.mem_append, List.mem_filter] at hc'
    rcases hc' with (⟨h1, _⟩ | h1) | ⟨h1, _⟩
    · exact hz c h1
    · exact hc.2 c h1
    · exact hz c h1

/-- Memories in canonical form that read alike are one. -/
theorem Memory.ext (m n : Memory) (hm : m.wf = true) (hn : n.wf = true) (h : ∀ a, m.read a = n.read a) : m = n := by
  rw [Memory.wf_iff] at hm hn
  obtain ⟨pm, zm⟩ := hm
  obtain ⟨pn, zn⟩ := hn
  induction m generalizing n with
  | nil =>
    cases n with
    | nil => rfl
    | cons d n => have := h d.1; simp [Memory.read] at this; exact absurd this.symm (zn d (by simp))
  | cons c m ih =>
    cases n with
    | nil => have := h c.1; simp [Memory.read] at this; exact absurd this (zm c (by simp))
    | cons d n =>
      rw [List.pairwise_cons] at pm pn
      have key : c.1 = d.1 := by
        rcases Nat.lt_trichotomy c.1 d.1 with hlt | heq | hgt
        · have e := h c.1
          rw [Memory.read_of_absent (d :: n) c.1] at e
          · simp [Memory.read] at e; exact absurd e (zm c (by simp))
          · rintro x hx
            rcases List.mem_cons.mp hx with rfl | hx
            · omega
            · have := pn.1 x hx; omega
        · exact heq
        · have e := h d.1
          rw [Memory.read_of_absent (c :: m) d.1] at e
          · simp [Memory.read] at e; exact absurd e.symm (zn d (by simp))
          · rintro x hx
            rcases List.mem_cons.mp hx with rfl | hx
            · omega
            · have := pm.1 x hx; omega
      have val : c.2 = d.2 := by have := h c.1; simpa [Memory.read, key] using this
      have hcd : c = d := Prod.ext key val
      subst hcd
      congr 1
      refine ih n (fun a => ?_) pm.2 (fun x hx => zm x (List.mem_cons_of_mem _ hx)) pn.2
        fun x hx => zn x (List.mem_cons_of_mem _ hx)
      have e := h a
      by_cases ha : c.1 = a
      · subst ha
        rw [Memory.read_of_absent m, Memory.read_of_absent n]
        · intro x hx; have := pn.1 x hx; omega
        · intro x hx; have := pm.1 x hx; omega
      · simpa [Memory.read, ha] using e

end Sys2Proof.Machine
end

