-- ==== Sys2Proof/Laws/State.lean ====
section
/-! SUPPORT. Laws/State.lean: one lemma for each field and each named update of the state: what the update makes of
the field. No later proof unfolds a record update. -/

namespace Sys2Proof.Machine

variable (s : State)

/-! setReg -/

@[simp] theorem State.setReg_run (r : Reg) (x : Word) : (s.setReg r x).c.run = s.c.run := by unfold State.setReg; split <;> rfl
@[simp] theorem State.setReg_lid (r : Reg) (x : Word) : (s.setReg r x).c.lid = s.c.lid := by unfold State.setReg; split <;> rfl
@[simp] theorem State.setReg_s (r : Reg) (x : Word) : (s.setReg r x).c.s = (if r = 0 then s.c.s else s.c.s.set r x) := by unfold State.setReg; split <;> rfl
@[simp] theorem State.setReg_v (r : Reg) (x : Word) : (s.setReg r x).c.v = s.c.v := by unfold State.setReg; split <;> rfl
@[simp] theorem State.setReg_k (r : Reg) (x : Word) : (s.setReg r x).c.k = s.c.k := by unfold State.setReg; split <;> rfl
@[simp] theorem State.setReg_h (r : Reg) (x : Word) : (s.setReg r x).c.h = s.c.h := by unfold State.setReg; split <;> rfl
@[simp] theorem State.setReg_pc (r : Reg) (x : Word) : (s.setReg r x).c.pc = s.c.pc := by unfold State.setReg; split <;> rfl
@[simp] theorem State.setReg_status (r : Reg) (x : Word) : (s.setReg r x).c.status = s.c.status := by unfold State.setReg; split <;> rfl
@[simp] theorem State.setReg_tvec (r : Reg) (x : Word) : (s.setReg r x).c.tvec = s.c.tvec := by unfold State.setReg; split <;> rfl
@[simp] theorem State.setReg_epc (r : Reg) (x : Word) : (s.setReg r x).c.epc = s.c.epc := by unfold State.setReg; split <;> rfl
@[simp] theorem State.setReg_cause (r : Reg) (x : Word) : (s.setReg r x).c.cause = s.c.cause := by unfold State.setReg; split <;> rfl
@[simp] theorem State.setReg_eaddr (r : Reg) (x : Word) : (s.setReg r x).c.eaddr = s.c.eaddr := by unfold State.setReg; split <;> rfl
@[simp] theorem State.setReg_eword (r : Reg) (x : Word) : (s.setReg r x).c.eword = s.c.eword := by unfold State.setReg; split <;> rfl
@[simp] theorem State.setReg_scratch (r : Reg) (x : Word) : (s.setReg r x).c.scratch = s.c.scratch := by unfold State.setReg; split <;> rfl
@[simp] theorem State.setReg_lcore (r : Reg) (x : Word) : (s.setReg r x).c.lcore = s.c.lcore := by unfold State.setReg; split <;> rfl
@[simp] theorem State.setReg_ncore (r : Reg) (x : Word) : (s.setReg r x).c.ncore = s.c.ncore := by unfold State.setReg; split <;> rfl
@[simp] theorem State.setReg_part (r : Reg) (x : Word) : (s.setReg r x).c.part = s.c.part := by unfold State.setReg; split <;> rfl
@[simp] theorem State.setReg_phase (r : Reg) (x : Word) : (s.setReg r x).c.phase = s.c.phase := by unfold State.setReg; split <;> rfl
@[simp] theorem State.setReg_lphase (r : Reg) (x : Word) : (s.setReg r x).c.lphase = s.c.lphase := by unfold State.setReg; split <;> rfl
@[simp] theorem State.setReg_stragg (r : Reg) (x : Word) : (s.setReg r x).c.stragg = s.c.stragg := by unfold State.setReg; split <;> rfl
@[simp] theorem State.setReg_xerr (r : Reg) (x : Word) : (s.setReg r x).c.xerr = s.c.xerr := by unfold State.setReg; split <;> rfl
@[simp] theorem State.setReg_xmiss (r : Reg) (x : Word) : (s.setReg r x).c.xmiss = s.c.xmiss := by unfold State.setReg; split <;> rfl
@[simp] theorem State.setReg_cyc (r : Reg) (x : Word) : (s.setReg r x).c.cyc = s.c.cyc := by unfold State.setReg; split <;> rfl
@[simp] theorem State.setReg_cycLatch (r : Reg) (x : Word) : (s.setReg r x).c.cycLatch = s.c.cycLatch := by unfold State.setReg; split <;> rfl
@[simp] theorem State.setReg_fmode (r : Reg) (x : Word) : (s.setReg r x).c.fmode = s.c.fmode := by unfold State.setReg; split <;> rfl
@[simp] theorem State.setReg_sbase (r : Reg) (x : Word) : (s.setReg r x).c.sbase = s.c.sbase := by unfold State.setReg; split <;> rfl
@[simp] theorem State.setReg_launch (r : Reg) (x : Word) : (s.setReg r x).c.launch = s.c.launch := by unfold State.setReg; split <;> rfl
@[simp] theorem State.setReg_mcheck (r : Reg) (x : Word) : (s.setReg r x).c.mcheck = s.c.mcheck := by unfold State.setReg; split <;> rfl
@[simp] theorem State.setReg_accmap (r : Reg) (x : Word) : (s.setReg r x).c.accmap = s.c.accmap := by unfold State.setReg; split <;> rfl
@[simp] theorem State.setReg_spillmap (r : Reg) (x : Word) : (s.setReg r x).c.spillmap = s.c.spillmap := by unfold State.setReg; split <;> rfl
@[simp] theorem State.setReg_vpcfg (r : Reg) (x : Word) : (s.setReg r x).c.vpcfg = s.c.vpcfg := by unfold State.setReg; split <;> rfl
@[simp] theorem State.setReg_vpst (r : Reg) (x : Word) : (s.setReg r x).c.vpst = s.c.vpst := by unfold State.setReg; split <;> rfl
@[simp] theorem State.setReg_ecfg (r : Reg) (x : Word) : (s.setReg r x).c.ecfg = s.c.ecfg := by unfold State.setReg; split <;> rfl
@[simp] theorem State.setReg_loopU (r : Reg) (x : Word) : (s.setReg r x).c.loopU = s.c.loopU := by unfold State.setReg; split <;> rfl
@[simp] theorem State.setReg_loopS (r : Reg) (x : Word) : (s.setReg r x).c.loopS = s.c.loopS := by unfold State.setReg; split <;> rfl
@[simp] theorem State.setReg_mem (r : Reg) (x : Word) : (s.setReg r x).c.mem = s.c.mem := by unfold State.setReg; split <;> rfl
@[simp] theorem State.setReg_memErr (r : Reg) (x : Word) : (s.setReg r x).c.memErr = s.c.memErr := by unfold State.setReg; split <;> rfl
@[simp] theorem State.setReg_stale (r : Reg) (x : Word) : (s.setReg r x).c.stale = s.c.stale := by unfold State.setReg; split <;> rfl
@[simp] theorem State.setReg_acc (r : Reg) (x : Word) : (s.setReg r x).c.acc = s.c.acc := by unfold State.setReg; split <;> rfl
@[simp] theorem State.setReg_accErr (r : Reg) (x : Word) : (s.setReg r x).c.accErr = s.c.accErr := by unfold State.setReg; split <;> rfl
@[simp] theorem State.setReg_parked (r : Reg) (x : Word) : (s.setReg r x).c.parked = s.c.parked := by unfold State.setReg; split <;> rfl
@[simp] theorem State.setReg_bar (r : Reg) (x : Word) : (s.setReg r x).c.bar = s.c.bar := by unfold State.setReg; split <;> rfl
@[simp] theorem State.setReg_cycleBar (r : Reg) (x : Word) : (s.setReg r x).c.cycleBar = s.c.cycleBar := by unfold State.setReg; split <;> rfl
@[simp] theorem State.setReg_mbox (r : Reg) (x : Word) : (s.setReg r x).c.mbox = s.c.mbox := by unfold State.setReg; split <;> rfl
@[simp] theorem State.setReg_mboxHead (r : Reg) (x : Word) : (s.setReg r x).c.mboxHead = s.c.mboxHead := by unfold State.setReg; split <;> rfl
@[simp] theorem State.setReg_mboxCount (r : Reg) (x : Word) : (s.setReg r x).c.mboxCount = s.c.mboxCount := by unfold State.setReg; split <;> rfl
@[simp] theorem State.setReg_held (r : Reg) (x : Word) : (s.setReg r x).c.held = s.c.held := by unfold State.setReg; split <;> rfl
@[simp] theorem State.setReg_mon (r : Reg) (x : Word) : (s.setReg r x).c.mon = s.c.mon := by unfold State.setReg; split <;> rfl
@[simp] theorem State.setReg_mx (r : Reg) (x : Word) : (s.setReg r x).c.mx = s.c.mx := by unfold State.setReg; split <;> rfl
@[simp] theorem State.setReg_mxStatus (r : Reg) (x : Word) : (s.setReg r x).c.mxStatus = s.c.mxStatus := by unfold State.setReg; split <;> rfl
@[simp] theorem State.setReg_head (r : Reg) (x : Word) : (s.setReg r x).c.head = s.c.head := by unfold State.setReg; split <;> rfl
@[simp] theorem State.setReg_headStatus (r : Reg) (x : Word) : (s.setReg r x).c.headStatus = s.c.headStatus := by unfold State.setReg; split <;> rfl
@[simp] theorem State.setReg_dir (r : Reg) (x : Word) : (s.setReg r x).c.dir = s.c.dir := by unfold State.setReg; split <;> rfl
@[simp] theorem State.setReg_copy (r : Reg) (x : Word) : (s.setReg r x).c.copy = s.c.copy := by unfold State.setReg; split <;> rfl
@[simp] theorem State.setReg_cfence (r : Reg) (x : Word) : (s.setReg r x).c.cfence = s.c.cfence := by unfold State.setReg; split <;> rfl
@[simp] theorem State.setReg_e0 (r : Reg) (x : Word) : (s.setReg r x).c.e0 = s.c.e0 := by unfold State.setReg; split <;> rfl
@[simp] theorem State.setReg_e1 (r : Reg) (x : Word) : (s.setReg r x).c.e1 = s.c.e1 := by unfold State.setReg; split <;> rfl
@[simp] theorem State.setReg_e2 (r : Reg) (x : Word) : (s.setReg r x).c.e2 = s.c.e2 := by unfold State.setReg; split <;> rfl
@[simp] theorem State.setReg_copyDone (r : Reg) (x : Word) : (s.setReg r x).c.copyDone = s.c.copyDone := by unfold State.setReg; split <;> rfl
@[simp] theorem State.setReg_arr (r : Reg) (x : Word) : (s.setReg r x).c.arr = s.c.arr := by unfold State.setReg; split <;> rfl
@[simp] theorem State.setReg_done (r : Reg) (x : Word) : (s.setReg r x).c.done = s.c.done := by unfold State.setReg; split <;> rfl
@[simp] theorem State.setReg_redNum (r : Reg) (x : Word) : (s.setReg r x).c.redNum = s.c.redNum := by unfold State.setReg; split <;> rfl
@[simp] theorem State.setReg_deferred (r : Reg) (x : Word) : (s.setReg r x).c.deferred = s.c.deferred := by unfold State.setReg; split <;> rfl
@[simp] theorem State.setReg_fetchStop (r : Reg) (x : Word) : (s.setReg r x).c.fetchStop = s.c.fetchStop := by unfold State.setReg; split <;> rfl
@[simp] theorem State.setReg_exch (r : Reg) (x : Word) : (s.setReg r x).c.exch = s.c.exch := by unfold State.setReg; split <;> rfl
@[simp] theorem State.setReg_pend (r : Reg) (x : Word) : (s.setReg r x).c.pend = s.c.pend := by unfold State.setReg; split <;> rfl
@[simp] theorem State.setReg_stall (r : Reg) (x : Word) : (s.setReg r x).c.stall = s.c.stall := by unfold State.setReg; split <;> rfl
@[simp] theorem State.setReg_issue (r : Reg) (x : Word) : (s.setReg r x).c.issue = s.c.issue := by unfold State.setReg; split <;> rfl
@[simp] theorem State.setReg_evSeq (r : Reg) (x : Word) : (s.setReg r x).c.evSeq = s.c.evSeq := by unfold State.setReg; split <;> rfl
@[simp] theorem State.setReg_asid (r : Reg) (x : Word) : (s.setReg r x).c.asid = s.c.asid := by unfold State.setReg; split <;> rfl
@[simp] theorem State.setReg_sh_top (r : Reg) (x : Word) : (s.setReg r x).sh = s.sh := by unfold State.setReg; split <;> rfl
@[simp] theorem State.setReg_half_top (r : Reg) (x : Word) : (s.setReg r x).half = s.half := by unfold State.setReg; split <;> rfl
@[simp] theorem State.setReg_t_top (r : Reg) (x : Word) : (s.setReg r x).t = s.t := by unfold State.setReg; split <;> rfl
@[simp] theorem State.setReg_p_top (r : Reg) (x : Word) : (s.setReg r x).p = s.p := by unfold State.setReg; split <;> rfl
@[simp] theorem State.setReg_others_top (r : Reg) (x : Word) : (s.setReg r x).others = s.others := by unfold State.setReg; split <;> rfl
@[simp] theorem State.setReg_chip_top (r : Reg) (x : Word) : (s.setReg r x).chip = s.chip := by unfold State.setReg; split <;> rfl
@[simp] theorem State.setReg_boundary_top (r : Reg) (x : Word) : (s.setReg r x).boundary = s.boundary := by unfold State.setReg; split <;> rfl
@[simp] theorem State.setReg_xc_top (r : Reg) (x : Word) : (s.setReg r x).xc = s.xc := by unfold State.setReg; split <;> rfl
@[simp] theorem State.setReg_cc_top (r : Reg) (x : Word) : (s.setReg r x).cc = s.cc := by unfold State.setReg; split <;> rfl
@[simp] theorem State.setReg_ir_top (r : Reg) (x : Word) : (s.setReg r x).ir = s.ir := by unfold State.setReg; split <;> rfl
@[simp] theorem State.setReg_row_top (r : Reg) (x : Word) : (s.setReg r x).row = s.row := by unfold State.setReg; split <;> rfl
@[simp] theorem State.setReg_stream_top (r : Reg) (x : Word) : (s.setReg r x).stream = s.stream := by unfold State.setReg; split <;> rfl
@[simp] theorem State.setReg_input_top (r : Reg) (x : Word) : (s.setReg r x).input = s.input := by unfold State.setReg; split <;> rfl
@[simp] theorem State.setReg_agenda_top (r : Reg) (x : Word) : (s.setReg r x).agenda = s.agenda := by unfold State.setReg; split <;> rfl
@[simp] theorem State.setReg_out_top (r : Reg) (x : Word) : (s.setReg r x).out = s.out := by unfold State.setReg; split <;> rfl
@[simp] theorem State.setReg_turn_top (r : Reg) (x : Word) : (s.setReg r x).turn = s.turn := by unfold State.setReg; split <;> rfl
@[simp] theorem State.setReg_tick_top (r : Reg) (x : Word) : (s.setReg r x).tick = s.tick := by unfold State.setReg; split <;> rfl

/-! setV -/

@[simp] theorem State.setV_run (r : Reg) (x : VWord) : (s.setV r x).c.run = s.c.run := rfl
@[simp] theorem State.setV_lid (r : Reg) (x : VWord) : (s.setV r x).c.lid = s.c.lid := rfl
@[simp] theorem State.setV_s (r : Reg) (x : VWord) : (s.setV r x).c.s = s.c.s := rfl
@[simp] theorem State.setV_v (r : Reg) (x : VWord) : (s.setV r x).c.v = s.c.v.set r x := rfl
@[simp] theorem State.setV_k (r : Reg) (x : VWord) : (s.setV r x).c.k = s.c.k := rfl
@[simp] theorem State.setV_h (r : Reg) (x : VWord) : (s.setV r x).c.h = s.c.h := rfl
@[simp] theorem State.setV_pc (r : Reg) (x : VWord) : (s.setV r x).c.pc = s.c.pc := rfl
@[simp] theorem State.setV_status (r : Reg) (x : VWord) : (s.setV r x).c.status = s.c.status := rfl
@[simp] theorem State.setV_tvec (r : Reg) (x : VWord) : (s.setV r x).c.tvec = s.c.tvec := rfl
@[simp] theorem State.setV_epc (r : Reg) (x : VWord) : (s.setV r x).c.epc = s.c.epc := rfl
@[simp] theorem State.setV_cause (r : Reg) (x : VWord) : (s.setV r x).c.cause = s.c.cause := rfl
@[simp] theorem State.setV_eaddr (r : Reg) (x : VWord) : (s.setV r x).c.eaddr = s.c.eaddr := rfl
@[simp] theorem State.setV_eword (r : Reg) (x : VWord) : (s.setV r x).c.eword = s.c.eword := rfl
@[simp] theorem State.setV_scratch (r : Reg) (x : VWord) : (s.setV r x).c.scratch = s.c.scratch := rfl
@[simp] theorem State.setV_lcore (r : Reg) (x : VWord) : (s.setV r x).c.lcore = s.c.lcore := rfl
@[simp] theorem State.setV_ncore (r : Reg) (x : VWord) : (s.setV r x).c.ncore = s.c.ncore := rfl
@[simp] theorem State.setV_part (r : Reg) (x : VWord) : (s.setV r x).c.part = s.c.part := rfl
@[simp] theorem State.setV_phase (r : Reg) (x : VWord) : (s.setV r x).c.phase = s.c.phase := rfl
@[simp] theorem State.setV_lphase (r : Reg) (x : VWord) : (s.setV r x).c.lphase = s.c.lphase := rfl
@[simp] theorem State.setV_stragg (r : Reg) (x : VWord) : (s.setV r x).c.stragg = s.c.stragg := rfl
@[simp] theorem State.setV_xerr (r : Reg) (x : VWord) : (s.setV r x).c.xerr = s.c.xerr := rfl
@[simp] theorem State.setV_xmiss (r : Reg) (x : VWord) : (s.setV r x).c.xmiss = s.c.xmiss := rfl
@[simp] theorem State.setV_cyc (r : Reg) (x : VWord) : (s.setV r x).c.cyc = s.c.cyc := rfl
@[simp] theorem State.setV_cycLatch (r : Reg) (x : VWord) : (s.setV r x).c.cycLatch = s.c.cycLatch := rfl
@[simp] theorem State.setV_fmode (r : Reg) (x : VWord) : (s.setV r x).c.fmode = s.c.fmode := rfl
@[simp] theorem State.setV_sbase (r : Reg) (x : VWord) : (s.setV r x).c.sbase = s.c.sbase := rfl
@[simp] theorem State.setV_launch (r : Reg) (x : VWord) : (s.setV r x).c.launch = s.c.launch := rfl
@[simp] theorem State.setV_mcheck (r : Reg) (x : VWord) : (s.setV r x).c.mcheck = s.c.mcheck := rfl
@[simp] theorem State.setV_accmap (r : Reg) (x : VWord) : (s.setV r x).c.accmap = s.c.accmap := rfl
@[simp] theorem State.setV_spillmap (r : Reg) (x : VWord) : (s.setV r x).c.spillmap = s.c.spillmap := rfl
@[simp] theorem State.setV_vpcfg (r : Reg) (x : VWord) : (s.setV r x).c.vpcfg = s.c.vpcfg := rfl
@[simp] theorem State.setV_vpst (r : Reg) (x : VWord) : (s.setV r x).c.vpst = s.c.vpst := rfl
@[simp] theorem State.setV_ecfg (r : Reg) (x : VWord) : (s.setV r x).c.ecfg = s.c.ecfg := rfl
@[simp] theorem State.setV_loopU (r : Reg) (x : VWord) : (s.setV r x).c.loopU = s.c.loopU := rfl
@[simp] theorem State.setV_loopS (r : Reg) (x : VWord) : (s.setV r x).c.loopS = s.c.loopS := rfl
@[simp] theorem State.setV_mem (r : Reg) (x : VWord) : (s.setV r x).c.mem = s.c.mem := rfl
@[simp] theorem State.setV_memErr (r : Reg) (x : VWord) : (s.setV r x).c.memErr = s.c.memErr := rfl
@[simp] theorem State.setV_stale (r : Reg) (x : VWord) : (s.setV r x).c.stale = s.c.stale := rfl
@[simp] theorem State.setV_acc (r : Reg) (x : VWord) : (s.setV r x).c.acc = s.c.acc := rfl
@[simp] theorem State.setV_accErr (r : Reg) (x : VWord) : (s.setV r x).c.accErr = s.c.accErr := rfl
@[simp] theorem State.setV_parked (r : Reg) (x : VWord) : (s.setV r x).c.parked = s.c.parked := rfl
@[simp] theorem State.setV_bar (r : Reg) (x : VWord) : (s.setV r x).c.bar = s.c.bar := rfl
@[simp] theorem State.setV_cycleBar (r : Reg) (x : VWord) : (s.setV r x).c.cycleBar = s.c.cycleBar := rfl
@[simp] theorem State.setV_mbox (r : Reg) (x : VWord) : (s.setV r x).c.mbox = s.c.mbox := rfl
@[simp] theorem State.setV_mboxHead (r : Reg) (x : VWord) : (s.setV r x).c.mboxHead = s.c.mboxHead := rfl
@[simp] theorem State.setV_mboxCount (r : Reg) (x : VWord) : (s.setV r x).c.mboxCount = s.c.mboxCount := rfl
@[simp] theorem State.setV_held (r : Reg) (x : VWord) : (s.setV r x).c.held = s.c.held := rfl
@[simp] theorem State.setV_mon (r : Reg) (x : VWord) : (s.setV r x).c.mon = s.c.mon := rfl
@[simp] theorem State.setV_mx (r : Reg) (x : VWord) : (s.setV r x).c.mx = s.c.mx := rfl
@[simp] theorem State.setV_mxStatus (r : Reg) (x : VWord) : (s.setV r x).c.mxStatus = s.c.mxStatus := rfl
@[simp] theorem State.setV_head (r : Reg) (x : VWord) : (s.setV r x).c.head = s.c.head := rfl
@[simp] theorem State.setV_headStatus (r : Reg) (x : VWord) : (s.setV r x).c.headStatus = s.c.headStatus := rfl
@[simp] theorem State.setV_dir (r : Reg) (x : VWord) : (s.setV r x).c.dir = s.c.dir := rfl
@[simp] theorem State.setV_copy (r : Reg) (x : VWord) : (s.setV r x).c.copy = s.c.copy := rfl
@[simp] theorem State.setV_cfence (r : Reg) (x : VWord) : (s.setV r x).c.cfence = s.c.cfence := rfl
@[simp] theorem State.setV_e0 (r : Reg) (x : VWord) : (s.setV r x).c.e0 = s.c.e0 := rfl
@[simp] theorem State.setV_e1 (r : Reg) (x : VWord) : (s.setV r x).c.e1 = s.c.e1 := rfl
@[simp] theorem State.setV_e2 (r : Reg) (x : VWord) : (s.setV r x).c.e2 = s.c.e2 := rfl
@[simp] theorem State.setV_copyDone (r : Reg) (x : VWord) : (s.setV r x).c.copyDone = s.c.copyDone := rfl
@[simp] theorem State.setV_arr (r : Reg) (x : VWord) : (s.setV r x).c.arr = s.c.arr := rfl
@[simp] theorem State.setV_done (r : Reg) (x : VWord) : (s.setV r x).c.done = s.c.done := rfl
@[simp] theorem State.setV_redNum (r : Reg) (x : VWord) : (s.setV r x).c.redNum = s.c.redNum := rfl
@[simp] theorem State.setV_deferred (r : Reg) (x : VWord) : (s.setV r x).c.deferred = s.c.deferred := rfl
@[simp] theorem State.setV_fetchStop (r : Reg) (x : VWord) : (s.setV r x).c.fetchStop = s.c.fetchStop := rfl
@[simp] theorem State.setV_exch (r : Reg) (x : VWord) : (s.setV r x).c.exch = s.c.exch := rfl
@[simp] theorem State.setV_pend (r : Reg) (x : VWord) : (s.setV r x).c.pend = s.c.pend := rfl
@[simp] theorem State.setV_stall (r : Reg) (x : VWord) : (s.setV r x).c.stall = s.c.stall := rfl
@[simp] theorem State.setV_issue (r : Reg) (x : VWord) : (s.setV r x).c.issue = s.c.issue := rfl
@[simp] theorem State.setV_evSeq (r : Reg) (x : VWord) : (s.setV r x).c.evSeq = s.c.evSeq := rfl
@[simp] theorem State.setV_asid (r : Reg) (x : VWord) : (s.setV r x).c.asid = s.c.asid := rfl
@[simp] theorem State.setV_sh_top (r : Reg) (x : VWord) : (s.setV r x).sh = s.sh := rfl
@[simp] theorem State.setV_half_top (r : Reg) (x : VWord) : (s.setV r x).half = s.half := rfl
@[simp] theorem State.setV_t_top (r : Reg) (x : VWord) : (s.setV r x).t = s.t := rfl
@[simp] theorem State.setV_p_top (r : Reg) (x : VWord) : (s.setV r x).p = s.p := rfl
@[simp] theorem State.setV_others_top (r : Reg) (x : VWord) : (s.setV r x).others = s.others := rfl
@[simp] theorem State.setV_chip_top (r : Reg) (x : VWord) : (s.setV r x).chip = s.chip := rfl
@[simp] theorem State.setV_boundary_top (r : Reg) (x : VWord) : (s.setV r x).boundary = s.boundary := rfl
@[simp] theorem State.setV_xc_top (r : Reg) (x : VWord) : (s.setV r x).xc = s.xc := rfl
@[simp] theorem State.setV_cc_top (r : Reg) (x : VWord) : (s.setV r x).cc = s.cc := rfl
@[simp] theorem State.setV_ir_top (r : Reg) (x : VWord) : (s.setV r x).ir = s.ir := rfl
@[simp] theorem State.setV_row_top (r : Reg) (x : VWord) : (s.setV r x).row = s.row := rfl
@[simp] theorem State.setV_stream_top (r : Reg) (x : VWord) : (s.setV r x).stream = s.stream := rfl
@[simp] theorem State.setV_input_top (r : Reg) (x : VWord) : (s.setV r x).input = s.input := rfl
@[simp] theorem State.setV_agenda_top (r : Reg) (x : VWord) : (s.setV r x).agenda = s.agenda := rfl
@[simp] theorem State.setV_out_top (r : Reg) (x : VWord) : (s.setV r x).out = s.out := rfl
@[simp] theorem State.setV_turn_top (r : Reg) (x : VWord) : (s.setV r x).turn = s.turn := rfl
@[simp] theorem State.setV_tick_top (r : Reg) (x : VWord) : (s.setV r x).tick = s.tick := rfl

/-! setK -/

@[simp] theorem State.setK_run (r : KReg) (x : DWord) : (s.setK r x).c.run = s.c.run := by unfold State.setK; split <;> rfl
@[simp] theorem State.setK_lid (r : KReg) (x : DWord) : (s.setK r x).c.lid = s.c.lid := by unfold State.setK; split <;> rfl
@[simp] theorem State.setK_s (r : KReg) (x : DWord) : (s.setK r x).c.s = s.c.s := by unfold State.setK; split <;> rfl
@[simp] theorem State.setK_v (r : KReg) (x : DWord) : (s.setK r x).c.v = s.c.v := by unfold State.setK; split <;> rfl
@[simp] theorem State.setK_k (r : KReg) (x : DWord) : (s.setK r x).c.k = (if r = 0 then s.c.k else s.c.k.set r x) := by unfold State.setK; split <;> rfl
@[simp] theorem State.setK_h (r : KReg) (x : DWord) : (s.setK r x).c.h = s.c.h := by unfold State.setK; split <;> rfl
@[simp] theorem State.setK_pc (r : KReg) (x : DWord) : (s.setK r x).c.pc = s.c.pc := by unfold State.setK; split <;> rfl
@[simp] theorem State.setK_status (r : KReg) (x : DWord) : (s.setK r x).c.status = s.c.status := by unfold State.setK; split <;> rfl
@[simp] theorem State.setK_tvec (r : KReg) (x : DWord) : (s.setK r x).c.tvec = s.c.tvec := by unfold State.setK; split <;> rfl
@[simp] theorem State.setK_epc (r : KReg) (x : DWord) : (s.setK r x).c.epc = s.c.epc := by unfold State.setK; split <;> rfl
@[simp] theorem State.setK_cause (r : KReg) (x : DWord) : (s.setK r x).c.cause = s.c.cause := by unfold State.setK; split <;> rfl
@[simp] theorem State.setK_eaddr (r : KReg) (x : DWord) : (s.setK r x).c.eaddr = s.c.eaddr := by unfold State.setK; split <;> rfl
@[simp] theorem State.setK_eword (r : KReg) (x : DWord) : (s.setK r x).c.eword = s.c.eword := by unfold State.setK; split <;> rfl
@[simp] theorem State.setK_scratch (r : KReg) (x : DWord) : (s.setK r x).c.scratch = s.c.scratch := by unfold State.setK; split <;> rfl
@[simp] theorem State.setK_lcore (r : KReg) (x : DWord) : (s.setK r x).c.lcore = s.c.lcore := by unfold State.setK; split <;> rfl
@[simp] theorem State.setK_ncore (r : KReg) (x : DWord) : (s.setK r x).c.ncore = s.c.ncore := by unfold State.setK; split <;> rfl
@[simp] theorem State.setK_part (r : KReg) (x : DWord) : (s.setK r x).c.part = s.c.part := by unfold State.setK; split <;> rfl
@[simp] theorem State.setK_phase (r : KReg) (x : DWord) : (s.setK r x).c.phase = s.c.phase := by unfold State.setK; split <;> rfl
@[simp] theorem State.setK_lphase (r : KReg) (x : DWord) : (s.setK r x).c.lphase = s.c.lphase := by unfold State.setK; split <;> rfl
@[simp] theorem State.setK_stragg (r : KReg) (x : DWord) : (s.setK r x).c.stragg = s.c.stragg := by unfold State.setK; split <;> rfl
@[simp] theorem State.setK_xerr (r : KReg) (x : DWord) : (s.setK r x).c.xerr = s.c.xerr := by unfold State.setK; split <;> rfl
@[simp] theorem State.setK_xmiss (r : KReg) (x : DWord) : (s.setK r x).c.xmiss = s.c.xmiss := by unfold State.setK; split <;> rfl
@[simp] theorem State.setK_cyc (r : KReg) (x : DWord) : (s.setK r x).c.cyc = s.c.cyc := by unfold State.setK; split <;> rfl
@[simp] theorem State.setK_cycLatch (r : KReg) (x : DWord) : (s.setK r x).c.cycLatch = s.c.cycLatch := by unfold State.setK; split <;> rfl
@[simp] theorem State.setK_fmode (r : KReg) (x : DWord) : (s.setK r x).c.fmode = s.c.fmode := by unfold State.setK; split <;> rfl
@[simp] theorem State.setK_sbase (r : KReg) (x : DWord) : (s.setK r x).c.sbase = s.c.sbase := by unfold State.setK; split <;> rfl
@[simp] theorem State.setK_launch (r : KReg) (x : DWord) : (s.setK r x).c.launch = s.c.launch := by unfold State.setK; split <;> rfl
@[simp] theorem State.setK_mcheck (r : KReg) (x : DWord) : (s.setK r x).c.mcheck = s.c.mcheck := by unfold State.setK; split <;> rfl
@[simp] theorem State.setK_accmap (r : KReg) (x : DWord) : (s.setK r x).c.accmap = s.c.accmap := by unfold State.setK; split <;> rfl
@[simp] theorem State.setK_spillmap (r : KReg) (x : DWord) : (s.setK r x).c.spillmap = s.c.spillmap := by unfold State.setK; split <;> rfl
@[simp] theorem State.setK_vpcfg (r : KReg) (x : DWord) : (s.setK r x).c.vpcfg = s.c.vpcfg := by unfold State.setK; split <;> rfl
@[simp] theorem State.setK_vpst (r : KReg) (x : DWord) : (s.setK r x).c.vpst = s.c.vpst := by unfold State.setK; split <;> rfl
@[simp] theorem State.setK_ecfg (r : KReg) (x : DWord) : (s.setK r x).c.ecfg = s.c.ecfg := by unfold State.setK; split <;> rfl
@[simp] theorem State.setK_loopU (r : KReg) (x : DWord) : (s.setK r x).c.loopU = s.c.loopU := by unfold State.setK; split <;> rfl
@[simp] theorem State.setK_loopS (r : KReg) (x : DWord) : (s.setK r x).c.loopS = s.c.loopS := by unfold State.setK; split <;> rfl
@[simp] theorem State.setK_mem (r : KReg) (x : DWord) : (s.setK r x).c.mem = s.c.mem := by unfold State.setK; split <;> rfl
@[simp] theorem State.setK_memErr (r : KReg) (x : DWord) : (s.setK r x).c.memErr = s.c.memErr := by unfold State.setK; split <;> rfl
@[simp] theorem State.setK_stale (r : KReg) (x : DWord) : (s.setK r x).c.stale = s.c.stale := by unfold State.setK; split <;> rfl
@[simp] theorem State.setK_acc (r : KReg) (x : DWord) : (s.setK r x).c.acc = s.c.acc := by unfold State.setK; split <;> rfl
@[simp] theorem State.setK_accErr (r : KReg) (x : DWord) : (s.setK r x).c.accErr = s.c.accErr := by unfold State.setK; split <;> rfl
@[simp] theorem State.setK_parked (r : KReg) (x : DWord) : (s.setK r x).c.parked = s.c.parked := by unfold State.setK; split <;> rfl
@[simp] theorem State.setK_bar (r : KReg) (x : DWord) : (s.setK r x).c.bar = s.c.bar := by unfold State.setK; split <;> rfl
@[simp] theorem State.setK_cycleBar (r : KReg) (x : DWord) : (s.setK r x).c.cycleBar = s.c.cycleBar := by unfold State.setK; split <;> rfl
@[simp] theorem State.setK_mbox (r : KReg) (x : DWord) : (s.setK r x).c.mbox = s.c.mbox := by unfold State.setK; split <;> rfl
@[simp] theorem State.setK_mboxHead (r : KReg) (x : DWord) : (s.setK r x).c.mboxHead = s.c.mboxHead := by unfold State.setK; split <;> rfl
@[simp] theorem State.setK_mboxCount (r : KReg) (x : DWord) : (s.setK r x).c.mboxCount = s.c.mboxCount := by unfold State.setK; split <;> rfl
@[simp] theorem State.setK_held (r : KReg) (x : DWord) : (s.setK r x).c.held = s.c.held := by unfold State.setK; split <;> rfl
@[simp] theorem State.setK_mon (r : KReg) (x : DWord) : (s.setK r x).c.mon = s.c.mon := by unfold State.setK; split <;> rfl
@[simp] theorem State.setK_mx (r : KReg) (x : DWord) : (s.setK r x).c.mx = s.c.mx := by unfold State.setK; split <;> rfl
@[simp] theorem State.setK_mxStatus (r : KReg) (x : DWord) : (s.setK r x).c.mxStatus = s.c.mxStatus := by unfold State.setK; split <;> rfl
@[simp] theorem State.setK_head (r : KReg) (x : DWord) : (s.setK r x).c.head = s.c.head := by unfold State.setK; split <;> rfl
@[simp] theorem State.setK_headStatus (r : KReg) (x : DWord) : (s.setK r x).c.headStatus = s.c.headStatus := by unfold State.setK; split <;> rfl
@[simp] theorem State.setK_dir (r : KReg) (x : DWord) : (s.setK r x).c.dir = s.c.dir := by unfold State.setK; split <;> rfl
@[simp] theorem State.setK_copy (r : KReg) (x : DWord) : (s.setK r x).c.copy = s.c.copy := by unfold State.setK; split <;> rfl
@[simp] theorem State.setK_cfence (r : KReg) (x : DWord) : (s.setK r x).c.cfence = s.c.cfence := by unfold State.setK; split <;> rfl
@[simp] theorem State.setK_e0 (r : KReg) (x : DWord) : (s.setK r x).c.e0 = s.c.e0 := by unfold State.setK; split <;> rfl
@[simp] theorem State.setK_e1 (r : KReg) (x : DWord) : (s.setK r x).c.e1 = s.c.e1 := by unfold State.setK; split <;> rfl
@[simp] theorem State.setK_e2 (r : KReg) (x : DWord) : (s.setK r x).c.e2 = s.c.e2 := by unfold State.setK; split <;> rfl
@[simp] theorem State.setK_copyDone (r : KReg) (x : DWord) : (s.setK r x).c.copyDone = s.c.copyDone := by unfold State.setK; split <;> rfl
@[simp] theorem State.setK_arr (r : KReg) (x : DWord) : (s.setK r x).c.arr = s.c.arr := by unfold State.setK; split <;> rfl
@[simp] theorem State.setK_done (r : KReg) (x : DWord) : (s.setK r x).c.done = s.c.done := by unfold State.setK; split <;> rfl
@[simp] theorem State.setK_redNum (r : KReg) (x : DWord) : (s.setK r x).c.redNum = s.c.redNum := by unfold State.setK; split <;> rfl
@[simp] theorem State.setK_deferred (r : KReg) (x : DWord) : (s.setK r x).c.deferred = s.c.deferred := by unfold State.setK; split <;> rfl
@[simp] theorem State.setK_fetchStop (r : KReg) (x : DWord) : (s.setK r x).c.fetchStop = s.c.fetchStop := by unfold State.setK; split <;> rfl
@[simp] theorem State.setK_exch (r : KReg) (x : DWord) : (s.setK r x).c.exch = s.c.exch := by unfold State.setK; split <;> rfl
@[simp] theorem State.setK_pend (r : KReg) (x : DWord) : (s.setK r x).c.pend = s.c.pend := by unfold State.setK; split <;> rfl
@[simp] theorem State.setK_stall (r : KReg) (x : DWord) : (s.setK r x).c.stall = s.c.stall := by unfold State.setK; split <;> rfl
@[simp] theorem State.setK_issue (r : KReg) (x : DWord) : (s.setK r x).c.issue = s.c.issue := by unfold State.setK; split <;> rfl
@[simp] theorem State.setK_evSeq (r : KReg) (x : DWord) : (s.setK r x).c.evSeq = s.c.evSeq := by unfold State.setK; split <;> rfl
@[simp] theorem State.setK_asid (r : KReg) (x : DWord) : (s.setK r x).c.asid = s.c.asid := by unfold State.setK; split <;> rfl
@[simp] theorem State.setK_sh_top (r : KReg) (x : DWord) : (s.setK r x).sh = s.sh := by unfold State.setK; split <;> rfl
@[simp] theorem State.setK_half_top (r : KReg) (x : DWord) : (s.setK r x).half = s.half := by unfold State.setK; split <;> rfl
@[simp] theorem State.setK_t_top (r : KReg) (x : DWord) : (s.setK r x).t = s.t := by unfold State.setK; split <;> rfl
@[simp] theorem State.setK_p_top (r : KReg) (x : DWord) : (s.setK r x).p = s.p := by unfold State.setK; split <;> rfl
@[simp] theorem State.setK_others_top (r : KReg) (x : DWord) : (s.setK r x).others = s.others := by unfold State.setK; split <;> rfl
@[simp] theorem State.setK_chip_top (r : KReg) (x : DWord) : (s.setK r x).chip = s.chip := by unfold State.setK; split <;> rfl
@[simp] theorem State.setK_boundary_top (r : KReg) (x : DWord) : (s.setK r x).boundary = s.boundary := by unfold State.setK; split <;> rfl
@[simp] theorem State.setK_xc_top (r : KReg) (x : DWord) : (s.setK r x).xc = s.xc := by unfold State.setK; split <;> rfl
@[simp] theorem State.setK_cc_top (r : KReg) (x : DWord) : (s.setK r x).cc = s.cc := by unfold State.setK; split <;> rfl
@[simp] theorem State.setK_ir_top (r : KReg) (x : DWord) : (s.setK r x).ir = s.ir := by unfold State.setK; split <;> rfl
@[simp] theorem State.setK_row_top (r : KReg) (x : DWord) : (s.setK r x).row = s.row := by unfold State.setK; split <;> rfl
@[simp] theorem State.setK_stream_top (r : KReg) (x : DWord) : (s.setK r x).stream = s.stream := by unfold State.setK; split <;> rfl
@[simp] theorem State.setK_input_top (r : KReg) (x : DWord) : (s.setK r x).input = s.input := by unfold State.setK; split <;> rfl
@[simp] theorem State.setK_agenda_top (r : KReg) (x : DWord) : (s.setK r x).agenda = s.agenda := by unfold State.setK; split <;> rfl
@[simp] theorem State.setK_out_top (r : KReg) (x : DWord) : (s.setK r x).out = s.out := by unfold State.setK; split <;> rfl
@[simp] theorem State.setK_turn_top (r : KReg) (x : DWord) : (s.setK r x).turn = s.turn := by unfold State.setK; split <;> rfl
@[simp] theorem State.setK_tick_top (r : KReg) (x : DWord) : (s.setK r x).tick = s.tick := by unfold State.setK; split <;> rfl

/-! setHandle -/

@[simp] theorem State.setHandle_run (h : HReg) (x : Handle) : (s.setHandle h x).c.run = s.c.run := rfl
@[simp] theorem State.setHandle_lid (h : HReg) (x : Handle) : (s.setHandle h x).c.lid = s.c.lid := rfl
@[simp] theorem State.setHandle_s (h : HReg) (x : Handle) : (s.setHandle h x).c.s = s.c.s := rfl
@[simp] theorem State.setHandle_v (h : HReg) (x : Handle) : (s.setHandle h x).c.v = s.c.v := rfl
@[simp] theorem State.setHandle_k (h : HReg) (x : Handle) : (s.setHandle h x).c.k = s.c.k := rfl
@[simp] theorem State.setHandle_h (h : HReg) (x : Handle) : (s.setHandle h x).c.h = s.c.h.set h x := rfl
@[simp] theorem State.setHandle_pc (h : HReg) (x : Handle) : (s.setHandle h x).c.pc = s.c.pc := rfl
@[simp] theorem State.setHandle_status (h : HReg) (x : Handle) : (s.setHandle h x).c.status = s.c.status := rfl
@[simp] theorem State.setHandle_tvec (h : HReg) (x : Handle) : (s.setHandle h x).c.tvec = s.c.tvec := rfl
@[simp] theorem State.setHandle_epc (h : HReg) (x : Handle) : (s.setHandle h x).c.epc = s.c.epc := rfl
@[simp] theorem State.setHandle_cause (h : HReg) (x : Handle) : (s.setHandle h x).c.cause = s.c.cause := rfl
@[simp] theorem State.setHandle_eaddr (h : HReg) (x : Handle) : (s.setHandle h x).c.eaddr = s.c.eaddr := rfl
@[simp] theorem State.setHandle_eword (h : HReg) (x : Handle) : (s.setHandle h x).c.eword = s.c.eword := rfl
@[simp] theorem State.setHandle_scratch (h : HReg) (x : Handle) : (s.setHandle h x).c.scratch = s.c.scratch := rfl
@[simp] theorem State.setHandle_lcore (h : HReg) (x : Handle) : (s.setHandle h x).c.lcore = s.c.lcore := rfl
@[simp] theorem State.setHandle_ncore (h : HReg) (x : Handle) : (s.setHandle h x).c.ncore = s.c.ncore := rfl
@[simp] theorem State.setHandle_part (h : HReg) (x : Handle) : (s.setHandle h x).c.part = s.c.part := rfl
@[simp] theorem State.setHandle_phase (h : HReg) (x : Handle) : (s.setHandle h x).c.phase = s.c.phase := rfl
@[simp] theorem State.setHandle_lphase (h : HReg) (x : Handle) : (s.setHandle h x).c.lphase = s.c.lphase := rfl
@[simp] theorem State.setHandle_stragg (h : HReg) (x : Handle) : (s.setHandle h x).c.stragg = s.c.stragg := rfl
@[simp] theorem State.setHandle_xerr (h : HReg) (x : Handle) : (s.setHandle h x).c.xerr = s.c.xerr := rfl
@[simp] theorem State.setHandle_xmiss (h : HReg) (x : Handle) : (s.setHandle h x).c.xmiss = s.c.xmiss := rfl
@[simp] theorem State.setHandle_cyc (h : HReg) (x : Handle) : (s.setHandle h x).c.cyc = s.c.cyc := rfl
@[simp] theorem State.setHandle_cycLatch (h : HReg) (x : Handle) : (s.setHandle h x).c.cycLatch = s.c.cycLatch := rfl
@[simp] theorem State.setHandle_fmode (h : HReg) (x : Handle) : (s.setHandle h x).c.fmode = s.c.fmode := rfl
@[simp] theorem State.setHandle_sbase (h : HReg) (x : Handle) : (s.setHandle h x).c.sbase = s.c.sbase := rfl
@[simp] theorem State.setHandle_launch (h : HReg) (x : Handle) : (s.setHandle h x).c.launch = s.c.launch := rfl
@[simp] theorem State.setHandle_mcheck (h : HReg) (x : Handle) : (s.setHandle h x).c.mcheck = s.c.mcheck := rfl
@[simp] theorem State.setHandle_accmap (h : HReg) (x : Handle) : (s.setHandle h x).c.accmap = s.c.accmap := rfl
@[simp] theorem State.setHandle_spillmap (h : HReg) (x : Handle) : (s.setHandle h x).c.spillmap = s.c.spillmap := rfl
@[simp] theorem State.setHandle_vpcfg (h : HReg) (x : Handle) : (s.setHandle h x).c.vpcfg = s.c.vpcfg := rfl
@[simp] theorem State.setHandle_vpst (h : HReg) (x : Handle) : (s.setHandle h x).c.vpst = s.c.vpst := rfl
@[simp] theorem State.setHandle_ecfg (h : HReg) (x : Handle) : (s.setHandle h x).c.ecfg = s.c.ecfg := rfl
@[simp] theorem State.setHandle_loopU (h : HReg) (x : Handle) : (s.setHandle h x).c.loopU = s.c.loopU := rfl
@[simp] theorem State.setHandle_loopS (h : HReg) (x : Handle) : (s.setHandle h x).c.loopS = s.c.loopS := rfl
@[simp] theorem State.setHandle_mem (h : HReg) (x : Handle) : (s.setHandle h x).c.mem = s.c.mem := rfl
@[simp] theorem State.setHandle_memErr (h : HReg) (x : Handle) : (s.setHandle h x).c.memErr = s.c.memErr := rfl
@[simp] theorem State.setHandle_stale (h : HReg) (x : Handle) : (s.setHandle h x).c.stale = s.c.stale := rfl
@[simp] theorem State.setHandle_acc (h : HReg) (x : Handle) : (s.setHandle h x).c.acc = s.c.acc := rfl
@[simp] theorem State.setHandle_accErr (h : HReg) (x : Handle) : (s.setHandle h x).c.accErr = s.c.accErr := rfl
@[simp] theorem State.setHandle_parked (h : HReg) (x : Handle) : (s.setHandle h x).c.parked = s.c.parked := rfl
@[simp] theorem State.setHandle_bar (h : HReg) (x : Handle) : (s.setHandle h x).c.bar = s.c.bar := rfl
@[simp] theorem State.setHandle_cycleBar (h : HReg) (x : Handle) : (s.setHandle h x).c.cycleBar = s.c.cycleBar := rfl
@[simp] theorem State.setHandle_mbox (h : HReg) (x : Handle) : (s.setHandle h x).c.mbox = s.c.mbox := rfl
@[simp] theorem State.setHandle_mboxHead (h : HReg) (x : Handle) : (s.setHandle h x).c.mboxHead = s.c.mboxHead := rfl
@[simp] theorem State.setHandle_mboxCount (h : HReg) (x : Handle) : (s.setHandle h x).c.mboxCount = s.c.mboxCount := rfl
@[simp] theorem State.setHandle_held (h : HReg) (x : Handle) : (s.setHandle h x).c.held = s.c.held := rfl
@[simp] theorem State.setHandle_mon (h : HReg) (x : Handle) : (s.setHandle h x).c.mon = s.c.mon := rfl
@[simp] theorem State.setHandle_mx (h : HReg) (x : Handle) : (s.setHandle h x).c.mx = s.c.mx := rfl
@[simp] theorem State.setHandle_mxStatus (h : HReg) (x : Handle) : (s.setHandle h x).c.mxStatus = s.c.mxStatus := rfl
@[simp] theorem State.setHandle_head (h : HReg) (x : Handle) : (s.setHandle h x).c.head = s.c.head := rfl
@[simp] theorem State.setHandle_headStatus (h : HReg) (x : Handle) : (s.setHandle h x).c.headStatus = s.c.headStatus := rfl
@[simp] theorem State.setHandle_dir (h : HReg) (x : Handle) : (s.setHandle h x).c.dir = s.c.dir := rfl
@[simp] theorem State.setHandle_copy (h : HReg) (x : Handle) : (s.setHandle h x).c.copy = s.c.copy := rfl
@[simp] theorem State.setHandle_cfence (h : HReg) (x : Handle) : (s.setHandle h x).c.cfence = s.c.cfence := rfl
@[simp] theorem State.setHandle_e0 (h : HReg) (x : Handle) : (s.setHandle h x).c.e0 = s.c.e0 := rfl
@[simp] theorem State.setHandle_e1 (h : HReg) (x : Handle) : (s.setHandle h x).c.e1 = s.c.e1 := rfl
@[simp] theorem State.setHandle_e2 (h : HReg) (x : Handle) : (s.setHandle h x).c.e2 = s.c.e2 := rfl
@[simp] theorem State.setHandle_copyDone (h : HReg) (x : Handle) : (s.setHandle h x).c.copyDone = s.c.copyDone := rfl
@[simp] theorem State.setHandle_arr (h : HReg) (x : Handle) : (s.setHandle h x).c.arr = s.c.arr := rfl
@[simp] theorem State.setHandle_done (h : HReg) (x : Handle) : (s.setHandle h x).c.done = s.c.done := rfl
@[simp] theorem State.setHandle_redNum (h : HReg) (x : Handle) : (s.setHandle h x).c.redNum = s.c.redNum := rfl
@[simp] theorem State.setHandle_deferred (h : HReg) (x : Handle) : (s.setHandle h x).c.deferred = s.c.deferred := rfl
@[simp] theorem State.setHandle_fetchStop (h : HReg) (x : Handle) : (s.setHandle h x).c.fetchStop = s.c.fetchStop := rfl
@[simp] theorem State.setHandle_exch (h : HReg) (x : Handle) : (s.setHandle h x).c.exch = s.c.exch := rfl
@[simp] theorem State.setHandle_pend (h : HReg) (x : Handle) : (s.setHandle h x).c.pend = s.c.pend := rfl
@[simp] theorem State.setHandle_stall (h : HReg) (x : Handle) : (s.setHandle h x).c.stall = s.c.stall := rfl
@[simp] theorem State.setHandle_issue (h : HReg) (x : Handle) : (s.setHandle h x).c.issue = s.c.issue := rfl
@[simp] theorem State.setHandle_evSeq (h : HReg) (x : Handle) : (s.setHandle h x).c.evSeq = s.c.evSeq := rfl
@[simp] theorem State.setHandle_asid (h : HReg) (x : Handle) : (s.setHandle h x).c.asid = s.c.asid := rfl
@[simp] theorem State.setHandle_sh_top (h : HReg) (x : Handle) : (s.setHandle h x).sh = s.sh := rfl
@[simp] theorem State.setHandle_half_top (h : HReg) (x : Handle) : (s.setHandle h x).half = s.half := rfl
@[simp] theorem State.setHandle_t_top (h : HReg) (x : Handle) : (s.setHandle h x).t = s.t := rfl
@[simp] theorem State.setHandle_p_top (h : HReg) (x : Handle) : (s.setHandle h x).p = s.p := rfl
@[simp] theorem State.setHandle_others_top (h : HReg) (x : Handle) : (s.setHandle h x).others = s.others := rfl
@[simp] theorem State.setHandle_chip_top (h : HReg) (x : Handle) : (s.setHandle h x).chip = s.chip := rfl
@[simp] theorem State.setHandle_boundary_top (h : HReg) (x : Handle) : (s.setHandle h x).boundary = s.boundary := rfl
@[simp] theorem State.setHandle_xc_top (h : HReg) (x : Handle) : (s.setHandle h x).xc = s.xc := rfl
@[simp] theorem State.setHandle_cc_top (h : HReg) (x : Handle) : (s.setHandle h x).cc = s.cc := rfl
@[simp] theorem State.setHandle_ir_top (h : HReg) (x : Handle) : (s.setHandle h x).ir = s.ir := rfl
@[simp] theorem State.setHandle_row_top (h : HReg) (x : Handle) : (s.setHandle h x).row = s.row := rfl
@[simp] theorem State.setHandle_stream_top (h : HReg) (x : Handle) : (s.setHandle h x).stream = s.stream := rfl
@[simp] theorem State.setHandle_input_top (h : HReg) (x : Handle) : (s.setHandle h x).input = s.input := rfl
@[simp] theorem State.setHandle_agenda_top (h : HReg) (x : Handle) : (s.setHandle h x).agenda = s.agenda := rfl
@[simp] theorem State.setHandle_out_top (h : HReg) (x : Handle) : (s.setHandle h x).out = s.out := rfl
@[simp] theorem State.setHandle_turn_top (h : HReg) (x : Handle) : (s.setHandle h x).turn = s.turn := rfl
@[simp] theorem State.setHandle_tick_top (h : HReg) (x : Handle) : (s.setHandle h x).tick = s.tick := rfl

/-! setBarrier -/

@[simp] theorem State.setBarrier_run (n : BarName) (b : Barrier) : (s.setBarrier n b).c.run = s.c.run := rfl
@[simp] theorem State.setBarrier_lid (n : BarName) (b : Barrier) : (s.setBarrier n b).c.lid = s.c.lid := rfl
@[simp] theorem State.setBarrier_s (n : BarName) (b : Barrier) : (s.setBarrier n b).c.s = s.c.s := rfl
@[simp] theorem State.setBarrier_v (n : BarName) (b : Barrier) : (s.setBarrier n b).c.v = s.c.v := rfl
@[simp] theorem State.setBarrier_k (n : BarName) (b : Barrier) : (s.setBarrier n b).c.k = s.c.k := rfl
@[simp] theorem State.setBarrier_h (n : BarName) (b : Barrier) : (s.setBarrier n b).c.h = s.c.h := rfl
@[simp] theorem State.setBarrier_pc (n : BarName) (b : Barrier) : (s.setBarrier n b).c.pc = s.c.pc := rfl
@[simp] theorem State.setBarrier_status (n : BarName) (b : Barrier) : (s.setBarrier n b).c.status = s.c.status := rfl
@[simp] theorem State.setBarrier_tvec (n : BarName) (b : Barrier) : (s.setBarrier n b).c.tvec = s.c.tvec := rfl
@[simp] theorem State.setBarrier_epc (n : BarName) (b : Barrier) : (s.setBarrier n b).c.epc = s.c.epc := rfl
@[simp] theorem State.setBarrier_cause (n : BarName) (b : Barrier) : (s.setBarrier n b).c.cause = s.c.cause := rfl
@[simp] theorem State.setBarrier_eaddr (n : BarName) (b : Barrier) : (s.setBarrier n b).c.eaddr = s.c.eaddr := rfl
@[simp] theorem State.setBarrier_eword (n : BarName) (b : Barrier) : (s.setBarrier n b).c.eword = s.c.eword := rfl
@[simp] theorem State.setBarrier_scratch (n : BarName) (b : Barrier) : (s.setBarrier n b).c.scratch = s.c.scratch := rfl
@[simp] theorem State.setBarrier_lcore (n : BarName) (b : Barrier) : (s.setBarrier n b).c.lcore = s.c.lcore := rfl
@[simp] theorem State.setBarrier_ncore (n : BarName) (b : Barrier) : (s.setBarrier n b).c.ncore = s.c.ncore := rfl
@[simp] theorem State.setBarrier_part (n : BarName) (b : Barrier) : (s.setBarrier n b).c.part = s.c.part := rfl
@[simp] theorem State.setBarrier_phase (n : BarName) (b : Barrier) : (s.setBarrier n b).c.phase = s.c.phase := rfl
@[simp] theorem State.setBarrier_lphase (n : BarName) (b : Barrier) : (s.setBarrier n b).c.lphase = s.c.lphase := rfl
@[simp] theorem State.setBarrier_stragg (n : BarName) (b : Barrier) : (s.setBarrier n b).c.stragg = s.c.stragg := rfl
@[simp] theorem State.setBarrier_xerr (n : BarName) (b : Barrier) : (s.setBarrier n b).c.xerr = s.c.xerr := rfl
@[simp] theorem State.setBarrier_xmiss (n : BarName) (b : Barrier) : (s.setBarrier n b).c.xmiss = s.c.xmiss := rfl
@[simp] theorem State.setBarrier_cyc (n : BarName) (b : Barrier) : (s.setBarrier n b).c.cyc = s.c.cyc := rfl
@[simp] theorem State.setBarrier_cycLatch (n : BarName) (b : Barrier) : (s.setBarrier n b).c.cycLatch = s.c.cycLatch := rfl
@[simp] theorem State.setBarrier_fmode (n : BarName) (b : Barrier) : (s.setBarrier n b).c.fmode = s.c.fmode := rfl
@[simp] theorem State.setBarrier_sbase (n : BarName) (b : Barrier) : (s.setBarrier n b).c.sbase = s.c.sbase := rfl
@[simp] theorem State.setBarrier_launch (n : BarName) (b : Barrier) : (s.setBarrier n b).c.launch = s.c.launch := rfl
@[simp] theorem State.setBarrier_mcheck (n : BarName) (b : Barrier) : (s.setBarrier n b).c.mcheck = s.c.mcheck := rfl
@[simp] theorem State.setBarrier_accmap (n : BarName) (b : Barrier) : (s.setBarrier n b).c.accmap = s.c.accmap := rfl
@[simp] theorem State.setBarrier_spillmap (n : BarName) (b : Barrier) : (s.setBarrier n b).c.spillmap = s.c.spillmap := rfl
@[simp] theorem State.setBarrier_vpcfg (n : BarName) (b : Barrier) : (s.setBarrier n b).c.vpcfg = s.c.vpcfg := rfl
@[simp] theorem State.setBarrier_vpst (n : BarName) (b : Barrier) : (s.setBarrier n b).c.vpst = s.c.vpst := rfl
@[simp] theorem State.setBarrier_ecfg (n : BarName) (b : Barrier) : (s.setBarrier n b).c.ecfg = s.c.ecfg := rfl
@[simp] theorem State.setBarrier_loopU (n : BarName) (b : Barrier) : (s.setBarrier n b).c.loopU = s.c.loopU := rfl
@[simp] theorem State.setBarrier_loopS (n : BarName) (b : Barrier) : (s.setBarrier n b).c.loopS = s.c.loopS := rfl
@[simp] theorem State.setBarrier_mem (n : BarName) (b : Barrier) : (s.setBarrier n b).c.mem = s.c.mem := rfl
@[simp] theorem State.setBarrier_memErr (n : BarName) (b : Barrier) : (s.setBarrier n b).c.memErr = s.c.memErr := rfl
@[simp] theorem State.setBarrier_stale (n : BarName) (b : Barrier) : (s.setBarrier n b).c.stale = s.c.stale := rfl
@[simp] theorem State.setBarrier_acc (n : BarName) (b : Barrier) : (s.setBarrier n b).c.acc = s.c.acc := rfl
@[simp] theorem State.setBarrier_accErr (n : BarName) (b : Barrier) : (s.setBarrier n b).c.accErr = s.c.accErr := rfl
@[simp] theorem State.setBarrier_parked (n : BarName) (b : Barrier) : (s.setBarrier n b).c.parked = s.c.parked := rfl
@[simp] theorem State.setBarrier_bar (n : BarName) (b : Barrier) : (s.setBarrier n b).c.bar = s.c.bar.set n b := rfl
@[simp] theorem State.setBarrier_cycleBar (n : BarName) (b : Barrier) : (s.setBarrier n b).c.cycleBar = s.c.cycleBar := rfl
@[simp] theorem State.setBarrier_mbox (n : BarName) (b : Barrier) : (s.setBarrier n b).c.mbox = s.c.mbox := rfl
@[simp] theorem State.setBarrier_mboxHead (n : BarName) (b : Barrier) : (s.setBarrier n b).c.mboxHead = s.c.mboxHead := rfl
@[simp] theorem State.setBarrier_mboxCount (n : BarName) (b : Barrier) : (s.setBarrier n b).c.mboxCount = s.c.mboxCount := rfl
@[simp] theorem State.setBarrier_held (n : BarName) (b : Barrier) : (s.setBarrier n b).c.held = s.c.held := rfl
@[simp] theorem State.setBarrier_mon (n : BarName) (b : Barrier) : (s.setBarrier n b).c.mon = s.c.mon := rfl
@[simp] theorem State.setBarrier_mx (n : BarName) (b : Barrier) : (s.setBarrier n b).c.mx = s.c.mx := rfl
@[simp] theorem State.setBarrier_mxStatus (n : BarName) (b : Barrier) : (s.setBarrier n b).c.mxStatus = s.c.mxStatus := rfl
@[simp] theorem State.setBarrier_head (n : BarName) (b : Barrier) : (s.setBarrier n b).c.head = s.c.head := rfl
@[simp] theorem State.setBarrier_headStatus (n : BarName) (b : Barrier) : (s.setBarrier n b).c.headStatus = s.c.headStatus := rfl
@[simp] theorem State.setBarrier_dir (n : BarName) (b : Barrier) : (s.setBarrier n b).c.dir = s.c.dir := rfl
@[simp] theorem State.setBarrier_copy (n : BarName) (b : Barrier) : (s.setBarrier n b).c.copy = s.c.copy := rfl
@[simp] theorem State.setBarrier_cfence (n : BarName) (b : Barrier) : (s.setBarrier n b).c.cfence = s.c.cfence := rfl
@[simp] theorem State.setBarrier_e0 (n : BarName) (b : Barrier) : (s.setBarrier n b).c.e0 = s.c.e0 := rfl
@[simp] theorem State.setBarrier_e1 (n : BarName) (b : Barrier) : (s.setBarrier n b).c.e1 = s.c.e1 := rfl
@[simp] theorem State.setBarrier_e2 (n : BarName) (b : Barrier) : (s.setBarrier n b).c.e2 = s.c.e2 := rfl
@[simp] theorem State.setBarrier_copyDone (n : BarName) (b : Barrier) : (s.setBarrier n b).c.copyDone = s.c.copyDone := rfl
@[simp] theorem State.setBarrier_arr (n : BarName) (b : Barrier) : (s.setBarrier n b).c.arr = s.c.arr := rfl
@[simp] theorem State.setBarrier_done (n : BarName) (b : Barrier) : (s.setBarrier n b).c.done = s.c.done := rfl
@[simp] theorem State.setBarrier_redNum (n : BarName) (b : Barrier) : (s.setBarrier n b).c.redNum = s.c.redNum := rfl
@[simp] theorem State.setBarrier_deferred (n : BarName) (b : Barrier) : (s.setBarrier n b).c.deferred = s.c.deferred := rfl
@[simp] theorem State.setBarrier_fetchStop (n : BarName) (b : Barrier) : (s.setBarrier n b).c.fetchStop = s.c.fetchStop := rfl
@[simp] theorem State.setBarrier_exch (n : BarName) (b : Barrier) : (s.setBarrier n b).c.exch = s.c.exch := rfl
@[simp] theorem State.setBarrier_pend (n : BarName) (b : Barrier) : (s.setBarrier n b).c.pend = s.c.pend := rfl
@[simp] theorem State.setBarrier_stall (n : BarName) (b : Barrier) : (s.setBarrier n b).c.stall = s.c.stall := rfl
@[simp] theorem State.setBarrier_issue (n : BarName) (b : Barrier) : (s.setBarrier n b).c.issue = s.c.issue := rfl
@[simp] theorem State.setBarrier_evSeq (n : BarName) (b : Barrier) : (s.setBarrier n b).c.evSeq = s.c.evSeq := rfl
@[simp] theorem State.setBarrier_asid (n : BarName) (b : Barrier) : (s.setBarrier n b).c.asid = s.c.asid := rfl
@[simp] theorem State.setBarrier_sh_top (n : BarName) (b : Barrier) : (s.setBarrier n b).sh = s.sh := rfl
@[simp] theorem State.setBarrier_half_top (n : BarName) (b : Barrier) : (s.setBarrier n b).half = s.half := rfl
@[simp] theorem State.setBarrier_t_top (n : BarName) (b : Barrier) : (s.setBarrier n b).t = s.t := rfl
@[simp] theorem State.setBarrier_p_top (n : BarName) (b : Barrier) : (s.setBarrier n b).p = s.p := rfl
@[simp] theorem State.setBarrier_others_top (n : BarName) (b : Barrier) : (s.setBarrier n b).others = s.others := rfl
@[simp] theorem State.setBarrier_chip_top (n : BarName) (b : Barrier) : (s.setBarrier n b).chip = s.chip := rfl
@[simp] theorem State.setBarrier_boundary_top (n : BarName) (b : Barrier) : (s.setBarrier n b).boundary = s.boundary := rfl
@[simp] theorem State.setBarrier_xc_top (n : BarName) (b : Barrier) : (s.setBarrier n b).xc = s.xc := rfl
@[simp] theorem State.setBarrier_cc_top (n : BarName) (b : Barrier) : (s.setBarrier n b).cc = s.cc := rfl
@[simp] theorem State.setBarrier_ir_top (n : BarName) (b : Barrier) : (s.setBarrier n b).ir = s.ir := rfl
@[simp] theorem State.setBarrier_row_top (n : BarName) (b : Barrier) : (s.setBarrier n b).row = s.row := rfl
@[simp] theorem State.setBarrier_stream_top (n : BarName) (b : Barrier) : (s.setBarrier n b).stream = s.stream := rfl
@[simp] theorem State.setBarrier_input_top (n : BarName) (b : Barrier) : (s.setBarrier n b).input = s.input := rfl
@[simp] theorem State.setBarrier_agenda_top (n : BarName) (b : Barrier) : (s.setBarrier n b).agenda = s.agenda := rfl
@[simp] theorem State.setBarrier_out_top (n : BarName) (b : Barrier) : (s.setBarrier n b).out = s.out := rfl
@[simp] theorem State.setBarrier_turn_top (n : BarName) (b : Barrier) : (s.setBarrier n b).turn = s.turn := rfl
@[simp] theorem State.setBarrier_tick_top (n : BarName) (b : Barrier) : (s.setBarrier n b).tick = s.tick := rfl

/-! setPc -/

@[simp] theorem State.setPc_run (a : Word) : (s.setPc a).c.run = s.c.run := rfl
@[simp] theorem State.setPc_lid (a : Word) : (s.setPc a).c.lid = s.c.lid := rfl
@[simp] theorem State.setPc_s (a : Word) : (s.setPc a).c.s = s.c.s := rfl
@[simp] theorem State.setPc_v (a : Word) : (s.setPc a).c.v = s.c.v := rfl
@[simp] theorem State.setPc_k (a : Word) : (s.setPc a).c.k = s.c.k := rfl
@[simp] theorem State.setPc_h (a : Word) : (s.setPc a).c.h = s.c.h := rfl
@[simp] theorem State.setPc_pc (a : Word) : (s.setPc a).c.pc = a := rfl
@[simp] theorem State.setPc_status (a : Word) : (s.setPc a).c.status = s.c.status := rfl
@[simp] theorem State.setPc_tvec (a : Word) : (s.setPc a).c.tvec = s.c.tvec := rfl
@[simp] theorem State.setPc_epc (a : Word) : (s.setPc a).c.epc = s.c.epc := rfl
@[simp] theorem State.setPc_cause (a : Word) : (s.setPc a).c.cause = s.c.cause := rfl
@[simp] theorem State.setPc_eaddr (a : Word) : (s.setPc a).c.eaddr = s.c.eaddr := rfl
@[simp] theorem State.setPc_eword (a : Word) : (s.setPc a).c.eword = s.c.eword := rfl
@[simp] theorem State.setPc_scratch (a : Word) : (s.setPc a).c.scratch = s.c.scratch := rfl
@[simp] theorem State.setPc_lcore (a : Word) : (s.setPc a).c.lcore = s.c.lcore := rfl
@[simp] theorem State.setPc_ncore (a : Word) : (s.setPc a).c.ncore = s.c.ncore := rfl
@[simp] theorem State.setPc_part (a : Word) : (s.setPc a).c.part = s.c.part := rfl
@[simp] theorem State.setPc_phase (a : Word) : (s.setPc a).c.phase = s.c.phase := rfl
@[simp] theorem State.setPc_lphase (a : Word) : (s.setPc a).c.lphase = s.c.lphase := rfl
@[simp] theorem State.setPc_stragg (a : Word) : (s.setPc a).c.stragg = s.c.stragg := rfl
@[simp] theorem State.setPc_xerr (a : Word) : (s.setPc a).c.xerr = s.c.xerr := rfl
@[simp] theorem State.setPc_xmiss (a : Word) : (s.setPc a).c.xmiss = s.c.xmiss := rfl
@[simp] theorem State.setPc_cyc (a : Word) : (s.setPc a).c.cyc = s.c.cyc := rfl
@[simp] theorem State.setPc_cycLatch (a : Word) : (s.setPc a).c.cycLatch = s.c.cycLatch := rfl
@[simp] theorem State.setPc_fmode (a : Word) : (s.setPc a).c.fmode = s.c.fmode := rfl
@[simp] theorem State.setPc_sbase (a : Word) : (s.setPc a).c.sbase = s.c.sbase := rfl
@[simp] theorem State.setPc_launch (a : Word) : (s.setPc a).c.launch = s.c.launch := rfl
@[simp] theorem State.setPc_mcheck (a : Word) : (s.setPc a).c.mcheck = s.c.mcheck := rfl
@[simp] theorem State.setPc_accmap (a : Word) : (s.setPc a).c.accmap = s.c.accmap := rfl
@[simp] theorem State.setPc_spillmap (a : Word) : (s.setPc a).c.spillmap = s.c.spillmap := rfl
@[simp] theorem State.setPc_vpcfg (a : Word) : (s.setPc a).c.vpcfg = s.c.vpcfg := rfl
@[simp] theorem State.setPc_vpst (a : Word) : (s.setPc a).c.vpst = s.c.vpst := rfl
@[simp] theorem State.setPc_ecfg (a : Word) : (s.setPc a).c.ecfg = s.c.ecfg := rfl
@[simp] theorem State.setPc_loopU (a : Word) : (s.setPc a).c.loopU = s.c.loopU := rfl
@[simp] theorem State.setPc_loopS (a : Word) : (s.setPc a).c.loopS = s.c.loopS := rfl
@[simp] theorem State.setPc_mem (a : Word) : (s.setPc a).c.mem = s.c.mem := rfl
@[simp] theorem State.setPc_memErr (a : Word) : (s.setPc a).c.memErr = s.c.memErr := rfl
@[simp] theorem State.setPc_stale (a : Word) : (s.setPc a).c.stale = s.c.stale := rfl
@[simp] theorem State.setPc_acc (a : Word) : (s.setPc a).c.acc = s.c.acc := rfl
@[simp] theorem State.setPc_accErr (a : Word) : (s.setPc a).c.accErr = s.c.accErr := rfl
@[simp] theorem State.setPc_parked (a : Word) : (s.setPc a).c.parked = s.c.parked := rfl
@[simp] theorem State.setPc_bar (a : Word) : (s.setPc a).c.bar = s.c.bar := rfl
@[simp] theorem State.setPc_cycleBar (a : Word) : (s.setPc a).c.cycleBar = s.c.cycleBar := rfl
@[simp] theorem State.setPc_mbox (a : Word) : (s.setPc a).c.mbox = s.c.mbox := rfl
@[simp] theorem State.setPc_mboxHead (a : Word) : (s.setPc a).c.mboxHead = s.c.mboxHead := rfl
@[simp] theorem State.setPc_mboxCount (a : Word) : (s.setPc a).c.mboxCount = s.c.mboxCount := rfl
@[simp] theorem State.setPc_held (a : Word) : (s.setPc a).c.held = s.c.held := rfl
@[simp] theorem State.setPc_mon (a : Word) : (s.setPc a).c.mon = s.c.mon := rfl
@[simp] theorem State.setPc_mx (a : Word) : (s.setPc a).c.mx = s.c.mx := rfl
@[simp] theorem State.setPc_mxStatus (a : Word) : (s.setPc a).c.mxStatus = s.c.mxStatus := rfl
@[simp] theorem State.setPc_head (a : Word) : (s.setPc a).c.head = s.c.head := rfl
@[simp] theorem State.setPc_headStatus (a : Word) : (s.setPc a).c.headStatus = s.c.headStatus := rfl
@[simp] theorem State.setPc_dir (a : Word) : (s.setPc a).c.dir = s.c.dir := rfl
@[simp] theorem State.setPc_copy (a : Word) : (s.setPc a).c.copy = s.c.copy := rfl
@[simp] theorem State.setPc_cfence (a : Word) : (s.setPc a).c.cfence = s.c.cfence := rfl
@[simp] theorem State.setPc_e0 (a : Word) : (s.setPc a).c.e0 = s.c.e0 := rfl
@[simp] theorem State.setPc_e1 (a : Word) : (s.setPc a).c.e1 = s.c.e1 := rfl
@[simp] theorem State.setPc_e2 (a : Word) : (s.setPc a).c.e2 = s.c.e2 := rfl
@[simp] theorem State.setPc_copyDone (a : Word) : (s.setPc a).c.copyDone = s.c.copyDone := rfl
@[simp] theorem State.setPc_arr (a : Word) : (s.setPc a).c.arr = s.c.arr := rfl
@[simp] theorem State.setPc_done (a : Word) : (s.setPc a).c.done = s.c.done := rfl
@[simp] theorem State.setPc_redNum (a : Word) : (s.setPc a).c.redNum = s.c.redNum := rfl
@[simp] theorem State.setPc_deferred (a : Word) : (s.setPc a).c.deferred = s.c.deferred := rfl
@[simp] theorem State.setPc_fetchStop (a : Word) : (s.setPc a).c.fetchStop = s.c.fetchStop := rfl
@[simp] theorem State.setPc_exch (a : Word) : (s.setPc a).c.exch = s.c.exch := rfl
@[simp] theorem State.setPc_pend (a : Word) : (s.setPc a).c.pend = .none := rfl
@[simp] theorem State.setPc_stall (a : Word) : (s.setPc a).c.stall = false := rfl
@[simp] theorem State.setPc_issue (a : Word) : (s.setPc a).c.issue = s.c.issue := rfl
@[simp] theorem State.setPc_evSeq (a : Word) : (s.setPc a).c.evSeq = s.c.evSeq := rfl
@[simp] theorem State.setPc_asid (a : Word) : (s.setPc a).c.asid = s.c.asid := rfl
@[simp] theorem State.setPc_sh_top (a : Word) : (s.setPc a).sh = s.sh := rfl
@[simp] theorem State.setPc_half_top (a : Word) : (s.setPc a).half = s.half := rfl
@[simp] theorem State.setPc_t_top (a : Word) : (s.setPc a).t = s.t := rfl
@[simp] theorem State.setPc_p_top (a : Word) : (s.setPc a).p = s.p := rfl
@[simp] theorem State.setPc_others_top (a : Word) : (s.setPc a).others = s.others := rfl
@[simp] theorem State.setPc_chip_top (a : Word) : (s.setPc a).chip = s.chip := rfl
@[simp] theorem State.setPc_boundary_top (a : Word) : (s.setPc a).boundary = s.boundary := rfl
@[simp] theorem State.setPc_xc_top (a : Word) : (s.setPc a).xc = s.xc := rfl
@[simp] theorem State.setPc_cc_top (a : Word) : (s.setPc a).cc = s.cc := rfl
@[simp] theorem State.setPc_ir_top (a : Word) : (s.setPc a).ir = s.ir := rfl
@[simp] theorem State.setPc_row_top (a : Word) : (s.setPc a).row = s.row := rfl
@[simp] theorem State.setPc_stream_top (a : Word) : (s.setPc a).stream = s.stream := rfl
@[simp] theorem State.setPc_input_top (a : Word) : (s.setPc a).input = s.input := rfl
@[simp] theorem State.setPc_agenda_top (a : Word) : (s.setPc a).agenda = s.agenda := rfl
@[simp] theorem State.setPc_out_top (a : Word) : (s.setPc a).out = s.out := rfl
@[simp] theorem State.setPc_turn_top (a : Word) : (s.setPc a).turn = s.turn := rfl
@[simp] theorem State.setPc_tick_top (a : Word) : (s.setPc a).tick = s.tick := rfl

/-! setLoop -/

@[simp] theorem State.setLoop_run (l : LoopState) : (s.setLoop l).c.run = s.c.run := by unfold State.setLoop; split <;> rfl
@[simp] theorem State.setLoop_lid (l : LoopState) : (s.setLoop l).c.lid = s.c.lid := by unfold State.setLoop; split <;> rfl
@[simp] theorem State.setLoop_s (l : LoopState) : (s.setLoop l).c.s = s.c.s := by unfold State.setLoop; split <;> rfl
@[simp] theorem State.setLoop_v (l : LoopState) : (s.setLoop l).c.v = s.c.v := by unfold State.setLoop; split <;> rfl
@[simp] theorem State.setLoop_k (l : LoopState) : (s.setLoop l).c.k = s.c.k := by unfold State.setLoop; split <;> rfl
@[simp] theorem State.setLoop_h (l : LoopState) : (s.setLoop l).c.h = s.c.h := by unfold State.setLoop; split <;> rfl
@[simp] theorem State.setLoop_pc (l : LoopState) : (s.setLoop l).c.pc = s.c.pc := by unfold State.setLoop; split <;> rfl
@[simp] theorem State.setLoop_status (l : LoopState) : (s.setLoop l).c.status = s.c.status := by unfold State.setLoop; split <;> rfl
@[simp] theorem State.setLoop_tvec (l : LoopState) : (s.setLoop l).c.tvec = s.c.tvec := by unfold State.setLoop; split <;> rfl
@[simp] theorem State.setLoop_epc (l : LoopState) : (s.setLoop l).c.epc = s.c.epc := by unfold State.setLoop; split <;> rfl
@[simp] theorem State.setLoop_cause (l : LoopState) : (s.setLoop l).c.cause = s.c.cause := by unfold State.setLoop; split <;> rfl
@[simp] theorem State.setLoop_eaddr (l : LoopState) : (s.setLoop l).c.eaddr = s.c.eaddr := by unfold State.setLoop; split <;> rfl
@[simp] theorem State.setLoop_eword (l : LoopState) : (s.setLoop l).c.eword = s.c.eword := by unfold State.setLoop; split <;> rfl
@[simp] theorem State.setLoop_scratch (l : LoopState) : (s.setLoop l).c.scratch = s.c.scratch := by unfold State.setLoop; split <;> rfl
@[simp] theorem State.setLoop_lcore (l : LoopState) : (s.setLoop l).c.lcore = s.c.lcore := by unfold State.setLoop; split <;> rfl
@[simp] theorem State.setLoop_ncore (l : LoopState) : (s.setLoop l).c.ncore = s.c.ncore := by unfold State.setLoop; split <;> rfl
@[simp] theorem State.setLoop_part (l : LoopState) : (s.setLoop l).c.part = s.c.part := by unfold State.setLoop; split <;> rfl
@[simp] theorem State.setLoop_phase (l : LoopState) : (s.setLoop l).c.phase = s.c.phase := by unfold State.setLoop; split <;> rfl
@[simp] theorem State.setLoop_lphase (l : LoopState) : (s.setLoop l).c.lphase = s.c.lphase := by unfold State.setLoop; split <;> rfl
@[simp] theorem State.setLoop_stragg (l : LoopState) : (s.setLoop l).c.stragg = s.c.stragg := by unfold State.setLoop; split <;> rfl
@[simp] theorem State.setLoop_xerr (l : LoopState) : (s.setLoop l).c.xerr = s.c.xerr := by unfold State.setLoop; split <;> rfl
@[simp] theorem State.setLoop_xmiss (l : LoopState) : (s.setLoop l).c.xmiss = s.c.xmiss := by unfold State.setLoop; split <;> rfl
@[simp] theorem State.setLoop_cyc (l : LoopState) : (s.setLoop l).c.cyc = s.c.cyc := by unfold State.setLoop; split <;> rfl
@[simp] theorem State.setLoop_cycLatch (l : LoopState) : (s.setLoop l).c.cycLatch = s.c.cycLatch := by unfold State.setLoop; split <;> rfl
@[simp] theorem State.setLoop_fmode (l : LoopState) : (s.setLoop l).c.fmode = s.c.fmode := by unfold State.setLoop; split <;> rfl
@[simp] theorem State.setLoop_sbase (l : LoopState) : (s.setLoop l).c.sbase = s.c.sbase := by unfold State.setLoop; split <;> rfl
@[simp] theorem State.setLoop_launch (l : LoopState) : (s.setLoop l).c.launch = s.c.launch := by unfold State.setLoop; split <;> rfl
@[simp] theorem State.setLoop_mcheck (l : LoopState) : (s.setLoop l).c.mcheck = s.c.mcheck := by unfold State.setLoop; split <;> rfl
@[simp] theorem State.setLoop_accmap (l : LoopState) : (s.setLoop l).c.accmap = s.c.accmap := by unfold State.setLoop; split <;> rfl
@[simp] theorem State.setLoop_spillmap (l : LoopState) : (s.setLoop l).c.spillmap = s.c.spillmap := by unfold State.setLoop; split <;> rfl
@[simp] theorem State.setLoop_vpcfg (l : LoopState) : (s.setLoop l).c.vpcfg = s.c.vpcfg := by unfold State.setLoop; split <;> rfl
@[simp] theorem State.setLoop_vpst (l : LoopState) : (s.setLoop l).c.vpst = s.c.vpst := by unfold State.setLoop; split <;> rfl
@[simp] theorem State.setLoop_ecfg (l : LoopState) : (s.setLoop l).c.ecfg = s.c.ecfg := by unfold State.setLoop; split <;> rfl
@[simp] theorem State.setLoop_loopU (l : LoopState) : (s.setLoop l).c.loopU = (if s.svc then s.c.loopU else l) := by unfold State.setLoop; split <;> rfl
@[simp] theorem State.setLoop_loopS (l : LoopState) : (s.setLoop l).c.loopS = (if s.svc then l else s.c.loopS) := by unfold State.setLoop; split <;> rfl
@[simp] theorem State.setLoop_mem (l : LoopState) : (s.setLoop l).c.mem = s.c.mem := by unfold State.setLoop; split <;> rfl
@[simp] theorem State.setLoop_memErr (l : LoopState) : (s.setLoop l).c.memErr = s.c.memErr := by unfold State.setLoop; split <;> rfl
@[simp] theorem State.setLoop_stale (l : LoopState) : (s.setLoop l).c.stale = s.c.stale := by unfold State.setLoop; split <;> rfl
@[simp] theorem State.setLoop_acc (l : LoopState) : (s.setLoop l).c.acc = s.c.acc := by unfold State.setLoop; split <;> rfl
@[simp] theorem State.setLoop_accErr (l : LoopState) : (s.setLoop l).c.accErr = s.c.accErr := by unfold State.setLoop; split <;> rfl
@[simp] theorem State.setLoop_parked (l : LoopState) : (s.setLoop l).c.parked = s.c.parked := by unfold State.setLoop; split <;> rfl
@[simp] theorem State.setLoop_bar (l : LoopState) : (s.setLoop l).c.bar = s.c.bar := by unfold State.setLoop; split <;> rfl
@[simp] theorem State.setLoop_cycleBar (l : LoopState) : (s.setLoop l).c.cycleBar = s.c.cycleBar := by unfold State.setLoop; split <;> rfl
@[simp] theorem State.setLoop_mbox (l : LoopState) : (s.setLoop l).c.mbox = s.c.mbox := by unfold State.setLoop; split <;> rfl
@[simp] theorem State.setLoop_mboxHead (l : LoopState) : (s.setLoop l).c.mboxHead = s.c.mboxHead := by unfold State.setLoop; split <;> rfl
@[simp] theorem State.setLoop_mboxCount (l : LoopState) : (s.setLoop l).c.mboxCount = s.c.mboxCount := by unfold State.setLoop; split <;> rfl
@[simp] theorem State.setLoop_held (l : LoopState) : (s.setLoop l).c.held = s.c.held := by unfold State.setLoop; split <;> rfl
@[simp] theorem State.setLoop_mon (l : LoopState) : (s.setLoop l).c.mon = s.c.mon := by unfold State.setLoop; split <;> rfl
@[simp] theorem State.setLoop_mx (l : LoopState) : (s.setLoop l).c.mx = s.c.mx := by unfold State.setLoop; split <;> rfl
@[simp] theorem State.setLoop_mxStatus (l : LoopState) : (s.setLoop l).c.mxStatus = s.c.mxStatus := by unfold State.setLoop; split <;> rfl
@[simp] theorem State.setLoop_head (l : LoopState) : (s.setLoop l).c.head = s.c.head := by unfold State.setLoop; split <;> rfl
@[simp] theorem State.setLoop_headStatus (l : LoopState) : (s.setLoop l).c.headStatus = s.c.headStatus := by unfold State.setLoop; split <;> rfl
@[simp] theorem State.setLoop_dir (l : LoopState) : (s.setLoop l).c.dir = s.c.dir := by unfold State.setLoop; split <;> rfl
@[simp] theorem State.setLoop_copy (l : LoopState) : (s.setLoop l).c.copy = s.c.copy := by unfold State.setLoop; split <;> rfl
@[simp] theorem State.setLoop_cfence (l : LoopState) : (s.setLoop l).c.cfence = s.c.cfence := by unfold State.setLoop; split <;> rfl
@[simp] theorem State.setLoop_e0 (l : LoopState) : (s.setLoop l).c.e0 = s.c.e0 := by unfold State.setLoop; split <;> rfl
@[simp] theorem State.setLoop_e1 (l : LoopState) : (s.setLoop l).c.e1 = s.c.e1 := by unfold State.setLoop; split <;> rfl
@[simp] theorem State.setLoop_e2 (l : LoopState) : (s.setLoop l).c.e2 = s.c.e2 := by unfold State.setLoop; split <;> rfl
@[simp] theorem State.setLoop_copyDone (l : LoopState) : (s.setLoop l).c.copyDone = s.c.copyDone := by unfold State.setLoop; split <;> rfl
@[simp] theorem State.setLoop_arr (l : LoopState) : (s.setLoop l).c.arr = s.c.arr := by unfold State.setLoop; split <;> rfl
@[simp] theorem State.setLoop_done (l : LoopState) : (s.setLoop l).c.done = s.c.done := by unfold State.setLoop; split <;> rfl
@[simp] theorem State.setLoop_redNum (l : LoopState) : (s.setLoop l).c.redNum = s.c.redNum := by unfold State.setLoop; split <;> rfl
@[simp] theorem State.setLoop_deferred (l : LoopState) : (s.setLoop l).c.deferred = s.c.deferred := by unfold State.setLoop; split <;> rfl
@[simp] theorem State.setLoop_fetchStop (l : LoopState) : (s.setLoop l).c.fetchStop = s.c.fetchStop := by unfold State.setLoop; split <;> rfl
@[simp] theorem State.setLoop_exch (l : LoopState) : (s.setLoop l).c.exch = s.c.exch := by unfold State.setLoop; split <;> rfl
@[simp] theorem State.setLoop_pend (l : LoopState) : (s.setLoop l).c.pend = s.c.pend := by unfold State.setLoop; split <;> rfl
@[simp] theorem State.setLoop_stall (l : LoopState) : (s.setLoop l).c.stall = s.c.stall := by unfold State.setLoop; split <;> rfl
@[simp] theorem State.setLoop_issue (l : LoopState) : (s.setLoop l).c.issue = s.c.issue := by unfold State.setLoop; split <;> rfl
@[simp] theorem State.setLoop_evSeq (l : LoopState) : (s.setLoop l).c.evSeq = s.c.evSeq := by unfold State.setLoop; split <;> rfl
@[simp] theorem State.setLoop_asid (l : LoopState) : (s.setLoop l).c.asid = s.c.asid := by unfold State.setLoop; split <;> rfl
@[simp] theorem State.setLoop_sh_top (l : LoopState) : (s.setLoop l).sh = s.sh := by unfold State.setLoop; split <;> rfl
@[simp] theorem State.setLoop_half_top (l : LoopState) : (s.setLoop l).half = s.half := by unfold State.setLoop; split <;> rfl
@[simp] theorem State.setLoop_t_top (l : LoopState) : (s.setLoop l).t = s.t := by unfold State.setLoop; split <;> rfl
@[simp] theorem State.setLoop_p_top (l : LoopState) : (s.setLoop l).p = s.p := by unfold State.setLoop; split <;> rfl
@[simp] theorem State.setLoop_others_top (l : LoopState) : (s.setLoop l).others = s.others := by unfold State.setLoop; split <;> rfl
@[simp] theorem State.setLoop_chip_top (l : LoopState) : (s.setLoop l).chip = s.chip := by unfold State.setLoop; split <;> rfl
@[simp] theorem State.setLoop_boundary_top (l : LoopState) : (s.setLoop l).boundary = s.boundary := by unfold State.setLoop; split <;> rfl
@[simp] theorem State.setLoop_xc_top (l : LoopState) : (s.setLoop l).xc = s.xc := by unfold State.setLoop; split <;> rfl
@[simp] theorem State.setLoop_cc_top (l : LoopState) : (s.setLoop l).cc = s.cc := by unfold State.setLoop; split <;> rfl
@[simp] theorem State.setLoop_ir_top (l : LoopState) : (s.setLoop l).ir = s.ir := by unfold State.setLoop; split <;> rfl
@[simp] theorem State.setLoop_row_top (l : LoopState) : (s.setLoop l).row = s.row := by unfold State.setLoop; split <;> rfl
@[simp] theorem State.setLoop_stream_top (l : LoopState) : (s.setLoop l).stream = s.stream := by unfold State.setLoop; split <;> rfl
@[simp] theorem State.setLoop_input_top (l : LoopState) : (s.setLoop l).input = s.input := by unfold State.setLoop; split <;> rfl
@[simp] theorem State.setLoop_agenda_top (l : LoopState) : (s.setLoop l).agenda = s.agenda := by unfold State.setLoop; split <;> rfl
@[simp] theorem State.setLoop_out_top (l : LoopState) : (s.setLoop l).out = s.out := by unfold State.setLoop; split <;> rfl
@[simp] theorem State.setLoop_turn_top (l : LoopState) : (s.setLoop l).turn = s.turn := by unfold State.setLoop; split <;> rfl
@[simp] theorem State.setLoop_tick_top (l : LoopState) : (s.setLoop l).tick = s.tick := by unfold State.setLoop; split <;> rfl

/-! advance -/

@[simp] theorem State.advance_run (n : Nat) : (s.advance n).c.run = s.c.run := rfl
@[simp] theorem State.advance_lid (n : Nat) : (s.advance n).c.lid = s.c.lid := rfl
@[simp] theorem State.advance_s (n : Nat) : (s.advance n).c.s = s.c.s := rfl
@[simp] theorem State.advance_v (n : Nat) : (s.advance n).c.v = s.c.v := rfl
@[simp] theorem State.advance_k (n : Nat) : (s.advance n).c.k = s.c.k := rfl
@[simp] theorem State.advance_h (n : Nat) : (s.advance n).c.h = s.c.h := rfl
@[simp] theorem State.advance_pc (n : Nat) : (s.advance n).c.pc = s.c.pc := rfl
@[simp] theorem State.advance_status (n : Nat) : (s.advance n).c.status = s.c.status := rfl
@[simp] theorem State.advance_tvec (n : Nat) : (s.advance n).c.tvec = s.c.tvec := rfl
@[simp] theorem State.advance_epc (n : Nat) : (s.advance n).c.epc = s.c.epc := rfl
@[simp] theorem State.advance_cause (n : Nat) : (s.advance n).c.cause = s.c.cause := rfl
@[simp] theorem State.advance_eaddr (n : Nat) : (s.advance n).c.eaddr = s.c.eaddr := rfl
@[simp] theorem State.advance_eword (n : Nat) : (s.advance n).c.eword = s.c.eword := rfl
@[simp] theorem State.advance_scratch (n : Nat) : (s.advance n).c.scratch = s.c.scratch := rfl
@[simp] theorem State.advance_lcore (n : Nat) : (s.advance n).c.lcore = s.c.lcore := rfl
@[simp] theorem State.advance_ncore (n : Nat) : (s.advance n).c.ncore = s.c.ncore := rfl
@[simp] theorem State.advance_part (n : Nat) : (s.advance n).c.part = s.c.part := rfl
@[simp] theorem State.advance_phase (n : Nat) : (s.advance n).c.phase = s.c.phase := rfl
@[simp] theorem State.advance_lphase (n : Nat) : (s.advance n).c.lphase = s.c.lphase := rfl
@[simp] theorem State.advance_stragg (n : Nat) : (s.advance n).c.stragg = s.c.stragg := rfl
@[simp] theorem State.advance_xerr (n : Nat) : (s.advance n).c.xerr = s.c.xerr := rfl
@[simp] theorem State.advance_xmiss (n : Nat) : (s.advance n).c.xmiss = s.c.xmiss := rfl
@[simp] theorem State.advance_cyc (n : Nat) : (s.advance n).c.cyc = s.c.cyc + BitVec.ofNat 64 n := rfl
@[simp] theorem State.advance_cycLatch (n : Nat) : (s.advance n).c.cycLatch = s.c.cycLatch := rfl
@[simp] theorem State.advance_fmode (n : Nat) : (s.advance n).c.fmode = s.c.fmode := rfl
@[simp] theorem State.advance_sbase (n : Nat) : (s.advance n).c.sbase = s.c.sbase := rfl
@[simp] theorem State.advance_launch (n : Nat) : (s.advance n).c.launch = s.c.launch := rfl
@[simp] theorem State.advance_mcheck (n : Nat) : (s.advance n).c.mcheck = s.c.mcheck := rfl
@[simp] theorem State.advance_accmap (n : Nat) : (s.advance n).c.accmap = s.c.accmap := rfl
@[simp] theorem State.advance_spillmap (n : Nat) : (s.advance n).c.spillmap = s.c.spillmap := rfl
@[simp] theorem State.advance_vpcfg (n : Nat) : (s.advance n).c.vpcfg = s.c.vpcfg := rfl
@[simp] theorem State.advance_vpst (n : Nat) : (s.advance n).c.vpst = s.c.vpst := rfl
@[simp] theorem State.advance_ecfg (n : Nat) : (s.advance n).c.ecfg = s.c.ecfg := rfl
@[simp] theorem State.advance_loopU (n : Nat) : (s.advance n).c.loopU = s.c.loopU := rfl
@[simp] theorem State.advance_loopS (n : Nat) : (s.advance n).c.loopS = s.c.loopS := rfl
@[simp] theorem State.advance_mem (n : Nat) : (s.advance n).c.mem = s.c.mem := rfl
@[simp] theorem State.advance_memErr (n : Nat) : (s.advance n).c.memErr = s.c.memErr := rfl
@[simp] theorem State.advance_stale (n : Nat) : (s.advance n).c.stale = s.c.stale := rfl
@[simp] theorem State.advance_acc (n : Nat) : (s.advance n).c.acc = s.c.acc := rfl
@[simp] theorem State.advance_accErr (n : Nat) : (s.advance n).c.accErr = s.c.accErr := rfl
@[simp] theorem State.advance_parked (n : Nat) : (s.advance n).c.parked = s.c.parked := rfl
@[simp] theorem State.advance_bar (n : Nat) : (s.advance n).c.bar = s.c.bar := rfl
@[simp] theorem State.advance_cycleBar (n : Nat) : (s.advance n).c.cycleBar = s.c.cycleBar := rfl
@[simp] theorem State.advance_mbox (n : Nat) : (s.advance n).c.mbox = s.c.mbox := rfl
@[simp] theorem State.advance_mboxHead (n : Nat) : (s.advance n).c.mboxHead = s.c.mboxHead := rfl
@[simp] theorem State.advance_mboxCount (n : Nat) : (s.advance n).c.mboxCount = s.c.mboxCount := rfl
@[simp] theorem State.advance_held (n : Nat) : (s.advance n).c.held = s.c.held := rfl
@[simp] theorem State.advance_mon (n : Nat) : (s.advance n).c.mon = s.c.mon := rfl
@[simp] theorem State.advance_mx (n : Nat) : (s.advance n).c.mx = s.c.mx := rfl
@[simp] theorem State.advance_mxStatus (n : Nat) : (s.advance n).c.mxStatus = s.c.mxStatus := rfl
@[simp] theorem State.advance_head (n : Nat) : (s.advance n).c.head = s.c.head := rfl
@[simp] theorem State.advance_headStatus (n : Nat) : (s.advance n).c.headStatus = s.c.headStatus := rfl
@[simp] theorem State.advance_dir (n : Nat) : (s.advance n).c.dir = s.c.dir := rfl
@[simp] theorem State.advance_copy (n : Nat) : (s.advance n).c.copy = s.c.copy := rfl
@[simp] theorem State.advance_cfence (n : Nat) : (s.advance n).c.cfence = s.c.cfence := rfl
@[simp] theorem State.advance_e0 (n : Nat) : (s.advance n).c.e0 = s.c.e0 := rfl
@[simp] theorem State.advance_e1 (n : Nat) : (s.advance n).c.e1 = s.c.e1 := rfl
@[simp] theorem State.advance_e2 (n : Nat) : (s.advance n).c.e2 = s.c.e2 := rfl
@[simp] theorem State.advance_copyDone (n : Nat) : (s.advance n).c.copyDone = s.c.copyDone := rfl
@[simp] theorem State.advance_arr (n : Nat) : (s.advance n).c.arr = s.c.arr := rfl
@[simp] theorem State.advance_done (n : Nat) : (s.advance n).c.done = s.c.done := rfl
@[simp] theorem State.advance_redNum (n : Nat) : (s.advance n).c.redNum = s.c.redNum := rfl
@[simp] theorem State.advance_deferred (n : Nat) : (s.advance n).c.deferred = s.c.deferred := rfl
@[simp] theorem State.advance_fetchStop (n : Nat) : (s.advance n).c.fetchStop = s.c.fetchStop := rfl
@[simp] theorem State.advance_exch (n : Nat) : (s.advance n).c.exch = s.c.exch := rfl
@[simp] theorem State.advance_pend (n : Nat) : (s.advance n).c.pend = s.c.pend := rfl
@[simp] theorem State.advance_stall (n : Nat) : (s.advance n).c.stall = s.c.stall := rfl
@[simp] theorem State.advance_issue (n : Nat) : (s.advance n).c.issue = s.c.issue := rfl
@[simp] theorem State.advance_evSeq (n : Nat) : (s.advance n).c.evSeq = s.c.evSeq := rfl
@[simp] theorem State.advance_asid (n : Nat) : (s.advance n).c.asid = s.c.asid := rfl
@[simp] theorem State.advance_sh_top (n : Nat) : (s.advance n).sh = s.sh := rfl
@[simp] theorem State.advance_half_top (n : Nat) : (s.advance n).half = s.half := rfl
@[simp] theorem State.advance_t_top (n : Nat) : (s.advance n).t = { s.t with clock := s.t.clock + n } := rfl
@[simp] theorem State.advance_p_top (n : Nat) : (s.advance n).p = s.p := rfl
@[simp] theorem State.advance_others_top (n : Nat) : (s.advance n).others = s.others := rfl
@[simp] theorem State.advance_chip_top (n : Nat) : (s.advance n).chip = s.chip := rfl
@[simp] theorem State.advance_boundary_top (n : Nat) : (s.advance n).boundary = s.boundary := rfl
@[simp] theorem State.advance_xc_top (n : Nat) : (s.advance n).xc = s.xc + (s.cc + n) / s.ccPerXc := rfl
@[simp] theorem State.advance_cc_top (n : Nat) : (s.advance n).cc = (s.cc + n) % s.ccPerXc := rfl
@[simp] theorem State.advance_ir_top (n : Nat) : (s.advance n).ir = s.ir := rfl
@[simp] theorem State.advance_row_top (n : Nat) : (s.advance n).row = s.row := rfl
@[simp] theorem State.advance_stream_top (n : Nat) : (s.advance n).stream = s.stream := rfl
@[simp] theorem State.advance_input_top (n : Nat) : (s.advance n).input = s.input := rfl
@[simp] theorem State.advance_agenda_top (n : Nat) : (s.advance n).agenda = s.agenda := rfl
@[simp] theorem State.advance_out_top (n : Nat) : (s.advance n).out = s.out := rfl
@[simp] theorem State.advance_turn_top (n : Nat) : (s.advance n).turn = s.turn := rfl
@[simp] theorem State.advance_tick_top (n : Nat) : (s.advance n).tick = s.tick := rfl

/-! advanceTo -/

@[simp] theorem State.advanceTo_run (x : Nat) : (s.advanceTo x).c.run = s.c.run := rfl
@[simp] theorem State.advanceTo_lid (x : Nat) : (s.advanceTo x).c.lid = s.c.lid := rfl
@[simp] theorem State.advanceTo_s (x : Nat) : (s.advanceTo x).c.s = s.c.s := rfl
@[simp] theorem State.advanceTo_v (x : Nat) : (s.advanceTo x).c.v = s.c.v := rfl
@[simp] theorem State.advanceTo_k (x : Nat) : (s.advanceTo x).c.k = s.c.k := rfl
@[simp] theorem State.advanceTo_h (x : Nat) : (s.advanceTo x).c.h = s.c.h := rfl
@[simp] theorem State.advanceTo_pc (x : Nat) : (s.advanceTo x).c.pc = s.c.pc := rfl
@[simp] theorem State.advanceTo_status (x : Nat) : (s.advanceTo x).c.status = s.c.status := rfl
@[simp] theorem State.advanceTo_tvec (x : Nat) : (s.advanceTo x).c.tvec = s.c.tvec := rfl
@[simp] theorem State.advanceTo_epc (x : Nat) : (s.advanceTo x).c.epc = s.c.epc := rfl
@[simp] theorem State.advanceTo_cause (x : Nat) : (s.advanceTo x).c.cause = s.c.cause := rfl
@[simp] theorem State.advanceTo_eaddr (x : Nat) : (s.advanceTo x).c.eaddr = s.c.eaddr := rfl
@[simp] theorem State.advanceTo_eword (x : Nat) : (s.advanceTo x).c.eword = s.c.eword := rfl
@[simp] theorem State.advanceTo_scratch (x : Nat) : (s.advanceTo x).c.scratch = s.c.scratch := rfl
@[simp] theorem State.advanceTo_lcore (x : Nat) : (s.advanceTo x).c.lcore = s.c.lcore := rfl
@[simp] theorem State.advanceTo_ncore (x : Nat) : (s.advanceTo x).c.ncore = s.c.ncore := rfl
@[simp] theorem State.advanceTo_part (x : Nat) : (s.advanceTo x).c.part = s.c.part := rfl
@[simp] theorem State.advanceTo_phase (x : Nat) : (s.advanceTo x).c.phase = s.c.phase := rfl
@[simp] theorem State.advanceTo_lphase (x : Nat) : (s.advanceTo x).c.lphase = s.c.lphase := rfl
@[simp] theorem State.advanceTo_stragg (x : Nat) : (s.advanceTo x).c.stragg = s.c.stragg := rfl
@[simp] theorem State.advanceTo_xerr (x : Nat) : (s.advanceTo x).c.xerr = s.c.xerr := rfl
@[simp] theorem State.advanceTo_xmiss (x : Nat) : (s.advanceTo x).c.xmiss = s.c.xmiss := rfl
@[simp] theorem State.advanceTo_cyc (x : Nat) : (s.advanceTo x).c.cyc = s.c.cyc + BitVec.ofNat 64 (s.ccUntil x) := rfl
@[simp] theorem State.advanceTo_cycLatch (x : Nat) : (s.advanceTo x).c.cycLatch = s.c.cycLatch := rfl
@[simp] theorem State.advanceTo_fmode (x : Nat) : (s.advanceTo x).c.fmode = s.c.fmode := rfl
@[simp] theorem State.advanceTo_sbase (x : Nat) : (s.advanceTo x).c.sbase = s.c.sbase := rfl
@[simp] theorem State.advanceTo_launch (x : Nat) : (s.advanceTo x).c.launch = s.c.launch := rfl
@[simp] theorem State.advanceTo_mcheck (x : Nat) : (s.advanceTo x).c.mcheck = s.c.mcheck := rfl
@[simp] theorem State.advanceTo_accmap (x : Nat) : (s.advanceTo x).c.accmap = s.c.accmap := rfl
@[simp] theorem State.advanceTo_spillmap (x : Nat) : (s.advanceTo x).c.spillmap = s.c.spillmap := rfl
@[simp] theorem State.advanceTo_vpcfg (x : Nat) : (s.advanceTo x).c.vpcfg = s.c.vpcfg := rfl
@[simp] theorem State.advanceTo_vpst (x : Nat) : (s.advanceTo x).c.vpst = s.c.vpst := rfl
@[simp] theorem State.advanceTo_ecfg (x : Nat) : (s.advanceTo x).c.ecfg = s.c.ecfg := rfl
@[simp] theorem State.advanceTo_loopU (x : Nat) : (s.advanceTo x).c.loopU = s.c.loopU := rfl
@[simp] theorem State.advanceTo_loopS (x : Nat) : (s.advanceTo x).c.loopS = s.c.loopS := rfl
@[simp] theorem State.advanceTo_mem (x : Nat) : (s.advanceTo x).c.mem = s.c.mem := rfl
@[simp] theorem State.advanceTo_memErr (x : Nat) : (s.advanceTo x).c.memErr = s.c.memErr := rfl
@[simp] theorem State.advanceTo_stale (x : Nat) : (s.advanceTo x).c.stale = s.c.stale := rfl
@[simp] theorem State.advanceTo_acc (x : Nat) : (s.advanceTo x).c.acc = s.c.acc := rfl
@[simp] theorem State.advanceTo_accErr (x : Nat) : (s.advanceTo x).c.accErr = s.c.accErr := rfl
@[simp] theorem State.advanceTo_parked (x : Nat) : (s.advanceTo x).c.parked = s.c.parked := rfl
@[simp] theorem State.advanceTo_bar (x : Nat) : (s.advanceTo x).c.bar = s.c.bar := rfl
@[simp] theorem State.advanceTo_cycleBar (x : Nat) : (s.advanceTo x).c.cycleBar = s.c.cycleBar := rfl
@[simp] theorem State.advanceTo_mbox (x : Nat) : (s.advanceTo x).c.mbox = s.c.mbox := rfl
@[simp] theorem State.advanceTo_mboxHead (x : Nat) : (s.advanceTo x).c.mboxHead = s.c.mboxHead := rfl
@[simp] theorem State.advanceTo_mboxCount (x : Nat) : (s.advanceTo x).c.mboxCount = s.c.mboxCount := rfl
@[simp] theorem State.advanceTo_held (x : Nat) : (s.advanceTo x).c.held = s.c.held := rfl
@[simp] theorem State.advanceTo_mon (x : Nat) : (s.advanceTo x).c.mon = s.c.mon := rfl
@[simp] theorem State.advanceTo_mx (x : Nat) : (s.advanceTo x).c.mx = s.c.mx := rfl
@[simp] theorem State.advanceTo_mxStatus (x : Nat) : (s.advanceTo x).c.mxStatus = s.c.mxStatus := rfl
@[simp] theorem State.advanceTo_head (x : Nat) : (s.advanceTo x).c.head = s.c.head := rfl
@[simp] theorem State.advanceTo_headStatus (x : Nat) : (s.advanceTo x).c.headStatus = s.c.headStatus := rfl
@[simp] theorem State.advanceTo_dir (x : Nat) : (s.advanceTo x).c.dir = s.c.dir := rfl
@[simp] theorem State.advanceTo_copy (x : Nat) : (s.advanceTo x).c.copy = s.c.copy := rfl
@[simp] theorem State.advanceTo_cfence (x : Nat) : (s.advanceTo x).c.cfence = s.c.cfence := rfl
@[simp] theorem State.advanceTo_e0 (x : Nat) : (s.advanceTo x).c.e0 = s.c.e0 := rfl
@[simp] theorem State.advanceTo_e1 (x : Nat) : (s.advanceTo x).c.e1 = s.c.e1 := rfl
@[simp] theorem State.advanceTo_e2 (x : Nat) : (s.advanceTo x).c.e2 = s.c.e2 := rfl
@[simp] theorem State.advanceTo_copyDone (x : Nat) : (s.advanceTo x).c.copyDone = s.c.copyDone := rfl
@[simp] theorem State.advanceTo_arr (x : Nat) : (s.advanceTo x).c.arr = s.c.arr := rfl
@[simp] theorem State.advanceTo_done (x : Nat) : (s.advanceTo x).c.done = s.c.done := rfl
@[simp] theorem State.advanceTo_redNum (x : Nat) : (s.advanceTo x).c.redNum = s.c.redNum := rfl
@[simp] theorem State.advanceTo_deferred (x : Nat) : (s.advanceTo x).c.deferred = s.c.deferred := rfl
@[simp] theorem State.advanceTo_fetchStop (x : Nat) : (s.advanceTo x).c.fetchStop = s.c.fetchStop := rfl
@[simp] theorem State.advanceTo_exch (x : Nat) : (s.advanceTo x).c.exch = s.c.exch := rfl
@[simp] theorem State.advanceTo_pend (x : Nat) : (s.advanceTo x).c.pend = s.c.pend := rfl
@[simp] theorem State.advanceTo_stall (x : Nat) : (s.advanceTo x).c.stall = s.c.stall := rfl
@[simp] theorem State.advanceTo_issue (x : Nat) : (s.advanceTo x).c.issue = s.c.issue := rfl
@[simp] theorem State.advanceTo_evSeq (x : Nat) : (s.advanceTo x).c.evSeq = s.c.evSeq := rfl
@[simp] theorem State.advanceTo_asid (x : Nat) : (s.advanceTo x).c.asid = s.c.asid := rfl
@[simp] theorem State.advanceTo_sh_top (x : Nat) : (s.advanceTo x).sh = s.sh := rfl
@[simp] theorem State.advanceTo_half_top (x : Nat) : (s.advanceTo x).half = s.half := rfl
@[simp] theorem State.advanceTo_t_top (x : Nat) : (s.advanceTo x).t = { s.t with clock := s.t.clock + s.ccUntil x } := rfl
@[simp] theorem State.advanceTo_p_top (x : Nat) : (s.advanceTo x).p = s.p := rfl
@[simp] theorem State.advanceTo_others_top (x : Nat) : (s.advanceTo x).others = s.others := rfl
@[simp] theorem State.advanceTo_chip_top (x : Nat) : (s.advanceTo x).chip = s.chip := rfl
@[simp] theorem State.advanceTo_boundary_top (x : Nat) : (s.advanceTo x).boundary = s.boundary := rfl
@[simp] theorem State.advanceTo_xc_top (x : Nat) : (s.advanceTo x).xc = max s.xc x := rfl
@[simp] theorem State.advanceTo_cc_top (x : Nat) : (s.advanceTo x).cc = (if s.xc < x then 0 else s.cc) := rfl
@[simp] theorem State.advanceTo_ir_top (x : Nat) : (s.advanceTo x).ir = s.ir := rfl
@[simp] theorem State.advanceTo_row_top (x : Nat) : (s.advanceTo x).row = s.row := rfl
@[simp] theorem State.advanceTo_stream_top (x : Nat) : (s.advanceTo x).stream = s.stream := rfl
@[simp] theorem State.advanceTo_input_top (x : Nat) : (s.advanceTo x).input = s.input := rfl
@[simp] theorem State.advanceTo_agenda_top (x : Nat) : (s.advanceTo x).agenda = s.agenda := rfl
@[simp] theorem State.advanceTo_out_top (x : Nat) : (s.advanceTo x).out = s.out := rfl
@[simp] theorem State.advanceTo_turn_top (x : Nat) : (s.advanceTo x).turn = s.turn := rfl
@[simp] theorem State.advanceTo_tick_top (x : Nat) : (s.advanceTo x).tick = s.tick := rfl

/-! put -/

@[simp] theorem State.put_run (o : Out) : (s.put o).c.run = s.c.run := rfl
@[simp] theorem State.put_lid (o : Out) : (s.put o).c.lid = s.c.lid := rfl
@[simp] theorem State.put_s (o : Out) : (s.put o).c.s = s.c.s := rfl
@[simp] theorem State.put_v (o : Out) : (s.put o).c.v = s.c.v := rfl
@[simp] theorem State.put_k (o : Out) : (s.put o).c.k = s.c.k := rfl
@[simp] theorem State.put_h (o : Out) : (s.put o).c.h = s.c.h := rfl
@[simp] theorem State.put_pc (o : Out) : (s.put o).c.pc = s.c.pc := rfl
@[simp] theorem State.put_status (o : Out) : (s.put o).c.status = s.c.status := rfl
@[simp] theorem State.put_tvec (o : Out) : (s.put o).c.tvec = s.c.tvec := rfl
@[simp] theorem State.put_epc (o : Out) : (s.put o).c.epc = s.c.epc := rfl
@[simp] theorem State.put_cause (o : Out) : (s.put o).c.cause = s.c.cause := rfl
@[simp] theorem State.put_eaddr (o : Out) : (s.put o).c.eaddr = s.c.eaddr := rfl
@[simp] theorem State.put_eword (o : Out) : (s.put o).c.eword = s.c.eword := rfl
@[simp] theorem State.put_scratch (o : Out) : (s.put o).c.scratch = s.c.scratch := rfl
@[simp] theorem State.put_lcore (o : Out) : (s.put o).c.lcore = s.c.lcore := rfl
@[simp] theorem State.put_ncore (o : Out) : (s.put o).c.ncore = s.c.ncore := rfl
@[simp] theorem State.put_part (o : Out) : (s.put o).c.part = s.c.part := rfl
@[simp] theorem State.put_phase (o : Out) : (s.put o).c.phase = s.c.phase := rfl
@[simp] theorem State.put_lphase (o : Out) : (s.put o).c.lphase = s.c.lphase := rfl
@[simp] theorem State.put_stragg (o : Out) : (s.put o).c.stragg = s.c.stragg := rfl
@[simp] theorem State.put_xerr (o : Out) : (s.put o).c.xerr = s.c.xerr := rfl
@[simp] theorem State.put_xmiss (o : Out) : (s.put o).c.xmiss = s.c.xmiss := rfl
@[simp] theorem State.put_cyc (o : Out) : (s.put o).c.cyc = s.c.cyc := rfl
@[simp] theorem State.put_cycLatch (o : Out) : (s.put o).c.cycLatch = s.c.cycLatch := rfl
@[simp] theorem State.put_fmode (o : Out) : (s.put o).c.fmode = s.c.fmode := rfl
@[simp] theorem State.put_sbase (o : Out) : (s.put o).c.sbase = s.c.sbase := rfl
@[simp] theorem State.put_launch (o : Out) : (s.put o).c.launch = s.c.launch := rfl
@[simp] theorem State.put_mcheck (o : Out) : (s.put o).c.mcheck = s.c.mcheck := rfl
@[simp] theorem State.put_accmap (o : Out) : (s.put o).c.accmap = s.c.accmap := rfl
@[simp] theorem State.put_spillmap (o : Out) : (s.put o).c.spillmap = s.c.spillmap := rfl
@[simp] theorem State.put_vpcfg (o : Out) : (s.put o).c.vpcfg = s.c.vpcfg := rfl
@[simp] theorem State.put_vpst (o : Out) : (s.put o).c.vpst = s.c.vpst := rfl
@[simp] theorem State.put_ecfg (o : Out) : (s.put o).c.ecfg = s.c.ecfg := rfl
@[simp] theorem State.put_loopU (o : Out) : (s.put o).c.loopU = s.c.loopU := rfl
@[simp] theorem State.put_loopS (o : Out) : (s.put o).c.loopS = s.c.loopS := rfl
@[simp] theorem State.put_mem (o : Out) : (s.put o).c.mem = s.c.mem := rfl
@[simp] theorem State.put_memErr (o : Out) : (s.put o).c.memErr = s.c.memErr := rfl
@[simp] theorem State.put_stale (o : Out) : (s.put o).c.stale = s.c.stale := rfl
@[simp] theorem State.put_acc (o : Out) : (s.put o).c.acc = s.c.acc := rfl
@[simp] theorem State.put_accErr (o : Out) : (s.put o).c.accErr = s.c.accErr := rfl
@[simp] theorem State.put_parked (o : Out) : (s.put o).c.parked = s.c.parked := rfl
@[simp] theorem State.put_bar (o : Out) : (s.put o).c.bar = s.c.bar := rfl
@[simp] theorem State.put_cycleBar (o : Out) : (s.put o).c.cycleBar = s.c.cycleBar := rfl
@[simp] theorem State.put_mbox (o : Out) : (s.put o).c.mbox = s.c.mbox := rfl
@[simp] theorem State.put_mboxHead (o : Out) : (s.put o).c.mboxHead = s.c.mboxHead := rfl
@[simp] theorem State.put_mboxCount (o : Out) : (s.put o).c.mboxCount = s.c.mboxCount := rfl
@[simp] theorem State.put_held (o : Out) : (s.put o).c.held = s.c.held := rfl
@[simp] theorem State.put_mon (o : Out) : (s.put o).c.mon = s.c.mon := rfl
@[simp] theorem State.put_mx (o : Out) : (s.put o).c.mx = s.c.mx := rfl
@[simp] theorem State.put_mxStatus (o : Out) : (s.put o).c.mxStatus = s.c.mxStatus := rfl
@[simp] theorem State.put_head (o : Out) : (s.put o).c.head = s.c.head := rfl
@[simp] theorem State.put_headStatus (o : Out) : (s.put o).c.headStatus = s.c.headStatus := rfl
@[simp] theorem State.put_dir (o : Out) : (s.put o).c.dir = s.c.dir := rfl
@[simp] theorem State.put_copy (o : Out) : (s.put o).c.copy = s.c.copy := rfl
@[simp] theorem State.put_cfence (o : Out) : (s.put o).c.cfence = s.c.cfence := rfl
@[simp] theorem State.put_e0 (o : Out) : (s.put o).c.e0 = s.c.e0 := rfl
@[simp] theorem State.put_e1 (o : Out) : (s.put o).c.e1 = s.c.e1 := rfl
@[simp] theorem State.put_e2 (o : Out) : (s.put o).c.e2 = s.c.e2 := rfl
@[simp] theorem State.put_copyDone (o : Out) : (s.put o).c.copyDone = s.c.copyDone := rfl
@[simp] theorem State.put_arr (o : Out) : (s.put o).c.arr = s.c.arr := rfl
@[simp] theorem State.put_done (o : Out) : (s.put o).c.done = s.c.done := rfl
@[simp] theorem State.put_redNum (o : Out) : (s.put o).c.redNum = s.c.redNum := rfl
@[simp] theorem State.put_deferred (o : Out) : (s.put o).c.deferred = s.c.deferred := rfl
@[simp] theorem State.put_fetchStop (o : Out) : (s.put o).c.fetchStop = s.c.fetchStop := rfl
@[simp] theorem State.put_exch (o : Out) : (s.put o).c.exch = s.c.exch := rfl
@[simp] theorem State.put_pend (o : Out) : (s.put o).c.pend = s.c.pend := rfl
@[simp] theorem State.put_stall (o : Out) : (s.put o).c.stall = s.c.stall := rfl
@[simp] theorem State.put_issue (o : Out) : (s.put o).c.issue = s.c.issue := rfl
@[simp] theorem State.put_evSeq (o : Out) : (s.put o).c.evSeq = s.c.evSeq := rfl
@[simp] theorem State.put_asid (o : Out) : (s.put o).c.asid = s.c.asid := rfl
@[simp] theorem State.put_sh_top (o : Out) : (s.put o).sh = s.sh := rfl
@[simp] theorem State.put_half_top (o : Out) : (s.put o).half = s.half := rfl
@[simp] theorem State.put_t_top (o : Out) : (s.put o).t = s.t := rfl
@[simp] theorem State.put_p_top (o : Out) : (s.put o).p = s.p := rfl
@[simp] theorem State.put_others_top (o : Out) : (s.put o).others = s.others := rfl
@[simp] theorem State.put_chip_top (o : Out) : (s.put o).chip = s.chip := rfl
@[simp] theorem State.put_boundary_top (o : Out) : (s.put o).boundary = s.boundary := rfl
@[simp] theorem State.put_xc_top (o : Out) : (s.put o).xc = s.xc := rfl
@[simp] theorem State.put_cc_top (o : Out) : (s.put o).cc = s.cc := rfl
@[simp] theorem State.put_ir_top (o : Out) : (s.put o).ir = s.ir := rfl
@[simp] theorem State.put_row_top (o : Out) : (s.put o).row = s.row := rfl
@[simp] theorem State.put_stream_top (o : Out) : (s.put o).stream = s.stream := rfl
@[simp] theorem State.put_input_top (o : Out) : (s.put o).input = s.input := rfl
@[simp] theorem State.put_agenda_top (o : Out) : (s.put o).agenda = s.agenda := rfl
@[simp] theorem State.put_out_top (o : Out) : (s.put o).out = s.out ++ [o] := rfl
@[simp] theorem State.put_turn_top (o : Out) : (s.put o).turn = s.turn := rfl
@[simp] theorem State.put_tick_top (o : Out) : (s.put o).tick = s.tick := rfl

/-! storeMem -/

@[simp] theorem State.storeMem_run (off : Nat) (bs : List Byte) : (s.storeMem off bs).c.run = s.c.run := rfl
@[simp] theorem State.storeMem_lid (off : Nat) (bs : List Byte) : (s.storeMem off bs).c.lid = s.c.lid := rfl
@[simp] theorem State.storeMem_s (off : Nat) (bs : List Byte) : (s.storeMem off bs).c.s = s.c.s := rfl
@[simp] theorem State.storeMem_v (off : Nat) (bs : List Byte) : (s.storeMem off bs).c.v = s.c.v := rfl
@[simp] theorem State.storeMem_k (off : Nat) (bs : List Byte) : (s.storeMem off bs).c.k = s.c.k := rfl
@[simp] theorem State.storeMem_h (off : Nat) (bs : List Byte) : (s.storeMem off bs).c.h = s.c.h := rfl
@[simp] theorem State.storeMem_pc (off : Nat) (bs : List Byte) : (s.storeMem off bs).c.pc = s.c.pc := rfl
@[simp] theorem State.storeMem_status (off : Nat) (bs : List Byte) : (s.storeMem off bs).c.status = s.c.status := rfl
@[simp] theorem State.storeMem_tvec (off : Nat) (bs : List Byte) : (s.storeMem off bs).c.tvec = s.c.tvec := rfl
@[simp] theorem State.storeMem_epc (off : Nat) (bs : List Byte) : (s.storeMem off bs).c.epc = s.c.epc := rfl
@[simp] theorem State.storeMem_cause (off : Nat) (bs : List Byte) : (s.storeMem off bs).c.cause = s.c.cause := rfl
@[simp] theorem State.storeMem_eaddr (off : Nat) (bs : List Byte) : (s.storeMem off bs).c.eaddr = s.c.eaddr := rfl
@[simp] theorem State.storeMem_eword (off : Nat) (bs : List Byte) : (s.storeMem off bs).c.eword = s.c.eword := rfl
@[simp] theorem State.storeMem_scratch (off : Nat) (bs : List Byte) : (s.storeMem off bs).c.scratch = s.c.scratch := rfl
@[simp] theorem State.storeMem_lcore (off : Nat) (bs : List Byte) : (s.storeMem off bs).c.lcore = s.c.lcore := rfl
@[simp] theorem State.storeMem_ncore (off : Nat) (bs : List Byte) : (s.storeMem off bs).c.ncore = s.c.ncore := rfl
@[simp] theorem State.storeMem_part (off : Nat) (bs : List Byte) : (s.storeMem off bs).c.part = s.c.part := rfl
@[simp] theorem State.storeMem_phase (off : Nat) (bs : List Byte) : (s.storeMem off bs).c.phase = s.c.phase := rfl
@[simp] theorem State.storeMem_lphase (off : Nat) (bs : List Byte) : (s.storeMem off bs).c.lphase = s.c.lphase := rfl
@[simp] theorem State.storeMem_stragg (off : Nat) (bs : List Byte) : (s.storeMem off bs).c.stragg = s.c.stragg := rfl
@[simp] theorem State.storeMem_xerr (off : Nat) (bs : List Byte) : (s.storeMem off bs).c.xerr = s.c.xerr := rfl
@[simp] theorem State.storeMem_xmiss (off : Nat) (bs : List Byte) : (s.storeMem off bs).c.xmiss = s.c.xmiss := rfl
@[simp] theorem State.storeMem_cyc (off : Nat) (bs : List Byte) : (s.storeMem off bs).c.cyc = s.c.cyc := rfl
@[simp] theorem State.storeMem_cycLatch (off : Nat) (bs : List Byte) : (s.storeMem off bs).c.cycLatch = s.c.cycLatch := rfl
@[simp] theorem State.storeMem_fmode (off : Nat) (bs : List Byte) : (s.storeMem off bs).c.fmode = s.c.fmode := rfl
@[simp] theorem State.storeMem_sbase (off : Nat) (bs : List Byte) : (s.storeMem off bs).c.sbase = s.c.sbase := rfl
@[simp] theorem State.storeMem_launch (off : Nat) (bs : List Byte) : (s.storeMem off bs).c.launch = s.c.launch := rfl
@[simp] theorem State.storeMem_mcheck (off : Nat) (bs : List Byte) : (s.storeMem off bs).c.mcheck = s.c.mcheck := rfl
@[simp] theorem State.storeMem_accmap (off : Nat) (bs : List Byte) : (s.storeMem off bs).c.accmap = s.c.accmap := rfl
@[simp] theorem State.storeMem_spillmap (off : Nat) (bs : List Byte) : (s.storeMem off bs).c.spillmap = s.c.spillmap := rfl
@[simp] theorem State.storeMem_vpcfg (off : Nat) (bs : List Byte) : (s.storeMem off bs).c.vpcfg = s.c.vpcfg := rfl
@[simp] theorem State.storeMem_vpst (off : Nat) (bs : List Byte) : (s.storeMem off bs).c.vpst = s.c.vpst := rfl
@[simp] theorem State.storeMem_ecfg (off : Nat) (bs : List Byte) : (s.storeMem off bs).c.ecfg = s.c.ecfg := rfl
@[simp] theorem State.storeMem_loopU (off : Nat) (bs : List Byte) : (s.storeMem off bs).c.loopU = s.c.loopU := rfl
@[simp] theorem State.storeMem_loopS (off : Nat) (bs : List Byte) : (s.storeMem off bs).c.loopS = s.c.loopS := rfl
@[simp] theorem State.storeMem_mem (off : Nat) (bs : List Byte) : (s.storeMem off bs).c.mem = s.c.mem.writeBytes off bs := rfl
@[simp] theorem State.storeMem_memErr (off : Nat) (bs : List Byte) : (s.storeMem off bs).c.memErr = s.c.memErr := rfl
@[simp] theorem State.storeMem_stale (off : Nat) (bs : List Byte) : (s.storeMem off bs).c.stale = (off, s.c.mem.readBytes off bs.length) :: s.c.stale := rfl
@[simp] theorem State.storeMem_acc (off : Nat) (bs : List Byte) : (s.storeMem off bs).c.acc = s.c.acc := rfl
@[simp] theorem State.storeMem_accErr (off : Nat) (bs : List Byte) : (s.storeMem off bs).c.accErr = s.c.accErr := rfl
@[simp] theorem State.storeMem_parked (off : Nat) (bs : List Byte) : (s.storeMem off bs).c.parked = s.c.parked := rfl
@[simp] theorem State.storeMem_bar (off : Nat) (bs : List Byte) : (s.storeMem off bs).c.bar = s.c.bar := rfl
@[simp] theorem State.storeMem_cycleBar (off : Nat) (bs : List Byte) : (s.storeMem off bs).c.cycleBar = s.c.cycleBar := rfl
@[simp] theorem State.storeMem_mbox (off : Nat) (bs : List Byte) : (s.storeMem off bs).c.mbox = s.c.mbox := rfl
@[simp] theorem State.storeMem_mboxHead (off : Nat) (bs : List Byte) : (s.storeMem off bs).c.mboxHead = s.c.mboxHead := rfl
@[simp] theorem State.storeMem_mboxCount (off : Nat) (bs : List Byte) : (s.storeMem off bs).c.mboxCount = s.c.mboxCount := rfl
@[simp] theorem State.storeMem_held (off : Nat) (bs : List Byte) : (s.storeMem off bs).c.held = s.c.held := rfl
@[simp] theorem State.storeMem_mon (off : Nat) (bs : List Byte) : (s.storeMem off bs).c.mon = s.c.mon := rfl
@[simp] theorem State.storeMem_mx (off : Nat) (bs : List Byte) : (s.storeMem off bs).c.mx = s.c.mx := rfl
@[simp] theorem State.storeMem_mxStatus (off : Nat) (bs : List Byte) : (s.storeMem off bs).c.mxStatus = s.c.mxStatus := rfl
@[simp] theorem State.storeMem_head (off : Nat) (bs : List Byte) : (s.storeMem off bs).c.head = s.c.head := rfl
@[simp] theorem State.storeMem_headStatus (off : Nat) (bs : List Byte) : (s.storeMem off bs).c.headStatus = s.c.headStatus := rfl
@[simp] theorem State.storeMem_dir (off : Nat) (bs : List Byte) : (s.storeMem off bs).c.dir = s.c.dir := rfl
@[simp] theorem State.storeMem_copy (off : Nat) (bs : List Byte) : (s.storeMem off bs).c.copy = s.c.copy := rfl
@[simp] theorem State.storeMem_cfence (off : Nat) (bs : List Byte) : (s.storeMem off bs).c.cfence = s.c.cfence := rfl
@[simp] theorem State.storeMem_e0 (off : Nat) (bs : List Byte) : (s.storeMem off bs).c.e0 = s.c.e0 := rfl
@[simp] theorem State.storeMem_e1 (off : Nat) (bs : List Byte) : (s.storeMem off bs).c.e1 = s.c.e1 := rfl
@[simp] theorem State.storeMem_e2 (off : Nat) (bs : List Byte) : (s.storeMem off bs).c.e2 = s.c.e2 := rfl
@[simp] theorem State.storeMem_copyDone (off : Nat) (bs : List Byte) : (s.storeMem off bs).c.copyDone = s.c.copyDone := rfl
@[simp] theorem State.storeMem_arr (off : Nat) (bs : List Byte) : (s.storeMem off bs).c.arr = s.c.arr := rfl
@[simp] theorem State.storeMem_done (off : Nat) (bs : List Byte) : (s.storeMem off bs).c.done = s.c.done := rfl
@[simp] theorem State.storeMem_redNum (off : Nat) (bs : List Byte) : (s.storeMem off bs).c.redNum = s.c.redNum := rfl
@[simp] theorem State.storeMem_deferred (off : Nat) (bs : List Byte) : (s.storeMem off bs).c.deferred = s.c.deferred := rfl
@[simp] theorem State.storeMem_fetchStop (off : Nat) (bs : List Byte) : (s.storeMem off bs).c.fetchStop = s.c.fetchStop := rfl
@[simp] theorem State.storeMem_exch (off : Nat) (bs : List Byte) : (s.storeMem off bs).c.exch = s.c.exch := rfl
@[simp] theorem State.storeMem_pend (off : Nat) (bs : List Byte) : (s.storeMem off bs).c.pend = s.c.pend := rfl
@[simp] theorem State.storeMem_stall (off : Nat) (bs : List Byte) : (s.storeMem off bs).c.stall = s.c.stall := rfl
@[simp] theorem State.storeMem_issue (off : Nat) (bs : List Byte) : (s.storeMem off bs).c.issue = s.c.issue := rfl
@[simp] theorem State.storeMem_evSeq (off : Nat) (bs : List Byte) : (s.storeMem off bs).c.evSeq = s.c.evSeq := rfl
@[simp] theorem State.storeMem_asid (off : Nat) (bs : List Byte) : (s.storeMem off bs).c.asid = s.c.asid := rfl
@[simp] theorem State.storeMem_sh_top (off : Nat) (bs : List Byte) : (s.storeMem off bs).sh = s.sh := rfl
@[simp] theorem State.storeMem_half_top (off : Nat) (bs : List Byte) : (s.storeMem off bs).half = s.half := rfl
@[simp] theorem State.storeMem_t_top (off : Nat) (bs : List Byte) : (s.storeMem off bs).t = s.t := rfl
@[simp] theorem State.storeMem_p_top (off : Nat) (bs : List Byte) : (s.storeMem off bs).p = s.p := rfl
@[simp] theorem State.storeMem_others_top (off : Nat) (bs : List Byte) : (s.storeMem off bs).others = s.others := rfl
@[simp] theorem State.storeMem_chip_top (off : Nat) (bs : List Byte) : (s.storeMem off bs).chip = s.chip := rfl
@[simp] theorem State.storeMem_boundary_top (off : Nat) (bs : List Byte) : (s.storeMem off bs).boundary = s.boundary := rfl
@[simp] theorem State.storeMem_xc_top (off : Nat) (bs : List Byte) : (s.storeMem off bs).xc = s.xc := rfl
@[simp] theorem State.storeMem_cc_top (off : Nat) (bs : List Byte) : (s.storeMem off bs).cc = s.cc := rfl
@[simp] theorem State.storeMem_ir_top (off : Nat) (bs : List Byte) : (s.storeMem off bs).ir = s.ir := rfl
@[simp] theorem State.storeMem_row_top (off : Nat) (bs : List Byte) : (s.storeMem off bs).row = s.row := rfl
@[simp] theorem State.storeMem_stream_top (off : Nat) (bs : List Byte) : (s.storeMem off bs).stream = s.stream := rfl
@[simp] theorem State.storeMem_input_top (off : Nat) (bs : List Byte) : (s.storeMem off bs).input = s.input := rfl
@[simp] theorem State.storeMem_agenda_top (off : Nat) (bs : List Byte) : (s.storeMem off bs).agenda = s.agenda := rfl
@[simp] theorem State.storeMem_out_top (off : Nat) (bs : List Byte) : (s.storeMem off bs).out = s.out := rfl
@[simp] theorem State.storeMem_turn_top (off : Nat) (bs : List Byte) : (s.storeMem off bs).turn = s.turn := rfl
@[simp] theorem State.storeMem_tick_top (off : Nat) (bs : List Byte) : (s.storeMem off bs).tick = s.tick := rfl

/-! storeAcc -/

@[simp] theorem State.storeAcc_run (off : Nat) (bs : List Byte) : (s.storeAcc off bs).c.run = s.c.run := rfl
@[simp] theorem State.storeAcc_lid (off : Nat) (bs : List Byte) : (s.storeAcc off bs).c.lid = s.c.lid := rfl
@[simp] theorem State.storeAcc_s (off : Nat) (bs : List Byte) : (s.storeAcc off bs).c.s = s.c.s := rfl
@[simp] theorem State.storeAcc_v (off : Nat) (bs : List Byte) : (s.storeAcc off bs).c.v = s.c.v := rfl
@[simp] theorem State.storeAcc_k (off : Nat) (bs : List Byte) : (s.storeAcc off bs).c.k = s.c.k := rfl
@[simp] theorem State.storeAcc_h (off : Nat) (bs : List Byte) : (s.storeAcc off bs).c.h = s.c.h := rfl
@[simp] theorem State.storeAcc_pc (off : Nat) (bs : List Byte) : (s.storeAcc off bs).c.pc = s.c.pc := rfl
@[simp] theorem State.storeAcc_status (off : Nat) (bs : List Byte) : (s.storeAcc off bs).c.status = s.c.status := rfl
@[simp] theorem State.storeAcc_tvec (off : Nat) (bs : List Byte) : (s.storeAcc off bs).c.tvec = s.c.tvec := rfl
@[simp] theorem State.storeAcc_epc (off : Nat) (bs : List Byte) : (s.storeAcc off bs).c.epc = s.c.epc := rfl
@[simp] theorem State.storeAcc_cause (off : Nat) (bs : List Byte) : (s.storeAcc off bs).c.cause = s.c.cause := rfl
@[simp] theorem State.storeAcc_eaddr (off : Nat) (bs : List Byte) : (s.storeAcc off bs).c.eaddr = s.c.eaddr := rfl
@[simp] theorem State.storeAcc_eword (off : Nat) (bs : List Byte) : (s.storeAcc off bs).c.eword = s.c.eword := rfl
@[simp] theorem State.storeAcc_scratch (off : Nat) (bs : List Byte) : (s.storeAcc off bs).c.scratch = s.c.scratch := rfl
@[simp] theorem State.storeAcc_lcore (off : Nat) (bs : List Byte) : (s.storeAcc off bs).c.lcore = s.c.lcore := rfl
@[simp] theorem State.storeAcc_ncore (off : Nat) (bs : List Byte) : (s.storeAcc off bs).c.ncore = s.c.ncore := rfl
@[simp] theorem State.storeAcc_part (off : Nat) (bs : List Byte) : (s.storeAcc off bs).c.part = s.c.part := rfl
@[simp] theorem State.storeAcc_phase (off : Nat) (bs : List Byte) : (s.storeAcc off bs).c.phase = s.c.phase := rfl
@[simp] theorem State.storeAcc_lphase (off : Nat) (bs : List Byte) : (s.storeAcc off bs).c.lphase = s.c.lphase := rfl
@[simp] theorem State.storeAcc_stragg (off : Nat) (bs : List Byte) : (s.storeAcc off bs).c.stragg = s.c.stragg := rfl
@[simp] theorem State.storeAcc_xerr (off : Nat) (bs : List Byte) : (s.storeAcc off bs).c.xerr = s.c.xerr := rfl
@[simp] theorem State.storeAcc_xmiss (off : Nat) (bs : List Byte) : (s.storeAcc off bs).c.xmiss = s.c.xmiss := rfl
@[simp] theorem State.storeAcc_cyc (off : Nat) (bs : List Byte) : (s.storeAcc off bs).c.cyc = s.c.cyc := rfl
@[simp] theorem State.storeAcc_cycLatch (off : Nat) (bs : List Byte) : (s.storeAcc off bs).c.cycLatch = s.c.cycLatch := rfl
@[simp] theorem State.storeAcc_fmode (off : Nat) (bs : List Byte) : (s.storeAcc off bs).c.fmode = s.c.fmode := rfl
@[simp] theorem State.storeAcc_sbase (off : Nat) (bs : List Byte) : (s.storeAcc off bs).c.sbase = s.c.sbase := rfl
@[simp] theorem State.storeAcc_launch (off : Nat) (bs : List Byte) : (s.storeAcc off bs).c.launch = s.c.launch := rfl
@[simp] theorem State.storeAcc_mcheck (off : Nat) (bs : List Byte) : (s.storeAcc off bs).c.mcheck = s.c.mcheck := rfl
@[simp] theorem State.storeAcc_accmap (off : Nat) (bs : List Byte) : (s.storeAcc off bs).c.accmap = s.c.accmap := rfl
@[simp] theorem State.storeAcc_spillmap (off : Nat) (bs : List Byte) : (s.storeAcc off bs).c.spillmap = s.c.spillmap := rfl
@[simp] theorem State.storeAcc_vpcfg (off : Nat) (bs : List Byte) : (s.storeAcc off bs).c.vpcfg = s.c.vpcfg := rfl
@[simp] theorem State.storeAcc_vpst (off : Nat) (bs : List Byte) : (s.storeAcc off bs).c.vpst = s.c.vpst := rfl
@[simp] theorem State.storeAcc_ecfg (off : Nat) (bs : List Byte) : (s.storeAcc off bs).c.ecfg = s.c.ecfg := rfl
@[simp] theorem State.storeAcc_loopU (off : Nat) (bs : List Byte) : (s.storeAcc off bs).c.loopU = s.c.loopU := rfl
@[simp] theorem State.storeAcc_loopS (off : Nat) (bs : List Byte) : (s.storeAcc off bs).c.loopS = s.c.loopS := rfl
@[simp] theorem State.storeAcc_mem (off : Nat) (bs : List Byte) : (s.storeAcc off bs).c.mem = s.c.mem := rfl
@[simp] theorem State.storeAcc_memErr (off : Nat) (bs : List Byte) : (s.storeAcc off bs).c.memErr = s.c.memErr := rfl
@[simp] theorem State.storeAcc_stale (off : Nat) (bs : List Byte) : (s.storeAcc off bs).c.stale = s.c.stale := rfl
@[simp] theorem State.storeAcc_acc (off : Nat) (bs : List Byte) : (s.storeAcc off bs).c.acc = s.c.acc.writeBytes off bs := rfl
@[simp] theorem State.storeAcc_accErr (off : Nat) (bs : List Byte) : (s.storeAcc off bs).c.accErr = s.c.accErr := rfl
@[simp] theorem State.storeAcc_parked (off : Nat) (bs : List Byte) : (s.storeAcc off bs).c.parked = s.c.parked := rfl
@[simp] theorem State.storeAcc_bar (off : Nat) (bs : List Byte) : (s.storeAcc off bs).c.bar = s.c.bar := rfl
@[simp] theorem State.storeAcc_cycleBar (off : Nat) (bs : List Byte) : (s.storeAcc off bs).c.cycleBar = s.c.cycleBar := rfl
@[simp] theorem State.storeAcc_mbox (off : Nat) (bs : List Byte) : (s.storeAcc off bs).c.mbox = s.c.mbox := rfl
@[simp] theorem State.storeAcc_mboxHead (off : Nat) (bs : List Byte) : (s.storeAcc off bs).c.mboxHead = s.c.mboxHead := rfl
@[simp] theorem State.storeAcc_mboxCount (off : Nat) (bs : List Byte) : (s.storeAcc off bs).c.mboxCount = s.c.mboxCount := rfl
@[simp] theorem State.storeAcc_held (off : Nat) (bs : List Byte) : (s.storeAcc off bs).c.held = s.c.held := rfl
@[simp] theorem State.storeAcc_mon (off : Nat) (bs : List Byte) : (s.storeAcc off bs).c.mon = s.c.mon := rfl
@[simp] theorem State.storeAcc_mx (off : Nat) (bs : List Byte) : (s.storeAcc off bs).c.mx = s.c.mx := rfl
@[simp] theorem State.storeAcc_mxStatus (off : Nat) (bs : List Byte) : (s.storeAcc off bs).c.mxStatus = s.c.mxStatus := rfl
@[simp] theorem State.storeAcc_head (off : Nat) (bs : List Byte) : (s.storeAcc off bs).c.head = s.c.head := rfl
@[simp] theorem State.storeAcc_headStatus (off : Nat) (bs : List Byte) : (s.storeAcc off bs).c.headStatus = s.c.headStatus := rfl
@[simp] theorem State.storeAcc_dir (off : Nat) (bs : List Byte) : (s.storeAcc off bs).c.dir = s.c.dir := rfl
@[simp] theorem State.storeAcc_copy (off : Nat) (bs : List Byte) : (s.storeAcc off bs).c.copy = s.c.copy := rfl
@[simp] theorem State.storeAcc_cfence (off : Nat) (bs : List Byte) : (s.storeAcc off bs).c.cfence = s.c.cfence := rfl
@[simp] theorem State.storeAcc_e0 (off : Nat) (bs : List Byte) : (s.storeAcc off bs).c.e0 = s.c.e0 := rfl
@[simp] theorem State.storeAcc_e1 (off : Nat) (bs : List Byte) : (s.storeAcc off bs).c.e1 = s.c.e1 := rfl
@[simp] theorem State.storeAcc_e2 (off : Nat) (bs : List Byte) : (s.storeAcc off bs).c.e2 = s.c.e2 := rfl
@[simp] theorem State.storeAcc_copyDone (off : Nat) (bs : List Byte) : (s.storeAcc off bs).c.copyDone = s.c.copyDone := rfl
@[simp] theorem State.storeAcc_arr (off : Nat) (bs : List Byte) : (s.storeAcc off bs).c.arr = s.c.arr := rfl
@[simp] theorem State.storeAcc_done (off : Nat) (bs : List Byte) : (s.storeAcc off bs).c.done = s.c.done := rfl
@[simp] theorem State.storeAcc_redNum (off : Nat) (bs : List Byte) : (s.storeAcc off bs).c.redNum = s.c.redNum := rfl
@[simp] theorem State.storeAcc_deferred (off : Nat) (bs : List Byte) : (s.storeAcc off bs).c.deferred = s.c.deferred := rfl
@[simp] theorem State.storeAcc_fetchStop (off : Nat) (bs : List Byte) : (s.storeAcc off bs).c.fetchStop = s.c.fetchStop := rfl
@[simp] theorem State.storeAcc_exch (off : Nat) (bs : List Byte) : (s.storeAcc off bs).c.exch = s.c.exch := rfl
@[simp] theorem State.storeAcc_pend (off : Nat) (bs : List Byte) : (s.storeAcc off bs).c.pend = s.c.pend := rfl
@[simp] theorem State.storeAcc_stall (off : Nat) (bs : List Byte) : (s.storeAcc off bs).c.stall = s.c.stall := rfl
@[simp] theorem State.storeAcc_issue (off : Nat) (bs : List Byte) : (s.storeAcc off bs).c.issue = s.c.issue := rfl
@[simp] theorem State.storeAcc_evSeq (off : Nat) (bs : List Byte) : (s.storeAcc off bs).c.evSeq = s.c.evSeq := rfl
@[simp] theorem State.storeAcc_asid (off : Nat) (bs : List Byte) : (s.storeAcc off bs).c.asid = s.c.asid := rfl
@[simp] theorem State.storeAcc_sh_top (off : Nat) (bs : List Byte) : (s.storeAcc off bs).sh = s.sh := rfl
@[simp] theorem State.storeAcc_half_top (off : Nat) (bs : List Byte) : (s.storeAcc off bs).half = s.half := rfl
@[simp] theorem State.storeAcc_t_top (off : Nat) (bs : List Byte) : (s.storeAcc off bs).t = s.t := rfl
@[simp] theorem State.storeAcc_p_top (off : Nat) (bs : List Byte) : (s.storeAcc off bs).p = s.p := rfl
@[simp] theorem State.storeAcc_others_top (off : Nat) (bs : List Byte) : (s.storeAcc off bs).others = s.others := rfl
@[simp] theorem State.storeAcc_chip_top (off : Nat) (bs : List Byte) : (s.storeAcc off bs).chip = s.chip := rfl
@[simp] theorem State.storeAcc_boundary_top (off : Nat) (bs : List Byte) : (s.storeAcc off bs).boundary = s.boundary := rfl
@[simp] theorem State.storeAcc_xc_top (off : Nat) (bs : List Byte) : (s.storeAcc off bs).xc = s.xc := rfl
@[simp] theorem State.storeAcc_cc_top (off : Nat) (bs : List Byte) : (s.storeAcc off bs).cc = s.cc := rfl
@[simp] theorem State.storeAcc_ir_top (off : Nat) (bs : List Byte) : (s.storeAcc off bs).ir = s.ir := rfl
@[simp] theorem State.storeAcc_row_top (off : Nat) (bs : List Byte) : (s.storeAcc off bs).row = s.row := rfl
@[simp] theorem State.storeAcc_stream_top (off : Nat) (bs : List Byte) : (s.storeAcc off bs).stream = s.stream := rfl
@[simp] theorem State.storeAcc_input_top (off : Nat) (bs : List Byte) : (s.storeAcc off bs).input = s.input := rfl
@[simp] theorem State.storeAcc_agenda_top (off : Nat) (bs : List Byte) : (s.storeAcc off bs).agenda = s.agenda := rfl
@[simp] theorem State.storeAcc_out_top (off : Nat) (bs : List Byte) : (s.storeAcc off bs).out = s.out := rfl
@[simp] theorem State.storeAcc_turn_top (off : Nat) (bs : List Byte) : (s.storeAcc off bs).turn = s.turn := rfl
@[simp] theorem State.storeAcc_tick_top (off : Nat) (bs : List Byte) : (s.storeAcc off bs).tick = s.tick := rfl

/-! addFlags -/

@[simp] theorem State.addFlags_run (f : Flags) : (s.addFlags f).c.run = s.c.run := rfl
@[simp] theorem State.addFlags_lid (f : Flags) : (s.addFlags f).c.lid = s.c.lid := rfl
@[simp] theorem State.addFlags_s (f : Flags) : (s.addFlags f).c.s = s.c.s := rfl
@[simp] theorem State.addFlags_v (f : Flags) : (s.addFlags f).c.v = s.c.v := rfl
@[simp] theorem State.addFlags_k (f : Flags) : (s.addFlags f).c.k = s.c.k := rfl
@[simp] theorem State.addFlags_h (f : Flags) : (s.addFlags f).c.h = s.c.h := rfl
@[simp] theorem State.addFlags_pc (f : Flags) : (s.addFlags f).c.pc = s.c.pc := rfl
@[simp] theorem State.addFlags_status (f : Flags) : (s.addFlags f).c.status = s.c.status := rfl
@[simp] theorem State.addFlags_tvec (f : Flags) : (s.addFlags f).c.tvec = s.c.tvec := rfl
@[simp] theorem State.addFlags_epc (f : Flags) : (s.addFlags f).c.epc = s.c.epc := rfl
@[simp] theorem State.addFlags_cause (f : Flags) : (s.addFlags f).c.cause = s.c.cause := rfl
@[simp] theorem State.addFlags_eaddr (f : Flags) : (s.addFlags f).c.eaddr = s.c.eaddr := rfl
@[simp] theorem State.addFlags_eword (f : Flags) : (s.addFlags f).c.eword = s.c.eword := rfl
@[simp] theorem State.addFlags_scratch (f : Flags) : (s.addFlags f).c.scratch = s.c.scratch := rfl
@[simp] theorem State.addFlags_lcore (f : Flags) : (s.addFlags f).c.lcore = s.c.lcore := rfl
@[simp] theorem State.addFlags_ncore (f : Flags) : (s.addFlags f).c.ncore = s.c.ncore := rfl
@[simp] theorem State.addFlags_part (f : Flags) : (s.addFlags f).c.part = s.c.part := rfl
@[simp] theorem State.addFlags_phase (f : Flags) : (s.addFlags f).c.phase = s.c.phase := rfl
@[simp] theorem State.addFlags_lphase (f : Flags) : (s.addFlags f).c.lphase = s.c.lphase := rfl
@[simp] theorem State.addFlags_stragg (f : Flags) : (s.addFlags f).c.stragg = s.c.stragg := rfl
@[simp] theorem State.addFlags_xerr (f : Flags) : (s.addFlags f).c.xerr = s.c.xerr := rfl
@[simp] theorem State.addFlags_xmiss (f : Flags) : (s.addFlags f).c.xmiss = s.c.xmiss := rfl
@[simp] theorem State.addFlags_cyc (f : Flags) : (s.addFlags f).c.cyc = s.c.cyc := rfl
@[simp] theorem State.addFlags_cycLatch (f : Flags) : (s.addFlags f).c.cycLatch = s.c.cycLatch := rfl
@[simp] theorem State.addFlags_fmode (f : Flags) : (s.addFlags f).c.fmode = s.c.fmode ||| f := rfl
@[simp] theorem State.addFlags_sbase (f : Flags) : (s.addFlags f).c.sbase = s.c.sbase := rfl
@[simp] theorem State.addFlags_launch (f : Flags) : (s.addFlags f).c.launch = s.c.launch := rfl
@[simp] theorem State.addFlags_mcheck (f : Flags) : (s.addFlags f).c.mcheck = s.c.mcheck := rfl
@[simp] theorem State.addFlags_accmap (f : Flags) : (s.addFlags f).c.accmap = s.c.accmap := rfl
@[simp] theorem State.addFlags_spillmap (f : Flags) : (s.addFlags f).c.spillmap = s.c.spillmap := rfl
@[simp] theorem State.addFlags_vpcfg (f : Flags) : (s.addFlags f).c.vpcfg = s.c.vpcfg := rfl
@[simp] theorem State.addFlags_vpst (f : Flags) : (s.addFlags f).c.vpst = s.c.vpst := rfl
@[simp] theorem State.addFlags_ecfg (f : Flags) : (s.addFlags f).c.ecfg = s.c.ecfg := rfl
@[simp] theorem State.addFlags_loopU (f : Flags) : (s.addFlags f).c.loopU = s.c.loopU := rfl
@[simp] theorem State.addFlags_loopS (f : Flags) : (s.addFlags f).c.loopS = s.c.loopS := rfl
@[simp] theorem State.addFlags_mem (f : Flags) : (s.addFlags f).c.mem = s.c.mem := rfl
@[simp] theorem State.addFlags_memErr (f : Flags) : (s.addFlags f).c.memErr = s.c.memErr := rfl
@[simp] theorem State.addFlags_stale (f : Flags) : (s.addFlags f).c.stale = s.c.stale := rfl
@[simp] theorem State.addFlags_acc (f : Flags) : (s.addFlags f).c.acc = s.c.acc := rfl
@[simp] theorem State.addFlags_accErr (f : Flags) : (s.addFlags f).c.accErr = s.c.accErr := rfl
@[simp] theorem State.addFlags_parked (f : Flags) : (s.addFlags f).c.parked = s.c.parked := rfl
@[simp] theorem State.addFlags_bar (f : Flags) : (s.addFlags f).c.bar = s.c.bar := rfl
@[simp] theorem State.addFlags_cycleBar (f : Flags) : (s.addFlags f).c.cycleBar = s.c.cycleBar := rfl
@[simp] theorem State.addFlags_mbox (f : Flags) : (s.addFlags f).c.mbox = s.c.mbox := rfl
@[simp] theorem State.addFlags_mboxHead (f : Flags) : (s.addFlags f).c.mboxHead = s.c.mboxHead := rfl
@[simp] theorem State.addFlags_mboxCount (f : Flags) : (s.addFlags f).c.mboxCount = s.c.mboxCount := rfl
@[simp] theorem State.addFlags_held (f : Flags) : (s.addFlags f).c.held = s.c.held := rfl
@[simp] theorem State.addFlags_mon (f : Flags) : (s.addFlags f).c.mon = s.c.mon := rfl
@[simp] theorem State.addFlags_mx (f : Flags) : (s.addFlags f).c.mx = s.c.mx := rfl
@[simp] theorem State.addFlags_mxStatus (f : Flags) : (s.addFlags f).c.mxStatus = s.c.mxStatus := rfl
@[simp] theorem State.addFlags_head (f : Flags) : (s.addFlags f).c.head = s.c.head := rfl
@[simp] theorem State.addFlags_headStatus (f : Flags) : (s.addFlags f).c.headStatus = s.c.headStatus := rfl
@[simp] theorem State.addFlags_dir (f : Flags) : (s.addFlags f).c.dir = s.c.dir := rfl
@[simp] theorem State.addFlags_copy (f : Flags) : (s.addFlags f).c.copy = s.c.copy := rfl
@[simp] theorem State.addFlags_cfence (f : Flags) : (s.addFlags f).c.cfence = s.c.cfence := rfl
@[simp] theorem State.addFlags_e0 (f : Flags) : (s.addFlags f).c.e0 = s.c.e0 := rfl
@[simp] theorem State.addFlags_e1 (f : Flags) : (s.addFlags f).c.e1 = s.c.e1 := rfl
@[simp] theorem State.addFlags_e2 (f : Flags) : (s.addFlags f).c.e2 = s.c.e2 := rfl
@[simp] theorem State.addFlags_copyDone (f : Flags) : (s.addFlags f).c.copyDone = s.c.copyDone := rfl
@[simp] theorem State.addFlags_arr (f : Flags) : (s.addFlags f).c.arr = s.c.arr := rfl
@[simp] theorem State.addFlags_done (f : Flags) : (s.addFlags f).c.done = s.c.done := rfl
@[simp] theorem State.addFlags_redNum (f : Flags) : (s.addFlags f).c.redNum = s.c.redNum := rfl
@[simp] theorem State.addFlags_deferred (f : Flags) : (s.addFlags f).c.deferred = s.c.deferred := rfl
@[simp] theorem State.addFlags_fetchStop (f : Flags) : (s.addFlags f).c.fetchStop = s.c.fetchStop := rfl
@[simp] theorem State.addFlags_exch (f : Flags) : (s.addFlags f).c.exch = s.c.exch := rfl
@[simp] theorem State.addFlags_pend (f : Flags) : (s.addFlags f).c.pend = s.c.pend := rfl
@[simp] theorem State.addFlags_stall (f : Flags) : (s.addFlags f).c.stall = s.c.stall := rfl
@[simp] theorem State.addFlags_issue (f : Flags) : (s.addFlags f).c.issue = s.c.issue := rfl
@[simp] theorem State.addFlags_evSeq (f : Flags) : (s.addFlags f).c.evSeq = s.c.evSeq := rfl
@[simp] theorem State.addFlags_asid (f : Flags) : (s.addFlags f).c.asid = s.c.asid := rfl
@[simp] theorem State.addFlags_sh_top (f : Flags) : (s.addFlags f).sh = s.sh := rfl
@[simp] theorem State.addFlags_half_top (f : Flags) : (s.addFlags f).half = s.half := rfl
@[simp] theorem State.addFlags_t_top (f : Flags) : (s.addFlags f).t = s.t := rfl
@[simp] theorem State.addFlags_p_top (f : Flags) : (s.addFlags f).p = s.p := rfl
@[simp] theorem State.addFlags_others_top (f : Flags) : (s.addFlags f).others = s.others := rfl
@[simp] theorem State.addFlags_chip_top (f : Flags) : (s.addFlags f).chip = s.chip := rfl
@[simp] theorem State.addFlags_boundary_top (f : Flags) : (s.addFlags f).boundary = s.boundary := rfl
@[simp] theorem State.addFlags_xc_top (f : Flags) : (s.addFlags f).xc = s.xc := rfl
@[simp] theorem State.addFlags_cc_top (f : Flags) : (s.addFlags f).cc = s.cc := rfl
@[simp] theorem State.addFlags_ir_top (f : Flags) : (s.addFlags f).ir = s.ir := rfl
@[simp] theorem State.addFlags_row_top (f : Flags) : (s.addFlags f).row = s.row := rfl
@[simp] theorem State.addFlags_stream_top (f : Flags) : (s.addFlags f).stream = s.stream := rfl
@[simp] theorem State.addFlags_input_top (f : Flags) : (s.addFlags f).input = s.input := rfl
@[simp] theorem State.addFlags_agenda_top (f : Flags) : (s.addFlags f).agenda = s.agenda := rfl
@[simp] theorem State.addFlags_out_top (f : Flags) : (s.addFlags f).out = s.out := rfl
@[simp] theorem State.addFlags_turn_top (f : Flags) : (s.addFlags f).turn = s.turn := rfl
@[simp] theorem State.addFlags_tick_top (f : Flags) : (s.addFlags f).tick = s.tick := rfl

/-! fire -/

@[simp] theorem State.fire_run (off len : Nat) : (s.fire off len).c.run = s.c.run := rfl
@[simp] theorem State.fire_lid (off len : Nat) : (s.fire off len).c.lid = s.c.lid := rfl
@[simp] theorem State.fire_s (off len : Nat) : (s.fire off len).c.s = s.c.s := rfl
@[simp] theorem State.fire_v (off len : Nat) : (s.fire off len).c.v = s.c.v := rfl
@[simp] theorem State.fire_k (off len : Nat) : (s.fire off len).c.k = s.c.k := rfl
@[simp] theorem State.fire_h (off len : Nat) : (s.fire off len).c.h = s.c.h := rfl
@[simp] theorem State.fire_pc (off len : Nat) : (s.fire off len).c.pc = s.c.pc := rfl
@[simp] theorem State.fire_status (off len : Nat) : (s.fire off len).c.status = s.c.status := rfl
@[simp] theorem State.fire_tvec (off len : Nat) : (s.fire off len).c.tvec = s.c.tvec := rfl
@[simp] theorem State.fire_epc (off len : Nat) : (s.fire off len).c.epc = s.c.epc := rfl
@[simp] theorem State.fire_cause (off len : Nat) : (s.fire off len).c.cause = s.c.cause := rfl
@[simp] theorem State.fire_eaddr (off len : Nat) : (s.fire off len).c.eaddr = s.c.eaddr := rfl
@[simp] theorem State.fire_eword (off len : Nat) : (s.fire off len).c.eword = s.c.eword := rfl
@[simp] theorem State.fire_scratch (off len : Nat) : (s.fire off len).c.scratch = s.c.scratch := rfl
@[simp] theorem State.fire_lcore (off len : Nat) : (s.fire off len).c.lcore = s.c.lcore := rfl
@[simp] theorem State.fire_ncore (off len : Nat) : (s.fire off len).c.ncore = s.c.ncore := rfl
@[simp] theorem State.fire_part (off len : Nat) : (s.fire off len).c.part = s.c.part := rfl
@[simp] theorem State.fire_phase (off len : Nat) : (s.fire off len).c.phase = s.c.phase := rfl
@[simp] theorem State.fire_lphase (off len : Nat) : (s.fire off len).c.lphase = s.c.lphase := rfl
@[simp] theorem State.fire_stragg (off len : Nat) : (s.fire off len).c.stragg = s.c.stragg := rfl
@[simp] theorem State.fire_xerr (off len : Nat) : (s.fire off len).c.xerr = s.c.xerr := rfl
@[simp] theorem State.fire_xmiss (off len : Nat) : (s.fire off len).c.xmiss = s.c.xmiss := rfl
@[simp] theorem State.fire_cyc (off len : Nat) : (s.fire off len).c.cyc = s.c.cyc := rfl
@[simp] theorem State.fire_cycLatch (off len : Nat) : (s.fire off len).c.cycLatch = s.c.cycLatch := rfl
@[simp] theorem State.fire_fmode (off len : Nat) : (s.fire off len).c.fmode = s.c.fmode := rfl
@[simp] theorem State.fire_sbase (off len : Nat) : (s.fire off len).c.sbase = s.c.sbase := rfl
@[simp] theorem State.fire_launch (off len : Nat) : (s.fire off len).c.launch = s.c.launch := rfl
@[simp] theorem State.fire_mcheck (off len : Nat) : (s.fire off len).c.mcheck = s.c.mcheck := rfl
@[simp] theorem State.fire_accmap (off len : Nat) : (s.fire off len).c.accmap = s.c.accmap := rfl
@[simp] theorem State.fire_spillmap (off len : Nat) : (s.fire off len).c.spillmap = s.c.spillmap := rfl
@[simp] theorem State.fire_vpcfg (off len : Nat) : (s.fire off len).c.vpcfg = s.c.vpcfg := rfl
@[simp] theorem State.fire_vpst (off len : Nat) : (s.fire off len).c.vpst = s.c.vpst := rfl
@[simp] theorem State.fire_ecfg (off len : Nat) : (s.fire off len).c.ecfg = s.c.ecfg := rfl
@[simp] theorem State.fire_loopU (off len : Nat) : (s.fire off len).c.loopU = s.c.loopU := rfl
@[simp] theorem State.fire_loopS (off len : Nat) : (s.fire off len).c.loopS = s.c.loopS := rfl
@[simp] theorem State.fire_mem (off len : Nat) : (s.fire off len).c.mem = s.c.mem := rfl
@[simp] theorem State.fire_memErr (off len : Nat) : (s.fire off len).c.memErr = s.c.memErr := rfl
@[simp] theorem State.fire_stale (off len : Nat) : (s.fire off len).c.stale = s.c.stale := rfl
@[simp] theorem State.fire_acc (off len : Nat) : (s.fire off len).c.acc = s.c.acc := rfl
@[simp] theorem State.fire_accErr (off len : Nat) : (s.fire off len).c.accErr = s.c.accErr := rfl
@[simp] theorem State.fire_parked (off len : Nat) : (s.fire off len).c.parked = s.c.parked := rfl
@[simp] theorem State.fire_bar (off len : Nat) : (s.fire off len).c.bar = s.c.bar := rfl
@[simp] theorem State.fire_cycleBar (off len : Nat) : (s.fire off len).c.cycleBar = s.c.cycleBar := rfl
@[simp] theorem State.fire_mbox (off len : Nat) : (s.fire off len).c.mbox = s.c.mbox := rfl
@[simp] theorem State.fire_mboxHead (off len : Nat) : (s.fire off len).c.mboxHead = s.c.mboxHead := rfl
@[simp] theorem State.fire_mboxCount (off len : Nat) : (s.fire off len).c.mboxCount = s.c.mboxCount := rfl
@[simp] theorem State.fire_held (off len : Nat) : (s.fire off len).c.held = s.c.held := rfl
@[simp] theorem State.fire_mx (off len : Nat) : (s.fire off len).c.mx = s.c.mx := rfl
@[simp] theorem State.fire_mxStatus (off len : Nat) : (s.fire off len).c.mxStatus = s.c.mxStatus := rfl
@[simp] theorem State.fire_head (off len : Nat) : (s.fire off len).c.head = s.c.head := rfl
@[simp] theorem State.fire_headStatus (off len : Nat) : (s.fire off len).c.headStatus = s.c.headStatus := rfl
@[simp] theorem State.fire_dir (off len : Nat) : (s.fire off len).c.dir = s.c.dir := rfl
@[simp] theorem State.fire_copy (off len : Nat) : (s.fire off len).c.copy = s.c.copy := rfl
@[simp] theorem State.fire_cfence (off len : Nat) : (s.fire off len).c.cfence = s.c.cfence := rfl
@[simp] theorem State.fire_e0 (off len : Nat) : (s.fire off len).c.e0 = s.c.e0 := rfl
@[simp] theorem State.fire_e1 (off len : Nat) : (s.fire off len).c.e1 = s.c.e1 := rfl
@[simp] theorem State.fire_e2 (off len : Nat) : (s.fire off len).c.e2 = s.c.e2 := rfl
@[simp] theorem State.fire_copyDone (off len : Nat) : (s.fire off len).c.copyDone = s.c.copyDone := rfl
@[simp] theorem State.fire_arr (off len : Nat) : (s.fire off len).c.arr = s.c.arr := rfl
@[simp] theorem State.fire_done (off len : Nat) : (s.fire off len).c.done = s.c.done := rfl
@[simp] theorem State.fire_redNum (off len : Nat) : (s.fire off len).c.redNum = s.c.redNum := rfl
@[simp] theorem State.fire_deferred (off len : Nat) : (s.fire off len).c.deferred = s.c.deferred := rfl
@[simp] theorem State.fire_fetchStop (off len : Nat) : (s.fire off len).c.fetchStop = s.c.fetchStop := rfl
@[simp] theorem State.fire_exch (off len : Nat) : (s.fire off len).c.exch = s.c.exch := rfl
@[simp] theorem State.fire_pend (off len : Nat) : (s.fire off len).c.pend = s.c.pend := rfl
@[simp] theorem State.fire_stall (off len : Nat) : (s.fire off len).c.stall = s.c.stall := rfl
@[simp] theorem State.fire_issue (off len : Nat) : (s.fire off len).c.issue = s.c.issue := rfl
@[simp] theorem State.fire_evSeq (off len : Nat) : (s.fire off len).c.evSeq = s.c.evSeq := rfl
@[simp] theorem State.fire_asid (off len : Nat) : (s.fire off len).c.asid = s.c.asid := rfl
@[simp] theorem State.fire_sh_top (off len : Nat) : (s.fire off len).sh = s.sh := rfl
@[simp] theorem State.fire_half_top (off len : Nat) : (s.fire off len).half = s.half := rfl
@[simp] theorem State.fire_t_top (off len : Nat) : (s.fire off len).t = s.t := rfl
@[simp] theorem State.fire_p_top (off len : Nat) : (s.fire off len).p = s.p := rfl
@[simp] theorem State.fire_others_top (off len : Nat) : (s.fire off len).others = s.others := rfl
@[simp] theorem State.fire_chip_top (off len : Nat) : (s.fire off len).chip = s.chip := rfl
@[simp] theorem State.fire_boundary_top (off len : Nat) : (s.fire off len).boundary = s.boundary := rfl
@[simp] theorem State.fire_xc_top (off len : Nat) : (s.fire off len).xc = s.xc := rfl
@[simp] theorem State.fire_cc_top (off len : Nat) : (s.fire off len).cc = s.cc := rfl
@[simp] theorem State.fire_ir_top (off len : Nat) : (s.fire off len).ir = s.ir := rfl
@[simp] theorem State.fire_row_top (off len : Nat) : (s.fire off len).row = s.row := rfl
@[simp] theorem State.fire_stream_top (off len : Nat) : (s.fire off len).stream = s.stream := rfl
@[simp] theorem State.fire_input_top (off len : Nat) : (s.fire off len).input = s.input := rfl
@[simp] theorem State.fire_agenda_top (off len : Nat) : (s.fire off len).agenda = s.agenda := rfl
@[simp] theorem State.fire_out_top (off len : Nat) : (s.fire off len).out = s.out := rfl
@[simp] theorem State.fire_turn_top (off len : Nat) : (s.fire off len).turn = s.turn := rfl
@[simp] theorem State.fire_tick_top (off len : Nat) : (s.fire off len).tick = s.tick := rfl

/-! engineMem -/

@[simp] theorem State.engineMem_run (off : Nat) (bs : List Byte) : (s.engineMem off bs).c.run = s.c.run := rfl
@[simp] theorem State.engineMem_lid (off : Nat) (bs : List Byte) : (s.engineMem off bs).c.lid = s.c.lid := rfl
@[simp] theorem State.engineMem_s (off : Nat) (bs : List Byte) : (s.engineMem off bs).c.s = s.c.s := rfl
@[simp] theorem State.engineMem_v (off : Nat) (bs : List Byte) : (s.engineMem off bs).c.v = s.c.v := rfl
@[simp] theorem State.engineMem_k (off : Nat) (bs : List Byte) : (s.engineMem off bs).c.k = s.c.k := rfl
@[simp] theorem State.engineMem_h (off : Nat) (bs : List Byte) : (s.engineMem off bs).c.h = s.c.h := rfl
@[simp] theorem State.engineMem_pc (off : Nat) (bs : List Byte) : (s.engineMem off bs).c.pc = s.c.pc := rfl
@[simp] theorem State.engineMem_status (off : Nat) (bs : List Byte) : (s.engineMem off bs).c.status = s.c.status := rfl
@[simp] theorem State.engineMem_tvec (off : Nat) (bs : List Byte) : (s.engineMem off bs).c.tvec = s.c.tvec := rfl
@[simp] theorem State.engineMem_epc (off : Nat) (bs : List Byte) : (s.engineMem off bs).c.epc = s.c.epc := rfl
@[simp] theorem State.engineMem_cause (off : Nat) (bs : List Byte) : (s.engineMem off bs).c.cause = s.c.cause := rfl
@[simp] theorem State.engineMem_eaddr (off : Nat) (bs : List Byte) : (s.engineMem off bs).c.eaddr = s.c.eaddr := rfl
@[simp] theorem State.engineMem_eword (off : Nat) (bs : List Byte) : (s.engineMem off bs).c.eword = s.c.eword := rfl
@[simp] theorem State.engineMem_scratch (off : Nat) (bs : List Byte) : (s.engineMem off bs).c.scratch = s.c.scratch := rfl
@[simp] theorem State.engineMem_lcore (off : Nat) (bs : List Byte) : (s.engineMem off bs).c.lcore = s.c.lcore := rfl
@[simp] theorem State.engineMem_ncore (off : Nat) (bs : List Byte) : (s.engineMem off bs).c.ncore = s.c.ncore := rfl
@[simp] theorem State.engineMem_part (off : Nat) (bs : List Byte) : (s.engineMem off bs).c.part = s.c.part := rfl
@[simp] theorem State.engineMem_phase (off : Nat) (bs : List Byte) : (s.engineMem off bs).c.phase = s.c.phase := rfl
@[simp] theorem State.engineMem_lphase (off : Nat) (bs : List Byte) : (s.engineMem off bs).c.lphase = s.c.lphase := rfl
@[simp] theorem State.engineMem_stragg (off : Nat) (bs : List Byte) : (s.engineMem off bs).c.stragg = s.c.stragg := rfl
@[simp] theorem State.engineMem_xerr (off : Nat) (bs : List Byte) : (s.engineMem off bs).c.xerr = s.c.xerr := rfl
@[simp] theorem State.engineMem_xmiss (off : Nat) (bs : List Byte) : (s.engineMem off bs).c.xmiss = s.c.xmiss := rfl
@[simp] theorem State.engineMem_cyc (off : Nat) (bs : List Byte) : (s.engineMem off bs).c.cyc = s.c.cyc := rfl
@[simp] theorem State.engineMem_cycLatch (off : Nat) (bs : List Byte) : (s.engineMem off bs).c.cycLatch = s.c.cycLatch := rfl
@[simp] theorem State.engineMem_fmode (off : Nat) (bs : List Byte) : (s.engineMem off bs).c.fmode = s.c.fmode := rfl
@[simp] theorem State.engineMem_sbase (off : Nat) (bs : List Byte) : (s.engineMem off bs).c.sbase = s.c.sbase := rfl
@[simp] theorem State.engineMem_launch (off : Nat) (bs : List Byte) : (s.engineMem off bs).c.launch = s.c.launch := rfl
@[simp] theorem State.engineMem_mcheck (off : Nat) (bs : List Byte) : (s.engineMem off bs).c.mcheck = s.c.mcheck := rfl
@[simp] theorem State.engineMem_accmap (off : Nat) (bs : List Byte) : (s.engineMem off bs).c.accmap = s.c.accmap := rfl
@[simp] theorem State.engineMem_spillmap (off : Nat) (bs : List Byte) : (s.engineMem off bs).c.spillmap = s.c.spillmap := rfl
@[simp] theorem State.engineMem_vpcfg (off : Nat) (bs : List Byte) : (s.engineMem off bs).c.vpcfg = s.c.vpcfg := rfl
@[simp] theorem State.engineMem_vpst (off : Nat) (bs : List Byte) : (s.engineMem off bs).c.vpst = s.c.vpst := rfl
@[simp] theorem State.engineMem_ecfg (off : Nat) (bs : List Byte) : (s.engineMem off bs).c.ecfg = s.c.ecfg := rfl
@[simp] theorem State.engineMem_loopU (off : Nat) (bs : List Byte) : (s.engineMem off bs).c.loopU = s.c.loopU := rfl
@[simp] theorem State.engineMem_loopS (off : Nat) (bs : List Byte) : (s.engineMem off bs).c.loopS = s.c.loopS := rfl
@[simp] theorem State.engineMem_mem (off : Nat) (bs : List Byte) : (s.engineMem off bs).c.mem = s.c.mem.writeBytes off bs := rfl
@[simp] theorem State.engineMem_stale (off : Nat) (bs : List Byte) : (s.engineMem off bs).c.stale = (off, s.c.mem.readBytes off bs.length) :: s.c.stale := rfl
@[simp] theorem State.engineMem_acc (off : Nat) (bs : List Byte) : (s.engineMem off bs).c.acc = s.c.acc := rfl
@[simp] theorem State.engineMem_accErr (off : Nat) (bs : List Byte) : (s.engineMem off bs).c.accErr = s.c.accErr := rfl
@[simp] theorem State.engineMem_parked (off : Nat) (bs : List Byte) : (s.engineMem off bs).c.parked = s.c.parked := rfl
@[simp] theorem State.engineMem_bar (off : Nat) (bs : List Byte) : (s.engineMem off bs).c.bar = s.c.bar := rfl
@[simp] theorem State.engineMem_cycleBar (off : Nat) (bs : List Byte) : (s.engineMem off bs).c.cycleBar = s.c.cycleBar := rfl
@[simp] theorem State.engineMem_mbox (off : Nat) (bs : List Byte) : (s.engineMem off bs).c.mbox = s.c.mbox := rfl
@[simp] theorem State.engineMem_mboxHead (off : Nat) (bs : List Byte) : (s.engineMem off bs).c.mboxHead = s.c.mboxHead := rfl
@[simp] theorem State.engineMem_mboxCount (off : Nat) (bs : List Byte) : (s.engineMem off bs).c.mboxCount = s.c.mboxCount := rfl
@[simp] theorem State.engineMem_held (off : Nat) (bs : List Byte) : (s.engineMem off bs).c.held = s.c.held := rfl
@[simp] theorem State.engineMem_mx (off : Nat) (bs : List Byte) : (s.engineMem off bs).c.mx = s.c.mx := rfl
@[simp] theorem State.engineMem_mxStatus (off : Nat) (bs : List Byte) : (s.engineMem off bs).c.mxStatus = s.c.mxStatus := rfl
@[simp] theorem State.engineMem_head (off : Nat) (bs : List Byte) : (s.engineMem off bs).c.head = s.c.head := rfl
@[simp] theorem State.engineMem_headStatus (off : Nat) (bs : List Byte) : (s.engineMem off bs).c.headStatus = s.c.headStatus := rfl
@[simp] theorem State.engineMem_dir (off : Nat) (bs : List Byte) : (s.engineMem off bs).c.dir = s.c.dir := rfl
@[simp] theorem State.engineMem_copy (off : Nat) (bs : List Byte) : (s.engineMem off bs).c.copy = s.c.copy := rfl
@[simp] theorem State.engineMem_cfence (off : Nat) (bs : List Byte) : (s.engineMem off bs).c.cfence = s.c.cfence := rfl
@[simp] theorem State.engineMem_e0 (off : Nat) (bs : List Byte) : (s.engineMem off bs).c.e0 = s.c.e0 := rfl
@[simp] theorem State.engineMem_e1 (off : Nat) (bs : List Byte) : (s.engineMem off bs).c.e1 = s.c.e1 := rfl
@[simp] theorem State.engineMem_e2 (off : Nat) (bs : List Byte) : (s.engineMem off bs).c.e2 = s.c.e2 := rfl
@[simp] theorem State.engineMem_copyDone (off : Nat) (bs : List Byte) : (s.engineMem off bs).c.copyDone = s.c.copyDone := rfl
@[simp] theorem State.engineMem_arr (off : Nat) (bs : List Byte) : (s.engineMem off bs).c.arr = s.c.arr := rfl
@[simp] theorem State.engineMem_done (off : Nat) (bs : List Byte) : (s.engineMem off bs).c.done = s.c.done := rfl
@[simp] theorem State.engineMem_redNum (off : Nat) (bs : List Byte) : (s.engineMem off bs).c.redNum = s.c.redNum := rfl
@[simp] theorem State.engineMem_deferred (off : Nat) (bs : List Byte) : (s.engineMem off bs).c.deferred = s.c.deferred := rfl
@[simp] theorem State.engineMem_fetchStop (off : Nat) (bs : List Byte) : (s.engineMem off bs).c.fetchStop = s.c.fetchStop := rfl
@[simp] theorem State.engineMem_exch (off : Nat) (bs : List Byte) : (s.engineMem off bs).c.exch = s.c.exch := rfl
@[simp] theorem State.engineMem_pend (off : Nat) (bs : List Byte) : (s.engineMem off bs).c.pend = s.c.pend := rfl
@[simp] theorem State.engineMem_stall (off : Nat) (bs : List Byte) : (s.engineMem off bs).c.stall = s.c.stall := rfl
@[simp] theorem State.engineMem_issue (off : Nat) (bs : List Byte) : (s.engineMem off bs).c.issue = s.c.issue := rfl
@[simp] theorem State.engineMem_evSeq (off : Nat) (bs : List Byte) : (s.engineMem off bs).c.evSeq = s.c.evSeq := rfl
@[simp] theorem State.engineMem_asid (off : Nat) (bs : List Byte) : (s.engineMem off bs).c.asid = s.c.asid := rfl
@[simp] theorem State.engineMem_sh_top (off : Nat) (bs : List Byte) : (s.engineMem off bs).sh = s.sh := rfl
@[simp] theorem State.engineMem_half_top (off : Nat) (bs : List Byte) : (s.engineMem off bs).half = s.half := rfl
@[simp] theorem State.engineMem_t_top (off : Nat) (bs : List Byte) : (s.engineMem off bs).t = s.t := rfl
@[simp] theorem State.engineMem_p_top (off : Nat) (bs : List Byte) : (s.engineMem off bs).p = s.p := rfl
@[simp] theorem State.engineMem_others_top (off : Nat) (bs : List Byte) : (s.engineMem off bs).others = s.others := rfl
@[simp] theorem State.engineMem_chip_top (off : Nat) (bs : List Byte) : (s.engineMem off bs).chip = s.chip := rfl
@[simp] theorem State.engineMem_boundary_top (off : Nat) (bs : List Byte) : (s.engineMem off bs).boundary = s.boundary := rfl
@[simp] theorem State.engineMem_xc_top (off : Nat) (bs : List Byte) : (s.engineMem off bs).xc = s.xc := rfl
@[simp] theorem State.engineMem_cc_top (off : Nat) (bs : List Byte) : (s.engineMem off bs).cc = s.cc := rfl
@[simp] theorem State.engineMem_ir_top (off : Nat) (bs : List Byte) : (s.engineMem off bs).ir = s.ir := rfl
@[simp] theorem State.engineMem_row_top (off : Nat) (bs : List Byte) : (s.engineMem off bs).row = s.row := rfl
@[simp] theorem State.engineMem_stream_top (off : Nat) (bs : List Byte) : (s.engineMem off bs).stream = s.stream := rfl
@[simp] theorem State.engineMem_input_top (off : Nat) (bs : List Byte) : (s.engineMem off bs).input = s.input := rfl
@[simp] theorem State.engineMem_agenda_top (off : Nat) (bs : List Byte) : (s.engineMem off bs).agenda = s.agenda := rfl
@[simp] theorem State.engineMem_out_top (off : Nat) (bs : List Byte) : (s.engineMem off bs).out = s.out := rfl
@[simp] theorem State.engineMem_turn_top (off : Nat) (bs : List Byte) : (s.engineMem off bs).turn = s.turn := rfl
@[simp] theorem State.engineMem_tick_top (off : Nat) (bs : List Byte) : (s.engineMem off bs).tick = s.tick := rfl

/-! setParked -/

@[simp] theorem State.setParked_run (ps : Vector Parked 64) : (s.setParked ps).c.run = s.c.run := by dsimp only [State.setParked]
@[simp] theorem State.setParked_lid (ps : Vector Parked 64) : (s.setParked ps).c.lid = s.c.lid := by dsimp only [State.setParked]
@[simp] theorem State.setParked_s (ps : Vector Parked 64) : (s.setParked ps).c.s = s.c.s := by dsimp only [State.setParked]
@[simp] theorem State.setParked_v (ps : Vector Parked 64) : (s.setParked ps).c.v = s.c.v := by dsimp only [State.setParked]
@[simp] theorem State.setParked_k (ps : Vector Parked 64) : (s.setParked ps).c.k = s.c.k := by dsimp only [State.setParked]
@[simp] theorem State.setParked_h (ps : Vector Parked 64) : (s.setParked ps).c.h = s.c.h := by dsimp only [State.setParked]
@[simp] theorem State.setParked_pc (ps : Vector Parked 64) : (s.setParked ps).c.pc = s.c.pc := by dsimp only [State.setParked]
@[simp] theorem State.setParked_status (ps : Vector Parked 64) : (s.setParked ps).c.status = s.c.status := by dsimp only [State.setParked]
@[simp] theorem State.setParked_tvec (ps : Vector Parked 64) : (s.setParked ps).c.tvec = s.c.tvec := by dsimp only [State.setParked]
@[simp] theorem State.setParked_epc (ps : Vector Parked 64) : (s.setParked ps).c.epc = s.c.epc := by dsimp only [State.setParked]
@[simp] theorem State.setParked_cause (ps : Vector Parked 64) : (s.setParked ps).c.cause = s.c.cause := by dsimp only [State.setParked]
@[simp] theorem State.setParked_eaddr (ps : Vector Parked 64) : (s.setParked ps).c.eaddr = s.c.eaddr := by dsimp only [State.setParked]
@[simp] theorem State.setParked_eword (ps : Vector Parked 64) : (s.setParked ps).c.eword = s.c.eword := by dsimp only [State.setParked]
@[simp] theorem State.setParked_scratch (ps : Vector Parked 64) : (s.setParked ps).c.scratch = s.c.scratch := by dsimp only [State.setParked]
@[simp] theorem State.setParked_lcore (ps : Vector Parked 64) : (s.setParked ps).c.lcore = s.c.lcore := by dsimp only [State.setParked]
@[simp] theorem State.setParked_ncore (ps : Vector Parked 64) : (s.setParked ps).c.ncore = s.c.ncore := by dsimp only [State.setParked]
@[simp] theorem State.setParked_part (ps : Vector Parked 64) : (s.setParked ps).c.part = s.c.part := by dsimp only [State.setParked]
@[simp] theorem State.setParked_phase (ps : Vector Parked 64) : (s.setParked ps).c.phase = s.c.phase := by dsimp only [State.setParked]
@[simp] theorem State.setParked_lphase (ps : Vector Parked 64) : (s.setParked ps).c.lphase = s.c.lphase := by dsimp only [State.setParked]
@[simp] theorem State.setParked_stragg (ps : Vector Parked 64) : (s.setParked ps).c.stragg = s.c.stragg := by dsimp only [State.setParked]
@[simp] theorem State.setParked_xerr (ps : Vector Parked 64) : (s.setParked ps).c.xerr = s.c.xerr := by dsimp only [State.setParked]
@[simp] theorem State.setParked_xmiss (ps : Vector Parked 64) : (s.setParked ps).c.xmiss = s.c.xmiss := by dsimp only [State.setParked]
@[simp] theorem State.setParked_cyc (ps : Vector Parked 64) : (s.setParked ps).c.cyc = s.c.cyc := by dsimp only [State.setParked]
@[simp] theorem State.setParked_cycLatch (ps : Vector Parked 64) : (s.setParked ps).c.cycLatch = s.c.cycLatch := by dsimp only [State.setParked]
@[simp] theorem State.setParked_fmode (ps : Vector Parked 64) : (s.setParked ps).c.fmode = s.c.fmode := by dsimp only [State.setParked]
@[simp] theorem State.setParked_sbase (ps : Vector Parked 64) : (s.setParked ps).c.sbase = s.c.sbase := by dsimp only [State.setParked]
@[simp] theorem State.setParked_launch (ps : Vector Parked 64) : (s.setParked ps).c.launch = s.c.launch := by dsimp only [State.setParked]
@[simp] theorem State.setParked_mcheck (ps : Vector Parked 64) : (s.setParked ps).c.mcheck = s.c.mcheck := by dsimp only [State.setParked]
@[simp] theorem State.setParked_accmap (ps : Vector Parked 64) : (s.setParked ps).c.accmap = s.c.accmap := by dsimp only [State.setParked]
@[simp] theorem State.setParked_spillmap (ps : Vector Parked 64) : (s.setParked ps).c.spillmap = State.spillmapOf ps := by dsimp only [State.setParked]
@[simp] theorem State.setParked_vpcfg (ps : Vector Parked 64) : (s.setParked ps).c.vpcfg = s.c.vpcfg := by dsimp only [State.setParked]
@[simp] theorem State.setParked_vpst (ps : Vector Parked 64) : (s.setParked ps).c.vpst = s.c.vpst := by dsimp only [State.setParked]
@[simp] theorem State.setParked_ecfg (ps : Vector Parked 64) : (s.setParked ps).c.ecfg = s.c.ecfg := by dsimp only [State.setParked]
@[simp] theorem State.setParked_loopU (ps : Vector Parked 64) : (s.setParked ps).c.loopU = s.c.loopU := by dsimp only [State.setParked]
@[simp] theorem State.setParked_loopS (ps : Vector Parked 64) : (s.setParked ps).c.loopS = s.c.loopS := by dsimp only [State.setParked]
@[simp] theorem State.setParked_mem (ps : Vector Parked 64) : (s.setParked ps).c.mem = s.c.mem := by dsimp only [State.setParked]
@[simp] theorem State.setParked_memErr (ps : Vector Parked 64) : (s.setParked ps).c.memErr = s.c.memErr := by dsimp only [State.setParked]
@[simp] theorem State.setParked_stale (ps : Vector Parked 64) : (s.setParked ps).c.stale = s.c.stale := by dsimp only [State.setParked]
@[simp] theorem State.setParked_acc (ps : Vector Parked 64) : (s.setParked ps).c.acc = s.c.acc := by dsimp only [State.setParked]
@[simp] theorem State.setParked_accErr (ps : Vector Parked 64) : (s.setParked ps).c.accErr = s.c.accErr := by dsimp only [State.setParked]
@[simp] theorem State.setParked_parked (ps : Vector Parked 64) : (s.setParked ps).c.parked = ps := by dsimp only [State.setParked]
@[simp] theorem State.setParked_bar (ps : Vector Parked 64) : (s.setParked ps).c.bar = s.c.bar := by dsimp only [State.setParked]
@[simp] theorem State.setParked_cycleBar (ps : Vector Parked 64) : (s.setParked ps).c.cycleBar = s.c.cycleBar := by dsimp only [State.setParked]
@[simp] theorem State.setParked_mbox (ps : Vector Parked 64) : (s.setParked ps).c.mbox = s.c.mbox := by dsimp only [State.setParked]
@[simp] theorem State.setParked_mboxHead (ps : Vector Parked 64) : (s.setParked ps).c.mboxHead = s.c.mboxHead := by dsimp only [State.setParked]
@[simp] theorem State.setParked_mboxCount (ps : Vector Parked 64) : (s.setParked ps).c.mboxCount = s.c.mboxCount := by dsimp only [State.setParked]
@[simp] theorem State.setParked_held (ps : Vector Parked 64) : (s.setParked ps).c.held = s.c.held := by dsimp only [State.setParked]
@[simp] theorem State.setParked_mon (ps : Vector Parked 64) : (s.setParked ps).c.mon = s.c.mon := by dsimp only [State.setParked]
@[simp] theorem State.setParked_mx (ps : Vector Parked 64) : (s.setParked ps).c.mx = s.c.mx := by dsimp only [State.setParked]
@[simp] theorem State.setParked_mxStatus (ps : Vector Parked 64) : (s.setParked ps).c.mxStatus = s.c.mxStatus := by dsimp only [State.setParked]
@[simp] theorem State.setParked_head (ps : Vector Parked 64) : (s.setParked ps).c.head = s.c.head := by dsimp only [State.setParked]
@[simp] theorem State.setParked_headStatus (ps : Vector Parked 64) : (s.setParked ps).c.headStatus = s.c.headStatus := by dsimp only [State.setParked]
@[simp] theorem State.setParked_dir (ps : Vector Parked 64) : (s.setParked ps).c.dir = s.c.dir := by dsimp only [State.setParked]
@[simp] theorem State.setParked_copy (ps : Vector Parked 64) : (s.setParked ps).c.copy = s.c.copy := by dsimp only [State.setParked]
@[simp] theorem State.setParked_cfence (ps : Vector Parked 64) : (s.setParked ps).c.cfence = s.c.cfence := by dsimp only [State.setParked]
@[simp] theorem State.setParked_e0 (ps : Vector Parked 64) : (s.setParked ps).c.e0 = s.c.e0 := by dsimp only [State.setParked]
@[simp] theorem State.setParked_e1 (ps : Vector Parked 64) : (s.setParked ps).c.e1 = s.c.e1 := by dsimp only [State.setParked]
@[simp] theorem State.setParked_e2 (ps : Vector Parked 64) : (s.setParked ps).c.e2 = s.c.e2 := by dsimp only [State.setParked]
@[simp] theorem State.setParked_copyDone (ps : Vector Parked 64) : (s.setParked ps).c.copyDone = s.c.copyDone := by dsimp only [State.setParked]
@[simp] theorem State.setParked_arr (ps : Vector Parked 64) : (s.setParked ps).c.arr = s.c.arr := by dsimp only [State.setParked]
@[simp] theorem State.setParked_done (ps : Vector Parked 64) : (s.setParked ps).c.done = s.c.done := by dsimp only [State.setParked]
@[simp] theorem State.setParked_redNum (ps : Vector Parked 64) : (s.setParked ps).c.redNum = s.c.redNum := by dsimp only [State.setParked]
@[simp] theorem State.setParked_deferred (ps : Vector Parked 64) : (s.setParked ps).c.deferred = s.c.deferred := by dsimp only [State.setParked]
@[simp] theorem State.setParked_fetchStop (ps : Vector Parked 64) : (s.setParked ps).c.fetchStop = s.c.fetchStop := by dsimp only [State.setParked]
@[simp] theorem State.setParked_exch (ps : Vector Parked 64) : (s.setParked ps).c.exch = s.c.exch := by dsimp only [State.setParked]
@[simp] theorem State.setParked_pend (ps : Vector Parked 64) : (s.setParked ps).c.pend = s.c.pend := by dsimp only [State.setParked]
@[simp] theorem State.setParked_stall (ps : Vector Parked 64) : (s.setParked ps).c.stall = s.c.stall := by dsimp only [State.setParked]
@[simp] theorem State.setParked_issue (ps : Vector Parked 64) : (s.setParked ps).c.issue = s.c.issue := by dsimp only [State.setParked]
@[simp] theorem State.setParked_evSeq (ps : Vector Parked 64) : (s.setParked ps).c.evSeq = s.c.evSeq := by dsimp only [State.setParked]
@[simp] theorem State.setParked_asid (ps : Vector Parked 64) : (s.setParked ps).c.asid = s.c.asid := by dsimp only [State.setParked]
@[simp] theorem State.setParked_sh_top (ps : Vector Parked 64) : (s.setParked ps).sh = s.sh := by dsimp only [State.setParked]
@[simp] theorem State.setParked_half_top (ps : Vector Parked 64) : (s.setParked ps).half = s.half := by dsimp only [State.setParked]
@[simp] theorem State.setParked_t_top (ps : Vector Parked 64) : (s.setParked ps).t = s.t := by dsimp only [State.setParked]
@[simp] theorem State.setParked_p_top (ps : Vector Parked 64) : (s.setParked ps).p = s.p := by dsimp only [State.setParked]
@[simp] theorem State.setParked_others_top (ps : Vector Parked 64) : (s.setParked ps).others = s.others := by dsimp only [State.setParked]
@[simp] theorem State.setParked_chip_top (ps : Vector Parked 64) : (s.setParked ps).chip = s.chip := by dsimp only [State.setParked]
@[simp] theorem State.setParked_boundary_top (ps : Vector Parked 64) : (s.setParked ps).boundary = s.boundary := by dsimp only [State.setParked]
@[simp] theorem State.setParked_xc_top (ps : Vector Parked 64) : (s.setParked ps).xc = s.xc := by dsimp only [State.setParked]
@[simp] theorem State.setParked_cc_top (ps : Vector Parked 64) : (s.setParked ps).cc = s.cc := by dsimp only [State.setParked]
@[simp] theorem State.setParked_ir_top (ps : Vector Parked 64) : (s.setParked ps).ir = s.ir := by dsimp only [State.setParked]
@[simp] theorem State.setParked_row_top (ps : Vector Parked 64) : (s.setParked ps).row = s.row := by dsimp only [State.setParked]
@[simp] theorem State.setParked_stream_top (ps : Vector Parked 64) : (s.setParked ps).stream = s.stream := by dsimp only [State.setParked]
@[simp] theorem State.setParked_input_top (ps : Vector Parked 64) : (s.setParked ps).input = s.input := by dsimp only [State.setParked]
@[simp] theorem State.setParked_agenda_top (ps : Vector Parked 64) : (s.setParked ps).agenda = s.agenda := by dsimp only [State.setParked]
@[simp] theorem State.setParked_out_top (ps : Vector Parked 64) : (s.setParked ps).out = s.out := by dsimp only [State.setParked]
@[simp] theorem State.setParked_turn_top (ps : Vector Parked 64) : (s.setParked ps).turn = s.turn := by dsimp only [State.setParked]
@[simp] theorem State.setParked_tick_top (ps : Vector Parked 64) : (s.setParked ps).tick = s.tick := by dsimp only [State.setParked]

/-! setMonitor -/

@[simp] theorem State.setMonitor_run (i : Fin 8) (m : Monitor) : (s.setMonitor i m).c.run = s.c.run := rfl
@[simp] theorem State.setMonitor_lid (i : Fin 8) (m : Monitor) : (s.setMonitor i m).c.lid = s.c.lid := rfl
@[simp] theorem State.setMonitor_s (i : Fin 8) (m : Monitor) : (s.setMonitor i m).c.s = s.c.s := rfl
@[simp] theorem State.setMonitor_v (i : Fin 8) (m : Monitor) : (s.setMonitor i m).c.v = s.c.v := rfl
@[simp] theorem State.setMonitor_k (i : Fin 8) (m : Monitor) : (s.setMonitor i m).c.k = s.c.k := rfl
@[simp] theorem State.setMonitor_h (i : Fin 8) (m : Monitor) : (s.setMonitor i m).c.h = s.c.h := rfl
@[simp] theorem State.setMonitor_pc (i : Fin 8) (m : Monitor) : (s.setMonitor i m).c.pc = s.c.pc := rfl
@[simp] theorem State.setMonitor_status (i : Fin 8) (m : Monitor) : (s.setMonitor i m).c.status = s.c.status := rfl
@[simp] theorem State.setMonitor_tvec (i : Fin 8) (m : Monitor) : (s.setMonitor i m).c.tvec = s.c.tvec := rfl
@[simp] theorem State.setMonitor_epc (i : Fin 8) (m : Monitor) : (s.setMonitor i m).c.epc = s.c.epc := rfl
@[simp] theorem State.setMonitor_cause (i : Fin 8) (m : Monitor) : (s.setMonitor i m).c.cause = s.c.cause := rfl
@[simp] theorem State.setMonitor_eaddr (i : Fin 8) (m : Monitor) : (s.setMonitor i m).c.eaddr = s.c.eaddr := rfl
@[simp] theorem State.setMonitor_eword (i : Fin 8) (m : Monitor) : (s.setMonitor i m).c.eword = s.c.eword := rfl
@[simp] theorem State.setMonitor_scratch (i : Fin 8) (m : Monitor) : (s.setMonitor i m).c.scratch = s.c.scratch := rfl
@[simp] theorem State.setMonitor_lcore (i : Fin 8) (m : Monitor) : (s.setMonitor i m).c.lcore = s.c.lcore := rfl
@[simp] theorem State.setMonitor_ncore (i : Fin 8) (m : Monitor) : (s.setMonitor i m).c.ncore = s.c.ncore := rfl
@[simp] theorem State.setMonitor_part (i : Fin 8) (m : Monitor) : (s.setMonitor i m).c.part = s.c.part := rfl
@[simp] theorem State.setMonitor_phase (i : Fin 8) (m : Monitor) : (s.setMonitor i m).c.phase = s.c.phase := rfl
@[simp] theorem State.setMonitor_lphase (i : Fin 8) (m : Monitor) : (s.setMonitor i m).c.lphase = s.c.lphase := rfl
@[simp] theorem State.setMonitor_stragg (i : Fin 8) (m : Monitor) : (s.setMonitor i m).c.stragg = s.c.stragg := rfl
@[simp] theorem State.setMonitor_xerr (i : Fin 8) (m : Monitor) : (s.setMonitor i m).c.xerr = s.c.xerr := rfl
@[simp] theorem State.setMonitor_xmiss (i : Fin 8) (m : Monitor) : (s.setMonitor i m).c.xmiss = s.c.xmiss := rfl
@[simp] theorem State.setMonitor_cyc (i : Fin 8) (m : Monitor) : (s.setMonitor i m).c.cyc = s.c.cyc := rfl
@[simp] theorem State.setMonitor_cycLatch (i : Fin 8) (m : Monitor) : (s.setMonitor i m).c.cycLatch = s.c.cycLatch := rfl
@[simp] theorem State.setMonitor_fmode (i : Fin 8) (m : Monitor) : (s.setMonitor i m).c.fmode = s.c.fmode := rfl
@[simp] theorem State.setMonitor_sbase (i : Fin 8) (m : Monitor) : (s.setMonitor i m).c.sbase = s.c.sbase := rfl
@[simp] theorem State.setMonitor_launch (i : Fin 8) (m : Monitor) : (s.setMonitor i m).c.launch = s.c.launch := rfl
@[simp] theorem State.setMonitor_mcheck (i : Fin 8) (m : Monitor) : (s.setMonitor i m).c.mcheck = s.c.mcheck := rfl
@[simp] theorem State.setMonitor_accmap (i : Fin 8) (m : Monitor) : (s.setMonitor i m).c.accmap = s.c.accmap := rfl
@[simp] theorem State.setMonitor_spillmap (i : Fin 8) (m : Monitor) : (s.setMonitor i m).c.spillmap = s.c.spillmap := rfl
@[simp] theorem State.setMonitor_vpcfg (i : Fin 8) (m : Monitor) : (s.setMonitor i m).c.vpcfg = s.c.vpcfg := rfl
@[simp] theorem State.setMonitor_vpst (i : Fin 8) (m : Monitor) : (s.setMonitor i m).c.vpst = s.c.vpst := rfl
@[simp] theorem State.setMonitor_ecfg (i : Fin 8) (m : Monitor) : (s.setMonitor i m).c.ecfg = s.c.ecfg := rfl
@[simp] theorem State.setMonitor_loopU (i : Fin 8) (m : Monitor) : (s.setMonitor i m).c.loopU = s.c.loopU := rfl
@[simp] theorem State.setMonitor_loopS (i : Fin 8) (m : Monitor) : (s.setMonitor i m).c.loopS = s.c.loopS := rfl
@[simp] theorem State.setMonitor_mem (i : Fin 8) (m : Monitor) : (s.setMonitor i m).c.mem = s.c.mem := rfl
@[simp] theorem State.setMonitor_memErr (i : Fin 8) (m : Monitor) : (s.setMonitor i m).c.memErr = s.c.memErr := rfl
@[simp] theorem State.setMonitor_stale (i : Fin 8) (m : Monitor) : (s.setMonitor i m).c.stale = s.c.stale := rfl
@[simp] theorem State.setMonitor_acc (i : Fin 8) (m : Monitor) : (s.setMonitor i m).c.acc = s.c.acc := rfl
@[simp] theorem State.setMonitor_accErr (i : Fin 8) (m : Monitor) : (s.setMonitor i m).c.accErr = s.c.accErr := rfl
@[simp] theorem State.setMonitor_parked (i : Fin 8) (m : Monitor) : (s.setMonitor i m).c.parked = s.c.parked := rfl
@[simp] theorem State.setMonitor_bar (i : Fin 8) (m : Monitor) : (s.setMonitor i m).c.bar = s.c.bar := rfl
@[simp] theorem State.setMonitor_cycleBar (i : Fin 8) (m : Monitor) : (s.setMonitor i m).c.cycleBar = s.c.cycleBar := rfl
@[simp] theorem State.setMonitor_mbox (i : Fin 8) (m : Monitor) : (s.setMonitor i m).c.mbox = s.c.mbox := rfl
@[simp] theorem State.setMonitor_mboxHead (i : Fin 8) (m : Monitor) : (s.setMonitor i m).c.mboxHead = s.c.mboxHead := rfl
@[simp] theorem State.setMonitor_mboxCount (i : Fin 8) (m : Monitor) : (s.setMonitor i m).c.mboxCount = s.c.mboxCount := rfl
@[simp] theorem State.setMonitor_held (i : Fin 8) (m : Monitor) : (s.setMonitor i m).c.held = s.c.held := rfl
@[simp] theorem State.setMonitor_mon (i : Fin 8) (m : Monitor) : (s.setMonitor i m).c.mon = s.c.mon.set i m := rfl
@[simp] theorem State.setMonitor_mx (i : Fin 8) (m : Monitor) : (s.setMonitor i m).c.mx = s.c.mx := rfl
@[simp] theorem State.setMonitor_mxStatus (i : Fin 8) (m : Monitor) : (s.setMonitor i m).c.mxStatus = s.c.mxStatus := rfl
@[simp] theorem State.setMonitor_head (i : Fin 8) (m : Monitor) : (s.setMonitor i m).c.head = s.c.head := rfl
@[simp] theorem State.setMonitor_headStatus (i : Fin 8) (m : Monitor) : (s.setMonitor i m).c.headStatus = s.c.headStatus := rfl
@[simp] theorem State.setMonitor_dir (i : Fin 8) (m : Monitor) : (s.setMonitor i m).c.dir = s.c.dir := rfl
@[simp] theorem State.setMonitor_copy (i : Fin 8) (m : Monitor) : (s.setMonitor i m).c.copy = s.c.copy := rfl
@[simp] theorem State.setMonitor_cfence (i : Fin 8) (m : Monitor) : (s.setMonitor i m).c.cfence = s.c.cfence := rfl
@[simp] theorem State.setMonitor_e0 (i : Fin 8) (m : Monitor) : (s.setMonitor i m).c.e0 = s.c.e0 := rfl
@[simp] theorem State.setMonitor_e1 (i : Fin 8) (m : Monitor) : (s.setMonitor i m).c.e1 = s.c.e1 := rfl
@[simp] theorem State.setMonitor_e2 (i : Fin 8) (m : Monitor) : (s.setMonitor i m).c.e2 = s.c.e2 := rfl
@[simp] theorem State.setMonitor_copyDone (i : Fin 8) (m : Monitor) : (s.setMonitor i m).c.copyDone = s.c.copyDone := rfl
@[simp] theorem State.setMonitor_arr (i : Fin 8) (m : Monitor) : (s.setMonitor i m).c.arr = s.c.arr := rfl
@[simp] theorem State.setMonitor_done (i : Fin 8) (m : Monitor) : (s.setMonitor i m).c.done = s.c.done := rfl
@[simp] theorem State.setMonitor_redNum (i : Fin 8) (m : Monitor) : (s.setMonitor i m).c.redNum = s.c.redNum := rfl
@[simp] theorem State.setMonitor_deferred (i : Fin 8) (m : Monitor) : (s.setMonitor i m).c.deferred = s.c.deferred := rfl
@[simp] theorem State.setMonitor_fetchStop (i : Fin 8) (m : Monitor) : (s.setMonitor i m).c.fetchStop = s.c.fetchStop := rfl
@[simp] theorem State.setMonitor_exch (i : Fin 8) (m : Monitor) : (s.setMonitor i m).c.exch = s.c.exch := rfl
@[simp] theorem State.setMonitor_pend (i : Fin 8) (m : Monitor) : (s.setMonitor i m).c.pend = s.c.pend := rfl
@[simp] theorem State.setMonitor_stall (i : Fin 8) (m : Monitor) : (s.setMonitor i m).c.stall = s.c.stall := rfl
@[simp] theorem State.setMonitor_issue (i : Fin 8) (m : Monitor) : (s.setMonitor i m).c.issue = s.c.issue := rfl
@[simp] theorem State.setMonitor_evSeq (i : Fin 8) (m : Monitor) : (s.setMonitor i m).c.evSeq = s.c.evSeq := rfl
@[simp] theorem State.setMonitor_asid (i : Fin 8) (m : Monitor) : (s.setMonitor i m).c.asid = s.c.asid := rfl
@[simp] theorem State.setMonitor_sh_top (i : Fin 8) (m : Monitor) : (s.setMonitor i m).sh = s.sh := rfl
@[simp] theorem State.setMonitor_half_top (i : Fin 8) (m : Monitor) : (s.setMonitor i m).half = s.half := rfl
@[simp] theorem State.setMonitor_t_top (i : Fin 8) (m : Monitor) : (s.setMonitor i m).t = s.t := rfl
@[simp] theorem State.setMonitor_p_top (i : Fin 8) (m : Monitor) : (s.setMonitor i m).p = s.p := rfl
@[simp] theorem State.setMonitor_others_top (i : Fin 8) (m : Monitor) : (s.setMonitor i m).others = s.others := rfl
@[simp] theorem State.setMonitor_chip_top (i : Fin 8) (m : Monitor) : (s.setMonitor i m).chip = s.chip := rfl
@[simp] theorem State.setMonitor_boundary_top (i : Fin 8) (m : Monitor) : (s.setMonitor i m).boundary = s.boundary := rfl
@[simp] theorem State.setMonitor_xc_top (i : Fin 8) (m : Monitor) : (s.setMonitor i m).xc = s.xc := rfl
@[simp] theorem State.setMonitor_cc_top (i : Fin 8) (m : Monitor) : (s.setMonitor i m).cc = s.cc := rfl
@[simp] theorem State.setMonitor_ir_top (i : Fin 8) (m : Monitor) : (s.setMonitor i m).ir = s.ir := rfl
@[simp] theorem State.setMonitor_row_top (i : Fin 8) (m : Monitor) : (s.setMonitor i m).row = s.row := rfl
@[simp] theorem State.setMonitor_stream_top (i : Fin 8) (m : Monitor) : (s.setMonitor i m).stream = s.stream := rfl
@[simp] theorem State.setMonitor_input_top (i : Fin 8) (m : Monitor) : (s.setMonitor i m).input = s.input := rfl
@[simp] theorem State.setMonitor_agenda_top (i : Fin 8) (m : Monitor) : (s.setMonitor i m).agenda = s.agenda := rfl
@[simp] theorem State.setMonitor_out_top (i : Fin 8) (m : Monitor) : (s.setMonitor i m).out = s.out := rfl
@[simp] theorem State.setMonitor_turn_top (i : Fin 8) (m : Monitor) : (s.setMonitor i m).turn = s.turn := rfl
@[simp] theorem State.setMonitor_tick_top (i : Fin 8) (m : Monitor) : (s.setMonitor i m).tick = s.tick := rfl

end Sys2Proof.Machine
end

