-- ==== Sys2Proof/Laws/Ops.lean ====
section
/-! SUPPORT. Laws/Ops.lean: what each shared operation can do, said once: the end of an instruction, traps, waits, the
access rule of R93 and the checks before it. -/

namespace Sys2Proof.Machine

/-! Registers (R16). -/

@[simp] theorem State.reg_zero (s : State) : s.reg 0 = 0 := rfl

theorem State.reg_setReg (s : State) (d r : Reg) (x : Word) :
    (s.setReg d x).reg r = if r = d ∧ d ≠ 0 then x else s.reg r := by
  unfold State.reg
  rw [State.setReg_s]
  by_cases hr : r = 0
  · subst hr
    by_cases hd : (0 : Reg) = d
    · subst hd; simp
    · simp [hd]
  · by_cases hd : d = 0
    · subst hd; simp [hr]
    · by_cases h : r = d
      · subst h; simp [hr]
      · have : d.val ≠ r.val := fun e => h (Fin.ext e.symm)
        simp [hr, hd, h, this]

@[simp] theorem State.setReg_zero (s : State) (x : Word) : s.setReg 0 x = s := rfl

/-! The end of an instruction (R99). -/

/-- What adv reads. -/
structure SameFlow (s t : State) : Prop where
  regs : s.c.s = t.c.s
  status : s.c.status = t.c.status
  loopU : s.c.loopU = t.c.loopU
  loopS : s.c.loopS = t.c.loopS
  pc : s.c.pc = t.c.pc
  ir : s.ir = t.ir

theorem SameFlow.refl (s : State) : SameFlow s s := ⟨rfl, rfl, rfl, rfl, rfl, rfl⟩

/-- Completion in sequence: the loop goes round, it ends, or there is none at its end. -/
theorem State.adv_cases (s : State) :
    ((s.follower = false ∧ s.loop.act = true ∧ s.seqPc = s.loop.stop) ∧ s.reg s.loop.reg - 1 ≠ 0 ∧
      s.adv = (s.setReg s.loop.reg (s.reg s.loop.reg - 1)).setPc s.loop.start) ∨
    ((s.follower = false ∧ s.loop.act = true ∧ s.seqPc = s.loop.stop) ∧ s.reg s.loop.reg - 1 = 0 ∧
      s.adv = ((s.setReg s.loop.reg 0).setLoop { s.loop with act := false }).setPc s.loop.stop) ∨
    (¬(s.follower = false ∧ s.loop.act = true ∧ s.seqPc = s.loop.stop) ∧ s.adv = s.setPc s.seqPc) := by
  unfold State.adv
  by_cases h : s.follower = false ∧ s.loop.act = true ∧ s.seqPc = s.loop.stop
  · have hb : (!s.follower && s.loop.act && s.seqPc == s.loop.stop) = true := by simp [h]
    by_cases h1 : s.reg s.loop.reg - 1 = 0
    · exact .inr (.inl ⟨h, h1, by rw [if_pos hb, if_neg (by simpa using h1)]⟩)
    · exact .inl ⟨h, h1, by rw [if_pos hb, if_pos h1]⟩
  · have hb : ¬((!s.follower && s.loop.act && s.seqPc == s.loop.stop) = true) := by simpa [and_assoc] using h
    exact .inr (.inr ⟨h, by rw [if_neg hb]⟩)

/-- Completion touches the scalar registers, pc, the loop states and what the instruction has done while it waited. -/
theorem State.adv_eq (s : State) :
    s.adv = { s with c := { s.c with
      s := s.adv.c.s, pc := s.adv.c.pc, loopU := s.adv.c.loopU, loopS := s.adv.c.loopS, stall := false, pend := .none } } := by
  rcases s.adv_cases with ⟨_, _, h⟩ | ⟨_, _, h⟩ | ⟨_, h⟩ <;> rw [h]
  · simp only [State.setPc, State.setReg]; split <;> rfl
  · simp only [State.setPc, State.setReg, State.setLoop]; split <;> split <;> rfl
  · rfl

/-- Completion depends on the registers, the mode, the loop states, pc and the words alone. -/
theorem State.adv_congr {s t : State} (h : SameFlow s t) :
    s.adv.c.s = t.adv.c.s ∧ s.adv.c.pc = t.adv.c.pc ∧ s.adv.c.loopU = t.adv.c.loopU ∧ s.adv.c.loopS = t.adv.c.loopS := by
  obtain ⟨h1, h2, h3, h4, h5, h6⟩ := h
  have svc : s.svc = t.svc := by simp only [State.svc, h2]
  have fol : s.follower = t.follower := by simp only [State.follower, h2]
  have loop : s.loop = t.loop := by simp only [State.loop, svc, h3, h4]
  have seq : s.seqPc = t.seqPc := by simp only [State.seqPc, h5, h6]
  have reg : ∀ r, s.reg r = t.reg r := fun r => by simp only [State.reg, h1]
  have cond : (s.follower = false ∧ s.loop.act = true ∧ s.seqPc = s.loop.stop) =
      (t.follower = false ∧ t.loop.act = true ∧ t.seqPc = t.loop.stop) := by rw [fol, loop, seq]
  have svc1 : ∀ r x, (s.setReg r x).svc = (t.setReg r x).svc := fun r x => by
    simp only [State.svc, State.setReg_status, h2]
  rcases s.adv_cases with ⟨c, d, e⟩ | ⟨c, d, e⟩ | ⟨c, e⟩ <;>
    rcases t.adv_cases with ⟨c', d', e'⟩ | ⟨c', d', e'⟩ | ⟨c', e'⟩ <;>
    first
    | (rw [cond] at c; exact absurd c c')
    | (rw [cond] at c; exact absurd c' c)
    | (rw [loop, reg] at d; exact absurd d d')
    | (rw [loop, reg] at d; exact absurd d' d)
    | (rw [e, e']
       simp only [State.setPc_s, State.setPc_pc, State.setPc_loopU, State.setPc_loopS, State.setReg_s, State.setReg_loopU,
         State.setReg_loopS, State.setLoop_s, State.setLoop_loopU, State.setLoop_loopS, h1, h3, h4, loop, reg, seq, svc1,
         and_self])

/-- Completion of a state that differs from another in nothing that completion reads. -/
theorem State.adv_with {s t : State} (h : SameFlow t s) :
    t.adv = { t with c := { t.c with
      s := s.adv.c.s, pc := s.adv.c.pc, loopU := s.adv.c.loopU, loopS := s.adv.c.loopS, stall := false, pend := .none } } := by
  obtain ⟨h1, h2, h3, h4⟩ := State.adv_congr h
  rw [t.adv_eq, h1, h2, h3, h4]

@[simp] theorem State.adv_svc (s : State) : s.adv.svc = s.svc := by rw [s.adv_eq]; rfl
@[simp] theorem State.adv_mem (s : State) : s.adv.c.mem = s.c.mem := by rw [s.adv_eq]
@[simp] theorem State.adv_acc (s : State) : s.adv.c.acc = s.c.acc := by rw [s.adv_eq]
@[simp] theorem State.adv_v (s : State) : s.adv.c.v = s.c.v := by rw [s.adv_eq]
@[simp] theorem State.adv_k (s : State) : s.adv.c.k = s.c.k := by rw [s.adv_eq]
@[simp] theorem State.adv_h (s : State) : s.adv.c.h = s.c.h := by rw [s.adv_eq]
@[simp] theorem State.adv_status (s : State) : s.adv.c.status = s.c.status := by rw [s.adv_eq]
@[simp] theorem State.adv_sh (s : State) : s.adv.sh = s.sh := by rw [s.adv_eq]
@[simp] theorem State.adv_t (s : State) : s.adv.t = s.t := by rw [s.adv_eq]
@[simp] theorem State.adv_p (s : State) : s.adv.p = s.p := by rw [s.adv_eq]
@[simp] theorem State.adv_chip (s : State) : s.adv.chip = s.chip := by rw [s.adv_eq]
@[simp] theorem State.adv_others (s : State) : s.adv.others = s.others := by rw [s.adv_eq]
@[simp] theorem State.adv_half (s : State) : s.adv.half = s.half := by rw [s.adv_eq]
@[simp] theorem State.adv_xc (s : State) : s.adv.xc = s.xc := by rw [s.adv_eq]
@[simp] theorem State.adv_cc (s : State) : s.adv.cc = s.cc := by rw [s.adv_eq]
@[simp] theorem State.adv_input (s : State) : s.adv.input = s.input := by rw [s.adv_eq]
@[simp] theorem State.adv_row (s : State) : s.adv.row = s.row := by rw [s.adv_eq]
@[simp] theorem State.adv_out (s : State) : s.adv.out = s.out := by rw [s.adv_eq]
@[simp] theorem State.adv_stall (s : State) : s.adv.c.stall = false := by rw [s.adv_eq]
@[simp] theorem State.adv_pend (s : State) : s.adv.c.pend = .none := by rw [s.adv_eq]

/-- A scalar register that is not the active loop's keeps its value at completion. -/
theorem State.adv_reg (s : State) (r : Reg) (h : r ≠ s.loop.reg) : s.adv.reg r = s.reg r := by
  have hk : ∀ (t : State) (a : Word), (t.setPc a).reg r = t.reg r := fun _ _ => rfl
  have hl : ∀ (t : State) (l : LoopState), (t.setLoop l).reg r = t.reg r := fun t l => by
    simp only [State.reg, State.setLoop_s]
  rcases s.adv_cases with ⟨_, _, e⟩ | ⟨_, _, e⟩ | ⟨_, e⟩ <;> rw [e, hk]
  · rw [State.reg_setReg, if_neg (fun c => h c.1)]
  · rw [hl, State.reg_setReg, if_neg (fun c => h c.1)]

/-! Traps and waits. -/

/-- A trap writes the trap registers, c.status and pc, and a double trap the service inbox besides. -/
theorem State.enter_controlOnly (s : State) (cause epc eaddr eword : Word) :
    (s.enter cause epc eaddr eword).c.mem = s.c.mem ∧ (s.enter cause epc eaddr eword).c.acc = s.c.acc ∧
    (s.enter cause epc eaddr eword).c.s = s.c.s ∧ (s.enter cause epc eaddr eword).c.v = s.c.v ∧
    (s.enter cause epc eaddr eword).sh = s.sh ∧ (s.enter cause epc eaddr eword).p = s.p ∧
    (s.enter cause epc eaddr eword).chip = s.chip := by
  unfold State.enter; split <;> exact ⟨rfl, rfl, rfl, rfl, rfl, rfl, rfl⟩

/-- Outside an exchange phase a trap is taken at once. -/
theorem State.raise_compute (s : State) (t : Trap) (h : s.inExchange = false) :
    s.raise t = .next (s.enter (causeWord t.cause t.detail s.ir.len) s.c.pc t.eaddr s.ir.eword) := by
  simp [State.raise, h]

/-- In one it is deferred, and the next instruction follows (R156). -/
theorem State.raise_exchange (s : State) (t : Trap) (h : s.inExchange = true) :
    s.raise t = .next (s.deferTrap t (if t.cause = .slot ∨ t.cause = .late then t.eaddr.toNat else s.issueOffset)
      { cause := causeWord t.cause t.detail 0, eaddr := t.eaddr, eword := s.ir.eword }).adv := by
  simp [State.raise, State.deferAt, h]

@[simp] theorem State.classC_compute (s : State) (k : Result) (h : s.inExchange = false) : s.classC k = k := by
  simp [State.classC, h]

theorem State.classC_exchange (s : State) (k : Result) (h : s.inExchange = true) : s.classC k = s.trap .phase := by
  simp [State.classC, h]

@[simp] theorem State.check_none (s : State) (k : Result) : s.check none k = k := rfl
@[simp] theorem State.check_some (s : State) (t : Trap) (k : Result) : s.check (some t) k = s.raise t := rfl

/-- No operation of a meaning ends in anything but a next state. -/
theorem State.raise_next (s : State) (t : Trap) : ∃ u, s.raise t = .next u := by
  unfold State.raise; split <;> exact ⟨_, rfl⟩

/-! Bytes. -/

@[simp] theorem leBytes_length (n x : Nat) : (leBytes n x).length = n := by
  induction n generalizing x <;> simp [leBytes, *]

theorem leBytes_getElem (n x k : Nat) (h : k < (leBytes n x).length) : (leBytes n x)[k] = BitVec.ofNat 8 (x / 256 ^ k) := by
  induction n generalizing x k with
  | zero => simp [leBytes] at h
  | succ n ih =>
    cases k with
    | zero => simp [leBytes]
    | succ k =>
      simp only [leBytes, List.getElem_cons_succ]
      rw [ih, Nat.div_div_eq_div_mul, Nat.pow_succ, Nat.mul_comm]

/-- Bytes of a number below 256 ^ n hold it. -/
theorem leNat_leBytes (n x : Nat) : leNat (leBytes n x) = x % 256 ^ n := by
  induction n generalizing x with
  | zero => simp [leBytes, leNat, Nat.mod_one]
  | succ n ih =>
    simp only [leBytes, leNat, ih, BitVec.toNat_ofNat]
    rw [show 256 ^ (n + 1) = 256 * 256 ^ n by rw [Nat.pow_succ, Nat.mul_comm], Nat.mod_mul]

/-! The access rule (R93). -/

/-- An access traps, waits, meets an uncorrectable error, or does what its meaning says. -/
theorem State.access_cases (s : State) (ea : Word) (size : Nat) (store : Bool) (k : State → Result) :
    (∃ t, s.accessTrap ea size = some t ∧ s.access ea size store k = s.raise t) ∨
    (s.accessTrap ea size = none ∧
      (s.access ea size store k = s.wait ∨
       (s.accessBad ea size = true ∧ s.access ea size store k = s.eccTrap ea (if viewOf ea = 8 then 1 else 0) size) ∨
       s.access ea size store k = k s)) := by
  unfold State.access
  cases s.accessTrap ea size with
  | some t => exact .inl ⟨t, rfl, rfl⟩
  | none =>
    refine .inr ⟨rfl, ?_⟩
    simp only [State.check_none]
    split
    · exact .inl rfl
    · split
      · exact .inr (.inl ⟨by assumption, rfl⟩)
      · split
        · exact .inl rfl
        · exact .inr (.inr rfl)

end Sys2Proof.Machine
end

