-- ==== Sys2Proof/Laws/Invariant.lean ====
section
/-! SUPPORT. Laws/Invariant.lean: the memory operations keep every memory in canonical form, and what shares the memories
of a state in the invariant is in it. -/

namespace Sys2Proof.Machine

/-- A context with the memories of another is as canonical. -/
theorem Ctx.Canonical.of_eq {c d : Ctx} (h : c.Canonical) (hm : d.mem = c.mem) (ha : d.acc = c.acc) : d.Canonical :=
  ⟨hm ▸ h.mem, ha ▸ h.acc⟩

/-- A fresh context is canonical. -/
theorem Ctx.canonical_fresh : ({} : Ctx).Canonical := ⟨rfl, rfl⟩

/-- The invariant depends on the memories alone. -/
theorem State.Inv.of_eq {s t : State} (h : s.Inv) (hm : t.c.mem = s.c.mem) (ha : t.c.acc = s.c.acc)
    (hsm : t.sh.mem = s.sh.mem) (hsa : t.sh.acc = s.sh.acc) (hp : t.p.paged = s.p.paged)
    (ho : t.others = s.others) (hg : t.chip.gmem = s.chip.gmem) (hv : t.chip.saved = s.chip.saved)
    (hr : t.chip.area = s.chip.area) : t.Inv where
  core := h.core.of_eq hm ha
  shadow := h.shadow.of_eq hsm hsa
  paged := fun g hg' => h.paged g (hp ▸ hg')
  others := ho ▸ h.others
  global := hg ▸ h.global
  area := fun v hv' => h.area v (hr ▸ hv')
  saved := fun v hv' => h.saved v (hv ▸ hv')

/-- The core's memories may change, as long as they stay canonical. -/
theorem State.Inv.of_core {s t : State} (h : s.Inv) (hm : t.c.mem.wf = true) (ha : t.c.acc.wf = true)
    (hs : t.sh = s.sh) (hp : t.p = s.p) (ho : t.others = s.others) (hc : t.chip = s.chip) : t.Inv where
  core := ⟨hm, ha⟩
  shadow := hs ▸ h.shadow
  paged := fun g hg => h.paged g (hp ▸ hg)
  others := ho ▸ h.others
  global := hc ▸ h.global
  area := fun v hv => h.area v (hc ▸ hv)
  saved := fun v hv => h.saved v (hc ▸ hv)

theorem State.storeMem_inv {s : State} (off : Nat) (bs : List Byte) (h : s.Inv) : (s.storeMem off bs).Inv :=
  h.of_core (Memory.writeBytes_wf _ _ _ h.core.mem) h.core.acc rfl rfl rfl rfl

theorem State.engineMem_inv {s : State} (off : Nat) (bs : List Byte) (h : s.Inv) : (s.engineMem off bs).Inv :=
  h.of_core (Memory.writeBytes_wf _ _ _ h.core.mem) h.core.acc rfl rfl rfl rfl

theorem State.storeAcc_inv {s : State} (off : Nat) (bs : List Byte) (h : s.Inv) : (s.storeAcc off bs).Inv :=
  h.of_core h.core.mem (Memory.writeBytes_wf _ _ _ h.core.acc) rfl rfl rfl rfl

theorem State.gwrite_inv {s : State} (pa : Nat) (bs : List Byte) (key : Nat) (h : s.Inv) : (s.gwrite pa bs key).Inv where
  core := h.core
  shadow := h.shadow
  paged := h.paged
  others := h.others
  global := Memory.writeBytes_wf _ _ _ (Memory.writeBytes_wf _ _ _ h.global)
  area := h.area
  saved := h.saved

theorem State.fire_inv {s : State} (off len : Nat) (h : s.Inv) : (s.fire off len).Inv :=
  h.of_core h.core.mem h.core.acc rfl rfl rfl rfl

theorem State.setReg_inv {s : State} (d : Reg) (x : Word) (h : s.Inv) : (s.setReg d x).Inv :=
  h.of_eq (by simp) (by simp) (by simp) (by simp) (by simp) (by simp) (by simp) (by simp) (by simp)

theorem State.setV_inv {s : State} (d : Reg) (x : VWord) (h : s.Inv) : (s.setV d x).Inv :=
  h.of_eq rfl rfl rfl rfl rfl rfl rfl rfl rfl

theorem State.adv_inv {s : State} (h : s.Inv) : s.adv.Inv :=
  h.of_eq (by simp) (by simp) (by simp) (by simp) (by simp) (by simp) (by simp) (by simp) (by simp)

/-- A fold keeps the invariant where each of its steps does. -/
theorem State.foldl_inv {α : Type} {f : State → α → State} (hf : ∀ t a, t.Inv → (f t a).Inv) :
    ∀ (xs : List α) {s : State}, s.Inv → (xs.foldl f s).Inv
  | [], _, h => h
  | x :: xs, _, h => foldl_inv hf xs (hf _ x h)

theorem State.put_inv {s : State} (o : Out) (h : s.Inv) : (s.put o).Inv := h.of_eq rfl rfl rfl rfl rfl rfl rfl rfl rfl

theorem State.setExch_inv {s : State} (e : Exch) (h : s.Inv) : (s.setExch e).Inv := h.of_eq rfl rfl rfl rfl rfl rfl rfl rfl rfl

theorem State.logRecord_inv {s : State} (src kind : Nat) (a b c d : Word) (h : s.Inv) : (s.logRecord src kind a b c d).Inv := by
  unfold State.logRecord
  dsimp only
  split <;> exact h.of_eq rfl rfl rfl rfl rfl rfl rfl rfl rfl

theorem State.logWords_inv {s : State} (mem off n : Nat) (tag : Word) (h : s.Inv) : (s.logWords mem off n tag).Inv :=
  foldl_inv (fun _ _ h => logRecord_inv _ _ _ _ _ _ h) _ h

theorem State.miss_inv {s : State} (c : Claim) (h : s.Inv) : (s.miss c).Inv := h.of_eq rfl rfl rfl rfl rfl rfl rfl rfl rfl

theorem State.sendBeat_inv {s : State} (b : SendBeat) (h : s.Inv) : (s.sendBeat b).Inv := by
  unfold State.sendBeat
  split
  · exact put_inv _ (logWords_inv _ _ _ _ h)
  · split <;> exact put_inv _ h

theorem State.flushSends_inv {s : State} (t : Nat) (h : s.Inv) : (s.flushSends t).Inv :=
  setExch_inv _ (foldl_inv (fun _ b h => sendBeat_inv b h) _ h)

theorem State.handleBeat_inv {s : State} (t : Nat) (i : Input) (h : s.Inv) : (s.handleBeat t i).Inv := by
  unfold State.handleBeat State.takeBeat State.receiveBeat State.writeBeat
  dsimp only
  split
  · split
    · split
      · exact engineMem_inv _ _ (setExch_inv _ h)
      · split
        · exact miss_inv _ (logWords_inv _ _ _ _ h)
        · exact engineMem_inv _ _ (setExch_inv _ h)
    · exact miss_inv _ h
  · exact h

/-- The beats of an offset that has passed are written in canonical form. -/
theorem State.settleBeats_inv {s : State} (h : s.Inv) : s.settleBeats.Inv := by
  unfold State.settleBeats
  split
  · exact h
  · split
    · exact h
    · exact foldl_inv (fun _ i h => handleBeat_inv _ i h) _ (setExch_inv _ (flushSends_inv _ h))

theorem State.pass_inv {s : State} (h : s.Inv) : s.pass.Inv := by
  unfold State.pass State.settlePast
  split
  · exact settleBeats_inv (h.of_eq rfl rfl rfl rfl rfl rfl rfl rfl rfl)
  · exact h.of_eq rfl rfl rfl rfl rfl rfl rfl rfl rfl

theorem State.enter_inv {s : State} (cause pc eaddr eword : Word) (h : s.Inv) : (s.enter cause pc eaddr eword).Inv := by
  unfold State.enter
  split
  · exact h.of_eq rfl rfl rfl rfl rfl rfl rfl rfl rfl
  · exact h.of_eq rfl rfl rfl rfl rfl rfl rfl rfl rfl

/-- The state after reset has the invariant's memories. -/
theorem State.reset_canonical : State.reset.c.mem.wf = true ∧ State.reset.chip.gmem.wf = true := ⟨rfl, rfl⟩

end Sys2Proof.Machine
end

