-- ==== Sys2Proof/Laws/PerInstr.lean ====
section
/-! SUPPORT. Laws/PerInstr.lean: family F, one lemma per constructor: the fields that the encoder gives a well-formed
instruction decode to it (R63 to R73); a row without an encoding is not well-formed. -/

namespace Sys2Proof.Laws

set_option linter.unusedSimpArgs false

/-- The fields of a well-formed instruction decode to it. -/
def F.Statement (i : Instr) : Prop := i.wf = true → ∀ f, fieldsOf i = some f → decodeFields f = .ok i

theorem F.add (d : Reg) (a : Reg) (b : Reg) : F.Statement (.add d a b) := by
  intro hw f h
  obtain rfl := Option.some.inj h
  simp [decodeFields, entryOf, entryP0, entryP0M0, entryP0MB, entryP0MC, entryP0ME, Fields.mz, Fields.m0, Fields.d0, Fields.a0, Fields.b0, Fields.hd, Fields.ha, Fields.hb, Fields.kd, Fields.ka, Fields.kb, Fields.kc, Use.check, Use.rrr, Use.rr, Use.rd, Use.ra, Use.rab, Use.r0, Use.rbOnly, Use.rrrc, Use.v3, Use.v2, Use.v3c, Use.red, Use.raImm, Use.rdImm, Use.imm, Use.shift, Use.subA, Use.sub0, Use.subAm, Use.branch, Use.jump, Use.r, hw]
theorem F.sub (d : Reg) (a : Reg) (b : Reg) : F.Statement (.sub d a b) := by
  intro hw f h
  obtain rfl := Option.some.inj h
  simp [decodeFields, entryOf, entryP0, entryP0M0, entryP0MB, entryP0MC, entryP0ME, Fields.mz, Fields.m0, Fields.d0, Fields.a0, Fields.b0, Fields.hd, Fields.ha, Fields.hb, Fields.kd, Fields.ka, Fields.kb, Fields.kc, Use.check, Use.rrr, Use.rr, Use.rd, Use.ra, Use.rab, Use.r0, Use.rbOnly, Use.rrrc, Use.v3, Use.v2, Use.v3c, Use.red, Use.raImm, Use.rdImm, Use.imm, Use.shift, Use.subA, Use.sub0, Use.subAm, Use.branch, Use.jump, Use.r, hw]
theorem F.and (d : Reg) (a : Reg) (b : Reg) : F.Statement (.and d a b) := by
  intro hw f h
  obtain rfl := Option.some.inj h
  simp [decodeFields, entryOf, entryP0, entryP0M0, entryP0MB, entryP0MC, entryP0ME, Fields.mz, Fields.m0, Fields.d0, Fields.a0, Fields.b0, Fields.hd, Fields.ha, Fields.hb, Fields.kd, Fields.ka, Fields.kb, Fields.kc, Use.check, Use.rrr, Use.rr, Use.rd, Use.ra, Use.rab, Use.r0, Use.rbOnly, Use.rrrc, Use.v3, Use.v2, Use.v3c, Use.red, Use.raImm, Use.rdImm, Use.imm, Use.shift, Use.subA, Use.sub0, Use.subAm, Use.branch, Use.jump, Use.r, hw]
theorem F.or (d : Reg) (a : Reg) (b : Reg) : F.Statement (.or d a b) := by
  intro hw f h
  obtain rfl := Option.some.inj h
  simp [decodeFields, entryOf, entryP0, entryP0M0, entryP0MB, entryP0MC, entryP0ME, Fields.mz, Fields.m0, Fields.d0, Fields.a0, Fields.b0, Fields.hd, Fields.ha, Fields.hb, Fields.kd, Fields.ka, Fields.kb, Fields.kc, Use.check, Use.rrr, Use.rr, Use.rd, Use.ra, Use.rab, Use.r0, Use.rbOnly, Use.rrrc, Use.v3, Use.v2, Use.v3c, Use.red, Use.raImm, Use.rdImm, Use.imm, Use.shift, Use.subA, Use.sub0, Use.subAm, Use.branch, Use.jump, Use.r, hw]
theorem F.xor (d : Reg) (a : Reg) (b : Reg) : F.Statement (.xor d a b) := by
  intro hw f h
  obtain rfl := Option.some.inj h
  simp [decodeFields, entryOf, entryP0, entryP0M0, entryP0MB, entryP0MC, entryP0ME, Fields.mz, Fields.m0, Fields.d0, Fields.a0, Fields.b0, Fields.hd, Fields.ha, Fields.hb, Fields.kd, Fields.ka, Fields.kb, Fields.kc, Use.check, Use.rrr, Use.rr, Use.rd, Use.ra, Use.rab, Use.r0, Use.rbOnly, Use.rrrc, Use.v3, Use.v2, Use.v3c, Use.red, Use.raImm, Use.rdImm, Use.imm, Use.shift, Use.subA, Use.sub0, Use.subAm, Use.branch, Use.jump, Use.r, hw]
theorem F.shl (d : Reg) (a : Reg) (b : Reg) : F.Statement (.shl d a b) := by
  intro hw f h
  obtain rfl := Option.some.inj h
  simp [decodeFields, entryOf, entryP0, entryP0M0, entryP0MB, entryP0MC, entryP0ME, Fields.mz, Fields.m0, Fields.d0, Fields.a0, Fields.b0, Fields.hd, Fields.ha, Fields.hb, Fields.kd, Fields.ka, Fields.kb, Fields.kc, Use.check, Use.rrr, Use.rr, Use.rd, Use.ra, Use.rab, Use.r0, Use.rbOnly, Use.rrrc, Use.v3, Use.v2, Use.v3c, Use.red, Use.raImm, Use.rdImm, Use.imm, Use.shift, Use.subA, Use.sub0, Use.subAm, Use.branch, Use.jump, Use.r, hw]
theorem F.shr (d : Reg) (a : Reg) (b : Reg) : F.Statement (.shr d a b) := by
  intro hw f h
  obtain rfl := Option.some.inj h
  simp [decodeFields, entryOf, entryP0, entryP0M0, entryP0MB, entryP0MC, entryP0ME, Fields.mz, Fields.m0, Fields.d0, Fields.a0, Fields.b0, Fields.hd, Fields.ha, Fields.hb, Fields.kd, Fields.ka, Fields.kb, Fields.kc, Use.check, Use.rrr, Use.rr, Use.rd, Use.ra, Use.rab, Use.r0, Use.rbOnly, Use.rrrc, Use.v3, Use.v2, Use.v3c, Use.red, Use.raImm, Use.rdImm, Use.imm, Use.shift, Use.subA, Use.sub0, Use.subAm, Use.branch, Use.jump, Use.r, hw]
theorem F.sra (d : Reg) (a : Reg) (b : Reg) : F.Statement (.sra d a b) := by
  intro hw f h
  obtain rfl := Option.some.inj h
  simp [decodeFields, entryOf, entryP0, entryP0M0, entryP0MB, entryP0MC, entryP0ME, Fields.mz, Fields.m0, Fields.d0, Fields.a0, Fields.b0, Fields.hd, Fields.ha, Fields.hb, Fields.kd, Fields.ka, Fields.kb, Fields.kc, Use.check, Use.rrr, Use.rr, Use.rd, Use.ra, Use.rab, Use.r0, Use.rbOnly, Use.rrrc, Use.v3, Use.v2, Use.v3c, Use.red, Use.raImm, Use.rdImm, Use.imm, Use.shift, Use.subA, Use.sub0, Use.subAm, Use.branch, Use.jump, Use.r, hw]
theorem F.slt (d : Reg) (a : Reg) (b : Reg) : F.Statement (.slt d a b) := by
  intro hw f h
  obtain rfl := Option.some.inj h
  simp [decodeFields, entryOf, entryP0, entryP0M0, entryP0MB, entryP0MC, entryP0ME, Fields.mz, Fields.m0, Fields.d0, Fields.a0, Fields.b0, Fields.hd, Fields.ha, Fields.hb, Fields.kd, Fields.ka, Fields.kb, Fields.kc, Use.check, Use.rrr, Use.rr, Use.rd, Use.ra, Use.rab, Use.r0, Use.rbOnly, Use.rrrc, Use.v3, Use.v2, Use.v3c, Use.red, Use.raImm, Use.rdImm, Use.imm, Use.shift, Use.subA, Use.sub0, Use.subAm, Use.branch, Use.jump, Use.r, hw]
theorem F.sltu (d : Reg) (a : Reg) (b : Reg) : F.Statement (.sltu d a b) := by
  intro hw f h
  obtain rfl := Option.some.inj h
  simp [decodeFields, entryOf, entryP0, entryP0M0, entryP0MB, entryP0MC, entryP0ME, Fields.mz, Fields.m0, Fields.d0, Fields.a0, Fields.b0, Fields.hd, Fields.ha, Fields.hb, Fields.kd, Fields.ka, Fields.kb, Fields.kc, Use.check, Use.rrr, Use.rr, Use.rd, Use.ra, Use.rab, Use.r0, Use.rbOnly, Use.rrrc, Use.v3, Use.v2, Use.v3c, Use.red, Use.raImm, Use.rdImm, Use.imm, Use.shift, Use.subA, Use.sub0, Use.subAm, Use.branch, Use.jump, Use.r, hw]
theorem F.seq (d : Reg) (a : Reg) (b : Reg) : F.Statement (.seq d a b) := by
  intro hw f h
  obtain rfl := Option.some.inj h
  simp [decodeFields, entryOf, entryP0, entryP0M0, entryP0MB, entryP0MC, entryP0ME, Fields.mz, Fields.m0, Fields.d0, Fields.a0, Fields.b0, Fields.hd, Fields.ha, Fields.hb, Fields.kd, Fields.ka, Fields.kb, Fields.kc, Use.check, Use.rrr, Use.rr, Use.rd, Use.ra, Use.rab, Use.r0, Use.rbOnly, Use.rrrc, Use.v3, Use.v2, Use.v3c, Use.red, Use.raImm, Use.rdImm, Use.imm, Use.shift, Use.subA, Use.sub0, Use.subAm, Use.branch, Use.jump, Use.r, hw]
theorem F.sne (d : Reg) (a : Reg) (b : Reg) : F.Statement (.sne d a b) := by
  intro hw f h
  obtain rfl := Option.some.inj h
  simp [decodeFields, entryOf, entryP0, entryP0M0, entryP0MB, entryP0MC, entryP0ME, Fields.mz, Fields.m0, Fields.d0, Fields.a0, Fields.b0, Fields.hd, Fields.ha, Fields.hb, Fields.kd, Fields.ka, Fields.kb, Fields.kc, Use.check, Use.rrr, Use.rr, Use.rd, Use.ra, Use.rab, Use.r0, Use.rbOnly, Use.rrrc, Use.v3, Use.v2, Use.v3c, Use.red, Use.raImm, Use.rdImm, Use.imm, Use.shift, Use.subA, Use.sub0, Use.subAm, Use.branch, Use.jump, Use.r, hw]
theorem F.min (d : Reg) (a : Reg) (b : Reg) : F.Statement (.min d a b) := by
  intro hw f h
  obtain rfl := Option.some.inj h
  simp [decodeFields, entryOf, entryP0, entryP0M0, entryP0MB, entryP0MC, entryP0ME, Fields.mz, Fields.m0, Fields.d0, Fields.a0, Fields.b0, Fields.hd, Fields.ha, Fields.hb, Fields.kd, Fields.ka, Fields.kb, Fields.kc, Use.check, Use.rrr, Use.rr, Use.rd, Use.ra, Use.rab, Use.r0, Use.rbOnly, Use.rrrc, Use.v3, Use.v2, Use.v3c, Use.red, Use.raImm, Use.rdImm, Use.imm, Use.shift, Use.subA, Use.sub0, Use.subAm, Use.branch, Use.jump, Use.r, hw]
theorem F.max (d : Reg) (a : Reg) (b : Reg) : F.Statement (.max d a b) := by
  intro hw f h
  obtain rfl := Option.some.inj h
  simp [decodeFields, entryOf, entryP0, entryP0M0, entryP0MB, entryP0MC, entryP0ME, Fields.mz, Fields.m0, Fields.d0, Fields.a0, Fields.b0, Fields.hd, Fields.ha, Fields.hb, Fields.kd, Fields.ka, Fields.kb, Fields.kc, Use.check, Use.rrr, Use.rr, Use.rd, Use.ra, Use.rab, Use.r0, Use.rbOnly, Use.rrrc, Use.v3, Use.v2, Use.v3c, Use.red, Use.raImm, Use.rdImm, Use.imm, Use.shift, Use.subA, Use.sub0, Use.subAm, Use.branch, Use.jump, Use.r, hw]
theorem F.minu (d : Reg) (a : Reg) (b : Reg) : F.Statement (.minu d a b) := by
  intro hw f h
  obtain rfl := Option.some.inj h
  simp [decodeFields, entryOf, entryP0, entryP0M0, entryP0MB, entryP0MC, entryP0ME, Fields.mz, Fields.m0, Fields.d0, Fields.a0, Fields.b0, Fields.hd, Fields.ha, Fields.hb, Fields.kd, Fields.ka, Fields.kb, Fields.kc, Use.check, Use.rrr, Use.rr, Use.rd, Use.ra, Use.rab, Use.r0, Use.rbOnly, Use.rrrc, Use.v3, Use.v2, Use.v3c, Use.red, Use.raImm, Use.rdImm, Use.imm, Use.shift, Use.subA, Use.sub0, Use.subAm, Use.branch, Use.jump, Use.r, hw]
theorem F.maxu (d : Reg) (a : Reg) (b : Reg) : F.Statement (.maxu d a b) := by
  intro hw f h
  obtain rfl := Option.some.inj h
  simp [decodeFields, entryOf, entryP0, entryP0M0, entryP0MB, entryP0MC, entryP0ME, Fields.mz, Fields.m0, Fields.d0, Fields.a0, Fields.b0, Fields.hd, Fields.ha, Fields.hb, Fields.kd, Fields.ka, Fields.kb, Fields.kc, Use.check, Use.rrr, Use.rr, Use.rd, Use.ra, Use.rab, Use.r0, Use.rbOnly, Use.rrrc, Use.v3, Use.v2, Use.v3c, Use.red, Use.raImm, Use.rdImm, Use.imm, Use.shift, Use.subA, Use.sub0, Use.subAm, Use.branch, Use.jump, Use.r, hw]
theorem F.mul (d : Reg) (a : Reg) (b : Reg) : F.Statement (.mul d a b) := by
  intro hw f h
  obtain rfl := Option.some.inj h
  simp [decodeFields, entryOf, entryP0, entryP0M0, entryP0MB, entryP0MC, entryP0ME, Fields.mz, Fields.m0, Fields.d0, Fields.a0, Fields.b0, Fields.hd, Fields.ha, Fields.hb, Fields.kd, Fields.ka, Fields.kb, Fields.kc, Use.check, Use.rrr, Use.rr, Use.rd, Use.ra, Use.rab, Use.r0, Use.rbOnly, Use.rrrc, Use.v3, Use.v2, Use.v3c, Use.red, Use.raImm, Use.rdImm, Use.imm, Use.shift, Use.subA, Use.sub0, Use.subAm, Use.branch, Use.jump, Use.r, hw]
theorem F.mulh (d : Reg) (a : Reg) (b : Reg) : F.Statement (.mulh d a b) := by
  intro hw f h
  obtain rfl := Option.some.inj h
  simp [decodeFields, entryOf, entryP0, entryP0M0, entryP0MB, entryP0MC, entryP0ME, Fields.mz, Fields.m0, Fields.d0, Fields.a0, Fields.b0, Fields.hd, Fields.ha, Fields.hb, Fields.kd, Fields.ka, Fields.kb, Fields.kc, Use.check, Use.rrr, Use.rr, Use.rd, Use.ra, Use.rab, Use.r0, Use.rbOnly, Use.rrrc, Use.v3, Use.v2, Use.v3c, Use.red, Use.raImm, Use.rdImm, Use.imm, Use.shift, Use.subA, Use.sub0, Use.subAm, Use.branch, Use.jump, Use.r, hw]
theorem F.mulhu (d : Reg) (a : Reg) (b : Reg) : F.Statement (.mulhu d a b) := by
  intro hw f h
  obtain rfl := Option.some.inj h
  simp [decodeFields, entryOf, entryP0, entryP0M0, entryP0MB, entryP0MC, entryP0ME, Fields.mz, Fields.m0, Fields.d0, Fields.a0, Fields.b0, Fields.hd, Fields.ha, Fields.hb, Fields.kd, Fields.ka, Fields.kb, Fields.kc, Use.check, Use.rrr, Use.rr, Use.rd, Use.ra, Use.rab, Use.r0, Use.rbOnly, Use.rrrc, Use.v3, Use.v2, Use.v3c, Use.red, Use.raImm, Use.rdImm, Use.imm, Use.shift, Use.subA, Use.sub0, Use.subAm, Use.branch, Use.jump, Use.r, hw]
theorem F.div (d : Reg) (a : Reg) (b : Reg) : F.Statement (.div d a b) := by
  intro hw f h
  obtain rfl := Option.some.inj h
  simp [decodeFields, entryOf, entryP0, entryP0M0, entryP0MB, entryP0MC, entryP0ME, Fields.mz, Fields.m0, Fields.d0, Fields.a0, Fields.b0, Fields.hd, Fields.ha, Fields.hb, Fields.kd, Fields.ka, Fields.kb, Fields.kc, Use.check, Use.rrr, Use.rr, Use.rd, Use.ra, Use.rab, Use.r0, Use.rbOnly, Use.rrrc, Use.v3, Use.v2, Use.v3c, Use.red, Use.raImm, Use.rdImm, Use.imm, Use.shift, Use.subA, Use.sub0, Use.subAm, Use.branch, Use.jump, Use.r, hw]
theorem F.divu (d : Reg) (a : Reg) (b : Reg) : F.Statement (.divu d a b) := by
  intro hw f h
  obtain rfl := Option.some.inj h
  simp [decodeFields, entryOf, entryP0, entryP0M0, entryP0MB, entryP0MC, entryP0ME, Fields.mz, Fields.m0, Fields.d0, Fields.a0, Fields.b0, Fields.hd, Fields.ha, Fields.hb, Fields.kd, Fields.ka, Fields.kb, Fields.kc, Use.check, Use.rrr, Use.rr, Use.rd, Use.ra, Use.rab, Use.r0, Use.rbOnly, Use.rrrc, Use.v3, Use.v2, Use.v3c, Use.red, Use.raImm, Use.rdImm, Use.imm, Use.shift, Use.subA, Use.sub0, Use.subAm, Use.branch, Use.jump, Use.r, hw]
theorem F.rem (d : Reg) (a : Reg) (b : Reg) : F.Statement (.rem d a b) := by
  intro hw f h
  obtain rfl := Option.some.inj h
  simp [decodeFields, entryOf, entryP0, entryP0M0, entryP0MB, entryP0MC, entryP0ME, Fields.mz, Fields.m0, Fields.d0, Fields.a0, Fields.b0, Fields.hd, Fields.ha, Fields.hb, Fields.kd, Fields.ka, Fields.kb, Fields.kc, Use.check, Use.rrr, Use.rr, Use.rd, Use.ra, Use.rab, Use.r0, Use.rbOnly, Use.rrrc, Use.v3, Use.v2, Use.v3c, Use.red, Use.raImm, Use.rdImm, Use.imm, Use.shift, Use.subA, Use.sub0, Use.subAm, Use.branch, Use.jump, Use.r, hw]
theorem F.remu (d : Reg) (a : Reg) (b : Reg) : F.Statement (.remu d a b) := by
  intro hw f h
  obtain rfl := Option.some.inj h
  simp [decodeFields, entryOf, entryP0, entryP0M0, entryP0MB, entryP0MC, entryP0ME, Fields.mz, Fields.m0, Fields.d0, Fields.a0, Fields.b0, Fields.hd, Fields.ha, Fields.hb, Fields.kd, Fields.ka, Fields.kb, Fields.kc, Use.check, Use.rrr, Use.rr, Use.rd, Use.ra, Use.rab, Use.r0, Use.rbOnly, Use.rrrc, Use.v3, Use.v2, Use.v3c, Use.red, Use.raImm, Use.rdImm, Use.imm, Use.shift, Use.subA, Use.sub0, Use.subAm, Use.branch, Use.jump, Use.r, hw]
theorem F.madd (d : Reg) (a : Reg) (b : Reg) (c : Reg) : F.Statement (.madd d a b c) := by
  intro hw f h
  obtain rfl := Option.some.inj h
  simp [decodeFields, entryOf, entryP0, entryP0M0, entryP0MB, entryP0MC, entryP0ME, Fields.mz, Fields.m0, Fields.d0, Fields.a0, Fields.b0, Fields.hd, Fields.ha, Fields.hb, Fields.kd, Fields.ka, Fields.kb, Fields.kc, Use.check, Use.rrr, Use.rr, Use.rd, Use.ra, Use.rab, Use.r0, Use.rbOnly, Use.rrrc, Use.v3, Use.v2, Use.v3c, Use.red, Use.raImm, Use.rdImm, Use.imm, Use.shift, Use.subA, Use.sub0, Use.subAm, Use.branch, Use.jump, Use.r, hw]
theorem F.clz (d : Reg) (a : Reg) : F.Statement (.clz d a) := by
  intro hw f h
  obtain rfl := Option.some.inj h
  simp [decodeFields, entryOf, entryP0, entryP0M0, entryP0MB, entryP0MC, entryP0ME, Fields.mz, Fields.m0, Fields.d0, Fields.a0, Fields.b0, Fields.hd, Fields.ha, Fields.hb, Fields.kd, Fields.ka, Fields.kb, Fields.kc, Use.check, Use.rrr, Use.rr, Use.rd, Use.ra, Use.rab, Use.r0, Use.rbOnly, Use.rrrc, Use.v3, Use.v2, Use.v3c, Use.red, Use.raImm, Use.rdImm, Use.imm, Use.shift, Use.subA, Use.sub0, Use.subAm, Use.branch, Use.jump, Use.r, hw]
theorem F.ctz (d : Reg) (a : Reg) : F.Statement (.ctz d a) := by
  intro hw f h
  obtain rfl := Option.some.inj h
  simp [decodeFields, entryOf, entryP0, entryP0M0, entryP0MB, entryP0MC, entryP0ME, Fields.mz, Fields.m0, Fields.d0, Fields.a0, Fields.b0, Fields.hd, Fields.ha, Fields.hb, Fields.kd, Fields.ka, Fields.kb, Fields.kc, Use.check, Use.rrr, Use.rr, Use.rd, Use.ra, Use.rab, Use.r0, Use.rbOnly, Use.rrrc, Use.v3, Use.v2, Use.v3c, Use.red, Use.raImm, Use.rdImm, Use.imm, Use.shift, Use.subA, Use.sub0, Use.subAm, Use.branch, Use.jump, Use.r, hw]
theorem F.popc (d : Reg) (a : Reg) : F.Statement (.popc d a) := by
  intro hw f h
  obtain rfl := Option.some.inj h
  simp [decodeFields, entryOf, entryP0, entryP0M0, entryP0MB, entryP0MC, entryP0ME, Fields.mz, Fields.m0, Fields.d0, Fields.a0, Fields.b0, Fields.hd, Fields.ha, Fields.hb, Fields.kd, Fields.ka, Fields.kb, Fields.kc, Use.check, Use.rrr, Use.rr, Use.rd, Use.ra, Use.rab, Use.r0, Use.rbOnly, Use.rrrc, Use.v3, Use.v2, Use.v3c, Use.red, Use.raImm, Use.rdImm, Use.imm, Use.shift, Use.subA, Use.sub0, Use.subAm, Use.branch, Use.jump, Use.r, hw]
theorem F.sextB (d : Reg) (a : Reg) : F.Statement (.sextB d a) := by
  intro hw f h
  obtain rfl := Option.some.inj h
  simp [decodeFields, entryOf, entryP0, entryP0M0, entryP0MB, entryP0MC, entryP0ME, Fields.mz, Fields.m0, Fields.d0, Fields.a0, Fields.b0, Fields.hd, Fields.ha, Fields.hb, Fields.kd, Fields.ka, Fields.kb, Fields.kc, Use.check, Use.rrr, Use.rr, Use.rd, Use.ra, Use.rab, Use.r0, Use.rbOnly, Use.rrrc, Use.v3, Use.v2, Use.v3c, Use.red, Use.raImm, Use.rdImm, Use.imm, Use.shift, Use.subA, Use.sub0, Use.subAm, Use.branch, Use.jump, Use.r, hw]
theorem F.sextH (d : Reg) (a : Reg) : F.Statement (.sextH d a) := by
  intro hw f h
  obtain rfl := Option.some.inj h
  simp [decodeFields, entryOf, entryP0, entryP0M0, entryP0MB, entryP0MC, entryP0ME, Fields.mz, Fields.m0, Fields.d0, Fields.a0, Fields.b0, Fields.hd, Fields.ha, Fields.hb, Fields.kd, Fields.ka, Fields.kb, Fields.kc, Use.check, Use.rrr, Use.rr, Use.rd, Use.ra, Use.rab, Use.r0, Use.rbOnly, Use.rrrc, Use.v3, Use.v2, Use.v3c, Use.red, Use.raImm, Use.rdImm, Use.imm, Use.shift, Use.subA, Use.sub0, Use.subAm, Use.branch, Use.jump, Use.r, hw]
theorem F.zextB (d : Reg) (a : Reg) : F.Statement (.zextB d a) := by
  intro hw f h
  obtain rfl := Option.some.inj h
  simp [decodeFields, entryOf, entryP0, entryP0M0, entryP0MB, entryP0MC, entryP0ME, Fields.mz, Fields.m0, Fields.d0, Fields.a0, Fields.b0, Fields.hd, Fields.ha, Fields.hb, Fields.kd, Fields.ka, Fields.kb, Fields.kc, Use.check, Use.rrr, Use.rr, Use.rd, Use.ra, Use.rab, Use.r0, Use.rbOnly, Use.rrrc, Use.v3, Use.v2, Use.v3c, Use.red, Use.raImm, Use.rdImm, Use.imm, Use.shift, Use.subA, Use.sub0, Use.subAm, Use.branch, Use.jump, Use.r, hw]
theorem F.zextH (d : Reg) (a : Reg) : F.Statement (.zextH d a) := by
  intro hw f h
  obtain rfl := Option.some.inj h
  simp [decodeFields, entryOf, entryP0, entryP0M0, entryP0MB, entryP0MC, entryP0ME, Fields.mz, Fields.m0, Fields.d0, Fields.a0, Fields.b0, Fields.hd, Fields.ha, Fields.hb, Fields.kd, Fields.ka, Fields.kb, Fields.kc, Use.check, Use.rrr, Use.rr, Use.rd, Use.ra, Use.rab, Use.r0, Use.rbOnly, Use.rrrc, Use.v3, Use.v2, Use.v3c, Use.red, Use.raImm, Use.rdImm, Use.imm, Use.shift, Use.subA, Use.sub0, Use.subAm, Use.branch, Use.jump, Use.r, hw]
theorem F.sel (d : Reg) (a : Reg) (b : Reg) (c : Reg) : F.Statement (.sel d a b c) := by
  intro hw f h
  obtain rfl := Option.some.inj h
  simp [decodeFields, entryOf, entryP0, entryP0M0, entryP0MB, entryP0MC, entryP0ME, Fields.mz, Fields.m0, Fields.d0, Fields.a0, Fields.b0, Fields.hd, Fields.ha, Fields.hb, Fields.kd, Fields.ka, Fields.kb, Fields.kc, Use.check, Use.rrr, Use.rr, Use.rd, Use.ra, Use.rab, Use.r0, Use.rbOnly, Use.rrrc, Use.v3, Use.v2, Use.v3c, Use.red, Use.raImm, Use.rdImm, Use.imm, Use.shift, Use.subA, Use.sub0, Use.subAm, Use.branch, Use.jump, Use.r, hw]
theorem F.addi (d : Reg) (a : Reg) (imm : BitVec 26) : F.Statement (.addi d a imm) := by
  intro hw f h
  obtain rfl := Option.some.inj h
  simp [decodeFields, entryOf, entryP0, entryP0M0, entryP0MB, entryP0MC, entryP0ME, Fields.mz, Fields.m0, Fields.d0, Fields.a0, Fields.b0, Fields.hd, Fields.ha, Fields.hb, Fields.kd, Fields.ka, Fields.kb, Fields.kc, Use.check, Use.rrr, Use.rr, Use.rd, Use.ra, Use.rab, Use.r0, Use.rbOnly, Use.rrrc, Use.v3, Use.v2, Use.v3c, Use.red, Use.raImm, Use.rdImm, Use.imm, Use.shift, Use.subA, Use.sub0, Use.subAm, Use.branch, Use.jump, Use.r, hw, mkIS, mkIU, -BitVec.truncate_eq_setWidth]
theorem F.andi (d : Reg) (a : Reg) (imm : BitVec 26) : F.Statement (.andi d a imm) := by
  intro hw f h
  obtain rfl := Option.some.inj h
  simp [decodeFields, entryOf, entryP0, entryP0M0, entryP0MB, entryP0MC, entryP0ME, Fields.mz, Fields.m0, Fields.d0, Fields.a0, Fields.b0, Fields.hd, Fields.ha, Fields.hb, Fields.kd, Fields.ka, Fields.kb, Fields.kc, Use.check, Use.rrr, Use.rr, Use.rd, Use.ra, Use.rab, Use.r0, Use.rbOnly, Use.rrrc, Use.v3, Use.v2, Use.v3c, Use.red, Use.raImm, Use.rdImm, Use.imm, Use.shift, Use.subA, Use.sub0, Use.subAm, Use.branch, Use.jump, Use.r, hw, mkIS, mkIU, -BitVec.truncate_eq_setWidth]
theorem F.ori (d : Reg) (a : Reg) (imm : BitVec 26) : F.Statement (.ori d a imm) := by
  intro hw f h
  obtain rfl := Option.some.inj h
  simp [decodeFields, entryOf, entryP0, entryP0M0, entryP0MB, entryP0MC, entryP0ME, Fields.mz, Fields.m0, Fields.d0, Fields.a0, Fields.b0, Fields.hd, Fields.ha, Fields.hb, Fields.kd, Fields.ka, Fields.kb, Fields.kc, Use.check, Use.rrr, Use.rr, Use.rd, Use.ra, Use.rab, Use.r0, Use.rbOnly, Use.rrrc, Use.v3, Use.v2, Use.v3c, Use.red, Use.raImm, Use.rdImm, Use.imm, Use.shift, Use.subA, Use.sub0, Use.subAm, Use.branch, Use.jump, Use.r, hw, mkIS, mkIU, -BitVec.truncate_eq_setWidth]
theorem F.xori (d : Reg) (a : Reg) (imm : BitVec 26) : F.Statement (.xori d a imm) := by
  intro hw f h
  obtain rfl := Option.some.inj h
  simp [decodeFields, entryOf, entryP0, entryP0M0, entryP0MB, entryP0MC, entryP0ME, Fields.mz, Fields.m0, Fields.d0, Fields.a0, Fields.b0, Fields.hd, Fields.ha, Fields.hb, Fields.kd, Fields.ka, Fields.kb, Fields.kc, Use.check, Use.rrr, Use.rr, Use.rd, Use.ra, Use.rab, Use.r0, Use.rbOnly, Use.rrrc, Use.v3, Use.v2, Use.v3c, Use.red, Use.raImm, Use.rdImm, Use.imm, Use.shift, Use.subA, Use.sub0, Use.subAm, Use.branch, Use.jump, Use.r, hw, mkIS, mkIU, -BitVec.truncate_eq_setWidth]
theorem F.slti (d : Reg) (a : Reg) (imm : BitVec 26) : F.Statement (.slti d a imm) := by
  intro hw f h
  obtain rfl := Option.some.inj h
  simp [decodeFields, entryOf, entryP0, entryP0M0, entryP0MB, entryP0MC, entryP0ME, Fields.mz, Fields.m0, Fields.d0, Fields.a0, Fields.b0, Fields.hd, Fields.ha, Fields.hb, Fields.kd, Fields.ka, Fields.kb, Fields.kc, Use.check, Use.rrr, Use.rr, Use.rd, Use.ra, Use.rab, Use.r0, Use.rbOnly, Use.rrrc, Use.v3, Use.v2, Use.v3c, Use.red, Use.raImm, Use.rdImm, Use.imm, Use.shift, Use.subA, Use.sub0, Use.subAm, Use.branch, Use.jump, Use.r, hw, mkIS, mkIU, -BitVec.truncate_eq_setWidth]
theorem F.sltiu (d : Reg) (a : Reg) (imm : BitVec 26) : F.Statement (.sltiu d a imm) := by
  intro hw f h
  obtain rfl := Option.some.inj h
  simp [decodeFields, entryOf, entryP0, entryP0M0, entryP0MB, entryP0MC, entryP0ME, Fields.mz, Fields.m0, Fields.d0, Fields.a0, Fields.b0, Fields.hd, Fields.ha, Fields.hb, Fields.kd, Fields.ka, Fields.kb, Fields.kc, Use.check, Use.rrr, Use.rr, Use.rd, Use.ra, Use.rab, Use.r0, Use.rbOnly, Use.rrrc, Use.v3, Use.v2, Use.v3c, Use.red, Use.raImm, Use.rdImm, Use.imm, Use.shift, Use.subA, Use.sub0, Use.subAm, Use.branch, Use.jump, Use.r, hw, mkIS, mkIU, -BitVec.truncate_eq_setWidth]
theorem F.shli (d : Reg) (a : Reg) (n : BitVec 5) : F.Statement (.shli d a n) := by
  intro hw f h
  obtain rfl := Option.some.inj h
  obtain ⟨h1, h2, h3⟩ := shift_low n
  simp [decodeFields, entryOf, entryP0, entryP0M0, entryP0MB, entryP0MC, entryP0ME, Fields.mz, Fields.m0, Fields.d0, Fields.a0, Fields.b0, Fields.hd, Fields.ha, Fields.hb, Fields.kd, Fields.ka, Fields.kb, Fields.kc, Use.check, Use.rrr, Use.rr, Use.rd, Use.ra, Use.rab, Use.r0, Use.rbOnly, Use.rrrc, Use.v3, Use.v2, Use.v3c, Use.red, Use.raImm, Use.rdImm, Use.imm, Use.shift, Use.subA, Use.sub0, Use.subAm, Use.branch, Use.jump, Use.r, hw, mkIS, mkIU, -BitVec.truncate_eq_setWidth, h1, h2, h3]
theorem F.shri (d : Reg) (a : Reg) (n : BitVec 5) : F.Statement (.shri d a n) := by
  intro hw f h
  obtain rfl := Option.some.inj h
  obtain ⟨h1, h2, h3⟩ := shift_low n
  simp [decodeFields, entryOf, entryP0, entryP0M0, entryP0MB, entryP0MC, entryP0ME, Fields.mz, Fields.m0, Fields.d0, Fields.a0, Fields.b0, Fields.hd, Fields.ha, Fields.hb, Fields.kd, Fields.ka, Fields.kb, Fields.kc, Use.check, Use.rrr, Use.rr, Use.rd, Use.ra, Use.rab, Use.r0, Use.rbOnly, Use.rrrc, Use.v3, Use.v2, Use.v3c, Use.red, Use.raImm, Use.rdImm, Use.imm, Use.shift, Use.subA, Use.sub0, Use.subAm, Use.branch, Use.jump, Use.r, hw, mkIS, mkIU, -BitVec.truncate_eq_setWidth, h1, h2, h3]
theorem F.srai (d : Reg) (a : Reg) (n : BitVec 5) : F.Statement (.srai d a n) := by
  intro hw f h
  obtain rfl := Option.some.inj h
  obtain ⟨h1, h2, h3⟩ := shift_low n
  simp [decodeFields, entryOf, entryP0, entryP0M0, entryP0MB, entryP0MC, entryP0ME, Fields.mz, Fields.m0, Fields.d0, Fields.a0, Fields.b0, Fields.hd, Fields.ha, Fields.hb, Fields.kd, Fields.ka, Fields.kb, Fields.kc, Use.check, Use.rrr, Use.rr, Use.rd, Use.ra, Use.rab, Use.r0, Use.rbOnly, Use.rrrc, Use.v3, Use.v2, Use.v3c, Use.red, Use.raImm, Use.rdImm, Use.imm, Use.shift, Use.subA, Use.sub0, Use.subAm, Use.branch, Use.jump, Use.r, hw, mkIS, mkIU, -BitVec.truncate_eq_setWidth, h1, h2, h3]
theorem F.ldW (d : Reg) (a : Reg) (imm : BitVec 26) : F.Statement (.ldW d a imm) := by
  intro hw f h
  obtain rfl := Option.some.inj h
  simp [decodeFields, entryOf, entryP0, entryP0M0, entryP0MB, entryP0MC, entryP0ME, Fields.mz, Fields.m0, Fields.d0, Fields.a0, Fields.b0, Fields.hd, Fields.ha, Fields.hb, Fields.kd, Fields.ka, Fields.kb, Fields.kc, Use.check, Use.rrr, Use.rr, Use.rd, Use.ra, Use.rab, Use.r0, Use.rbOnly, Use.rrrc, Use.v3, Use.v2, Use.v3c, Use.red, Use.raImm, Use.rdImm, Use.imm, Use.shift, Use.subA, Use.sub0, Use.subAm, Use.branch, Use.jump, Use.r, hw, mkIS, mkIU, -BitVec.truncate_eq_setWidth]
theorem F.stW (d : Reg) (a : Reg) (imm : BitVec 26) : F.Statement (.stW d a imm) := by
  intro hw f h
  obtain rfl := Option.some.inj h
  simp [decodeFields, entryOf, entryP0, entryP0M0, entryP0MB, entryP0MC, entryP0ME, Fields.mz, Fields.m0, Fields.d0, Fields.a0, Fields.b0, Fields.hd, Fields.ha, Fields.hb, Fields.kd, Fields.ka, Fields.kb, Fields.kc, Use.check, Use.rrr, Use.rr, Use.rd, Use.ra, Use.rab, Use.r0, Use.rbOnly, Use.rrrc, Use.v3, Use.v2, Use.v3c, Use.red, Use.raImm, Use.rdImm, Use.imm, Use.shift, Use.subA, Use.sub0, Use.subAm, Use.branch, Use.jump, Use.r, hw, mkIS, mkIU, -BitVec.truncate_eq_setWidth]
theorem F.ldB (d : Reg) (a : Reg) (b : Reg) : F.Statement (.ldB d a b) := by
  intro hw f h
  obtain rfl := Option.some.inj h
  simp [decodeFields, entryOf, entryP0, entryP0M0, entryP0MB, entryP0MC, entryP0ME, Fields.mz, Fields.m0, Fields.d0, Fields.a0, Fields.b0, Fields.hd, Fields.ha, Fields.hb, Fields.kd, Fields.ka, Fields.kb, Fields.kc, Use.check, Use.rrr, Use.rr, Use.rd, Use.ra, Use.rab, Use.r0, Use.rbOnly, Use.rrrc, Use.v3, Use.v2, Use.v3c, Use.red, Use.raImm, Use.rdImm, Use.imm, Use.shift, Use.subA, Use.sub0, Use.subAm, Use.branch, Use.jump, Use.r, hw]
theorem F.ldBu (d : Reg) (a : Reg) (b : Reg) : F.Statement (.ldBu d a b) := by
  intro hw f h
  obtain rfl := Option.some.inj h
  simp [decodeFields, entryOf, entryP0, entryP0M0, entryP0MB, entryP0MC, entryP0ME, Fields.mz, Fields.m0, Fields.d0, Fields.a0, Fields.b0, Fields.hd, Fields.ha, Fields.hb, Fields.kd, Fields.ka, Fields.kb, Fields.kc, Use.check, Use.rrr, Use.rr, Use.rd, Use.ra, Use.rab, Use.r0, Use.rbOnly, Use.rrrc, Use.v3, Use.v2, Use.v3c, Use.red, Use.raImm, Use.rdImm, Use.imm, Use.shift, Use.subA, Use.sub0, Use.subAm, Use.branch, Use.jump, Use.r, hw]
theorem F.ldH (d : Reg) (a : Reg) (b : Reg) : F.Statement (.ldH d a b) := by
  intro hw f h
  obtain rfl := Option.some.inj h
  simp [decodeFields, entryOf, entryP0, entryP0M0, entryP0MB, entryP0MC, entryP0ME, Fields.mz, Fields.m0, Fields.d0, Fields.a0, Fields.b0, Fields.hd, Fields.ha, Fields.hb, Fields.kd, Fields.ka, Fields.kb, Fields.kc, Use.check, Use.rrr, Use.rr, Use.rd, Use.ra, Use.rab, Use.r0, Use.rbOnly, Use.rrrc, Use.v3, Use.v2, Use.v3c, Use.red, Use.raImm, Use.rdImm, Use.imm, Use.shift, Use.subA, Use.sub0, Use.subAm, Use.branch, Use.jump, Use.r, hw]
theorem F.ldHu (d : Reg) (a : Reg) (b : Reg) : F.Statement (.ldHu d a b) := by
  intro hw f h
  obtain rfl := Option.some.inj h
  simp [decodeFields, entryOf, entryP0, entryP0M0, entryP0MB, entryP0MC, entryP0ME, Fields.mz, Fields.m0, Fields.d0, Fields.a0, Fields.b0, Fields.hd, Fields.ha, Fields.hb, Fields.kd, Fields.ka, Fields.kb, Fields.kc, Use.check, Use.rrr, Use.rr, Use.rd, Use.ra, Use.rab, Use.r0, Use.rbOnly, Use.rrrc, Use.v3, Use.v2, Use.v3c, Use.red, Use.raImm, Use.rdImm, Use.imm, Use.shift, Use.subA, Use.sub0, Use.subAm, Use.branch, Use.jump, Use.r, hw]
theorem F.ldWx (d : Reg) (a : Reg) (b : Reg) : F.Statement (.ldWx d a b) := by
  intro hw f h
  obtain rfl := Option.some.inj h
  simp [decodeFields, entryOf, entryP0, entryP0M0, entryP0MB, entryP0MC, entryP0ME, Fields.mz, Fields.m0, Fields.d0, Fields.a0, Fields.b0, Fields.hd, Fields.ha, Fields.hb, Fields.kd, Fields.ka, Fields.kb, Fields.kc, Use.check, Use.rrr, Use.rr, Use.rd, Use.ra, Use.rab, Use.r0, Use.rbOnly, Use.rrrc, Use.v3, Use.v2, Use.v3c, Use.red, Use.raImm, Use.rdImm, Use.imm, Use.shift, Use.subA, Use.sub0, Use.subAm, Use.branch, Use.jump, Use.r, hw]
theorem F.stB (d : Reg) (a : Reg) (b : Reg) : F.Statement (.stB d a b) := by
  intro hw f h
  obtain rfl := Option.some.inj h
  simp [decodeFields, entryOf, entryP0, entryP0M0, entryP0MB, entryP0MC, entryP0ME, Fields.mz, Fields.m0, Fields.d0, Fields.a0, Fields.b0, Fields.hd, Fields.ha, Fields.hb, Fields.kd, Fields.ka, Fields.kb, Fields.kc, Use.check, Use.rrr, Use.rr, Use.rd, Use.ra, Use.rab, Use.r0, Use.rbOnly, Use.rrrc, Use.v3, Use.v2, Use.v3c, Use.red, Use.raImm, Use.rdImm, Use.imm, Use.shift, Use.subA, Use.sub0, Use.subAm, Use.branch, Use.jump, Use.r, hw]
theorem F.stH (d : Reg) (a : Reg) (b : Reg) : F.Statement (.stH d a b) := by
  intro hw f h
  obtain rfl := Option.some.inj h
  simp [decodeFields, entryOf, entryP0, entryP0M0, entryP0MB, entryP0MC, entryP0ME, Fields.mz, Fields.m0, Fields.d0, Fields.a0, Fields.b0, Fields.hd, Fields.ha, Fields.hb, Fields.kd, Fields.ka, Fields.kb, Fields.kc, Use.check, Use.rrr, Use.rr, Use.rd, Use.ra, Use.rab, Use.r0, Use.rbOnly, Use.rrrc, Use.v3, Use.v2, Use.v3c, Use.red, Use.raImm, Use.rdImm, Use.imm, Use.shift, Use.subA, Use.sub0, Use.subAm, Use.branch, Use.jump, Use.r, hw]
theorem F.stWx (d : Reg) (a : Reg) (b : Reg) : F.Statement (.stWx d a b) := by
  intro hw f h
  obtain rfl := Option.some.inj h
  simp [decodeFields, entryOf, entryP0, entryP0M0, entryP0MB, entryP0MC, entryP0ME, Fields.mz, Fields.m0, Fields.d0, Fields.a0, Fields.b0, Fields.hd, Fields.ha, Fields.hb, Fields.kd, Fields.ka, Fields.kb, Fields.kc, Use.check, Use.rrr, Use.rr, Use.rd, Use.ra, Use.rab, Use.r0, Use.rbOnly, Use.rrrc, Use.v3, Use.v2, Use.v3c, Use.red, Use.raImm, Use.rdImm, Use.imm, Use.shift, Use.subA, Use.sub0, Use.subAm, Use.branch, Use.jump, Use.r, hw]
theorem F.bz (a : Reg) (off : BitVec 26) : F.Statement (.bz a off) := by
  intro hw f h
  obtain rfl := Option.some.inj h
  simp [decodeFields, entryOf, entryP0, entryP0M0, entryP0MB, entryP0MC, entryP0ME, Fields.mz, Fields.m0, Fields.d0, Fields.a0, Fields.b0, Fields.hd, Fields.ha, Fields.hb, Fields.kd, Fields.ka, Fields.kb, Fields.kc, Use.check, Use.rrr, Use.rr, Use.rd, Use.ra, Use.rab, Use.r0, Use.rbOnly, Use.rrrc, Use.v3, Use.v2, Use.v3c, Use.red, Use.raImm, Use.rdImm, Use.imm, Use.shift, Use.subA, Use.sub0, Use.subAm, Use.branch, Use.jump, Use.r, hw]
theorem F.bnz (a : Reg) (off : BitVec 26) : F.Statement (.bnz a off) := by
  intro hw f h
  obtain rfl := Option.some.inj h
  simp [decodeFields, entryOf, entryP0, entryP0M0, entryP0MB, entryP0MC, entryP0ME, Fields.mz, Fields.m0, Fields.d0, Fields.a0, Fields.b0, Fields.hd, Fields.ha, Fields.hb, Fields.kd, Fields.ka, Fields.kb, Fields.kc, Use.check, Use.rrr, Use.rr, Use.rd, Use.ra, Use.rab, Use.r0, Use.rbOnly, Use.rrrc, Use.v3, Use.v2, Use.v3c, Use.red, Use.raImm, Use.rdImm, Use.imm, Use.shift, Use.subA, Use.sub0, Use.subAm, Use.branch, Use.jump, Use.r, hw]
theorem F.bltz (a : Reg) (off : BitVec 26) : F.Statement (.bltz a off) := by
  intro hw f h
  obtain rfl := Option.some.inj h
  simp [decodeFields, entryOf, entryP0, entryP0M0, entryP0MB, entryP0MC, entryP0ME, Fields.mz, Fields.m0, Fields.d0, Fields.a0, Fields.b0, Fields.hd, Fields.ha, Fields.hb, Fields.kd, Fields.ka, Fields.kb, Fields.kc, Use.check, Use.rrr, Use.rr, Use.rd, Use.ra, Use.rab, Use.r0, Use.rbOnly, Use.rrrc, Use.v3, Use.v2, Use.v3c, Use.red, Use.raImm, Use.rdImm, Use.imm, Use.shift, Use.subA, Use.sub0, Use.subAm, Use.branch, Use.jump, Use.r, hw]
theorem F.bgez (a : Reg) (off : BitVec 26) : F.Statement (.bgez a off) := by
  intro hw f h
  obtain rfl := Option.some.inj h
  simp [decodeFields, entryOf, entryP0, entryP0M0, entryP0MB, entryP0MC, entryP0ME, Fields.mz, Fields.m0, Fields.d0, Fields.a0, Fields.b0, Fields.hd, Fields.ha, Fields.hb, Fields.kd, Fields.ka, Fields.kb, Fields.kc, Use.check, Use.rrr, Use.rr, Use.rd, Use.ra, Use.rab, Use.r0, Use.rbOnly, Use.rrrc, Use.v3, Use.v2, Use.v3c, Use.red, Use.raImm, Use.rdImm, Use.imm, Use.shift, Use.subA, Use.sub0, Use.subAm, Use.branch, Use.jump, Use.r, hw]
theorem F.bgtz (a : Reg) (off : BitVec 26) : F.Statement (.bgtz a off) := by
  intro hw f h
  obtain rfl := Option.some.inj h
  simp [decodeFields, entryOf, entryP0, entryP0M0, entryP0MB, entryP0MC, entryP0ME, Fields.mz, Fields.m0, Fields.d0, Fields.a0, Fields.b0, Fields.hd, Fields.ha, Fields.hb, Fields.kd, Fields.ka, Fields.kb, Fields.kc, Use.check, Use.rrr, Use.rr, Use.rd, Use.ra, Use.rab, Use.r0, Use.rbOnly, Use.rrrc, Use.v3, Use.v2, Use.v3c, Use.red, Use.raImm, Use.rdImm, Use.imm, Use.shift, Use.subA, Use.sub0, Use.subAm, Use.branch, Use.jump, Use.r, hw]
theorem F.blez (a : Reg) (off : BitVec 26) : F.Statement (.blez a off) := by
  intro hw f h
  obtain rfl := Option.some.inj h
  simp [decodeFields, entryOf, entryP0, entryP0M0, entryP0MB, entryP0MC, entryP0ME, Fields.mz, Fields.m0, Fields.d0, Fields.a0, Fields.b0, Fields.hd, Fields.ha, Fields.hb, Fields.kd, Fields.ka, Fields.kb, Fields.kc, Use.check, Use.rrr, Use.rr, Use.rd, Use.ra, Use.rab, Use.r0, Use.rbOnly, Use.rrrc, Use.v3, Use.v2, Use.v3c, Use.red, Use.raImm, Use.rdImm, Use.imm, Use.shift, Use.subA, Use.sub0, Use.subAm, Use.branch, Use.jump, Use.r, hw]
theorem F.j (off : BitVec 31) : F.Statement (.j off) := by
  intro hw f h
  obtain rfl := Option.some.inj h
  simp [decodeFields, entryOf, entryP0, entryP0M0, entryP0MB, entryP0MC, entryP0ME, Fields.mz, Fields.m0, Fields.d0, Fields.a0, Fields.b0, Fields.hd, Fields.ha, Fields.hb, Fields.kd, Fields.ka, Fields.kb, Fields.kc, Use.check, Use.rrr, Use.rr, Use.rd, Use.ra, Use.rab, Use.r0, Use.rbOnly, Use.rrrc, Use.v3, Use.v2, Use.v3c, Use.red, Use.raImm, Use.rdImm, Use.imm, Use.shift, Use.subA, Use.sub0, Use.subAm, Use.branch, Use.jump, Use.r, hw]
theorem F.jal (off : BitVec 31) : F.Statement (.jal off) := by
  intro hw f h
  obtain rfl := Option.some.inj h
  simp [decodeFields, entryOf, entryP0, entryP0M0, entryP0MB, entryP0MC, entryP0ME, Fields.mz, Fields.m0, Fields.d0, Fields.a0, Fields.b0, Fields.hd, Fields.ha, Fields.hb, Fields.kd, Fields.ka, Fields.kb, Fields.kc, Use.check, Use.rrr, Use.rr, Use.rd, Use.ra, Use.rab, Use.r0, Use.rbOnly, Use.rrrc, Use.v3, Use.v2, Use.v3c, Use.red, Use.raImm, Use.rdImm, Use.imm, Use.shift, Use.subA, Use.sub0, Use.subAm, Use.branch, Use.jump, Use.r, hw]
theorem F.jr (a : Reg) : F.Statement (.jr a) := by
  intro hw f h
  obtain rfl := Option.some.inj h
  simp [decodeFields, entryOf, entryP0, entryP0M0, entryP0MB, entryP0MC, entryP0ME, Fields.mz, Fields.m0, Fields.d0, Fields.a0, Fields.b0, Fields.hd, Fields.ha, Fields.hb, Fields.kd, Fields.ka, Fields.kb, Fields.kc, Use.check, Use.rrr, Use.rr, Use.rd, Use.ra, Use.rab, Use.r0, Use.rbOnly, Use.rrrc, Use.v3, Use.v2, Use.v3c, Use.red, Use.raImm, Use.rdImm, Use.imm, Use.shift, Use.subA, Use.sub0, Use.subAm, Use.branch, Use.jump, Use.r, hw]
theorem F.jalr (a : Reg) : F.Statement (.jalr a) := by
  intro hw f h
  obtain rfl := Option.some.inj h
  simp [decodeFields, entryOf, entryP0, entryP0M0, entryP0MB, entryP0MC, entryP0ME, Fields.mz, Fields.m0, Fields.d0, Fields.a0, Fields.b0, Fields.hd, Fields.ha, Fields.hb, Fields.kd, Fields.ka, Fields.kb, Fields.kc, Use.check, Use.rrr, Use.rr, Use.rd, Use.ra, Use.rab, Use.r0, Use.rbOnly, Use.rrrc, Use.v3, Use.v2, Use.v3c, Use.red, Use.raImm, Use.rdImm, Use.imm, Use.shift, Use.subA, Use.sub0, Use.subAm, Use.branch, Use.jump, Use.r, hw]
theorem F.loop (a : Reg) (e : BitVec 26) : F.Statement (.loop a e) := by
  intro hw f h
  obtain rfl := Option.some.inj h
  simp [decodeFields, entryOf, entryP0, entryP0M0, entryP0MB, entryP0MC, entryP0ME, Fields.mz, Fields.m0, Fields.d0, Fields.a0, Fields.b0, Fields.hd, Fields.ha, Fields.hb, Fields.kd, Fields.ka, Fields.kb, Fields.kc, Use.check, Use.rrr, Use.rr, Use.rd, Use.ra, Use.rab, Use.r0, Use.rbOnly, Use.rrrc, Use.v3, Use.v2, Use.v3c, Use.red, Use.raImm, Use.rdImm, Use.imm, Use.shift, Use.subA, Use.sub0, Use.subAm, Use.branch, Use.jump, Use.r, hw]
theorem F.csrr (d : Reg) (n : Csr) : F.Statement (.csrr d n) := by
  intro hw f h
  obtain rfl := Option.some.inj h
  simp [decodeFields, entryOf, entryP0, entryP0M0, entryP0MB, entryP0MC, entryP0ME, Fields.mz, Fields.m0, Fields.d0, Fields.a0, Fields.b0, Fields.hd, Fields.ha, Fields.hb, Fields.kd, Fields.ka, Fields.kb, Fields.kc, Use.check, Use.rrr, Use.rr, Use.rd, Use.ra, Use.rab, Use.r0, Use.rbOnly, Use.rrrc, Use.v3, Use.v2, Use.v3c, Use.red, Use.raImm, Use.rdImm, Use.imm, Use.shift, Use.subA, Use.sub0, Use.subAm, Use.branch, Use.jump, Use.r, hw]
theorem F.csrw (n : Csr) (a : Reg) : F.Statement (.csrw n a) := by
  intro hw f h
  obtain rfl := Option.some.inj h
  simp [decodeFields, entryOf, entryP0, entryP0M0, entryP0MB, entryP0MC, entryP0ME, Fields.mz, Fields.m0, Fields.d0, Fields.a0, Fields.b0, Fields.hd, Fields.ha, Fields.hb, Fields.kd, Fields.ka, Fields.kb, Fields.kc, Use.check, Use.rrr, Use.rr, Use.rd, Use.ra, Use.rab, Use.r0, Use.rbOnly, Use.rrrc, Use.v3, Use.v2, Use.v3c, Use.red, Use.raImm, Use.rdImm, Use.imm, Use.shift, Use.subA, Use.sub0, Use.subAm, Use.branch, Use.jump, Use.r, hw]
theorem F.csrs (n : Csr) (a : Reg) : F.Statement (.csrs n a) := by
  intro hw f h
  obtain rfl := Option.some.inj h
  simp [decodeFields, entryOf, entryP0, entryP0M0, entryP0MB, entryP0MC, entryP0ME, Fields.mz, Fields.m0, Fields.d0, Fields.a0, Fields.b0, Fields.hd, Fields.ha, Fields.hb, Fields.kd, Fields.ka, Fields.kb, Fields.kc, Use.check, Use.rrr, Use.rr, Use.rd, Use.ra, Use.rab, Use.r0, Use.rbOnly, Use.rrrc, Use.v3, Use.v2, Use.v3c, Use.red, Use.raImm, Use.rdImm, Use.imm, Use.shift, Use.subA, Use.sub0, Use.subAm, Use.branch, Use.jump, Use.r, hw]
theorem F.csrc (n : Csr) (a : Reg) : F.Statement (.csrc n a) := by
  intro hw f h
  obtain rfl := Option.some.inj h
  simp [decodeFields, entryOf, entryP0, entryP0M0, entryP0MB, entryP0MC, entryP0ME, Fields.mz, Fields.m0, Fields.d0, Fields.a0, Fields.b0, Fields.hd, Fields.ha, Fields.hb, Fields.kd, Fields.ka, Fields.kb, Fields.kc, Use.check, Use.rrr, Use.rr, Use.rd, Use.ra, Use.rab, Use.r0, Use.rbOnly, Use.rrrc, Use.v3, Use.v2, Use.v3c, Use.red, Use.raImm, Use.rdImm, Use.imm, Use.shift, Use.subA, Use.sub0, Use.subAm, Use.branch, Use.jump, Use.r, hw]
theorem F.cycRead (d : Reg) : F.Statement (.cycRead d) := fun h => by cases h
theorem F.ageWrite (a : Reg) : F.Statement (.ageWrite a) := fun h => by cases h
theorem F.tvWrite (a : Reg) : F.Statement (.tvWrite a) := fun h => by cases h
theorem F.trap (a : Reg) : F.Statement (.trap a) := by
  intro hw f h
  obtain rfl := Option.some.inj h
  simp [decodeFields, entryOf, entryP7, Fields.mz, Fields.m0, Fields.d0, Fields.a0, Fields.b0, Fields.hd, Fields.ha, Fields.hb, Fields.kd, Fields.ka, Fields.kb, Fields.kc, Use.check, Use.rrr, Use.rr, Use.rd, Use.ra, Use.rab, Use.r0, Use.rbOnly, Use.rrrc, Use.v3, Use.v2, Use.v3c, Use.red, Use.raImm, Use.rdImm, Use.imm, Use.shift, Use.subA, Use.sub0, Use.subAm, Use.branch, Use.jump, Use.r, hw]
theorem F.eret : F.Statement (.eret) := by
  intro hw f h
  obtain rfl := Option.some.inj h
  simp [decodeFields, entryOf, entryP7, Fields.mz, Fields.m0, Fields.d0, Fields.a0, Fields.b0, Fields.hd, Fields.ha, Fields.hb, Fields.kd, Fields.ka, Fields.kb, Fields.kc, Use.check, Use.rrr, Use.rr, Use.rd, Use.ra, Use.rab, Use.r0, Use.rbOnly, Use.rrrc, Use.v3, Use.v2, Use.v3c, Use.red, Use.raImm, Use.rdImm, Use.imm, Use.shift, Use.subA, Use.sub0, Use.subAm, Use.branch, Use.jump, Use.r, hw]
theorem F.halt : F.Statement (.halt) := by
  intro hw f h
  obtain rfl := Option.some.inj h
  simp [decodeFields, entryOf, entryP7, Fields.mz, Fields.m0, Fields.d0, Fields.a0, Fields.b0, Fields.hd, Fields.ha, Fields.hb, Fields.kd, Fields.ka, Fields.kb, Fields.kc, Use.check, Use.rrr, Use.rr, Use.rd, Use.ra, Use.rab, Use.r0, Use.rbOnly, Use.rrrc, Use.v3, Use.v2, Use.v3c, Use.red, Use.raImm, Use.rdImm, Use.imm, Use.shift, Use.subA, Use.sub0, Use.subAm, Use.branch, Use.jump, Use.r, hw]
theorem F.snap (d : Reg) : F.Statement (.snap d) := by
  intro hw f h
  obtain rfl := Option.some.inj h
  simp [decodeFields, entryOf, entryP7, Fields.mz, Fields.m0, Fields.d0, Fields.a0, Fields.b0, Fields.hd, Fields.ha, Fields.hb, Fields.kd, Fields.ka, Fields.kb, Fields.kc, Use.check, Use.rrr, Use.rr, Use.rd, Use.ra, Use.rab, Use.r0, Use.rbOnly, Use.rrrc, Use.v3, Use.v2, Use.v3c, Use.red, Use.raImm, Use.rdImm, Use.imm, Use.shift, Use.subA, Use.sub0, Use.subAm, Use.branch, Use.jump, Use.r, hw]
theorem F.xload (d : Reg) (a : Reg) : F.Statement (.xload d a) := by
  intro hw f h
  obtain rfl := Option.some.inj h
  simp [decodeFields, entryOf, entryP7, Fields.mz, Fields.m0, Fields.d0, Fields.a0, Fields.b0, Fields.hd, Fields.ha, Fields.hb, Fields.kd, Fields.ka, Fields.kb, Fields.kc, Use.check, Use.rrr, Use.rr, Use.rd, Use.ra, Use.rab, Use.r0, Use.rbOnly, Use.rrrc, Use.v3, Use.v2, Use.v3c, Use.red, Use.raImm, Use.rdImm, Use.imm, Use.shift, Use.subA, Use.sub0, Use.subAm, Use.branch, Use.jump, Use.r, hw]
theorem F.fence : F.Statement (.fence) := by
  intro hw f h
  obtain rfl := Option.some.inj h
  simp [decodeFields, entryOf, entryP7, Fields.mz, Fields.m0, Fields.d0, Fields.a0, Fields.b0, Fields.hd, Fields.ha, Fields.hb, Fields.kd, Fields.ka, Fields.kb, Fields.kc, Use.check, Use.rrr, Use.rr, Use.rd, Use.ra, Use.rab, Use.r0, Use.rbOnly, Use.rrrc, Use.v3, Use.v2, Use.v3c, Use.red, Use.raImm, Use.rdImm, Use.imm, Use.shift, Use.subA, Use.sub0, Use.subAm, Use.branch, Use.jump, Use.r, hw]
theorem F.evwr (a : Reg) (b : Reg) : F.Statement (.evwr a b) := by
  intro hw f h
  obtain rfl := Option.some.inj h
  simp [decodeFields, entryOf, entryP7, Fields.mz, Fields.m0, Fields.d0, Fields.a0, Fields.b0, Fields.hd, Fields.ha, Fields.hb, Fields.kd, Fields.ka, Fields.kb, Fields.kc, Use.check, Use.rrr, Use.rr, Use.rd, Use.ra, Use.rab, Use.r0, Use.rbOnly, Use.rrrc, Use.v3, Use.v2, Use.v3c, Use.red, Use.raImm, Use.rdImm, Use.imm, Use.shift, Use.subA, Use.sub0, Use.subAm, Use.branch, Use.jump, Use.r, hw]
theorem F.hset (d : HReg) (a : Reg) : F.Statement (.hset d a) := by
  intro hw f h
  obtain rfl := Option.some.inj h
  simp [decodeFields, entryOf, entryP1M0, entryP1M1, entryP1M2, entryP1M3, Fields.mz, Fields.m0, Fields.d0, Fields.a0, Fields.b0, Fields.hd, Fields.ha, Fields.hb, Fields.kd, Fields.ka, Fields.kb, Fields.kc, Use.check, Use.rrr, Use.rr, Use.rd, Use.ra, Use.rab, Use.r0, Use.rbOnly, Use.rrrc, Use.v3, Use.v2, Use.v3c, Use.red, Use.raImm, Use.rdImm, Use.imm, Use.shift, Use.subA, Use.sub0, Use.subAm, Use.branch, Use.jump, Use.r, hw]
theorem F.hget (d : Reg) (a : HReg) (sel : Fin 8) : F.Statement (.hget d a sel) := by
  intro hw f h
  obtain rfl := Option.some.inj h
  simp [decodeFields, entryOf, entryP1M0, entryP1M1, entryP1M2, entryP1M3, Fields.mz, Fields.m0, Fields.d0, Fields.a0, Fields.b0, Fields.hd, Fields.ha, Fields.hb, Fields.kd, Fields.ka, Fields.kb, Fields.kc, Use.check, Use.rrr, Use.rr, Use.rd, Use.ra, Use.rab, Use.r0, Use.rbOnly, Use.rrrc, Use.v3, Use.v2, Use.v3c, Use.red, Use.raImm, Use.rdImm, Use.imm, Use.shift, Use.subA, Use.sub0, Use.subAm, Use.branch, Use.jump, Use.r, hw, small5]
theorem F.hwaitf (d : HReg) (a : Reg) : F.Statement (.hwaitf d a) := by
  intro hw f h
  obtain rfl := Option.some.inj h
  simp [decodeFields, entryOf, entryP1M0, entryP1M1, entryP1M2, entryP1M3, Fields.mz, Fields.m0, Fields.d0, Fields.a0, Fields.b0, Fields.hd, Fields.ha, Fields.hb, Fields.kd, Fields.ka, Fields.kb, Fields.kc, Use.check, Use.rrr, Use.rr, Use.rd, Use.ra, Use.rab, Use.r0, Use.rbOnly, Use.rrrc, Use.v3, Use.v2, Use.v3c, Use.red, Use.raImm, Use.rdImm, Use.imm, Use.shift, Use.subA, Use.sub0, Use.subAm, Use.branch, Use.jump, Use.r, hw]
theorem F.hwaite (d : HReg) (a : Reg) : F.Statement (.hwaite d a) := by
  intro hw f h
  obtain rfl := Option.some.inj h
  simp [decodeFields, entryOf, entryP1M0, entryP1M1, entryP1M2, entryP1M3, Fields.mz, Fields.m0, Fields.d0, Fields.a0, Fields.b0, Fields.hd, Fields.ha, Fields.hb, Fields.kd, Fields.ka, Fields.kb, Fields.kc, Use.check, Use.rrr, Use.rr, Use.rd, Use.ra, Use.rab, Use.r0, Use.rbOnly, Use.rrrc, Use.v3, Use.v2, Use.v3c, Use.red, Use.raImm, Use.rdImm, Use.imm, Use.shift, Use.subA, Use.sub0, Use.subAm, Use.branch, Use.jump, Use.r, hw]
theorem F.hadvc (d : HReg) (a : Reg) : F.Statement (.hadvc d a) := by
  intro hw f h
  obtain rfl := Option.some.inj h
  simp [decodeFields, entryOf, entryP1M0, entryP1M1, entryP1M2, entryP1M3, Fields.mz, Fields.m0, Fields.d0, Fields.a0, Fields.b0, Fields.hd, Fields.ha, Fields.hb, Fields.kd, Fields.ka, Fields.kb, Fields.kc, Use.check, Use.rrr, Use.rr, Use.rd, Use.ra, Use.rab, Use.r0, Use.rbOnly, Use.rrrc, Use.v3, Use.v2, Use.v3c, Use.red, Use.raImm, Use.rdImm, Use.imm, Use.shift, Use.subA, Use.sub0, Use.subAm, Use.branch, Use.jump, Use.r, hw]
theorem F.hadvp (d : HReg) (a : Reg) : F.Statement (.hadvp d a) := by
  intro hw f h
  obtain rfl := Option.some.inj h
  simp [decodeFields, entryOf, entryP1M0, entryP1M1, entryP1M2, entryP1M3, Fields.mz, Fields.m0, Fields.d0, Fields.a0, Fields.b0, Fields.hd, Fields.ha, Fields.hb, Fields.kd, Fields.ka, Fields.kb, Fields.kc, Use.check, Use.rrr, Use.rr, Use.rd, Use.ra, Use.rab, Use.r0, Use.rbOnly, Use.rrrc, Use.v3, Use.v2, Use.v3c, Use.red, Use.raImm, Use.rdImm, Use.imm, Use.shift, Use.subA, Use.sub0, Use.subAm, Use.branch, Use.jump, Use.r, hw]
theorem F.hreset (d : HReg) : F.Statement (.hreset d) := by
  intro hw f h
  obtain rfl := Option.some.inj h
  simp [decodeFields, entryOf, entryP1M0, entryP1M1, entryP1M2, entryP1M3, Fields.mz, Fields.m0, Fields.d0, Fields.a0, Fields.b0, Fields.hd, Fields.ha, Fields.hb, Fields.kd, Fields.ka, Fields.kb, Fields.kc, Use.check, Use.rrr, Use.rr, Use.rd, Use.ra, Use.rab, Use.r0, Use.rbOnly, Use.rrrc, Use.v3, Use.v2, Use.v3c, Use.red, Use.raImm, Use.rdImm, Use.imm, Use.shift, Use.subA, Use.sub0, Use.subAm, Use.branch, Use.jump, Use.r, hw]
theorem F.barm (a : Reg) (n : BarName) : F.Statement (.barm a n) := by
  intro hw f h
  obtain rfl := Option.some.inj h
  simp [decodeFields, entryOf, entryP1M0, entryP1M1, entryP1M2, entryP1M3, Fields.mz, Fields.m0, Fields.d0, Fields.a0, Fields.b0, Fields.hd, Fields.ha, Fields.hb, Fields.kd, Fields.ka, Fields.kb, Fields.kc, Use.check, Use.rrr, Use.rr, Use.rd, Use.ra, Use.rab, Use.r0, Use.rbOnly, Use.rrrc, Use.v3, Use.v2, Use.v3c, Use.red, Use.raImm, Use.rdImm, Use.imm, Use.shift, Use.subA, Use.sub0, Use.subAm, Use.branch, Use.jump, Use.r, hw, mkIS, mkIU, -BitVec.truncate_eq_setWidth]
theorem F.barr (n : BarName) : F.Statement (.barr n) := by
  intro hw f h
  obtain rfl := Option.some.inj h
  simp [decodeFields, entryOf, entryP1M0, entryP1M1, entryP1M2, entryP1M3, Fields.mz, Fields.m0, Fields.d0, Fields.a0, Fields.b0, Fields.hd, Fields.ha, Fields.hb, Fields.kd, Fields.ka, Fields.kb, Fields.kc, Use.check, Use.rrr, Use.rr, Use.rd, Use.ra, Use.rab, Use.r0, Use.rbOnly, Use.rrrc, Use.v3, Use.v2, Use.v3c, Use.red, Use.raImm, Use.rdImm, Use.imm, Use.shift, Use.subA, Use.sub0, Use.subAm, Use.branch, Use.jump, Use.r, hw, mkIS, mkIU, -BitVec.truncate_eq_setWidth]
theorem F.bwait (a : Reg) (n : BarName) : F.Statement (.bwait a n) := by
  intro hw f h
  obtain rfl := Option.some.inj h
  simp [decodeFields, entryOf, entryP1M0, entryP1M1, entryP1M2, entryP1M3, Fields.mz, Fields.m0, Fields.d0, Fields.a0, Fields.b0, Fields.hd, Fields.ha, Fields.hb, Fields.kd, Fields.ka, Fields.kb, Fields.kc, Use.check, Use.rrr, Use.rr, Use.rd, Use.ra, Use.rab, Use.r0, Use.rbOnly, Use.rrrc, Use.v3, Use.v2, Use.v3c, Use.red, Use.raImm, Use.rdImm, Use.imm, Use.shift, Use.subA, Use.sub0, Use.subAm, Use.branch, Use.jump, Use.r, hw, mkIS, mkIU, -BitVec.truncate_eq_setWidth]
theorem F.btest (a : Reg) (n : BarName) : F.Statement (.btest a n) := by
  intro hw f h
  obtain rfl := Option.some.inj h
  simp [decodeFields, entryOf, entryP1M0, entryP1M1, entryP1M2, entryP1M3, Fields.mz, Fields.m0, Fields.d0, Fields.a0, Fields.b0, Fields.hd, Fields.ha, Fields.hb, Fields.kd, Fields.ka, Fields.kb, Fields.kc, Use.check, Use.rrr, Use.rr, Use.rd, Use.ra, Use.rab, Use.r0, Use.rbOnly, Use.rrrc, Use.v3, Use.v2, Use.v3c, Use.red, Use.raImm, Use.rdImm, Use.imm, Use.shift, Use.subA, Use.sub0, Use.subAm, Use.branch, Use.jump, Use.r, hw, mkIS, mkIU, -BitVec.truncate_eq_setWidth]
theorem F.bstat (a : Reg) (n : BarName) : F.Statement (.bstat a n) := by
  intro hw f h
  obtain rfl := Option.some.inj h
  simp [decodeFields, entryOf, entryP1M0, entryP1M1, entryP1M2, entryP1M3, Fields.mz, Fields.m0, Fields.d0, Fields.a0, Fields.b0, Fields.hd, Fields.ha, Fields.hb, Fields.kd, Fields.ka, Fields.kb, Fields.kc, Use.check, Use.rrr, Use.rr, Use.rd, Use.ra, Use.rab, Use.r0, Use.rbOnly, Use.rrrc, Use.v3, Use.v2, Use.v3c, Use.red, Use.raImm, Use.rdImm, Use.imm, Use.shift, Use.subA, Use.sub0, Use.subAm, Use.branch, Use.jump, Use.r, hw, mkIS, mkIU, -BitVec.truncate_eq_setWidth]
theorem F.bexp (a : Reg) (n : BarName) : F.Statement (.bexp a n) := by
  intro hw f h
  obtain rfl := Option.some.inj h
  simp [decodeFields, entryOf, entryP1M0, entryP1M1, entryP1M2, entryP1M3, Fields.mz, Fields.m0, Fields.d0, Fields.a0, Fields.b0, Fields.hd, Fields.ha, Fields.hb, Fields.kd, Fields.ka, Fields.kb, Fields.kc, Use.check, Use.rrr, Use.rr, Use.rd, Use.ra, Use.rab, Use.r0, Use.rbOnly, Use.rrrc, Use.v3, Use.v2, Use.v3c, Use.red, Use.raImm, Use.rdImm, Use.imm, Use.shift, Use.subA, Use.sub0, Use.subAm, Use.branch, Use.jump, Use.r, hw, mkIS, mkIU, -BitVec.truncate_eq_setWidth]
theorem F.binv (n : BarName) : F.Statement (.binv n) := by
  intro hw f h
  obtain rfl := Option.some.inj h
  simp [decodeFields, entryOf, entryP1M0, entryP1M1, entryP1M2, entryP1M3, Fields.mz, Fields.m0, Fields.d0, Fields.a0, Fields.b0, Fields.hd, Fields.ha, Fields.hb, Fields.kd, Fields.ka, Fields.kb, Fields.kc, Use.check, Use.rrr, Use.rr, Use.rd, Use.ra, Use.rab, Use.r0, Use.rbOnly, Use.rrrc, Use.v3, Use.v2, Use.v3c, Use.red, Use.raImm, Use.rdImm, Use.imm, Use.shift, Use.subA, Use.sub0, Use.subAm, Use.branch, Use.jump, Use.r, hw, mkIS, mkIU, -BitVec.truncate_eq_setWidth]
theorem F.wmsg (d : Reg) : F.Statement (.wmsg d) := by
  intro hw f h
  obtain rfl := Option.some.inj h
  simp [decodeFields, entryOf, entryP1M0, entryP1M1, entryP1M2, entryP1M3, Fields.mz, Fields.m0, Fields.d0, Fields.a0, Fields.b0, Fields.hd, Fields.ha, Fields.hb, Fields.kd, Fields.ka, Fields.kb, Fields.kc, Use.check, Use.rrr, Use.rr, Use.rd, Use.ra, Use.rab, Use.r0, Use.rbOnly, Use.rrrc, Use.v3, Use.v2, Use.v3c, Use.red, Use.raImm, Use.rdImm, Use.imm, Use.shift, Use.subA, Use.sub0, Use.subAm, Use.branch, Use.jump, Use.r, hw]
theorem F.rmsg (d : Reg) (a : Reg) : F.Statement (.rmsg d a) := by
  intro hw f h
  obtain rfl := Option.some.inj h
  simp [decodeFields, entryOf, entryP1M0, entryP1M1, entryP1M2, entryP1M3, Fields.mz, Fields.m0, Fields.d0, Fields.a0, Fields.b0, Fields.hd, Fields.ha, Fields.hb, Fields.kd, Fields.ka, Fields.kb, Fields.kc, Use.check, Use.rrr, Use.rr, Use.rd, Use.ra, Use.rab, Use.r0, Use.rbOnly, Use.rrrc, Use.v3, Use.v2, Use.v3c, Use.red, Use.raImm, Use.rdImm, Use.imm, Use.shift, Use.subA, Use.sub0, Use.subAm, Use.branch, Use.jump, Use.r, hw]
theorem F.mcnt (d : Reg) : F.Statement (.mcnt d) := by
  intro hw f h
  obtain rfl := Option.some.inj h
  simp [decodeFields, entryOf, entryP1M0, entryP1M1, entryP1M2, entryP1M3, Fields.mz, Fields.m0, Fields.d0, Fields.a0, Fields.b0, Fields.hd, Fields.ha, Fields.hb, Fields.kd, Fields.ka, Fields.kb, Fields.kc, Use.check, Use.rrr, Use.rr, Use.rd, Use.ra, Use.rab, Use.r0, Use.rbOnly, Use.rrrc, Use.v3, Use.v2, Use.v3c, Use.red, Use.raImm, Use.rdImm, Use.imm, Use.shift, Use.subA, Use.sub0, Use.subAm, Use.branch, Use.jump, Use.r, hw]
theorem F.msend (a : Reg) (b : Reg) : F.Statement (.msend a b) := by
  intro hw f h
  obtain rfl := Option.some.inj h
  simp [decodeFields, entryOf, entryP1M0, entryP1M1, entryP1M2, entryP1M3, Fields.mz, Fields.m0, Fields.d0, Fields.a0, Fields.b0, Fields.hd, Fields.ha, Fields.hb, Fields.kd, Fields.ka, Fields.kb, Fields.kc, Use.check, Use.rrr, Use.rr, Use.rd, Use.ra, Use.rab, Use.r0, Use.rbOnly, Use.rrrc, Use.v3, Use.v2, Use.v3c, Use.red, Use.raImm, Use.rdImm, Use.imm, Use.shift, Use.subA, Use.sub0, Use.subAm, Use.branch, Use.jump, Use.r, hw]
theorem F.waita (d : Reg) (a : Reg) : F.Statement (.waita d a) := by
  intro hw f h
  obtain rfl := Option.some.inj h
  simp [decodeFields, entryOf, entryP1M0, entryP1M1, entryP1M2, entryP1M3, Fields.mz, Fields.m0, Fields.d0, Fields.a0, Fields.b0, Fields.hd, Fields.ha, Fields.hb, Fields.kd, Fields.ka, Fields.kb, Fields.kc, Use.check, Use.rrr, Use.rr, Use.rd, Use.ra, Use.rab, Use.r0, Use.rbOnly, Use.rrrc, Use.v3, Use.v2, Use.v3c, Use.red, Use.raImm, Use.rdImm, Use.imm, Use.shift, Use.subA, Use.sub0, Use.subAm, Use.branch, Use.jump, Use.r, hw]
theorem F.clra (a : Reg) : F.Statement (.clra a) := by
  intro hw f h
  obtain rfl := Option.some.inj h
  simp [decodeFields, entryOf, entryP1M0, entryP1M1, entryP1M2, entryP1M3, Fields.mz, Fields.m0, Fields.d0, Fields.a0, Fields.b0, Fields.hd, Fields.ha, Fields.hb, Fields.kd, Fields.ka, Fields.kb, Fields.kc, Use.check, Use.rrr, Use.rr, Use.rd, Use.ra, Use.rab, Use.r0, Use.rbOnly, Use.rrrc, Use.v3, Use.v2, Use.v3c, Use.red, Use.raImm, Use.rdImm, Use.imm, Use.shift, Use.subA, Use.sub0, Use.subAm, Use.branch, Use.jump, Use.r, hw]
theorem F.monn (d : Reg) (a : Reg) : F.Statement (.monn d a) := by
  intro hw f h
  obtain rfl := Option.some.inj h
  simp [decodeFields, entryOf, entryP1M0, entryP1M1, entryP1M2, entryP1M3, Fields.mz, Fields.m0, Fields.d0, Fields.a0, Fields.b0, Fields.hd, Fields.ha, Fields.hb, Fields.kd, Fields.ka, Fields.kb, Fields.kc, Use.check, Use.rrr, Use.rr, Use.rd, Use.ra, Use.rab, Use.r0, Use.rbOnly, Use.rrrc, Use.v3, Use.v2, Use.v3c, Use.red, Use.raImm, Use.rdImm, Use.imm, Use.shift, Use.subA, Use.sub0, Use.subAm, Use.branch, Use.jump, Use.r, hw]
theorem F.vadd (t : ElemType) (d : Reg) (a : Reg) (b : Reg) (m : VMod) : F.Statement (.vadd t d a b m) := by
  intro hw f h
  obtain rfl := Option.some.inj h
  simp [decodeFields, entryOf, entryP2, entryP2M0, entryP2M1, entryP2M4, entryP2M5, Fields.mz, Fields.m0, Fields.d0, Fields.a0, Fields.b0, Fields.hd, Fields.ha, Fields.hb, Fields.kd, Fields.ka, Fields.kb, Fields.kc, Use.check, Use.rrr, Use.rr, Use.rd, Use.ra, Use.rab, Use.r0, Use.rbOnly, Use.rrrc, Use.v3, Use.v2, Use.v3c, Use.red, Use.raImm, Use.rdImm, Use.imm, Use.shift, Use.subA, Use.sub0, Use.subAm, Use.branch, Use.jump, Use.r, hw, mkV, Fields.et]
theorem F.vsub (t : ElemType) (d : Reg) (a : Reg) (b : Reg) (m : VMod) : F.Statement (.vsub t d a b m) := by
  intro hw f h
  obtain rfl := Option.some.inj h
  simp [decodeFields, entryOf, entryP2, entryP2M0, entryP2M1, entryP2M4, entryP2M5, Fields.mz, Fields.m0, Fields.d0, Fields.a0, Fields.b0, Fields.hd, Fields.ha, Fields.hb, Fields.kd, Fields.ka, Fields.kb, Fields.kc, Use.check, Use.rrr, Use.rr, Use.rd, Use.ra, Use.rab, Use.r0, Use.rbOnly, Use.rrrc, Use.v3, Use.v2, Use.v3c, Use.red, Use.raImm, Use.rdImm, Use.imm, Use.shift, Use.subA, Use.sub0, Use.subAm, Use.branch, Use.jump, Use.r, hw, mkV, Fields.et]
theorem F.vmul (t : ElemType) (d : Reg) (a : Reg) (b : Reg) (m : VMod) : F.Statement (.vmul t d a b m) := by
  intro hw f h
  obtain rfl := Option.some.inj h
  simp [decodeFields, entryOf, entryP2, entryP2M0, entryP2M1, entryP2M4, entryP2M5, Fields.mz, Fields.m0, Fields.d0, Fields.a0, Fields.b0, Fields.hd, Fields.ha, Fields.hb, Fields.kd, Fields.ka, Fields.kb, Fields.kc, Use.check, Use.rrr, Use.rr, Use.rd, Use.ra, Use.rab, Use.r0, Use.rbOnly, Use.rrrc, Use.v3, Use.v2, Use.v3c, Use.red, Use.raImm, Use.rdImm, Use.imm, Use.shift, Use.subA, Use.sub0, Use.subAm, Use.branch, Use.jump, Use.r, hw, mkV, Fields.et]
theorem F.vmin (t : ElemType) (d : Reg) (a : Reg) (b : Reg) (m : VMod) : F.Statement (.vmin t d a b m) := by
  intro hw f h
  obtain rfl := Option.some.inj h
  simp [decodeFields, entryOf, entryP2, entryP2M0, entryP2M1, entryP2M4, entryP2M5, Fields.mz, Fields.m0, Fields.d0, Fields.a0, Fields.b0, Fields.hd, Fields.ha, Fields.hb, Fields.kd, Fields.ka, Fields.kb, Fields.kc, Use.check, Use.rrr, Use.rr, Use.rd, Use.ra, Use.rab, Use.r0, Use.rbOnly, Use.rrrc, Use.v3, Use.v2, Use.v3c, Use.red, Use.raImm, Use.rdImm, Use.imm, Use.shift, Use.subA, Use.sub0, Use.subAm, Use.branch, Use.jump, Use.r, hw, mkV, Fields.et]
theorem F.vmax (t : ElemType) (d : Reg) (a : Reg) (b : Reg) (m : VMod) : F.Statement (.vmax t d a b m) := by
  intro hw f h
  obtain rfl := Option.some.inj h
  simp [decodeFields, entryOf, entryP2, entryP2M0, entryP2M1, entryP2M4, entryP2M5, Fields.mz, Fields.m0, Fields.d0, Fields.a0, Fields.b0, Fields.hd, Fields.ha, Fields.hb, Fields.kd, Fields.ka, Fields.kb, Fields.kc, Use.check, Use.rrr, Use.rr, Use.rd, Use.ra, Use.rab, Use.r0, Use.rbOnly, Use.rrrc, Use.v3, Use.v2, Use.v3c, Use.red, Use.raImm, Use.rdImm, Use.imm, Use.shift, Use.subA, Use.sub0, Use.subAm, Use.branch, Use.jump, Use.r, hw, mkV, Fields.et]
theorem F.vand (t : ElemType) (d : Reg) (a : Reg) (b : Reg) (m : VMod) : F.Statement (.vand t d a b m) := by
  intro hw f h
  obtain rfl := Option.some.inj h
  simp [decodeFields, entryOf, entryP2, entryP2M0, entryP2M1, entryP2M4, entryP2M5, Fields.mz, Fields.m0, Fields.d0, Fields.a0, Fields.b0, Fields.hd, Fields.ha, Fields.hb, Fields.kd, Fields.ka, Fields.kb, Fields.kc, Use.check, Use.rrr, Use.rr, Use.rd, Use.ra, Use.rab, Use.r0, Use.rbOnly, Use.rrrc, Use.v3, Use.v2, Use.v3c, Use.red, Use.raImm, Use.rdImm, Use.imm, Use.shift, Use.subA, Use.sub0, Use.subAm, Use.branch, Use.jump, Use.r, hw, mkV, Fields.et]
theorem F.vor (t : ElemType) (d : Reg) (a : Reg) (b : Reg) (m : VMod) : F.Statement (.vor t d a b m) := by
  intro hw f h
  obtain rfl := Option.some.inj h
  simp [decodeFields, entryOf, entryP2, entryP2M0, entryP2M1, entryP2M4, entryP2M5, Fields.mz, Fields.m0, Fields.d0, Fields.a0, Fields.b0, Fields.hd, Fields.ha, Fields.hb, Fields.kd, Fields.ka, Fields.kb, Fields.kc, Use.check, Use.rrr, Use.rr, Use.rd, Use.ra, Use.rab, Use.r0, Use.rbOnly, Use.rrrc, Use.v3, Use.v2, Use.v3c, Use.red, Use.raImm, Use.rdImm, Use.imm, Use.shift, Use.subA, Use.sub0, Use.subAm, Use.branch, Use.jump, Use.r, hw, mkV, Fields.et]
theorem F.vxor (t : ElemType) (d : Reg) (a : Reg) (b : Reg) (m : VMod) : F.Statement (.vxor t d a b m) := by
  intro hw f h
  obtain rfl := Option.some.inj h
  simp [decodeFields, entryOf, entryP2, entryP2M0, entryP2M1, entryP2M4, entryP2M5, Fields.mz, Fields.m0, Fields.d0, Fields.a0, Fields.b0, Fields.hd, Fields.ha, Fields.hb, Fields.kd, Fields.ka, Fields.kb, Fields.kc, Use.check, Use.rrr, Use.rr, Use.rd, Use.ra, Use.rab, Use.r0, Use.rbOnly, Use.rrrc, Use.v3, Use.v2, Use.v3c, Use.red, Use.raImm, Use.rdImm, Use.imm, Use.shift, Use.subA, Use.sub0, Use.subAm, Use.branch, Use.jump, Use.r, hw, mkV, Fields.et]
theorem F.vfma (t : ElemType) (d : Reg) (a : Reg) (b : Reg) (c : Reg) (m : VMod) : F.Statement (.vfma t d a b c m) := by
  intro hw f h
  obtain rfl := Option.some.inj h
  simp [decodeFields, entryOf, entryP2, entryP2M0, entryP2M1, entryP2M4, entryP2M5, Fields.mz, Fields.m0, Fields.d0, Fields.a0, Fields.b0, Fields.hd, Fields.ha, Fields.hb, Fields.kd, Fields.ka, Fields.kb, Fields.kc, Use.check, Use.rrr, Use.rr, Use.rd, Use.ra, Use.rab, Use.r0, Use.rbOnly, Use.rrrc, Use.v3, Use.v2, Use.v3c, Use.red, Use.raImm, Use.rdImm, Use.imm, Use.shift, Use.subA, Use.sub0, Use.subAm, Use.branch, Use.jump, Use.r, hw, Fields.et]
theorem F.vabs (t : ElemType) (d : Reg) (a : Reg) (m : VMod) : F.Statement (.vabs t d a m) := by
  intro hw f h
  obtain rfl := Option.some.inj h
  simp [decodeFields, entryOf, entryP2, entryP2M0, entryP2M1, entryP2M4, entryP2M5, Fields.mz, Fields.m0, Fields.d0, Fields.a0, Fields.b0, Fields.hd, Fields.ha, Fields.hb, Fields.kd, Fields.ka, Fields.kb, Fields.kc, Use.check, Use.rrr, Use.rr, Use.rd, Use.ra, Use.rab, Use.r0, Use.rbOnly, Use.rrrc, Use.v3, Use.v2, Use.v3c, Use.red, Use.raImm, Use.rdImm, Use.imm, Use.shift, Use.subA, Use.sub0, Use.subAm, Use.branch, Use.jump, Use.r, hw, mkV, Fields.et]
theorem F.vneg (t : ElemType) (d : Reg) (a : Reg) (m : VMod) : F.Statement (.vneg t d a m) := by
  intro hw f h
  obtain rfl := Option.some.inj h
  simp [decodeFields, entryOf, entryP2, entryP2M0, entryP2M1, entryP2M4, entryP2M5, Fields.mz, Fields.m0, Fields.d0, Fields.a0, Fields.b0, Fields.hd, Fields.ha, Fields.hb, Fields.kd, Fields.ka, Fields.kb, Fields.kc, Use.check, Use.rrr, Use.rr, Use.rd, Use.ra, Use.rab, Use.r0, Use.rbOnly, Use.rrrc, Use.v3, Use.v2, Use.v3c, Use.red, Use.raImm, Use.rdImm, Use.imm, Use.shift, Use.subA, Use.sub0, Use.subAm, Use.branch, Use.jump, Use.r, hw, mkV, Fields.et]
theorem F.vshl (t : ElemType) (d : Reg) (a : Reg) (b : Reg) (m : VMod) : F.Statement (.vshl t d a b m) := by
  intro hw f h
  obtain rfl := Option.some.inj h
  simp [decodeFields, entryOf, entryP2, entryP2M0, entryP2M1, entryP2M4, entryP2M5, Fields.mz, Fields.m0, Fields.d0, Fields.a0, Fields.b0, Fields.hd, Fields.ha, Fields.hb, Fields.kd, Fields.ka, Fields.kb, Fields.kc, Use.check, Use.rrr, Use.rr, Use.rd, Use.ra, Use.rab, Use.r0, Use.rbOnly, Use.rrrc, Use.v3, Use.v2, Use.v3c, Use.red, Use.raImm, Use.rdImm, Use.imm, Use.shift, Use.subA, Use.sub0, Use.subAm, Use.branch, Use.jump, Use.r, hw, mkV, Fields.et]
theorem F.vshr (t : ElemType) (d : Reg) (a : Reg) (b : Reg) (m : VMod) : F.Statement (.vshr t d a b m) := by
  intro hw f h
  obtain rfl := Option.some.inj h
  simp [decodeFields, entryOf, entryP2, entryP2M0, entryP2M1, entryP2M4, entryP2M5, Fields.mz, Fields.m0, Fields.d0, Fields.a0, Fields.b0, Fields.hd, Fields.ha, Fields.hb, Fields.kd, Fields.ka, Fields.kb, Fields.kc, Use.check, Use.rrr, Use.rr, Use.rd, Use.ra, Use.rab, Use.r0, Use.rbOnly, Use.rrrc, Use.v3, Use.v2, Use.v3c, Use.red, Use.raImm, Use.rdImm, Use.imm, Use.shift, Use.subA, Use.sub0, Use.subAm, Use.branch, Use.jump, Use.r, hw, mkV, Fields.et]
theorem F.vsra (t : ElemType) (d : Reg) (a : Reg) (b : Reg) (m : VMod) : F.Statement (.vsra t d a b m) := by
  intro hw f h
  obtain rfl := Option.some.inj h
  simp [decodeFields, entryOf, entryP2, entryP2M0, entryP2M1, entryP2M4, entryP2M5, Fields.mz, Fields.m0, Fields.d0, Fields.a0, Fields.b0, Fields.hd, Fields.ha, Fields.hb, Fields.kd, Fields.ka, Fields.kb, Fields.kc, Use.check, Use.rrr, Use.rr, Use.rd, Use.ra, Use.rab, Use.r0, Use.rbOnly, Use.rrrc, Use.v3, Use.v2, Use.v3c, Use.red, Use.raImm, Use.rdImm, Use.imm, Use.shift, Use.subA, Use.sub0, Use.subAm, Use.branch, Use.jump, Use.r, hw, mkV, Fields.et]
theorem F.vsel (t : ElemType) (d : Reg) (a : Reg) (b : Reg) (c : KReg) : F.Statement (.vsel t d a b c) := by
  intro hw f h
  obtain rfl := Option.some.inj h
  simp [decodeFields, entryOf, entryP2, entryP2M0, entryP2M1, entryP2M4, entryP2M5, Fields.mz, Fields.m0, Fields.d0, Fields.a0, Fields.b0, Fields.hd, Fields.ha, Fields.hb, Fields.kd, Fields.ka, Fields.kb, Fields.kc, Use.check, Use.rrr, Use.rr, Use.rd, Use.ra, Use.rab, Use.r0, Use.rbOnly, Use.vsel, Use.rrrc, Use.v3, Use.v2, Use.v3c, Use.red, Use.raImm, Use.rdImm, Use.imm, Use.shift, Use.subA, Use.sub0, Use.subAm, Use.branch, Use.jump, Use.r, hw, Fields.et]
theorem F.vcmpeq (t : ElemType) (d : KReg) (a : Reg) (b : Reg) (m : VMod) : F.Statement (.vcmpeq t d a b m) := by
  intro hw f h
  obtain rfl := Option.some.inj h
  simp [decodeFields, entryOf, entryP2, entryP2M0, entryP2M1, entryP2M4, entryP2M5, Fields.mz, Fields.m0, Fields.d0, Fields.a0, Fields.b0, Fields.hd, Fields.ha, Fields.hb, Fields.kd, Fields.ka, Fields.kb, Fields.kc, Use.check, Use.rrr, Use.rr, Use.rd, Use.ra, Use.rab, Use.r0, Use.rbOnly, Use.rrrc, Use.v3, Use.v2, Use.v3c, Use.red, Use.raImm, Use.rdImm, Use.imm, Use.shift, Use.subA, Use.sub0, Use.subAm, Use.branch, Use.jump, Use.r, hw, mkV, Fields.et]
theorem F.vcmplt (t : ElemType) (d : KReg) (a : Reg) (b : Reg) (m : VMod) : F.Statement (.vcmplt t d a b m) := by
  intro hw f h
  obtain rfl := Option.some.inj h
  simp [decodeFields, entryOf, entryP2, entryP2M0, entryP2M1, entryP2M4, entryP2M5, Fields.mz, Fields.m0, Fields.d0, Fields.a0, Fields.b0, Fields.hd, Fields.ha, Fields.hb, Fields.kd, Fields.ka, Fields.kb, Fields.kc, Use.check, Use.rrr, Use.rr, Use.rd, Use.ra, Use.rab, Use.r0, Use.rbOnly, Use.rrrc, Use.v3, Use.v2, Use.v3c, Use.red, Use.raImm, Use.rdImm, Use.imm, Use.shift, Use.subA, Use.sub0, Use.subAm, Use.branch, Use.jump, Use.r, hw, mkV, Fields.et]
theorem F.vcmple (t : ElemType) (d : KReg) (a : Reg) (b : Reg) (m : VMod) : F.Statement (.vcmple t d a b m) := by
  intro hw f h
  obtain rfl := Option.some.inj h
  simp [decodeFields, entryOf, entryP2, entryP2M0, entryP2M1, entryP2M4, entryP2M5, Fields.mz, Fields.m0, Fields.d0, Fields.a0, Fields.b0, Fields.hd, Fields.ha, Fields.hb, Fields.kd, Fields.ka, Fields.kb, Fields.kc, Use.check, Use.rrr, Use.rr, Use.rd, Use.ra, Use.rab, Use.r0, Use.rbOnly, Use.rrrc, Use.v3, Use.v2, Use.v3c, Use.red, Use.raImm, Use.rdImm, Use.imm, Use.shift, Use.subA, Use.sub0, Use.subAm, Use.branch, Use.jump, Use.r, hw, mkV, Fields.et]
theorem F.vexp (t : ElemType) (d : Reg) (a : Reg) (m : VMod) : F.Statement (.vexp t d a m) := by
  intro hw f h
  obtain rfl := Option.some.inj h
  simp [decodeFields, entryOf, entryP2, entryP2M0, entryP2M1, entryP2M4, entryP2M5, Fields.mz, Fields.m0, Fields.d0, Fields.a0, Fields.b0, Fields.hd, Fields.ha, Fields.hb, Fields.kd, Fields.ka, Fields.kb, Fields.kc, Use.check, Use.rrr, Use.rr, Use.rd, Use.ra, Use.rab, Use.r0, Use.rbOnly, Use.rrrc, Use.v3, Use.v2, Use.v3c, Use.red, Use.raImm, Use.rdImm, Use.imm, Use.shift, Use.subA, Use.sub0, Use.subAm, Use.branch, Use.jump, Use.r, hw, mkV, Fields.et]
theorem F.vrcp (t : ElemType) (d : Reg) (a : Reg) (m : VMod) : F.Statement (.vrcp t d a m) := by
  intro hw f h
  obtain rfl := Option.some.inj h
  simp [decodeFields, entryOf, entryP2, entryP2M0, entryP2M1, entryP2M4, entryP2M5, Fields.mz, Fields.m0, Fields.d0, Fields.a0, Fields.b0, Fields.hd, Fields.ha, Fields.hb, Fields.kd, Fields.ka, Fields.kb, Fields.kc, Use.check, Use.rrr, Use.rr, Use.rd, Use.ra, Use.rab, Use.r0, Use.rbOnly, Use.rrrc, Use.v3, Use.v2, Use.v3c, Use.red, Use.raImm, Use.rdImm, Use.imm, Use.shift, Use.subA, Use.sub0, Use.subAm, Use.branch, Use.jump, Use.r, hw, mkV, Fields.et]
theorem F.vrsqrt (t : ElemType) (d : Reg) (a : Reg) (m : VMod) : F.Statement (.vrsqrt t d a m) := by
  intro hw f h
  obtain rfl := Option.some.inj h
  simp [decodeFields, entryOf, entryP2, entryP2M0, entryP2M1, entryP2M4, entryP2M5, Fields.mz, Fields.m0, Fields.d0, Fields.a0, Fields.b0, Fields.hd, Fields.ha, Fields.hb, Fields.kd, Fields.ka, Fields.kb, Fields.kc, Use.check, Use.rrr, Use.rr, Use.rd, Use.ra, Use.rab, Use.r0, Use.rbOnly, Use.rrrc, Use.v3, Use.v2, Use.v3c, Use.red, Use.raImm, Use.rdImm, Use.imm, Use.shift, Use.subA, Use.sub0, Use.subAm, Use.branch, Use.jump, Use.r, hw, mkV, Fields.et]
theorem F.vsat (t : ElemType) (d : Reg) (a : Reg) (b : Reg) (m : VMod) : F.Statement (.vsat t d a b m) := by
  intro hw f h
  obtain rfl := Option.some.inj h
  simp [decodeFields, entryOf, entryP2, entryP2M0, entryP2M1, entryP2M4, entryP2M5, Fields.mz, Fields.m0, Fields.d0, Fields.a0, Fields.b0, Fields.hd, Fields.ha, Fields.hb, Fields.kd, Fields.ka, Fields.kb, Fields.kc, Use.check, Use.rrr, Use.rr, Use.rd, Use.ra, Use.rab, Use.r0, Use.rbOnly, Use.rrrc, Use.v3, Use.v2, Use.v3c, Use.red, Use.raImm, Use.rdImm, Use.imm, Use.shift, Use.subA, Use.sub0, Use.subAm, Use.branch, Use.jump, Use.r, hw, mkV, Fields.et]
theorem F.vcvt (td : ElemType) (ts : ElemType) (sat : Bool) (d : Reg) (a : Reg) : F.Statement (.vcvt td ts sat d a) := by
  intro hw f h
  obtain rfl := Option.some.inj h
  change decodeFields (mkV td 1 d.bits a.bits 0 0 (conv sat ts)) = _
  simp [decodeFields, entryOf, entryP2, entryP2M0, entryP2M1, entryP2M4, entryP2M5, Fields.mz, Fields.m0, Fields.d0, Fields.a0, Fields.b0, Fields.hd, Fields.ha, Fields.hb, Fields.kd, Fields.ka, Fields.kb, Fields.kc, Use.check, Use.rrr, Use.rr, Use.rd, Use.ra, Use.rab, Use.r0, Use.rbOnly, Use.rrrc, Use.v3, Use.v2, Use.v3c, Use.red, Use.raImm, Use.rdImm, Use.imm, Use.shift, Use.subA, Use.sub0, Use.subAm, Use.branch, Use.jump, Use.r, hw, mkV, Fields.et]
theorem F.vpack (td : ElemType) (ts : ElemType) (sat : Bool) (d : Reg) (a : Reg) (b : Reg) : F.Statement (.vpack td ts sat d a b) := by
  intro hw f h
  obtain rfl := Option.some.inj h
  change decodeFields (mkV td 1 d.bits a.bits b.bits 1 (conv sat ts)) = _
  simp [decodeFields, entryOf, entryP2, entryP2M0, entryP2M1, entryP2M4, entryP2M5, Fields.mz, Fields.m0, Fields.d0, Fields.a0, Fields.b0, Fields.hd, Fields.ha, Fields.hb, Fields.kd, Fields.ka, Fields.kb, Fields.kc, Use.check, Use.rrr, Use.rr, Use.rd, Use.ra, Use.rab, Use.r0, Use.rbOnly, Use.rrrc, Use.v3, Use.v2, Use.v3c, Use.red, Use.raImm, Use.rdImm, Use.imm, Use.shift, Use.subA, Use.sub0, Use.subAm, Use.branch, Use.jump, Use.r, hw, mkV, Fields.et]
theorem F.vunpack (td : ElemType) (ts : ElemType) (sat : Bool) (d : Reg) (a : Reg) (hh : Bool) : F.Statement (.vunpack td ts sat d a hh) := by
  intro hw f h
  obtain rfl := Option.some.inj h
  change decodeFields (mkV td 1 d.bits a.bits (if hh then 1 else 0) 2 (conv sat ts)) = _
  cases hh <;> simp [decodeFields, entryOf, entryP2, entryP2M0, entryP2M1, entryP2M4, entryP2M5, Fields.mz, Fields.m0, Fields.d0, Fields.a0, Fields.b0, Fields.hd, Fields.ha, Fields.hb, Fields.kd, Fields.ka, Fields.kb, Fields.kc, Use.check, Use.rrr, Use.rr, Use.rd, Use.ra, Use.rab, Use.r0, Use.rbOnly, Use.rrrc, Use.v3, Use.v2, Use.v3c, Use.red, Use.raImm, Use.rdImm, Use.imm, Use.shift, Use.subA, Use.sub0, Use.subAm, Use.branch, Use.jump, Use.r, hw, mkV, Fields.et, Fields.half]
theorem F.vshuf (t : ElemType) (d : Reg) (a : Reg) (b : Reg) (m : VMod) : F.Statement (.vshuf t d a b m) := by
  intro hw f h
  obtain rfl := Option.some.inj h
  simp [decodeFields, entryOf, entryP2, entryP2M0, entryP2M1, entryP2M4, entryP2M5, Fields.mz, Fields.m0, Fields.d0, Fields.a0, Fields.b0, Fields.hd, Fields.ha, Fields.hb, Fields.kd, Fields.ka, Fields.kb, Fields.kc, Use.check, Use.rrr, Use.rr, Use.rd, Use.ra, Use.rab, Use.r0, Use.rbOnly, Use.rrrc, Use.v3, Use.v2, Use.v3c, Use.red, Use.raImm, Use.rdImm, Use.imm, Use.shift, Use.subA, Use.sub0, Use.subAm, Use.branch, Use.jump, Use.r, hw, mkV, Fields.et]
theorem F.vbcast (t : ElemType) (d : Reg) (a : Reg) (m : VMod) : F.Statement (.vbcast t d a m) := by
  intro hw f h
  obtain rfl := Option.some.inj h
  simp [decodeFields, entryOf, entryP2, entryP2M0, entryP2M1, entryP2M4, entryP2M5, Fields.mz, Fields.m0, Fields.d0, Fields.a0, Fields.b0, Fields.hd, Fields.ha, Fields.hb, Fields.kd, Fields.ka, Fields.kb, Fields.kc, Use.check, Use.rrr, Use.rr, Use.rd, Use.ra, Use.rab, Use.r0, Use.rbOnly, Use.rrrc, Use.v3, Use.v2, Use.v3c, Use.red, Use.raImm, Use.rdImm, Use.imm, Use.shift, Use.subA, Use.sub0, Use.subAm, Use.branch, Use.jump, Use.r, hw, mkV, Fields.et]
theorem F.vmov (t : ElemType) (d : Reg) (a : Reg) (m : VMod) : F.Statement (.vmov t d a m) := by
  intro hw f h
  obtain rfl := Option.some.inj h
  simp [decodeFields, entryOf, entryP2, entryP2M0, entryP2M1, entryP2M4, entryP2M5, Fields.mz, Fields.m0, Fields.d0, Fields.a0, Fields.b0, Fields.hd, Fields.ha, Fields.hb, Fields.kd, Fields.ka, Fields.kb, Fields.kc, Use.check, Use.rrr, Use.rr, Use.rd, Use.ra, Use.rab, Use.r0, Use.rbOnly, Use.rrrc, Use.v3, Use.v2, Use.v3c, Use.red, Use.raImm, Use.rdImm, Use.imm, Use.shift, Use.subA, Use.sub0, Use.subAm, Use.branch, Use.jump, Use.r, hw, mkV, Fields.et]
theorem F.vredsum (t : ElemType) (d : Reg) (a : Reg) (m : VMod) : F.Statement (.vredsum t d a m) := by
  intro hw f h
  obtain rfl := Option.some.inj h
  simp [decodeFields, entryOf, entryP2, entryP2M0, entryP2M1, entryP2M4, entryP2M5, Fields.mz, Fields.m0, Fields.d0, Fields.a0, Fields.b0, Fields.hd, Fields.ha, Fields.hb, Fields.kd, Fields.ka, Fields.kb, Fields.kc, Use.check, Use.rrr, Use.rr, Use.rd, Use.ra, Use.rab, Use.r0, Use.rbOnly, Use.rrrc, Use.v3, Use.v2, Use.v3c, Use.red, Use.raImm, Use.rdImm, Use.imm, Use.shift, Use.subA, Use.sub0, Use.subAm, Use.branch, Use.jump, Use.r, hw, mkV, Fields.et]
theorem F.vredmax (t : ElemType) (d : Reg) (a : Reg) (m : VMod) : F.Statement (.vredmax t d a m) := by
  intro hw f h
  obtain rfl := Option.some.inj h
  simp [decodeFields, entryOf, entryP2, entryP2M0, entryP2M1, entryP2M4, entryP2M5, Fields.mz, Fields.m0, Fields.d0, Fields.a0, Fields.b0, Fields.hd, Fields.ha, Fields.hb, Fields.kd, Fields.ka, Fields.kb, Fields.kc, Use.check, Use.rrr, Use.rr, Use.rd, Use.ra, Use.rab, Use.r0, Use.rbOnly, Use.rrrc, Use.v3, Use.v2, Use.v3c, Use.red, Use.raImm, Use.rdImm, Use.imm, Use.shift, Use.subA, Use.sub0, Use.subAm, Use.branch, Use.jump, Use.r, hw, mkV, Fields.et]
theorem F.vredmin (t : ElemType) (d : Reg) (a : Reg) (m : VMod) : F.Statement (.vredmin t d a m) := by
  intro hw f h
  obtain rfl := Option.some.inj h
  simp [decodeFields, entryOf, entryP2, entryP2M0, entryP2M1, entryP2M4, entryP2M5, Fields.mz, Fields.m0, Fields.d0, Fields.a0, Fields.b0, Fields.hd, Fields.ha, Fields.hb, Fields.kd, Fields.ka, Fields.kb, Fields.kc, Use.check, Use.rrr, Use.rr, Use.rd, Use.ra, Use.rab, Use.r0, Use.rbOnly, Use.rrrc, Use.v3, Use.v2, Use.v3c, Use.red, Use.raImm, Use.rdImm, Use.imm, Use.shift, Use.subA, Use.sub0, Use.subAm, Use.branch, Use.jump, Use.r, hw, mkV, Fields.et]
theorem F.vscan (t : ElemType) (d : Reg) (a : Reg) (m : VMod) : F.Statement (.vscan t d a m) := by
  intro hw f h
  obtain rfl := Option.some.inj h
  simp [decodeFields, entryOf, entryP2, entryP2M0, entryP2M1, entryP2M4, entryP2M5, Fields.mz, Fields.m0, Fields.d0, Fields.a0, Fields.b0, Fields.hd, Fields.ha, Fields.hb, Fields.kd, Fields.ka, Fields.kb, Fields.kc, Use.check, Use.rrr, Use.rr, Use.rd, Use.ra, Use.rab, Use.r0, Use.rbOnly, Use.rrrc, Use.v3, Use.v2, Use.v3c, Use.red, Use.raImm, Use.rdImm, Use.imm, Use.shift, Use.subA, Use.sub0, Use.subAm, Use.branch, Use.jump, Use.r, hw, mkV, Fields.et]
theorem F.vmovs (t : ElemType) (d : Reg) (a : Reg) (b : Reg) : F.Statement (.vmovs t d a b) := by
  intro hw f h
  obtain rfl := Option.some.inj h
  simp [decodeFields, entryOf, entryP2, entryP2M0, entryP2M1, entryP2M4, entryP2M5, Fields.mz, Fields.m0, Fields.d0, Fields.a0, Fields.b0, Fields.hd, Fields.ha, Fields.hb, Fields.kd, Fields.ka, Fields.kb, Fields.kc, Use.check, Use.rrr, Use.rr, Use.rd, Use.ra, Use.rab, Use.r0, Use.rbOnly, Use.rrrc, Use.v3, Use.v2, Use.v3c, Use.red, Use.raImm, Use.rdImm, Use.imm, Use.shift, Use.subA, Use.sub0, Use.subAm, Use.branch, Use.jump, Use.r, hw, Fields.et]
theorem F.vext (t : ElemType) (d : Reg) (a : Reg) (b : Reg) (m : VMod) : F.Statement (.vext t d a b m) := by
  intro hw f h
  obtain rfl := Option.some.inj h
  simp [decodeFields, entryOf, entryP2, entryP2M0, entryP2M1, entryP2M4, entryP2M5, Fields.mz, Fields.m0, Fields.d0, Fields.a0, Fields.b0, Fields.hd, Fields.ha, Fields.hb, Fields.kd, Fields.ka, Fields.kb, Fields.kc, Use.check, Use.rrr, Use.rr, Use.rd, Use.ra, Use.rab, Use.r0, Use.rbOnly, Use.rrrc, Use.v3, Use.v2, Use.v3c, Use.red, Use.raImm, Use.rdImm, Use.imm, Use.shift, Use.subA, Use.sub0, Use.subAm, Use.branch, Use.jump, Use.r, hw, mkV, Fields.et]
theorem F.vld (d : Reg) (a : Reg) (imm : BitVec 26) : F.Statement (.vld d a imm) := by
  intro hw f h
  obtain rfl := Option.some.inj h
  simp [decodeFields, entryOf, entryP2, entryP2M0, entryP2M1, entryP2M4, entryP2M5, Fields.mz, Fields.m0, Fields.d0, Fields.a0, Fields.b0, Fields.hd, Fields.ha, Fields.hb, Fields.kd, Fields.ka, Fields.kb, Fields.kc, Use.check, Use.rrr, Use.rr, Use.rd, Use.ra, Use.rab, Use.r0, Use.rbOnly, Use.rrrc, Use.v3, Use.v2, Use.v3c, Use.red, Use.raImm, Use.rdImm, Use.imm, Use.shift, Use.subA, Use.sub0, Use.subAm, Use.branch, Use.jump, Use.r, hw, mkIS, mkIU, Fields.et, -BitVec.truncate_eq_setWidth]
theorem F.vst (d : Reg) (a : Reg) (imm : BitVec 26) : F.Statement (.vst d a imm) := by
  intro hw f h
  obtain rfl := Option.some.inj h
  simp [decodeFields, entryOf, entryP2, entryP2M0, entryP2M1, entryP2M4, entryP2M5, Fields.mz, Fields.m0, Fields.d0, Fields.a0, Fields.b0, Fields.hd, Fields.ha, Fields.hb, Fields.kd, Fields.ka, Fields.kb, Fields.kc, Use.check, Use.rrr, Use.rr, Use.rd, Use.ra, Use.rab, Use.r0, Use.rbOnly, Use.rrrc, Use.v3, Use.v2, Use.v3c, Use.red, Use.raImm, Use.rdImm, Use.imm, Use.shift, Use.subA, Use.sub0, Use.subAm, Use.branch, Use.jump, Use.r, hw, mkIS, mkIU, Fields.et, -BitVec.truncate_eq_setWidth]
theorem F.vldc (t : ElemType) (d : Reg) (a : Reg) (sat : Bool) (u : Bool) : F.Statement (.vldc t d a sat u) := by
  intro hw f h
  obtain rfl := Option.some.inj h
  cases sat <;> cases u <;> simp [decodeFields, entryOf, entryP2, entryP2M0, entryP2M1, entryP2M4, entryP2M5, Fields.mz, Fields.m0, Fields.d0, Fields.a0, Fields.b0, Fields.hd, Fields.ha, Fields.hb, Fields.kd, Fields.ka, Fields.kb, Fields.kc, Use.check, Use.rrr, Use.rr, Use.rd, Use.ra, Use.rab, Use.r0, Use.rbOnly, Use.rrrc, Use.v3, Use.v2, Use.v3c, Use.red, Use.raImm, Use.rdImm, Use.imm, Use.shift, Use.subA, Use.sub0, Use.subAm, Use.branch, Use.jump, Use.r, hw, mkV, Fields.et]
theorem F.vstc (t : ElemType) (d : Reg) (a : Reg) (sat : Bool) (u : Bool) (b4 : B4Type) : F.Statement (.vstc t d a sat u b4) := by
  intro hw f h
  obtain rfl := Option.some.inj h
  cases sat <;> cases u <;> cases b4 <;> simp [decodeFields, entryOf, entryP2, entryP2M0, entryP2M1, entryP2M4, entryP2M5, Fields.mz, Fields.m0, Fields.d0, Fields.a0, Fields.b0, Fields.hd, Fields.ha, Fields.hb, Fields.kd, Fields.ka, Fields.kb, Fields.kc, Use.check, Use.rrr, Use.rr, Use.rd, Use.ra, Use.rab, Use.r0, Use.rbOnly, Use.rrrc, Use.v3, Use.v2, Use.v3c, Use.red, Use.raImm, Use.rdImm, Use.imm, Use.shift, Use.subA, Use.sub0, Use.subAm, Use.branch, Use.jump, Use.r, hw, mkV, Fields.et, B4Type.code, B4Type.ofCode]
theorem F.vldb (t : ElemType) (d : Reg) (a : Reg) (m : VMod) : F.Statement (.vldb t d a m) := by
  intro hw f h
  obtain rfl := Option.some.inj h
  simp [decodeFields, entryOf, entryP2, entryP2M0, entryP2M1, entryP2M4, entryP2M5, Fields.mz, Fields.m0, Fields.d0, Fields.a0, Fields.b0, Fields.hd, Fields.ha, Fields.hb, Fields.kd, Fields.ka, Fields.kb, Fields.kc, Use.check, Use.rrr, Use.rr, Use.rd, Use.ra, Use.rab, Use.r0, Use.rbOnly, Use.rrrc, Use.v3, Use.v2, Use.v3c, Use.red, Use.raImm, Use.rdImm, Use.imm, Use.shift, Use.subA, Use.sub0, Use.subAm, Use.branch, Use.jump, Use.r, hw, mkV, Fields.et]
theorem F.vldx (t : ElemType) (d : Reg) (a : Reg) (b : Reg) (m : VMod) : F.Statement (.vldx t d a b m) := by
  intro hw f h
  obtain rfl := Option.some.inj h
  simp [decodeFields, entryOf, entryP2, entryP2M0, entryP2M1, entryP2M4, entryP2M5, Fields.mz, Fields.m0, Fields.d0, Fields.a0, Fields.b0, Fields.hd, Fields.ha, Fields.hb, Fields.kd, Fields.ka, Fields.kb, Fields.kc, Use.check, Use.rrr, Use.rr, Use.rd, Use.ra, Use.rab, Use.r0, Use.rbOnly, Use.rrrc, Use.v3, Use.v2, Use.v3c, Use.red, Use.raImm, Use.rdImm, Use.imm, Use.shift, Use.subA, Use.sub0, Use.subAm, Use.branch, Use.jump, Use.r, hw, mkV, Fields.et]
theorem F.vstx (t : ElemType) (d : Reg) (a : Reg) (b : Reg) (m : VMod) : F.Statement (.vstx t d a b m) := by
  intro hw f h
  obtain rfl := Option.some.inj h
  simp [decodeFields, entryOf, entryP2, entryP2M0, entryP2M1, entryP2M4, entryP2M5, Fields.mz, Fields.m0, Fields.d0, Fields.a0, Fields.b0, Fields.hd, Fields.ha, Fields.hb, Fields.kd, Fields.ka, Fields.kb, Fields.kc, Use.check, Use.rrr, Use.rr, Use.rd, Use.ra, Use.rab, Use.r0, Use.rbOnly, Use.rrrc, Use.v3, Use.v2, Use.v3c, Use.red, Use.raImm, Use.rdImm, Use.imm, Use.shift, Use.subA, Use.sub0, Use.subAm, Use.branch, Use.jump, Use.r, hw, mkV, Fields.et]
theorem F.vldh (d : Reg) (a : HReg) (b : Reg) : F.Statement (.vldh d a b) := by
  intro hw f h
  obtain rfl := Option.some.inj h
  simp [decodeFields, entryOf, entryP2, entryP2M0, entryP2M1, entryP2M4, entryP2M5, Fields.mz, Fields.m0, Fields.d0, Fields.a0, Fields.b0, Fields.hd, Fields.ha, Fields.hb, Fields.kd, Fields.ka, Fields.kb, Fields.kc, Use.check, Use.rrr, Use.rr, Use.rd, Use.ra, Use.rab, Use.r0, Use.rbOnly, Use.rrrc, Use.v3, Use.v2, Use.v3c, Use.red, Use.raImm, Use.rdImm, Use.imm, Use.shift, Use.subA, Use.sub0, Use.subAm, Use.branch, Use.jump, Use.r, hw, Fields.et]
theorem F.vsth (d : Reg) (a : HReg) (b : Reg) : F.Statement (.vsth d a b) := by
  intro hw f h
  obtain rfl := Option.some.inj h
  simp [decodeFields, entryOf, entryP2, entryP2M0, entryP2M1, entryP2M4, entryP2M5, Fields.mz, Fields.m0, Fields.d0, Fields.a0, Fields.b0, Fields.hd, Fields.ha, Fields.hb, Fields.kd, Fields.ka, Fields.kb, Fields.kc, Use.check, Use.rrr, Use.rr, Use.rd, Use.ra, Use.rab, Use.r0, Use.rbOnly, Use.rrrc, Use.v3, Use.v2, Use.v3c, Use.red, Use.raImm, Use.rdImm, Use.imm, Use.shift, Use.subA, Use.sub0, Use.subAm, Use.branch, Use.jump, Use.r, hw, Fields.et]
theorem F.kand (d : KReg) (a : KReg) (b : KReg) : F.Statement (.kand d a b) := by
  intro hw f h
  obtain rfl := Option.some.inj h
  simp [decodeFields, entryOf, entryP2, entryP2M0, entryP2M1, entryP2M4, entryP2M5, Fields.mz, Fields.m0, Fields.d0, Fields.a0, Fields.b0, Fields.hd, Fields.ha, Fields.hb, Fields.kd, Fields.ka, Fields.kb, Fields.kc, Use.check, Use.rrr, Use.rr, Use.rd, Use.ra, Use.rab, Use.r0, Use.rbOnly, Use.rrrc, Use.v3, Use.v2, Use.v3c, Use.red, Use.raImm, Use.rdImm, Use.imm, Use.shift, Use.subA, Use.sub0, Use.subAm, Use.branch, Use.jump, Use.r, hw, Fields.et]
theorem F.kor (d : KReg) (a : KReg) (b : KReg) : F.Statement (.kor d a b) := by
  intro hw f h
  obtain rfl := Option.some.inj h
  simp [decodeFields, entryOf, entryP2, entryP2M0, entryP2M1, entryP2M4, entryP2M5, Fields.mz, Fields.m0, Fields.d0, Fields.a0, Fields.b0, Fields.hd, Fields.ha, Fields.hb, Fields.kd, Fields.ka, Fields.kb, Fields.kc, Use.check, Use.rrr, Use.rr, Use.rd, Use.ra, Use.rab, Use.r0, Use.rbOnly, Use.rrrc, Use.v3, Use.v2, Use.v3c, Use.red, Use.raImm, Use.rdImm, Use.imm, Use.shift, Use.subA, Use.sub0, Use.subAm, Use.branch, Use.jump, Use.r, hw, Fields.et]
theorem F.kxor (d : KReg) (a : KReg) (b : KReg) : F.Statement (.kxor d a b) := by
  intro hw f h
  obtain rfl := Option.some.inj h
  simp [decodeFields, entryOf, entryP2, entryP2M0, entryP2M1, entryP2M4, entryP2M5, Fields.mz, Fields.m0, Fields.d0, Fields.a0, Fields.b0, Fields.hd, Fields.ha, Fields.hb, Fields.kd, Fields.ka, Fields.kb, Fields.kc, Use.check, Use.rrr, Use.rr, Use.rd, Use.ra, Use.rab, Use.r0, Use.rbOnly, Use.rrrc, Use.v3, Use.v2, Use.v3c, Use.red, Use.raImm, Use.rdImm, Use.imm, Use.shift, Use.subA, Use.sub0, Use.subAm, Use.branch, Use.jump, Use.r, hw, Fields.et]
theorem F.knot (d : KReg) (a : KReg) : F.Statement (.knot d a) := by
  intro hw f h
  obtain rfl := Option.some.inj h
  simp [decodeFields, entryOf, entryP2, entryP2M0, entryP2M1, entryP2M4, entryP2M5, Fields.mz, Fields.m0, Fields.d0, Fields.a0, Fields.b0, Fields.hd, Fields.ha, Fields.hb, Fields.kd, Fields.ka, Fields.kb, Fields.kc, Use.check, Use.rrr, Use.rr, Use.rd, Use.ra, Use.rab, Use.r0, Use.rbOnly, Use.rrrc, Use.v3, Use.v2, Use.v3c, Use.red, Use.raImm, Use.rdImm, Use.imm, Use.shift, Use.subA, Use.sub0, Use.subAm, Use.branch, Use.jump, Use.r, hw, Fields.et]
theorem F.kmov (d : KReg) (a : Reg) (b : Reg) : F.Statement (.kmov d a b) := by
  intro hw f h
  obtain rfl := Option.some.inj h
  simp [decodeFields, entryOf, entryP2, entryP2M0, entryP2M1, entryP2M4, entryP2M5, Fields.mz, Fields.m0, Fields.d0, Fields.a0, Fields.b0, Fields.hd, Fields.ha, Fields.hb, Fields.kd, Fields.ka, Fields.kb, Fields.kc, Use.check, Use.rrr, Use.rr, Use.rd, Use.ra, Use.rab, Use.r0, Use.rbOnly, Use.rrrc, Use.v3, Use.v2, Use.v3c, Use.red, Use.raImm, Use.rdImm, Use.imm, Use.shift, Use.subA, Use.sub0, Use.subAm, Use.branch, Use.jump, Use.r, hw, Fields.et]
theorem F.kpop (d : Reg) (a : KReg) : F.Statement (.kpop d a) := by
  intro hw f h
  obtain rfl := Option.some.inj h
  simp [decodeFields, entryOf, entryP2, entryP2M0, entryP2M1, entryP2M4, entryP2M5, Fields.mz, Fields.m0, Fields.d0, Fields.a0, Fields.b0, Fields.hd, Fields.ha, Fields.hb, Fields.kd, Fields.ka, Fields.kb, Fields.kc, Use.check, Use.rrr, Use.rr, Use.rd, Use.ra, Use.rab, Use.r0, Use.rbOnly, Use.rrrc, Use.v3, Use.v2, Use.v3c, Use.red, Use.raImm, Use.rdImm, Use.imm, Use.shift, Use.subA, Use.sub0, Use.subAm, Use.branch, Use.jump, Use.r, hw, Fields.et]
theorem F.mma (acc : AccType) (d : Reg) (a : HReg) (b : HReg) : F.Statement (.mma acc d a b) := by
  intro hw f h
  obtain rfl := Option.some.inj h
  cases acc <;> simp [decodeFields, entryOf, entryP3M0, entryP3M1, Fields.mz, Fields.m0, Fields.d0, Fields.a0, Fields.b0, Fields.hd, Fields.ha, Fields.hb, Fields.kd, Fields.ka, Fields.kb, Fields.kc, Use.check, Use.rrr, Use.rr, Use.rd, Use.ra, Use.rab, Use.r0, Use.rbOnly, Use.rrrc, Use.v3, Use.v2, Use.v3c, Use.red, Use.raImm, Use.rdImm, Use.imm, Use.shift, Use.subA, Use.sub0, Use.subAm, Use.branch, Use.jump, Use.r, hw, Fields.acc, AccType.code, AccType.ofCode]
theorem F.mmai (sat : Bool) (ua : Bool) (ub : Bool) (d : Reg) (a : HReg) (b : HReg) : F.Statement (.mmai sat ua ub d a b) := by
  intro hw f h
  obtain rfl := Option.some.inj h
  cases sat <;> cases ua <;> cases ub <;> simp [decodeFields, entryOf, entryP3M0, entryP3M1, Fields.mz, Fields.m0, Fields.d0, Fields.a0, Fields.b0, Fields.hd, Fields.ha, Fields.hb, Fields.kd, Fields.ka, Fields.kb, Fields.kc, Use.check, Use.rrr, Use.rr, Use.rd, Use.ra, Use.rab, Use.r0, Use.rbOnly, Use.rrrc, Use.v3, Use.v2, Use.v3c, Use.red, Use.raImm, Use.rdImm, Use.imm, Use.shift, Use.subA, Use.sub0, Use.subAm, Use.branch, Use.jump, Use.r, hw, b1]
theorem F.mzero (acc : AccType) (d : Reg) : F.Statement (.mzero acc d) := by
  intro hw f h
  obtain rfl := Option.some.inj h
  cases acc <;> simp [decodeFields, entryOf, entryP3M0, entryP3M1, Fields.mz, Fields.m0, Fields.d0, Fields.a0, Fields.b0, Fields.hd, Fields.ha, Fields.hb, Fields.kd, Fields.ka, Fields.kb, Fields.kc, Use.check, Use.rrr, Use.rr, Use.rd, Use.ra, Use.rab, Use.r0, Use.rbOnly, Use.rrrc, Use.v3, Use.v2, Use.v3c, Use.red, Use.raImm, Use.rdImm, Use.imm, Use.shift, Use.subA, Use.sub0, Use.subAm, Use.branch, Use.jump, Use.r, hw, Fields.acc, AccType.code, AccType.ofCode]
theorem F.mload (acc : AccType) (bc : Bool) (d : Reg) (a : Reg) : F.Statement (.mload acc bc d a) := by
  intro hw f h
  obtain rfl := Option.some.inj h
  cases acc <;> cases bc <;> simp [decodeFields, entryOf, entryP3M0, entryP3M1, Fields.mz, Fields.m0, Fields.d0, Fields.a0, Fields.b0, Fields.hd, Fields.ha, Fields.hb, Fields.kd, Fields.ka, Fields.kb, Fields.kc, Use.check, Use.rrr, Use.rr, Use.rd, Use.ra, Use.rab, Use.r0, Use.rbOnly, Use.rrrc, Use.v3, Use.v2, Use.v3c, Use.red, Use.raImm, Use.rdImm, Use.imm, Use.shift, Use.subA, Use.sub0, Use.subAm, Use.branch, Use.jump, Use.r, hw, Fields.acc, AccType.code, AccType.ofCode, b1]
theorem F.mdrain (acc : AccType) (d : Reg) (a : Reg) : F.Statement (.mdrain acc d a) := by
  intro hw f h
  obtain rfl := Option.some.inj h
  cases acc <;> simp [decodeFields, entryOf, entryP3M0, entryP3M1, Fields.mz, Fields.m0, Fields.d0, Fields.a0, Fields.b0, Fields.hd, Fields.ha, Fields.hb, Fields.kd, Fields.ka, Fields.kb, Fields.kc, Use.check, Use.rrr, Use.rr, Use.rd, Use.ra, Use.rab, Use.r0, Use.rbOnly, Use.rrrc, Use.v3, Use.v2, Use.v3c, Use.red, Use.raImm, Use.rdImm, Use.imm, Use.shift, Use.subA, Use.sub0, Use.subAm, Use.branch, Use.jump, Use.r, hw, Fields.acc, AccType.code, AccType.ofCode]
theorem F.mdrq (o : DrqType) (d : Reg) (a : Reg) (b : Reg) : F.Statement (.mdrq o d a b) := by
  intro hw f h
  obtain rfl := Option.some.inj h
  cases o <;> simp [decodeFields, entryOf, entryP3M0, entryP3M1, Fields.mz, Fields.m0, Fields.d0, Fields.a0, Fields.b0, Fields.hd, Fields.ha, Fields.hb, Fields.kd, Fields.ka, Fields.kb, Fields.kc, Use.check, Use.rrr, Use.rr, Use.rd, Use.ra, Use.rab, Use.r0, Use.rbOnly, Use.rrrc, Use.v3, Use.v2, Use.v3c, Use.red, Use.raImm, Use.rdImm, Use.imm, Use.shift, Use.subA, Use.sub0, Use.subAm, Use.branch, Use.jump, Use.r, hw, Fields.drq, DrqType.code]
theorem F.mrsum (sat : Bool) (u : Bool) (d : Reg) (a : HReg) (b : Reg) : F.Statement (.mrsum sat u d a b) := by
  intro hw f h
  obtain rfl := Option.some.inj h
  cases sat <;> cases u <;> simp [decodeFields, entryOf, entryP3M0, entryP3M1, Fields.mz, Fields.m0, Fields.d0, Fields.a0, Fields.b0, Fields.hd, Fields.ha, Fields.hb, Fields.kd, Fields.ka, Fields.kb, Fields.kc, Use.check, Use.rrr, Use.rr, Use.rd, Use.ra, Use.rab, Use.r0, Use.rbOnly, Use.rrrc, Use.v3, Use.v2, Use.v3c, Use.red, Use.raImm, Use.rdImm, Use.imm, Use.shift, Use.subA, Use.sub0, Use.subAm, Use.branch, Use.jump, Use.r, hw, b1]
theorem F.mcsum (sat : Bool) (u : Bool) (d : Reg) (a : HReg) (b : Reg) : F.Statement (.mcsum sat u d a b) := by
  intro hw f h
  obtain rfl := Option.some.inj h
  cases sat <;> cases u <;> simp [decodeFields, entryOf, entryP3M0, entryP3M1, Fields.mz, Fields.m0, Fields.d0, Fields.a0, Fields.b0, Fields.hd, Fields.ha, Fields.hb, Fields.kd, Fields.ka, Fields.kb, Fields.kc, Use.check, Use.rrr, Use.rr, Use.rd, Use.ra, Use.rab, Use.r0, Use.rbOnly, Use.rrrc, Use.v3, Use.v2, Use.v3c, Use.red, Use.raImm, Use.rdImm, Use.imm, Use.shift, Use.subA, Use.sub0, Use.subAm, Use.branch, Use.jump, Use.r, hw, b1]
theorem F.mgang (n : Fin 3) : F.Statement (.mgang n) := by
  intro hw f h
  obtain rfl := Option.some.inj h
  have h1 := small5 (n.castLE (by decide)); have h2 : n.val % 8 = n.val := by omega
  simp only [Fin.val_castLE] at h1
  simp [decodeFields, entryOf, entryP3M0, entryP3M1, Fields.mz, Fields.m0, Fields.d0, Fields.a0, Fields.b0, Fields.hd, Fields.ha, Fields.hb, Fields.kd, Fields.ka, Fields.kb, Fields.kc, Use.check, Use.rrr, Use.rr, Use.rd, Use.ra, Use.rab, Use.r0, Use.rbOnly, Use.rrrc, Use.v3, Use.v2, Use.v3c, Use.red, Use.raImm, Use.rdImm, Use.imm, Use.shift, Use.subA, Use.sub0, Use.subAm, Use.branch, Use.jump, Use.r, hw, h1, h2, n.isLt]
theorem F.mfollow : F.Statement (.mfollow) := by
  intro hw f h
  obtain rfl := Option.some.inj h
  simp [decodeFields, entryOf, entryP3M0, entryP3M1, Fields.mz, Fields.m0, Fields.d0, Fields.a0, Fields.b0, Fields.hd, Fields.ha, Fields.hb, Fields.kd, Fields.ka, Fields.kb, Fields.kc, Use.check, Use.rrr, Use.rr, Use.rd, Use.ra, Use.rab, Use.r0, Use.rbOnly, Use.rrrc, Use.v3, Use.v2, Use.v3c, Use.red, Use.raImm, Use.rdImm, Use.imm, Use.shift, Use.subA, Use.sub0, Use.subAm, Use.branch, Use.jump, Use.r, hw]
theorem F.munfollow (a : Reg) : F.Statement (.munfollow a) := by
  intro hw f h
  obtain rfl := Option.some.inj h
  simp [decodeFields, entryOf, entryP3M0, entryP3M1, Fields.mz, Fields.m0, Fields.d0, Fields.a0, Fields.b0, Fields.hd, Fields.ha, Fields.hb, Fields.kd, Fields.ka, Fields.kb, Fields.kc, Use.check, Use.rrr, Use.rr, Use.rd, Use.ra, Use.rab, Use.r0, Use.rbOnly, Use.rrrc, Use.v3, Use.v2, Use.v3c, Use.red, Use.raImm, Use.rdImm, Use.imm, Use.shift, Use.subA, Use.sub0, Use.subAm, Use.branch, Use.jump, Use.r, hw]
theorem F.mwait (d : Reg) : F.Statement (.mwait d) := by
  intro hw f h
  obtain rfl := Option.some.inj h
  simp [decodeFields, entryOf, entryP3M0, entryP3M1, Fields.mz, Fields.m0, Fields.d0, Fields.a0, Fields.b0, Fields.hd, Fields.ha, Fields.hb, Fields.kd, Fields.ka, Fields.kb, Fields.kc, Use.check, Use.rrr, Use.rr, Use.rd, Use.ra, Use.rab, Use.r0, Use.rbOnly, Use.rrrc, Use.v3, Use.v2, Use.v3c, Use.red, Use.raImm, Use.rdImm, Use.imm, Use.shift, Use.subA, Use.sub0, Use.subAm, Use.branch, Use.jump, Use.r, hw]
theorem F.aalloc (a : Reg) (b : Reg) (n : Nat) : F.Statement (.aalloc a b n) := by
  intro hw f h
  obtain rfl := Option.some.inj h
  have hn : n ≤ 32 := by simpa [Instr.wf] using hw
  simp [decodeFields, entryOf, entryP3M0, entryP3M1, Fields.mz, Fields.m0, Fields.d0, Fields.a0, Fields.b0, Fields.hd, Fields.ha, Fields.hb, Fields.kd, Fields.ka, Fields.kb, Fields.kc, Use.check, Use.rrr, Use.rr, Use.rd, Use.ra, Use.rab, Use.r0, Use.rbOnly, Use.rrrc, Use.v3, Use.v2, Use.v3c, Use.red, Use.raImm, Use.rdImm, Use.imm, Use.shift, Use.subA, Use.sub0, Use.subAm, Use.branch, Use.jump, Use.r, hw, mkIS, mkIU, -BitVec.truncate_eq_setWidth, mkIS_bank' _ _ _ _ _ _ _ hn]
theorem F.afree (b : Reg) (n : Nat) : F.Statement (.afree b n) := by
  intro hw f h
  obtain rfl := Option.some.inj h
  have hn : n ≤ 32 := by simpa [Instr.wf] using hw
  simp [decodeFields, entryOf, entryP3M0, entryP3M1, Fields.mz, Fields.m0, Fields.d0, Fields.a0, Fields.b0, Fields.hd, Fields.ha, Fields.hb, Fields.kd, Fields.ka, Fields.kb, Fields.kc, Use.check, Use.rrr, Use.rr, Use.rd, Use.ra, Use.rab, Use.r0, Use.rbOnly, Use.rrrc, Use.v3, Use.v2, Use.v3c, Use.red, Use.raImm, Use.rdImm, Use.imm, Use.shift, Use.subA, Use.sub0, Use.subAm, Use.branch, Use.jump, Use.r, hw, mkIS, mkIU, -BitVec.truncate_eq_setWidth, mkIS_bank' _ _ _ _ _ _ _ hn]
theorem F.aquery (a : Reg) (q : Fin 4) : F.Statement (.aquery a q) := by
  intro hw f h
  obtain rfl := Option.some.inj h
  have e : ∀ p m M d a, (mkI p m M d a (xiS26 (BitVec.ofNat 26 q.val)) (BitVec.ofNat 6 q.val)).imm26 = BitVec.ofNat 26 q.val := by
    intro p m M d a; rw [ofNat6]; exact mkI_imm26 ..
  have hq : q.val % 67108864 = q.val := by omega
  simp [decodeFields, entryOf, entryP3M0, entryP3M1, Fields.mz, Fields.m0, Fields.d0, Fields.a0, Fields.b0, Fields.hd, Fields.ha, Fields.hb, Fields.kd, Fields.ka, Fields.kb, Fields.kc, Use.check, Use.rrr, Use.rr, Use.rd, Use.ra, Use.rab, Use.r0, Use.rbOnly, Use.rrrc, Use.v3, Use.v2, Use.v3c, Use.red, Use.raImm, Use.rdImm, Use.imm, Use.shift, Use.subA, Use.sub0, Use.subAm, Use.branch, Use.jump, Use.r, hw, mkIS, mkIU, -BitVec.truncate_eq_setWidth, e, hq, q.isLt]
theorem F.spill (vec : Bool) (a : Reg) : F.Statement (.spill vec a) := by
  intro hw f h
  obtain rfl := Option.some.inj h
  cases vec <;> simp [decodeFields, entryOf, entryP3M0, entryP3M1, Fields.mz, Fields.m0, Fields.d0, Fields.a0, Fields.b0, Fields.hd, Fields.ha, Fields.hb, Fields.kd, Fields.ka, Fields.kb, Fields.kc, Use.check, Use.rrr, Use.rr, Use.rd, Use.ra, Use.rab, Use.r0, Use.rbOnly, Use.rrrc, Use.v3, Use.v2, Use.v3c, Use.red, Use.raImm, Use.rdImm, Use.imm, Use.shift, Use.subA, Use.sub0, Use.subAm, Use.branch, Use.jump, Use.r, hw, mkIS, mkIU, -BitVec.truncate_eq_setWidth, xiS26, Fields.imm26]
theorem F.fill (vec : Bool) (a : Reg) : F.Statement (.fill vec a) := by
  intro hw f h
  obtain rfl := Option.some.inj h
  cases vec <;> simp [decodeFields, entryOf, entryP3M0, entryP3M1, Fields.mz, Fields.m0, Fields.d0, Fields.a0, Fields.b0, Fields.hd, Fields.ha, Fields.hb, Fields.kd, Fields.ka, Fields.kb, Fields.kc, Use.check, Use.rrr, Use.rr, Use.rd, Use.ra, Use.rab, Use.r0, Use.rbOnly, Use.rrrc, Use.v3, Use.v2, Use.v3c, Use.red, Use.raImm, Use.rdImm, Use.imm, Use.shift, Use.subA, Use.sub0, Use.subAm, Use.branch, Use.jump, Use.r, hw, mkIS, mkIU, -BitVec.truncate_eq_setWidth, xiS26, Fields.imm26]
theorem F.cpush (a : Reg) : F.Statement (.cpush a) := by
  intro hw f h
  obtain rfl := Option.some.inj h
  simp [decodeFields, entryOf, entryP4, Fields.mz, Fields.m0, Fields.d0, Fields.a0, Fields.b0, Fields.hd, Fields.ha, Fields.hb, Fields.kd, Fields.ka, Fields.kb, Fields.kc, Use.check, Use.rrr, Use.rr, Use.rd, Use.ra, Use.rab, Use.r0, Use.rbOnly, Use.rrrc, Use.v3, Use.v2, Use.v3c, Use.red, Use.raImm, Use.rdImm, Use.imm, Use.shift, Use.subA, Use.sub0, Use.subAm, Use.branch, Use.jump, Use.r, hw]
theorem F.cpushnb (d : Reg) (a : Reg) : F.Statement (.cpushnb d a) := by
  intro hw f h
  obtain rfl := Option.some.inj h
  simp [decodeFields, entryOf, entryP4, Fields.mz, Fields.m0, Fields.d0, Fields.a0, Fields.b0, Fields.hd, Fields.ha, Fields.hb, Fields.kd, Fields.ka, Fields.kb, Fields.kc, Use.check, Use.rrr, Use.rr, Use.rd, Use.ra, Use.rab, Use.r0, Use.rbOnly, Use.rrrc, Use.v3, Use.v2, Use.v3c, Use.red, Use.raImm, Use.rdImm, Use.imm, Use.shift, Use.subA, Use.sub0, Use.subAm, Use.branch, Use.jump, Use.r, hw]
theorem F.cfree (d : Reg) : F.Statement (.cfree d) := by
  intro hw f h
  obtain rfl := Option.some.inj h
  simp [decodeFields, entryOf, entryP4, Fields.mz, Fields.m0, Fields.d0, Fields.a0, Fields.b0, Fields.hd, Fields.ha, Fields.hb, Fields.kd, Fields.ka, Fields.kb, Fields.kc, Use.check, Use.rrr, Use.rr, Use.rd, Use.ra, Use.rab, Use.r0, Use.rbOnly, Use.rrrc, Use.v3, Use.v2, Use.v3c, Use.red, Use.raImm, Use.rdImm, Use.imm, Use.shift, Use.subA, Use.sub0, Use.subAm, Use.branch, Use.jump, Use.r, hw]
theorem F.cfence : F.Statement (.cfence) := by
  intro hw f h
  obtain rfl := Option.some.inj h
  simp [decodeFields, entryOf, entryP4, Fields.mz, Fields.m0, Fields.d0, Fields.a0, Fields.b0, Fields.hd, Fields.ha, Fields.hb, Fields.kd, Fields.ka, Fields.kb, Fields.kc, Use.check, Use.rrr, Use.rr, Use.rd, Use.ra, Use.rab, Use.r0, Use.rbOnly, Use.rrrc, Use.v3, Use.v2, Use.v3c, Use.red, Use.raImm, Use.rdImm, Use.imm, Use.shift, Use.subA, Use.sub0, Use.subAm, Use.branch, Use.jump, Use.r, hw]
theorem F.cset (n : Fin 3) (a : Reg) (b : Reg) : F.Statement (.cset n a b) := by
  intro hw f h
  obtain rfl := Option.some.inj h
  have h1 := small5 (n.castLE (by decide)); have h2 : n.val % 8 = n.val := by omega
  simp only [Fin.val_castLE] at h1
  simp [decodeFields, entryOf, entryP4, Fields.mz, Fields.m0, Fields.d0, Fields.a0, Fields.b0, Fields.hd, Fields.ha, Fields.hb, Fields.kd, Fields.ka, Fields.kb, Fields.kc, Use.check, Use.rrr, Use.rr, Use.rd, Use.ra, Use.rab, Use.r0, Use.rbOnly, Use.rrrc, Use.v3, Use.v2, Use.v3c, Use.red, Use.raImm, Use.rdImm, Use.imm, Use.shift, Use.subA, Use.sub0, Use.subAm, Use.branch, Use.jump, Use.r, hw, h1, h2, n.isLt]
theorem F.cget (d : Reg) (n : Fin 4) (hh : Bool) : F.Statement (.cget d n hh) := by
  intro hw f h
  obtain rfl := Option.some.inj h
  have h1 := small5 (n.castLE (by decide)); have h2 : n.val % 8 = n.val := by omega
  simp only [Fin.val_castLE] at h1
  cases hh <;> simp [decodeFields, entryOf, entryP4, Fields.mz, Fields.m0, Fields.d0, Fields.a0, Fields.b0, Fields.hd, Fields.ha, Fields.hb, Fields.kd, Fields.ka, Fields.kb, Fields.kc, Use.check, Use.rrr, Use.rr, Use.rd, Use.ra, Use.rab, Use.r0, Use.rbOnly, Use.rrrc, Use.v3, Use.v2, Use.v3c, Use.red, Use.raImm, Use.rdImm, Use.imm, Use.shift, Use.subA, Use.sub0, Use.subAm, Use.branch, Use.jump, Use.r, hw, h1, h2, n.isLt, Fields.half]
theorem F.xsend (cls : Fin 8) (a : Reg) (off : BitVec 13) : F.Statement (.xsend cls a off) := by
  intro hw f h
  obtain rfl := Option.some.inj h
  have ho := mkIU_off' (h := (show off.toNat ≤ 4096 by simp [Instr.wf] at hw; omega))
  simp [decodeFields, entryOf, entryP5, entryP5M6, entryP5M7, Fields.mz, Fields.m0, Fields.d0, Fields.a0, Fields.b0, Fields.hd, Fields.ha, Fields.hb, Fields.kd, Fields.ka, Fields.kb, Fields.kc, Use.check, Use.rrr, Use.rr, Use.rd, Use.ra, Use.rab, Use.r0, Use.rbOnly, Use.rrrc, Use.v3, Use.v2, Use.v3c, Use.red, Use.raImm, Use.rdImm, Use.imm, Use.shift, Use.subA, Use.sub0, Use.subAm, Use.branch, Use.jump, Use.r, hw, mkIS, mkIU, Fields.et, -BitVec.truncate_eq_setWidth, ho, small5]
theorem F.xrecv (cls : Fin 8) (a : Reg) (off : BitVec 13) : F.Statement (.xrecv cls a off) := by
  intro hw f h
  obtain rfl := Option.some.inj h
  have ho := mkIU_off' (h := (show off.toNat ≤ 4096 by simp [Instr.wf] at hw; omega))
  simp [decodeFields, entryOf, entryP5, entryP5M6, entryP5M7, Fields.mz, Fields.m0, Fields.d0, Fields.a0, Fields.b0, Fields.hd, Fields.ha, Fields.hb, Fields.kd, Fields.ka, Fields.kb, Fields.kc, Use.check, Use.rrr, Use.rr, Use.rd, Use.ra, Use.rab, Use.r0, Use.rbOnly, Use.rrrc, Use.v3, Use.v2, Use.v3c, Use.red, Use.raImm, Use.rdImm, Use.imm, Use.shift, Use.subA, Use.sub0, Use.subAm, Use.branch, Use.jump, Use.r, hw, mkIS, mkIU, Fields.et, -BitVec.truncate_eq_setWidth, ho, small5]
theorem F.xrecva (t : ElemType) (op : CombOp) (sat : Bool) (cls : Fin 8) (a : Reg) (off : BitVec 13) : F.Statement (.xrecva t op sat cls a off) := by
  intro hw f h
  obtain rfl := Option.some.inj h
  have ho := mkIU_off' (h := (show off.toNat ≤ 4096 by simp [Instr.wf] at hw; omega))
  change decodeFields (withXm (mkIU 5 t.code 2 (BitVec.ofNat 5 cls.val) a.bits (off.zeroExtend 26)) 0 (combMod sat op)) = _
  simp [decodeFields, entryOf, entryP5, entryP5M6, entryP5M7, Fields.mz, Fields.m0, Fields.d0, Fields.a0, Fields.b0, Fields.hd, Fields.ha, Fields.hb, Fields.kd, Fields.ka, Fields.kb, Fields.kc, Use.check, Use.rrr, Use.rr, Use.rd, Use.ra, Use.rab, Use.r0, Use.rbOnly, Use.rrrc, Use.v3, Use.v2, Use.v3c, Use.red, Use.raImm, Use.rdImm, Use.imm, Use.shift, Use.subA, Use.sub0, Use.subAm, Use.branch, Use.jump, Use.r, hw, mkIS, mkIU, Fields.et, -BitVec.truncate_eq_setWidth, ho, small5]
theorem F.xmc (lane : Fin 4) (cls : Fin 8) (a : Reg) (off : BitVec 13) : F.Statement (.xmc lane cls a off) := by
  intro hw f h
  obtain rfl := Option.some.inj h
  have ho := mkIU_off' (h := (show off.toNat ≤ 4096 by simp [Instr.wf] at hw; omega))
  have h1 := small5 (lane.castLE (by decide)); have h2 : lane.val % 8 = lane.val := by omega
  simp only [Fin.val_castLE] at h1
  simp [decodeFields, entryOf, entryP5, entryP5M6, entryP5M7, Fields.mz, Fields.m0, Fields.d0, Fields.a0, Fields.b0, Fields.hd, Fields.ha, Fields.hb, Fields.kd, Fields.ka, Fields.kb, Fields.kc, Use.check, Use.rrr, Use.rr, Use.rd, Use.ra, Use.rab, Use.r0, Use.rbOnly, Use.rrrc, Use.v3, Use.v2, Use.v3c, Use.red, Use.raImm, Use.rdImm, Use.imm, Use.shift, Use.subA, Use.sub0, Use.subAm, Use.branch, Use.jump, Use.r, hw, mkIS, mkIU, Fields.et, -BitVec.truncate_eq_setWidth, ho, h1, h2, lane.isLt, small6, -BitVec.toFin_extractLsb']
theorem F.xsel (port : Fin 5) (off : BitVec 13) : F.Statement (.xsel port off) := by
  intro hw f h
  obtain rfl := Option.some.inj h
  have ho := mkIU_off' (h := (show off.toNat ≤ 4096 by simp [Instr.wf] at hw; omega))
  have h1 := small5 (port.castLE (by decide)); have h2 : port.val % 8 = port.val := by omega
  simp only [Fin.val_castLE] at h1
  simp [decodeFields, entryOf, entryP5, entryP5M6, entryP5M7, Fields.mz, Fields.m0, Fields.d0, Fields.a0, Fields.b0, Fields.hd, Fields.ha, Fields.hb, Fields.kd, Fields.ka, Fields.kb, Fields.kc, Use.check, Use.rrr, Use.rr, Use.rd, Use.ra, Use.rab, Use.r0, Use.rbOnly, Use.rrrc, Use.v3, Use.v2, Use.v3c, Use.red, Use.raImm, Use.rdImm, Use.imm, Use.shift, Use.subA, Use.sub0, Use.subAm, Use.branch, Use.jump, Use.r, hw, mkIS, mkIU, Fields.et, -BitVec.truncate_eq_setWidth, ho, h1, h2, port.isLt]
theorem F.xend (off : BitVec 13) : F.Statement (.xend off) := by
  intro hw f h
  obtain rfl := Option.some.inj h
  have ho := mkIU_off' (h := (show off.toNat ≤ 4096 by simp [Instr.wf] at hw; omega))
  simp [decodeFields, entryOf, entryP5, entryP5M6, entryP5M7, Fields.mz, Fields.m0, Fields.d0, Fields.a0, Fields.b0, Fields.hd, Fields.ha, Fields.hb, Fields.kd, Fields.ka, Fields.kb, Fields.kc, Use.check, Use.rrr, Use.rr, Use.rd, Use.ra, Use.rab, Use.r0, Use.rbOnly, Use.rrrc, Use.v3, Use.v2, Use.v3c, Use.red, Use.raImm, Use.rdImm, Use.imm, Use.shift, Use.subA, Use.sub0, Use.subAm, Use.branch, Use.jump, Use.r, hw, mkIS, mkIU, Fields.et, -BitVec.truncate_eq_setWidth, ho]
theorem F.sync (a : Reg) : F.Statement (.sync a) := by
  intro hw f h
  obtain rfl := Option.some.inj h
  simp [decodeFields, entryOf, entryP5, entryP5M6, entryP5M7, Fields.mz, Fields.m0, Fields.d0, Fields.a0, Fields.b0, Fields.hd, Fields.ha, Fields.hb, Fields.kd, Fields.ka, Fields.kb, Fields.kc, Use.check, Use.rrr, Use.rr, Use.rd, Use.ra, Use.rab, Use.r0, Use.rbOnly, Use.rrrc, Use.v3, Use.v2, Use.v3c, Use.red, Use.raImm, Use.rdImm, Use.imm, Use.shift, Use.subA, Use.sub0, Use.subAm, Use.branch, Use.jump, Use.r, hw, Fields.et]
theorem F.lsync (g : Tree) (a : Reg) : F.Statement (.lsync g a) := by
  intro hw f h
  obtain rfl := Option.some.inj h
  simp [decodeFields, entryOf, entryP5, entryP5M6, entryP5M7, Fields.mz, Fields.m0, Fields.d0, Fields.a0, Fields.b0, Fields.hd, Fields.ha, Fields.hb, Fields.kd, Fields.ka, Fields.kb, Fields.kc, Use.check, Use.rrr, Use.rr, Use.rd, Use.ra, Use.rab, Use.r0, Use.rbOnly, Use.rrrc, Use.v3, Use.v2, Use.v3c, Use.red, Use.raImm, Use.rdImm, Use.imm, Use.shift, Use.subA, Use.sub0, Use.subAm, Use.branch, Use.jump, Use.r, hw, Fields.et]
theorem F.arrive (g : Tree) : F.Statement (.arrive g) := by
  intro hw f h
  obtain rfl := Option.some.inj h
  simp [decodeFields, entryOf, entryP5, entryP5M6, entryP5M7, Fields.mz, Fields.m0, Fields.d0, Fields.a0, Fields.b0, Fields.hd, Fields.ha, Fields.hb, Fields.kd, Fields.ka, Fields.kb, Fields.kc, Use.check, Use.rrr, Use.rr, Use.rd, Use.ra, Use.rab, Use.r0, Use.rbOnly, Use.rrrc, Use.v3, Use.v2, Use.v3c, Use.red, Use.raImm, Use.rdImm, Use.imm, Use.shift, Use.subA, Use.sub0, Use.subAm, Use.branch, Use.jump, Use.r, hw, Fields.et]
theorem F.await (g : Tree) : F.Statement (.await g) := by
  intro hw f h
  obtain rfl := Option.some.inj h
  simp [decodeFields, entryOf, entryP5, entryP5M6, entryP5M7, Fields.mz, Fields.m0, Fields.d0, Fields.a0, Fields.b0, Fields.hd, Fields.ha, Fields.hb, Fields.kd, Fields.ka, Fields.kb, Fields.kc, Use.check, Use.rrr, Use.rr, Use.rd, Use.ra, Use.rab, Use.r0, Use.rbOnly, Use.rrrc, Use.v3, Use.v2, Use.v3c, Use.red, Use.raImm, Use.rdImm, Use.imm, Use.shift, Use.subA, Use.sub0, Use.subAm, Use.branch, Use.jump, Use.r, hw, Fields.et]
theorem F.dom (g : Tree) (a : Reg) (b : Reg) : F.Statement (.dom g a b) := by
  intro hw f h
  obtain rfl := Option.some.inj h
  simp [decodeFields, entryOf, entryP5, entryP5M6, entryP5M7, Fields.mz, Fields.m0, Fields.d0, Fields.a0, Fields.b0, Fields.hd, Fields.ha, Fields.hb, Fields.kd, Fields.ka, Fields.kb, Fields.kc, Use.check, Use.rrr, Use.rr, Use.rd, Use.ra, Use.rab, Use.r0, Use.rbOnly, Use.rrrc, Use.v3, Use.v2, Use.v3c, Use.red, Use.raImm, Use.rdImm, Use.imm, Use.shift, Use.subA, Use.sub0, Use.subAm, Use.branch, Use.jump, Use.r, hw, Fields.et]
theorem F.phaseQuery (d : Reg) (a : Reg) : F.Statement (.phaseQuery d a) := by
  intro hw f h
  obtain rfl := Option.some.inj h
  simp [decodeFields, entryOf, entryP5, entryP5M6, entryP5M7, Fields.mz, Fields.m0, Fields.d0, Fields.a0, Fields.b0, Fields.hd, Fields.ha, Fields.hb, Fields.kd, Fields.ka, Fields.kb, Fields.kc, Use.check, Use.rrr, Use.rr, Use.rd, Use.ra, Use.rab, Use.r0, Use.rbOnly, Use.rrrc, Use.v3, Use.v2, Use.v3c, Use.red, Use.raImm, Use.rdImm, Use.imm, Use.shift, Use.subA, Use.sub0, Use.subAm, Use.branch, Use.jump, Use.r, hw, Fields.et]
theorem F.phaseCancel (d : Reg) (a : Reg) : F.Statement (.phaseCancel d a) := fun h => by cases h
theorem F.redAdd (t : ElemType) (sat : Bool) (d : Reg) (a : Reg) (g : Tree) (c : Reg) (n : Fin 16) : F.Statement (.redAdd t sat d a g c n) := by
  intro hw f h
  obtain rfl := Option.some.inj h
  change decodeFields (withXmOpt (mkR 5 t.code 7 d.bits a.bits (hbits g) 0) c.bits (redMod sat n)) = _
  simp [decodeFields, entryOf, entryP5, entryP5M6, entryP5M7, Fields.mz, Fields.m0, Fields.d0, Fields.a0, Fields.b0, Fields.hd, Fields.ha, Fields.hb, Fields.kd, Fields.ka, Fields.kb, Fields.kc, Use.check, Use.rrr, Use.rr, Use.rd, Use.ra, Use.rab, Use.r0, Use.rbOnly, Use.rrrc, Use.v3, Use.v2, Use.v3c, Use.red, Use.raImm, Use.rdImm, Use.imm, Use.shift, Use.subA, Use.sub0, Use.subAm, Use.branch, Use.jump, Use.r, hw, Fields.et, -BitVec.toFin_extractLsb']
theorem F.redMax (t : ElemType) (sat : Bool) (d : Reg) (a : Reg) (g : Tree) (c : Reg) (n : Fin 16) : F.Statement (.redMax t sat d a g c n) := by
  intro hw f h
  obtain rfl := Option.some.inj h
  change decodeFields (withXmOpt (mkR 5 t.code 7 d.bits a.bits (hbits g) 1) c.bits (redMod sat n)) = _
  simp [decodeFields, entryOf, entryP5, entryP5M6, entryP5M7, Fields.mz, Fields.m0, Fields.d0, Fields.a0, Fields.b0, Fields.hd, Fields.ha, Fields.hb, Fields.kd, Fields.ka, Fields.kb, Fields.kc, Use.check, Use.rrr, Use.rr, Use.rd, Use.ra, Use.rab, Use.r0, Use.rbOnly, Use.rrrc, Use.v3, Use.v2, Use.v3c, Use.red, Use.raImm, Use.rdImm, Use.imm, Use.shift, Use.subA, Use.sub0, Use.subAm, Use.branch, Use.jump, Use.r, hw, Fields.et, -BitVec.toFin_extractLsb']
theorem F.redMin (t : ElemType) (sat : Bool) (d : Reg) (a : Reg) (g : Tree) (c : Reg) (n : Fin 16) : F.Statement (.redMin t sat d a g c n) := by
  intro hw f h
  obtain rfl := Option.some.inj h
  change decodeFields (withXmOpt (mkR 5 t.code 7 d.bits a.bits (hbits g) 2) c.bits (redMod sat n)) = _
  simp [decodeFields, entryOf, entryP5, entryP5M6, entryP5M7, Fields.mz, Fields.m0, Fields.d0, Fields.a0, Fields.b0, Fields.hd, Fields.ha, Fields.hb, Fields.kd, Fields.ka, Fields.kb, Fields.kc, Use.check, Use.rrr, Use.rr, Use.rd, Use.ra, Use.rab, Use.r0, Use.rbOnly, Use.rrrc, Use.v3, Use.v2, Use.v3c, Use.red, Use.raImm, Use.rdImm, Use.imm, Use.shift, Use.subA, Use.sub0, Use.subAm, Use.branch, Use.jump, Use.r, hw, Fields.et, -BitVec.toFin_extractLsb']
theorem F.redAnd (t : ElemType) (sat : Bool) (d : Reg) (a : Reg) (g : Tree) (c : Reg) (n : Fin 16) : F.Statement (.redAnd t sat d a g c n) := by
  intro hw f h
  obtain rfl := Option.some.inj h
  change decodeFields (withXmOpt (mkR 5 t.code 7 d.bits a.bits (hbits g) 3) c.bits (redMod sat n)) = _
  simp [decodeFields, entryOf, entryP5, entryP5M6, entryP5M7, Fields.mz, Fields.m0, Fields.d0, Fields.a0, Fields.b0, Fields.hd, Fields.ha, Fields.hb, Fields.kd, Fields.ka, Fields.kb, Fields.kc, Use.check, Use.rrr, Use.rr, Use.rd, Use.ra, Use.rab, Use.r0, Use.rbOnly, Use.rrrc, Use.v3, Use.v2, Use.v3c, Use.red, Use.raImm, Use.rdImm, Use.imm, Use.shift, Use.subA, Use.sub0, Use.subAm, Use.branch, Use.jump, Use.r, hw, Fields.et, -BitVec.toFin_extractLsb']
theorem F.redOr (t : ElemType) (sat : Bool) (d : Reg) (a : Reg) (g : Tree) (c : Reg) (n : Fin 16) : F.Statement (.redOr t sat d a g c n) := by
  intro hw f h
  obtain rfl := Option.some.inj h
  change decodeFields (withXmOpt (mkR 5 t.code 7 d.bits a.bits (hbits g) 4) c.bits (redMod sat n)) = _
  simp [decodeFields, entryOf, entryP5, entryP5M6, entryP5M7, Fields.mz, Fields.m0, Fields.d0, Fields.a0, Fields.b0, Fields.hd, Fields.ha, Fields.hb, Fields.kd, Fields.ka, Fields.kb, Fields.kc, Use.check, Use.rrr, Use.rr, Use.rd, Use.ra, Use.rab, Use.r0, Use.rbOnly, Use.rrrc, Use.v3, Use.v2, Use.v3c, Use.red, Use.raImm, Use.rdImm, Use.imm, Use.shift, Use.subA, Use.sub0, Use.subAm, Use.branch, Use.jump, Use.r, hw, Fields.et, -BitVec.toFin_extractLsb']
theorem F.redBar (g : Tree) : F.Statement (.redBar g) := by
  intro hw f h
  obtain rfl := Option.some.inj h
  simp [decodeFields, entryOf, entryP5, entryP5M6, entryP5M7, Fields.mz, Fields.m0, Fields.d0, Fields.a0, Fields.b0, Fields.hd, Fields.ha, Fields.hb, Fields.kd, Fields.ka, Fields.kb, Fields.kc, Use.check, Use.rrr, Use.rr, Use.rd, Use.ra, Use.rab, Use.r0, Use.rbOnly, Use.rrrc, Use.v3, Use.v2, Use.v3c, Use.red, Use.raImm, Use.rdImm, Use.imm, Use.shift, Use.subA, Use.sub0, Use.subAm, Use.branch, Use.jump, Use.r, hw, Fields.et]
theorem F.vpinit (d : Reg) (a : Reg) (b : Reg) : F.Statement (.vpinit d a b) := by
  intro hw f h
  obtain rfl := Option.some.inj h
  simp [decodeFields, entryOf, entryP6, Fields.mz, Fields.m0, Fields.d0, Fields.a0, Fields.b0, Fields.hd, Fields.ha, Fields.hb, Fields.kd, Fields.ka, Fields.kb, Fields.kc, Use.check, Use.rrr, Use.rr, Use.rd, Use.ra, Use.rab, Use.r0, Use.rbOnly, Use.rrrc, Use.v3, Use.v2, Use.v3c, Use.red, Use.raImm, Use.rdImm, Use.imm, Use.shift, Use.subA, Use.sub0, Use.subAm, Use.branch, Use.jump, Use.r, hw]
theorem F.vpfold (d : Reg) (a : Reg) (b : Reg) : F.Statement (.vpfold d a b) := by
  intro hw f h
  obtain rfl := Option.some.inj h
  simp [decodeFields, entryOf, entryP6, Fields.mz, Fields.m0, Fields.d0, Fields.a0, Fields.b0, Fields.hd, Fields.ha, Fields.hb, Fields.kd, Fields.ka, Fields.kb, Fields.kc, Use.check, Use.rrr, Use.rr, Use.rd, Use.ra, Use.rab, Use.r0, Use.rbOnly, Use.rrrc, Use.v3, Use.v2, Use.v3c, Use.red, Use.raImm, Use.rdImm, Use.imm, Use.shift, Use.subA, Use.sub0, Use.subAm, Use.branch, Use.jump, Use.r, hw]
theorem F.vpmerge (d : Reg) (a : Reg) : F.Statement (.vpmerge d a) := by
  intro hw f h
  obtain rfl := Option.some.inj h
  simp [decodeFields, entryOf, entryP6, Fields.mz, Fields.m0, Fields.d0, Fields.a0, Fields.b0, Fields.hd, Fields.ha, Fields.hb, Fields.kd, Fields.ka, Fields.kb, Fields.kc, Use.check, Use.rrr, Use.rr, Use.rd, Use.ra, Use.rab, Use.r0, Use.rbOnly, Use.rrrc, Use.v3, Use.v2, Use.v3c, Use.red, Use.raImm, Use.rdImm, Use.imm, Use.shift, Use.subA, Use.sub0, Use.subAm, Use.branch, Use.jump, Use.r, hw]
theorem F.vpread (d : Reg) (a : Reg) : F.Statement (.vpread d a) := by
  intro hw f h
  obtain rfl := Option.some.inj h
  simp [decodeFields, entryOf, entryP6, Fields.mz, Fields.m0, Fields.d0, Fields.a0, Fields.b0, Fields.hd, Fields.ha, Fields.hb, Fields.kd, Fields.ka, Fields.kb, Fields.kc, Use.check, Use.rrr, Use.rr, Use.rd, Use.ra, Use.rab, Use.r0, Use.rbOnly, Use.rrrc, Use.v3, Use.v2, Use.v3c, Use.red, Use.raImm, Use.rdImm, Use.imm, Use.shift, Use.subA, Use.sub0, Use.subAm, Use.branch, Use.jump, Use.r, hw]
theorem F.vpregen (d : Reg) (a : Reg) (b : Reg) : F.Statement (.vpregen d a b) := by
  intro hw f h
  obtain rfl := Option.some.inj h
  simp [decodeFields, entryOf, entryP6, Fields.mz, Fields.m0, Fields.d0, Fields.a0, Fields.b0, Fields.hd, Fields.ha, Fields.hb, Fields.kd, Fields.ka, Fields.kb, Fields.kc, Use.check, Use.rrr, Use.rr, Use.rd, Use.ra, Use.rab, Use.r0, Use.rbOnly, Use.rrrc, Use.v3, Use.v2, Use.v3c, Use.red, Use.raImm, Use.rdImm, Use.imm, Use.shift, Use.subA, Use.sub0, Use.subAm, Use.branch, Use.jump, Use.r, hw]
theorem F.vpspill (a : Reg) : F.Statement (.vpspill a) := by
  intro hw f h
  obtain rfl := Option.some.inj h
  simp [decodeFields, entryOf, entryP6, Fields.mz, Fields.m0, Fields.d0, Fields.a0, Fields.b0, Fields.hd, Fields.ha, Fields.hb, Fields.kd, Fields.ka, Fields.kb, Fields.kc, Use.check, Use.rrr, Use.rr, Use.rd, Use.ra, Use.rab, Use.r0, Use.rbOnly, Use.rrrc, Use.v3, Use.v2, Use.v3c, Use.red, Use.raImm, Use.rdImm, Use.imm, Use.shift, Use.subA, Use.sub0, Use.subAm, Use.branch, Use.jump, Use.r, hw]
theorem F.vplabel (d : Reg) (a : Reg) : F.Statement (.vplabel d a) := by
  intro hw f h
  obtain rfl := Option.some.inj h
  simp [decodeFields, entryOf, entryP6, Fields.mz, Fields.m0, Fields.d0, Fields.a0, Fields.b0, Fields.hd, Fields.ha, Fields.hb, Fields.kd, Fields.ka, Fields.kb, Fields.kc, Use.check, Use.rrr, Use.rr, Use.rd, Use.ra, Use.rab, Use.r0, Use.rbOnly, Use.rrrc, Use.v3, Use.v2, Use.v3c, Use.red, Use.raImm, Use.rdImm, Use.imm, Use.shift, Use.subA, Use.sub0, Use.subAm, Use.branch, Use.jump, Use.r, hw]
theorem F.vpstat (d : Reg) : F.Statement (.vpstat d) := by
  intro hw f h
  obtain rfl := Option.some.inj h
  simp [decodeFields, entryOf, entryP6, Fields.mz, Fields.m0, Fields.d0, Fields.a0, Fields.b0, Fields.hd, Fields.ha, Fields.hb, Fields.kd, Fields.ka, Fields.kb, Fields.kc, Use.check, Use.rrr, Use.rr, Use.rd, Use.ra, Use.rab, Use.r0, Use.rbOnly, Use.rrrc, Use.v3, Use.v2, Use.v3c, Use.red, Use.raImm, Use.rdImm, Use.imm, Use.shift, Use.subA, Use.sub0, Use.subAm, Use.branch, Use.jump, Use.r, hw]
theorem F.lgrant (d : Reg) (a : Reg) : F.Statement (.lgrant d a) := by
  intro hw f h
  obtain rfl := Option.some.inj h
  simp [decodeFields, entryOf, entryP7, Fields.mz, Fields.m0, Fields.d0, Fields.a0, Fields.b0, Fields.hd, Fields.ha, Fields.hb, Fields.kd, Fields.ka, Fields.kb, Fields.kc, Use.check, Use.rrr, Use.rr, Use.rd, Use.ra, Use.rab, Use.r0, Use.rbOnly, Use.rrrc, Use.v3, Use.v2, Use.v3c, Use.red, Use.raImm, Use.rdImm, Use.imm, Use.shift, Use.subA, Use.sub0, Use.subAm, Use.branch, Use.jump, Use.r, hw]
theorem F.lrelease (a : Reg) : F.Statement (.lrelease a) := by
  intro hw f h
  obtain rfl := Option.some.inj h
  simp [decodeFields, entryOf, entryP7, Fields.mz, Fields.m0, Fields.d0, Fields.a0, Fields.b0, Fields.hd, Fields.ha, Fields.hb, Fields.kd, Fields.ka, Fields.kb, Fields.kc, Use.check, Use.rrr, Use.rr, Use.rd, Use.ra, Use.rab, Use.r0, Use.rbOnly, Use.rrrc, Use.v3, Use.v2, Use.v3c, Use.red, Use.raImm, Use.rdImm, Use.imm, Use.shift, Use.subA, Use.sub0, Use.subAm, Use.branch, Use.jump, Use.r, hw]
theorem F.lstat (d : Reg) (a : Reg) : F.Statement (.lstat d a) := by
  intro hw f h
  obtain rfl := Option.some.inj h
  simp [decodeFields, entryOf, entryP7, Fields.mz, Fields.m0, Fields.d0, Fields.a0, Fields.b0, Fields.hd, Fields.ha, Fields.hb, Fields.kd, Fields.ka, Fields.kb, Fields.kc, Use.check, Use.rrr, Use.rr, Use.rd, Use.ra, Use.rab, Use.r0, Use.rbOnly, Use.rrrc, Use.v3, Use.v2, Use.v3c, Use.red, Use.raImm, Use.rdImm, Use.imm, Use.shift, Use.subA, Use.sub0, Use.subAm, Use.branch, Use.jump, Use.r, hw]
theorem F.lmargin (d : Reg) (a : Reg) : F.Statement (.lmargin d a) := by
  intro hw f h
  obtain rfl := Option.some.inj h
  simp [decodeFields, entryOf, entryP7, Fields.mz, Fields.m0, Fields.d0, Fields.a0, Fields.b0, Fields.hd, Fields.ha, Fields.hb, Fields.kd, Fields.ka, Fields.kb, Fields.kc, Use.check, Use.rrr, Use.rr, Use.rd, Use.ra, Use.rab, Use.r0, Use.rbOnly, Use.rrrc, Use.v3, Use.v2, Use.v3c, Use.red, Use.raImm, Use.rdImm, Use.imm, Use.shift, Use.subA, Use.sub0, Use.subAm, Use.branch, Use.jump, Use.r, hw]
theorem F.lmode (d : Reg) (a : Reg) (b : Reg) : F.Statement (.lmode d a b) := by
  intro hw f h
  obtain rfl := Option.some.inj h
  simp [decodeFields, entryOf, entryP7, Fields.mz, Fields.m0, Fields.d0, Fields.a0, Fields.b0, Fields.hd, Fields.ha, Fields.hb, Fields.kd, Fields.ka, Fields.kb, Fields.kc, Use.check, Use.rrr, Use.rr, Use.rd, Use.ra, Use.rab, Use.r0, Use.rbOnly, Use.rrrc, Use.v3, Use.v2, Use.v3c, Use.red, Use.raImm, Use.rdImm, Use.imm, Use.shift, Use.subA, Use.sub0, Use.subAm, Use.branch, Use.jump, Use.r, hw]
theorem F.wreg (d : Reg) (a : Reg) : F.Statement (.wreg d a) := by
  intro hw f h
  obtain rfl := Option.some.inj h
  simp [decodeFields, entryOf, entryP7, Fields.mz, Fields.m0, Fields.d0, Fields.a0, Fields.b0, Fields.hd, Fields.ha, Fields.hb, Fields.kd, Fields.ka, Fields.kb, Fields.kc, Use.check, Use.rrr, Use.rr, Use.rd, Use.ra, Use.rab, Use.r0, Use.rbOnly, Use.rrrc, Use.v3, Use.v2, Use.v3c, Use.red, Use.raImm, Use.rdImm, Use.imm, Use.shift, Use.subA, Use.sub0, Use.subAm, Use.branch, Use.jump, Use.r, hw]
theorem F.wdereg (d : Reg) (a : Reg) : F.Statement (.wdereg d a) := by
  intro hw f h
  obtain rfl := Option.some.inj h
  simp [decodeFields, entryOf, entryP7, Fields.mz, Fields.m0, Fields.d0, Fields.a0, Fields.b0, Fields.hd, Fields.ha, Fields.hb, Fields.kd, Fields.ka, Fields.kb, Fields.kc, Use.check, Use.rrr, Use.rr, Use.rd, Use.ra, Use.rab, Use.r0, Use.rbOnly, Use.rrrc, Use.v3, Use.v2, Use.v3c, Use.red, Use.raImm, Use.rdImm, Use.imm, Use.shift, Use.subA, Use.sub0, Use.subAm, Use.branch, Use.jump, Use.r, hw]
theorem F.wput (d : Reg) (a : Reg) : F.Statement (.wput d a) := by
  intro hw f h
  obtain rfl := Option.some.inj h
  simp [decodeFields, entryOf, entryP7, Fields.mz, Fields.m0, Fields.d0, Fields.a0, Fields.b0, Fields.hd, Fields.ha, Fields.hb, Fields.kd, Fields.ka, Fields.kb, Fields.kc, Use.check, Use.rrr, Use.rr, Use.rd, Use.ra, Use.rab, Use.r0, Use.rbOnly, Use.rrrc, Use.v3, Use.v2, Use.v3c, Use.red, Use.raImm, Use.rdImm, Use.imm, Use.shift, Use.subA, Use.sub0, Use.subAm, Use.branch, Use.jump, Use.r, hw]
theorem F.wget (d : Reg) (a : Reg) : F.Statement (.wget d a) := by
  intro hw f h
  obtain rfl := Option.some.inj h
  simp [decodeFields, entryOf, entryP7, Fields.mz, Fields.m0, Fields.d0, Fields.a0, Fields.b0, Fields.hd, Fields.ha, Fields.hb, Fields.kd, Fields.ka, Fields.kb, Fields.kc, Use.check, Use.rrr, Use.rr, Use.rd, Use.ra, Use.rab, Use.r0, Use.rbOnly, Use.rrrc, Use.v3, Use.v2, Use.v3c, Use.red, Use.raImm, Use.rdImm, Use.imm, Use.shift, Use.subA, Use.sub0, Use.subAm, Use.branch, Use.jump, Use.r, hw]
theorem F.wrtr (d : Reg) (a : Reg) : F.Statement (.wrtr d a) := by
  intro hw f h
  obtain rfl := Option.some.inj h
  simp [decodeFields, entryOf, entryP7, Fields.mz, Fields.m0, Fields.d0, Fields.a0, Fields.b0, Fields.hd, Fields.ha, Fields.hb, Fields.kd, Fields.ka, Fields.kb, Fields.kc, Use.check, Use.rrr, Use.rr, Use.rd, Use.ra, Use.rab, Use.r0, Use.rbOnly, Use.rrrc, Use.v3, Use.v2, Use.v3c, Use.red, Use.raImm, Use.rdImm, Use.imm, Use.shift, Use.subA, Use.sub0, Use.subAm, Use.branch, Use.jump, Use.r, hw]
theorem F.wcnt (d : Reg) (a : Reg) (b : Reg) : F.Statement (.wcnt d a b) := by
  intro hw f h
  obtain rfl := Option.some.inj h
  simp [decodeFields, entryOf, entryP7, Fields.mz, Fields.m0, Fields.d0, Fields.a0, Fields.b0, Fields.hd, Fields.ha, Fields.hb, Fields.kd, Fields.ka, Fields.kb, Fields.kc, Use.check, Use.rrr, Use.rr, Use.rd, Use.ra, Use.rab, Use.r0, Use.rbOnly, Use.rrrc, Use.v3, Use.v2, Use.v3c, Use.red, Use.raImm, Use.rdImm, Use.imm, Use.shift, Use.subA, Use.sub0, Use.subAm, Use.branch, Use.jump, Use.r, hw]
theorem F.wwait (d : Reg) (a : Reg) (b : Reg) : F.Statement (.wwait d a b) := by
  intro hw f h
  obtain rfl := Option.some.inj h
  simp [decodeFields, entryOf, entryP7, Fields.mz, Fields.m0, Fields.d0, Fields.a0, Fields.b0, Fields.hd, Fields.ha, Fields.hb, Fields.kd, Fields.ka, Fields.kb, Fields.kc, Use.check, Use.rrr, Use.rr, Use.rd, Use.ra, Use.rab, Use.r0, Use.rbOnly, Use.rrrc, Use.v3, Use.v2, Use.v3c, Use.red, Use.raImm, Use.rdImm, Use.imm, Use.shift, Use.subA, Use.sub0, Use.subAm, Use.branch, Use.jump, Use.r, hw]
theorem F.tvget (d : Reg) (a : Reg) : F.Statement (.tvget d a) := by
  intro hw f h
  obtain rfl := Option.some.inj h
  simp [decodeFields, entryOf, entryP7, Fields.mz, Fields.m0, Fields.d0, Fields.a0, Fields.b0, Fields.hd, Fields.ha, Fields.hb, Fields.kd, Fields.ka, Fields.kb, Fields.kc, Use.check, Use.rrr, Use.rr, Use.rd, Use.ra, Use.rab, Use.r0, Use.rbOnly, Use.rrrc, Use.v3, Use.v2, Use.v3c, Use.red, Use.raImm, Use.rdImm, Use.imm, Use.shift, Use.subA, Use.sub0, Use.subAm, Use.branch, Use.jump, Use.r, hw]
theorem F.tvstage (d : Reg) (a : Reg) : F.Statement (.tvstage d a) := by
  intro hw f h
  obtain rfl := Option.some.inj h
  simp [decodeFields, entryOf, entryP7, Fields.mz, Fields.m0, Fields.d0, Fields.a0, Fields.b0, Fields.hd, Fields.ha, Fields.hb, Fields.kd, Fields.ka, Fields.kb, Fields.kc, Use.check, Use.rrr, Use.rr, Use.rd, Use.ra, Use.rab, Use.r0, Use.rbOnly, Use.rrrc, Use.v3, Use.v2, Use.v3c, Use.red, Use.raImm, Use.rdImm, Use.imm, Use.shift, Use.subA, Use.sub0, Use.subAm, Use.branch, Use.jump, Use.r, hw]
theorem F.tvcommit (d : Reg) (a : Reg) : F.Statement (.tvcommit d a) := by
  intro hw f h
  obtain rfl := Option.some.inj h
  simp [decodeFields, entryOf, entryP7, Fields.mz, Fields.m0, Fields.d0, Fields.a0, Fields.b0, Fields.hd, Fields.ha, Fields.hb, Fields.kd, Fields.ka, Fields.kb, Fields.kc, Use.check, Use.rrr, Use.rr, Use.rd, Use.ra, Use.rab, Use.r0, Use.rbOnly, Use.rrrc, Use.v3, Use.v2, Use.v3c, Use.red, Use.raImm, Use.rdImm, Use.imm, Use.shift, Use.subA, Use.sub0, Use.subAm, Use.branch, Use.jump, Use.r, hw]
theorem F.cstep (d : Reg) (a : Reg) : F.Statement (.cstep d a) := by
  intro hw f h
  obtain rfl := Option.some.inj h
  simp [decodeFields, entryOf, entryP7, Fields.mz, Fields.m0, Fields.d0, Fields.a0, Fields.b0, Fields.hd, Fields.ha, Fields.hb, Fields.kd, Fields.ka, Fields.kb, Fields.kc, Use.check, Use.rrr, Use.rr, Use.rd, Use.ra, Use.rab, Use.r0, Use.rbOnly, Use.rrrc, Use.v3, Use.v2, Use.v3c, Use.red, Use.raImm, Use.rdImm, Use.imm, Use.shift, Use.subA, Use.sub0, Use.subAm, Use.branch, Use.jump, Use.r, hw]
theorem F.cstat (d : Reg) (a : Reg) : F.Statement (.cstat d a) := by
  intro hw f h
  obtain rfl := Option.some.inj h
  simp [decodeFields, entryOf, entryP7, Fields.mz, Fields.m0, Fields.d0, Fields.a0, Fields.b0, Fields.hd, Fields.ha, Fields.hb, Fields.kd, Fields.ka, Fields.kb, Fields.kc, Use.check, Use.rrr, Use.rr, Use.rd, Use.ra, Use.rab, Use.r0, Use.rbOnly, Use.rrrc, Use.v3, Use.v2, Use.v3c, Use.red, Use.raImm, Use.rdImm, Use.imm, Use.shift, Use.subA, Use.sub0, Use.subAm, Use.branch, Use.jump, Use.r, hw]
theorem F.cresume (d : Reg) (a : Reg) (b : Reg) : F.Statement (.cresume d a b) := by
  intro hw f h
  obtain rfl := Option.some.inj h
  simp [decodeFields, entryOf, entryP7, Fields.mz, Fields.m0, Fields.d0, Fields.a0, Fields.b0, Fields.hd, Fields.ha, Fields.hb, Fields.kd, Fields.ka, Fields.kb, Fields.kc, Use.check, Use.rrr, Use.rr, Use.rd, Use.ra, Use.rab, Use.r0, Use.rbOnly, Use.rrrc, Use.v3, Use.v2, Use.v3c, Use.red, Use.raImm, Use.rdImm, Use.imm, Use.shift, Use.subA, Use.sub0, Use.subAm, Use.branch, Use.jump, Use.r, hw]
theorem F.drain (d : Reg) (a : Reg) (b : Reg) : F.Statement (.drain d a b) := by
  intro hw f h
  obtain rfl := Option.some.inj h
  simp [decodeFields, entryOf, entryP7, Fields.mz, Fields.m0, Fields.d0, Fields.a0, Fields.b0, Fields.hd, Fields.ha, Fields.hb, Fields.kd, Fields.ka, Fields.kb, Fields.kc, Use.check, Use.rrr, Use.rr, Use.rd, Use.ra, Use.rab, Use.r0, Use.rbOnly, Use.rrrc, Use.v3, Use.v2, Use.v3c, Use.red, Use.raImm, Use.rdImm, Use.imm, Use.shift, Use.subA, Use.sub0, Use.subAm, Use.branch, Use.jump, Use.r, hw]
theorem F.drainFec (d : Reg) (a : Reg) (b : Reg) : F.Statement (.drainFec d a b) := fun h => by cases h
theorem F.drainRetrain (d : Reg) (a : Reg) (b : Reg) : F.Statement (.drainRetrain d a b) := fun h => by cases h
theorem F.undrain (d : Reg) (a : Reg) (b : Reg) : F.Statement (.undrain d a b) := fun h => by cases h
theorem F.lnkstat (d : Reg) (a : Reg) : F.Statement (.lnkstat d a) := by
  intro hw f h
  obtain rfl := Option.some.inj h
  simp [decodeFields, entryOf, entryP7, Fields.mz, Fields.m0, Fields.d0, Fields.a0, Fields.b0, Fields.hd, Fields.ha, Fields.hb, Fields.kd, Fields.ka, Fields.kb, Fields.kc, Use.check, Use.rrr, Use.rr, Use.rd, Use.ra, Use.rab, Use.r0, Use.rbOnly, Use.rrrc, Use.v3, Use.v2, Use.v3c, Use.red, Use.raImm, Use.rdImm, Use.imm, Use.shift, Use.subA, Use.sub0, Use.subAm, Use.branch, Use.jump, Use.r, hw]
theorem F.illegalEncoding (cause : Cause) : F.Statement (.illegalEncoding cause) := fun h => by cases h
theorem F.fetchFault (cause : Cause) (addr : Word) : F.Statement (.fetchFault cause addr) := fun h => by cases h
theorem F.mailboxPost : F.Statement (.mailboxPost) := fun h => by cases h
theorem F.matrixStart : F.Statement (.matrixStart) := fun h => by cases h
theorem F.matrixRetire : F.Statement (.matrixRetire) := fun h => by cases h
theorem F.load : F.Statement (.load) := fun h => by cases h
theorem F.store : F.Statement (.store) := fun h => by cases h
theorem F.gather : F.Statement (.gather) := fun h => by cases h
theorem F.scatter : F.Statement (.scatter) := fun h => by cases h
theorem F.im2col : F.Statement (.im2col) := fun h => by cases h
theorem F.update : F.Statement (.update) := fun h => by cases h
theorem F.fillCommand : F.Statement (.fillCommand) := fun h => by cases h
theorem F.copyBeat : F.Statement (.copyBeat) := fun h => by cases h
theorem F.tlbWrite : F.Statement (.tlbWrite) := fun h => by cases h
theorem F.tlbInvalidate : F.Statement (.tlbInvalidate) := fun h => by cases h
theorem F.commandEndByFirmware : F.Statement (.commandEndByFirmware) := fun h => by cases h
theorem F.copyCompletion : F.Statement (.copyCompletion) := fun h => by cases h
theorem F.updateApply : F.Statement (.updateApply) := fun h => by cases h
theorem F.scrubPass : F.Statement (.scrubPass) := fun h => by cases h
theorem F.exchangeBeatReceive : F.Statement (.exchangeBeatReceive) := fun h => by cases h
theorem F.reductionResult : F.Statement (.reductionResult) := fun h => by cases h
theorem F.reductionStraggler : F.Statement (.reductionStraggler) := fun h => by cases h
theorem F.phaseRelease : F.Statement (.phaseRelease) := fun h => by cases h
theorem F.stragglerExpiry : F.Statement (.stragglerExpiry) := fun h => by cases h
theorem F.exchangePhaseEnd : F.Statement (.exchangePhaseEnd) := fun h => by cases h
theorem F.localRelease : F.Statement (.localRelease) := fun h => by cases h
theorem F.localPhaseEnd : F.Statement (.localPhaseEnd) := fun h => by cases h
theorem F.treeComplete : F.Statement (.treeComplete) := fun h => by cases h
theorem F.awaitStraggler : F.Statement (.awaitStraggler) := fun h => by cases h
theorem F.headOpComplete : F.Statement (.headOpComplete) := fun h => by cases h
theorem F.settlingEnd : F.Statement (.settlingEnd) := fun h => by cases h
theorem F.measurementWindow : F.Statement (.measurementWindow) := fun h => by cases h
theorem F.wavelengthFail : F.Statement (.wavelengthFail) := fun h => by cases h
theorem F.wavelengthRestore : F.Statement (.wavelengthRestore) := fun h => by cases h
theorem F.linkStep : F.Statement (.linkStep) := fun h => by cases h
theorem F.linkStepTimeout : F.Statement (.linkStepTimeout) := fun h => by cases h
theorem F.drainTimeout : F.Statement (.drainTimeout) := fun h => by cases h
theorem F.commitTimeout : F.Statement (.commitTimeout) := fun h => by cases h
theorem F.wderegTimeout : F.Statement (.wderegTimeout) := fun h => by cases h
theorem F.wwaitTimeout : F.Statement (.wwaitTimeout) := fun h => by cases h
theorem F.lightDetect : F.Statement (.lightDetect) := fun h => by cases h
theorem F.lockAcquired : F.Statement (.lockAcquired) := fun h => by cases h
theorem F.lockTimeout : F.Statement (.lockTimeout) := fun h => by cases h
theorem F.burstLoss : F.Statement (.burstLoss) := fun h => by cases h
theorem F.lossOfLock : F.Statement (.lossOfLock) := fun h => by cases h
theorem F.idleBurst : F.Statement (.idleBurst) := fun h => by cases h
theorem F.linkBringup : F.Statement (.linkBringup) := fun h => by cases h
theorem F.frameReceive : F.Statement (.frameReceive) := fun h => by cases h
theorem F.frameAck : F.Statement (.frameAck) := fun h => by cases h
theorem F.fecRequest : F.Statement (.fecRequest) := fun h => by cases h
theorem F.fecAck : F.Statement (.fecAck) := fun h => by cases h
theorem F.fecRequestRepeat : F.Statement (.fecRequestRepeat) := fun h => by cases h
theorem F.fecRevert : F.Statement (.fecRevert) := fun h => by cases h
theorem F.fecChangeTimeout : F.Statement (.fecChangeTimeout) := fun h => by cases h
theorem F.transitPacket : F.Statement (.transitPacket) := fun h => by cases h
theorem F.staleTv : F.Statement (.staleTv) := fun h => by cases h
theorem F.putArrive : F.Statement (.putArrive) := fun h => by cases h
theorem F.getArrive : F.Statement (.getArrive) := fun h => by cases h
theorem F.getDataArrive : F.Statement (.getDataArrive) := fun h => by cases h
theorem F.allowanceArrive : F.Statement (.allowanceArrive) := fun h => by cases h
theorem F.rendezvousAnswer : F.Statement (.rendezvousAnswer) := fun h => by cases h
theorem F.putAckArrive : F.Statement (.putAckArrive) := fun h => by cases h
theorem F.drainMarkerArrive : F.Statement (.drainMarkerArrive) := fun h => by cases h
theorem F.commitMarkerArrive : F.Statement (.commitMarkerArrive) := fun h => by cases h
theorem F.deregNoticeArrive : F.Statement (.deregNoticeArrive) := fun h => by cases h
theorem F.deregAnswerArrive : F.Statement (.deregAnswerArrive) := fun h => by cases h
theorem F.collectivePut : F.Statement (.collectivePut) := fun h => by cases h
theorem F.collectiveWait : F.Statement (.collectiveWait) := fun h => by cases h
theorem F.collectiveReduce : F.Statement (.collectiveReduce) := fun h => by cases h
theorem F.collectiveEnd : F.Statement (.collectiveEnd) := fun h => by cases h
theorem F.collectiveFreeze : F.Statement (.collectiveFreeze) := fun h => by cases h
theorem F.launchSubmit : F.Statement (.launchSubmit) := fun h => by cases h
theorem F.launchAdmit : F.Statement (.launchAdmit) := fun h => by cases h
theorem F.agingRaise : F.Statement (.agingRaise) := fun h => by cases h
theorem F.counterWrite : F.Statement (.counterWrite) := fun h => by cases h
theorem F.launchComplete : F.Statement (.launchComplete) := fun h => by cases h
theorem F.launchEndedByFirmware : F.Statement (.launchEndedByFirmware) := fun h => by cases h
theorem F.coreRestart : F.Statement (.coreRestart) := fun h => by cases h
theorem F.preemptSwap : F.Statement (.preemptSwap) := fun h => by cases h
theorem F.preemptOverdue : F.Statement (.preemptOverdue) := fun h => by cases h
theorem F.shadowPage : F.Statement (.shadowPage) := fun h => by cases h
theorem F.partitionConfig : F.Statement (.partitionConfig) := fun h => by cases h
theorem F.sensorSample : F.Statement (.sensorSample) := fun h => by cases h
theorem F.thermal : F.Statement (.thermal) := fun h => by cases h
theorem F.thermalMigration : F.Statement (.thermalMigration) := fun h => by cases h
theorem F.slewWindow : F.Statement (.slewWindow) := fun h => by cases h
theorem F.tileGate : F.Statement (.tileGate) := fun h => by cases h
theorem F.tileUngate : F.Statement (.tileUngate) := fun h => by cases h
theorem F.powerGood : F.Statement (.powerGood) := fun h => by cases h
theorem F.resetRelease : F.Statement (.resetRelease) := fun h => by cases h
theorem F.railFault : F.Statement (.railFault) := fun h => by cases h
theorem F.thermalTrip : F.Statement (.thermalTrip) := fun h => by cases h
theorem F.bootSourceTimeout : F.Statement (.bootSourceTimeout) := fun h => by cases h
theorem F.boot : F.Statement (.boot) := fun h => by cases h
theorem F.mgmtStatus : F.Statement (.mgmtStatus) := fun h => by cases h
theorem F.bootimg : F.Statement (.bootimg) := fun h => by cases h
theorem F.attest : F.Statement (.attest) := fun h => by cases h
theorem F.keyload : F.Statement (.keyload) := fun h => by cases h
theorem F.keyclear : F.Statement (.keyclear) := fun h => by cases h
theorem F.mgmtSnap : F.Statement (.mgmtSnap) := fun h => by cases h
theorem F.snapread : F.Statement (.snapread) := fun h => by cases h
theorem F.snapshotLatch : F.Statement (.snapshotLatch) := fun h => by cases h
theorem F.evread : F.Statement (.evread) := fun h => by cases h
theorem F.checkpoint : F.Statement (.checkpoint) := fun h => by cases h
theorem F.restore : F.Statement (.restore) := fun h => by cases h
theorem F.svncommit : F.Statement (.svncommit) := fun h => by cases h
theorem F.mgmtReset : F.Statement (.mgmtReset) := fun h => by cases h
theorem F.eventRecordDeliver : F.Statement (.eventRecordDeliver) := fun h => by cases h
theorem F.logTailWrite : F.Statement (.logTailWrite) := fun h => by cases h
theorem F.hostRegisterWrite : F.Statement (.hostRegisterWrite) := fun h => by cases h
theorem F.serviceInboxTake : F.Statement (.serviceInboxTake) := fun h => by cases h
theorem F.resetNAssert : F.Statement (.resetNAssert) := fun h => by cases h
theorem F.memoryError : F.Statement (.memoryError) := fun h => by cases h
theorem F.checkpointEnd : F.Statement (.checkpointEnd) := fun h => by cases h

end Sys2Proof.Laws
end

