-- ==== Sys2Proof/Laws/Shared.lean ====
section
/-! SUPPORT. Laws/Shared.lean: what the remaining shared operations can do, said once: accesses through a view, global
memory under a key, traps, barriers and the mailbox. -/

namespace Sys2Proof.Machine

/-! Traps (R37 to R42, R156). -/

/-- A trap is entered, or deferred in an exchange phase. -/
theorem State.raise_cases (s : State) (t : Trap) :
    (s.inExchange = false ∧
      s.raise t = .next (s.enter (causeWord t.cause t.detail s.ir.len) s.c.pc t.eaddr s.ir.eword)) ∨
    (s.inExchange = true ∧ ∃ off, s.raise t =
      .next (s.deferTrap t off { cause := causeWord t.cause t.detail 0, eaddr := t.eaddr, eword := s.ir.eword }).adv) := by
  cases h : s.inExchange with
  | false => exact .inl ⟨rfl, s.raise_compute t h⟩
  | true => exact .inr ⟨rfl, _, s.raise_exchange t h⟩

/-- With TE set a trap leads to c.tvec in S mode, with the place, the cause and the former mode saved. -/
theorem State.enter_single (s : State) (cause epc eaddr eword : Word) (h : s.c.status.getLsbD 1 = true) :
    s.enter cause epc eaddr eword = { s with c := { s.c with
      epc := epc, cause := cause, eaddr := eaddr, eword := eword,
      status := (s.c.status &&& 0xFFFFFBF0) ||| ((s.c.status &&& 3) <<< 2) ||| 1,
      pc := s.c.tvec, stall := false, pend := .none } } := by
  unfold State.enter; rw [if_neg (by simpa using h)]

/-- With TE clear it is a double trap: the core stops. -/
theorem State.enter_double (s : State) (cause epc eaddr eword : Word) (h : s.c.status.getLsbD 1 = false) :
    s.enter cause epc eaddr eword = { s with
      c := { s.c with cause := cause ||| 0x8000, run := .stopped, stall := false, pend := .none }
      t := { s.t with inbox := s.t.inbox ++ [.machineCheck s.t.idx.val epc eaddr] } } := by
  unfold State.enter; rw [if_pos (by simpa using h)]

/-- A check that passes leaves the meaning; one that fails raises its trap. -/
theorem State.check_cases (s : State) (t : Option Trap) (k : Result) :
    (t = none ∧ s.check t k = k) ∨ ∃ u, t = some u ∧ s.check t k = s.raise u := by
  cases t with
  | none => exact .inl ⟨rfl, rfl⟩
  | some u => exact .inr ⟨u, rfl, rfl⟩

/-! Accesses through a view (R23, R25, R93). -/

theorem State.loadBytes_length (s : State) (ea : Word) (n : Nat) : (s.loadBytes ea n).length = n := by
  simp only [State.loadBytes]; split
  · simp [Memory.readBytes]
  · split <;> simp [Memory.readBytes]

/-- Reading back what a store through a view of local memory or of the banks wrote. -/
theorem State.loadBytes_storeBytes (s : State) (ea : Word) (bs : List Byte) (h : viewOf ea ≤ 6 ∨ viewOf ea = 8) :
    (s.storeBytes ea bs).loadBytes ea bs.length = bs := by
  by_cases h6 : viewOf ea ≤ 6
  · simp only [State.loadBytes, State.storeBytes, h6, if_true, State.storeMem]
    exact Memory.readBytes_writeBytes _ _ _
  · have h8 : viewOf ea = 8 := by omega
    simp only [State.loadBytes, State.storeBytes, h8, if_true, State.storeAcc]
    exact Memory.readBytes_writeBytes _ _ _

/-- A store through a view of local memory leaves every byte outside it. -/
theorem State.storeBytes_outside (s : State) (ea : Word) (bs : List Byte) (h : viewOf ea ≤ 6) (x : Nat)
    (hx : x < offOf ea ∨ offOf ea + bs.length ≤ x) : (s.storeBytes ea bs).c.mem.read x = s.c.mem.read x := by
  simp only [State.storeBytes, h, if_true, State.storeMem]
  exact Memory.read_writeBytes_outside _ _ _ _ hx

/-! Global memory under a key (R235). -/

@[simp] theorem State.gread_length (s : State) (pa n key : Nat) : (s.gread pa n key).length = n := by simp [State.gread]

/-- A read depends on the bytes and on the keys that they were written with. -/
theorem State.gread_congr {s t : State} (hm : s.chip.gmem = t.chip.gmem) (hk : s.chip.gkeys = t.chip.gkeys)
    (pa n key : Nat) : s.gread pa n key = t.gread pa n key := by
  unfold State.gread; rw [hm, hk]

@[simp] theorem State.gwrite_c (s : State) (pa : Nat) (bs : List Byte) (key : Nat) : (s.gwrite pa bs key).c = s.c := rfl
@[simp] theorem State.gwrite_sh (s : State) (pa : Nat) (bs : List Byte) (key : Nat) : (s.gwrite pa bs key).sh = s.sh := rfl
@[simp] theorem State.gwrite_t (s : State) (pa : Nat) (bs : List Byte) (key : Nat) : (s.gwrite pa bs key).t = s.t := rfl
@[simp] theorem State.gwrite_p (s : State) (pa : Nat) (bs : List Byte) (key : Nat) : (s.gwrite pa bs key).p = s.p := rfl
@[simp] theorem State.gwrite_out (s : State) (pa : Nat) (bs : List Byte) (key : Nat) :
    (s.gwrite pa bs key).out = s.out := rfl
@[simp] theorem State.gwrite_keys (s : State) (pa : Nat) (bs : List Byte) (key : Nat) :
    (s.gwrite pa bs key).chip.keys = s.chip.keys := rfl

/-- A key that a write leaves with one of its beats. -/
theorem State.gwrite_key (s : State) (pa : Nat) (bs : List Byte) (key b : Nat) (lo : pa / 64 ≤ b)
    (hi : b < (pa + bs.length + 63) / 64) : (s.gwrite pa bs key).chip.gkeys.find? (·.1 = b) = some (b, key) := by
  have h : (List.range ((pa + bs.length + 63) / 64 - pa / 64)).find?
      ((fun e : Nat × Nat => decide (e.1 = b)) ∘ fun i => (pa / 64 + i, key)) = some (b - pa / 64) := by
    rw [List.find?_range_eq_some]
    refine ⟨by simp; omega, by simp; omega, fun j hj => by simp; omega⟩
  simp only [State.gwrite, List.find?_append, List.find?_map, h, Option.map_some, Option.some_or]
  rw [Nat.add_sub_cancel' lo]

/-- Reading back under its key what a write wrote. -/
theorem State.gread_gwrite (s : State) (pa : Nat) (bs : List Byte) (key : Nat) :
    (s.gwrite pa bs key).gread pa bs.length key = bs := by
  apply List.ext_getElem (by simp)
  intro i h1 h2
  have hk := s.gwrite_key pa bs key ((pa + i) / 64) (by omega) (by omega)
  simp only [State.gread, List.getElem_map, List.getElem_range, hk, if_true]
  exact Memory.read_writeBytes_inside _ _ _ _ h2

/-- A write of whole beats leaves every byte outside it. -/
theorem State.gwrite_outside (s : State) (pa : Nat) (bs : List Byte) (key x : Nat) (ha : pa % 64 = 0)
    (hl : bs.length % 64 = 0) (hx : x < pa ∨ pa + bs.length ≤ x) :
    (s.gwrite pa bs key).chip.gmem.read x = s.chip.gmem.read x := by
  simp only [State.gwrite]
  rw [Memory.read_writeBytes_outside _ _ _ _ hx, Memory.read_writeBytes_outside]
  simp only [State.gread_length]; omega

/-! Barriers (R166). -/

/-- A flip test restarts both counts and turns the phase, or does nothing. -/
theorem Barrier.flip_cases (b : Barrier) :
    ((b.pena = b.expa ∧ b.expb.toNat ≤ b.penb.toNat) ∧ b.flip = { b with ph := !b.ph, pena := 0, penb := 0 }) ∨
    (¬(b.pena = b.expa ∧ b.expb.toNat ≤ b.penb.toNat) ∧ b.flip = b) := by
  unfold Barrier.flip
  by_cases h : b.pena = b.expa ∧ b.expb.toNat ≤ b.penb.toNat
  · exact .inl ⟨h, if_pos h⟩
  · exact .inr ⟨h, if_neg h⟩

/-- An arrival counts, or it is refused and recorded. -/
theorem Barrier.arrive_cases (b : Barrier) :
    (b.pena.toNat < b.expa.toNat ∧ b.arrive = { b with pena := b.pena + 1 }) ∨
    (b.expa.toNat ≤ b.pena.toNat ∧ b.arrive = { b with status := b.status ||| 0x1000000 }) := by
  unfold Barrier.arrive
  by_cases h : b.pena.toNat + 1 ≤ b.expa.toNat
  · exact .inl ⟨by omega, if_pos h⟩
  · exact .inr ⟨by omega, if_neg h⟩

/-- PENA never passes EXPA by an arrival, nor PENB EXPB by a credit. -/
theorem Barrier.arrive_bound (b : Barrier) (h : b.pena.toNat ≤ b.expa.toNat) :
    b.arrive.pena.toNat ≤ b.arrive.expa.toNat := by
  rcases b.arrive_cases with ⟨hl, e⟩ | ⟨_, e⟩ <;> rw [e]
  · have := b.expa.isLt
    show (b.pena + 1).toNat ≤ b.expa.toNat
    rw [BitVec.toNat_add, show (1 : Byte).toNat = 1 from rfl]; omega
  · exact h

theorem Barrier.credit_bound (b : Barrier) (n : Nat) : (b.credit n).penb.toNat ≤ (b.credit n).expb.toNat := by
  unfold Barrier.credit
  split
  · simp only [BitVec.toNat_ofNat]; exact Nat.le_trans (Nat.mod_le _ _) (by assumption)
  · exact Nat.le_refl _

/-- The arrival of an engine counts like any other, and never passes EXPA. -/
theorem Barrier.engine_bound (b : Barrier) (bits : Word) (h : b.pena.toNat ≤ b.expa.toNat) :
    (b.engine bits).pena.toNat ≤ (b.engine bits).expa.toNat := by
  unfold Barrier.engine
  split
  · exact b.arrive_bound h
  · exact Barrier.arrive_bound { b with status := b.status ||| bits } h

/-! Frames (R321). -/

/-- Outputs one after another go to the end of what the machine has put out; nothing else changes. -/
theorem State.foldl_put {α : Type} (f : α → Out) (xs : List α) (s : State) :
    xs.foldl (fun t x => t.put (f x)) s = { s with out := s.out ++ xs.map f } := by
  induction xs generalizing s with
  | nil => simp
  | cons x xs ih => rw [List.foldl_cons, ih]; simp [State.put]

/-- Frames that leave are counted. At the first even frame at or after F the code changes to the one asked for, where the change has
been acknowledged; nothing else changes (R322, R323). -/
theorem Port.sendFrames_cases (x : Port) (n : Nat) :
    x.sendFrames n = { x with count := x.count + n } ∨
    ∃ r, x.fecReq = some r ∧ r.closed = true ∧ (max x.count r.f + 1) / 2 * 2 < x.count + n ∧
      x.sendFrames n = { x with count := x.count + n, fec := r.mode, fecReq := none } := by
  unfold Port.sendFrames
  cases h : x.fecReq with
  | none => exact .inl (by simp)
  | some r =>
    by_cases hr : r.closed = true ∧ (max x.count r.f + 1) / 2 * 2 < x.count + n
    · exact .inr ⟨r, rfl, hr.1, hr.2, if_pos hr⟩
    · exact .inl ((if_neg hr).trans (by simp))

@[simp] theorem Port.sendFrames_lock (x : Port) (n : Nat) : (x.sendFrames n).lock = x.lock := by
  obtain h | ⟨_, -, -, -, h⟩ := x.sendFrames_cases n <;> rw [h]
@[simp] theorem Port.sendFrames_rxSeq (x : Port) (n : Nat) : (x.sendFrames n).rxSeq = x.rxSeq := by
  obtain h | ⟨_, -, -, -, h⟩ := x.sendFrames_cases n <;> rw [h]
@[simp] theorem Port.sendFrames_draining (x : Port) (n : Nat) : (x.sendFrames n).draining = x.draining := by
  obtain h | ⟨_, -, -, -, h⟩ := x.sendFrames_cases n <;> rw [h]
@[simp] theorem Port.sendFrames_drained (x : Port) (n : Nat) : (x.sendFrames n).drained = x.drained := by
  obtain h | ⟨_, -, -, -, h⟩ := x.sendFrames_cases n <;> rw [h]

/-- What leaves by a port changes that port and what the machine has put out, nothing else. -/
theorem State.pump_cases (s : State) (p : Fin 32) :
    ∃ x o, s.pump p = { s.setPort p x with out := s.out ++ o } ∧ x.lock = (s.port p).lock ∧ x.rxSeq = (s.port p).rxSeq ∧
      x.draining = (s.port p).draining ∧ x.drained = (s.port p).drained := by
  unfold State.pump
  simp only [State.foldl_put]
  exact ⟨_, _, rfl, by simp, by simp, by simp, by simp⟩

/-- A DRAINED port carries no packet; a line that may leave changes the port and what the machine has put out, nothing else. -/
theorem State.transmit_cases (s : State) (p : Fin 32) (l : Line) :
    s.transmit p l = s ∨ ∃ x o, s.transmit p l = { s.setPort p x with out := s.out ++ o } := by
  obtain ⟨x, o, h, -⟩ := (s.setPort p { s.port p with queue := (s.port p).queue ++ [l] }).pump_cases p
  have e : ∃ x o, (s.setPort p { s.port p with queue := (s.port p).queue ++ [l] }).pump p =
      { s.setPort p x with out := s.out ++ o } := ⟨x, o, by rw [h]; simp [State.setPort]⟩
  unfold State.transmit
  dsimp only
  split <;> split <;> first | exact .inl rfl | exact .inr e

/-! The mailbox (R172). -/

/-- A message enters the mailbox, or is held behind the others. -/
theorem State.post_cases (s : State) (m : DWord) :
    (s.c.held = [] ∧ s.mboxHeld = false ∧ s.post m = s.enqueue m) ∨
    s.post m = { s with c := { s.c with held := s.c.held ++ [m] } } := by
  unfold State.post
  by_cases h : s.c.held ≠ [] ∨ s.mboxHeld = true
  · exact .inr (if_pos h)
  · exact .inl ⟨by simpa using (not_or.mp h).1, by simpa using (not_or.mp h).2, if_neg h⟩

/-- A message that enters the mailbox stands last. -/
theorem State.enqueue_last (s : State) (m : DWord) :
    (s.enqueue m).c.mbox[(s.c.mboxHead.toNat + s.c.mboxCount.toNat) % 32]'(Nat.mod_lt _ (by decide)) = m := by
  simp [State.enqueue]

end Sys2Proof.Machine
end

