-- ==== Sys2Proof/Tests/Slice0.lean ====
section
/-! SUPPORT. Tests/Slice0.lean: ill-formed terms and refused chains; every encoded constructor's word, written out from the
encodings of spec/05; cases the manual works out; and for every statement with hypotheses a witness, one state and operands
for each clause that meet the hypotheses together. -/

set_option maxRecDepth 8000
set_option Elab.async false

namespace Sys2Proof.Tests

open Sys2Proof Sys2Proof.Machine

/-! Ill-formed terms, one or more for each check of WellFormed (R73, R116, R119 to R127, R141, R179, R187, R254). -/

/-- No modifier. -/
def plain : VMod := { sat := false, z := false, km := 0 }
def withSat : VMod := { plain with sat := true }
def withZero : VMod := { plain with z := true }

theorem test_wf_vector_types : (Instr.vadd .e4m3 1 2 3 plain).wf = false ∧ (Instr.vadd .f32 1 2 3 withSat).wf = false ∧
    (Instr.vfma .e5m2 1 2 3 4 plain).wf = false ∧ (Instr.vmin .e4m3 1 2 3 plain).wf = false ∧
    (Instr.vmax .i32 1 2 3 withSat).wf = false ∧ (Instr.vsat .e5m2 1 2 3 plain).wf = false ∧
    (Instr.vand .i32 1 2 3 withSat).wf = false ∧ (Instr.vabs .u32 1 2 plain).wf = false ∧
    (Instr.vneg .f32 1 2 withSat).wf = false ∧ (Instr.vshl .f32 1 2 3 plain).wf = false ∧
    (Instr.vsra .u8 1 2 3 plain).wf = false ∧ (Instr.vcmpeq .i8 1 2 3 withSat).wf = false ∧
    (Instr.vexp .i32 1 2 plain).wf = false ∧ (Instr.vrcp .e4m3 1 2 plain).wf = false := by decide
theorem test_wf_vector_widths : (Instr.vpack .i16 .i16 false 1 2 3).wf = false ∧
    (Instr.vunpack .f32 .e4m3 false 1 2 true).wf = false ∧ (Instr.vshuf .f32 1 2 3 withSat).wf = false ∧
    (Instr.vbcast .i32 1 2 withSat).wf = false ∧ (Instr.vmov .i32 1 2 withSat).wf = false ∧
    (Instr.vredsum .i32 1 2 withZero).wf = false ∧ (Instr.vredmax .f32 1 2 withSat).wf = false ∧
    (Instr.vscan .e4m3 1 2 plain).wf = false ∧ (Instr.vldb .i32 1 2 withSat).wf = false ∧
    (Instr.vldx .f32 1 2 3 plain).wf = false ∧ (Instr.vstx .u32 1 2 3 withSat).wf = false := by decide
theorem test_wf_operands : (Instr.mma .i32 1 2 3).wf = false ∧ (Instr.aalloc 1 2 33).wf = false ∧ (Instr.afree 1 33).wf = false ∧
    (Instr.cpush 29).wf = false ∧ (Instr.cpushnb 1 29).wf = false ∧ (Instr.xsend 2 4 4096).wf = false ∧
    (Instr.xrecv 2 4 4096).wf = false ∧ (Instr.xmc 1 2 4 4096).wf = false ∧ (Instr.xsel 1 4096).wf = false ∧
    (Instr.xrecva .f32 .or false 2 4 9).wf = false ∧ (Instr.xrecva .i32 .max true 2 4 9).wf = false ∧
    (Instr.xend 0).wf = false ∧ (Instr.xend 4097).wf = false := by decide
theorem test_wf_reductions : (Instr.redAdd .f32 true 1 2 3 4 5).wf = false ∧ (Instr.redAdd .bf16 false 1 2 3 4 5).wf = false ∧
    (Instr.redMax .i32 true 1 2 3 4 5).wf = false ∧ (Instr.redMin .i16 false 1 2 3 4 5).wf = false ∧
    (Instr.redAnd .f32 false 1 2 3 4 5).wf = false ∧ (Instr.redOr .u32 true 1 2 3 4 5).wf = false := by decide
/-- A step of another agent has no words. -/
theorem test_wf_no_encoding : Instr.launchAdmit.wf = false ∧ (encode .launchAdmit) = [] := by decide

/-! Chains that R66 and R73 refuse, by the cause that they raise. -/

def refusal (ws : List Half) : Option Cause := match decode ws with
  | .error e => some e.cause
  | .ok _ => none

/-- R66 rules 1 and 2: XR before XP, XI before XM; XP, XR or XM twice, XI three times; R71: five of them. -/
theorem test_refuse_order : refusal [0xF540, 0xF880, 0x0298] = some .pfx ∧ refusal [0xF001, 0xFC20, 0x1000] = some .pfx ∧
    refusal [0xF880, 0xF880, 0x0298] = some .pfx ∧ refusal [0xF540, 0xF540, 0x0298] = some .pfx ∧
    refusal [0xFC20, 0xFC20, 0x0298] = some .pfx ∧ refusal [0xF001, 0xF001, 0xF001, 0x1000] = some .pfx ∧
    refusal [0xFFFF, 0xFFFF, 0xFFFF, 0xFFFF, 0xFFFF] = some .pfx := by
  and_intros <;> rfl
/-- R66 rules 3 to 6: XI before add and shli, XR before j; XM before add, even with zero fields; madd without XM; d-hi before a
branch; b-hi in the fields of a CSR number; fn-hi before an immediate. -/
theorem test_refuse_fields : refusal [0xF001, 0x0298] = some .pfx ∧ refusal [0xF001, 0x7298] = some .pfx ∧
    refusal [0xF440, 0xD864] = some .pfx ∧ refusal [0xFC00, 0x0298] = some .pfx ∧ refusal [0xF402, 0x0BBF] = some .pfx ∧
    refusal [0xF500, 0xC470] = some .pfx ∧ refusal [0xF410, 0xEAAB] = some .pfx ∧ refusal [0xF401, 0x14BF] = some .pfx := by
  and_intros <;> rfl
/-- R73 by page: fn 32, imm[5] of MAJ 0x7, fn 8 of 0xB, cond 6, fn 7 of 0xE, MAJ 0xF does not occur; then pages 1 to 9. -/
theorem test_refuse_no_entry : refusal [0xF404, 0x0298] = some .illegal ∧ refusal [0x7220] = some .illegal ∧
    refusal [0xF401, 0xB298] = some .illegal ∧ refusal [0xC180] = some .illegal ∧ refusal [0xE007] = some .illegal ∧
    refusal [0xF840, 0x0007] = some .illegal ∧ refusal [0xF840, 0x1E00] = some .illegal ∧
    refusal [0xF840, 0x2004] = some .illegal ∧ refusal [0xF840, 0x3003] = some .illegal ∧ refusal [0xF840, 0x4000] = some .illegal ∧
    refusal [0xF88B, 0x0298] = some .illegal ∧ refusal [0xF880, 0x4007] = some .illegal ∧ refusal [0xF880, 0x5006] = some .illegal ∧
    refusal [0xF8C0, 0x1A00] = some .illegal ∧ refusal [0xF900, 0x0006] = some .illegal ∧ refusal [0xF940, 0x3800] = some .illegal ∧
    refusal [0xF940, 0x6006] = some .illegal ∧ refusal [0xF980, 0x1000] = some .illegal ∧ refusal [0xF9C0, 0x0007] = some .illegal ∧
    refusal [0xF9C0, 0x1005] = some .illegal ∧ refusal [0xF9C0, 0x3000] = some .illegal ∧ refusal [0xFA00, 0x0000] = some .illegal := by
  and_intros <;> rfl
/-- R66: an encoding without entry keeps rules 1 to 4 and no others: XM before fn 7 of MAJ 0xE, and
before a reserved page; XI before fn 22 of page 2 breaks rule 3. -/
theorem test_refuse_no_entry_chain : refusal [0xFC20, 0xE007] = some .illegal ∧ refusal [0xFA00, 0xFC20, 0x0000] = some .illegal ∧
    refusal [0xF880, 0xF402, 0xF001, 0x0006] = some .pfx := by
  and_intros <;> rfl
/-- R71: four words may precede the base word; what is short of one is no instruction. -/
theorem test_five_words : decode [0xF941, 0xF440, 0xFC00, 0xF000, 0x24CC] = .ok (.xrecva .bf16 .add false 2 11 12, 5) ∧
    decode [0xF880, 0xF540] = .error .short := by
  and_intros <;> rfl

/-! The word of every encoded constructor (spec/05, R63 to R73). -/

theorem test_decode_arithmetic :
    decode [0x0298] = .ok (.add 1 2 3, 1) ∧
    decode [0x0299] = .ok (.sub 1 2 3, 1) ∧
    decode [0x029A] = .ok (.and 1 2 3, 1) ∧
    decode [0x029B] = .ok (.or 1 2 3, 1) ∧
    decode [0x029C] = .ok (.xor 1 2 3, 1) ∧
    decode [0x029D] = .ok (.shl 1 2 3, 1) ∧
    decode [0x029E] = .ok (.shr 1 2 3, 1) ∧
    decode [0x029F] = .ok (.sra 1 2 3, 1) ∧
    decode [0xF5B1, 0x0298] = .ok (.slt 9 18 27, 2) ∧
    decode [0xF5B1, 0x0299] = .ok (.sltu 9 18 27, 2) ∧
    decode [0xF5B1, 0x029A] = .ok (.seq 9 18 27, 2) ∧
    decode [0xF5B1, 0x029B] = .ok (.sne 9 18 27, 2) ∧
    decode [0xF5B1, 0x029C] = .ok (.min 9 18 27, 2) ∧
    decode [0xF5B1, 0x029D] = .ok (.max 9 18 27, 2) ∧
    decode [0xF5B1, 0x029E] = .ok (.minu 9 18 27, 2) ∧
    decode [0xF5B1, 0x029F] = .ok (.maxu 9 18 27, 2) ∧
    decode [0xF5B2, 0x0298] = .ok (.mul 9 18 27, 2) ∧
    decode [0xF5B2, 0x0299] = .ok (.mulh 9 18 27, 2) ∧
    decode [0xF5B2, 0x029A] = .ok (.mulhu 9 18 27, 2) ∧
    decode [0xF5B2, 0x029B] = .ok (.div 9 18 27, 2) ∧
    decode [0xF5B2, 0x029C] = .ok (.divu 9 18 27, 2) ∧
    decode [0xF5B2, 0x029D] = .ok (.rem 9 18 27, 2) ∧
    decode [0xF5B2, 0x029E] = .ok (.remu 9 18 27, 2) ∧
    decode [0xF402, 0xFC80, 0x029F] = .ok (.madd 1 2 3 4, 3) ∧
    decode [0xF583, 0x0280] = .ok (.clz 9 18, 2) ∧
    decode [0xF583, 0x0281] = .ok (.ctz 9 18, 2) ∧
    decode [0xF583, 0x0282] = .ok (.popc 9 18, 2) ∧
    decode [0xF583, 0x0283] = .ok (.sextB 9 18, 2) ∧
    decode [0xF583, 0x0284] = .ok (.sextH 9 18, 2) ∧
    decode [0xF583, 0x0285] = .ok (.zextB 9 18, 2) ∧
    decode [0xF583, 0x0286] = .ok (.zextH 9 18, 2) ∧
    decode [0xF403, 0xFC80, 0x029F] = .ok (.sel 1 2 3 4, 3) := by
  and_intros <;> rfl

theorem test_decode_immediates_and_memory :
    decode [0x12BD] = .ok (.addi 1 2 (-3), 1) ∧
    decode [0x22BD] = .ok (.andi 1 2 (-3), 1) ∧
    decode [0x32BD] = .ok (.ori 1 2 (-3), 1) ∧
    decode [0x42BD] = .ok (.xori 1 2 (-3), 1) ∧
    decode [0x52BD] = .ok (.slti 1 2 (-3), 1) ∧
    decode [0x62BD] = .ok (.sltiu 1 2 (-3), 1) ∧
    decode [0x7295] = .ok (.shli 1 2 21, 1) ∧
    decode [0x8295] = .ok (.shri 1 2 21, 1) ∧
    decode [0x82B5] = .ok (.srai 1 2 21, 1) ∧
    decode [0x92BD] = .ok (.ldW 1 2 (-3), 1) ∧
    decode [0xA2BD] = .ok (.stW 1 2 (-3), 1) ∧
    decode [0xB298] = .ok (.ldB 1 2 3, 1) ∧
    decode [0xB299] = .ok (.ldBu 1 2 3, 1) ∧
    decode [0xB29A] = .ok (.ldH 1 2 3, 1) ∧
    decode [0xB29B] = .ok (.ldHu 1 2 3, 1) ∧
    decode [0xB29C] = .ok (.ldWx 1 2 3, 1) ∧
    decode [0xB29D] = .ok (.stB 1 2 3, 1) ∧
    decode [0xB29E] = .ok (.stH 1 2 3, 1) ∧
    decode [0xB29F] = .ok (.stWx 1 2 3, 1) := by
  and_intros <;> rfl

theorem test_decode_control :
    decode [0xC43D] = .ok (.bz 2 (-3), 1) ∧
    decode [0xC47D] = .ok (.bnz 2 (-3), 1) ∧
    decode [0xC4BD] = .ok (.bltz 2 (-3), 1) ∧
    decode [0xC4FD] = .ok (.bgez 2 (-3), 1) ∧
    decode [0xC53D] = .ok (.bgtz 2 (-3), 1) ∧
    decode [0xC57D] = .ok (.blez 2 (-3), 1) ∧
    decode [0xD7FD] = .ok (.j (-3), 1) ∧
    decode [0xDFFD] = .ok (.jal (-3), 1) ∧
    decode [0xE080] = .ok (.jr 2, 1) ∧
    decode [0xE081] = .ok (.jalr 2, 1) ∧
    decode [0xEA9A] = .ok (.loop 2 43, 1) ∧
    decode [0xE2AB] = .ok (.csrr 1 .cyc, 1) ∧
    decode [0xE4AC] = .ok (.csrw .cyc 2, 1) ∧
    decode [0xE685] = .ok (.csrs .fmode 2, 1) ∧
    decode [0xE686] = .ok (.csrc .fmode 2, 1) := by
  and_intros <;> rfl

theorem test_decode_system :
    decode [0xF9C0, 0x0080] = .ok (.trap 2, 2) ∧
    decode [0xF9C0, 0x0001] = .ok (.eret, 2) ∧
    decode [0xF9C0, 0x0002] = .ok (.halt, 2) ∧
    decode [0xF9C0, 0x0203] = .ok (.snap 1, 2) ∧
    decode [0xF9C0, 0x0284] = .ok (.xload 1 2, 2) ∧
    decode [0xF9C0, 0x0005] = .ok (.fence, 2) ∧
    decode [0xF9C0, 0x009E] = .ok (.evwr 2 3, 2) := by
  and_intros <;> rfl

theorem test_decode_handles :
    decode [0xF840, 0x0280] = .ok (.hset 1 2, 2) ∧
    decode [0xF840, 0x02A9] = .ok (.hget 1 2 5, 2) ∧
    decode [0xF840, 0x0282] = .ok (.hwaitf 1 2, 2) ∧
    decode [0xF840, 0x0283] = .ok (.hwaite 1 2, 2) ∧
    decode [0xF840, 0x0284] = .ok (.hadvc 1 2, 2) ∧
    decode [0xF840, 0x0285] = .ok (.hadvp 1 2, 2) ∧
    decode [0xF840, 0x0206] = .ok (.hreset 1, 2) := by
  and_intros <;> rfl

theorem test_decode_barriers_mailbox_waits :
    decode [0xF840, 0x10AB] = .ok (.barm 2 43, 2) ∧
    decode [0xF840, 0x122B] = .ok (.barr 43, 2) ∧
    decode [0xF840, 0x14AB] = .ok (.bwait 2 43, 2) ∧
    decode [0xF840, 0x16AB] = .ok (.btest 2 43, 2) ∧
    decode [0xF840, 0x18AB] = .ok (.bstat 2 43, 2) ∧
    decode [0xF840, 0x1AAB] = .ok (.bexp 2 43, 2) ∧
    decode [0xF840, 0x1C2B] = .ok (.binv 43, 2) ∧
    decode [0xF840, 0x2200] = .ok (.wmsg 1, 2) ∧
    decode [0xF840, 0x2281] = .ok (.rmsg 1 2, 2) ∧
    decode [0xF840, 0x2202] = .ok (.mcnt 1, 2) ∧
    decode [0xF840, 0x209B] = .ok (.msend 2 3, 2) ∧
    decode [0xF840, 0x3280] = .ok (.waita 1 2, 2) ∧
    decode [0xF840, 0x3081] = .ok (.clra 2, 2) ∧
    decode [0xF840, 0x3282] = .ok (.monn 1 2, 2) := by
  and_intros <;> rfl

theorem test_decode_vector_arithmetic :
    decode [0xF885, 0x0298] = .ok (.vadd .i32 1 2 3 ⟨false, false, 0⟩, 2) ∧
    decode [0xF885, 0x0299] = .ok (.vsub .i32 1 2 3 ⟨false, false, 0⟩, 2) ∧
    decode [0xF885, 0x029A] = .ok (.vmul .i32 1 2 3 ⟨false, false, 0⟩, 2) ∧
    decode [0xF885, 0x029B] = .ok (.vmin .i32 1 2 3 ⟨false, false, 0⟩, 2) ∧
    decode [0xF885, 0x029C] = .ok (.vmax .i32 1 2 3 ⟨false, false, 0⟩, 2) ∧
    decode [0xF885, 0x029D] = .ok (.vand .i32 1 2 3 ⟨false, false, 0⟩, 2) ∧
    decode [0xF885, 0x029E] = .ok (.vor .i32 1 2 3 ⟨false, false, 0⟩, 2) ∧
    decode [0xF885, 0x029F] = .ok (.vxor .i32 1 2 3 ⟨false, false, 0⟩, 2) ∧
    decode [0xF881, 0xF401, 0xFC8D, 0x0298] = .ok (.vfma .bf16 1 2 3 4 ⟨false, true, 5⟩, 4) ∧
    decode [0xF886, 0xF401, 0x0281] = .ok (.vabs .i16 1 2 ⟨false, false, 0⟩, 3) ∧
    decode [0xF886, 0xF401, 0xFC03, 0x0282] = .ok (.vneg .i16 1 2 ⟨false, false, 3⟩, 4) ∧
    decode [0xF885, 0xF401, 0x029B] = .ok (.vshl .i32 1 2 3 ⟨false, false, 0⟩, 3) ∧
    decode [0xF889, 0xF401, 0x029C] = .ok (.vshr .u16 1 2 3 ⟨false, false, 0⟩, 3) ∧
    decode [0xF887, 0xF401, 0x029D] = .ok (.vsra .i8 1 2 3 ⟨false, false, 0⟩, 3) ∧
    decode [0xF880, 0xF401, 0xFCC0, 0x029E] = .ok (.vsel .f32 1 2 3 6, 4) ∧
    decode [0xF888, 0xF401, 0x029F] = .ok (.vcmpeq .u8 1 2 3 ⟨false, false, 0⟩, 3) ∧
    decode [0xF88A, 0xF402, 0x0298] = .ok (.vcmplt .u32 1 2 3 ⟨false, false, 0⟩, 3) ∧
    decode [0xF880, 0xF402, 0x0299] = .ok (.vcmple .f32 1 2 3 ⟨false, false, 0⟩, 3) ∧
    decode [0xF880, 0xF402, 0x0282] = .ok (.vexp .f32 1 2 ⟨false, false, 0⟩, 3) ∧
    decode [0xF880, 0xF402, 0x0283] = .ok (.vrcp .f32 1 2 ⟨false, false, 0⟩, 3) ∧
    decode [0xF880, 0xF402, 0x0284] = .ok (.vrsqrt .f32 1 2 ⟨false, false, 0⟩, 3) ∧
    decode [0xF887, 0xF402, 0x029D] = .ok (.vsat .i8 1 2 3 ⟨false, false, 0⟩, 3) := by
  and_intros <;> rfl

theorem test_decode_vector_conversion_permutation :
    decode [0xF881, 0xFC15, 0x1280] = .ok (.vcvt .bf16 .i32 true 1 2, 3) ∧
    decode [0xF887, 0xFC16, 0x1299] = .ok (.vpack .i8 .i16 true 1 2 3, 3) ∧
    decode [0xF880, 0xFC01, 0x128A] = .ok (.vunpack .f32 .bf16 false 1 2 true, 3) ∧
    decode [0xF885, 0x129B] = .ok (.vshuf .i32 1 2 3 ⟨false, false, 0⟩, 2) ∧
    decode [0xF885, 0x1284] = .ok (.vbcast .i32 1 2 ⟨false, false, 0⟩, 2) ∧
    decode [0xF885, 0x1285] = .ok (.vmov .i32 1 2 ⟨false, false, 0⟩, 2) ∧
    decode [0xF885, 0x1286] = .ok (.vredsum .i32 1 2 ⟨false, false, 0⟩, 2) ∧
    decode [0xF885, 0x1287] = .ok (.vredmax .i32 1 2 ⟨false, false, 0⟩, 2) ∧
    decode [0xF880, 0xF401, 0x1280] = .ok (.vredmin .f32 1 2 ⟨false, false, 0⟩, 3) ∧
    decode [0xF885, 0xF401, 0xFC19, 0x1281] = .ok (.vscan .i32 1 2 ⟨true, true, 1⟩, 4) ∧
    decode [0xF886, 0xF401, 0x129A] = .ok (.vmovs .i16 1 2 3, 3) ∧
    decode [0xF886, 0xF401, 0x129B] = .ok (.vext .i16 1 2 3 ⟨false, false, 0⟩, 3) := by
  and_intros <;> rfl

theorem test_decode_vector_memory :
    decode [0xF880, 0x22BD] = .ok (.vld 1 2 (-3), 2) ∧
    decode [0xF880, 0x32BD] = .ok (.vst 1 2 (-3), 2) ∧
    decode [0xF881, 0xFC11, 0x4280] = .ok (.vldc .bf16 1 2 true true, 3) ∧
    decode [0xF880, 0xFC06, 0x4281] = .ok (.vstc .f32 1 2 false true .pow2, 3) ∧
    decode [0xF885, 0x4282] = .ok (.vldb .i32 1 2 ⟨false, false, 0⟩, 2) ∧
    decode [0xF885, 0x429B] = .ok (.vldx .i32 1 2 3 ⟨false, false, 0⟩, 2) ∧
    decode [0xF885, 0x429C] = .ok (.vstx .i32 1 2 3 ⟨false, false, 0⟩, 2) ∧
    decode [0xF880, 0x429D] = .ok (.vldh 1 2 3, 2) ∧
    decode [0xF880, 0x429E] = .ok (.vsth 1 2 3, 2) := by
  and_intros <;> rfl

theorem test_decode_masks :
    decode [0xF880, 0x5298] = .ok (.kand 1 2 3, 2) ∧
    decode [0xF880, 0x5299] = .ok (.kor 1 2 3, 2) ∧
    decode [0xF880, 0x529A] = .ok (.kxor 1 2 3, 2) ∧
    decode [0xF880, 0x5283] = .ok (.knot 1 2, 2) ∧
    decode [0xF880, 0x529C] = .ok (.kmov 1 2 3, 2) ∧
    decode [0xF880, 0x5285] = .ok (.kpop 1 2, 2) := by
  and_intros <;> rfl

theorem test_decode_matrix :
    decode [0xF8C1, 0x0298] = .ok (.mma .bf16 1 2 3, 2) ∧
    decode [0xF8D3, 0x0299] = .ok (.mmai false false true 1 2 3, 2) ∧
    decode [0xF8C1, 0x0202] = .ok (.mzero .bf16 1, 2) ∧
    decode [0xF8E1, 0x0283] = .ok (.mload .bf16 true 1 2, 2) ∧
    decode [0xF8C1, 0x0284] = .ok (.mdrain .bf16 1 2, 2) ∧
    decode [0xF8C2, 0x029D] = .ok (.mdrq .i16 1 2 3, 2) ∧
    decode [0xF8CB, 0x029E] = .ok (.mrsum false true 1 2 3, 2) ∧
    decode [0xF8D7, 0x029F] = .ok (.mcsum true true 1 2 3, 2) ∧
    decode [0xF8C0, 0xF401, 0x0010] = .ok (.mgang 2, 3) ∧
    decode [0xF8C0, 0xF401, 0x0001] = .ok (.mfollow, 3) ∧
    decode [0xF8C0, 0xF401, 0x0082] = .ok (.munfollow 2, 3) ∧
    decode [0xF8C0, 0xF401, 0x0203] = .ok (.mwait 1, 3) := by
  and_intros <;> rfl

theorem test_decode_banks :
    decode [0xF8C0, 0xF000, 0x10A3] = .ok (.aalloc 2 3 1, 3) ∧
    decode [0xF8C0, 0xF000, 0x1223] = .ok (.afree 3 1, 3) ∧
    decode [0xF8C0, 0x1482] = .ok (.aquery 2 2, 2) ∧
    decode [0xF8C0, 0x1681] = .ok (.spill true 2, 2) ∧
    decode [0xF8C0, 0x1881] = .ok (.fill true 2, 2) := by
  and_intros <;> rfl

theorem test_decode_copy :
    decode [0xF900, 0x0080] = .ok (.cpush 2, 2) ∧
    decode [0xF900, 0x0281] = .ok (.cpushnb 1 2, 2) ∧
    decode [0xF900, 0x0202] = .ok (.cfree 1, 2) ∧
    decode [0xF900, 0x0003] = .ok (.cfence, 2) ∧
    decode [0xF900, 0x049C] = .ok (.cset 2 2 3, 2) ∧
    decode [0xF900, 0x028D] = .ok (.cget 1 2 true, 2) := by
  and_intros <;> rfl

theorem test_decode_exchange :
    decode [0xF940, 0x0CAB] = .ok (.xsend 6 2 43, 2) ∧
    decode [0xF940, 0x1CAB] = .ok (.xrecv 6 2 43, 2) ∧
    decode [0xF945, 0xFC10, 0x22AB] = .ok (.xrecva .i32 .add true 1 2 43, 3) ∧
    decode [0xF946, 0x34AB] = .ok (.xmc 2 6 2 43, 2) ∧
    decode [0xF940, 0x482B] = .ok (.xsel 4 43, 2) ∧
    decode [0xF940, 0x502B] = .ok (.xend 43, 2) := by
  and_intros <;> rfl

theorem test_decode_phases :
    decode [0xF940, 0x6080] = .ok (.sync 2, 2) ∧
    decode [0xF940, 0x6A81] = .ok (.lsync 5 2, 2) ∧
    decode [0xF940, 0x6A02] = .ok (.arrive 5, 2) ∧
    decode [0xF940, 0x6A03] = .ok (.await 5, 2) ∧
    decode [0xF940, 0x6A9C] = .ok (.dom 5 2 3, 2) ∧
    decode [0xF940, 0x6285] = .ok (.phaseQuery 1 2, 2) := by
  and_intros <;> rfl

theorem test_decode_reductions :
    decode [0xF945, 0xFCB4, 0x7298] = .ok (.redAdd .i32 true 1 2 3 5 4, 3) ∧
    decode [0xF94A, 0xFCA4, 0x7299] = .ok (.redMax .u32 false 1 2 3 5 4, 3) ∧
    decode [0xF945, 0xFCA4, 0x729A] = .ok (.redMin .i32 false 1 2 3 5 4, 3) ∧
    decode [0xF945, 0x729B] = .ok (.redAnd .i32 false 1 2 3 0 0, 2) ∧
    decode [0xF94A, 0x729C] = .ok (.redOr .u32 false 1 2 3 0 0, 2) ∧
    decode [0xF940, 0x702D] = .ok (.redBar 5, 2) := by
  and_intros <;> rfl

theorem test_decode_head :
    decode [0xF980, 0x0298] = .ok (.vpinit 1 2 3, 2) ∧
    decode [0xF980, 0x0299] = .ok (.vpfold 1 2 3, 2) ∧
    decode [0xF980, 0x0282] = .ok (.vpmerge 1 2, 2) ∧
    decode [0xF980, 0x0283] = .ok (.vpread 1 2, 2) ∧
    decode [0xF980, 0x029C] = .ok (.vpregen 1 2 3, 2) ∧
    decode [0xF980, 0x0085] = .ok (.vpspill 2, 2) ∧
    decode [0xF980, 0x0286] = .ok (.vplabel 1 2, 2) ∧
    decode [0xF980, 0x0207] = .ok (.vpstat 1, 2) := by
  and_intros <;> rfl

theorem test_decode_optics :
    decode [0xF9C0, 0x1280] = .ok (.lgrant 1 2, 2) ∧
    decode [0xF9C0, 0x1081] = .ok (.lrelease 2, 2) ∧
    decode [0xF9C0, 0x1282] = .ok (.lstat 1 2, 2) ∧
    decode [0xF9C0, 0x1283] = .ok (.lmargin 1 2, 2) ∧
    decode [0xF9C0, 0x129C] = .ok (.lmode 1 2 3, 2) := by
  and_intros <;> rfl

theorem test_decode_fabric :
    decode [0xF9C0, 0x2280] = .ok (.wreg 1 2, 2) ∧
    decode [0xF9C0, 0x2281] = .ok (.wdereg 1 2, 2) ∧
    decode [0xF9C0, 0x2282] = .ok (.wput 1 2, 2) ∧
    decode [0xF9C0, 0x2283] = .ok (.wget 1 2, 2) ∧
    decode [0xF9C0, 0x2284] = .ok (.wrtr 1 2, 2) ∧
    decode [0xF9C0, 0x229D] = .ok (.wcnt 1 2 3, 2) ∧
    decode [0xF9C0, 0x229E] = .ok (.wwait 1 2 3, 2) ∧
    decode [0xF9C0, 0x2287] = .ok (.tvget 1 2, 2) ∧
    decode [0xF9C0, 0xF401, 0x2280] = .ok (.tvstage 1 2, 3) ∧
    decode [0xF9C0, 0xF401, 0x2281] = .ok (.tvcommit 1 2, 3) ∧
    decode [0xF9C0, 0xF401, 0x2282] = .ok (.cstep 1 2, 3) ∧
    decode [0xF9C0, 0xF401, 0x2283] = .ok (.cstat 1 2, 3) ∧
    decode [0xF9C0, 0xF401, 0x229C] = .ok (.cresume 1 2 3, 3) ∧
    decode [0xF9C0, 0xF401, 0x229D] = .ok (.drain 1 2 3, 3) ∧
    decode [0xF9C0, 0xF401, 0x2286] = .ok (.lnkstat 1 2, 3) := by
  and_intros <;> rfl

/-! States and witnesses. -/

/-- The state after reset with this context in the core, which runs. -/
def core (c : Ctx) : State := { State.reset with c := { c with run := .running } }

/-- Scalar registers, all 0 but these. -/
def sregs (l : List (Reg × Word)) : Vector Word 32 := l.foldl (fun v p => v.set p.1 p.2) (Vector.replicate 32 0)

/-- Little-endian words from an address on. -/
def words (a : Nat) (ws : List Nat) : Memory := Memory.writeBytes [] a (ws.flatMap (leBytes 4))

/-- A core in S mode with words at 0x1000, registers 1 to 4 naming addresses near the edges of memory. -/
def memState : State := core
  { s := sregs [(1, 0x1000), (2, 0x9FFFC), (3, 1), (4, 0x50000000), (5, 0x80000800), (6, 0x70000000), (7, 0x90000000)]
    mem := words 0x1000 [0x80C0FF80, 0x12345678], acc := words 0x800 [0xFFFFFF85], accmap := 2, sbase := 0x90000 }

theorem witness_LoadsWriteLittleEndianBytes :
    DataAccess memState (memState.eaImm 1 0) 4 ∧
    DataAccess memState (memState.eaImm 2 0) 4 ∧
    DataAccess memState (memState.eaIndex 1 0 4) 4 ∧
    DataAccess memState (memState.eaIndex 1 3 2) 2 ∧
    DataAccess memState (memState.eaIndex 1 3 2) 2 ∧
    DataAccess memState (memState.eaIndex 1 0 1) 1 ∧
    DataAccess memState (memState.eaIndex 1 3 1) 1 ∧
    DataAccess memState (memState.eaIndex 4 0 4) 4 ∧
    BankAccess memState (memState.eaImm 5 0) 4 ∧
    BankAccess memState (memState.eaIndex 5 0 1) 1 := by
  and_intros <;> constructor <;> decide +kernel

theorem witness_StoresWriteOnlyTheirBytes :
    scalarAccess memState (.stW 3 2 0) = some (memState.eaImm 2 0, 4) ∧
    scalarStore (.stW 3 2 0) = some 3 ∧
    scalarAccess memState (.stH 3 1 3) = some (memState.eaIndex 1 3 2, 2) ∧
    scalarStore (.stH 3 1 3) = some 3 := by
  and_intros <;> decide +kernel

theorem witness_StoresWriteOnlyTheirBytes_2 :
    DataAccess memState (memState.eaImm 2 0) 4 ∧
    DataAccess memState (memState.eaIndex 1 3 2) 2 ∧
    BankAccess memState (memState.eaIndex 5 3 4) 4 := by
  and_intros <;> constructor <;> decide +kernel

/-- The same core in U mode. -/
def memUser : State := { memState with c := { memState.c with status := 0 } }

theorem witness_ScalarAccessTrapsAndWindow :
    scalarAccess memState (.ldW 8 6 0) = some (0x70000000, 4) ∧
    (memState.inExchange = false ∧ viewOf (0x70000000 : Word) = 7) ∧
    (memState.inExchange = false ∧ 0x9FFFF < offOf (memState.eaImm 2 1) + 4 - 1) ∧
    (memUser.inExchange = false ∧ memUser.svc = false ∧ viewOf (memUser.eaImm 7 0) = 9) ∧
    offOf (memState.eaIndex 3 0 2) % 2 ≠ 0 ∧
    (viewOf (memState.eaImm 5 512) = 8 ∧ memState.c.accmap.getLsbD (offOf (memState.eaImm 5 512) / 0x800) = false) ∧
    (memState.svc = true ∧ memState.eaImm 7 1 = BitVec.ofNat 32 (0x90000000 + 4 * (1 : Reg).val)) ∧
    memState.eaImm 7 0x242 = BitVec.ofNat 32 (0x90000900 + 8 * (1 : KReg).val) := by
  and_intros <;> decide +kernel

/-- A core whose tables hold something: a word in a handle, a parked bank, a barrier, a message. -/
def tables : State := core
  { s := sregs [(1, 0xA0000000), (2, 0xFEDCBA98)], h := (Vector.replicate 16 {}).set 3 { base := 0x11, size := 0x22 }
    parked := (Vector.replicate 64 {}).set 9 { v := true, bank := 7, slot := 11 }
    bar := (Vector.replicate 512 {}).set 7 { expa := 3, pena := 2, ph := true, src := 2, status := 0x300001F }
    mbox := (Vector.replicate 32 0).set 6 0x1122334455667788, mboxHead := 3, mboxCount := 6 }

/-- A core with an error in the word at 0x1000, and one with it in the banks. -/
def badWord : State := { memState with c := { memState.c with memErr := [0x200] } }

def badBank : State := { memState with c := { memState.c with accErr := [0x100] } }

theorem witness_ScalarAccessTrapsAndWindow_tables :
    (tables.svc = true ∧ tables.inExchange = false ∧ tables.eaImm 1 13 = BitVec.ofNat 32 (0xA0000000 + (16 * (3 : HReg).val + 4)) ∧ tables.handleBusy 3 = false) ∧
    tables.eaImm 1 73 = BitVec.ofNat 32 (0xA0000000 + (0x100 + 4 * (9 : Fin 64).val)) ∧
    (tables.eaImm 1 1052 = BitVec.ofNat 32 (0xA0000000 + (0x1000 + 16 * (7 : BarName).val)) ∧ (tables.barrier 7).src ≠ 3 ∧ (tables.barrier 7).status &&& 0x03FFFF3F = (tables.barrier 7).status) ∧
    (tables.eaImm 1 3085 = BitVec.ofNat 32 (0xA0000000 + (0x3004 + 8 * (6 : Fin 32).val)) ∧ tables.eaImm 1 3136 = BitVec.ofNat 32 (0xA0000000 + 0x3100)) ∧
    tables.eaImm 1 1023 = BitVec.ofNat 32 (0xA0000000 + 0xFFC) ∧
    (scalarAccess badWord (.ldW 8 1 0) = some (0x1000, 4) ∧ badWord.c.memErr = [0x200] ∧ viewOf (0x1000 : Word) ≤ 6 ∧ 8 * 0x200 < offOf (0x1000 : Word) + 4 ∧ offOf (0x1000 : Word) < 8 * 0x200 + 8) ∧
    (badBank.c.accErr = [0x100] ∧ viewOf (badBank.eaImm 5 0) = 8 ∧ badBank.c.accmap.getLsbD (offOf (badBank.eaImm 5 0) / 0x800) = true ∧ badBank.bankBusy (offOf (badBank.eaImm 5 0) / 0x800) = false) := by
  and_intros <;> decide +kernel

/-! Cases that the manual works out, one step each. -/

/-- The next state of an instruction has a property. -/
def after (i : Instr) (s : State) (p : State → Bool) : Bool := match exec i s with
  | .next t => p t
  | _ => false

/-- Two scalar registers. -/
def scalars (a b : Word) : State := core { s := sregs [(1, a), (2, b)] }
/-- R89: s1 = −7 and s2 = 2. -/
theorem test_division : after (.div 3 1 2) (scalars (-7) 2) (·.reg 3 == 0xFFFFFFFD) ∧
    after (.rem 3 1 2) (scalars (-7) 2) (·.reg 3 == 0xFFFFFFFF) ∧ after (.divu 3 1 2) (scalars (-7) 2) (·.reg 3 == 0x7FFFFFFC) ∧
    after (.remu 3 1 2) (scalars (-7) 2) (·.reg 3 == 1) := by decide +kernel
/-- R89: division by zero and the quotient that overflows. -/
theorem test_division_corners : after (.div 3 1 2) (scalars 5 0) (·.reg 3 == 0xFFFFFFFF) ∧
    after (.div 3 1 2) (scalars 0x80000000 0xFFFFFFFF) (·.reg 3 == 0x80000000) := by decide +kernel
/-- R89: a shift uses bits 4:0 of its amount; madd adds to the full product's low half; s0 discards (R16). -/
theorem test_shift_and_zero : after (.shl 3 1 2) (scalars 1 33) (·.reg 3 == 2) ∧ after (.add 0 1 2) (scalars 1 33) (·.reg 0 == 0) := by
  decide +kernel
/-- R99: the worked loop: its last two passes end with the count at 1, and at 0 with the pc on the word after the body. -/
def inLoop (n : Word) : State := core { pc := 0x104, status := 2, s := sregs [(5, n), (7, 3)]
                                        loopU := { act := true, start := 0x102, stop := 0x106, reg := 5 } }
theorem test_loop_pass : after (.addi 7 7 1) { inLoop 2 with ir := { len := 1 } } fun t => t.reg 5 == 1 && t.c.pc == 0x102 && t.reg 7 == 4 := by
  decide +kernel
theorem test_loop_end : after (.addi 7 7 1) { inLoop 1 with ir := { len := 1 } } fun t => t.reg 5 == 0 && t.c.pc == 0x106 := by
  decide +kernel

/-- A vector register with one 32-bit lane. -/
def lane0 (x : Nat) : State := core { status := 2, v := (Vector.replicate 32 0).set 1 (BitVec.ofNat 512 x) }
/-- Lane 0 of v2 and the flags after a conversion of lane 0 of v1. -/
def converts (td ts : ElemType) (sat : Bool) (x y flags : Nat) : Bool := after (.vcvt td ts sat 2 1) (lane0 x) fun t =>
  (t.vreg 2).toNat % 2 ^ td.width == y && t.c.fmode.toNat == flags
/-- R51: the worked conversions; NX is 0x80, UF 0x40, OF 0x20, NV 0x10 (R22). -/
theorem test_conversions : converts .bf16 .f32 false 0x3F808000 0x3F80 0x80 ∧ converts .bf16 .f32 false 0x3F818000 0x3F82 0x80 ∧
    converts .f16 .f32 false 0x477FF000 0x7C00 0xA0 ∧ converts .e4m3 .f32 false 0x43960000 0x79 0x80 ∧
    converts .e4m3 .f32 false 0x43EB0000 0x7F 0xA0 ∧ converts .e4m3 .f32 true 0x43EB0000 0x7E 0xA0 ∧
    converts .e4m3 .f32 false 0x3BA3D70A 0x03 0xC0 ∧ converts .e5m2 .f32 false 0x476A6000 0x7B 0x80 ∧
    converts .e5m2 .f32 false 0x47723000 0x7C 0xA0 ∧ converts .e5m2 .f32 true 0x47723000 0x7B 0xA0 := by decide +kernel
theorem test_conversions_integer : converts .i8 .f32 false 0xC0600000 0xFC 0x80 ∧ converts .i8 .f32 false 0x40200000 2 0x80 ∧
    converts .i8 .f32 false 0x4396599A 127 0x10 ∧ converts .i8 .i32 false 300 0x2C 0 ∧ converts .i8 .i32 true 300 127 0 := by
  decide +kernel
/-- R59: exp_k(1.0) is near 2.71828 (0x402DF8xx), and exp_k(0) is 1.0 without a flag. -/
theorem test_exponential : after (.vexp .f32 2 1 plain) (lane0 0x3F800000)
      (fun t => (t.vreg 2).toNat % 2 ^ 32 / 256 == 0x402DF8 && t.c.fmode == 0x80) ∧
    (match exec (.vexp .f32 2 1 plain) (lane0 0) with
      | .next t => (t.vreg 2).toNat % 2 ^ 32 == 0x3F800000 && t.c.fmode == 0
      | _ => false) = true := by decide +kernel
/-- R164: the worked reductions: the order of their contributions, and what they leave. -/
def three (sat : Bool) (a b c : Int) : List RedContrib := [a, b, c].map fun x =>
  { lcore := 0, op := .add, type := .i32, sat := sat, n := 1, lanes := [BitVec.ofInt 32 x] }
theorem test_reductions : reduceAll (three false 2147483647 1 (-2)) = ([2147483646], 0) ∧
    reduceAll (three true 2000000000 2000000000 (-1500000000)) = ([2147483647], 1) ∧
    reduceAll (three false 2000000000 2000000000 (-1500000000)) = ([BitVec.ofInt 32 (-1794967296)], 0) := by decide +kernel
/-- R332: the worked ring window: LEN 256, tail 224, head word 64; a put of 64 bytes is split, the next one refused. -/
def ringWindow (tail : Word) : State := { core { mem := words 0x3000 [64] } with
  chip := { ({} : Chip) with windows := [{ win := 5, kind := 1, loc := true, base := 0x2000, len := 256, headw := 0x3000, tail := tail }] }
  input := { packet := { tv := some 0, win := 5, len := 64, data := (List.range 64).map (BitVec.ofNat 8 ·), op := 7 } } }
def answerTo7 (t : State) : List (Nat × Nat) := t.out.filterMap fun o => match o with
  | .frame _ _ (.packet k) => if k.cls == .ack && k.op == 7 then some (k.status, k.len) else none
  | _ => none
theorem test_ring_put : after .putArrive (ringWindow 224) fun t => t.c.mem.readBytes 0x20E0 32 == (List.range 32).map (BitVec.ofNat 8 ·) &&
    t.c.mem.readBytes 0x2000 32 == (List.range 32).map (fun i => BitVec.ofNat 8 (i + 32)) &&
    (t.window 5).map (fun w => (w.tail, w.tgt)) == some (288, 1) && answerTo7 t == [(0, 64)] := by decide +kernel
theorem test_ring_full : after .putArrive (ringWindow 288) fun t => t.c.mem == (ringWindow 288).c.mem &&
    (t.window 5).map (fun w => (w.tail, w.tgt)) == some (288, 0) && answerTo7 t == [(9, 0)] := by decide +kernel
/-- R295, R296: the worked bound: a fan-out of 8, a worst loss of 7.8 dB; 54 GU fail PAM4 by a tenth, 55 reach it. -/
theorem test_optical_bound : power 54 = 113 ∧ power 55 = 114 ∧ split 8 = 96 ∧
    modeFor (power 54 - split 8 - 78) 10 1 = none ∧ modeFor (power 55 - split 8 - 78) 10 1 = some 1 := by decide +kernel
theorem test_optical_split : (List.range 16).map (fun k => split (k + 1)) =
    [0, 32, 52, 64, 76, 84, 91, 96, 103, 108, 112, 116, 119, 123, 126, 128] := by decide +kernel
/-- R49: the worked conversion to E2M1: codes, their bytes, scale byte, flag. -/
theorem test_block_conversion :
    let x := b4Convert ([0x3E99999A, 0xBF99999A, 0x40200000, 0, 0x3D4CCCCD, 0x40A00000, 0xC0466666, 0x3F800000].map fp32.decode) .e2m1
    x.1 = [1, 0xA, 4, 0, 0, 6, 0xD, 2] ∧ b4Bytes x.1 = [0xA1, 0x04, 0x60, 0x2D] ∧ x.2.1 = 0x5F ∧ x.2.2 &&& flagNX ≠ 0 := by decide +kernel
/-- R270: the worked fold: logits 1.0, 3.0, NaN and 3.0, two pairs. -/
theorem test_fold : let r := foldRow { cap := 2 } [0x3F800000, 0x40400000, 0x7FC00000, 0x40400000] 0 {}
    r.1.m = 0x40400000 ∧ r.1.s / 256 = 0x4008A9 ∧ r.1.heap = [(0x40400000, 1), (0x40400000, 3)] ∧ r.2 = hdNAN := by decide +kernel
/-- R276: lse of that fold is near 3.758622 (0x40708Dxx). -/
theorem test_lse : add32 0x40400000 (lnK 0x4008A955) / 256 = 0x40708D := by decide +kernel
/-- R277: the worked elements. -/
theorem test_gradient : regenElem 0x42800000 0x428162E4 false = (0x3F00, 0) ∧ regenElem 0x42000000 0x428162E4 true = (0xBF80, 0) ∧
    regenElem 0xC2000000 0x428162E4 false = (0, 0) := by decide +kernel
/-- R235, R355: the substitution of FIPS 197 at its example, a column of its mixing, and constants of FIPS 202. -/
theorem test_ciphers : Aes.sub 0x53 = 0xED ∧ Aes.unsub 0xED = 0x53 ∧
    (Aes.mix [2, 3, 1, 1] [0xDB, 0x13, 0x53, 0x45]).take 4 = [0x8E, 0x4D, 0xA1, 0xBC] ∧
    Shake.constant 1 = 0x8082 ∧ Shake.constant 23 = 0x8000000080008008 ∧ Shake.turn 2 2 = 43 := by decide +kernel

/-! The first step after reset runs the word stored where the core fetches. -/

/-- `addi s1, s1, 1` (0x1241) is read, is what step runs, and leaves its result and the pc behind it. -/
theorem test_first_step : decodeTableWord 16 0x1241 = some (.addi 1 1 1) ∧
    (match step (State.reset.withFetchWord 16 0x1241) with
      | .next t => t.reg 1 == 1 && t.c.pc == State.reset.c.pc + 2
      | _ => false) = true := by decide +kernel

/-! Witnesses: hypotheses that a state and operands meet. -/

theorem witness_DecodeInvertsEncode :
    (Instr.madd 31 30 29 28).wf = true ∧ (Instr.addi 31 0 0x1FFFFF).wf = true ∧ (Instr.xend 4096).wf = true := by decide

/-- A core in S mode whose next words are a store of a byte to an address in use. -/
def storing : State := ({ core { pc := 0x200, status := 3, s := sregs [(4, 0x1000), (2, 7)], mem := [(0x1000, 9)] } with
  sh := { mem := [(1, 2)] } } : State).withFetchWord 16 0xB51D
theorem witness_StepKeepsMemoriesCanonical : storing.Inv ∧ ∃ t, step storing = .next t ∧ t.c.mem.read 0x1000 = 7 :=
  ⟨⟨⟨by decide +kernel, by decide +kernel⟩, ⟨by decide +kernel, by decide +kernel⟩, fun _ h => (nomatch h), fun _ h => (nomatch h), by decide +kernel,
    fun _ h => (nomatch h), fun _ h => (nomatch h)⟩, _, rfl, by decide +kernel⟩

/-- The same core in U mode. -/
def userCore : State := { storing with c := { storing.c with status := 2 } }
theorem witness_UserModeKeepsServiceState : (Instr.stB 2 4 3).wf = true ∧ userCore.svc = false ∧
    ∃ t, exec (.stB 2 4 3) userCore = .next t := ⟨by decide, by decide, _, rfl⟩
theorem witness_UserModeKeepsServiceState_trap : (Instr.eret).wf = true ∧ userCore.svc = false ∧
    ∃ t, exec .eret userCore = .next t ∧ t.svc = true := ⟨by decide, by decide, _, rfl, by decide +kernel⟩

/-- A core at 0x200 in a compute phase, with a positive, a negative and an odd register. -/
def ctl : State := core { pc := 0x200, s := sregs [(1, 5), (2, 0xFFFFFFFF), (3, 0x301), (4, 0x400)], status := 2 }

/-- The same under follow mode. -/
def ctlFollow : State := { ctl with c := { ctl.c with status := 0x402 } }

theorem witness_TransfersOfControl :
    branchTaken (ctl.reg 1).toInt 1 (-4) (.bz 1 (-4)) = some false ∧
    (branchTaken (ctl.reg 0).toInt 0 (-4) (.bz 0 (-4)) = some true ∧ ctl.follower = false ∧ (BitVec.ofInt 32 (ctl.basePc.toNat + 2 * (-4 : BitVec 26).toInt)).toNat % 2 = 0) ∧
    branchTaken (ctl.reg 2).toInt 2 8 (.bltz 2 8) = some true ∧
    branchTaken (ctl.reg 1).toInt 1 8 (.bnz 1 8) = some true ∧
    branchTaken (ctl.reg 0).toInt 0 8 (.bgez 0 8) = some true ∧
    branchTaken (ctl.reg 0).toInt 0 8 (.bgtz 0 8) = some false ∧
    branchTaken (ctl.reg 0).toInt 0 8 (.blez 0 8) = some true ∧
    (branchTaken (core { pc := 0x201 } |>.reg 0).toInt 0 8 (.bz 0 8) = some true ∧ (BitVec.ofInt 32 ((core { pc := 0x201 }).basePc.toNat + 16)).toNat % 2 = 1 ∧ (core { pc := 0x201 }).inExchange = false) ∧
    ctlFollow.follower = true ∧
    (ctl.follower = false ∧ (ctl.reg 4).toNat % 2 = 0) ∧
    (ctl.follower = false ∧ ctl.inExchange = false ∧ (ctl.reg 3).toNat % 2 = 1) := by
  and_intros <;> decide +kernel

/-- A core in U mode at the last word of a loop that counts in s5. -/
def looping (n : Word) : State := core
  { pc := 0x20E, status := 2, s := sregs [(5, n)], loopU := { act := true, start := 0x200, stop := 0x210, reg := 5 } }

theorem witness_TransfersOfControl_loop :
    ((looping 2).follower = false ∧ (looping 2).loop.act = true ∧ (looping 2).seqPc = (looping 2).loop.stop ∧ (looping 2).reg (looping 2).loop.reg ≠ 1 ∧ (looping 2).loop.reg ≠ 0) ∧
    ((looping 1).seqPc = (looping 1).loop.stop ∧ (looping 1).reg (looping 1).loop.reg = 1) ∧
    ¬((looping 1).jumpTo 0x300).seqPc = (looping 1).loop.stop ∧
    (memState.svc = true ∧ (looping 1).svc = false) ∧
    ((looping 1).follower = false ∧ (looping 1).inExchange = false ∧ (looping 1).loop.act = true) ∧
    ctlFollow.follower = true ∧
    (ctl.follower = false ∧ ctl.inExchange = false ∧ ctl.loop.act = false ∧ (1 : BitVec 26).toNat < 2) ∧
    (2 ≤ (2 : BitVec 26).toNat ∧ ctl.reg 0 = 0) ∧
    (2 ≤ (8 : BitVec 26).toNat ∧ ctl.reg 1 ≠ 0) := by
  and_intros <;> decide +kernel

theorem witness_TrapEntrySavesAndVectors : ctl.c.status.getLsbD 1 = true ∧ ctl.inExchange = false := by decide +kernel

theorem witness_DoubleTrapStopsTheCore : (core {}).c.status.getLsbD 1 = false := by decide +kernel

/-- A handler in S mode, returning to U mode at an even or odd address. -/
def handler (epc : Word) : State := core { status := 0xB, epc := epc, loopU := { act := true, start := 0x100, stop := 0x110, reg := 1 } }

theorem witness_EretRestoresModeAndPc :
    (ctl.inExchange = false ∧ ctl.svc = false) ∧
    ((handler 0x103).svc = true ∧ (handler 0x103).c.epc.toNat % 2 = 1 ∧ (handler 0x103).inExchange = false) ∧
    ((handler 0x110).svc = true ∧ (handler 0x110).c.epc.toNat % 2 = 0 ∧ (handler 0x110).inExchange = false) := by
  and_intros <;> decide +kernel

/-- A core in an exchange phase of segment 0, 100 cycles long, released at cycle 40 of the partition. -/
def exchanging (slots : List Slot) : State := { core
  { pc := 0x200, phase := 1, status := 3, s := sregs [(1, 0x1000), (2, 5)]
    exch := some { xr := 40, seg := { len := 100, slots := slots } } } with xc := 45 }

/-- A mode of service and one of use in it. -/
def exchangingUser : State := { exchanging [] with c := { (exchanging []).c with status := 2 } }

theorem witness_TrapsByPhaseModeAndFetch :
    ((exchanging []).inExchange = true ∧ Cause.align ≠ .slot ∧ Cause.align ≠ .late ∧ (exchanging []).c.xerr &&& 0x70000 = 0) ∧
    ({ exchanging [] with c := { (exchanging []).c with xerr := 0x10000 } } : State).c.xerr &&& 0x70000 ≠ 0 ∧
    (computeOnly (.aquery 1 0) = true ∧ (exchanging []).inExchange = true) ∧
    (serviceOnly .eret = true ∧ (exchanging []).svc = true) ∧
    (exchangeOnly (.xend 5) = true ∧ ctl.inExchange = false) ∧
    (serviceOnly (.snap 1) = true ∧ ctl.svc = false ∧ ctl.inExchange = false) ∧
    Cause.view ≠ Cause.eccUncorr ∧
    (exchangingUser.inExchange = true ∧ exchangingUser.svc = false) := by
  and_intros <;> decide +kernel

theorem witness_StepRunsTheDecodedInstruction : let s := core { pc := 0x200, mem := words 0x200 [0x0298], tvec := 0x40 }; s.agenda = [] ∧ ({ s with input := {} } : State).due = none ∧ s.chip.resuming = false ∧ s.c.run = .running ∧ s.c.fetchStop = false ∧ s.p.swapDue = false ∧ s.inTransit = false ∧ s.c.stall = false ∧ s.follower = false ∧ s.c.stale = [] ∧ s.c.memErr = [] ∧ viewOf s.c.pc = 0 ∧ offOf s.c.pc + 2 * [(0x0298 : Half)].length ≤ 0xA0000 ∧ (∀ k, k < 1 → [(0x0298 : Half)][k]? = some (BitVec.ofNat 16 (littleEndian s.c.mem (offOf s.c.pc + 2 * k) 2))) ∧ decode [0x0298] = .ok (.add 1 2 3, 1) := by exact ⟨rfl, rfl, rfl, rfl, rfl, rfl, rfl, rfl, rfl, rfl, rfl, rfl, by decide, by decide, rfl⟩

theorem witness_StepRunsTheDecodedInstruction_2 : let s := core { stall := true, issue := some (.wmsg 1, {}) }; s.agenda = [] ∧ ({ s with input := {} } : State).due = none ∧ s.chip.resuming = false ∧ s.inTransit = false ∧ s.c.issue = some (.wmsg 1, {}) := by exact ⟨rfl, rfl, rfl, rfl, rfl⟩

theorem witness_StepRunsTheDecodedInstruction_3 : let s : State := { core { status := 0x402 } with stream := [(0x300, [0x0298])] }; s.agenda = [] ∧ ({ s with input := {} } : State).due = none ∧ s.chip.resuming = false ∧ s.inTransit = false ∧ s.follower = true ∧ s.c.stall = false := by exact ⟨rfl, rfl, rfl, rfl, rfl, rfl⟩

theorem witness_StepRunsTheDecodedInstruction_4 : let s : State := { core {} with agenda := [some { step := .serviceInboxTake, input := {} }] }; s.agenda = [some { step := .serviceInboxTake, input := {} }] ∧ s.retries = false ∧ s.chip.boot.power = true ∧ s.chip.boot.resetN = true ∧ s.chip.boot.faultN = true ∧ isStep { step := .serviceInboxTake, input := {} } = true ∧ isStep { step := .tvget 0 0, input := {} } = false := by exact ⟨rfl, rfl, rfl, rfl, rfl, rfl, rfl⟩

theorem witness_StepRunsTheDecodedInstruction_5 : let s0 := core {}; let s : State := { s0 with agenda := [some { step := .scrubPass, input := {} }, none], chip := { s0.chip with soft := [5], boot := { s0.chip.boot with faultN := false } } }; s.retries = false ∧ s.chip.boot.faultN = false ∧ Instr.scrubPass ∉ [Instr.powerGood, .resetRelease, .resetNAssert, .railFault, .thermalTrip] := by exact ⟨rfl, rfl, by decide⟩

theorem witness_StepRunsTheDecodedInstruction_6 : let s : State := { core {} with agenda := [none] }; s.agenda = [none] ∧ s.retries = false := by exact ⟨rfl, rfl⟩

theorem witness_StepRunsTheDecodedInstruction_7 : let s : State := { core { stall := true, issue := some (.wmsg 1, {}) } with turn := true }; s.retries = true := by rfl

theorem witness_StepRunsTheDecodedInstruction_8 : let s : State := { core { stall := true, issue := some (.sync 1, {}) } with turn := true, boundary := true, agenda := [some { step := .thermalMigration, input := {} }] }; s.retries = true ∧ s.boundary = true ∧ s.agenda.head? = some (some { step := .thermalMigration, input := {} }) := by exact ⟨rfl, rfl, rfl⟩

theorem witness_StepRunsTheDecodedInstruction_9 : let s : State := { core { stall := true, issue := some (.wmsg 1, {}) } with turn := true }; s.retries = true ∧ s.agenda.head? = none := by exact ⟨rfl, rfl⟩

theorem witness_ControlRegisterAccess :
    (ctl.inExchange = false ∧ ctl.svc = false) ∧
    (memState.svc = true ∧ memState.inExchange = false) ∧
    (Csr.fmode ∉ [Csr.core, .tile, .phase, .lphase, .cyc, .cych, .xcyc, .snapseq] ∧ Csr.fmode ∈ [Csr.fmode, .sbase, .vpcfg, .ecfg]) ∧
    Csr.cyc ∈ [Csr.core, .tile, .phase, .lphase, .cyc, .cych, .xcyc, .snapseq] ∧
    (Csr.tvec ∉ [Csr.fmode, .sbase, .vpcfg, .ecfg] ∧ Csr.tvec ∉ [Csr.core, .tile, .phase, .lphase, .cyc, .cych, .xcyc, .snapseq]) := by
  and_intros <;> decide +kernel

theorem witness_ControlRegisterWriteMasks :
    Csr.lbudget ∉ [Csr.core, .tile, .phase, .lphase, .cyc, .cych, .xcyc, .snapseq] ∧
    Csr.status ∉ [Csr.lbudget, .thot, .tmig] := by
  and_intros <;> decide +kernel

/-- An image of one core and no segment, at 0x1000 in the local memory of a core in S mode. -/
def sys (c : Ctx) : State := core { c with pc := 0x200, status := 3, s := sregs [(1, 0x1000), (2, 5)] }

theorem witness_HaltFenceEventAndImage :
    ((sys {}).inExchange = false ∧ (sys {}).c.accmap = 0 ∧ (sys {}).c.mx = [] ∧ (sys {}).c.head = [] ∧ (sys {}).c.copy = []) ∧
    (sys { accmap := 1 }).c.accmap ≠ 0 ∧
    (sys {}).t.evq.length < 16 ∧
    16 ≤ ({ sys {} with t := { (sys {}).t with evq := List.replicate 16 {} } } : State).t.evq.length ∧
    ((sys { pend := .snap (some 7) }).svc = true ∧ (sys { pend := .snap (some 7) }).c.pend = .snap (some 7)) ∧
    ((sys {}).svc = true ∧ (sys {}).c.pend = .none) ∧
    (viewOf ((sys {}).reg 1) = 0 ∧ offOf ((sys {}).reg 1) + 64 ≤ 0xA0000 ∧ ((sys {}).reg 1).toNat % 64 = 0 ∧ ((sys {}).imageStatus (Memory.readBytes [] 0x1000 64) 0x9F000 1).1 ≠ 0) := by
  and_intros <;> decide +kernel

theorem witness_HaltFenceEventAndImage_2 : (sys { held := [1] }).c.accmap = 0 ∧ ¬∀ m ∈ (sys { held := [1] }).c.held, m.toNat % 16 ≠ 1 := by exact ⟨rfl, fun h => h 1 (by decide) (by decide)⟩

theorem witness_HaltFenceEventAndImage_3 : ∀ m ∈ (sys {}).c.held, m.toNat % 16 ≠ 1 := by exact fun m h => absurd h List.not_mem_nil

/-- An image for one core: segment 0 of 100 exchange cycles with a send by core 0 at offset 8. -/
def imageWords : List Nat := [0x43415256, 0x00010101, 64, 80, 88, 88, 88, 0, 0, 0, 0, 0, 0, 0, 0, 0, 100 * 65536, 65536, 0, 0, 0x00080000, 2]

theorem witness_HaltFenceEventAndImage_installs : let s := sys { mem := words 0x1000 imageWords }; (s.imageStatus (s.c.mem.readBytes 0x1000 88) 0x9F000 s.c.ncore.toNat).1 = 0 ∧ imgLen (s.c.mem.readBytes 0x1000 64) = 88 := by decide +kernel

/-- An image for one core with one segment of n exchange cycles and no entries, and its header with one word changed. -/
def plainImage (n : Nat) : List Nat := [0x43415256, 0x00010101, 64, 80, 80, 80, 80, 0, 0, 0, 0, 0, 0, 0, 0, 0, n * 65536, 0, 0, 0]

def loads (ws : List Nat) : State := sys { mem := words 0x1000 ws }

def badImage : State := sys { mem := words 0x1000 (plainImage 9), memErr := [0x203] }

def waitingImage : State := { loads (plainImage 9) with p := { (loads []).p with locals := [{ seg := { len := 10 } }] } }

theorem witness_HaltFenceEventAndImage_statuses : RawBlock (loads (plainImage 9)) ((loads []).reg 1) 64 64 := by constructor <;> decide +kernel

theorem witness_HaltFenceEventAndImage_statuses_2 :
    ((let s := loads (plainImage 9); s.svc = true ∧ s.inExchange = false ∧ s.c.memErr = [] ∧ s.localRuns = [] ∧ littleEndian s.c.mem 0x1004 4 / 2 ^ 8 % 2 ^ 8 = 1 ∧ littleEndian s.c.mem 0x1004 4 / 2 ^ 16 = s.c.ncore.toNat ∧ 64 + 16 ≤ littleEndian s.c.mem 0x1018 4)) ∧
    (littleEndian (loads [2]).c.mem 0x1000 4 ≠ 0x43415256 ∧ 4096 < 5000) ∧
    (badImage.c.memErr = [0x203] ∧ 8 * 0x203 < offOf (badImage.reg 1) + 64 ∧ offOf (badImage.reg 1) < 8 * 0x203 + 8) ∧
    (waitingImage.localRuns ≠ [] ∧ waitingImage.c.memErr = []) := by
  and_intros <;> decide +kernel

/-- A ring of four slots of 2,048 bytes at 0x2000 with two filled: the oldest is slot 3. -/
def ring4 : Handle := { base := 0x2000, size := 2048, count := 4, head := 3, tail := 5 }

theorem ring4_fields : HandleFields ring4 := ⟨by decide, by decide, by decide, by decide, by decide, ⟨2, by decide⟩, by decide, by decide⟩

/-- The ring in h1, its descriptor at 0x1000, a bad one at 0x1010, and counts 0 to 5 in s3 to s8. -/
def rings (c : Ctx) : State := core { c with
  status := 2, pc := 0x200, h := (Vector.replicate 16 {}).set 1 ring4, mem := words 0x1000 [0x2000, 2048, 4, 0x50003, 0x2000, 2048, 3, 0]
  s := sregs [(1, 0x1000), (2, 0x1010), (3, 0), (4, 1), (5, 2), (6, 3), (7, 4), (8, 5)] }

theorem not_power : ∀ k, k ≤ 12 → ¬(descriptorAt (words 0x1000 [0x2000, 2048, 4, 0x50003, 0x2000, 2048, 3, 0]) 0x1010).count.toNat = 2 ^ k := by decide

/-- A load into the ring of h1 on its way. -/
def loading : State := rings { copy := [{ w0 := 0x10000020, w3 := 0x200000 }] }

theorem witness_HandleInstructions :
    RawBlock (rings {}) ((rings {}).reg 1) 16 16 ∧
    RawBlock (rings {}) ((rings {}).reg 2) 16 16 := by
  and_intros <;> constructor <;> decide +kernel

theorem witness_HandleInstructions_2 :
    (rings {}).handleBusy 1 = false ∧
    (loading.handleBusy 1 = true ∧ loading.inExchange = false) ∧
    ((rings {}).handle 0).count = 0 ∧
    ((rings {}).handle 1).count.toNat < ((rings {}).reg 8).toNat ∧
    (((rings {}).reg 5).toNat ≤ 2 ∧ (rings {}).inExchange = false) ∧
    (2 < ((rings {}).reg 6).toNat ∧ (rings {}).c.copy = [] ∧ (rings {}).c.mx = []) := by
  and_intros <;> decide +kernel

theorem witness_HandleInstructions_3 : descriptorAt (rings {}).c.mem 0x1000 = ring4 ∧ HandleFields ring4 := by exact ⟨by decide, ring4_fields⟩

theorem witness_HandleInstructions_4 : ¬HandleFields (descriptorAt (rings {}).c.mem 0x1010) := by exact fun ⟨_, _, _, _, _, ⟨k, hk, h⟩, _⟩ => not_power k hk h

theorem witness_HandleInstructions_5 : ∃ q ∈ loading.c.copy, q.hv = true ∧ q.hreg = 1 ∧ (q.kind = 0 ∨ q.kind = 2 ∨ q.kind = 4) := by exact ⟨_, List.mem_singleton.2 rfl, by decide⟩

theorem witness_HandleInstructions_6 : ∃ q ∈ (rings { mx := [{ op := .mma .f32 0 1 1, popA := some 1 }] }).c.mx, q.popA = some (1 : HReg) ∨ q.popB = some 1 := by exact ⟨_, List.mem_singleton.2 rfl, by decide⟩

/-- Barriers 1 (two arrivals expected, one in), 2 (one arrival in, 64 bytes lacking) and 3 (phase 1); messages and monitors as given. -/
def waits (c : Ctx) : State := core { c with
  pc := 0x200, status := 2, s := sregs [(1, 1), (2, 3), (3, 0x1000), (4, 0x90000000), (5, 0x103), (6, 0x1234)]
  bar := (((Vector.replicate 512 {}).set 1 { expa := 2, pena := 1 }).set 2 { expa := 1, pena := 1, expb := 64 }).set 3 { ph := true } }

/-- A message in the mailbox. -/
def oneMessage : State := waits { mbox := (Vector.replicate 32 0).set 31 0x500000001, mboxHead := 31, mboxCount := 1 }

/-- Monitor 0 armed and fired on the line at 0x1000, or not fired. -/
def monitor (fired : Bool) : State := waits { mon := (Vector.replicate 8 {}).set 0 { armed := true, fired := fired, line := 0x1000 } }

/-- Eight monitors armed on another line. -/
def monitorsFull : State := waits { mon := Vector.replicate 8 { armed := true, line := 0x2000 } }

theorem witness_BarrierMailboxAndMonitorInstructions :
    ((waits {}).inExchange = false ∧ ((waits {}).reg 1).toNat % 4 ≠ 3) ∧
    ((waits {}).reg 2).toNat % 4 = 3 ∧
    ((waits {}).barrier 1).pena.toNat < ((waits {}).barrier 1).expa.toNat ∧
    ((waits {}).barrier 2).expa.toNat ≤ ((waits {}).barrier 2).pena.toNat ∧
    ((waits {}).barrier 3).ph ≠ ((waits {}).reg 0).getLsbD 0 ∧
    (((waits {}).barrier 3).ph = ((waits {}).reg 1).getLsbD 0 ∧ ((waits {}).barrier 3).pena ≠ ((waits {}).barrier 3).expa ∧ (waits {}).barrierAble 3 = false) ∧
    ((waits { copy := [{ w0 := 0x1C0 }] }).barrierAble 3 = true ∧ ((waits { copy := [{ w0 := 0x1C0 }] }).barrier 3).ph = ((waits { copy := [{ w0 := 0x1C0 }] }).reg 1).getLsbD 0) ∧
    ((waits {}).reg 5 ≠ 0 ∧ (waits {}).reg 0 = 0) ∧
    (waits {}).c.mboxCount.toNat = 0 ∧
    (oneMessage.c.mboxCount.toNat ≠ 0 ∧ oneMessage.inExchange = false) ∧
    (waits {}).t.inbox.length < 64 ∧
    64 ≤ ({ waits {} with t := { (waits {}).t with inbox := List.replicate 64 (.user 0 0) } } : State).t.inbox.length ∧
    ((waits {}).c.held = [] ∧ (waits {}).inTransit = false ∧ (waits {}).c.mboxCount.toNat < 32) ∧
    (let s := waits { mboxCount := 32 }; s.c.held = [] ∧ 32 ≤ s.c.mboxCount.toNat) ∧
    (8 ≤ viewOf ((waits {}).reg 4) ∧ viewOf ((waits {}).reg 4) ≤ 10) ∧
    (viewOf ((waits {}).reg 3) ≤ 6 ∧ offOf ((waits {}).reg 3) ≤ 0x9FFFF ∧ (∀ i : Fin 8, (waits {}).c.mon[i].armed = false)) ∧
    ((monitor true).c.mon[(0 : Fin 8)].armed = true ∧ (monitor true).c.mon[(0 : Fin 8)].line = 0x1000 ∧ (monitor true).c.mon[(0 : Fin 8)].fired = true) ∧
    (monitor false).c.mon[(0 : Fin 8)].fired = false ∧
    (∀ i : Fin 8, monitorsFull.c.mon[i].armed = true ∧ monitorsFull.c.mon[i].line ≠ 0x1000) := by
  and_intros <;> decide +kernel

/-- A core with ramps in v1 and v2, a mask in k1, and addresses in s1 to s4. -/
def vecs (c : Ctx) : State := core { c with
  pc := 0x200, status := 2, s := sregs [(1, 0x2000), (2, 0x30000000), (3, 0x60001FC0), (4, 0x50001000), (5, 1), (6, 0x400)]
  v := ((Vector.replicate 32 0).set 1 (BitVec.ofNat 512 (leNat ((List.range 64).map fun i => BitVec.ofNat 8 (37 * i + 200))))).set 2 (BitVec.ofNat 512 (leNat ((List.range 64).map fun i => BitVec.ofNat 8 (4 * i))))
  k := (Vector.replicate 8 0).set 1 0x0F0F0F0F0F0F0F0F
  h := (Vector.replicate 16 {}).set 1 ring4
  sbase := 0x8000 }

theorem witness_VectorLanesUnderMask : (∃ f, laneResult (vecs {}) (.vadd .i8 3 1 2 ⟨true, true, 1⟩) = some (.i8, 3, ⟨true, true, 1⟩, f)) ∧ (vecs {}).inExchange = false := by exact ⟨⟨_, rfl⟩, by decide⟩

theorem witness_IntegerLaneArithmetic :
    (ElemType.i8.isI = true ∧ 255 < 2 ^ ElemType.i8.width ∧ ElemType.u32.isI = true ∧ 2 ^ 32 - 1 < 2 ^ ElemType.u32.width) ∧
    (ElemType.i8.isS = true ∧ ElemType.u32.isS = false) := by
  and_intros <;> decide +kernel

theorem witness_CompareMaskAndReduceResults : (vecs {}).inExchange = false := by decide +kernel

theorem witness_CompareMaskAndReduceResults_tree : [1, 2, 3, 4].length = 2 ^ (1 + 1) := by decide +kernel

theorem lane_zero (k : Nat) : laneAt .i32 ((vecs {}).vreg 0) k = 0 := by
  have h : ((vecs {}).vreg 0).toNat = 0 := by decide +kernel
  unfold laneAt bitsOf
  rw [h, Nat.zero_div, Nat.zero_mod]

/-- The ring of h1 empty or full. -/
def vecRing (tail : Half) : State := vecs { h := Vector.replicate 16 {} } |>.setHandle 1 { ring4 with tail := tail }

theorem witness_VectorLoadsAndStores :
    DataAccess (vecs {}) ((vecs {}).eaVector 1 (-1)) 64 ∧
    DataAccess (vecs {}) ((vecs {}).eaVector 3 0) 64 ∧
    DataAccess (vecs {}) ((vecs {}).reg 1) ElemType.i16.bytes := by
  and_intros <;> constructor <;> decide +kernel

theorem witness_VectorLoadsAndStores_2 : HandleFields ((vecs {}).handle 1) ∧ ((vecs {}).reg 5).toNat * 64 < ((vecs {}).handle 1).size.toNat ∧ DataAccess (vecs {}) 0x3840 64 ∧ DataAccess (vecs {}) 0x2840 64 := by exact ⟨ring4_fields, by decide, by constructor <;> decide, by constructor <;> decide⟩

theorem witness_VectorLoadsAndStores_3 : DataAccess (vecRing 3) 0x3840 64 ∧ DataAccess (vecRing 7) 0x3840 64 ∧ HandleFields ((vecRing 3).handle 1) ∧ (vecRing 3).inExchange = false := by exact ⟨by constructor <;> decide, by constructor <;> decide, ⟨by decide, by decide, by decide, by decide, by decide, ⟨2, by decide⟩, by decide, by decide⟩, by decide⟩

theorem witness_VectorLoadsAndStores_4 : HandleFields ((vecRing 7).handle 1) := by exact ⟨by decide, by decide, by decide, by decide, by decide, ⟨2, by decide⟩, by decide, by decide⟩

theorem witness_VectorLoadsAndStores_5 : ∀ k, k < ElemType.i32.lanes → DataAccess (vecs {}) (BitVec.ofNat 32 (((vecs {}).reg 1).toNat + laneAt .i32 ((vecs {}).vreg 0) k * ElemType.i32.bytes)) ElemType.i32.bytes := by exact fun k _ => (lane_zero k).symm ▸ (by constructor <;> decide)

theorem witness_ConvertingLoadsAndStores : ConvAccess (vecs {}) ((vecs {}).reg 2) ElemType.f32.lanes false ∧ ConvAccess (vecs {}) ((vecs {}).reg 3) ElemType.i8.lanes true ∧ ConvAccess (vecs {}) ((vecs {}).reg 4) ElemType.f32.lanes false := by exact ⟨by constructor <;> decide, by constructor <;> decide, by constructor <;> decide⟩

theorem witness_ConvertingLoadsAndStores_2 :
    (viewOf ((vecs {}).reg 4) = 5 ∧ offOf ((vecs {}).reg 4) + ElemType.f32.lanes / 2 ≤ (vecs {}).c.sbase.toNat + offOf ((vecs {}).reg 4) / 4) ∧
    viewOf ((vecs {}).reg 2) ≠ 5 := by
  and_intros <;> decide +kernel

/-- Two rings of one INT8 slot in h1 and h2 and one of f32-format FP8 in h3; banks 0 to 7 allocated; matrix registers. -/
def slots (view n : Nat) : Handle := { base := BitVec.ofNat 32 (view * 2 ^ 28 + n), size := 2048, count := 1, head := 0, tail := 1 }

theorem slots_fields : HandleFields (slots 6 0x2000) ∧ HandleFields (slots 6 0x2800) ∧ HandleFields (slots 1 0x2000) ∧ HandleFields (slots 5 0x9F800) := by
  refine ⟨?_, ?_, ?_, ?_⟩ <;> exact ⟨by decide, by decide, by decide, by decide, by decide, ⟨0, by decide⟩, by decide, by decide⟩

def mat (c : Ctx) : State := core { c with
  pc := 0x200, status := 2, accmap := 0xFF, s := sregs [(1, 0x4000), (2, 0x9F000), (3, 0x5000), (4, 0x100), (5, 0x9F800)]
  h := (((((Vector.replicate 16 {}).set 1 (slots 6 0x2000)).set 2 (slots 6 0x2800)).set 3 (slots 1 0x2000)).set 4 (slots 2 0x2800)).set 5 (slots 5 0x9F800)
  mem := Memory.writeBytes (words 0x5000 (List.replicate 40 0x40000000)) 0x2000 ((List.range 4096).map fun i => BitVec.ofNat 8 (i * 73 + i / 256)) }

theorem witness_MatrixInstructionsEnterTheQueue : SliceReady (mat {}) (.mmai true true false 0 1 2) ∧ TileReady (mat {}) .i32 0 := by exact ⟨by constructor <;> decide, by constructor <;> decide⟩

theorem witness_MatrixInstructionsEnterTheQueue_2 : RingReady (mat {}) 1 ∧ RingReady (mat {}) 2 := by exact ⟨⟨slots_fields.1, by decide, by decide, by decide⟩, ⟨slots_fields.2.1, by decide, by decide, by decide⟩⟩

theorem witness_MatrixInstructionsEnterTheQueue_3 :
    (viewOf ((mat {}).handle 1).base = 6 ∧ viewOf ((mat {}).handle 2).base = 6) ∧
    (viewClass (viewOf ((mat {}).handle 3).base) = viewClass (viewOf ((mat {}).handle 4).base) ∧ AccType.bf16 ≠ .i32) ∧
    (viewOf ((mat {}).reg 2) = 0 ∧ offOf ((mat {}).reg 2) + AccType.f32.tileBytes ≤ 0xA0000 ∧ ((mat {}).reg 2).toNat % 64 = 0) ∧
    (viewOf ((mat {}).reg 3) = 0 ∧ offOf ((mat {}).reg 3) + 160 ≤ 0xA0000 ∧ ((mat {}).reg 3).toNat % 4 = 0) ∧
    ((mat {}).inExchange = false ∧ (mat {}).c.mx = []) ∧
    (mat { mx := [{ op := .mzero .f32 0 }] }).c.mx ≠ [] := by
  and_intros <;> decide +kernel

theorem witness_MatrixInstructionsEnterTheQueue_4 : RingReady (mat {}) 3 := by exact ⟨slots_fields.2.2.1, by decide, by decide, by decide⟩

theorem witness_MatrixInstructionsEnterTheQueue_5 : RingReady (mat {}) 5 ∧ viewOf ((mat {}).handle 5).base = 5 ∧ viewClass 5 = viewClass 5 := by exact ⟨⟨slots_fields.2.2.2, by decide, by decide, by decide⟩, by decide, rfl⟩

theorem witness_MatrixInstructionsEnterTheQueue_6 : SliceReady (mat {}) (.mload .f32 true 6 1) ∧ TileReady (mat {}) .f32 6 := by exact ⟨by constructor <;> decide, by constructor <;> decide⟩

theorem witness_MatrixInstructionsEnterTheQueue_7 : ∃ k ∈ tileBanks .f32 8, (mat {}).c.accmap.getLsbD k = false := by exact ⟨8, by decide⟩

/-- The slice with this instruction at its head, started, and the tile at banks 0 and 1 full of numbers. -/
def retiring (q : MxOp) : State := mat { mx := [{ q with started := true }], acc := Memory.writeBytes [] 0 ((List.range 256).map fun i => BitVec.ofNat 8 (i * 97 + i / 7)) }

theorem witness_MatrixRetirementResults :
    (let s := retiring { op := .mmai true true false 0 1 2, slotA := 0x2000, slotB := 0x2800, popA := some 1, popB := some 2 }; s.c.mx = [{ op := .mmai true true false 0 1 2, slotA := 0x2000, slotB := 0x2800, popA := some 1, popB := some 2, started := true }] ∧ s.c.memErr = [] ∧ s.c.accErr = [] ∧ s.input.n = 0) ∧
    ((retiring { op := .mzero .f32 0 }).input.flag = false ∧ (retiring { op := .mzero .f32 0 }).c.mx = [{ op := .mzero .f32 0, started := true }]) ∧
    ((let s : State := { mat { mx := [{ op := .mzero .f32 0 }] } with input := { flag := true, n := 3, nums := [5] } }; s.input.flag = true ∧ s.input.nums = [5] ∧ 5 ≠ s.t.idx.val ∧ 0 + 3 ≤ 0 + s.t.slew.toNat ∧ s.t.slewFrom < 16)) ∧
    ((let s : State := { mat { mx := [{ op := .mzero .f32 0 }] } with input := { flag := true, n := 9, nums := [3, 5] } }; s.input.nums = [3, 5] ∧ 9 ≤ s.t.slew.toNat ∧ ¬2 * 9 ≤ s.t.slew.toNat ∧ (3 + 15 - s.t.slewFrom) % 16 < (5 + 15 - s.t.slewFrom) % 16)) ∧
    ((let s : State := { mat { mx := [{ op := .mzero .f32 0 }] } with t := { ({} : Tile) with slewCur := 15 }, input := { flag := true, n := 3, nums := [5] } }; s.input.nums = [5] ∧ ¬15 + 3 ≤ s.t.slew.toNat ∧ s.t.clock / 64 ≤ s.t.slewWin)) ∧
    ((let s := mat { mx := [{ op := .mmai true true false 0 1 2 }] }; isMma (Instr.mmai true true false 0 1 2) = true ∧ s.input.flag = false ∧ s.c.status.toNat / 256 % 4 = 0 ∧ 1 ≤ s.t.slew.toNat)) ∧
    ((let s : State := { mat {} with t := { ({} : Tile) with clock := 64, slewCur := 5, slewLast := 2 } }; s.t.slewWin < s.t.clock / 64)) ∧
    ((retiring { op := .mzero .f32 0 }).c.mx = [{ op := .mzero .f32 0, started := true }] ∧ (retiring { op := .mload .f32 true 6 1, opnd := 0x4000 }).c.mx = [{ op := .mload .f32 true 6 1, opnd := 0x4000, started := true }]) := by
  and_intros <;> decide +kernel

/-- Columns 0 and 1 of the row: the core, in a gang of size code g, and the other, waiting. -/
def pair (st : Word) (other : RowCore) : State := { mat {} with c := { (mat {}).c with status := st }, row := [other] }

theorem witness_GangAndFollowModes :
    ((mat {}).inExchange = false ∧ (mat {}).c.mx = [] ∧ (mat {}).c.status.toNat / 256 % 4 = 0) ∧
    (let s := pair 2 { col := 1, gang := some 1 }; (1 : Fin 3).val ≠ 0 ∧ s.gangClash 1 1 = false ∧ (s.row.filter fun r => (s.group 1).contains r.col.val && r.col.val != s.t.idx.val % 4).length = ((s.group 1).filter (· ≠ s.t.idx.val % 4)).length ∧ ∀ r ∈ s.row, r.gang = some 1) ∧
    ((pair 0x102 { col := 1, wantsFollow := true }).c.status.toNat / 256 % 4 ≠ 0 ∧ (pair 0x102 { col := 1, wantsFollow := true }).c.status.getLsbD 10 = false ∧ (pair 0x102 { col := 1, wantsFollow := true }).c.status.getLsbD 11 = false ∧ (∀ r ∈ (pair 0x102 { col := 1, wantsFollow := true }).row, r.wantsFollow = true)) ∧
    ((pair 0x502 { col := 1 }).c.status.getLsbD 10 = true ∧ ((pair 0x502 { col := 1 }).reg 1).toNat % 2 = 0) ∧
    ((pair 0x902 { col := 1 }).c.status.getLsbD 10 = false ∧ (pair 0x902 { col := 1 }).c.status.getLsbD 11 = true) := by
  and_intros <;> decide +kernel

/-- Banks 0 to 3 allocated; s1 parked in slot 0 of bank 4, v2 in slot 1 of it. -/
def parks (c : Ctx) : State :=
  let ps : Vector Parked 64 := ((Vector.replicate 64 {}).set 1 { v := true, bank := 4, slot := 0 }).set 34 { v := true, bank := 4, slot := 1 }
  core { c with
    pc := 0x200, status := 2, accmap := if c.accmap = 0 then 0xF else c.accmap, s := sregs [(1, 7), (2, 9)]
    v := (Vector.replicate 32 0).set 2 5
    acc := words 0x2000 [0x11111111, 2, 3, 4, 5, 6, 7, 8, 9, 10, 11, 12, 13, 14, 15, 16, 0x22222222], parked := ps, spillmap := State.spillmapOf ps }

theorem witness_BankAllocation :
    ((parks {}).inExchange = false ∧ 32 < (31 : Reg).val + 2) ∧
    ((∀ x, x < 32 → ¬x = 4 → (parks { accmap := 0xFFFFFFEF }).c.accmap.getLsbD x = true) ∧ (parks { accmap := 0xFFFFFFEF }).c.accmap.getLsbD 4 = false ∧ (parks {}).c.parked[(1 : Fin 64)].v = true ∧ (parks {}).c.parked[(1 : Fin 64)].bank.toNat = 4) ∧
    ((∀ x, x < 32 → 30 ≤ x → (parks {}).c.accmap.getLsbD x = false) ∧ (∀ k : Fin 64, (parks {}).c.parked[k].v = true → ¬30 ≤ (parks {}).c.parked[k].bank.toNat)) ∧
    ((parks {}).bankBusy 3 = false ∧ (parks {}).bankBusy 2 = false ∧ (parks {}).c.accmap.getLsbD 2 = true ∧ (parks {}).c.accmap.getLsbD 3 = true) ∧
    ((parks {}).bankBusy 4 = false ∧ (parks {}).c.accmap.getLsbD 4 = false) ∧
    (parks { mx := [{ op := .mzero .bf16 3 }] }).bankBusy 3 = true := by
  and_intros <;> decide +kernel

theorem witness_BankAllocation_2 : ∃ x, (3 ≤ x ∧ x < 3 + 2) ∧ (parks {}).c.accmap.getLsbD x = true := by exact ⟨3, by decide⟩

theorem witness_BankAllocation_spill :
    ((parks {}).inExchange = false ∧ parkIndex true 2 = 34 ∧ (parks {}).c.parked[(34 : Fin 64)].v = true) ∧
    ((parks {}).c.parked[(2 : Fin 64)].v = false ∧ (parks {}).c.accmap.getLsbD 31 = false ∧ (∀ k : Fin 64, ¬((parks {}).c.parked[k].v = true ∧ (parks {}).c.parked[k].bank.toNat = 31 ∧ (parks {}).c.parked[k].slot.toNat = 0))) ∧
    (∀ x, x < 32 → (parks { accmap := 0xFFFFFFFF }).c.accmap.getLsbD x = true) ∧
    (parks {}).c.parked[(1 : Fin 64)].v = true ∧
    ((parks { accErr := [0x400] }).c.parked[(1 : Fin 64)].v = true ∧ (parks { accErr := [0x400] }).c.accErr = [0x400] ∧ 8 * 0x400 < 0x800 * 4 + 4 ∧ 0x800 * 4 < 8 * 0x400 + 8) := by
  and_intros <;> decide +kernel

/-- A request in s1 to s4: a load of one line from va 0x10040 to local 0x2000; in s5 to s8 one into the ring of h1. -/
def pushing (copy : List CopyCmd) : State := core
  { pc := 0x200, status := 2, h := (Vector.replicate 16 {}).set 1 ring4, copy := copy
    s := sregs [(1, 0), (2, 0x2000), (3, 0x10040), (4, 0x10000), (5, 0x10000020), (6, 0), (7, 0x10000), (8, 0x200000), (9, 0x40002000), (10, 0x12345)] }

theorem witness_CopyRequestInstructions :
    ((pushing []).inExchange = false ∧ (1 : Reg).val ≤ 28) ∧
    (pushing []).c.copy.length < 16 ∧
    (∀ r ∈ (pushing []).c.copy, State.sameRing ((pushing []).requestCmd 5) r = false) ∧
    16 ≤ (pushing (List.replicate 16 {})).c.copy.length ∧
    28 < (29 : Reg).val := by
  and_intros <;> decide +kernel

theorem witness_CopyRequestInstructions_2 : PushOk (pushing []) ((pushing []).requestCmd 1) := by exact ⟨by decide, by decide, by decide, by decide, by decide, by decide, by decide, by decide, fun h => absurd h (by decide), by decide, by decide⟩

theorem witness_CopyRequestInstructions_3 : PushOk (pushing []) ((pushing []).requestCmd 5) := by exact ⟨by decide, by decide, by decide, by decide, by decide, by decide, by decide, by decide, fun _ => ⟨by decide, by decide, ring4_fields, by decide, by decide⟩, by decide, by decide⟩

/-- A command at work, a page of 64 KiB at 0x10000 (entry 3, key slot 0, behind an entry of another space) and line 0x20040. -/
def page (w d : Bool) : TlbEntry := { valid := true, w := w, d := d, vpn := 1, ppn := 2 }

def copying (q : CopyCmd) (inp : Input) : State := { core
  { copy := [{ q with w1 := 0x2000, w2 := 0x10040, w3 := 0x10000 }], mem := words 0x2000 [5, 2, 0x80000000, 4, 5, 6, 7, 8, 9, 10, 11, 12, 13, 14, 15, 16] } with
  t := { ({} : Tile) with tlb := [(1, { page true true with asid := 7 }), (3, page true true)] }
  chip := { ({} : Chip) with keys := [(0, 9)], gkeys := [(0x20040 / 64, 9)], fnSlots := [0, 1, 2, 3, 4, 5, 6, 7], gmem := Memory.writeBytes [] 0x20040 (leBytes 4 7 ++ leBytes 4 0x7FFFFFFF ++ [255, 1]) }
  input := inp }

/-- A beat that waits on notice 5, and its command with fault notices on or off. -/
def missed : Aside := { va := 0x10040, stall := .notice, ref := 5 }

def noticed (on : Bool) (inp : Input) : State :=
  let s := copying { aside := [missed] } inp
  { s with t := { s.t with notices := [{ id := 5, va := 0x10040 }] }, p := { s.p with cfg := { s.p.cfg with notices := on } } }

theorem witness_TranslationUsesTheLowestEntry :
    (((copying {} {}).t.tlb.map (·.1)).Nodup ∧ (3, page true true) ∈ (copying {} {}).t.tlb ∧ (page true true).vpn.toNat * 65536 / 2 ^ 16 = 0x1FFFF / 2 ^ 16) ∧
    ((page true true).ppn.toNat * 65536 + 0xFFFF < (copying {} {}).chip.capacity * 2 ^ 30 ∧ (copying {} {}).chip.keys = [(0, 9)] ∧ (page true true).key.toNat = 0) ∧
    ((page false false).w = false ∧ (page true false).d = false) := by
  and_intros <;> decide +kernel

/-- The same with another table of pages, other keys or other notices. -/
def mapped (p : TlbEntry) (keys : List (Nat × Nat)) : State :=
  let s := copying {} {}
  { s with t := { s.t with tlb := [(0, p)] }, chip := { s.chip with keys := keys } }

def unmapped (ns : List Notice) : State :=
  let s := copying {} {}
  { s with t := { s.t with tlb := [], notices := ns, noticeNum := 40 } }

theorem witness_TranslationUsesTheLowestEntry_stops : FrontReady (mapped (page true true) []) ((copying {} {}).c.copy.headD {}) := by constructor <;> decide

theorem witness_TranslationUsesTheLowestEntry_stops_2 : FrontReady (unmapped []) ((copying {} {}).c.copy.headD {}) := by constructor <;> decide

theorem witness_TranslationUsesTheLowestEntry_stops_3 :
    ((∀ k ∈ (mapped (page true true) []).chip.keys, k.1 ≠ (page true true).key.toNat) ∧ ((copying {} {}).c.copy.headD {}).aside = [] ∧ ((copying {} {}).c.copy.headD {}).beatAt = .data 0x10040 ∧ ((copying {} {}).c.copy.headD {}).fell = 0) ∧
    ((∀ x ∈ (unmapped []).t.tlb, ¬(x.2.valid = true)) ∧ (unmapped []).t.notices.length < 8) ∧
    (8 ≤ (unmapped (List.replicate 8 { va := 0x90000 })).t.notices.length ∧ ∀ n ∈ (unmapped (List.replicate 8 { va := 0x90000 })).t.notices, n.va / 65536 ≠ 0x10040 / 65536) ∧
    ((unmapped [{ id := 9, va := 0x1FFC0 }]).t.notices.map (·.kind) = [.miss] ∧ 0x1FFC0 / 65536 = 0x10040 / 65536) ∧
    384 * 2 ^ 30 ≤ 0x40000000 * 65536 := by
  and_intros <;> decide +kernel

/-- The same with the mailbox full, and a command with beats that wait on two notices. -/
def full (s : State) : State := { s with c := { s.c with mboxCount := 32 } }

def missed2 : Aside := { va := 0x10080, pos := 1, stall := .notice, ref := 6 }

def twice (inp : Input) : State :=
  let s := copying { aside := [missed, missed2] } inp
  { s with t := { s.t with notices := [{ id := 5, va := 0x10040 }, { id := 6, va := 0x10080 }] }, p := { s.p with cfg := { s.p.cfg with notices := true } } }

theorem witness_TranslationServiceErrorsAndUpdates :
    (({ n := 1023 } : Input).n < 1024 ∧ (copying {} { n := 1023 }).tlbUses 1023 = [] ∧ (copying {} {}).p.cfg.notices = false) ∧
    (let s := noticed true { n := 3, tlb := page true true }; s.p.cfg.notices = true ∧ s.c.copy = [{ aside := [missed], w1 := 0x2000, w2 := 0x10040, w3 := 0x10000 }] ∧ s.sh.copy = [] ∧ s.p.paged = [] ∧ s.chip.colls = [] ∧ s.t.notices = [{ id := 5, va := 0x10040 }] ∧ missed.ref = 5 ∧ missed.stall = .notice ∧ s.input.tlb.hits 0 0x10040 = true ∧ s.c.held = [] ∧ s.sh.held = [] ∧ s.mboxHeld = false) ∧
    (let s : State := { noticed true { n := 3, tlb := page true true } with t := { ((noticed true {}).t) with notices := [{ id := 5, va := 0x10040, kind := .writeFault }] } }; s.t.notices.map (·.kind) = [.writeFault] ∧ s.input.tlb.hits 0 0x10040 = true) ∧
    (let s := full (noticed true { n := 3, tlb := page true true }); s.mboxHeld = true ∧ s.c.held = [] ∧ s.sh.held = [] ∧ s.t.notices = [{ id := 5, va := 0x10040 }]) ∧
    (let s := twice { n := 3, tlb := page true true }; s.p.cfg.notices = true ∧ s.c.copy = [{ aside := [missed, missed2], w1 := 0x2000, w2 := 0x10040, w3 := 0x10000 }] ∧ s.sh.copy = [] ∧ s.p.paged = [] ∧ s.chip.colls = [] ∧ s.t.notices = [{ id := 5, va := 0x10040 }, { id := 6, va := 0x10080 }] ∧ s.input.tlb.hits 0 0x10080 = true ∧ s.c.held = [] ∧ s.sh.held = [] ∧ s.mboxHeld = false ∧ s.c.mboxCount.toNat ≤ 30) ∧
    (let s := copying { aside := [{ missed with stall := .remote }] } { n := 3 }; s.tlbUses 3 = [5]) ∧
    (let s := noticed false { n := 0, op := 5, status := 10 }; s.input.flag2 = false ∧ s.input.flag = false ∧ s.input.win ≠ 1 ∧ s.cmd 0 = some { aside := [missed], w1 := 0x2000, w2 := 0x10040, w3 := 0x10000 } ∧ s.p.cfg.notices = false ∧ [missed].find? (fun a => a.stall == .notice && a.ref == 5) = some missed ∧ s.input.status = 10 ∧ s.sh.copy = [] ∧ s.p.paged = [] ∧ s.chip.colls = []) ∧
    (let s : State := { noticed false { n := 0, op := 5, status := 10 } with c := (core {}).c }; s.input.flag2 = false ∧ s.input.flag = false ∧ s.input.win ≠ 1 ∧ s.c.copy = [] ∧ s.sh.copy = [] ∧ s.p.paged = [] ∧ s.chip.colls = [] ∧ s.input.status = 10) ∧
    (let s := copying {} { addr := 0x20044, n := 0 }; s.keyOf 0 = some 9 ∧ { s with chip := { s.chip with gerr := [0x20044 / 64] } }.chip.gerr.contains (s.input.addr / 64) = true) ∧
    (let s := copying {} { n := 0, addr := 0x20044, op := 2, value := 5 }; s.keyOf 0 = some 9 ∧ s.input.addr % 4 = 0 ∧ s.input.addr < s.chip.capacity * 2 ^ 30 ∧ s.chip.fnSlots.contains s.input.op = true ∧ s.chip.gerr.contains (s.input.addr / 64) = false) ∧
    (({ flag := true, mem := .acc } : Input).flag = true ∧ ({ flag := true, mem := .acc } : Input).mem = .acc) ∧
    (({ flag := true, mem := .local_ } : Input).mem = .local_ ∧ ({ mem := .lpddr } : Input).mem = .lpddr) := by
  and_intros <;> decide +kernel

theorem witness_TranslationServiceErrorsAndUpdates_functions : fp32.held 0x7FC00001 = .nan ∧ ¬(fp32.held 0xBF800000 = .nan ∨ fp32.held 0x3F800000 = .nan) := by decide +kernel

theorem witness_CopyBeatsMoveData : let s := copying {} {}; BeatReady s (s.c.copy.headD {}) 0x10040 0x20040 9 ∧ (s.c.copy.headD {}).kind = 0 := by exact ⟨by constructor <;> first | decide | (constructor <;> decide), by decide⟩

theorem witness_CopyBeatsMoveData_2 : let s := copying { w0 := 1 } {}; BeatReady s (s.c.copy.headD {}) 0x10040 0x20040 9 ∧ (s.c.copy.headD {}).kind = 1 := by exact ⟨by constructor <;> first | decide | (constructor <;> decide), by decide⟩

theorem witness_CopyBeatsMoveData_3 : let s := copying { w0 := 5 + 7 * 2 ^ 28 } {}; BeatReady s (s.c.copy.headD {}) 0x10040 0x20040 9 ∧ (s.c.copy.headD {}).kind = 5 ∧ (s.c.copy.headD {}).fn = 7 := by exact ⟨by constructor <;> first | decide | (constructor <;> decide), by decide, by decide⟩

theorem witness_CopyBeatsMoveData_4 : let s := copying { w0 := 6, begun := true, pat := List.replicate 64 3 } {}; BeatReady s (s.c.copy.headD {}) 0x10040 0x20040 9 ∧ (s.c.copy.headD {}).kind = 6 := by exact ⟨by constructor <;> first | decide | (constructor <;> decide), by decide⟩

theorem witness_CopyBeatsMoveData_5 : let s := copying { w0 := 2, haveList := true, list := [1], ecfg := 0x400040, rb := 0x10000 } {}; BeatReady s (s.c.copy.headD {}) 0x10040 0x20040 9 ∧ (s.c.copy.headD {}).kind = 2 ∧ (s.c.copy.headD {}).rows = true ∧ (s.c.copy.headD {}).rs = 64 := by exact ⟨by constructor <;> first | decide | (constructor <;> decide), by decide, by decide, by decide⟩

theorem witness_CopyBeatsMoveData_6 : let s := copying { w0 := 3, haveList := true, list := [1], ecfg := 0x400040, rb := 0x10000 } {}; BeatReady s (s.c.copy.headD {}) 0x10040 0x20040 9 ∧ (s.c.copy.headD {}).kind = 3 := by exact ⟨by constructor <;> first | decide | (constructor <;> decide), by decide⟩

theorem witness_CopyBeatsMoveData_7 : let s := copying { w0 := 4, haveList := true, list := [0x00FFF000], ecfg := 0x400040, imgeo := 0x10000FFF0FFF } {}; let q := s.c.copy.headD {}; FrontReady s q ∧ q.kind = 4 ∧ q.rows = true ∧ q.haveList = true ∧ (s.localAt q (State.localPos q q.pos)).1 ≠ 5 ∧ signedBits 12 ((q.list.getD 0 0).toNat / 2 ^ 12) = -1 := by exact ⟨by constructor <;> decide, by decide, by decide, by decide, by decide, by decide⟩

theorem witness_CopyBeatsMoveData_8 : let q : CopyCmd := { w0 := 2, haveList := true, list := [0xFFFFFFFF], ecfg := 0xFFC0FFC0, rb := 0xFFFFFFFFFFC0 }; q.rows = true ∧ q.rs % 64 = 0 ∧ q.rs ≠ 0 ∧ 2 ^ 48 < q.rb.toNat + (q.list.getD 0 0).toNat * q.stride + q.rs := by decide +kernel

/-- A load that has made its beats, of the ring of h1 or to a plain block, with what it is to tell. -/
def ended (w0 : Word) (stop : Option (Nat × Nat)) : State := core
  { h := (Vector.replicate 16 {}).set 1 ring4, copy := [{ w0 := w0, w3 := 0x200000, pos := 32, stop := stop }], bar := (Vector.replicate 512 {}).set 1 { expb := 2048 } }

theorem witness_CopyCompletionLands :
    (let s := ended 0x10 none; let q := s.c.copy.headD {}; s.cmd s.input.n = some q ∧ q.finished = true ∧ s.inExchange = false ∧ s.inTransit = false ∧ (∀ r ∈ s.c.copy.take s.input.n, State.sameRing q r = false) ∧ q.stop = none ∧ q.errAt = none ∧ q.hv = false ∧ q.bv = false) ∧
    (let q := (ended 0x10000020 none).c.copy.headD {}; q.finished = true ∧ q.hv = true ∧ q.bv = false ∧ q.kind = 0) ∧
    (let q := (ended 0x10000021 none).c.copy.headD {}; q.finished = true ∧ q.hv = true ∧ q.kind = 1) ∧
    (let s := ended 0xC0 none; let q := s.c.copy.headD {}; q.bv = true ∧ q.hv = false ∧ s.c.cycleBar = [] ∧ (s.barrier q.barName).penb.toNat + q.nominal ≤ (s.barrier q.barName).expb.toNat) ∧
    (let q := (ended 0 none).c.copy.headD {}; { q with errAt := some 64 }.stop = none ∧ { q with errAt := some 64 }.finished = true) ∧
    (let s : State := { ended 0 none with c := { (ended 0 none).c with copy := [{}, { ((ended 0 none).c.copy.headD {}) with fence := true }, {}] }, input := { n := 1 } }; (s.c.copy.getD 1 {}).fence = true ∧ 0 < s.input.n ∧ s.input.n + 1 < s.c.copy.length ∧ (s.c.copy.getD 1 {}).finished = true ∧ s.cmd 1 = some (s.c.copy.getD 1 {})) ∧
    (let q := (ended 0 (some (5, 64))).c.copy.headD {}; q.stop = some (5, 64) ∧ q.finished = true) := by
  and_intros <;> decide +kernel

/-- Slots of core 0: a send at 8, a receive at 9, a combine at 10, an optical send on lane 1 at 11, a select at 12. -/
def exSlots : List Slot := [{ off := 8, kind := 0, cls := 2 }, { off := 9, kind := 1, cls := 3 }, { off := 10, kind := 2, cls := 0 },
  { off := 11, kind := 3, cls := 2, lane := 1 }, { off := 12, kind := 4, port := 3 }]

def exchState : State := exchanging exSlots

def exUnit : Exch := { xr := 40, seg := { len := 100, slots := exSlots } }

theorem witness_ExchangeInstructionsClaimSlots : SlotReady exchState exUnit 8 (fun x => x.kind = 0 ∧ x.cls = (2 : Fin 8).val) ∧ ExchBlock exchState 1 64 := by exact ⟨⟨by decide, rfl, by decide, by decide, by decide, _, List.mem_cons_self, by decide⟩, by constructor <;> decide⟩

theorem witness_ExchangeInstructionsClaimSlots_2 : SlotReady exchState exUnit 9 (fun x => x.kind = 1 ∧ x.cls = (3 : Fin 8).val) ∧ ExchBlock exchState 1 128 := by exact ⟨⟨by decide, rfl, by decide, by decide, by decide, _, List.mem_cons_of_mem _ List.mem_cons_self, by decide⟩, by constructor <;> decide⟩

theorem witness_ExchangeInstructionsClaimSlots_3 : SlotReady exchState exUnit 10 (fun x => x.kind = 2 ∧ x.cls = (0 : Fin 8).val) ∧ ExchBlock exchState 1 16 := by exact ⟨⟨by decide, rfl, by decide, by decide, by decide, _, List.mem_cons_of_mem _ (List.mem_cons_of_mem _ List.mem_cons_self), by decide⟩, by constructor <;> decide⟩

theorem witness_ExchangeInstructionsClaimSlots_4 : (let t : State := { exchState with c := { exchState.c with exch := some { exUnit with seg := { exUnit.seg with switches := [{ elem := 2, off := 11, set := 1, dur := 4 }] } } } }; SlotReady t { exUnit with seg := { exUnit.seg with switches := [{ elem := 2, off := 11, set := 1, dur := 4 }] } } 11 (fun x => x.kind = 3 ∧ x.cls = (2 : Fin 8).val ∧ x.lane = (1 : Fin 4).val) ∧ ExchBlock t 1 64 ∧ t.laneEntry 1 11 = some (4, 0)) := by exact ⟨⟨by decide, rfl, by decide, by decide, by decide, _, List.mem_cons_of_mem _ (List.mem_cons_of_mem _ (List.mem_cons_of_mem _ List.mem_cons_self)), by decide⟩, by constructor <;> decide, by decide⟩

theorem witness_ExchangeInstructionsClaimSlots_5 : SlotReady exchState exUnit 12 (fun x => x.kind = 4 ∧ x.port = (3 : Fin 5).val) := by exact ⟨by decide, rfl, by decide, by decide, by decide, _, List.mem_cons_of_mem _ (List.mem_cons_of_mem _ (List.mem_cons_of_mem _ (List.mem_cons_of_mem _ List.mem_cons_self))), by decide⟩

theorem witness_ExchangeInstructionsClaimSlots_6 :
    (exchState.inExchange = true ∧ exchState.c.exch = some exUnit ∧ exchState.xc ≤ exUnit.xr + 100 ∧ exUnit.nextOff ≤ 100 ∧ (100 : BitVec 13).toNat = exUnit.seg.len) ∧
    (exchState.xc ≤ exUnit.xr + 90 ∧ exUnit.nextOff ≤ 90 ∧ (90 : BitVec 13).toNat < exUnit.seg.len) ∧
    (exchState.inExchange = true ∧ exchState.c.exch = some exUnit ∧ (4 : BitVec 13).toNat < exchState.xc - exUnit.xr) ∧
    (exchState.xc ≤ exUnit.xr + 9 ∧ (∀ x ∈ exUnit.seg.slots, x.core = exchState.c.lcore.toNat → x.off = 9 → x.kind ≠ 0)) := by
  and_intros <;> decide +kernel

/-- The unit of the core while a receive of 128 bytes at 0x1000 is claimed at offset 9, with or without a combine, and beats of its xc 10. -/
def receive9 (comb : Option (ElemType × CombOp × Bool)) (beats : List Input) : Exch :=
  { exUnit with nextOff := 10, claims := [{ off := 9, addr := 0x1000, len := 128, comb := comb }], handled := 10, arrived := beats }

def receiving (comb : Option (ElemType × CombOp × Bool)) (beats : List Input) (i : Input) : State :=
  { exchState with c := { exchState.c with exch := some (receive9 comb beats), mem := words 0x1040 [0xFFFF0001, 5] }, input := i }

def beat (strobe : Bool) : Input := { off := 9, n := 1, flag := strobe, data := List.replicate 64 7 }

theorem witness_ExchangeBeatsAndPhaseEnds :
    (let s := receiving none [] (beat true); s.c.exch = some (receive9 none []) ∧ s.input.flag2 = false ∧ { off := 9, kind := 1, cls := 3 } ∈ exSlots ∧ (∀ y ∈ exSlots, y.core = s.c.lcore.toNat ∧ (y.kind = 1 ∨ y.kind = 2) ∧ y.off = s.input.off ↔ y = { off := 9, kind := 1, cls := 3 }) ∧ s.input.n < Nat.max 1 (2 ^ (3 + 4) / 64) ∧ (receive9 none []).handled ≤ 10 ∧ 10 < (receive9 none []).seg.len) ∧
    (let s := receiving none [beat true] {}; s.c.exch = some (receive9 none [beat true]) ∧ (receive9 none [beat true]).arrived = [beat true] ∧ s.c.memErr = [] ∧ (receive9 none [beat true]).claims.find? (·.off = (beat true).off) = some { off := 9, addr := 0x1000, len := 128 } ∧ (beat true).flag2 = false ∧ Nat.min 64 128 ≤ (beat true).data.length ∧ (receive9 none [beat true]).portAt 10 = (beat true).port.val) ∧
    ((receive9 none []).xr + 10 < { receiving none [beat true] {} with xc := 60 }.xc ∧ (∀ k ∈ (receive9 none [{ beat true with off := 30 }]).claims, k.off ≠ 30)) ∧
    ((beat false).flag = false ∧ (receive9 none []).portAt 10 ≠ (2 : Fin 32).val) ∧
    ((receive9 (some (.i16, .add, true)) []).claims.map (·.comb) = [some (.i16, .add, true)] ∧ (31 + 1) * ElemType.i16.bytes ≤ 64) ∧
    ((let e : Exch := { receive9 none [] with sends := [{ at_ := 10, off := 8, j := 0, addr := 0x1040, len := 64 }] }; e.sends = [{ at_ := 10, off := 8, j := 0, addr := 0x1040, len := 64 }] ∧ e.handled = 10)) := by
  and_intros <;> decide +kernel

theorem witness_ExchangeBeatsAndPhaseEnds_ends :
    (exchState.c.phase.getLsbD 0 = true ∧ exchState.c.lphase.getLsbD 0 = false ∧ exchState.c.exch = some exUnit ∧ exchState.chip.ops = []) ∧
    (let s : State := { exchState with c := { exchState.c with phase := 2, lphase := 1, deferred := some { cause := 5, eaddr := 6, eword := 7 } } }; s.c.lphase.getLsbD 0 = true ∧ s.c.phase.getLsbD 0 = false ∧ s.c.exch.isSome = true ∧ s.chip.ops = [] ∧ s.c.run = .running ∧ s.c.status.getLsbD 1 = true) := by
  and_intros <;> decide +kernel

/-- The core and core 1 are the members of trees 0 and 3; the segment number in s1, a tile and a mask in s2 and s3. -/
def trees (c : Ctx) (tr : Trees) (inp : Input) : State := { core { c with pc := 0x200, s := sregs [(1, 5), (2, 0), (3, 0xFFFF0003), (4, 64), (5, 1), (6, 2), (7, 1)] } with
  p := { ({} : Part) with trees := { tr with masks := [(0, 0, 3), (3, 0, 3)] } }, input := inp }

theorem witness_SyncArrivesAndReleases :
    (trees { pend := .released } {} {}).c.pend = .released ∧
    (trees { mx := [{ op := .mzero .f32 0 }] } {} {}).c.mx ≠ [] ∧
    63 < ((trees {} {} {}).reg 4).toNat ∧
    (trees {} {} {}).coreId ∉ (trees {} {} {}).members 2 ∧
    ((trees { arr := 8 } {} {}).c.arr.getLsbD 3 = true ∧ (trees { arr := 8 } {} {}).coreId ∈ (trees { arr := 8 } {} {}).members 3 ∧ ((trees {} {} {}).reg 1).toNat ≤ 63) := by
  and_intros <;> decide +kernel

theorem witness_SyncArrivesAndReleases_2 : Fresh (trees {} {} {}) ∧ ((trees {} {} {}).reg 1).toNat ≤ 63 ∧ (trees {} {} {}).c.mx = [] ∧ (trees {} {} {}).c.head = [] ∧ (3 : Tree) ≠ 0 ∧ (trees {} {} {}).coreId ∈ (trees {} {} {}).members 3 := by exact ⟨by constructor <;> decide, by decide, by decide, by decide, by decide, by decide⟩

def seg5 (l : Bool) : Segment := { seg := 5, loc := l, len := 50 }

/-- The core waits at sync or lsync with segment 5, and so does core 1 with the given one; the image holds segment 5. -/
def gathered (g : Tree) (other : List (Nat × Nat)) : State :=
  let s := trees { pend := .sync g 5, stall := true, status := 3 } { gather := [{ tree := g, arrivals := (0, 5) :: other, stragg := 9, xc := 4 }] } { tree := g }
  { s with p := { s.p with image := some { ncore := 2, segs := [seg5 (g != 0)] } }, xc := 7 }

theorem witness_SyncArrivesAndReleases_controller :
    (let s := gathered 0 [(1, 5)]; s.input.pairs = [] ∧ s.input.tree = 0 ∧ s.c.pend = .sync 0 5 ∧ s.p.trees.gather.find? (·.tree = 0) = some { tree := 0, arrivals := [(0, 5), (1, 5)], stragg := 9, xc := 4 } ∧ s.coreId ∈ s.members 0 ∧ s.p.trees.staged = [] ∧ s.c.phase.getLsbD 0 = false ∧ s.c.lphase.getLsbD 0 = false) ∧
    ((∀ m ∈ (gathered 0 [(1, 5)]).members 0, ∃ y ∈ [(0, 5), (1, 5)], y.1 = m) ∧ ((gathered 0 [(1, 5)]).p.image.bind fun i => i.segs.find? (·.seg = 5)) = some (seg5 false)) ∧
    (((gathered 3 [(1, 5)]).p.image.bind fun i => i.segs.find? (·.seg = 5)) = some (seg5 true) ∧ (gathered 3 [(1, 5)]).coreId ∈ (gathered 3 [(1, 5)]).members 3) ∧
    (∃ y ∈ [(0, 5), (1, 6)], ∃ z ∈ [(0, 5), (1, 6)], y.1 ∈ (gathered 0 [(1, 6)]).members 0 ∧ z.1 ∈ (gathered 0 [(1, 6)]).members 0 ∧ y.2 ≠ z.2) ∧
    ((¬∀ m ∈ (gathered 0 []).members 0, ∃ y ∈ [(0, 5)], y.1 = m) ∧ (9 : Word) ≠ 0) := by
  and_intros <;> decide +kernel

theorem witness_SyncArrivesAndReleases_controller_2 : (seg5 true).paths = [] ∧ (seg5 true).slots = [] ∧ (seg5 true).switches = [] ∧ ∀ d a f, (gathered 3 [(1, 5)]).c.issue ≠ some (.xload d a, f) := by exact ⟨rfl, rfl, rfl, nofun⟩

theorem witness_SplitBarriersDomAndPhase :
    ((trees {} {} {}).inExchange = false ∧ (3 : Tree) ≠ 0 ∧ (trees {} {} {}).coreId ∈ (trees {} {} {}).members 3 ∧ (trees {} {} {}).c.arr.getLsbD 3 = false) ∧
    (trees { arr := 8 } {} {}).c.arr.getLsbD 3 = true ∧
    ((trees { done := 8 } {} {}).c.pend = .none ∧ (trees { done := 8 } {} {}).c.done.getLsbD 3 = true) ∧
    (trees { pend := .await 3 4, done := 8 } {} {}).c.pend = .await 3 4 ∧
    ((trees { arr := 8 } {} {}).c.done.getLsbD 3 = false ∧ (trees { arr := 8 } {} {}).c.pend = .none) ∧
    (let s := trees {} { arrived := [(3, 0)] } { tree := 3, nums := [1] }; ∀ m ∈ s.members 3, (3, m) ∈ s.p.trees.arrived ∨ (m ∈ s.input.nums ∧ m ≠ s.coreId)) ∧
    (let s := trees { pend := .await 3 4, stragg := 9, status := 3, arr := 8 } { arrived := [(3, 0), (3, 1)] } {}; s.c.pend = .await 3 4 ∧ s.c.stragg ≠ 0 ∧ s.c.done.getLsbD 3 = false ∧ s.c.status.getLsbD 1 = true) ∧
    ((trees {} {} {}).reg 1).toNat ∉ (trees {} {} {}).p.cfg.tiles ∧
    ((trees { status := 3 } {} {}).reg 0 = 0 ∧ (trees { status := 3 } {} {}).reg 5 = 1) ∧
    1 < ((trees {} {} {}).reg 6).toNat := by
  and_intros <;> decide +kernel

theorem witness_SplitBarriersDomAndPhase_2 : Fresh (trees { status := 3 } {} {}) ∧ (trees { status := 3 } {} {}).input.flag = false ∧ (trees { status := 3 } {} {}).svc = true ∧ ((trees {} {} {}).reg 2).toNat ∈ (trees {} {} {}).p.cfg.tiles := by exact ⟨by constructor <;> decide, by decide, by decide, by decide⟩

/-- Contributions of two i32 lanes. -/
def con (op : RedOp) (xs : List Word) : RedContrib := { lcore := 0, op := op, type := .i32, sat := false, n := 2, lanes := xs }

theorem witness_ReductionInstructions : Fresh (trees {} {} {}) ∧ (trees {} {} {}).coreId ∈ (trees {} {} {}).members 3 ∧ (trees {} {} {}).coreId ∉ (trees {} {} {}).members 2 := by exact ⟨by constructor <;> decide, by decide, by decide⟩

theorem witness_ReductionInstructions_2 : (trees { pend := .redDone [5, 6] 1 } {} {}).c.pend = .redDone [5, 6] 1 ∧ [(5 : Word), 6].length = 2 := by decide +kernel

theorem witness_ReductionResults :
    (let w : RedWait := { tree := 3, con := con .max [5, 0xFFFFFFFF], num := 0, xc := 0 }; let s := trees { pend := .red w } {} { contribs := [con .max [4, 7]] }; s.c.pend = .red w ∧ s.c.stragg = 0 ∧ s.input.contribs.length + 1 = (s.members w.tree).length ∧ (∀ c ∈ [w.con] ++ s.input.contribs, c.op = w.con.op ∧ c.type = w.con.type ∧ c.sat = w.con.sat ∧ c.n = w.con.n)) ∧
    (let w : RedWait := { tree := 3, con := con .max [5, 0xFFFFFFFF], num := 0, xc := 0 }; let s := trees { pend := .red w } {} { contribs := [con .min [4, 7]] }; s.input.contribs.length + 1 = (s.members w.tree).length ∧ ¬(∀ c ∈ [w.con] ++ s.input.contribs, c.op = w.con.op)) ∧
    (let w : RedWait := { tree := 3, con := con .max [5, 0xFFFFFFFF], num := 0, xc := 3 }; let s := trees { pend := .red w, stragg := 9, status := 3 } {} {}; s.c.stragg ≠ 0 ∧ s.c.status.getLsbD 1 = true) ∧
    (let w : RedWait := { tree := 3, con := con .max [5, 0xFFFFFFFF], num := 0, xc := 3 }; let s : State := { trees { pend := .red w, stragg := 9, status := 3 } {} { contribs := [con .max [4, 7]] } with xc := 12 }; ¬(s.c.stragg = 0 ∨ s.xc < w.xc + s.c.stragg.toNat)) := by
  and_intros <;> decide +kernel

/-- Two members contribute with SAT: the sum of one lane is clamped. -/
def satCon (xs : List Word) : RedContrib := { lcore := 0, op := .add, type := .i32, sat := true, n := 2, lanes := xs }

def satWait (xs : List Word) : State :=
  { trees { pend := .red { tree := 3, con := satCon xs, num := 0, xc := 0 } } {} { contribs := [satCon [5, 7]] } with xc := 1 }

theorem witness_ReductionResults_saturating : (let s := satWait [0x7FFFFFFF, 1]; s.c.pend = .red { tree := 3, con := satCon [0x7FFFFFFF, 1], num := 0, xc := 0 } ∧ s.c.stragg = 0 ∧ s.input.contribs.length + 1 = (s.members 3).length ∧ (satCon [5, 7]).op = .add ∧ (satCon [5, 7]).sat = true) := by decide +kernel

/-- A core that is no member of g0. -/
def outside : State := { trees {} {} {} with p := { (trees {} {} {}).p with trees := { masks := [(0, 0, 2), (3, 0, 3)] } } }

theorem witness_SyncArrivesAndReleases_outside : outside.coreId ∉ outside.members 0 ∧ (outside.reg 1).toNat ≤ 63 := by decide +kernel

/-- A state of two tokens, three pairs each, at bank 4; banks 0 to 15 allocated; tile of logits 1.0 and 2.0 at banks 0 and 1. -/
def vp (mode cap : Nat) : DirEntry := { bank := 4, t := 2, mode := mode, cap := cap, delta := 0, nb := 1 }

def heads (mode cap : Nat) (c : Ctx) : State := core { c with
  pc := 0x200, status := 2, accmap := 0xFFFF, vpcfg := BitVec.ofNat 32 (mode + cap * 2 ^ (if mode = 0 then 8 else 16)), dir := [vp mode cap]
  s := sregs [(1, 0x3000), (2, 0x2008), (3, 2), (4, 0x9FFF8), (8, 0x9FF00), (9, 0x1004), (10, 33)]
  mem := (words 0x3000 [7, 32, 0x3F800000, 0, 0x3F800000, 1]).writeBytes 0x2008 (leBytes 4 0x2100)
  acc := Memory.writeBytes (words (0x2000 + 64) [0x3F800000, 0x3F800000, 0xFF800000, 0xFFFFFFFF, 2, 0, 0, 0, 5, 0x40000000, 6, 0x3F800000]) 0 (leBytes 4 0x3F800000 ++ leBytes 4 0x40000000) }

theorem witness_HeadInstructionsEnterAndSpill : let s := heads 0 3 {}; s.inExchange = false ∧ (∀ x, 4 ≤ x → x < 4 + 1 → x < 32 ∧ s.c.accmap.getLsbD x = true) ∧ s.mxBusy [4] = false ∧ s.c.head.length < 4 ∧ (s.reg 3).toNat = 2 := by exact ⟨by decide, fun x h h' => by obtain rfl : x = 4 := (by omega); decide, by decide, by decide, by decide⟩

theorem witness_HeadInstructionsEnterAndSpill_2 : HeadReady (heads 0 3 {}) (vp 0 3) (4 : Reg).val (vp 0 3).banks ∧ Operand ((heads 0 3 {}).reg 4) 8 4 := by exact ⟨by constructor <;> decide, by constructor <;> decide⟩

theorem witness_HeadInstructionsEnterAndSpill_3 : HeadReady (heads 0 3 {}) (vp 0 3) (4 : Reg).val ((vp 0 3).banks ++ [0, 1]) ∧ TileReady (heads 0 3 {}) .f32 0 ∧ (∀ f ∈ (heads 0 3 {}).c.dir, ¬(f.bank < 0 + 2 ∧ 0 < f.bank + f.nb)) ∧ ((heads 0 3 {}).reg 1).toNat ≤ 0xFFFFFFE0 := by exact ⟨by constructor <;> decide, by constructor <;> decide, by decide, by decide⟩

theorem witness_HeadInstructionsEnterAndSpill_4 :
    ((vp 1 1).mode = 1 ∧ (heads 1 1 {}).headBusy ((vp 1 1).banks ++ [0, 1]) = false ∧ (heads 1 1 {}).foldOver (vp 1 1) 0 0x3000 = true) ∧
    (heads 0 3 {}).c.head = [] ∧
    (heads 0 3 { head := [{ op := .vpinit 4 3 0 }] }).c.head ≠ [] ∧
    ¬((heads 0 3 {}).reg 10).toNat ≤ 32 ∧
    ((∀ f ∈ (heads 0 3 {}).c.dir, f.bank ≠ 5) ∧ (heads 0 3 {}).c.vpst.getLsbD 7 = false) ∧
    (let s := heads 0 3 { vpst := 0x84 }; let e := vp 0 3; s.inExchange = false ∧ s.c.vpst.getLsbD 7 = true ∧ s.stateAt (s.c.vpst.toNat % 32) = some e ∧ s.c.head = [] ∧ s.mxBusy e.banks = false ∧ s.c.memErr = [] ∧ s.c.accErr = [] ∧ (∀ i, i < e.t → tokenWord s e i 4 ≤ e.cap) ∧ littleEndian s.c.mem 0x2008 4 = 0x2100) := by
  and_intros <;> decide +kernel

theorem witness_HeadInstructionsEnterAndSpill_5 : Operand ((heads 0 3 {}).reg 1) (2 * 64) 64 ∧ (heads 1 128 {}).mergeOver (vp 1 128) 0x3000 = false := by exact ⟨by constructor <;> decide, by decide +kernel⟩

theorem witness_HeadInstructionsEnterAndSpill_6 : Operand ((heads 0 3 {}).reg 1) 264 8 ∧ TileReady (heads 0 3 {}) .f32 0 ∧ TileReady (heads 0 3 {}) .bf16 2 ∧ (∀ f ∈ (heads 0 3 {}).c.dir, ¬(f.bank < 2 + 1 ∧ 2 < f.bank + f.nb)) ∧ (heads 0 3 {}).mxBusy [2, 0, 1] = false := by exact ⟨by constructor <;> decide, by constructor <;> decide, by constructor <;> decide, by decide, by decide⟩

theorem witness_HeadInstructionsEnterAndSpill_7 : Operand ((heads 0 3 { vpst := 0x84 }).reg 2) 4 4 ∧ Operand (BitVec.ofNat 32 0x2100) 24 8 ∧ 0x2008 + 4 ≤ 0x2100 := by exact ⟨by constructor <;> decide, by constructor <;> decide, by decide⟩

theorem witness_HeadOperationResults :
    (let s := heads 0 3 { head := [{ op := .vpinit 4 3 0, ent := vp 0 3 }] }; s.c.head = [{ op := .vpinit 4 3 0, ent := vp 0 3 }] ∧ s.c.accErr = [] ∧ s.c.memErr = [] ∧ (∀ i, i < (vp 0 3).t → tokenWord s (vp 0 3) i 4 ≤ (vp 0 3).cap)) ∧
    (let q : HeadOp := { op := .vpregen 2 0 1, x := 0x3000 }; 1 ≤ littleEndian (heads 0 3 { head := [q] }).c.mem (0x3000 + 4) 4 ∧ littleEndian (heads 0 3 { head := [q] }).c.mem (0x3000 + 4) 4 ≤ 32) ∧
    (let q : HeadOp := { op := .vpregen 2 0 1, x := 0x2000 }; littleEndian (heads 0 3 { head := [q] }).c.mem (0x2000 + 4) 4 < 1) := by
  and_intros <;> decide +kernel

/-- An operation at work on the two tokens, one at x. -/
def working (op : Instr) (x : Word) : State := heads 0 3 { head := [{ op := op, x := x, ent := vp 0 3 }] }

theorem witness_HeadOperationResults_tokens :
    ((working (.vplabel 4 1) 0x3000).c.head = [{ op := .vplabel 4 1, x := 0x3000, ent := vp 0 3 }] ∧ (working (.vplabel 4 1) 0x3000).c.accErr = []) ∧
    ((working (.vpfold 4 0 1) 5).c.memErr = [] ∧ (5 : Word).toNat ≤ 0xFFFFFFE0 ∧ (rowFolded (vp 0 3) [0x3F800000, 0x40000000] 5 (tokenOf (working (.vpfold 4 0 1) 5) (vp 0 3) 0)).heap.length ≤ (vp 0 3).cap) ∧
    (¬3 < littleEndian (working (.vpmerge 4 1) 0x3000).c.mem (0x3000 + 4 * 6) 4 ∧ (tokenMerged (vp 0 3) (tokenOf (working (.vpmerge 4 1) 0x3000) (vp 0 3) 0) (fun i => littleEndian (working (.vpmerge 4 1) 0x3000).c.mem (0x3000 + 4 * i) 4) []).1.heap.length ≤ (vp 0 3).cap) ∧
    (working (.vpread 1 4) 0x3000).c.head.map (·.op) = [.vpread 1 4] := by
  and_intros <;> decide +kernel

/-- Tiles 0 to 2; at 0x1000 a request of 100 power units on lane 1 of tile 0 to tiles 1 and 2; the grants as given. -/
def optics (gs : List Grant) (failed : List Nat) (inp : Input) : State := { core
  { pc := 0x200, status := 3, lid := 4, s := sregs [(1, 0x1000), (2, 5), (3, 0xFFFF), (4, 0xFFFE), (5, 1), (6, 0x1020)]
    mem := words 0x1000 [100, 0x100, 2, 0x1010, 0x0201, 0, 0, 0, 0x10000, 0, 0, 0] } with
  p := { ({} : Part) with cfg := { tiles := [0, 1, 2], mcheck := true } }
  chip := { ({} : Chip) with grants := gs, failed := failed }, input := inp }

/-- A grant of partition 0 on lane 2 of tile 1 with id 5, owned by launch 4. -/
def grant5 : Grant := { id := 5, part := some 0, owner := 4, src := 1, lane := 2, dests := [2], gu := 50, mode := 1, state := .lit, mmargin := some (-3), crc := 7, worst := 0 }

/-- The same with a local exchange of tree 3 running, which drives a lane of a tile. -/
def opticsBusy (gs : List Grant) (tile lane : Nat) : State :=
  let s := optics gs [] {}
  { s with p := { s.p with locals := [{ tree := 3, seg := { loc := true, len := 50, switches := [{ tile := tile, elem := 2, set := lane }] } }] } }

theorem witness_GrantInstructions :
    ((optics [grant5] [] {}).inExchange = false ∧ (optics [grant5] [] {}).input.flag = false) ∧
    (let q := grantReq ((optics [grant5] [] {}).c.mem.readBytes 0x1000 16); q.listed = true ∧ q.dlist = 0x1010 ∧ q.f = 2 ∧ ((optics [grant5] [] {}).c.mem.readBytes 0x1010 2).map (·.toNat) = [1, 2]) ∧
    ((¬∃ g ∈ (optics [grant5] [] {}).chip.grants, g.lane = 1 ∧ (g.src = 0 ∨ (g.src < 144 ∧ ∃ x ∈ g.dests, x ∈ [1, 2]))) ∧ (optics [grant5] [] {}).chip.failed.contains 1 = false) ∧
    (heldGu (optics [grant5] [] {}) (fun g => g.part = some 0) + 100 ≤ 9600 ∧ heldGu (optics [grant5] [] {}) (fun _ => True) + 100 ≤ 9600 ∧ heldGu (optics [grant5] [] {}) (fun g => waveOf g.src g.lane = 1) + 100 ≤ 600 ∧ (∀ g ∈ (optics [grant5] [] {}).chip.grants, g.id = 0 → g.part ≠ none ∧ g.part ≠ some 0)) ∧
    (grantReq ((optics [] [] {}).c.mem.readBytes 0x1020 16)).reserved = true ∧
    (∃ g ∈ (optics [{ grant5 with lane := 1 }] [] {}).chip.grants, g.lane = 1 ∧ (g.src = 0 ∨ (g.src < 144 ∧ ∃ x ∈ g.dests, x ∈ [1, 2]))) ∧
    ¬heldGu (optics [{ grant5 with gu := 9501 }] [] {}) (fun g => g.part = some 0) + 100 ≤ 9600 ∧
    (∀ g ∈ (optics [] [] {}).chip.grants, g.id = 5 → g.part ≠ none ∧ g.part ≠ some 0) ∧
    ((optics [grant5] [] {}).grantOf 0 5 = some grant5 ∧ grant5.part = some 0 ∧ (optics [grant5] [] {}).svc = true) ∧
    (let s : State := { optics [{ grant5 with owner := 9 }] [] {} with c := { (optics [] [] {}).c with status := 2 } }; s.svc = false ∧ s.grantOf 0 5 = some { grant5 with owner := 9 } ∧ (9 : Nat) ≠ s.c.lid) ∧
    (grant5.fail = false ∧ ((optics [grant5] [] {}).reg 5).toNat = grant5.mode ∧ grant5.mode ≤ 2 ∧ grant5.next = none ∧ grant5.mmargin = some (-3)) ∧
    ((opticsBusy [grant5] 1 2).laneRunning 1 2 [2] = true ∧ (opticsBusy [grant5] 1 2).grantOf 0 5 = some grant5 ∧ (opticsBusy [grant5] 1 2).svc = true) ∧
    ((optics [grant5] [] {}).laneRunning 0 1 [1, 2] = false ∧ (optics [grant5] [] {}).laneRunning 1 2 [2] = false) := by
  and_intros <;> decide +kernel

theorem witness_GrantInstructions_2 : RawBlock (optics [grant5] [] {}) ((optics [grant5] [] {}).reg 1) 16 16 ∧ RawBlock (optics [grant5] [] {}) 0x1010 2 1 := by exact ⟨by constructor <;> decide, by constructor <;> decide⟩

theorem witness_GrantInstructions_3 : RequestOk (optics [grant5] [] {}) (grantReq ((optics [grant5] [] {}).c.mem.readBytes 0x1000 16)) [1, 2] := by exact ⟨by decide, by decide, by decide, by decide, by decide, by decide, by decide⟩

theorem witness_GrantInstructions_4 : RawBlock (opticsBusy [grant5] 0 1) ((opticsBusy [grant5] 0 1).reg 1) 16 16 ∧ RawBlock (opticsBusy [grant5] 0 1) 0x1010 2 1 ∧ (opticsBusy [grant5] 0 1).laneRunning 0 1 [1, 2] = true := by exact ⟨by constructor <;> decide, by constructor <;> decide, by decide⟩

theorem witness_PathStatesFollowMeasurement :
    (let g := { grant5 with state := .settling }; let s := optics [g] [] { n := g.key, meas := [(g.key, [{ margin := 0, crc := 1 }])] }; s.chip.grants.find? (·.key = s.input.n) = some g ∧ s.input.meas.find? (·.1 = g.key) = some (g.key, [{ margin := 0, crc := 1 }]) ∧ [({ margin := 0, crc := 1 } : RxMeas)].length = g.dests.length ∧ ∀ m ∈ [({ margin := 0, crc := 1 } : RxMeas)], (g.margin : Int) / 2 ≤ m.margin ∧ m.crc < 2) ∧
    ((2 * 10000 + 2000 ≤ 22000) ∧ ¬(0 + 2000 ≤ (optics [] [] {}).xc) ∧ ¬∀ m ∈ [({ margin := -1, crc := 1 } : RxMeas)], (grant5.margin : Int) / 2 ≤ m.margin ∧ m.crc < 2) ∧
    (let s : State := { optics [grant5] [] { meas := [(5, [{ margin := 9, crc := 2 }])] } with xc := 20003 }; s.chip.grants = [grant5] ∧ grant5.part ≠ none ∧ s.input.meas.find? (·.1 = grant5.key) = some (grant5.key, [{ margin := 9, crc := 2 }]) ∧ grant5.state = .lit ∧ s.chip.window < s.xc / 10000 ∧ grant5.litXc + 10000 ≤ 10000 * (s.xc / 10000)) ∧
    (optics [grant5] [] {}).xc / 10000 ≤ (optics [grant5] [] {}).chip.window ∧
    (let s := optics [grant5] [] { n := 6 }; s.input.n < 16 ∧ s.chip.failed.contains s.input.n = false ∧ (∀ x ∈ s.chip.grants, x.fail = false) ∧ (s.chip.grants.map fun x => (x.id, x.part)).Nodup ∧ waveOf grant5.src grant5.lane = 6) ∧
    (let g : Grant := { id := 0x8001, src := 144, lane := 1, gu := 20, mode := 0, state := .stepping, next := some (1, 30) }; let s := optics [g] [] { n := 0x8001 }; s.chip.grants.find? (fun x => x.fibre && x.id == s.input.n) = some g ∧ g.state = .stepping) := by
  and_intros <;> decide +kernel

/-- Chip 1 of a table that routes to chip 0 by port 2 and to no other; a request at 0x1000: peer 0, window 5, off 16, 32 bytes at 0x2000, tag 7. -/
def table1 : Routing := { ver := 3, n := 2, routes := [2, 0xFE] }

def fabric (ch : Chip) (ws : List Nat) (inp : Input) : State := { core
  { pc := 0x200, status := 3, s := sregs [(1, 0x1000), (2, 5), (3, 4096), (4, 0), (5, 1), (6, 3), (7, 0x10005), (8, 0x1040), (10, 2)], mem := Memory.writeBytes (words 0x1000 ws) 0x2000 (List.replicate 32 9) } with
  chip := { ch with num := 1, tv := 3, active := some table1 }, input := inp }

def thePacket (k : PacketClass) : Packet := { cls := k, origin := 1, tv := some 3, win := 5, off := 16, len := 32 }

def reqWords : List Nat := [0x50000, 16, 0x2000, 0x70020]

def theOp (k : FabKind) : FabOp := { id := 0, kind := k, lid := 0, peer := 0, win := 5, off := 16, len := 32, laddr := 0x2000, tag := 7 }

theorem witness_FabricRequestsLeaveByTheirRoute : FabricCalm (fabric {} reqWords {}) := by constructor <;> decide

theorem witness_FabricRequestsLeaveByTheirRoute_2 :
    ((fabric {} reqWords {}).route 0 = .port 2 ∧ ((fabric {} reqWords {}).port 2).drained = false ∧ (fabric {} reqWords {}).c.memErr = [] ∧ ¬∃ r ∈ (fabric {} reqWords {}).chip.allows, r.granter = 0 ∧ r.win = 5) ∧
    (fabric {} [0x50002, 16, 0x2000, 0x70020] {}).route 2 = .nowhere ∧
    64 ≤ ((fabric { ops := List.replicate 64 (theOp .put), nextOp := 1 } reqWords {}).chip.ops.filter fun x => x.core == none && (x.kind == .put || x.kind == .get || x.kind == .allow)).length := by
  and_intros <;> decide +kernel

theorem witness_FabricRequestsLeaveByTheirRoute_3 : RequestAt (fabric {} reqWords {}) 1 .put 0 5 16 0x2000 32 7 ∧ RequestAt (fabric {} reqWords {}) 1 .get 0 5 16 0x2000 32 7 := by exact ⟨⟨by constructor <;> decide, by decide, by decide, by decide, by decide, by decide, by decide, by decide, by decide⟩, ⟨by constructor <;> decide, by decide, by decide, by decide, by decide, by decide, by decide, by decide, by decide⟩⟩

theorem witness_FabricRequestsLeaveByTheirRoute_4 : RequestAt (fabric {} [0x50000, 16, 0, 0x70020] {}) 1 .allow 0 5 16 0 32 7 ∧ (∃ w, (fabric { windows := [{ win := 5, kind := 2 }] } [0x50000, 16, 0, 0x70020] {}).window 5 = some w ∧ w.kind = 2 ∧ w.dereg = false) := by exact ⟨⟨by constructor <;> decide, by decide, by decide, by decide, by decide, by decide, by decide, by decide, by decide⟩, ⟨_, rfl, by decide⟩⟩

/-- A plain window record for window 5: local memory, the last 64 bytes. -/
def regWords (base len : Nat) : List Nat := [5 + 2 ^ 14, base, 0, len, 0, 0, 0, 0]

theorem witness_WindowAndVersionInstructions : FabricCalm (fabric {} (regWords 0x9FFC0 64) {}) ∧ (fabric {} (regWords 0x9FFC0 64) {}).svc = true := by exact ⟨by constructor <;> decide, by decide⟩

theorem witness_WindowAndVersionInstructions_2 : RawBlock (fabric {} (regWords 0x9FFC0 64) {}) ((fabric {} (regWords 0x9FFC0 64) {}).reg 1) 32 32 ∧ (fabric {} (regWords 0x9FFC0 64) {}).window 5 = none ∧ littleEndian (fabric {} (regWords 0x9FFC0 64) {}).c.mem 0x1000 4 = 5 + 2 ^ 14 := by exact ⟨by constructor <;> decide, by decide, by decide⟩

theorem witness_WindowAndVersionInstructions_3 :
    ((fabric { windows := [{ win := 5 }] } (regWords 0 64) {}).window 5).isSome = true ∧
    (let s := fabric { windows := [{ win := 5, org := 4, tgt := 6 }] } [] {}; s.c.pend = .none ∧ (s.reg 2).toNat < 4096 ∧ s.window 5 = some { win := 5, org := 4, tgt := 6 } ∧ s.chip.ops = [] ∧ s.chip.allows = [] ∧ s.c.pend = .none) ∧
    ((fabric {} [] {}).window 5 = none ∧ ((fabric {} [] {}).reg 6).toNat ≤ 3) ∧
    (let s := fabric {} [] {}; s.window ((s.reg 2).toNat % 4096) = none ∧ (s.reg 2).toNat < 2 ^ 17 ∧ (0 - s.reg 2).toInt < 0 ∧ 0 ≤ (0 - s.reg 4).toInt ∧ s.c.pend = .none) ∧
    (let s : State := { fabric {} [] {} with c := { (fabric {} [] {}).c with pend := .wwait 7 true } }; s.window 5 = none ∧ s.c.pend = .wwait 7 true) ∧
    (let s : State := { fabric {} [] {} with c := { (fabric {} [] {}).c with pend := .wwait 7 false } }; s.c.pend = .wwait 7 false) ∧
    (let s : State := { fabric { windows := [{ win := 5, org := 4 }] } [] {} with c := { (fabric {} [] {}).c with pend := .wwait 7 true } }; s.c.pend = .wwait 7 true ∧ s.window 5 = some { win := 5, org := 4 }) ∧
    (let s : State := { fabric { windows := [{ win := 5 }] } [] {} with chip := { ({} : Chip) with windows := [{ win := 5 }] } }; s.chip.active = none ∧ s.window 5 = some { win := 5 }) ∧
    4096 ≤ ((fabric {} [] {}).reg 3).toNat ∧
    (0 ≤ ((4 : Word) - 4).toInt ∧ ((4 : Word) - 5).toInt < 0) ∧
    (let s : State := { fabric {} (regWords 0 64) {} with c := { (fabric {} (regWords 0 64) {}).c with status := 2 } }; s.svc = false) ∧
    ((fabric {} [] {}).reg 4 = 0 ∧ (fabric {} [] {}).reg 5 = 1 ∧ 1 < ((fabric {} [] {}).reg 6).toNat ∧ (fabric { inactive := some table1, staged := true } [] {}).stagedTable = some table1) ∧
    ((let s := fabric {} [9, 0xA0000, 0] {}; 0xA0000 < offOf (s.reg 1) + (8 + littleEndian s.c.mem 0x1004 4))) ∧
    ((∀ r ∈ [0x1F, 0xFE, 0xFF], r < 32 ∨ 0xFE ≤ r) ∧ (∀ j, j < 3 → ([0x1F, 0xFE, 0xFF][j]? = some 0xFE ↔ j = 1))) ∧
    (let s := fabric { commitBy := some (5, 0) } [9, 3, 0xFFFE1F] {}; s.chip.commitBy.isSome = true ∧ s.chip.later = [] ∧ s.svc = true) ∧
    (let s : State := { fabric {} [] {} with c := { (fabric {} [] {}).c with pend := .commit 5 7, issue := some (.tvcommit 9 2, {}), stall := true } }; s.c.pend = .commit 5 7 ∧ s.c.issue = some (.tvcommit 9 2, {}) ∧ s.chip.staged = false) ∧
    (let s : State := { fabric { staged := true, inactive := some { ver := 5, n := 2, routes := [3, 254] } } [] {} with c := { (fabric {} [] {}).c with pend := .commit 5 7, issue := some (.tvcommit 9 2, {}), stall := true } }; s.stagedTable = some { ver := 5, n := 2, routes := [3, 254] } ∧ s.chip.later = [] ∧ (3 : Fin 32).val ∈ [3, 254] ∧ (s.port 3).commitIn ≠ some 5) ∧
    (let s := fabric { commitBy := some (5, 7) } [] {}; s.c.pend = .none ∧ s.chip.commitBy = some (5, 7) ∧ s.chip.later = []) ∧
    (let s : State := { fabric {} [] {} with c := { (fabric {} [] {}).c with pend := .drain 7, issue := some (.drain 9 2 4, {}), stall := true } }; s.c.pend = .drain 7) ∧
    ((∀ p : Fin 32, ((fabric {} [] {}).reg 2).getLsbD p.val = true → ((fabric {} [] {}).port p).drained = false ∧ ((fabric {} [] {}).port p).markerIn = false) ∧ ((fabric {} [] {}).reg 2).getLsbD 0 = true) ∧
    (let s : State := { fabric { windows := [{ win := 5, dereg := true, waits := [2] }] } [] {} with c := { (fabric {} [] {}).c with pend := .dereg 5 7, issue := some (.wdereg 9 2, {}), stragg := 9 } }; s.c.stragg ≠ 0 ∧ s.window 5 = some { win := 5, dereg := true, waits := [2] }) ∧
    (let s : State := { fabric { windows := [{ win := 5, dereg := true }] } [] {} with c := { (fabric {} [] {}).c with pend := .dereg 5 7, issue := some (.wdereg 9 2, {}), stragg := 9 } }; s.c.stragg ≠ 0 ∧ s.window 5 = some { win := 5, dereg := true }) ∧
    (let s : State := { fabric { windows := [{ win := 5, org := 4 }] } [] {} with c := { (fabric {} [] {}).c with pend := .wwait 7 true, issue := some (.wwait 9 2 3, {}), stragg := 9 } }; s.window ((s.reg 2).toNat % 4096) = some { win := 5, org := 4 } ∧ (s.reg 2).getLsbD 16 = false) := by
  and_intros <;> decide +kernel

theorem witness_WindowAndVersionInstructions_4 : RawBlock (fabric {} [9, 3, 0xFFFE1F] {}) 0x1000 8 4 ∧ RawBlock (fabric {} [9, 3, 0xFFFE1F] {}) 0x1000 (8 + 3) 4 := by exact ⟨by constructor <;> decide, by constructor <;> decide⟩

theorem witness_WindowAndVersionInstructions_5 : RawBlock (fabric {} [9, 5000, 0xFFFE1F] {}) 0x1000 (8 + 5000) 4 := by constructor <;> decide

theorem witness_WindowAndVersionInstructions_6 : FabricCalm (fabric { staged := true, inactive := some { ver := 5, n := 2, routes := [255, 254] } } [] {}) ∧ ((fabric {} [] {}).reg 2).toNat < 2 ^ 16 ∧ (∀ y ∈ [255, 254], 32 ≤ y) ∧ (∀ p, ((fabric {} [] {}).port p).lock = .dark) := by exact ⟨by constructor <;> decide, by decide, by decide, by decide⟩

theorem witness_WindowAndVersionInstructions_7 : let s : State := { fabric { ports := (Vector.replicate 32 {}).set 0 { drained := true } |>.set 2 { drained := true } } [] {} with c := { (fabric {} [] {}).c with pend := .drain 7, issue := some (.drain 9 2 4, {}), stall := true } }; FabricCalm s ∧ (∀ p : Fin 32, (s.reg 2).getLsbD p.val = true → (s.port p).drained = true) := by exact ⟨by constructor <;> decide, by decide⟩

/-- Port 2 as q, in a core in S mode whose registers name it by mask (r1) and by number (r3, r4), with an operation in r2. -/
def link (q : Port) (b : Word) (inp : Input) (pd : Pend := .none) : State := { core
  { pc := 0x200, status := 3, s := sregs [(1, 4), (2, b), (3, 2), (4, 258)], pend := pd } with
  chip := { ({} : Chip) with ports := ({} : Chip).ports.set 2 q }, input := { inp with port := 2 } }

def up : Port := { lock := .locked, peerChip := 3, peerPort := 7, hadPeer := true, count := 10 }

theorem witness_LinksLockDrainAndChangeCode : FabricCalm (link up 0 {}) ∧ (link up 0 {}).svc = true := by exact ⟨by constructor <;> decide +kernel, by decide +kernel⟩

theorem witness_LinksLockDrainAndChangeCode_2 :
    (((link up 0 {}).reg 2).toNat = 0 ∧ ((link up 1 {}).reg 2).toNat = 1 ∧ ((link up 2 {}).reg 2).toNat = 2 ∧ ((link up 3 {}).reg 2).toNat = 3 ∧ (link up 1 {}).reg 5 = 0) ∧
    3 < ((link up 4 {}).reg 2).toNat % 16 ∧
    ((let s := link {} 0 {}; (s.reg 1).toNat = 2 ^ 2 ∧ (s.port 2).lock = .dark ∧ s.c.pend = .none)) ∧
    ((let s := link { up with drained := true } 0 {} (.drain 5); s.c.pend = .drain 5 ∧ (s.port 2).drained = true)) ∧
    ((let s := link up 0 {}; s.c.pend = .none ∧ (s.port 2).lock = .locked ∧ (s.port 2).drained = false ∧ (s.port 2).markerIn = false)) ∧
    ((let s := link up 1 {} (.fec [2] 5); s.c.pend = .fec [2] 5 ∧ (s.port 2).fecReq = none)) ∧
    ((let s := link up 0x21 {}; (s.reg 2).toNat % 16 = 1 ∧ (s.reg 2).toNat / 16 ≤ 2 ∧ s.c.pend = .none ∧ (s.port 2).lock = .locked)) ∧
    ((let s := link up 2 {} (.retrain [2] 5); s.c.pend = .retrain [2] 5 ∧ (s.port 2).lock = .locked) ∧ (let s := link {} 2 {} (.retrain [2] 5); s.c.pend = .retrain [2] 5 ∧ (s.port 2).lock = .dark)) ∧
    ((let s := link up 2 {}; (s.reg 2).toNat % 16 = 2 ∧ s.c.pend = .none ∧ (s.port 2).lock ≠ .dark) ∧ ((link {} 2 {}).port 2).lock = .dark) ∧
    ((let s := link { up with drained := true, markerIn := true } 3 {}; (s.reg 2).toNat % 16 = 3 ∧ s.chip.ops = [])) ∧
    (((link up 0 {}).reg 3).toNat = 2 ∧ ((link up 0 {}).reg 4).toNat = 2 + 256) := by
  and_intros <;> decide +kernel

theorem witness_LinksLockDrainAndChangeCode_locks :
    ((link {} 0 {}).input.port = 2 ∧ ((link {} 0 {}).port 2).lock = .dark) ∧
    ((let s := link { lock := .locking, frames := [{ seq := 4 }] } 0 { chip := 3, peerPort := 7 }; s.chip.burst = true ∧ (s.port s.input.port).lock = .locking ∧ (s.port s.input.port).hadPeer = false)) ∧
    ((let s := link { lock := .locking } 0 {}; let t : State := { s with chip := { s.chip with burst := false } }; t.chip.burst = false)) ∧
    ((link { lock := .locking } 0 {}).port 2).lock = .locking ∧
    ((link up 0 {}).chip.burst = true ∧ ((link up 0 {}).port 2).lock = .locked) ∧
    ((let s := link up 0 {}; let t : State := { s with chip := { s.chip with burst := false } }; t.chip.burst = false ∧ (t.port t.input.port).lock = .locked)) ∧
    (link up 0 {}).chip.burst = true ∧
    ((let s := link up 0 { n := 4 }; let t : State := { s with chip := { s.chip with burst := false } }; t.chip.burst = false)) ∧
    (link {} 0 {}).chip.boot.micro = false ∧
    ((let s := link { lock := .locking } 0 { flag := true, nums := [1, 3, 2, 4], chip := 3, peerPort := 7, losses := [(146, 5, 6, 7), (9, 9, 9, 9)] }; let t : State := { s with chip := { s.chip with burst := false, boot := { s.chip.boot with micro := true } } }; t.chip.boot.micro = true ∧ t.chip.burst = false ∧ (t.port t.input.port).lock = .locking ∧ t.input.flag = true ∧ Nat.max 1 2 ≤ Nat.min 3 4 ∧ (t.port t.input.port).hadPeer = false)) ∧
    ((let s := link { lock := .locking } 0 { flag := true, nums := [1, 2, 3, 4] }; let t : State := { s with chip := { s.chip with burst := false, colls := [{}], boot := { s.chip.boot with micro := true } } }; t.chip.boot.micro = true ∧ t.chip.burst = false ∧ (t.port t.input.port).lock = .locking ∧ Nat.min 2 4 < Nat.max 1 3)) := by
  and_intros <;> decide +kernel

theorem witness_LinksLockDrainAndChangeCode_locks_2 : (let s := link { lock := .locking, peerChip := 1, hadPeer := true, markerIn := true, commitIn := some 4, txSeq := 5, rxSeq := 6 } 0 { chip := 3, peerPort := 7 }; FabricCalm s ∧ (s.port 2).hadPeer = true ∧ (s.port 2).peerChip ≠ s.input.chip ∧ (s.port 2).frames = [] ∧ s.c.pend = .none) := by exact ⟨by constructor <;> decide +kernel, by decide +kernel⟩

/-- A burst on a LOCKED port whose header names port 7 of chip n, in a chip that has put toward it. -/
def toOld : FabOp := { id := 4, kind := .put, peer := 3, win := 5, len := 16, tag := 6 }

def renamed (n : Nat) (ops : List FabOp) : State :=
  let s := link { up with rxSeq := 6, txSeq := 4, markerIn := true } 0 { chip := n, peerPort := 7 }
  { s with chip := { s.chip with ops := ops, nextOp := 9, num := 1, active := some { ver := 0, n := 4, routes := [0xFF, 0xFE, 0xFF, 2] } } }

theorem witness_LinksLockDrainAndChangeCode_peers : FabricCalm (renamed 4 [toOld]) := by constructor <;> decide +kernel

theorem witness_LinksLockDrainAndChangeCode_peers_2 :
    ((let s := renamed 3 []; s.chip.burst = true ∧ (s.port 2).lock = .locked ∧ (s.port 2).peerChip = s.input.chip ∧ (s.port 2).peerPort = s.input.peerPort)) ∧
    ((let s := renamed 4 []; s.chip.burst = true ∧ (s.port 2).lock = .locked ∧ (s.port 2).hadPeer = true ∧ (s.port 2).peerChip ≠ s.input.chip ∧ (s.port 2).frames = [] ∧ s.c.pend = .none ∧ s.chip.ops = [] ∧ s.chip.crossings = [])) ∧
    ((let s := renamed 4 [toOld]; s.chip.ops = [toOld] ∧ toOld.state = .sent ∧ toOld.core = none ∧ toOld.lid = s.c.lid ∧ s.route toOld.peer = .port 2)) := by
  and_intros <;> decide +kernel

theorem witness_LinksLockDrainAndChangeCode_frames : FabricCalm (link up 0 {}) := by constructor <;> decide +kernel

theorem witness_LinksLockDrainAndChangeCode_frames_2 :
    ((let s := link { up with rxSeq := 6 } 0 { flag := true, seq := 6 }; (s.port s.input.port).lock = .locked ∧ s.input.flag = true ∧ s.input.flag2 = false ∧ (s.port s.input.port).fecWin = none ∧ s.input.seq = (s.port s.input.port).rxSeq)) ∧
    ((let s := link { up with rxSeq := 6 } 0 { flag := true, seq := 7 }; s.input.flag2 = false ∧ s.input.seq ≠ (s.port s.input.port).rxSeq)) ∧
    ((let s := link { up with rxSeq := 6 } 0 { seq := 6 }; s.input.flag = false ∧ s.input.flag2 = false ∧ (s.port s.input.port).fecWin = none)) ∧
    ((let s := link { up with rxSeq := 6, fecWin := some { n := 1, mode := 2, f := 300, closed := false } } 0 { flag2 := true, seq := 7, n := 300 }; s.input.flag = false ∧ s.input.flag2 = true ∧ (s.port s.input.port).fecWin = some { n := 1, mode := 2, f := 300, closed := false } ∧ 300 ≤ s.input.n ∧ s.input.n ≤ 300 + 1023)) ∧
    ((link {} 0 {}).port 2).lock ≠ .locked ∧
    (link { up with frames := [{ seq := 8 }, { seq := 9 }] } 0 { seq := 8, flag := true }).input.flag = true ∧
    ((link { up with fecWin := some { n := 9, mode := 1, f := 300, closed := true } } 0 { seq := 9, off := 300 }).port 2).fecWin = some { n := 9, mode := 1, f := 300, closed := true } ∧
    ((let s := link { up with count := 400, fecReq := some { n := 9, mode := 1, f := 301, closed := false } } 0 { seq := 9 }; (s.port s.input.port).fecReq = some { n := 9, mode := 1, f := 301, closed := false } ∧ (s.port s.input.port).count ≤ 301 + 1023)) ∧
    ((link { up with fecReq := some { n := 9, mode := 1, f := 301, closed := true } } 0 { seq := 9 }).port 2).fecReq = some { n := 9, mode := 1, f := 301, closed := true } ∧
    ((let s := link { up with count := 1325, fecReq := some { n := 9, mode := 1, f := 301, closed := false } } 0 { seq := 9 }; 301 + 1023 < (s.port 2).count ∧ (s.port 2).fecReq = some { n := 9, mode := 1, f := 301, closed := false })) ∧
    ((link { up with fecReq := some { n := 9, mode := 1, f := 301, closed := false } } 0 {}).port 2).fecReq = some { n := 9, mode := 1, f := 301, closed := false } ∧
    ((let s := link { up with fecWin := some { n := 8, mode := 1, f := 301, closed := false } } 0 { seq := 9, off := 300, status := 1 }; (s.port s.input.port).fecWin = some { n := 8, mode := 1, f := 301, closed := false } ∧ (8 : Byte) ≠ 9)) ∧
    ((let s := link { up with fecWin := some { n := 9, mode := 1, f := 301, closed := false } } 0 { n := 1325 }; (s.port s.input.port).fecWin = some { n := 9, mode := 1, f := 301, closed := false } ∧ 301 + 1023 < s.input.n)) ∧
    ((let s := link up 0 {} (.fec [2] 5); let t : State := { s with c := { s.c with issue := some (.drainFec 9 1 2, {}) } }; t.c.pend = .fec [t.input.port.val] 5 ∧ t.c.issue = some (.drainFec 9 1 2, {}) ∧ (t.port 2).fecReq = none)) ∧
    ((let s := link { up with fecReq := some { closed := false } } 0 {} (.fec [2] 5); let t : State := { s with c := { s.c with issue := some (.drainFec 9 1 2, {}) } }; t.c.pend = .fec [t.input.port.val] 5 ∧ t.c.issue = some (.drainFec 9 1 2, {}) ∧ (t.port 2).fecReq.isSome = true)) := by
  and_intros <;> decide +kernel

theorem witness_LinksLockDrainAndChangeCode_frames_3 : (∀ w, ((link up 0 { seq := 9, off := 300, status := 1 }).port 2).fecWin = some w → w.n ≠ 9 ∧ w.closed = true) := by (intro w h; cases h)

theorem witness_LinksLockDrainAndChangeCode_frames_4 : (∀ w, ((link up 0 {}).port 2).fecWin = some w → (link up 0 {}).input.n ≤ w.f + 1023) := by (intro w h; cases h)

/-- A change that another core began at xc 5, 60 µs before or less. -/
def begun (xc : Nat) : State :=
  { link { up with fecReq := some { n := 9, mode := 1, f := 301, closed := false, other := some 5 } } 0 { seq := 9 } with xc := xc }

theorem witness_LinksLockDrainAndChangeCode_begun : ((begun 60005).port 2).fecReq = some { n := 9, mode := 1, f := 301, closed := false, other := some 5 } ∧ 5 + 60000 ≤ (begun 60005).xc ∧ ¬5 + 60000 ≤ (begun 60004).xc ∧ (begun 60005).c.pend = .none := by decide +kernel

/-- A chip whose window 5 is 64 bytes of this core's local memory at 0x2000, counted 3, with bytes in it. -/
def host (ch : Chip) (inp : Input) : State := { core
  { pc := 0x200, status := 3, mem := Memory.writeBytes [] 0x2000 ((List.range 64).map (BitVec.ofNat 8 ·)) } with
  chip := { ch with num := 1, tv := 3, active := some table1 }, input := { inp with port := 2 } }

def win5 : Window := { win := 5, loc := true, base := 0x2000, len := 64, tgt := 3 }

/-- A packet of chip 0 for window 5, and an answer of this chip to it. -/
def fromPeer (k : PacketClass) : Packet := { cls := k, dest := 1, tv := some 3, op := 7, win := 5 }

def toPeer (k : PacketClass) : Packet := { cls := k, origin := 1, tv := some 3, op := 7 }

/-- A put of 16 bytes, and one of 32 of which the first 16 come. -/
def aPut (off : Nat) : Packet := { fromPeer .put with off := off, len := 16, data := List.replicate 16 9 }

def aGet (off : Nat) : Packet := { fromPeer .get with off := off, len := 16 }

def halfPut : Packet := { aPut 16 with len := 32 }

theorem witness_PutsAndGetsReachTheirWindow : FabricCalm (host { windows := [win5] } { packet := aPut 48 }) := by constructor <;> decide +kernel

theorem witness_PutsAndGetsReachTheirWindow_2 :
    ((let s := host { windows := [win5] } { packet := aPut 48 }; s.input.packet.tv = some (s.chip.tv.extractLsb' 0 16) ∧ s.input.packet.dest = s.chip.num.toNat ∧ s.window 5 = some win5 ∧ win5.kind = 0 ∧ win5.dereg = false ∧ win5.loc = true ∧ win5.half = s.half ∧ s.t.gate = none ∧ s.c.memErr = [] ∧ s.input.packet.bad = [] ∧ s.chip.arriving = [] ∧ (aPut 48).pos + (aPut 48).data.length = 16 ∧ (aPut 48).len ≤ 16 ∧ (aPut 48).off + 16 ≤ win5.len)) ∧
    ((let s := host { windows := [win5] } { packet := { aPut 48 with aperture := true } }; s.input.packet.aperture = true)) ∧
    ((halfPut.pos + halfPut.data.length = 16 ∧ 16 < halfPut.len)) ∧
    (win5.len < (aPut 64).off + 16 ∧ win5.len < (aGet 64).off + (aGet 64).len ∧ (aGet 48).off + (aGet 48).len ≤ win5.len) := by
  and_intros <;> decide +kernel

/-- Window 5 as a ring of 128 bytes, tail 96, whose head word at 0x3000 holds 32, as a rendezvous window for which chip 0 holds an
  allowance, and in LPDDR 6 under key slot 4; a put to it. -/
def ring5 : Window := { win5 with kind := 1, len := 128, headw := 0x3000, tail := 96 }

def meet5 : Window := { win5 with kind := 2 }

def far5 : Window := { win5 with loc := false, key := 4, base := 0x10000 }

def allowed : Allowance := { granter := 1, grantee := 0, win := 5, off := 16, len := 32, tag := 3 }

def grantOp : FabOp := { id := 2, kind := .allow, peer := 0, win := 5, off := 16, len := 32, tag := 3 }

def aims (w : Window) (keys : List (Nat × Nat)) (ops : List FabOp) (p : Packet) : State :=
  let s := host { windows := [w], keys := keys, ops := ops, nextOp := 9 } { packet := p }
  { s with c := { s.c with mem := s.c.mem.writeBytes 0x3000 [32] } }

def putOf (n off : Nat) : Packet := { fromPeer .put with off := off, len := n, data := (List.range n).map (BitVec.ofNat 8 ·) }

theorem witness_PutsAndGetsReachTheirWindow_kinds : FabricCalm (aims meet5 [(4, 7)] [grantOp] (putOf 64 0)) := by constructor <;> decide +kernel

theorem witness_PutsAndGetsReachTheirWindow_kinds_2 :
    ((let s := aims ring5 [] [] (putOf 64 0); s.window 5 = some ring5 ∧ ring5.core = none ∧ ring5.dereg = false ∧ s.input.packet.aperture = false ∧ (ring5.tail - BitVec.ofNat 32 (littleEndian s.c.mem ring5.headw 4)).toNat + 64 ≤ ring5.len ∧ ring5.len % 64 = 0 ∧ ring5.tail.toNat % 16 = 0)) ∧
    ((let s := aims ring5 [] [] (putOf 80 0); ring5.len < (ring5.tail - BitVec.ofNat 32 (littleEndian s.c.mem ring5.headw 4)).toNat + 80)) ∧
    ((aims meet5 [] [] (putOf 16 0)).input.packet.allow = none ∧ meet5.kind ≠ 0 ∧ ({ putOf 16 0 with aperture := true }).aperture = true ∧ (aGet 0).cls = .get) ∧
    ((let s := aims meet5 [] [grantOp] { putOf 16 16 with allow := some allowed }; s.chip.ops.find? (fun x => x.kind == .allow && x.peer == 0 && x.win == allowed.win && x.off == allowed.off && x.len == allowed.len && x.tag == allowed.tag) = some grantOp ∧ grantOp.allow = none ∧ grantOp.core = none ∧ grantOp.lid = s.c.lid ∧ 16 + 16 + 16 ≤ meet5.len ∧ 16 + 16 ≤ allowed.len)) ∧
    (16 + 32 + 16 ≤ meet5.len ∧ allowed.len < 32 + 16) ∧
    ((aims far5 [] [] (putOf 16 0)).keyOf far5.key = none ∧ (aims far5 [(4, 7)] [] (putOf 16 0)).keyOf far5.key = some 7 ∧ far5.loc = false ∧ (far5.base + 48) % 16 = 0) ∧
    ((let s := aims win5 [] [] (putOf 16 0); ({ s with t := { s.t with gate := some .retain } } : State).t.gate ≠ none)) := by
  and_intros <;> decide +kernel

/-- An operation of this core that has left for chip 0, and an answer to it. -/
def sentOp (k : FabKind) : FabOp := { id := 7, kind := k, peer := 0, win := 5, off := 16, len := 16, laddr := 0x2010, tag := 6 }

def answered (k : FabKind) (ws : List Window) (p : Packet) : State := host { ops := [sentOp k], nextOp := 8, windows := ws } { packet := p }

def anAck (st : Nat) : Packet := { fromPeer .ack with status := st, len := 16 }

def readBack (n : Nat) : Packet := { fromPeer .readData with len := 16, data := List.replicate n 9 }

theorem witness_AnswersTransitAndNotices : FabricCalm (answered .put [] {}) := by constructor <;> decide +kernel

theorem witness_AnswersTransitAndNotices_2 :
    (({ fromPeer .put with tv := some 4 } : Packet).cls.request = true ∧ ({ fromPeer .put with tv := some 4 } : Packet).tv ≠ some ((host {} {}).chip.tv.extractLsb' 0 16)) ∧
    ((let s := host {} { packet := { fromPeer .get with dest := 0, origin := 9 } }; s.input.packet.tv = some (s.chip.tv.extractLsb' 0 16) ∧ s.route 0 = .port 2 ∧ (s.port 2).drained = false)) ∧
    (host {} { packet := { fromPeer .put with dest := 2 } }).route 2 = .nowhere ∧
    ((let s := host { ports := (Vector.replicate 32 {}).set 2 { drained := true } } { packet := fromPeer .put }; (s.port s.input.port).drained = true)) ∧
    ((let s := host { active := none } { packet := { fromPeer .get with dest := 0, origin := 9 } }; let u : State := { s with input := { s.input with port := 4 }, chip := { s.chip with ports := (Vector.replicate 32 {}).set 2 { drained := true } } }; (u.port u.input.port).drained = false ∧ u.route 0 = .port 2 ∧ (u.port 2).drained = true)) ∧
    ((let s := host { crossings := [{ chip := 9, op := 7, came := 4, left := 2, owes := true }] } { packet := { fromPeer .readData with dest := 9, len := 32, data := List.replicate 16 1 } }; s.input.packet.last = false ∧ (s.port 4).drained = false)) ∧
    ((let s := host { crossings := [{ chip := 9, op := 7, came := 4, left := 2, owes := true }] } { packet := { fromPeer .ack with dest := 9 } }; s.input.packet.cls.request = false ∧ s.input.packet.dest ≠ s.chip.num.toNat)) ∧
    ((let s := answered .put [] (anAck 3); s.input.packet.dest = s.chip.num.toNat ∧ s.findOp s.input.packet.op = some (sentOp .put) ∧ (sentOp .put).state = .sent ∧ (sentOp .put).lid = s.c.lid ∧ (sentOp .put).allow = none ∧ s.input.packet.cls = .ack ∧ s.input.packet.status ≠ 0 ∧ s.input.packet.status ≠ 12)) ∧
    ((let s := host { ops := [{ sentOp .put with core := some 5 }], nextOp := 8 } { packet := anAck 3 }; s.findOp s.input.packet.op = some { sentOp .put with core := some 5 } ∧ s.input.packet.status ≠ 0 ∧ s.input.packet.status ≠ 12)) ∧
    ((let s := answered .put [] (anAck 0); s.input.packet.status = 0 ∧ s.chip.windows = [])) ∧
    ((let s := answered .put [win5] (anAck 0); s.chip.windows = [win5] ∧ win5.win = (sentOp .put).win)) ∧
    ((let s := answered .get [] { fromPeer .reject with status := 8 }; s.input.packet.cls = .reject ∧ s.input.packet.status ≠ 0 ∧ s.findOp 7 = some (sentOp .get))) ∧
    ((let s := answered .get [] (readBack 16); s.findOp s.input.packet.op = some (sentOp .get) ∧ s.input.packet.cls = .readData ∧ s.input.packet.pos = (sentOp .get).data.length ∧ s.input.packet.len ≤ 16 ∧ s.input.packet.bad = []) ∧ 8 < (readBack 8).len) ∧
    ((∀ r ∈ (answered .put [] (fromPeer .needAllowance)).chip.allows, r.granter ≠ (sentOp .put).peer ∨ r.win ≠ (sentOp .put).win) ∧ (answered .put [] (fromPeer .needAllowance)).chip.ops = [sentOp .put] ∧ (sentOp (.aperture true)).kind = .aperture true) ∧
    ((let s := host {} { packet := { fromPeer .allowance with allow := some { granter := 0, grantee := 1, win := 5, len := 16 } } }; s.input.packet.cls = .allowance ∧ s.input.packet.tv = some (s.chip.tv.extractLsb' 0 16))) ∧
    ((let s := answered .put [] (fromPeer .deregNotice); s.input.packet.cls = .deregNotice ∧ ∃ x ∈ s.chip.ops, x.peer = s.input.packet.origin ∧ x.win = s.input.packet.win)) ∧
    ((let s := host { allows := [{ win := 5 }, { win := 6 }] } { packet := fromPeer .deregNotice }; ∀ x ∈ s.chip.ops, x.peer ≠ s.input.packet.origin ∨ x.win ≠ s.input.packet.win)) ∧
    ((let s := host { windows := [{ win5 with waits := [0, 4], dereg := true }] } { packet := fromPeer .deregAnswer }; s.input.packet.cls = .deregAnswer ∧ s.chip.windows = [{ win5 with waits := [0, 4], dereg := true }] ∧ s.input.packet.win = 5)) ∧
    ((let s := host {} { value := 4 }; s.input.value.toNat < 2 ^ 16 ∧ s.input.value.toNat ≠ s.chip.tv.toNat % 2 ^ 16 ∧ s.c.pend = .none)) ∧
    (host {} { value := 3 }).input.value.toNat = (host {} {}).chip.tv.toNat % 2 ^ 16 := by
  and_intros <;> decide +kernel

/-- A core whose registers name a start record (r1), ids 0, 3 and 16 (r2, r3, r4), a step (r5, r6, r7). -/
def colling (ks : List Coll) (ws : List Nat) : State := { core
  { pc := 0x200, status := 3, s := sregs [(1, 0x1000), (2, 0), (3, 3), (4, 16), (5, 1), (6, 0xFFFF), (7, 4)], mem := words 0x1000 ws } with
  chip := { ({} : Chip) with colls := ks } }

def coll3 : Coll := { id := 3, pva := 0x10000, nstep := 4, tag := 6, next := 2, status := 3, frozen := true }

theorem witness_CollectivesStepThroughTheirProgram : (colling [] []).inExchange = false ∧ RawBlock (colling [] [0x10000, 0x40000, 6, 0]) 0x1000 16 16 := by exact ⟨by decide +kernel, by constructor <;> decide⟩

theorem witness_CollectivesStepThroughTheirProgram_2 :
    ((let w (i : Nat) := littleEndian (colling [] [0x10000, 0x40000, 6, 0]).c.mem (0x1000 + 4 * i) 4; w 0 % 32 = 0 ∧ 0 < w 1 / 2 ^ 16 ∧ w 2 < 2 ^ 16 ∧ w 3 = 0)) ∧
    littleEndian (colling [] [0x10000, 4]).c.mem 0x1004 4 / 2 ^ 16 = 0 ∧
    ((∀ k ∈ (colling [coll3] []).chip.colls, k.id ≠ 0)) ∧
    16 ≤ ((colling [] []).reg 4).toNat ∧
    ((colling [coll3] []).svc = true ∧ (colling [coll3] []).coll 3 = some coll3 ∧ coll3.frozen = true) ∧
    (colling [{ coll3 with frozen := false }] []).coll 3 = some { coll3 with frozen := false } ∧
    (((colling [coll3] []).reg 6).toNat % 2 ^ 16 = 0xFFFF ∧ coll3.nstep ≤ ((colling [coll3] []).reg 7).toNat % 2 ^ 16 ∧ ((colling [coll3] []).reg 5).toNat % 2 ^ 16 < coll3.nstep) := by
  and_intros <;> decide +kernel

theorem witness_CollectivesStepThroughTheirProgram_3 : (∃ i, i < 16 ∧ ∀ k ∈ (colling [] []).chip.colls, k.id ≠ i) := by exact ⟨3, by decide, fun _ h => absurd h List.not_mem_nil⟩

theorem witness_CollectivesStepThroughTheirProgram_4 : (∀ i, ¬(i < 16 ∧ ∀ k ∈ (List.range 16).map fun n => ({ id := n } : Coll), k.id ≠ i)) := by exact fun i h => h.2 { id := i } (by simp; exact h.1) rfl

/-- Collective 3 at its step 2, whose words stand at 0x20040, with a page that maps 0x10000 to 0x20000 and words at 0x20080. -/
def stepping (ws : List Nat) (org tgt : Word) : State := { core { pc := 0x200, status := 3 } with
  t := { ({} : Tile) with tlb := [(3, page true true)] }
  chip := { ({} : Chip) with
    keys := [(0, 9)], num := 1, tv := 3, active := some table1, nextOp := 4
    windows := [{ win := 5, org := org, tgt := tgt }]
    gmem := Memory.writeBytes [] 0x20040 ((ws ++ [1, 2, 3, 0xFFFFFFFF]).flatMap (leBytes 4))
    colls := [{ coll3 with frozen := false }] }
  input := { n := 3 } }

def atStep : Coll := { coll3 with frozen := false }

def wordOf (ws : List Nat) (i : Nat) : Nat := ws.getD i 0

def putStep2 : List Nat := [0, 5, 0x10080, 0, 0, 0, 64, 128]

def waitStep : List Nat := [1, 0x10005, 0, 0, 0, 0, 4, 0]

def reduceStep : List Nat := [0x22, 0, 0x10040, 0, 0x10080, 0, 64, 0]

def endStep : List Nat := [3, 0, 0, 0, 0, 0, 0, 0]

def noStep : List Nat := [4, 0, 0, 0, 0, 0, 0, 0]

theorem stepReady (ws : List Nat) (h : ws.length = 8 ∧ (stepping ws 3 4).runOf atStep false (State.runBeats 0x10040 32) = .go [.lpddr 0x20040 9] ∧ ∀ i, i < 8 → leNat ((((stepping ws 3 4).gread 0x20040 64 9).drop ((atStep.pva + 32 * atStep.next) % 64 + 4 * i)).take 4) = wordOf ws i) :
    StepReady (stepping ws 3 4) atStep (wordOf ws) :=
  ⟨rfl, ⟨rfl, rfl⟩, rfl, 0x20040, 9, h.2.1, rfl, rfl, h.2.2⟩

theorem witness_CollectivesStepThroughTheirProgram_steps : StepReady (stepping putStep2 3 4) atStep (wordOf putStep2) ∧ FabricCalm (stepping putStep2 3 4) := by exact ⟨stepReady _ (by decide +kernel), by constructor <;> decide +kernel⟩

theorem witness_CollectivesStepThroughTheirProgram_steps_2 :
    ((let s := stepping putStep2 3 4; s.runOf atStep false (State.runBeats 0x10080 64) = .go [.lpddr 0x20080 9] ∧ s.chip.gerr.contains (0x20080 / 64) = false ∧ s.chip.soft.contains (0x20080 / 64) = false ∧ s.route 0 = .port 2 ∧ (s.port 2).drained = false ∧ s.chip.ops.length < 4096 ∧ s.chip.allows = [])) ∧
    (0 ≤ ((4 : Word) - BitVec.ofNat 32 4).toInt ∧ ((3 : Word) - BitVec.ofNat 32 4).toInt < 0 ∧ wordOf waitStep 1 / 2 ^ 16 % 2 = 1) ∧
    ((let s := { stepping endStep 3 4 with chip := { (stepping endStep 3 4).chip with colls := [{ atStep with void := true }] } }; s.coll s.input.n = some { atStep with void := true } ∧ atStep.lid = s.c.lid ∧ atStep.busy = false ∧ atStep.frozen = false)) := by
  and_intros <;> decide +kernel

theorem witness_CollectivesStepThroughTheirProgram_steps_3 : StepReady (stepping waitStep 3 4) atStep (wordOf waitStep) ∧ (stepping waitStep 3 4).window 5 = some { win := 5, org := 3, tgt := 4 } := by exact ⟨stepReady _ (by decide +kernel), by decide +kernel⟩

theorem witness_CollectivesStepThroughTheirProgram_steps_4 : StepReady (stepping reduceStep 3 4) atStep (wordOf reduceStep) ∧ wordOf reduceStep 0 % 256 = 2 + 16 * 2 ∧ (stepping reduceStep 3 4).runOf atStep false (State.runBeats 0x10040 64) = .go [.lpddr 0x20040 9] ∧ (stepping reduceStep 3 4).runOf atStep true (State.runBeats 0x10080 64) = .go [.lpddr 0x20080 9] := by exact ⟨stepReady _ (by decide +kernel), by decide +kernel, by decide +kernel, by decide +kernel⟩

theorem witness_CollectivesStepThroughTheirProgram_steps_5 : StepReady (stepping endStep 3 4) atStep (wordOf endStep) := by exact stepReady _ (by decide +kernel)

theorem witness_CollectivesStepThroughTheirProgram_steps_6 : StepReady (stepping noStep 3 4) atStep (wordOf noStep) := by exact stepReady _ (by decide +kernel)

/-- A launch record of level n for one core: entry 0x200, directory at 0x10000, parameters at 0x10200, no image; it depends on counter 5 being 3 or more. -/
def record (n : Nat) : List Byte := [0x200, n, 0x10000, 0, 0x10200, 0, 0, 0, 1, 0, 0x8005, 3, 0, 0, 0x8007, 0].flatMap (leBytes 4)

def held1 (n order xc : Nat) : QRec := { bytes := record n, space := { pages := [(1, 1)], asid := 4 }, level := n, order := order, xc := xc }

/-- A partition with queued records, counter 5 at 3, a directory entry whose image lies at 0x10100. -/
def queued (qs : List QRec) (inp : Input) : State := { State.reset with
  p := { ({} : Part) with queue := qs, order := 9, evaluate := true }
  xc := 20000000
  chip := { ({} : Chip) with counters := [(5, 3)], keys := [(0, 9)], gmem := Memory.writeBytes (Memory.writeBytes [] 0x10000 ([0x10100, 0, 64, 0x200].flatMap (leBytes 4))) 0x10100 (List.replicate 64 7) }
  input := { inp with pairs := [(1, 1)] } }

theorem witness_LaunchesQueueStartAndEnd :
    (recOk (record 3) = true ∧ ((queued [] { data := record 3 }).p.queue.filter fun q => q.level == 3).length < 64) ∧
    64 ≤ ((queued (List.replicate 64 (held1 3 0 0)) { data := record 3 }).p.queue.filter fun q => q.level == 3).length ∧
    (record 3).dropLast.length ≠ 64 ∧
    ((queued [held1 1 2 0, held1 2 6 0, held1 2 4 0] {}).nextRecord = some (held1 2 4 0) ∧ (queued [] {}).nextRecord = none) ∧
    ((queued [held1 1 2 0] {}).p.queue[0]? = some (held1 1 2 0) ∧ (queued [] {}).p.age ≠ 0 ∧ (queued [] {}).p.age.toNat * 1000 ≤ 20000000 - 10000000) ∧
    ({ n := 4095 } : Input).n < 4096 ∧
    (match (queued [held1 1 2 20000000] {}).prepare (held1 1 2 20000000) [] [] with | .start l _ _ _ _ => l.cores.contains (queued [] {}).coreId | _ => false) = true ∧
    (match (queued [{ held1 1 2 20000000 with space := {} }] {}).prepare { held1 1 2 20000000 with space := {} } [] [] with | .ends 2 0 => true | _ => false) = true ∧
    ((queued [] {}).nextRecord = none ∧ (State.reset.p.evaluate = false)) ∧
    ((queued [held1 1 2 20000000] {}).chip.gerr = [] ∧ (queued [held1 1 2 20000000] {}).chip.soft = [] ∧ ((queued [] {}).chip.log.held.filter (·.src = 0x1300 + (queued [] {}).p.num)).length < 64 ∧ (queued [] {}).p.queue = [] ∧ State.reset.p.evaluate = false) := by
  and_intros <;> decide +kernel

theorem witness_LaunchesQueueStartAndEnd_2 : NoLaunch (queued [held1 1 2 20000000] {}) ∧ (queued [held1 1 2 20000000] {}).p.evaluate = true ∧ (∀ x ∈ (queued [held1 1 2 20000000] {}).p.queue, (queued [held1 1 2 20000000] {}).overdue x = false) ∧ (queued [held1 1 2 20000000] {}).nextRecord = some (held1 1 2 20000000) := by exact ⟨⟨rfl, rfl, rfl⟩, by decide +kernel, by decide +kernel, by decide +kernel⟩

/-- A running launch of two cores; core 1 has halted. -/
def run2 (inp : Input) : State := { queued [] inp with
  c := { run := .halted, mem := [(5, 1)] }
  p := { ({} : Part) with running := some { id := 3, cores := [0, 1], done := some 7 }, trees := { masks := [(0, 0, 3)], halted := [0] } } }

theorem witness_LaunchesQueueStartAndEnd_end :
    ((let s := run2 { nums := [1] }; s.p.running = some { id := 3, cores := [0, 1], done := some 7 } ∧ s.p.shadowed = none ∧ s.p.prepared = none ∧ s.coreId ∈ [0, 1] ∧ ∀ m ∈ s.members 0, m ∈ s.p.trees.halted ∨ (m ∈ s.input.nums ∧ m ≠ s.coreId)) ∧ (run2 { nums := [1] }).copyIdle = true ∧ (run2 { nums := [1] }).input.flag = false) ∧
    ((let s := run2 {}; ∃ m ∈ s.members 0, m ∉ s.p.trees.halted ∧ (m ∉ s.input.nums ∨ m = s.coreId))) ∧
    ((let s := run2 { nums := [1] }; ∀ m ∈ [0, 1], m ≠ s.coreId → m ∈ s.p.trees.halted ∨ (m ∈ s.input.nums ∧ m ≠ s.coreId)) ∧ (let s : State := { run2 { nums := [] } with p := { (run2 {}).p with trees := { masks := [(0, 0, 1)], halted := [0] } } }; (∀ m ∈ s.members 0, m ∈ s.p.trees.halted) ∧ 1 ∈ [0, 1] ∧ 1 ≠ s.coreId ∧ 1 ∉ s.p.trees.halted ∧ 1 ∉ s.input.nums)) ∧
    (run2 { n := 3 }).input.n = 3 ∧
    ((let s : State := { run2 { value := 0x9009 } with c := { run := .stopped, status := 0xFF00000A, tvec := 0x80 } }; s.c.run = .stopped ∧ s.chip.boot.power = true ∧ s.chip.boot.resetN = true ∧ s.chip.boot.faultN = true)) := by
  and_intros <;> decide +kernel

/-- Launch 3 runs, launch 4 is prepared in the shadow. -/
def swapping (inp : Input) (p : Part) : State := { State.reset with
  c := { run := .running, pc := 0x300 }, sh := { run := .running, pc := 0x400 }, p := p, input := inp }

def launch3 : Launch := { id := 3, cores := [0], level := 0 }

def launch4 : Launch := { id := 4, cores := [0], level := 2 }

theorem witness_PreemptionSwapsForegroundAndShadow :
    ((let s := swapping {} { running := some launch3, prepared := some launch4, swapDue := true, trees := { halted := [7] } }; s.p.prepared = some launch4 ∧ s.p.running = some launch3 ∧ s.p.swapDue = true ∧ s.c.mx = [] ∧ s.c.head = [] ∧ s.inExchange = false ∧ s.coreId ∈ launch4.cores ∧ s.sh.pend = .none ∧ s.sh.deferred = none ∧ s.sh.held = [] ∧ s.sh.copy = [] ∧ s.c.copy = [] ∧ s.chip.ops = [])) ∧
    ((let s := swapping {} { running := some { launch3 with cores := [1] }, prepared := some { launch4 with cores := [1] }, swapDue := true }; s.coreId ∉ ({ launch4 with cores := [1] } : Launch).cores ∧ s.coreId ∉ ({ launch3 with cores := [1] } : Launch).cores)) ∧
    ((let s : State := { swapping {} { running := some launch3, prepared := some launch4, cfg := { tiles := [0], preemptLimit := 5 } } with xc := 5000 }; s.p.prepared = some launch4 ∧ s.p.swapDue = false ∧ s.p.told = false ∧ s.p.since + 1000 * s.p.cfg.preemptLimit ≤ s.xc)) ∧
    (swapping {} { running := some launch3 }).p.prepared = none ∧
    ((let s := swapping {} { running := some launch4, shadowed := some launch3, treesSh := { halted := [7] } }; s.input.flag = false ∧ s.p.swapDue = false ∧ s.p.shadowed = some launch3 ∧ s.coreId ∈ launch3.cores)) ∧
    (swapping {} { running := some launch4, shadowed := some { launch3 with cores := [1] } }).coreId ∉ ({ launch3 with cores := [1] } : Launch).cores ∧
    ((let s := swapping {} { running := some launch3, prepared := some launch4 }; s.p.shadowed = none ∧ s.p.prepared = some launch4)) := by
  and_intros <;> decide +kernel

theorem witness_PreemptionSwapsForegroundAndShadow_2 : (let s := swapping { flag := true, n := 3 } { running := some launch4, paged := [{ launch := launch3, ctx := { pc := 0x500 } }] }; s.input.flag = true ∧ s.p.paged.find? (·.launch.id = s.input.n) = some { launch := launch3, ctx := { pc := 0x500 } } ∧ s.p.shadowed = none ∧ s.p.prepared = none ∧ s.p.running = some launch4 ∧ s.coreId ∈ launch3.cores) := by exact ⟨rfl, rfl, rfl, rfl, rfl, by decide⟩

/-- A tile with sensors, on which nothing runs. -/
def warm (temps : List Int) (t : Tile) (inp : Input) : State :=
  { State.reset with t := { t with temps := temps }, chip := {}, xc := 1000000, input := inp }

theorem witness_SettingsTemperatureAndGates : (let i : Input := { n := 0, cfg := { tiles := [0], stragg := 9, lbudget := 9601 } }; let s := warm [] {} i; i.n = s.p.num ∧ i.n < 4 ∧ i.cfg.tiles = s.p.cfg.tiles ∧ i.cfg.tiles ≠ [] ∧ i.cfg.tiles.Nodup ∧ (∀ x ∈ i.cfg.tiles, x < 144) ∧ 1 ≤ i.cfg.preemptLimit ∧ i.cfg.preemptLimit ≤ 2 ^ 24 ∧ s.others = []) := by exact ⟨rfl, by decide, rfl, by decide, by decide, by decide, by decide, by decide, rfl⟩

theorem witness_SettingsTemperatureAndGates_2 :
    ((let i : Input := { n := 2, cfg := { tiles := [3] } }; let s := warm [] {} i; i.n ≠ s.p.num ∧ i.n < 4 ∧ s.t.num ∉ i.cfg.tiles ∧ s.others = [] ∧ ∀ x ∈ s.p.cfg.tiles, x ∉ i.cfg.tiles)) ∧
    ((let i : Input := { n := 0, cfg := { tiles := [0, 0] } }; ¬i.cfg.tiles.Nodup)) ∧
    ((let s : State := let w := warm [] {} { n := 0, flag := true, cfg := { tiles := [0], lbudget := 9 } }; { w with chip := { w.chip with keys := [(3, 5)], boot := { w.chip.boot with status := 1, firmware := true } } }; s.chip.boot.status = 1 ∧ s.chip.boot.firmware = true ∧ s.input.n = s.p.num ∧ s.input.cfg.tiles = s.p.cfg.tiles ∧ s.others = []) ∧ (let s : State := let w := warm [] {} { n := 0, flag := true, cfg := { tiles := [0], lbudget := 9 } }; { w with chip := { w.chip with keys := [(3, 5)], boot := { w.chip.boot with status := 0, firmware := true } } }; s.chip.boot.status ≠ 1 ∧ s.input.n = s.p.num ∧ s.input.cfg.tiles = s.p.cfg.tiles)) ∧
    (List.replicate 17 (30 : Int)).length = 17 ∧
    ((warm [60, 95, 70] {} {}).t.temps ≠ [] ∧ (warm [60, 95, 70] {} {}).tileTemp = 95) ∧
    ((let s := warm [60, 95, 70] { thermXc := some 0 } {}; s.c.phase.getLsbD 0 = false ∧ s.c.lphase.getLsbD 0 = false ∧ s.input.flag = false ∧ s.t.thermXc = some 0 ∧ 0 + 1000000 ≤ s.xc ∧ s.t.throttled = false ∧ (s.t.thot.toNat : Int) ≤ s.tileTemp)) ∧
    ((let s := warm [60, 92, 70] { throttled := true } {}; s.t.throttled = true ∧ s.tileTemp ≤ (s.t.thot.toNat : Int) - 3)) ∧
    ((let s := warm [60, 94, 70] {} {}; s.t.throttled = false ∧ s.tileTemp < (s.t.thot.toNat : Int))) ∧
    ((let s : State := let w := warm [60, 95, 70] {} {}; { w with p := { w.p with trees := { masks := [(3, 0, 1)] }, locals := [{ tree := 3, seg := { len := 9 }, xr := w.xc - 8 }] } }; ∃ l ∈ s.p.locals, s.xc < l.xr + l.seg.len ∧ ∃ m ∈ s.members l.tree, m / 16 = s.t.num)) ∧
    ((let s := warm [60, 95, 70] { thermXc := some 1 } { flag := true }; s.input.flag = true ∧ ¬(1 + 1000000 ≤ s.xc))) ∧
    ((let s := warm [] { slots := [{}, { phys := 4 }] } { flag := true, op := 15, chip := 0, off := 1 }; s.input.flag = true ∧ s.input.op < 16 ∧ s.input.chip = s.t.num ∧ s.input.off ≠ s.t.slot.val ∧ s.t.thermXc = none) ∧ ¬(1 + 1000000 ≤ (warm [] {} {}).xc)) ∧
    ((let w := warm [105, 102, 101, 101] {} { nums := [1, 2, 3] }; let s : State := { w with c := { w.c with run := .running }, boundary := true }; s.coolest s.input.nums = some 2 ∧ s.inTransit = false ∧ s.boundary = true ∧ s.c.mx = [] ∧ s.c.head = [] ∧ (s.t.tmig.toNat : Int) ≤ s.t.temps.getD s.t.idx.val 0 ∧ s.c.run = .running ∧ s.sh.run = .idle ∧ s.t.thermXc = none)) ∧
    ((let w := warm [] { slots := [{ v := false, it := true, phys := 0 }], target := 2 } {}; w.input.flag = false ∧ w.inTransit = true ∧ w.c.pend = .none ∧ w.c.held = [] ∧ w.c.copy = [] ∧ w.chip.ops = [])) ∧
    ((let s := warm [] {} { gate := .off }; s.c.run = .idle ∧ s.sh.run = .idle ∧ s.p.running = none ∧ s.chip.grants = [] ∧ s.p.trees.arrived = [] ∧ s.p.trees.gather = [] ∧ s.t.gate = none ∧ s.input.flag = false) ∧ (warm [] {} {}).input.gate = .retain) ∧
    (warm [] { gate := some .retain } {}).t.gate ≠ none ∧
    ((warm [105, 102, 101, 101] {} { nums := [1, 2, 3] }).boundary = false ∧ (warm [105, 102, 101, 101] {} { nums := [1, 2, 3] }).inTransit = false) ∧
    ((let s : State := let w := warm [] {} {}; { w with p := { w.p with trees := { masks := [(3, 0, 1), (3, 4, 1)], arrived := [(3, 64)] } } }; 0 ∈ s.members 3 ∧ 0 / 16 = s.t.num ∧ (3, 64) ∈ s.p.trees.arrived)) := by
  and_intros <;> decide +kernel

/-- The device with this boot state, a running and an idle context, a lit grant of its own, bytes in its memories. -/
def device (b : Boot) (inp : Input) : State := { State.reset with
  c := { run := .running, mem := [(5, 1)], pc := 8 }, sh := { mem := [(6, 1)] }
  chip := { ({} : Chip) with boot := b, gmem := [(7, 1)], keys := [(0, 9)], grants := [{ id := 1, state := .lit }] }, input := inp }

def halted (s : State) (b : Boot) : State := { s with
  c := { s.c with run := .stopped }
  chip := { s.chip with boot := b, grants := [{ id := 1, state := .dark, fail := true }] } }

theorem witness_PowerAndResetStates :
    (({ firmware := true, power := false } : Boot).power = false ∧ ({} : Boot).power = true) ∧
    (({ firmware := true } : Boot).power = true ∧ ({ firmware := true } : Boot).firmware = true ∧ ({} : Boot).firmware = false) ∧
    ((∀ x ∈ (device {} {}).t.temps, x < 120) ∧ (device {} {}).input.flag = false ∧ (∃ x ∈ [(120 : Int)], 120 ≤ x)) ∧
    ((let s := device { resetN := false, fuses := [1, 2, 3, 4], boots := 6 } { n := 3 }; s.chip.boot.power = true ∧ s.chip.boot.resetN = false ∧ s.chip.boot.faultN = true ∧ s.t.num = 0)) ∧
    ((let s := device { resetN := false } { n := 2 }; let u : State := { s with t := { s.t with num := 9 } }; u.t.num ≠ 0 ∧ u.chip.boot.resetN = false)) ∧
    (({ power := false } : Boot).power = false ∧ ({} : Boot).resetN = true ∧ ({ faultN := false } : Boot).faultN = false) := by
  and_intros <;> decide +kernel

theorem witness_BootImagesAndIdentity :
    ((let b := (device {} {}).chip.boot; b.power = true ∧ b.resetN = true ∧ b.faultN = true ∧ b.status = 1 ∧ b.firmware = false ∧ (device {} {}).xc ≤ b.since + 10000000000 ∧ (0 + 1) % 3 ∉ ([] : List Nat) ++ [0]) ∧ (signedImage (device {} {}).input.img).magic ≠ 0x56574D49) ∧
    ((device { source := 2, tried := [0, 1] } {}).chip.boot.status = 1 ∧ (2 + 1) % 3 ∈ [0, 1] ++ [2]) ∧
    ((device { source := 2, tried := [1] } {}).chip.boot.source = 2 ∧ (2 + 1) % 3 ∉ [1] ++ [2]) ∧
    ((device { firmware := true } { n := 3, img := [0, 0, 0, 0, 1] }).chip.boot.firmware = true ∧ (signedImage [0, 0, 0, 0, 1]).kind = 1 ∧ ({ n := 3, img := [0, 0, 0, 0, 1] } : Input).n < 4) ∧
    ((device { firmware := true } { data := List.replicate 32 7 }).input.data.length = 32 ∧ (signedImage [0, 0, 0, 0, 3]).kind = 3 ∧ (8 : Nat) ≤ 15 ∧ (let s : State := { device { firmware := true } {} with chip := { (device {} {}).chip with keys := [] } }; s.keyOf 0 = none) ∧ (device { firmware := true } { n := 0 }).input.n = 0) ∧
    (({ power := false, firmware := true } : Boot).power = false ∧ ({ firmware := true, resetN := false } : Boot).resetN = false) ∧
    ({ n := 1023 } : Input).n < 1024 := by
  and_intros <;> decide +kernel

/-- The device with firmware, an event log of 64 KiB in LPDDR 6, latched words of group 1. -/
def logging (l : EventLog) (inp : Input) : State := { device { firmware := true } inp with
  chip := { (device { firmware := true } inp).chip with log := { l with base := 0x40000, size := 65536 }, snapRegs := [(1, [5, 6])], snapseq := 8, grants := [] } }

def rec1 : EventRec := { src := 0x1005, kind := 4, seq := 9, xcyc := 10, d0 := 11, d1 := 12, d2 := 13, d3 := 14 }

theorem witness_SnapshotsLogAndCheckpoints :
    ((logging {} {}).chip.boot.firmware = true ∧ (logging {} {}).chip.snapctl.getLsbD 8 = true) ∧
    ((let s := logging {} {}; let t : State := { s with chip := { s.chip with snapctl := 0x3D, snapTrig := true }, c := { s.c with pend := .snap none } }; t.chip.snapctl.getLsbD 8 = false ∧ t.chip.snapTrig = true ∧ t.c.pend = .snap none ∧ t.chip.snapctl.getLsbD 1 = false)) ∧
    ((let s := logging { head := 2049, tail := 2 } { flag := true }; let t : State := { s with t := { s.t with evq := [rec1] } }; t.chip.log.head - t.chip.log.tail < t.chip.log.size / 32 ∧ t.input.flag = true ∧ t.t.evq = [rec1])) ∧
    ((let s := logging { held := [rec1], drops := [(0x1005, 3)], seqs := [(0x1005, 20)] } { n := 0x1005 }; s.input.flag = false ∧ s.chip.log.held.find? (·.src = s.input.n) = some rec1)) ∧
    ((let s := logging { head := 3 } { flag := true }; let t : State := { s with t := { s.t with evq := [rec1] }, chip := { s.chip with gerr := [(0x40000 + 96) / 64] } }; t.chip.gerr.contains ((0x40000 + 32 * 3) / 64) = true ∧ t.t.evq = [rec1])) ∧
    ((logging { head := 2048 } {}).chip.log.size / 32 ≤ 2048 - 0 ∧ ({ n := 2048 } : Input).n ≤ 2048 ∧ (logging {} {}).chip.gerr = [] ∧ (logging {} {}).chip.soft = []) ∧
    ((let s := logging { head := 3, tail := 1 } {}; let t : State := { s with chip := { s.chip with gerr := [(0x40000 + 64) / 64] } }; (1 : Nat) ≤ 2 ∧ (2 : Nat) < t.chip.log.head ∧ t.chip.gerr.contains ((t.chip.log.base + 32 * 2 % t.chip.log.size) / 64) = true)) ∧
    ((let i : Input := { off := 0x120000, op := 4, value := 7 }; i.flag2 = false ∧ 0x120000 ≤ i.off ∧ i.off < 0x130000 ∧ i.op = 4) ∧ (let i : Input := { off := 0x12FFF8, op := 0, len := 2 ^ 30, addr := 64 }; i.op = 0 ∧ i.len = 2 ^ 30 ∧ i.addr % 64 = 0 ∧ i.addr + i.len ≤ (logging {} {}).chip.capacity * 2 ^ 30)) ∧
    ((let i : Input := { off := 0x110FFC + 0, n := 1 }; i.off = 0x110000 + 4 * 1023 ∧ (1023 : Nat) < 4096) ∧ (let s := logging {} { off := 0x100000 }; s.input.flag2 = false ∧ s.p.num < 4 ∧ s.input.off = 0x100000 + 4096 * s.p.num)) ∧
    ((let s : State := { logging {} { off := 0x102000, data := record 1 } with others := [{ num := 2 }] }; s.input.off = 0x100000 + 4096 * 2 ∧ (2 : Nat) ≠ s.p.num ∧ recOk s.input.data = true)) ∧
    ((logging {} { nums := [2, 31], chip := 9 }).chip.ckpt = none ∧ [2, 31].Nodup ∧ (∀ p ∈ [2, 31], p < 32) ∧ ¬[2, 2].Nodup) ∧
    ((let s := logging {} {}; let t : State := { s with chip := { s.chip with ckpt := some ([2], 9) }, c := { s.c with run := .idle } }; t.chip.ckpt = some ([2], 9) ∧ t.c.run = .idle ∧ t.c.held = [] ∧ t.c.copy = [] ∧ t.input.flag = false ∧ t.chip.ops = [] ∧ t.chip.gkeys = [])) ∧
    ((let s := logging {} { flag := true }; let t : State := { s with chip := { s.chip with ckpt := some ([2], 9) }, c := { s.c with run := .idle } }; t.input.flag = true ∧ t.chip.ckpt = some ([2], 9)) ∧ (let s := logging {} {}; s.p.swapDue = false ∧ s.c.run = .running)) ∧
    ((logging {} {}).chip.saved = none ∧ (logging {} { flag := true }).chip.resuming = false ∧ ({ capacity := 768 } : Saved).capacity ≠ (logging {} {}).chip.capacity) ∧
    ((let s := logging {} { flag := true }; let t : State := { s with chip := { s.chip with resuming := true }, c := { s.c with run := .idle } }; t.chip.resuming = true ∧ t.c.run = .idle ∧ t.c.held = [] ∧ t.c.copy = [] ∧ t.chip.ops = [] ∧ t.p.prepared = none)) := by
  and_intros <;> decide +kernel

theorem witness_SnapshotsLogAndCheckpoints_2 : (let s := logging {} {}; let t : State := { s with chip := { s.chip with saved := some { small := { c := { pc := 0x44 } }, gmem := [(9, 9)], code := Config.orderingCode } } }; t.chip.saved = some { small := { c := { pc := 0x44 } }, gmem := [(9, 9)], code := Config.orderingCode } ∧ t.input.flag = false ∧ ({ small := { c := { pc := 0x44 } }, gmem := [(9, 9)], code := Config.orderingCode } : Saved).code = Config.orderingCode ∧ ({ small := { c := { pc := 0x44 } }, gmem := [(9, 9)], code := Config.orderingCode } : Saved).capacity = t.chip.capacity) := by exact ⟨rfl, rfl, rfl, rfl⟩

theorem witness_SnapshotsLogAndCheckpoints_whole : (let s := logging {} {}; let t : State := { s with chip := { s.chip with snapctl := 0x10, snapTrig := true, corrected := [(0x1102, 5)] }, sh := { s.sh with pend := .snap none } }; t.sh.pend = .snap none ∧ t.chip.snapctl.getLsbD 4 = true ∧ t.chip.snapTrig = true) := by decide +kernel

theorem witness_SnapshotsLogAndCheckpoints_whole_2 : (let s := logging {} {}; let v : Saved := { small := { c := { memErr := [4] }, others := [{ num := 3 }] }, log := { base := 64, size := 65536, head := 5, tail := 2 }, code := Config.orderingCode }; let t : State := { s with chip := { s.chip with saved := some v, gerr := [6], soft := [7] } }; t.chip.saved = some v ∧ t.input.flag = false ∧ v.code = Config.orderingCode ∧ v.capacity = t.chip.capacity) := by exact ⟨rfl, rfl, rfl, rfl⟩

theorem witness_EveryFormCompletes : ConvAccess (vecs {}) ((vecs {}).reg 2) ElemType.f32.lanes false ∧ (viewOf ((vecs {}).reg 4) = 5 ∨ B4Type.int4 = .int4) ∧ ConvAccess (vecs {}) ((vecs {}).reg 4) ElemType.f32.lanes false := by exact ⟨by constructor <;> decide, .inl (by decide), by constructor <;> decide⟩

theorem witness_EveryFormCompletes_2 :
    (let s := pair 2 { col := 1, gang := some 1 }; s.inExchange = false ∧ s.c.mx = [] ∧ s.c.status.toNat / 256 % 4 = 0 ∧ (1 : Fin 3).val ≠ 0 ∧ s.gangClash 1 1 = false ∧ (s.row.filter fun r => (s.group 1).contains r.col.val && r.col.val != s.t.idx.val % 4).length = ((s.group 1).filter (· ≠ s.t.idx.val % 4)).length ∧ ∀ r ∈ s.row, r.col.val ∈ (s.group 1).filter (· ≠ s.t.idx.val % 4) → r.gang = some 1) ∧
    (let s := pair 0x102 { col := 1, gang := some 0 }; s.c.mx = [] ∧ s.c.status.toNat / 256 % 4 ≠ 0 ∧ s.gangClash 0 1 = false ∧ ∀ r ∈ s.row, r.col.val ∈ (s.group 1).filter (· ≠ s.t.idx.val % 4) → r.gang = some 0) ∧
    (let s := pair 0x102 { col := 1, wantsFollow := true }; s.c.status.toNat / 256 % 4 ≠ 0 ∧ s.c.status.getLsbD 10 = false ∧ s.c.status.getLsbD 11 = false ∧ (s.group 1).head? = some (s.t.idx.val % 4) ∧ ∀ r ∈ s.row, r.col.val ∈ (s.group 1).filter (· ≠ s.t.idx.val % 4) → r.wantsFollow = true ∨ r.following = true) ∧
    ((pair 0x502 { col := 1 }).c.status.getLsbD 10 = true ∧ ((pair 0x502 { col := 1 }).reg 1).toNat % 2 = 0 ∧ (pair 0x902 { col := 1 }).c.status.getLsbD 10 = false ∧ (pair 0x902 { col := 1 }).c.status.getLsbD 11 = true) ∧
    (let s := heads 0 3 {}; s.stateAt 4 = some (vp 0 3) ∧ (vp 0 3).mode = 0 ∧ s.mxBusy ((vp 0 3).banks ++ [0, 1]) = false ∧ (∀ f ∈ s.c.dir, ¬(f.bank < 0 + 2 ∧ 0 < f.bank + f.nb)) ∧ (s.reg 1).toNat ≤ 0xFFFFFFE0) := by
  and_intros <;> decide +kernel

theorem witness_EveryFormCompletes_3 : let s := heads 0 3 {}; s.inExchange = false ∧ s.c.head.length < 4 ∧ s.c.vpcfg.toNat % 4 = 0 ∧ s.c.vpcfg.toNat / 2 ^ 8 % 2 ^ 7 = 3 ∧ (s.reg 3).toNat = 2 ∧ (∀ x, 4 ≤ x → x < 4 + 1 → x < 32 ∧ s.c.accmap.getLsbD x = true) ∧ s.mxBusy [4] = false := by exact ⟨by decide, by decide, by decide, by decide, by decide, fun x h h' => by obtain rfl : x = 4 := (by omega); decide, by decide⟩

theorem witness_EveryFormCompletes_4 : TileReady (heads 0 3 {}) .f32 0 ∧ Operand ((heads 0 3 {}).reg 4) (4 * 2) 4 ∧ Operand ((heads 0 3 {}).reg 1) (2 * (64 * ((32 + 8 * 3 + 63) / 64))) 64 := by exact ⟨by constructor <;> decide, by constructor <;> decide, by constructor <;> decide⟩

theorem witness_EveryFormCompletes_5 : TileReady (heads 0 3 {}) .bf16 2 ∧ Operand ((heads 0 3 {}).reg 1) 264 8 ∧ (heads 0 3 {}).mxBusy [2, 0, 1] = false ∧ ∀ f ∈ (heads 0 3 {}).c.dir, ¬(f.bank < 2 + 1 ∧ 2 < f.bank + f.nb) ∧ ¬(f.bank < 0 + 2 ∧ 0 < f.bank + f.nb) := by exact ⟨by constructor <;> decide, by constructor <;> decide, by decide, by decide⟩

/-- A state whose heaps are empty, while c.vpst asks for its spill. -/
def noPairs : State := let s := heads 0 3 { vpst := 0x84 }; { s with c := { s.c with acc := [] } }

theorem witness_EveryFormCompletes_spill : noPairs.c.head = [] ∧ noPairs.c.vpst.getLsbD 7 = true ∧ noPairs.stateAt 4 = some (vp 0 3) ∧ noPairs.mxBusy (vp 0 3).banks = false ∧ noPairs.c.memErr = [] ∧ noPairs.c.accErr = [] ∧ (∀ i, i < 2 → tokenWord noPairs (vp 0 3) i 4 = 0) := by decide +kernel

theorem witness_EveryFormCompletes_spill_2 : Operand (noPairs.reg 2) 4 4 ∧ Operand (BitVec.ofNat 32 (littleEndian noPairs.c.mem (offOf (noPairs.reg 2)) 4)) 1 8 := by exact ⟨by constructor <;> decide, by constructor <;> decide +kernel⟩

theorem witness_EveryFormCompletes_grants : let s := optics [grant5] [] {}; s.inExchange = false ∧ s.input.flag = false ∧ s.svc = true ∧ s.grantOf s.p.num ((s.reg 2).toNat % 65536) = some grant5 ∧ grant5.part = some s.p.num ∧ s.laneRunning 1 2 [2] = false ∧ grant5.fail = false ∧ (s.reg 5).toNat = grant5.mode ∧ grant5.next = none ∧ grant5.mmargin = some (-3) ∧ (s.reg 2).toNat < 0xFFFE := by decide +kernel

/-- No grant; a request with a margin of its own. -/
def asks : State := let s := optics [] [] {}; { s with c := { s.c with mem := words 0x1000 [100, 0xC0100, 2, 0x1010, 0x0201] } }

theorem witness_EveryFormCompletes_request : let q := grantReq (asks.c.mem.readBytes 0x1000 16); RequestOk asks q [1, 2] ∧ q.listed = true ∧ 1 ≤ q.margin := by exact ⟨⟨by decide +kernel, by decide +kernel, by decide +kernel, by decide +kernel, by decide +kernel, by decide +kernel, by decide +kernel⟩, by decide +kernel, by decide +kernel⟩

theorem witness_EveryFormCompletes_request_2 : RawBlock asks (asks.reg 1) 16 16 ∧ RawBlock asks 0x1010 2 1 ∧ asks.chip.grants = [] ∧ asks.chip.failed = [] ∧ asks.laneRunning 0 1 [1, 2] = false := by exact ⟨by constructor <;> decide, by constructor <;> decide, by decide, by decide, by decide⟩

theorem witness_EveryFormCompletes_fabric : FabricCalm (fabric {} reqWords {}) ∧ (fabric {} reqWords {}).route 0 = .port 2 ∧ ((fabric {} reqWords {}).port 2).drained = false ∧ (fabric {} reqWords {}).chip.allows = [] ∧ RequestAt (fabric {} reqWords {}) 1 .put 0 5 16 0x2000 32 7 := by exact ⟨by constructor <;> decide, by decide, by decide, by decide, ⟨by constructor <;> decide, by decide, by decide, by decide, by decide, by decide, by decide, by decide, by decide⟩⟩

theorem witness_EveryFormCompletes_fabric_2 : FabricCalm (fabric { windows := [{ win5 with org := 7 }] } (regWords 0x9FFC0 64) {}) ∧ (fabric { windows := [{ win5 with org := 7 }] } (regWords 0x9FFC0 64) {}).window 5 = some { win5 with org := 7 } ∧ 0 ≤ ((7 : Word) - 3).toInt := by exact ⟨by constructor <;> decide, by decide, by decide⟩

theorem witness_EveryFormCompletes_fabric_3 :
    (let s := fabric {} (regWords 0x9FFC0 64) {}; let w (i : Nat) := littleEndian s.c.mem (0x1000 + 4 * i) 4; s.window (w 0 % 4096) = none ∧ w 0 / 4096 = 4 ∧ w 1 % 64 = 0 ∧ w 2 = 0 ∧ w 3 = 64 ∧ w 1 + w 3 ≤ 0xA0000) ∧
    (let s : State := { fabric { windows := [win5] } [] {} with chip := { ({} : Chip) with windows := [win5] } }; s.chip.active = none ∧ s.window 5 = some win5 ∧ s.chip.ops = [] ∧ s.chip.allows = []) ∧
    (let s := fabric { staged := true, inactive := some { ver := 5, n := 2, routes := [255, 254] } } [] {}; s.stagedTable = some { ver := 5, n := 2, routes := [255, 254] } ∧ (5 : Half).toNat = (s.reg 2).toNat ∧ (∀ y ∈ [255, 254], 32 ≤ y) ∧ (∀ p, (s.port p).lock = .dark) ∧ s.chip.windows = []) := by
  and_intros <;> decide +kernel

theorem witness_EveryFormCompletes_fabric_4 : RawBlock (fabric {} [9, 3, 0xFFFE1F] {}) 0x1000 8 4 ∧ RawBlock (fabric {} [9, 3, 0xFFFE1F] {}) 0x1000 (8 + 3) 4 ∧ (∀ r ∈ [0x1F, 0xFE, 0xFF], r < 32 ∨ 0xFE ≤ r) ∧ (∀ j, j < 3 → ([0x1F, 0xFE, 0xFF][j]? = some 0xFE ↔ j = 1)) := by exact ⟨by constructor <;> decide, by constructor <;> decide, by decide, by decide⟩

theorem witness_EveryFormCompletes_collectives : RawBlock (colling [] [0x10000, 0x40000, 6, 0]) 0x1000 16 16 ∧ (colling [] [0x10000, 0x40000, 6, 0]).chip.colls = [] := by exact ⟨by constructor <;> decide, by decide⟩

theorem witness_EveryFormCompletes_collectives_2 : (colling [coll3] []).svc = true ∧ ((colling [coll3] []).reg 3).toNat < 16 ∧ (colling [coll3] []).coll 3 = some coll3 ∧ coll3.frozen = true ∧ ((colling [coll3] []).reg 5).toNat % 2 ^ 16 ≠ 0xFFFF ∧ ((colling [coll3] []).reg 5).toNat % 2 ^ 16 < coll3.nstep := by decide +kernel

theorem witness_EveryFormCompletes_links : FabricCalm (link { up with drained := true } 0 {} (.drain 5)) ∧ ((link { up with drained := true } 0 {} (.drain 5)).reg 1).toNat = 2 ^ (2 : Fin 32).val ∧ ((link { up with drained := true } 0 {} (.drain 5)).port 2).drained = true := by exact ⟨by constructor <;> decide +kernel, by decide +kernel, by decide +kernel⟩

theorem witness_EveryFormCompletes_links_2 : ((link up 1 {} (.fec [2] 5)).port 2).fecReq = none ∧ ((link up 2 {} (.retrain [2] 5)).port 2).lock = .locked ∧ ((link up 3 {}).reg 2).toNat = 3 ∧ (link up 3 {}).chip.ops = [] ∧ ((link up 0 {}).reg 3).toNat = (2 : Fin 32).val := by decide +kernel

/-- No command, and a notice that nothing waits on. -/
def restful (inp : Input) : State :=
  let s := noticed false inp
  { s with c := { s.c with copy := [] }, t := { s.t with notices := [] } }

theorem witness_EveryFormCompletes_engines :
    ((let q : MxOp := { op := .mzero .f32 0 }; (mat { mx := [q] }).c.mx = [q] ∧ (mat { mx := [q] }).input.flag = false ∧ isMma q.op = false) ∧ (let q : MxOp := { op := .mzero .f32 0, started := true }; (retiring q).c.mx = [q] ∧ q.lead = none ∧ (retiring q).input.n = 0 ∧ (retiring q).c.accErr = [] ∧ (retiring q).c.memErr = [])) ∧
    ((let s := restful { n := 3 }; s.input.n < 1024 ∧ s.tlbUses 3 = [] ∧ s.p.cfg.notices = false ∧ s.t.notices = [] ∧ s.c.copy = [] ∧ s.sh.copy = [] ∧ s.p.paged = [] ∧ s.chip.colls = [])) ∧
    ((let s := restful { op := 5, status := 10 }; s.input.flag2 = false ∧ s.input.flag = false ∧ s.input.win ≠ 1 ∧ s.input.status = 10)) ∧
    ((working (.vplabel 4 1) 0x3000).c.head = [{ op := .vplabel 4 1, x := 0x3000, ent := vp 0 3 }] ∧ ({ flag := true, mem := .local_ } : Input).mem = .local_ ∧ ((copying {} { n := 0, addr := 0x20044 }).keyOf 0).isSome = true) ∧
    ((let s : State := { fabric { windows := [{ win := 5, waits := [3] }] } [] {} with c := { (fabric {} [] {}).c with pend := .dereg 5 7, issue := some (.wdereg 9 2, {}), stall := true, stragg := 9 } }; s.window 5 = some { win := 5, waits := [3] } ∧ s.c.stragg ≠ 0 ∧ s.c.pend = .dereg 5 7)) ∧
    ((let s : State := { fabric { windows := [{ win := 5, org := 6 }] } [] {} with c := { (fabric {} [] {}).c with pend := .wwait 7 true, issue := some (.wwait 9 2 4, {}), stall := true, stragg := 9 } }; s.window ((s.reg 2).toNat % 4096) = some { win := 5, org := 6 } ∧ s.c.pend = .wwait 7 true ∧ (s.reg 2).getLsbD 16 = false)) := by
  and_intros <;> decide +kernel

theorem witness_FloatLaneArithmetic : fmtOf .bf16 = some bf16 ∧ bf16.infs = true ∧ (0xBF80 : Nat) < 2 ^ ElemType.bf16.width ∧ laneHeld .bf16 false 0xBF80 = .num true (2 ^ 133) ∧ laneHeld .bf16 true 1 = .num false 0 ∧ laneHeld .bf16 false 0xFF80 = .inf true ∧ laneHeld .bf16 false 0x7FC0 = .nan ∧ laneHeld .bf16 false 1 = .num false 1 := by decide +kernel

theorem witness_ConversionsAndExponential :
    ((0x3E9 : Nat) < 2 ^ ElemType.f16.width ∧ fmtOf .e4m3 = some e4m3 ∧ fmtOf .i8 = none ∧ fmtOf .f16 = some fp16 ∧ laneHeld .f16 false 0x7C00 = .inf false ∧ laneHeld .f16 false 0x7E00 = .nan ∧ laneHeld .f16 false 0xC000 = .num true (2 * 2 ^ 24)) ∧
    (laneHeld .f32 false 0x3F800000 = .num false (2 ^ 149) ∧ (2 ^ 149 : Nat) ≠ 0 ∧ laneHeld .f32 false 0x80000000 = .num true 0) ∧
    ((List.replicate 8 (0x3C00 : Nat)).length = 8 ∧ (∀ x ∈ List.replicate 8 (0x3C00 : Nat), x < 2 ^ ElemType.f16.width) ∧ (∀ h ∈ (List.replicate 8 (0x3C00 : Nat)).map (laneHeld .f16 false), h = .num false (2 ^ 24)) ∧ laneHeld .f16 false 0x7C00 = .inf false ∧ laneHeld .f16 false 0x8000 = .num true 0) := by
  and_intros <;> decide +kernel

/-- Slots of FP8 in views 1 and 2, an mma of FP32 at the head of the queue, started. -/
def product : MxOp := { op := .mma .f32 0 3 4, slotA := 0x2000, slotB := 0x2800, viewA := 1, viewB := 2, started := true }

def multiplying : State := mat { mx := [product] }

/-- Three FP32 contributions on tree 3. -/
def con32 (core : Nat) (xs : List Nat) : RedContrib := { lcore := core, op := .add, type := .f32, sat := false, n := xs.length, lanes := xs.map (BitVec.ofNat 32) }

def wait32 : RedWait := { tree := 3, con := con32 0 [0x3F800000, 0x7F800000], num := 0, xc := 0 }

def summing : State := trees { pend := .red wait32 } {} { contribs := [con32 1 [0x33800000, 0xFF800000]] }

theorem witness_FloatSums :
    (multiplying.c.mx = [product] ∧ product.started = true ∧ AccType.f32.fmt = some fp32 ∧ multiplying.c.memErr = [] ∧ multiplying.c.accErr = [] ∧ product.lead = none ∧ 1 ≤ product.viewA ∧ product.viewA ≤ 5 ∧ 1 ≤ product.viewB ∧ product.viewB ≤ 5 ∧ viewClass product.viewA = viewClass product.viewB) ∧
    (summing.c.pend = .red wait32 ∧ summing.c.stragg = 0 ∧ summing.input.contribs.length + 1 = (summing.members wait32.tree).length ∧ ([wait32.con] ++ summing.input.contribs).Pairwise (fun x y => x.lcore < y.lcore) ∧ (∀ c ∈ [wait32.con] ++ summing.input.contribs, c.op = wait32.con.op ∧ c.type = .f32 ∧ c.sat = wait32.con.sat ∧ c.n = wait32.con.n) ∧ wait32.con.op = .add) := by
  and_intros <;> decide +kernel

end Sys2Proof.Tests
end

namespace Sys2Proof.Proofs
open Machine

/-! # Reset and traps (R18, R38, R42) -/
/-! The cause word (R20). -/

theorem causeWord_toNat (c : Cause) (detail ilen : Nat) :
    (causeWord c detail ilen).toNat = detail % 65536 * 65536 + ilen % 8 * 256 + c.code := by
  have hc : c.code < 256 := by cases c <;> decide
  unfold causeWord
  rw [BitVec.toNat_ofNat, Nat.mod_eq_of_lt (by omega)]

/-- DBL (R20) is no bit of a cause word as a trap makes it. -/
theorem causeWord_dbl (c : Cause) (detail ilen : Nat) : (causeWord c detail ilen).getLsbD 15 = false := by
  have hc : c.code < 256 := by cases c <;> decide
  rw [BitVec.getLsbD, causeWord_toNat, Nat.testBit_eq_decide_div_mod_eq, decide_eq_false_iff_not]
  omega

/-- The cause word has room for 16 bits of DETAIL. -/
theorem causeWord_mod (c : Cause) (detail ilen : Nat) : causeWord c (detail % 65536) ilen = causeWord c detail ilen := by
  unfold causeWord; rw [Nat.mod_mod]

/-- Outside an exchange phase a trap is taken at once. -/
theorem trap_compute {s : State} (h : s.inExchange = false) (c : Cause) (detail : Nat) (eaddr : Word) :
    s.trap c detail eaddr = .next (s.enter (causeWord c detail s.ir.len) s.c.pc eaddr s.ir.eword) :=
  s.raise_compute ⟨c, detail, eaddr⟩ h

/-- The status word that a trap leaves, bit by bit (R38, R34). -/
theorem trapStatus_getLsbD (x : Word) (b : Nat) :
    ((x &&& 0xFFFFFBF0) ||| ((x &&& 3) <<< 2) ||| 1).getLsbD b =
      if b = 0 then true else if b = 2 then x.getLsbD 0 else if b = 3 then x.getLsbD 1
      else decide (4 ≤ b ∧ b ≠ 10) && x.getLsbD b := by
  by_cases hb : b < 32
  · interval_cases b <;> simp
  · rw [BitVec.getLsbD_of_ge _ _ (by omega), BitVec.getLsbD_of_ge x b (by omega), if_neg (by omega), if_neg (by omega),
      if_neg (by omega), Bool.and_false]

/-- Settles O12, from the case of `State.enter` with TE set and the bits of the status word that it leaves. -/
theorem trapEntrySavesAndVectors : Obligations.TrapEntrySavesAndVectors := by
  refine ⟨fun s c detail eaddr te => ?_, fun s a hx => ?_⟩
  · have hc : c.code < 256 := by cases c <;> decide
    have hn := causeWord_toNat c detail s.ir.len
    rw [State.enter_single _ _ _ _ _ te]
    refine ⟨rfl, rfl, rfl, rfl, ?_, ?_, causeWord_dbl .., ?_, ?_, ?_, ?_, ?_, fun b h4 h10 => ?_, ?_, rfl⟩
    · show (causeWord c detail s.ir.len).toNat / 65536 = _; omega
    · show (causeWord c detail s.ir.len).toNat % 256 = _; omega
    · show (causeWord c detail s.ir.len).toNat / 256 % 8 = _; omega
    all_goals simp only [trapStatus_getLsbD]
    · simp
    · simp
    · simp
    · simpa using te
    · have h0 : b ≠ 0 ∧ b ≠ 2 ∧ b ≠ 3 := by omega
      simp [h0, h4, h10]
    · simp
  · show s.classC _ = _
    rw [State.classC_compute _ _ hx, trap_compute hx, causeWord_mod]

/-- A core that has stopped issues nothing. -/
theorem nextInstr_of_not_running {s : State} (h : s.c.run ≠ .running) : s.nextInstr = none := by
  unfold State.nextInstr; rw [if_pos (.inl h)]

/-- Settles O13, from the case of `State.enter` with TE clear. -/
theorem doubleTrapStopsTheCore : Obligations.DoubleTrapStopsTheCore := by
  intro s c detail eaddr te
  have e := State.enter_double s (causeWord c detail s.ir.len) s.c.pc eaddr s.ir.eword te
  refine ⟨e, causeWord_dbl .., nextInstr_of_not_running ?_⟩
  rw [e]; simp

/-- Every memory of the state after reset is empty. -/
theorem reset_inv : State.reset.Inv where
  core := Ctx.canonical_fresh
  shadow := Ctx.canonical_fresh
  paged := by simp [State.reset, Part.Canonical]
  others := by simp [State.reset]
  global := rfl
  area := by simp [State.reset]
  saved := by simp [State.reset]

/-- Settles O1: each register, object and queue has the default of its field. -/
theorem resetLeavesTheResetValues : Obligations.ResetLeavesTheResetValues := by
  refine ⟨reset_inv, by decide +kernel, rfl, rfl, rfl, fun n => ?_, fun h => ?_, rfl, fun i => ?_, fun i => ?_, rfl, rfl, rfl,
    rfl, rfl, rfl, rfl⟩
  · exact Vector.getElem_replicate ..
  · exact Vector.getElem_replicate ..
  · simp [State.reset]
  · simp [State.reset]

end Sys2Proof.Proofs

namespace Sys2Proof.Proofs
open Machine

/-! Control registers (R18 to R22, R100). -/

/-- An access that its column of R18 allows reads, and latches c.cych where it reads c.cyc (R21). -/
theorem csrRead_ok {s : State} {n : Csr} (h : s.csrTrap n false = none) (d : Reg) :
    s.csrRead d n = .next ((s.latchCyc n).setReg d (s.csrGet n)).adv := by
  unfold State.csrRead; rw [h]; rfl

/-- In a compute phase a write that its column allows is done at once. -/
theorem csrWrite_ok {s : State} {n : Csr} (h : s.csrTrap n true = none) (hx : s.inExchange = false) (f : Word → Word) :
    s.csrWrite n f = .next (s.csrPut n (f (s.csrGet n))).adv := by
  unfold State.csrWrite; rw [h, State.check_none, State.classC_compute _ _ hx]; rfl

/-- In a compute phase an access that its column forbids traps. -/
theorem csrWrite_trap {s : State} {n : Csr} {t : Trap} (h : s.csrTrap n true = some t) (hx : s.inExchange = false)
    (f : Word → Word) :
    s.csrWrite n f = .next (s.enter (causeWord t.cause t.detail s.ir.len) s.c.pc t.eaddr s.ir.eword) := by
  unfold State.csrWrite; rw [h, State.check_some, State.raise_compute _ _ hx]

theorem csrTrap_read (s : State) (n : Csr) :
    s.csrTrap n false = if s.svc = false ∧ Csr.hidden n = true then some ⟨.priv, 0, 0⟩ else none := by
  simp [State.csrTrap]

theorem mem_readOnly (n : Csr) : n ∈ [Csr.core, .tile, .phase, .lphase, .cyc, .cych, .xcyc, .snapseq] ↔ Csr.readOnly n = true := by
  cases n <;> decide

theorem mem_userWrites (n : Csr) : n ∈ [Csr.fmode, .sbase, .vpcfg, .ecfg] ↔ Csr.userWrites n = true := by
  cases n <;> decide

/-- A register that no mode writes is hidden from none, and a hidden one is written by S mode alone. -/
theorem hidden_of_readOnly (n : Csr) (h : Csr.readOnly n = true) : Csr.hidden n = false := by cases n <;> first | rfl | cases h
theorem hidden_of_userWrites (n : Csr) (h : Csr.userWrites n = true) : Csr.hidden n = false ∧ Csr.readOnly n = false := by
  cases n <;> first | exact ⟨rfl, rfl⟩ | cases h

/-- What a write traps with: nothing, ILLEGAL where no mode writes the register, PRIV where S mode alone does (R19). -/
theorem csrTrap_write (s : State) (n : Csr) :
    s.csrTrap n true = if Csr.readOnly n then some ⟨.illegal, 0, 0⟩
      else if s.svc || Csr.userWrites n then none else some ⟨.priv, 0, 0⟩ := by
  unfold State.csrTrap
  cases hs : s.svc <;> cases n <;> rfl

theorem exec_csrr (d : Reg) (n : Csr) (s : State) : exec (.csrr d n) s = s.csrRead d n := rfl
theorem exec_cycRead (d : Reg) (s : State) : exec (.cycRead d) s = s.csrRead d .cyc := rfl
theorem exec_csrw (n : Csr) (a : Reg) (s : State) : exec (.csrw n a) s = s.csrWrite n fun _ => s.reg a := rfl
theorem exec_csrs (n : Csr) (a : Reg) (s : State) : exec (.csrs n a) s = s.csrWrite n fun x => x ||| s.reg a := rfl
theorem exec_csrc (n : Csr) (a : Reg) (s : State) : exec (.csrc n a) s = s.csrWrite n fun x => x &&& ~~~(s.reg a) := rfl

/-- The three writes where the column of R18 allows them. -/
theorem csrWrites_ok {s : State} {n : Csr} (h : s.csrTrap n true = none) (hx : s.inExchange = false) (a : Reg) :
    Leaves (.csrw n a) s (s.csrPut n (s.reg a)) ∧ Leaves (.csrs n a) s (s.csrPut n (s.csrGet n ||| s.reg a)) ∧
    Leaves (.csrc n a) s (s.csrPut n (s.csrGet n &&& ~~~(s.reg a))) := by
  simp only [Leaves, exec_csrw, exec_csrs, exec_csrc, csrWrite_ok h hx, and_self]

/-- The three writes where it does not. -/
theorem csrWrites_trap {s : State} {n : Csr} {c : Cause} (h : s.csrTrap n true = some ⟨c, 0, 0⟩) (hx : s.inExchange = false)
    (a : Reg) : Traps (.csrw n a) s c 0 0 ∧ Traps (.csrs n a) s c 0 0 ∧ Traps (.csrc n a) s c 0 0 := by
  simp only [Traps, exec_csrw, exec_csrs, exec_csrc, csrWrite_trap h hx, and_self]

/-- A read of a register other than c.cyc that its column allows. -/
theorem csrr_writes {s : State} {n : Csr} (h : s.svc = true ∨ Csr.hidden n = false) (hn : n ≠ .cyc) (d : Reg) :
    Writes (.csrr d n) s d (s.csrGet n) := by
  have ok : s.csrTrap n false = none := by rw [csrTrap_read, if_neg (by rcases h with h | h <;> simp [h])]
  rw [Writes, exec_csrr, csrRead_ok ok, State.latchCyc, if_neg hn]

theorem csrr_traps {s : State} {n : Csr} (hs : s.svc = false) (hn : Csr.hidden n = true) (hx : s.inExchange = false) (d : Reg) :
    Traps (.csrr d n) s .priv 0 0 := by
  rw [Traps, exec_csrr, State.csrRead, csrTrap_read, if_pos ⟨hs, hn⟩, State.check_some, State.raise_compute _ _ hx]

/-- Settles O16: an access is the trap of `State.csrTrap`, or the read or write of the register. -/
theorem controlRegisterAccess : Obligations.ControlRegisterAccess := by
  refine ⟨fun s d => ?_, fun s n a hx => ?_⟩
  · intro table service latched low
    have hh : s.c.cyc.extractLsb' 32 32 = BitVec.ofNat 32 (s.c.cyc.toNat / 2 ^ 32) := by
      rw [← Nat.shiftRight_eq_div_pow]; rfl
    have latch : s.csrRead d .cyc = .next (latched.setReg d low).adv := by
      have ok : s.csrTrap .cyc false = none := by rw [csrTrap_read]; exact if_neg (by simp [Csr.hidden])
      have hl : s.csrGet .cyc = low := rfl
      rw [csrRead_ok ok, State.latchCyc, if_pos rfl, hh, hl]
    have values : ∀ e ∈ table, s.csrGet e.1 = e.2 := by
      simp only [table, List.forall_mem_cons]
      simp [State.csrGet, State.coreId, State.xcyc]
      rw [hh]; cases s.c.cycLatch <;> rfl
    have open_ : ∀ e ∈ table, Csr.hidden e.1 = false ∧ e.1 ≠ .cyc := by simp [table, Csr.hidden]
    have closed : ∀ e ∈ service, s.csrGet e.1 = e.2 ∧ Csr.hidden e.1 = true ∧ e.1 ≠ .cyc := by
      simp [service, State.csrGet, Csr.hidden]
    refine ⟨fun e he => ?_, fun h e he => ?_, fun h hx e he => ?_, latch, latch⟩
    · obtain ⟨hn, hc⟩ := open_ e he
      exact values e he ▸ csrr_writes (.inr hn) hc d
    · obtain ⟨hv, -, hc⟩ := closed e he
      exact hv ▸ csrr_writes (.inl h) hc d
    · obtain ⟨-, hn, -⟩ := closed e he
      exact csrr_traps h hn hx d
  · intro readOnly user
    have hw := csrTrap_write s n
    refine ⟨fun hr hu => csrWrites_ok ?_ hx a, fun hr => csrWrites_trap ?_ hx a, fun hr hu hs => csrWrites_trap ?_ hx a,
      fun hs => ?_⟩
    · rw [hw, if_neg (mt (mem_readOnly n).mpr hr), if_pos]
      rcases hu with h | h
      · rw [h, Bool.true_or]
      · rw [(mem_userWrites n).mp h, Bool.or_true]
    · rw [hw, if_pos ((mem_readOnly n).mp hr)]
    · rw [hw, if_neg (mt (mem_readOnly n).mpr hr), if_neg]
      simp [hs, Bool.eq_false_iff.mpr (mt (mem_userWrites n).mpr hu)]
    · have ok : ∀ m, Csr.readOnly m = false → s.csrTrap m true = none := fun m hm => by
        rw [csrTrap_write, hm, hs]; rfl
      exact ⟨(csrWrites_ok (ok .age rfl) hx a).1, (csrWrites_ok (ok .tv rfl) hx a).1⟩

/-- The bits below w. -/
def lowMask (w : Nat) : Word := BitVec.ofNat 32 (2 ^ w - 1)

theorem lowMask_getLsbD (w i : Nat) (h : i < 32) : (lowMask w).getLsbD i = decide (i < w) := by
  rw [lowMask, BitVec.getLsbD_ofNat, Nat.testBit_two_pow_sub_one, decide_eq_true h, Bool.true_and]

/-- A register of w bits has nothing to keep beyond a mask of w bits. -/
theorem narrow_put {w : Nat} (b : BitVec w) (x : Word) :
    (b.zeroExtend 32 &&& ~~~(lowMask w)) ||| (x &&& lowMask w) = x &&& lowMask w := by
  ext i hi
  simp only [← BitVec.getLsbD_eq_getElem, BitVec.getLsbD_or, BitVec.getLsbD_and, BitVec.getLsbD_not, lowMask_getLsbD w i hi]
  by_cases h : i < w
  · simp [h]
  · simp [h, BitVec.getLsbD_of_ge b i (by omega)]

/-- The low w bits of an operand, kept in w bits and read back. -/
theorem extract_and_lowMask (w : Nat) (x : Word) :
    ((x &&& lowMask w).extractLsb' 0 w).zeroExtend 32 = x &&& lowMask w := by
  ext i hi
  simp only [← BitVec.getLsbD_eq_getElem, BitVec.getLsbD_and, BitVec.getLsbD_setWidth, BitVec.getLsbD_extractLsb',
    lowMask_getLsbD w i hi, Nat.zero_add]
  by_cases h : i < w <;> simp [h, hi]

theorem and_lowMask_toNat {w : Nat} (hw : w ≤ 32) (x : Word) : (x &&& lowMask w).toNat = x.toNat % 2 ^ w := by
  have h : 2 ^ w - 1 < 2 ^ 32 := by have := Nat.pow_le_pow_right (n := 2) (by omega) hw; omega
  rw [lowMask, BitVec.toNat_and, BitVec.toNat_ofNat, Nat.mod_eq_of_lt h, Nat.and_two_pow_sub_one_eq_mod]

/-- Setting one register leaves what every other one reads. -/
theorem csrGet_csrSet_of_ne (s : State) {m n : Csr} (x : Word) (h : m ≠ n) : (s.csrSet n x).csrGet m = s.csrGet m := by
  cases n <;> cases m <;> first | rfl | exact absurd rfl h

/-- A register that holds a whole word reads what is set. -/
theorem csrGet_csrSet_word (s : State) (n : Csr) (x : Word) (h : Csr.readOnly n = false)
    (hn : n ∉ [Csr.slew, .lbudget, .lmargin, .age, .thot, .tmig]) : (s.csrSet n x).csrGet n = x := by
  cases n <;> first | rfl | exact absurd h (by decide) | exact absurd hn (by decide)

/-- A write sets the bits of its mask, but for the registers that stop at a limit (R209, R298). -/
theorem csrGet_csrPut_self (s : State) (n : Csr) (x : Word) (h : Csr.readOnly n = false)
    (hn : n ∉ [Csr.lbudget, .thot, .tmig]) :
    (s.csrPut n x).csrGet n = (s.csrGet n &&& ~~~(Csr.writeMask n)) ||| (x &&& Csr.writeMask n) := by
  by_cases hw : n ∈ [Csr.slew, .lmargin, .age]
  · have narrow : ∀ {w : Nat} (b : BitVec w),
        (((b.zeroExtend 32 &&& ~~~(lowMask w)) ||| (x &&& lowMask w)).extractLsb' 0 w).zeroExtend 32 =
          (b.zeroExtend 32 &&& ~~~(lowMask w)) ||| (x &&& lowMask w) := fun b => by
      rw [narrow_put, extract_and_lowMask]
    simp only [List.mem_cons, List.not_mem_nil, or_false] at hw
    rcases hw with rfl | rfl | rfl
    · exact narrow s.t.slew
    · exact narrow s.p.lmargin
    · exact narrow s.p.age
  · exact csrGet_csrSet_word s n _ h (by simp_all)

/-- What a write of one of the narrow registers with a limit is given: the low bits of the operand. -/
theorem narrow_put_toNat {w : Nat} (b : BitVec w) (hw : w ≤ 32) (x : Word) :
    ((b.zeroExtend 32 &&& ~~~(lowMask w)) ||| (x &&& lowMask w)).toNat = x.toNat % 2 ^ w := by
  rw [narrow_put, and_lowMask_toNat hw]

theorem csrPut_lbudget (s : State) (x : Word) :
    ((s.csrPut .lbudget x).csrGet .lbudget).toNat = Nat.min 9600 (x.toNat % 16384) := by
  have h := narrow_put_toNat s.p.lbudget (by decide) x
  show (BitVec.zeroExtend 32 (BitVec.ofNat 14 (min 9600 (BitVec.toNat ((s.p.lbudget.zeroExtend 32 &&& ~~~(lowMask 14)) ||| (x &&& lowMask 14)) % 16384)))).toNat = _
  rw [h]
  show _ = min 9600 _
  simp only [BitVec.zeroExtend, BitVec.toNat_setWidth, BitVec.toNat_ofNat]
  omega

/-- R209: a threshold as it is stored. -/
theorem clampTemp_toNat (y : Word) : ((State.clampTemp y).zeroExtend 32).toNat = Nat.max 40 (Nat.min 115 (y.toNat % 256)) := by
  show _ = max 40 (min 115 _)
  simp only [State.clampTemp, BitVec.zeroExtend, BitVec.toNat_setWidth, BitVec.toNat_ofNat]
  omega

theorem csrPut_threshold (s : State) {n : Csr} (x : Word) (h : n = .thot ∨ n = .tmig) :
    ((s.csrPut n x).csrGet n).toNat = Nat.max 40 (Nat.min 115 (x.toNat % 256)) := by
  have low : ∀ b : Byte, ((b.zeroExtend 32 &&& ~~~(lowMask 8)) ||| (x &&& lowMask 8)).toNat % 256 = x.toNat % 256 :=
    fun b => by rw [narrow_put_toNat b (by decide)]; exact Nat.mod_mod _ _
  rcases h with rfl | rfl
  · exact (clampTemp_toNat _).trans (by rw [← low s.t.thot]; rfl)
  · exact (clampTemp_toNat _).trans (by rw [← low s.t.tmig]; rfl)

/-- A write of a control register leaves the memories, the banks and the scalar and vector registers. -/
theorem csrPut_frame (s : State) (n : Csr) (x : Word) :
    (s.csrPut n x).c.mem = s.c.mem ∧ (s.csrPut n x).c.acc = s.c.acc ∧ (s.csrPut n x).c.s = s.c.s ∧
    (s.csrPut n x).c.v = s.c.v := by
  cases n <;> exact ⟨rfl, rfl, rfl, rfl⟩

/-- Settles O17, register by register: the mask of the statement is that of the model. -/
theorem controlRegisterWriteMasks : Obligations.ControlRegisterWriteMasks := by
  intro s n x hn mask t
  have hr : Csr.readOnly n = false := Bool.eq_false_iff.mpr (mt (mem_readOnly n).mpr hn)
  refine ⟨fun h => ?_, ?_, csrPut_threshold s x, fun m hm => csrGet_csrSet_of_ne s _ hm, csrPut_frame s n x⟩
  · have hm : mask = Csr.writeMask n := by
      cases n <;> first | rfl | exact absurd h (by decide)
    rw [hm]; exact csrGet_csrPut_self s n x hr h
  · rintro rfl; exact csrPut_lbudget s x

end Sys2Proof.Proofs

namespace Sys2Proof.Proofs
open Machine

/-! Little-endian numbers (R43). -/

theorem littleEndian_eq_leNat (m : Memory) (a n : Nat) : littleEndian m a n = leNat (m.readBytes a n) := by
  induction n generalizing a with
  | zero => rfl
  | succ n ih =>
    rw [littleEndian, ih, Memory.readBytes, Memory.readBytes, List.range_succ_eq_map]
    simp only [List.map_cons, List.map_map, leNat, Nat.add_zero]
    congr 3
    apply List.map_congr_left
    intro i _
    simp only [Function.comp, Nat.succ_eq_add_one]
    congr 1; omega

/-- The number that a store of its bytes leaves. -/
theorem littleEndian_writeBytes (m : Memory) (a n x : Nat) (hx : x < 256 ^ n) :
    littleEndian (m.writeBytes a (leBytes n x)) a n = x := by
  have h := Memory.readBytes_writeBytes m a (leBytes n x)
  rw [leBytes_length] at h
  rw [littleEndian_eq_leNat, h, leNat_leBytes, Nat.mod_eq_of_lt hx]

/-! Banks (R27). -/

/-- A bank is allocated where its bit of c.accmap is set. -/
theorem allocated_eq (s : State) (x : Nat) : s.allocated x = s.c.accmap.getLsbD x := by
  unfold State.allocated
  by_cases h : x < 32
  · simp [h]
  · simp [BitVec.getLsbD_of_ge s.c.accmap x (by omega)]

theorem bankMask_getLsbD (b n x : Nat) (h : b + n ≤ 32) :
    (State.bankMask b n).getLsbD x = decide (b ≤ x ∧ x < b + n) := by
  unfold State.bankMask
  rw [BitVec.getLsbD_ofNat, Nat.testBit_mul_two_pow, Nat.testBit_two_pow_sub_one]
  by_cases hx : b ≤ x ∧ x < b + n
  · have : x < 32 ∧ b ≤ x ∧ x - b < n := by omega
    simp [this, hx]
  · rw [decide_eq_false hx, Bool.and_eq_false_iff, Bool.and_eq_false_iff]
    by_cases hb : b ≤ x
    · right; right; exact decide_eq_false (by omega)
    · right; left; exact decide_eq_false (by omega)

/-- Banks b to b + n - 1 joined to a map. -/
theorem accmap_or_bankMask (m : Word) (b n x : Nat) (h : b + n ≤ 32) :
    (m ||| State.bankMask b n).getLsbD x = (m.getLsbD x || decide (b ≤ x ∧ x < b + n)) := by
  rw [BitVec.getLsbD_or, bankMask_getLsbD b n x h]

/-- The same taken from it. -/
theorem accmap_andNot_bankMask (m : Word) (b n x : Nat) (h : b + n ≤ 32) :
    (m &&& ~~~(State.bankMask b n)).getLsbD x = (m.getLsbD x && !decide (b ≤ x ∧ x < b + n)) := by
  rw [BitVec.getLsbD_and, BitVec.getLsbD_not, bankMask_getLsbD b n x h]
  by_cases hx : x < 32
  · simp [hx]
  · simp [BitVec.getLsbD_of_ge m x (by omega)]

/-- Some bank of a range satisfies a test. -/
theorem any_range_add (b n : Nat) (p : Nat → Bool) :
    ((List.range n).any fun i => p (b + i)) = true ↔ ∃ x, (b ≤ x ∧ x < b + n) ∧ p x = true := by
  simp only [List.any_eq_true, List.mem_range]
  exact ⟨fun ⟨i, hi, hp⟩ => ⟨b + i, by omega, hp⟩, fun ⟨x, hx, hp⟩ => ⟨x - b, by omega, by rwa [Nat.add_sub_cancel' hx.1]⟩⟩

theorem all_range_add (b n : Nat) (p : Nat → Bool) :
    ((List.range n).all fun i => p (b + i)) = true ↔ ∀ x, b ≤ x ∧ x < b + n → p x = true := by
  simp only [List.all_eq_true, List.mem_range]
  exact ⟨fun h x hx => by simpa [Nat.add_sub_cancel' hx.1] using h (x - b) (by omega), fun h i hi => h _ (by omega)⟩

/-! Slots of parked copies (R29). -/

/-- The address of an entry's slot among the bytes of the banks. -/
def slotOf (p : Parked) : Nat := State.slotAddr p.bank.toNat p.slot.toNat

/-- A slot is free: no entry of the spill record holds it. -/
def FreeSlot (ps : Vector Parked 64) (x i : Nat) : Prop := ∀ k : Fin 64, ps[k].holds x i = false

theorem holds_iff (p : Parked) (x i : Nat) : p.holds x i = true ↔ p.v = true ∧ p.bank.toNat = x ∧ p.slot.toNat = i := by
  simp [Parked.holds, and_assoc]

theorem any_toList {α : Type} {n : Nat} (v : Vector α n) (p : α → Bool) : v.toList.any p = true ↔ ∃ k : Fin n, p v[k] = true := by
  simp only [List.any_eq_true, Vector.mem_toList_iff, Vector.mem_iff_getElem]
  exact ⟨fun ⟨x, ⟨i, hi, hx⟩, hp⟩ => ⟨⟨i, hi⟩, hx ▸ hp⟩, fun ⟨k, hp⟩ => ⟨_, ⟨k.val, k.isLt, rfl⟩, hp⟩⟩

theorem not_any_toList {α : Type} {n : Nat} (v : Vector α n) (p : α → Bool) :
    (!v.toList.any p) = true ↔ ∀ k : Fin n, p v[k] = false := by
  rw [Bool.not_eq_true', Bool.eq_false_iff, Ne, any_toList]
  simp

/-- The slot that is found is one of a usable bank, and free. -/
theorem freeSlot_some {ps : Vector Parked 64} {usable : Nat → Bool} {x i : Nat} (h : freeSlot ps usable = some (x, i)) :
    (x < 32 ∧ i < 32) ∧ usable x = true ∧ FreeSlot ps x i := by
  unfold freeSlot at h
  have hp := List.find?_some h
  have hm := List.mem_of_find?_eq_some h
  simp only [List.mem_flatMap, List.mem_filter, List.mem_range, List.mem_map, Prod.mk.injEq] at hm
  obtain ⟨y, ⟨hy, hu⟩, j, hj, rfl, rfl⟩ := hm
  exact ⟨⟨hy, hj⟩, hu, (not_any_toList ps _).mp hp⟩

/-- None is found only where there is none. -/
theorem freeSlot_none {ps : Vector Parked 64} {usable : Nat → Bool} (h : freeSlot ps usable = none) (x i : Nat)
    (hx : x < 32) (hi : i < 32) (hu : usable x = true) : ¬FreeSlot ps x i := by
  unfold freeSlot at h
  rw [List.find?_eq_none] at h
  have := h (x, i) (by simp [hx, hi, hu])
  rwa [not_any_toList] at this

theorem freeSlot_eq_none {ps : Vector Parked 64} {usable : Nat → Bool} (h : ∀ x, x < 32 → usable x = false) :
    freeSlot ps usable = none := by
  cases e : freeSlot ps usable with
  | none => rfl
  | some p =>
    obtain ⟨⟨hx, -⟩, hu, -⟩ := freeSlot_some (x := p.1) (i := p.2) e
    rw [h _ hx] at hu; cases hu

/-! Moving parked copies (R27). -/

/-- The bytes of a parked copy. -/
def copyOf (s : State) (k : Fin 64) : List Byte := s.c.acc.readBytes (slotOf s.c.parked[k]) 64

/-- Every copy that is parked stays so, with its bytes. -/
def KeepsCopies (s t : State) : Prop := ∀ k : Fin 64, s.c.parked[k].v = true → t.c.parked[k].v = true ∧ copyOf t k = copyOf s k

theorem KeepsCopies.of_eq {s t : State} (hp : t.c.parked = s.c.parked) (ha : t.c.acc = s.c.acc) : KeepsCopies s t :=
  fun k hk => by rw [copyOf, copyOf, hp, ha]; exact ⟨hk, rfl⟩

theorem KeepsCopies.trans {s t u : State} (h : KeepsCopies s t) (h' : KeepsCopies t u) : KeepsCopies s u :=
  fun k hk => ⟨(h' k (h k hk).1).1, (h' k (h k hk).1).2.trans (h k hk).2⟩

/-- Bytes that a store does not touch read as before. -/
theorem readBytes_writeBytes_apart (m : Memory) (a : Nat) (bs : List Byte) (x n : Nat)
    (h : x + n ≤ a ∨ a + bs.length ≤ x) : (m.writeBytes a bs).readBytes x n = m.readBytes x n := by
  unfold Memory.readBytes
  apply List.map_congr_left
  intro i hi
  rw [List.mem_range] at hi
  exact Memory.read_writeBytes_outside _ _ _ _ (by omega)

/-- Different slots have no byte in common. -/
theorem slotAddr_apart {x i y j : Nat} (hi : i < 32) (hj : j < 32) (h : ¬(x = y ∧ i = j)) :
    State.slotAddr x i + 64 ≤ State.slotAddr y j ∨ State.slotAddr y j + 64 ≤ State.slotAddr x i := by
  unfold State.slotAddr; omega

/-- An entry out of a range of banks has its slot outside their bytes. -/
theorem slotOf_apart (p : Parked) {b n : Nat} (h : ¬(b ≤ p.bank.toNat ∧ p.bank.toNat < b + n)) :
    slotOf p + 64 ≤ 0x800 * b ∨ 0x800 * b + 0x800 * n ≤ slotOf p := by
  have := p.slot.isLt
  unfold slotOf State.slotAddr; omega

/-- The state after the copy of entry n has moved to a slot. -/
def movedTo (s : State) (n : Fin 64) (x i : Nat) : State :=
  (s.storeAcc (State.slotAddr x i) (copyOf s n)).setParked
    (s.c.parked.set n { v := true, bank := BitVec.ofNat 5 x, slot := BitVec.ofNat 5 i })

theorem movedTo_parked (s : State) (n k : Fin 64) (x i : Nat) :
    (movedTo s n x i).c.parked[k] =
      if k = n then { v := true, bank := BitVec.ofNat 5 x, slot := BitVec.ofNat 5 i } else s.c.parked[k] := by
  show (s.c.parked.set n _)[k.val] = _
  rw [Vector.getElem_set]
  simp only [Fin.val_inj, eq_comm (a := n)]
  rfl

/-- A move to a free slot keeps every copy. -/
theorem movedTo_keeps {s : State} {n : Fin 64} {x i : Nat} (hx : x < 32) (hi : i < 32) (hf : FreeSlot s.c.parked x i) :
    KeepsCopies s (movedTo s n x i) := by
  intro k hk
  have hl : (copyOf s n).length = 64 := Memory.readBytes_length ..
  have acc : (movedTo s n x i).c.acc = s.c.acc.writeBytes (State.slotAddr x i) (copyOf s n) := rfl
  rw [copyOf, movedTo_parked, acc]
  by_cases h : k = n
  · subst h
    have e : slotOf { v := true, bank := BitVec.ofNat 5 x, slot := BitVec.ofNat 5 i } = State.slotAddr x i := by
      simp only [slotOf, BitVec.toNat_ofNat]
      rw [Nat.mod_eq_of_lt hx, Nat.mod_eq_of_lt hi]
    have r := Memory.readBytes_writeBytes s.c.acc (State.slotAddr x i) (copyOf s k)
    rw [hl] at r
    rw [if_pos rfl, e]
    exact ⟨rfl, r⟩
  · rw [if_neg h]
    refine ⟨hk, readBytes_writeBytes_apart _ _ _ _ _ ?_⟩
    rw [hl]
    refine slotAddr_apart s.c.parked[k].slot.isLt hi fun e => ?_
    have := hf k
    rw [(holds_iff _ _ _).mpr ⟨hk, e⟩] at this
    cases this

/-- An entry that is not to move stays; one that is moves to a free slot of a usable bank, or there is none. -/
theorem moveOut_cases (usable inRange : Nat → Bool) (s : State) (n : Fin 64) :
    (¬(s.c.parked[n].v = true ∧ inRange s.c.parked[n].bank.toNat = true) ∧ State.moveOut usable inRange s n = some s) ∨
    ((s.c.parked[n].v = true ∧ inRange s.c.parked[n].bank.toNat = true) ∧
      ((freeSlot s.c.parked usable = none ∧ State.moveOut usable inRange s n = none) ∨
       ∃ x i, freeSlot s.c.parked usable = some (x, i) ∧ State.moveOut usable inRange s n = some (movedTo s n x i))) := by
  unfold State.moveOut
  by_cases h : s.c.parked[n].v = true ∧ inRange s.c.parked[n].bank.toNat = true
  · refine .inr ⟨h, ?_⟩
    have hb : (s.c.parked[n].v && inRange s.c.parked[n].bank.toNat) = true := by rw [Bool.and_eq_true]; exact h
    rw [if_pos hb]
    cases freeSlot s.c.parked usable with
    | none => exact .inl ⟨rfl, rfl⟩
    | some p => exact .inr ⟨p.1, p.2, rfl, rfl⟩
  · exact .inl ⟨h, if_neg (by simpa using h)⟩

/-- Moving some entries out of a range keeps every copy; those entries are out of the range, and the others are as they were. -/
theorem moveAll_some {usable inRange : Nat → Bool} (hu : ∀ x, usable x = true → inRange x = false) (ns : List (Fin 64))
    {s t : State} (h : State.moveAll usable inRange s ns = some t) :
    KeepsCopies s t ∧ (∀ k ∉ ns, t.c.parked[k] = s.c.parked[k]) ∧
    ∀ k ∈ ns, t.c.parked[k].v = true → inRange t.c.parked[k].bank.toNat = false := by
  induction ns generalizing s with
  | nil => cases h; exact ⟨.of_eq rfl rfl, fun _ _ => rfl, fun _ h => by cases h⟩
  | cons n ns ih =>
    have step : ∀ u, State.moveOut usable inRange s n = some u → KeepsCopies s u →
        (∀ k, k ≠ n → u.c.parked[k] = s.c.parked[k]) →
        (u.c.parked[n].v = true → inRange u.c.parked[n].bank.toNat = false) →
        KeepsCopies s t ∧ (∀ k ∉ n :: ns, t.c.parked[k] = s.c.parked[k]) ∧
        ∀ k ∈ n :: ns, t.c.parked[k].v = true → inRange t.c.parked[k].bank.toNat = false := by
      intro u hm hk hp hn
      rw [State.moveAll, hm] at h
      obtain ⟨ik, ip, ir⟩ := ih h
      refine ⟨hk.trans ik, fun k hk => ?_, fun k hk hv => ?_⟩
      · rw [List.mem_cons, not_or] at hk
        rw [ip k hk.2, hp k hk.1]
      · by_cases hkn : k ∈ ns
        · exact ir k hkn hv
        · obtain rfl := (List.mem_cons.mp hk).resolve_right hkn
          rw [ip k hkn] at hv ⊢
          exact hn hv
    rcases moveOut_cases usable inRange s n with ⟨hs, hm⟩ | ⟨-, ⟨-, hm⟩ | ⟨x, i, hf, hm⟩⟩
    · exact step s hm (.of_eq rfl rfl) (fun _ _ => rfl) fun hv => Bool.eq_false_iff.mpr fun hr => hs ⟨hv, hr⟩
    · rw [State.moveAll, hm] at h; cases h
    · obtain ⟨⟨hx, hi⟩, hux, hfree⟩ := freeSlot_some hf
      refine step _ hm (movedTo_keeps hx hi hfree) (fun k hk => ?_) fun _ => ?_
      · rw [movedTo_parked, if_neg hk]
      · rw [movedTo_parked, if_pos rfl]
        simpa [Nat.mod_eq_of_lt hx] using hu x hux

/-- With no entry in the range nothing moves. -/
theorem moveAll_idle {usable inRange : Nat → Bool} {s : State}
    (h : ∀ k : Fin 64, s.c.parked[k].v = true → inRange s.c.parked[k].bank.toNat = false) (ns : List (Fin 64)) :
    State.moveAll usable inRange s ns = some s := by
  induction ns with
  | nil => rfl
  | cons n ns ih =>
    rcases moveOut_cases usable inRange s n with ⟨-, hm⟩ | ⟨⟨hv, hr⟩, -⟩
    · rw [State.moveAll, hm]; exact ih
    · rw [h n hv] at hr; cases hr

/-- With an entry in the range and no bank to use there is no move. -/
theorem moveAll_none {usable inRange : Nat → Bool} {s : State} (hu : ∀ x, x < 32 → usable x = false) {k : Fin 64}
    (hv : s.c.parked[k].v = true) (hr : inRange s.c.parked[k].bank.toNat = true) (ns : List (Fin 64)) (hk : k ∈ ns) :
    State.moveAll usable inRange s ns = none := by
  induction ns with
  | nil => cases hk
  | cons n ns ih =>
    rcases moveOut_cases usable inRange s n with ⟨hs, hm⟩ | ⟨-, ⟨-, hm⟩ | ⟨x, i, hf, -⟩⟩
    · rw [State.moveAll, hm]
      refine ih ((List.mem_cons.mp hk).resolve_left fun e => hs ?_)
      subst e; exact ⟨hv, hr⟩
    · rw [State.moveAll, hm]
    · rw [freeSlot_eq_none hu] at hf; cases hf

/-- R27: granting banks keeps the copies that lie in none of them. -/
theorem grantBanks_keeps {s : State} {b n : Nat}
    (h : ∀ k : Fin 64, s.c.parked[k].v = true → ¬(b ≤ s.c.parked[k].bank.toNat ∧ s.c.parked[k].bank.toNat < b + n)) :
    KeepsCopies s (s.grantBanks b n) := by
  intro k hk
  refine ⟨hk, readBytes_writeBytes_apart _ _ _ _ _ ?_⟩
  rw [List.length_replicate]
  exact slotOf_apart _ (h k hk)

/-- The end of an instruction and a scalar result keep the copies. -/
theorem result_keeps {s t u : State} {d : Reg} {x : Word} (h : s.result d x = .next t) (hk : KeepsCopies u s) :
    KeepsCopies u t := by
  cases h
  refine hk.trans (.of_eq ?_ ?_)
  · rw [State.adv_eq]; simp
  · simp

/-! aalloc (R27, R142). -/

/-- aalloc in a compute phase, past its checks. -/
theorem execAalloc_moves {s : State} {a b : Reg} {n : Nat} (hx : s.inExchange = false) (h0 : 0 < n) (hb : b.val + n ≤ 32)
    (hf : ∀ x, b.val ≤ x ∧ x < b.val + n → s.c.accmap.getLsbD x = false) :
    exec (.aalloc a b n) s =
      (State.moveAll (fun x => !s.allocated x && !decide (b.val ≤ x ∧ x < b.val + n))
        (fun x => decide (b.val ≤ x ∧ x < b.val + n)) s (List.finRange 64)).elim (s.result a 2)
        fun t => (t.grantBanks b.val n).result a 0 := by
  show s.classC _ = _
  have clear : ¬((List.range n).any fun i => s.allocated (b.val + i)) = true := by
    rw [any_range_add b.val n s.allocated]
    rintro ⟨x, hr, ht⟩
    rw [allocated_eq, hf x hr] at ht; cases ht
  rw [State.classC_compute _ _ hx, if_neg (by omega), if_neg clear]
  dsimp only
  generalize State.moveAll _ _ s _ = moved
  cases moved <;> rfl

theorem execAalloc_range {s : State} {a b : Reg} {n : Nat} (hx : s.inExchange = false) (h : n = 0 ∨ 32 < b.val + n) :
    exec (.aalloc a b n) s = s.result a 3 := by
  show s.classC _ = _
  rw [State.classC_compute _ _ hx, if_pos h]

theorem execAalloc_taken {s : State} {a b : Reg} {n : Nat} (hx : s.inExchange = false) (h0 : 0 < n) (hb : b.val + n ≤ 32)
    (h : ∃ x, (b.val ≤ x ∧ x < b.val + n) ∧ s.c.accmap.getLsbD x = true) : exec (.aalloc a b n) s = s.result a 1 := by
  show s.classC _ = _
  rw [State.classC_compute _ _ hx, if_neg (by omega), if_pos]
  rw [any_range_add b.val n s.allocated]
  simpa only [allocated_eq] using h

/-- Whatever aalloc answers, every parked copy keeps its bytes. -/
theorem execAalloc_keeps {s t : State} {a b : Reg} {n : Nat} (hx : s.inExchange = false)
    (h : exec (.aalloc a b n) s = .next t) : KeepsCopies s t := by
  have refl : KeepsCopies s s := .of_eq rfl rfl
  by_cases hr : n = 0 ∨ 32 < b.val + n
  · rw [execAalloc_range hx hr] at h; exact result_keeps h refl
  · have h0 : 0 < n ∧ b.val + n ≤ 32 := by omega
    by_cases ht : ∃ x, (b.val ≤ x ∧ x < b.val + n) ∧ s.c.accmap.getLsbD x = true
    · rw [execAalloc_taken hx h0.1 h0.2 ht] at h; exact result_keeps h refl
    · rw [execAalloc_moves hx h0.1 h0.2 fun x hr => Bool.eq_false_iff.mpr fun e => ht ⟨x, hr, e⟩] at h
      generalize hu : State.moveAll _ _ s _ = moved at h
      cases moved with
      | none => exact result_keeps h refl
      | some u =>
        obtain ⟨hk, -, hout⟩ := moveAll_some (fun x hx => (Bool.not_eq_true' _).mp (Bool.and_eq_true_iff.mp hx).2) _ hu
        exact result_keeps h (hk.trans (grantBanks_keeps fun k hv => by
          simpa using hout k (List.mem_finRange k) hv))
/-- The banks that aalloc grants read as zero, and the others as before. -/
theorem grantBanks_read (s : State) (b n k : Nat) :
    ((0x800 * b ≤ k ∧ k < 0x800 * (b + n)) → (s.grantBanks b n).c.acc.read k = 0) ∧
    ((k < 0x800 * b ∨ 0x800 * (b + n) ≤ k) → (s.grantBanks b n).c.acc.read k = s.c.acc.read k) := by
  show (_ → Memory.read (s.c.acc.writeBytes (0x800 * b) (List.replicate (0x800 * n) 0)) k = 0) ∧
    (_ → Memory.read (s.c.acc.writeBytes (0x800 * b) (List.replicate (0x800 * n) 0)) k = _)
  rw [Memory.read_writeBytes]
  simp only [List.length_replicate, List.getElem_replicate]
  refine ⟨fun h => ?_, fun h => ?_⟩
  · rw [dif_pos (by omega)]
  · rw [dif_neg (by omega)]

theorem aalloc_bankAllocation (s : State) (a b : Reg) (n : Nat) (hx : s.inExchange = false) :
    let inRange (x : Nat) : Prop := b.val ≤ x ∧ x < b.val + n
    let taken (x : Nat) : Bool := s.c.accmap.getLsbD x
    (n = 0 ∨ 32 < b.val + n → Writes (.aalloc a b n) s a 3) ∧
    (0 < n → b.val + n ≤ 32 → (∃ x, inRange x ∧ taken x = true) → Writes (.aalloc a b n) s a 1) ∧
    (0 < n → b.val + n ≤ 32 → (∀ x, inRange x → taken x = false) →
      (∃ k : Fin 64, s.c.parked[k].v = true ∧ inRange s.c.parked[k].bank.toNat) → (∀ x, x < 32 → ¬inRange x → taken x = true) →
      Writes (.aalloc a b n) s a 2) ∧
    (0 < n → b.val + n ≤ 32 → (∀ x, inRange x → taken x = false) →
      (∀ k : Fin 64, s.c.parked[k].v = true → ¬inRange s.c.parked[k].bank.toNat) → ∃ m map err,
      Leaves (.aalloc a b n) s (({ s with c := { s.c with acc := m, accmap := map, accErr := err } } : State).setReg a 0) ∧
      (∀ x, map.getLsbD x = (taken x || decide (inRange x))) ∧
      (∀ k, 0x800 * b.val ≤ k → k < 0x800 * (b.val + n) → Memory.read m k = 0) ∧
      (∀ k, k < 0x800 * b.val ∨ 0x800 * (b.val + n) ≤ k → Memory.read m k = s.c.acc.read k)) := by
  intro inRange taken
  refine ⟨fun h => execAalloc_range hx h, fun h0 hb h => execAalloc_taken hx h0 hb h, fun h0 hb hf hk hu => ?_,
    fun h0 hb hf hk => ?_⟩
  · obtain ⟨k, hv, hr⟩ := hk
    rw [Writes, execAalloc_moves hx h0 hb hf, moveAll_none (fun x h32 => ?_) hv (decide_eq_true hr) _ (List.mem_finRange k)]
    · rfl
    · rw [allocated_eq]
      by_cases h : b.val ≤ x ∧ x < b.val + n
      · rw [decide_eq_true h, Bool.not_true, Bool.and_false]
      · rw [show s.c.accmap.getLsbD x = true from hu x h32 h, Bool.not_true, Bool.false_and]
  · refine ⟨(s.grantBanks b.val n).c.acc, s.c.accmap ||| State.bankMask b.val n, (s.grantBanks b.val n).c.accErr, ?_,
      fun x => accmap_or_bankMask _ _ _ _ hb, fun k h1 h2 => (grantBanks_read s b.val n k).1 ⟨h1, h2⟩,
      fun k h => (grantBanks_read s b.val n k).2 h⟩
    rw [Leaves, execAalloc_moves hx h0 hb hf, moveAll_idle fun k hv => decide_eq_false (hk k hv)]
    rfl

/-! afree and aquery (R28, R142). -/

theorem afree_bankAllocation (s : State) (b : Reg) (n : Nat) (hx : s.inExchange = false) :
    let inRange (x : Nat) : Prop := b.val ≤ x ∧ x < b.val + n
    let taken (x : Nat) : Bool := s.c.accmap.getLsbD x
    ((∃ x, inRange x ∧ s.bankBusy x = true) → Waits (.afree b n) s) ∧
    ((∀ x, inRange x → s.bankBusy x = false) → (n = 0 ∨ 32 < b.val + n ∨ ∃ x, inRange x ∧ taken x = false) →
      Traps (.afree b n) s .accBank 0 0) ∧
    ((∀ x, inRange x → s.bankBusy x = false) → 0 < n → b.val + n ≤ 32 → (∀ x, inRange x → taken x = true) → ∃ map,
      Leaves (.afree b n) s { s with c := { s.c with
        accmap := map, dir := s.c.dir.filter fun e => !decide (e.bank < b.val + n ∧ b.val < e.bank + e.nb) } } ∧
      ∀ x, map.getLsbD x = (taken x && !decide (inRange x))) := by
  intro inRange taken
  have enter : exec (.afree b n) s = execAfree b n s := rfl
  have idle : (∀ x, inRange x → s.bankBusy x = false) →
      ¬((List.range n).any fun i => s.bankBusy (b.val + i)) = true := fun h => by
    rw [any_range_add b.val n s.bankBusy]
    rintro ⟨x, hr, ht⟩
    rw [h x hr] at ht; cases ht
  have held : ((List.range n).all fun i => s.allocated (b.val + i)) = true ↔ ∀ x, inRange x → taken x = true := by
    rw [all_range_add b.val n s.allocated]; simp only [allocated_eq]; rfl
  refine ⟨fun h => ?_, fun hi h => ?_, fun hi h0 hb ht => ?_⟩
  · rw [Waits, enter, execAfree, State.classC_compute _ _ hx, if_pos ((any_range_add b.val n s.bankBusy).mpr h)]; rfl
  · have bad : n = 0 ∨ 32 < b.val + n ∨ ((List.range n).all fun i => s.allocated (b.val + i)) = false := by
      refine h.imp_right (Or.imp_right ?_)
      rintro ⟨x, hr, ht⟩
      exact Bool.eq_false_iff.mpr fun e => by rw [held.mp e x hr] at ht; cases ht
    rw [Traps, enter, execAfree, State.classC_compute _ _ hx, if_neg (idle hi), if_pos bad, trap_compute hx]
  · refine ⟨s.c.accmap &&& ~~~(State.bankMask b.val n), ?_, fun x => accmap_andNot_bankMask _ _ _ _ hb⟩
    have ok : ¬(n = 0 ∨ 32 < b.val + n ∨ ((List.range n).all fun i => s.allocated (b.val + i)) = false) := by
      rw [held.mpr ht]; simp; omega
    rw [Leaves, enter, execAfree, State.classC_compute _ _ hx, if_neg (idle hi), if_neg ok]; rfl

theorem aquery_bankAllocation (s : State) (a : Reg) (hx : s.inExchange = false) :
    let free := (List.range 32).filter fun x => !s.c.accmap.getLsbD x
    Writes (.aquery a 0) s a s.c.accmap ∧ Writes (.aquery a 1) s a s.c.spillmap ∧
    Writes (.aquery a 2) s a (BitVec.ofNat 32 free.length) ∧
    Writes (.aquery a 3) s a (BitVec.ofNat 32 (32 * free.length -
      (s.c.parked.toList.filter fun e => e.v && free.contains e.bank.toNat).length)) := by
  intro free
  have hf : (List.range 32).filter (fun b => !s.allocated b) = free := by simp only [allocated_eq]; rfl
  have enter : ∀ q, exec (.aquery a q) s = execAquery a q s := fun _ => rfl
  simp only [Writes, enter, execAquery, hf, State.classC_compute _ _ hx]
  exact ⟨rfl, rfl, rfl, rfl⟩

/-! spill and fill (R29, R142). -/

/-- The number that a register of either kind holds, its size in bytes. -/
def parkValue (s : State) (vec : Bool) (a : Reg) : Nat := if vec then (s.vreg a).toNat else (s.reg a).toNat
def parkSize (vec : Bool) : Nat := if vec then 64 else 4

theorem parkBytes_eq (s : State) (vec : Bool) (a : Reg) : s.parkBytes vec a = leBytes (parkSize vec) (parkValue s vec a) := by
  cases vec <;> rfl

theorem parkValue_lt (s : State) (vec : Bool) (a : Reg) : parkValue s vec a < 256 ^ parkSize vec := by
  rw [show (256 : Nat) = 2 ^ 8 from rfl, ← Nat.pow_mul]
  cases vec with
  | false => exact (s.reg a).isLt
  | true => rw [show 8 * parkSize true = 512 from rfl]; exact (s.vreg a).isLt

/-- What a store of a register to a slot leaves there, and elsewhere. -/
theorem park_read (s : State) (vec : Bool) (a : Reg) (at_ : Nat) :
    littleEndian (s.c.acc.writeBytes at_ (s.parkBytes vec a)) at_ (parkSize vec) = parkValue s vec a ∧
    ∀ x, x < at_ ∨ at_ + parkSize vec ≤ x → Memory.read (s.c.acc.writeBytes at_ (s.parkBytes vec a)) x = s.c.acc.read x := by
  rw [parkBytes_eq]
  refine ⟨littleEndian_writeBytes _ _ _ _ (parkValue_lt s vec a), fun x hx => Memory.read_writeBytes_outside _ _ _ _ ?_⟩
  rwa [leBytes_length]

theorem freeSlot_iff (s : State) (x i : Nat) : FreeSlot s.c.parked x i ↔
    ∀ k : Fin 64, ¬(s.c.parked[k].v = true ∧ s.c.parked[k].bank.toNat = x ∧ s.c.parked[k].slot.toNat = i) := by
  simp only [FreeSlot, ← holds_iff, Bool.eq_false_iff, Ne]

theorem spill_bankAllocation (s : State) (vec : Bool) (a : Reg) (hx : s.inExchange = false) :
    let n : Fin 64 := parkIndex vec a
    let e := s.c.parked[n]
    let at_ (p : Parked) : Nat := 0x800 * p.bank.toNat + 64 * p.slot.toNat
    let open_ (x i : Nat) : Prop := x < 32 ∧ i < 32 ∧ s.c.accmap.getLsbD x = false ∧
      ∀ k : Fin 64, ¬(s.c.parked[k].v = true ∧ s.c.parked[k].bank.toNat = x ∧ s.c.parked[k].slot.toNat = i)
    (e.v = true ∨ (∃ x i, open_ x i) → ∃ m ps,
      Leaves (.spill vec a) s (if e.v then { s with c := { s.c with acc := m } }
        else { s with c := { s.c with acc := m, parked := ps, spillmap := State.spillmapOf ps } }) ∧
      (let p := if e.v then e else ps[n]
       (e.v = false → p.v = true ∧ open_ p.bank.toNat p.slot.toNat ∧ ∀ k : Fin 64, k ≠ n → ps[k] = s.c.parked[k]) ∧
       littleEndian m (at_ p) (parkSize vec) = parkValue s vec a ∧
       ∀ x, x < at_ p ∨ at_ p + parkSize vec ≤ x → Memory.read m x = s.c.acc.read x)) ∧
    (e.v = false → (∀ x i, ¬open_ x i) → Traps (.spill vec a) s .accBank 0 0) := by
  intro n e at_ open_
  have enter : exec (.spill vec a) s = execSpill vec a s := rfl
  have usable : ∀ {x i}, (x < 32 ∧ i < 32) ∧ (!s.allocated x) = true ∧ FreeSlot s.c.parked x i ↔ open_ x i := by
    intro x i
    rw [freeSlot_iff, allocated_eq, Bool.not_eq_true']
    exact ⟨fun ⟨⟨h1, h2⟩, h3, h4⟩ => ⟨h1, h2, h3, h4⟩, fun ⟨h1, h2, h3, h4⟩ => ⟨⟨h1, h2⟩, h3, h4⟩⟩
  refine ⟨fun h => ?_, fun hv ho => ?_⟩
  · by_cases hv : e.v = true
    · refine ⟨s.c.acc.writeBytes (at_ e) (s.parkBytes vec a), s.c.parked, ?_, ?_⟩
      · rw [Leaves, enter, execSpill, State.classC_compute _ _ hx, if_pos hv, if_pos hv]; rfl
      · intro p
        have hp : p = e := if_pos hv
        rw [hp]
        exact ⟨fun hf => Bool.noConfusion (hf.symm.trans hv), park_read s vec a (at_ e)⟩
    · have ⟨x, i, ho⟩ := h.resolve_left hv
      cases hs : freeSlot s.c.parked (fun b => !s.allocated b) with
      | none =>
        obtain ⟨⟨h1, h2⟩, h3, h4⟩ := usable.mpr ho
        exact absurd h4 (freeSlot_none hs x i h1 h2 h3)
      | some q =>
        obtain ⟨⟨hq1, hq2⟩, hq3, hq4⟩ := freeSlot_some (x := q.1) (i := q.2) hs
        let new : Parked := { v := true, bank := BitVec.ofNat 5 q.1, slot := BitVec.ofNat 5 q.2 }
        have b1 : new.bank.toNat = q.1 := Nat.mod_eq_of_lt hq1
        have b2 : new.slot.toNat = q.2 := Nat.mod_eq_of_lt hq2
        refine ⟨s.c.acc.writeBytes (State.slotAddr q.1 q.2) (s.parkBytes vec a), s.c.parked.set n new, ?_, ?_⟩
        · rw [Leaves, enter, execSpill, State.classC_compute _ _ hx, if_neg hv, if_neg hv, hs]; rfl
        · intro p
          have hp : p = new := (if_neg hv).trans (Vector.getElem_set_self _)
          have hat : at_ new = State.slotAddr q.1 q.2 := by show 0x800 * _ + 64 * _ = _; rw [b1, b2]; rfl
          rw [hp, hat, b1, b2]
          refine ⟨fun _ => ⟨rfl, usable.mp ⟨⟨hq1, hq2⟩, hq3, hq4⟩, fun k hk => ?_⟩, park_read s vec a _⟩
          exact Vector.getElem_set_ne _ _ fun h => hk (Fin.ext h.symm)
  · have none_ : freeSlot s.c.parked (fun b => !s.allocated b) = none := by
      cases hs : freeSlot s.c.parked (fun b => !s.allocated b) with
      | none => rfl
      | some q => exact absurd (usable.mp (freeSlot_some (x := q.1) (i := q.2) hs)) (ho _ _)
    rw [Traps, enter, execSpill, State.classC_compute _ _ hx, if_neg fun h => Bool.noConfusion (hv.symm.trans h), none_]
    exact trap_compute hx _ _ _

/-- A record for the log changes the log alone. -/
theorem logRecord_eq (s : State) (src kind : Nat) (a b c d : Word) :
    ∃ l, s.logRecord src kind a b c d = { s with chip := { s.chip with log := l } } := by
  unfold State.logRecord
  dsimp only
  split <;> exact ⟨_, rfl⟩

theorem logWords_acc (s : State) (off n : Nat) (tag : Word) : s.logWords 1 off n tag =
    (State.badWords s.c.accErr off n).foldl (fun t w => t.logError (0x1000 + s.t.num) 1 (8 * w) tag) s := rfl

theorem slotOf_lt (p : Parked) : slotOf p < 0x10000 := by
  have h1 := p.bank.isLt
  have h2 := p.slot.isLt
  unfold slotOf State.slotAddr; omega

/-- Offsets of the banks as fill names them in c.eaddr, through view 0x8. -/
theorem offOf_bankView {x : Nat} (h : x < 0x10000) : offOf (BitVec.ofNat 32 (0x80000000 + x)) = x := by
  unfold offOf; rw [BitVec.toNat_ofNat]; omega

theorem fill_bankAllocation (s : State) (vec : Bool) (a : Reg) (hx : s.inExchange = false) :
    let n : Fin 64 := parkIndex vec a
    let e := s.c.parked[n]
    let at_ (p : Parked) : Nat := 0x800 * p.bank.toNat + 64 * p.slot.toNat
    (e.v = true → (∀ w ∈ s.c.accErr, 8 * w + 8 ≤ at_ e ∨ at_ e + parkSize vec ≤ 8 * w) → ∃ ps, (∀ k : Fin 64, ps[k].v = (s.c.parked[k].v && k != n)) ∧
      (let t : State := { s with c := { s.c with parked := ps, spillmap := State.spillmapOf ps } }
       let x := littleEndian s.c.acc (at_ e) (parkSize vec)
       Leaves (.fill vec a) s (if vec then t.setV a (BitVec.ofNat 512 x) else t.setReg a (BitVec.ofNat 32 x)))) ∧
    (∀ w, e.v = true → s.c.accErr = [w] → 8 * w < at_ e + parkSize vec → at_ e < 8 * w + 8 →
      Completes (.fill vec a) s ((s.logError (0x1000 + s.t.num) 1 (8 * w) 0).enter (causeWord .eccUncorr 0 s.ir.len) s.c.pc
        (BitVec.ofNat 32 (0x80000000 + at_ e)) s.ir.eword)) ∧
    (e.v = false → Traps (.fill vec a) s .accBank 0 0) := by
  intro n e at_
  have enter : exec (.fill vec a) s = execFill vec a s := rfl
  have valid : e.v = true → ¬s.c.parked[parkIndex vec a].v = false := fun h h' => by
    rw [show s.c.parked[parkIndex vec a].v = true from h] at h'; cases h'
  refine ⟨fun hv hc => ?_, fun w hv hw h1 h2 => ?_, fun hv => ?_⟩
  · refine ⟨s.c.parked.set n { e with v := false }, fun k => ?_, ?_⟩
    · show ((s.c.parked.set n _)[k.val]).v = _
      rw [Vector.getElem_set]
      by_cases h : k = n
      · subst h; simp
      · rw [if_neg fun e => h (Fin.ext e.symm)]
        simp [h]
    · have good : s.accBad (at_ e) (parkSize vec) = false := by
        rw [State.accBad, List.any_eq_false]
        intro w hw
        have := hc w hw
        simp only [decide_eq_true_eq]; omega
      intro t x
      have hx' : x = leNat (s.c.acc.readBytes (at_ e) (parkSize vec)) := littleEndian_eq_leNat ..
      rw [Leaves, enter, execFill, State.classC_compute _ _ hx, if_neg (valid hv)]
      refine (if_neg (by rw [Bool.not_eq_true]; exact good)).trans ?_
      rw [hx']; rfl
  · have bad : s.accBad (at_ e) (parkSize vec) = true := by
      rw [State.accBad, hw]; simp; omega
    have words : State.badWords s.c.accErr (at_ e) (parkSize vec) = [w] := by
      rw [State.badWords, hw]; simp; omega
    rw [Completes, enter, execFill, State.classC_compute _ _ hx, if_neg (valid hv)]
    refine (if_pos bad).trans ?_
    show State.trap (s.logWords 1 (offOf (BitVec.ofNat 32 (0x80000000 + slotOf e))) (parkSize vec) 0) _ _ _ = _
    rw [offOf_bankView (slotOf_lt e), logWords_acc, show slotOf e = at_ e from rfl, words]
    obtain ⟨l, hl⟩ := logRecord_eq s (0x1000 + s.t.num) 3 (BitVec.ofNat 32 17) (BitVec.ofNat 32 (8 * w)) 0
      (BitVec.ofNat 32 (8 * w / 2 ^ 32))
    exact (congrArg (fun u : State => u.trap .eccUncorr 0 _) hl).trans
      ((trap_compute (by exact hx) _ _ _).trans (by rw [State.logError, hl]; rfl))
  · rw [Traps, enter, execFill, State.classC_compute _ _ hx, if_pos hv, trap_compute hx]

/-- Settles O32: aalloc moves copies only to free slots, and the other five instructions case by case. -/
theorem bankAllocation : Obligations.BankAllocation := by
  refine ⟨fun s a b n hx => ?_, fun s a b n hx => ?_, fun s vec a hx => ?_⟩
  · obtain ⟨h3, h1, h2, h0⟩ := aalloc_bankAllocation s a b n hx
    exact ⟨h3, h1, h2, h0, fun t ht => execAalloc_keeps hx ht⟩
  · obtain ⟨hw, ht, hl⟩ := afree_bankAllocation s b n hx
    exact ⟨hw, ht, hl, aquery_bankAllocation s a hx⟩
  · obtain ⟨hs, hn⟩ := spill_bankAllocation s vec a hx
    obtain ⟨hf, he, hm⟩ := fill_bankAllocation s vec a hx
    exact ⟨by cases vec <;> simp [parkIndex]; omega, hs, hn, hf, he, hm⟩

end Sys2Proof.Proofs

namespace Sys2Proof.Proofs
open Machine

/-! # The memories of a state, and what S mode alone may write

Two views of a state: `mems` holds every memory of it (O5), `guard` every register that S mode alone may write (O6). What each function
of the model makes of both is said once, as a rewriting rule for simp, by one of four relations:

* `Frame`: guard and memories are as they were;
* `Calm`: the guard is as it was, and canonical memories stay canonical;
* `Quiet`: the memories are as they were (a function that no instruction calls, or one that changes the guard);
* `Keeps`: canonical memories stay canonical. -/

/-- Every memory that a state holds. -/
structure Mems where
  mem : Memory
  acc : Memory
  shMem : Memory
  shAcc : Memory
  paged : List Paged
  others : List Part
  gmem : Memory
  area : Option SmallState
  saved : Option Saved

/-- What S mode alone may write of a context, and its mode. -/
@[ext] structure CtxGuard where
  tvec : Word
  scratch : Word
  lcore : Word
  ncore : Word
  part : Word
  stragg : Word
  launch : Word
  mcheck : Word
  loopS : LoopState
  svc : Bool

/-- What S mode alone may write (R18, R37), in both contexts of the core: a swap inside an engine's step goes through both. -/
@[ext] structure Guard where
  c : CtxGuard
  sh : CtxGuard
  slew : BitVec 6
  thot : Byte
  tmig : Byte
  lbudget : BitVec 14
  lmargin : Byte
  age : BitVec 24
  num : Word
  snapctl : Word

def mems (s : State) : Mems :=
  ⟨s.c.mem, s.c.acc, s.sh.mem, s.sh.acc, s.p.paged, s.others, s.chip.gmem, s.chip.area, s.chip.saved⟩

def ctxGuard (c : Ctx) : CtxGuard :=
  ⟨c.tvec, c.scratch, c.lcore, c.ncore, c.part, c.stragg, c.launch, c.mcheck, c.loopS, c.status.getLsbD 0⟩

def guard (s : State) : Guard :=
  ⟨ctxGuard s.c, ctxGuard s.sh, s.t.slew, s.t.thot, s.t.tmig, s.p.lbudget, s.p.lmargin, s.p.age, s.chip.num, s.chip.snapctl⟩

/-- Every memory is in canonical form. -/
structure Mems.Ok (m : Mems) : Prop where
  mem : m.mem.wf = true
  acc : m.acc.wf = true
  shMem : m.shMem.wf = true
  shAcc : m.shAcc.wf = true
  paged : ∀ g ∈ m.paged, g.ctx.Canonical
  others : ∀ p ∈ m.others, p.Canonical
  gmem : m.gmem.wf = true
  area : ∀ v, m.area = some v → v.Canonical
  saved : ∀ v, m.saved = some v → v.small.Canonical ∧ v.gmem.wf = true

theorem inv_iff (s : State) : s.Inv ↔ (mems s).Ok :=
  ⟨fun h => ⟨h.core.mem, h.core.acc, h.shadow.mem, h.shadow.acc, h.paged, h.others, h.global, h.area, h.saved⟩,
   fun h => ⟨⟨h.mem, h.acc⟩, ⟨h.shMem, h.shAcc⟩, h.paged, h.others, h.gmem, h.area, h.saved⟩⟩

/-- The same as `Mems.Ok`, under a name that simp does not rewrite. -/
def Mems.Also (m : Mems) : Prop := m.Ok

/-- Where canonical memories stay canonical, said as an equivalence: simp follows it through any number of updates. -/
theorem ok_iff {a b : Mems} (h : a.Ok → b.Ok) : b.Ok ↔ a.Ok ∨ b.Also := ⟨.inr, fun x => x.elim h id⟩

@[simp] theorem Mems.ok_or_also (m : Mems) : m.Ok ∨ m.Also ↔ m.Ok := (ok_iff id).symm

section
variable (m1 m2 m3 m4 : Memory) (p : List Paged) (o : List Part) (g : Memory) (v : Option SmallState) (w : Option Saved)
  (off : Nat) (bs : List Byte)
@[simp] theorem ok_write_mem : (⟨m1.writeBytes off bs, m2, m3, m4, p, o, g, v, w⟩ : Mems).Ok ↔
    (⟨m1, m2, m3, m4, p, o, g, v, w⟩ : Mems).Ok ∨ (⟨m1.writeBytes off bs, m2, m3, m4, p, o, g, v, w⟩ : Mems).Also :=
  ok_iff fun h => { h with mem := Memory.writeBytes_wf _ _ _ h.mem }
@[simp] theorem ok_write_acc : (⟨m1, m2.writeBytes off bs, m3, m4, p, o, g, v, w⟩ : Mems).Ok ↔
    (⟨m1, m2, m3, m4, p, o, g, v, w⟩ : Mems).Ok ∨ (⟨m1, m2.writeBytes off bs, m3, m4, p, o, g, v, w⟩ : Mems).Also :=
  ok_iff fun h => { h with acc := Memory.writeBytes_wf _ _ _ h.acc }
@[simp] theorem ok_write_gmem : (⟨m1, m2, m3, m4, p, o, g.writeBytes off bs, v, w⟩ : Mems).Ok ↔
    (⟨m1, m2, m3, m4, p, o, g, v, w⟩ : Mems).Ok ∨ (⟨m1, m2, m3, m4, p, o, g.writeBytes off bs, v, w⟩ : Mems).Also :=
  ok_iff fun h => { h with gmem := Memory.writeBytes_wf _ _ _ h.gmem }
end

section
variable (s : State) (c sh : Ctx) (half : Bool) (t : Tile) (p : Part) (others : List Part) (chip : Chip) (boundary : Bool)
  (xc cc : Nat) (ir : Fetched) (row : List RowCore) (stream : List (Word × List Half)) (input : Input)
  (agenda : List (Option Event)) (out : List Out) (turn : Bool) (tick : Nat)
@[simp] theorem mems_mk : mems ⟨c, sh, half, t, p, others, chip, boundary, xc, cc, ir, row, stream, input, agenda, out, turn, tick⟩ =
    ⟨c.mem, c.acc, sh.mem, sh.acc, p.paged, others, chip.gmem, chip.area, chip.saved⟩ := (rfl)
@[simp] theorem guard_mk :
    guard ⟨c, sh, half, t, p, others, chip, boundary, xc, cc, ir, row, stream, input, agenda, out, turn, tick⟩ =
    ⟨ctxGuard c, ctxGuard sh, t.slew, t.thot, t.tmig, p.lbudget, p.lmargin, p.age, chip.num, chip.snapctl⟩ := (rfl)
@[simp] theorem mems_fold : (⟨s.c.mem, s.c.acc, s.sh.mem, s.sh.acc, s.p.paged, s.others, s.chip.gmem, s.chip.area, s.chip.saved⟩ : Mems) =
    mems s := (rfl)
@[simp] theorem guard_fold : (⟨ctxGuard s.c, ctxGuard s.sh, s.t.slew, s.t.thot, s.t.tmig, s.p.lbudget, s.p.lmargin, s.p.age,
    s.chip.num, s.chip.snapctl⟩ : Guard) = guard s := (rfl)
end

section
variable (c : Ctx) (run : RunState) (lid : Nat) (s : Vector Word 32) (v : Vector VWord 32) (k : Vector DWord 8) (h : Vector Handle 16)
  (pc : Word) (status : Word) (tvec : Word) (epc : Word) (cause : Word) (eaddr : Word) (eword : Word) (scratch : Word)
  (lcore : Word) (ncore : Word) (part : Word) (phase : Word) (lphase : Word) (stragg : Word) (xerr : Word) (xmiss :
  Word) (cyc : DWord) (cycLatch : Option Word) (fmode : Word) (sbase : Word) (launch : Word) (mcheck : Word) (accmap :
  Word) (spillmap : Word) (vpcfg : Word) (vpst : Word) (ecfg : Word) (loopU : LoopState) (loopS : LoopState) (mem :
  Memory) (memErr : List Nat) (stale : List (Nat × List Byte)) (acc : Memory) (accErr : List Nat) (parked : Vector
  Parked 64) (bar : Vector Barrier 512) (cycleBar : List (BarName × Barrier)) (mbox : Vector DWord 32) (mboxHead :
  BitVec 5) (mboxCount : BitVec 6) (held : List DWord) (mon : Vector Monitor 8) (mx : List MxOp) (mxStatus : Word) (head
  : List HeadOp) (headStatus : Byte) (dir : List DirEntry) (copy : List CopyCmd) (cfence : Bool) (e0 : BitVec 48) (e1 :
  BitVec 48) (e2 : BitVec 48) (copyDone : Half) (arr : BitVec 16) (done : BitVec 16) (redNum : List (Nat × Nat))
  (deferred : Option Deferred) (fetchStop : Bool) (exch : Option Exch) (pend : Pend) (stall : Bool) (issue : Option
  (Instr × Fetched)) (evSeq : Word) (asid : Byte)
@[simp] theorem ctxGuard_mk : ctxGuard ⟨run, lid, s, v, k, h, pc, status, tvec, epc, cause, eaddr, eword, scratch, lcore, ncore, part, phase, lphase,
    stragg, xerr, xmiss, cyc, cycLatch, fmode, sbase, launch, mcheck, accmap, spillmap, vpcfg, vpst, ecfg, loopU,
    loopS, mem, memErr, stale, acc, accErr, parked, bar, cycleBar, mbox, mboxHead, mboxCount, held, mon, mx,
    mxStatus, head, headStatus, dir, copy, cfence, e0, e1, e2, copyDone, arr, done, redNum, deferred, fetchStop,
    exch, pend, stall, issue, evSeq, asid⟩ =
    ⟨tvec, scratch, lcore, ncore, part, stragg, launch, mcheck, loopS, status[0]⟩ := (rfl)
@[simp] theorem ctxGuard_fold : (⟨c.tvec, c.scratch, c.lcore, c.ncore, c.part, c.stragg, c.launch, c.mcheck, c.loopS,
    c.status[0]⟩ : CtxGuard) = ctxGuard c := (rfl)
end

/-- A part of an instruction or of an event that leaves every memory, and what S mode alone may write. -/
@[simp] abbrev Frame (s t : State) : Prop := guard t = guard s ∧ mems t = mems s

/-- One that writes memory, and keeps it in canonical form. -/
@[simp] abbrev Calm (s t : State) : Prop := guard t = guard s ∧ ((mems t).Ok ↔ (mems s).Ok ∨ (mems t).Also)

/-- One that leaves every memory. -/
@[simp] abbrev Quiet (s t : State) : Prop := mems t = mems s

/-- One that keeps every memory in canonical form. -/
@[simp] abbrev Keeps (s t : State) : Prop := (mems t).Ok ↔ (mems s).Ok ∨ (mems t).Also

theorem calm_of {s t : State} (g : guard t = guard s) (h : (mems s).Ok → (mems t).Ok) : Calm s t := ⟨g, ok_iff h⟩
theorem keeps_of {s t : State} (h : (mems s).Ok → (mems t).Ok) : Keeps s t := ok_iff h

/-! Branches and folds. -/

section
variable (c : Prop) [Decidable c]
@[simp] theorem guard_ite (s t : State) : guard (if c then s else t) = if c then guard s else guard t := apply_ite ..
@[simp] theorem mems_ite (s t : State) : mems (if c then s else t) = if c then mems s else mems t := apply_ite ..
@[simp] theorem ok_ite (a b : Mems) : (if c then a else b).Ok ↔ if c then a.Ok else b.Ok := by split <;> rfl
end

section
variable {α : Type} {f : State → α → State}
@[simp] theorem guard_foldl (h : ∀ t x, guard (f t x) = guard t) (xs : List α) (s : State) : guard (xs.foldl f s) = guard s := by
  induction xs generalizing s with
  | nil => rfl
  | cons x xs ih => rw [List.foldl_cons, ih, h]
@[simp] theorem mems_foldl (h : ∀ t x, mems (f t x) = mems t) (xs : List α) (s : State) : mems (xs.foldl f s) = mems s := by
  induction xs generalizing s with
  | nil => rfl
  | cons x xs ih => rw [List.foldl_cons, ih, h]
@[simp] theorem keeps_foldl (h : ∀ t x, Keeps t (f t x)) (xs : List α) (s : State) : Keeps s (xs.foldl f s) := by
  refine keeps_of fun ok => ?_
  induction xs generalizing s with
  | nil => exact ok
  | cons x xs ih => exact ih _ ((h s x).mpr (.inl ok))

/-- A fold over a body whose branches have to be gone through one by one. -/
theorem frame_foldl {s u : State} (h : ∀ t x, Frame t (f t x)) (hu : Frame s u) (xs : List α) : Frame s (xs.foldl f u) :=
  ⟨(guard_foldl (fun t x => (h t x).1) xs u).trans hu.1, (mems_foldl (fun t x => (h t x).2) xs u).trans hu.2⟩
theorem keeps_foldl' {s u : State} (h : ∀ t x, Keeps t (f t x)) (hu : Keeps s u) (xs : List α) : Keeps s (xs.foldl f u) :=
  keeps_of fun ok => (keeps_foldl h xs u).mpr (.inl (hu.mpr (.inl ok)))
theorem calm_foldl {s u : State} (h : ∀ t x, Calm t (f t x)) (hu : Calm s u) (xs : List α) : Calm s (xs.foldl f u) :=
  ⟨(guard_foldl (fun t x => (h t x).1) xs u).trans hu.1, keeps_foldl' (fun t x => (h t x).2) hu.2 xs⟩
end

/-- A fold that carries something beside the state. -/
theorem ok_foldl_fst {α β : Type} {f : State × β → α → State × β} (h : ∀ m x, (mems m.1).Ok → (mems (f m x).1).Ok) (xs : List α)
    (m : State × β) (ok : (mems m.1).Ok) : (mems (xs.foldl f m).1).Ok := by
  induction xs generalizing m with
  | nil => exact ok
  | cons x xs ih => exact ih _ (h m x ok)

theorem Keeps.ok {s t : State} (h : Keeps s t) (ok : (mems s).Ok) : (mems t).Ok := h.mpr (.inl ok)

theorem Calm.ok {s t : State} (h : Calm s t) (ok : (mems s).Ok) : (mems t).Ok := h.2.mpr (.inl ok)

theorem Frame.calm {s t : State} (h : Frame s t) : Calm s t := calm_of h.1 fun ok => h.2 ▸ ok


end Sys2Proof.Proofs

namespace Sys2Proof.Proofs
open Machine

/-! # What each function of the model keeps

One rule for each function that makes a state, in the order of the model's files; most hold by the rules of the functions it calls. -/

/-! Machine/Ops.lean. -/

@[simp] theorem setReg_frame (s : State) (r : Reg) (x : Word) : Frame s (s.setReg r x) := by simp [State.setReg]
@[simp] theorem setV_frame (s : State) (r : Reg) (x : VWord) : Frame s (s.setV r x) := by simp [State.setV]
@[simp] theorem setK_frame (s : State) (r : KReg) (x : DWord) : Frame s (s.setK r x) := by simp [State.setK]
@[simp] theorem setHandle_frame (s : State) (h : HReg) (x : Handle) : Frame s (s.setHandle h x) := by simp [State.setHandle]
@[simp] theorem setBarrier_frame (s : State) (n : BarName) (b : Barrier) : Frame s (s.setBarrier n b) := by simp [State.setBarrier]
@[simp] theorem setPc_frame (s : State) (a : Word) : Frame s (s.setPc a) := by simp [State.setPc]

@[simp] theorem setLoop_quiet (s : State) (l : LoopState) : Quiet s (s.setLoop l) := by
  unfold State.setLoop; split <;> simp
/-- In U mode a loop is the loop of U mode. -/
@[simp] theorem guard_setLoop (s : State) (l : LoopState) (h : s.svc = false) : guard (s.setLoop l) = guard s := by
  simp [State.setLoop, h]

@[simp] theorem adv_quiet (s : State) : Quiet s s.adv := by
  obtain ⟨-, -, h⟩ | ⟨-, -, h⟩ | ⟨-, h⟩ := s.adv_cases <;> simp [h]
@[simp] theorem guard_adv (s : State) (h : s.svc = false) : guard s.adv = guard s := by
  have svc : ∀ r x, (s.setReg r x).svc = false := fun r x => by simpa [State.svc] using h
  obtain ⟨-, -, e⟩ | ⟨-, -, e⟩ | ⟨-, e⟩ := s.adv_cases <;> simp [e, svc]

@[simp] theorem jumpTo_quiet (s : State) (a : Word) : Quiet s (s.jumpTo a) := by
  unfold State.jumpTo; split <;> simp
@[simp] theorem guard_jumpTo (s : State) (a : Word) (h : s.svc = false) : guard (s.jumpTo a) = guard s := by
  unfold State.jumpTo; split <;> simp [h]

@[simp] theorem put_frame (s : State) (o : Out) : Frame s (s.put o) := by simp [State.put]
@[simp] theorem advance_quiet (s : State) (n : Nat) : Quiet s (s.advance n) := by simp [State.advance]
@[simp] theorem advanceTo_frame (s : State) (x : Nat) : Frame s (s.advanceTo x) := by simp [State.advanceTo]
@[simp] theorem tellTile0_quiet (s : State) (m : InboxMsg) (o : Out) : Quiet s (s.tellTile0 m o) := by simp [State.tellTile0]

@[simp] theorem logRecord_frame (s : State) (src kind : Nat) (d0 d1 d2 d3 : Word) : Frame s (s.logRecord src kind d0 d1 d2 d3) := by
  simp [State.logRecord]

@[simp] theorem logError_frame (s : State) (src mem addr : Nat) (tag : Word) : Frame s (s.logError src mem addr tag) := by
  simp [State.logError]

@[simp] theorem logWords_frame (s : State) (mem off n : Nat) (tag : Word) : Frame s (s.logWords mem off n tag) := by
  simp [State.logWords]

@[simp] theorem enter_quiet (s : State) (cause epc eaddr eword : Word) : Quiet s (s.enter cause epc eaddr eword) := by
  unfold State.enter; split <;> simp

@[simp] theorem deferTrap_frame (s : State) (t : Trap) (off : Nat) (d : Deferred) : Frame s (s.deferTrap t off d) := by
  simp [State.deferTrap]

@[simp] theorem trapWaiting_quiet (s : State) (t : Trap) : Quiet s (s.trapWaiting t) := by simp [State.trapWaiting]

@[simp] theorem takeDeferred_quiet (s : State) : Quiet s s.takeDeferred := by
  unfold State.takeDeferred
  split <;> simp

@[simp] theorem eret_quiet (s : State) : Quiet s s.eret := by simp [State.eret]
@[simp] theorem fire_frame (s : State) (off len : Nat) : Frame s (s.fire off len) := by simp [State.fire]

@[simp] theorem engineBarriers_frame (s : State) (f : BarName → Barrier → Option Barrier) : Frame s (s.engineBarriers f) := by
  simp [State.engineBarriers]

@[simp] theorem engineArrive_frame (s : State) (src : BitVec 2) (bits : Word) : Frame s (s.engineArrive src bits) := by
  simp [State.engineArrive]

@[simp] theorem creditBarrier_quiet (s : State) (n : BarName) (bytes st : Nat) : Quiet s (s.creditBarrier n bytes st) := by
  simp [State.creditBarrier]

@[simp] theorem enqueue_frame (s : State) (m : DWord) : Frame s (s.enqueue m) := by simp [State.enqueue]
@[simp] theorem post_frame (s : State) (m : DWord) : Frame s (s.post m) := by simp [State.post]

@[simp] theorem storeMem_calm (s : State) (off : Nat) (bs : List Byte) : Calm s (s.storeMem off bs) :=
  calm_of (by simp [State.storeMem]) (by simp +contextual [State.storeMem])

@[simp] theorem engineMem_calm (s : State) (off : Nat) (bs : List Byte) : Calm s (s.engineMem off bs) :=
  calm_of (by simp [State.engineMem]) (by simp +contextual [State.engineMem])

@[simp] theorem storeAcc_calm (s : State) (off : Nat) (bs : List Byte) : Calm s (s.storeAcc off bs) :=
  calm_of (by simp [State.storeAcc]) (by simp +contextual [State.storeAcc])

@[simp] theorem discardFetch_frame (s : State) : Frame s s.discardFetch := by simp [State.discardFetch]

section
variable (s : State) (f : State → State)
@[simp] theorem guard_onShadow (h : ∀ u, guard (f u) = guard u) : guard (s.onShadow f) = guard s := by
  have e := h { s with c := s.sh, sh := s.c, half := !s.half }
  simp only [guard, Guard.mk.injEq] at e ⊢
  obtain ⟨hc, hs, rest⟩ := e
  exact ⟨hs, hc, rest⟩
@[simp] theorem mems_onShadow (h : ∀ u, mems (f u) = mems u) : mems (s.onShadow f) = mems s := by
  have e := h { s with c := s.sh, sh := s.c, half := !s.half }
  simp only [mems, Mems.mk.injEq] at e ⊢
  obtain ⟨h1, h2, h3, h4, rest⟩ := e
  exact ⟨h3, h4, h1, h2, rest⟩
@[simp] theorem keeps_onShadow (h : ∀ u, Keeps u (f u)) : Keeps s (s.onShadow f) := by
  refine keeps_of fun ok => ?_
  have t := (h { s with c := s.sh, sh := s.c, half := !s.half }).mpr
    (.inl ⟨ok.shMem, ok.shAcc, ok.mem, ok.acc, ok.paged, ok.others, ok.gmem, ok.area, ok.saved⟩)
  exact ⟨t.shMem, t.shAcc, t.mem, t.acc, t.paged, t.others, t.gmem, t.area, t.saved⟩
end

section
variable (s : State) (lid : Nat) (f : State → State)
@[simp] theorem guard_onPaged (h : ∀ u, guard (f u) = guard u) : guard (s.onPaged lid f) = guard s := by
  unfold State.onPaged
  split
  · rfl
  · next g _ =>
    have e := h { s with c := g.ctx }
    simp only [guard, Guard.mk.injEq, true_and] at e ⊢
    exact e.2
@[simp] theorem keeps_onPaged (h : ∀ u, Keeps u (f u)) : Keeps s (s.onPaged lid f) := by
  refine keeps_of fun ok => ?_
  unfold State.onPaged
  split
  · exact ok
  · next g hg =>
    have hc : g.ctx.Canonical := ok.paged g (List.mem_of_find?_eq_some hg)
    have t := (h { s with c := g.ctx }).mpr
      (.inl ⟨hc.mem, hc.acc, ok.shMem, ok.shAcc, ok.paged, ok.others, ok.gmem, ok.area, ok.saved⟩)
    refine ⟨ok.mem, ok.acc, t.shMem, t.shAcc, fun x hx => ?_, t.others, t.gmem, t.area, t.saved⟩
    obtain ⟨y, hy, rfl⟩ := List.mem_map.mp hx
    split
    · exact ⟨t.mem, t.acc⟩
    · exact t.paged y hy
end

section
variable (s : State) (lid : Nat) (f : State → State)
@[simp] theorem guard_onContext (h : ∀ u, guard (f u) = guard u) : guard (s.onContext lid f) = guard s := by
  simp [State.onContext, h]
@[simp] theorem keeps_onContext (h : ∀ u, Keeps u (f u)) : Keeps s (s.onContext lid f) := by
  unfold State.onContext
  split
  · exact h s
  · split
    · exact keeps_onShadow s f h
    · exact keeps_onPaged s lid f h
end

section
variable (s : State) (half : Bool) (f : State → State)
@[simp] theorem guard_onHalf (h : ∀ u, guard (f u) = guard u) : guard (s.onHalf half f) = guard s := by
  simp [State.onHalf, h]
@[simp] theorem mems_onHalf (h : ∀ u, mems (f u) = mems u) : mems (s.onHalf half f) = mems s := by
  simp [State.onHalf, h]
@[simp] theorem keeps_onHalf (h : ∀ u, Keeps u (f u)) : Keeps s (s.onHalf half f) := by
  unfold State.onHalf
  split
  · exact h s
  · exact keeps_onShadow s f h
end

@[simp] theorem setItem_frame (s : State) (w : WinItem) (bs : List Byte) : Frame s (s.setItem w bs) := by
  unfold State.setItem
  split <;> simp

@[simp] theorem winPut_frame (s : State) (view off : Nat) (b : Byte) : Frame s (s.winPut view off b) := by
  unfold State.winPut
  split <;> simp

@[simp] theorem winStore_frame (s : State) (view off : Nat) (bs : List Byte) : Frame s (s.winStore view off bs) := by
  induction bs generalizing s off with
  | nil => simp [State.winStore]
  | cons b bs ih => simpa [State.winStore] using ih (s.winPut view off b) (off + 1)

@[simp] theorem storeBytes_calm (s : State) (ea : Word) (bs : List Byte) : Calm s (s.storeBytes ea bs) :=
  calm_of (by simp [State.storeBytes]) (by simp +contextual [State.storeBytes])

@[simp] theorem gwrite_calm (s : State) (pa : Nat) (bs : List Byte) (key : Nat) : Calm s (s.gwrite pa bs key) :=
  calm_of (by simp [State.gwrite]) (by simp +contextual [State.gwrite])

@[simp] theorem gLog_frame (s : State) (pa : Nat) (tag : Word) : Frame s (s.gLog pa tag) := by simp [State.gLog]
@[simp] theorem gCorrect_frame (s : State) (beat : Nat) (tag : Word) : Frame s (s.gCorrect beat tag) := by simp [State.gCorrect]

/-! Machine/Operands.lean. -/

@[simp] theorem addFlags_frame (s : State) (f : Flags) : Frame s (s.addFlags f) := by simp [State.addFlags]

@[simp] theorem lanewise_frame (s : State) (t : ElemType) (d : Reg) (m : VMod) (f : Nat → Nat × Flags) :
    Frame s (s.lanewise t d m f) := by
  simp [State.lanewise]

@[simp] theorem lane1_frame (s : State) (t : ElemType) (d a : Reg) (m : VMod) (f : Nat → Nat × Flags) :
    Frame s (s.lane1 t d a m f) := by
  simp [State.lane1]

@[simp] theorem lane2_frame (s : State) (t : ElemType) (d a b : Reg) (m : VMod) (f : Nat → Nat → Nat × Flags) :
    Frame s (s.lane2 t d a b m f) := by
  simp [State.lane2]

@[simp] theorem lane3_frame (s : State) (t : ElemType) (d a b c : Reg) (m : VMod) (f : Nat → Nat → Nat → Nat × Flags) :
    Frame s (s.lane3 t d a b c m f) := by
  simp [State.lane3]

@[simp] theorem compareLanes_frame (s : State) (t : ElemType) (d : KReg) (a b : Reg) (m : VMod) (f : Nat → Nat → Bool) :
    Frame s (s.compareLanes t d a b m f) := by
  simp [State.compareLanes]

@[simp] theorem reduceLanes_frame (s : State) (t : ElemType) (d a : Reg) (m : VMod) (identity : Nat) (op : Nat → Nat → Nat × Flags) :
    Frame s (s.reduceLanes t d a m identity op) := by
  simp [State.reduceLanes]

@[simp] theorem advTail_frame (s : State) (h : HReg) (n : Nat) : Frame s (s.advTail h n) := by simp [State.advTail]
@[simp] theorem advHead_frame (s : State) (h : HReg) (n : Nat) : Frame s (s.advHead h n) := by simp [State.advHead]

@[simp] theorem setTile_keeps (s : State) (t : AccType) (b : Reg) (xs : List Nat) : Keeps s (s.setTile t b xs) :=
  keeps_of fun ok => by simp [State.setTile, ok]

/-! Machine/Banks.lean. -/

@[simp] theorem setParked_frame (s : State) (ps : Vector Parked 64) : Frame s (s.setParked ps) := by simp [State.setParked]

@[simp] theorem grantBanks_calm (s : State) (b n : Nat) : Calm s (s.grantBanks b n) :=
  calm_of (by simp [State.grantBanks]) (by simp +contextual [State.grantBanks])

@[simp] theorem dropStates_frame (s : State) (b n : Nat) : Frame s (s.dropStates b n) := by simp [State.dropStates]

/-! Machine/System.lean. -/

@[simp] theorem halted_frame (s : State) : Frame s s.halted := by simp [State.halted]
@[simp] theorem trigger_frame (s : State) : Frame s s.trigger := by simp [State.trigger]

/-! Machine/Fabric.lean. -/

@[simp] theorem fabMessage_calm (s : State) (o : FabOp) (status data : Nat) : Calm s (s.fabMessage o status data) := by
  unfold State.fabMessage
  split <;> exact calm_of (by simp) (by simp +contextual)

@[simp] theorem setPort_frame (s : State) (p : Fin 32) (x : Port) : Frame s (s.setPort p x) := by simp [State.setPort]
@[simp] theorem pump_frame (s : State) (p : Fin 32) : Frame s (s.pump p) := by simp [State.pump]
@[simp] theorem transmit_frame (s : State) (p : Fin 32) (l : Line) : Frame s (s.transmit p l) := by simp [State.transmit]
@[simp] theorem control_frame (s : State) (p : Fin 32) (o : Out) : Frame s (s.control p o) := by simp [State.control]
@[simp] theorem setWindow_frame (s : State) (w : Window) : Frame s (s.setWindow w) := by simp [State.setWindow]
@[simp] theorem dropWindow_frame (s : State) (n : Nat) : Frame s (s.dropWindow n) := by simp [State.dropWindow]

@[simp] theorem readUnits_frame (s : State) (off len : Nat) (tag : Word) : Frame s (s.readUnits off len tag).1 := by
  simp [State.readUnits]

@[simp] theorem putUnits_calm (off : Nat) (data : List Byte) (bad : List Nat) (s : State) :
    Calm s (State.putUnits off data bad s) :=
  calm_of (by simp [State.putUnits]) (by simp +contextual [State.putUnits])

@[simp] theorem sendUnits_frame (p off : Nat) (data : List Byte) (bad : List Nat) (s : State) :
    Frame s (State.sendUnits p off data bad s) := by
  simp [State.sendUnits]

@[simp] theorem gMeet_frame (tag : Word) (s : State) (b : Nat) : Frame s (State.gMeet tag s b) := by simp [State.gMeet]

/-- An uncorrectable error leaves its record in the log alone. -/
theorem logRecord_log (s : State) (src kind : Nat) (a b c d : Word) :
    ∃ l, s.logRecord src kind a b c d = { s with chip := { s.chip with log := l } } := by
  simp only [State.logRecord]
  split <;> exact ⟨_, rfl⟩
theorem logWords_log (s : State) (mem off n : Nat) (tag : Word) :
    ∃ l, s.logWords mem off n tag = { s with chip := { s.chip with log := l } } := by
  unfold State.logWords
  generalize State.badWords _ off n = ws
  have fold : ∀ u : State, ∃ l, ws.foldl (fun t w => t.logError (0x1000 + s.t.num) mem (8 * w) tag) u =
      { u with chip := { u.chip with log := l } } := by
    induction ws with
    | nil => exact fun u => ⟨u.chip.log, rfl⟩
    | cons w ws ih =>
      intro u
      obtain ⟨l, hl⟩ := logRecord_log u (0x1000 + s.t.num) 3 (BitVec.ofNat 32 (16 * mem + 1)) (BitVec.ofNat 32 (8 * w)) tag
        (BitVec.ofNat 32 (8 * w / 2 ^ 32))
      obtain ⟨l', hl'⟩ := ih { u with chip := { u.chip with log := l } }
      exact ⟨l', by rw [List.foldl_cons, State.logError, hl, hl']⟩
  exact fold s
@[simp] theorem windowRead_frame (s : State) (w : Window) (off len : Nat) (tag : Word) :
    Frame s (s.windowRead w off len tag).1 := by
  simp only [State.windowRead]
  split
  · split
    · simp
    · obtain ⟨l, hl⟩ := logWords_log { s with c := s.ctxOf w.half } 0 (w.base + off) (16 * (len / 16)) tag
      simp [State.readUnits, hl]
  · simp

@[simp] theorem dropOp_frame (s : State) (id : Nat) : Frame s (s.dropOp id) := by simp [State.dropOp]
@[simp] theorem setOp_frame (s : State) (o : FabOp) : Frame s (s.setOp o) := by simp [State.setOp]

@[simp] theorem countOrigin_frame (s : State) (n : Nat) : Frame s (s.countOrigin n) := by
  unfold State.countOrigin
  split <;> simp

@[simp] theorem giveBack_frame (s : State) (o : FabOp) (status : Nat) : Frame s (s.giveBack o status) := by
  unfold State.giveBack
  split <;> simp

@[simp] theorem answerCopy_calm (s : State) (lid id : Nat) (r : Nat × List Byte × List Nat) : Calm s (s.answerCopy lid id r) :=
  calm_of (by simp [State.answerCopy]) (by simp +contextual [State.answerCopy])

@[simp] theorem endAccess_frame (s : State) (id : Nat) : Frame s (s.endAccess id) := by simp [State.endAccess]

@[simp] theorem collMessage_calm (s : State) (k : Coll) (m : DWord) : Calm s (s.collMessage k m) := by
  unfold State.collMessage
  split <;> exact calm_of (by simp) (by simp +contextual)

@[simp] theorem collFinish_calm (s : State) (id status : Nat) : Calm s (s.collFinish id status) := by
  unfold State.collFinish
  split <;> exact calm_of (by simp) (by simp +contextual)

@[simp] theorem finishOp_calm (s : State) (o : FabOp) (status moved : Nat) (data : List Byte) (bad : List Nat) :
    Calm s (s.finishOp o status moved data bad) := by
  unfold State.finishOp
  dsimp only
  split <;> exact calm_of (by simp) (by simp +contextual)

@[simp] theorem getAt_frame (s : State) (win off len : Nat) (tag : Word) : Frame s (s.getAt win off len tag).1 := by
  simp only [State.getAt]
  repeat' split
  all_goals simp

@[simp] theorem finishGet_calm (s : State) (o : FabOp) (status : Nat) (data : List Byte) (bad : List Nat) :
    Calm s (s.finishGet o status data bad) := by
  simp only [State.finishGet]
  split
  · split <;> exact calm_of (by simp) (by simp +contextual)
  · simp

/-! Puts and gets at their target (R330 to R333). -/

@[simp] theorem gputBeat_calm (pa key : Nat) (data : List Byte) (bad : List Nat) (tag : Word) (m : State.Moved) (b : Nat) :
    Calm m.s (State.gputBeat pa key data bad tag m b).s := by
  simp only [State.gputBeat]
  split
  · split <;> exact calm_of (by simp) (by simp +contextual)
  · exact calm_of (by simp) (by simp +contextual)
@[simp] theorem gput_calm (s : State) (pa key : Nat) (data : List Byte) (bad : List Nat) (tag : Word) :
    Calm s (s.gput pa key data bad tag).s := by
  unfold State.gput
  generalize State.beatsOf pa data.length = bs
  have fold : ∀ m : State.Moved, Calm m.s (bs.foldl (State.gputBeat pa key data bad tag) m).s := by
    induction bs with
    | nil => exact fun m => by simp
    | cons b bs ih =>
      intro m
      obtain ⟨g, k⟩ := ih (State.gputBeat pa key data bad tag m b)
      exact calm_of (by simp [g]) fun ok => k.mpr (.inl (by simp [ok]))
  exact fold _
@[simp] theorem windowWrite_calm (s : State) (w : Window) (off : Nat) (data : List Byte) (bad : List Nat) (tag : Word) :
    Calm s (s.windowWrite w off data bad tag).s := by
  simp only [State.windowWrite]
  split
  · split <;> exact calm_of (by simp) (by simp +contextual)
  · simp
@[simp] theorem counted_frame (m : State.Moved) (w : Window) (tail : Nat) : Frame m.s (State.counted m w tail).s := by
  simp [State.counted]
@[simp] theorem ringPut_calm (s : State) (w : Window) (data : List Byte) (bad : List Nat) (tag : Word) :
    Calm s (s.ringPut w data bad tag).s := by
  simp only [State.ringPut]
  split
  · simp
  · split
    · simp
    · exact calm_of (by simp) (by simp +contextual)
@[simp] theorem putAt_calm (s : State) (origin win off : Nat) (data : List Byte) (bad : List Nat) (allow : Option Allowance)
    (ap : Bool) (tag : Word) : Calm s (s.putAt origin win off data bad allow ap tag).s := by
  simp only [State.putAt]
  repeat' split
  all_goals exact calm_of (by simp) (by simp +contextual)
@[simp] theorem awaitAllow_calm (s : State) (o : FabOp) : Calm s (s.awaitAllow o) := by
  unfold State.awaitAllow
  split <;> simp

@[simp] theorem serveHere_calm (s : State) (o : FabOp) : Calm s (s.serveHere o) := by
  simp only [State.serveHere]
  repeat' split
  all_goals exact calm_of (by simp) (by simp +contextual)

@[simp] theorem takeAllow_frame (s : State) (o : FabOp) : Frame s (s.takeAllow o).1 := by
  unfold State.takeAllow
  dsimp only
  split <;> simp

@[simp] theorem sendPackets_frame (s : State) (p : Fin 32) (ks : List Packet) : Frame s (s.sendPackets p ks) := by
  simp [State.sendPackets]

@[simp] theorem startOp_calm (s : State) (o : FabOp) : Calm s (s.startOp o) := by
  unfold State.startOp
  split <;> exact calm_of (by simp) (by simp +contextual)

@[simp] theorem newOp_calm (s : State) (o : FabOp) : Calm s (s.newOp o) :=
  calm_of (by simp [State.newOp]) (by simp +contextual [State.newOp])

@[simp] theorem matchAllows_calm (s : State) : Calm s s.matchAllows := by
  unfold State.matchAllows
  refine calm_foldl (fun t o => ?_) (by simp) _
  split <;> simp

@[simp] theorem answerOwed_frame (s : State) : Frame s s.answerOwed := by simp [State.answerOwed]
@[simp] theorem refreshPorts_frame (s : State) : Frame s s.refreshPorts := by simp [State.refreshPorts]
@[simp] theorem settle_calm (s : State) : Calm s s.settle := calm_of (by simp [State.settle]) (by simp +contextual [State.settle])
@[simp] theorem register_frame (s : State) (r : Window × Nat) : Frame s (s.register r) := by simp [State.register]
@[simp] theorem registerByOther_quiet (s : State) : Quiet s s.registerByOther := by simp [State.registerByOther]

@[simp] theorem sendNotices_frame (s : State) (n : Nat) : Frame s (s.sendNotices n) := by
  unfold State.sendNotices
  split
  · simp
  · refine frame_foldl (fun t j => ?_) (by simp) _
    dsimp only
    split <;> simp

@[simp] theorem resendNotices_frame (s : State) : Frame s s.resendNotices := by simp [State.resendNotices]

@[simp] theorem beginDereg_calm (s : State) (w : Window) : Calm s (s.beginDereg w) :=
  calm_of (by simp [State.beginDereg]) (by simp +contextual [State.beginDereg])

@[simp] theorem deregByOther_keeps (s : State) : Keeps s s.deregByOther := by
  refine keeps_of fun ok => ?_
  unfold State.deregByOther
  split <;> simp [ok]

@[simp] theorem allowPut_calm (s : State) (o : FabOp) : Calm s (s.allowPut o) :=
  calm_of (by simp [State.allowPut]) (by simp +contextual [State.allowPut])

@[simp] theorem requestByOther_keeps (s : State) (kind : FabKind) : Keeps s (s.requestByOther kind) := by
  refine keeps_of fun ok => ?_
  unfold State.requestByOther
  dsimp only
  split
  · simp [ok]
  · split <;> simp [ok]

@[simp] theorem respond_quiet (s : State) (k : Packet) : Quiet s (s.respond k) := by simp [State.respond]
@[simp] theorem rejectBack_quiet (s : State) (k : Packet) (st : Nat) : Quiet s (s.rejectBack k st) := by simp [State.rejectBack]

@[simp] theorem passRequest_quiet (s : State) (k : Packet) : Quiet s (s.passRequest k) := by
  unfold State.passRequest
  split <;> simp

@[simp] theorem passBack_quiet (s : State) (k : Packet) : Quiet s (s.passBack k) := by
  unfold State.passBack
  split <;> simp

@[simp] theorem keeps_answering (s : State) (k : Packet) (f : FabOp → State) (h : ∀ o, Keeps s (f o)) :
    Keeps s (s.answering k f) := by
  unfold State.answering
  split
  · split
    · exact h _
    · simp
  · simp

@[simp] theorem setArriving_quiet (s : State) (x : Arriving) (keep : Bool) : Quiet s (s.setArriving x keep) := by
  simp [State.setArriving]

/-! Machine/Links.lean. -/

@[simp] theorem commit_calm (s : State) : Calm s s.commit := by
  unfold State.commit
  split <;> exact calm_of (by simp) (by simp +contextual)

@[simp] theorem sendMarkers_frame (s : State) (r : Routing) : Frame s (s.sendMarkers r) := by simp [State.sendMarkers]

@[simp] theorem stageTable_frame (s : State) (ver n : Nat) (routes : List Nat) : Frame s (s.stageTable ver n routes).1 := by
  unfold State.stageTable
  split_ifs <;> simp

@[simp] theorem queueLater_frame (s : State) (r : FabReq) : Frame s (s.queueLater r) := by simp [State.queueLater]

@[simp] theorem serveReq_calm (s : State) (r : FabReq) : Calm s (s.serveReq r) := by
  cases r with
  | mine => unfold State.serveReq; simp
  | stage => unfold State.serveReq; simp
  | commit xc core v =>
    unfold State.serveReq
    dsimp only
    split
    · simp
    · split <;> simp

@[simp] theorem serveLater_calm (n : Nat) (s : State) : Calm s (State.serveLater n s) := by
  induction n generalizing s with
  | zero => simp [State.serveLater]
  | succ n ih =>
    unfold State.serveLater
    split
    · simp
    · next r rest _ =>
      dsimp only
      split_ifs
      · simp
      · obtain ⟨g, k⟩ := ih (({ s with chip := { s.chip with later := rest } } : State).serveReq r)
        exact calm_of (g.trans (by simp)) fun ok => k.mpr (.inl (by simp [ok]))

@[simp] theorem serveAll_calm (s : State) : Calm s s.serveAll :=
  calm_of (by simp [State.serveAll]) (by simp +contextual [State.serveAll])

@[simp] theorem stageByOther_keeps (s : State) : Keeps s s.stageByOther := keeps_of fun ok => by simp [State.stageByOther, ok]
@[simp] theorem commitByOther_keeps (s : State) : Keeps s s.commitByOther := keeps_of fun ok => by simp [State.commitByOther, ok]

@[simp] theorem commitOther_keeps (s : State) : Keeps s s.commitOther := by
  refine keeps_of fun ok => ?_
  unfold State.commitOther
  split <;> simp [ok]

@[simp] theorem beginDrain_frame (s : State) (p : Fin 32) : Frame s (s.beginDrain p) := by simp [State.beginDrain]

@[simp] theorem beginFec_frame (mode : Nat) (by_ : Option Nat) (s : State) (p : Fin 32) :
    Frame s (State.beginFec mode by_ s p) := by
  simp [State.beginFec]

@[simp] theorem beginRetrain_frame (s : State) (p : Fin 32) : Frame s (s.beginRetrain p) := by simp [State.beginRetrain]
@[simp] theorem undrainPort_frame (s : State) (p : Fin 32) : Frame s (s.undrainPort p) := by simp [State.undrainPort]

@[simp] theorem resendHeld_calm (s : State) : Calm s s.resendHeld :=
  calm_of (by simp [State.resendHeld]) (by simp +contextual [State.resendHeld])

@[simp] theorem drainByOther_keeps (s : State) : Keeps s s.drainByOther := by
  refine keeps_of fun ok => ?_
  unfold State.drainByOther
  split <;> simp [ok]

@[simp] theorem endLateFec_quiet (s : State) : Quiet s s.endLateFec := by simp [State.endLateFec]

@[simp] theorem loseLine_keeps (s : State) (x0 : Line) : Keeps s (s.loseLine x0) := by
  refine keeps_of fun ok => ?_
  simp only [State.loseLine]
  repeat' split
  all_goals simp [ok]

@[simp] theorem loseAnswers_keeps (s : State) (p : Fin 32) : Keeps s (s.loseAnswers p) :=
  keeps_of fun ok => by simp [State.loseAnswers, ok]

@[simp] theorem resend_quiet (s : State) (p : Fin 32) : Quiet s (s.resend p) := by simp [State.resend]

@[simp] theorem lockTo_keeps (s : State) (p : Fin 32) (peer peerPort pver : Nat) : Keeps s (s.lockTo p peer peerPort pver) := by
  refine keeps_of fun ok => ?_
  simp only [State.lockTo]
  repeat' split
  all_goals simp [ok]

@[simp] theorem measureLoss_quiet (s : State) (of : Nat → Bool) : Quiet s (s.measureLoss of) := by simp [State.measureLoss]

@[simp] theorem revertFec_quiet (s : State) (p : Fin 32) : Quiet s (s.revertFec p) := by
  unfold State.revertFec
  dsimp only
  split <;> simp

@[simp] theorem fixCode_quiet (s : State) (p : Fin 32) : Quiet s (s.fixCode p) := by
  unfold State.fixCode
  dsimp only
  split <;> simp

@[simp] theorem takeFrame_quiet (s : State) (p : Fin 32) (good : Bool) : Quiet s (s.takeFrame p good) := by simp [State.takeFrame]

/-! Machine/Copy.lean. -/

@[simp] theorem pushCmd_frame (s : State) (q : CopyCmd) : Frame s (s.pushCmd q) := by simp [State.pushCmd]

@[simp] theorem notify_quiet (s : State) (k : NoticeKind) (asid : Byte) (va : Nat) (write : Bool) (idx : Nat) :
    Quiet s (s.notify k asid va write idx).1 := by
  simp only [State.notify]
  repeat' split
  all_goals simp

@[simp] theorem gRead_quiet (s : State) (r : Region) (n : Nat) (tag : Word) : Quiet s (s.gRead r n tag).1 := by
  simp only [State.gRead]
  repeat' split
  all_goals simp

@[simp] theorem gWrite_keeps (s : State) (r : Region) (bs : List Byte) : Keeps s (s.gWrite r bs) := by
  refine keeps_of fun ok => ?_
  unfold State.gWrite
  split <;> simp [ok]

@[simp] theorem updateAt_keeps (s : State) (slot pa key : Nat) (x y : Word) : Keeps s (s.updateAt slot pa key x y).1 := by
  refine keeps_of fun ok => ?_
  unfold State.updateAt
  split <;> simp [ok]

@[simp] theorem setCmd_quiet (s : State) (i : Nat) (q : CopyCmd) : Quiet s (s.setCmd i q) := by simp [State.setCmd]

@[simp] theorem localRead_quiet (s : State) (loc : Nat × Nat) (n : Nat) (tag : Word) : Quiet s (s.localRead loc n tag).1 := by
  unfold State.localRead
  split_ifs <;> simp

@[simp] theorem localWrite_keeps (s : State) (loc : Nat × Nat) (bs : List Byte) (tag : Word) :
    Keeps s (s.localWrite loc bs tag).1 := by
  refine keeps_of fun ok => ?_
  simp only [State.localWrite]
  split
  · simp [ok]
  · split
    · simp [ok]
    · simp only [logWords_frame]
      refine (keeps_foldl' (fun t i => ?_) (engineMem_calm s loc.2 bs).2 _).mpr (.inl ok)
      split <;> simp

@[simp] theorem updateBeat_keeps (s : State) (q : CopyCmd) (ops : List Byte) (pa key : Nat) :
    Keeps s (s.updateBeat q ops pa key).1 := by
  refine keeps_of fun ok => ?_
  simp only [State.updateBeat]
  generalize List.range 16 = words
  split
  · simp [ok]
  · exact ok_foldl_fst (fun m i h => by simp [h]) words _ (by simp [ok])

@[simp] theorem writeBack_keeps (s : State) (q : CopyCmd) (pos : Nat) (old : List Byte) : Keeps s (s.writeBack q pos old).1 := by
  refine keeps_of fun ok => ?_
  simp only [State.writeBack]
  generalize List.range 16 = words
  split
  · simp [ok]
  · exact ok_foldl_fst (fun m i h => by simp [h]) words _ ok

@[simp] theorem arrive_keeps (s : State) (q : CopyCmd) (a : Aside) (half : Bool) (bs : List Byte) :
    Keeps s (s.arrive q a half bs).1 := by
  refine keeps_of fun ok => ?_
  unfold State.arrive
  split <;> simp [ok]

@[simp] theorem putLocal_keeps (s : State) (q : CopyCmd) (a : Aside) (bs : List Byte) : Keeps s (s.putLocal q a bs).1 := by
  refine keeps_of fun ok => ?_
  unfold State.putLocal
  split_ifs <;> simp [ok]

@[simp] theorem apertureAsk_quiet (s : State) (q : CopyCmd) (write : Bool) (chip win off : Nat) (bs : List Byte) (r : Option Region) :
    Quiet s (s.apertureAsk q write chip win off bs r).1 := by
  simp [State.apertureAsk]

@[simp] theorem startNew_keeps (s : State) (n : Nat) : Keeps s (s.startNew n) := by
  refine keeps_of fun ok => ?_
  unfold State.startNew
  split <;> simp [ok]

@[simp] theorem apertureAnswer_keeps (s : State) (q : CopyCmd) (a : Aside) (r : Nat × List Byte × List Nat) :
    Keeps s (s.apertureAnswer q a r).1 := by
  refine keeps_of fun ok => ?_
  unfold State.apertureAnswer
  split_ifs <;> simp [ok]

@[simp] theorem source_quiet {s t : State} {q : CopyCmd} {a : Aside} {bs : Option (List Byte)} (h : s.source q a = some (t, bs)) :
    Quiet s t := by
  unfold State.source at h
  split at h
  · cases h; rfl
  · split at h
    · cases h; rfl
    · split at h
      · cases h
      · obtain rfl : _ = t := congrArg Prod.fst (Option.some.inj h)
        simp
/-- A beat of UPDATE and what follows it. -/
theorem updateBeat_then {s u : State} {q : CopyCmd} {ops : List Byte} {pa key : Nat} {old : Option (List Word)}
    (h : s.updateBeat q ops pa key = (u, old)) (ok : (mems s).Ok) : (mems u).Ok := by
  obtain rfl : _ = u := congrArg Prod.fst h
  simp [ok]
@[simp] theorem goBeat_keeps (s : State) (q : CopyCmd) (a : Aside) (half : Bool) (r : Region) :
    Keeps s (s.goBeat q a half r).1 := by
  refine keeps_of fun ok => ?_
  unfold State.goBeat
  dsimp only
  refine iteInduction (motive := fun m : State × BeatEnd => (mems m.1).Ok) (fun _ => ok) fun _ => ?_
  refine iteInduction (motive := fun m : State × BeatEnd => (mems m.1).Ok) (fun _ => ok) fun _ => ?_
  split
  · split
    · exact ok
    split
    · next t bs h =>
      obtain rfl : _ = t := congrArg Prod.fst h
      split <;> simp [ok]
    · next t h =>
      obtain rfl : _ = t := congrArg Prod.fst h
      simp [ok]
  split
  · exact ok
  · next t h => rw [source_quiet h]; exact ok
  · next t bs h =>
    have ht : (mems t).Ok := by rw [source_quiet h]; exact ok
    split
    · split
      · next u hu => exact updateBeat_then hu ht
      · next u old hu =>
        have := updateBeat_then hu ht
        split
        · exact this
        · split <;> simp [this]
    · split <;> simp [ht]

@[simp] theorem tryBeat_reach_keeps (s : State) (q : CopyCmd) (a : Aside) (write half : Bool) :
    Keeps s (State.tryBeat.reach s q a write half).1 := by
  refine keeps_of fun ok => ?_
  unfold State.tryBeat.reach
  split
  · split <;> simp [ok]
  · exact ok
  · split
    · exact ok
    · split
      · split
        · exact ok
        · next t h => rw [source_quiet h]; exact ok
        · next t bs h =>
          have ht : (mems t).Ok := by rw [source_quiet h]; exact ok
          split <;> simp [ht]
      · split <;> simp [ok]
  · simp [ok]

@[simp] theorem tryBeat_keeps (s : State) (q : CopyCmd) (a : Aside) (half : Bool) : Keeps s (s.tryBeat q a half).1 := by
  refine keeps_of fun ok => ?_
  unfold State.tryBeat
  dsimp only
  split
  · split <;> simp [ok]
  · split <;> simp [ok]
  · split_ifs
    · split
      · exact ok
      · next t bs h => rw [source_quiet h]; exact ok
      · next t h => rw [source_quiet h]; exact ok
    · simp [ok]

@[simp] theorem padBeat_keeps (s : State) (q : CopyCmd) (pos : Nat) : Keeps s (s.padBeat q pos).1 := by
  refine keeps_of fun ok => ?_
  unfold State.padBeat
  split <;> simp [ok]

@[simp] theorem fillPattern_quiet (s : State) (q : CopyCmd) : Quiet s (s.fillPattern q).1 := by
  unfold State.fillPattern
  split
  · split
    · next t _ h =>
      obtain rfl : _ = t := congrArg Prod.fst h
      simp
    · next t h =>
      obtain rfl : _ = t := congrArg Prod.fst h
      simp
  · simp

@[simp] theorem copyWork_keeps (s : State) (q : CopyCmd) (work : Nat) (half : Bool) : Keeps s (s.copyWork q work half).1 := by
  refine keeps_of fun ok => ?_
  simp only [State.copyWork]
  repeat' split
  all_goals simp [ok]

@[simp] theorem keepCmd_quiet (s : State) (i : Nat) (q : CopyCmd) : Quiet s (s.keepCmd i q) := by simp [State.keepCmd]

@[simp] theorem copyStep_keeps (s : State) (i work : Nat) (half : Bool) : Keeps s (s.copyStep i work half) := by
  refine keeps_of fun ok => ?_
  unfold State.copyStep
  split
  · exact ok
  · next q _ =>
    dsimp only
    split_ifs <;> simp [ok]

@[simp] theorem copyStepOf_keeps (s : State) (k : Nat) : Keeps s (s.copyStepOf k) := by
  refine keeps_of fun ok => ?_
  unfold State.copyStepOf
  split <;> simp [ok]

@[simp] theorem land_quiet (s : State) (q : CopyCmd) : Quiet s (s.land q) := by simp [State.land]
@[simp] theorem takeCmd_quiet (s : State) (i : Nat) (q : CopyCmd) : Quiet s (s.takeCmd i q) := by simp [State.takeCmd]

@[simp] theorem landAt_quiet (s : State) (i : Nat) : Quiet s (s.landAt i) := by
  unfold State.landAt
  split <;> simp

@[simp] theorem landDue_keeps (s : State) : Keeps s s.landDue := by
  refine keeps_of fun ok => ?_
  unfold State.landDue
  dsimp only
  simp only [matchAllows_calm]
  refine .inl ((keeps_foldl' (fun t _ => ?_) (by simp) _).mpr (.inl ok))
  split <;> simp

@[simp] theorem onCopies_keeps (s : State) (f : CopyCmd → CopyCmd) : Keeps s (s.onCopies f) := by
  refine keeps_of fun ok => { ok with paged := fun g hg => ?_ }
  obtain ⟨x, hx, rfl⟩ := List.mem_map.mp hg
  obtain ⟨hm, ha⟩ := ok.paged x hx
  exact ⟨hm, ha⟩

@[simp] theorem serve_keeps (s : State) (ids : List Nat) : Keeps s (s.serve ids) := keeps_of fun ok => by simp [State.serve, ok]

@[simp] theorem postNotice_keeps (s : State) (id lid : Nat) (q : CopyCmd) : Keeps s (s.postNotice id lid q) := by
  refine keeps_of fun ok => ?_
  simp only [State.postNotice]
  repeat' split
  all_goals simp [ok]

@[simp] theorem postNotices_keeps (s : State) (ids : List Nat) : Keeps s (s.postNotices ids) := by
  unfold State.postNotices
  refine keeps_foldl' (fun t id => ?_) (by simp) _
  exact keeps_foldl' (fun t c => by simp) (by simp) _

@[simp] theorem setTlb_quiet (s : State) (i : Nat) (e : TlbEntry) : Quiet s (s.setTlb i e) := by simp [State.setTlb]

@[simp] theorem writeTlb_quiet (s : State) (i : Nat) (e : TlbEntry) : Quiet s (s.writeTlb i e) := by
  unfold State.writeTlb
  split <;> simp

@[simp] theorem serveIdle_keeps (s : State) (id : Nat) : Keeps s (s.serveIdle id) :=
  keeps_of fun ok => by simp [State.serveIdle, ok]

theorem endWait_ok {s : State} {keep : State → CopyCmd → State} (h : ∀ t q, (mems t).Ok → (mems (keep t q)).Ok) (c : Ctx)
    (i id : Nat) (ok : (mems s).Ok) : (mems (s.endWait c i id keep)).Ok := by
  unfold State.endWait
  split
  · simp [ok]
  · split
    · simp [ok]
    · dsimp only
      split
      · simp only [serveIdle_keeps]
        exact .inl (h _ _ (by simp [ok]))
      · exact ok

@[simp] theorem noticeByOther_quiet (s : State) : Quiet s s.noticeByOther := by simp [State.noticeByOther]

/-- Said of the function, not of its value: the kernel compares the bodies as they stand, and evaluates no address. -/
theorem copyByOther_ok : ∀ s, (mems s).Ok → (mems (State.copyByOther s)).Ok := by
  suffices h : ∀ f, f = State.copyByOther → ∀ s, (mems s).Ok → (mems (f s)).Ok from h _ rfl
  intro f hf s ok
  delta State.copyByOther at hf
  rw [hf]
  beta_reduce
  extract_lets -lift +onlyGivenNames i bytes
  generalize s.regionOf i.addr i.n true false = x
  clear hf
  rcases x with _ | _ | r
  · exact ok
  · exact ok
  · cases r with
    | host => exact ok
    | aperture => exact ok
    | lpddr => dsimp only; split_ifs <;> simp [ok]
    | core => dsimp only; split_ifs <;> simp [ok]
@[simp] theorem copyByOther_keeps (s : State) : Keeps s s.copyByOther := keeps_of (copyByOther_ok s)

/-! Machine/Csr.lean. -/

@[simp] theorem raiseOverdue_frame (s : State) : Frame s s.raiseOverdue := by simp [State.raiseOverdue]

@[simp] theorem csrSet_quiet (s : State) (n : Csr) (x : Word) : Quiet s (s.csrSet n x) := by
  cases n <;> simp [State.csrSet]

@[simp] theorem csrPut_quiet (s : State) (n : Csr) (x : Word) : Quiet s (s.csrPut n x) := by
  simp [State.csrPut]

@[simp] theorem latchCyc_frame (s : State) (n : Csr) : Frame s (s.latchCyc n) := by simp [State.latchCyc]
@[simp] theorem csrByOther_quiet (s : State) (n : Csr) : Quiet s (s.csrByOther n) := by simp [State.csrByOther]

/-! Machine/Image.lean. -/

@[simp] theorem install_frame (s : State) (bs : List Byte) : Frame s (s.install bs) := by simp [State.install]
@[simp] theorem xloadByOther_quiet (s : State) : Quiet s s.xloadByOther := by simp [State.xloadByOther]

/-! Machine/Optics.lean. -/

@[simp] theorem setGrant_frame (s : State) (g : Grant) : Frame s (s.setGrant g) := by simp [State.setGrant]
@[simp] theorem dropGrant_frame (s : State) (g : Grant) : Frame s (s.dropGrant g) := by simp [State.dropGrant]

@[simp] theorem decideGrant_frame (s : State) (k : Asker) (q : GrantReq) (dests : List Nat) :
    Frame s (s.decideGrant k q dests).1 := by
  simp only [State.decideGrant]
  repeat' split
  all_goals simp

@[simp] theorem releaseGrant_frame (s : State) (g : Grant) : Frame s (s.releaseGrant g) := by simp [State.releaseGrant]

@[simp] theorem releaseId_frame (s : State) (k : Asker) (id : Nat) : Frame s (s.releaseId k id) := by
  unfold State.releaseId
  split <;> simp

@[simp] theorem releaseLaunch_quiet (s : State) (lid : Nat) : Quiet s (s.releaseLaunch lid) := by simp [State.releaseLaunch]

@[simp] theorem lmarginByOther_quiet (s : State) : Quiet s s.lmarginByOther := by
  unfold State.lmarginByOther
  split <;> simp

@[simp] theorem changeGrant_frame (s : State) (g : Grant) (gu mode : Nat) (rx : Int) : Frame s (s.changeGrant g gu mode rx) := by
  simp [State.changeGrant]

@[simp] theorem modeChange_frame (s : State) (k : Asker) (id x : Nat) : Frame s (s.modeChange k id x).1 := by
  simp only [State.modeChange]
  repeat' split
  all_goals simp

@[simp] theorem pathRecord_quiet (s : State) (g : Grant) (st : PathState) : Quiet s (s.pathRecord g st) := by
  simp [State.pathRecord]

@[simp] theorem windowEnd_quiet (stop : Nat) (s : State) (g : Grant) : Quiet s (State.windowEnd stop s g) := by
  unfold State.windowEnd
  split <;> simp

/-! Machine/Sync.lean. -/

@[simp] theorem barrierUpdate_frame (s : State) (n : BarName) (b : Barrier) : Frame s (s.barrierUpdate n b) := by
  simp [State.barrierUpdate]

@[simp] theorem popMessage_frame (s : State) : Frame s s.popMessage := by simp [State.popMessage]
@[simp] theorem setMonitor_frame (s : State) (i : Fin 8) (m : Monitor) : Frame s (s.setMonitor i m) := by simp [State.setMonitor]

/-! Machine/Matrix.lean. -/

@[simp] theorem slewRoll_frame (s : State) : Frame s s.slewRoll := by simp [State.slewRoll]
@[simp] theorem mxEnter_frame (s : State) (op : Instr) : Frame s (s.mxEnter op) := by simp [State.mxEnter]

@[simp] theorem mxTileOut_keeps (s : State) (t : AccType) (b : Reg) (xs : List Nat) : Keeps s (s.mxTileOut t b xs) :=
  keeps_of fun ok => by simp [State.mxTileOut, ok]

@[simp] theorem mxUpdate_keeps (s : State) (t : AccType) (b : Reg) (f : Nat → Nat → Nat × Word) : Keeps s (s.mxUpdate t b f).1 :=
  keeps_of fun ok => by simp [State.mxUpdate, ok]

@[simp] theorem mxEffect_keeps (s : State) (q : MxOp) : Keeps s (s.mxEffect q).1 := by
  refine keeps_of fun ok => ?_
  unfold State.mxEffect
  split
  · exact (mxUpdate_keeps s _ _ _).ok ok
  · exact (mxUpdate_keeps s _ _ _).ok ok
  · exact (mxUpdate_keeps s _ _ _).ok ok
  · exact (mxUpdate_keeps s _ _ _).ok ok
  · exact (mxTileOut_keeps s _ _ _).ok ok
  · exact (mxTileOut_keeps s _ _ _).ok ok
  · exact (engineMem_calm s _ _).ok ok
  · exact (engineMem_calm s _ _).ok ok
  · exact ok

@[simp] theorem mxRetire_keeps (s : State) (q : MxOp) : Keeps s (s.mxRetire q) := by
  refine keeps_of fun ok => ?_
  unfold State.mxRetire
  extract_lets e r pop t c u
  have hr : (mems r.1).Ok := by
    simp only [r]
    split <;> simp [e, ok]
  have hp : ∀ t h, mems (pop t h) = mems t := fun t h => by cases h <;> simp [pop]
  have hu : (mems u).Ok := by simp [u, c, t, hp, hr]
  split <;> simp [hu]

@[simp] theorem slewStart_quiet (s : State) (idx n : Nat) : Quiet s (s.slewStart idx n) := by simp [State.slewStart]

@[simp] theorem mxStart_quiet (s : State) : Quiet s s.mxStart := by
  unfold State.mxStart
  split <;> simp

@[simp] theorem slewServe_quiet (n : Nat) (s : State) (i : Nat) : Quiet s (State.slewServe n s i) := by simp [State.slewServe]

@[simp] theorem setGsz_frame (s : State) (n : Nat) : Frame s (s.setGsz n) := by
  have bit : (BitVec.ofNat 32 (n % 4 * 256))[0] = false := by
    rw [← BitVec.getLsbD_eq_getElem, BitVec.getLsbD_ofNat, Nat.testBit_zero]
    simp; omega
  simp [State.setGsz, bit]

@[simp] theorem clearGang_frame (s : State) (code : Nat) : Frame s (s.clearGang code) := by simp [State.clearGang]

/-! Machine/Exchange.lean. -/

@[simp] theorem setExch_frame (s : State) (e : Exch) : Frame s (s.setExch e) := by simp [State.setExch]
@[simp] theorem toOffset_frame (s : State) (off : Nat) : Frame s (s.toOffset off) := by simp [State.toOffset]
@[simp] theorem sendBeat_quiet (s : State) (b : SendBeat) : Quiet s (s.sendBeat b) := by simp [State.sendBeat]
@[simp] theorem flushSends_quiet (s : State) (t : Nat) : Quiet s (s.flushSends t) := by simp [State.flushSends]

@[simp] theorem claimSend_frame (s : State) (lane : Option Nat) (off : Nat) (a : Word) (len : Nat) :
    Frame s (s.claimSend lane off a len) := by
  simp [State.claimSend]

@[simp] theorem miss_quiet (s : State) (c : Claim) : Quiet s (s.miss c) := by simp [State.miss]

@[simp] theorem writeBeat_keeps (s : State) (c : Claim) (j : Nat) (bytes : List Byte) : Keeps s (s.writeBeat c j bytes) :=
  keeps_of fun ok => by simp [State.writeBeat, ok]

@[simp] theorem receiveBeat_keeps (s : State) (c : Claim) (j : Nat) (data : List Byte) : Keeps s (s.receiveBeat c j data) := by
  refine keeps_of fun ok => ?_
  unfold State.receiveBeat
  split <;> simp [ok]

@[simp] theorem takeBeat_keeps (s : State) (c : Claim) (t : Nat) (i : Input) : Keeps s (s.takeBeat c t i) :=
  keeps_of fun ok => by simp [State.takeBeat, ok]

@[simp] theorem handleBeat_keeps (t : Nat) (s : State) (i : Input) : Keeps s (State.handleBeat t s i) := by
  refine keeps_of fun ok => ?_
  unfold State.handleBeat
  split <;> simp [ok]

@[simp] theorem settleBeats_keeps (s : State) : Keeps s s.settleBeats := by
  refine keeps_of fun ok => ?_
  unfold State.settleBeats
  split <;> simp [ok]

@[simp] theorem settlePast_keeps (s : State) : Keeps s s.settlePast := keeps_of fun ok => by simp [State.settlePast, ok]

@[simp] theorem beatAt_keeps (s : State) (t : Nat) (i : Input) : Keeps s (s.beatAt t i) :=
  keeps_of fun ok => by simp [State.beatAt, ok]

@[simp] theorem claimReceive_frame (s : State) (off : Nat) (a : Word) (len : Nat) (comb : Option (ElemType × CombOp × Bool)) :
    Frame s (s.claimReceive off a len comb) := by
  simp [State.claimReceive]

@[simp] theorem stageMasks_quiet (s : State) : Quiet s s.stageMasks := by simp [State.stageMasks]
@[simp] theorem postHeld_quiet (s : State) : Quiet s s.postHeld := by simp [State.postHeld]
@[simp] theorem closeSegment_keeps (s : State) : Keeps s s.closeSegment := keeps_of fun ok => by simp [State.closeSegment, ok]
@[simp] theorem startCompute_keeps (s : State) : Keeps s s.startCompute := keeps_of fun ok => by simp [State.startCompute, ok]

/-! Machine/Trees.lean. -/

@[simp] theorem setTrees_frame (s : State) (t : Trees) : Frame s (s.setTrees t) := by simp [State.setTrees]

@[simp] theorem arriveTree_frame (s : State) (g : Tree) (core seg : Nat) (stragg : Word) :
    Frame s (s.arriveTree g core seg stragg) := by
  unfold State.arriveTree
  split <;> simp

@[simp] theorem withdraw_frame (s : State) (g : Tree) : Frame s (s.withdraw g) := by simp [State.withdraw]

@[simp] theorem failSync_quiet (s : State) (g : Tree) (t : Trap) : Quiet s (s.failSync g t) := by simp [State.failSync]
/-- A core that does not wait on the tree goes on. -/
@[simp] theorem guard_failSync (s : State) (g : Tree) (t : Trap) (h : s.waitsOn g = false) : guard (s.failSync g t) = guard s := by
  simp [State.failSync, h]

@[simp] theorem expire_quiet (s : State) (g : Tree) (x : Nat) : Quiet s (s.expire g x) := by
  unfold State.expire
  dsimp only
  split <;> simp
@[simp] theorem guard_expire (s : State) (g : Tree) (x : Nat) (h : s.waitsOn g = false) : guard (s.expire g x) = guard s := by
  unfold State.expire
  dsimp only
  split <;> simp [h]

@[simp] theorem expireFirst_quiet (s : State) (g : Tree) : Quiet s (s.expireFirst g) := by
  unfold State.expireFirst
  split
  · split <;> simp
  · rfl
@[simp] theorem guard_expireFirst (s : State) (g : Tree) (h : s.waitsOn g = false) : guard (s.expireFirst g) = guard s := by
  unfold State.expireFirst
  split
  · split <;> simp [h]
  · rfl

@[simp] theorem enterSegment_quiet (s : State) (g : Tree) (seg : Segment) : Quiet s (s.enterSegment g seg) := by
  simp [State.enterSegment]

@[simp] theorem takeArrivals_quiet (s : State) (g : Tree) : Quiet s (s.takeArrivals g) := by simp [State.takeArrivals]
@[simp] theorem expireAwait_quiet (s : State) (g : Tree) (x : Nat) : Quiet s (s.expireAwait g x) := by simp [State.expireAwait]

@[simp] theorem expireAwaitFirst_quiet (s : State) : Quiet s s.expireAwaitFirst := by
  unfold State.expireAwaitFirst
  split <;> simp

@[simp] theorem stage_frame (s : State) (g : Tree) (tile : Nat) (mask : Word) : Frame s (s.stage g tile mask) := by
  simp [State.stage]

@[simp] theorem domByOther_quiet (s : State) (g : Tree) : Quiet s (s.domByOther g) := by simp [State.domByOther]
@[simp] theorem cancel_quiet (s : State) : Quiet s s.cancel := by simp [State.cancel]

/-! Machine/Launch.lean. -/

/-- A record that comes to a queue leaves what is paged out. -/
@[simp] theorem submit_paged (p : Part) (bs : List Byte) (x : Space) (xc : Nat) : (p.submit bs x xc).1.paged = p.paged := by
  unfold Part.submit
  split_ifs <;> rfl
@[simp] theorem submit_quiet (s : State) (bs : List Byte) : Quiet s (s.submit bs).1 := by
  simp [State.submit]

@[simp] theorem submitTo_keeps (s : State) (n : Nat) (bs : List Byte) : Keeps s (s.submitTo n bs).1 := by
  refine keeps_of fun ok => ?_
  unfold State.submitTo
  dsimp only
  split
  · simp [ok]
  · split
    · next p h =>
      refine { ok with others := fun x hx => ?_ }
      obtain ⟨y, hy, rfl⟩ := List.mem_map.mp hx
      split
      · have hp := ok.others p (List.mem_of_find?_eq_some h)
        simpa [Part.Canonical] using hp
      · exact ok.others y hy
    · exact ok

@[simp] theorem setCounter_quiet (s : State) (n : Nat) (x : Word) : Quiet s (s.setCounter n x) := by simp [State.setCounter]

@[simp] theorem meetBeat_quiet (s : State) (x0 : Region) : Quiet s (s.meetBeat x0) := by
  unfold State.meetBeat
  split <;> simp

@[simp] theorem meetLaunch_quiet (s : State) (q : QRec) : Quiet s (s.meetLaunch q) := by simp [State.meetLaunch]

@[simp] theorem launchRecord_quiet (s : State) (status image : Nat) (done : Option Nat) :
    Quiet s (s.launchRecord status image done) := by
  simp [State.launchRecord]

@[simp] theorem unqueue_quiet (s : State) (q : QRec) : Quiet s (s.unqueue q) := by simp [State.unqueue]

/-- What R197 puts in place keeps a half canonical. -/
theorem loadHalf_wf {s : State} {d : DirRec} {bs : List Byte} {m : Memory} {e : List Nat} (wf : m.wf = true) :
    (s.loadHalf d bs m e).1.wf = true :=
  Memory.writeBytes_wf _ _ _ (Memory.writeBytes_wf _ _ _ (Memory.writeBytes_wf _ _ _ wf))
/-- The memory that a launch gets is the half it is loaded over, or that half with what R197 puts in place. -/
theorem prepare_wf {s : State} {q : QRec} {m m' : Memory} {e e' : List Nat} {l : Launch} {g : List (Nat × Nat × BitVec 16)}
    {i : Option Image} (h : s.prepare q m e = .start l m' e' g i) (wf : m.wf = true) : m'.wf = true := by
  unfold State.prepare at h
  dsimp only at h
  repeat' split at h
  all_goals cases h
  all_goals simp [loadHalf_wf, wf]
/-- A launch that starts puts a memory in canonical form in the place of the core's half. -/
theorem ok_startLaunch {s : State} (q : QRec) (l : Launch) {m : Memory} (e : List Nat) (g : List (Nat × Nat × BitVec 16))
    (i : Option Image) (ok : (mems s).Ok) (wf : m.wf = true) : (mems (s.startLaunch q l m e g i)).Ok := by
  unfold State.startLaunch
  dsimp only
  split
  · exact { ok with mem := wf }
  · exact ok

theorem ok_shadowLaunch {s : State} (q : QRec) (l : Launch) {m : Memory} (e : List Nat) (g : List (Nat × Nat × BitVec 16))
    (i : Option Image) (ok : (mems s).Ok) (wf : m.wf = true) : (mems (s.shadowLaunch q l m e g i)).Ok := by
  unfold State.shadowLaunch
  dsimp only
  split
  · exact { ok with shMem := wf }
  · exact ok

@[simp] theorem evaluate_keeps (s : State) : Keeps s s.evaluate := by
  refine keeps_of fun ok => ?_
  unfold State.evaluate
  dsimp only
  split
  · exact ok
  · split
    · split
      · split
        · next h => exact ok_startLaunch _ _ _ _ _ (by simp [ok]) (prepare_wf h ok.mem)
        · simp [ok]
        · exact ok
      · exact ok
    · split
      · split
        · next h => exact ok_shadowLaunch _ _ _ _ _ (by simp [ok]) (prepare_wf h ok.shMem)
        · simp [ok]
        · exact ok
      · exact ok

@[simp] theorem resumeWait_quiet (s : State) : Quiet s s.resumeWait := by simp [State.resumeWait]

/-- The two contexts of a core change places. -/
@[simp] theorem swapCores_keeps (s : State) : Keeps s s.swapCores := by
  refine keeps_of fun ok => ?_
  unfold State.swapCores
  extract_lets t
  have h : (mems t).Ok := { ok with mem := ok.shMem, acc := ok.shAcc, shMem := ok.mem, shAcc := ok.acc }
  split
  · simp [h]
  · exact h

@[simp] theorem swapPhases_quiet (s : State) : Quiet s s.swapPhases := by simp [State.swapPhases]

@[simp] theorem swapIn_keeps (s : State) : Keeps s s.swapIn := by
  refine keeps_of fun ok => ?_
  unfold State.swapIn
  dsimp only
  split <;> simp [ok]

@[simp] theorem swapBack_keeps (s : State) (e : Option Launch) : Keeps s (s.swapBack e) := by
  refine keeps_of fun ok => ?_
  unfold State.swapBack
  dsimp only
  split
  · exact ok
  · split <;> simp [ok]

@[simp] theorem pageOut_keeps (s : State) : Keeps s s.pageOut := by
  refine keeps_of fun ok => ?_
  unfold State.pageOut
  split
  · exact ok
  · have hp : ∀ g : Paged, g.ctx = s.sh → ∀ x ∈ g :: s.p.paged, x.ctx.Canonical := fun g hg x hx =>
      (List.mem_cons.mp hx).elim (fun h => h ▸ hg ▸ ⟨ok.shMem, ok.shAcc⟩) (ok.paged x)
    dsimp only
    split
    · exact { ok with paged := hp _ rfl }
    · exact { ok with paged := hp _ rfl }

theorem ok_pageIn {s : State} {g : Paged} (ok : (mems s).Ok) (hg : g.ctx.Canonical) : (mems (s.pageIn g)).Ok := by
  have hp : ∀ x ∈ s.p.paged.filter (·.launch.id ≠ g.launch.id), x.ctx.Canonical := fun x hx => ok.paged x (List.mem_filter.mp hx).1
  unfold State.pageIn
  extract_lets sh p t
  have h : (mems t).Ok := by
    unfold t
    split
    · exact { ok with shMem := hg.mem, shAcc := hg.acc, paged := hp }
    · exact { ok with paged := hp }
  split
  · simp [h]
  · exact h

@[simp] theorem endRunning_keeps (s : State) (l : Launch) (n : Nat) : Keeps s (s.endRunning l n) := by
  refine keeps_of fun ok => ?_
  unfold State.endRunning
  extract_lets t c
  have h : (mems t).Ok := by simp [t, ok]
  clear_value t
  refine (swapBack_keeps _ _).ok ?_
  unfold c
  split <;> exact h

@[simp] theorem endShadow_keeps (s : State) (l : Launch) (n : Nat) : Keeps s (s.endShadow l n) := by
  refine keeps_of fun ok => ?_
  unfold State.endShadow
  extract_lets t c
  have h : (mems t).Ok := by simp [t, ok]
  clear_value t
  unfold c
  split <;> exact h

@[simp] theorem bootPartition_quiet (s : State) : Quiet s s.bootPartition := by simp [State.bootPartition]

@[simp] theorem mapSlot_quiet (s : State) (slot : Nat) (f : SlotEntry → SlotEntry) : Quiet s (s.mapSlot slot f) := by
  simp [State.mapSlot]

@[simp] theorem renameCore_quiet (s : State) (a b : Nat) : Quiet s (s.renameCore a b) := by simp [State.renameCore]

@[simp] theorem arriveAt_keeps (s : State) (n : Fin 16) : Keeps s (s.arriveAt n) := by
  refine keeps_of fun ok => ?_
  unfold State.arriveAt
  extract_lets o u t w
  have h : mems w = mems u := rfl
  simp [h, u, ok]

@[simp] theorem otherMoved_quiet (s : State) : Quiet s s.otherMoved := by
  unfold State.otherMoved
  dsimp only
  split <;> simp

/-! Machine/Boot.lean. -/

@[simp] theorem setBoot_quiet (s : State) (b : Boot) : Quiet s (s.setBoot b) := by simp [State.setBoot]
@[simp] theorem darken_quiet (s : State) : Quiet s s.darken := by simp [State.darken]
@[simp] theorem stopCores_quiet (s : State) : Quiet s s.stopCores := by simp [State.stopCores]
@[simp] theorem trySource_quiet (s : State) (n : Nat) : Quiet s (s.trySource n) := by simp [State.trySource]
@[simp] theorem assertReset_quiet (s : State) : Quiet s s.assertReset := by simp [State.assertReset]
@[simp] theorem abandon_quiet (s : State) (check : Word) : Quiet s (s.abandon check) := by simp [State.abandon]
@[simp] theorem measure_quiet (s : State) (g : SignedImage) : Quiet s (s.measure g) := by simp [State.measure]
@[simp] theorem firstStage_quiet (s : State) : Quiet s s.firstStage := by simp [State.firstStage]

@[simp] theorem takeImage_quiet (s : State) (source : Nat) (g : SignedImage) : Quiet s (s.takeImage source g) := by
  simp [State.takeImage]

@[simp] theorem dropKey_quiet (s : State) (n : Nat) : Quiet s (s.dropKey n) := by simp [State.dropKey]

@[simp] theorem keyload_quiet (s : State) : Quiet s s.keyload := by
  simp only [State.keyload]
  repeat' split
  all_goals simp

@[simp] theorem keyclear_quiet (s : State) : Quiet s s.keyclear := by simp [State.keyclear]

/-- An answer to a waiting snap changes no memory. -/
@[simp] theorem snapAnswer_keeps (s : State) : Keeps s s.snapAnswer := by
  refine keeps_of fun ok => ?_
  unfold State.snapAnswer
  extract_lets told p
  have told_ok (c : Ctx) (h : c.Canonical) : (told c).Canonical := by unfold told; split <;> exact ⟨h.mem, h.acc⟩
  have hc := told_ok s.c ⟨ok.mem, ok.acc⟩
  have hsh := told_ok s.sh ⟨ok.shMem, ok.shAcc⟩
  refine { ok with mem := hc.mem, acc := hc.acc, shMem := hsh.mem, shAcc := hsh.acc, paged := fun x hx => ?_ }
  obtain ⟨y, hy, rfl⟩ := List.mem_map.mp hx
  exact told_ok _ (ok.paged y hy)

@[simp] theorem snapReply_quiet (s : State) (group : Nat) : Quiet s (s.snapReply group) := by simp [State.snapReply]

@[simp] theorem logEnter_keeps (s : State) (r : EventRec) (n : Nat) : Keeps s (s.logEnter r n) := by
  refine keeps_of fun ok => ?_
  unfold State.logEnter
  extract_lets pa t u
  have h : (mems u).Ok := by unfold u; split <;> simp [t, ok]
  exact { h with }

@[simp] theorem deliverHeld_keeps (s : State) (r : EventRec) : Keeps s (s.deliverHeld r) := by
  refine keeps_of fun ok => ?_
  unfold State.deliverHeld
  extract_lets l d t
  exact (logEnter_keeps _ _ _).ok ok

@[simp] theorem logMeet_quiet (s : State) : Quiet s s.logMeet := by simp [State.logMeet]
@[simp] theorem placeLog_quiet (s : State) (base size : Nat) : Quiet s (s.placeLog base size) := by simp [State.placeLog]
@[simp] theorem moveTail_quiet (s : State) (n : Nat) : Quiet s (s.moveTail n) := by simp [State.moveTail]

@[simp] theorem bar0Write_keeps (s : State) : Keeps s s.bar0Write := by
  refine keeps_of fun ok => ?_
  unfold State.bar0Write
  dsimp only
  split_ifs <;> try split
  all_goals simp [ok]

@[simp] theorem bar0Read_quiet (s : State) : Quiet s s.bar0Read := by simp [State.bar0Read]
@[simp] theorem meetStream_quiet (s : State) : Quiet s s.meetStream := by simp [State.meetStream]
@[simp] theorem resumeLaunches_keeps (s : State) : Keeps s s.resumeLaunches := keeps_of fun ok => by simp [State.resumeLaunches, ok]

/-- Reading a run of beats meets their errors, beat by beat. -/
@[simp] theorem readRun_quiet (s : State) (tag : Word) (n : Nat) (rs : List Region) : Quiet s (s.readRun tag n rs).s := by
  induction rs generalizing s n with
  | nil => rfl
  | cons r rs ih => exact (ih _ _).trans (gRead_quiet s r n tag)

/-! Machine/Coll.lean. -/

@[simp] theorem setColl_frame (s : State) (k : Coll) : Frame s (s.setColl k) := by simp [State.setColl]
@[simp] theorem dropColl_frame (s : State) (id : Nat) : Frame s (s.dropColl id) := by simp [State.dropColl]

@[simp] theorem startColl_frame (s : State) (w : Nat → Nat) (k : Coll) : Frame s (s.startColl w k).1 := by
  simp only [State.startColl]
  repeat' split
  all_goals simp

@[simp] theorem resumeColl_frame (s : State) (id k : Nat) : Frame s (s.resumeColl id k).1 := by
  simp only [State.resumeColl]
  repeat' split
  all_goals simp

/-- An equation of functions: the kernel does not evaluate the start record to see it. -/
theorem startByOther_def : State.startByOther =
    fun s => (s.startColl s.inputWord { core := some s.input.n, asid := s.input.value.extractLsb' 0 8 }).1 := rfl
@[simp] theorem startByOther_quiet (s : State) : Quiet s s.startByOther :=
  (congrArg mems (congrFun startByOther_def s)).trans (startColl_frame ..).2

@[simp] theorem resumeByOther_quiet (s : State) : Quiet s s.resumeByOther := by simp [State.resumeByOther]

@[simp] theorem writeRun_keeps (s : State) (bs : List Byte) (bad : List Bool) (rs : List Region) :
    Keeps s (s.writeRun bs bad rs) := by
  refine keeps_foldl' (fun t r => ?_) (keeps_of id) _
  refine keeps_of fun ok => ?_
  split <;> simp [ok]

@[simp] theorem runFails_keeps (s : State) (k : Coll) (write : Bool) (x0 : Run) : Keeps s (s.runFails k write x0) := by
  refine keeps_of fun ok => ?_
  unfold State.runFails
  split <;> simp [ok]

/-! Machine/Control.lean. -/

@[simp] theorem link_frame (s : State) : Frame s s.link := by simp [State.link]

/-! Machine/Head.lean. -/

@[simp] theorem headAcc_calm (s : State) (off : Nat) (bs : List Byte) : Calm s (s.headAcc off bs) :=
  calm_of (by simp [State.headAcc]) (by simp +contextual [State.headAcc])

@[simp] theorem setToken_keeps (s : State) (e : DirEntry) (t : Nat) (k : Token) : Keeps s (s.setToken e t k) :=
  keeps_of fun ok => by simp [State.setToken, ok]

@[simp] theorem logLocal_quiet (s : State) (off n : Nat) : Quiet s (s.logLocal off n) := by simp [State.logLocal]
@[simp] theorem logAcc_frame (s : State) (off n : Nat) : Frame s (s.logAcc off n) := by simp [State.logAcc]

@[simp] theorem noteToken_keeps (s : State) (e : DirEntry) (t st : Nat) : Keeps s (s.noteToken e t st) :=
  keeps_of fun ok => by simp [State.noteToken, ok]

@[simp] theorem eachToken_keeps (s : State) (e : DirEntry) (f : Nat → Token → Token × Nat) : Keeps s (s.eachToken e f).1 := by
  refine keeps_of fun ok => ok_foldl_fst (fun m t h => ?_) _ _ ok
  split <;> simp [h]

@[simp] theorem headInit_keeps (s : State) (e : DirEntry) : Keeps s (s.headInit e).1 :=
  keeps_of fun ok => by simp [State.headInit, ok]

@[simp] theorem headLabel_keeps (s : State) (e : DirEntry) (off : Nat) : Keeps s (s.headLabel e off).1 := by
  refine keeps_of fun ok => ?_
  unfold State.headLabel
  split <;> simp [ok]

@[simp] theorem headFold_keeps (s : State) (e : DirEntry) (a v : Nat) : Keeps s (s.headFold e a v).1 := by
  refine keeps_of fun ok => ?_
  unfold State.headFold
  split <;> simp [ok]

@[simp] theorem headMerge_keeps (s : State) (e : DirEntry) (off : Nat) : Keeps s (s.headMerge e off).1 := by
  refine keeps_of fun ok => ?_
  unfold State.headMerge
  extract_lets bad u
  have h : (mems u).Ok := by unfold u; split <;> simp [ok]
  simp [h]

@[simp] theorem headRead_keeps (s : State) (e : DirEntry) (off : Nat) : Keeps s (s.headRead e off).1 :=
  keeps_of fun ok => by simp [State.headRead, ok]

@[simp] theorem headRegen_keeps (s : State) (d a off : Nat) : Keeps s (s.headRegen d a off).1 := by
  refine keeps_of fun ok => ?_
  unfold State.headRegen
  extract_lets -lift +onlyGivenNames ps base n
  split_ifs
  · simp [ok]
  · simp [ok]
  · simp [ok]
  · exact (headAcc_calm ..).ok ok
  · exact (headAcc_calm ..).ok ok

@[simp] theorem headEffect_keeps (s : State) (q : HeadOp) : Keeps s (s.headEffect q).1 := by
  refine keeps_of fun ok => ?_
  unfold State.headEffect
  split <;> simp [ok]

@[simp] theorem headNote_frame (s : State) (st : Nat) : Frame s (s.headNote st) := by simp [State.headNote]
@[simp] theorem headArrive_frame (s : State) (st : Nat) : Frame s (s.headArrive st) := by simp [State.headArrive]

@[simp] theorem emptyHeap_calm (s : State) (e : DirEntry) (t : Nat) : Calm s (s.emptyHeap e t).1 :=
  calm_of (by simp [State.emptyHeap]) (by simp +contextual [State.emptyHeap])

/-- A fold that carries a status beside the state. -/
theorem guard_foldl_fst {α β : Type} {f : State × β → α → State × β} (h : ∀ m x, guard (f m x).1 = guard m.1) (xs : List α)
    (m : State × β) : guard (xs.foldl f m).1 = guard m.1 := by
  induction xs generalizing m with
  | nil => rfl
  | cons x xs ih => exact (ih _).trans (h m x)
@[simp] theorem spillHeaps_calm (s : State) (e : DirEntry) (off : Nat) : Calm s (s.spillHeaps e off) := by
  unfold State.spillHeaps
  extract_lets p out r t c
  have hg : guard r.1 = guard s := guard_foldl_fst (fun m x => by simp) _ _
  refine calm_of (by simp [c, t, hg]) fun ok => ?_
  have hr : (mems r.1).Ok := ok_foldl_fst (fun m x h => by simp [h]) _ _ ok
  simp [c, t, hr]

/-! Machine/Vector.lean. -/

@[simp] theorem convertLanes_frame (s : State) (td ts : ElemType) (sat : Bool) (d : Reg) (src : Nat → Option Nat) :
    Frame s (s.convertLanes td ts sat d src) := by
  simp [State.convertLanes]

/-! Machine/VectorMem.lean. -/

@[simp] theorem convStore_calm (s : State) (t : ElemType) (d : Reg) (ea : Word) (sat u : Bool) (b4 : B4Type) :
    Calm s (s.convStore t d ea sat u b4) :=
  calm_of (by simp [State.convStore]) (by simp +contextual [State.convStore])

/-! Machine/Fetch.lean. -/

@[simp] theorem joined_quiet (s : State) : Quiet s s.joined := by simp [State.joined]
@[simp] theorem pass_keeps (s : State) : Keeps s s.pass := keeps_of fun ok => by simp [State.pass, ok]
@[simp] theorem dropLead_quiet (s : State) : Quiet s s.dropLead := by simp [State.dropLead]

@[simp] theorem takeInput_quiet (s : State) (e : Event) : Quiet s (s.takeInput e) := by
  unfold State.takeInput
  split <;> simp

@[simp] theorem passAgenda_keeps (s : State) : Keeps s s.passAgenda := keeps_of fun ok => by simp [State.passAgenda, ok]
@[simp] theorem evwrByOther_keeps (s : State) : Keeps s s.evwrByOther := keeps_of fun ok => by simp [State.evwrByOther, ok]
@[simp] theorem msendByOther_quiet (s : State) : Quiet s s.msendByOther := by simp [State.msendByOther]

@[simp] theorem byOther_keeps (i : Instr) (s : State) : Keeps s (byOther i s) := by
  refine keeps_of fun ok => ?_
  unfold byOther
  split <;> simp [ok]


end Sys2Proof.Proofs

namespace Sys2Proof.Proofs
open Machine

/-! Results: what an instruction or an event may lead to. -/

/-- A result whose next state keeps every memory in canonical form. -/
def Keep (s : State) (r : Result) : Prop := ∀ t, r = .next t → (mems s).Ok → (mems t).Ok

/-- R37: what S mode alone may write is as it was; U mode is left by a trap only. -/
def Guarded (s t : State) : Prop :=
  guard t = guard s ∨
    guard t = { guard s with c := { (guard s).c with svc := true } } ∧ t.c.pc = s.c.tvec ∧ t.c.epc = s.c.pc

/-- A result of an instruction: it keeps the memories canonical, and in U mode what S mode alone may write. -/
def Good (s : State) (r : Result) : Prop := Keep s r ∧ ∀ t, r = .next t → s.svc = false → Guarded s t

theorem svc_of_guard {s t : State} (h : guard t = guard s) : t.svc = s.svc := congrArg (fun g => g.c.svc) h

theorem tvec_of_guard {s t : State} (h : guard t = guard s) : t.c.tvec = s.c.tvec := congrArg (fun g => g.c.tvec) h

theorem keep_of_svc {s : State} {r : Result} (h : s.svc = true) (k : Keep s r) : Good s r :=
  ⟨k, fun _ _ hu => absurd (h.symm.trans hu) (by decide)⟩

section
variable {s u : State} {r : Result}

@[simp] theorem keep_next {t : State} (h : (mems s).Ok → (mems t).Ok) : Keep s (.next t) := fun _ e => by cases e; exact h

theorem good_next {t : State} (g : s.svc = false → guard t = guard s) (h : (mems s).Ok → (mems t).Ok) : Good s (.next t) :=
  ⟨keep_next h, fun _ e hu => by cases e; exact .inl (g hu)⟩

theorem good_of_calm {t : State} (g : guard t = guard s) (h : (mems s).Ok → (mems t).Ok) : Good s (.next t) := good_next (fun _ => g) h

@[simp] theorem keep_refused (x : Refusal) : Keep s (.refused x) := fun _ e => by cases e
@[simp] theorem good_refused (x : Refusal) : Good s (.refused x) := ⟨keep_refused x, fun _ e => by cases e⟩

@[simp] theorem keep_fin (h : (mems s).Ok → (mems u).Ok) : Keep s u.fin := keep_next (by simpa using h)
@[simp] theorem good_fin (g : guard u = guard s) (h : (mems s).Ok → (mems u).Ok) : Good s u.fin :=
  good_next (fun hu => (guard_adv u ((svc_of_guard g).trans hu)).trans g) (by simpa using h)

@[simp] theorem keep_result (d : Reg) (x : Word) (h : (mems s).Ok → (mems u).Ok) :
    Keep s (u.result d x) := keep_fin (by simpa using h)
@[simp] theorem good_result (d : Reg) (x : Word) (g : guard u = guard s) (h : (mems s).Ok → (mems u).Ok) : Good s (u.result d x) :=
  good_fin (by simpa using g) (by simpa using h)

@[simp] theorem keep_wait (h : (mems s).Ok → (mems u).Ok) : Keep s u.wait := keep_next (by simpa using h)
@[simp] theorem good_wait (g : guard u = guard s) (h : (mems s).Ok → (mems u).Ok) : Good s u.wait :=
  good_of_calm (by simpa using g) (by simpa using h)

@[simp] theorem keep_waitAt (p : Pend) (h : (mems s).Ok → (mems u).Ok) : Keep s (u.waitAt p) := keep_next (by simpa using h)
@[simp] theorem good_waitAt (p : Pend) (g : guard u = guard s) (h : (mems s).Ok → (mems u).Ok) : Good s (u.waitAt p) :=
  good_of_calm (by simpa using g) (by simpa using h)

@[simp] theorem keep_deferAt (t : Trap) (n : Nat) (h : (mems s).Ok → (mems u).Ok) : Keep s (u.deferAt t n) :=
  keep_next (by simpa using h)
@[simp] theorem good_deferAt (t : Trap) (n : Nat) (g : guard u = guard s) (h : (mems s).Ok → (mems u).Ok) :
    Good s (u.deferAt t n) :=
  good_fin (u := u.deferTrap ..) (by simpa using g) (by simpa using h)

@[simp] theorem keep_raise (t : Trap) (h : (mems s).Ok → (mems u).Ok) : Keep s (u.raise t) := by
  unfold State.raise
  split
  · exact keep_deferAt _ _ h
  · exact keep_next (by simpa using h)

/-- The entry into a trap sets MODE, unless TE is 0, and touches nothing else that S mode alone may write. -/
theorem guarded_enter (a b c : Word) (g : guard u = guard s) (pc : u.c.pc = s.c.pc) : Guarded s (u.enter a u.c.pc b c) := by
  unfold State.enter
  split
  · exact .inl (by simpa using g)
  · have mode : ((u.c.status &&& 0xFFFFFBF0) ||| ((u.c.status &&& 3) <<< 2) ||| 1).getLsbD 0 = true := by simp
    exact .inr ⟨g ▸ congrArg (fun b => { guard u with c := { (guard u).c with svc := b } }) mode, tvec_of_guard g, pc⟩

@[simp] theorem good_raise (t : Trap) (g : guard u = guard s) (pc : u.c.pc = s.c.pc) (h : (mems s).Ok → (mems u).Ok) :
    Good s (u.raise t) := by
  unfold State.raise
  split
  · exact good_deferAt _ _ g h
  · exact ⟨keep_next (by simpa using h), fun _ e _ => by cases e; exact guarded_enter _ _ _ g pc⟩

@[simp] theorem keep_trap (c : Cause) (d : Nat) (a : Word) (h : (mems s).Ok → (mems u).Ok) : Keep s (u.trap c d a) := keep_raise _ h
@[simp] theorem good_trap (c : Cause) (d : Nat) (a : Word) (g : guard u = guard s) (pc : u.c.pc = s.c.pc)
    (h : (mems s).Ok → (mems u).Ok) : Good s (u.trap c d a) := good_raise _ g pc h

@[simp] theorem keep_check (t : Option Trap) (h : (mems s).Ok → (mems u).Ok) (k : Keep s r) : Keep s (u.check t r) := by
  cases t with
  | none => exact k
  | some t => exact keep_raise t h
@[simp] theorem good_check (t : Option Trap) (g : guard u = guard s) (pc : u.c.pc = s.c.pc) (h : (mems s).Ok → (mems u).Ok)
    (k : Good s r) : Good s (u.check t r) := by
  cases t with
  | none => exact k
  | some t => exact good_raise t g pc h

@[simp] theorem keep_classC (h : (mems s).Ok → (mems u).Ok) (k : Keep s r) : Keep s (u.classC r) := by
  unfold State.classC
  split
  · exact keep_trap _ _ _ h
  · exact k
@[simp] theorem good_classC (g : guard u = guard s) (pc : u.c.pc = s.c.pc) (h : (mems s).Ok → (mems u).Ok) (k : Good s r) :
    Good s (u.classC r) := by
  unfold State.classC
  split
  · exact good_trap _ _ _ g pc h
  · exact k

/-- In U mode a privileged instruction traps. -/
@[simp] theorem good_privC (k : Keep s r) : Good s (s.privC r) := by
  unfold State.privC
  split
  · next h => exact keep_of_svc h (keep_classC id k)
  · exact good_trap _ _ _ rfl rfl id

@[simp] theorem good_ite (c : Prop) [Decidable c] (a b : Result) :
    Good s (if c then a else b) ↔ (c → Good s a) ∧ (¬c → Good s b) := by
  split <;> simp_all
@[simp] theorem keep_ite (c : Prop) [Decidable c] (a b : Result) :
    Keep s (if c then a else b) ↔ (c → Keep s a) ∧ (¬c → Keep s b) := by
  split <;> simp_all

@[simp] theorem logRecord_c (a b : Nat) (w x y z : Word) : (s.logRecord a b w x y z).c = s.c := by
  unfold State.logRecord
  dsimp only
  split <;> rfl
@[simp] theorem logWords_c (m o n : Nat) (t : Word) : (s.logWords m o n t).c = s.c :=
  List.foldlRecOn _ _ (motive := fun u : State => u.c = s.c) rfl fun _ h _ _ => (logRecord_c ..).trans h

@[simp] theorem good_eccTrap (ea : Word) (m n : Nat) : Good s (s.eccTrap ea m n) := by
  simp [State.eccTrap]

@[simp] theorem good_access (ea : Word) (n : Nat) (st : Bool) (k : State → Result) (h : Good s (k s)) :
    Good s (s.access ea n st k) := by
  simp [State.access, h]
@[simp] theorem good_fabAddr (a : Word) (n m : Nat) (h : Good s r) : Good s (s.fabAddr a n m r) := by
  simp [State.fabAddr, h]
@[simp] theorem good_operand (b : Bool) (h : Good s r) : Good s (s.operand b r) := by
  simp [State.operand, h]

@[simp] theorem keep_eccTrap (ea : Word) (m n : Nat) : Keep s (s.eccTrap ea m n) := (good_eccTrap ea m n).1
@[simp] theorem keep_fabAddr (a : Word) (n m : Nat) (h : Keep s r) : Keep s (s.fabAddr a n m r) := by
  simp [State.fabAddr, h]
@[simp] theorem keep_operand (b : Bool) (h : Keep s r) : Keep s (s.operand b r) := by
  simp [State.operand, h]

theorem keep_privC (k : Keep s r) : Keep s (s.privC r) := (good_privC k).1

/-! The same of what an instruction passes before anything has changed. -/

theorem good_class (k : Good s r) : Good s (s.classC r) := good_classC rfl rfl id k
theorem good_chk (t : Option Trap) (k : Good s r) : Good s (s.check t r) := good_check t rfl rfl id k
theorem keep_class (k : Keep s r) : Keep s (s.classC r) := keep_classC id k
theorem keep_chk (t : Option Trap) (k : Keep s r) : Keep s (s.check t r) := keep_check t id k
end


end Sys2Proof.Proofs

namespace Sys2Proof.Proofs
open Machine

/-! # What each instruction keeps -/

/-! Machine/Scalar.lean. -/

@[simp] theorem good_execAdd (d a b : Reg) (s : State) : Good s (execAdd d a b s) := by simp [execAdd]
@[simp] theorem good_execSub (d a b : Reg) (s : State) : Good s (execSub d a b s) := by simp [execSub]
@[simp] theorem good_execAnd (d a b : Reg) (s : State) : Good s (execAnd d a b s) := by simp [execAnd]
@[simp] theorem good_execOr (d a b : Reg) (s : State) : Good s (execOr d a b s) := by simp [execOr]
@[simp] theorem good_execXor (d a b : Reg) (s : State) : Good s (execXor d a b s) := by simp [execXor]
@[simp] theorem good_execShl (d a b : Reg) (s : State) : Good s (execShl d a b s) := by simp [execShl]
@[simp] theorem good_execShr (d a b : Reg) (s : State) : Good s (execShr d a b s) := by simp [execShr]
@[simp] theorem good_execSra (d a b : Reg) (s : State) : Good s (execSra d a b s) := by simp [execSra]
@[simp] theorem good_execSlt (d a b : Reg) (s : State) : Good s (execSlt d a b s) := by simp [execSlt]
@[simp] theorem good_execSltu (d a b : Reg) (s : State) : Good s (execSltu d a b s) := by simp [execSltu]
@[simp] theorem good_execSeq (d a b : Reg) (s : State) : Good s (execSeq d a b s) := by simp [execSeq]
@[simp] theorem good_execSne (d a b : Reg) (s : State) : Good s (execSne d a b s) := by simp [execSne]
@[simp] theorem good_execMin (d a b : Reg) (s : State) : Good s (execMin d a b s) := by simp [execMin]
@[simp] theorem good_execMax (d a b : Reg) (s : State) : Good s (execMax d a b s) := by simp [execMax]
@[simp] theorem good_execMinu (d a b : Reg) (s : State) : Good s (execMinu d a b s) := by simp [execMinu]
@[simp] theorem good_execMaxu (d a b : Reg) (s : State) : Good s (execMaxu d a b s) := by simp [execMaxu]
@[simp] theorem good_execMul (d a b : Reg) (s : State) : Good s (execMul d a b s) := by simp [execMul]
@[simp] theorem good_execMulh (d a b : Reg) (s : State) : Good s (execMulh d a b s) := by simp [execMulh]
@[simp] theorem good_execMulhu (d a b : Reg) (s : State) : Good s (execMulhu d a b s) := by simp [execMulhu]
@[simp] theorem good_execDiv (d a b : Reg) (s : State) : Good s (execDiv d a b s) := by simp [execDiv]
@[simp] theorem good_execDivu (d a b : Reg) (s : State) : Good s (execDivu d a b s) := by simp [execDivu]
@[simp] theorem good_execRem (d a b : Reg) (s : State) : Good s (execRem d a b s) := by simp [execRem]
@[simp] theorem good_execRemu (d a b : Reg) (s : State) : Good s (execRemu d a b s) := by simp [execRemu]
@[simp] theorem good_execMadd (d a b c : Reg) (s : State) : Good s (execMadd d a b c s) := by simp [execMadd]
@[simp] theorem good_execClz (d a : Reg) (s : State) : Good s (execClz d a s) := by simp [execClz]
@[simp] theorem good_execCtz (d a : Reg) (s : State) : Good s (execCtz d a s) := by simp [execCtz]
@[simp] theorem good_execPopc (d a : Reg) (s : State) : Good s (execPopc d a s) := by simp [execPopc]
@[simp] theorem good_execSextB (d a : Reg) (s : State) : Good s (execSextB d a s) := by simp [execSextB]
@[simp] theorem good_execSextH (d a : Reg) (s : State) : Good s (execSextH d a s) := by simp [execSextH]
@[simp] theorem good_execZextB (d a : Reg) (s : State) : Good s (execZextB d a s) := by simp [execZextB]
@[simp] theorem good_execZextH (d a : Reg) (s : State) : Good s (execZextH d a s) := by simp [execZextH]
@[simp] theorem good_execSel (d a b c : Reg) (s : State) : Good s (execSel d a b c s) := by simp [execSel]
@[simp] theorem good_execAddi (d a : Reg) (imm : BitVec 26) (s : State) : Good s (execAddi d a imm s) := by simp [execAddi]
@[simp] theorem good_execAndi (d a : Reg) (imm : BitVec 26) (s : State) : Good s (execAndi d a imm s) := by simp [execAndi]
@[simp] theorem good_execOri (d a : Reg) (imm : BitVec 26) (s : State) : Good s (execOri d a imm s) := by simp [execOri]
@[simp] theorem good_execXori (d a : Reg) (imm : BitVec 26) (s : State) : Good s (execXori d a imm s) := by simp [execXori]
@[simp] theorem good_execSlti (d a : Reg) (imm : BitVec 26) (s : State) : Good s (execSlti d a imm s) := by simp [execSlti]
@[simp] theorem good_execSltiu (d a : Reg) (imm : BitVec 26) (s : State) : Good s (execSltiu d a imm s) := by simp [execSltiu]
@[simp] theorem good_execShli (d a : Reg) (n : BitVec 5) (s : State) : Good s (execShli d a n s) := by simp [execShli]
@[simp] theorem good_execShri (d a : Reg) (n : BitVec 5) (s : State) : Good s (execShri d a n s) := by simp [execShri]
@[simp] theorem good_execSrai (d a : Reg) (n : BitVec 5) (s : State) : Good s (execSrai d a n s) := by simp [execSrai]

/-! Machine/Banks.lean. -/

theorem moveOut_calm {usable inRange : Nat → Bool} {s t : State} {n : Fin 64} (h : State.moveOut usable inRange s n = some t) :
    Calm s t := by
  unfold State.moveOut at h
  dsimp only at h
  split at h
  · split at h
    · cases h
    · cases h
      simp
  · cases h
    exact calm_of rfl id
theorem moveAll_calm {usable inRange : Nat → Bool} (ns : List (Fin 64)) {s t : State} (h : State.moveAll usable inRange s ns = some t) :
    Calm s t := by
  induction ns generalizing s with
  | nil => cases h; exact calm_of rfl id
  | cons n ns ih =>
    unfold State.moveAll at h
    split at h
    · cases h
    · next u hu => exact calm_of ((ih h).1.trans (moveOut_calm hu).1) fun ok => (ih h).ok ((moveOut_calm hu).ok ok)
@[simp] theorem good_execAalloc (a b : Reg) (n : Nat) (s : State) : Good s (execAalloc a b n s) := by
  unfold execAalloc
  refine good_class ?_
  split
  · simp
  · split
    · simp
    · dsimp only
      split
      · simp
      · next t ht => exact good_result _ _ (by simp [(moveAll_calm _ ht).1]) fun ok => by simp [(moveAll_calm _ ht).ok ok]

@[simp] theorem good_execAfree (b : Reg) (n : Nat) (s : State) : Good s (execAfree b n s) := by simp [execAfree]
@[simp] theorem good_execAquery (a : Reg) (q : Fin 4) (s : State) : Good s (execAquery a q s) := by simp [execAquery]

@[simp] theorem good_execSpill (vec : Bool) (a : Reg) (s : State) : Good s (execSpill vec a s) := by
  unfold execSpill
  refine good_class ?_
  split
  · exact good_fin (by simp) (by simp +contextual)
  · split
    · simp
    · exact good_fin (by simp) (by simp +contextual)

@[simp] theorem good_execFill (vec : Bool) (a : Reg) (s : State) : Good s (execFill vec a s) := by simp [execFill]

/-! Machine/System.lean. -/

@[simp] theorem good_execTrap (a : Reg) (s : State) : Good s (execTrap a s) := by simp [execTrap]
@[simp] theorem good_execEret (s : State) : Good s (execEret s) := by simp [execEret]

@[simp] theorem good_execHalt (s : State) : Good s (execHalt s) := by
  have h : Good s (.next s.halted) := good_of_calm (by simp) (by simp)
  simp [execHalt, h]

@[simp] theorem good_execSnap (d : Reg) (s : State) : Good s (execSnap d s) := by
  refine good_privC ?_
  generalize s.c.pend = p
  cases p with
  | snap o =>
    cases o with
    | none => exact keep_wait id
    | some n => exact keep_result _ _ id
  | _ => exact keep_waitAt _ fun ok => (trigger_frame s).2 ▸ ok

@[simp] theorem good_execFence (s : State) : Good s (execFence s) := by simp [execFence]
@[simp] theorem good_execEvwr (a b : Reg) (s : State) : Good s (execEvwr a b s) := by simp [execEvwr]

/-! Machine/Fabric.lean. -/

@[simp] theorem good_execWreg (d a : Reg) (s : State) : Good s (execWreg d a s) := by
  unfold execWreg
  refine good_privC (keep_fabAddr _ _ _ ?_)
  simp

@[simp] theorem good_execWdereg (d a : Reg) (s : State) : Good s (execWdereg d a s) := by
  unfold execWdereg
  extract_lets n
  split
  · split <;> simp
  · refine good_operand _ (good_privC ?_)
    split
    · simp
    · split_ifs <;> simp +contextual

theorem good_fabRequest (s : State) (d a : Reg) (kind : FabKind) (k : State → FabOp → State) (h : ∀ o, Calm s (k s o)) :
    Good s (s.fabRequest d a kind k) := by
  unfold State.fabRequest
  refine good_class (good_chk _ (good_chk _ ?_))
  split
  · simp
  · split
    · simp
    · split
      · simp
      · exact good_result _ _ (by simp [(h _).1]) fun ok => by simp [(h _).ok ok]

@[simp] theorem good_execWput (d a : Reg) (s : State) : Good s (execWput d a s) :=
  good_fabRequest _ _ _ _ _ fun _ => calm_of (by simp) (by simp +contextual)

@[simp] theorem good_execWget (d a : Reg) (s : State) : Good s (execWget d a s) :=
  good_fabRequest _ _ _ _ _ fun _ => newOp_calm ..

@[simp] theorem good_execWrtr (d a : Reg) (s : State) : Good s (execWrtr d a s) :=
  good_fabRequest _ _ _ _ _ fun _ => allowPut_calm ..

@[simp] theorem good_execWcnt (d a b : Reg) (s : State) : Good s (execWcnt d a b s) := by
  unfold execWcnt
  refine good_operand _ (good_class ?_)
  simp

@[simp] theorem good_execWwait (d a b : Reg) (s : State) : Good s (execWwait d a b s) := by
  unfold execWwait
  refine good_operand _ (good_class ?_)
  repeat' split
  all_goals simp

/-! Machine/Links.lean. -/

theorem keep_inTurn (s : State) (k : State → Result) (h : ∀ u, mems u = mems s → Keep s (k u)) : Keep s (s.inTurn k) := by
  unfold State.inTurn
  extract_lets mine first
  split
  · exact h _ rfl
  · split <;> simp

@[simp] theorem keep_turnOver {s u : State} (d : Reg) (x : Nat) (h : (mems s).Ok → (mems u).Ok) : Keep s (u.turnOver d x) :=
  keep_result _ _ fun ok => by simp [h ok]
theorem good_turnOver {s u : State} (d : Reg) (x : Nat) (g : guard u = guard s) (h : (mems s).Ok → (mems u).Ok) :
    Good s (u.turnOver d x) :=
  good_result _ _ (by simp [g]) fun ok => by simp [h ok]

theorem good_endCommit {s u : State} (d : Reg) (x : Nat) (g : guard u = guard s) (h : (mems s).Ok → (mems u).Ok) :
    Good s (u.endCommit d x) := good_turnOver _ _ (by simp [g]) (by simpa using h)
theorem keep_endCommit {s u : State} (d : Reg) (x : Nat) (h : (mems s).Ok → (mems u).Ok) : Keep s (u.endCommit d x) :=
  keep_turnOver _ _ h

@[simp] theorem good_execTvget (d a : Reg) (s : State) : Good s (execTvget d a s) := by
  unfold execTvget
  refine good_operand _ (good_class ?_)
  split <;> simp

@[simp] theorem good_execTvstage (d a : Reg) (s : State) : Good s (execTvstage d a s) :=
  good_privC (keep_fabAddr _ _ _ (keep_fabAddr _ _ _ (keep_inTurn _ _ fun u hu => keep_turnOver _ _ (by simp [hu]))))

@[simp] theorem good_execTvcommit (d a : Reg) (s : State) : Good s (execTvcommit d a s) := by
  unfold execTvcommit
  split
  · split
    · exact good_endCommit _ _ (by simp) (by simp +contextual)
    · simp
  · refine good_operand _ (good_privC (keep_inTurn _ _ fun u hu => ?_))
    extract_lets v u
    split
    · simp [u, hu]
    · extract_lets t
      have ht : (mems s).Ok → (mems t).Ok := fun ok => by simp [t, u, hu, ok]
      split
      · exact keep_turnOver _ _ fun ok => by simp [ht ok]
      · exact keep_waitAt _ ht

@[simp] theorem keep_drainWait {s u : State} (d : Reg) (ps : List (Fin 32)) (b : Bool) (h : (mems s).Ok → (mems u).Ok) :
    Keep s (u.drainWait d ps b) := by
  unfold State.drainWait
  dsimp only
  split
  · exact keep_result _ _ fun ok => by simp [h ok]
  · split
    · exact keep_waitAt _ fun ok => by simp [h ok]
    · exact keep_wait fun ok => by simp [h ok]

@[simp] theorem keep_fecWait {s u : State} (d : Reg) (ps : List (Fin 32)) (b : Bool) (h : (mems s).Ok → (mems u).Ok) :
    Keep s (u.fecWait d ps b) := by
  unfold State.fecWait
  split
  · exact keep_result _ _ h
  · split
    · exact keep_waitAt _ h
    · exact keep_wait h

@[simp] theorem keep_retrainWait {s u : State} (d : Reg) (ps : List (Fin 32)) (b : Bool) (h : (mems s).Ok → (mems u).Ok) :
    Keep s (u.retrainWait d ps b) := by
  unfold State.retrainWait
  split
  · exact keep_result _ _ h
  · split
    · exact keep_waitAt _ h
    · exact keep_wait h

@[simp] theorem good_drainOp (s : State) (d a b : Reg) : Good s (s.drainOp d a b) := by
  unfold State.drainOp
  refine good_operand _ (good_privC ?_)
  split
  · simp
  · split
    · split
      · simp
      · split <;> simp
    · split
      · simp
      · split <;> simp
    · split <;> simp
    · exact keep_result _ _ (by simp +contextual)

@[simp] theorem good_execDrain (d a b : Reg) (s : State) : Good s (execDrain d a b s) := good_drainOp ..

@[simp] theorem good_execLnkstat (d a : Reg) (s : State) : Good s (execLnkstat d a s) := by
  unfold execLnkstat
  refine good_operand _ (good_class ?_)
  simp

/-! Machine/Copy.lean. -/

@[simp] theorem good_execCpush (a : Reg) (s : State) : Good s (execCpush a s) := by
  unfold execCpush
  split
  · simp
  · refine good_class (good_chk _ ?_)
    split <;> simp

@[simp] theorem good_execCpushnb (d a : Reg) (s : State) : Good s (execCpushnb d a s) := by
  unfold execCpushnb
  split
  · simp
  · refine good_class (good_chk _ ?_)
    split <;> simp

@[simp] theorem good_execCfree (d : Reg) (s : State) : Good s (execCfree d s) := by simp [execCfree]
@[simp] theorem good_execCfence (s : State) : Good s (execCfence s) := by simp [execCfence]

@[simp] theorem good_execCset (n : Fin 3) (a b : Reg) (s : State) : Good s (execCset n a b s) := by
  unfold execCset
  refine good_class ?_
  split <;> simp

@[simp] theorem good_execCget (d : Reg) (n : Fin 4) (h : Bool) (s : State) : Good s (execCget d n h s) := by simp [execCget]

/-! Machine/Csr.lean. -/

@[simp] theorem good_csrRead (s : State) (d : Reg) (n : Csr) : Good s (s.csrRead d n) := by simp [State.csrRead]

/-- The registers that U mode writes are none of those that S mode alone writes. -/
theorem guard_csrPut_user {n : Csr} (h : Csr.userWrites n = true) (s : State) (x : Word) : guard (s.csrPut n x) = guard s := by
  cases n with
  | fmode | sbase | vpcfg | ecfg => rfl
  | _ => cases h
theorem csrTrap_user {s : State} {n : Csr} (hs : s.svc = false) (hn : Csr.userWrites n = false) : ∃ t, s.csrTrap n true = some t := by
  cases h : Csr.readOnly n <;> cases h' : Csr.hidden n <;> simp [State.csrTrap, hs, hn, h, h']
@[simp] theorem good_csrWrite (s : State) (n : Csr) (f : Word → Word) : Good s (s.csrWrite n f) := by
  unfold State.csrWrite
  cases hs : s.svc with
  | true => exact keep_of_svc hs (keep_chk _ (keep_class (by simp)))
  | false =>
    cases hn : Csr.userWrites n with
    | true => exact good_chk _ (good_class (good_fin (guard_csrPut_user hn _ _) (by simp)))
    | false =>
      obtain ⟨t, ht⟩ := csrTrap_user hs hn
      rw [ht]
      exact good_raise _ rfl rfl id

@[simp] theorem good_execCsrr (d : Reg) (n : Csr) (s : State) : Good s (execCsrr d n s) := by simp [execCsrr]
@[simp] theorem good_execCsrw (n : Csr) (a : Reg) (s : State) : Good s (execCsrw n a s) := by simp [execCsrw]
@[simp] theorem good_execCsrs (n : Csr) (a : Reg) (s : State) : Good s (execCsrs n a s) := by simp [execCsrs]
@[simp] theorem good_execCsrc (n : Csr) (a : Reg) (s : State) : Good s (execCsrc n a s) := by simp [execCsrc]

/-! Machine/Image.lean. -/

@[simp] theorem good_execXload (d a : Reg) (s : State) : Good s (execXload d a s) := by
  unfold execXload
  refine good_privC (keep_chk _ ?_)
  split <;> simp

/-! Machine/Optics.lean. -/

@[simp] theorem good_execLgrant (d a : Reg) (s : State) : Good s (execLgrant d a s) := by
  unfold execLgrant
  split
  · dsimp only
    split <;> exact good_of_calm (by simp) (by simp)
  · refine good_class (good_chk _ (good_chk _ ?_))
    dsimp only
    split_ifs <;> simp

@[simp] theorem good_execLrelease (a : Reg) (s : State) : Good s (execLrelease a s) := by
  unfold execLrelease
  split
  · split <;> exact good_of_calm (by simp) (by simp)
  · refine good_class ?_
    split <;> simp

@[simp] theorem good_execLstat (d a : Reg) (s : State) : Good s (execLstat d a s) := by simp [execLstat]

@[simp] theorem good_execLmargin (d a : Reg) (s : State) : Good s (execLmargin d a s) := by
  unfold execLmargin
  refine good_class ?_
  split <;> simp

@[simp] theorem good_execLmode (d a b : Reg) (s : State) : Good s (execLmode d a b s) := by
  unfold execLmode
  split
  · split <;> exact good_of_calm (by simp) (by simp)
  · refine good_class ?_
    split <;> simp

/-! Machine/Sync.lean. -/

@[simp] theorem good_execBarm (a : Reg) (n : BarName) (s : State) : Good s (execBarm a n s) := by simp [execBarm]
@[simp] theorem good_execBarr (n : BarName) (s : State) : Good s (execBarr n s) := by simp [execBarr]
@[simp] theorem good_execBwait (a : Reg) (n : BarName) (s : State) : Good s (execBwait a n s) := by simp [execBwait]
@[simp] theorem good_execBtest (a : Reg) (n : BarName) (s : State) : Good s (execBtest a n s) := by simp [execBtest]
@[simp] theorem good_execBstat (a : Reg) (n : BarName) (s : State) : Good s (execBstat a n s) := by simp [execBstat]
@[simp] theorem good_execBexp (a : Reg) (n : BarName) (s : State) : Good s (execBexp a n s) := by simp [execBexp]
@[simp] theorem good_execBinv (n : BarName) (s : State) : Good s (execBinv n s) := by simp [execBinv]
@[simp] theorem good_execWmsg (d : Reg) (s : State) : Good s (execWmsg d s) := by simp [execWmsg]
@[simp] theorem good_execRmsg (d a : Reg) (s : State) : Good s (execRmsg d a s) := by simp [execRmsg]
@[simp] theorem good_execMcnt (d : Reg) (s : State) : Good s (execMcnt d s) := by simp [execMcnt]
@[simp] theorem good_execMsend (a b : Reg) (s : State) : Good s (execMsend a b s) := by simp [execMsend]

@[simp] theorem good_execMonn (d a : Reg) (s : State) : Good s (execMonn d a s) := by
  unfold execMonn
  refine good_class (good_chk _ ?_)
  split <;> simp

@[simp] theorem good_execWaita (d a : Reg) (s : State) : Good s (execWaita d a s) := by
  unfold execWaita
  refine good_class (good_chk _ ?_)
  split <;> simp

@[simp] theorem good_execClra (a : Reg) (s : State) : Good s (execClra a s) := by
  unfold execClra
  refine good_class (good_chk _ ?_)
  split <;> simp

/-! Machine/Matrix.lean. -/

@[simp] theorem good_mxIssue (s : State) (i : Instr) : Good s (s.mxIssue i) := by
  unfold State.mxIssue
  refine good_class (good_chk _ ?_)
  split
  · simp
  · split
    · simp
    · simp
    · refine good_chk _ ?_
      split <;> simp

@[simp] theorem good_execMma (acc : AccType) (d : Reg) (a b : HReg) (s : State) : Good s (execMma acc d a b s) := good_mxIssue _ _
@[simp] theorem good_execMmai (sat ua ub : Bool) (d : Reg) (a b : HReg) (s : State) :
    Good s (execMmai sat ua ub d a b s) := good_mxIssue _ _
@[simp] theorem good_execMzero (acc : AccType) (d : Reg) (s : State) : Good s (execMzero acc d s) := good_mxIssue _ _
@[simp] theorem good_execMload (acc : AccType) (bc : Bool) (d a : Reg) (s : State) :
    Good s (execMload acc bc d a s) := good_mxIssue _ _
@[simp] theorem good_execMdrain (acc : AccType) (d a : Reg) (s : State) : Good s (execMdrain acc d a s) := good_mxIssue _ _
@[simp] theorem good_execMdrq (o : DrqType) (d a b : Reg) (s : State) : Good s (execMdrq o d a b s) := good_mxIssue _ _
@[simp] theorem good_execMrsum (sat u : Bool) (d : Reg) (a : HReg) (b : Reg) (s : State) :
    Good s (execMrsum sat u d a b s) := good_mxIssue _ _
@[simp] theorem good_execMcsum (sat u : Bool) (d : Reg) (a : HReg) (b : Reg) (s : State) :
    Good s (execMcsum sat u d a b s) := good_mxIssue _ _
@[simp] theorem good_execMwait (d : Reg) (s : State) : Good s (execMwait d s) := by simp [execMwait]
@[simp] theorem good_execMgang (n : Fin 3) (s : State) : Good s (execMgang n s) := by simp [execMgang]

/-- MODE is bit 0 of c.status; the gang's bits are others. -/
theorem guard_status {u : State} {w : Word} (h : w.getLsbD 0 = u.c.status.getLsbD 0) :
    guard { u with c := { u.c with status := w } } = guard u :=
  congrArg (fun b => { guard u with c := { (guard u).c with svc := b } }) h
@[simp] theorem good_execMfollow (s : State) : Good s (execMfollow s) := by
  unfold execMfollow
  extract_lets ps bit
  split
  · simp
  · refine good_class ?_
    split
    · simp
    · have hb : bit.getLsbD 0 = false := by unfold bit; split <;> rfl
      have hs : (s.adv.c.status ||| bit).getLsbD 0 = s.adv.c.status.getLsbD 0 := by rw [BitVec.getLsbD_or, hb, Bool.or_false]
      refine good_next (fun hu => (guard_status hs).trans (guard_adv s hu)) fun ok => ?_
      have ha : (mems s.adv).Ok := by simp [ok]
      exact { ha with }

@[simp] theorem good_execMunfollow (a : Reg) (s : State) : Good s (execMunfollow a s) := by
  unfold execMunfollow
  split
  · refine good_class ?_
    split
    · simp
    · exact good_of_calm (by simp) (by simp)
  · split
    · simp
    · exact good_class (good_fin (by simp) (by simp))

/-! Machine/Exchange.lean. -/

/-- An exchange instruction passes to its offset first; a trap that it then raises still names its own pc. -/
theorem good_exchangeAt (s : State) (off : Nat) (addr : Option (Word × Nat)) (fits : Slot → Bool) (act : State → State)
    (h : ∀ u, Calm s u → Calm s (act u)) : Good s (s.exchangeAt off addr fits act) := by
  unfold State.exchangeAt
  split
  · simp
  · refine good_chk _ ?_
    split
    · simp
    · split
      · exact good_trap _ _ _ (by simp) rfl (by simp)
      · extract_lets u e w
        have hw : Calm s w := calm_of (by simp [w, e, u]) (by simp [w, e, u])
        split
        · exact good_fin (h w hw).1 (h w hw).ok
        · exact good_trap _ _ _ hw.1 rfl hw.ok

@[simp] theorem good_execXsend (cls : Fin 8) (a : Reg) (off : BitVec 13) (s : State) : Good s (execXsend cls a off s) :=
  good_exchangeAt _ _ _ _ _ fun u hu => calm_of (by simp [hu.1]) fun ok => by simp [hu.ok ok]

@[simp] theorem good_execXrecv (cls : Fin 8) (a : Reg) (off : BitVec 13) (s : State) : Good s (execXrecv cls a off s) :=
  good_exchangeAt _ _ _ _ _ fun u hu => calm_of (by simp [hu.1]) fun ok => by simp [hu.ok ok]

@[simp] theorem good_execXrecva (ty : ElemType) (op : CombOp) (sat : Bool) (cls : Fin 8) (a : Reg) (off : BitVec 13) (s : State) :
    Good s (execXrecva ty op sat cls a off s) :=
  good_exchangeAt _ _ _ _ _ fun u hu => calm_of (by simp [hu.1]) fun ok => by simp [hu.ok ok]

@[simp] theorem good_execXmc (lane : Fin 4) (cls : Fin 8) (a : Reg) (off : BitVec 13) (s : State) :
    Good s (execXmc lane cls a off s) :=
  good_exchangeAt _ _ _ _ _ fun u hu => calm_of (by simp [hu.1]) fun ok => by simp [hu.ok ok]

@[simp] theorem good_execXsel (port : Fin 5) (off : BitVec 13) (s : State) : Good s (execXsel port off s) :=
  good_exchangeAt _ _ _ _ _ fun u hu => calm_of (by simp [hu.1]) fun ok => by simp [hu.ok ok]

@[simp] theorem good_execXend (off : BitVec 13) (s : State) : Good s (execXend off s) := by
  unfold execXend
  extract_lets o
  split
  · simp
  · split
    · simp
    · split
      · exact good_trap _ _ _ (by simp) rfl (by simp)
      · split <;> simp

/-! Machine/Trees.lean. -/

@[simp] theorem good_syncOn (s : State) (g : Tree) (seg : Nat) : Good s (s.syncOn g seg) := by simp +contextual [State.syncOn]
@[simp] theorem good_execSync (a : Reg) (s : State) : Good s (execSync a s) := by simp [execSync]
@[simp] theorem good_execLsync (g : Tree) (a : Reg) (s : State) : Good s (execLsync g a s) := by simp [execLsync]

@[simp] theorem good_execArrive (g : Tree) (s : State) : Good s (execArrive g s) := by
  unfold execArrive
  refine good_chk _ (good_class ?_)
  split <;> simp

@[simp] theorem good_execAwait (g : Tree) (s : State) : Good s (execAwait g s) := by
  unfold execAwait
  split
  · split <;> simp
  · refine good_chk _ ?_
    split
    · simp
    · refine good_class ?_
      split <;> simp

@[simp] theorem good_execDom (g : Tree) (a b : Reg) (s : State) : Good s (execDom g a b s) := by simp [execDom]
@[simp] theorem good_execPhaseQuery (d a : Reg) (s : State) : Good s (execPhaseQuery d a s) := by simp [execPhaseQuery]

theorem good_reduce (s : State) (g : Tree) (con : RedContrib) (out : State → List Word → Word → State)
    (h : ∀ l w, Frame s (out s l w)) : Good s (s.reduce g con out) := by
  unfold State.reduce
  split
  · exact good_fin (h _ _).1 (by simp [(h _ _).2])
  · simp
  · split
    · simp
    · exact good_class (by simp)

theorem good_reduceLanesOn (s : State) (op : RedOp) (t : ElemType) (sat : Bool) (d a : Reg) (g : Tree) (c : Reg) (n : Fin 16) :
    Good s (s.reduceLanesOn op t sat d a g c n) := by
  unfold State.reduceLanesOn
  exact good_reduce _ _ _ _ fun _ _ => by simp

@[simp] theorem good_execRedAdd (t : ElemType) (sat : Bool) (d a : Reg) (g : Tree) (c : Reg) (n : Fin 16) (s : State) :
    Good s (execRedAdd t sat d a g c n s) := good_reduceLanesOn ..

@[simp] theorem good_execRedMax (t : ElemType) (sat : Bool) (d a : Reg) (g : Tree) (c : Reg) (n : Fin 16) (s : State) :
    Good s (execRedMax t sat d a g c n s) := good_reduceLanesOn ..

@[simp] theorem good_execRedMin (t : ElemType) (sat : Bool) (d a : Reg) (g : Tree) (c : Reg) (n : Fin 16) (s : State) :
    Good s (execRedMin t sat d a g c n s) := good_reduceLanesOn ..

@[simp] theorem good_execRedAnd (t : ElemType) (sat : Bool) (d a : Reg) (g : Tree) (c : Reg) (n : Fin 16) (s : State) :
    Good s (execRedAnd t sat d a g c n s) := good_reduceLanesOn ..

@[simp] theorem good_execRedOr (t : ElemType) (sat : Bool) (d a : Reg) (g : Tree) (c : Reg) (n : Fin 16) (s : State) :
    Good s (execRedOr t sat d a g c n s) := good_reduceLanesOn ..

@[simp] theorem good_execRedBar (g : Tree) (s : State) : Good s (execRedBar g s) := good_reduce _ _ _ _ fun _ _ => ⟨rfl, rfl⟩

/-! Machine/Coll.lean. -/

@[simp] theorem good_execCstep (d a : Reg) (s : State) : Good s (execCstep d a s) := by
  unfold execCstep
  refine good_class (good_fabAddr _ _ _ ?_)
  simp

@[simp] theorem good_execCstat (d a : Reg) (s : State) : Good s (execCstat d a s) := by
  unfold execCstat
  refine good_operand _ (good_class ?_)
  simp

@[simp] theorem good_execCresume (d a b : Reg) (s : State) : Good s (execCresume d a b s) := by
  unfold execCresume
  refine good_operand _ (good_privC ?_)
  simp

/-! Machine/Control.lean. -/

/-- Control that goes elsewhere stops the loop of its mode, and touches nothing else. -/
theorem good_transfer (s : State) (t : Word) (link : State → State) (h : Frame s (link s)) : Good s (s.transfer t link) := by
  unfold State.transfer
  split_ifs
  · simp
  · simp
  · exact good_next (fun hu => (guard_jumpTo _ _ ((svc_of_guard h.1).trans hu)).trans h.1) (by simp [h.2])

@[simp] theorem good_branch (s : State) (b : Bool) (off : BitVec 26) : Good s (s.branch b off) := by
  unfold State.branch
  split
  · exact good_transfer _ _ _ ⟨rfl, rfl⟩
  · simp

@[simp] theorem good_execBz (a : Reg) (off : BitVec 26) (s : State) : Good s (execBz a off s) := by simp [execBz]
@[simp] theorem good_execBnz (a : Reg) (off : BitVec 26) (s : State) : Good s (execBnz a off s) := by simp [execBnz]
@[simp] theorem good_execBltz (a : Reg) (off : BitVec 26) (s : State) : Good s (execBltz a off s) := by simp [execBltz]
@[simp] theorem good_execBgez (a : Reg) (off : BitVec 26) (s : State) : Good s (execBgez a off s) := by simp [execBgez]
@[simp] theorem good_execBgtz (a : Reg) (off : BitVec 26) (s : State) : Good s (execBgtz a off s) := by simp [execBgtz]
@[simp] theorem good_execBlez (a : Reg) (off : BitVec 26) (s : State) : Good s (execBlez a off s) := by simp [execBlez]
@[simp] theorem good_execJ (off : BitVec 31) (s : State) : Good s (execJ off s) := good_transfer _ _ _ ⟨rfl, rfl⟩
@[simp] theorem good_execJal (off : BitVec 31) (s : State) : Good s (execJal off s) := good_transfer _ _ _ (link_frame s)
@[simp] theorem good_execJr (a : Reg) (s : State) : Good s (execJr a s) := good_transfer _ _ _ ⟨rfl, rfl⟩
@[simp] theorem good_execJalr (a : Reg) (s : State) : Good s (execJalr a s) := good_transfer _ _ _ (link_frame s)

@[simp] theorem good_execLoop (a : Reg) (e : BitVec 26) (s : State) : Good s (execLoop a e s) := by
  unfold execLoop
  dsimp only
  split_ifs
  · simp
  · simp
  · simp
  · exact good_next (by simp) (by simp)
  · exact good_next (fun hu => by simp [hu]) (by simp)

/-! Machine/Handles.lean. -/

@[simp] theorem good_execHset (d : HReg) (a : Reg) (s : State) : Good s (execHset d a s) := by
  unfold execHset
  refine good_class (good_chk _ ?_)
  split <;> simp

@[simp] theorem good_execHget (d : Reg) (a : HReg) (sel : Fin 8) (s : State) : Good s (execHget d a sel s) := by simp [execHget]

@[simp] theorem good_handleWait (s : State) (d : HReg) (n present : Nat) (able : Bool) :
    Good s (s.handleWait d n present able) := by
  simp [State.handleWait]

@[simp] theorem good_handleAdvance (s : State) (d : HReg) (n m : Nat) (t : State) (h : Frame s t) :
    Good s (s.handleAdvance d n m t) := by
  simp [State.handleAdvance, h.1, h.2]

@[simp] theorem good_execHwaitf (d : HReg) (a : Reg) (s : State) : Good s (execHwaitf d a s) := by simp [execHwaitf]
@[simp] theorem good_execHwaite (d : HReg) (a : Reg) (s : State) : Good s (execHwaite d a s) := by simp [execHwaite]
@[simp] theorem good_execHadvc (d : HReg) (a : Reg) (s : State) : Good s (execHadvc d a s) := by simp [execHadvc]
@[simp] theorem good_execHadvp (d : HReg) (a : Reg) (s : State) : Good s (execHadvp d a s) := by simp [execHadvp]
@[simp] theorem good_execHreset (d : HReg) (s : State) : Good s (execHreset d s) := by simp [execHreset]

/-! Machine/Head.lean. -/

theorem good_withState (s : State) (b : Nat) (k : DirEntry → Result) (h : ∀ e, Good s (k e)) : Good s (s.withState b k) := by
  unfold State.withState
  split
  · exact h _
  · simp

@[simp] theorem good_headQueue {s u : State} (q : HeadOp) (g : guard u = guard s) (h : (mems s).Ok → (mems u).Ok) :
    Good s (u.headQueue q) := by
  unfold State.headQueue
  split
  · exact good_wait g h
  · exact good_fin (by simp [g]) (by simpa using h)

theorem good_spillCheck (s : State) (q : HeadOp) (b : Bool) (k : Result) (h : Good s k) : Good s (s.spillCheck q b k) := by
  unfold State.spillCheck
  split
  · exact h
  · split
    · simp
    · split
      · simp
      · exact h

@[simp] theorem good_execVpinit (d a b : Reg) (s : State) : Good s (execVpinit d a b s) := by
  unfold execVpinit
  split
  · simp
  · refine good_class ?_
    split
    · simp
    · split
      · simp
      · exact good_headQueue _ (by simp) (by simp)

@[simp] theorem good_execVplabel (d a : Reg) (s : State) : Good s (execVplabel d a s) :=
  good_withState _ _ _ fun _ => good_class (good_chk _ (good_headQueue _ rfl id))

@[simp] theorem good_execVpfold (d a b : Reg) (s : State) : Good s (execVpfold d a b s) := by
  refine good_withState _ _ _ fun e => ?_
  split
  · simp
  · split
    · simp
    · exact good_class (good_chk _ (good_spillCheck _ _ _ _ (good_headQueue _ rfl id)))

@[simp] theorem good_execVpmerge (d a : Reg) (s : State) : Good s (execVpmerge d a s) :=
  good_withState _ _ _ fun _ => good_class (good_chk _ (good_spillCheck _ _ _ _ (good_headQueue _ rfl id)))

@[simp] theorem good_execVpread (d a : Reg) (s : State) : Good s (execVpread d a s) :=
  good_withState _ _ _ fun _ => good_class (good_chk _ (good_headQueue _ rfl id))

@[simp] theorem good_execVpregen (d a b : Reg) (s : State) : Good s (execVpregen d a b s) := by
  unfold execVpregen
  split
  · simp
  · exact good_class (good_chk _ (good_chk _ (good_chk _ (good_headQueue _ rfl id))))

@[simp] theorem good_execVpspill (a : Reg) (s : State) : Good s (execVpspill a s) := by
  unfold execVpspill
  split
  · simp
  · refine good_withState _ _ _ fun e => good_class (good_chk _ ?_)
    split
    · simp
    · split
      · simp
      · exact good_chk _ (good_fin (by simp) (by simp +contextual))

@[simp] theorem good_execVpstat (d : Reg) (s : State) : Good s (execVpstat d s) := by simp [execVpstat]

/-! Machine/LoadStore.lean. -/

@[simp] theorem good_load (s : State) (d : Reg) (ea : Word) (size : Nat) (ext : Nat → Word) : Good s (s.load d ea size ext) := by
  simp [State.load]

@[simp] theorem good_store (s : State) (d : Reg) (ea : Word) (size : Nat) : Good s (s.store d ea size) := by
  simp +contextual [State.store]

@[simp] theorem good_execLdW (d a : Reg) (imm : BitVec 26) (s : State) : Good s (execLdW d a imm s) := by simp [execLdW]
@[simp] theorem good_execStW (d a : Reg) (imm : BitVec 26) (s : State) : Good s (execStW d a imm s) := by simp [execStW]
@[simp] theorem good_execLdB (d a b : Reg) (s : State) : Good s (execLdB d a b s) := by simp [execLdB]
@[simp] theorem good_execLdBu (d a b : Reg) (s : State) : Good s (execLdBu d a b s) := by simp [execLdBu]
@[simp] theorem good_execLdH (d a b : Reg) (s : State) : Good s (execLdH d a b s) := by simp [execLdH]
@[simp] theorem good_execLdHu (d a b : Reg) (s : State) : Good s (execLdHu d a b s) := by simp [execLdHu]
@[simp] theorem good_execLdWx (d a b : Reg) (s : State) : Good s (execLdWx d a b s) := by simp [execLdWx]
@[simp] theorem good_execStB (d a b : Reg) (s : State) : Good s (execStB d a b s) := by simp [execStB]
@[simp] theorem good_execStH (d a b : Reg) (s : State) : Good s (execStH d a b s) := by simp [execStH]
@[simp] theorem good_execStWx (d a b : Reg) (s : State) : Good s (execStWx d a b s) := by simp [execStWx]

/-! Machine/Vector.lean. -/

@[simp] theorem good_execVadd (t : ElemType) (d a b : Reg) (m : VMod) (s : State) : Good s (execVadd t d a b m s) := by
  simp [execVadd]

@[simp] theorem good_execVsub (t : ElemType) (d a b : Reg) (m : VMod) (s : State) : Good s (execVsub t d a b m s) := by
  simp [execVsub]

@[simp] theorem good_execVmul (t : ElemType) (d a b : Reg) (m : VMod) (s : State) : Good s (execVmul t d a b m s) := by
  simp [execVmul]

@[simp] theorem good_execVmin (t : ElemType) (d a b : Reg) (m : VMod) (s : State) : Good s (execVmin t d a b m s) := by
  simp [execVmin]

@[simp] theorem good_execVmax (t : ElemType) (d a b : Reg) (m : VMod) (s : State) : Good s (execVmax t d a b m s) := by
  simp [execVmax]

@[simp] theorem good_execVand (t : ElemType) (d a b : Reg) (m : VMod) (s : State) : Good s (execVand t d a b m s) := by
  simp [execVand]

@[simp] theorem good_execVor (t : ElemType) (d a b : Reg) (m : VMod) (s : State) : Good s (execVor t d a b m s) := by simp [execVor]

@[simp] theorem good_execVxor (t : ElemType) (d a b : Reg) (m : VMod) (s : State) : Good s (execVxor t d a b m s) := by
  simp [execVxor]

@[simp] theorem good_execVfma (t : ElemType) (d a b c : Reg) (m : VMod) (s : State) : Good s (execVfma t d a b c m s) := by
  simp [execVfma]

@[simp] theorem good_execVabs (t : ElemType) (d a : Reg) (m : VMod) (s : State) : Good s (execVabs t d a m s) := by simp [execVabs]
@[simp] theorem good_execVneg (t : ElemType) (d a : Reg) (m : VMod) (s : State) : Good s (execVneg t d a m s) := by simp [execVneg]

@[simp] theorem good_execVshl (t : ElemType) (d a b : Reg) (m : VMod) (s : State) : Good s (execVshl t d a b m s) := by
  simp [execVshl]

@[simp] theorem good_execVshr (t : ElemType) (d a b : Reg) (m : VMod) (s : State) : Good s (execVshr t d a b m s) := by
  simp [execVshr]

@[simp] theorem good_execVsra (t : ElemType) (d a b : Reg) (m : VMod) (s : State) : Good s (execVsra t d a b m s) := by
  simp [execVsra]

@[simp] theorem good_execVsel (t : ElemType) (d a b : Reg) (c : KReg) (s : State) : Good s (execVsel t d a b c s) := by
  simp [execVsel]

@[simp] theorem good_execVcmpeq (t : ElemType) (d : KReg) (a b : Reg) (m : VMod) (s : State) : Good s (execVcmpeq t d a b m s) := by
  simp [execVcmpeq]

@[simp] theorem good_execVcmplt (t : ElemType) (d : KReg) (a b : Reg) (m : VMod) (s : State) : Good s (execVcmplt t d a b m s) := by
  simp [execVcmplt]

@[simp] theorem good_execVcmple (t : ElemType) (d : KReg) (a b : Reg) (m : VMod) (s : State) : Good s (execVcmple t d a b m s) := by
  simp [execVcmple]

@[simp] theorem good_execVexp (t : ElemType) (d a : Reg) (m : VMod) (s : State) : Good s (execVexp t d a m s) := by simp [execVexp]
@[simp] theorem good_execVrcp (t : ElemType) (d a : Reg) (m : VMod) (s : State) : Good s (execVrcp t d a m s) := by simp [execVrcp]

@[simp] theorem good_execVrsqrt (t : ElemType) (d a : Reg) (m : VMod) (s : State) : Good s (execVrsqrt t d a m s) := by
  simp [execVrsqrt]

@[simp] theorem good_execVsat (t : ElemType) (d a b : Reg) (m : VMod) (s : State) : Good s (execVsat t d a b m s) := by
  simp [execVsat]

@[simp] theorem good_execVcvt (td ts : ElemType) (sat : Bool) (d a : Reg) (s : State) : Good s (execVcvt td ts sat d a s) := by
  simp [execVcvt]

@[simp] theorem good_execVpack (td ts : ElemType) (sat : Bool) (d a b : Reg) (s : State) :
    Good s (execVpack td ts sat d a b s) := by
  simp [execVpack]

@[simp] theorem good_execVunpack (td ts : ElemType) (sat : Bool) (d a : Reg) (h : Bool) (s : State) :
    Good s (execVunpack td ts sat d a h s) := by
  simp [execVunpack]

@[simp] theorem good_execVshuf (t : ElemType) (d a b : Reg) (m : VMod) (s : State) : Good s (execVshuf t d a b m s) := by
  simp [execVshuf]

@[simp] theorem good_execVbcast (t : ElemType) (d a : Reg) (m : VMod) (s : State) : Good s (execVbcast t d a m s) := by
  simp [execVbcast]

@[simp] theorem good_execVmov (t : ElemType) (d a : Reg) (m : VMod) (s : State) : Good s (execVmov t d a m s) := by simp [execVmov]

@[simp] theorem good_execVredsum (t : ElemType) (d a : Reg) (m : VMod) (s : State) : Good s (execVredsum t d a m s) := by
  simp [execVredsum]

@[simp] theorem good_execVredmax (t : ElemType) (d a : Reg) (m : VMod) (s : State) : Good s (execVredmax t d a m s) := by
  simp [execVredmax]

@[simp] theorem good_execVredmin (t : ElemType) (d a : Reg) (m : VMod) (s : State) : Good s (execVredmin t d a m s) := by
  simp [execVredmin]

@[simp] theorem good_execVscan (t : ElemType) (d a : Reg) (m : VMod) (s : State) : Good s (execVscan t d a m s) := by
  simp [execVscan]

@[simp] theorem good_execVmovs (t : ElemType) (d a b : Reg) (s : State) : Good s (execVmovs t d a b s) := by simp [execVmovs]

@[simp] theorem good_execVext (t : ElemType) (d a b : Reg) (m : VMod) (s : State) : Good s (execVext t d a b m s) := by
  simp [execVext]

@[simp] theorem good_execKand (d a b : KReg) (s : State) : Good s (execKand d a b s) := by simp [execKand]
@[simp] theorem good_execKor (d a b : KReg) (s : State) : Good s (execKor d a b s) := by simp [execKor]
@[simp] theorem good_execKxor (d a b : KReg) (s : State) : Good s (execKxor d a b s) := by simp [execKxor]
@[simp] theorem good_execKnot (d a : KReg) (s : State) : Good s (execKnot d a s) := by simp [execKnot]
@[simp] theorem good_execKmov (d : KReg) (a b : Reg) (s : State) : Good s (execKmov d a b s) := by simp [execKmov]
@[simp] theorem good_execKpop (d : Reg) (a : KReg) (s : State) : Good s (execKpop d a s) := by simp [execKpop]

/-! Machine/VectorMem.lean. -/

@[simp] theorem good_loadV (s : State) (d : Reg) (ea : Word) : Good s (s.loadV d ea) := by simp [State.loadV]
@[simp] theorem good_storeV (s : State) (d : Reg) (ea : Word) : Good s (s.storeV d ea) := by simp +contextual [State.storeV]
@[simp] theorem good_execVld (d a : Reg) (imm : BitVec 26) (s : State) : Good s (execVld d a imm s) := by simp [execVld]
@[simp] theorem good_execVst (d a : Reg) (imm : BitVec 26) (s : State) : Good s (execVst d a imm s) := by simp [execVst]

@[simp] theorem good_convEcc (s : State) (ea : Word) (n : Nat) : Good s (s.convEcc ea n) := by
  unfold State.convEcc
  split <;> simp

@[simp] theorem good_execVldc (t : ElemType) (d a : Reg) (sat u : Bool) (s : State) : Good s (execVldc t d a sat u s) := by
  simp [execVldc]

@[simp] theorem good_execVstc (t : ElemType) (d a : Reg) (sat u : Bool) (b4 : B4Type) (s : State) :
    Good s (execVstc t d a sat u b4 s) := by
  simp +contextual [execVstc]

@[simp] theorem good_execVldb (t : ElemType) (d a : Reg) (m : VMod) (s : State) : Good s (execVldb t d a m s) := by simp [execVldb]

@[simp] theorem good_accessAll (s : State) (n : Nat) (st : Bool) (k : Result) (es : List (Nat × Word)) (h : Good s k) :
    Good s (s.accessAll n st k es) := by
  induction es with
  | nil => exact h
  | cons e es ih => exact good_access _ _ _ _ ih

@[simp] theorem good_execVldx (t : ElemType) (d a b : Reg) (m : VMod) (s : State) : Good s (execVldx t d a b m s) := by
  unfold execVldx
  dsimp only
  split <;> simp

@[simp] theorem good_execVstx (t : ElemType) (d a b : Reg) (m : VMod) (s : State) : Good s (execVstx t d a b m s) := by
  unfold execVstx
  extract_lets es k
  have hk : Good s k := good_fin (guard_foldl (by simp) _ _) (keeps_foldl (fun t e => by simp) _ _).ok
  split
  · exact good_class hk
  · exact good_accessAll _ _ _ _ _ hk

@[simp] theorem good_execVldh (d : Reg) (a : HReg) (b : Reg) (s : State) : Good s (execVldh d a b s) := by simp [execVldh]
@[simp] theorem good_execVsth (d : Reg) (a : HReg) (b : Reg) (s : State) : Good s (execVsth d a b s) := by simp [execVsth]

end Sys2Proof.Proofs

namespace Sys2Proof.Proofs
open Machine

/-! # What each event keeps: the steps of engines, controllers and other agents -/

/-! Machine/Fabric.lean. -/

@[simp] theorem keep_execWderegTimeout (s : State) : Keep s (execWderegTimeout s) := by
  unfold execWderegTimeout
  split
  · split_ifs <;> simp
  · simp

@[simp] theorem keep_execWwaitTimeout (s : State) : Keep s (execWwaitTimeout s) := by
  unfold execWwaitTimeout
  split <;> simp

@[simp] theorem keep_receive (s : State) (c : PacketClass) (f : Packet → State) (h : ∀ k, (mems s).Ok → (mems (f k)).Ok) :
    Keep s (s.receive c f) := by
  refine keep_next fun ok => ?_
  split_ifs
  · exact ok
  · simp [ok]
  · exact h _ ok
  · simp [ok]
  · exact h _ ok
  · simp [ok]

@[simp] theorem keep_execStaleTv (s : State) : Keep s (execStaleTv s) := keep_receive _ _ _ fun _ => id
@[simp] theorem keep_execTransitPacket (s : State) : Keep s (execTransitPacket s) := keep_receive _ _ _ fun _ => id

@[simp] theorem keep_execPutArrive (s : State) : Keep s (execPutArrive s) := by
  refine keep_receive _ _ _ fun k ok => ?_
  split
  · exact ok
  · split
    · simp [ok]
    · split
      · exact ok
      · dsimp only
        split <;> simp [ok]

@[simp] theorem keep_execGetArrive (s : State) : Keep s (execGetArrive s) := by
  refine keep_receive _ _ _ fun k ok => ?_
  split
  · exact ok
  · simp [ok]

@[simp] theorem keep_execGetDataArrive (s : State) : Keep s (execGetDataArrive s) := by
  refine keep_receive _ _ _ fun k ok => (keeps_answering _ _ _ fun o => keeps_of fun ok => ?_).ok ok
  split_ifs <;> simp [ok]

@[simp] theorem keep_execPutAckArrive (s : State) : Keep s (execPutAckArrive s) := by
  unfold execPutAckArrive
  split
  · refine keep_receive _ _ _ fun k ok => (keeps_answering _ _ _ fun o => keeps_of fun ok => ?_).ok ok
    simp [ok]
  · refine keep_receive _ _ _ fun k ok => (keeps_answering _ _ _ fun o => keeps_of fun ok => ?_).ok ok
    split <;> simp [ok]

@[simp] theorem keep_execRendezvousAnswer (s : State) : Keep s (execRendezvousAnswer s) :=
  keep_receive _ _ _ fun k ok => (keeps_answering _ _ _ fun o => keeps_of fun ok => by simp [ok]).ok ok

@[simp] theorem keep_execAllowanceArrive (s : State) : Keep s (execAllowanceArrive s) :=
  keep_receive _ _ _ fun k ok => by simp [ok]

@[simp] theorem keep_execDeregNoticeArrive (s : State) : Keep s (execDeregNoticeArrive s) := by
  refine keep_receive _ _ _ fun k ok => ?_
  extract_lets toward t keep owed
  have ht : (mems t).Ok := by simp [t, ok]
  exact (settle_calm _).ok (ht : (mems { t with chip := _ }).Ok)

@[simp] theorem keep_execDeregAnswerArrive (s : State) : Keep s (execDeregAnswerArrive s) := by
  refine keep_receive _ _ _ fun k ok => ?_
  split <;> simp [ok]

/-! Machine/Links.lean. -/

/-- Said of any state: the kernel does not compute the time that has passed. -/
theorem ok_uncommitted {t : State} (ok : (mems t).Ok) :
    (mems (({ t with chip := { t.chip with commitBy := none } } : State).serveAll)).Ok := (serveAll_calm _).ok (by simp [ok])
theorem ok_advanceTo {s : State} (ok : (mems s).Ok) (x : Nat) : (mems (s.advanceTo x)).Ok := by simp [ok]
@[simp] theorem keep_execCommitTimeout (s : State) : Keep s (execCommitTimeout s) := by
  unfold execCommitTimeout
  split
  · split
    · exact keep_endCommit _ _ fun ok => by simp [ok]
    · exact keep_endCommit _ _ (ok_advanceTo · _)
  · split
    · exact keep_next fun ok => ok_uncommitted (ok_advanceTo ok _)
    · simp

@[simp] theorem keep_execCommitMarkerArrive (s : State) : Keep s (execCommitMarkerArrive s) := by
  simp +contextual [execCommitMarkerArrive]

@[simp] theorem keep_execDrainFec (d a b : Reg) (s : State) : Keep s (execDrainFec d a b s) := (good_drainOp s d a b).1
@[simp] theorem keep_execDrainRetrain (d a b : Reg) (s : State) : Keep s (execDrainRetrain d a b s) := (good_drainOp s d a b).1
@[simp] theorem keep_execUndrain (d a b : Reg) (s : State) : Keep s (execUndrain d a b s) := (good_drainOp s d a b).1

@[simp] theorem keep_execDrainTimeout (s : State) : Keep s (execDrainTimeout s) := by
  unfold execDrainTimeout
  split <;> simp

@[simp] theorem keep_execFecChangeTimeout (s : State) : Keep s (execFecChangeTimeout s) := by
  unfold execFecChangeTimeout
  split <;> simp

@[simp] theorem keep_execDrainMarkerArrive (s : State) : Keep s (execDrainMarkerArrive s) := by simp [execDrainMarkerArrive]
@[simp] theorem keep_execLightDetect (s : State) : Keep s (execLightDetect s) := by simp [execLightDetect]
@[simp] theorem keep_execLockAcquired (s : State) : Keep s (execLockAcquired s) := by simp +contextual [execLockAcquired]
@[simp] theorem keep_execLockTimeout (s : State) : Keep s (execLockTimeout s) := by simp [execLockTimeout]
@[simp] theorem keep_execBurstLoss (s : State) : Keep s (execBurstLoss s) := by simp [execBurstLoss]
@[simp] theorem keep_execLossOfLock (s : State) : Keep s (execLossOfLock s) := by simp [execLossOfLock]
@[simp] theorem keep_execIdleBurst (s : State) : Keep s (execIdleBurst s) := by simp [execIdleBurst]
@[simp] theorem keep_execLinkBringup (s : State) : Keep s (execLinkBringup s) := by simp +contextual [execLinkBringup]
@[simp] theorem keep_execFrameReceive (s : State) : Keep s (execFrameReceive s) := by simp [execFrameReceive]
@[simp] theorem keep_execFrameAck (s : State) : Keep s (execFrameAck s) := by simp [execFrameAck]
@[simp] theorem keep_execFecRequest (s : State) : Keep s (execFecRequest s) := by simp [execFecRequest]

@[simp] theorem keep_execFecAck (s : State) : Keep s (execFecAck s) := by
  unfold execFecAck
  dsimp only
  split <;> simp

@[simp] theorem keep_execFecRequestRepeat (s : State) : Keep s (execFecRequestRepeat s) := by
  unfold execFecRequestRepeat
  split
  · refine keep_next fun ok => ?_
    split <;> simp [ok]
  · simp

@[simp] theorem keep_execFecRevert (s : State) : Keep s (execFecRevert s) := by simp [execFecRevert]

/-! Machine/Copy.lean. -/

@[simp] theorem keep_execUpdateApply (s : State) : Keep s (execUpdateApply s) := by
  unfold execUpdateApply
  extract_lets i tag u
  split
  · split
    · refine keep_next fun ok => ?_
      split
      · next t w h =>
        obtain rfl : _ = t := congrArg Prod.fst h
        simp [u, ok]
      · next t h =>
        obtain rfl : _ = t := congrArg Prod.fst h
        simp [u, ok]
    · simp
  · simp

@[simp] theorem keep_execCopyBeat (s : State) : Keep s (execCopyBeat s) := by simp +contextual [execCopyBeat]
@[simp] theorem keep_execLoad (s : State) : Keep s (execLoad s) := by simp +contextual [execLoad]
@[simp] theorem keep_execStore (s : State) : Keep s (execStore s) := by simp +contextual [execStore]
@[simp] theorem keep_execGather (s : State) : Keep s (execGather s) := by simp +contextual [execGather]
@[simp] theorem keep_execScatter (s : State) : Keep s (execScatter s) := by simp +contextual [execScatter]
@[simp] theorem keep_execIm2col (s : State) : Keep s (execIm2col s) := by simp +contextual [execIm2col]
@[simp] theorem keep_execUpdate (s : State) : Keep s (execUpdate s) := by simp +contextual [execUpdate]
@[simp] theorem keep_execFillCommand (s : State) : Keep s (execFillCommand s) := by simp +contextual [execFillCommand]
@[simp] theorem keep_execCopyCompletion (s : State) : Keep s (execCopyCompletion s) := by simp [execCopyCompletion]
@[simp] theorem keep_execTlbWrite (s : State) : Keep s (execTlbWrite s) := by simp +contextual [execTlbWrite]
@[simp] theorem keep_execTlbInvalidate (s : State) : Keep s (execTlbInvalidate s) := by simp [execTlbInvalidate]

@[simp] theorem keep_execCommandEndByFirmware (s : State) : Keep s (execCommandEndByFirmware s) := by
  refine keep_next fun ok => ?_
  extract_lets set
  have hs (t : State) (q : CopyCmd) : mems (set t q) = mems t := by simp [set]
  split_ifs
  · exact ok
  · split
    · split <;> simp [ok]
    · exact ok
  · exact endWait_ok (fun t q h => by simp [hs, h]) _ _ _ ok
  · split
    · exact endWait_ok (fun t q h => by simp [hs, h]) _ _ _ ok
    · exact ok
  · exact endWait_ok (fun t q h => by simp [hs, h]) _ _ _ ok

@[simp] theorem keep_execScrubPass (s : State) : Keep s (execScrubPass s) := by simp [execScrubPass]

@[simp] theorem keep_execMemoryError (s : State) : Keep s (execMemoryError s) := by
  unfold execMemoryError
  dsimp only
  split <;> simp

/-! Machine/Csr.lean. -/

theorem keep_csrRead (s : State) (d : Reg) (n : Csr) : Keep s (s.csrRead d n) := (good_csrRead s d n).1
@[simp] theorem keep_execCycRead (d : Reg) (s : State) : Keep s (execCycRead d s) := keep_csrRead _ _ _

@[simp] theorem keep_execAgeWrite (a : Reg) (s : State) : Keep s (execAgeWrite a s) := (good_csrWrite s _ _).1
@[simp] theorem keep_execTvWrite (a : Reg) (s : State) : Keep s (execTvWrite a s) := (good_csrWrite s _ _).1

/-! Machine/Optics.lean. -/

@[simp] theorem keep_execSettlingEnd (s : State) : Keep s (execSettlingEnd s) := by
  unfold execSettlingEnd
  repeat' split
  all_goals simp

@[simp] theorem keep_execMeasurementWindow (s : State) : Keep s (execMeasurementWindow s) := by
  unfold execMeasurementWindow
  extract_lets n count u
  refine keep_next fun ok => ?_
  have hc (t : State) (g : Grant) : mems (count t g) = mems t := by unfold count; split <;> simp
  split_ifs <;> simp [hc, u, ok]

@[simp] theorem keep_execWavelengthFail (s : State) : Keep s (execWavelengthFail s) := by simp [execWavelengthFail]
@[simp] theorem keep_execWavelengthRestore (s : State) : Keep s (execWavelengthRestore s) := by simp [execWavelengthRestore]

@[simp] theorem keep_execLinkStep (s : State) : Keep s (execLinkStep s) := by
  unfold execLinkStep
  split
  · refine keep_next fun ok => ?_
    split <;> simp [ok]
  · simp

@[simp] theorem keep_execLinkStepTimeout (s : State) : Keep s (execLinkStepTimeout s) := by
  unfold execLinkStepTimeout
  split
  · refine keep_next fun ok => ?_
    split <;> simp [ok]
  · simp

/-! Machine/Sync.lean. -/

@[simp] theorem keep_execMailboxPost (s : State) : Keep s (execMailboxPost s) := by
  unfold execMailboxPost
  extract_lets post
  have h (u : State) : mems (post u) = mems u := by
    unfold post
    dsimp only
    split
    · split <;> simp
    · simp
  split
  · exact keep_next (by simp [h])
  · exact keep_next (by simp [h])

@[simp] theorem keep_execServiceInboxTake (s : State) : Keep s (execServiceInboxTake s) := by simp [execServiceInboxTake]

/-! Machine/Matrix.lean. -/

@[simp] theorem keep_execMatrixStart (s : State) : Keep s (execMatrixStart s) := by simp [execMatrixStart]

@[simp] theorem keep_execMatrixRetire (s : State) : Keep s (execMatrixRetire s) := by
  unfold execMatrixRetire
  dsimp only
  repeat' split
  all_goals simp +contextual

@[simp] theorem keep_execSlewWindow (s : State) : Keep s (execSlewWindow s) := by simp [execSlewWindow]

/-! Machine/Exchange.lean. -/

@[simp] theorem keep_execExchangeBeatReceive (s : State) : Keep s (execExchangeBeatReceive s) := by
  unfold execExchangeBeatReceive
  dsimp only
  repeat' split
  all_goals simp +contextual

@[simp] theorem keep_execExchangePhaseEnd (s : State) : Keep s (execExchangePhaseEnd s) := by
  simp +contextual [execExchangePhaseEnd]

@[simp] theorem keep_execLocalPhaseEnd (s : State) : Keep s (execLocalPhaseEnd s) := by simp +contextual [execLocalPhaseEnd]

/-! Machine/Trees.lean. -/

@[simp] theorem keep_execPhaseRelease (s : State) : Keep s (execPhaseRelease s) := by
  unfold execPhaseRelease
  dsimp only
  repeat' split
  all_goals simp

@[simp] theorem keep_execLocalRelease (s : State) : Keep s (execLocalRelease s) := by
  unfold execLocalRelease
  dsimp only
  repeat' split
  all_goals simp

@[simp] theorem keep_execStragglerExpiry (s : State) : Keep s (execStragglerExpiry s) := by
  unfold execStragglerExpiry
  split <;> simp

@[simp] theorem keep_execTreeComplete (s : State) : Keep s (execTreeComplete s) := by simp [execTreeComplete]

@[simp] theorem keep_execAwaitStraggler (s : State) : Keep s (execAwaitStraggler s) := by
  unfold execAwaitStraggler
  split
  · refine keep_next fun ok => ?_
    split <;> simp [ok]
  · simp

@[simp] theorem keep_execPhaseCancel (d a : Reg) (s : State) : Keep s (execPhaseCancel d a s) := by
  unfold execPhaseCancel
  split
  · simp
  · split
    · exact (good_execPhaseQuery d a s).1
    · exact keep_privC (by simp)

@[simp] theorem keep_execReductionResult (s : State) : Keep s (execReductionResult s) := by
  unfold execReductionResult
  split <;> simp

@[simp] theorem keep_execReductionStraggler (s : State) : Keep s (execReductionStraggler s) := by
  unfold execReductionStraggler
  split <;> simp

/-! Machine/Launch.lean. -/

@[simp] theorem keep_execLaunchSubmit (s : State) : Keep s (execLaunchSubmit s) := by simp [execLaunchSubmit]
@[simp] theorem keep_execAgingRaise (s : State) : Keep s (execAgingRaise s) := by simp [execAgingRaise]
@[simp] theorem keep_execCounterWrite (s : State) : Keep s (execCounterWrite s) := by simp [execCounterWrite]
@[simp] theorem keep_execLaunchAdmit (s : State) : Keep s (execLaunchAdmit s) := by simp +contextual [execLaunchAdmit]
@[simp] theorem keep_execPreemptSwap (s : State) : Keep s (execPreemptSwap s) := by simp +contextual [execPreemptSwap]

@[simp] theorem keep_execPreemptOverdue (s : State) : Keep s (execPreemptOverdue s) := by
  refine keep_next fun ok => ?_
  split
  · generalize hu : s.tellTile0 .overdue .overdue = u
    have h : (mems u).Ok := by simp [← hu, ok]
    exact { h with paged := ok.paged }
  · exact ok

@[simp] theorem keep_execShadowPage (s : State) : Keep s (execShadowPage s) := by
  refine keep_next fun ok => ?_
  split
  · split
    · next h _ => exact ok_pageIn ok (ok.paged _ (List.mem_of_find?_eq_some h))
    · exact ok
  · split <;> simp [ok]

@[simp] theorem keep_execLaunchComplete (s : State) : Keep s (execLaunchComplete s) := by
  unfold execLaunchComplete
  refine keep_next fun ok => ?_
  repeat' split
  all_goals simp [ok]

@[simp] theorem keep_execLaunchEndedByFirmware (s : State) : Keep s (execLaunchEndedByFirmware s) := by
  refine keep_next fun ok => ?_
  dsimp only
  split
  · simp [ok]
  · simp [ok]
  · split
    · have h : (mems { s with p := { s.p with paged := s.p.paged.filter (·.launch.id ≠ s.input.n) } }).Ok :=
        { ok with paged := fun x hx => ok.paged x (List.mem_filter.mp hx).1 }
      simpa using h
    · exact ok

@[simp] theorem keep_execCoreRestart (s : State) : Keep s (execCoreRestart s) := by simp [execCoreRestart]

@[simp] theorem keep_execPartitionConfig (s : State) : Keep s (execPartitionConfig s) := by
  unfold execPartitionConfig
  extract_lets g n rest old new apart t
  refine keep_next fun ok => ?_
  have hold : old.Canonical := by
    unfold old
    split
    · exact ok.paged
    · cases h : s.others.find? (·.num = n) with
      | none => intro x hx; cases hx
      | some o => exact ok.others o (List.mem_of_find?_eq_some h)
  have hrest : ∀ x ∈ rest, x.Canonical := fun x hx => ok.others x (List.mem_filter.mp hx).1
  split
  · have ht : (mems t).Ok := by
      unfold t
      split_ifs
      · exact { ok with paged := hold }
      · exact { ok with paged := hold, others := fun x hx => (List.mem_cons.mp hx).elim (fun e => e ▸ ok.paged) (hrest x) }
      · exact { ok with others := fun x hx => (List.mem_cons.mp hx).elim (fun e => e ▸ hold) (hrest x) }
    simp [ht]
  · exact ok

@[simp] theorem keep_execSensorSample (s : State) : Keep s (execSensorSample s) := by simp [execSensorSample]

@[simp] theorem keep_execThermal (s : State) : Keep s (execThermal s) := by
  unfold execThermal
  refine keep_next fun ok => ?_
  split <;> simp [ok]

@[simp] theorem keep_execThermalMigration (s : State) : Keep s (execThermalMigration s) := by
  unfold execThermalMigration
  refine keep_next fun ok => ?_
  repeat' split
  all_goals simp [ok]

@[simp] theorem keep_execTileGate (s : State) : Keep s (execTileGate s) := by
  unfold execTileGate
  split
  · simp
  · refine keep_next fun ok => ?_
    split
    · exact ok
    · exact { ok with mem := rfl, shMem := rfl }

@[simp] theorem keep_execTileUngate (s : State) : Keep s (execTileUngate s) := by
  unfold execTileUngate
  split
  · simp
  · exact keep_next fun ok => { ok with acc := rfl, shAcc := rfl }

/-! Machine/Boot.lean. -/

@[simp] theorem keep_execPowerGood (s : State) : Keep s (execPowerGood s) := by
  unfold execPowerGood
  extract_lets b ch t
  refine keep_next fun ok => ?_
  have area (v : SmallState) (h : (none : Option SmallState) = some v) : v.Canonical := by cases h
  have h : (mems t).Ok := { ok with mem := rfl, acc := rfl, shMem := rfl, shAcc := rfl, gmem := rfl, area := area }
  split
  · exact ok
  · exact (congrArg Mems.Ok (setBoot_quiet t _)).mpr h

@[simp] theorem keep_execResetRelease (s : State) : Keep s (execResetRelease s) := by
  unfold execResetRelease
  extract_lets b off keep r rt rc rb t
  split
  · refine keep_next fun ok => ?_
    have hk (c : Ctx) (h : c.mem.wf = true) : (keep c).mem.wf = true ∧ (keep c).acc.wf = true := by
      unfold keep
      split
      · exact ⟨rfl, rfl⟩
      · exact ⟨h, rfl⟩
    have h : (mems t).Ok :=
      { (inv_iff _).mp reset_inv with
        mem := (hk s.c ok.mem).1, acc := (hk s.c ok.mem).2, shMem := (hk s.sh ok.shMem).1, shAcc := (hk s.sh ok.shMem).2
        gmem := ok.gmem, area := ok.area, saved := ok.saved }
    simp [h]
  · simp

@[simp] theorem keep_execResetNAssert (s : State) : Keep s (execResetNAssert s) := by simp [execResetNAssert]
@[simp] theorem keep_execMgmtReset (s : State) : Keep s (execMgmtReset s) := by simp [execMgmtReset]
@[simp] theorem keep_execRailFault (s : State) : Keep s (execRailFault s) := by simp [execRailFault]
@[simp] theorem keep_execThermalTrip (s : State) : Keep s (execThermalTrip s) := by simp [execThermalTrip]
@[simp] theorem keep_execBootSourceTimeout (s : State) : Keep s (execBootSourceTimeout s) := by simp [execBootSourceTimeout]
@[simp] theorem keep_execBoot (s : State) : Keep s (execBoot s) := by simp [execBoot]
@[simp] theorem keep_execMgmtStatus (s : State) : Keep s (execMgmtStatus s) := by simp [execMgmtStatus]
@[simp] theorem keep_execBootimg (s : State) : Keep s (execBootimg s) := by simp [execBootimg]
@[simp] theorem keep_execAttest (s : State) : Keep s (execAttest s) := by simp [execAttest]
@[simp] theorem keep_execKeyload (s : State) : Keep s (execKeyload s) := by simp [execKeyload]
@[simp] theorem keep_execKeyclear (s : State) : Keep s (execKeyclear s) := by simp [execKeyclear]
@[simp] theorem keep_execSvncommit (s : State) : Keep s (execSvncommit s) := by simp [execSvncommit]
@[simp] theorem keep_execMgmtSnap (s : State) : Keep s (execMgmtSnap s) := by simp [execMgmtSnap]
@[simp] theorem keep_execSnapshotLatch (s : State) : Keep s (execSnapshotLatch s) := by simp +contextual [execSnapshotLatch]
@[simp] theorem keep_execSnapread (s : State) : Keep s (execSnapread s) := by simp [execSnapread]

@[simp] theorem keep_execEventRecordDeliver (s : State) : Keep s (execEventRecordDeliver s) := by
  unfold execEventRecordDeliver
  refine keep_next fun ok => ?_
  repeat' split
  all_goals simp [ok]

@[simp] theorem keep_execLogTailWrite (s : State) : Keep s (execLogTailWrite s) := by simp [execLogTailWrite]
@[simp] theorem keep_execEvread (s : State) : Keep s (execEvread s) := by simp [execEvread]

@[simp] theorem keep_execHostRegisterWrite (s : State) : Keep s (execHostRegisterWrite s) := by
  simp +contextual [execHostRegisterWrite]

@[simp] theorem keep_execCheckpoint (s : State) : Keep s (execCheckpoint s) := by simp [execCheckpoint]

theorem smallState_canonical {s : State} (ok : (mems s).Ok) : s.smallState.Canonical :=
  ⟨⟨ok.mem, ok.acc⟩, ⟨ok.shMem, ok.shAcc⟩, ok.paged, ok.others⟩
@[simp] theorem keep_execCheckpointEnd (s : State) : Keep s (execCheckpointEnd s) := by
  refine keep_next fun ok => ?_
  split
  · exact ok
  · split
    · exact ok
    · extract_lets saved ch t v ch2 u mib
      have ht : (mems t).Ok := { ok with area := fun _ e => by cases e; exact smallState_canonical ok }
      have hu : (mems u).Ok := by
        unfold u
        split
        · exact ht
        · rw [put_frame .. |>.2]
          have hm : (mems t.meetStream).Ok := by simp [ht]
          exact { hm with saved := fun _ e => by cases e; exact ⟨smallState_canonical ok, ok.gmem⟩ }
      simp [hu]

@[simp] theorem keep_execRestore (s : State) : Keep s (execRestore s) := by
  refine keep_next fun ok => ?_
  split
  · exact ok
  · split
    · split <;> simp [ok]
    · split
      · next v hv =>
        split
        · obtain ⟨⟨hc, hsh, hp, ho⟩, hg⟩ := ok.saved v hv
          rw [put_frame .. |>.2]
          exact { ok with
            mem := hc.mem, acc := hc.acc, shMem := hsh.mem, shAcc := hsh.acc, paged := hp, others := ho, gmem := hg
            area := fun _ e => by cases e; exact ⟨hc, hsh, hp, ho⟩ }
        · simp [ok]
      · simp [ok]

/-! Machine/Coll.lean. -/

theorem keep_collStep (s : State) (op : Nat) (f : State → Coll → CollStep → State)
    (h : ∀ u k x, (mems u).Ok → (mems (f u k x)).Ok) : Keep s (s.collStep op f) := by
  unfold State.collStep
  split
  · simp
  · dsimp only
    split
    · split
      · simp
      · split
        · exact keep_next fun ok => by simp [ok]
        · refine keep_next fun ok => ?_
          split_ifs
          · simp [ok]
          · exact h _ _ _ (by simp [ok])
          · exact ok
    · exact keep_next fun ok => by simp [ok]

@[simp] theorem keep_execCollectivePut (s : State) : Keep s (execCollectivePut s) := by
  refine keep_collStep _ _ _ fun u k x ok => ?_
  split
  · split
    · exact ok
    · simp [ok]
  · simp [ok]

@[simp] theorem keep_execCollectiveWait (s : State) : Keep s (execCollectiveWait s) := by
  refine keep_collStep _ _ _ fun u k x ok => ?_
  split <;> simp [ok]

@[simp] theorem keep_execCollectiveReduce (s : State) : Keep s (execCollectiveReduce s) := by
  refine keep_collStep _ _ _ fun u k x ok => ?_
  split
  · simp [ok]
  · split
    · split
      · exact ok
      · simp [ok]
    · simp [ok]
    · simp [ok]

@[simp] theorem keep_execCollectiveEnd (s : State) : Keep s (execCollectiveEnd s) :=
  keep_collStep _ _ _ fun u k x ok => by simp [ok]

@[simp] theorem keep_execCollectiveFreeze (s : State) : Keep s (execCollectiveFreeze s) := by
  unfold execCollectiveFreeze
  split
  · refine keep_next fun ok => ?_
    split <;> simp [ok]
  · simp

/-! Machine/Control.lean. -/

@[simp] theorem keep_execIllegalEncoding (cause : Cause) (s : State) : Keep s (execIllegalEncoding cause s) := by
  simp [execIllegalEncoding]

@[simp] theorem keep_execFetchFault (cause : Cause) (addr : Word) (s : State) : Keep s (execFetchFault cause addr s) := by
  simp [execFetchFault]

/-! Machine/Head.lean. -/

@[simp] theorem keep_execHeadOpComplete (s : State) : Keep s (execHeadOpComplete s) := by
  unfold execHeadOpComplete
  dsimp only
  repeat' split
  all_goals simp +contextual

/-! Machine/Fetch.lean. -/

theorem keep_noteIssue {s : State} (i : Instr) (f : Fetched) {r : Result} (h : Keep s r) : Keep s (State.noteIssue i f r) := by
  unfold State.noteIssue
  split
  · next t => exact keep_next fun ok => h t rfl ok
  · exact h


end Sys2Proof.Proofs

namespace Sys2Proof.Proofs
open Machine

/-! # A step: from each instruction and event to the whole machine -/

theorem Good.keep {s : State} {r : Result} (h : Good s r) : Keep s r := h.1

/-- Every instruction of the encoding keeps the memories, and in U mode what S mode alone writes. -/
theorem good_exec {i : Instr} (h : i.wf = true) (s : State) : Good s (exec i s) := by
  revert h
  cases i <;> simp [Instr.wf, exec]

theorem keep_exec (i : Instr) (s : State) : Keep s (exec i s) := by
  cases i <;> simp [exec, Good.keep]

/-- The instruction that issues next finds the memories as they are. -/
theorem mems_nextInstr {s t : State} {i : Instr} (h : s.nextInstr = some (i, t)) : mems t = mems s := by
  unfold State.nextInstr at h
  dsimp only at h
  repeat' split at h
  all_goals cases h
  all_goals rfl

/-- The engine step that is due acts on the same machine, later. -/
theorem ok_due {s t : State} {e : Event} (h : s.due = some (e, t)) (ok : (mems s).Ok) : (mems t).Ok := by
  have hp : (mems s.pass).Ok := by simp [ok]
  have hj : (mems s.joined).Ok := by simp [ok]
  unfold State.due at h
  split at h
  · cases h
  · split at h
    · cases h; exact hj
    · cases h; exact hp

theorem keep_coreStep (s : State) : Keep s (coreStep s) := by
  intro u hu ok
  unfold coreStep at hu
  split at hu
  · next h =>
    have hd := ok_due h ok
    exact keep_exec _ _ _ hu hd
  · split at hu
    · next h => exact keep_noteIssue _ _ (keep_exec _ _) _ hu ((congrArg Mems.Ok (mems_nextInstr h)).mpr ((pass_keeps s).ok ok))
    · cases hu; simp [ok]

theorem keep_step (s : State) : Keep s (step s) := by
  intro u hu ok
  unfold step at hu
  split at hu
  · split at hu
    · exact keep_coreStep _ _ hu ok
    · split at hu
      · next e =>
        extract_lets v t at hu
        have ht : (mems t).Ok := by simp [t, v, ok]
        split at hu
        · exact Host.Outcome.next.inj hu ▸ ht
        · split at hu
          · exact keep_exec _ _ _ hu ht
          · exact Host.Outcome.next.inj hu ▸ (byOther_keeps _ t).ok ht
      · exact keep_coreStep _ _ hu ok
  · exact keep_coreStep _ _ hu ok

/-- Settles O5: every function of the model keeps the memories in canonical form, so every instruction and event does. -/
theorem stepKeepsMemoriesCanonical : Obligations.StepKeepsMemoriesCanonical :=
  fun s t hs ht => (inv_iff t).mpr (keep_step s t ht ((inv_iff s).mp hs))

/-- What the guard holds, field by field, where a core comes to be in mode b. -/
theorem fields_of_guard {s t : State} {b : Bool} {p : Prop} (h : guard t = { guard s with c := { (guard s).c with svc := b } })
    (hp : b = true → p) :
    t.c.tvec = s.c.tvec ∧ t.c.scratch = s.c.scratch ∧ t.c.lcore = s.c.lcore ∧ t.c.ncore = s.c.ncore ∧ t.c.part = s.c.part ∧
    t.c.stragg = s.c.stragg ∧ t.c.launch = s.c.launch ∧ t.c.mcheck = s.c.mcheck ∧ t.t.slew = s.t.slew ∧
    t.t.thot = s.t.thot ∧ t.t.tmig = s.t.tmig ∧ t.p.lbudget = s.p.lbudget ∧ t.p.lmargin = s.p.lmargin ∧ t.p.age = s.p.age ∧
    t.chip.num = s.chip.num ∧ t.chip.snapctl = s.chip.snapctl ∧ t.c.loopS = s.c.loopS ∧ (t.svc = true → p) := by
  obtain ⟨-, -, slew, thot, tmig, lbudget, lmargin, age, num, snapctl⟩ := Guard.mk.inj h
  obtain ⟨tvec, scratch, lcore, ncore, part, stragg, launch, mcheck, loopS, svc⟩ := CtxGuard.mk.inj (congrArg Guard.c h)
  exact ⟨tvec, scratch, lcore, ncore, part, stragg, launch, mcheck, slew, thot, tmig, lbudget, lmargin, age, num, snapctl, loopS,
    fun ht => hp (svc.symm.trans ht)⟩

/-- Settles O6: no instruction touches what S mode alone writes, but for the S-only ones, which trap in U mode; the entry into the
trap sets MODE. -/
theorem userModeKeepsServiceState : Obligations.UserModeKeepsServiceState := by
  intro s t i hi hs ht
  rcases (good_exec hi s).2 t ht hs with kept | ⟨entered, trapped⟩
  · exact fields_of_guard (b := s.svc) kept fun h => absurd (h.symm.trans hs) (by decide)
  · exact fields_of_guard (b := true) entered fun _ => trapped


end Sys2Proof.Proofs

namespace Sys2Proof.Proofs
open Machine

/-! # Number formats (R43 to R61)

A decoded value of the model (`Val`) stands for what the statements say of it (`Held`), in a fixed unit; every operation of
the model keeps that relation, and a value is rounded once. -/

/-- What the five formats of R45 have in common: the patterns that the model names by exponent and significand are those that
the statements name by their place among the patterns. -/
structure FmtOk (f : Fmt) : Prop where
  frac : 1 ≤ f.fb
  frac_le : f.fb ≤ 23
  qmin_eq : f.qmin = -(f.scale : Int)
  qmax_ge : f.qmin ≤ f.qmax
  nmax_ge : 2 ^ f.fb ≤ f.nmax
  nmax_lt : f.nmax < 2 ^ (f.fb + 1)
  maxBits_eq : f.maxBits = f.top
  top_ge : 2 ^ f.fb ≤ f.top
  infBits_eq : f.infs = true → f.infBits = f.top + 1
  nanBits_eq : f.nanBits = f.canonical
  canonical_gt : f.top + f.infs.toNat < f.canonical
  canonical_lt : f.canonical < 2 ^ (f.eb + f.fb)

theorem fmtOk_fp32 : FmtOk fp32 := by constructor <;> decide

theorem fmtOk_of_fmtOf {t : ElemType} {f : Fmt} (h : fmtOf t = some f) : FmtOk f := by
  cases t <;> cases h <;> constructor <;> decide

theorem width_of_fmtOf {t : ElemType} {f : Fmt} (h : fmtOf t = some f) : t.width = f.width := by
  cases t <;> cases h <;> rfl

/-! The grid of a format. -/

/-- A pattern by its exponent above the subnormals and its significand. -/
theorem units_place (f : Fmt) {d n : Nat} (hn : n ≤ 2 ^ (f.fb + 1)) (h : d = 0 ∨ 2 ^ f.fb ≤ n) :
    f.units (d * 2 ^ f.fb + n) = n * 2 ^ d := by
  have hb : 0 < 2 ^ f.fb := by positivity
  rw [pow_succ] at hn
  unfold Fmt.units
  by_cases low : n < 2 ^ f.fb
  · obtain rfl : d = 0 := by omega
    simp [low]
  obtain ⟨r, rfl⟩ : ∃ r, n = 2 ^ f.fb + r := ⟨n - 2 ^ f.fb, by omega⟩
  have place : d * 2 ^ f.fb + (2 ^ f.fb + r) = r + 2 ^ f.fb * (d + 1) := by ring
  rw [if_neg (by rw [place]; have := Nat.le_mul_of_pos_right (2 ^ f.fb) d.succ_pos; omega), place,
    Nat.add_mul_mod_self_left, Nat.add_mul_div_left _ _ hb]
  rcases Nat.lt_or_ge r (2 ^ f.fb) with hr | hr
  · rw [Nat.mod_eq_of_lt hr, Nat.div_eq_of_lt hr]; congr 2; omega
  · obtain rfl : r = 2 ^ f.fb := by omega
    rw [Nat.mod_self, Nat.div_self hb, show 1 + (d + 1) - 1 = d + 1 by omega]; ring

/-- Every pattern has such a place. -/
theorem exists_place (f : Fmt) (p : Nat) :
    ∃ d n, p = d * 2 ^ f.fb + n ∧ n < 2 ^ (f.fb + 1) ∧ (d = 0 ∨ 2 ^ f.fb ≤ n) := by
  have hb : 0 < 2 ^ f.fb := by positivity
  have hp := Nat.div_add_mod' p (2 ^ f.fb)
  have hr := Nat.mod_lt p hb
  rw [pow_succ]
  rcases Nat.eq_zero_or_pos (p / 2 ^ f.fb) with h | h
  · exact ⟨0, p, by omega, by rw [h] at hp; omega, .inl rfl⟩
  · refine ⟨p / 2 ^ f.fb - 1, 2 ^ f.fb + p % 2 ^ f.fb, ?_, by omega, .inr (by omega)⟩
    obtain ⟨k, hk⟩ : ∃ k, p / 2 ^ f.fb = k + 1 := ⟨_, (Nat.sub_add_cancel h).symm⟩
    rw [hk, Nat.add_mul] at hp
    rw [hk, Nat.add_sub_cancel]; omega

theorem units_strictMono (f : Fmt) : StrictMono f.units := by
  refine strictMono_nat_of_lt_succ fun p => ?_
  obtain ⟨d, n, rfl, hn, h⟩ := exists_place f p
  rw [add_assoc, units_place f hn.le h, units_place f (by omega) (by omega)]
  exact Nat.mul_lt_mul_of_pos_right (by omega) (by positivity)

@[simp] theorem units_zero (f : Fmt) : f.units 0 = 0 := by simp [Fmt.units]

/-! Rounding. -/

/-- The exponent of the last place to which a value m × 2^e is rounded. -/
def lastPlace (f : Fmt) (m : Nat) (e : Int) : Int := max ((Nat.log2 m : Int) + e - f.fb) f.qmin

/-- m / 2^sh × 2^k, one more where what the shift drops is above one half of the last place, or one half and the rest odd; the
dropped part ends in something smaller than its last place where `more` holds. -/
def shifted (more : Bool) (m sh k : Nat) : Nat :=
  let n := m / 2 ^ sh * 2 ^ k
  if decide (2 ^ sh < 2 * (m % 2 ^ sh)) || (decide (2 ^ sh = 2 * (m % 2 ^ sh)) && (more || n % 2 == 1)) then n + 1 else n

/-- A rounded significand in its place, within the limits of the format (R50). -/
def placed (f : Fmt) (sat neg : Bool) (q : Int) (n : Nat) (inexact : Bool) : Nat × Flags :=
  if f.qmax < q ∨ (q = f.qmax ∧ f.nmax < n) then
    (if sat then f.sign neg + f.maxBits else if f.infs then f.sign neg + f.infBits else f.nanBits, flagOF ||| flagNX)
  else
    (f.sign neg + ((q - f.qmin).toNat * 2 ^ f.fb + n), if inexact then flagNX ||| (if n < 2 ^ f.fb then flagUF else 0) else 0)

theorem roundFin_zero (f : Fmt) (sat neg : Bool) (e : Int) (more : Bool) : f.roundFin sat neg 0 e more = (f.sign neg, 0) := rfl

theorem roundFin_pos {m : Nat} (hm : m ≠ 0) (f : Fmt) (sat neg : Bool) (e : Int) (more : Bool) :
    f.roundFin sat neg m e more = placed f sat neg (lastPlace f m e)
      (shifted more m (lastPlace f m e - e).toNat (e - lastPlace f m e).toNat)
      (m % 2 ^ (lastPlace f m e - e).toNat != 0 || more) := by
  unfold Fmt.roundFin
  rw [if_neg hm]
  rfl

/-- The limits of R50 by the place of the pattern. -/
theorem placed_eq {f : Fmt} (ok : FmtOk f) {d n : Nat} (hn : n ≤ 2 ^ (f.fb + 1)) (h : d = 0 ∨ 2 ^ f.fb ≤ n)
    (sat neg inexact : Bool) :
    placed f sat neg (f.qmin + d) n inexact =
      if d * 2 ^ f.fb + n ≤ f.top then
        (f.sign neg + (d * 2 ^ f.fb + n),
          if inexact then (if d * 2 ^ f.fb + n < 2 ^ f.fb then flagNX ||| flagUF else flagNX) else 0)
      else (if sat then f.sign neg + f.top else if f.infs then f.sign neg + f.top + 1 else f.canonical, flagOF ||| flagNX) := by
  obtain ⟨D, hD⟩ : ∃ D : Nat, f.qmax = f.qmin + D := ⟨(f.qmax - f.qmin).toNat, by have := ok.qmax_ge; omega⟩
  have top : f.top = D * 2 ^ f.fb + f.nmax := by rw [← ok.maxBits_eq, Fmt.maxBits, hD]; simp
  have ge := ok.nmax_ge
  have lt := ok.nmax_lt
  have hb : 0 < 2 ^ f.fb := by positivity
  rw [pow_succ] at hn lt
  have beyond : (f.qmax < f.qmin + d ∨ (f.qmin + d = f.qmax ∧ f.nmax < n)) ↔ ¬d * 2 ^ f.fb + n ≤ f.top := by
    rw [hD, top]
    rcases lt_trichotomy d D with hd | rfl | hd
    · have := Nat.mul_le_mul_right (2 ^ f.fb) hd
      rw [Nat.succ_mul] at this
      omega
    · omega
    · have := Nat.mul_le_mul_right (2 ^ f.fb) hd
      rw [Nat.succ_mul] at this
      omega
  unfold placed
  by_cases hp : d * 2 ^ f.fb + n ≤ f.top
  · rw [if_neg (beyond.not.mpr (not_not.mpr hp)), if_pos hp]
    have under : n < 2 ^ f.fb ↔ d * 2 ^ f.fb + n < 2 ^ f.fb := by
      rcases h with rfl | h
      · simp
      · omega
    simp only [add_sub_cancel_left, Int.toNat_natCast, under]
    split_ifs <;> rfl
  · rw [if_pos (beyond.mpr hp), if_neg hp, ok.maxBits_eq]
    by_cases hi : f.infs = true
    · rw [ok.infBits_eq hi]; simp [hi, add_assoc]
    · simp [hi, ok.nanBits_eq]

/-- R50, R54: a significand in its place is the rounded value where it lies nearest. -/
theorem rounds_placed {f : Fmt} (ok : FmtOk f) {d n : Nat} (hn : n ≤ 2 ^ (f.fb + 1)) (h : d = 0 ∨ 2 ^ f.fb ≤ n)
    (sat neg : Bool) {inexact : Bool} {c : Nat → Ordering} {p : Nat} (hp : p = d * 2 ^ f.fb + n)
    (above : c (f.units p + f.units (p + 1)) = .gt ∨ (c (f.units p + f.units (p + 1)) = .eq ∧ p % 2 = 0))
    (below : p = 0 ∨ c (f.units (p - 1) + f.units p) = .lt ∨ (c (f.units (p - 1) + f.units p) = .eq ∧ p % 2 = 0))
    (exact_ : c (2 * f.units p) = .eq ↔ inexact = false) :
    f.Rounds sat neg c (placed f sat neg (f.qmin + d) n inexact) := by
  refine ⟨p, above, below, ?_⟩
  rw [placed_eq ok hn h, ← hp]
  cases inexact <;> simp [exact_]

/-- The place of a value in units 2^(h + 1) times finer than the smallest subnormal. -/
theorem lastPlace_fine (f : Fmt) (m h : Nat) :
    lastPlace f m (f.qmin - 1 - h) = f.qmin + ((Nat.log2 m - f.fb - (h + 1) : Nat) : Int) := by
  unfold lastPlace; omega

/-- The significand in that place has no more bits than the format, and as many where the value is above the subnormals. -/
theorem significand_bounds (f : Fmt) {m : Nat} (hm : m ≠ 0) (h : Nat) :
    let d := Nat.log2 m - f.fb - (h + 1)
    m / 2 ^ (d + h + 1) < 2 ^ (f.fb + 1) ∧ (d = 0 ∨ 2 ^ f.fb ≤ m / 2 ^ (d + h + 1)) := by
  intro d
  constructor
  · rw [Nat.div_lt_iff_lt_mul (by positivity), ← pow_add]
    exact Nat.lt_log2_self.trans_le (Nat.pow_le_pow_right (by decide) (by omega))
  · refine or_iff_not_imp_left.mpr fun hd => ?_
    rw [Nat.le_div_iff_mul_le (by positivity), ← pow_add]
    exact (Nat.pow_le_pow_right (by decide) (by omega)).trans (Nat.log2_self_le hm)

theorem shifted_down (more : Bool) (m sh : Nat) : shifted more m sh 0 =
    if 2 ^ sh < 2 * (m % 2 ^ sh) ∨ (2 ^ sh = 2 * (m % 2 ^ sh) ∧ (more = true ∨ m / 2 ^ sh % 2 = 1)) then m / 2 ^ sh + 1
    else m / 2 ^ sh := by
  simp [shifted]

/-- R50, R54: rounding gives the nearest pattern, ties to even, for a value that lies among the half-units as c says. -/
theorem roundFin_rounds {f : Fmt} (ok : FmtOk f) (sat neg more : Bool) {c : Nat → Ordering} {m h : Nat} (hm : m = 0 → more = false)
    (hc : ∀ n, c n = (compare (n * 2 ^ h) m).then (if more then .lt else .eq)) :
    f.Rounds sat neg c (f.roundFin sat neg m (f.qmin - 1 - h) more) := by
  have gt {n : Nat} (hn : m < n * 2 ^ h) : c n = .gt := by rw [hc, Nat.compare_eq_gt.mpr hn]; rfl
  have lt {n : Nat} (hn : n * 2 ^ h < m) : c n = .lt := by rw [hc, Nat.compare_eq_lt.mpr hn]; rfl
  have eq {n : Nat} (hn : n * 2 ^ h = m) : c n = if more then .lt else .eq := by rw [hc, Nat.compare_eq_eq.mpr hn]; rfl
  have mono (p : Nat) : f.units p * 2 ^ h < f.units (p + 1) * 2 ^ h :=
    Nat.mul_lt_mul_of_pos_right (units_strictMono f p.lt_succ_self) (by positivity)
  by_cases h0 : m = 0
  · subst h0
    obtain rfl := hm rfl
    refine ⟨0, .inl (gt ?_), .inl rfl, ?_⟩
    · have := mono 0
      rw [add_mul]; omega
    · rw [roundFin_zero, eq (by simp)]; simp
  -- m is n places of 2H and a rest
  obtain ⟨small, normal⟩ := significand_bounds f h0 h
  rw [roundFin_pos h0, lastPlace_fine]
  generalize Nat.log2 m - f.fb - (h + 1) = d at *
  rw [show (f.qmin + (d : Int) - (f.qmin - 1 - h)).toNat = d + h + 1 by omega,
    show (f.qmin - 1 - h - (f.qmin + (d : Int))).toNat = 0 by omega, shifted_down]
  have split := Nat.div_add_mod m (2 ^ (d + h + 1))
  have rest := Nat.mod_lt m (show 0 < 2 ^ (d + h + 1) by positivity)
  generalize m / 2 ^ (d + h + 1) = n at *
  generalize m % 2 ^ (d + h + 1) = low at *
  have at0 : f.units (d * 2 ^ f.fb + n) * 2 ^ h = 2 ^ (d + h) * n := by rw [units_place f small.le normal, pow_add]; ring
  have at1 : f.units (d * 2 ^ f.fb + n + 1) * 2 ^ h = 2 ^ (d + h) * n + 2 ^ (d + h) := by
    rw [add_assoc, units_place f (by omega) (by omega), pow_add]; ring
  have parity : (d * 2 ^ f.fb + n) % 2 = n % 2 := by
    rw [← Nat.sub_add_cancel ok.frac, pow_succ, ← mul_assoc, Nat.mul_add_mod_self_right]
  rw [pow_succ 2 (d + h), mul_comm _ 2] at *
  rw [mul_assoc] at split
  generalize 2 ^ (d + h) = H at *
  generalize hp : d * 2 ^ f.fb + n = p at *
  by_cases up : 2 * H < 2 * low ∨ (2 * H = 2 * low ∧ (more = true ∨ n % 2 = 1))
  · rw [if_pos up]
    refine rounds_placed ok (by omega) (by omega) sat neg (p := p + 1) (by omega) (.inl (gt ?_)) (.inr ?_) ?_
    · have := mono (p + 1)
      rw [add_mul]; omega
    · rw [Nat.add_sub_cancel]
      rcases up with up | ⟨tie, up⟩
      · exact .inl (lt (by rw [add_mul]; omega))
      · rw [eq (by rw [add_mul]; omega)]
        cases more
        · exact .inr ⟨rfl, by simp at up; omega⟩
        · exact .inl rfl
    · rw [gt (by rw [mul_assoc]; omega)]
      have : low ≠ 0 := by omega
      simp [this]
  · rw [if_neg up]
    refine rounds_placed ok (by omega) normal sat neg hp.symm ?_ ?_ ?_
    · rcases Nat.lt_or_ge low H with hl | hl
      · exact .inl (gt (by rw [add_mul]; omega))
      · have tie : more = false ∧ n % 2 ≠ 1 := by
          have := not_or.mp up
          rw [← Bool.not_eq_true, ← not_or]
          exact fun h => this.2 ⟨by omega, h⟩
        rw [eq (by rw [add_mul]; omega), tie.1]
        exact .inr ⟨rfl, by omega⟩
    · rcases Nat.eq_zero_or_pos p with h | h
      · exact .inl h
      · have := mono (p - 1)
        rw [Nat.sub_add_cancel h] at this
        exact .inr (.inl (lt (by rw [add_mul]; omega)))
    · rcases Nat.eq_zero_or_pos low with h | h
      · rw [eq (by rw [mul_assoc]; omega)]
        cases more <;> simp [h]
      · rw [lt (by rw [mul_assoc]; omega)]
        have : low ≠ 0 := by omega
        simp [this]

/-! The exponent to which a value is written does not matter. -/

theorem log2_append {m r k : Nat} (hm : m ≠ 0) (hr : r < 2 ^ k) : Nat.log2 (m * 2 ^ k + r) = Nat.log2 m + k := by
  have hk : 0 < 2 ^ k := by positivity
  rw [Nat.log2_eq_iff (by positivity)]
  constructor
  · rw [pow_add]
    exact (Nat.mul_le_mul_right _ (Nat.log2_self_le hm)).trans (Nat.le_add_right ..)
  · rw [show Nat.log2 m + k + 1 = (Nat.log2 m + 1) + k by omega, pow_add]
    calc m * 2 ^ k + r < (m + 1) * 2 ^ k := by rw [Nat.succ_mul]; omega
      _ ≤ _ := Nat.mul_le_mul_right _ Nat.lt_log2_self

theorem lastPlace_append (f : Fmt) {m r k : Nat} (hm : m ≠ 0) (hr : r < 2 ^ k) (e : Int) :
    lastPlace f (m * 2 ^ k + r) (e - k) = lastPlace f m e := by
  unfold lastPlace; rw [log2_append hm hr]; omega

/-- Bits below the last place that is kept count only as something smaller, where there is a place to be dropped above them. -/
theorem shifted_append {m r k sh : Nat} (hr : r < 2 ^ k) (h : 0 < sh ∨ r = 0) (more : Bool) :
    shifted more (m * 2 ^ k + r) (sh + k) 0 = shifted (r != 0 || more) m sh 0 ∧
      ((m * 2 ^ k + r) % 2 ^ (sh + k) != 0 || more) = (m % 2 ^ sh != 0 || (r != 0 || more)) := by
  have hk : 0 < 2 ^ k := by positivity
  have quot : (m * 2 ^ k + r) / 2 ^ (sh + k) = m / 2 ^ sh := by
    rw [add_comm sh, pow_add, ← Nat.div_div_eq_div_mul, mul_comm, Nat.mul_add_div hk, Nat.div_eq_of_lt hr, add_zero]
  have rest : (m * 2 ^ k + r) % 2 ^ (sh + k) = m % 2 ^ sh * 2 ^ k + r := by
    rw [add_comm sh, pow_add, Nat.mod_mul, mul_comm m, Nat.mul_add_mod, Nat.mod_eq_of_lt hr, Nat.mul_add_div hk,
      Nat.div_eq_of_lt hr, add_zero]
    ring
  rw [shifted_down, shifted_down, quot, rest, pow_add]
  generalize m / 2 ^ sh = n
  refine ⟨if_congr ?_ rfl rfl, ?_⟩
  · obtain rfl | ⟨T, hT⟩ : sh = 0 ∨ ∃ T, 2 ^ sh = 2 * T := by
      cases sh with
      | zero => exact .inl rfl
      | succ j => exact .inr ⟨2 ^ j, by ring⟩
    · obtain rfl : r = 0 := by simpa using h
      simp [Nat.mod_one]
    rw [hT]
    generalize m % (2 * T) = low
    generalize 2 ^ k = K at *
    rcases lt_trichotomy low T with hl | rfl | hl
    · have := Nat.mul_le_mul_right K hl
      rw [Nat.succ_mul] at this
      rw [mul_assoc]
      exact iff_of_false (by omega) (by omega)
    · rw [mul_assoc]
      by_cases hr0 : r = 0
      · simp [hr0]
      · simp only [bne_iff_ne.mpr hr0, Bool.true_or]
        exact iff_of_true (.inl (by omega)) (by simp)
    · have := Nat.mul_le_mul_right K hl
      rw [Nat.succ_mul] at this
      rw [mul_assoc]
      exact iff_of_true (.inl (by omega)) (.inl (by omega))
  · rw [← Bool.or_assoc]
    congr 1
    rw [Bool.eq_iff_iff]
    simp only [bne_iff_ne, Bool.or_eq_true, ne_eq, Nat.add_eq_zero_iff, Nat.mul_eq_zero, hk.ne', or_false]
    tauto

/-- A value in a finer unit. -/
theorem roundFin_finer (f : Fmt) (sat neg : Bool) (m : Nat) (e : Int) (k : Nat) :
    f.roundFin sat neg (m * 2 ^ k) (e - k) = f.roundFin sat neg m e := by
  by_cases hm : m = 0
  · simp [hm, roundFin_zero]
  have hk : 0 < 2 ^ k := by positivity
  have place := lastPlace_append f hm hk e
  rw [add_zero] at place
  rw [roundFin_pos hm, roundFin_pos (by positivity), place]
  clear place
  generalize lastPlace f m e = q
  rcases le_or_gt e q with he | he
  · rw [show (q - (e - k)).toNat = (q - e).toNat + k by omega, show (e - k - q).toNat = 0 by omega,
      show (e - q).toNat = 0 by omega]
    obtain ⟨count, exact_⟩ := shifted_append (m := m) (sh := (q - e).toNat) hk (.inr rfl) false
    rw [add_zero] at count exact_
    rw [count, exact_]
    rfl
  · obtain ⟨a, rfl⟩ : ∃ a : Nat, e = q + a := ⟨(e - q).toNat, by omega⟩
    rw [show (q - (q + (a : Int) - k)).toNat = k - a by omega, show (q + (a : Int) - k - q).toNat = a - k by omega,
      show (q - (q + (a : Int))).toNat = 0 by omega, show (q + (a : Int) - q).toNat = a by omega]
    have whole : m * 2 ^ k % 2 ^ (k - a) = 0 :=
      Nat.mod_eq_zero_of_dvd ((pow_dvd_pow 2 (by omega)).mul_left m)
    have : m * 2 ^ k / 2 ^ (k - a) * 2 ^ (a - k) = m * 2 ^ a := by
      rcases le_total a k with h | h
      · rw [Nat.sub_eq_zero_of_le h, pow_zero, mul_one, ← Nat.sub_add_cancel h, pow_add, Nat.add_sub_cancel]
        rw [mul_comm (2 ^ (k - a)), ← mul_assoc, Nat.mul_div_cancel _ (by positivity)]
      · rw [Nat.sub_eq_zero_of_le h, pow_zero, Nat.div_one, mul_assoc, ← pow_add]; congr 2; omega
    simp [shifted, whole, this, Nat.mod_one]

/-- A value cut off at its last place, with what was cut off said by `more`, where the format has no room for that place. -/
theorem roundFin_cut (f : Fmt) (sat neg : Bool) {m k r : Nat} (e : Int) (more : Bool) (hm : f.fb < Nat.log2 m) (hr : r < 2 ^ k) :
    f.roundFin sat neg (m * 2 ^ k + r) (e - k) more = f.roundFin sat neg m e (r != 0 || more) := by
  have h0 : m ≠ 0 := by rintro rfl; simp at hm
  have room : 1 ≤ lastPlace f m e - e := by unfold lastPlace; omega
  rw [roundFin_pos h0, roundFin_pos (by positivity), lastPlace_append f h0 hr]
  generalize lastPlace f m e = q at *
  obtain ⟨count, exact_⟩ := shifted_append (m := m) (sh := (q - e).toNat) hr (.inl (by omega)) more
  rw [show (q - (e - k)).toNat = (q - e).toNat + k by omega, show (e - k - q).toNat = 0 by omega,
    show (e - q).toNat = 0 by omega, count, exact_]

end Sys2Proof.Proofs

namespace Sys2Proof.Proofs
open Machine

/-! # What a decoded value stands for -/

/-! Patterns. -/

theorem unsigned_lt (f : Fmt) (x : Nat) : f.unsigned x < 2 ^ (f.eb + f.fb) := Nat.mod_lt _ (by positivity)

theorem unsigned_eq (f : Fmt) (x : Nat) : f.unsigned x = bitsOf x f.fb f.eb * 2 ^ f.fb + bitsOf x 0 f.fb := by
  unfold Fmt.unsigned bitsOf
  rw [add_comm f.eb, pow_add, Nat.mod_mul, pow_zero, Nat.div_one]; ring

theorem negative_iff (f : Fmt) (x : Nat) : (bitsOf x (f.eb + f.fb) 1 == 1) = decide (x / 2 ^ (f.eb + f.fb) % 2 = 1) := by
  simp [bitsOf, Bool.beq_eq_decide_eq]

/-- A pattern of the format's width by its sign and the rest. -/
theorem sign_add_unsigned {f : Fmt} {x : Nat} (hx : x < 2 ^ f.width) :
    f.sign (decide (x / 2 ^ (f.eb + f.fb) % 2 = 1)) + f.unsigned x = x := by
  rw [Fmt.width, add_assoc, pow_add, pow_one] at hx
  have h := Nat.div_add_mod x (2 ^ (f.eb + f.fb))
  have h2 : x / 2 ^ (f.eb + f.fb) < 2 := Nat.div_lt_of_lt_mul (by rwa [mul_comm])
  unfold Fmt.sign Fmt.unsigned
  generalize x / 2 ^ (f.eb + f.fb) = b at *
  obtain rfl | rfl : b = 0 ∨ b = 1 := by omega
  all_goals simp; omega

section
variable (f : Fmt) (neg : Bool) {p : Nat} (hp : p < 2 ^ (f.eb + f.fb))
include hp

@[simp] theorem unsigned_sign_add : f.unsigned (f.sign neg + p) = p := by
  unfold Fmt.unsigned Fmt.sign
  cases neg <;> simp [Nat.mod_eq_of_lt hp]

@[simp] theorem negative_sign_add : (f.sign neg + p) / 2 ^ (f.eb + f.fb) % 2 = 1 ↔ neg = true := by
  unfold Fmt.sign
  cases neg <;> simp [Nat.div_eq_of_lt hp, Nat.add_div_of_dvd_right (dvd_refl (2 ^ (f.eb + f.fb)))]

theorem sign_add_lt : f.sign neg + p < 2 ^ f.width := by
  rw [Fmt.width, add_assoc, pow_add, pow_one]
  unfold Fmt.sign
  split <;> omega

end

theorem subnormal_iff (f : Fmt) (x : Nat) : f.subnormal x = true ↔ 0 < f.unsigned x ∧ f.unsigned x < 2 ^ f.fb := by
  have hfr : bitsOf x 0 f.fb < 2 ^ f.fb := Nat.mod_lt _ (by positivity)
  rw [unsigned_eq]
  unfold Fmt.subnormal
  rcases Nat.eq_zero_or_pos (bitsOf x f.fb f.eb) with h | h
  · simp only [h, beq_self_eq_true, Bool.true_and, bne_iff_ne]; omega
  · have := Nat.le_mul_of_pos_left (2 ^ f.fb) h
    simp only [h.ne', Bool.and_eq_true, beq_iff_eq, false_and, false_iff]; omega

/-- R53: the model's flushing is that of the statements on patterns of the format's width. -/
theorem flush_eq {f : Fmt} (ftz : Bool) {r : Nat × Flags} (hr : r.1 < 2 ^ f.width) : f.flush ftz r = f.flushed ftz r := by
  unfold Fmt.flush Fmt.flushed
  by_cases h : ftz = true ∧ f.subnormal r.1 = true
  · have split := sign_add_unsigned hr
    rw [if_pos (by simpa using h), if_pos ⟨h.1, (subnormal_iff f r.1).mp h.2⟩, negative_iff]
    congr 1; omega
  · rw [if_neg (by simpa using h), if_neg (fun h' => h ⟨h'.1, (subnormal_iff f r.1).mpr h'.2⟩)]

@[simp] theorem flush_false (f : Fmt) (r : Nat × Flags) : f.flush false r = r := rfl
@[simp] theorem source_false (f : Fmt) (x : Nat) : f.source false x = f.decode x := rfl
@[simp] theorem taken_false (f : Fmt) (x : Nat) : f.taken false x = x := by simp [Fmt.taken, Fmt.flushed]

theorem taken_of_subnormal {f : Fmt} {x : Nat} (hx : x < 2 ^ f.width) (h : f.subnormal x = true) :
    f.taken true x = f.sign (decide (x / 2 ^ (f.eb + f.fb) % 2 = 1)) := by
  rw [Fmt.taken, ← flush_eq true hx, Fmt.flush, if_pos (by simpa using h), negative_iff]

theorem taken_of_not_subnormal {f : Fmt} {ftz : Bool} {x : Nat} (h : ¬(ftz = true ∧ f.subnormal x = true)) : f.taken ftz x = x := by
  rw [subnormal_iff] at h
  rw [Fmt.taken, Fmt.flushed, if_neg h]

/-- Flushing an operand gives a pattern of the width that flushing leaves alone. -/
theorem taken_stable {f : Fmt} (ftz : Bool) {x : Nat} (hx : x < 2 ^ f.width) :
    f.taken ftz x < 2 ^ f.width ∧ ¬(ftz = true ∧ f.subnormal (f.taken ftz x) = true) := by
  by_cases h : ftz = true ∧ f.subnormal x = true
  · obtain ⟨rfl, h⟩ := h
    rw [taken_of_subnormal hx h]
    have h0 : 0 < 2 ^ (f.eb + f.fb) := by positivity
    refine ⟨sign_add_lt f _ h0, ?_⟩
    rw [subnormal_iff, ← add_zero (f.sign _), unsigned_sign_add f _ h0]
    simp
  · rw [taken_of_not_subnormal h]
    exact ⟨hx, h⟩

/-! Values. -/

/-- A decoded value stands for a number in units of 2^-u, an infinity or a NaN. -/
inductive Stands (u : Nat) : Val → Held → Prop
  | nan : Stands u .nan .nan
  | inf (a : Bool) : Stands u (.inf a) (.inf a)
  | fin (a : Bool) (m : Nat) (e : Int) (k : Nat) (h : e = k - u) : Stands u (.fin a m e) (.num a (m * 2 ^ k))

theorem Stands.nan_iff {u : Nat} {v : Val} {h : Held} (s : Stands u v h) : v = .nan ↔ h = .nan := by cases s <;> simp

/-- R46: what a pattern holds, by the place of its unsigned part. -/
theorem held_of_le {f : Fmt} {x : Nat} (h : f.unsigned x ≤ f.top) :
    f.held x = .num (decide (x / 2 ^ (f.eb + f.fb) % 2 = 1)) (f.units (f.unsigned x)) := by rw [Fmt.held, if_pos h]

theorem held_of_eq {f : Fmt} {x : Nat} (hi : f.infs = true) (h : f.unsigned x = f.top + 1) :
    f.held x = .inf (decide (x / 2 ^ (f.eb + f.fb) % 2 = 1)) := by rw [Fmt.held, if_neg (by omega), if_pos ⟨hi, h⟩]

theorem held_of_gt {f : Fmt} {x : Nat} (h : f.top + f.infs.toNat < f.unsigned x) : f.held x = .nan := by
  rw [Fmt.held, if_neg (by omega), if_neg]
  rintro ⟨hi, h'⟩
  rw [hi] at h
  exact absurd h (by simp [h'])

theorem held_sign_add {f : Fmt} (neg : Bool) {p : Nat} (hp : p ≤ f.top) (ok : FmtOk f) :
    f.held (f.sign neg + p) = .num neg (f.units p) := by
  have hl : p < 2 ^ (f.eb + f.fb) := by have := ok.canonical_lt; have := ok.canonical_gt; omega
  rw [held_of_le (by rwa [unsigned_sign_add f neg hl]), unsigned_sign_add f neg hl]
  simp [negative_sign_add f neg hl]

/-- R46: the model's decoding. -/
theorem decode_stands {f : Fmt} (ok : FmtOk f) (x : Nat) : Stands f.scale (f.decode x) (f.held x) := by
  have hex : bitsOf x f.fb f.eb < 2 ^ f.eb := Nat.mod_lt _ (by positivity)
  have hfr : bitsOf x 0 f.fb < 2 ^ f.fb := Nat.mod_lt _ (by positivity)
  have hx := unsigned_eq f x
  have all : 2 ^ (f.eb + f.fb) = (2 ^ f.eb - 1) * 2 ^ f.fb + 2 ^ f.fb := by
    rw [← Nat.succ_mul, Nat.succ_eq_add_one, Nat.sub_add_cancel Nat.one_le_two_pow, pow_add]
  have hb : 0 < 2 ^ f.fb := by positivity
  have inf_eq := ok.infBits_eq
  have nan_eq := ok.nanBits_eq
  unfold Fmt.infBits at inf_eq
  unfold Fmt.nanBits Fmt.canonical at nan_eq
  unfold Fmt.decode
  simp only [negative_iff]
  generalize bitsOf x f.fb f.eb = ex at *
  generalize bitsOf x 0 f.fb = fr at *
  by_cases special : f.infs = true ∧ ex = 2 ^ f.eb - 1
  · obtain ⟨hi, rfl⟩ := special
    rw [inf_eq hi] at hx
    rw [if_pos (by simp [hi])]
    by_cases h0 : fr = 0
    · rw [if_pos h0, held_of_eq hi (by omega)]
      exact .inf _
    · rw [if_neg h0, held_of_gt (by rw [hi, hx]; simp; omega)]
      exact .nan
  rw [if_neg (by simpa using special)]
  by_cases last : f.infs = false ∧ ex = 2 ^ f.eb - 1 ∧ fr = 2 ^ f.fb - 1
  · obtain ⟨hi, rfl, rfl⟩ := last
    rw [hi] at nan_eq
    rw [if_pos (by simp [hi]), held_of_gt (by rw [hi, hx]; simp at nan_eq ⊢; omega)]
    exact .nan
  rw [if_neg (by simpa [and_assoc] using last)]
  have finite : f.unsigned x ≤ f.top := by
    rcases Nat.lt_or_ge ex (2 ^ f.eb - 1) with low | high
    · have := Nat.mul_le_mul_right (2 ^ f.fb) low
      rw [Nat.succ_mul] at this
      cases hi : f.infs
      · simp [hi] at nan_eq
        omega
      · have := inf_eq hi
        omega
    · obtain rfl : ex = 2 ^ f.eb - 1 := by omega
      have hi : f.infs = false := by simpa using special
      simp [hi] at nan_eq last
      omega
  rw [held_of_le finite]
  by_cases h0 : ex = 0
  · subst h0
    rw [if_pos rfl, hx]
    have : f.units (0 * 2 ^ f.fb + fr) = fr * 2 ^ 0 := units_place f (by rw [pow_succ]; omega) (.inl rfl)
    rw [this]
    exact .fin _ _ _ _ (by rw [ok.qmin_eq, Nat.cast_zero, zero_sub])
  · obtain ⟨d, rfl⟩ := Nat.exists_eq_succ_of_ne_zero h0
    have : f.units (d.succ * 2 ^ f.fb + fr) = (2 ^ f.fb + fr) * 2 ^ d := by
      rw [Nat.succ_mul, add_assoc]
      exact units_place f (by rw [pow_succ]; omega) (.inr (by omega))
    rw [if_neg h0, hx, this]
    exact .fin _ _ _ _ (by rw [ok.qmin_eq]; push_cast; omega)

/-- R53: an operand as the model takes it. -/
theorem source_stands {f : Fmt} (ok : FmtOk f) (ftz : Bool) {x : Nat} (hx : x < 2 ^ f.width) :
    Stands f.scale (f.source ftz x) (f.held (f.taken ftz x)) := by
  unfold Fmt.source
  by_cases h : ftz = true ∧ f.subnormal x = true
  · obtain ⟨rfl, h⟩ := h
    rw [if_pos (by simpa using h), negative_iff, taken_of_subnormal hx h, ← add_zero (f.sign _), held_sign_add _ (Nat.zero_le _) ok,
      units_zero]
    simpa using Stands.fin (u := f.scale) (decide (x / 2 ^ (f.eb + f.fb) % 2 = 1)) 0 0 f.scale (by simp)
  · rw [if_neg (by simpa using h), taken_of_not_subnormal h]
    exact decode_stands ok x

end Sys2Proof.Proofs

namespace Sys2Proof.Proofs
open Machine

/-! # A value rounded once (R50, R53, R54) -/

theorem Stands.num_inv {u : Nat} {v : Val} {a : Bool} {n : Nat} (h : Stands u v (.num a n)) :
    ∃ m e k, v = .fin a m e ∧ e = ((k : Nat) : Int) - u ∧ n = m * 2 ^ k := by
  generalize hn : Held.num a n = x at h
  cases h with
  | nan => cases hn
  | inf => cases hn
  | fin b m e k he => cases hn; exact ⟨m, e, k, rfl, he, rfl⟩

theorem Stands.inf_inv {u : Nat} {v : Val} {a : Bool} (h : Stands u v (.inf a)) : v = .inf a := by cases h; rfl
theorem Stands.nan_inv {u : Nat} {v : Val} (h : Stands u v .nan) : v = .nan := by cases h; rfl

theorem Stands.of_nan {u : Nat} {h : Held} (s : Stands u .nan h) : h = .nan := by cases s; rfl
theorem Stands.of_inf {u : Nat} {a : Bool} {h : Held} (s : Stands u (.inf a) h) : h = .inf a := by cases s; rfl
theorem Stands.of_fin {u m : Nat} {a : Bool} {e : Int} {h : Held} (s : Stands u (.fin a m e) h) :
    ∃ k : Nat, e = k - u ∧ h = .num a (m * 2 ^ k) := by cases s with | fin _ _ _ k he => exact ⟨k, he, rfl⟩

/-- Rounding takes a number in the unit in which it stands. -/
theorem encode_num (f : Fmt) (sat : Bool) {u : Nat} {v : Val} {a : Bool} {n : Nat} (h : Stands u v (.num a n)) :
    f.encode sat v = f.roundFin sat a n (-u) := by
  obtain ⟨m, e, k, rfl, rfl, rfl⟩ := h.num_inv
  rw [show -(u : Int) = (k : Int) - u - k by omega, roundFin_finer]
  rfl

theorem encode_inf {f : Fmt} (ok : FmtOk f) (sat a : Bool) : f.encode sat (.inf a) =
    if f.infs then (f.sign a + f.top + 1, 0) else (if sat then f.sign a + f.top else f.canonical, flagNV) := by
  show (if f.infs then (f.sign a + f.infBits, 0) else (if sat then f.sign a + f.maxBits else f.nanBits, flagNV)) = _
  by_cases hi : f.infs = true
  · simp only [hi, if_true, ok.infBits_eq hi, add_assoc]
  · simp only [hi, if_false, Bool.false_eq_true, ok.maxBits_eq, ok.nanBits_eq]

theorem encode_nan {f : Fmt} (ok : FmtOk f) (sat : Bool) : f.encode sat .nan = (f.canonical, 0) := by rw [← ok.nanBits_eq]; rfl

/-- Rounding sees only what a value stands for. -/
theorem encode_congr (f : Fmt) (sat : Bool) {u : Nat} {v w : Val} {h : Held} (hv : Stands u v h) (hw : Stands u w h) :
    f.encode sat v = f.encode sat w := by
  cases h with
  | nan => rw [hv.nan_inv, hw.nan_inv]
  | inf a => rw [hv.inf_inv, hw.inf_inv]
  | num a n => rw [encode_num f sat hv, encode_num f sat hw]

theorem rounds_num {f : Fmt} (ok : FmtOk f) (sat a : Bool) (n g : Nat) :
    f.Rounds sat a (halves n (2 ^ g)) (f.roundFin sat a n (-((f.scale + g : Nat) : Int))) := by
  have : f.roundFin sat a n (-((f.scale + g : Nat) : Int)) = f.roundFin sat a (n * 2 ^ 1) (f.qmin - 1 - g) := by
    rw [← roundFin_finer f sat a n _ 1, ok.qmin_eq]
    congr 1; push_cast; omega
  rw [this]
  refine roundFin_rounds ok sat a false (fun _ => rfl) fun n' => ?_
  rw [halves, show n * 2 ^ 1 = 2 * n by ring]
  cases compare (n' * 2 ^ g) (2 * n) <;> rfl

theorem sign_top_lt {f : Fmt} (ok : FmtOk f) (a : Bool) {p : Nat} (hp : p ≤ f.top + f.infs.toNat) : f.sign a + p < 2 ^ f.width :=
  sign_add_lt f a (by have := ok.canonical_lt; have := ok.canonical_gt; omega)

theorem canonical_lt_width {f : Fmt} (ok : FmtOk f) : f.canonical < 2 ^ f.width := by
  simpa [Fmt.sign] using sign_add_lt f false ok.canonical_lt

/-- A rounded result is a pattern of the format's width. -/
theorem rounds_lt {f : Fmt} (ok : FmtOk f) {sat neg : Bool} {c : Nat → Ordering} {r : Nat × Flags} (h : f.Rounds sat neg c r) :
    r.1 < 2 ^ f.width := by
  obtain ⟨p, -, -, rfl⟩ := h
  by_cases hp : p ≤ f.top
  · rw [if_pos hp]
    exact sign_top_lt ok neg (by omega)
  · rw [if_neg hp]
    show (if sat then _ else _) < _
    split_ifs with hs hi
    · exact sign_top_lt ok neg (by omega)
    · exact sign_top_lt ok neg (p := f.top + 1) (by simp [hi])
    · exact canonical_lt_width ok

/-- A number is rounded, whatever its exponent. -/
theorem encode_fin_rounds {f : Fmt} (ok : FmtOk f) (sat a : Bool) (m : Nat) (e : Int) :
    ∃ c, f.Rounds sat a c (f.encode sat (.fin a m e)) := by
  have fine : Stands (f.scale + e.natAbs) (.fin a m e) (.num a (m * 2 ^ (e + f.scale + e.natAbs).toNat)) :=
    .fin _ _ _ _ (by omega)
  rw [encode_num f sat fine]
  exact ⟨_, rounds_num ok sat a _ _⟩

/-- The results of a format are patterns of its width. -/
theorem encode_lt {f : Fmt} (ok : FmtOk f) (sat : Bool) (v : Val) : (f.encode sat v).1 < 2 ^ f.width := by
  cases v with
  | nan => rw [encode_nan ok]; exact canonical_lt_width ok
  | inf a =>
    rw [encode_inf ok]
    split_ifs with hi hs
    · exact sign_top_lt ok a (p := f.top + 1) (by simp [hi])
    · exact sign_top_lt ok a (by omega)
    · exact canonical_lt_width ok
  | fin a m e =>
    obtain ⟨c, h⟩ := encode_fin_rounds ok sat a m e
    exact rounds_lt ok h

/-- Only a subnormal is flushed. -/
theorem flush_of_normal {f : Fmt} (ftz : Bool) {r : Nat × Flags} (h : 2 ^ f.fb ≤ f.unsigned r.1) : f.flush ftz r = r := by
  unfold Fmt.flush
  rw [if_neg]
  simp only [Bool.and_eq_true, subnormal_iff]
  omega

theorem flush_canonical {f : Fmt} (ok : FmtOk f) (ftz : Bool) (fl : Flags) : f.flush ftz (f.canonical, fl) = (f.canonical, fl) := by
  refine flush_of_normal ftz ?_
  have h := unsigned_sign_add f false ok.canonical_lt
  simp only [Fmt.sign, Bool.false_eq_true, if_false, zero_add] at h
  have := ok.canonical_gt
  have := ok.top_ge
  simp only [h]; omega

theorem flush_top {f : Fmt} (ok : FmtOk f) (ftz a : Bool) {p : Nat} (hp : f.top ≤ p) (hp' : p ≤ f.top + f.infs.toNat) (fl : Flags) :
    f.flush ftz (f.sign a + p, fl) = (f.sign a + p, fl) := by
  refine flush_of_normal ftz ?_
  have := ok.canonical_gt
  have := ok.canonical_lt
  have := ok.top_ge
  simp only [unsigned_sign_add f a (p := p) (by omega)]; omega

theorem flush_encode_nan {f : Fmt} (ok : FmtOk f) (sat ftz : Bool) : f.flush ftz (f.encode sat .nan) = (f.canonical, 0) := by
  rw [encode_nan ok, flush_canonical ok]

theorem flush_encode_inf {f : Fmt} (ok : FmtOk f) (sat ftz a : Bool) : f.flush ftz (f.encode sat (.inf a)) =
    if f.infs then (f.sign a + f.top + 1, 0) else (if sat then f.sign a + f.top else f.canonical, flagNV) := by
  rw [encode_inf ok]
  split_ifs with hi hs
  · exact flush_top ok ftz a (p := f.top + 1) (by omega) (by simp [hi]) 0
  · exact flush_top ok ftz a le_rfl (by omega) _
  · exact flush_canonical ok ftz _

/-- R50, R53, R54: an exact result, rounded once and flushed, is what the statements ask for. -/
theorem gives_result {f : Fmt} (ok : FmtOk f) {sat ftz b nv : Bool} {g : Nat} {v : Val} {h : Held} (hs : Stands (f.scale + g) v h)
    (hb : b = true → h = .nan) (hnv : h = .nan → b = nv) : f.Gives sat ftz h (2 ^ g) nv (f.result sat ftz (v, b)) := by
  cases h with
  | nan =>
    obtain rfl := hnv rfl
    simp [Fmt.Gives, Fmt.result, hs.nan_inv, flush_encode_nan ok]
  | inf a =>
    obtain rfl : b = false := by simpa using hb
    simp [Fmt.Gives, Fmt.result, hs.inf_inv, flush_encode_inf ok]
  | num a n =>
    obtain rfl : b = false := by simpa using hb
    refine ⟨_, rounds_num ok sat a n g, ?_⟩
    rw [← encode_num f sat hs, ← flush_eq ftz (encode_lt ok sat v)]
    simp [Fmt.result]

/-- R50: the same for a conversion, which is never invalid. -/
theorem gives_encode {f : Fmt} (ok : FmtOk f) (sat ftz : Bool) {g : Nat} {v : Val} {h : Held} (hs : Stands (f.scale + g) v h) :
    f.Gives sat ftz h (2 ^ g) false (f.flush ftz (f.encode sat v)) := by
  simpa [Fmt.result] using gives_result ok (sat := sat) (ftz := ftz) (b := false) hs (by simp) (by simp)

/-! A value of the format is its own rounding. -/

/-- A pattern whose number is the value is the one that rounding gives. -/
theorem rounds_exact {f : Fmt} {sat neg : Bool} {p : Nat} (hp : p ≤ f.top) {r : Nat × Flags}
    (h : f.Rounds sat neg (halves (f.units p) 1) r) : r = (f.sign neg + p, 0) := by
  obtain ⟨p', above, below, rfl⟩ := h
  have mono := units_strictMono f
  obtain rfl : p' = p := by
    simp only [halves, mul_one, Nat.compare_eq_gt, Nat.compare_eq_eq, Nat.compare_eq_lt] at above below
    rcases lt_trichotomy p' p with h | h | h
    · have := mono.monotone (show p' + 1 ≤ p from h)
      have := mono (Nat.lt_succ_self p')
      simp only [Nat.succ_eq_add_one] at this
      omega
    · exact h
    · have := mono.monotone (show p ≤ p' - 1 by omega)
      have := mono (show p' - 1 < p' by omega)
      omega
  simp [hp, halves]

theorem encode_held {f : Fmt} (ok : FmtOk f) (hi : f.infs = true) (sat : Bool) {v : Val} {w : Nat} (hw : w < 2 ^ f.width)
    (hs : Stands f.scale v (f.held w)) (hn : f.held w ≠ .nan) : f.encode sat v = (w, 0) := by
  have split := sign_add_unsigned hw
  rcases lt_trichotomy (f.unsigned w) (f.top + 1) with h | h | h
  · rw [held_of_le (by omega)] at hs
    have := rounds_num ok sat (decide (w / 2 ^ (f.eb + f.fb) % 2 = 1)) (f.units (f.unsigned w)) 0
    rw [add_zero] at this
    rw [encode_num f sat hs, rounds_exact (by omega) this, split]
  · rw [held_of_eq hi h] at hs
    rw [hs.inf_inv, encode_inf ok, if_pos hi, add_assoc, ← h, split]
  · exact absurd (held_of_gt (by simpa [hi] using h)) hn

end Sys2Proof.Proofs

namespace Sys2Proof.Proofs
open Machine

/-! # The exact operations (R55) -/

/-- The signed number of a magnitude in a finer unit. -/
theorem int_num (a : Bool) (m k : Nat) : (Held.num a (m * 2 ^ k)).int = Val.toInt a m * 2 ^ k := by
  unfold Held.int Val.toInt
  cases a <;> simp

theorem toInt_natAbs (z : Int) : Val.toInt (decide (z < 0)) z.natAbs = z := by
  unfold Val.toInt
  split <;> rename_i h <;> simp only [decide_eq_true_eq] at h <;> omega

theorem Stands.finer {u : Nat} {v : Val} {h : Held} (s : Stands u v h) (k : Nat) : Stands (u + k) v (h.finer (2 ^ k)) := by
  cases s with
  | nan => exact .nan
  | inf a => exact .inf a
  | fin a m e j he => 
    have := Stands.fin (u := u + k) a m e (j + k) (by push_cast; omega)
    rwa [pow_add, ← mul_assoc] at this

theorem Stands.opposite {u : Nat} {v : Val} {h : Held} (s : Stands u v h) : Stands u (negVal v) h.opposite := by
  cases s with
  | nan => exact .nan
  | inf a => exact .inf _
  | fin a m e k he => exact .fin _ _ _ _ he

theorem Stands.times {u u' : Nat} {v w : Val} {g h : Held} (sv : Stands u v g) (sw : Stands u' w h) :
    Stands (u + u') (mulVal v w).1 (g.times h) := by
  have zero (m k : Nat) : m * 2 ^ k = 0 ↔ m = 0 := by simp
  cases sv with
  | nan => cases sw <;> exact .nan
  | inf a =>
    cases sw with
    | nan => exact .nan
    | inf b => exact .inf _
    | fin b m e k he =>
      simp only [mulVal, Held.times, zero]
      split_ifs
      · exact .nan
      · exact .inf _
  | fin a m e k he =>
    cases sw with
    | nan => exact .nan
    | inf b =>
      simp only [mulVal, Held.times, zero]
      split_ifs
      · exact .nan
      · rw [bne_comm]
        exact .inf _
    | fin b n e' k' he' =>
      have := Stands.fin (u := u + u') (a != b) (m * n) (e + e') (k + k') (by push_cast; omega)
      rwa [pow_add, mul_mul_mul_comm] at this

theorem int_num_split (a : Bool) (m : Nat) {j k : Nat} (h : j ≤ k) :
    (Held.num a (m * 2 ^ k)).int = Val.toInt a (m * 2 ^ (k - j)) * 2 ^ j := by
  rw [← int_num, mul_assoc, ← pow_add, Nat.sub_add_cancel h]

/-- An exact sum in a finer unit. -/
theorem num_scaled (s : Bool) (x : Int) (k : Nat) :
    Held.num (if x * 2 ^ k = 0 then s else decide (x * 2 ^ k < 0)) (x * 2 ^ k).natAbs =
      .num (if x = 0 then s else decide (x < 0)) (x.natAbs * 2 ^ k) := by
  have hk : (0 : Int) < 2 ^ k := by positivity
  have neg : x * 2 ^ k < 0 ↔ x < 0 := by rw [mul_neg_iff]; omega
  simp [Int.natAbs_mul, Int.natAbs_pow, neg]

theorem sum_num (a b : Bool) (m n : Nat) : Held.sum [.num a m, .num b n] =
    let z := (Held.num a m).int + (Held.num b n).int
    .num (if z = 0 then a && b else decide (z < 0)) z.natAbs := by
  simp [Held.sum, Held.neg]

theorem Stands.add {u : Nat} {v w : Val} {g h : Held} (sv : Stands u v g) (sw : Stands u w h) :
    Stands u (addVal v w).1 (Held.sum [g, h]) := by
  cases sv with
  | nan => cases sw <;> exact .nan
  | inf a =>
    cases sw with
    | nan => cases a <;> exact .nan
    | inf b => cases a <;> cases b; exacts [.inf _, .nan, .nan, .inf _]
    | fin b m e k he => cases a <;> exact .inf _
  | fin a m e k he =>
    cases sw with
    | nan => exact .nan
    | inf b => cases b <;> exact .inf _
    | fin b n e' k' he' =>
      rw [sum_num, int_num_split a m (min_le_left k k'), int_num_split b n (min_le_right k k'), ← add_mul]
      simp only [num_scaled]
      have low : min e e' = ((min k k' : Nat) : Int) - u := by omega
      have hk : (e - min e e').toNat = k - min k k' := by omega
      have hk' : (e' - min e e').toNat = k' - min k k' := by omega
      show Stands u (.fin _ _ (min e e')) _
      rw [hk, hk']
      exact .fin _ _ _ _ low

/-- R54: an operation on numbers and infinities that gives a NaN is invalid. -/
theorem addVal_invalid (v w : Val) : (addVal v w).2 = (decide ((addVal v w).1 = .nan) && decide (v ≠ .nan ∧ w ≠ .nan)) := by
  cases v <;> cases w <;> simp [addVal]
  split_ifs <;> simp

theorem mulVal_invalid (v w : Val) : (mulVal v w).2 = (decide ((mulVal v w).1 = .nan) && decide (v ≠ .nan ∧ w ≠ .nan)) := by
  cases v <;> cases w <;> simp [mulVal]
  all_goals split_ifs <;> simp [*]

theorem mulVal_nan {v w : Val} (h : (mulVal v w).1 ≠ .nan) : v ≠ .nan ∧ w ≠ .nan := by
  constructor <;> rintro rfl <;> [skip; cases v] <;> exact h rfl

theorem addVal_nan_left (w : Val) : addVal .nan w = (.nan, false) := by cases w <;> rfl

theorem fmaVal_invalid (v w x : Val) :
    (fmaVal v w x).2 = (decide ((fmaVal v w x).1 = .nan) && decide ((v ≠ .nan ∧ w ≠ .nan) ∧ x ≠ .nan)) := by
  show (((mulVal v w).2 || (addVal (mulVal v w).1 x).2) && x != .nan) =
    (decide ((addVal (mulVal v w).1 x).1 = .nan) && decide ((v ≠ .nan ∧ w ≠ .nan) ∧ x ≠ .nan))
  by_cases h : (mulVal v w).1 = .nan
  · rw [mulVal_invalid, h, addVal_nan_left]
    by_cases hx : x = .nan <;> simp [hx]
  · rw [addVal_invalid, mulVal_invalid]
    by_cases hx : x = .nan <;> simp [h, hx, mulVal_nan h]

end Sys2Proof.Proofs

namespace Sys2Proof.Proofs
open Machine

/-! # Lanes: the order of values, and the operations that choose or change the sign (R120) -/

/-- The sign bit. -/
def negative (f : Fmt) (w : Nat) : Bool := decide (w / 2 ^ (f.eb + f.fb) % 2 = 1)

/-- The place of a pattern among all patterns, those with a sign downwards from 0. -/
def rank (f : Fmt) (w : Nat) : Int := if negative f w then -(f.unsigned w : Int) else f.unsigned w

/-- A value that a lane holds as it is: a pattern of the format's width that flushing leaves alone. -/
structure Settled (f : Fmt) (ftz : Bool) (v : Val) (w : Nat) : Prop where
  stands : Stands f.scale v (f.held w)
  lt : w < 2 ^ f.width
  kept : ¬(ftz = true ∧ f.subnormal w = true)

section
variable {f : Fmt} (ok : FmtOk f) {ftz : Bool}
include ok

theorem settled_source (ftz : Bool) {x : Nat} (hx : x < 2 ^ f.width) : Settled f ftz (f.source ftz x) (f.taken ftz x) :=
  ⟨source_stands ok ftz hx, (taken_stable ftz hx).1, (taken_stable ftz hx).2⟩

theorem Settled.again {v : Val} {w : Nat} (h : Settled f ftz v w) : Settled f ftz (f.source ftz w) w := by
  have := settled_source ok ftz h.lt
  rwa [taken_of_not_subnormal h.kept] at this

theorem Settled.result {v : Val} {w : Nat} (h : Settled f ftz v w) (hi : f.infs = true) (sat : Bool) :
    f.result sat ftz (v, false) = (if f.held w = .nan then f.canonical else w, 0) := by
  by_cases hn : f.held w = .nan
  · rw [if_pos hn, (h.stands.nan_iff).mpr hn]
    simp [Fmt.result, flush_encode_nan ok]
  · rw [if_neg hn, Fmt.result, encode_held ok hi sat h.lt h.stands hn, Fmt.flush, if_neg (by simpa using h.kept)]
    simp

end

theorem isNeg_eq {u : Nat} {v : Val} {h : Held} (s : Stands u v h) : isNeg v = h.neg := by cases s <;> rfl
theorem isZero_iff {u : Nat} {v : Val} {h : Held} (s : Stands u v h) : isZero v = true ↔ ∃ a, h = .num a 0 := by
  cases s <;> simp [isZero]

theorem ltVal_num {u : Nat} {v w : Val} {a b : Bool} {m n : Nat} (sv : Stands u v (.num a m)) (sw : Stands u w (.num b n)) :
    ltVal v w = decide ((Held.num a m).int < (Held.num b n).int) := by
  obtain ⟨m, e, k, rfl, he, rfl⟩ := sv.num_inv
  obtain ⟨n, e', k', rfl, he', rfl⟩ := sw.num_inv
  rw [int_num_split a m (min_le_left k k'), int_num_split b n (min_le_right k k')]
  have hk : (e - min e e').toNat = k - min k k' := by omega
  have hk' : (e' - min e e').toNat = k' - min k k' := by omega
  simp only [mul_lt_mul_iff_left₀ (show (0 : Int) < 2 ^ min k k' by positivity), ltVal, hk, hk']

/-- The numbers of patterns are in the order of the patterns. -/
theorem int_units_lt (f : Fmt) (a b : Bool) (p q : Nat) : (Held.num a (f.units p)).int < (Held.num b (f.units q)).int ↔
    (if a then -(p : Int) else p) < (if b then -(q : Int) else q) := by
  have lt := (units_strictMono f).lt_iff_lt (a := p) (b := q)
  have gt := (units_strictMono f).lt_iff_lt (a := q) (b := p)
  have p0 := (units_strictMono f).lt_iff_lt (a := 0) (b := p)
  have q0 := (units_strictMono f).lt_iff_lt (a := 0) (b := q)
  rw [units_zero] at p0 q0
  unfold Held.int
  cases a <;> cases b <;> simp only [if_true, if_false, Bool.false_eq_true] <;> omega

/-- What a pattern that is no NaN holds, in a format with infinities. -/
theorem held_cases {f : Fmt} (hi : f.infs = true) {w : Nat} (hn : f.held w ≠ .nan) :
    (f.unsigned w ≤ f.top ∧ f.held w = .num (negative f w) (f.units (f.unsigned w))) ∨
    (f.unsigned w = f.top + 1 ∧ f.held w = .inf (negative f w)) := by
  rcases lt_trichotomy (f.unsigned w) (f.top + 1) with h | h | h
  · exact .inl ⟨by omega, held_of_le (by omega)⟩
  · exact .inr ⟨h, held_of_eq hi h⟩
  · exact absurd (held_of_gt (by simpa [hi] using h)) hn

theorem held_neg {f : Fmt} (hi : f.infs = true) {w : Nat} (hn : f.held w ≠ .nan) : (f.held w).neg = negative f w := by
  rcases held_cases hi hn with ⟨-, h⟩ | ⟨-, h⟩ <;> rw [h] <;> rfl

theorem ltVal_nan {v w : Val} (h : v = .nan ∨ w = .nan) : ltVal v w = false := by
  rcases h with rfl | rfl
  · rfl
  · cases v <;> rfl

/-- R120: the order of values is that of the patterns. -/
theorem ltVal_iff {f : Fmt} (hi : f.infs = true) {v w : Val} {x y : Nat} (sv : Stands f.scale v (f.held x))
    (sw : Stands f.scale w (f.held y)) : ltVal v w = true ↔ (f.held x ≠ .nan ∧ f.held y ≠ .nan) ∧ rank f x < rank f y := by
  by_cases hn : f.held x = .nan ∨ f.held y = .nan
  · rw [ltVal_nan (hn.imp sv.nan_iff.mpr sw.nan_iff.mpr)]
    simp only [Bool.false_eq_true, ne_eq, ← not_or, hn, not_true, false_and]
  obtain ⟨nx, ny⟩ := not_or.mp hn
  rw [and_iff_right ⟨nx, ny⟩]
  unfold rank
  rcases held_cases hi nx with ⟨hx, ex⟩ | ⟨hx, ex⟩ <;> rcases held_cases hi ny with ⟨hy, ey⟩ | ⟨hy, ey⟩ <;>
    rw [ex] at sv <;> rw [ey] at sw
  · rw [ltVal_num sv sw, decide_eq_true_eq, int_units_lt]
  · obtain ⟨m, e, k, rfl, -, -⟩ := sv.num_inv
    rw [sw.inf_inv, hy]
    cases negative f x <;> cases negative f y <;> simp [ltVal] <;> omega
  · obtain ⟨m, e, k, rfl, -, -⟩ := sw.num_inv
    rw [sv.inf_inv, hx]
    cases negative f x <;> cases negative f y <;> simp [ltVal] <;> omega
  · rw [sv.inf_inv, sw.inf_inv, hx, hy]
    cases negative f x <;> cases negative f y <;> simp [ltVal] <;> omega

theorem eqVal_iff {f : Fmt} (hi : f.infs = true) {v w : Val} {x y : Nat} (sv : Stands f.scale v (f.held x))
    (sw : Stands f.scale w (f.held y)) : eqVal v w = true ↔ (f.held x ≠ .nan ∧ f.held y ≠ .nan) ∧ rank f x = rank f y := by
  unfold eqVal
  simp only [Bool.and_eq_true, Bool.not_eq_true', bne_iff_ne, ne_eq, sv.nan_iff, sw.nan_iff, ← Bool.not_eq_true, ltVal_iff hi sv sw,
    ltVal_iff hi sw sv]
  constructor
  · rintro ⟨⟨⟨nx, ny⟩, lt⟩, gt⟩
    exact ⟨⟨nx, ny⟩, le_antisymm (not_lt.mp fun h => gt ⟨⟨ny, nx⟩, h⟩) (not_lt.mp fun h => lt ⟨⟨nx, ny⟩, h⟩)⟩
  · rintro ⟨⟨nx, ny⟩, e⟩
    exact ⟨⟨⟨nx, ny⟩, fun h => absurd h.2 (by omega)⟩, fun h => absurd h.2 (by omega)⟩

/-- A value is a zero where its pattern stands in the middle. -/
theorem isZero_iff_rank {f : Fmt} (hi : f.infs = true) {v : Val} {x : Nat} (sv : Stands f.scale v (f.held x)) (nx : f.held x ≠ .nan) :
    isZero v = true ↔ rank f x = 0 := by
  have mono := (units_strictMono f).injective.eq_iff (a := f.unsigned x) (b := 0)
  rw [isZero_iff sv]
  unfold rank
  rcases held_cases hi nx with ⟨hx, ex⟩ | ⟨hx, ex⟩ <;> rw [ex]
  · rw [units_zero] at mono
    cases negative f x <;> simp [mono]
  · rw [hx]
    cases negative f x <;> simp <;> omega

/-- R120: the order in which -0 comes below +0. -/
theorem ltSigned_iff {f : Fmt} (hi : f.infs = true) {v w : Val} {x y : Nat} (sv : Stands f.scale v (f.held x))
    (sw : Stands f.scale w (f.held y)) (nx : f.held x ≠ .nan) (ny : f.held y ≠ .nan) :
    ltSigned v w = true ↔ rank f x < rank f y ∨ (rank f x = rank f y ∧ negative f x = true ∧ negative f y = false) := by
  unfold ltSigned
  simp only [Bool.or_eq_true, Bool.and_eq_true, Bool.not_eq_true', ltVal_iff hi sv sw, isZero_iff_rank hi sv nx,
    isZero_iff_rank hi sw ny, isNeg_eq sv, isNeg_eq sw, held_neg hi nx, held_neg hi ny, nx, ny, ne_eq, not_false_eq_true, true_and]
  refine or_congr_right ⟨fun ⟨⟨⟨zx, zy⟩, negx⟩, negy⟩ => ⟨by rw [zx, zy], negx, negy⟩, fun ⟨e, negx, negy⟩ => ?_⟩
  have : rank f x = 0 ∧ rank f y = 0 := by
    simp only [rank, negx, negy, if_true, Bool.false_eq_true, if_false] at e ⊢
    omega
  exact ⟨⟨this, negx⟩, negy⟩

/-- Patterns of the width with one sign and one place are the same. -/
theorem eq_of_rank {f : Fmt} {x y : Nat} (hx : x < 2 ^ f.width) (hy : y < 2 ^ f.width) (hs : negative f x = negative f y)
    (hr : rank f x = rank f y) : x = y := by
  have ex := sign_add_unsigned hx
  have ey := sign_add_unsigned hy
  unfold rank at hr
  rw [← hs] at hr
  have hu : f.unsigned x = f.unsigned y := by
    cases h : negative f x <;> simpa [h] using hr
  rw [← ex, ← ey, hu]
  exact congrArg (fun b => f.sign b + f.unsigned y) hs

/-- Of two patterns of the width that stand at one place, one is below the other by its sign, or they are the same. -/
theorem below_or_eq {f : Fmt} {x y : Nat} (hx : x < 2 ^ f.width) (hy : y < 2 ^ f.width) :
    ((rank f x < rank f y ∨ (rank f x = rank f y ∧ negative f x = true)) ↔
      rank f x < rank f y ∨ (rank f x = rank f y ∧ negative f x = true ∧ negative f y = false)) ∨ x = y := by
  by_cases h : rank f x = rank f y ∧ negative f x = true ∧ negative f y = true
  · exact .inr (eq_of_rank hx hy (h.2.1.trans h.2.2.symm) h.1)
  · refine .inl (or_congr_right (and_congr_right fun e => ⟨fun n => ⟨n, ?_⟩, And.left⟩))
    simpa [e, n] using h

/-- The larger and the smaller of two patterns, -0 below +0. -/
def larger (f : Fmt) (x y : Nat) : Nat := if rank f x < rank f y ∨ (rank f x = rank f y ∧ negative f x = true) then y else x
def smaller (f : Fmt) (x y : Nat) : Nat := if rank f y < rank f x ∨ (rank f x = rank f y ∧ negative f y = true) then y else x

/-- The same with the other sign, and with none. -/
def flipped (f : Fmt) (w : Nat) : Nat := if negative f w then f.unsigned w else f.sign true + f.unsigned w

theorem held_larger {f : Fmt} {x y : Nat} (nx : f.held x ≠ .nan) (ny : f.held y ≠ .nan) : f.held (larger f x y) ≠ .nan := by
  unfold larger; split <;> assumption

/-- A pattern that is no NaN, with its sign replaced. -/
theorem held_resigned {f : Fmt} (hi : f.infs = true) {x : Nat} (nx : f.held x ≠ .nan) (neg : Bool) :
    f.held (f.sign neg + f.unsigned x) = match f.held x with
    | .nan => .nan
    | .inf _ => .inf neg
    | .num _ n => .num neg n := by
  have hu := unsigned_lt f x
  rcases held_cases hi nx with ⟨h, e⟩ | ⟨h, e⟩
  · rw [held_of_le (by rwa [unsigned_sign_add f neg hu]), unsigned_sign_add f neg hu, e]
    simp [negative_sign_add f neg hu]
  · rw [held_of_eq hi (by rwa [unsigned_sign_add f neg hu]), e]
    simp [negative_sign_add f neg hu]

theorem held_smaller {f : Fmt} {x y : Nat} (nx : f.held x ≠ .nan) (ny : f.held y ≠ .nan) : f.held (smaller f x y) ≠ .nan := by
  unfold smaller; split <;> assumption

section
variable {f : Fmt} (hi : f.infs = true) {ftz : Bool} {v w : Val} {x y : Nat} (hv : Settled f ftz v x) (hw : Settled f ftz w y)
  (nx : f.held x ≠ .nan) (ny : f.held y ≠ .nan)
include hi hv nx

theorem Settled.resigned (neg : Bool) {r : Val}
    (hr : Stands f.scale r (match f.held x with | .nan => .nan | .inf _ => .inf neg | .num _ n => .num neg n)) :
    Settled f ftz r (f.sign neg + f.unsigned x) := by
  have hu := unsigned_lt f x
  refine ⟨by rwa [held_resigned hi nx], sign_add_lt f neg hu, ?_⟩
  have := hv.kept
  rw [subnormal_iff] at this ⊢
  rwa [unsigned_sign_add f neg hu]

theorem Settled.abs : Settled f ftz (absVal v) (f.unsigned x) := by
  have := hv.resigned hi nx false (r := absVal v) ?_
  · simpa [Fmt.sign] using this
  · have s := hv.stands
    cases hx : f.held x with
    | nan => exact absurd hx nx
    | inf a => rw [hx] at s; rw [s.inf_inv]; exact .inf _
    | num a n =>
      rw [hx] at s
      obtain ⟨m, e, k, rfl, he, rfl⟩ := s.num_inv
      exact .fin _ _ _ _ he

theorem Settled.neg : Settled f ftz (negVal v) (flipped f x) := by
  have opp := hv.stands.opposite
  have := hv.resigned hi nx (!negative f x) (r := negVal v) ?_
  · unfold flipped
    cases h : negative f x <;> simpa [h, Fmt.sign] using this
  · rcases held_cases hi nx with ⟨-, e⟩ | ⟨-, e⟩ <;> rw [e] at opp ⊢ <;> exact opp

include hw ny

theorem Settled.max : Settled f ftz (maxVal v w) (larger f x y) := by
  have lt := ltSigned_iff hi hv.stands hw.stands nx ny
  unfold maxVal larger
  rw [if_neg (by rw [hv.stands.nan_iff, hw.stands.nan_iff]; tauto)]
  rcases below_or_eq hv.lt hw.lt with h | rfl
  · simp only [lt, h]
    split <;> assumption
  · split <;> simpa

theorem Settled.min : Settled f ftz (minVal v w) (smaller f x y) := by
  have lt := ltSigned_iff hi hw.stands hv.stands ny nx
  unfold minVal smaller
  rw [if_neg (by rw [hv.stands.nan_iff, hw.stands.nan_iff]; tauto)]
  rcases below_or_eq hw.lt hv.lt with h | rfl
  · simp only [lt, eq_comm (a := rank f x), h]
    split <;> assumption
  · split <;> simpa

end

theorem absVal_nan_iff (v : Val) : absVal v = .nan ↔ v = .nan := by cases v <;> simp [absVal]
theorem negVal_nan_iff (v : Val) : negVal v = .nan ↔ v = .nan := by cases v <;> simp [negVal]
theorem maxVal_nan {v w : Val} (h : v = .nan ∨ w = .nan) : maxVal v w = .nan := if_pos h
theorem minVal_nan {v w : Val} (h : v = .nan ∨ w = .nan) : minVal v w = .nan := if_pos h

end Sys2Proof.Proofs

namespace Sys2Proof.Proofs
open Machine

/-! # Reciprocals and reciprocal roots (R60)

Both are the number y of which a rising function reaches a power of two; the model takes the whole part of y at some places
and says whether anything is left. -/

theorem isqrtFrom_spec (n i r : Nat) (lo : r * r ≤ n) (hi : n < (r + 2 ^ (i + 1)) * (r + 2 ^ (i + 1))) :
    isqrtFrom n i r * isqrtFrom n i r ≤ n ∧ n < (isqrtFrom n i r + 1) * (isqrtFrom n i r + 1) := by
  induction i generalizing r with
  | zero =>
    unfold isqrtFrom
    split
    · exact ⟨‹_›, by simpa [add_assoc] using hi⟩
    · exact ⟨lo, by omega⟩
  | succ i ih =>
    unfold isqrtFrom
    split
    · exact ih _ ‹_› (by rwa [add_assoc, ← two_mul, ← pow_succ'])
    · exact ih _ lo (by omega)

/-- The model's root is the whole part of the root. -/
theorem isqrt_spec (n : Nat) : isqrt n * isqrt n ≤ n ∧ n < (isqrt n + 1) * (isqrt n + 1) := by
  refine isqrtFrom_spec n _ 0 (Nat.zero_le _) ?_
  rw [zero_add, ← pow_add]
  exact Nat.lt_log2_self.trans_le (Nat.pow_le_pow_right (by decide) (by omega))

/-- How F of a number stands to P, by the last number whose F does not pass P. -/
theorem compare_root {F : Nat → Nat} (mono : StrictMono F) {P y : Nat} (lo : F y ≤ P) (hi : P < F (y + 1)) (n : Nat) :
    compare (F n) P = (compare n y).then (if F y != P then .lt else .eq) := by
  rcases lt_trichotomy n y with h | rfl | h
  · rw [Nat.compare_eq_lt.mpr h, Nat.compare_eq_lt.mpr ((mono h).trans_le lo)]; rfl
  · rw [Nat.compare_eq_eq.mpr rfl]
    rcases lo.lt_or_eq with h | h
    · rw [Nat.compare_eq_lt.mpr h, if_pos (by simpa using h.ne)]; rfl
    · rw [h, Nat.compare_eq_eq.mpr rfl, if_neg (by simp)]; rfl
  · rw [Nat.compare_eq_gt.mpr h, Nat.compare_eq_gt.mpr (hi.trans_le (mono.monotone h))]; rfl

theorem exists_root {F : Nat → Nat} (mono : StrictMono F) {P : Nat} (h0 : F 0 ≤ P) : ∃ y, F y ≤ P ∧ P < F (y + 1) := by
  have ex : ∃ y, P < F (y + 1) := ⟨P, mono.le_apply⟩
  refine ⟨Nat.find ex, ?_, Nat.find_spec ex⟩
  rcases h : Nat.find ex with _ | k
  · exact h0
  · exact not_lt.mp (Nat.find_min ex (by omega))

/-- A root cut off at some places, with what is left said, is rounded as the root itself. -/
theorem rounds_root {f : Fmt} (ok : FmtOk f) (neg : Bool) {F : Nat → Nat} (mono : StrictMono F) {j S : Nat} (hS : 0 < S)
    (scale : ∀ n, F (n * 2 ^ j) = F n * S) {P y : Nat} (lo : F y ≤ P) (hi : P < F (y + 1)) (big : f.fb < Nat.log2 y) {e : Int} {h : Nat}
    (he : e - j = f.qmin - 1 - h) :
    f.Rounds false neg (fun n => compare (F (n * 2 ^ h)) (P * S)) (f.roundFin false neg y e (F y != P)) := by
  have hj : 0 < 2 ^ j := by positivity
  have lo' : F (y * 2 ^ j) ≤ P * S := by rw [scale]; exact Nat.mul_le_mul_right _ lo
  have hi' : P * S < F ((y + 1) * 2 ^ j) := by rw [scale]; exact Nat.mul_lt_mul_of_pos_right hi hS
  obtain ⟨z, zlo, zhi⟩ := exists_root mono ((mono.monotone (Nat.zero_le _)).trans lo')
  -- z is y with j more places
  have ge : y * 2 ^ j ≤ z := by
    have := mono.lt_iff_lt.mp (lo'.trans_lt zhi); omega
  have lt : z < (y + 1) * 2 ^ j := mono.lt_iff_lt.mp (zlo.trans_lt hi')
  obtain ⟨r, rfl⟩ : ∃ r, z = y * 2 ^ j + r := ⟨_, (Nat.add_sub_cancel' ge).symm⟩
  have hr : r < 2 ^ j := by rw [Nat.succ_mul] at lt; omega
  have left : (F y != P) = (r != 0 || F (y * 2 ^ j + r) != P * S) := by
    rcases Nat.eq_zero_or_pos r with rfl | h0
    · rw [Bool.eq_iff_iff]
      simp [scale, hS.ne']
    · have : F y ≠ P := by
        rintro rfl
        have := mono (show y * 2 ^ j < y * 2 ^ j + r by omega)
        rw [scale] at this; omega
      rw [bne_iff_ne.mpr this, bne_iff_ne.mpr h0.ne', Bool.true_or]
  rw [left, ← roundFin_cut f false neg e _ big hr, he]
  refine roundFin_rounds ok false neg _ (fun h => ?_) fun n => compare_root mono zlo zhi (n * 2 ^ h)
  have hy : y = 0 := by
    rcases Nat.mul_eq_zero.mp (Nat.eq_zero_of_add_eq_zero_right h) with h | h <;> omega
  rw [hy, Nat.log2_zero] at big
  omega

theorem compare_mul (a b : Nat) {c : Nat} (hc : 0 < c) : compare (a * c) (b * c) = compare a b := by
  rcases lt_trichotomy a b with h | rfl | h
  · rw [Nat.compare_eq_lt.mpr h, Nat.compare_eq_lt.mpr (Nat.mul_lt_mul_of_pos_right h hc)]
  · rw [Nat.compare_eq_eq.mpr rfl, Nat.compare_eq_eq.mpr rfl]
  · rw [Nat.compare_eq_gt.mpr h, Nat.compare_eq_gt.mpr (Nat.mul_lt_mul_of_pos_right h hc)]

/-- R60: the reciprocal of a number that is not zero. -/
theorem rcpF_rounds {f : Fmt} (ok : FmtOk f) {v : Val} {a : Bool} {m : Nat} (hs : Stands f.scale v (.num a m)) (hm : m ≠ 0) :
    f.Rounds false a (halves (2 ^ f.scale * 2 ^ f.scale) m) (rcpF f v) := by
  obtain ⟨m, e, k, rfl, he, rfl⟩ := hs.num_inv
  have h0 : m ≠ 0 := by rintro rfl; simp at hm
  have hpos : 0 < m := Nat.pos_of_ne_zero h0
  unfold rcpF
  simp only [if_neg h0]
  obtain ⟨K, hK⟩ : ∃ K, K = Nat.log2 m + 40 := ⟨_, rfl⟩
  rw [← hK]
  have cut : (2 ^ K % m != 0) = (2 ^ K / m * m != 2 ^ K) := by
    have := Nat.div_add_mod' (2 ^ K) m
    rw [Bool.eq_iff_iff]; simp only [bne_iff_ne]; omega
  have places : 2 ^ 39 ≤ 2 ^ K / m := by
    rw [Nat.le_div_iff_mul_le hpos]
    calc 2 ^ 39 * m ≤ 2 ^ 39 * 2 ^ (Nat.log2 m + 1) := Nat.mul_le_mul_left _ Nat.lt_log2_self.le
      _ = 2 ^ K := by rw [← pow_add, hK]; congr 1; omega
  have big : f.fb < Nat.log2 (2 ^ K / m) := by
    have := (Nat.le_log2 (by omega)).mpr places
    have := ok.frac_le
    omega
  have := rounds_root ok a (F := (· * m)) (fun _ _ h => Nat.mul_lt_mul_of_pos_right h hpos) (j := 2 * f.scale + 1)
    (S := 2 ^ (2 * f.scale + 1)) (by positivity) (fun n => by ring) (P := 2 ^ K) (Nat.div_mul_le_self _ _)
    (Nat.lt_mul_of_div_lt (Nat.lt_succ_self _) hpos) big (e := -e - K) (h := k + K) (by rw [ok.qmin_eq]; push_cast; omega)
  rw [cut]
  convert this using 2 with n
  rw [halves, ← compare_mul _ _ (show 0 < 2 ^ K by positivity)]
  congr 1 <;> ring

/-- R60: the reciprocal root of a number above zero. -/
theorem rsqrtF_rounds {f : Fmt} (ok : FmtOk f) {v : Val} {m : Nat} (hs : Stands f.scale v (.num false m)) (hm : m ≠ 0) :
    f.Rounds false false (fun n => compare (n * n * m) (4 * 2 ^ f.scale * 2 ^ f.scale * 2 ^ f.scale)) (rsqrtF f v) := by
  obtain ⟨m, e, k, rfl, he, rfl⟩ := hs.num_inv
  have h0 : m ≠ 0 := by rintro rfl; simp at hm
  unfold rsqrtF
  simp only [if_neg h0, Bool.false_eq_true, if_false]
  -- an even exponent: M × 2^(2E) is the value
  obtain ⟨M, hM⟩ : ∃ M, M = if e % 2 = 0 then m else 2 * m := ⟨_, rfl⟩
  obtain ⟨E, hE⟩ : ∃ E, (if e % 2 = 0 then e else e - 1) = 2 * E := ⟨e / 2, by split <;> omega⟩
  have hpos : 0 < M := by rw [hM]; split <;> omega
  rw [← hM, hE, show -(2 * E) / 2 = -E by omega]
  obtain ⟨K, hK⟩ : ∃ K, K = Nat.log2 M + 40 := ⟨_, rfl⟩
  rw [← hK]
  obtain ⟨root, hroot⟩ : ∃ y, y = isqrt (2 ^ (2 * K) / M) := ⟨_, rfl⟩
  have spec := isqrt_spec (2 ^ (2 * K) / M)
  rw [← hroot] at spec ⊢
  have lo : root * root * M ≤ 2 ^ (2 * K) := (Nat.mul_le_mul_right M spec.1).trans (Nat.div_mul_le_self _ _)
  have hi : 2 ^ (2 * K) < (root + 1) * (root + 1) * M := Nat.lt_mul_of_div_lt spec.2 hpos
  have mono : StrictMono fun n => n * n * M := fun _ _ h => Nat.mul_lt_mul_of_pos_right (Nat.mul_self_lt_mul_self h) hpos
  have places : 2 ^ 39 ≤ root := by
    refine Nat.lt_succ_iff.mp (mono.lt_iff_lt.mp (lt_of_le_of_lt ?_ hi))
    calc 2 ^ 39 * 2 ^ 39 * M ≤ 2 ^ 39 * 2 ^ 39 * 2 ^ (Nat.log2 M + 1) := Nat.mul_le_mul_left _ Nat.lt_log2_self.le
      _ = 2 ^ (39 + 39 + (Nat.log2 M + 1)) := by rw [← pow_add, ← pow_add]
      _ ≤ 2 ^ (2 * K) := Nat.pow_le_pow_right (by decide) (by omega)
  have big : f.fb < Nat.log2 root := by
    have := (Nat.le_log2 (by omega)).mpr places
    have := ok.frac_le
    omega
  obtain ⟨h, hh⟩ : ∃ h : Nat, (h : Int) = E + K + f.scale := ⟨(E + K + f.scale).toNat, by split at hE <;> omega⟩
  have := rounds_root ok false mono (j := 2 * f.scale + 1) (S := 2 ^ (2 * (2 * f.scale + 1))) (by positivity)
    (fun n => by rw [pow_mul']; ring) lo hi big (e := -E - K) (h := h) (by rw [ok.qmin_eq]; push_cast; omega)
  convert this using 2 with n
  rw [← compare_mul _ _ (show 0 < 2 ^ (2 * K + f.scale) by positivity)]
  have value : 2 ^ (2 * h) * M = m * 2 ^ k * 2 ^ (2 * K + f.scale) := by
    by_cases even : e % 2 = 0
    · rw [if_pos even] at hM hE
      calc 2 ^ (2 * h) * M = m * 2 ^ (2 * h) := by rw [hM]; ring
        _ = m * 2 ^ (k + (2 * K + f.scale)) := by congr 2; omega
        _ = _ := by ring
    · rw [if_neg even] at hM hE
      calc 2 ^ (2 * h) * M = m * 2 ^ (2 * h + 1) := by rw [hM]; ring
        _ = m * 2 ^ (k + (2 * K + f.scale)) := by congr 2; omega
        _ = _ := by ring
  congr 1
  · calc n * n * (m * 2 ^ k) * 2 ^ (2 * K + f.scale) = n * n * (2 ^ (2 * h) * M) := by rw [value]; ring
      _ = _ := by rw [pow_mul']; ring
  · ring

end Sys2Proof.Proofs

namespace Sys2Proof.Proofs
open Machine

/-! # Floating-point lanes (R45 to R60, R119, R120) -/

section
variable {t : ElemType} {f : Fmt} (h : fmtOf t = some f) (sat ftz : Bool)
include h

theorem laneHeld_float (x : Nat) : laneHeld t ftz x = f.held (f.taken ftz x) := by rw [laneHeld, h]
theorem laneScale_float : laneScale t = f.scale := by rw [laneScale, h]

theorem laneOp1_float (fop : Val → Val × Bool) (iop : Int → Int) (x : Nat) :
    laneOp1 t sat ftz fop iop x = f.result sat ftz (fop (f.source ftz x)) := by rw [laneOp1, h]
theorem laneOp2_float (fop : Val → Val → Val × Bool) (iop : Int → Int → Int) (x y : Nat) :
    laneOp2 t sat ftz fop iop x y = f.result sat ftz (fop (f.source ftz x) (f.source ftz y)) := by rw [laneOp2, h]
theorem laneOp3_float (fop : Val → Val → Val → Val × Bool) (iop : Int → Int → Int → Int) (x y z : Nat) :
    laneOp3 t sat ftz fop iop x y z = f.result sat ftz (fop (f.source ftz x) (f.source ftz y) (f.source ftz z)) := by rw [laneOp3, h]
theorem laneCmp_float (fop : Val → Val → Bool) (iop : Int → Int → Bool) (x y : Nat) :
    laneCmp t ftz fop iop x y = fop (f.source ftz x) (f.source ftz y) := by rw [laneCmp, h]

theorem not_isU_of_float : t.isU = false := by cases t <;> cases h <;> rfl

theorem settled_lane {x : Nat} (hx : x < 2 ^ t.width) : Settled f ftz (f.source ftz x) (f.taken ftz x) :=
  settled_source (fmtOk_of_fmtOf h) ftz (width_of_fmtOf h ▸ hx)

theorem lane_stands {x : Nat} (hx : x < 2 ^ t.width) : Stands f.scale (f.source ftz x) (laneHeld t ftz x) := by
  rw [laneHeld_float h]; exact (settled_lane h ftz hx).stands

end

/-- An operation whose NaN is invalid exactly where no operand is one. -/
theorem gives_of_invalid {f : Fmt} (ok : FmtOk f) {sat ftz : Bool} {g : Nat} {r : Val × Bool} {H : Held} {numbers : Prop}
    [Decidable numbers] (hs : Stands (f.scale + g) r.1 H) (hr : r.2 = (decide (r.1 = .nan) && decide numbers)) :
    f.Gives sat ftz H (2 ^ g) (decide numbers) (f.result sat ftz r) := by
  refine gives_result ok hs (fun hb => ?_) fun hn => ?_
  · rw [hr, Bool.and_eq_true, decide_eq_true_eq] at hb
    exact hs.nan_iff.mp hb.1
  · rw [hr, decide_eq_true (hs.nan_iff.mpr hn), Bool.true_and]

section
variable {t : ElemType} {f : Fmt} (h : fmtOf t = some f) (sat ftz : Bool) {x y z : Nat} (hx : x < 2 ^ t.width) (hy : y < 2 ^ t.width)
  (hz : z < 2 ^ t.width)
include h hx

theorem source_nan_iff : f.source ftz x = .nan ↔ laneHeld t ftz x = .nan := (lane_stands h ftz hx).nan_iff

include hy

theorem laneAdd_gives : f.Gives sat ftz (Held.sum [laneHeld t ftz x, laneHeld t ftz y]) 1
    (decide (laneHeld t ftz x ≠ .nan ∧ laneHeld t ftz y ≠ .nan)) (laneAdd t sat ftz x y) := by
  rw [laneAdd, laneOp2_float h]
  refine gives_of_invalid (g := 0) (fmtOk_of_fmtOf h) ((lane_stands h ftz hx).add (lane_stands h ftz hy)) ?_
  simp only [addVal_invalid, ne_eq, source_nan_iff h ftz hx, source_nan_iff h ftz hy]

theorem laneSub_gives : f.Gives sat ftz (Held.sum [laneHeld t ftz x, (laneHeld t ftz y).opposite]) 1
    (decide (laneHeld t ftz x ≠ .nan ∧ laneHeld t ftz y ≠ .nan)) (laneSub t sat ftz x y) := by
  rw [laneSub, laneOp2_float h]
  refine gives_of_invalid (g := 0) (fmtOk_of_fmtOf h) ((lane_stands h ftz hx).add (lane_stands h ftz hy).opposite) ?_
  simp only [addVal_invalid, ne_eq, source_nan_iff h ftz hx, negVal_nan_iff, source_nan_iff h ftz hy]

theorem laneMul_gives : f.Gives sat ftz ((laneHeld t ftz x).times (laneHeld t ftz y)) (2 ^ f.scale)
    (decide (laneHeld t ftz x ≠ .nan ∧ laneHeld t ftz y ≠ .nan)) (laneMul t sat ftz x y) := by
  rw [laneMul, laneOp2_float h]
  refine gives_of_invalid (fmtOk_of_fmtOf h) ((lane_stands h ftz hx).times (lane_stands h ftz hy)) ?_
  simp only [mulVal_invalid, ne_eq, source_nan_iff h ftz hx, source_nan_iff h ftz hy]

include hz

theorem laneFma_gives : f.Gives sat ftz
    (Held.sum [(laneHeld t ftz x).times (laneHeld t ftz y), (laneHeld t ftz z).finer (2 ^ f.scale)]) (2 ^ f.scale)
    (decide ((laneHeld t ftz x ≠ .nan ∧ laneHeld t ftz y ≠ .nan) ∧ laneHeld t ftz z ≠ .nan)) (laneFma t sat ftz x y z) := by
  have product := (lane_stands h ftz hx).times (lane_stands h ftz hy)
  rw [laneFma, laneOp3_float h]
  refine gives_of_invalid (fmtOk_of_fmtOf h) (product.add ((lane_stands h ftz hz).finer f.scale)) ?_
  simp only [fmaVal_invalid, ne_eq, source_nan_iff h ftz hx, source_nan_iff h ftz hy, source_nan_iff h ftz hz]

end

/-! Reciprocals. -/

theorem source_canonical {f : Fmt} (ok : FmtOk f) (ftz : Bool) : f.source ftz f.canonical = .nan := by
  have hu := unsigned_sign_add f false ok.canonical_lt
  simp only [Fmt.sign, Bool.false_eq_true, if_false, zero_add] at hu
  have kept : ¬(ftz = true ∧ f.subnormal f.canonical = true) := by
    have := ok.canonical_gt
    have := ok.top_ge
    rw [subnormal_iff, hu]; omega
  have := (settled_source ok ftz (canonical_lt_width ok)).stands
  rw [taken_of_not_subnormal kept, held_of_gt (by rw [hu]; exact ok.canonical_gt)] at this
  exact this.nan_inv

theorem flush_sign (f : Fmt) (ftz a : Bool) (fl : Flags) : f.flush ftz (f.sign a, fl) = (f.sign a, fl) := by
  have hu := unsigned_sign_add f a (p := 0) (by positivity)
  rw [add_zero] at hu
  unfold Fmt.flush
  rw [if_neg]
  simp only [Bool.and_eq_true, subnormal_iff, hu]
  omega

section
variable {t : ElemType} {f : Fmt} (h : fmtOf t = some f) (hi : f.infs = true) (ftz : Bool) {x : Nat} (hx : x < 2 ^ t.width)
include h

theorem laneRcp_float : laneRcp t ftz x = f.flush ftz (rcpF f (f.source ftz x)) := by rw [laneRcp, h]
theorem laneRsqrt_float : laneRsqrt t ftz x = f.flush ftz (rsqrtF f (f.source ftz x)) := by rw [laneRsqrt, h]

include hx

theorem laneRcp_gives {a : Bool} {m : Nat} (hX : laneHeld t ftz x = .num a m) (hm : m ≠ 0) :
    f.Gives false ftz (.num a (2 ^ f.scale * 2 ^ f.scale)) m false (laneRcp t ftz x) := by
  have ok := fmtOk_of_fmtOf h
  have := rcpF_rounds ok (hX ▸ lane_stands h ftz hx) hm
  exact ⟨_, this, by rw [laneRcp_float h, flush_eq ftz (rounds_lt ok this)]⟩

theorem laneRsqrt_rounds {m : Nat} (hX : laneHeld t ftz x = .num false m) (hm : m ≠ 0) :
    ∃ q, f.Rounds false false (fun n => compare (n * n * m) (4 * 2 ^ f.scale * 2 ^ f.scale * 2 ^ f.scale)) q ∧
      laneRsqrt t ftz x = f.flushed ftz q := by
  have ok := fmtOk_of_fmtOf h
  have := rsqrtF_rounds ok (hX ▸ lane_stands h ftz hx) hm
  exact ⟨_, this, by rw [laneRsqrt_float h, flush_eq ftz (rounds_lt ok this)]⟩

theorem laneRsqrt_negative {m : Nat} (hX : laneHeld t ftz x = .num true m) (hm : m ≠ 0) :
    laneRsqrt t ftz x = (f.canonical, flagNV) := by
  have ok := fmtOk_of_fmtOf h
  obtain ⟨m, e, k, hv, -, rfl⟩ := (hX ▸ lane_stands h ftz hx).num_inv
  have h0 : m ≠ 0 := by rintro rfl; simp at hm
  rw [laneRsqrt_float h, hv, ← flush_canonical ok ftz flagNV, ← ok.nanBits_eq]
  simp [rsqrtF, h0]

theorem laneRecip_nan (hX : laneHeld t ftz x = .nan) : laneRcp t ftz x = (f.canonical, 0) ∧ laneRsqrt t ftz x = (f.canonical, 0) := by
  have ok := fmtOk_of_fmtOf h
  rw [laneRcp_float h, laneRsqrt_float h, (source_nan_iff h ftz hx).mpr hX, ← flush_canonical ok ftz 0, ← ok.nanBits_eq]
  exact ⟨rfl, rfl⟩

include hi

theorem laneRecip_zero {a : Bool} (hX : laneHeld t ftz x = .num a 0) :
    laneRcp t ftz x = (f.sign a + f.top + 1, flagOF) ∧ laneRsqrt t ftz x = (f.sign a + f.top + 1, flagOF) := by
  have ok := fmtOk_of_fmtOf h
  obtain ⟨m, e, k, hv, -, hm⟩ := (hX ▸ lane_stands h ftz hx).num_inv
  obtain rfl : m = 0 := by simpa using hm.symm
  rw [laneRcp_float h, laneRsqrt_float h, hv, add_assoc,
    ← flush_top ok ftz a (p := f.top + 1) (by omega) (by simp [hi]) flagOF, ← ok.infBits_eq hi]
  exact ⟨rfl, rfl⟩

omit hi in
theorem laneRecip_inf {a : Bool} (hX : laneHeld t ftz x = .inf a) :
    laneRcp t ftz x = (f.sign a, 0) ∧ laneRsqrt t ftz x = if a then (f.canonical, flagNV) else (0, 0) := by
  have ok := fmtOk_of_fmtOf h
  have hv : f.source ftz x = .inf a := Stands.inf_inv (hX ▸ lane_stands h ftz hx)
  rw [laneRcp_float h, laneRsqrt_float h, hv]
  refine ⟨flush_sign f ftz a 0, ?_⟩
  cases a
  · exact flush_sign f ftz false 0
  · rw [if_pos rfl, ← flush_canonical ok ftz flagNV, ← ok.nanBits_eq]; rfl

end

/-! Signs, minima, maxima and compares. -/

section
variable {t : ElemType} {f : Fmt} (h : fmtOf t = some f) (hi : f.infs = true) (sat ftz : Bool) {x y : Nat} (hx : x < 2 ^ t.width)
  (hy : y < 2 ^ t.width)
include h

theorem result_nan (sat ftz : Bool) : f.result sat ftz (.nan, false) = (f.canonical, 0) := by
  simp [Fmt.result, flush_encode_nan (fmtOk_of_fmtOf h)]

include hi

theorem Settled.result_number {v : Val} {w : Nat} (hv : Settled f ftz v w) (hn : f.held w ≠ .nan) :
    f.result sat ftz (v, false) = (w, 0) := by
  rw [hv.result (fmtOk_of_fmtOf h) hi, if_neg hn]

include hx

theorem laneAbs_number (hX : laneHeld t ftz x ≠ .nan) : laneAbs t sat ftz x = (f.unsigned (f.taken ftz x), 0) := by
  rw [laneHeld_float h] at hX
  have lane := settled_lane h ftz hx
  rw [laneAbs, laneOp1_float h]
  have abs := lane.abs hi hX
  exact abs.result_number h hi sat ftz (by rwa [ne_eq, ← abs.stands.nan_iff, absVal_nan_iff, lane.stands.nan_iff])

theorem laneNeg_number (hX : laneHeld t ftz x ≠ .nan) : laneNeg t sat ftz x = (flipped f (f.taken ftz x), 0) := by
  rw [laneHeld_float h] at hX
  have lane := settled_lane h ftz hx
  rw [laneNeg, laneOp1_float h]
  have neg := lane.neg hi hX
  exact neg.result_number h hi sat ftz (by rwa [ne_eq, ← neg.stands.nan_iff, negVal_nan_iff, lane.stands.nan_iff])

omit hi in
theorem laneAbsNeg_nan (hX : laneHeld t ftz x = .nan) :
    laneAbs t sat ftz x = (f.canonical, 0) ∧ laneNeg t sat ftz x = (f.canonical, 0) := by
  rw [laneAbs, laneNeg, laneOp1_float h, laneOp1_float h, (source_nan_iff h ftz hx).mpr hX]
  exact ⟨result_nan h sat ftz, result_nan h sat ftz⟩

omit hx

omit hi in
theorem laneMaxMin_nan (hn : f.source ftz x = .nan ∨ f.source ftz y = .nan) :
    laneMax t ftz x y = (f.canonical, 0) ∧ laneMin t ftz x y = (f.canonical, 0) := by
  rw [laneMax, laneMin, laneOp2_float h, laneOp2_float h, maxVal_nan hn, minVal_nan hn]
  simp only [sure, result_nan h, and_self]

include hx hy

theorem laneMax_numbers (hX : laneHeld t ftz x ≠ .nan) (hY : laneHeld t ftz y ≠ .nan) :
    laneMax t ftz x y = (larger f (f.taken ftz x) (f.taken ftz y), 0) := by
  rw [laneHeld_float h] at hX hY
  rw [laneMax, laneOp2_float h, sure,
    ((settled_lane h ftz hx).max hi (settled_lane h ftz hy) hX hY).result_number h hi _ _ (held_larger hX hY)]

theorem laneMin_numbers (hX : laneHeld t ftz x ≠ .nan) (hY : laneHeld t ftz y ≠ .nan) :
    laneMin t ftz x y = (smaller f (f.taken ftz x) (f.taken ftz y), 0) := by
  rw [laneHeld_float h] at hX hY
  rw [laneMin, laneOp2_float h, sure,
    ((settled_lane h ftz hx).min hi (settled_lane h ftz hy) hX hY).result_number h hi _ _ (held_smaller hX hY)]

/-- R120: vsat is the smaller of the limit and the larger of the operand and the limit's opposite, each of them a lane's result. -/
theorem laneSat_eq : laneSat t ftz x y = laneMin t ftz (laneMax t ftz x (laneNeg t false ftz y).1).1 y := by
  have ok := fmtOk_of_fmtOf h
  have X := settled_lane h ftz hx
  have Y := settled_lane h ftz hy
  rw [laneSat, not_isU_of_float h, if_neg (by simp), laneOp2_float h, sure]
  by_cases nx : f.held (f.taken ftz x) = .nan
  · have sx := X.stands.nan_iff.mpr nx
    rw [(laneMaxMin_nan h ftz (.inl sx)).1, (laneMaxMin_nan h ftz (.inl (source_canonical ok ftz))).2, sx,
      minVal_nan (.inl (maxVal_nan (.inl rfl))), result_nan h]
  by_cases ny : f.held (f.taken ftz y) = .nan
  · have sy := Y.stands.nan_iff.mpr ny
    rw [(laneMaxMin_nan h ftz (.inr sy)).2, sy, minVal_nan (.inr rfl), result_nan h]
  have N := Y.neg hi ny
  have nn : f.held (flipped f (f.taken ftz y)) ≠ .nan := by rwa [ne_eq, ← N.stands.nan_iff, negVal_nan_iff, Y.stands.nan_iff]
  have M := X.max hi N nx nn
  have nm := held_larger nx nn
  -- each intermediate lane is taken again as it is
  have max : laneMax t ftz x (flipped f (f.taken ftz y)) = (larger f (f.taken ftz x) (flipped f (f.taken ftz y)), 0) := by
    rw [laneMax, laneOp2_float h, sure, (X.max hi (N.again ok) nx nn).result_number h hi _ _ nm]
  rw [laneNeg_number h hi false ftz hy (by rwa [laneHeld_float h]), max, laneMin, laneOp2_float h, sure,
    ((M.again ok).min hi Y nm ny).result_number h hi _ _ (held_smaller nm ny),
    (M.min hi Y nm ny).result_number h hi _ _ (held_smaller nm ny)]

theorem laneLt_iff : laneLt t ftz x y = true ↔
    (laneHeld t ftz x ≠ .nan ∧ laneHeld t ftz y ≠ .nan) ∧ rank f (f.taken ftz x) < rank f (f.taken ftz y) := by
  rw [laneLt, laneCmp_float h, laneHeld_float h, laneHeld_float h]
  exact ltVal_iff hi (settled_lane h ftz hx).stands (settled_lane h ftz hy).stands

theorem laneEq_iff : laneEq t ftz x y = true ↔
    (laneHeld t ftz x ≠ .nan ∧ laneHeld t ftz y ≠ .nan) ∧ rank f (f.taken ftz x) = rank f (f.taken ftz y) := by
  rw [laneEq, laneCmp_float h, laneHeld_float h, laneHeld_float h]
  exact eqVal_iff hi (settled_lane h ftz hx).stands (settled_lane h ftz hy).stands

theorem laneLe_iff : laneLe t ftz x y = true ↔
    (laneHeld t ftz x ≠ .nan ∧ laneHeld t ftz y ≠ .nan) ∧ rank f (f.taken ftz x) ≤ rank f (f.taken ftz y) := by
  have lt := laneLt_iff h hi ftz hx hy
  have eq := laneEq_iff h hi ftz hx hy
  rw [laneLt, laneCmp_float h] at lt
  rw [laneEq, laneCmp_float h] at eq
  rw [laneLe, laneCmp_float h, Bool.or_eq_true, lt, eq, ← and_or_left, le_iff_lt_or_eq]

end

/-- Settles O24: every operation works on what its operands stand for and rounds once; minima, maxima and compares go by the rank of
the patterns. -/
theorem floatLaneArithmetic : Obligations.FloatLaneArithmetic := by
  unfold Obligations.FloatLaneArithmetic
  intro t f sat ftz x y z h hi hx hy hz
  refine ⟨laneAdd_gives h sat ftz hx hy, laneSub_gives h sat ftz hx hy, laneMul_gives h sat ftz hx hy,
    laneFma_gives h sat ftz hx hy hz, fun a m hX hm => laneRcp_gives h ftz hx hX hm, fun a hX => laneRecip_zero h hi ftz hx hX,
    fun a hX => laneRecip_inf h ftz hx hX, fun m hX hm => laneRsqrt_negative h ftz hx hX hm,
    fun m hX hm => laneRsqrt_rounds h ftz hx hX hm, fun hX => ?_, fun hX => ?_, fun hn => ?_, fun hn => ?_,
    laneSat_eq h hi ftz hx hy, ?_, ?_, ?_⟩
  · obtain ⟨rcp, rsqrt⟩ := laneRecip_nan h ftz hx hX
    exact ⟨rcp, rsqrt, laneAbsNeg_nan h sat ftz hx hX⟩
  · exact ⟨laneAbs_number h hi sat ftz hx hX, by simpa [flipped, negative] using laneNeg_number h hi sat ftz hx hX⟩
  · exact laneMaxMin_nan h ftz (by rw [source_nan_iff h ftz hx, source_nan_iff h ftz hy]; tauto)
  · obtain ⟨hX, hY⟩ := hn
    exact ⟨by simpa [larger, rank, negative] using laneMax_numbers h hi ftz hx hy hX hY,
      by simpa [smaller, rank, negative] using laneMin_numbers h hi ftz hx hy hX hY⟩
  · simpa [rank, negative] using laneLt_iff h hi ftz hx hy
  · simpa [rank, negative] using laneLe_iff h hi ftz hx hy
  · simpa [rank, negative] using laneEq_iff h hi ftz hx hy

end Sys2Proof.Proofs

namespace Sys2Proof.Proofs
open Machine

/-! # Conversions (R47, R50, R51) -/

theorem intVal_stands (z : Int) : Stands 0 (intVal z) (.num (decide (z < 0)) z.natAbs) := by
  have := Stands.fin (u := 0) (decide (z < 0)) z.natAbs 0 0 (by simp)
  rwa [pow_zero, mul_one] at this

theorem laneInt_eq {t : ElemType} {x : Nat} (hx : x < 2 ^ t.width) : laneInt t x = laneNumber t x := by
  unfold laneInt readInt signedOf laneNumber
  rw [Nat.mod_eq_of_lt hx]
  cases t.isS
  · simp
  · by_cases h : x < 2 ^ (t.width - 1)
    · simp [h]
    · simp [h, not_lt.mp h]

/-- A lane as a conversion takes it. -/
theorem toVal_stands {t : ElemType} (ftz : Bool) {x : Nat} (hx : x < 2 ^ t.width) :
    Stands (laneScale t) (toVal t ftz x) (laneHeld t ftz x) := by
  cases h : fmtOf t with
  | some f =>
    rw [toVal, h, laneScale_float h]
    exact lane_stands h ftz hx
  | none =>
    rw [toVal, laneScale, laneHeld, h, ← laneInt_eq hx]
    exact intVal_stands _

/-- R48: the code values of the model. -/
theorem codeValue8_eq : ∀ type < 4, ∀ code < 16,
    codeValue8 (B4Type.ofCode (BitVec.ofNat 2 type)) code = codeEighths type code ∧
    (codeEighths type code = 0 → 8 ≤ code → B4Type.ofCode (BitVec.ofNat 2 type) ≠ .int4) := by decide

/-- The element of a B4 block. -/
theorem b4Value_stands {scale code : Nat} (hs : scale < 256) (hc : code < 16) : Stands 34 (b4Value scale code) (b4Held scale code) := by
  obtain ⟨value, zero⟩ := codeValue8_eq (scale / 64) (by omega) code hc
  unfold b4Value b4Held
  simp only
  by_cases h : scale % 64 = 63
  · rw [if_pos h, if_pos h]; exact .nan
  rw [if_neg h, if_neg h, value]
  have sign : (decide (codeEighths (scale / 64) code < 0) || (codeEighths (scale / 64) code == 0 && decide (8 ≤ code) &&
      B4Type.ofCode (BitVec.ofNat 2 (scale / 64)) != .int4)) =
      decide (codeEighths (scale / 64) code < 0 ∨ (codeEighths (scale / 64) code = 0 ∧ 8 ≤ code)) := by
    rw [Bool.eq_iff_iff]
    simp only [Bool.or_eq_true, Bool.and_eq_true, decide_eq_true_eq, beq_iff_eq, bne_iff_ne]
    tauto
  rw [sign]
  exact .fin _ _ _ _ (by push_cast; omega)

theorem fromVal_gives {td : ElemType} {f : Fmt} (h : fmtOf td = some f) (sat ftz : Bool) {g : Nat} {v : Val} {H : Held}
    (hs : Stands g v H) :
    f.Gives sat ftz (H.finer (2 ^ f.scale)) (2 ^ g) false (fromVal td sat ftz v) := by
  rw [fromVal, h]
  exact gives_encode (fmtOk_of_fmtOf h) sat ftz (add_comm g _ ▸ hs.finer f.scale)

theorem convert_float {td ts : ElemType} {fd fs : Fmt} (hd : fmtOf td = some fd) (hs : fmtOf ts = some fs) (sat ftz : Bool) (x : Nat) :
    convert td ts sat ftz x = fd.flush ftz (fd.encode sat (fs.source ftz x)) := by rw [convert, hd, hs]

/-- A conversion but for one between integers. -/
theorem convert_eq_fromVal {td ts : ElemType} (h : fmtOf td ≠ none ∨ fmtOf ts ≠ none) (sat ftz : Bool) (x : Nat) :
    convert td ts sat ftz x = fromVal td sat ftz (toVal ts ftz x) := by
  unfold convert fromVal toVal
  cases hd : fmtOf td <;> cases hs : fmtOf ts
  · simp [hd, hs] at h
  all_goals rfl

/-! To integers (R51). -/

/-- The integer nearest to h / 2^place, ties to even. -/
def Nearest (h : Int) (place : Nat) (k : Int) : Prop :=
  (2 * (h - k * 2 ^ place)).natAbs < 2 ^ place ∨ ((2 * (h - k * 2 ^ place)).natAbs = 2 ^ place ∧ k % 2 = 0)

theorem rneShift_nearest (x : Int) (s : Nat) : Nearest x s (rneShift x s) := by
  have hd : (0 : Int) < 2 ^ s := by positivity
  have split := Int.emod_add_mul_ediv x (2 ^ s)
  have lo := Int.emod_nonneg x hd.ne'
  have hi := Int.emod_lt_of_pos x hd
  have cast : ((2 ^ s : Nat) : Int) = 2 ^ s := by push_cast; rfl
  unfold Nearest rneShift
  have dist (k : Int) : 2 * (x - k * 2 ^ s) = 2 * (x % 2 ^ s) + 2 * ((x / 2 ^ s - k) * 2 ^ s) := by
    conv_lhs => rw [← split]
    ring
  zify
  simp only [dist]
  generalize x / 2 ^ s = q at *
  generalize x % 2 ^ s = r at *
  generalize (2 : Int) ^ s = d at *
  split_ifs with up
  · rw [show 2 * r + 2 * ((q - (q + 1)) * d) = -(2 * d - 2 * r) by ring, abs_neg, abs_of_nonneg (by omega)]
    omega
  · rw [sub_self, zero_mul, mul_zero, add_zero, abs_of_nonneg (by omega)]
    omega

theorem Nearest.finer {h k : Int} {place : Nat} (hk : Nearest h place k) (j : Nat) : Nearest (h * 2 ^ j) (place + j) k := by
  have hj : 0 < 2 ^ j := by positivity
  have dist : (2 * (h * 2 ^ j - k * 2 ^ (place + j))).natAbs = (2 * (h - k * 2 ^ place)).natAbs * 2 ^ j := by
    rw [show 2 * (h * 2 ^ j - k * 2 ^ (place + j)) = 2 * (h - k * 2 ^ place) * 2 ^ j by ring, Int.natAbs_mul, Int.natAbs_pow]
    rfl
  unfold Nearest at *
  rwa [dist, pow_add, Nat.mul_lt_mul_right hj, Nat.mul_left_inj hj.ne']

/-- A number in a fine unit, as the integer that the model takes over a power of two. -/
theorem shift_of_place {a : Bool} {m k place : Nat} {e : Int} (he : e = k - place) :
    (Held.num a (m * 2 ^ k)).int = Val.toInt a (m * 2 ^ e.toNat) * 2 ^ (place - (-e).toNat) ∧ (-e).toNat ≤ place := by
  have hk : k = e.toNat + (place - (-e).toNat) := by omega
  refine ⟨?_, by omega⟩
  conv_lhs => rw [hk, pow_add, ← mul_assoc]
  exact int_num a _ _

/-- R51: what a value becomes as an integer: rounded to nearest, ties to even, and clamped. -/
def BecomesInteger (td : ElemType) (h : Held) (place : Nat) (r : Nat × Flags) : Prop :=
  let lo : Int := if td.isS then -(2 ^ (td.width - 1)) else 0
  let hi : Int := if td.isS then 2 ^ (td.width - 1) - 1 else 2 ^ td.width - 1
  (h = .nan → r = (0, flagNV)) ∧
  (∀ a, h = .inf a → r = (laneBits td false (if a then lo else hi), flagNV)) ∧
  (∀ a n, h = .num a n → ∃ k : Int, Nearest h.int place k ∧
    r = (laneBits td true k, if lo ≤ k ∧ k ≤ hi then (if k * 2 ^ place = h.int then 0 else flagNX) else flagNV))

theorem eq_clampInt_iff (td : ElemType) (k : Int) :
    k = clampInt td.isS td.width k ↔ intMin td.isS td.width ≤ k ∧ k ≤ intMax td.isS td.width := by
  have : intMin td.isS td.width ≤ intMax td.isS td.width := by cases td <;> decide
  unfold clampInt
  omega

theorem toIntType_becomes (td : ElemType) {place : Nat} {v : Val} {h : Held} (hs : Stands place v h) :
    BecomesInteger td h place (toIntType td.isS td.width v) := by
  cases hs with
  | nan => exact ⟨fun _ => rfl, nofun, nofun⟩
  | inf a =>
    refine ⟨nofun, fun b hb => ?_, nofun⟩
    cases hb
    cases a <;> rfl
  | fin a m e k he =>
    obtain ⟨number, le⟩ := shift_of_place (a := a) (m := m) he
    refine ⟨nofun, nofun, fun _ _ _ => ⟨rneShift (Val.toInt a (m * 2 ^ e.toNat)) (-e).toNat, ?_, ?_⟩⟩
    · rw [number, ← Nat.add_sub_cancel' le, Nat.add_sub_cancel_left]
      exact (rneShift_nearest _ _).finer _
    · have exact_ (r x : Int) : r * 2 ^ place = x * 2 ^ (place - (-e).toNat) ↔ r * 2 ^ (-e).toNat = x := by
        conv_lhs => rw [← Nat.add_sub_cancel' le, Nat.add_sub_cancel_left, pow_add, ← mul_assoc]
        exact mul_left_inj' (by positivity)
      rw [number]
      simp only [exact_]
      generalize hr : rneShift (Val.toInt a (m * 2 ^ e.toNat)) (-e).toNat = r
      have bits : laneBits td true r = wrapInt td.width (clampInt td.isS td.width r) := rfl
      have within := eq_clampInt_iff td r
      unfold toIntType
      simp only [hr]
      by_cases h : r = clampInt td.isS td.width r
      · rw [if_pos h, bits, ← h]
        exact congrArg _ (if_pos (within.mp h)).symm
      · rw [if_neg h, bits]
        exact congrArg _ (if_neg fun h' => h (within.mpr h')).symm

/-- R51: from one integer type to another. -/
theorem convert_integers {td ts : ElemType} (hd : fmtOf td = none) (hs : fmtOf ts = none) (sat ftz : Bool) {x : Nat}
    (hx : x < 2 ^ ts.width) : convert td ts sat ftz x = (laneBits td sat (laneNumber ts x), 0) := by
  rw [convert, hd, hs, ← laneInt_eq hx]
  rfl

end Sys2Proof.Proofs

namespace Sys2Proof.Proofs
open Machine

/-! # The exponential (R59) -/

theorem laneMul32 (a b : Nat) : (laneMul .f32 false false a b).1 = mul32 a b := rfl
theorem laneAdd32 (a b : Nat) : (laneAdd .f32 false false a b).1 = add32 a b := rfl

theorem held_sign_inf {f : Fmt} (ok : FmtOk f) (hi : f.infs = true) (a : Bool) : f.held (f.sign a + (f.top + 1)) = .inf a := by
  have hl : f.top + 1 < 2 ^ (f.eb + f.fb) := by have := ok.canonical_lt; have := ok.canonical_gt; omega
  rw [held_of_eq hi (unsigned_sign_add f a hl)]
  simp [negative_sign_add f a hl]

/-- A number rounds to no NaN, in a format with infinities. -/
theorem held_of_rounds {f : Fmt} (ok : FmtOk f) (hi : f.infs = true) {neg : Bool} {c : Nat → Ordering} {r : Nat × Flags}
    (h : f.Rounds false neg c r) : f.held r.1 ≠ .nan := by
  obtain ⟨p, -, -, rfl⟩ := h
  by_cases hp : p ≤ f.top
  · simp [hp, held_sign_add neg hp ok]
  · simp [hp, hi, add_assoc, held_sign_inf ok hi]

theorem held_encode_ne_nan {f : Fmt} (ok : FmtOk f) (hi : f.infs = true) {v : Val} (hv : v ≠ .nan) :
    f.held (f.encode false v).1 ≠ .nan := by
  cases v with
  | nan => exact absurd rfl hv
  | inf a => simp [encode_inf ok, hi, add_assoc, held_sign_inf ok hi]
  | fin a m e =>
    obtain ⟨c, h⟩ := encode_fin_rounds ok false a m e
    exact held_of_rounds ok hi h

/-- The distance from a number to an integer, exactly. -/
theorem rounds_fraction {v : Val} {neg : Bool} {n : Nat} (ht : Stands 149 v (.num neg n)) (k : Int) :
    fp32.Rounds false (decide ((Held.num neg n).int < k * 2 ^ 149)) (halves ((Held.num neg n).int - k * 2 ^ 149).natAbs 1)
      (fp32.encode false (addVal v (intVal (-k))).1) := by
  have hk : Stands 149 (intVal (-k)) (.num (decide (-k < 0)) ((-k).natAbs * 2 ^ 149)) := by
    have := (intVal_stands (-k)).finer 149
    rwa [Nat.zero_add] at this
  have int : (Held.num (decide (-k < 0)) ((-k).natAbs * 2 ^ 149)).int = -(k * 2 ^ 149) := by
    rw [int_num, ← neg_mul, toInt_natAbs]
  have exact_ := ht.add hk
  have sign : (if (Held.num neg n).int - k * 2 ^ 149 = 0 then neg && decide (-k < 0)
      else decide ((Held.num neg n).int - k * 2 ^ 149 < 0)) = decide ((Held.num neg n).int < k * 2 ^ 149) := by
    have : neg = true → (Held.num neg n).int ≤ 0 := by rintro rfl; simp [Held.int]
    cases neg <;> split_ifs <;> rw [Bool.eq_iff_iff] <;> simp at * <;> omega
  simp only [sum_num, int, ← sub_eq_add_neg, sign] at exact_
  rw [encode_num _ _ exact_]
  exact rounds_num fmtOk_fp32 false _ _ 0

/-- The scaling by a power of two. -/
theorem rounds_scaled {neg : Bool} {m n : Nat} {e : Int} (hp : Stands 149 (.fin neg m e) (.num neg n)) (k : Int) :
    fp32.Rounds false neg (halves (n * 2 ^ k.toNat) (2 ^ (-k).toNat)) (fp32.roundFin false neg m (e + k)) := by
  obtain ⟨_, _, j, hv, he, rfl⟩ := hp.num_inv
  cases hv
  have scaled : Stands (149 + (-k).toNat) (.fin neg m (e + k)) (.num neg (m * 2 ^ j * 2 ^ k.toNat)) := by
    rw [mul_assoc, ← pow_add]
    exact .fin _ _ _ _ (by push_cast; omega)
  have := rounds_num fmtOk_fp32 false neg (m * 2 ^ j * 2 ^ k.toNat) (-k).toNat
  rwa [show (fp32.scale + (-k).toNat : Nat) = 149 + (-k).toNat from rfl, ← encode_num _ _ scaled] at this

/-- The chain of five multiplies and adds, and the scaling of its result, as the model has them. -/
def expChain (f : Nat) : Nat := expC.foldl (fun p c => add32 (mul32 p f) c) expC5
def expScaled (p : Nat) (n : Int) : Nat :=
  match fp32.decode p with
  | .fin pn pm pe => (fp32.roundFin false pn pm (pe + n)).1
  | _ => p

theorem expK_inf {x : Nat} {neg : Bool} (hx : fp32.decode x = .inf neg) : expK x = if neg then 0 else inf32 := by
  unfold expK
  simp only [hx]

theorem expK_fin {x : Nat} (hx : ∃ a m e, fp32.decode x = .fin a m e) :
    expK x = match fp32.decode (mul32 x 0x3FB8AA3B) with
      | .nan => nan32
      | .inf neg => if neg then 0 else inf32
      | .fin neg m e =>
        if 256 ≤ m * 2 ^ e.toNat / 2 ^ (-e).toNat then (if neg then 0 else inf32) else
          let n := rneShift (Val.toInt neg (m * 2 ^ e.toNat)) (-e).toNat
          expScaled (expChain (fp32.encode false (addVal (.fin neg m e) (intVal (-n))).1).1) n := by
  obtain ⟨_, _, _, hx⟩ := hx
  unfold expK
  simp only [hx]
  cases ht : fp32.decode (mul32 x 0x3FB8AA3B) with
  | nan => rfl
  | inf neg => rfl
  | fin neg m e => 
    simp only [decide_eq_true_eq]
    rfl

/-- t of R59. -/
theorem held_mul32 {x : Nat} (hx : fp32.held x ≠ .nan) : fp32.held (mul32 x 0x3FB8AA3B) ≠ .nan := by
  refine held_encode_ne_nan fmtOk_fp32 rfl ?_
  have sx := decode_stands fmtOk_fp32 x
  have hL : fp32.decode 0x3FB8AA3B = .fin false 0xB8AA3B (-23) := by decide
  rw [hL]
  rw [ne_eq, ← sx.nan_iff] at hx
  cases h : fp32.decode x with
  | nan => exact absurd h hx
  | inf a => simp [mulVal]
  | fin a m e => simp [mulVal]

theorem mul32_inf {x : Nat} {a : Bool} (hx : fp32.decode x = .inf a) : fp32.decode (mul32 x 0x3FB8AA3B) = .inf a := by
  have hL : fp32.decode 0x3FB8AA3B = .fin false 0xB8AA3B (-23) := by decide
  unfold mul32 mulF
  rw [hx, hL]
  cases a <;> decide

/-- 256 or more, as the model and as the rule ask for it. -/
theorem large_iff {m k : Nat} {e : Int} (he : e = (k : Int) - 149) :
    256 ≤ m * 2 ^ e.toNat / 2 ^ (-e).toNat ↔ 256 * 2 ^ 149 ≤ m * 2 ^ k := by
  have hk : 2 ^ k = 2 ^ e.toNat * 2 ^ (149 - (-e).toNat) := by rw [← pow_add]; congr 1; omega
  have h149 : (2 : Nat) ^ 149 = 2 ^ (-e).toNat * 2 ^ (149 - (-e).toNat) := by rw [← pow_add]; congr 1; omega
  rw [Nat.le_div_iff_mul_le (by positivity), hk, h149, ← mul_assoc, ← mul_assoc]
  exact (Nat.mul_le_mul_right_iff (by positivity)).symm

theorem expSteps_inf {x y : Nat} {neg : Bool} (ht : fp32.held (mul32 x 0x3FB8AA3B) = .inf neg) (hy : y = if neg then 0 else inf32) :
    ExpSteps x y := by
  unfold ExpSteps
  intro mul add far t
  have h : t = .inf neg := ht
  clear_value t
  subst h
  exact hy

theorem expSteps_far {x y n : Nat} {neg : Bool} (ht : fp32.held (mul32 x 0x3FB8AA3B) = .num neg n) (hn : 256 * 2 ^ 149 ≤ n)
    (hy : y = if neg then 0 else inf32) : ExpSteps x y := by
  unfold ExpSteps
  intro mul add far t
  have h : t = .num neg n := ht
  clear_value t
  subst h
  exact (if_pos hn).mpr hy

theorem expSteps_near {x n : Nat} {neg : Bool} (ht : fp32.held (mul32 x 0x3FB8AA3B) = .num neg n) (hn : ¬256 * 2 ^ 149 ≤ n)
    {k : Int} {g : Nat × Flags} (hk : Nearest (Held.num neg n).int 149 k)
    (hg : fp32.Rounds false (decide ((Held.num neg n).int < k * 2 ^ 149)) (halves ((Held.num neg n).int - k * 2 ^ 149).natAbs 1) g) :
    ExpSteps x (expScaled (expChain g.1) k) := by
  unfold ExpSteps
  intro mul add far t
  have h : t = .num neg n := ht
  clear_value t
  subst h
  refine (if_neg hn).mpr ⟨k, g, hk, hg, ?_⟩
  intro p
  have hp : p = expChain g.1 := rfl
  clear_value p
  subst hp
  have sp := decode_stands fmtOk_fp32 (expChain g.1)
  unfold expScaled
  cases hd : fp32.decode (expChain g.1) with
  | nan => rw [hd] at sp; rw [sp.of_nan]
  | inf a => rw [hd] at sp; rw [sp.of_inf]
  | fin a m e =>
    rw [hd] at sp
    obtain ⟨j, -, held⟩ := sp.of_fin
    rw [held] at sp ⊢
    exact ⟨_, rounds_scaled sp k⟩

/-- R59: the model takes the steps. -/
theorem expK_steps {x : Nat} (hx : fp32.held x ≠ .nan) : ExpSteps x (expK x) := by
  have nt := held_mul32 hx
  have st : Stands 149 _ _ := decode_stands fmtOk_fp32 (mul32 x 0x3FB8AA3B)
  have sx := decode_stands fmtOk_fp32 x
  cases hxd : fp32.decode x with
  | nan => exact absurd (sx.nan_iff.mp hxd) hx
  | inf a =>
    rw [mul32_inf hxd] at st
    exact expSteps_inf st.of_inf (expK_inf hxd)
  | fin xa xm xe =>
    have steps := expK_fin ⟨xa, xm, xe, hxd⟩
    cases ht : fp32.decode (mul32 x 0x3FB8AA3B) with
    | nan => exact absurd (st.nan_iff.mp ht) nt
    | inf a =>
      rw [ht] at st steps
      exact expSteps_inf st.of_inf steps
    | fin a m e =>
      rw [ht] at st steps
      obtain ⟨k, he, held⟩ := st.of_fin
      rw [held] at st
      simp only [large_iff he] at steps
      by_cases big : 256 * 2 ^ 149 ≤ m * 2 ^ k
      · exact expSteps_far held big (steps.trans (if_pos big))
      · obtain ⟨number, le⟩ := shift_of_place (a := a) (m := m) he
        rw [steps, if_neg big]
        refine expSteps_near held big ?_ (rounds_fraction st _)
        rw [number]
        have := (rneShift_nearest (Val.toInt a (m * 2 ^ e.toNat)) (-e).toNat).finer (149 - (-e).toNat)
        rwa [Nat.add_sub_cancel' le] at this

end Sys2Proof.Proofs

namespace Sys2Proof.Proofs
open Machine

/-! ## vexp -/

/-- The pattern that vexp gives for a decoded value. -/
def expLane (f : Fmt) (ftz : Bool) (v : Val) : Nat := (f.flush ftz (f.encode false (fp32.decode (expK (fp32.encode false v).1)))).1

theorem laneExp_float {t : ElemType} {f : Fmt} (h : fmtOf t = some f) (ftz : Bool) (x : Nat) :
    laneExp t ftz x = match f.source ftz x with
      | .fin _ m _ =>
        if m = 0 then (expLane f ftz (f.source ftz x), 0)
        else (expLane f ftz (f.source ftz x), flagNX ||| (match f.decode (expLane f ftz (f.source ftz x)) with
          | .inf _ => flagOF
          | .fin _ n _ => if n = 0 ∨ f.subnormal (expLane f ftz (f.source ftz x)) then flagUF else 0
          | .nan => 0))
      | _ => (expLane f ftz (f.source ftz x), 0) := by
  unfold laneExp
  rw [h]
  rfl

theorem expLane_nan {f : Fmt} (ok : FmtOk f) (ftz : Bool) : expLane f ftz .nan = f.canonical := by
  have : fp32.decode (expK (fp32.encode false .nan).1) = .nan := by decide +kernel
  rw [expLane, this, flush_encode_nan ok]

theorem expLane_inf {f : Fmt} (ok : FmtOk f) (hi : f.infs = true) (ftz a : Bool) : expLane f ftz (.inf a) = if a then 0 else f.top + 1 := by
  cases a
  · have : fp32.decode (expK (fp32.encode false (.inf false)).1) = .inf false := by decide +kernel
    rw [expLane, this, flush_encode_inf ok, if_pos hi]
    simp [Fmt.sign]
  · have : fp32.decode (expK (fp32.encode false (.inf true)).1) = .fin false 0 (-149) := by decide +kernel
    rw [expLane, this]
    exact congrArg Prod.fst (flush_sign f ftz false 0)

theorem expLane_zero {t : ElemType} {f : Fmt} (h : fmtOf t = some f) (hi : f.infs = true) (ftz a : Bool) (e : Int) :
    expLane f ftz (.fin a 0 e) = f.bias * 2 ^ f.fb := by
  have one : fp32.decode (expK (fp32.sign a)) = .fin false 0x800000 (-23) := by cases a <;> decide +kernel
  show (f.flush ftz (f.encode false (fp32.decode (expK (fp32.sign a))))).1 = _
  rw [one]
  cases t <;> cases h <;> cases hi <;> cases ftz <;> decide +kernel

theorem flush_fst (f : Fmt) (ftz : Bool) (r : Nat × Flags) : (f.flush ftz r).1 = (f.flush ftz (r.1, 0)).1 := by
  unfold Fmt.flush; split <;> rfl

/-- A result below the smallest normal, as the model and as the statements ask for it. -/
theorem below_normal_iff {f : Fmt} (ok : FmtOk f) {r m n : Nat} {a b : Bool} {e : Int} (hd : f.decode r = .fin a m e)
    (hh : f.held r = .num b n) : (m = 0 ∨ f.subnormal r = true) ↔ n < 2 ^ f.fb := by
  have s := decode_stands ok r
  rw [hd, hh] at s
  obtain ⟨k, -, e'⟩ := s.of_fin
  have zero : m = 0 ↔ n = 0 := by
    injection e' with _ hn
    rw [hn]; simp
  have le : f.unsigned r ≤ f.top := by
    by_contra h
    unfold Fmt.held at hh
    rw [if_neg h] at hh
    split at hh <;> cases hh
  rw [held_of_le le] at hh
  injection hh with _ hn
  have mono := units_strictMono f
  have edge : f.units (2 ^ f.fb) = 2 ^ f.fb := by
    simpa using units_place f (d := 0) (n := 2 ^ f.fb) (by rw [pow_succ]; omega) (.inl rfl)
  have small := mono.lt_iff_lt (a := f.unsigned r) (b := 2 ^ f.fb)
  have pos := mono.lt_iff_lt (a := 0) (b := f.unsigned r)
  rw [edge, hn] at small
  rw [units_zero, hn] at pos
  have : 0 < 2 ^ f.fb := by positivity
  rw [subnormal_iff, zero]
  omega

section
variable {t : ElemType} {f : Fmt} (h : fmtOf t = some f) (hi : f.infs = true) (ftz : Bool) {x : Nat} (hx : x < 2 ^ t.width)
include h hx

theorem laneExp_nan (hX : laneHeld t ftz x = .nan) : laneExp t ftz x = (f.canonical, 0) := by
  rw [laneExp_float h, (source_nan_iff h ftz hx).mpr hX, expLane_nan (fmtOk_of_fmtOf h)]

include hi

theorem laneExp_inf {a : Bool} (hX : laneHeld t ftz x = .inf a) : laneExp t ftz x = (if a then 0 else f.top + 1, 0) := by
  have hv : f.source ftz x = .inf a := Stands.inf_inv (hX ▸ lane_stands h ftz hx)
  rw [laneExp_float h, hv, expLane_inf (fmtOk_of_fmtOf h) hi]

theorem laneExp_zero {a : Bool} (hX : laneHeld t ftz x = .num a 0) : laneExp t ftz x = (f.bias * 2 ^ f.fb, 0) := by
  obtain ⟨m, e, k, hv, -, hm⟩ := (hX ▸ lane_stands h ftz hx).num_inv
  obtain rfl : m = 0 := by simpa using hm.symm
  rw [laneExp_float h, hv, expLane_zero h hi]
  rfl

omit hi in
/-- R59: a finite source that is no zero goes by the steps, and sets the flags by its result. -/
theorem laneExp_number {a : Bool} {m : Nat} (hX : laneHeld t ftz x = .num a m) (hm : m ≠ 0) :
    ∃ y, ExpSteps (convert .f32 t false false (f.taken ftz x)).1 y ∧
      let r := (f.flushed ftz ((convert t .f32 false false y).1, 0)).1
      laneExp t ftz x = (r, flagNX ||| match f.held r with
        | .inf _ => flagOF
        | .num _ n => if n < 2 ^ f.fb then flagUF else 0
        | .nan => 0) := by
  have ok := fmtOk_of_fmtOf h
  have lane := settled_lane h ftz hx
  obtain ⟨m, e, k, hv, -, rfl⟩ := (hX ▸ lane_stands h ftz hx).num_inv
  have h0 : m ≠ 0 := by rintro rfl; simp at hm
  have widened : (convert .f32 t false false (f.taken ftz x)).1 = (fp32.encode false (f.source ftz x)).1 := by
    rw [convert_float (td := .f32) rfl h, flush_false, source_false, encode_congr fp32 false (decode_stands ok _) lane.stands]
  rw [widened]
  refine ⟨_, expK_steps ?_, ?_⟩
  · exact held_encode_ne_nan fmtOk_fp32 rfl (by rw [hv]; simp)
  intro r
  have hr : expLane f ftz (f.source ftz x) = r := by
    rw [expLane, flush_fst, flush_eq ftz (r := (_, 0)) (encode_lt ok false _)]
    show _ = (f.flushed ftz ((convert t .f32 false false _).1, 0)).1
    rw [convert_float h (ts := .f32) rfl]
    rfl
  have s := decode_stands ok r
  rw [laneExp_float h, hr]
  simp only [hv, if_neg h0]
  congr 2
  cases hd : f.decode r with
  | nan => rw [hd] at s; rw [s.of_nan]
  | inf a => rw [hd] at s; rw [s.of_inf]
  | fin a m e =>
    rw [hd] at s
    obtain ⟨k, -, held⟩ := s.of_fin
    rw [held]
    simp only [below_normal_iff ok hd held]

end

end Sys2Proof.Proofs

namespace Sys2Proof.Proofs
open Machine

/-! # Conversion to a B4 block (R49) -/

/-- The flags that some lane raises. -/
theorem getLsbD_foldl_or {α : Type} {w : Nat} (g : α → BitVec w) (xs : List α) (z : BitVec w) (i : Nat) :
    (xs.foldl (fun fl x => fl ||| g x) z).getLsbD i = true ↔ z.getLsbD i = true ∨ ∃ x ∈ xs, (g x).getLsbD i = true := by
  induction xs generalizing z with
  | nil => simp
  | cons x xs ih => simp [ih, or_assoc]

/-- The largest of some elements is one of them. -/
theorem foldl_max_spec {α : Type} [LinearOrder α] (l : α) (ls : List α) :
    (∀ x ∈ l :: ls, x ≤ ls.foldl max l) ∧ ls.foldl max l ∈ l :: ls := by
  induction ls generalizing l with
  | nil => simp
  | cons y ls ih =>
    obtain ⟨le, mem⟩ := ih (max l y)
    rw [List.foldl_cons]
    constructor
    · intro x hx
      simp only [List.mem_cons] at hx le
      rcases hx with rfl | rfl | hx
      · exact (le_max_left _ _).trans (le _ (.inl rfl))
      · exact (le_max_right _ _).trans (le _ (.inl rfl))
      · exact le x (.inr hx)
    · rcases List.mem_cons.mp mem with h | h
      · rw [h]
        rcases max_choice l y with h | h <;> simp [h]
      · simp [h]

/-! The nearest code. -/

/-- What the model takes as an odd code. -/
def oddCode (t : B4Type) (c : Nat) : Bool :=
  match t with
  | .int4 => codeValue8 t c / 8 % 2 != 0
  | _ => c % 2 == 1

theorem codes_facts : ∀ type < 4, codeEighths type 0 = 0 ∧
    ∀ c < 16, oddCode (B4Type.ofCode (BitVec.ofNat 2 type)) c = decide (c % 2 = 1) := by decide

/-- Between two values of odd codes lies that of another code. -/
theorem codes_between : ∀ (type : Fin 4) (c k : Fin 16), c.val % 2 = 1 → k.val % 2 = 1 → codeEighths type c < codeEighths type k →
    ∃ j : Fin 16, codeEighths type c < codeEighths type j ∧ codeEighths type j < codeEighths type k := by decide +kernel

/-- Code c is preferred to code k: it is nearer, or as near, and not the odd one of the two. -/
def Preferred (dist : Nat → Nat) (odd : Nat → Bool) (c k : Nat) : Prop :=
  dist c < dist k ∨ (dist c = dist k ∧ (odd c = false ∨ odd k = true))

theorem Preferred.refl (dist : Nat → Nat) (odd : Nat → Bool) (c : Nat) : Preferred dist odd c c :=
  .inr ⟨rfl, by cases odd c <;> simp⟩

theorem Preferred.trans {dist : Nat → Nat} {odd : Nat → Bool} {a b c : Nat} (h : Preferred dist odd a b) (h' : Preferred dist odd b c) :
    Preferred dist odd a c := by
  unfold Preferred at *
  rcases h with h | ⟨h, e⟩ <;> rcases h' with h' | ⟨h', e'⟩
  · exact .inl (by omega)
  · exact .inl (by omega)
  · exact .inl (by omega)
  · refine .inr ⟨by omega, ?_⟩
    rcases e with e | e
    · exact .inl e
    · exact .inr (e'.resolve_left (by simp [e]))

/-- One step of the model's search: the code that it keeps. -/
def keptCode (dist : Nat → Nat) (odd : Nat → Bool) (b c : Nat) : Nat :=
  if dist c < dist b ∨ (dist c = dist b ∧ odd b = true ∧ odd c = false) then c else b

theorem keptCode_preferred (dist : Nat → Nat) (odd : Nat → Bool) (b c : Nat) :
    Preferred dist odd (keptCode dist odd b c) b ∧ Preferred dist odd (keptCode dist odd b c) c := by
  unfold keptCode
  by_cases h : dist c < dist b ∨ (dist c = dist b ∧ odd b = true ∧ odd c = false)
  · rw [if_pos h]
    exact ⟨h.imp_right fun ⟨e, hb, _⟩ => ⟨e, .inr hb⟩, .refl dist odd c⟩
  · rw [if_neg h]
    obtain ⟨far, tie⟩ := not_or.mp h
    refine ⟨.refl dist odd b, ?_⟩
    rcases (not_lt.mp far).lt_or_eq with lt | e
    · exact .inl lt
    · refine .inr ⟨e, ?_⟩
      by_contra hodd
      simp only [not_or, Bool.not_eq_false, Bool.not_eq_true] at hodd
      exact tie ⟨e.symm, hodd⟩

/-- Going through codes ends with one that is preferred to all. -/
theorem foldl_preferred (dist : Nat → Nat) (odd : Nat → Bool) (cs : List Nat) (b : Nat) :
    cs.foldl (keptCode dist odd) b ∈ b :: cs ∧ ∀ c ∈ b :: cs, Preferred dist odd (cs.foldl (keptCode dist odd) b) c := by
  induction cs generalizing b with
  | nil =>
    refine ⟨by simp, fun c hc => ?_⟩
    obtain rfl : c = b := by simpa using hc
    exact .refl dist odd c
  | cons x cs ih =>
    obtain ⟨mem, best⟩ := ih (keptCode dist odd b x)
    obtain ⟨left, right⟩ := keptCode_preferred dist odd b x
    have first := best _ (List.mem_cons_self ..)
    rw [List.foldl_cons]
    constructor
    · rcases List.mem_cons.mp mem with h | h
      · rw [h, keptCode]
        split_ifs <;> simp
      · simp [h]
    · intro c hc
      simp only [List.mem_cons] at hc
      rcases hc with rfl | rfl | hc
      · exact first.trans left
      · exact first.trans right
      · exact best c (List.mem_cons_of_mem _ hc)

/-- The preferred code is a nearest one, even where another value is as near; a zero is code 0. -/
theorem nearest_of_preferred {type : Nat} (ht : type < 4) {Q : Int} {U : Nat} (hU : 0 < U) {r : Nat} (hr : r < 16) :
    let dist (k : Nat) : Nat := (Q - codeEighths type k * U).natAbs
    let c := if codeEighths type r = 0 then 0 else r
    (∀ k < 16, Preferred dist (fun k => decide (k % 2 = 1)) r k) →
    c < 16 ∧ (codeEighths type c = 0 → c = 0) ∧
      ∀ k, k < 16 → dist c < dist k ∨ (dist c = dist k ∧ (c % 2 = 0 ∨ codeEighths type k = codeEighths type c)) := by
  intro dist c best
  have zero : codeEighths type 0 = 0 := (codes_facts type ht).1
  have same : codeEighths type c = codeEighths type r := by
    by_cases h : codeEighths type r = 0
    · simp only [c, if_pos h, zero, h]
    · simp only [c, if_neg h]
  have dist_same : dist c = dist r := by simp only [dist, same]
  have even_of : r % 2 = 0 → c % 2 = 0 := fun h => by simp only [c]; split <;> omega
  refine ⟨by simp only [c]; split <;> omega, fun h => if_pos (same ▸ h), fun k hk => ?_⟩
  rw [dist_same, same]
  rcases best k hk with h | ⟨h, even | odd⟩
  · exact .inl h
  · exact .inr ⟨h, .inl (even_of (by simpa using even))⟩
  · refine .inr ⟨h, or_iff_not_imp_left.mpr fun hc => ?_⟩
    have hodd : r % 2 = 1 := by
      by_contra h'
      exact hc (even_of (by omega))
    have hkodd : k % 2 = 1 := by simpa using odd
    -- a code between the two would be nearer
    have nearer {a b j : Int} (hab : a < j ∧ j < b) (h : (Q - a * U).natAbs = (Q - b * U).natAbs) :
        (Q - j * U).natAbs < (Q - a * U).natAbs := by
      have h1 := mul_lt_mul_of_pos_right hab.1 (Int.natCast_pos.mpr hU)
      have h2 := mul_lt_mul_of_pos_right hab.2 (Int.natCast_pos.mpr hU)
      generalize a * (U : Int) = a', b * (U : Int) = b', j * (U : Int) = j' at *
      omega
    have between {a b : Nat} (ha : a < 16) (hb : b < 16) (hao : a % 2 = 1) (hbo : b % 2 = 1)
        (hab : codeEighths type a < codeEighths type b) (h : dist a = dist b) : ∃ j < 16, dist j < dist a := by
      obtain ⟨j, hj⟩ := codes_between ⟨type, ht⟩ ⟨a, ha⟩ ⟨b, hb⟩ hao hbo hab
      exact ⟨j, j.isLt, nearer hj h⟩
    by_contra hne
    have : ∃ j < 16, dist j < dist r := by
      rcases lt_or_gt_of_ne hne with lt | gt
      · obtain ⟨j, hj, lt⟩ := between hk hr hkodd hodd lt h.symm
        exact ⟨j, hj, by omega⟩
      · exact between hr hk hodd hkodd gt h
    obtain ⟨j, hj, lt⟩ := this
    rcases best j hj with h | ⟨h, -⟩ <;> omega

theorem b4Nearest_eq (t : B4Type) (neg : Bool) (m : Nat) (e : Int) :
    b4Nearest t neg m e =
      let dist (c : Nat) : Nat := (Val.toInt neg (m * 2 ^ (e + 3).toNat) - codeValue8 t c * 2 ^ (-(e + 3)).toNat).natAbs
      let best := (List.range 16).foldl (keptCode dist (oddCode t)) 0
      if codeValue8 t best = 0 then 0 else best := rfl

/-- R49: the model's code. -/
theorem b4Nearest_nearest {type : Nat} (ht : type < 4) (neg : Bool) (m : Nat) (e : Int) :
    let c := b4Nearest (B4Type.ofCode (BitVec.ofNat 2 type)) neg m e
    let dist (k : Nat) : Nat := (Val.toInt neg (m * 2 ^ (e + 3).toNat) - codeEighths type k * (2 ^ (-(e + 3)).toNat : Nat)).natAbs
    c < 16 ∧ (codeEighths type c = 0 → c = 0) ∧
      ∀ k, k < 16 → dist c < dist k ∨ (dist c = dist k ∧ (c % 2 = 0 ∨ codeEighths type k = codeEighths type c)) := by
  intro c dist
  have hc : c = b4Nearest (B4Type.ofCode (BitVec.ofNat 2 type)) neg m e := rfl
  clear_value c
  rw [b4Nearest_eq] at hc
  simp only at hc
  obtain ⟨mem, best⟩ := foldl_preferred
    (fun c => (Val.toInt neg (m * 2 ^ (e + 3).toNat) - codeValue8 (B4Type.ofCode (BitVec.ofNat 2 type)) c * 2 ^ (-(e + 3)).toNat).natAbs)
    (oddCode (B4Type.ofCode (BitVec.ofNat 2 type))) (List.range 16) 0
  generalize List.foldl _ _ (List.range 16) = r at *
  have hr : r < 16 := by simp at mem; omega
  have value (k : Nat) (hk : k < 16) := (codeValue8_eq type ht k hk).1
  have odd (k : Nat) (hk : k < 16) : oddCode (B4Type.ofCode (BitVec.ofNat 2 type)) k = decide (k % 2 = 1) :=
    (codes_facts type ht).2 k hk
  rw [value r hr] at hc
  subst hc
  refine nearest_of_preferred ht (Q := Val.toInt neg (m * 2 ^ (e + 3).toNat)) (U := 2 ^ (-(e + 3)).toNat) (by positivity) hr fun k hk => ?_
  have := best k (by simp [hk])
  unfold Preferred at this ⊢
  simp only [value r hr, value k hk, odd r hr, odd k hk] at this
  simpa only [Nat.cast_pow, Nat.cast_ofNat] using this

end Sys2Proof.Proofs

namespace Sys2Proof.Proofs
open Machine

/-! ## A block of eight lanes -/

/-- What makes a block the NaN block. -/
def isSpecial : Val → Bool
  | .fin .. => false
  | _ => true

/-- The places of the highest bits of the values that are not zero. -/
def blockLogs (vs : List Val) : List Int := vs.filterMap fun x => match x with
  | .fin _ m e => if m = 0 then none else some ((Nat.log2 m : Int) + e)
  | _ => none

/-- The exponent of a block, by the place of its highest bit. -/
def blockExponent (t : B4Type) (top : Int) : Nat :=
  (max 0 (min 62 (top - (match t with | .int4 | .e2m1 => 2 | _ => 3) + 31))).toNat

/-- The code of an element and its flags. -/
def blockElement (t : B4Type) (e : Nat) (x : Val) : Nat × Flags := match x with
  | .fin neg m ex =>
    let c := b4Nearest t neg m (ex - (e : Int) + 31)
    (c, if eqVal (b4Value (t.code.toNat * 64 + e) c) x then 0
      else flagNX ||| (if isZero (b4Value (t.code.toNat * 64 + e) c) then flagUF else 0))
  | _ => (0, 0)

theorem b4Convert_eq (vs : List Val) (t : B4Type) : b4Convert vs t =
    if vs.any isSpecial then (List.replicate 8 0, t.code.toNat * 64 + 63, flagNV)
    else match blockLogs vs with
      | [] => (List.replicate 8 0, t.code.toNat * 64, 0)
      | l :: ls =>
        let e := blockExponent t (ls.foldl max l)
        (vs.map fun x => (blockElement t e x).1, t.code.toNat * 64 + e, vs.foldl (fun fl x => fl ||| (blockElement t e x).2) 0) := by
  unfold b4Convert
  by_cases h : vs.any isSpecial = true
  · rw [if_pos h]
    exact if_pos h
  rw [if_neg h]
  refine (if_neg h).trans ?_
  show (match blockLogs vs with | [] => _ | l :: ls => _) = _
  cases blockLogs vs with
  | nil => rfl
  | cons l ls => cases t <;> rfl

/-- The places of the highest bits, by what the values stand for. -/
def logOf (u n : Nat) : Option Int := if n = 0 then none else some ((Nat.log2 n : Int) - u)

theorem logs_nil (u : Nat) (ns : List Nat) : ns.filterMap (logOf u) = [] ↔ ns.foldl max 0 = 0 := by
  obtain ⟨le, mem⟩ := foldl_max_spec 0 ns
  rw [List.filterMap_eq_nil_iff]
  have none_iff (n : Nat) : logOf u n = none ↔ n = 0 := by unfold logOf; split <;> simp [*]
  simp only [none_iff]
  constructor
  · intro h
    rcases List.mem_cons.mp mem with h' | h'
    · exact h'
    · exact h _ h'
  · intro h n hn
    have := le n (List.mem_cons_of_mem _ hn)
    omega

theorem logs_max (u : Nat) {ns : List Nat} {l : Int} {ls : List Int} (h : ns.filterMap (logOf u) = l :: ls) :
    ls.foldl max l = (Nat.log2 (ns.foldl max 0) : Int) - u := by
  obtain ⟨le, mem⟩ := foldl_max_spec 0 ns
  obtain ⟨top, topmem⟩ := foldl_max_spec l ls
  have pos : ns.foldl max 0 ≠ 0 := by
    rw [ne_eq, ← logs_nil u, h]; simp
  rw [← h] at top topmem
  apply le_antisymm
  · obtain ⟨n, hn, hl⟩ := List.mem_filterMap.mp topmem
    unfold logOf at hl
    split_ifs at hl with h0
    rw [← Option.some.inj hl]
    have := le n (List.mem_cons_of_mem _ hn)
    have : Nat.log2 n ≤ Nat.log2 (ns.foldl max 0) := (Nat.le_log2 pos).mpr ((Nat.log2_self_le h0).trans this)
    omega
  · refine top _ (List.mem_filterMap.mpr ⟨ns.foldl max 0, ?_, if_neg pos⟩)
    exact (List.mem_cons.mp mem).resolve_left pos

theorem int_natAbs (a : Bool) (n : Nat) : (Held.num a n).int.natAbs = n := by cases a <;> simp [Held.int]

section
variable {u : Nat} {V : Nat → Val} {H : Nat → Held} {xs : List Nat} (hs : ∀ x ∈ xs, Stands u (V x) (H x))
include hs

theorem any_special_iff : (xs.map V).any isSpecial = true ↔ ¬∀ h ∈ xs.map H, ∃ a n, h = .num a n := by
  have special {x : Nat} (hx : x ∈ xs) : isSpecial (V x) = true ↔ ¬∃ a n, H x = .num a n := by
    have s := hs x hx
    generalize V x = v, H x = h at *
    cases s <;> simp [isSpecial]
  constructor
  · intro h all
    obtain ⟨v, hv, h⟩ := List.any_eq_true.mp h
    obtain ⟨x, hx, rfl⟩ := List.mem_map.mp hv
    exact (special hx).mp h (all _ (List.mem_map_of_mem hx))
  · intro h
    push Not at h
    obtain ⟨_, hm, h⟩ := h
    obtain ⟨x, hx, rfl⟩ := List.mem_map.mp hm
    exact List.any_eq_true.mpr ⟨_, List.mem_map_of_mem hx, (special hx).mpr fun ⟨a, n, e⟩ => h a n e⟩

theorem blockLogs_eq (hf : ∀ h ∈ xs.map H, ∃ a n, h = .num a n) :
    blockLogs (xs.map V) = ((xs.map H).map fun h => h.int.natAbs).filterMap (logOf u) := by
  unfold blockLogs
  rw [List.filterMap_map, List.filterMap_map, List.filterMap_map]
  refine List.filterMap_congr fun x hx => ?_
  obtain ⟨a, n, hH⟩ := hf (H x) (List.mem_map_of_mem hx)
  have s := hs x hx
  rw [hH] at s
  obtain ⟨m, e, k, hV, rfl, rfl⟩ := s.num_inv
  simp only [Function.comp, hV, hH, int_natAbs, logOf]
  by_cases h0 : m = 0
  · simp [h0]
  · have := log2_append (r := 0) h0 (show 0 < 2 ^ k by positivity)
    rw [add_zero] at this
    rw [if_neg h0, if_neg (by simpa using h0), this]
    congr 1; push_cast; ring

end

/-! Elements. -/

/-- The number of an element of a B4 block. -/
theorem b4Held_num {scale : Nat} (h : scale % 64 ≠ 63) (code : Nat) : ∃ a n, b4Held scale code = .num a n ∧
    (Held.num a n).int = codeEighths (scale / 64) code * 2 ^ (scale % 64) := by
  unfold b4Held
  rw [if_neg h]
  refine ⟨_, _, rfl, ?_⟩
  rw [int_num]
  congr 1
  unfold Val.toInt
  split <;> rename_i h <;> simp only [decide_eq_true_eq] at h <;> omega

/-- Values compare as equal where their numbers are. -/
theorem eqVal_num {u : Nat} {v w : Val} {a b : Bool} {m n : Nat} (sv : Stands u v (.num a m)) (sw : Stands u w (.num b n)) :
    eqVal v w = true ↔ (Held.num a m).int = (Held.num b n).int := by
  have nv : v ≠ .nan := by rw [ne_eq, sv.nan_iff]; simp
  have nw : w ≠ .nan := by rw [ne_eq, sw.nan_iff]; simp
  unfold eqVal
  rw [ltVal_num sv sw, ltVal_num sw sv]
  simp [nv, nw]
  omega

theorem int_num_mul (a : Bool) (n k : Nat) : (Held.num a (n * k)).int = (Held.num a n).int * k := by
  cases a <;> simp [Held.int]

/-- The distance of a value from a code, in the unit of the model and in the unit of the statements. -/
theorem dist_scaled {u m k e : Nat} {a : Bool} {ex : Int} (hex : ex = (k : Int) - u) (q : Int) :
    ((Held.num a (m * 2 ^ k)).int * 2 ^ 34 - q * 2 ^ (e + u)).natAbs =
      (Val.toInt a (m * 2 ^ (ex - e + 31 + 3).toNat) - q * (2 ^ (-(ex - e + 31 + 3)).toNat : Nat)).natAbs * 2 ^ min (k + 34) (e + u) := by
  have value : (Held.num a (m * 2 ^ k)).int * 2 ^ 34 =
      Val.toInt a (m * 2 ^ (ex - e + 31 + 3).toNat) * 2 ^ min (k + 34) (e + u) := by
    have := int_num_split a m (min_le_left (k + 34) (e + u))
    rw [pow_add, ← mul_assoc, int_num_mul] at this
    rw [show (ex - e + 31 + 3).toNat = k + 34 - min (k + 34) (e + u) by omega, ← this]
    rfl
  have unit : (2 : Int) ^ (e + u) = (2 ^ (-(ex - e + 31 + 3)).toNat : Nat) * 2 ^ min (k + 34) (e + u) := by
    rw [Nat.cast_pow, Nat.cast_ofNat, ← pow_add]
    congr 1; omega
  rw [value, unit, ← mul_assoc, ← sub_mul, Int.natAbs_mul, Int.natAbs_pow]
  rfl

theorem code_ofCode : ∀ type < 4, (B4Type.ofCode (BitVec.ofNat 2 type)).code.toNat = type := by decide

theorem flagNX_bit (bit : Nat) : flagNX.getLsbD bit = decide (bit = 7) := by
  rw [show flagNX = BitVec.twoPow 32 7 by decide, BitVec.getLsbD_twoPow]
  simp [eq_comm]

theorem flagUF_bit (bit : Nat) : flagUF.getLsbD bit = decide (bit = 6) := by
  rw [show flagUF = BitVec.twoPow 32 6 by decide, BitVec.getLsbD_twoPow]
  simp [eq_comm]

theorem flag_bits (x zero : Prop) [Decidable x] [Decidable zero] (bit : Nat) :
    (if x then (0 : Flags) else flagNX ||| (if zero then flagUF else 0)).getLsbD bit = true ↔
      (bit = 7 ∧ ¬x) ∨ (bit = 6 ∧ ¬x ∧ zero) := by
  split_ifs with hx hz <;> simp [flagNX_bit, flagUF_bit, *]

/-- R49: an element takes the nearest code, and its flags say whether that is its value and whether it is zero. -/
theorem blockElement_spec {type : Nat} (ht : type < 4) {e : Nat} (he : e < 63) {u : Nat} {v : Val} {h : Held}
    (hs : Stands u v h) (hn : ∃ a n, h = .num a n) :
    let r := blockElement (B4Type.ofCode (BitVec.ofNat 2 type)) e v
    let dist (c : Nat) : Nat := (h.int * 2 ^ 34 - codeEighths type c * 2 ^ (e + u)).natAbs
    (r.1 < 16 ∧ (codeEighths type r.1 = 0 → r.1 = 0) ∧
      ∀ k, k < 16 → dist r.1 < dist k ∨ (dist r.1 = dist k ∧ (r.1 % 2 = 0 ∨ codeEighths type k = codeEighths type r.1))) ∧
    ∀ bit, r.2.getLsbD bit = true ↔ (bit = 7 ∧ dist r.1 ≠ 0) ∨ (bit = 6 ∧ dist r.1 ≠ 0 ∧ codeEighths type r.1 = 0) := by
  intro r dist
  obtain ⟨a, n, rfl⟩ := hn
  obtain ⟨m, ex, k, rfl, hex, rfl⟩ := hs.num_inv
  have near := b4Nearest_nearest ht a m (ex - e + 31)
  have first : r.1 = b4Nearest (B4Type.ofCode (BitVec.ofNat 2 type)) a m (ex - e + 31) := rfl
  have flags : r.2 = if eqVal (b4Value (type * 64 + e) r.1) (.fin a m ex) = true then 0
      else flagNX ||| (if isZero (b4Value (type * 64 + e) r.1) = true then flagUF else 0) := by
    conv_rhs => rw [← code_ofCode type ht]
    rfl
  clear_value r
  rw [← first] at near
  refine ⟨⟨near.1, near.2.1, fun k hk => ?_⟩, fun bit => ?_⟩
  · simp only [dist, dist_scaled hex]
    rw [Nat.mul_lt_mul_right (by positivity), Nat.mul_left_inj (by positivity)]
    exact near.2.2 k hk
  · have sv := b4Value_stands (scale := type * 64 + e) (by omega) near.1
    obtain ⟨b, j, held, int⟩ := b4Held_num (scale := type * 64 + e) (by omega) r.1
    rw [show (type * 64 + e) / 64 = type by omega, show (type * 64 + e) % 64 = e by omega] at int
    rw [held] at sv
    have equal : eqVal (b4Value (type * 64 + e) r.1) (.fin a m ex) = true ↔ dist r.1 = 0 := by
      have sw := hs.finer 34
      rw [add_comm] at sw
      rw [eqVal_num (sv.finer u) sw, int_num_mul, int_num_mul, int, Int.natAbs_eq_zero, sub_eq_zero, eq_comm, pow_add, mul_assoc]
      rfl
    have zero : isZero (b4Value (type * 64 + e) r.1) = true ↔ codeEighths type r.1 = 0 := by
      have number : j = 0 ↔ codeEighths type r.1 = 0 := by
        rw [← int_natAbs b j, Int.natAbs_eq_zero, int]
        simp
      rw [isZero_iff sv, ← number]
      simp
    simp only [flags, flag_bits, equal, zero, ne_eq]

end Sys2Proof.Proofs

namespace Sys2Proof.Proofs
open Machine

/-- The block's exponent, as the statement has it. -/
theorem blockExponent_eq {type : Nat} (ht : type < 4) (top : Int) :
    blockExponent (B4Type.ofCode (BitVec.ofNat 2 type)) top =
      (Max.max (0 : Int) (Min.min 62 (top - (if type ≤ 1 then 2 else 3) + 31))).toNat := by
  interval_cases type <;> rfl

section
variable {u : Nat} {V : Nat → Val} {H : Nat → Held} {xs : List Nat} (hs : ∀ x ∈ xs, Stands u (V x) (H x)) (t : B4Type)
include hs

theorem b4Convert_special (h : ¬∀ h ∈ xs.map H, ∃ a n, h = .num a n) :
    b4Convert (xs.map V) t = (List.replicate 8 0, 64 * t.code.toNat + 63, flagNV) := by
  rw [b4Convert_eq, if_pos ((any_special_iff hs).mpr h), Nat.mul_comm]

variable (h : ∀ h ∈ xs.map H, ∃ a n, h = .num a n)
include h

theorem b4Convert_zero (h0 : ((xs.map H).map fun h => h.int.natAbs).foldl max 0 = 0) :
    b4Convert (xs.map V) t = (List.replicate 8 0, 64 * t.code.toNat, 0) := by
  rw [b4Convert_eq, if_neg (fun h' => (any_special_iff hs).mp h' h), blockLogs_eq hs h, (logs_nil u _).mpr h0, Nat.mul_comm]

/-- R49: a block that holds something: its exponent comes from its largest magnitude, and its elements go one by one. -/
theorem b4Convert_block (h0 : ((xs.map H).map fun h => h.int.natAbs).foldl max 0 ≠ 0) :
    let e := blockExponent t ((Nat.log2 (((xs.map H).map fun h => h.int.natAbs).foldl max 0) : Int) - u)
    b4Convert (xs.map V) t = (xs.map fun x => (blockElement t e (V x)).1, 64 * t.code.toNat + e,
      xs.foldl (fun fl x => fl ||| (blockElement t e (V x)).2) 0) := by
  intro e
  rw [b4Convert_eq, if_neg (fun h' => (any_special_iff hs).mp h' h), blockLogs_eq hs h]
  cases hl : (((xs.map H).map fun h => h.int.natAbs).filterMap (logOf u)) with
  | nil => exact absurd ((logs_nil u _).mp hl) h0
  | cons l ls =>
    simp only [logs_max u hl]
    show ((xs.map V).map fun x => (blockElement t e x).1, t.code.toNat * 64 + e,
      (xs.map V).foldl (fun fl x => fl ||| (blockElement t e x).2) 0) = _
    clear_value e
    simp only [List.map_map, List.foldl_map, Nat.mul_comm 64, Function.comp_def]

end

theorem b4_of_code (b4 : B4Type) : b4.code.toNat < 4 ∧ b4 = B4Type.ofCode (BitVec.ofNat 2 b4.code.toNat) := by cases b4 <;> decide

/-- The distance of lane `i` from the value of a code. -/
def laneDist (u type e : Nat) (held : List Held) (i c : Nat) : Nat :=
  ((held.getD i .nan).int * 2 ^ 34 - codeEighths type c * 2 ^ (e + u)).natAbs

section
variable {u type e : Nat} {V : Nat → Val} {H : Nat → Held} {xs : List Nat} (hs : ∀ x ∈ xs, Stands u (V x) (H x))
  (hf : ∀ h ∈ xs.map H, ∃ a n, h = .num a n) (hlen : xs.length = 8) (ht : type < 4) (he : e < 63)
include hs hf hlen ht he

/-- R49: each lane takes the code nearest to it. -/
theorem blockCodes_nearest (i : Nat) (hi : i < 8) :
    let c := (xs.map fun x => (blockElement (B4Type.ofCode (BitVec.ofNat 2 type)) e (V x)).1).getD i 0
    let dist := laneDist u type e (xs.map H) i
    c < 16 ∧ (codeEighths type c = 0 → c = 0) ∧
      ∀ k, k < 16 → dist c < dist k ∨ (dist c = dist k ∧ (c % 2 = 0 ∨ codeEighths type k = codeEighths type c)) := by
  have member : xs[i] ∈ xs := List.getElem_mem _
  have spec := (blockElement_spec ht he (hs _ member) (hf _ (List.mem_map_of_mem member))).1
  simpa [laneDist, hlen, hi] using spec

/-- R49: NX says that a lane is not its code's value, UF that it is not and its code is zero. -/
theorem blockFlags_bits (bit : Nat) :
    let code i := (xs.map fun x => (blockElement (B4Type.ofCode (BitVec.ofNat 2 type)) e (V x)).1).getD i 0
    let dist := laneDist u type e (xs.map H)
    (xs.foldl (fun fl x => fl ||| (blockElement (B4Type.ofCode (BitVec.ofNat 2 type)) e (V x)).2) 0).getLsbD bit = true ↔
      (bit = 7 ∧ ∃ i, i < 8 ∧ dist i (code i) ≠ 0) ∨
      (bit = 6 ∧ ∃ i, i < 8 ∧ dist i (code i) ≠ 0 ∧ codeEighths type (code i) = 0) := by
  intro code dist
  have flags (i : Nat) (hi : i < 8) :
      (blockElement (B4Type.ofCode (BitVec.ofNat 2 type)) e (V xs[i])).2.getLsbD bit = true ↔
        (bit = 7 ∧ dist i (code i) ≠ 0) ∨ (bit = 6 ∧ dist i (code i) ≠ 0 ∧ codeEighths type (code i) = 0) := by
    have member : xs[i] ∈ xs := List.getElem_mem _
    have spec := (blockElement_spec ht he (hs _ member) (hf _ (List.mem_map_of_mem member))).2 bit
    simpa [dist, code, laneDist, hlen, hi] using spec
  have lanes : (∃ x ∈ xs, (blockElement (B4Type.ofCode (BitVec.ofNat 2 type)) e (V x)).2.getLsbD bit = true) ↔
      ∃ i, i < 8 ∧ ((bit = 7 ∧ dist i (code i) ≠ 0) ∨ (bit = 6 ∧ dist i (code i) ≠ 0 ∧ codeEighths type (code i) = 0)) := by
    constructor
    · rintro ⟨x, hx, h⟩
      obtain ⟨i, hi, rfl⟩ := List.mem_iff_getElem.mp hx
      exact ⟨i, hlen ▸ hi, (flags i (hlen ▸ hi)).mp h⟩
    · rintro ⟨i, hi, h⟩
      exact ⟨xs[i], List.getElem_mem _, (flags i hi).mpr h⟩
  rw [getLsbD_foldl_or, lanes, show (0 : Flags).getLsbD bit = false from BitVec.getLsbD_zero]
  simp only [Bool.false_eq_true, false_or, and_or_left, exists_or, and_left_comm, exists_and_left]

end

/-- R49, in the words of O25. -/
theorem b4Convert_nearest {u : Nat} {V : Nat → Val} {H : Nat → Held} {xs : List Nat} (hs : ∀ x ∈ xs, Stands u (V x) (H x))
    (hf : ∀ h ∈ xs.map H, ∃ a n, h = .num a n) (hlen : xs.length = 8) {type largest : Nat} (ht : type < 4)
    (hl : ((xs.map H).map fun h => h.int.natAbs).foldl max 0 = largest) (h0 : largest ≠ 0) {e : Nat}
    (he : (Max.max (0 : Int) (Min.min 62 (Nat.log2 largest - u - (if type ≤ 1 then 2 else 3) + 31))).toNat = e) :
    let r := b4Convert (xs.map V) (B4Type.ofCode (BitVec.ofNat 2 type))
    let dist := laneDist u type e (xs.map H)
    r.1.length = 8 ∧ r.2.1 = 64 * type + e ∧
    (∀ i, i < 8 →
      let c := r.1.getD i 0
      c < 16 ∧ (codeEighths type c = 0 → c = 0) ∧
      ∀ k, k < 16 → dist i c < dist i k ∨ (dist i c = dist i k ∧ (c % 2 = 0 ∨ codeEighths type k = codeEighths type c))) ∧
    ∀ bit, r.2.2.getLsbD bit = true ↔
      (bit = 7 ∧ ∃ i, i < 8 ∧ dist i (r.1.getD i 0) ≠ 0) ∨
      (bit = 6 ∧ ∃ i, i < 8 ∧ dist i (r.1.getD i 0) ≠ 0 ∧ codeEighths type (r.1.getD i 0) = 0) := by
  have small : e < 63 := by omega
  have block := b4Convert_block hs (B4Type.ofCode (BitVec.ofNat 2 type)) hf (by rwa [hl])
  rw [hl, blockExponent_eq ht, he, code_ofCode type ht] at block
  rw [block]
  exact ⟨by rw [List.length_map, hlen], rfl, blockCodes_nearest hs hf hlen ht small, blockFlags_bits hs hf hlen ht small⟩

/-- Settles O25: a conversion by what its lane stands for, the exponential by the steps of R59, a block by the nearest codes. -/
theorem conversionsAndExponential : Obligations.ConversionsAndExponential := by
  unfold Obligations.ConversionsAndExponential
  refine ⟨fun td ts sat ftz x scale code hx hscale hcode => ?_, fun t f ftz x h hi hx => ?_, fun t ftz xs b4 hlen hx => ?_⟩
  · have lane := toVal_stands ftz hx
    have block := b4Value_stands hscale hcode
    refine ⟨fun fd hd => ⟨?_, fromVal_gives hd sat ftz block⟩, fun fs hd hs => ?_, fun hd => ?_,
      fun hd hs => convert_integers hd hs sat ftz hx⟩
    · rw [convert_eq_fromVal (.inl (by simp [hd]))]
      exact fromVal_gives hd sat ftz lane
    · rw [convert_eq_fromVal (.inr (by simp [hs])), fromVal, hd]
      rw [laneScale_float hs] at lane
      exact toIntType_becomes td lane
    · rw [fromVal, hd]
      exact toIntType_becomes td block
  · exact ⟨laneExp_nan h ftz hx, fun a => laneExp_inf h hi ftz hx, fun a => laneExp_zero h hi ftz hx,
      fun a m => laneExp_number h ftz hx⟩
  · have lanes : ∀ x ∈ xs, Stands (laneScale t) (toVal t ftz x) (laneHeld t ftz x) := fun x h => toVal_stands ftz (hx x h)
    obtain ⟨ht, hb⟩ := b4_of_code b4
    refine ⟨b4Convert_special lanes b4, b4Convert_zero lanes b4, fun hf h0 => ?_⟩
    have near := b4Convert_nearest lanes hf hlen ht rfl h0 rfl
    rw [← hb] at near
    exact near

end Sys2Proof.Proofs

namespace Sys2Proof.Proofs
open Machine

/-! # Exact sums of products (R55) -/

theorem sum_singleton (h : Held) : Held.sum [h] = h := by
  rcases h with _ | a | ⟨a, n⟩
  · rfl
  · cases a <;> rfl
  · cases a <;> simp [Held.sum, Held.int, Held.neg]; omega

/-- Numbers that all have the sign have no positive sum. -/
theorem sum_int_nonpos {hs : List Held} (h : hs.all Held.neg = true) : (hs.map Held.int).sum ≤ 0 := by
  induction hs with
  | nil => simp
  | cons x xs ih =>
    simp only [List.all_cons, Bool.and_eq_true] at h
    obtain ⟨hx, hxs⟩ := h
    have low : x.int ≤ 0 := by
      rcases x with _ | a | ⟨a, n⟩
      · exact le_rfl
      · exact le_rfl
      · obtain rfl : a = true := hx
        simp [Held.int]
    rw [List.map_cons, List.sum_cons]
    have := ih hxs
    omega

theorem signed_int (s : Bool) (z : Int) : (Held.num (if z = 0 then s else decide (z < 0)) z.natAbs).int = z := by
  rcases lt_trichotomy z 0 with h | rfl | h
  · simp [Held.int, h, h.ne, abs_of_neg h]
  · cases s <;> rfl
  · simp [Held.int, h.not_gt, h.ne', abs_of_pos h]

/-- Where numbers cancel, the sign of two of them together does as well as their signs one by one. -/
theorem sign_of_cancelling {a b : Bool} {m n : Nat} {hs : List Held}
    (h : (Held.num a m).int + (Held.num b n).int + (hs.map Held.int).sum = 0) :
    ((if (Held.num a m).int + (Held.num b n).int = 0 then a && b else decide ((Held.num a m).int + (Held.num b n).int < 0)) &&
      hs.all Held.neg) = (a && (b && hs.all Held.neg)) := by
  by_cases all : hs.all Held.neg = true
  · have rest := sum_int_nonpos all
    simp only [all, Bool.and_true]
    by_cases both : a = true ∧ b = true
    · obtain ⟨rfl, rfl⟩ := both
      have : (Held.num true m).int + (Held.num true n).int ≤ 0 := by simp [Held.int]
      rw [if_pos (by omega)]
    · split_ifs with zero
      · rfl
      · have : (a && b) = false := by simpa using both
        simp only [this, decide_eq_false_iff_not]
        omega
  · simp [all]

/-- R55: the sign of a sum of zero is that of all its terms, in whatever order they are added. -/
theorem sum_head_two (g h : Held) (hs : List Held) : Held.sum (Held.sum [g, h] :: hs) = Held.sum (g :: h :: hs) := by
  rcases g with _ | a | ⟨a, m⟩
  · simp [Held.sum]
  · rcases h with _ | b | ⟨b, n⟩
    · simp [Held.sum]
    · cases a <;> cases b <;> simp [Held.sum]
    · cases a <;> simp [Held.sum]
  · rcases h with _ | b | ⟨b, n⟩
    · simp [Held.sum]
    · cases b <;> simp [Held.sum]
    · rw [sum_num]
      simp only [Held.sum, List.mem_cons, reduceCtorEq, false_or, List.map_cons, List.sum_cons, signed_int, List.all_cons, Held.neg,
        ← add_assoc]
      congr 4
      by_cases total : (Held.num a m).int + (Held.num b n).int + (hs.map Held.int).sum = 0
      · rw [if_pos total, if_pos total, sign_of_cancelling total]
      · rw [if_neg total, if_neg total]

theorem foldl_add_stands {u : Nat} {ps : List Val} {hs : List Held} (hps : List.Forall₂ (Stands u) ps hs) :
    ∀ {p : Val} {h : Held}, Stands u p h → Stands u (ps.foldl (fun a x => (addVal a x).1) p) (Held.sum (h :: hs)) := by
  induction hps with
  | nil =>
    intro p h hp
    rwa [sum_singleton]
  | cons hx _ ih =>
    intro p h hp
    rw [← sum_head_two]
    exact ih (hp.add hx)

theorem products_stand {u u' : Nat} {xs ys : List Val} {hs ks : List Held} (hx : List.Forall₂ (Stands u) xs hs)
    (hy : List.Forall₂ (Stands u') ys ks) :
    List.Forall₂ (Stands (u + u')) (List.zipWith (fun x y => (mulVal x y).1) xs ys) (List.zipWith Held.times hs ks) := by
  induction hx generalizing ys ks with
  | nil => exact .nil
  | cons h _ ih =>
    cases hy with
    | nil => exact .nil
    | cons h' hy => exact .cons (h.times h') (ih hy)

/-- R55: the exact sum of the products of a row and a column. -/
theorem exactDot_stands {u u' : Nat} {xs ys : List Val} {hs ks : List Held} (hx : List.Forall₂ (Stands u) xs hs)
    (hy : List.Forall₂ (Stands u') ys ks) (nh : hs ≠ []) (nk : ks ≠ []) :
    Stands (u + u') (exactDot xs ys) (Held.sum (List.zipWith Held.times hs ks)) := by
  obtain ⟨h, hs, rfl⟩ := List.exists_cons_of_ne_nil nh
  obtain ⟨k, ks, rfl⟩ := List.exists_cons_of_ne_nil nk
  cases hx with
  | cons hx hxs =>
    cases hy with
    | cons hy hys => exact foldl_add_stands (products_stand hxs hys) (hx.times hy)

theorem accumF_eq (f : Fmt) (old : Nat) (v : Val) : (accumF f old v).1 = (f.encode false (addVal (f.decode old) v).1).1 := by
  simp only [accumF]
  split <;> rfl

/-- R55: a floating-point element of a tile with the sum added, rounded once. -/
theorem accumF_gives {f : Fmt} (ok : FmtOk f) (old : Nat) {g : Nat} {v : Val} {h : Held} (hs : Stands g v h) :
    ∃ fl, f.Gives false false (Held.sum [(f.held old).finer (2 ^ g), h.finer (2 ^ f.scale)]) (2 ^ g) false ((accumF f old v).1, fl) := by
  have sum := ((decode_stands ok old).finer g).add (add_comm g _ ▸ hs.finer f.scale)
  rw [accumF_eq]
  exact ⟨_, gives_encode ok false false sum⟩

theorem accumF_lt {f : Fmt} (ok : FmtOk f) (old : Nat) (v : Val) : (accumF f old v).1 < 2 ^ f.width := by
  rw [accumF_eq]
  exact encode_lt ok _ _

end Sys2Proof.Proofs

namespace Sys2Proof.Proofs
open Machine

/-! # Rows, columns and tiles (R130, R131) -/

theorem readBytes_slice (m : Memory) (a : Nat) {n i j : Nat} (h : i + j ≤ n) :
    ((m.readBytes a n).drop i).take j = m.readBytes (a + i) j := by
  apply List.ext_getElem
  · simp [Memory.readBytes]; omega
  · intro k hk hk'
    simp [Memory.readBytes, add_assoc]

theorem readBytes_getD (m : Memory) (a : Nat) {n k : Nat} (h : k < n) : (m.readBytes a n).getD k 0 = m.read (a + k) := by
  simp [Memory.readBytes, h]

/-- An element of packed bytes of memory. -/
theorem elemBits_readBytes (m : Memory) (a : Nat) {n w i : Nat} (h : w / 8 * i + w / 8 ≤ n) :
    State.elemBits (m.readBytes a n) w i = littleEndian m (a + w / 8 * i) (w / 8) := by
  rw [State.elemBits, readBytes_slice m a h, littleEndian_eq_leNat]

/-- Packed elements of one size, one by one. -/
theorem flatMap_slice {α : Type} (f : α → List Byte) {n : Nat} (hf : ∀ x, (f x).length = n) (xs : List α) (i : Nat)
    (h : i < xs.length) :
    ((xs.flatMap f).drop (n * i)).take n = f xs[i] := by
  induction xs generalizing i with
  | nil => simp at h
  | cons x xs ih =>
    cases i with
    | zero => simp [hf]
    | succ i =>
      rw [List.flatMap_cons, Nat.mul_succ, Nat.add_comm, ← List.drop_drop, List.drop_left' (hf x)]
      exact ih i (by simpa using h)

theorem flatMap_length_const {α : Type} (f : α → List Byte) {n : Nat} (hf : ∀ x, (f x).length = n) (xs : List α) :
    (xs.flatMap f).length = n * xs.length := by
  simp [List.length_flatMap, hf, mul_comm]

theorem forall₂_map_range {α β : Type} {R : α → β → Prop} {f : Nat → α} {g : Nat → β} {n : Nat}
    (h : ∀ k < n, R (f k) (g k)) :
    List.Forall₂ R ((List.range n).map f) ((List.range n).map g) := by
  rw [List.forall₂_map_left_iff, List.forall₂_map_right_iff, List.forall₂_same]
  exact fun k hk => h k (List.mem_range.mp hk)

/-- R131: the views of the floating-point formats. -/
theorem viewType_float {view : Nat} (h1 : 1 ≤ view) (h4 : view ≤ 4) :
    fmtOf (viewType view false) = some (viewFmt view) ∧ (viewType view false).width = (viewFmt view).width ∧
    viewScale view = (viewFmt view).scale ∧ view ≠ 5 ∧
    512 / (viewFmt view).width = 64 / ((viewFmt view).width / 8) := by
  interval_cases view <;> decide

/-- R131: a row of A or a column of B holds what its slot holds. -/
theorem rowVals_stand (m : Memory) (off sbase : Nat) {view r : Nat} (h1 : 1 ≤ view) (h5 : view ≤ 5) (hr : r < 32) :
    List.Forall₂ (Stands (viewScale view)) (rowVals view (m.readBytes off 2048) (m.readBytes (sbase + off / 4) 512) r)
      (slotHeld m off view sbase r) := by
  have row : ((m.readBytes off 2048).drop (64 * r)).take 64 = m.readBytes (off + 64 * r) 64 := readBytes_slice m off (by omega)
  have scales : ((m.readBytes (sbase + off / 4) 512).drop (16 * r)).take 16 = m.readBytes (sbase + off / 4 + 16 * r) 16 :=
    readBytes_slice m _ (by omega)
  by_cases block : view = 5
  · subst block
    rw [rowVals, slotHeld, if_pos rfl, if_pos rfl, row, scales]
    refine forall₂_map_range fun k hk => ?_
    rw [State.b4At, b4Code, readBytes_getD m _ (show k / 2 < 64 by omega), ← List.getD_eq_getElem?_getD,
      readBytes_getD m _ (show k / 8 < 16 by omega)]
    exact b4Value_stands (BitVec.isLt _) (Nat.mod_lt _ (by decide))
  · obtain ⟨fmt, width, scale, -, count⟩ := viewType_float h1 (show view ≤ 4 by omega)
    rw [rowVals, slotHeld, if_neg block, if_neg block, row, scale]
    simp only [width, count]
    refine forall₂_map_range fun k hk => ?_
    have inside : (viewFmt view).width / 8 * k + (viewFmt view).width / 8 ≤ 64 := by
      have := Nat.mul_le_of_le_div _ _ _ (show k + 1 ≤ 64 / ((viewFmt view).width / 8) from hk)
      rwa [mul_comm, Nat.mul_succ] at this
    rw [elemBits_readBytes m _ inside, toVal, fmt]
    exact decode_stands (fmtOk_of_fmtOf fmt) _

theorem slotHeld_ne_nil (m : Memory) (off sbase : Nat) {view : Nat} (h1 : 1 ≤ view) (h5 : view ≤ 5) (r : Nat) :
    slotHeld m off view sbase r ≠ [] := by
  rw [← List.length_pos_iff]
  interval_cases view <;> simp [slotHeld, viewFmt] <;> decide

/-- R130: the model's elements of a tile are those of the statements. -/
theorem tileElems_getElem (s : State) (t : AccType) (b : Reg) {n : Nat} (h : n < (s.tileElems t b).length) :
    (s.tileElems t b)[n] = tileElement s.c.acc t b n := by
  have hn : n < 1024 := by simpa [State.tileElems] using h
  have size : 8 * t.size / 8 = t.size := by omega
  have inside : 8 * t.size / 8 * n + 8 * t.size / 8 ≤ t.tileBytes := by
    rw [size, AccType.tileBytes, ← Nat.mul_succ, mul_comm]
    exact Nat.mul_le_mul_right _ hn
  simp only [State.tileElems, List.getElem_map, List.getElem_range]
  rw [elemBits_readBytes _ _ inside, size]
  rfl

theorem tileElems_length (s : State) (t : AccType) (b : Reg) : (s.tileElems t b).length = 1024 := by simp [State.tileElems]

/-- R130: an element of a tile that was written. -/
theorem tileElement_setTile (s : State) (t : AccType) (b : Reg) {xs : List Nat} (hx : xs.length = 1024) {n x : Nat}
    (hn : xs[n]? = some x) (small : x < 256 ^ t.size) : tileElement (s.setTile t b xs).c.acc t b n = x := by
  obtain ⟨h, rfl⟩ := List.getElem?_eq_some_iff.mp hn
  have length : (xs.flatMap (leBytes t.size)).length = 1024 * t.size := by
    rw [flatMap_length_const _ (leBytes_length _), hx, mul_comm]
  have whole := Memory.readBytes_writeBytes s.c.acc (0x800 * b.val) (xs.flatMap (leBytes t.size))
  rw [length] at whole
  have inside : t.size * n + t.size ≤ 1024 * t.size := by
    rw [← Nat.mul_succ, mul_comm, ← hx]
    exact Nat.mul_le_mul_right _ h
  show littleEndian (s.c.acc.writeBytes (0x800 * b.val) (xs.flatMap (leBytes t.size))) (0x800 * b.val + t.size * n) t.size = xs[n]
  rw [littleEndian_eq_leNat, ← readBytes_slice _ _ inside, whole, flatMap_slice _ (leBytes_length _) xs n h, leNat_leBytes,
    Nat.mod_eq_of_lt small]

/-- R130: a tile that is written leaves the other bytes of the banks. -/
theorem setTile_outside (s : State) (t : AccType) (b : Reg) {xs : List Nat} (hx : xs.length = 1024) {k : Nat}
    (hk : k < 0x800 * b.val ∨ 0x800 * b.val + t.tileBytes ≤ k) : (s.setTile t b xs).c.acc.read k = s.c.acc.read k := by
  refine Memory.read_writeBytes_outside _ _ _ _ ?_
  rwa [flatMap_length_const _ (leBytes_length _), hx, mul_comm t.size]

end Sys2Proof.Proofs

namespace Sys2Proof.Proofs
open Machine

/-! # The retirement of a matrix product (R132, R134) -/

/-- The pop of a slot at a retirement changes a handle only. -/
def popOf (s : State) : Option HReg → State
  | some h => s.advHead h 1
  | none => s

@[simp] theorem popOf_mx (s : State) (h : Option HReg) : (popOf s h).c.mx = s.c.mx := by cases h <;> rfl
@[simp] theorem popOf_mem (s : State) (h : Option HReg) : (popOf s h).c.mem = s.c.mem := by cases h <;> rfl
@[simp] theorem popOf_acc (s : State) (h : Option HReg) : (popOf s h).c.acc = s.c.acc := by cases h <;> rfl

/-- The elements that a product leaves in its tile, with their status bits. -/
def product (s : State) (q : MxOp) (t : AccType) (d : Reg) : List (Nat × Word) :=
  let rows := (List.range 32).map (rowVals q.viewA (s.c.mem.readBytes q.slotA 2048) (s.c.mem.readBytes (q.sbase + q.slotA / 4) 512))
  let cols := (List.range 32).map (rowVals q.viewB (s.c.mem.readBytes q.slotB 2048) (s.c.mem.readBytes (q.sbase + q.slotB / 4) 512))
  (s.tileElems t d).mapIdx fun n old =>
    accumF (t.fmt.getD fp32) old (exactDot (rows.getD (n / 32) []) (cols.getD (n % 32) []))

/-- R136: without uncorrectable errors an operation meets none. -/
theorem mxErrors_clean {s : State} (hm : s.c.memErr = []) (ha : s.c.accErr = []) (q : MxOp) : s.mxErrors q = [] := by
  unfold State.mxErrors
  simp only [hm, ha, State.badWords, List.filter_nil, List.map_nil, List.nil_append, ite_self]
  cases mxTile q.op <;> rfl

theorem mxEffect_mma (s : State) {q : MxOp} {t : AccType} {d : Reg} {a b : HReg} (op : q.op = .mma t d a b) (lead : q.lead = none) :
    (s.mxEffect q).1 = s.mxTileOut t d ((product s q t d).map (·.1)) := by
  simp only [State.mxEffect, op, State.mxSlots, lead, Option.getD_none, State.mxUpdate, product]

/-- R132, R134: a product writes its tile and leaves local memory and the rest of the queue. -/
theorem mxRetire_mma {s : State} {q : MxOp} {t : AccType} {d : Reg} {a b : HReg} (op : q.op = .mma t d a b) (lead : q.lead = none)
    (hm : s.c.memErr = []) (ha : s.c.accErr = []) :
    (s.mxRetire q).c.mx = s.c.mx ∧ (s.mxRetire q).c.mem = s.c.mem ∧
    (s.mxRetire q).c.acc = (s.setTile t d ((product s q t d).map (·.1))).c.acc := by
  have retire : ∃ w, s.mxRetire q =
      let u := popOf (popOf (s.mxTileOut t d ((product s q t d).map (·.1))) q.popA) q.popB
      { u with c := { u.c with mxStatus := w } } := by
    rw [← mxEffect_mma s op lead]
    unfold State.mxRetire
    rw [mxErrors_clean hm ha, op]
    exact ⟨_, rfl⟩
  obtain ⟨w, retire⟩ := retire
  rw [retire]
  simp only [popOf_mx, popOf_mem, popOf_acc]
  exact ⟨rfl, rfl, rfl⟩

theorem product_length (s : State) (q : MxOp) (t : AccType) (d : Reg) : (product s q t d).length = 1024 := by
  simp [product, tileElems_length]

/-- R134: an element of the product. -/
theorem product_getElem? (s : State) (q : MxOp) {t : AccType} {f : Fmt} (hf : t.fmt = some f) (d : Reg) {n : Nat} (hn : n < 1024) :
    ((product s q t d).map (·.1))[n]? = some (accumF f (tileElement s.c.acc t d n)
      (exactDot (rowVals q.viewA (s.c.mem.readBytes q.slotA 2048) (s.c.mem.readBytes (q.sbase + q.slotA / 4) 512) (n / 32))
        (rowVals q.viewB (s.c.mem.readBytes q.slotB 2048) (s.c.mem.readBytes (q.sbase + q.slotB / 4) 512) (n % 32)))).1 := by
  have row : n / 32 < 32 := by omega
  have col : n % 32 < 32 := by omega
  have old : (s.tileElems t d)[n]? = some (tileElement s.c.acc t d n) := by
    have h : n < (s.tileElems t d).length := by rwa [tileElems_length]
    rw [List.getElem?_eq_getElem h, tileElems_getElem]
  simp [product, old, hf, row, col]

/-- R28: the accumulators of a floating-point tile are of a format of R45, an element a pattern of it. -/
theorem fmtOk_of_acc {t : AccType} {f : Fmt} (h : t.fmt = some f) : FmtOk f ∧ 256 ^ t.size = 2 ^ f.width := by
  cases t with
  | f32 => obtain rfl := Option.some.inj h; exact ⟨fmtOk_fp32, by decide⟩
  | bf16 => obtain rfl := Option.some.inj h; exact ⟨fmtOk_of_fmtOf (t := .bf16) rfl, by decide⟩
  | f16 => obtain rfl := Option.some.inj h; exact ⟨fmtOk_of_fmtOf (t := .f16) rfl, by decide⟩
  | i32 => cases h

/-- R55, R134: what the retirement of a product leaves in its tile. -/
theorem mxRetire_element {s : State} {q : MxOp} {t : AccType} {f : Fmt} {d : Reg} {a b : HReg} (op : q.op = .mma t d a b)
    (lead : q.lead = none) (hm : s.c.memErr = []) (ha : s.c.accErr = []) (hf : t.fmt = some f)
    (a1 : 1 ≤ q.viewA) (a5 : q.viewA ≤ 5) (b1 : 1 ≤ q.viewB) (b5 : q.viewB ≤ 5) {n : Nat} (hn : n < 1024) :
    let g := viewScale q.viewA + viewScale q.viewB
    let dot := Held.sum (List.zipWith Held.times (slotHeld s.c.mem q.slotA q.viewA q.sbase (n / 32))
      (slotHeld s.c.mem q.slotB q.viewB q.sbase (n % 32)))
    ∃ fl, f.Gives false false
      (Held.sum [(f.held (tileElement s.c.acc t d n)).finer (2 ^ g), dot.finer (2 ^ f.scale)]) (2 ^ g) false
      (tileElement (s.mxRetire q).c.acc t d n, fl) := by
  intro g dot
  obtain ⟨ok, size⟩ := fmtOk_of_acc hf
  have sum := exactDot_stands (rowVals_stand s.c.mem q.slotA q.sbase a1 a5 (show n / 32 < 32 by omega))
    (rowVals_stand s.c.mem q.slotB q.sbase b1 b5 (show n % 32 < 32 by omega))
    (slotHeld_ne_nil _ _ _ a1 a5 _) (slotHeld_ne_nil _ _ _ b1 b5 _)
  obtain ⟨-, -, acc⟩ := mxRetire_mma op lead hm ha
  rw [acc, tileElement_setTile s t d (by rw [List.length_map, product_length]) (product_getElem? s q hf d hn)
    (size ▸ accumF_lt ok _ _)]
  exact accumF_gives ok _ sum

/-- R132, R134: a product that started retires, in the words of O26. -/
theorem matrixRetire_mma (s : State) (q : MxOp) (qs : List MxOp) (acc : AccType) (f : Fmt) (d : Reg) (a b : HReg)
    (queue : s.c.mx = q :: qs) (started : q.started = true) (op : q.op = .mma acc d a b) (hf : acc.fmt = some f)
    (hm : s.c.memErr = []) (ha : s.c.accErr = []) (lead : q.lead = none) (a1 : 1 ≤ q.viewA) (a5 : q.viewA ≤ 5)
    (b1 : 1 ≤ q.viewB) (b5 : q.viewB ≤ 5) :
    ∃ t, Completes .matrixRetire s t ∧ t.c.mx = qs ∧ t.c.mem = s.c.mem ∧
      (∀ k, k < 0x800 * d.val ∨ 0x800 * d.val + acc.tileBytes ≤ k → t.c.acc.read k = s.c.acc.read k) ∧
      ∀ n, n < 1024 →
        let row := slotHeld s.c.mem q.slotA q.viewA q.sbase (n / 32)
        let column := slotHeld s.c.mem q.slotB q.viewB q.sbase (n % 32)
        let g := viewScale q.viewA + viewScale q.viewB
        let old := f.held (tileElement s.c.acc acc d n)
        let new := tileElement t.c.acc acc d n
        ∃ fl, f.Gives false false
          (Held.sum [old.finer (2 ^ g), (Held.sum (List.zipWith Held.times row column)).finer (2 ^ f.scale)]) (2 ^ g) false (new, fl) := by
  obtain ⟨mx, mem, bytes⟩ := mxRetire_mma (s := { s with c := { s.c with mx := qs } }) op lead hm ha
  refine ⟨({ s with c := { s.c with mx := qs } } : State).mxRetire q, ?_, mx, mem, fun k hk => ?_,
    fun n hn => mxRetire_element (s := { s with c := { s.c with mx := qs } }) op lead hm ha hf a1 a5 b1 b5 hn⟩
  · show execMatrixRetire s = _
    simp only [execMatrixRetire, queue, started, if_true]
  · rw [bytes, setTile_outside _ acc d (by rw [List.length_map, product_length]) hk]

end Sys2Proof.Proofs

namespace Sys2Proof.Proofs
open Machine

/-! # Reductions of FP32 lanes (R57, R163, R164) -/

/-! The tree. -/

/-- R57: the left part of n contributions is the largest power of two below n. -/
theorem halfOf_spec {n fuel : Nat} (h2 : 2 ≤ n) (hn : n ≤ 2 ^ (fuel + 1)) :
    halfOf n < n ∧ n ≤ 2 * halfOf n ∧ halfOf n ≤ 2 ^ fuel := by
  have pos : n - 1 ≠ 0 := by omega
  have low := Nat.log2_self_le pos
  have high : n - 1 < 2 ^ (Nat.log2 (n - 1) + 1) := Nat.lt_log2_self
  have exponent : Nat.log2 (n - 1) ≤ fuel := Nat.lt_succ_iff.mp ((Nat.log2_lt pos).mpr (by omega))
  rw [pow_succ] at high
  exact ⟨by unfold halfOf; omega, by unfold halfOf; omega, Nat.pow_le_pow_right (by decide) exponent⟩

section
variable (op : RedOp)

theorem treeFold_singleton (f : Nat → Nat → Nat) (fuel x : Nat) : treeFold f fuel [x] = x := by cases fuel <;> rfl

theorem redInf_singleton (fuel x : Nat) : redInf op fuel [x] = decide (x % 2 ^ 31 = 0x7F800000) := by
  cases fuel
  · simp [redInf, Bool.beq_eq_decide_eq]
  · rfl

theorem treeFold_split (f : Nat → Nat → Nat) (fuel : Nat) {xs : List Nat} (h : 2 ≤ xs.length) : treeFold f (fuel + 1) xs =
    f (treeFold f fuel (xs.take (halfOf xs.length))) (treeFold f fuel (xs.drop (halfOf xs.length))) := by
  rw [treeFold, if_neg (by omega)]

theorem redInf_split (fuel : Nat) {xs : List Nat} (h : 2 ≤ xs.length) : redInf op (fuel + 1) xs =
    (redInf op fuel (xs.take (halfOf xs.length)) || redInf op fuel (xs.drop (halfOf xs.length)) ||
      decide (treeFold (redNode op) (fuel + 1) xs % 2 ^ 31 = 0x7F800000)) := by
  match xs, h with
  | _ :: _ :: _, _ => rfl

/-- R57: the model's fold is the tree of the rule, and its test for infinities sees every node. -/
theorem treeFold_gives {node : Nat → Nat → Nat → Prop} (hnode : ∀ a b, node a b (redNode op a b)) (fuel : Nat) :
    ∀ xs : List Nat, 0 < xs.length → xs.length ≤ 2 ^ fuel →
      TreeGives node xs (treeFold (redNode op) fuel xs) (redInf op fuel xs) := by
  have single (fuel x : Nat) : TreeGives node [x] (treeFold (redNode op) fuel [x]) (redInf op fuel [x]) := by
    rw [treeFold_singleton, redInf_singleton]
    exact .leaf x
  induction fuel with
  | zero =>
    intro xs pos small
    obtain ⟨x, rfl⟩ := List.length_eq_one_iff.mp (show xs.length = 1 by omega)
    exact single 0 x
  | succ fuel ih =>
    intro xs pos small
    by_cases one : xs.length = 1
    · obtain ⟨x, rfl⟩ := List.length_eq_one_iff.mp one
      exact single _ x
    have two : 2 ≤ xs.length := by omega
    obtain ⟨below, above, fits⟩ := halfOf_spec two small
    have left : (xs.take (halfOf xs.length)).length = halfOf xs.length := by rw [List.length_take]; omega
    have right : (xs.drop (halfOf xs.length)).length = xs.length - halfOf xs.length := List.length_drop
    have halfPos : 0 < halfOf xs.length := by unfold halfOf; positivity
    have tree := TreeGives.node _ _ (Nat.log2 (xs.length - 1)) _ _ _ _ _ (ih (xs.take (halfOf xs.length)) (by omega) (by omega))
      (ih (xs.drop (halfOf xs.length)) (by omega) (by omega)) left (by omega) (show _ ≤ halfOf xs.length by omega) (hnode _ _)
    rw [List.take_append_drop, ← treeFold_split (redNode op) _ two, ← redInf_split op _ two] at tree
    exact tree

end

/-- R57: a node that adds rounds the exact sum once. -/
theorem add32_gives (a b : Nat) : ∃ fl, fp32.Gives false false (Held.sum [fp32.held a, fp32.held b]) 1 false (add32 a b, fl) :=
  ⟨_, gives_encode fmtOk_fp32 false false (g := 0) ((decode_stands fmtOk_fp32 a).add (decode_stands fmtOk_fp32 b))⟩

theorem isNan32_iff (a : Nat) : isNan32 a = true ↔ fp32.held a = .nan := by
  rw [isNan32, beq_iff_eq]
  exact (decode_stands fmtOk_fp32 a).nan_iff

/-! The result. -/

/-- The tree's value of a lane. -/
def laneTree (op : RedOp) (cs : List RedContrib) (i : Nat) : Nat := treeFold (redNode op) 16 (cs.map fun c => (c.lanes.getD i 0).toNat)

/-- Whether a lane meets an infinity. -/
def laneInf (op : RedOp) (cs : List RedContrib) (i : Nat) : Bool := redInf op 16 (cs.map fun c => (c.lanes.getD i 0).toNat)

theorem redLane_f32 (op : RedOp) (sat : Bool) (cs : List RedContrib) (i : Nat) :
    redLane op .f32 sat (cs.map fun c => (c.lanes.getD i 0).toNat) =
      (if fp32.held (laneTree op cs i) = .nan then fp32.canonical else laneTree op cs i,
        (if fp32.held (laneTree op cs i) = .nan then 4 else 0) + if laneInf op cs i then 2 else 0) := by
  simp only [redLane, if_true, isNan32_iff]
  rfl

/-- R163: participants that agree reduce lane by lane. -/
theorem reduceAll_f32 {c : RedContrib} {rest : List RedContrib} (hf : c.type = .f32) (agree : ∀ x ∈ rest, redAgree c x = true) :
    reduceAll (c :: rest) =
      ((List.range c.n).map fun i => BitVec.ofNat 32 (redLane c.op .f32 c.sat ((c :: rest).map fun c => (c.lanes.getD i 0).toNat)).1,
        BitVec.ofNat 32 ((List.range c.n).foldl
          (fun w i => w ||| (redLane c.op .f32 c.sat ((c :: rest).map fun c => (c.lanes.getD i 0).toNat)).2) 0)) := by
  have all : rest.all (redAgree c) = true := List.all_eq_true.mpr agree
  simp only [reduceAll, all, Bool.true_eq_false, if_false, hf, List.map_map, List.foldl_map, Function.comp_def]

theorem testBit_foldl_or {α : Type} (f : α → Nat) (bit : Nat) (xs : List α) (a : Nat) :
    (xs.foldl (fun w x => w ||| f x) a).testBit bit = true ↔ a.testBit bit = true ∨ ∃ x ∈ xs, (f x).testBit bit = true := by
  induction xs generalizing a with
  | nil => simp
  | cons x xs ih => rw [List.foldl_cons, ih, Nat.testBit_or]; simp [or_assoc]

theorem status_bit (nan inf : Prop) [Decidable nan] [Decidable inf] (bit : Nat) :
    ((if nan then 4 else 0) + if inf then 2 else 0).testBit bit = true ↔ (bit = 2 ∧ nan) ∨ (bit = 1 ∧ inf) := by
  have four : (4 : Nat).testBit bit = decide (bit = 2) := by rw [show 4 = 2 ^ 2 by rfl, Nat.testBit_two_pow]; simp [eq_comm]
  have two : (2 : Nat).testBit bit = decide (bit = 1) := by rw [show 2 = 2 ^ 1 by rfl, Nat.testBit_two_pow]; simp [eq_comm]
  split_ifs with hn hi hi
  · rw [show 4 + 2 = 4 ||| 2 by rfl, Nat.testBit_or, four, two]; simp [hn, hi]
  · simp [four, hn, hi]
  · simp [two, hn, hi]
  · simp [hn, hi]

/-- R163: the contributions stand in ascending logical core. -/
theorem mergeSort_contribs {cs ds : List RedContrib} (perm : cs.Perm ds) (sorted : cs.Pairwise fun x y => x.lcore < y.lcore) :
    (ds.mergeSort fun x y => x.lcore ≤ y.lcore) = cs := by
  have distinct : ∀ x ∈ cs, ∀ y ∈ cs, x.lcore = y.lcore → x = y := by
    have nodup : (cs.map (·.lcore)).Nodup := (List.pairwise_map.mpr sorted).imp Nat.ne_of_lt
    exact fun x hx y hy => List.inj_on_of_nodup_map nodup hx hy
  have sortedBy := List.pairwise_mergeSort (le := fun x y : RedContrib => decide (x.lcore ≤ y.lcore))
    (by simp only [decide_eq_true_eq]; omega) (by simp only [Bool.or_eq_true, decide_eq_true_eq]; omega) ds
  have same := (List.mergeSort_perm ds fun x y : RedContrib => decide (x.lcore ≤ y.lcore)).trans perm.symm
  refine same.eq_of_pairwise (fun a b ha hb hab hba => ?_) sortedBy (sorted.imp fun h => by simpa using h.le)
  exact distinct a (same.mem_iff.mp ha) b hb (le_antisymm (by simpa using hab) (by simpa using hba))

/-- R57, R163, R164: a reduction of FP32 lanes. -/
theorem reduceAll_lanes {cs : List RedContrib} {con : RedContrib} (pos : cs ≠ [])
    (agree : ∀ c ∈ cs, c.op = con.op ∧ c.type = .f32 ∧ c.sat = con.sat ∧ c.n = con.n) :
    (reduceAll cs).1.length = con.n ∧
    (∀ i, i < con.n → (reduceAll cs).1.getD i 0 =
      BitVec.ofNat 32 (if fp32.held (laneTree con.op cs i) = .nan then fp32.canonical else laneTree con.op cs i)) ∧
    ∀ bit, (reduceAll cs).2.getLsbD bit = true ↔ (bit = 2 ∧ ∃ i, i < con.n ∧ fp32.held (laneTree con.op cs i) = .nan) ∨
      (bit = 1 ∧ ∃ i, i < con.n ∧ laneInf con.op cs i = true) := by
  obtain ⟨c, rest, rfl⟩ := List.exists_cons_of_ne_nil pos
  obtain ⟨op, type, sat, n⟩ := agree c List.mem_cons_self
  have same : ∀ x ∈ rest, redAgree c x = true := fun x hx => by
    obtain ⟨op', type', sat', n'⟩ := agree x (List.mem_cons_of_mem _ hx)
    simp [redAgree, op, op', type, type', sat, sat', n, n']
  rw [reduceAll_f32 type same, op, sat, n]
  simp only [redLane_f32]
  refine ⟨by simp, fun i hi => by simp [hi], fun bit => ?_⟩
  rw [BitVec.getLsbD_ofNat, Bool.and_eq_true, testBit_foldl_or]
  simp only [status_bit, Nat.zero_testBit, Bool.false_eq_true, false_or, List.mem_range, decide_eq_true_eq]
  constructor
  · rintro ⟨-, i, hi, ⟨hbit, h⟩ | ⟨hbit, h⟩⟩
    · exact .inl ⟨hbit, i, hi, h⟩
    · exact .inr ⟨hbit, i, hi, h⟩
  · rintro (⟨rfl, i, hi, h⟩ | ⟨rfl, i, hi, h⟩)
    · exact ⟨by decide, i, hi, .inl ⟨rfl, h⟩⟩
    · exact ⟨by decide, i, hi, .inr ⟨rfl, h⟩⟩

theorem reductionResult_completes {s : State} {w : RedWait} (pend : s.c.pend = .red w)
    (early : s.c.stragg = 0 ∨ s.xc < w.xc + s.c.stragg.toNat) (members : s.input.contribs.length + 1 = (s.members w.tree).length)
    {cs : List RedContrib} (perm : cs.Perm (w.con :: s.input.contribs)) (sorted : cs.Pairwise fun x y => x.lcore < y.lcore) :
    Completes .reductionResult s { s with c := { s.c with
      pend := .redDone (reduceAll cs).1 (reduceAll cs).2
      redNum := (w.tree.val, w.num + 1) :: s.c.redNum.filter (·.1 ≠ w.tree.val) } } := by
  have inTime : s.redLate w = false := by
    rcases early with h | h
    · simp [State.redLate, h]
    · simp [State.redLate, h]
  show execReductionResult s = _
  simp only [execReductionResult, pend, inTime, members, and_self, if_true, mergeSort_contribs perm sorted]

/-- Settles O26: a retiring product by the exact sums of what its slots hold, a reduction by the tree over sorted contributions. -/
theorem floatSums : Obligations.FloatSums := by
  unfold Obligations.FloatSums
  refine ⟨fun s q qs acc f d a b queue started op fmt mem bank lead a1 a5 b1 b5 _ =>
    matrixRetire_mma s q qs acc f d a b queue started op fmt mem bank lead a1 a5 b1 b5, ?_⟩
  intro s w cs pend early members perm sorted small agree ops node lane
  have pos : cs ≠ [] := by
    rintro rfl
    simpa using perm.length_eq
  obtain ⟨length, value, status⟩ := reduceAll_lanes pos agree
  refine ⟨_, _, laneTree w.con.op cs, laneInf w.con.op cs, reductionResult_completes pend early members perm sorted, length,
    fun i hi => ⟨?_, value i hi⟩, status⟩
  have step (a b : Nat) : node a b (redNode w.con.op a b) := by
    rcases ops with h | h | h
    · simp only [node, h]
      exact add32_gives a b
    · simp only [node, h]
      rfl
    · simp only [node, h]
      rfl
  refine treeFold_gives w.con.op step 16 (lane i) ?_ ?_
  · simpa [lane] using List.length_pos_iff.mpr pos
  · simp [lane]; omega

end Sys2Proof.Proofs

namespace Sys2Proof.Proofs
open Laws

/-! # Decoding and encoding (R62 to R73) -/

/-! The words that stand before a base word (R65): four bits that no base word begins with, the kind, and ten bits for the fields. -/

/-- A widening word: its kind, 0 XI, 1 XR, 2 XP, 3 XM, and the ten bits that it carries. -/
def pfxWord (kind : BitVec 2) (x : BitVec 10) : Half := (0xF : BitVec 4) ++ kind ++ x

@[simp] theorem isPfx_pfxWord (kind : BitVec 2) (x : BitVec 10) : isPfx (pfxWord kind x) = true := by
  rw [isPfx, pfxWord, BitVec.extractLsb'_append_eq_of_le (by decide), BitVec.extractLsb'_append_eq_left]
  rfl

@[simp] theorem pfxWord_kind (kind : BitVec 2) (x : BitVec 10) : (pfxWord kind x).extractLsb' 10 2 = kind := by
  rw [pfxWord, BitVec.extractLsb'_append_eq_of_le (Nat.le_refl 10), BitVec.extractLsb'_append_eq_right]

theorem pfxWord_low (kind : BitVec 2) (x : BitVec 10) {start len : Nat} (h : start + len ≤ 10) :
    (pfxWord kind x).extractLsb' start len = x.extractLsb' start len := by
  rw [pfxWord, BitVec.extractLsb'_append_eq_of_add_le h]

theorem xpWord_eq (page : BitVec 4) (mod6 : BitVec 6) :
    (0xF : BitVec 4) ++ (2 : BitVec 2) ++ page ++ mod6 = pfxWord 2 (page ++ mod6) := BitVec.append_assoc

theorem xmWord_eq (c mod5 : BitVec 5) : (0xF : BitVec 4) ++ (3 : BitVec 2) ++ c ++ mod5 = pfxWord 3 (c ++ mod5) :=
  BitVec.append_assoc

theorem xrWord_eq (d a b : BitVec 2) (fn : BitVec 4) :
    (0xF : BitVec 4) ++ (1 : BitVec 2) ++ d ++ a ++ b ++ fn = pfxWord 1 (d ++ a ++ b ++ fn) :=
  calc (0xF : BitVec 4) ++ (1 : BitVec 2) ++ d ++ a ++ b ++ fn
      = (0xF : BitVec 4) ++ (1 : BitVec 2) ++ (d ++ a) ++ b ++ fn := congrArg (· ++ b ++ fn) BitVec.append_assoc
    _ = (0xF : BitVec 4) ++ (1 : BitVec 2) ++ (d ++ a ++ b) ++ fn := congrArg (· ++ fn) BitVec.append_assoc
    _ = pfxWord 1 (d ++ a ++ b ++ fn) := BitVec.append_assoc

section
variable (g : Fields)

/-! What a word of each kind adds to the fields read so far, where the order of R66 lets it stand. -/

theorem push_xp (page : BitVec 4) (mod6 : BitVec 6) (xp : g.xp = false) (xr : g.xr = false) (xm : g.xm = false) (xi : g.xi = []) :
    g.push (pfxWord 2 (page ++ mod6)) = some { g with xp := true, page := page, mod6 := mod6 } := by
  have hp : (pfxWord 2 (page ++ mod6)).extractLsb' 6 4 = page := by
    rw [pfxWord_low _ _ (by decide), BitVec.extractLsb'_append_eq_left]
  have hm : (pfxWord 2 (page ++ mod6)).extractLsb' 0 6 = mod6 := by
    rw [pfxWord_low _ _ (by decide), BitVec.extractLsb'_append_eq_right]
  simp only [Fields.push, pfxWord_kind, hp, hm]
  exact if_pos ⟨xp, xr, xm, xi⟩

theorem push_xr (d a b : BitVec 2) (fn : BitVec 4) (xr : g.xr = false) (xm : g.xm = false) (xi : g.xi = []) :
    g.push (pfxWord 1 (d ++ a ++ b ++ fn)) = some { g with xr := true, dhi := d, ahi := a, bhi := b, fnhi := fn } := by
  have hd : (pfxWord 1 (d ++ a ++ b ++ fn)).extractLsb' 8 2 = d := by
    rw [pfxWord_low _ _ (by decide), BitVec.extractLsb'_append_eq_of_le (by decide), BitVec.extractLsb'_append_eq_of_le (by decide),
      BitVec.extractLsb'_append_eq_left]
  have ha : (pfxWord 1 (d ++ a ++ b ++ fn)).extractLsb' 6 2 = a := by
    rw [pfxWord_low _ _ (by decide), BitVec.extractLsb'_append_eq_of_le (by decide), BitVec.extractLsb'_append_eq_of_le (by decide),
      BitVec.extractLsb'_append_eq_right]
  have hb : (pfxWord 1 (d ++ a ++ b ++ fn)).extractLsb' 4 2 = b := by
    rw [pfxWord_low _ _ (by decide), BitVec.extractLsb'_append_eq_of_le (by decide), BitVec.extractLsb'_append_eq_right]
  have hf : (pfxWord 1 (d ++ a ++ b ++ fn)).extractLsb' 0 4 = fn := by
    rw [pfxWord_low _ _ (by decide), BitVec.extractLsb'_append_eq_right]
  simp only [Fields.push, pfxWord_kind, hd, ha, hb, hf]
  exact if_pos ⟨xr, xm, xi⟩

theorem push_xm (c mod5 : BitVec 5) (xm : g.xm = false) (xi : g.xi = []) :
    g.push (pfxWord 3 (c ++ mod5)) = some { g with xm := true, c := c, mod5 := mod5 } := by
  have hc : (pfxWord 3 (c ++ mod5)).extractLsb' 5 5 = c := by
    rw [pfxWord_low _ _ (by decide), BitVec.extractLsb'_append_eq_left]
  have hm : (pfxWord 3 (c ++ mod5)).extractLsb' 0 5 = mod5 := by
    rw [pfxWord_low _ _ (by decide), BitVec.extractLsb'_append_eq_right]
  simp only [Fields.push, pfxWord_kind, hc, hm]
  exact if_pos ⟨xm, xi⟩

theorem push_xi (x : BitVec 10) (few : g.xi.length < 2) :
    g.push (pfxWord 0 x) = some { g with xi := g.xi ++ [x] } := by
  have hx : (pfxWord 0 x).extractLsb' 0 10 = x := by
    rw [pfxWord_low _ _ (by decide), BitVec.extractLsb'_eq_self]
  simp only [Fields.push, pfxWord_kind, hx]
  exact if_pos few

theorem pushAll_one {g g' : Fields} {w : Half} (h : g.push w = some g') : pushAll g [w] = some g' := by simp [pushAll, h]

/-! The same for a word that a flag says is there; where it is not, the fields that it would carry stay as they are. -/

theorem pushAll_xp {page : BitVec 4} {mod6 : BitVec 6} {b : Bool} (xp : g.xp = false) (xr : g.xr = false) (xm : g.xm = false)
    (xi : g.xi = []) (off : b = false → page = g.page ∧ mod6 = g.mod6) :
    pushAll g (if b then [pfxWord 2 (page ++ mod6)] else []) = some { g with xp := b, page := page, mod6 := mod6 } := by
  cases b with
  | false => obtain ⟨rfl, rfl⟩ := off rfl; exact congrArg some (by rw [← xp])
  | true => exact pushAll_one (push_xp g page mod6 xp xr xm xi)

theorem pushAll_xr {d a b : BitVec 2} {fn : BitVec 4} {on : Bool} (xr : g.xr = false) (xm : g.xm = false) (xi : g.xi = [])
    (off : on = false → d = g.dhi ∧ a = g.ahi ∧ b = g.bhi ∧ fn = g.fnhi) :
    pushAll g (if on then [pfxWord 1 (d ++ a ++ b ++ fn)] else []) =
      some { g with xr := on, dhi := d, ahi := a, bhi := b, fnhi := fn } := by
  cases on with
  | false => obtain ⟨rfl, rfl, rfl, rfl⟩ := off rfl; exact congrArg some (by rw [← xr])
  | true => exact pushAll_one (push_xr g d a b fn xr xm xi)

theorem pushAll_xm {c mod5 : BitVec 5} {b : Bool} (xm : g.xm = false) (xi : g.xi = [])
    (off : b = false → c = g.c ∧ mod5 = g.mod5) :
    pushAll g (if b then [pfxWord 3 (c ++ mod5)] else []) = some { g with xm := b, c := c, mod5 := mod5 } := by
  cases b with
  | false => obtain ⟨rfl, rfl⟩ := off rfl; exact congrArg some (by rw [← xm])
  | true => exact pushAll_one (push_xm g c mod5 xm xi)

theorem pushAll_append (ws vs : List Half) : pushAll g (ws ++ vs) = (pushAll g ws).bind (pushAll · vs) := by
  induction ws generalizing g with
  | nil => rfl
  | cons w ws ih =>
    simp only [List.cons_append, pushAll]
    cases g.push w with
    | none => rfl
    | some g' => exact ih g'

theorem pushAll_xi (xs : List (BitVec 10)) (few : g.xi.length + xs.length ≤ 2) :
    pushAll g (xs.map (pfxWord 0)) = some { g with xi := g.xi ++ xs } := by
  induction xs generalizing g with
  | nil => simp [pushAll]
  | cons x xs ih =>
    simp only [List.length_cons] at few
    simp only [List.map_cons, pushAll, push_xi g x (by omega)]
    rw [ih _ (by simp only [List.length_append, List.length_singleton]; omega)]
    simp

end

/-! A chain read back (R62, R66, R71). -/

/-- The fields that a chain of words can hold: 0 where the word that would carry them is absent, one or two XI (R65, R67), four words
before the base word at most (R71), and a base word that none of them is. -/
structure Fits (f : Fields) : Prop where
  noXp : f.xp = false → f.page = 0 ∧ f.mod6 = 0
  noXr : f.xr = false → f.dhi = 0 ∧ f.ahi = 0 ∧ f.bhi = 0 ∧ f.fnhi = 0
  noXm : f.xm = false → f.c = 0 ∧ f.mod5 = 0
  few : f.xi.length ≤ 2
  fewXm : f.xm = true → f.xi.length ≤ 1
  base : isPfx f.base = false

/-- The words of a chain before its base word. -/
def widening (f : Fields) : List Half :=
  (if f.xp then [pfxWord 2 (f.page ++ f.mod6)] else []) ++
  (if f.xr then [pfxWord 1 (f.dhi ++ f.ahi ++ f.bhi ++ f.fnhi)] else []) ++
  (if f.xm then [pfxWord 3 (f.c ++ f.mod5)] else []) ++
  f.xi.map (pfxWord 0)

theorem words_eq_widening (f : Fields) : f.words = widening f ++ [f.base] := by
  simp only [Fields.words, widening, xpWord_eq, xrWord_eq, xmWord_eq]
  rfl

theorem isPfx_of_mem_widening {f : Fields} {w : Half} (h : w ∈ widening f) : isPfx w = true := by
  simp only [widening, List.mem_append, List.mem_map, List.mem_ite_nil_right, List.mem_singleton] at h
  obtain ((⟨-, rfl⟩ | ⟨-, rfl⟩) | ⟨-, rfl⟩) | ⟨x, -, rfl⟩ := h <;> exact isPfx_pfxWord ..

theorem length_widening {f : Fields} (h : Fits f) : (widening f).length < 5 := by
  have few := h.few
  have fewXm := h.fewXm
  have one (b : Bool) (w : Half) : (if b then [w] else []).length = b.toNat := by cases b <;> rfl
  simp only [widening, List.length_append, one, List.length_map]
  have := f.xp.toNat_le
  have := f.xr.toNat_le
  cases hm : f.xm with
  | false => simp; omega
  | true => have := fewXm hm; simp; omega

theorem pushAll_widening {f : Fields} (h : Fits f) : pushAll (Fields.ofBase f.base) (widening f) = some f := by
  obtain ⟨noXp, noXr, noXm, few, -, -⟩ := h
  simp only [widening, pushAll_append]
  rw [pushAll_xp _ rfl rfl rfl rfl noXp, Option.bind_some, pushAll_xr _ rfl rfl rfl noXr, Option.bind_some,
    pushAll_xm _ rfl rfl noXm, Option.bind_some, pushAll_xi _ _ (by simpa [Fields.ofBase] using few)]
  rfl

theorem chainOf_words {f : Fields} (h : Fits f) (rest : List Half) : chainOf (f.words ++ rest) = .ok (f, f.words.length) := by
  have hp : (f.words ++ rest).takeWhile isPfx = widening f := by
    rw [words_eq_widening, List.append_assoc, List.takeWhile_append_of_pos fun w => isPfx_of_mem_widening, List.singleton_append,
      List.takeWhile_cons_of_neg (by simp [h.base]), List.append_nil]
  have hd : (f.words ++ rest).drop (widening f).length = f.base :: rest := by
    rw [words_eq_widening, List.append_assoc, List.drop_left, List.singleton_append]
  simp only [chainOf, hp, hd, if_neg (Nat.not_le.mpr (length_widening h)), pushAll_widening h]
  simp [words_eq_widening]

theorem decode_of_fields {ws : List Half} {f : Fields} {n : Nat} {i : Instr} (chain : chainOf ws = .ok (f, n))
    (fields : decodeFields f = .ok i) : decode ws = .ok (i, n) := by
  simp only [decode, chain, fields]

/-! The chains that the encoder builds. -/

theorem isPfx_baseR {M : BitVec 4} (h : M ≠ 0xF) (d a b f : BitVec 3) : isPfx (baseR M d a b f) = false := by
  rw [isPfx, baseR_maj]; exact beq_false_of_ne h

theorem fits_mkR (p : BitVec 4) (m : BitVec 6) {M : BitVec 4} (h : M ≠ 0xF) (d a b : BitVec 5) (fn : BitVec 7) :
    Fits (mkR p m M d a b fn) where
  noXp := by simp [mkR]
  noXr := by simp [mkR, and_assoc]
  noXm _ := ⟨rfl, rfl⟩
  few := by simp
  fewXm _ := by simp
  base := isPfx_baseR h ..

/-- Immediates in one or two XI words widen a chain without XM. -/
theorem Fits.withXi {f : Fields} (h : Fits f) (xm : f.xm = false) {xi : List (BitVec 10)} (few : xi.length ≤ 2) {w : Half}
    (base : isPfx w = false) : Fits { f with xi := xi, base := w } :=
  ⟨h.noXp, h.noXr, h.noXm, few, fun on => by simp [xm] at on, base⟩

/-- XM beside one XI at most. -/
theorem Fits.withXm {f : Fields} (h : Fits f) (few : f.xi.length ≤ 1) (c mod5 : BitVec 5) : Fits (withXm f c mod5) :=
  ⟨h.noXp, h.noXr, nofun, h.few, fun _ => few, h.base⟩

theorem Fits.withXmOpt {f : Fields} (h : Fits f) (few : f.xi.length ≤ 1) (c mod5 : BitVec 5) : Fits (withXmOpt f c mod5) :=
  ⟨h.noXp, h.noXr, by simp [Sys2Proof.withXmOpt], h.few, fun _ => few, h.base⟩

theorem length_xiS26 (v : BitVec 26) : (xiS26 v).length ≤ 2 := by unfold xiS26; split_ifs <;> simp
theorem length_xiU26 (v : BitVec 26) : (xiU26 v).length ≤ 2 := by unfold xiU26; split_ifs <;> simp
theorem length_xiS31 (v : BitVec 31) : (xiS31 v).length ≤ 2 := by unfold xiS31; split_ifs <;> simp

theorem fits_withXm_mkR (p : BitVec 4) (m : BitVec 6) {M : BitVec 4} (h : M ≠ 0xF) (d a b : BitVec 5) (fn : BitVec 7)
    (c mod5 : BitVec 5) : Fits (withXm (mkR p m M d a b fn) c mod5) :=
  (fits_mkR p m h d a b fn).withXm (by simp) c mod5

theorem fits_withXmOpt_mkR (p : BitVec 4) (m : BitVec 6) {M : BitVec 4} (h : M ≠ 0xF) (d a b : BitVec 5) (fn : BitVec 7)
    (c mod5 : BitVec 5) : Fits (withXmOpt (mkR p m M d a b fn) c mod5) :=
  (fits_mkR p m h d a b fn).withXmOpt (by simp) c mod5

theorem fits_mkI (p : BitVec 4) (m : BitVec 6) {M : BitVec 4} (h : M ≠ 0xF) (d a : BitVec 5) {xi : List (BitVec 10)}
    (few : xi.length ≤ 2) (x : BitVec 6) : Fits (mkI p m M d a xi x) :=
  (fits_mkR p m h d a 0 0).withXi rfl few (isPfx_baseR h ..)

theorem fits_mkIS (p : BitVec 4) {M : BitVec 4} (h : M ≠ 0xF) (d a : BitVec 5) (v : BitVec 26) : Fits (mkIS p M d a v) :=
  fits_mkI p 0 h d a (length_xiS26 v) _

theorem fits_mkIU (p : BitVec 4) (m : BitVec 6) {M : BitVec 4} (h : M ≠ 0xF) (d a : BitVec 5) (v : BitVec 26) :
    Fits (mkIU p m M d a v) :=
  fits_mkI p m h d a (length_xiU26 v) _

theorem fits_mkB (k : BitVec 3) (a : BitVec 5) (v : BitVec 26) : Fits (mkB k a v) :=
  (fits_mkR 0 0 (by decide) 0 a 0 0).withXi rfl (length_xiS26 v) (isPfx_baseR (by decide) ..)

theorem fits_mkNdb (a : BitVec 5) (v : BitVec 26) (fn : BitVec 3) : Fits (mkNdb a v fn) :=
  (fits_mkR 0 0 (by decide) 0 a 0 0).withXi rfl (length_xiU26 v) (isPfx_baseR (by decide) ..)

theorem fits_mkNab (d : BitVec 5) (v : BitVec 26) (fn : BitVec 3) : Fits (mkNab d v fn) :=
  (fits_mkR 0 0 (by decide) d 0 0 0).withXi rfl (length_xiU26 v) (isPfx_baseR (by decide) ..)

theorem fits_mkJ (l : Bool) (v : BitVec 31) : Fits (mkJ l v) where
  noXp _ := ⟨rfl, rfl⟩
  noXr _ := ⟨rfl, rfl, rfl, rfl⟩
  noXm _ := ⟨rfl, rfl⟩
  few := length_xiS31 v
  fewXm := nofun
  base := by rw [isPfx, show (mkJ l v).base.extractLsb' 12 4 = 0xD from mkJ_maj l v]; rfl

theorem fits_mkV (t : ElemType) {M : BitVec 4} (h : M ≠ 0xF) (d a b : BitVec 5) (fn : BitVec 7) (mod5 : BitVec 5) :
    Fits (mkV t M d a b fn mod5) :=
  fits_withXmOpt_mkR 2 t.code h d a b fn 0 mod5

/-- The fields of every instruction that has an encoding fit a chain; of those with XM, only xrecva has XI beside it, one at most. -/
theorem fits_fieldsOf {i : Instr} (h : i.wf = true) : ∃ f, fieldsOf i = some f ∧ Fits f := by
  cases i with
  | xrecva t op sat cls a off =>
    have ok : off.toNat ≤ 4095 := by
      simp only [Instr.wf, Bool.and_eq_true, decide_eq_true_eq] at h
      exact h.2
    have short : (xiU26 (off.zeroExtend 26)).length ≤ 1 :=
      Nat.le_of_lt_succ (Nat.lt_of_not_le (xiU26_short _ (by simp; omega)))
    exact ⟨_, rfl, (fits_mkIU 5 t.code (by decide) _ _ _).withXm short ..⟩
  | _ =>
    simp [Instr.wf, fieldsOf, fits_mkR, fits_mkI, fits_mkIS, fits_mkIU, fits_mkB, fits_mkJ, fits_mkNdb, fits_mkNab, fits_mkV,
      fits_withXm_mkR, fits_withXmOpt_mkR] at h ⊢

/-- The family F covers every instruction: one lemma for each with an encoding, and no other row is well-formed. -/
theorem decodeFields_fieldsOf (i : Instr) : F.Statement i := by
  cases i with
  | add => exact F.add _ _ _ | sub => exact F.sub _ _ _ | and => exact F.and _ _ _ | or => exact F.or _ _ _
  | xor => exact F.xor _ _ _ | shl => exact F.shl _ _ _ | shr => exact F.shr _ _ _ | sra => exact F.sra _ _ _
  | slt => exact F.slt _ _ _ | sltu => exact F.sltu _ _ _ | seq => exact F.seq _ _ _ | sne => exact F.sne _ _ _
  | min => exact F.min _ _ _ | max => exact F.max _ _ _ | minu => exact F.minu _ _ _ | maxu => exact F.maxu _ _ _
  | mul => exact F.mul _ _ _ | mulh => exact F.mulh _ _ _ | mulhu => exact F.mulhu _ _ _ | div => exact F.div _ _ _
  | divu => exact F.divu _ _ _ | rem => exact F.rem _ _ _ | remu => exact F.remu _ _ _ | madd => exact F.madd _ _ _ _
  | clz => exact F.clz _ _ | ctz => exact F.ctz _ _ | popc => exact F.popc _ _ | sextB => exact F.sextB _ _
  | sextH => exact F.sextH _ _ | zextB => exact F.zextB _ _ | zextH => exact F.zextH _ _ | sel => exact F.sel _ _ _ _
  | addi => exact F.addi _ _ _ | andi => exact F.andi _ _ _ | ori => exact F.ori _ _ _ | xori => exact F.xori _ _ _
  | slti => exact F.slti _ _ _ | sltiu => exact F.sltiu _ _ _ | shli => exact F.shli _ _ _ | shri => exact F.shri _ _ _
  | srai => exact F.srai _ _ _ | ldW => exact F.ldW _ _ _ | stW => exact F.stW _ _ _ | ldB => exact F.ldB _ _ _
  | ldBu => exact F.ldBu _ _ _ | ldH => exact F.ldH _ _ _ | ldHu => exact F.ldHu _ _ _ | ldWx => exact F.ldWx _ _ _
  | stB => exact F.stB _ _ _ | stH => exact F.stH _ _ _ | stWx => exact F.stWx _ _ _ | bz => exact F.bz _ _
  | bnz => exact F.bnz _ _ | bltz => exact F.bltz _ _ | bgez => exact F.bgez _ _ | bgtz => exact F.bgtz _ _
  | blez => exact F.blez _ _ | j => exact F.j _ | jal => exact F.jal _ | jr => exact F.jr _ | jalr => exact F.jalr _
  | loop => exact F.loop _ _ | csrr => exact F.csrr _ _ | csrw => exact F.csrw _ _ | csrs => exact F.csrs _ _
  | csrc => exact F.csrc _ _ | trap => exact F.trap _ | eret => exact F.eret | halt => exact F.halt | snap => exact F.snap _
  | xload => exact F.xload _ _ | fence => exact F.fence | evwr => exact F.evwr _ _ | hset => exact F.hset _ _
  | hget => exact F.hget _ _ _ | hwaitf => exact F.hwaitf _ _ | hwaite => exact F.hwaite _ _ | hadvc => exact F.hadvc _ _
  | hadvp => exact F.hadvp _ _ | hreset => exact F.hreset _ | barm => exact F.barm _ _ | barr => exact F.barr _
  | bwait => exact F.bwait _ _ | btest => exact F.btest _ _ | bstat => exact F.bstat _ _ | bexp => exact F.bexp _ _
  | binv => exact F.binv _ | wmsg => exact F.wmsg _ | rmsg => exact F.rmsg _ _ | mcnt => exact F.mcnt _
  | msend => exact F.msend _ _ | waita => exact F.waita _ _ | clra => exact F.clra _ | monn => exact F.monn _ _
  | vadd => exact F.vadd _ _ _ _ _ | vsub => exact F.vsub _ _ _ _ _ | vmul => exact F.vmul _ _ _ _ _
  | vmin => exact F.vmin _ _ _ _ _ | vmax => exact F.vmax _ _ _ _ _ | vand => exact F.vand _ _ _ _ _
  | vor => exact F.vor _ _ _ _ _ | vxor => exact F.vxor _ _ _ _ _ | vfma => exact F.vfma _ _ _ _ _ _
  | vabs => exact F.vabs _ _ _ _ | vneg => exact F.vneg _ _ _ _ | vshl => exact F.vshl _ _ _ _ _
  | vshr => exact F.vshr _ _ _ _ _ | vsra => exact F.vsra _ _ _ _ _ | vsel => exact F.vsel _ _ _ _ _
  | vcmpeq => exact F.vcmpeq _ _ _ _ _ | vcmplt => exact F.vcmplt _ _ _ _ _ | vcmple => exact F.vcmple _ _ _ _ _
  | vexp => exact F.vexp _ _ _ _ | vrcp => exact F.vrcp _ _ _ _ | vrsqrt => exact F.vrsqrt _ _ _ _
  | vsat => exact F.vsat _ _ _ _ _ | vcvt => exact F.vcvt _ _ _ _ _ | vpack => exact F.vpack _ _ _ _ _ _
  | vunpack => exact F.vunpack _ _ _ _ _ _ | vshuf => exact F.vshuf _ _ _ _ _ | vbcast => exact F.vbcast _ _ _ _
  | vmov => exact F.vmov _ _ _ _ | vredsum => exact F.vredsum _ _ _ _ | vredmax => exact F.vredmax _ _ _ _
  | vredmin => exact F.vredmin _ _ _ _ | vscan => exact F.vscan _ _ _ _ | vmovs => exact F.vmovs _ _ _ _
  | vext => exact F.vext _ _ _ _ _ | vld => exact F.vld _ _ _ | vst => exact F.vst _ _ _ | vldc => exact F.vldc _ _ _ _ _
  | vstc => exact F.vstc _ _ _ _ _ _ | vldb => exact F.vldb _ _ _ _ | vldx => exact F.vldx _ _ _ _ _
  | vstx => exact F.vstx _ _ _ _ _ | vldh => exact F.vldh _ _ _ | vsth => exact F.vsth _ _ _ | kand => exact F.kand _ _ _
  | kor => exact F.kor _ _ _ | kxor => exact F.kxor _ _ _ | knot => exact F.knot _ _ | kmov => exact F.kmov _ _ _
  | kpop => exact F.kpop _ _ | mma => exact F.mma _ _ _ _ | mmai => exact F.mmai _ _ _ _ _ _ | mzero => exact F.mzero _ _
  | mload => exact F.mload _ _ _ _ | mdrain => exact F.mdrain _ _ _ | mdrq => exact F.mdrq _ _ _ _
  | mrsum => exact F.mrsum _ _ _ _ _ | mcsum => exact F.mcsum _ _ _ _ _ | mgang => exact F.mgang _ | mfollow => exact F.mfollow
  | munfollow => exact F.munfollow _ | mwait => exact F.mwait _ | aalloc => exact F.aalloc _ _ _ | afree => exact F.afree _ _
  | aquery => exact F.aquery _ _ | spill => exact F.spill _ _ | fill => exact F.fill _ _ | cpush => exact F.cpush _
  | cpushnb => exact F.cpushnb _ _ | cfree => exact F.cfree _ | cfence => exact F.cfence | cset => exact F.cset _ _ _
  | cget => exact F.cget _ _ _ | xsend => exact F.xsend _ _ _ | xrecv => exact F.xrecv _ _ _
  | xrecva => exact F.xrecva _ _ _ _ _ _ | xmc => exact F.xmc _ _ _ _ | xsel => exact F.xsel _ _ | xend => exact F.xend _
  | sync => exact F.sync _ | lsync => exact F.lsync _ _ | arrive => exact F.arrive _ | await => exact F.await _
  | dom => exact F.dom _ _ _ | phaseQuery => exact F.phaseQuery _ _ | redAdd => exact F.redAdd _ _ _ _ _ _ _
  | redMax => exact F.redMax _ _ _ _ _ _ _ | redMin => exact F.redMin _ _ _ _ _ _ _ | redAnd => exact F.redAnd _ _ _ _ _ _ _
  | redOr => exact F.redOr _ _ _ _ _ _ _ | redBar => exact F.redBar _ | vpinit => exact F.vpinit _ _ _
  | vpfold => exact F.vpfold _ _ _ | vpmerge => exact F.vpmerge _ _ | vpread => exact F.vpread _ _
  | vpregen => exact F.vpregen _ _ _ | vpspill => exact F.vpspill _ | vplabel => exact F.vplabel _ _
  | vpstat => exact F.vpstat _ | lgrant => exact F.lgrant _ _ | lrelease => exact F.lrelease _ | lstat => exact F.lstat _ _
  | lmargin => exact F.lmargin _ _ | lmode => exact F.lmode _ _ _ | wreg => exact F.wreg _ _ | wdereg => exact F.wdereg _ _
  | wput => exact F.wput _ _ | wget => exact F.wget _ _ | wrtr => exact F.wrtr _ _ | wcnt => exact F.wcnt _ _ _
  | wwait => exact F.wwait _ _ _ | tvget => exact F.tvget _ _ | tvstage => exact F.tvstage _ _
  | tvcommit => exact F.tvcommit _ _ | cstep => exact F.cstep _ _ | cstat => exact F.cstat _ _
  | cresume => exact F.cresume _ _ _ | drain => exact F.drain _ _ _ | lnkstat => exact F.lnkstat _ _
  | _ => exact fun h => by cases h

/-- Settles O4: the words of an instruction's fields read back as those fields, which decode to the instruction. -/
theorem decodeInvertsEncode : Obligations.DecodeInvertsEncode := by
  intro i hi
  obtain ⟨f, hf, fits⟩ := fits_fieldsOf hi
  have hw : encode i = f.words := by rw [encode, hf]
  refine ⟨by simp [hw, words_eq_widening], fun rest => ?_⟩
  rw [hw]
  exact decode_of_fields (chainOf_words fits rest) (decodeFields_fieldsOf i hi f hf)

/-- Settles O3, word by word. -/
theorem workedEncodingsDecode : Obligations.WorkedEncodingsDecode := by
  unfold Obligations.WorkedEncodingsDecode
  and_intros <;> rfl

end Sys2Proof.Proofs

namespace Sys2Proof.Proofs
open Machine

/-! # The step that settles an exchange before it fetches (R62, R158) -/

/-! A core in an exchange phase, at the end of the xc in which beats have arrived for the two bytes at its pc. They are written as time
passes (R158), so the step fetches the instruction that they hold, while memory before the step holds another one. -/

/-- A beat that carries the word of addi 1, 1, 1. -/
def lateBeat : Input := { flag := true, data := [0x41, 0x12] }

/-- The exchange unit with so many beats to write and so many written; its segment outlasts the next step, whatever time that takes. -/
def lateUnit (arrived got : Nat) : Exch :=
  { seg := { len := Config.stepCycles 0 + 3 }, arrived := List.replicate arrived lateBeat
    claims := [{ addr := 0x200, len := 16, got := List.replicate got 0 }] }

/-- More beats are to be written than a fetch in the next step leaves unseen, whatever number the open `Config.fetchStale` gives (R26). -/
def settling : State :=
  { State.reset with
    cc := 1
    c := { State.reset.c with run := .running, pc := 0x200, phase := 1, exch := some (lateUnit (Config.fetchStale 1 0x200 + 1) 0) } }

/-- Time has passed, and memory, the writes that the fetch buffer may not have seen, and the unit have changed. -/
def settled (mem : Memory) (stale : List (Nat × List Byte)) (e : Exch) : State :=
  let t := ({ settling with tick := 1 } : State).advance (1 + Config.stepCycles 0)
  { t with c := { t.c with mem := mem, stale := stale, exch := some e } }

/-- The 16 bytes that a beat brings, and the memory that holds them. -/
def landedBytes : List Byte := [0x41, 0x12] ++ List.replicate 14 0
def landedMem : Memory := [(0x200, 0x41), (0x201, 0x12)]

/-- The machine after a first beat and so many more. -/
def landed (k : Nat) : State :=
  settled landedMem (List.replicate k (0x200, landedBytes) ++ [(0x200, List.replicate 16 0)]) (lateUnit 0 (k + 1))

section
variable (mem : Memory) (stale : List (Nat × List Byte)) (e : Exch) (k : Nat)

theorem fire_settled (off len : Nat) : (settled mem stale e).fire off len = settled mem stale e := by
  have unarmed (fires : Monitor → Bool) : (Vector.replicate 8 ({} : Monitor)).map
      (fun m => if m.armed && fires m then { m with fired := true } else m) = Vector.replicate 8 {} := by simp
  exact congrArg (fun mon => { settled mem stale e with c := { (settled mem stale e).c with mon := mon } }) (unarmed _)

theorem handleBeat_settled : State.handleBeat 0 (settled mem stale (lateUnit 0 k)) lateBeat =
    settled (mem.writeBytes 0x200 landedBytes) ((0x200, mem.readBytes 0x200 16) :: stale) (lateUnit 0 (k + 1)) :=
  fire_settled _ _ _ 0x200 16

end

theorem handleBeat_landed (k : Nat) : State.handleBeat 0 (landed k) lateBeat = landed (k + 1) := by
  have written : landedMem.writeBytes 0x200 landedBytes = landedMem := by decide
  have before : landedMem.readBytes 0x200 16 = landedBytes := by decide
  rw [landed, handleBeat_settled, written, before]
  rfl

theorem handleBeats_landed (k n : Nat) : (List.replicate n lateBeat).foldl (State.handleBeat 0) (landed k) = landed (k + n) := by
  induction n generalizing k with
  | zero => rfl
  | succ n ih => rw [List.replicate_succ, List.foldl_cons, handleBeat_landed, ih, Nat.add_right_comm, Nat.add_assoc]

theorem pass_settling : settling.pass = landed (Config.fetchStale 1 0x200) := by
  have written : Memory.writeBytes [] 0x200 landedBytes = landedMem := by decide
  have before : Memory.readBytes [] 0x200 16 = List.replicate 16 0 := by decide
  have past : 0 < (0 + (1 + (1 + Config.stepCycles 0)) / 2) - 0 := by omega
  calc settling.pass
    _ = (settled [] [] (lateUnit (Config.fetchStale 1 0x200 + 1) 0)).settleBeats := if_pos past
    _ = (List.replicate (Config.fetchStale 1 0x200 + 1) lateBeat).foldl (State.handleBeat 0) (settled [] [] (lateUnit 0 0)) := rfl
    _ = (List.replicate (Config.fetchStale 1 0x200) lateBeat).foldl (State.handleBeat 0) (landed 0) := by
      rw [List.replicate_succ, List.foldl_cons, handleBeat_settled, written, before]
      rfl
    _ = landed (Config.fetchStale 1 0x200) := by rw [handleBeats_landed, Nat.zero_add]

/-! No engine has a step to take. -/

theorem phaseSteps_landed (k : Nat) : (landed k).phaseSteps = [] := by
  have arrived (g : Tree) : (landed k).allArrived g = false := rfl
  have full (g : Tree) : (landed k).allIn g = false := rfl
  have expiry (g : Tree) : (landed k).expiry g = none := rfl
  simp only [State.phaseSteps, arrived, full, expiry, Bool.and_false, Bool.false_and, Bool.false_eq_true, if_false, List.filter_false,
    List.map_nil]
  rfl

theorem chipSteps_landed (k : Nat) : (landed k).chipSteps = [] := by
  have full : (landed k).logRoom = false := by
    show State.reset.logRoom = false
    decide
  simp only [State.chipSteps, full, Bool.false_eq_true, if_false]
  rfl

theorem due_settling : settling.due = none := by
  have still : (landed (Config.fetchStale 1 0x200)).phaseDue = none := by
    have : ¬0 + (Config.stepCycles 0 + 3) ≤ 0 + (1 + (1 + Config.stepCycles 0)) / 2 := by omega
    exact if_neg this
  have idle : (landed (Config.fetchStale 1 0x200)).enabledSteps = [] := by
    rw [State.enabledSteps, phaseSteps_landed, chipSteps_landed]
    rfl
  simp only [State.due, pass_settling, State.engineStep, still, idle]

/-! The word that is fetched. -/

theorem byteBefore_replicate {a : Nat} {b : Byte} {w : Nat × List Byte} (h : w.2.getD (a - w.1) b = b) (n : Nat) :
    State.byteBefore a b (List.replicate n w) = b := by
  induction n with
  | zero => rfl
  | succ n ih =>
    rw [List.replicate_succ, State.byteBefore, List.foldl_cons, h, ite_self]
    exact ih

/-- What a fetch sees while some writes may not have reached it: the word before as many of them as the open value says (R26). -/
theorem fetchWord_stale {s : State} (h : s.c.stale ≠ []) (a : Nat) :
    let unseen := s.c.stale.take (Config.fetchStale s.tick a % (s.c.stale.length + 1))
    s.fetchWord a = State.byteBefore (a + 1) (s.c.mem.read (a + 1)) unseen ++ State.byteBefore a (s.c.mem.read a) unseen := by
  unfold State.fetchWord
  cases hs : s.c.stale with
  | nil => exact absurd hs h
  | cons w ws => rfl

theorem fetchWord_landed : (landed (Config.fetchStale 1 0x200)).fetchWord 0x200 = 0x1241 := by
  have unseen (n : Nat) : (landed n).c.stale.take (n % ((landed n).c.stale.length + 1)) = List.replicate n (0x200, landedBytes) := by
    have length : (landed n).c.stale.length = n + 1 := by simp [landed, settled]
    rw [length, Nat.mod_eq_of_lt (by omega)]
    exact List.take_left' List.length_replicate
  rw [fetchWord_stale (by simp [landed, settled])]
  rw [show (landed (Config.fetchStale 1 0x200)).tick = 1 from rfl, unseen, byteBefore_replicate rfl, byteBefore_replicate rfl]
  rfl

/-- A core that runs, waits for nothing and follows no leader issues what it fetches at pc. -/
theorem nextInstr_own {s : State} {r : List Half × Option (Cause × Word)} (words : s.fetchWords 5 s.c.pc = r)
    (run : s.c.run = .running) (stop : s.c.fetchStop = false) (swap : s.p.swapDue = false) (transit : s.inTransit = false)
    (resuming : s.chip.resuming = false) (stall : s.c.stall = false) (own : s.follower = false) :
    s.nextInstr = some (instrOf r, { s with ir := { len := fetchedLen r, eword := ewordOf r.1 } }) := by
  simp [State.nextInstr, run, stop, swap, transit, resuming, stall, own, words]

theorem nextInstr_landed : (landed (Config.fetchStale 1 0x200)).nextInstr =
    some (.addi 1 1 1, { landed (Config.fetchStale 1 0x200) with ir := { len := 1, eword := 0x1241 } }) := by
  have words : (landed (Config.fetchStale 1 0x200)).fetchWords 5 0x200 = ([0x1241], none) := by
    have half : (landed (Config.fetchStale 1 0x200)).fetchHalf 0x200 = 0x1241 := fetchWord_landed
    have ok : (landed (Config.fetchStale 1 0x200)).fetchBad 0x200 = none := rfl
    simp only [State.fetchWords, ok, half]
    rfl
  exact nextInstr_own words rfl rfl rfl rfl rfl rfl rfl

/-- The step runs the instruction that the beats brought: it counts register 1 up. -/
theorem step_settling : ∃ t, step settling = .next t ∧ t.c.s[1] = 1 := by
  have issued : step settling = State.noteIssue (.addi 1 1 1) { len := 1, eword := 0x1241 } (exec (.addi 1 1 1)
      { landed (Config.fetchStale 1 0x200) with ir := { len := 1, eword := 0x1241 }, turn := false, boundary := false }) := by
    show coreStep settling = _
    simp only [coreStep, due_settling, pass_settling, nextInstr_landed]
  exact ⟨_, issued, rfl⟩

/-- Refutes O2 in its second clause, which reads the words at pc in the memory before time passes: beats of an exchange that have
arrived in an xc that passes are written first (R158), and the step runs the word that they brought. At 0x200 memory holds the word of
add 0, 0, 0 and the beats bring that of addi 1, 1, 1; register 1 is 1 after the step. -/
theorem not_stepRunsTheDecodedInstruction : ¬ Obligations.StepRunsTheDecodedInstruction := by
  intro h
  obtain ⟨-, own, -⟩ := h settling (.add 0 0 0) {} [0x0000]
  have claimed := own ⟨rfl, due_settling, rfl, rfl, rfl, rfl, rfl⟩ rfl rfl rfl rfl rfl (by decide) (by decide) rfl
  obtain ⟨t, stepped, counted⟩ := step_settling
  have pass : ({ settling with input := {} } : State).pass = landed (Config.fetchStale 1 0x200) := pass_settling
  rw [stepped, pass] at claimed
  have kept : t.c.s[1] = 0 := by rw [Host.Outcome.next.inj claimed]; rfl
  exact absurd (counted.symm.trans kept) (by decide)

end Sys2Proof.Proofs

namespace Sys2Proof.Proofs
open Machine

/-! # Scalar arithmetic (R86 to R91) -/

/-- An instruction that ends in a scalar result writes it. -/
theorem writes_of_result {i : Instr} {s : State} {d : Reg} {x y : Word} (h : exec i s = s.result d x) (e : x = y) :
    Writes i s d y := by rw [Writes, h, e]; rfl

/-! The words of R89, on the numbers that the operands stand for. -/

theorem shiftLeft_eq_ofNat (x : Word) (n : Nat) : x <<< n = BitVec.ofNat 32 (x.toNat * 2 ^ n) := by
  apply BitVec.eq_of_toNat_eq
  rw [BitVec.toNat_shiftLeft, Nat.shiftLeft_eq, BitVec.toNat_ofNat]

theorem shiftRight_eq_ofNat (x : Word) (n : Nat) : x >>> n = BitVec.ofNat 32 (x.toNat / 2 ^ n) := by
  apply BitVec.eq_of_toNat_eq
  rw [BitVec.toNat_ushiftRight, Nat.shiftRight_eq_div_pow, BitVec.toNat_ofNat, Nat.mod_eq_of_lt]
  exact Nat.lt_of_le_of_lt (Nat.div_le_self _ _) x.isLt

theorem sshiftRight_eq_ofInt (x : Word) (n : Nat) : x.sshiftRight n = BitVec.ofInt 32 (x.toInt / 2 ^ n) := by
  rw [BitVec.sshiftRight, Int.shiftRight_eq_div_pow]; norm_cast

theorem sub_eq_ofInt (x y : Word) : x - y = BitVec.ofInt 32 (x.toInt - y.toInt) := by
  apply BitVec.eq_of_toInt_eq
  rw [BitVec.toInt_sub, BitVec.toInt_ofInt]

theorem mul_eq_ofNat (x y : Word) : x * y = BitVec.ofNat 32 (x.toNat * y.toNat) := rfl

theorem flagWord_slt (x y : Word) : flagWord (x.slt y) = if x.toInt < y.toInt then 1 else 0 := by
  simp [flagWord, BitVec.slt_iff_toInt_lt]

theorem flagWord_ult (x y : Word) : flagWord (x.ult y) = if x.toNat < y.toNat then 1 else 0 := by
  simp [flagWord, BitVec.ult]

theorem flagWord_eq (x y : Word) : flagWord (x == y) = if x.toNat = y.toNat then 1 else 0 := by
  simp [flagWord, BitVec.toNat_inj]

theorem flagWord_ne (x y : Word) : flagWord (x != y) = if x.toNat = y.toNat then 0 else 1 := by
  by_cases h : x = y <;> simp [flagWord, h, BitVec.toNat_inj]

theorem smin_eq_ofInt (x y : Word) : (if x.slt y then x else y) = BitVec.ofInt 32 (min x.toInt y.toInt) := by
  rcases lt_or_ge x.toInt y.toInt with h | h
  · rw [if_pos (BitVec.slt_iff_toInt_lt.mpr h), min_eq_left h.le, BitVec.ofInt_toInt]
  · rw [if_neg (by rw [BitVec.slt_iff_toInt_lt]; omega), min_eq_right h, BitVec.ofInt_toInt]

theorem smax_eq_ofInt (x y : Word) : (if x.slt y then y else x) = BitVec.ofInt 32 (max x.toInt y.toInt) := by
  rcases lt_or_ge x.toInt y.toInt with h | h
  · rw [if_pos (BitVec.slt_iff_toInt_lt.mpr h), max_eq_right h.le, BitVec.ofInt_toInt]
  · rw [if_neg (by rw [BitVec.slt_iff_toInt_lt]; omega), max_eq_left h, BitVec.ofInt_toInt]

theorem umin_eq_ofNat (x y : Word) : (if x.ult y then x else y) = BitVec.ofNat 32 (min x.toNat y.toNat) := by
  rcases lt_or_ge x.toNat y.toNat with h | h
  · rw [if_pos (BitVec.ult_iff_lt.mpr h), min_eq_left h.le, BitVec.ofNat_toNat, BitVec.setWidth_eq]
  · rw [if_neg (by rw [BitVec.ult_iff_lt, BitVec.lt_def]; omega), min_eq_right h, BitVec.ofNat_toNat, BitVec.setWidth_eq]

theorem umax_eq_ofNat (x y : Word) : (if x.ult y then y else x) = BitVec.ofNat 32 (max x.toNat y.toNat) := by
  rcases lt_or_ge x.toNat y.toNat with h | h
  · rw [if_pos (BitVec.ult_iff_lt.mpr h), max_eq_right h.le, BitVec.ofNat_toNat, BitVec.setWidth_eq]
  · rw [if_neg (by rw [BitVec.ult_iff_lt, BitVec.lt_def]; omega), max_eq_left h, BitVec.ofNat_toNat, BitVec.setWidth_eq]

theorem mulHigh_natCast (x y : Nat) : mulHigh ((x : Int) * y) = BitVec.ofNat 32 (x * y / 2 ^ 32) := by
  rw [mulHigh, ← Int.natCast_mul, show (2 : Int) ^ 32 = ((2 ^ 32 : Nat) : Int) by norm_num, ← Int.natCast_ediv, BitVec.ofInt_natCast]

/-! Division (R89): a divisor of 0 is the word 0. -/

theorem eq_zero_iff_toNat {w : Nat} (x : BitVec w) : x = 0 ↔ x.toNat = 0 := by
  rw [← BitVec.toNat_inj]; simp

theorem sdiv_eq_ofInt (x y : Word) : x.sdiv y = BitVec.ofInt 32 (x.toInt.tdiv y.toInt) := by
  apply BitVec.eq_of_toInt_eq
  rw [BitVec.toInt_sdiv, BitVec.toInt_ofInt]

theorem srem_eq_ofInt (x y : Word) : x.srem y = BitVec.ofInt 32 (x.toInt.tmod y.toInt) := by
  rw [← BitVec.toInt_srem, BitVec.ofInt_toInt]

theorem divSigned_eq (x y : Word) :
    divSigned x y = if y.toNat = 0 then 0xFFFFFFFF else BitVec.ofInt 32 (x.toInt.tdiv y.toInt) := by
  simp only [divSigned, eq_zero_iff_toNat, sdiv_eq_ofInt]

theorem divUnsigned_eq (x y : Word) :
    divUnsigned x y = if y.toNat = 0 then 0xFFFFFFFF else BitVec.ofNat 32 (x.toNat / y.toNat) := by
  have h : x.udiv y = BitVec.ofNat 32 (x.toNat / y.toNat) := by
    apply BitVec.eq_of_toNat_eq
    rw [BitVec.toNat_ofNat, Nat.mod_eq_of_lt (Nat.lt_of_le_of_lt (Nat.div_le_self _ _) x.isLt)]
    exact BitVec.toNat_udiv
  simp only [divUnsigned, eq_zero_iff_toNat, h]

theorem remSigned_eq (x y : Word) :
    remSigned x y = if y.toNat = 0 then x else BitVec.ofInt 32 (x.toInt.tmod y.toInt) := by
  simp only [remSigned, eq_zero_iff_toNat, srem_eq_ofInt]

theorem remUnsigned_eq (x y : Word) :
    remUnsigned x y = if y.toNat = 0 then x else BitVec.ofNat 32 (x.toNat % y.toNat) := by
  have h : x.umod y = BitVec.ofNat 32 (x.toNat % y.toNat) := by
    apply BitVec.eq_of_toNat_eq
    rw [BitVec.toNat_ofNat, Nat.mod_eq_of_lt (Nat.lt_of_le_of_lt (Nat.mod_le _ _) x.isLt)]
    exact BitVec.toNat_umod
  simp only [remUnsigned, eq_zero_iff_toNat, h]

/-! Counts and extensions (R89). -/

theorem leadingZeros_spec (x : Word) : leadingZeros x ≤ 32 ∧ x.toNat < 2 ^ (32 - leadingZeros x) ∧
    (leadingZeros x < 32 → 2 ^ (31 - leadingZeros x) ≤ x.toNat) := by
  by_cases h : x = 0
  · simp [leadingZeros, h]
  · have h0 : x.toNat ≠ 0 := fun e => h ((eq_zero_iff_toNat x).mpr e)
    have top : Nat.log2 x.toNat < 32 := (Nat.log2_lt h0).mpr x.isLt
    rw [leadingZeros, if_neg h, show 32 - (31 - Nat.log2 x.toNat) = Nat.log2 x.toNat + 1 by omega,
      show 31 - (31 - Nat.log2 x.toNat) = Nat.log2 x.toNat by omega]
    exact ⟨by omega, Nat.lt_log2_self, fun _ => Nat.log2_self_le h0⟩

/-- The low n bits are clear exactly where the number is a multiple of 2 ^ n. -/
theorem mod_two_pow_eq_zero {x n : Nat} (h : ∀ i < n, x.testBit i = false) : x % 2 ^ n = 0 := by
  apply Nat.eq_of_testBit_eq
  intro i
  rw [Nat.testBit_mod_two_pow, Nat.zero_testBit]
  by_cases hi : i < n <;> simp [hi, h]

theorem trailingZeros_spec (x : Word) : trailingZeros x ≤ 32 ∧ x.toNat % 2 ^ trailingZeros x = 0 ∧
    (trailingZeros x < 32 → x.toNat / 2 ^ trailingZeros x % 2 = 1) := by
  unfold trailingZeros
  cases h : (List.range 32).find? fun i => x.getLsbD i with
  | none =>
    have clear : ∀ i < 32, x.toNat.testBit i = false := by simpa [BitVec.getLsbD] using h
    exact ⟨Nat.le_refl _, mod_two_pow_eq_zero clear, fun h => absurd h (by simp)⟩
  | some n =>
    obtain ⟨set, hn, clear⟩ := List.find?_range_eq_some.mp h
    have hn : n < 32 := List.mem_range.mp hn
    refine ⟨hn.le, mod_two_pow_eq_zero fun i hi => by simpa [BitVec.getLsbD] using clear i hi, fun _ => ?_⟩
    exact decide_eq_true_eq.mp ((Nat.testBit_eq_decide_div_mod_eq ..).symm.trans set)

theorem bitCount_eq_sum (w x : Nat) : bitCount w x = ((List.range w).map fun i => x / 2 ^ i % 2).sum := by
  unfold bitCount
  induction List.range w with
  | nil => rfl
  | cons i l ih =>
    rw [List.map_cons, List.sum_cons, ← ih]
    rcases Nat.mod_two_eq_zero_or_one (x / 2 ^ i) with h | h <;>
      simp [Nat.testBit_eq_decide_div_mod_eq, h, Nat.add_comm]

/-- The low w bits of a word, extended by their sign. -/
theorem signExtend_low (w : Nat) (hw : 0 < w) (x : Word) : (x.extractLsb' 0 w).signExtend 32 =
    BitVec.ofInt 32 (if x.toNat % 2 ^ w < 2 ^ (w - 1) then (x.toNat % 2 ^ w : Nat) else (x.toNat % 2 ^ w : Nat) - 2 ^ w) := by
  have e : 2 ^ w = 2 * 2 ^ (w - 1) := by rw [← Nat.pow_succ', Nat.succ_eq_add_one, Nat.sub_add_cancel hw]
  rw [BitVec.signExtend, BitVec.toInt_eq_toNat_cond]
  have ei : (2 : Int) ^ w = ((2 * 2 ^ (w - 1) : Nat) : Int) := by rw [← e]; norm_cast
  simp only [BitVec.extractLsb'_toNat, Nat.shiftRight_zero, e, ei, Nat.mul_lt_mul_left (show 0 < 2 by omega)]

theorem zeroExtend_low (w : Nat) (x : Word) : (x.extractLsb' 0 w).zeroExtend 32 = BitVec.ofNat 32 (x.toNat % 2 ^ w) := by
  apply BitVec.eq_of_toNat_eq
  simp

/-! Immediates (R67, R90). -/

theorem immWord_eq_ofInt (imm : BitVec 26) : immWord imm = BitVec.ofInt 32 imm.toInt := rfl

theorem immWord_toInt (imm : BitVec 26) : (immWord imm).toInt = imm.toInt := BitVec.toInt_signExtend_of_le (by omega)

theorem immWord_toNat (imm : BitVec 26) : ((immWord imm).toNat : Int) = imm.toInt % 2 ^ 32 := by
  rw [immWord_eq_ofInt, BitVec.toNat_ofInt, Int.toNat_of_nonneg (Int.emod_nonneg _ (by norm_num))]; norm_num

theorem add_immWord (x : Word) (imm : BitVec 26) : x + immWord imm = BitVec.ofInt 32 (x.toNat + imm.toInt) := by
  rw [immWord_eq_ofInt, BitVec.ofInt_add, BitVec.ofInt_natCast, BitVec.ofNat_toNat, BitVec.setWidth_eq]

/-- Settles O7: each member's word, by the lemma on its operation. -/
theorem scalarArithmeticResults : Obligations.ScalarArithmeticResults := by
  refine ⟨fun s d a b c => ?_, fun s d a => ?_, fun s d a imm n => ?_⟩
  · refine ⟨writes_of_result rfl (BitVec.add_def ..), writes_of_result rfl (sub_eq_ofInt ..), writes_of_result rfl rfl,
      writes_of_result rfl rfl, writes_of_result rfl rfl, writes_of_result rfl (shiftLeft_eq_ofNat ..),
      writes_of_result rfl (shiftRight_eq_ofNat ..), writes_of_result rfl (sshiftRight_eq_ofInt ..),
      writes_of_result rfl (flagWord_slt ..), writes_of_result rfl (flagWord_ult ..), writes_of_result rfl (flagWord_eq ..),
      writes_of_result rfl (flagWord_ne ..), writes_of_result rfl (smin_eq_ofInt ..), writes_of_result rfl (smax_eq_ofInt ..),
      writes_of_result rfl (umin_eq_ofNat ..), writes_of_result rfl (umax_eq_ofNat ..), writes_of_result rfl (mul_eq_ofNat ..),
      writes_of_result rfl rfl, writes_of_result rfl (mulHigh_natCast ..), writes_of_result rfl (divSigned_eq ..),
      writes_of_result rfl (divUnsigned_eq ..), writes_of_result rfl (remSigned_eq ..), writes_of_result rfl (remUnsigned_eq ..),
      writes_of_result rfl ?madd, writes_of_result rfl ?sel⟩
    case madd => rw [mul_eq_ofNat, BitVec.ofNat_add, BitVec.ofNat_toNat, BitVec.setWidth_eq]
    case sel => simp only [ne_eq, ite_not, eq_zero_iff_toNat]
  · obtain ⟨clz, above, below⟩ := leadingZeros_spec (s.reg a)
    obtain ⟨ctz, clear, set⟩ := trailingZeros_spec (s.reg a)
    exact ⟨⟨_, clz, above, below, writes_of_result rfl rfl⟩, ⟨_, ctz, clear, set, writes_of_result rfl rfl⟩,
      writes_of_result rfl (congrArg _ (bitCount_eq_sum ..)), writes_of_result rfl (signExtend_low 8 (by omega) _),
      writes_of_result rfl (signExtend_low 16 (by omega) _), writes_of_result rfl (zeroExtend_low 8 _),
      writes_of_result rfl (zeroExtend_low 16 _)⟩
  · refine ⟨writes_of_result rfl (add_immWord ..), writes_of_result rfl rfl, writes_of_result rfl rfl, writes_of_result rfl rfl,
      writes_of_result rfl ?slt, writes_of_result rfl ?sltu, writes_of_result rfl (shiftLeft_eq_ofNat ..),
      writes_of_result rfl (shiftRight_eq_ofNat ..), writes_of_result rfl (sshiftRight_eq_ofInt ..)⟩
    case slt => rw [flagWord_slt, immWord_toInt]
    case sltu => simp only [flagWord_ult, ← immWord_toNat, Nat.cast_lt]

end Sys2Proof.Proofs

namespace Sys2Proof.Proofs
open Machine

/-! # Loads and stores of local memory and of the banks (R92, R93) -/

theorem exec_ldW (d a : Reg) (imm : BitVec 26) (s : State) : exec (.ldW d a imm) s = s.load d (s.eaImm a imm) 4 extZ := rfl
theorem exec_stW (d a : Reg) (imm : BitVec 26) (s : State) : exec (.stW d a imm) s = s.store d (s.eaImm a imm) 4 := rfl

/-! Effective addresses. -/

theorem mul_ofNat_eq (x : Word) (n : Nat) : x * BitVec.ofNat 32 n = BitVec.ofNat 32 (x.toNat * n) := by
  rw [BitVec.ofNat_mul, BitVec.ofNat_toNat, BitVec.setWidth_eq]

theorem add_ofNat_eq (x : Word) (n : Nat) : x + BitVec.ofNat 32 n = BitVec.ofNat 32 (x.toNat + n) := by
  rw [BitVec.ofNat_add, BitVec.ofNat_toNat, BitVec.setWidth_eq]

/-- A word offset by a scaled immediate. -/
theorem add_scaled_immediate {w : Nat} (x : Word) (imm : BitVec w) (k : Nat) :
    x + BitVec.ofInt 32 imm.toInt * BitVec.ofNat 32 k = BitVec.ofInt 32 (x.toNat + k * imm.toInt) := by
  rw [BitVec.ofInt_add, BitVec.ofInt_mul, BitVec.ofInt_natCast, BitVec.ofInt_natCast, BitVec.ofNat_toNat, BitVec.setWidth_eq,
    BitVec.mul_comm]

theorem eaImm_eq (s : State) (a : Reg) (imm : BitVec 26) :
    s.eaImm a imm = BitVec.ofInt 32 ((s.reg a).toNat + 4 * imm.toInt) := add_scaled_immediate (s.reg a) imm 4

theorem eaVector_eq (s : State) (a : Reg) (imm : BitVec 26) :
    s.eaVector a imm = BitVec.ofInt 32 ((s.reg a).toNat + 64 * imm.toInt) := add_scaled_immediate (s.reg a) imm 64

theorem eaIndex_eq (s : State) (a b : Reg) (size : Nat) :
    s.eaIndex a b size = BitVec.ofNat 32 ((s.reg a).toNat + (s.reg b).toNat * size) := by
  rw [State.eaIndex, mul_ofNat_eq, add_ofNat_eq]

/-! An access that passes every check. -/

/-- No code word with an uncorrectable error lies among n bytes. -/
theorem no_bad_word {errs : List Nat} {off n : Nat} (h : ∀ w ∈ errs, ¬(8 * w < off + n ∧ off < 8 * w + 8)) :
    (errs.any fun w => decide (8 * w < off + n ∧ off < 8 * w + 8)) = false := by
  simpa using h

/-- The access rule where neither a trap nor a wait nor an error stands in the way. -/
theorem access_ok {s : State} {ea : Word} {size : Nat} {store : Bool} {k : State → Result} (trap : s.accessTrap ea size = none)
    (free : ¬(viewOf ea = 8 ∧ s.bankBusy (offOf ea / 0x800) = true)) (good : s.accessBad ea size = false)
    (idle : store = true → s.winWaits (viewOf ea) (offOf ea) size = false) : s.access ea size store k = k s := by
  rw [State.access, trap, State.check_none, if_neg free, good, if_neg (by simp), if_neg]
  rintro ⟨hs, hw⟩
  rw [idle hs] at hw; cases hw

/-- Only the window of view 0xA makes a store wait for a handle. -/
theorem winWaits_other {view : Nat} (h : view ≠ 10) (s : State) (off n : Nat) : s.winWaits view off n = false := by
  simp [State.winWaits, h]

theorem access_of_dataAccess {s : State} {ea : Word} {size : Nat} (h : DataAccess s ea size) (store : Bool) (k : State → Result) :
    s.access ea size store k = k s := by
  obtain ⟨compute, view, range, scale, aligned, clean⟩ := h
  apply access_ok
  · rw [State.accessTrap, compute]
    have limit : viewLimit (viewOf ea) = 0x9FFFF := by rw [viewLimit, if_neg (by omega), if_neg (by omega)]
    have there : reservedView (viewOf ea) = false := by
      simp only [reservedView, Bool.or_eq_false_iff, beq_eq_false_iff_ne, decide_eq_false_iff_not]; omega
    simp only [limit, there]
    rw [if_neg (by omega), if_neg (by simp), if_neg (by simp; omega), if_neg (by rintro ⟨h5, h⟩; have := scale h5; omega),
      if_neg (by simpa using aligned), if_neg (by omega)]
  · omega
  · rw [State.accessBad, if_pos view, State.memBad, no_bad_word clean]
  · exact fun _ => winWaits_other (by omega) ..

theorem access_of_bankAccess {s : State} {ea : Word} {size : Nat} (h : BankAccess s ea size) (store : Bool) (k : State → Result) :
    s.access ea size store k = k s := by
  obtain ⟨compute, view, range, aligned, allocated, free, clean⟩ := h
  apply access_ok
  · rw [State.accessTrap, compute]
    have there : reservedView (viewOf ea) = false ∧ viewLimit (viewOf ea) = 0xFFFF := by rw [view]; exact ⟨rfl, rfl⟩
    simp only [there.1, there.2]
    rw [if_neg (by omega), if_neg (by simp), if_neg (by simp; omega), if_neg (by omega), if_neg (by simpa using aligned),
      if_neg (by rw [allocated_eq, allocated]; simp)]
  · rw [free]; simp
  · rw [State.accessBad, if_neg (by omega), if_pos view, State.accBad, no_bad_word clean]
  · exact fun _ => winWaits_other (by omega) ..

/-- One code word with an uncorrectable error among n bytes is logged, and the trap follows (R239, R240). -/
theorem eccTrap_single {s : State} {mem off n w : Nat} {ea : Word} (hx : s.inExchange = false) (ho : offOf ea = off)
    (errs : (if mem = 1 then s.c.accErr else s.c.memErr) = [w]) (lo : 8 * w < off + n) (hi : off < 8 * w + 8) :
    s.eccTrap ea mem n = .next ((s.logError (0x1000 + s.t.num) mem (8 * w) 0).enter (causeWord .eccUncorr 0 s.ir.len) s.c.pc
      ea s.ir.eword) := by
  have words : State.badWords [w] off n = [w] := by simp [State.badWords, lo, hi]
  rw [State.eccTrap, State.logWords, ho, errs, words, List.foldl_cons, List.foldl_nil, State.logError]
  obtain ⟨l, hl⟩ := logRecord_eq s (0x1000 + s.t.num) 3 (BitVec.ofNat 32 (16 * mem + 1)) (BitVec.ofNat 32 (8 * w)) 0
    (BitVec.ofNat 32 (8 * w / 2 ^ 32))
  rw [hl]
  exact trap_compute (s := { s with chip := { s.chip with log := l } }) hx ..

/-- The memory that an access of a data view or of the banks reads, and that its checks pass. -/
def ReadsFrom (s : State) (ea : Word) (size : Nat) (m : Memory) : Prop :=
  (DataAccess s ea size ∧ m = s.c.mem) ∨ (BankAccess s ea size ∧ m = s.c.acc)

/-! Loads (R43). -/

/-- A load completes with the little-endian number at its offset, extended. -/
theorem load_result {s : State} {ea : Word} {size : Nat} {m : Memory} (h : ReadsFrom s ea size m) (d : Reg) (ext : Nat → Word) :
    s.load d ea size ext = s.result d (ext (littleEndian m (offOf ea) size)) := by
  rw [littleEndian_eq_leNat]
  rcases h with ⟨h, rfl⟩ | ⟨h, rfl⟩
  · rw [State.load, access_of_dataAccess h, State.loadBytes, if_pos h.view]
  · have view := h.view
    rw [State.load, access_of_bankAccess h, State.loadBytes, if_neg (by omega), if_pos h.view]

theorem littleEndian_lt (m : Memory) (a n : Nat) : littleEndian m a n < 256 ^ n := by
  induction n generalizing a with
  | zero => simp [littleEndian]
  | succ n ih =>
    have byte := (m.read a).isLt
    have rest := ih (a + 1)
    rw [littleEndian, Nat.pow_succ]; omega

theorem extS_eq {w x : Nat} (h : x < 2 ^ w) : extS w x = BitVec.ofInt 32 (if x < 2 ^ (w - 1) then (x : Int) else x - 2 ^ w) := by
  simp only [extS, signedOf, Nat.mod_eq_of_lt h]

/-- Settles O8: an address is a sum modulo 2^32, and a load that passes its checks is the number that its bytes hold. -/
theorem loadsWriteLittleEndianBytes : Obligations.LoadsWriteLittleEndianBytes := by
  refine ⟨fun s a b imm size => ⟨eaImm_eq .., eaIndex_eq .., eaVector_eq ..⟩, fun s d a b imm => ?_⟩
  intro signed ea size m h x
  have word : ∀ {i : Instr} {ext : Nat → Word} {y : Word}, exec i s = s.load d ea size ext → ext x = y → Writes i s d y :=
    fun e ey => writes_of_result (e.trans (load_result h d _)) ey
  have sign : ∀ n w, size = n → 256 ^ n = 2 ^ w → extS w x = signed w x := fun n w hn hw =>
    extS_eq (by rw [← hw, ← hn]; exact littleEndian_lt ..)
  refine ⟨?_, ?_, ?_, ?_, ?_, ?_⟩ <;> rintro rfl rfl
  · exact word rfl rfl
  · exact word rfl rfl
  · exact word rfl rfl
  · exact word rfl (sign 2 16 rfl rfl)
  · exact word rfl rfl
  · exact word rfl (sign 1 8 rfl rfl)

/-! Stores (R26, R43). -/

/-- The bytes from an offset on are the low bytes of a word, and every other byte is as before. -/
def Stores (old new : Memory) (off size : Nat) (x : Word) : Prop :=
  (∀ k, k < size → new.read (off + k) = BitVec.ofNat 8 (x.toNat / 256 ^ k)) ∧
  ∀ a, a < off ∨ off + size ≤ a → new.read a = old.read a

theorem writeBytes_stores (m : Memory) (off size : Nat) (x : Word) :
    Stores m (m.writeBytes off (leBytes size x.toNat)) off size x := by
  refine ⟨fun k hk => ?_, fun a ha => Memory.read_writeBytes_outside _ _ _ _ (by rwa [leBytes_length])⟩
  have hl : k < (leBytes size x.toNat).length := by rwa [leBytes_length]
  rw [Memory.read_writeBytes_inside _ _ _ _ hl, leBytes_getElem]

/-- A scalar store is a store of the low bytes of its data register at its address. -/
theorem exec_scalarStore {s : State} {i : Instr} {d : Reg} {ea : Word} {size : Nat} (ha : scalarAccess s i = some (ea, size))
    (hs : scalarStore i = some d) : exec i s = s.store d ea size := by
  unfold scalarStore at hs
  split at hs
  case h_5 => cases hs
  all_goals cases hs; cases ha; rfl

/-- Another local memory, with what the fetch buffer may hold, and another memory of the banks. -/
def withMem (s : State) (m : Memory) (stale : List (Nat × List Byte)) : State := { s with c := { s.c with mem := m, stale := stale } }
def withAcc (s : State) (m : Memory) : State := { s with c := { s.c with acc := m } }

/-- Completion neither reads the memories nor changes them. -/
theorem adv_withMem (s : State) (m : Memory) (stale : List (Nat × List Byte)) : (withMem s m stale).adv = withMem s.adv m stale :=
  (State.adv_with (s := s) (t := withMem s m stale) ⟨rfl, rfl, rfl, rfl, rfl, rfl⟩).trans (congrArg (withMem · m stale) s.adv_eq.symm)

theorem adv_withAcc (s : State) (m : Memory) : (withAcc s m).adv = withAcc s.adv m :=
  (State.adv_with (s := s) (t := withAcc s m) ⟨rfl, rfl, rfl, rfl, rfl, rfl⟩).trans (congrArg (withAcc · m) s.adv_eq.symm)

/-- Settles O9: a store that passes its checks writes its bytes and completes. -/
theorem storesWriteOnlyTheirBytes : Obligations.StoresWriteOnlyTheirBytes := by
  intro s i d ea size ha hs
  have run := exec_scalarStore ha hs
  refine ⟨fun h => ?_, fun h => ?_⟩
  · obtain ⟨written, kept⟩ := writeBytes_stores s.c.mem (offOf ea) size (s.reg d)
    refine ⟨_, ?stale, ?completes, written, kept⟩
    case completes =>
      rw [Completes, run, State.store, access_of_dataAccess h, State.storeBytes, if_pos h.view]
      exact congrArg _ (adv_withMem ..)
  · have view := h.view
    obtain ⟨written, kept⟩ := writeBytes_stores s.c.acc (offOf ea) size (s.reg d)
    refine ⟨_, ?_, written, kept⟩
    rw [Completes, run, State.store, access_of_bankAccess h, State.storeBytes, if_neg (by omega), if_pos view]
    exact congrArg _ (adv_withAcc ..)

end Sys2Proof.Proofs

namespace Sys2Proof.Proofs
open Machine

/-! # Branches, jumps, the hardware loop and eret (R94 to R99, R103) -/

/-! Targets (R94). -/

theorem getLsbD_zero_eq (x : Word) : x.getLsbD 0 = decide (x.toNat % 2 = 1) := by
  rw [BitVec.getLsbD, Nat.testBit_zero]

theorem target_eq_ofInt {w : Nat} (s : State) (off : BitVec w) :
    s.target (off.signExtend 32) = BitVec.ofInt 32 (s.basePc.toNat + 2 * off.toInt) := add_scaled_immediate s.basePc off 2

theorem target_eq_ofNat (s : State) (e : BitVec 26) :
    s.target (e.zeroExtend 32) = BitVec.ofNat 32 (s.basePc.toNat + 2 * e.toNat) := by
  have h : e.zeroExtend 32 * 2 = BitVec.ofNat 32 (2 * e.toNat) := by
    apply BitVec.eq_of_toNat_eq
    rw [BitVec.toNat_mul, BitVec.toNat_setWidth, BitVec.toNat_ofNat, show (2 : Word).toNat = 2 from rfl]; omega
  rw [State.target, h, add_ofNat_eq]

/-! The transfer of R95, case by case. -/

section
variable {s : State} {t : Word} {link : State → State}

theorem transfer_follower (h : s.follower = true) : s.transfer t link = s.fin := by rw [State.transfer, if_pos h]

theorem transfer_even (h : s.follower = false) (ht : t.toNat % 2 = 0) : s.transfer t link = .next ((link s).jumpTo t) := by
  rw [State.transfer, h, if_neg (by simp), if_neg (by rw [getLsbD_zero_eq]; simp [ht])]

theorem transfer_odd (h : s.follower = false) (hx : s.inExchange = false) (ht : t.toNat % 2 = 1) :
    s.transfer t link = .next (s.enter (causeWord .align 0 s.ir.len) s.c.pc t s.ir.eword) := by
  rw [State.transfer, h, if_neg (by simp), if_pos (by rw [getLsbD_zero_eq]; simp [ht]), trap_compute hx]

end

/-! Conditions (R94). -/

theorem slt_zero (x : Word) : x.slt 0 = decide (x.toInt < 0) := rfl
theorem zero_slt (x : Word) : (0 : Word).slt x = decide (0 < x.toInt) := rfl

theorem beq_zero_eq (x : Word) : (x == 0) = decide (x.toInt = 0) := by
  rw [beq_eq_decide, decide_eq_decide, ← BitVec.toInt_inj]; rfl

/-- A branch is a transfer where its condition holds. -/
theorem exec_branch {s : State} {a : Reg} {off : BitVec 26} {i : Instr} {taken : Bool}
    (h : branchTaken (s.reg a).toInt a off i = some taken) : exec i s = s.branch taken off := by
  unfold branchTaken at h
  split at h
  case h_7 => cases h
  all_goals
    split at h
    case isFalse => cases h
    rename_i e
    obtain ⟨rfl, rfl⟩ := e
    cases h
  · exact congrArg (s.branch · _) (beq_zero_eq _)
  · exact congrArg (s.branch · _) (by rw [bne, beq_zero_eq, decide_not])
  · exact congrArg (s.branch · _) (slt_zero _)
  · exact congrArg (s.branch · _) (by rw [slt_zero, ← decide_not, decide_eq_decide, not_lt])
  · exact congrArg (s.branch · _) (zero_slt _)
  · exact congrArg (s.branch · _) (by rw [zero_slt, ← decide_not, decide_eq_decide, not_lt])

theorem branch_transfersOfControl (s : State) (a : Reg) (off : BitVec 26) (i : Instr) (taken : Bool)
    (h : branchTaken (s.reg a).toInt a off i = some taken) :
    let t : Word := BitVec.ofInt 32 (s.basePc.toNat + 2 * off.toInt)
    (taken = false ∨ s.follower = true → Leaves i s s) ∧
    (taken = true → s.follower = false → t.toNat % 2 = 0 → Completes i s (s.jumpTo t)) ∧
    (taken = true → s.follower = false → t.toNat % 2 = 1 → s.inExchange = false → Traps i s .align 0 t) := by
  intro t
  have run := exec_branch h
  have goes : s.branch true off = s.transfer t id := by
    rw [State.branch, if_pos rfl, immWord, target_eq_ofInt]
  refine ⟨fun stays => ?_, fun ht hf even => ?_, fun ht hf odd hx => ?_⟩
  · rw [Leaves, run]
    cases taken with
    | false => rfl
    | true => rw [goes, transfer_follower (stays.resolve_left (by simp))]; rfl
  · rw [Completes, run, ht, goes, transfer_even hf even]; rfl
  · rw [Traps, run, ht, goes, transfer_odd hf hx odd]

/-! Jumps (R96, R97). -/

theorem exec_j (off : BitVec 31) (s : State) : exec (.j off) s = s.transfer (s.target (off.signExtend 32)) id := rfl
theorem exec_jal (off : BitVec 31) (s : State) : exec (.jal off) s = s.transfer (s.target (off.signExtend 32)) State.link := rfl
theorem exec_jr (a : Reg) (s : State) : exec (.jr a) s = s.transfer (s.reg a) id := rfl
theorem exec_jalr (a : Reg) (s : State) : exec (.jalr a) s = s.transfer (s.reg a) State.link := rfl

theorem jump_transfersOfControl (s : State) (a : Reg) (off : BitVec 31) :
    let t : Word := BitVec.ofInt 32 (s.basePc.toNat + 2 * off.toInt)
    let next : Word := s.basePc + 2
    (s.follower = false → t.toNat % 2 = 0 →
      Completes (.j off) s (s.jumpTo t) ∧ Completes (.jal off) s ((s.setReg 31 next).jumpTo t)) ∧
    (s.follower = false → (s.reg a).toNat % 2 = 0 →
      Completes (.jr a) s (s.jumpTo (s.reg a)) ∧ Completes (.jalr a) s ((s.setReg 31 next).jumpTo (s.reg a))) ∧
    (s.follower = false → s.inExchange = false → t.toNat % 2 = 1 →
      Traps (.j off) s .align 0 t ∧ Traps (.jal off) s .align 0 t) ∧
    (s.follower = false → s.inExchange = false → (s.reg a).toNat % 2 = 1 →
      Traps (.jr a) s .align 0 (s.reg a) ∧ Traps (.jalr a) s .align 0 (s.reg a)) ∧
    (s.follower = true → Leaves (.j off) s s ∧ Leaves (.jal off) s s ∧ Leaves (.jr a) s s ∧ Leaves (.jalr a) s s) := by
  simp only [Completes, Traps, Leaves, exec_j, exec_jal, exec_jr, exec_jalr, target_eq_ofInt]
  exact ⟨fun hf even => ⟨transfer_even hf even, transfer_even hf even⟩,
    fun hf even => ⟨transfer_even hf even, transfer_even hf even⟩,
    fun hf hx odd => ⟨transfer_odd hf hx odd, transfer_odd hf hx odd⟩,
    fun hf hx odd => ⟨transfer_odd hf hx odd, transfer_odd hf hx odd⟩,
    fun hf => ⟨transfer_follower hf, transfer_follower hf, transfer_follower hf, transfer_follower hf⟩⟩

/-! The loop rule (R99). -/

theorem reg_setPc (s : State) (a : Word) (r : Reg) : (s.setPc a).reg r = s.reg r := rfl
theorem reg_setLoop (s : State) (l : LoopState) (r : Reg) : (s.setLoop l).reg r = s.reg r := by
  simp only [State.reg, State.setLoop_s]

theorem loop_setPc (s : State) (a : Word) : (s.setPc a).loop = s.loop := rfl
theorem loop_setReg (s : State) (r : Reg) (x : Word) : (s.setReg r x).loop = s.loop := by
  unfold State.setReg; split <;> rfl
theorem loop_setLoop (s : State) (l : LoopState) : (s.setLoop l).loop = l := by
  unfold State.setLoop
  split
  next h => exact if_pos h
  next h => exact if_neg h

theorem sub_one_eq_zero_iff (n : Word) : n - 1 = 0 ↔ n = 1 := sub_eq_zero

theorem adv_transfersOfControl (s : State) :
    let l := s.loop
    let n := s.reg l.reg
    let atEnd := s.follower = false ∧ l.act = true ∧ s.seqPc = l.stop
    (atEnd → n ≠ 1 → s.adv.c.pc = l.start ∧ s.adv.loop = l ∧ (l.reg ≠ 0 → s.adv.reg l.reg = n - 1)) ∧
    (atEnd → n = 1 → s.adv.c.pc = l.stop ∧ s.adv.loop = { l with act := false } ∧ s.adv.reg l.reg = 0) ∧
    (¬atEnd → s.adv.c.pc = s.seqPc ∧ s.adv.loop = l ∧ s.adv.reg l.reg = n) := by
  intro l n atEnd
  rcases s.adv_cases with ⟨h, left, e⟩ | ⟨h, left, e⟩ | ⟨h, e⟩ <;> rw [e]
  · have more : n ≠ 1 := mt (sub_one_eq_zero_iff n).mpr left
    refine ⟨fun _ _ => ⟨rfl, by rw [loop_setPc, loop_setReg], fun h0 => ?_⟩, fun _ h1 => absurd h1 more, fun h' => absurd h h'⟩
    rw [reg_setPc, State.reg_setReg, if_pos ⟨rfl, h0⟩]
  · have last : n = 1 := (sub_one_eq_zero_iff n).mp left
    refine ⟨fun _ h1 => absurd last h1, fun _ _ => ⟨rfl, by rw [loop_setPc, loop_setLoop], ?_⟩, fun h' => absurd h h'⟩
    rw [reg_setPc, reg_setLoop, State.reg_setReg]
    by_cases h0 : s.loop.reg = 0
    · have zero : n = 0 := congrArg s.reg h0
      exact absurd (last.symm.trans zero) (by decide)
    · rw [if_pos ⟨rfl, h0⟩]
  · exact ⟨fun h' => absurd h' h, fun h' => absurd h' h, fun _ => ⟨rfl, rfl, rfl⟩⟩

/-- A transfer ends the loop where its target lies outside it; the registers stay. -/
theorem jumpTo_eq (s : State) (t : Word) : s.jumpTo t = (s.setLoop { s.loop with
    act := s.loop.act && !(t.ult s.loop.start || s.loop.stop.ule t) }).setPc t := by
  have same : s.setLoop s.loop = s := by unfold State.setLoop State.loop; split <;> rfl
  unfold State.jumpTo
  cases h : s.loop.act <;> cases h' : (t.ult s.loop.start || s.loop.stop.ule t) <;> simp [← h, same]

theorem setLoop_other (s : State) (l : LoopState) :
    (s.svc = true → (s.setLoop l).c.loopU = s.c.loopU) ∧ (s.svc = false → (s.setLoop l).c.loopS = s.c.loopS) := by
  refine ⟨fun h => ?_, fun h => ?_⟩ <;> simp [State.setLoop, h]

/-- Completion leaves the loop state of the other mode. -/
theorem adv_other (s : State) :
    (s.svc = true → s.adv.c.loopU = s.c.loopU) ∧ (s.svc = false → s.adv.c.loopS = s.c.loopS) := by
  rcases s.adv_cases with ⟨-, -, e⟩ | ⟨-, -, e⟩ | ⟨-, e⟩ <;> rw [e]
  · exact ⟨fun _ => State.setReg_loopU .., fun _ => State.setReg_loopS ..⟩
  · obtain ⟨u, v⟩ := setLoop_other (s.setReg s.loop.reg 0) { s.loop with act := false }
    have svc : (s.setReg s.loop.reg 0).svc = s.svc := by simp only [State.svc, State.setReg_status]
    exact ⟨fun h => (u (svc.trans h)).trans (State.setReg_loopU ..), fun h => (v (svc.trans h)).trans (State.setReg_loopS ..)⟩
  · exact ⟨fun _ => rfl, fun _ => rfl⟩

theorem loop_transfersOfControl (s : State) (a : Reg) (e : BitVec 26) :
    let stop : Word := BitVec.ofNat 32 (s.basePc.toNat + 2 * e.toNat)
    (s.follower = true → Leaves (.loop a e) s s) ∧
    (s.follower = false → s.inExchange = false → s.loop.act = true → Traps (.loop a e) s .illegal 1 0) ∧
    (s.follower = false → s.inExchange = false → s.loop.act = false → e.toNat < 2 → Traps (.loop a e) s .illegal 0 0) ∧
    (s.follower = false → s.loop.act = false → 2 ≤ e.toNat → s.reg a = 0 → Completes (.loop a e) s (s.setPc stop)) ∧
    (s.follower = false → s.loop.act = false → 2 ≤ e.toNat → s.reg a ≠ 0 →
      Completes (.loop a e) s ((s.setLoop { act := true, start := s.basePc + 2, stop := stop, reg := a }).setPc s.seqPc)) := by
  have run : exec (.loop a e) s = execLoop a e s := rfl
  simp only [Completes, Traps, Leaves, run, execLoop, target_eq_ofNat]
  refine ⟨fun hf => ?_, fun hf hx hl => ?_, fun hf hx hl he => ?_, fun hf hl he ha => ?_, fun hf hl he ha => ?_⟩
  · rw [if_pos hf]; rfl
  · rw [hf, if_neg (by simp), if_pos hl, trap_compute hx]
  · rw [hf, hl, if_neg (by simp), if_neg (by simp), if_pos he, trap_compute hx]
  · rw [hf, hl, if_neg (by simp), if_neg (by simp), if_neg (by omega), if_pos ha]
  · rw [hf, hl, if_neg (by simp), if_neg (by simp), if_neg (by omega), if_neg ha]

/-- Settles O11: branches and jumps are transfers; the loop rule by the three cases of completion. -/
theorem transfersOfControl : Obligations.TransfersOfControl := by
  refine ⟨branch_transfersOfControl, jump_transfersOfControl, fun s t => ?_, loop_transfersOfControl⟩
  obtain ⟨round, ends, on⟩ := adv_transfersOfControl s
  obtain ⟨advU, advS⟩ := adv_other s
  obtain ⟨jumpU, jumpS⟩ := setLoop_other s { s.loop with act := s.loop.act && !(t.ult s.loop.start || s.loop.stop.ule t) }
  refine ⟨round, ends, on, fun r hr => s.adv_reg r hr, ?_, ?_, ?_⟩ <;> simp only [jumpTo_eq s t]
  · exact ⟨rfl, State.setLoop_s .., loop_setLoop ..⟩
  · exact fun h => ⟨advU h, jumpU h⟩
  · exact fun h => ⟨advS h, jumpS h⟩

/-! eret (R103). -/

/-- The status word that eret leaves, bit by bit: MODE and TE from PMODE and PTE. -/
theorem eretStatus_getLsbD (x : Word) (b : Nat) :
    ((x &&& 0xFFFFFFFC) ||| ((x >>> 2) &&& 3)).getLsbD b = if b < 2 then x.getLsbD (b + 2) else x.getLsbD b := by
  by_cases hb : b < 32
  · interval_cases b <;> simp
  · rw [BitVec.getLsbD_of_ge _ _ (by omega), BitVec.getLsbD_of_ge x b (by omega), if_neg (by omega)]

/-- The state in which eret's transfer takes place. -/
def eretMode (s : State) : State := { s with c := { s.c with status := (s.c.status &&& 0xFFFFFFFC) ||| ((s.c.status >>> 2) &&& 3) } }

theorem jumpTo_pc (s : State) (t : Word) : (s.jumpTo t).c.pc = t := by rw [jumpTo_eq]; rfl
theorem jumpTo_status (s : State) (t : Word) : (s.jumpTo t).c.status = s.c.status := by
  rw [jumpTo_eq]; exact State.setLoop_status ..

/-- A transfer touches pc, the loop states and what the instruction has done while it waited. -/
theorem jumpTo_frame (s : State) (t : Word) : s.jumpTo t = { s with c := { s.c with
    pc := (s.jumpTo t).c.pc, status := (s.jumpTo t).c.status, loopU := (s.jumpTo t).c.loopU, loopS := (s.jumpTo t).c.loopS
    stall := false, pend := .none } } := by
  rw [jumpTo_eq]; unfold State.setLoop State.setPc; split <;> rfl

/-- The loop state of the mode, after a transfer. -/
theorem loop_jumpTo (s : State) (t : Word) :
    (s.jumpTo t).loop = { s.loop with act := s.loop.act && !(t.ult s.loop.start || s.loop.stop.ule t) } := by
  rw [jumpTo_eq, loop_setPc, loop_setLoop]

theorem svc_jumpTo (s : State) (t : Word) : (s.jumpTo t).svc = s.svc := by
  rw [State.svc, jumpTo_status]; rfl

theorem loop_of_svc {s : State} (h : s.svc = true) : s.loop = s.c.loopS := by rw [State.loop, if_pos h]
theorem loop_of_user {s : State} (h : s.svc = false) : s.loop = s.c.loopU := by rw [State.loop, if_neg (by simp [h])]

/-- eret outside an exchange phase: PRIV in U mode, ALIGN at an odd c.epc, else the transfer. -/
theorem exec_eret {s : State} (hx : s.inExchange = false) : exec .eret s =
    if s.svc then if s.c.epc.toNat % 2 = 1 then s.trap .align 0 s.c.epc else .next ((eretMode s).jumpTo s.c.epc)
    else s.trap .priv := by
  have run : exec .eret s = s.privC (if s.c.epc.getLsbD 0 then s.trap .align 0 s.c.epc else .next s.eret) := rfl
  rw [run, State.privC, State.classC_compute _ _ hx, getLsbD_zero_eq]
  simp only [decide_eq_true_eq]; rfl

/-- Settles O14: eret is the transfer to c.epc in the mode that PMODE names. -/
theorem eretRestoresModeAndPc : Obligations.EretRestoresModeAndPc := by
  intro s hx
  refine ⟨fun hs => ?_, fun hs odd => ?_, fun hs even => ⟨(eretMode s).jumpTo s.c.epc, ?_⟩⟩
  · rw [Traps, exec_eret hx, hs, if_neg (by simp), trap_compute hx]
  · rw [Traps, exec_eret hx, if_pos hs, if_pos odd, trap_compute hx]
  have status := jumpTo_status (eretMode s) s.c.epc
  have loop := loop_jumpTo (eretMode s) s.c.epc
  have eq := jumpTo_eq (eretMode s) s.c.epc
  obtain ⟨otherU, otherS⟩ := setLoop_other (eretMode s) _
  refine ⟨?_, ?_, ?_, ?_, fun b hb => ?_, fun svc => ?_, fun user => ?_, jumpTo_frame ..⟩
  · rw [Completes, exec_eret hx, if_pos hs, if_neg (by omega)]
  · exact jumpTo_pc ..
  · rw [status]; exact eretStatus_getLsbD s.c.status 0
  · rw [status]; exact eretStatus_getLsbD s.c.status 1
  · rw [status]; exact (eretStatus_getLsbD s.c.status b).trans (if_neg (by omega))
  · have mode : (eretMode s).svc = true := (svc_jumpTo ..).symm.trans svc
    rw [loop_of_svc mode, loop_of_svc svc] at loop
    exact ⟨(congrArg (·.c.loopU) eq).trans (otherU mode), loop⟩
  · have mode : (eretMode s).svc = false := (svc_jumpTo ..).symm.trans user
    rw [loop_of_user mode, loop_of_user user] at loop
    exact ⟨(congrArg (·.c.loopS) eq).trans (otherS mode), loop⟩

end Sys2Proof.Proofs

namespace Sys2Proof.Proofs
open Machine

/-! # System instructions (R104 to R108) -/

/-! Waiting for the engines (R104, R107). -/

/-- The engines are idle where no operation or command is left and no message of the copy engine is held. -/
theorem enginesIdle_iff (s : State) : s.enginesIdle = true ↔
    s.c.mx = [] ∧ s.c.head = [] ∧ s.c.copy = [] ∧ ∀ m ∈ s.c.held, m.toNat % 16 ≠ 1 := by
  have kind : ∀ m : DWord, (m.extractLsb' 0 4 != 1) = true ↔ m.toNat % 16 ≠ 1 := fun m => by
    rw [bne_iff_ne, ne_eq, ← BitVec.toNat_inj]; simp
  simp only [State.enginesIdle, State.copyIdle, Bool.and_eq_true, List.isEmpty_iff, List.all_eq_true, kind, and_assoc]

theorem exec_halt {s : State} (hx : s.inExchange = false) : exec .halt s =
    if s.c.accmap ≠ 0 then s.trap .accHeld 0 s.c.accmap else if s.enginesIdle = false then s.wait else .next s.halted :=
  State.classC_compute _ _ hx

theorem exec_fence {s : State} (hx : s.inExchange = false) :
    exec .fence s = if s.enginesIdle then s.discardFetch.fin else s.wait := State.classC_compute _ _ hx

theorem halt_completes (s : State) (hx : s.inExchange = false) :
    let idle := s.c.mx = [] ∧ s.c.head = [] ∧ s.c.copy = [] ∧ ∀ m ∈ s.c.held, m.toNat % 16 ≠ 1
    (s.c.accmap ≠ 0 → Traps .halt s .accHeld 0 s.c.accmap) ∧
    (s.c.accmap = 0 → ¬idle → Waits .halt s) ∧
    (s.c.accmap = 0 → idle → Completes .halt s s.halted) := by
  rw [← enginesIdle_iff]
  refine ⟨fun h => ?_, fun h busy => ?_, fun h idle => ?_⟩
  · rw [Traps, exec_halt hx, if_pos h, trap_compute hx]
  · rw [Waits, exec_halt hx, if_neg (not_not.mpr h), if_pos (Bool.eq_false_iff.mpr busy)]; rfl
  · rw [Completes, exec_halt hx, if_neg (not_not.mpr h), if_neg (by simp [idle])]

theorem fence_completes (s : State) (hx : s.inExchange = false) :
    let idle := s.c.mx = [] ∧ s.c.head = [] ∧ s.c.copy = [] ∧ ∀ m ∈ s.c.held, m.toNat % 16 ≠ 1
    (idle → Leaves .fence s s.discardFetch) ∧ (¬idle → Waits .fence s) := by
  rw [← enginesIdle_iff]
  refine ⟨fun idle => ?_, fun busy => ?_⟩
  · rw [Leaves, exec_fence hx, if_pos idle]; rfl
  · rw [Waits, exec_fence hx, if_neg busy]; rfl

/-- The record enters the tile's queue, or the instruction waits for room (R108). -/
theorem exec_evwr {s : State} (hx : s.inExchange = false) (a b : Reg) : exec (.evwr a b) s =
    if 16 ≤ s.t.evq.length then s.wait
    else State.fin { s with
      t := { s.t with evq := s.t.evq ++ [s.ownRecord (s.reg a) (s.reg b)] }
      c := { s.c with evSeq := s.c.evSeq + 1 } } := State.classC_compute _ _ hx

/-! snap (R105). -/

section
variable {s : State} (hs : s.svc = true) (hx : s.inExchange = false) (d : Reg)
include hs hx

/-- Once the snapshot is latched, snap writes its sequence number. -/
theorem exec_snap_latched {n : Word} (h : s.c.pend = .snap (some n)) : exec (.snap d) s = s.result d n := by
  have run : exec (.snap d) s = execSnap d s := rfl
  rw [run, execSnap, State.privC, if_pos hs, State.classC_compute _ _ hx, h]

/-- A snap that has done nothing yet sends a trigger and waits. -/
theorem exec_snap_first (h : s.c.pend = .none) : exec (.snap d) s = s.trigger.waitAt (.snap none) := by
  have run : exec (.snap d) s = execSnap d s := rfl
  rw [run, execSnap, State.privC, if_pos hs, State.classC_compute _ _ hx, h]

end

/-! xload (R106): the bytes of the image. -/

/-- The bytes that xload takes for the image at an address: LEN of them, at least the header. -/
def imageBytes (s : State) (x : Word) : List Byte :=
  let len := imgLen (s.c.mem.readBytes (offOf x) 64)
  s.c.mem.readBytes (offOf x) (if len ≤ 0xA0000 - offOf x then max 64 len else 64)

/-- What the checks of an image at an address answer. -/
def imageAnswer (s : State) (x : Word) : Nat × Nat := s.imageStatus (imageBytes s x) (0xA0000 - offOf x) s.c.ncore.toNat

theorem imageBytes_length (s : State) (x : Word) : 64 ≤ (imageBytes s x).length := by
  rw [imageBytes, Memory.readBytes_length]; split <;> omega

/-- The header lies within local memory, aligned, through view 0x0. -/
theorem addrTrap_none {x : Word} {n align d : Nat} (view : viewOf x = 0) (range : offOf x + n ≤ 0xA0000) (aligned : offOf x % align = 0) :
    State.addrTrap x n align d = none := by
  rw [State.addrTrap, if_neg (by simp [view]), if_neg (by omega), if_neg (by simpa using aligned)]

section
variable {s : State} (hs : s.svc = true) (hx : s.inExchange = false) {a : Reg} (view : viewOf (s.reg a) = 0)
  (range : offOf (s.reg a) + 64 ≤ 0xA0000) (aligned : offOf (s.reg a) % 64 = 0) (d : Reg)
include hs hx view range aligned

/-- xload of an image that lies within local memory: an error, the wait, or the answer. -/
theorem exec_xload : exec (.xload d a) s =
    let r := imageAnswer s (s.reg a)
    if s.memBad (offOf (s.reg a)) (imageBytes s (s.reg a)).length then s.eccTrap (s.reg a) 0 (imageBytes s (s.reg a)).length
    else if s.localRuns ≠ [] then s.wait
    else (if r.1 = 0 then s.install (imageBytes s (s.reg a)) else s).result d (BitVec.ofNat 32 (r.2 % 65536 * 65536 + r.1)) := by
  have run : exec (.xload d a) s = execXload d a s := rfl
  rw [run, execXload, State.privC, if_pos hs, State.classC_compute _ _ hx, addrTrap_none view range aligned, State.check_none]
  rfl

theorem xload_error {w : Nat} (errs : s.c.memErr = [w]) (lo : 8 * w < offOf (s.reg a) + 64) (hi : offOf (s.reg a) < 8 * w + 8) :
    Completes (.xload d a) s ((s.logError (0x1000 + s.t.num) 0 (8 * w) 0).enter (causeWord .eccUncorr 0 s.ir.len) s.c.pc
      (s.reg a) s.ir.eword) := by
  have long := imageBytes_length s (s.reg a)
  have bad : s.memBad (offOf (s.reg a)) (imageBytes s (s.reg a)).length = true := by
    rw [State.memBad, errs]; simp; omega
  rw [Completes, exec_xload hs hx view range aligned, bad]
  exact eccTrap_single (mem := 0) hx rfl errs (by omega) hi

variable (good : s.c.memErr = [])
include good

theorem xload_waits (h : s.localRuns ≠ []) : Waits (.xload d a) s := by
  rw [Waits, exec_xload hs hx view range aligned, State.memBad, good, if_neg (by simp), if_pos h]; rfl

/-- Where no local exchange runs, xload answers, and installs an image that passes. -/
theorem xload_answers (h : s.localRuns = []) {r : Nat × Nat} (answer : imageAnswer s (s.reg a) = r) : exec (.xload d a) s =
    (if r.1 = 0 then s.install (imageBytes s (s.reg a)) else s).result d (BitVec.ofNat 32 (r.2 % 65536 * 65536 + r.1)) := by
  rw [exec_xload hs hx view range aligned, State.memBad, good, if_neg (by simp), if_neg (not_not.mpr h), answer]

end

/-! The words of an image in memory (R159). -/

theorem readBytes_drop_take (m : Memory) (off n k j : Nat) (h : k + j ≤ n) :
    ((m.readBytes off n).drop k).take j = m.readBytes (off + k) j := by
  apply List.ext_getElem
  · simp [Memory.readBytes]; omega
  · intro i h1 h2
    rw [List.getElem_take, List.getElem_drop, Memory.readBytes_getElem, Memory.readBytes_getElem, Nat.add_assoc]

theorem imgWord_readBytes (m : Memory) (off n k : Nat) (h : k + 4 ≤ n) :
    imgWord (m.readBytes off n) k = littleEndian m (off + k) 4 := by
  rw [imgWord, readBytes_drop_take _ _ _ _ _ h, littleEndian_eq_leNat]

theorem littleEndian_eq_zero_iff (m : Memory) (a n : Nat) : littleEndian m a n = 0 ↔ ∀ j < n, m.read (a + j) = 0 := by
  induction n generalizing a with
  | zero => simp [littleEndian]
  | succ n ih =>
    rw [littleEndian, Nat.add_eq_zero_iff, ← eq_zero_iff_toNat, Nat.mul_eq_zero, or_iff_right (by decide), ih,
      Nat.forall_lt_succ_left]
    simp only [Nat.add_assoc, Nat.add_comm 1, Nat.add_zero]

/-- The header words of an image that the rule of R161 finds malformed, at an offset of local memory. -/
def MalformedHeader (word : Nat → Nat) (off : Nat) : Prop :=
  word 0 ≠ 0x43415256 ∨ word 1 % 2 ^ 8 ≠ 1 ∨ word 2 % 16 ≠ 0 ∨ word 3 % 8 ≠ 0 ∨ word 4 % 8 ≠ 0 ∨
    word 5 % 8 ≠ 0 ∨ word 6 < 64 ∨ 0xA0000 < off + word 6 ∨ ∃ i, 7 ≤ i ∧ i < 16 ∧ word i ≠ 0

/-- Bytes that begin with these sixteen words, the reserved ones read as one block. -/
structure HeaderWords (bs : List Byte) (word : Nat → Nat) : Prop where
  words : ∀ i, i < 16 → imgWord bs (4 * i) = word i
  reserved : ((bs.drop 0x1C).take 0x24).all (· == 0) = true ↔ ∀ i, 7 ≤ i → i < 16 → word i = 0
  bound : ∀ i, word i < 2 ^ 32

theorem headerWords_readBytes (m : Memory) (off n : Nat) (h : 64 ≤ n) :
    HeaderWords (m.readBytes off n) fun i => littleEndian m (off + 4 * i) 4 where
  words i hi := imgWord_readBytes m off n (4 * i) (by omega)
  bound i := littleEndian_lt ..
  reserved := by
    rw [readBytes_drop_take _ _ _ _ _ (by omega), List.all_eq_true]
    simp only [beq_iff_eq, Memory.readBytes, List.mem_map, List.mem_range, forall_exists_index, and_imp, forall_apply_eq_imp_iff₂,
      littleEndian_eq_zero_iff]
    refine ⟨fun zero i h7 h16 j hj => ?_, fun zero k hk => ?_⟩
    · have := zero (4 * (i - 7) + j) (by omega)
      rwa [show off + 0x1C + (4 * (i - 7) + j) = off + 4 * i + j by omega] at this
    · have := zero (7 + k / 4) (by omega) (by omega) (k % 4) (by omega)
      rwa [show off + 4 * (7 + k / 4) + k % 4 = off + 0x1C + k by omega] at this

section
variable {bs : List Byte} {word : Nat → Nat} (h : HeaderWords bs word)
include h

/-- The fields of the header (R159). -/
theorem header_fields : imgNseg bs = word 1 / 2 ^ 8 % 2 ^ 8 ∧ imgNcore bs = word 1 / 2 ^ 16 ∧ imgSegOff bs = word 2 ∧
    imgLen bs = word 6 := by
  have w1 : imgWord bs 4 = word 1 := h.words 1 (by omega)
  have top := h.bound 1
  refine ⟨by rw [imgNseg, w1, bitsOf], ?_, h.words 2 (by omega), h.words 6 (by omega)⟩
  rw [imgNcore, w1, bitsOf, Nat.mod_eq_of_lt (by omega)]

/-- The header passes where it is not malformed and counts 1 to 64 segments. -/
theorem header_passes_iff {off : Nat} (hoff : off ≤ 0xA0000) :
    (imgWord bs 0 = 0x43415256 ∧ bitsOf (imgWord bs 4) 0 8 = 1 ∧ 1 ≤ imgNseg bs ∧ imgNseg bs ≤ 64 ∧
      imgSegOff bs % 16 = 0 ∧ imgSlotOff bs % 8 = 0 ∧ imgSwOff bs % 8 = 0 ∧ imgPathOff bs % 8 = 0 ∧
      64 ≤ imgLen bs ∧ imgLen bs ≤ 0xA0000 - off ∧ ((bs.drop 0x1C).take 0x24).all (· == 0) = true) ↔
    ¬MalformedHeader word off ∧ 1 ≤ word 1 / 2 ^ 8 % 2 ^ 8 ∧ word 1 / 2 ^ 8 % 2 ^ 8 ≤ 64 := by
  obtain ⟨nseg, -, segOff, len⟩ := header_fields h
  have w0 : imgWord bs 0 = word 0 := h.words 0 (by omega)
  have w1 : imgWord bs 4 = word 1 := h.words 1 (by omega)
  have w3 : imgSlotOff bs = word 3 := h.words 3 (by omega)
  have w4 : imgSwOff bs = word 4 := h.words 4 (by omega)
  have w5 : imgPathOff bs = word 5 := h.words 5 (by omega)
  rw [nseg, segOff, len, w0, w1, w3, w4, w5, h.reserved, bitsOf, pow_zero, Nat.div_one, MalformedHeader,
    show word 6 ≤ 0xA0000 - off ↔ off + word 6 ≤ 0xA0000 by omega]
  push Not
  tauto

theorem headerStatus_malformed {off ncore : Nat} (hoff : off ≤ 0xA0000) (hm : MalformedHeader word off) :
    headerStatus bs (0xA0000 - off) ncore = 2 :=
  if_neg fun c => ((header_passes_iff h hoff).mp c).1 hm

theorem headerStatus_formed {off ncore : Nat} (hoff : off ≤ 0xA0000) (hm : ¬MalformedHeader word off)
    (h1 : 1 ≤ word 1 / 2 ^ 8 % 2 ^ 8) (h64 : word 1 / 2 ^ 8 % 2 ^ 8 ≤ 64) :
    headerStatus bs (0xA0000 - off) ncore = if word 1 / 2 ^ 16 = ncore then 0 else 3 := by
  rw [headerStatus, if_pos ((header_passes_iff h hoff).mpr ⟨hm, h1, h64⟩), (header_fields h).2.1]

end

theorem imageStatus_of_fault {s : State} {bs : List Byte} {room ncore : Nat} {r : Nat × Nat} (h : imageFault bs room ncore = some r) :
    s.imageStatus bs room ncore = r := by rw [State.imageStatus, h]

/-- A header that fails is the answer. -/
theorem imageStatus_header (s : State) {bs : List Byte} {room ncore st : Nat} (h : headerStatus bs room ncore = st) (h0 : st ≠ 0) :
    s.imageStatus bs room ncore = (st, 0) := imageStatus_of_fault (by rw [imageFault, if_pos (by rwa [h]), h])

/-! An image of one segment without entries (R160). -/

/-- The words of the one segment entry: no entry of the slot, switch or path tables belongs to it. -/
structure PlainEntry (bs : List Byte) (e : Nat) : Prop where
  nseg : imgNseg bs = 1
  inside : imgSegOff bs + 16 ≤ imgLen bs
  word : imgWord bs (imgSegOff bs) = e
  rest : ∀ i, 1 ≤ i → i < 4 → imgWord bs (imgSegOff bs + 4 * i) = 0
  bound : e < 2 ^ 32
  clear : e / 2 ^ 6 % 4 = 0 ∧ e / 2 ^ 9 % 2 ^ 7 = 0

section
variable {bs : List Byte} {e : Nat} (h : PlainEntry bs e)
include h

theorem segEntry_plain : segEntry bs 0 = ⟨e % 64, decide (e / 2 ^ 8 % 2 = 1), e / 2 ^ 16, 0, 0, 0, 0, 0, 0⟩ := by
  have w1 := h.rest 1 (by omega) (by omega)
  have w2 := h.rest 2 (by omega) (by omega)
  have w3 := h.rest 3 (by omega) (by omega)
  have top : e / 2 ^ 16 % 2 ^ 16 = e / 2 ^ 16 := Nat.mod_eq_of_lt (by have := h.bound; omega)
  simp only [segEntry, Nat.mul_zero, Nat.add_zero, h.word, w1, w2, w3, bitsOf, Nat.zero_div, Nat.zero_mod, top, pow_zero, Nat.div_one]
  rfl

theorem segEntries_plain : segEntries bs = [⟨e % 64, decide (e / 2 ^ 8 % 2 = 1), e / 2 ^ 16, 0, 0, 0, 0, 0, 0⟩] := by
  rw [segEntries, h.nseg, ← segEntry_plain h]; rfl

theorem segStatus_plain : segStatus bs 0 = if e / 2 ^ 16 = 0 ∨ 4096 < e / 2 ^ 16 then 4 else 0 := by
  obtain ⟨c6, c9⟩ := h.clear
  have len : (segEntry bs 0).len = e / 2 ^ 16 := by rw [segEntry_plain h]
  have inside := h.inside
  simp only [segStatus, Nat.mul_zero, Nat.add_zero, h.word, len, bitsOf, show (2 : Nat) ^ 2 = 4 from rfl, c6, c9, List.range_zero,
    List.any_nil, worst]
  rw [if_neg (by simp; omega), if_neg (by simp)]
  simp [beq_eq_decide, ← Bool.decide_or]

/-- The checks of R161 of such an image, whose header passes: its SLEN alone can fail. -/
theorem imageStatus_plain {s : State} {room ncore : Nat} (pass : headerStatus bs room ncore = 0) :
    (e / 2 ^ 16 = 0 ∨ 4096 < e / 2 ^ 16 → s.imageStatus bs room ncore = (4, 0)) ∧
    (¬(e / 2 ^ 16 = 0 ∨ 4096 < e / 2 ^ 16) → s.imageStatus bs room ncore = (0, 0)) := by
  have first : firstBad (imgNseg bs) (segStatus bs) = if segStatus bs 0 = 0 then none else some (segStatus bs 0, 0) := by
    rw [h.nseg, firstBad, List.range_one, List.findSome?_cons]
    by_cases h0 : segStatus bs 0 = 0 <;> simp [h0]
  have status := segStatus_plain h
  refine ⟨fun bad => imageStatus_of_fault ?_, fun good => ?_⟩
  · rw [if_pos bad] at status
    rw [imageFault, if_neg (not_not.mpr pass), first, status]; rfl
  · rw [if_neg good] at status
    have none_ : imageFault bs room ncore = none := by
      rw [imageFault, if_neg (not_not.mpr pass), first, status]
      simp only [segEntries_plain h]; rfl
    have paths : s.pathFault bs = none := by rw [State.pathFault]; simp only [segEntries_plain h]; rfl
    rw [State.imageStatus, none_, paths]

/-- The segment of such an entry. -/
theorem imageOf_plain {n : Nat} (hn : imgNcore bs = n) :
    imageOf bs = ⟨n, [⟨e % 64, decide (e / 2 ^ 8 % 2 = 1), e / 2 ^ 16, [], [], []⟩]⟩ := by
  rw [imageOf, segEntries_plain h, hn]; rfl

end

/-! The answers of xload (R106, R161). -/

/-- The words that xload reads at an address. -/
theorem imageBytes_words (s : State) (x : Word) :
    HeaderWords (imageBytes s x) fun i => littleEndian s.c.mem (offOf x + 4 * i) 4 :=
  headerWords_readBytes _ _ _ (by split <;> omega)

/-- A word of the image within its LEN, where LEN fits. -/
theorem imageBytes_word {s : State} {x : Word} {k : Nat} (fits : offOf x + littleEndian s.c.mem (offOf x + 4 * 6) 4 ≤ 0xA0000)
    (hk : k + 4 ≤ littleEndian s.c.mem (offOf x + 4 * 6) 4) : imgWord (imageBytes s x) k = littleEndian s.c.mem (offOf x + k) 4 := by
  have len : imgLen (s.c.mem.readBytes (offOf x) 64) = littleEndian s.c.mem (offOf x + 4 * 6) 4 :=
    (header_fields (headerWords_readBytes s.c.mem (offOf x) 64 (by omega))).2.2.2
  refine imgWord_readBytes _ _ _ _ ?_
  rw [len, if_pos (by omega)]; omega

theorem xload_haltFenceEventAndImage (s : State) (d a : Reg) (hs : s.svc = true) (hx : s.inExchange = false)
    (block : RawBlock s (s.reg a) 64 64) (good : s.c.memErr = []) (idle : s.localRuns = []) :
    let off := offOf (s.reg a)
    let word (i : Nat) := littleEndian s.c.mem (off + 4 * i) 4
    let entry (i : Nat) := littleEndian s.c.mem (off + word 2 + 4 * i) 4
    let nseg := word 1 / 2 ^ 8 % 2 ^ 8
    let malformed := MalformedHeader word off
    let len := entry 0 / 2 ^ 16
    let seg : Segment := { seg := entry 0 % 64, loc := decide (entry 0 / 2 ^ 8 % 2 = 1), len := len }
    (malformed → Writes (.xload d a) s d 2) ∧
    (¬malformed → 1 ≤ nseg → nseg ≤ 64 → word 1 / 2 ^ 16 ≠ s.c.ncore.toNat → Writes (.xload d a) s d 3) ∧
    (¬malformed → nseg = 1 → word 1 / 2 ^ 16 = s.c.ncore.toNat → word 2 + 16 ≤ word 6 →
      entry 0 / 2 ^ 6 % 4 = 0 → entry 0 / 2 ^ 9 % 2 ^ 7 = 0 → (∀ i, 1 ≤ i → i < 4 → entry i = 0) →
      (len = 0 ∨ 4096 < len → Writes (.xload d a) s d 4) ∧
      (1 ≤ len → len ≤ 4096 → Leaves (.xload d a) s (({ s with p := { s.p with
        image := some { ncore := s.c.ncore.toNat, segs := [seg] } } } : State).setReg d 0))) := by
  intro off word entry nseg malformed len seg
  obtain ⟨view, range, aligned, -⟩ := block
  have words : HeaderWords (imageBytes s (s.reg a)) word := imageBytes_words s (s.reg a)
  have hoff : off ≤ 0xA0000 := by omega
  have answers : ∀ {r : Nat × Nat}, imageAnswer s (s.reg a) = r → r.1 ≠ 0 →
      exec (.xload d a) s = s.result d (BitVec.ofNat 32 (r.2 % 65536 * 65536 + r.1)) := fun hr h0 => by
    rw [xload_answers hs hx view range aligned d good idle hr, if_neg h0]
  refine ⟨fun bad => ?_, fun formed h1 h64 other => ?_, fun formed h1 same inside c6 c9 rest => ?_⟩
  · exact writes_of_result (answers (imageStatus_header s (headerStatus_malformed words hoff bad) (by decide)) (by simp)) rfl
  · have status := headerStatus_formed (ncore := s.c.ncore.toNat) words hoff formed h1 h64
    rw [if_neg other] at status
    exact writes_of_result (answers (imageStatus_header s status (by decide)) (by simp)) rfl
  · have pass := headerStatus_formed (ncore := s.c.ncore.toNat) words hoff formed (le_of_eq h1.symm) (by omega)
    rw [if_pos same] at pass
    obtain ⟨fnseg, fncore, fseg, flen⟩ := header_fields words
    have fits : off + word 6 ≤ 0xA0000 := by
      by_contra far
      exact formed (.inr (.inr (.inr (.inr (.inr (.inr (.inr (.inl (by omega)))))))))
    have plain : PlainEntry (imageBytes s (s.reg a)) (entry 0) := by
      have at_ : ∀ i, i < 4 → imgWord (imageBytes s (s.reg a)) (word 2 + 4 * i) = entry i := fun i hi =>
        (imageBytes_word fits (show word 2 + 4 * i + 4 ≤ word 6 by omega)).trans (by rw [← Nat.add_assoc])
      refine ⟨fnseg.trans h1, by rw [fseg, flen]; exact inside, ?_, fun i hi1 hi4 => ?_, littleEndian_lt .., c6, c9⟩
      · rw [fseg]; exact at_ 0 (by omega)
      · rw [fseg, at_ i hi4]; exact rest i hi1 hi4
    obtain ⟨bad, fine⟩ := imageStatus_plain (s := s) plain pass
    refine ⟨fun hl => writes_of_result (answers (bad hl) (by decide)) rfl, fun hl1 hl2 => ?_⟩
    rw [Leaves, xload_answers hs hx view range aligned d good idle (fine (by omega)), if_pos rfl, State.install,
      imageOf_plain plain (fncore.trans same)]
    rfl

theorem xload_installs (s : State) (d a : Reg) (hs : s.svc = true) (hx : s.inExchange = false) (view : viewOf (s.reg a) = 0)
    (range : offOf (s.reg a) + 64 ≤ 0xA0000) (aligned : offOf (s.reg a) % 64 = 0) (good : s.c.memErr = []) (idle : s.localRuns = []) :
    let r := imageAnswer s (s.reg a)
    (r.1 = 0 → Leaves (.xload d a) s ((s.install (imageBytes s (s.reg a))).setReg d (BitVec.ofNat 32 (r.2 % 65536 * 65536)))) ∧
    (r.1 ≠ 0 → Writes (.xload d a) s d (BitVec.ofNat 32 (r.2 % 65536 * 65536 + r.1))) := by
  intro r
  have answer := xload_answers hs hx view range aligned d good idle (r := r) rfl
  refine ⟨fun h0 => ?_, fun h0 => ?_⟩
  · rw [Leaves, answer, if_pos h0, h0, Nat.add_zero]; rfl
  · rw [Writes, answer, if_neg h0]; rfl

/-- Settles O18: each instruction by its equation outside an exchange phase; an image by its words. -/
theorem haltFenceEventAndImage : Obligations.HaltFenceEventAndImage := by
  refine ⟨halt_completes, fun s a b hx => ?_, fun s d a hs hx => ?_⟩
  · obtain ⟨idle, busy⟩ := fence_completes s hx
    refine ⟨idle, busy, fun room => ?_, fun full => ?_⟩
    · rw [Leaves, exec_evwr hx, if_neg (by omega)]; rfl
    · rw [Waits, exec_evwr hx, if_pos full]; rfl
  · have line : (s.reg a).toNat % 64 = 0 → offOf (s.reg a) % 64 = 0 := fun h => by rw [offOf]; omega
    refine ⟨fun n h => writes_of_result (exec_snap_latched hs hx d h) rfl, fun h => exec_snap_first hs hx d h,
      fun view range h good runs => xload_waits hs hx view range (line h) d good runs,
      fun w view range h errs lo hi => xload_error hs hx view range (line h) d errs lo hi,
      xload_haltFenceEventAndImage s d a hs hx, fun view range h good idle => xload_installs s d a hs hx view range (line h) good idle⟩

end Sys2Proof.Proofs

namespace Sys2Proof.Proofs
open Machine

/-! # The checks of a scalar access (R93) -/

/-- The access names no byte that there is, in the words of R93. -/
def Absent (s : State) (ea : Word) (size : Nat) : Prop :=
  let view := viewOf ea
  let off := offOf ea
  let limit := if view ≤ 6 then 0x9FFFF else if view = 8 then 0xFFFF else 0x3FFF
  view = 7 ∨ 11 ≤ view ∨ limit < off + size - 1 ∨ (view = 5 ∧ 0x9FFFF < s.c.sbase.toNat + off / 4)

theorem absent_iff (s : State) (ea : Word) (size : Nat) :
    (reservedView (viewOf ea) = true ∨ viewLimit (viewOf ea) < offOf ea + size - 1) ∨
      (viewOf ea = 5 ∧ 0x9FFFF < s.c.sbase.toNat + offOf ea / 4) ↔ Absent s ea size := by
  have reserved : reservedView (viewOf ea) = true ↔ viewOf ea = 7 ∨ 11 ≤ viewOf ea := by simp [reservedView]
  rw [reserved, Absent, viewLimit]
  by_cases h6 : viewOf ea ≤ 6
  · simp only [h6, if_true, show ¬viewOf ea = 8 by omega, show ¬(viewOf ea = 9 ∨ viewOf ea = 10) by omega, if_false]; tauto
  · by_cases h8 : viewOf ea = 8
    · simp only [h8]; tauto
    · by_cases h9 : viewOf ea = 9 ∨ viewOf ea = 10
      · simp only [h6, h8, h9, if_true, if_false]; tauto
      · have : viewOf ea = 7 ∨ 11 ≤ viewOf ea := by omega
        simp only [this, true_or, true_iff]; tauto

section
variable {s : State} {ea : Word} {size : Nat} (hx : s.inExchange = false)

theorem accessTrap_hidden (h : (viewOf ea = 9 ∨ viewOf ea = 10) ∧ s.svc = false) :
    s.accessTrap ea size = some ⟨.priv, 0, 0⟩ := if_pos h

include hx
variable (open_ : ¬((viewOf ea = 9 ∨ viewOf ea = 10) ∧ s.svc = false))
include open_

/-- The access rule once PRIV and PHASE are out of the way. -/
theorem accessTrap_open : s.accessTrap ea size =
    if (reservedView (viewOf ea) = true ∨ viewLimit (viewOf ea) < offOf ea + size - 1) ∨
      (viewOf ea = 5 ∧ 0x9FFFF < s.c.sbase.toNat + offOf ea / 4) then some ⟨.localRange, 0, ea⟩
    else if offOf ea % size ≠ 0 then some ⟨.align, 0, ea⟩
    else if viewOf ea = 8 ∧ s.allocated (offOf ea / 0x800) = false then some ⟨.accBank, 0, ea⟩
    else none := by
  rw [State.accessTrap]
  simp only [if_neg open_, hx, Bool.false_eq_true, if_false]
  by_cases h : reservedView (viewOf ea) = true ∨ viewLimit (viewOf ea) < offOf ea + size - 1
  · rw [if_pos h, if_pos (.inl h)]
  · rw [if_neg h]
    simp only [h, false_or]

theorem accessTrap_absent (h : Absent s ea size) : s.accessTrap ea size = some ⟨.localRange, 0, ea⟩ := by
  rw [accessTrap_open hx open_, if_pos ((absent_iff ..).mpr h)]

variable (there : ¬Absent s ea size)
include there

theorem accessTrap_align (h : offOf ea % size ≠ 0) : s.accessTrap ea size = some ⟨.align, 0, ea⟩ := by
  rw [accessTrap_open hx open_, if_neg (mt (absent_iff ..).mp there), if_pos h]

variable (aligned : offOf ea % size = 0)
include aligned

theorem accessTrap_bank (h8 : viewOf ea = 8) (h : s.c.accmap.getLsbD (offOf ea / 0x800) = false) :
    s.accessTrap ea size = some ⟨.accBank, 0, ea⟩ := by
  rw [accessTrap_open hx open_, if_neg (mt (absent_iff ..).mp there), if_neg (not_not.mpr aligned), if_pos ⟨h8, by rwa [allocated_eq]⟩]

theorem accessTrap_none (h : viewOf ea = 8 → s.c.accmap.getLsbD (offOf ea / 0x800) = true) : s.accessTrap ea size = none := by
  rw [accessTrap_open hx open_, if_neg (mt (absent_iff ..).mp there), if_neg (not_not.mpr aligned), if_neg]
  rintro ⟨h8, free⟩
  rw [allocated_eq, h h8] at free; cases free

end

theorem load_isAccess (s : State) (d : Reg) (ea : Word) (size : Nat) (ext : Nat → Word) :
    ∃ store k, s.load d ea size ext = s.access ea size store k := ⟨false, _, rfl⟩
theorem store_isAccess (s : State) (d : Reg) (ea : Word) (size : Nat) :
    ∃ store k, s.store d ea size = s.access ea size store k := ⟨true, _, rfl⟩

/-- Every scalar load and store is an access of its address and size. -/
theorem exec_scalarAccess {s : State} {i : Instr} {ea : Word} {size : Nat} (h : scalarAccess s i = some (ea, size)) :
    ∃ store k, exec i s = s.access ea size store k := by
  unfold scalarAccess at h
  split at h
  case h_11 => cases h
  case h_2 | h_5 | h_8 | h_10 => cases h; exact store_isAccess ..
  all_goals cases h; exact load_isAccess ..

section
variable {s : State} {ea : Word} {size : Nat} {store : Bool} {k : State → Result}

theorem access_traps (hx : s.inExchange = false) {c : Cause} {detail : Nat} {eaddr : Word}
    (h : s.accessTrap ea size = some ⟨c, detail, eaddr⟩) :
    s.access ea size store k = .next (s.enter (causeWord c detail s.ir.len) s.c.pc eaddr s.ir.eword) := by
  rw [State.access, h, State.check_some, s.raise_compute _ hx]

theorem access_waits (trap : s.accessTrap ea size = none) (h8 : viewOf ea = 8) (busy : s.bankBusy (offOf ea / 0x800) = true) :
    s.access ea size store k = s.wait := by
  rw [State.access, trap, State.check_none, if_pos ⟨h8, busy⟩]

theorem access_bad (trap : s.accessTrap ea size = none) (free : viewOf ea = 8 → s.bankBusy (offOf ea / 0x800) = false)
    (bad : s.accessBad ea size = true) : s.access ea size store k = s.eccTrap ea (if viewOf ea = 8 then 1 else 0) size := by
  rw [State.access, trap, State.check_none, if_neg, if_pos bad]
  rintro ⟨h8, busy⟩
  rw [free h8] at busy; cases busy

end

theorem any_single_bad {w off n : Nat} (lo : 8 * w < off + n) (hi : off < 8 * w + 8) :
    ([w].any fun w => decide (8 * w < off + n ∧ off < 8 * w + 8)) = true := by simp [lo, hi]

/-- The checks of R93 in their order. -/
theorem scalarAccess_traps (s : State) (i : Instr) (ea : Word) (size : Nat) (ha : scalarAccess s i = some (ea, size))
    (hx : s.inExchange = false) :
    let view := viewOf ea
    let off := offOf ea
    let absent := Absent s ea size
    let hidden := (view = 9 ∨ view = 10) ∧ s.svc = false
    (hidden → Traps i s .priv 0 0) ∧
    (¬hidden → absent → Traps i s .localRange 0 ea) ∧
    (¬hidden → ¬absent → off % size ≠ 0 → Traps i s .align 0 ea) ∧
    (¬absent → off % size = 0 → view = 8 → s.c.accmap.getLsbD (off / 0x800) = false → Traps i s .accBank 0 ea) ∧
    (¬absent → off % size = 0 → view = 8 → s.c.accmap.getLsbD (off / 0x800) = true →
      s.bankBusy (off / 0x800) = true → Waits i s) ∧
    (∀ w (view8 : Bool), ¬absent → off % size = 0 → (if view8 then view = 8 else view ≤ 6) →
      (view8 = true → s.c.accmap.getLsbD (off / 0x800) = true ∧ s.bankBusy (off / 0x800) = false) →
      (if view8 then s.c.accErr else s.c.memErr) = [w] → 8 * w < off + size → off < 8 * w + 8 →
      Completes i s ((s.logError (0x1000 + s.t.num) (if view8 then 1 else 0) (8 * w) 0).enter
        (causeWord .eccUncorr 0 s.ir.len) s.c.pc ea s.ir.eword)) := by
  intro view off absent hidden
  obtain ⟨store, k, run⟩ := exec_scalarAccess ha
  simp only [Traps, Waits, Completes, run]
  have banks : view = 8 → ¬hidden := fun h8 hid => by have := hid.1; omega
  refine ⟨fun hid => access_traps hx (accessTrap_hidden hid), fun vis h => access_traps hx (accessTrap_absent hx vis h),
    fun vis there h => access_traps hx (accessTrap_align hx vis there h),
    fun there al h8 h => access_traps hx (accessTrap_bank hx (banks h8) there al h8 h),
    fun there al h8 h busy => access_waits (accessTrap_none hx (banks h8) there al fun _ => h) h8 busy,
    fun w view8 there al hv bank errs lo hi => ?_⟩
  cases view8 with
  | true =>
    obtain ⟨allocated, free⟩ := bank rfl
    have h8 : viewOf ea = 8 := hv
    have errs : s.c.accErr = [w] := errs
    have bad : s.accessBad ea size = true := by
      rw [State.accessBad, if_neg (by omega), if_pos h8, State.accBad, errs, any_single_bad lo hi]
    rw [access_bad (accessTrap_none hx (banks h8) there al fun _ => allocated) (fun _ => free) bad, if_pos h8]
    exact eccTrap_single (mem := 1) hx rfl errs lo hi
  | false =>
    have h6 : viewOf ea ≤ 6 := hv
    have vis : ¬hidden := fun hid => by have := hid.1; omega
    have errs : s.c.memErr = [w] := errs
    have bad : s.accessBad ea size = true := by
      rw [State.accessBad, if_pos h6, State.memBad, errs, any_single_bad lo hi]
    rw [access_bad (accessTrap_none hx vis there al (by omega)) (by omega) bad, if_neg (by omega)]
    exact eccTrap_single (mem := 0) hx rfl errs lo hi

end Sys2Proof.Proofs

namespace Sys2Proof.Proofs
open Machine

/-! # The privileged windows, byte by byte (R25, R367) -/

/-! Bytes, words and bits. -/

theorem leBytes_leNat (bs : List Byte) : leBytes bs.length (leNat bs) = bs := by
  induction bs with
  | nil => rfl
  | cons b bs ih =>
    have low : BitVec.ofNat 8 (b.toNat + 256 * leNat bs) = b := by
      apply BitVec.eq_of_toNat_eq
      rw [BitVec.toNat_ofNat]; have := b.isLt; omega
    rw [leNat, List.length_cons, leBytes, low, show (b.toNat + 256 * leNat bs) / 256 = leNat bs by have := b.isLt; omega, ih]

/-- A bit of the number that bytes hold is a bit of one of them. -/
theorem testBit_leNat (bs : List Byte) (k : Nat) : (leNat bs).testBit k = (bs.getD (k / 8) 0).getLsbD (k % 8) := by
  induction bs generalizing k with
  | nil => simp [leNat]
  | cons b bs ih =>
    rw [leNat, show b.toNat + 256 * leNat bs = 2 ^ 8 * leNat bs + b.toNat by omega, Nat.testBit_two_pow_mul_add _ b.isLt]
    by_cases hk : k < 8
    · rw [if_pos hk, Nat.div_eq_of_lt hk, Nat.mod_eq_of_lt hk]; rfl
    · rw [if_neg hk, ih, show k / 8 = (k - 8) / 8 + 1 by omega, show (k - 8) % 8 = k % 8 by omega, List.getD_cons_succ]

/-- A bit of the number after one byte has been replaced. -/
theorem testBit_leNat_set (bs : List Byte) (i : Nat) (b : Byte) (k : Nat) : (leNat (bs.set i b)).testBit k =
    if k / 8 = i ∧ i < bs.length then b.getLsbD (k % 8) else (leNat bs).testBit k := by
  rw [testBit_leNat, testBit_leNat, List.getD_eq_getElem?_getD, List.getElem?_set]
  by_cases h : i = k / 8
  · subst h
    by_cases hl : k / 8 < bs.length
    · simp [hl]
    · simp [hl]
  · rw [if_neg h, if_neg (fun c => h c.1.symm), ← List.getD_eq_getElem?_getD]

theorem wordsBytes_cons (w : Word) (ws : List Word) : wordsBytes (w :: ws) = leBytes 4 w.toNat ++ wordsBytes ws := rfl

theorem wordsBytes_length (ws : List Word) : (wordsBytes ws).length = 4 * ws.length := by
  induction ws with
  | nil => rfl
  | cons w ws ih => rw [wordsBytes_cons, List.length_append, leBytes_length, ih, List.length_cons]; omega

theorem leBytes_append (m n x : Nat) : leBytes (m + n) x = leBytes m x ++ leBytes n (x / 256 ^ m) := by
  induction m generalizing x with
  | zero => simp [leBytes]
  | succ m ih =>
    rw [show m + 1 + n = m + n + 1 by omega, leBytes, leBytes, ih, Nat.div_div_eq_div_mul, ← Nat.pow_succ', List.cons_append]

/-- Only the low n bytes of a number are taken. -/
theorem leBytes_mod (n x : Nat) : leBytes n (x % 256 ^ n) = leBytes n x := by
  have h := leBytes_leNat (leBytes n x)
  rwa [leBytes_length, leNat_leBytes] at h

/-- The bytes of a register of n words are those of its words. -/
theorem leBytes_words {w : Nat} (v : BitVec w) (j n : Nat) : leBytes (4 * n) (v.toNat / 2 ^ (32 * j)) =
    wordsBytes ((List.range' j n).map fun i => v.extractLsb' (32 * i) 32) := by
  induction n generalizing j with
  | zero => rfl
  | succ n ih =>
    have low : (v.extractLsb' (32 * j) 32).toNat = v.toNat / 2 ^ (32 * j) % 256 ^ 4 := by
      rw [BitVec.extractLsb'_toNat, Nat.shiftRight_eq_div_pow]; norm_num
    have next : 2 ^ (32 * j) * 256 ^ 4 = 2 ^ (32 * (j + 1)) := by rw [Nat.mul_add, Nat.pow_add]; norm_num
    rw [show 4 * (n + 1) = 4 + 4 * n by omega, leBytes_append, List.range'_succ, List.map_cons, wordsBytes_cons, ← ih,
      Nat.div_div_eq_div_mul, next, low, leBytes_mod]

/-- A word of the bytes of some words. -/
theorem wordsBytes_word (ws : List Word) (j : Nat) (h : j < ws.length) :
    ((wordsBytes ws).drop (4 * j)).take 4 = leBytes 4 ws[j].toNat := by
  induction ws generalizing j with
  | nil => simp at h
  | cons w ws ih =>
    cases j with
    | zero => exact List.take_left' (leBytes_length ..)
    | succ j =>
      rw [wordsBytes_cons, show 4 * (j + 1) = (leBytes 4 w.toNat).length + 4 * j by rw [leBytes_length]; omega, List.drop_length_add_append]
      exact ih j (by simpa using h)

/-! Bytes replaced one after another. -/

/-- Bytes with others in the place of those from a position on. -/
def patch : List Byte → Nat → List Byte → List Byte
  | bs, _, [] => bs
  | bs, i, x :: xs => patch (bs.set i x) (i + 1) xs

theorem patch_append (front bs : List Byte) (i : Nat) (xs : List Byte) :
    patch (front ++ bs) (front.length + i) xs = front ++ patch bs i xs := by
  induction xs generalizing bs i with
  | nil => rfl
  | cons x xs ih => rw [patch, List.set_append_right _ _ (by omega), Nat.add_sub_cancel_left, Nat.add_assoc, ih]; rfl

theorem patch_whole (bs rest xs : List Byte) (h : bs.length = xs.length) : patch (bs ++ rest) 0 xs = xs ++ rest := by
  induction xs generalizing bs with
  | nil => rw [List.length_eq_zero_iff.mp h]; rfl
  | cons x xs ih =>
    obtain ⟨b, bs, rfl⟩ := List.exists_cons_of_length_eq_add_one h
    have step := patch_append [x] (bs ++ rest) 0 xs
    rw [ih bs (by simpa using h)] at step
    exact step

/-- The bytes of a word in the place of another. -/
theorem patch_words (ws : List Word) (j : Nat) (x : Word) (h : j < ws.length) :
    patch (wordsBytes ws) (4 * j) (leBytes 4 x.toNat) = wordsBytes (ws.set j x) := by
  induction ws generalizing j with
  | nil => simp at h
  | cons w ws ih =>
    cases j with
    | zero => exact patch_whole _ _ _ (by rw [leBytes_length, leBytes_length])
    | succ j =>
      have step := patch_append (leBytes 4 w.toNat) (wordsBytes ws) (4 * j) (leBytes 4 x.toNat)
      rw [leBytes_length, ih j (by simpa using h)] at step
      rw [wordsBytes_cons, show 4 * (j + 1) = 4 + 4 * j by omega, step]; rfl

/-! Where the items of the windows lie (R25). -/

/-- The view in which an item of the windows lies, the offset at which it begins, and its size. -/
def itemView : WinItem → Nat
  | .s _ | .v _ | .k _ => 9
  | _ => 10
def itemOff : WinItem → Nat
  | .s r => 4 * r.val
  | .v r => 0x100 + 64 * r.val
  | .k r => 0x900 + 8 * r.val
  | .h r => 16 * r.val
  | .parked n => 0x100 + 4 * n.val
  | .bar n => 0x1000 + 16 * n.val
  | .msg n => 0x3000 + 8 * n.val
  | .mboxPtr => 0x3100
  | .mon n => 0x3200 + 8 * n.val
def itemSize : WinItem → Nat
  | .s _ | .parked _ | .mboxPtr => 4
  | .k _ | .msg _ | .mon _ => 8
  | .h _ | .bar _ => 16
  | .v _ => 64

theorem some_item {n : Nat} (item : Fin n → WinItem) {q m k : Nat} {h : q < n} {r : Fin n} (hq : q = r.val) (hm : m = k) :
    some (item ⟨q, h⟩, m) = some (item r, k) := by subst hq hm; rfl

/-- The bytes of an item are its own. -/
theorem winItem_at (w : WinItem) (k : Nat) (hk : k < itemSize w) : winItem (itemView w) (itemOff w + k) = some (w, k) := by
  cases w with
  | s r =>
    change k < 4 at hk; change winItem 9 (4 * r.val + k) = _
    rw [winItem, if_pos rfl, dif_pos (by omega)]
    exact some_item .s (by omega) (by omega)
  | v r =>
    change k < 64 at hk; change winItem 9 (0x100 + 64 * r.val + k) = _
    rw [winItem, if_pos rfl, dif_neg (by omega), dif_pos (by omega)]
    exact some_item .v (by omega) (by omega)
  | k r =>
    change k < 8 at hk; change winItem 9 (0x900 + 8 * r.val + k) = _
    rw [winItem, if_pos rfl, dif_neg (by omega), dif_neg (by omega), dif_pos (by omega)]
    exact some_item .k (by omega) (by omega)
  | h r =>
    change k < 16 at hk; change winItem 10 (16 * r.val + k) = _
    rw [winItem, if_neg (by decide), dif_pos (by omega)]
    exact some_item .h (by omega) (by omega)
  | parked n =>
    change k < 4 at hk; change winItem 10 (0x100 + 4 * n.val + k) = _
    rw [winItem, if_neg (by decide), dif_neg (by omega), dif_pos (by omega)]
    exact some_item .parked (by omega) (by omega)
  | bar n =>
    change k < 16 at hk; change winItem 10 (0x1000 + 16 * n.val + k) = _
    rw [winItem, if_neg (by decide), dif_neg (by omega), dif_neg (by omega), dif_pos (by omega)]
    exact some_item .bar (by omega) (by omega)
  | msg n =>
    change k < 8 at hk; change winItem 10 (0x3000 + 8 * n.val + k) = _
    rw [winItem, if_neg (by decide), dif_neg (by omega), dif_neg (by omega), dif_neg (by omega), dif_pos (by omega)]
    exact some_item .msg (by omega) (by omega)
  | mboxPtr =>
    change k < 4 at hk; change winItem 10 (0x3100 + k) = _
    rw [winItem, if_neg (by decide), dif_neg (by omega), dif_neg (by omega), dif_neg (by omega), dif_neg (by omega),
      if_pos (by omega), show (0x3100 + k) % 4 = k by omega]
  | mon n =>
    change k < 8 at hk; change winItem 10 (0x3200 + 8 * n.val + k) = _
    rw [winItem, if_neg (by decide), dif_neg (by omega), dif_neg (by omega), dif_neg (by omega), dif_neg (by omega),
      if_neg (by omega), dif_pos (by omega)]
    exact some_item .mon (by omega) (by omega)

/-- Between the items of view 0xA lies nothing. -/
theorem winItem_between {off : Nat}
    (h : (0x200 ≤ off ∧ off < 0x1000) ∨ (0x3104 ≤ off ∧ off < 0x3200) ∨ (0x3240 ≤ off ∧ off < 0x4000)) :
    winItem 10 off = none := by
  rw [winItem, if_neg (by decide), dif_neg (by omega), dif_neg (by omega), dif_neg (by omega), dif_neg (by omega),
    if_neg (by omega), dif_neg (by omega)]

/-! Loads and stores through a window (R25, R367). -/

/-- The bytes of an item that a load finds. -/
theorem winBytes_item {s : State} {w : WinItem} (i n : Nat) (hn : i + n ≤ itemSize w) (hl : (s.itemBytes w).length = itemSize w) :
    (List.range n).map (fun k => s.winByte (itemView w) (itemOff w + i + k)) = ((s.itemBytes w).drop i).take n := by
  apply List.ext_getElem
  · simp only [List.length_map, List.length_range, List.length_take, List.length_drop]; omega
  · intro k h1 h2
    have hk : k < n := by simpa using h1
    have inside : i + k < (s.itemBytes w).length := by omega
    rw [List.getElem_map, List.getElem_range, State.winByte, Nat.add_assoc, winItem_at w (i + k) (by omega), List.getElem_take,
      List.getElem_drop]
    simp only [List.getElem?_eq_getElem inside, Option.getD_some]

/-- A store of one byte into an item, after a store of all of them, is a store of all with that one replaced: what an item drops
of its bytes it drops of each by itself. -/
def Absorbs (w : WinItem) : Prop := ∀ (s : State) (bs : List Byte) (i : Nat) (b : Byte), bs.length = itemSize w →
  (s.setItem w bs).setItem w (((s.setItem w bs).itemBytes w).set i b) = s.setItem w (bs.set i b)

theorem winPut_item (s : State) (w : WinItem) (i : Nat) (hi : i < itemSize w) (b : Byte) :
    s.winPut (itemView w) (itemOff w + i) b = s.setItem w ((s.itemBytes w).set i b) := by
  rw [State.winPut, winItem_at w i hi]

/-- A store after a store of all bytes of the item. -/
theorem winStore_setItem {w : WinItem} (h : Absorbs w) (s : State) (bs : List Byte) (hl : bs.length = itemSize w) (i : Nat)
    (xs : List Byte) (hi : i + xs.length ≤ itemSize w) :
    (s.setItem w bs).winStore (itemView w) (itemOff w + i) xs = s.setItem w (patch bs i xs) := by
  induction xs generalizing bs i with
  | nil => rfl
  | cons x xs ih =>
    rw [List.length_cons] at hi
    rw [State.winStore, winPut_item _ _ _ (by omega), h s bs i x hl, patch, Nat.add_assoc,
      ih (bs.set i x) (by rwa [List.length_set]) (i + 1) (by omega)]

/-- A store into an item is a store of its bytes with these in their place. -/
theorem winStore_item {w : WinItem} (h : Absorbs w) {s : State} (hl : (s.itemBytes w).length = itemSize w) (i : Nat)
    (xs : List Byte) (nonempty : 0 < xs.length) (hi : i + xs.length ≤ itemSize w) :
    s.winStore (itemView w) (itemOff w + i) xs = s.setItem w (patch (s.itemBytes w) i xs) := by
  cases xs with
  | nil => cases nonempty
  | cons x xs =>
    rw [List.length_cons] at hi
    rw [State.winStore, winPut_item _ _ _ (by omega), patch, Nat.add_assoc,
      winStore_setItem h s _ (by rwa [List.length_set]) (i + 1) xs (by omega)]

/-- What lies between the items ignores a store. -/
theorem winStore_between (s : State) (off : Nat) (xs : List Byte) (h : ∀ k < xs.length, winItem 10 (off + k) = none) :
    s.winStore 10 off xs = s := by
  induction xs generalizing off with
  | nil => rfl
  | cons x xs ih =>
    have first := h 0 (by simp)
    rw [State.winStore, State.winPut, show winItem 10 off = none from first]
    exact ih (off + 1) fun k hk => by rw [Nat.add_assoc, Nat.add_comm 1]; exact h (k + 1) (by simpa using hk)

end Sys2Proof.Proofs

namespace Sys2Proof.Proofs
open Machine

/-! # The items of the windows (R25, R367) -/

/-! The numbers that words hold. -/

theorem leNat_append (a b : List Byte) : leNat (a ++ b) = leNat a + 256 ^ a.length * leNat b := by
  induction a with
  | nil => simp [leNat]
  | cons x a ih => rw [List.cons_append, leNat, leNat, ih, List.length_cons, Nat.pow_succ]; ring

theorem leNat_wordsBytes_cons (w : Word) (ws : List Word) :
    leNat (wordsBytes (w :: ws)) = w.toNat + 2 ^ 32 * leNat (wordsBytes ws) := by
  rw [wordsBytes_cons, leNat_append, leBytes_length, leNat_leBytes, show 256 ^ 4 = 2 ^ 32 by norm_num,
    Nat.mod_eq_of_lt w.isLt]

theorem leNat_wordsBytes_one (w : Word) : leNat (wordsBytes [w]) = w.toNat := by
  rw [leNat_wordsBytes_cons]; rfl

/-- A bit of the number that words hold is a bit of one of them. -/
theorem testBit_wordsBytes (ws : List Word) (k : Nat) :
    (leNat (wordsBytes ws)).testBit k = (ws.getD (k / 32) 0).getLsbD (k % 32) := by
  induction ws generalizing k with
  | nil => simp [wordsBytes, leNat]
  | cons w ws ih =>
    rw [leNat_wordsBytes_cons, Nat.add_comm, Nat.testBit_two_pow_mul_add _ w.isLt]
    by_cases hk : k < 32
    · rw [if_pos hk, Nat.div_eq_of_lt hk, Nat.mod_eq_of_lt hk]; rfl
    · rw [if_neg hk, ih, show k / 32 = (k - 32) / 32 + 1 by omega, show (k - 32) % 32 = k % 32 by omega, List.getD_cons_succ]

/-- A field of a number, by its bits. -/
theorem ofNat_div_getLsbD (n j x k : Nat) : (BitVec.ofNat n (x / 2 ^ j)).getLsbD k = (decide (k < n) && x.testBit (j + k)) := by
  rw [BitVec.getLsbD_ofNat, Nat.testBit_div_two_pow, Nat.add_comm]

theorem ofNat_div_congr {n j x y : Nat} (h : ∀ k < n, x.testBit (j + k) = y.testBit (j + k)) :
    BitVec.ofNat n (x / 2 ^ j) = BitVec.ofNat n (y / 2 ^ j) := by
  apply BitVec.eq_of_getLsbD_eq
  intro k hk
  rw [ofNat_div_getLsbD, ofNat_div_getLsbD, h k hk]

/-- A field that lies within one word. -/
theorem ofNat_div_words (ws : List Word) {n j i p : Nat} (hp : 32 * j + i = p) (h : i + n ≤ 32) :
    BitVec.ofNat n (leNat (wordsBytes ws) / 2 ^ p) = (ws.getD j 0).extractLsb' i n := by
  apply BitVec.eq_of_getLsbD_eq
  intro k hk
  rw [ofNat_div_getLsbD, testBit_wordsBytes, BitVec.getLsbD_extractLsb', show (p + k) / 32 = j by omega,
    show (p + k) % 32 = i + k by omega]

/-- A number written as two registers side by side. -/
theorem toNat_append_add {m n : Nat} (x : BitVec m) (y : BitVec n) : (x ++ y).toNat = x.toNat * 2 ^ n + y.toNat := by
  rw [BitVec.toNat_append, ← Nat.shiftLeft_add_eq_or_of_lt y.isLt, Nat.shiftLeft_eq]

theorem toNat_zero_literal (n : Nat) : (0 : BitVec n).toNat = 0 := BitVec.toNat_zero

/-- A field of a register, as a number. -/
theorem extractLsb'_eq_of_toNat {m n : Nat} {v : BitVec m} {f : BitVec n} {i : Nat} (h : v.toNat / 2 ^ i % 2 ^ n = f.toNat) :
    v.extractLsb' i n = f := by
  apply BitVec.eq_of_toNat_eq
  rw [BitVec.extractLsb'_toNat, Nat.shiftRight_eq_div_pow, h]

theorem bitsOf_one (x i : Nat) : (bitsOf x i 1 == 1) = x.testBit i := by
  rw [bitsOf, Nat.testBit_eq_decide_div_mod_eq, pow_one, beq_eq_decide]

/-! Replaced bytes. -/

/-- What is read of the number that bytes hold changes alike where the same byte is replaced. -/
def Stable {α : Type} (f : Nat → α) : Prop := ∀ (xs ys : List Byte) (i : Nat) (b : Byte), xs.length = ys.length →
  f (leNat xs) = f (leNat ys) → f (leNat (xs.set i b)) = f (leNat (ys.set i b))

theorem stable_masked {n j : Nat} (mask : BitVec n) : Stable fun x => BitVec.ofNat n (x / 2 ^ j) &&& mask := by
  intro xs ys i b hl h
  apply BitVec.eq_of_getLsbD_eq
  intro k hk
  have bit := congrArg (·.getLsbD k) h
  simp only [BitVec.getLsbD_and, ofNat_div_getLsbD] at bit ⊢
  rw [testBit_leNat_set, testBit_leNat_set, hl]
  split
  · rfl
  · exact bit

theorem stable_field (n j : Nat) : Stable fun x => BitVec.ofNat n (x / 2 ^ j) := by
  have masked := stable_masked (j := j) (BitVec.allOnes n)
  simpa only [BitVec.and_allOnes] using masked

/-- A field at the foot of a number. -/
theorem ofNat_eq_div (n x : Nat) : BitVec.ofNat n x = BitVec.ofNat n (x / 2 ^ 0) := by rw [pow_zero, Nat.div_one]

theorem stable_foot (n : Nat) : Stable (BitVec.ofNat n) := by
  have foot := stable_field n 0
  simpa only [pow_zero, Nat.div_one] using foot

theorem stable_bit (j : Nat) : Stable fun x => bitsOf x j 1 == 1 := by
  intro xs ys i b hl h
  simp only [bitsOf_one] at h ⊢
  rw [testBit_leNat_set, testBit_leNat_set, hl, h]

/-- Bytes of one length that hold one number are the same. -/
theorem eq_of_leNat_eq {xs ys : List Byte} (hl : xs.length = ys.length) (h : leNat xs = leNat ys) : xs = ys := by
  rw [← leBytes_leNat xs, ← leBytes_leNat ys, hl, h]

/-- Every item but a monitor is a list of words. -/
def isWords : WinItem → Bool
  | .mon _ => false
  | _ => true

/-- The bytes of a register of n words. -/
theorem leBytes_eq_words {w : Nat} (v : BitVec w) (n : Nat) :
    leBytes (4 * n) v.toNat = wordsBytes ((List.range' 0 n).map fun i => v.extractLsb' (32 * i) 32) := by
  rw [← leBytes_words, Nat.mul_zero, pow_zero, Nat.div_one]

/-- The bytes of the items, as words. -/
def itemWords (s : State) : WinItem → List Word
  | .s r => [s.reg r]
  | .v r => (List.range' 0 16).map fun i => (s.vreg r).extractLsb' (32 * i) 32
  | .k r => (List.range' 0 2).map fun i => (s.kreg r).extractLsb' (32 * i) 32
  | .h r => (s.handle r).toWords
  | .parked n => [s.c.parked[n].toWord]
  | .bar n => (s.barrier n).toWords
  | .msg n => (List.range' 0 2).map fun i => s.c.mbox[n].extractLsb' (32 * i) 32
  | .mboxPtr => [(0 : BitVec 16) ++ s.c.mboxCount.zeroExtend 8 ++ s.c.mboxHead.zeroExtend 8]
  | .mon _ => []

theorem itemBytes_words (s : State) {w : WinItem} (h : isWords w = true) : s.itemBytes w = wordsBytes (itemWords s w) := by
  cases w with
  | s r => exact (List.append_nil _).symm
  | v r => exact leBytes_eq_words (s.vreg r) 16
  | k r => exact leBytes_eq_words (s.kreg r) 2
  | h r => rfl
  | parked n => exact (List.append_nil _).symm
  | bar n => rfl
  | msg n => exact leBytes_eq_words s.c.mbox[n] 2
  | mboxPtr =>
    refine eq_of_leNat_eq rfl ?_
    rw [itemWords, leNat_wordsBytes_one, toNat_append_add, toNat_append_add]
    simp only [State.itemBytes, leNat, toNat_zero_literal, BitVec.toNat_setWidth]; omega
  | mon n => cases h

theorem itemWords_length (s : State) {w : WinItem} (h : isWords w = true) : 4 * (itemWords s w).length = itemSize w := by
  cases w with
  | mon n => cases h
  | _ => rfl

theorem itemBytes_length (s : State) {w : WinItem} (h : isWords w = true) : (s.itemBytes w).length = itemSize w := by
  rw [itemBytes_words s h, wordsBytes_length, itemWords_length s h]

/-! What a store of all bytes of an item makes of it. -/

/-- The item is written with what f reads of its bytes, and its own bytes then hold just that. -/
structure Keeping {α : Type} (w : WinItem) (f : Nat → α) (put : State → α → State) : Prop where
  words : isWords w = true
  raw : ∀ (s : State) (bs : List Byte), s.setItem w bs = put s (f (leNat bs))
  again : ∀ (s : State) (x y : α), put (put s x) y = put s y
  kept : ∀ (s : State) (x : Nat), f (leNat ((put s (f x)).itemBytes w)) = f x
  stable : Stable f

theorem Keeping.absorbs {α : Type} {w : WinItem} {f : Nat → α} {put : State → α → State} (h : Keeping w f put) : Absorbs w := by
  intro s bs i b hl
  rw [h.raw, h.raw, h.raw, h.again, h.stable _ bs i b (by rw [itemBytes_length _ h.words, hl]) (h.kept s (leNat bs))]

/-- The number of a register of n bytes reads back. -/
theorem ofNat_leNat_leBytes {m n : Nat} (h : m = 8 * n) (v : BitVec m) : BitVec.ofNat m (leNat (leBytes n v.toNat)) = v := by
  have e : 256 ^ n = 2 ^ m := by rw [h, Nat.pow_mul]
  rw [leNat_leBytes, e, Nat.mod_eq_of_lt v.isLt, BitVec.ofNat_toNat, BitVec.setWidth_eq]

theorem setReg_setReg (s : State) (r : Reg) (x y : Word) : (s.setReg r x).setReg r y = s.setReg r y := by
  unfold State.setReg; split <;> simp
theorem setK_setK (s : State) (r : KReg) (x y : DWord) : (s.setK r x).setK r y = s.setK r y := by
  unfold State.setK; split <;> simp
theorem setV_setV (s : State) (r : Reg) (x y : VWord) : (s.setV r x).setV r y = s.setV r y := by simp [State.setV]
theorem setHandle_setHandle (s : State) (r : HReg) (x y : Handle) : (s.setHandle r x).setHandle r y = s.setHandle r y := by
  simp [State.setHandle]
theorem setBarrier_setBarrier (s : State) (r : BarName) (x y : Barrier) : (s.setBarrier r x).setBarrier r y = s.setBarrier r y := by
  simp [State.setBarrier]

theorem keeping_s {r : Reg} (h : r ≠ 0) : Keeping (.s r) (BitVec.ofNat 32) (fun s x => s.setReg r x) where
  words := rfl
  raw _ _ := rfl
  again s := setReg_setReg s r
  kept s x := by
    have read : (s.setReg r (BitVec.ofNat 32 x)).reg r = BitVec.ofNat 32 x := by rw [State.reg_setReg, if_pos ⟨rfl, h⟩]
    simp only [State.itemBytes, read]
    exact ofNat_leNat_leBytes rfl _
  stable := stable_foot 32

theorem absorbs_s (r : Reg) : Absorbs (.s r) := by
  by_cases h0 : r = 0
  · subst h0; exact fun _ _ _ _ _ => rfl
  · exact (keeping_s h0).absorbs

theorem keeping_k {r : KReg} (h : r ≠ 0) : Keeping (.k r) (BitVec.ofNat 64) (fun s x => s.setK r x) where
  words := rfl
  raw _ _ := rfl
  again s := setK_setK s r
  kept s x := by
    have read : (s.setK r (BitVec.ofNat 64 x)).kreg r = BitVec.ofNat 64 x := by simp [State.kreg, State.setK, h]
    simp only [State.itemBytes, read]
    exact ofNat_leNat_leBytes rfl _
  stable := stable_foot 64

theorem absorbs_k (r : KReg) : Absorbs (.k r) := by
  by_cases h0 : r = 0
  · subst h0; exact fun _ _ _ _ _ => rfl
  · exact (keeping_k h0).absorbs

theorem keeping_v (r : Reg) : Keeping (.v r) (BitVec.ofNat 512) (fun s x => s.setV r x) where
  words := rfl
  raw _ _ := rfl
  again s := setV_setV s r
  kept s x := by
    have read : (s.setV r (BitVec.ofNat 512 x)).vreg r = BitVec.ofNat 512 x := by simp [State.vreg, State.setV]
    rw [State.itemBytes, read, ofNat_leNat_leBytes (n := 64) rfl]
  stable := stable_foot 512

/-- A message of the mailbox ring, a parked entry and the mailbox's pointers, written. -/
def setMessage (n : Fin 32) (s : State) (x : DWord) : State := { s with c := { s.c with mbox := s.c.mbox.set n x } }
def setParked (n : Fin 64) (s : State) (e : Parked) : State := { s with c := { s.c with parked := s.c.parked.set n e } }
def setPointers (s : State) (p : BitVec 5 × BitVec 6) : State := { s with c := { s.c with mboxHead := p.1, mboxCount := p.2 } }

theorem keeping_msg (n : Fin 32) : Keeping (.msg n) (BitVec.ofNat 64) (setMessage n) where
  words := rfl
  raw _ _ := rfl
  again s x y := by simp [setMessage]
  kept s x := by
    have read : (setMessage n s (BitVec.ofNat 64 x)).c.mbox[n] = BitVec.ofNat 64 x := by simp [setMessage]
    simp only [State.itemBytes, read]
    exact ofNat_leNat_leBytes rfl _
  stable := stable_foot 64

/-! The fields of handles, parked entries, mailbox pointers and barriers, in the number of their bytes. -/

def handleOf (x : Nat) : Handle :=
  { base := BitVec.ofNat 32 x, size := BitVec.ofNat 32 (x / 2 ^ 32), count := BitVec.ofNat 32 (x / 2 ^ 64),
    head := BitVec.ofNat 16 (x / 2 ^ 96), tail := BitVec.ofNat 16 (x / 2 ^ 112) }
def parkedOf (x : Nat) : Parked :=
  { v := bitsOf x 7 1 == 1, bank := BitVec.ofNat 5 x, slot := BitVec.ofNat 5 (x / 2 ^ 8) }
def pointersOf (x : Nat) : BitVec 5 × BitVec 6 := (BitVec.ofNat 5 x, BitVec.ofNat 6 (x / 2 ^ 8))
def sourceOf (x : Nat) : BitVec 2 := if bitsOf x 17 2 = 3 then 0 else BitVec.ofNat 2 (x / 2 ^ 17)
def barrierOf (x : Nat) : Barrier :=
  { expa := BitVec.ofNat 8 x, pena := BitVec.ofNat 8 (x / 2 ^ 8), ph := bitsOf x 16 1 == 1, src := sourceOf x
    expb := BitVec.ofNat 24 (x / 2 ^ 32), penb := BitVec.ofNat 24 (x / 2 ^ 64)
    status := BitVec.ofNat 32 (x / 2 ^ 96) &&& 0x03FFFF3F }

theorem sourceOf_eq (x : Nat) : sourceOf x = if BitVec.ofNat 2 (x / 2 ^ 17) = 3 then 0 else BitVec.ofNat 2 (x / 2 ^ 17) := by
  have three : bitsOf x 17 2 = 3 ↔ BitVec.ofNat 2 (x / 2 ^ 17) = 3 := by
    rw [← BitVec.toNat_inj, BitVec.toNat_ofNat, bitsOf]; rfl
  simp only [sourceOf, three]

theorem sourceOf_ne_three (x : Nat) : sourceOf x ≠ 3 := by
  rw [sourceOf_eq]
  split
  · decide
  · assumption

theorem stable_handle : Stable handleOf := by
  intro xs ys i b hl h
  simp only [handleOf, Handle.mk.injEq] at h ⊢
  obtain ⟨base, size, count, head, tail⟩ := h
  exact ⟨stable_foot 32 _ _ i b hl base, stable_field 32 32 _ _ i b hl size, stable_field 32 64 _ _ i b hl count,
    stable_field 16 96 _ _ i b hl head, stable_field 16 112 _ _ i b hl tail⟩

theorem stable_parked : Stable parkedOf := by
  intro xs ys i b hl h
  simp only [parkedOf, Parked.mk.injEq] at h ⊢
  obtain ⟨v, bank, slot⟩ := h
  exact ⟨stable_bit 7 _ _ i b hl v, stable_foot 5 _ _ i b hl bank, stable_field 5 8 _ _ i b hl slot⟩

theorem stable_pointers : Stable pointersOf := by
  intro xs ys i b hl h
  simp only [pointersOf, Prod.mk.injEq] at h ⊢
  obtain ⟨head, count⟩ := h
  exact ⟨stable_foot 5 _ _ i b hl head, stable_field 6 8 _ _ i b hl count⟩

/-- SRC lies within one byte of its word: that byte is replaced as a whole or not at all. -/
theorem stable_source : Stable sourceOf := by
  intro xs ys i b hl h
  have field : ∀ bs : List Byte, (i = 2 ∧ i < bs.length → BitVec.ofNat 2 (leNat (bs.set i b) / 2 ^ 17) = b.extractLsb' 1 2) ∧
      (¬(i = 2 ∧ i < bs.length) → BitVec.ofNat 2 (leNat (bs.set i b) / 2 ^ 17) = BitVec.ofNat 2 (leNat bs / 2 ^ 17)) := by
    refine fun bs => ⟨fun hit => BitVec.eq_of_getLsbD_eq fun k hk => ?_, fun miss => ofNat_div_congr fun k hk => ?_⟩
    · rw [ofNat_div_getLsbD, testBit_leNat_set, if_pos (by omega), BitVec.getLsbD_extractLsb', show (17 + k) % 8 = 1 + k by omega]
    · rw [testBit_leNat_set, if_neg (by omega)]
  by_cases hit : i = 2 ∧ i < xs.length
  · rw [sourceOf_eq, sourceOf_eq, (field xs).1 hit, (field ys).1 (hl ▸ hit)]
  · rw [sourceOf_eq, sourceOf_eq (leNat (ys.set i b)), (field xs).2 hit, (field ys).2 (hl ▸ hit), ← sourceOf_eq, ← sourceOf_eq, h]

theorem stable_barrier : Stable barrierOf := by
  intro xs ys i b hl h
  simp only [barrierOf, Barrier.mk.injEq] at h ⊢
  obtain ⟨expa, pena, ph, src, expb, penb, status⟩ := h
  exact ⟨stable_foot 8 _ _ i b hl expa, stable_field 8 8 _ _ i b hl pena, stable_bit 16 _ _ i b hl ph, stable_source _ _ i b hl src,
    stable_field 24 32 _ _ i b hl expb, stable_field 24 64 _ _ i b hl penb, stable_masked _ _ _ i b hl status⟩

/-! The same fields in the words. -/

theorem handleOf_words (w0 w1 w2 w3 : Word) : handleOf (leNat (wordsBytes [w0, w1, w2, w3])) =
    { base := w0, size := w1, count := w2, head := w3.extractLsb' 0 16, tail := w3.extractLsb' 16 16 } := by
  have whole : ∀ w : Word, w.extractLsb' 0 32 = w := fun w => BitVec.extractLsb'_eq_self
  rw [handleOf, ofNat_eq_div 32, ofNat_div_words (j := 0) (i := 0) _ rfl (by omega), ofNat_div_words (j := 1) (i := 0) _ rfl (by omega),
    ofNat_div_words (j := 2) (i := 0) _ rfl (by omega), ofNat_div_words (j := 3) (i := 0) _ rfl (by omega),
    ofNat_div_words (j := 3) (i := 16) _ rfl (by omega)]
  simp only [List.getD_cons_zero, List.getD_cons_succ, whole]

theorem parkedOf_word (w : Word) : parkedOf (leNat (wordsBytes [w])) =
    { v := w.getLsbD 7, bank := w.extractLsb' 0 5, slot := w.extractLsb' 8 5 } := by
  rw [parkedOf, bitsOf_one, testBit_wordsBytes, ofNat_eq_div 5, ofNat_div_words (j := 0) (i := 0) _ rfl (by omega),
    ofNat_div_words (j := 0) (i := 8) _ rfl (by omega)]
  rfl

theorem pointersOf_word (w : Word) : pointersOf (leNat (wordsBytes [w])) = (w.extractLsb' 0 5, w.extractLsb' 8 6) := by
  rw [pointersOf, ofNat_eq_div 5, ofNat_div_words (j := 0) (i := 0) _ rfl (by omega),
    ofNat_div_words (j := 0) (i := 8) _ rfl (by omega)]
  rfl

theorem barrierOf_words (w0 w1 w2 w3 : Word) : barrierOf (leNat (wordsBytes [w0, w1, w2, w3])) =
    { expa := w0.extractLsb' 0 8, pena := w0.extractLsb' 8 8, ph := w0.getLsbD 16
      src := if w0.extractLsb' 17 2 = 3 then 0 else w0.extractLsb' 17 2
      expb := w1.extractLsb' 0 24, penb := w2.extractLsb' 0 24, status := w3 &&& 0x03FFFF3F } := by
  have source : sourceOf (leNat (wordsBytes [w0, w1, w2, w3])) = if w0.extractLsb' 17 2 = 3 then 0 else w0.extractLsb' 17 2 := by
    have field : BitVec.ofNat 2 (leNat (wordsBytes [w0, w1, w2, w3]) / 2 ^ 17) = w0.extractLsb' 17 2 :=
      ofNat_div_words (j := 0) (i := 17) _ rfl (by omega)
    rw [sourceOf_eq, field]
  have whole : w3.extractLsb' 0 32 = w3 := BitVec.extractLsb'_eq_self
  rw [barrierOf, bitsOf_one, testBit_wordsBytes, source, ofNat_eq_div 8, ofNat_div_words (j := 0) (i := 0) _ rfl (by omega),
    ofNat_div_words (j := 0) (i := 8) _ rfl (by omega), ofNat_div_words (j := 1) (i := 0) _ rfl (by omega),
    ofNat_div_words (j := 2) (i := 0) _ rfl (by omega), ofNat_div_words (j := 3) (i := 0) _ rfl (by omega)]
  simp only [List.getD_cons_zero, List.getD_cons_succ, whole]
  rfl

/-! The words as numbers. -/

theorem toNat_ofBool (b : Bool) : (BitVec.ofBool b).toNat = if b then 1 else 0 := by cases b <;> rfl

theorem parked_toWord_toNat (p : Parked) :
    p.toWord.toNat = p.bank.toNat + (if p.v then 128 else 0) + 256 * p.slot.toNat := by
  simp only [Parked.toWord, toNat_append_add, toNat_ofBool, toNat_zero_literal]
  split <;> omega

theorem barrier_word0_toNat (b : Barrier) :
    b.word0.toNat = b.expa.toNat + 2 ^ 8 * b.pena.toNat + (if b.ph then 2 ^ 16 else 0) + 2 ^ 17 * b.src.toNat := by
  simp only [Barrier.word0, toNat_append_add, toNat_ofBool, toNat_zero_literal]
  split <;> omega

theorem handle_word3_toNat (g : Handle) : (g.tail ++ g.head).toNat = g.head.toNat + 2 ^ 16 * g.tail.toNat := by
  rw [toNat_append_add]; omega

theorem pointers_word_toNat (h : BitVec 5) (n : BitVec 6) :
    ((0 : BitVec 16) ++ n.zeroExtend 8 ++ h.zeroExtend 8).toNat = h.toNat + 2 ^ 8 * n.toNat := by
  have := h.isLt
  have := n.isLt
  simp only [toNat_append_add, BitVec.toNat_setWidth, toNat_zero_literal]; omega

/-! What the fields of an object's own words are. -/

theorem parkedOf_toWord (p : Parked) : parkedOf (leNat (wordsBytes [p.toWord])) = p := by
  have := p.bank.isLt
  have := p.slot.isLt
  have n := parked_toWord_toNat p
  have bank : p.toWord.extractLsb' 0 5 = p.bank := extractLsb'_eq_of_toNat (by rw [n]; split <;> omega)
  have slot : p.toWord.extractLsb' 8 5 = p.slot := extractLsb'_eq_of_toNat (by rw [n]; split <;> omega)
  have v : p.toWord.getLsbD 7 = p.v := by
    rw [BitVec.getLsbD, n, Nat.testBit_eq_decide_div_mod_eq]
    cases p.v <;> simp <;> omega
  rw [parkedOf_word, bank, slot, v]

theorem barrier_word0_fields (b : Barrier) : b.word0.extractLsb' 0 8 = b.expa ∧ b.word0.extractLsb' 8 8 = b.pena ∧
    b.word0.getLsbD 16 = b.ph ∧ b.word0.extractLsb' 17 2 = b.src := by
  have := b.expa.isLt
  have := b.pena.isLt
  have := b.src.isLt
  have n := barrier_word0_toNat b
  refine ⟨extractLsb'_eq_of_toNat (by rw [n]; split <;> omega), extractLsb'_eq_of_toNat (by rw [n]; split <;> omega), ?_,
    extractLsb'_eq_of_toNat (by rw [n]; split <;> omega)⟩
  rw [BitVec.getLsbD, n, Nat.testBit_eq_decide_div_mod_eq]
  cases b.ph <;> simp <;> omega

theorem byteCount_field (x : BitVec 24) : ((0 : Byte) ++ x).extractLsb' 0 24 = x := by
  have := x.isLt
  exact extractLsb'_eq_of_toNat (by rw [toNat_append_add, toNat_zero_literal]; omega)

/-- A barrier that the window can hold reads back from its own words. -/
theorem barrierOf_toWords {b : Barrier} (source : b.src ≠ 3) (clean : b.status &&& 0x03FFFF3F = b.status) :
    barrierOf (leNat (wordsBytes b.toWords)) = b := by
  obtain ⟨expa, pena, ph, src⟩ := barrier_word0_fields b
  rw [Barrier.toWords, barrierOf_words, expa, pena, ph, src, if_neg source, byteCount_field, byteCount_field, clean]

theorem handle_word3_fields (g : Handle) :
    (g.tail ++ g.head).extractLsb' 0 16 = g.head ∧ (g.tail ++ g.head).extractLsb' 16 16 = g.tail := by
  have := g.head.isLt
  have := g.tail.isLt
  have n := handle_word3_toNat g
  exact ⟨extractLsb'_eq_of_toNat (by rw [n]; omega), extractLsb'_eq_of_toNat (by rw [n]; omega)⟩

theorem handleOf_toWords (g : Handle) : handleOf (leNat (wordsBytes g.toWords)) = g := by
  obtain ⟨head, tail⟩ := handle_word3_fields g
  rw [Handle.toWords, handleOf_words, head, tail]

theorem pointersOf_toWord (h : BitVec 5) (n : BitVec 6) :
    pointersOf (leNat (wordsBytes [(0 : BitVec 16) ++ n.zeroExtend 8 ++ h.zeroExtend 8])) = (h, n) := by
  have := h.isLt
  have := n.isLt
  have e := pointers_word_toNat h n
  rw [pointersOf_word, extractLsb'_eq_of_toNat (f := h) (by rw [e]; omega), extractLsb'_eq_of_toNat (f := n) (by rw [e]; omega)]

/-! One word of a handle or of a barrier replaced. -/

theorem handleOf_set (g : Handle) (x : Word) :
    handleOf (leNat (wordsBytes (g.toWords.set 0 x))) = { g with base := x } ∧
    handleOf (leNat (wordsBytes (g.toWords.set 1 x))) = { g with size := x } ∧
    handleOf (leNat (wordsBytes (g.toWords.set 2 x))) = { g with count := x } ∧
    handleOf (leNat (wordsBytes (g.toWords.set 3 x))) = { g with head := x.extractLsb' 0 16, tail := x.extractLsb' 16 16 } := by
  obtain ⟨head, tail⟩ := handle_word3_fields g
  simp only [Handle.toWords, List.set_cons_zero, List.set_cons_succ, handleOf_words, head, tail, and_self]

theorem barrierOf_set (b : Barrier) (x : Word) :
    (b.status &&& 0x03FFFF3F = b.status → barrierOf (leNat (wordsBytes (b.toWords.set 0 x))) = { b with
      expa := x.extractLsb' 0 8, pena := x.extractLsb' 8 8, ph := x.getLsbD 16
      src := if x.extractLsb' 17 2 = 3 then 0 else x.extractLsb' 17 2 }) ∧
    (b.src ≠ 3 → b.status &&& 0x03FFFF3F = b.status →
      barrierOf (leNat (wordsBytes (b.toWords.set 1 x))) = { b with expb := x.extractLsb' 0 24 } ∧
      barrierOf (leNat (wordsBytes (b.toWords.set 2 x))) = { b with penb := x.extractLsb' 0 24 }) ∧
    (b.src ≠ 3 → barrierOf (leNat (wordsBytes (b.toWords.set 3 x))) = { b with status := x &&& 0x03FFFF3F }) := by
  obtain ⟨expa, pena, ph, src⟩ := barrier_word0_fields b
  simp only [Barrier.toWords, List.set_cons_zero, List.set_cons_succ, barrierOf_words, byteCount_field, expa, pena, ph, src]
  refine ⟨fun clean => by rw [clean], fun source clean => ⟨by rw [if_neg source, clean], by rw [if_neg source, clean]⟩,
    fun source => by rw [if_neg source]⟩

/-! These items keep their fields. -/

theorem keeping_h (r : HReg) : Keeping (.h r) handleOf (fun s g => s.setHandle r g) where
  words := rfl
  raw _ _ := rfl
  again s := setHandle_setHandle s r
  kept s x := by
    have read : (s.setHandle r (handleOf x)).handle r = handleOf x := by simp [State.handle, State.setHandle]
    rw [State.itemBytes, read, handleOf_toWords]
  stable := stable_handle

theorem keeping_parked (n : Fin 64) : Keeping (.parked n) parkedOf (setParked n) where
  words := rfl
  raw _ _ := rfl
  again s x y := by simp [setParked]
  kept s x := by
    have read : (setParked n s (parkedOf x)).c.parked[n] = parkedOf x := by simp [setParked]
    rw [itemBytes_words _ rfl, itemWords, read, parkedOf_toWord]
  stable := stable_parked

theorem keeping_mboxPtr : Keeping .mboxPtr pointersOf setPointers where
  words := rfl
  raw _ _ := rfl
  again _ _ _ := rfl
  kept s x := by rw [itemBytes_words _ rfl, itemWords, pointersOf_toWord]; rfl
  stable := stable_pointers

theorem keeping_bar (n : BarName) : Keeping (.bar n) barrierOf (fun s b => s.setBarrier n b) where
  words := rfl
  raw _ _ := rfl
  again s := setBarrier_setBarrier s n
  kept s x := by
    have read : (s.setBarrier n (barrierOf x)).barrier n = barrierOf x := by simp [State.barrier, State.setBarrier]
    have clean : (barrierOf x).status &&& 0x03FFFF3F = (barrierOf x).status := by
      rw [barrierOf, BitVec.and_assoc, BitVec.and_self]
    rw [State.itemBytes, read, barrierOf_toWords (sourceOf_ne_three x) clean]
  stable := stable_barrier

end Sys2Proof.Proofs

namespace Sys2Proof.Proofs
open Machine

/-! # Accesses through the windows of S mode (R25, R367) -/

/-- The view and the offset of an address. -/
theorem view_off {n view off : Nat} (hn : n = 2 ^ 28 * view + off) (hv : view < 16) (ho : off < 2 ^ 28) :
    viewOf (BitVec.ofNat 32 n) = view ∧ offOf (BitVec.ofNat 32 n) = off := by
  rw [viewOf, offOf, BitVec.toNat_ofNat]; omega

/-- The address names size bytes of a window. -/
structure WindowAccess (ea : Word) (view off size : Nat) : Prop where
  view_eq : viewOf ea = view
  window : view = 9 ∨ view = 10
  off_eq : offOf ea = off
  range : off + size ≤ 0x4000
  aligned : off % size = 0

section
variable {s : State} {ea : Word} {view off size : Nat} (h : WindowAccess ea view off size) (svc : s.svc = true)
  (hx : s.inExchange = false) (store : Bool) (k : State → Result)
include h svc hx

theorem WindowAccess.trap : s.accessTrap ea size = none := by
  obtain ⟨rfl, window, rfl, range, aligned⟩ := h
  refine accessTrap_none hx (fun hidden => by rw [svc] at hidden; cases hidden.2) ?_ aligned (by omega)
  simp only [Absent, if_neg (show ¬viewOf ea ≤ 6 by omega), if_neg (show ¬viewOf ea = 8 by omega)]
  omega

/-- An access of a window passes its checks. -/
theorem access_window (idle : store = true → s.winWaits view off size = false) : s.access ea size store k = k s := by
  have trap := h.trap svc hx
  obtain ⟨rfl, window, rfl, range, aligned⟩ := h
  refine access_ok trap (by omega) ?_ idle
  rw [State.accessBad, if_neg (by omega), if_neg (by omega)]

theorem access_window_waits (busy : s.winWaits view off size = true) : s.access ea size true k = s.wait := by
  have trap := h.trap svc hx
  obtain ⟨rfl, window, rfl, range, aligned⟩ := h
  have good : s.accessBad ea size = false := by rw [State.accessBad, if_neg (by omega), if_neg (by omega)]
  rw [State.access, trap, State.check_none, if_neg (by omega), good, if_neg (by simp), if_pos ⟨rfl, busy⟩]

end

theorem loadBytes_window {ea : Word} {view off size : Nat} (h : WindowAccess ea view off size) (s : State) :
    s.loadBytes ea size = (List.range size).map fun k => s.winByte view (off + k) := by
  obtain ⟨rfl, window, rfl, range, aligned⟩ := h
  rw [State.loadBytes, if_neg (by omega), if_neg (by omega)]

theorem storeBytes_window {ea : Word} {view off size : Nat} (h : WindowAccess ea view off size) (s : State) (bs : List Byte) :
    s.storeBytes ea bs = s.winStore view off bs := by
  obtain ⟨rfl, window, rfl, range, aligned⟩ := h
  rw [State.storeBytes, if_neg (by omega), if_neg (by omega)]

/-! Where the items lie in their view. -/

theorem itemView_window (w : WinItem) : itemView w = 9 ∨ itemView w = 10 := by
  cases w <;> simp [itemView]

theorem item_range (w : WinItem) : itemOff w + itemSize w ≤ 0x4000 := by
  cases w <;> simp only [itemOff, itemSize] <;> omega

theorem itemOff_aligned (w : WinItem) : itemOff w % 4 = 0 := by
  cases w <;> simp only [itemOff] <;> omega

/-- A store of a word that lies in a handle waits for it; one that lies past the handles waits for none. -/
theorem winWaits_handle (s : State) (h : HReg) {i : Nat} (hi : i + 4 ≤ 16) :
    s.winWaits 10 (16 * h.val + i) 4 = s.handleBusy h := by
  have touched : ∀ g : HReg, (16 * g.val < 16 * h.val + i + 4 ∧ 16 * h.val + i < 16 * g.val + 16) ↔ g = h := fun g => by
    rw [Fin.ext_iff]; omega
  simp only [State.winWaits, touched]
  rw [Bool.eq_iff_iff]
  simp

theorem winWaits_past_handles (s : State) {view off : Nat} (h : view = 10 → 0x100 ≤ off) (n : Nat) : s.winWaits view off n = false := by
  by_cases hv : view = 10
  · have past := h hv
    have untouched : ∀ g : HReg, ¬(16 * g.val < off + n ∧ off < 16 * g.val + 16) := fun g => by omega
    simp [State.winWaits, untouched]
  · exact winWaits_other hv ..

section
variable {s : State} {d a : Reg} {imm : BitVec 26} (svc : s.svc = true) (hx : s.inExchange = false) {n : Nat}
  (at_ : s.eaImm a imm = BitVec.ofNat 32 n)

/-! A word of an item. -/

section
variable {w : WinItem} {j : Nat} (hw : isWords w = true)
include hw

theorem wordAccess {x : Word} (hn : n = 2 ^ 28 * itemView w + (itemOff w + 4 * j)) (hx : (itemWords s w)[j]? = some x) :
    WindowAccess (BitVec.ofNat 32 n) (itemView w) (itemOff w + 4 * j) 4 ∧ 4 * j + 4 ≤ itemSize w := by
  obtain ⟨hj, -⟩ := List.getElem?_eq_some_iff.mp hx
  have size := itemWords_length s hw
  have range := item_range w
  have al := itemOff_aligned w
  have window := itemView_window w
  obtain ⟨hv, ho⟩ := view_off hn (by omega) (by omega)
  exact ⟨⟨hv, window, ho, by omega, by omega⟩, by omega⟩

include svc hx at_

/-- A load of a word of an item. -/
theorem ldW_item {x : Word} (word : (itemWords s w)[j]? = some x) (hn : n = 2 ^ 28 * itemView w + (itemOff w + 4 * j)) :
    Writes (.ldW d a imm) s d x := by
  obtain ⟨win, fits⟩ := wordAccess hw hn word
  obtain ⟨hj, rfl⟩ := List.getElem?_eq_some_iff.mp word
  refine writes_of_result (x := extZ (leNat (s.loadBytes (s.eaImm a imm) 4))) ?_ ?_
  · rw [exec_ldW, at_]
    exact access_window win svc hx _ _ (by simp)
  · rw [at_, loadBytes_window win, winBytes_item _ _ fits (itemBytes_length s hw), itemBytes_words s hw, wordsBytes_word _ _ hj]
    exact ofNat_leNat_leBytes rfl _

/-- A store of a word of an item, where no engine holds it. -/
theorem stW_item {x : Word} (word : (itemWords s w)[j]? = some x) (absorbs : Absorbs w)
    (hn : n = 2 ^ 28 * itemView w + (itemOff w + 4 * j)) (idle : s.winWaits (itemView w) (itemOff w + 4 * j) 4 = false) :
    Leaves (.stW d a imm) s (s.setItem w (wordsBytes ((itemWords s w).set j (s.reg d)))) := by
  obtain ⟨win, fits⟩ := wordAccess hw hn word
  obtain ⟨hj, -⟩ := List.getElem?_eq_some_iff.mp word
  rw [Leaves, exec_stW, at_, State.store, access_window win svc hx _ _ fun _ => idle, storeBytes_window win]
  have size := leBytes_length 4 (s.reg d).toNat
  rw [winStore_item absorbs (itemBytes_length s hw) _ _ (by omega) (by omega), itemBytes_words s hw, patch_words _ _ _ hj]
  rfl

end

include svc hx at_

/-! The register window. -/

theorem ldW_reg (r : Reg) (hn : n = 0x90000000 + 4 * r.val) : Writes (.ldW d a imm) s d (s.reg r) :=
  ldW_item (w := .s r) (j := 0) svc hx at_ rfl rfl (by simp only [itemView, itemOff]; omega)

theorem stW_reg (r : Reg) (hn : n = 0x90000000 + 4 * r.val) : Leaves (.stW d a imm) s (s.setReg r (s.reg d)) := by
  have stored := stW_item (d := d) (w := .s r) (j := 0) svc hx at_ rfl rfl (absorbs_s r) (by simp only [itemView, itemOff]; omega)
    (winWaits_past_handles s (by simp [itemView]) 4)
  have same : BitVec.ofNat 32 (leNat (wordsBytes [s.reg d])) = s.reg d := by
    rw [leNat_wordsBytes_one, BitVec.ofNat_toNat, BitVec.setWidth_eq]
  rwa [← same]

end

theorem ofNat_two_words (lo hi : Word) : BitVec.ofNat 64 (leNat (wordsBytes [lo, hi])) = hi ++ lo := by
  apply BitVec.eq_of_toNat_eq
  rw [BitVec.toNat_ofNat, leNat_wordsBytes_cons, leNat_wordsBytes_one, toNat_append_add]; omega

/-- A lane of a vector register that has been written with words. -/
theorem lane_of_words (ws : List Word) {n : Nat} (hn : n < 16) :
    (BitVec.ofNat 512 (leNat (wordsBytes ws))).extractLsb' (32 * n) 32 = ws.getD n 0 := by
  apply BitVec.eq_of_getLsbD_eq
  intro k hk
  rw [BitVec.getLsbD_extractLsb', BitVec.getLsbD_ofNat, testBit_wordsBytes, show (32 * n + k) / 32 = n by omega,
    show (32 * n + k) % 32 = k by omega, decide_eq_true hk, decide_eq_true (show 32 * n + k < 512 by omega), Bool.true_and, Bool.true_and]

theorem vWords_get (s : State) (r : Reg) {j : Nat} (hj : j < 16) :
    (itemWords s (.v r))[j]? = some ((s.vreg r).extractLsb' (32 * j) 32) := by
  simp [itemWords, hj]

section
variable {s : State} {d a : Reg} {imm : BitVec 26} (svc : s.svc = true) (hx : s.inExchange = false) {n : Nat}
  (at_ : s.eaImm a imm = BitVec.ofNat 32 n)
include svc hx at_

/-! The two words of a mask register or of a message. -/

section
variable {w : WinItem} (hw : isWords w = true) {put : State → DWord → State}
  (raw : ∀ bs : List Byte, s.setItem w bs = put s (BitVec.ofNat 64 (leNat bs))) (absorbs : Absorbs w)
  (past : itemView w = 10 → 0x100 ≤ itemOff w) {lo hi : Word} (pair : itemWords s w = [lo, hi])
include hw raw absorbs past pair

theorem pair_low (hn : n = 2 ^ 28 * itemView w + (itemOff w + 4 * 0)) :
    Writes (.ldW d a imm) s d lo ∧ Leaves (.stW d a imm) s (put s (hi ++ s.reg d)) := by
  have word : (itemWords s w)[0]? = some lo := by rw [pair]; rfl
  have stored := stW_item (d := d) svc hx at_ hw word absorbs hn (winWaits_past_handles s (by omega) 4)
  rw [raw, pair, List.set_cons_zero, ofNat_two_words] at stored
  exact ⟨ldW_item svc hx at_ hw word hn, stored⟩

theorem pair_high (hn : n = 2 ^ 28 * itemView w + (itemOff w + 4 * 1)) :
    Writes (.ldW d a imm) s d hi ∧ Leaves (.stW d a imm) s (put s (s.reg d ++ lo)) := by
  have word : (itemWords s w)[1]? = some hi := by rw [pair]; rfl
  have stored := stW_item (d := d) svc hx at_ hw word absorbs hn (winWaits_past_handles s (by omega) 4)
  rw [raw, pair, List.set_cons_succ, List.set_cons_zero, ofNat_two_words] at stored
  exact ⟨ldW_item svc hx at_ hw word hn, stored⟩

end

theorem mask_window (k : KReg) :
    (n = 0x90000900 + 8 * k.val → Writes (.ldW d a imm) s d ((s.kreg k).extractLsb' 0 32) ∧
      Leaves (.stW d a imm) s (s.setK k ((s.kreg k).extractLsb' 32 32 ++ s.reg d))) ∧
    (n = 0x90000904 + 8 * k.val → Writes (.ldW d a imm) s d ((s.kreg k).extractLsb' 32 32) ∧
      Leaves (.stW d a imm) s (s.setK k (s.reg d ++ (s.kreg k).extractLsb' 0 32))) :=
  ⟨fun hn => pair_low (w := .k k) (put := fun s x => s.setK k x) svc hx at_ rfl (fun _ => rfl) (absorbs_k k) (by simp [itemView]) rfl
      (by simp only [itemView, itemOff]; omega),
    fun hn => pair_high (w := .k k) (put := fun s x => s.setK k x) svc hx at_ rfl (fun _ => rfl) (absorbs_k k) (by simp [itemView]) rfl
      (by simp only [itemView, itemOff]; omega)⟩

theorem lane_window (r : Reg) (j : Fin 16) (hn : n = 0x90000100 + 64 * r.val + 4 * j.val) :
    Writes (.ldW d a imm) s d ((s.vreg r).extractLsb' (32 * j.val) 32) ∧
    ∃ x : VWord, Leaves (.stW d a imm) s (s.setV r x) ∧
      ∀ n : Fin 16, x.extractLsb' (32 * n.val) 32 = if n = j then s.reg d else (s.vreg r).extractLsb' (32 * n.val) 32 := by
  have place : n = 2 ^ 28 * itemView (.v r) + (itemOff (.v r) + 4 * j.val) := by simp only [itemView, itemOff]; omega
  have word := vWords_get s r j.isLt
  have stored := stW_item (d := d) (w := .v r) svc hx at_ rfl word (keeping_v r).absorbs place
    (winWaits_past_handles s (by simp [itemView]) 4)
  refine ⟨ldW_item (w := .v r) svc hx at_ rfl word place, _, stored, fun m => ?_⟩
  rw [lane_of_words _ m.isLt, List.getD_eq_getElem?_getD, List.getElem?_set, vWords_get s r m.isLt]
  by_cases hm : m = j
  · subst hm
    rw [if_pos rfl, if_pos rfl, if_pos (show m.val < (itemWords s (.v r)).length from m.isLt)]; rfl
  · rw [if_neg hm, if_neg fun e => hm (Fin.ext e.symm)]; rfl

end

/-- vld and vst move all of a vector register through the register window. -/
theorem vector_window {s : State} {d a r : Reg} {imm : BitVec 26} (svc : s.svc = true) (hx : s.inExchange = false)
    (at_ : s.eaVector a imm = BitVec.ofNat 32 (0x90000100 + 64 * r.val)) :
    Leaves (.vld d a imm) s (s.setV d (s.vreg r)) ∧ Leaves (.vst d a imm) s (s.setV r (s.vreg d)) := by
  obtain ⟨hv, ho⟩ := view_off (n := 0x90000100 + 64 * r.val) (view := 9) (off := itemOff (.v r) + 0)
    (by simp only [itemOff]; omega) (by omega) (by simp only [itemOff]; omega)
  have win : WindowAccess (s.eaVector a imm) 9 (itemOff (.v r) + 0) 64 :=
    ⟨by rw [at_, hv], .inl rfl, by rw [at_, ho], by simp only [itemOff]; omega, by simp only [itemOff]; omega⟩
  have length := itemBytes_length s (w := .v r) rfl
  constructor
  · have loaded : s.loadBytes (s.eaVector a imm) 64 = leBytes 64 (s.vreg r).toNat := by
      rw [loadBytes_window win]
      refine (winBytes_item (w := .v r) 0 64 (by simp [itemSize]) length).trans ?_
      rw [List.drop_zero, List.take_of_length_le (by rw [length]; exact le_rfl), State.itemBytes]
    have run : exec (.vld d a imm) s = s.loadV d (s.eaVector a imm) := rfl
    rw [Leaves, run, State.loadV, access_window win svc hx _ _ (by simp), loaded, ofNat_leNat_leBytes (n := 64) rfl]
    rfl
  · have run : exec (.vst d a imm) s = s.storeV d (s.eaVector a imm) := rfl
    have size := leBytes_length 64 (s.vreg d).toNat
    have whole := patch_whole (s.itemBytes (.v r)) [] (leBytes 64 (s.vreg d).toNat) (by rw [length, size]; rfl)
    have stored := winStore_item (keeping_v r).absorbs length 0 (leBytes 64 (s.vreg d).toNat) (by omega) (by rw [size]; simp [itemSize])
    rw [List.append_nil, List.append_nil] at whole
    rw [whole, State.setItem, ofNat_leNat_leBytes (n := 64) rfl] at stored
    rw [Leaves, run, State.storeV, access_window win svc hx _ _ fun _ => winWaits_past_handles s (by simp) 64, storeBytes_window win]
    exact congrArg State.fin stored

/-! # The tables of view 0xA -/

section
variable {s : State} {d a : Reg} {imm : BitVec 26} (svc : s.svc = true) (hx : s.inExchange = false) {n : Nat}
  (at_ : s.eaImm a imm = BitVec.ofNat 32 (0xA0000000 + n))
include svc hx at_

/-- A word of an item past the handles that keeps its fields. -/
theorem table_window {α : Type} {w : WinItem} {f : Nat → α} {put : State → α → State} (keeping : Keeping w f put)
    {j : Nat} {x : Word} (word : (itemWords s w)[j]? = some x) (view : itemView w = 10) (past : 0x100 ≤ itemOff w) (hn : n = itemOff w + 4 * j) :
    Writes (.ldW d a imm) s d x ∧
    ∀ {new : α}, f (leNat (wordsBytes ((itemWords s w).set j (s.reg d)))) = new → Leaves (.stW d a imm) s (put s new) := by
  have place : 0xA0000000 + n = 2 ^ 28 * itemView w + (itemOff w + 4 * j) := by rw [view]; omega
  refine ⟨ldW_item svc hx at_ keeping.words word place, fun fields => ?_⟩
  rw [← fields, ← keeping.raw]
  exact stW_item svc hx at_ keeping.words word keeping.absorbs place (winWaits_past_handles s (by omega) 4)

/-- A word of a handle: a store waits while an engine holds the handle. -/
theorem handle_window (h : HReg) {j : Nat} {x : Word} (word : (s.handle h).toWords[j]? = some x) (hn : n = 16 * h.val + 4 * j) :
    Writes (.ldW d a imm) s d x ∧
    ∀ {new : Handle}, handleOf (leNat (wordsBytes ((s.handle h).toWords.set j (s.reg d)))) = new →
      (s.handleBusy h = false → Leaves (.stW d a imm) s (s.setHandle h new)) ∧
      (s.handleBusy h = true → Waits (.stW d a imm) s) := by
  have place : 0xA0000000 + n = 2 ^ 28 * itemView (.h h) + (itemOff (.h h) + 4 * j) := by simp only [itemView, itemOff]; omega
  obtain ⟨win, fits⟩ := wordAccess (w := .h h) (s := s) rfl place word
  have waits : s.winWaits (itemView (.h h)) (itemOff (.h h) + 4 * j) 4 = s.handleBusy h := winWaits_handle s h fits
  refine ⟨ldW_item (w := .h h) svc hx at_ rfl word place, fun fields => ⟨fun idle => ?_, fun busy => ?_⟩⟩
  · rw [← fields]
    exact stW_item (w := .h h) svc hx at_ rfl word (keeping_h h).absorbs place (waits.trans idle)
  · rw [Waits, exec_stW, at_, State.store, access_window_waits win svc hx _ (waits.trans busy)]
    rfl

theorem message_window (m : Fin 32) :
    (n = 0x3000 + 8 * m.val → Writes (.ldW d a imm) s d (s.c.mbox[m].extractLsb' 0 32) ∧
      Leaves (.stW d a imm) s (setMessage m s (s.c.mbox[m].extractLsb' 32 32 ++ s.reg d))) ∧
    (n = 0x3004 + 8 * m.val → Writes (.ldW d a imm) s d (s.c.mbox[m].extractLsb' 32 32) ∧
      Leaves (.stW d a imm) s (setMessage m s (s.reg d ++ s.c.mbox[m].extractLsb' 0 32))) :=
  ⟨fun hn => pair_low (w := .msg m) (put := setMessage m) svc hx at_ rfl (fun _ => rfl) (keeping_msg m).absorbs
      (by simp only [itemOff]; omega) rfl (by simp only [itemView, itemOff]; omega),
    fun hn => pair_high (w := .msg m) (put := setMessage m) svc hx at_ rfl (fun _ => rfl) (keeping_msg m).absorbs
      (by simp only [itemOff]; omega) rfl (by simp only [itemView, itemOff]; omega)⟩

/-- An offset that R25 does not list. -/
theorem unlisted_window (al : n % 4 = 0)
    (h : (0x200 ≤ n ∧ n < 0x1000) ∨ (0x3104 ≤ n ∧ n < 0x3200) ∨ (0x3240 ≤ n ∧ n < 0x4000)) :
    Writes (.ldW d a imm) s d 0 ∧ Leaves (.stW d a imm) s s := by
  obtain ⟨hv, ho⟩ := view_off (n := 0xA0000000 + n) (view := 10) (off := n) (by omega) (by omega) (by omega)
  have win : WindowAccess (s.eaImm a imm) 10 n 4 := ⟨by rw [at_, hv], .inr rfl, by rw [at_, ho], by omega, al⟩
  have nothing : ∀ k < 4, winItem 10 (n + k) = none := fun k hk => winItem_between (by omega)
  constructor
  · have zeros : s.loadBytes (s.eaImm a imm) 4 = (List.range 4).map fun _ => 0 := by
      rw [loadBytes_window win]
      exact List.map_congr_left fun k hk => by rw [State.winByte, nothing k (List.mem_range.mp hk)]
    refine writes_of_result (x := extZ (leNat (s.loadBytes (s.eaImm a imm) 4))) ?_ (by rw [zeros]; rfl)
    rw [exec_ldW]
    exact access_window win svc hx _ _ (by simp)
  · rw [Leaves, exec_stW, State.store, access_window win svc hx _ _ fun _ => winWaits_past_handles s (by omega) 4, storeBytes_window win,
      winStore_between _ _ _ (by rwa [leBytes_length])]
    rfl

end

/-- A word that a load writes, given as a number. -/
theorem writes_number {i : Instr} {s : State} {d : Reg} {x : Word} {y : Nat} (h : Writes i s d x) (hy : x.toNat = y) :
    Writes i s d (BitVec.ofNat 32 y) := by
  rwa [← hy, BitVec.ofNat_toNat, BitVec.setWidth_eq]

theorem dword_low (m : DWord) : (m.extractLsb' 0 32).toNat = m.toNat % 2 ^ 32 := by
  rw [BitVec.extractLsb'_toNat, Nat.shiftRight_zero]

theorem dword_high (m : DWord) : (m.extractLsb' 32 32).toNat = m.toNat / 2 ^ 32 := by
  rw [BitVec.extractLsb'_toNat, Nat.shiftRight_eq_div_pow, Nat.mod_eq_of_lt]
  have := m.isLt; omega

theorem byteCount_toNat (x : BitVec 24) : ((0 : Byte) ++ x).toNat = x.toNat := by
  rw [toNat_append_add, toNat_zero_literal]; omega

/-- Settles O10: the checks in their order, and the windows item by item. -/
theorem scalarAccessTrapsAndWindow : Obligations.ScalarAccessTrapsAndWindow := by
  refine ⟨scalarAccess_traps, fun s d a r imm svc hx => ⟨fun at_ => ⟨ldW_reg svc hx at_ r rfl, stW_reg svc hx at_ r rfl⟩,
    fun k => ⟨fun at_ => (mask_window svc hx at_ k).1 rfl, fun at_ => (mask_window svc hx at_ k).2 rfl⟩,
    fun j at_ => lane_window svc hx at_ r j rfl, vector_window svc hx⟩, fun s d a imm svc hx => ?_⟩
  intro at_ reads writes x
  refine ⟨fun h => ?handles, fun n place => ?parked, fun n => ?barriers, fun n => ?messages,
    fun place => ?pointers, fun off al h place => ?unlisted⟩
  case handles =>
    obtain ⟨base, size, count, ends⟩ := handleOf_set (s.handle h) x
    refine ⟨fun p => writes_number (handle_window svc hx p h (j := 0) rfl rfl).1 rfl,
      fun p => writes_number (handle_window svc hx p h (j := 1) rfl rfl).1 rfl,
      fun p => writes_number (handle_window svc hx p h (j := 2) rfl rfl).1 rfl,
      fun p => writes_number (handle_window svc hx p h (j := 3) rfl rfl).1 (handle_word3_toNat _),
      fun p => (handle_window svc hx p h (j := 0) rfl rfl).2 base, fun p => (handle_window svc hx p h (j := 1) rfl rfl).2 size,
      fun p => (handle_window svc hx p h (j := 2) rfl rfl).2 count, fun p => (handle_window svc hx p h (j := 3) rfl rfl).2 ends⟩
  case parked =>
    obtain ⟨load, store⟩ := table_window svc hx place (keeping_parked n) (j := 0) rfl rfl (by simp only [itemOff]; omega) rfl
    have stored := store (parkedOf_word x)
    exact ⟨writes_number load (parked_toWord_toNat _), stored⟩
  case barriers =>
    intro b at0 clean
    obtain ⟨counts, bytes, status⟩ := barrierOf_set b x
    have past : 0x100 ≤ itemOff (.bar n) := by simp only [itemOff]; omega
    refine ⟨fun p => ?_, fun p => ?_, fun p => ?_, fun p => ?_⟩
    · obtain ⟨load, store⟩ := table_window svc hx p (keeping_bar n) (j := 0) rfl rfl past rfl
      exact ⟨writes_number load (barrier_word0_toNat _), fun c => store (counts c)⟩
    · obtain ⟨load, store⟩ := table_window svc hx p (keeping_bar n) (j := 1) rfl rfl past rfl
      exact ⟨writes_number load (byteCount_toNat _), fun src c => store (bytes src c).1⟩
    · obtain ⟨load, store⟩ := table_window svc hx p (keeping_bar n) (j := 2) rfl rfl past rfl
      exact ⟨writes_number load (byteCount_toNat _), fun src c => store (bytes src c).2⟩
    · obtain ⟨load, store⟩ := table_window svc hx p (keeping_bar n) (j := 3) rfl rfl past rfl
      exact ⟨writes_number load rfl, fun src => store (status src)⟩
  case messages =>
    refine ⟨fun p => ?_, fun p => ?_⟩
    · obtain ⟨load, store⟩ := (message_window svc hx p n).1 rfl
      exact ⟨writes_number load (dword_low _), store⟩
    · obtain ⟨load, store⟩ := (message_window svc hx p n).2 rfl
      exact ⟨writes_number load (dword_high _), store⟩
  case pointers =>
    obtain ⟨load, store⟩ := table_window svc hx place keeping_mboxPtr (j := 0) rfl rfl (by simp [itemOff]) rfl
    have stored := store (pointersOf_word x)
    exact ⟨writes_number load (pointers_word_toNat _ _), stored⟩
  case unlisted => exact unlisted_window svc hx place al h

end Sys2Proof.Proofs

namespace Sys2Proof.Proofs
open Machine

/-! # Vector registers by their lanes (R43, R115, R116) -/

/-- The fields of a vector register fill it. -/
theorem width_mul_lanes (t : ElemType) : t.width * t.lanes = 512 ∧ 0 < t.lanes ∧ t.lanes ≤ 64 := by cases t <;> decide

theorem bitsOf_packBits (w : Nat) (xs : List Nat) (i : Nat) : bitsOf (packBits w xs) (w * i) w = xs.getD i 0 % 2 ^ w := by
  have pos : 0 < 2 ^ w := by positivity
  unfold bitsOf
  induction xs generalizing i with
  | nil => simp [packBits]
  | cons x xs ih =>
    cases i with
    | zero => simp [packBits]
    | succ i =>
      have tail : packBits w (x :: xs) / 2 ^ w = packBits w xs := by
        rw [packBits, Nat.add_mul_div_left _ _ pos, Nat.div_eq_of_lt (Nat.mod_lt _ pos), Nat.zero_add]
      rw [Nat.mul_succ, Nat.add_comm, pow_add, ← Nat.div_div_eq_div_mul, tail, ih, List.getD_cons_succ]

theorem packBits_lt (w : Nat) (xs : List Nat) : packBits w xs < 2 ^ (w * xs.length) := by
  have pos : 0 < 2 ^ w := by positivity
  induction xs with
  | nil => simp [packBits]
  | cons x xs ih =>
    have low := Nat.mod_lt x pos
    calc packBits w (x :: xs) < 2 ^ w * (packBits w xs + 1) := by rw [packBits, Nat.mul_succ]; omega
      _ ≤ 2 ^ w * 2 ^ (w * xs.length) := Nat.mul_le_mul_left _ ih
      _ = 2 ^ (w * (x :: xs).length) := by rw [← pow_add, List.length_cons, Nat.mul_succ, Nat.add_comm]

theorem packBits_lt_of_le (w : Nat) (xs : List Nat) {n : Nat} (h : w * xs.length ≤ n) : packBits w xs < 2 ^ n :=
  (packBits_lt w xs).trans_le (Nat.pow_le_pow_right Nat.two_pos h)

theorem laneAt_lt (t : ElemType) (x : VWord) (k : Nat) : laneAt t x k < 2 ^ t.width := Nat.mod_lt _ (by positivity)

theorem toNat_ofNat_of_lt {n x : Nat} (h : x < 2 ^ n) : (BitVec.ofNat n x).toNat = x := by
  rw [BitVec.toNat_ofNat, Nat.mod_eq_of_lt h]

/-- Lanes that were written read back as their low bits; lanes beyond the list are 0. -/
theorem laneAt_ofLanes (t : ElemType) {xs : List Nat} (h : xs.length ≤ t.lanes) (k : Nat) :
    laneAt t (ofLanes t xs) k = xs.getD k 0 % 2 ^ t.width := by
  have fits := packBits_lt_of_le t.width xs ((Nat.mul_le_mul_left _ h).trans_eq (width_mul_lanes t).1)
  rw [laneAt, ofLanes, toNat_ofNat_of_lt fits, bitsOf_packBits]

theorem kreg_zero (s : State) : s.kreg 0 = BitVec.allOnes 64 := rfl

/-- R116: every lane is active under k0, and by its bit under another mask. -/
theorem active_eq (s : State) (m : VMod) {k : Nat} (h : k < 64) : s.active m k = (m.km = 0 || s.c.k[m.km].getLsbD k) := by
  unfold State.active State.kreg
  by_cases hm : m.km = 0
  · rw [if_pos hm, BitVec.getLsbD_allOnes, decide_eq_true h, decide_eq_true hm, Bool.true_or]
  · rw [if_neg hm, decide_eq_false hm, Bool.false_or]

/-! Instructions that write lane by lane (R119). -/

theorem maskedLanes_getD (s : State) (t : ElemType) (d : Reg) (m : VMod) (f : Nat → Nat × Flags) {k : Nat} (h : k < t.lanes) :
    (s.maskedLanes t d m f).getD k (0, 0) =
      if s.active m k then f k else (if m.z then 0 else laneAt t (s.vreg d) k, 0) := by
  rw [State.maskedLanes, List.getD_eq_getElem _ _ (by simpa using h)]
  simp

theorem orFlags_bit (rs : List (Nat × Flags)) (bit : Nat) :
    (orFlags rs).getLsbD bit = true ↔ ∃ r ∈ rs, r.2.getLsbD bit = true := by
  rw [orFlags, getLsbD_foldl_or]; simp

/-- A vector register and flags as an instruction that works lane by lane under a mask leaves them. -/
structure LanesWritten (s : State) (t : ElemType) (d : Reg) (m : VMod) (f : Nat → Nat × Flags) (x : VWord) (fl : Flags) : Prop where
  lane : ∀ k, k < t.lanes → laneAt t x k =
    if m.km = 0 || s.c.k[m.km].getLsbD k then (f k).1 % 2 ^ t.width else if m.z then 0 else laneAt t (s.vreg d) k
  flag : ∀ bit, fl.getLsbD bit = true ↔
    ∃ k, k < t.lanes ∧ (m.km = 0 || s.c.k[m.km].getLsbD k) = true ∧ (f k).2.getLsbD bit = true

theorem lanewise_written (s : State) (t : ElemType) (d : Reg) (m : VMod) {f g : Nat → Nat × Flags}
    (same : ∀ k, k < t.lanes → (g k).1 % 2 ^ t.width = (f k).1 % 2 ^ t.width ∧ (g k).2 = (f k).2) :
    ∃ x fl, s.lanewise t d m g = (s.addFlags fl).setV d x ∧ LanesWritten s t d m f x fl := by
  have few := (width_mul_lanes t).2.2
  refine ⟨_, _, rfl, ⟨fun k hk => ?_, fun bit => ?_⟩⟩
  · have get : ((s.maskedLanes t d m g).map (·.1)).getD k 0 = ((s.maskedLanes t d m g).getD k (0, 0)).1 := by
      rw [List.getD_map (f := (·.1)) (d := ((0, 0) : Nat × Flags))]
    rw [laneAt_ofLanes t (by simp [State.maskedLanes]), get, maskedLanes_getD _ _ _ _ _ hk, active_eq s m (by omega)]
    split
    · exact (same k hk).1
    · split
      · simp
      · exact Nat.mod_eq_of_lt (laneAt_lt ..)
  · simp only [orFlags_bit, State.maskedLanes, List.mem_map, List.mem_range]
    constructor
    · rintro ⟨_, ⟨k, hk, rfl⟩, h⟩
      rw [active_eq s m (by omega)] at h
      split at h
      next on => exact ⟨k, hk, on, (same k hk).2 ▸ h⟩
      · simp at h
    · rintro ⟨k, hk, on, h⟩
      exact ⟨_, ⟨k, hk, rfl⟩, by rw [active_eq s m (by omega), if_pos on, (same k hk).2]; exact h⟩

/-- The completion of an instruction that works lane by lane. -/
theorem completes_lanewise {i : Instr} {s : State} {t : ElemType} {d : Reg} {m : VMod} {f g : Nat → Nat × Flags}
    (run : exec i s = (s.lanewise t d m g).fin)
    (same : ∀ k, k < t.lanes → (g k).1 % 2 ^ t.width = (f k).1 % 2 ^ t.width ∧ (g k).2 = (f k).2) :
    ∃ x fl, VectorCompletes i s d x fl ∧ LanesWritten s t d m f x fl := by
  obtain ⟨x, fl, eq, written⟩ := lanewise_written s t d m same
  exact ⟨x, fl, by rw [VectorCompletes, run, eq]; rfl, written⟩

end Sys2Proof.Proofs

namespace Sys2Proof.Proofs
open Machine

/-! # Lane-by-lane instructions (R119 to R122) -/

/-- The bits of a field are those of the number from its place on. -/
theorem testBit_bitsOf (x place w j : Nat) : (bitsOf x place w).testBit j = (decide (j < w) && x.testBit (j + place)) := by
  rw [bitsOf, Nat.testBit_mod_two_pow, Nat.testBit_div_two_pow]

section
variable (t : ElemType) (x y : VWord) (k : Nat)

theorem laneAt_and : laneAt t (x &&& y) k = laneAt t x k &&& laneAt t y k :=
  Nat.eq_of_testBit_eq fun j => by simp only [laneAt, BitVec.toNat_and, Nat.testBit_and, testBit_bitsOf]; cases decide (j < t.width) <;> simp

theorem laneAt_or : laneAt t (x ||| y) k = laneAt t x k ||| laneAt t y k :=
  Nat.eq_of_testBit_eq fun j => by simp only [laneAt, BitVec.toNat_or, Nat.testBit_or, testBit_bitsOf]; cases decide (j < t.width) <;> simp

theorem laneAt_xor : laneAt t (x ^^^ y) k = laneAt t x k ^^^ laneAt t y k :=
  Nat.eq_of_testBit_eq fun j => by simp only [laneAt, BitVec.toNat_xor, Nat.testBit_xor, testBit_bitsOf]; cases decide (j < t.width) <;> simp

end

/-- An instruction runs lane by lane with results that a lane of the type cannot tell from `f`'s. -/
def RunsLanewise (i : Instr) (s : State) (t : ElemType) (d : Reg) (m : VMod) (f : Nat → Nat × Flags) : Prop :=
  ∃ g, exec i s = (s.lanewise t d m g).fin ∧
    ∀ k, k < t.lanes → (g k).1 % 2 ^ t.width = (f k).1 % 2 ^ t.width ∧ (g k).2 = (f k).2

/-- The instruction's own lanes are `f`'s. -/
theorem RunsLanewise.of_eq {i : Instr} {s : State} {t : ElemType} {d : Reg} {m : VMod} {f g : Nat → Nat × Flags}
    (hx : s.inExchange = false) (run : exec i s = s.classC (s.lanewise t d m g).fin) (same : ∀ k, k < t.lanes → g k = f k) :
    RunsLanewise i s t d m f :=
  ⟨g, run.trans (State.classC_compute s _ hx), fun k hk => by rw [same k hk]; exact ⟨rfl, rfl⟩⟩

/-- The instruction's own lanes are `f`'s but for bits beyond the lane. -/
theorem RunsLanewise.of_mod {i : Instr} {s : State} {t : ElemType} {d : Reg} {m : VMod} {f g : Nat → Nat × Flags}
    (hx : s.inExchange = false) (run : exec i s = s.classC (s.lanewise t d m g).fin)
    (same : ∀ k, g k = ((f k).1 % 2 ^ t.width, (f k).2)) : RunsLanewise i s t d m f :=
  ⟨g, run.trans (State.classC_compute s _ hx), fun k _ => by rw [same k]; exact ⟨Nat.mod_mod _ _, rfl⟩⟩

/-- Every instruction of `laneResult` runs lane by lane with the results stated there. -/
theorem runsLanewise_of_laneResult {s : State} {i : Instr} {t : ElemType} {d : Reg} {m : VMod} {f : Nat → Nat × Flags}
    (stated : laneResult s i = some (t, d, m, f)) (hx : s.inExchange = false) : RunsLanewise i s t d m f := by
  cases i <;> try cases stated
  case vand => exact .of_eq hx rfl fun k _ => congrArg (·, 0) (laneAt_and ..).symm
  case vor => exact .of_eq hx rfl fun k _ => congrArg (·, 0) (laneAt_or ..).symm
  case vxor => exact .of_eq hx rfl fun k _ => congrArg (·, 0) (laneAt_xor ..).symm
  case vshl => exact .of_mod hx rfl fun k => rfl
  case vbcast => exact .of_mod hx rfl fun k => rfl
  case vsel => exact .of_eq hx rfl fun k _ => by simp only [apply_ite (laneAt t · k)]
  case vcvt ts sat a =>
    refine .of_eq hx rfl fun k hk => ?_
    have both : k < Nat.min t.lanes ts.lanes ↔ k < ts.lanes := lt_min_iff.trans (and_iff_right hk)
    by_cases within : k < ts.lanes
    · simp only [both, if_pos within]
    · simp only [both, if_neg within]
  case vunpack ts sat a h =>
    exact .of_eq hx rfl fun k _ => by cases h <;> simp [Nat.add_comm]
  case vext => exact .of_eq hx rfl fun k _ => by simp only [Nat.add_comm k]
  all_goals exact .of_eq hx rfl fun k _ => rfl

/-- Settles O21: each instruction's lanes are those of its row, and a lane-by-lane write leaves them under the mask. -/
theorem vectorLanesUnderMask : Obligations.VectorLanesUnderMask := by
  intro s i t d m f stated hx
  obtain ⟨g, run, same⟩ := runsLanewise_of_laneResult stated hx
  obtain ⟨x, fl, completes, lane, flag⟩ := completes_lanewise run same
  exact ⟨x, fl, completes, lane, flag⟩

end Sys2Proof.Proofs

namespace Sys2Proof.Proofs
open Machine

/-! # Integer lanes (R44, R119, R120) -/

theorem fmtOf_integer {t : ElemType} (h : t.isI = true) : fmtOf t = none := by cases t <;> simp_all [ElemType.isI, ElemType.isS, ElemType.isU, fmtOf]

/-- A lane of an integer type is the low bits of its number, and so is not changed by reading it. -/
theorem wrapInt_laneNumber {t : ElemType} {x : Nat} (hx : x < 2 ^ t.width) : wrapInt t.width (laneNumber t x) = x := by
  have low : ((x : Int) % 2 ^ t.width).toNat = x := by
    rw [Int.emod_eq_of_lt (Int.natCast_nonneg x) (by exact_mod_cast hx), Int.toNat_natCast]
  unfold wrapInt laneNumber
  split
  · rw [Int.sub_emod_right, low]
  · exact low

section
variable {t : ElemType} (h : t.isI = true) (sat ftz : Bool) {x y z : Nat}
  (hx : x < 2 ^ t.width) (hy : y < 2 ^ t.width) (hz : z < 2 ^ t.width)
include h

include hx in
theorem laneOp1_integer (fop : Val → Val × Bool) (iop : Int → Int) :
    laneOp1 t sat ftz fop iop x = (laneBits t sat (iop (laneNumber t x)), 0) := by
  rw [laneOp1, fmtOf_integer h, laneInt_eq hx]; rfl

include hx hy in
theorem laneOp2_integer (fop : Val → Val → Val × Bool) (iop : Int → Int → Int) :
    laneOp2 t sat ftz fop iop x y = (laneBits t sat (iop (laneNumber t x) (laneNumber t y)), 0) := by
  rw [laneOp2, fmtOf_integer h, laneInt_eq hx, laneInt_eq hy]; rfl

include hx hy hz in
theorem laneOp3_integer (fop : Val → Val → Val → Val × Bool) (iop : Int → Int → Int → Int) :
    laneOp3 t sat ftz fop iop x y z =
      (laneBits t sat (iop (laneNumber t x) (laneNumber t y) (laneNumber t z)), 0) := by
  rw [laneOp3, fmtOf_integer h, laneInt_eq hx, laneInt_eq hy, laneInt_eq hz]; rfl

include hx hy in
theorem laneCmp_integer (fop : Val → Val → Bool) (iop : Int → Int → Bool) :
    laneCmp t ftz fop iop x y = iop (laneNumber t x) (laneNumber t y) := by
  rw [laneCmp, fmtOf_integer h, laneInt_eq hx, laneInt_eq hy]

include hx hy in
theorem laneMin_integer : laneMin t ftz x y = (if laneNumber t x ≤ laneNumber t y then x else y, 0) := by
  rw [laneMin, laneOp2_integer h _ _ hx hy, min_def, apply_ite (laneBits t false)]
  exact congrArg (·, 0) (if_congr Iff.rfl (wrapInt_laneNumber hx) (wrapInt_laneNumber hy))

include hx hy in
theorem laneMax_integer : laneMax t ftz x y = (if laneNumber t x ≤ laneNumber t y then y else x, 0) := by
  rw [laneMax, laneOp2_integer h _ _ hx hy, max_def, apply_ite (laneBits t false)]
  exact congrArg (·, 0) (if_congr Iff.rfl (wrapInt_laneNumber hy) (wrapInt_laneNumber hx))

end

/-- Settles O22: an integer lane is its number, and every operation is one of numbers whose result wraps or saturates. -/
theorem integerLaneArithmetic : Obligations.IntegerLaneArithmetic := by
  intro t sat ftz x y z h hx hy hz X Y Z
  have unsigned : t.isS = false → t.isU = true := fun hs => by simpa [ElemType.isI, hs] using h
  have signed : t.isS = true → t.isU = false := by cases t <;> decide
  refine ⟨laneOp2_integer h sat ftz hx hy _ _, laneOp2_integer h sat ftz hx hy _ _, laneOp2_integer h sat ftz hx hy _ _,
    laneOp3_integer h sat ftz hx hy hz _ _, fun _ => ⟨laneOp1_integer h sat ftz hx _ _, laneOp1_integer h sat ftz hx _ _⟩,
    laneMin_integer h ftz hx hy, laneMax_integer h ftz hx hy, fun hs => ?_, fun hs => ?_, ?_, ?_, ?_, fun _ => ?_⟩
  · rw [laneSat, if_neg (by simp [signed hs]), laneOp2_integer h false ftz hx hy]
  · rw [laneSat, if_pos (unsigned hs), laneMin_integer h ftz hx hy]
  · rw [laneEq, laneCmp_integer h ftz hx hy, decide_eq_true_iff]
  · rw [laneLt, laneCmp_integer h ftz hx hy, decide_eq_true_iff]
  · rw [laneLe, laneCmp_integer h ftz hx hy, decide_eq_true_iff]
  · rw [laneSra, laneInt_eq hx]; rfl

end Sys2Proof.Proofs

namespace Sys2Proof.Proofs
open Machine

/-! # Compares, mask registers and reductions (R56, R119, R122, R127) -/

section
variable {s : State} (hx : s.inExchange = false) (t : ElemType) (a b : Reg) (m : VMod)

/-- The lanes of v[a] as they enter a reduction: an inactive one as the identity. -/
theorem entering_eq (identity : Nat) :
    ((List.range t.lanes).map fun k => if s.active m k then laneAt t (s.vreg a) k else identity) =
      (List.range t.lanes).map fun k => if m.km = 0 || s.c.k[m.km].getLsbD k then laneAt t (s.vreg a) k else identity :=
  List.map_congr_left fun k hk => by
    rw [active_eq s m ((List.mem_range.mp hk).trans_le (width_mul_lanes t).2.2)]

/-- Bit k of fields of one bit is the k-th of them. -/
theorem getLsbD_packBits_one (xs : List Nat) (k : Nat) (h : xs.length ≤ 64) :
    (BitVec.ofNat 64 (packBits 1 xs)).getLsbD k = decide (xs.getD k 0 % 2 = 1) := by
  have fits := packBits_lt_of_le 1 xs (Nat.one_mul xs.length ▸ h)
  have field := bitsOf_packBits 1 xs k
  rw [bitsOf, Nat.one_mul, Nat.pow_one] at field
  rw [BitVec.getLsbD, toNat_ofNat_of_lt fits, Nat.testBit_eq_decide_div_mod_eq, field]

/-- R119: the mask of a compare. -/
theorem compareLanes_mask (test : Nat → Nat → Bool) (d : KReg) : ∃ x : DWord, s.compareLanes t d a b m test = s.setK d x ∧
    ∀ k, x.getLsbD k = (decide (k < t.lanes) && (decide (m.km = 0) || s.c.k[m.km].getLsbD k) &&
      test (laneAt t (s.vreg a) k) (laneAt t (s.vreg b) k)) := by
  have few := (width_mul_lanes t).2.2
  refine ⟨_, rfl, fun k => ?_⟩
  rw [getLsbD_packBits_one _ _ (by simpa using few)]
  by_cases hk : k < t.lanes
  · rw [List.getD_eq_getElem _ _ (by simpa using hk), List.getElem_map, List.getElem_range, active_eq s m (by omega),
      decide_eq_true hk, Bool.true_and]
    split
    next on => simpa using on
    next off => simpa using off
  · rw [List.getD_eq_default _ _ (by simpa using hk), decide_eq_false hk]
    rfl

include hx in
theorem leaves_compare {i : Instr} {test : Nat → Nat → Bool} {d : KReg}
    (run : exec i s = s.classC (s.compareLanes t d a b m test).fin) :
    ∃ x : DWord, (∀ k, x.getLsbD k = (decide (k < t.lanes) && (decide (m.km = 0) || s.c.k[m.km].getLsbD k) &&
      test (laneAt t (s.vreg a) k) (laneAt t (s.vreg b) k))) ∧ Leaves i s (s.setK d x) := by
  obtain ⟨x, eq, mask⟩ := compareLanes_mask (s := s) t a b m test d
  exact ⟨x, mask, by rw [Leaves, run, State.classC_compute _ _ hx, eq]; rfl⟩

include hx in
/-- R122: a reduction leaves its result in lane 0. -/
theorem completes_reduce {i : Instr} {d : Reg} {identity : Nat} {op : Nat → Nat → Nat × Flags}
    (run : exec i s = s.classC (s.reduceLanes t d a m identity op).fin) :
    let r := laneReduce t op
      ((List.range t.lanes).map fun k => if m.km = 0 || s.c.k[m.km].getLsbD k then laneAt t (s.vreg a) k else identity)
    ∃ x, VectorCompletes i s d x r.2 ∧ laneAt t x 0 = r.1 % 2 ^ t.width ∧ ∀ k, 0 < k → k < t.lanes → laneAt t x k = 0 := by
  intro r
  have lane := laneAt_ofLanes t (xs := [r.1]) (width_mul_lanes t).2.1
  refine ⟨_, ?_, lane 0, fun k pos _ => (lane k).trans ?_⟩
  · rw [VectorCompletes, run, State.classC_compute _ _ hx, State.reduceLanes, entering_eq]; rfl
  · rw [List.getD_eq_default _ _ pos, Nat.zero_mod]

include hx in
/-- R122: vscan leaves the running combinations lane by lane. -/
theorem runs_vscan (d : Reg) : exec (.vscan t d a m) s = (s.lanewise t d m fun k =>
    (scanFrom (laneAdd t m.sat s.ftz) (sumIdentity t) ((List.range t.lanes).map fun k =>
      if m.km = 0 || s.c.k[m.km].getLsbD k then laneAt t (s.vreg a) k else sumIdentity t)).getD k (0, 0)).fin := by
  rw [← entering_eq]
  exact State.classC_compute _ _ hx

include hx in
/-- R122: vmovs reads one lane, extended by its type. -/
theorem writes_vmovs (d : Reg) : Writes (.vmovs t d a b) s d
    (BitVec.ofInt 32 (laneNumber t (laneAt t (s.vreg a) ((s.reg b).toNat % t.lanes)))) := by
  have run : exec (.vmovs t d a b) s = _ := State.classC_compute _ _ hx
  have small := laneAt_lt t (s.vreg a) ((s.reg b).toNat % t.lanes)
  rw [Writes, run, ← laneInt_eq small, laneInt, readInt, Nat.mod_eq_of_lt small, apply_ite (BitVec.ofInt 32), BitVec.ofInt_natCast]
  rfl

end

/-- Two words side by side, as one number. -/
theorem append_eq_ofNat {m n : Nat} (x : BitVec m) (y : BitVec n) :
    x ++ y = BitVec.ofNat (m + n) (y.toNat + 2 ^ n * x.toNat) := by
  have number : y.toNat + 2 ^ n * x.toNat = (x ++ y).toNat := by rw [toNat_append_add]; ring
  rw [number, BitVec.ofNat_toNat, BitVec.setWidth_eq]

/-- R127: kpop counts the one bits. -/
theorem bitCount_eq_sum_bits (x : DWord) :
    bitCount 64 x.toNat = ((List.range 64).map fun k => (x.getLsbD k).toNat).sum := by
  simp only [bitCount_eq_sum, BitVec.getLsbD, Nat.toNat_testBit]

/-! The tree of R56. -/

/-- One level of the tree pairs neighbours and gathers their flags. -/
theorem pairLevel_pairs (op : Nat → Nat → Nat × Flags) (n : Nat) (xs : List Nat) (h : xs.length = 2 * n) :
    (pairLevel op xs).1.length = n ∧
    (∀ j, j < n → (pairLevel op xs).1.getD j 0 = (op (xs.getD (2 * j) 0) (xs.getD (2 * j + 1) 0)).1) ∧
    ∀ bit, (pairLevel op xs).2.getLsbD bit = true ↔
      ∃ j, j < n ∧ (op (xs.getD (2 * j) 0) (xs.getD (2 * j + 1) 0)).2.getLsbD bit = true := by
  induction n generalizing xs with
  | zero =>
    obtain rfl := List.length_eq_zero_iff.mp h
    simp [pairLevel]
  | succ n ih =>
    match xs, h with
    | a :: b :: xs, h =>
      obtain ⟨len, value, flag⟩ := ih xs (by simpa [Nat.mul_succ] using h)
      refine ⟨by simp [pairLevel, len], fun j hj => ?_, fun bit => ?_⟩
      · cases j with
        | zero => rfl
        | succ j => exact value j (by omega)
      · rw [Nat.exists_lt_succ_left]
        simp only [pairLevel, BitVec.getLsbD_or, Bool.or_eq_true, flag]
        rfl

theorem pairTree_succ (op : Nat → Nat → Nat × Flags) (k : Nat) (xs : List Nat) : pairTree op (k + 1) xs =
    ((pairTree op k (pairLevel op xs).1).1, (pairLevel op xs).2 ||| (pairTree op k (pairLevel op xs).1).2) := rfl

/-- Settles O23: compares and reductions by the lanes they leave, mask instructions by the model's equations, the tree by its
first level. -/
theorem compareMaskAndReduceResults : Obligations.CompareMaskAndReduceResults := by
  refine ⟨fun s t d e f r a b m hx => ?_, fun s t d a b m hx => ?_, fun op k xs h => ⟨rfl, ?_⟩⟩
  · refine ⟨leaves_compare hx t a b m rfl, leaves_compare hx t a b m rfl, leaves_compare hx t a b m rfl,
      State.classC_compute _ _ hx, State.classC_compute _ _ hx, State.classC_compute _ _ hx, State.classC_compute _ _ hx,
      ?_, ?_, kreg_zero s, fun x => rfl⟩
    · rw [← append_eq_ofNat (s.reg b) (s.reg a)]
      exact State.classC_compute _ _ hx
    · rw [← bitCount_eq_sum_bits]
      exact State.classC_compute _ _ hx
  · refine ⟨completes_reduce hx t a m rfl, completes_reduce hx t a m rfl, completes_reduce hx t a m rfl, ?_,
      writes_vmovs hx t a b d⟩
    obtain ⟨x, fl, completes, lane, flag⟩ := completes_lanewise (runs_vscan hx t a m d) fun k _ => ⟨rfl, rfl⟩
    exact ⟨x, fl, completes, lane, flag⟩
  · obtain ⟨len, value, flag⟩ := pairLevel_pairs op (2 ^ k) xs (by rw [h, pow_succ, Nat.mul_comm])
    exact ⟨_, _, len, value, flag, pairTree_succ op k xs⟩

end Sys2Proof.Proofs

namespace Sys2Proof.Proofs
open Machine

/-! # Handles (R30 to R32, R110 to R114) -/

/-! The fields of a handle (R30, R31). -/

/-- A power of two up to 2^k, as its logarithm tells. -/
theorem two_pow_log2_iff (n k : Nat) : n = 2 ^ Nat.log2 n ∧ n ≤ 2 ^ k ↔ ∃ j, j ≤ k ∧ n = 2 ^ j := by
  constructor
  · rintro ⟨eq, le⟩
    rw [eq] at le
    exact ⟨_, (Nat.pow_le_pow_iff_right (by decide)).mp le, eq⟩
  · rintro ⟨j, le, rfl⟩
    rw [Nat.log2_two_pow]
    exact ⟨rfl, Nat.pow_le_pow_right (by decide) le⟩

section
variable (g : Handle)

theorem filled_eq : g.filled = (g.tail.toNat + 65536 - g.head.toNat) % 65536 := by
  have := g.head.isLt
  rw [Handle.filled, BitVec.toNat_sub, show 2 ^ 16 - g.head.toNat + g.tail.toNat = g.tail.toNat + 65536 - g.head.toNat by omega]

theorem handle_ok_iff : g.ok = true ↔ HandleFields g := by
  have line : offOf g.base % 64 = g.base.toNat % 64 := by rw [offOf]; omega
  have count := two_pow_log2_iff g.count.toNat 12
  simp only [Handle.ok, HandleFields, line, filled_eq, Bool.and_eq_true, decide_eq_true_eq, beq_iff_eq, ← count]
  tauto

theorem handle_ok_eq_false_iff : g.ok = false ↔ ¬HandleFields g := by rw [← handle_ok_iff, Bool.not_eq_true]

variable {g} (h : HandleFields g)
include h

theorem handleFields_count_pos : 0 < g.count.toNat := by
  obtain ⟨-, -, -, -, -, ⟨k, -, eq⟩, -⟩ := h
  rw [eq]; positivity

theorem handleFields_count_ne : g.count ≠ 0 := fun zero => by
  have := handleFields_count_pos h
  rw [zero] at this; exact absurd this (by decide)

theorem slot_eq (i : Nat) : g.slot i = BitVec.ofNat 32 (g.base.toNat + i % g.count.toNat * g.size.toNat) := by
  rw [Handle.slot, if_neg (handleFields_count_ne h), add_ofNat_eq]

end

section
variable {s : State} {d : HReg}

theorem useHandle_none (h : HandleFields (s.handle d)) : s.useHandle d = none := by
  rw [State.useHandle, if_neg (handleFields_count_ne h), if_neg (by rw [(handle_ok_iff _).mpr h]; decide)]

theorem useHandle_unset (h : (s.handle d).count = 0) : s.useHandle d = some (handleTrap d 5) := if_pos h

/-- What can bring a slot (R113). -/
theorem canFill_iff : s.canFill d = true ↔
    ∃ q ∈ s.c.copy, q.hv = true ∧ q.hreg = d ∧ (q.kind = 0 ∨ q.kind = 2 ∨ q.kind = 4) := by
  simp only [State.canFill, List.any_eq_true, CopyCmd.producer, Bool.and_eq_true, Bool.or_eq_true, beq_iff_eq, and_assoc, or_assoc]

/-- What can take a slot (R113). -/
theorem canPop_iff : s.canPop d = true ↔ (∃ q ∈ s.c.mx, q.popA = some d ∨ q.popB = some d) ∨
    ∃ q ∈ s.c.copy, q.hv = true ∧ q.hreg = d ∧ (q.kind = 1 ∨ q.kind = 3) := by
  simp only [State.canPop, State.popsOwed, Bool.or_eq_true, decide_eq_true_eq, List.length_pos_iff_exists_mem, List.mem_filter,
    List.any_eq_true, CopyCmd.consumer, Bool.and_eq_true, beq_iff_eq, and_assoc]

end

/-! hset (R111): the descriptor in local memory. -/

theorem memWord_eq (s : State) (a : Nat) : s.memWord a = BitVec.ofNat 32 (littleEndian s.c.mem a 4) := by
  rw [State.memWord, littleEndian_eq_leNat]

theorem littleEndian_add (m : Memory) (a n k : Nat) :
    littleEndian m a (n + k) = littleEndian m a n + 256 ^ n * littleEndian m (a + n) k := by
  induction n generalizing a with
  | zero => simp [littleEndian]
  | succ n ih =>
    rw [Nat.succ_add, littleEndian, ih, littleEndian, pow_succ, show a + 1 + n = a + (n + 1) by omega]
    ring

theorem descriptor_eq (s : State) (a : Nat) : s.descriptor a = descriptorAt s.c.mem a := by
  have low := littleEndian_lt s.c.mem (a + 12) 2
  have split : littleEndian s.c.mem (a + 12) 4 = littleEndian s.c.mem (a + 12) 2 + 65536 * littleEndian s.c.mem (a + 14) 2 :=
    littleEndian_add s.c.mem (a + 12) 2 2
  have high := littleEndian_lt s.c.mem (a + 14) 2
  rw [State.descriptor, descriptorAt]
  simp only [memWord_eq, split, Handle.mk.injEq, true_and]
  constructor <;> apply BitVec.eq_of_toNat_eq <;> simp only [BitVec.extractLsb'_toNat, BitVec.toNat_ofNat, Nat.shiftRight_eq_div_pow] <;> omega

section
variable {s : State} (hx : s.inExchange = false) (d : HReg) (r a : Reg)
include hx

/-- hset at 16 bytes of raw memory without errors: the wait, or the checks of R31. -/
theorem exec_hset (block : RawBlock s (s.reg a) 16 16) : exec (.hset d a) s =
    if s.handleBusy d then s.wait
    else if (descriptorAt s.c.mem (offOf (s.reg a))).ok = false then s.raise (handleTrap d 1)
    else (s.setHandle d (descriptorAt s.c.mem (offOf (s.reg a)))).fin := by
  obtain ⟨view, range, aligned, clean⟩ := block
  have run : exec (.hset d a) s = execHset d a s := rfl
  rw [run, execHset, State.classC_compute _ _ hx, addrTrap_none view range aligned, State.check_none, State.memBad,
    no_bad_word clean, descriptor_eq]
  rfl

theorem hset_traps {t : Trap} (trap : State.addrTrap (s.reg a) 16 16 0 = some t) :
    Traps (.hset d a) s t.cause t.detail t.eaddr := by
  have run : exec (.hset d a) s = execHset d a s := rfl
  rw [Traps, run, execHset, State.classC_compute _ _ hx, trap, State.check_some, State.raise_compute _ _ hx]

/-- The traps of an operand outside raw memory, or not aligned (R40). -/
theorem hset_operandTraps :
    let reserved := viewOf (s.reg a) = 7 ∨ 11 ≤ viewOf (s.reg a)
    (viewOf (s.reg a) ≠ 0 → ¬reserved → Traps (.hset d a) s .view 0 (s.reg a)) ∧
    (reserved ∨ (viewOf (s.reg a) = 0 ∧ 0xA0000 < offOf (s.reg a) + 16) → Traps (.hset d a) s .localRange 0 (s.reg a)) ∧
    (viewOf (s.reg a) = 0 → offOf (s.reg a) + 16 ≤ 0xA0000 → offOf (s.reg a) % 16 ≠ 0 → Traps (.hset d a) s .align 0 (s.reg a)) := by
  intro reserved
  have reserved_iff : reservedView (viewOf (s.reg a)) = true ↔ reserved := by simp [reserved, reservedView]
  refine ⟨fun other open_ => hset_traps hx d a (t := ⟨.view, 0, s.reg a⟩) ?_, fun absent => hset_traps hx d a (t := ⟨.localRange, 0, s.reg a⟩) ?_,
    fun raw range odd => hset_traps hx d a (t := ⟨.align, 0, s.reg a⟩) ?_⟩
  · rw [State.addrTrap, if_pos ⟨other, Bool.eq_false_iff.mpr (mt reserved_iff.mp open_)⟩]
  · rw [State.addrTrap, if_neg, if_pos (by omega)]
    rintro ⟨other, open_⟩
    have := mt reserved_iff.mpr (Bool.eq_false_iff.mp open_)
    omega
  · rw [State.addrTrap, if_neg (by omega), if_neg (by omega), if_pos odd]

theorem exec_hget (sel : Fin 8) : exec (.hget r d sel) s = s.result r ((s.handle d).select sel) := State.classC_compute _ _ hx

theorem exec_hreset : exec (.hreset d) s =
    if s.handleBusy d then s.wait else (s.setHandle d { s.handle d with head := 0, tail := 0 }).fin := State.classC_compute _ _ hx

end

/-! Waits and advances (R32, R113). -/

section
variable {s : State} (hx : s.inExchange = false) {i : Instr} {d : HReg} {n present : Nat}
include hx

theorem traps_unset (h : (s.handle d).count = 0) {k : Result} (run : exec i s = s.classC (s.check (s.useHandle d) k)) :
    Traps i s .handle 5 (BitVec.ofNat 32 d.val) := by
  rw [Traps, run, State.classC_compute _ _ hx, useHandle_unset h, State.check_some, State.raise_compute _ _ hx]; rfl

variable (h : HandleFields (s.handle d))
include h

/-- R113: a wait goes on, waits or traps by the slots there are and by what is outstanding. -/
theorem handleWait_cases {able : Bool} (run : exec i s = s.classC (s.handleWait d n present able)) :
    ((s.handle d).count.toNat < n → Traps i s .handle 3 (BitVec.ofNat 32 d.val)) ∧
    (n ≤ (s.handle d).count.toNat → (n ≤ present → Leaves i s s) ∧ (present < n → able = true → Waits i s) ∧
      (present < n → able = false → Traps i s .handle 4 (BitVec.ofNat 32 d.val))) := by
  rw [State.classC_compute _ _ hx, State.handleWait, useHandle_none h, State.check_none] at run
  refine ⟨fun many => ?_, fun few => ?_⟩
  · rw [Traps, run, if_pos many, State.raise_compute _ _ hx]; rfl
  · rw [if_neg (by omega)] at run
    refine ⟨fun there => ?_, fun missing can => ?_, fun missing can => ?_⟩
    · rw [Leaves, run, if_pos there]; rfl
    · rw [Waits, run, if_neg (by omega), if_pos can]; rfl
    · rw [Traps, run, if_neg (by omega), can, if_neg (by decide), State.raise_compute _ _ hx]; rfl

/-- R32: an advance steps over slots that are there, and traps else. -/
theorem handleAdvance_cases {t : State} (run : exec i s = s.classC (s.handleAdvance d n present t)) :
    (n ≤ present → Leaves i s t) ∧ (present < n → Traps i s .handle 2 (BitVec.ofNat 32 d.val)) := by
  rw [State.classC_compute _ _ hx, State.handleAdvance, useHandle_none h, State.check_none] at run
  refine ⟨fun there => ?_, fun missing => ?_⟩
  · rw [Leaves, run, if_neg (by omega)]; rfl
  · rw [Traps, run, if_pos missing, State.raise_compute _ _ hx]; rfl

end

/-- A half word stepped by a number. -/
theorem half_add_ofNat (x : Half) (n : Nat) : x + BitVec.ofNat 16 n = BitVec.ofNat 16 (x.toNat + n) := by
  rw [BitVec.ofNat_add, BitVec.ofNat_toNat, BitVec.setWidth_eq]

/-- Settles O19: each instruction's checks in their order, over the fields of R31. -/
theorem handleInstructions : Obligations.HandleInstructions := by
  refine ⟨fun s d r a hx => ?_, fun s d a hx => ?_⟩
  · intro g filled slot
    have slots (i : Half) : g.slot i.toNat = slot i := by
      simp only [Handle.slot, slot, add_ofNat_eq]
    have get {sel : Fin 8} {y : Word} (eq : g.select sel = y) : Writes (.hget r d sel) s r y :=
      writes_of_result (exec_hget hx d r sel) eq
    refine ⟨fun block idle => ⟨fun good => ?_, fun bad => ?_⟩, fun block busy => ?_, hset_operandTraps hx d a, get rfl, get rfl, get rfl,
      get (append_eq_ofNat g.tail g.head), get (congrArg (BitVec.ofNat 32) (filled_eq g)), get (congrArg (g.count - BitVec.ofNat 32 ·) (filled_eq g)),
      get (slots _), get (slots _), fun idle => ?_, fun busy => ?_⟩
    · rw [Leaves, exec_hset hx d a block, idle, (handle_ok_iff _).mpr good]; rfl
    · rw [Traps, exec_hset hx d a block, idle, (handle_ok_eq_false_iff _).mpr bad]; exact State.raise_compute _ _ hx
    · rw [Waits, exec_hset hx d a block, busy]; rfl
    · rw [Leaves, exec_hreset hx, idle]; rfl
    · rw [Waits, exec_hreset hx, busy]; rfl
  · intro g n filled free no brings takes
    have hfilled : g.filled = filled := filled_eq g
    have hfree : g.free = free := congrArg (g.count.toNat - ·) hfilled
    refine ⟨fun unset => ⟨traps_unset hx unset rfl, traps_unset hx unset rfl, traps_unset hx unset rfl, traps_unset hx unset rfl⟩, fun h => ?_⟩
    obtain ⟨filled_many, filled_few⟩ := handleWait_cases hx h (i := .hwaitf d a) rfl
    obtain ⟨free_many, free_few⟩ := handleWait_cases hx h (i := .hwaite d a) rfl
    obtain ⟨pop, popOver⟩ := handleAdvance_cases hx h (i := .hadvc d a) rfl
    obtain ⟨push, pushOver⟩ := handleAdvance_cases hx h (i := .hadvp d a) rfl
    simp only [← Bool.not_eq_true, canFill_iff, canPop_iff] at filled_few free_few
    rw [hfilled] at filled_few pop popOver
    rw [hfree] at free_few push pushOver
    rw [State.advHead, half_add_ofNat] at pop
    rw [State.advTail, half_add_ofNat] at push
    refine ⟨fun many => ⟨filled_many many, free_many many⟩, fun few => ?_, pop, popOver, push, pushOver⟩
    obtain ⟨go, wait, trap⟩ := filled_few few
    exact ⟨go, wait, trap, free_few few⟩

end Sys2Proof.Proofs

namespace Sys2Proof.Proofs
open Machine

/-! # Vector loads and stores (R123, R124, R126) -/

/-! Bytes of memory. -/

/-- The low bytes of a number, stored: they are there, and every other byte is as before. -/
theorem read_writeBytes_leBytes (m : Memory) (off size x : Nat) :
    (∀ k, k < size → (m.writeBytes off (leBytes size x)).read (off + k) = BitVec.ofNat 8 (x / 256 ^ k)) ∧
    ∀ a, a < off ∨ off + size ≤ a → (m.writeBytes off (leBytes size x)).read a = m.read a := by
  refine ⟨fun k hk => ?_, fun a ha => Memory.read_writeBytes_outside _ _ _ _ (by rwa [leBytes_length])⟩
  have hl : k < (leBytes size x).length := by rwa [leBytes_length]
  rw [Memory.read_writeBytes_inside _ _ _ _ hl, leBytes_getElem]

theorem loadBytes_data {s : State} {ea : Word} (h : viewOf ea ≤ 6) (n : Nat) :
    leNat (s.loadBytes ea n) = littleEndian s.c.mem (offOf ea) n := by
  rw [State.loadBytes, if_pos h, littleEndian_eq_leNat]

theorem storeBytes_data {s : State} {ea : Word} (h : viewOf ea ≤ 6) (bs : List Byte) :
    ∃ st, s.storeBytes ea bs = withMem s (s.c.mem.writeBytes (offOf ea) bs) st := ⟨_, if_pos h⟩

/-! vld and vst (R124). -/

/-- An instruction that stores n low bytes of x at an offset, and changes no other byte. -/
def StoresAt (i : Instr) (s : State) (off n x : Nat) : Prop :=
  ∃ m st, Completes i s { s.adv with c := { s.adv.c with mem := m, stale := st } } ∧
    (∀ k, k < n → Memory.read m (off + k) = BitVec.ofNat 8 (x / 256 ^ k)) ∧
    ∀ a, a < off ∨ off + n ≤ a → Memory.read m a = s.c.mem.read a

theorem leaves_loadV {s : State} {i : Instr} {d : Reg} {ea : Word} (h : DataAccess s ea 64) (run : exec i s = s.loadV d ea) :
    Leaves i s (s.setV d (BitVec.ofNat 512 (littleEndian s.c.mem (offOf ea) 64))) := by
  rw [Leaves, run, State.loadV, access_of_dataAccess h, loadBytes_data h.view]; rfl

theorem storesAt_storeV {s : State} {i : Instr} {d : Reg} {ea : Word} (h : DataAccess s ea 64) (run : exec i s = s.storeV d ea) :
    StoresAt i s (offOf ea) 64 (s.vreg d).toNat := by
  obtain ⟨st, eq⟩ := storeBytes_data (s := s) h.view (leBytes 64 (s.vreg d).toNat)
  refine ⟨_, st, ?_, read_writeBytes_leBytes ..⟩
  rw [Completes, run, State.storeV, access_of_dataAccess h, eq]
  exact congrArg _ (adv_withMem ..)

/-! Ring accesses (R124, R126). -/

theorem accessTrap_of_dataAccess {s : State} {ea : Word} {size : Nat} (h : DataAccess s ea size) : s.accessTrap ea size = none := by
  obtain ⟨compute, view, range, scale, aligned, clean⟩ := h
  refine accessTrap_none compute (by omega) ?_ aligned (by omega)
  simp only [Absent, if_pos view]
  rintro (_ | _ | _ | ⟨h5, beyond⟩)
  · omega
  · omega
  · omega
  · have := scale h5; omega

section
variable {s : State} {h : HReg} {b : Reg} {ea : Word} {present : Nat} (fields : HandleFields (s.handle h)) (access : DataAccess s ea 64)
include fields access

/-- The checks of a ring access once its address and its handle pass. -/
theorem ringTrap_eq : s.ringTrap h b ea present =
    if present = 0 then some (handleTrap h 6)
    else if (s.handle h).size.toNat ≤ (s.reg b).toNat * 64 then some (handleTrap h 8) else none := by
  rw [State.ringTrap, if_neg (handleFields_count_ne fields), accessTrap_of_dataAccess access, useHandle_none fields]

theorem ringTrap_none (there : 0 < present) (within : (s.reg b).toNat * 64 < (s.handle h).size.toNat) :
    s.ringTrap h b ea present = none := by
  rw [ringTrap_eq fields access, if_neg (by omega), if_neg (by omega)]

/-- Without a slot a ring access traps with HANDLE. -/
theorem traps_ring_empty {i : Instr} {k : Result} (run : exec i s = s.check (s.ringTrap h b ea 0) k) :
    Traps i s .handle 6 (BitVec.ofNat 32 h.val) := by
  rw [Traps, run, ringTrap_eq fields access, if_pos rfl, State.check_some, State.raise_compute _ _ access.compute]; rfl

end

/-- The address of a ring access (R124). -/
theorem slot_address {g : Handle} (h : HandleFields g) (i : Nat) (x : Word) :
    g.slot i + x * 64 = BitVec.ofNat 32 (g.base.toNat + i % g.count.toNat * g.size.toNat + 64 * x.toNat) := by
  rw [slot_eq h, show x * 64 = x * BitVec.ofNat 32 64 from rfl, mul_ofNat_eq, ← BitVec.ofNat_add, Nat.mul_comm 64]

/-! Indexed accesses (R126). -/

/-- Accesses that all pass their checks. -/
theorem accessAll_of_dataAccess {s : State} {size : Nat} {store : Bool} {k : Result} {es : List (Nat × Word)}
    (h : ∀ e ∈ es, DataAccess s e.2 size) : s.accessAll size store k es = k := by
  induction es with
  | nil => rfl
  | cons e es ih =>
    rw [State.accessAll, access_of_dataAccess (h e List.mem_cons_self)]
    exact ih fun e he => h e (List.mem_cons_of_mem _ he)

/-- A memory after the active lanes below a number have stored their bytes, in ascending order. -/
def lanesStored (m : Memory) (size : Nat) (act : Nat → Bool) (off val : Nat → Nat) : Nat → Memory
  | 0 => m
  | n + 1 =>
    let u := lanesStored m size act off val n
    if act n then u.writeBytes (off n) (leBytes size (val n)) else u

/-- The stores of vstx, lane after lane. -/
theorem foldl_storeBytes {s : State} {act : Nat → Bool} {ea : Nat → Word} (size : Nat) (val : Nat → Nat) {n : Nat}
    (h : ∀ k, k < n → act k = true → viewOf (ea k) ≤ 6) :
    ∃ st, (((List.range n).filter act).map fun k => (k, ea k)).foldl (fun u e => u.storeBytes e.2 (leBytes size (val e.1))) s =
      withMem s (lanesStored s.c.mem size act (fun k => offOf (ea k)) val n) st := by
  induction n with
  | zero => exact ⟨s.c.stale, rfl⟩
  | succ n ih =>
    obtain ⟨st, eq⟩ := ih fun k hk => h k (by omega)
    rw [List.range_succ, List.filter_append, List.map_append, List.foldl_append, eq, lanesStored]
    by_cases on : act n = true
    · obtain ⟨st', eq'⟩ := storeBytes_data (s := withMem s (lanesStored s.c.mem size act (fun k => offOf (ea k)) val n) st)
        (h n (by omega) on) (leBytes size (val n))
      refine ⟨st', ?_⟩
      simp only [List.filter_singleton, on, cond_true, List.map_singleton, List.foldl_cons, List.foldl_nil, eq', if_true]
      rfl
    · exact ⟨st, by simp [on]⟩

/-- A byte of an active lane that no later active lane covers is that lane's. -/
theorem lanesStored_lane (m : Memory) {size : Nat} {act : Nat → Bool} {off val : Nat → Nat} {n k j : Nat} (hk : k < n)
    (on : act k = true) (hj : j < size)
    (last : ∀ l, k < l → l < n → act l = true → ¬(off l ≤ off k + j ∧ off k + j < off l + size)) :
    (lanesStored m size act off val n).read (off k + j) = BitVec.ofNat 8 (val k / 256 ^ j) := by
  induction n with
  | zero => omega
  | succ n ih =>
    rw [lanesStored]
    rcases Nat.lt_succ_iff_lt_or_eq.mp hk with below | rfl
    · have earlier := ih below fun l hl hn => last l hl (by omega)
      split
      next covering =>
        have apart := last n below (by omega) covering
        rw [(read_writeBytes_leBytes ..).2 _ (by omega), earlier]
      · exact earlier
    · rw [if_pos on]
      exact (read_writeBytes_leBytes ..).1 j hj

/-- A byte that no active lane covers is as before. -/
theorem lanesStored_outside (m : Memory) {size : Nat} {act : Nat → Bool} {off val : Nat → Nat} {n x : Nat}
    (apart : ∀ k, k < n → act k = true → x < off k ∨ off k + size ≤ x) : (lanesStored m size act off val n).read x = m.read x := by
  induction n with
  | zero => rfl
  | succ n ih =>
    have earlier := ih fun k hk => apart k (by omega)
    rw [lanesStored]
    split
    next on => rw [(read_writeBytes_leBytes ..).2 _ (apart n (by omega) on), earlier]
    · exact earlier

/-- Lanes that raise no flag leave no flag. -/
theorem LanesWritten.flags_zero {s : State} {t : ElemType} {d : Reg} {m : VMod} {f : Nat → Nat × Flags} {x : VWord} {fl : Flags}
    (h : LanesWritten s t d m f x fl) (silent : ∀ k, (f k).2 = 0) : fl = 0 := by
  refine BitVec.eq_of_getLsbD_eq fun i _ => Bool.eq_iff_iff.mpr ?_
  rw [h.flag]
  simp [silent]

/-- The completion of an instruction that works lane by lane without flags. -/
theorem completes_lanewise_silent {i : Instr} {s : State} {t : ElemType} {d : Reg} {m : VMod} {f : Nat → Nat}
    (run : exec i s = (s.lanewise t d m fun k => (f k, 0)).fin) :
    ∃ x, VectorCompletes i s d x 0 ∧ ∀ k, k < t.lanes → laneAt t x k =
      if m.km = 0 || s.c.k[m.km].getLsbD k then f k % 2 ^ t.width else if m.z then 0 else laneAt t (s.vreg d) k := by
  obtain ⟨x, fl, completes, written⟩ := completes_lanewise run fun k _ => ⟨rfl, rfl⟩
  rw [written.flags_zero fun _ => rfl] at completes
  exact ⟨x, completes, written.lane⟩

/-- An element of memory fits a lane. -/
theorem littleEndian_mod_width (m : Memory) (a : Nat) (t : ElemType) : littleEndian m a t.bytes % 2 ^ t.width = littleEndian m a t.bytes := by
  have lanes : 256 ^ t.bytes = 2 ^ t.width := by cases t <;> rfl
  exact Nat.mod_eq_of_lt (lanes ▸ littleEndian_lt m a t.bytes)

section
variable {s : State} {t : ElemType} {d a b : Reg} {m : VMod}

theorem completes_vldb (h : DataAccess s (s.reg a) t.bytes) : ∃ x, VectorCompletes (.vldb t d a m) s d x 0 ∧
    ∀ k, k < t.lanes → laneAt t x k = if m.km = 0 || s.c.k[m.km].getLsbD k then littleEndian s.c.mem (offOf (s.reg a)) t.bytes
      else if m.z then 0 else laneAt t (s.vreg d) k := by
  have run : exec (.vldb t d a m) s = (s.lanewise t d m fun _ => (leNat (s.loadBytes (s.reg a) t.bytes), 0)).fin :=
    access_of_dataAccess h false fun s => (s.lanewise t d m fun _ => (leNat (s.loadBytes (s.reg a) t.bytes), 0)).fin
  rw [loadBytes_data h.view] at run
  simpa only [littleEndian_mod_width] using completes_lanewise_silent run

variable (hx : s.inExchange = false)
  (h : ∀ k, k < t.lanes → (m.km = 0 || s.c.k[m.km].getLsbD k) = true → DataAccess s (s.laneEa t a b k) t.bytes)
include h

theorem laneEas_dataAccess : ∀ e ∈ s.laneEas t a b m, DataAccess s e.2 t.bytes := by
  simp only [State.laneEas, List.mem_map, List.mem_filter, List.mem_range]
  rintro _ ⟨k, ⟨hk, on⟩, rfl⟩
  exact h k hk (by rwa [← active_eq s m (hk.trans_le (width_mul_lanes t).2.2)])

include hx

/-- An indexed access whose lanes all pass their checks. -/
theorem indexed_runs (store : Bool) (k : Result) :
    (if (s.laneEas t a b m).isEmpty then s.classC k else s.accessAll t.bytes store k (s.laneEas t a b m)) = k := by
  rw [State.classC_compute _ _ hx, accessAll_of_dataAccess (laneEas_dataAccess h), ite_self]

theorem completes_vldx : ∃ x, VectorCompletes (.vldx t d a b m) s d x 0 ∧
    ∀ k, k < t.lanes → laneAt t x k = if m.km = 0 || s.c.k[m.km].getLsbD k
      then littleEndian s.c.mem (offOf (s.laneEa t a b k)) t.bytes else if m.z then 0 else laneAt t (s.vreg d) k := by
  have run : exec (.vldx t d a b m) s = (s.lanewise t d m fun k => (leNat (s.loadBytes (s.laneEa t a b k) t.bytes), 0)).fin :=
    indexed_runs hx h false _
  obtain ⟨x, completes, lane⟩ := completes_lanewise_silent run
  refine ⟨x, completes, fun k hk => (lane k hk).trans ?_⟩
  by_cases on : (m.km = 0 || s.c.k[m.km].getLsbD k) = true
  · rw [if_pos on, if_pos on, loadBytes_data (h k hk on).view, littleEndian_mod_width]
  · rw [if_neg on, if_neg on]

theorem completes_vstx : ∃ mem st, Completes (.vstx t d a b m) s { s.adv with c := { s.adv.c with mem := mem, stale := st } } ∧
    mem = lanesStored s.c.mem t.bytes (s.active m) (fun k => offOf (s.laneEa t a b k)) (laneAt t (s.vreg d)) t.lanes := by
  have few := (width_mul_lanes t).2.2
  obtain ⟨st, eq⟩ := foldl_storeBytes (s := s) (act := s.active m) (ea := s.laneEa t a b) t.bytes (laneAt t (s.vreg d)) (n := t.lanes)
    fun k hk on => (h k hk (by rwa [← active_eq s m (by omega)])).view
  refine ⟨_, st, ?_, rfl⟩
  have run : exec (.vstx t d a b m) s = _ := indexed_runs hx h true _
  rw [Completes, run, State.laneEas, eq]
  exact congrArg _ (adv_withMem ..)

end

/-- Settles O27: raw accesses by their bytes, ring accesses through the slot's address, indexed accesses lane by lane. -/
theorem vectorLoadsAndStores : Obligations.VectorLoadsAndStores := by
  refine ⟨fun s d a b h imm => ?_, fun s t d a b m => ?_⟩
  · intro g filled slot ring loads stores
    have address (fields : HandleFields g) (i : Half) : g.slot i.toNat + s.reg b * 64 = slot i := slot_address fields ..
    have hfilled : g.filled = filled := filled_eq g
    have runLoad (fields : HandleFields g) : exec (.vldh d h b) s =
        s.check (s.ringTrap h b (slot g.head) filled) (s.loadV d (slot g.head)) := by
      rw [← address fields, ← hfilled]; rfl
    have runStore (fields : HandleFields g) : exec (.vsth d h b) s =
        s.check (s.ringTrap h b (slot g.tail) (g.count.toNat - filled)) (s.storeV d (slot g.tail)) := by
      rw [← address fields, ← hfilled]; rfl
    refine ⟨fun access => ⟨leaves_loadV access rfl, storesAt_storeV access rfl⟩, ?load, ?store,
      fun hx ⟨fields, within⟩ => ⟨fun none access => ?_, fun full access => ?_⟩⟩
    case load =>
      rintro ⟨fields, within⟩ some access
      refine leaves_loadV access ?_
      rw [runLoad fields, ringTrap_none fields access some within, State.check_none]
    case store =>
      rintro ⟨fields, within⟩ room access
      refine storesAt_storeV access ?_
      rw [runStore fields, ringTrap_none fields access (by omega) within, State.check_none]
    · rw [none] at runLoad
      exact traps_ring_empty fields access (runLoad fields)
    · rw [full, Nat.sub_self] at runStore
      exact traps_ring_empty fields access (runStore fields)
  · intro active other ea
    have address (k : Nat) : s.laneEa t a b k = ea k := by rw [State.laneEa, add_ofNat_eq]
    refine ⟨completes_vldb, fun hx all => ?_⟩
    simp only [← address] at all ⊢
    refine ⟨completes_vldx hx all, ?_⟩
    obtain ⟨mem, st, completes, rfl⟩ := completes_vstx (d := d) hx all
    have on {k : Nat} (hk : k < t.lanes) : s.active m k = active k := active_eq s m (hk.trans_le (width_mul_lanes t).2.2)
    refine ⟨_, st, completes, fun k j hk act hj last => ?_, fun x apart => ?_⟩
    · exact lanesStored_lane _ hk (by rwa [on hk]) hj fun l hl hn act => last l hl hn (by rwa [← on hn])
    · exact lanesStored_outside _ fun k hk act => apart k hk (by rwa [← on hk])

end Sys2Proof.Proofs

namespace Sys2Proof.Proofs
open Machine

/-! # Converting loads and stores (R125) -/

/-! An access that passes its checks. -/

theorem viewType_eq {view : Nat} (h : 1 ≤ view ∧ view ≤ 6) (u : Bool) : viewType view u = viewElement view u := by
  obtain ⟨h1, h6⟩ := h
  interval_cases view <;> rfl

section
variable {s : State} {ea : Word} {n : Nat} {u : Bool} (h : ConvAccess s ea n u)
include h

theorem convTrap_none : s.convTrap ea n false = none := by
  obtain ⟨compute, ⟨h1, h6⟩, -, range, aligned, -⟩ := h
  have there : reservedView (viewOf ea) = false := by
    simp only [reservedView, Bool.or_eq_false_iff, beq_eq_false_iff_ne, decide_eq_false_iff_not]; omega
  simp only [State.convTrap, compute, there, State.viewExtent, State.viewAlign, viewType_eq ⟨h1, h6⟩, State.scaleOff]
  rw [if_neg (by decide), if_neg (by omega), if_neg (by decide), if_neg (by decide), if_neg (by omega)]
  by_cases block : viewOf ea = 5
  · simp only [block, if_true] at range aligned ⊢
    rw [if_neg (by omega), if_neg (by omega), if_neg (by omega)]
  · simp only [block, if_false, false_and] at range aligned ⊢
    rw [if_neg (by omega), if_neg (by omega)]

theorem convBad_false : s.convBad ea n = false := by
  simp [State.convBad, State.memBad, h.clean]

theorem convAccess_unsigned : (u && viewOf ea != 6) = false := by
  cases u with
  | false => rfl
  | true => simp [h.u6 rfl]

end

/-- vldc whose access passes. -/
theorem exec_vldc {s : State} {t : ElemType} {a : Reg} {u : Bool} (h : ConvAccess s (s.reg a) t.lanes u) (d : Reg) (sat : Bool) :
    exec (.vldc t d a sat u) s = (s.lanewise t d noMask (s.convLoad t (s.reg a) sat u t.lanes)).fin := by
  have run : exec (.vldc t d a sat u) s = execVldc t d a sat u s := rfl
  rw [run, execVldc, convAccess_unsigned h, convTrap_none h, State.check_none, convBad_false h]
  rfl

/-- vstc whose access passes; a B4 type applies to view 0x5 only. -/
theorem exec_vstc {s : State} {t : ElemType} {a : Reg} {u : Bool} (h : ConvAccess s (s.reg a) t.lanes u) (d : Reg) (sat : Bool)
    {b4 : B4Type} (block : b4 = .int4 ∨ viewOf (s.reg a) = 5) :
    exec (.vstc t d a sat u b4) s = (s.convStore t d (s.reg a) sat u b4).fin := by
  have applies : (b4 != .int4 && viewOf (s.reg a) != 5) = false := by rcases block with h | h <;> simp [h]
  have run : exec (.vstc t d a sat u b4) s = execVstc t d a sat u b4 s := rfl
  rw [run, execVstc, convAccess_unsigned h, applies, Bool.or_self, convTrap_none h, State.check_none, convBad_false h]
  rfl

/-! Loads. -/

theorem width_eq_bytes (t : ElemType) : t.width = 8 * t.bytes := by cases t <;> rfl

/-- Every type has whole blocks of eight lanes. -/
theorem lanes_eq_blocks (t : ElemType) : t.lanes = 8 * (t.lanes / 8) := by cases t <;> rfl

/-- R47, R125: the elements that a converting load converts. -/
theorem convLoad_eq {s : State} {ea : Word} (view : 1 ≤ viewOf ea ∧ viewOf ea ≤ 6) (t : ElemType) (sat u : Bool) {k : Nat}
    (hk : k < t.lanes) : s.convLoad t ea sat u t.lanes k = convElement s t ea sat u k := by
  rw [State.convLoad, convElement]
  by_cases block : viewOf ea = 5
  · rw [if_pos block, if_pos block]
    have whole := lanes_eq_blocks t
    rw [State.b4At, b4Code, readBytes_getD _ _ (show k / 2 < t.lanes / 2 by omega), ← List.getD_eq_getElem?_getD,
      readBytes_getD _ _ (show k / 8 < t.lanes / 8 by omega)]
    rfl
  · rw [if_neg block, if_neg block]
    simp only [viewType_eq view]
    have size : (viewElement (viewOf ea) u).width / 8 = (viewElement (viewOf ea) u).bytes := rfl
    have inside : (viewElement (viewOf ea) u).bytes * k + (viewElement (viewOf ea) u).bytes ≤
        t.lanes * (viewElement (viewOf ea) u).bytes := by
      rw [← Nat.mul_succ, Nat.mul_comm]; exact Nat.mul_le_mul_right _ hk
    rw [elemBits_readBytes _ _ (by rwa [size]), size, Nat.mul_comm]

/-! Stores. -/

/-- Byte j of the i-th of packed elements of one size. -/
theorem flatMap_getD {α : Type} (f : α → List Byte) {n : Nat} (hf : ∀ x, (f x).length = n) (xs : List α) {i j : Nat}
    (hi : i < xs.length) (hj : j < n) : (xs.flatMap f).getD (n * i + j) 0 = (f xs[i]).getD j 0 := by
  rw [← flatMap_slice f hf xs i hi, List.getD_eq_getElem?_getD, List.getD_eq_getElem?_getD, List.getElem?_take_of_lt hj,
    List.getElem?_drop]

/-- A byte of a list that was written. -/
theorem read_writeBytes_getD (m : Memory) (a : Nat) (bs : List Byte) {k : Nat} (hk : k < bs.length) :
    (m.writeBytes a bs).read (a + k) = bs.getD k 0 := by
  rw [Memory.read_writeBytes_inside _ _ _ _ hk, List.getD_eq_getElem _ _ hk]

/-- The completion of an instruction that leaves another memory. -/
theorem completes_withMem {i : Instr} {s u : State} {m : Memory} {st : List (Nat × List Byte)}
    (run : exec i s = (withMem u m st).fin) : Completes i s { u.adv with c := { u.adv.c with mem := m, stale := st } } :=
  run.trans (congrArg Host.Outcome.next (adv_withMem u m st))

/-- R125: vstc through a view of numbers. -/
theorem completes_vstc {s : State} {t : ElemType} {a : Reg} {u : Bool} (h : ConvAccess s (s.reg a) t.lanes u) (d : Reg) (sat : Bool)
    (view : viewOf (s.reg a) ≠ 5) :
    let off := offOf (s.reg a)
    let e := viewElement (viewOf (s.reg a)) u
    ∃ m st fl, Completes (.vstc t d a sat u .int4) s
        { (s.addFlags fl).adv with c := { (s.addFlags fl).adv.c with mem := m, stale := st } } ∧
      (∀ k j, k < t.lanes → j < e.bytes → Memory.read m (off + k * e.bytes + j) =
        BitVec.ofNat 8 ((convert e t sat s.ftz (laneAt t (s.vreg d) k)).1 / 256 ^ j)) ∧
      (∀ bit, fl.getLsbD bit = true ↔
        ∃ k, k < t.lanes ∧ (convert e t sat s.ftz (laneAt t (s.vreg d) k)).2.getLsbD bit = true) ∧
      (∀ x, x < off ∨ off + t.lanes * e.bytes ≤ x → Memory.read m x = s.c.mem.read x) := by
  intro off e
  have run := exec_vstc h d sat (b4 := .int4) (.inl rfl)
  rw [State.convStore, if_neg view, viewType_eq h.view] at run
  let rs := (lanesOf t (s.vreg d)).map (convert e t sat s.ftz)
  have count : rs.length = t.lanes := by simp [rs, lanesOf]
  have length := flatMap_length_const (fun r : Nat × Flags => leBytes e.bytes r.1) (fun r => leBytes_length e.bytes r.1) rs
  rw [count] at length
  refine ⟨_, _, _, completes_withMem (u := s.addFlags (orFlags rs)) run, fun k j hk hj => ?_, fun bit => ?_, fun x apart => ?_⟩
  · have inside : e.bytes * k + j < e.bytes * t.lanes :=
      calc e.bytes * k + j < e.bytes * k + e.bytes := by omega
        _ = e.bytes * (k + 1) := (Nat.mul_succ ..).symm
        _ ≤ e.bytes * t.lanes := Nat.mul_le_mul_left _ hk
    rw [Nat.mul_comm k, Nat.add_assoc]
    refine (read_writeBytes_getD _ _ _ (by rwa [length])).trans ?_
    refine (flatMap_getD (fun r : Nat × Flags => leBytes e.bytes r.1) (fun r => leBytes_length e.bytes r.1) rs (by rwa [count])
      hj).trans ?_
    rw [List.getD_eq_getElem _ _ (by rwa [leBytes_length]), leBytes_getElem]
    simp [rs, lanesOf]
  · simp only [orFlags_bit, rs, lanesOf, List.map_map, List.mem_map, List.mem_range, Function.comp]
    constructor
    · rintro ⟨_, ⟨k, hk, rfl⟩, on⟩; exact ⟨k, hk, on⟩
    · rintro ⟨k, hk, on⟩; exact ⟨_, ⟨k, hk, rfl⟩, on⟩
  · refine Memory.read_writeBytes_outside _ _ _ _ ?_
    rwa [length, Nat.mul_comm]

/-! Blocks of the B4 family (R47, R49). -/

theorem b4Nearest_lt (t : B4Type) (neg : Bool) (m : Nat) (e : Int) : b4Nearest t neg m e < 16 := by
  cases t with
  | int4 => exact (b4Nearest_nearest (type := 0) (by decide) neg m e).1
  | e2m1 => exact (b4Nearest_nearest (type := 1) (by decide) neg m e).1
  | pow2 => exact (b4Nearest_nearest (type := 2) (by decide) neg m e).1
  | hyb => exact (b4Nearest_nearest (type := 3) (by decide) neg m e).1

theorem blockElement_lt (t : B4Type) (e : Nat) (x : Val) : (blockElement t e x).1 < 16 := by
  cases x with
  | fin neg m ex => exact b4Nearest_lt ..
  | _ => exact Nat.zero_lt_succ _

/-- R47: a code is four bits. -/
theorem b4Convert_code_lt (vs : List Val) (t : B4Type) : ∀ c ∈ (b4Convert vs t).1, c < 16 := by
  have zeros : ∀ c ∈ List.replicate 8 0, c < 16 := by decide
  rw [b4Convert_eq]
  split
  · exact zeros
  · split
    · exact zeros
    · simp only [List.mem_map]
      rintro _ ⟨x, -, rfl⟩
      exact blockElement_lt ..

theorem b4Bytes_length (cs : List Nat) : (b4Bytes cs).length = 4 := by simp [b4Bytes]

theorem getD_lt {cs : List Nat} {n : Nat} (pos : 0 < n) (h : ∀ c ∈ cs, c < n) (i : Nat) : cs.getD i 0 < n := by
  rw [List.getD_eq_getElem?_getD]
  cases hi : cs[i]? with
  | none => exact pos
  | some c => exact h c (List.mem_of_getElem? hi)

/-- R47: the nibbles of a block's bytes are its codes. -/
theorem b4Bytes_nibble {cs : List Nat} (h : ∀ c ∈ cs, c < 16) {i : Nat} (hi : i < 8) :
    ((b4Bytes cs).getD (i / 2) 0).toNat / 16 ^ (i % 2) % 16 = cs.getD i 0 := by
  obtain ⟨q, hq⟩ : ∃ q, i / 2 = q := ⟨_, rfl⟩
  have low := getD_lt (by decide) h (2 * q)
  have high := getD_lt (by decide) h (2 * q + 1)
  have byte : ((b4Bytes cs).getD q 0).toNat = cs.getD (2 * q) 0 + 16 * cs.getD (2 * q + 1) 0 := by
    rw [List.getD_eq_getElem _ _ (by rw [b4Bytes_length]; omega)]
    simp only [b4Bytes, List.getElem_map, List.getElem_range, BitVec.toNat_ofNat]
    exact Nat.mod_eq_of_lt (by omega)
  rw [hq, byte]
  rcases Nat.mod_two_eq_zero_or_one i with even | odd
  · obtain rfl : i = 2 * q := by omega
    rw [even, pow_zero, Nat.div_one]; omega
  · obtain rfl : i = 2 * q + 1 := by omega
    rw [odd, pow_one]; omega

/-- Local memory after blocks and their scale bytes were stored. -/
def blocksStored (m : Memory) (off scales : Nat) (bs : List (List Nat × Nat × Flags)) : Memory :=
  (m.writeBytes off (bs.flatMap fun b => b4Bytes b.1)).writeBytes scales (bs.map fun b => BitVec.ofNat 8 b.2.1)

section
variable (m : Memory) {off scales : Nat} {bs : List (List Nat × Nat × Flags)}

theorem blocksStored_scale {j : Nat} (hj : j < bs.length) :
    (blocksStored m off scales bs).read (scales + j) = BitVec.ofNat 8 bs[j].2.1 := by
  have inside : j < (bs.map fun b => BitVec.ofNat 8 b.2.1).length := by rwa [List.length_map]
  rw [blocksStored, Memory.read_writeBytes_inside _ _ _ _ inside, List.getElem_map]

theorem blocks_length : (bs.flatMap fun b => b4Bytes b.1).length = 4 * bs.length :=
  flatMap_length_const _ (fun b => b4Bytes_length b.1) bs

theorem blocksStored_code (small : ∀ b ∈ bs, ∀ c ∈ b.1, c < 16)
    (apart : off + 4 * bs.length ≤ scales ∨ scales + bs.length ≤ off) {j i : Nat} (hj : j < bs.length) (hi : i < 8) :
    ((blocksStored m off scales bs).read (off + (4 * j + i / 2))).toNat / 16 ^ (i % 2) % 16 = bs[j].1.getD i 0 := by
  have code := flatMap_getD (fun b : List Nat × Nat × Flags => b4Bytes b.1) (fun b => b4Bytes_length b.1) bs hj
    (show i / 2 < 4 by omega)
  rw [blocksStored, Memory.read_writeBytes_outside _ _ _ _ (by rw [List.length_map]; omega),
    read_writeBytes_getD _ _ _ (by rw [blocks_length]; omega), code]
  exact b4Bytes_nibble (small _ (List.getElem_mem hj)) hi

theorem blocksStored_outside {x : Nat} (h1 : x < off ∨ off + 4 * bs.length ≤ x) (h2 : x < scales ∨ scales + bs.length ≤ x) :
    (blocksStored m off scales bs).read x = m.read x := by
  rw [blocksStored, Memory.read_writeBytes_outside _ _ _ _ (by rwa [List.length_map]),
    Memory.read_writeBytes_outside _ _ _ _ (by rwa [blocks_length])]

end

/-- R125: vstc through view 0x5 stores the blocks, and keeps their flags. -/
theorem exec_vstc_block {s : State} {t : ElemType} {a : Reg} {u : Bool} (h : ConvAccess s (s.reg a) t.lanes u) (d : Reg)
    (sat : Bool) (b4 : B4Type) (view : viewOf (s.reg a) = 5) :
    let bs := s.b4Blocks t (s.vreg d) b4
    ∃ st, exec (.vstc t d a sat u b4) s = (withMem (s.addFlags (bs.foldl (fun f b => f ||| b.2.2) 0))
      (blocksStored s.c.mem (offOf (s.reg a)) (s.c.sbase.toNat + offOf (s.reg a) / 4) bs) st).fin := by
  intro bs
  have run := exec_vstc h d sat (b4 := b4) (.inr view)
  rw [State.convStore, if_pos view] at run
  exact ⟨_, run⟩

/-- R49, R125: the same by its codes and its scale bytes. -/
theorem completes_vstc_block {s : State} {t : ElemType} {a : Reg} {u : Bool} (h : ConvAccess s (s.reg a) t.lanes u) (d : Reg)
    (sat : Bool) (b4 : B4Type) (view : viewOf (s.reg a) = 5) :
    let off := offOf (s.reg a)
    let block (j : Nat) : List Nat × Nat × Flags :=
      b4Convert ((List.range 8).map fun i => toVal t s.ftz (laneAt t (s.vreg d) (8 * j + i))) b4
    let scales := s.c.sbase.toNat + off / 4
    off + t.lanes / 2 ≤ scales ∨ scales + t.lanes / 8 ≤ off → ∃ m st fl,
      Completes (.vstc t d a sat u b4) s { (s.addFlags fl).adv with c := { (s.addFlags fl).adv.c with mem := m, stale := st } } ∧
      (∀ k, k < t.lanes → (Memory.read m (off + k / 2)).toNat / 16 ^ (k % 2) % 16 = (block (k / 8)).1.getD (k % 8) 0) ∧
      (∀ j, j < t.lanes / 8 → Memory.read m (scales + j) = BitVec.ofNat 8 (block j).2.1) ∧
      (∀ bit, fl.getLsbD bit = true ↔ ∃ j, j < t.lanes / 8 ∧ (block j).2.2.getLsbD bit = true) ∧
      (∀ x, (x < off ∨ off + t.lanes / 2 ≤ x) → (x < scales ∨ scales + t.lanes / 8 ≤ x) →
        Memory.read m x = s.c.mem.read x) := by
  intro off block scales apart
  obtain ⟨st, run⟩ := exec_vstc_block h d sat b4 view
  have blocks : s.b4Blocks t (s.vreg d) b4 = (List.range (t.lanes / 8)).map block := rfl
  rw [blocks] at run
  have count : ((List.range (t.lanes / 8)).map block).length = t.lanes / 8 := by simp
  have whole := lanes_eq_blocks t
  have small : ∀ b ∈ (List.range (t.lanes / 8)).map block, ∀ c ∈ b.1, c < 16 := by
    simp only [List.mem_map]
    rintro _ ⟨j, -, rfl⟩
    exact b4Convert_code_lt _ b4
  refine ⟨_, st, _, completes_withMem run, fun k hk => ?_, fun j hj => ?_, fun bit => ?_, fun x h1 h2 => ?_⟩
  · have code := blocksStored_code s.c.mem (off := off) (scales := scales) small (by rw [count]; omega) (show k / 8 < _ by rw [count]; omega)
      (Nat.mod_lt k (show 0 < 8 by decide))
    rw [show 4 * (k / 8) + k % 8 / 2 = k / 2 by omega, show k % 8 % 2 = k % 2 by omega, List.getElem_map, List.getElem_range] at code
    exact code
  · rw [blocksStored_scale _ (by rwa [count]), List.getElem_map, List.getElem_range]
  · rw [getLsbD_foldl_or]
    simp
  · exact blocksStored_outside _ (by rw [count]; omega) (by rwa [count])

/-- Settles O28: an access that passes its checks converts element by element, or block by block through view 0x5. -/
theorem convertingLoadsAndStores : Obligations.ConvertingLoadsAndStores := by
  refine ⟨fun s t d a sat u h => ?_, fun s t d a sat u b4 h => ?_⟩
  · obtain ⟨x, fl, completes, lane, flag⟩ := completes_lanewise (exec_vldc h d sat)
      fun k hk => by rw [convLoad_eq h.view t sat u hk]; exact ⟨rfl, rfl⟩
    exact ⟨x, fl, completes, by simpa [noMask] using lane, by simpa [noMask] using flag⟩
  · intro off e lane block scales
    refine ⟨?_, fun view => completes_vstc_block h d sat b4 view⟩
    rintro view rfl
    exact completes_vstc h d sat view

end Sys2Proof.Proofs

namespace Sys2Proof.Proofs
open Machine

/-! # The issue of matrix instructions (R130 to R135, R213) -/

/-! A core outside a gang (R33, R139). -/

theorem gsz_eq (s : State) : s.gsz = s.c.status.toNat / 256 % 4 := by
  rw [State.gsz, BitVec.extractLsb'_toNat, Nat.shiftRight_eq_div_pow]

section
variable {s : State} (alone : s.c.status.toNat / 256 % 4 = 0) (op : Instr)
include alone

theorem gsz_zero : s.gsz = 0 := (gsz_eq s).trans alone

theorem gangMeets_alone : s.gangMeets op = some true := if_pos (.inl (gsz_zero alone))

theorem leaderSlot_alone : s.leaderSlot op = none := if_pos (.inl (gsz_zero alone))

theorem leaderTrap_alone : s.leaderTrap op = none := by simp only [State.leaderTrap, leaderSlot_alone alone]

theorem slewCount_alone : s.slewCount = 1 := by rw [State.slewCount, gsz_zero alone]; rfl

omit alone in
theorem slewRoll_slew (s : State) : s.slewRoll.t.slew = s.t.slew := by
  unfold State.slewRoll; dsimp only; split <;> rfl

end

/-- R213: the governor holds nothing back where its window covers the start. -/
theorem slewHolds_false {s : State} {op : Instr} (h : SliceReady s op) : s.slewHolds op = false := by
  cases mma : isMma op with
  | false => rw [State.slewHolds, mma, Bool.false_and]
  | true =>
    rw [State.slewHolds, mma, State.slewAllows, slewCount_alone h.alone, slewRoll_slew]
    rcases h.slew mma with off | covered
    · simp [off]
    · simp only [Nat.mul_one, Bool.true_and, Bool.not_eq_false', Bool.or_eq_true, decide_eq_true_eq]
      exact .inr (by omega)

/-! The checks of issue (R131, R132, R134). -/

section
variable {s : State} {h : HReg} (r : RingReady s h)
include r

theorem ringView_ready : s.ringView h = some (viewOf (s.handle h).base) := by
  rw [State.ringView, if_neg]
  rintro (unset | beyond)
  · exact handleFields_count_ne r.fields unset
  · exact absurd r.fields.1 (by omega)

theorem slotReady_ready : s.slotReady h = true := by
  rw [State.slotReady, filled_eq, decide_eq_true r.filled]

theorem ringHandleTrap_ready : s.ringHandleTrap h = none := by
  rw [State.ringHandleTrap, useHandle_none r.fields]
  exact if_neg (by have := r.size; omega)

end

/-- The views of these rings are those that the instruction accepts together (R131). -/
structure RingsFit (s : State) (op : Instr) (hs : List HReg) : Prop where
  ready : ∀ h ∈ hs, RingReady s h
  accepted : ∀ h ∈ hs, State.viewOk op (viewOf (s.handle h).base) = true
  together : ∀ h ∈ hs, ∀ k ∈ hs, viewClass (viewOf (s.handle k).base) = viewClass (viewOf (s.handle h).base)
  accumulate : ∀ h ∈ hs, State.accBadFor op (viewOf (s.handle h).base) = false

theorem ringsTrap_none {s : State} {op : Instr} {hs : List HReg} (fit : RingsFit s op hs) : s.ringsTrap op hs = none := by
  obtain ⟨ready, accepted, together, accumulate⟩ := fit
  have views : (hs.filterMap fun h => (s.ringView h).map fun v => (h, v)) = hs.map fun h => (h, viewOf (s.handle h).base) := by
    rw [← List.filterMap_eq_map]
    exact List.filterMap_congr fun h hh => by rw [ringView_ready (ready h hh)]; rfl
  have first : ((hs.map fun h => (h, viewOf (s.handle h).base)).find? fun p => !State.viewOk op p.2) = none := by
    simpa using accepted
  have second : ((hs.map fun h => (h, viewOf (s.handle h).base)).find? fun p =>
      (hs.map fun h => (h, viewOf (s.handle h).base)).any fun q => viewClass q.2 != viewClass p.2) = none := by
    simpa using together
  have third : ((hs.map fun h => (h, viewOf (s.handle h).base)).find? fun p => State.accBadFor op p.2) = none := by
    simpa using accumulate
  have fourth : ((hs.map fun h => (h, viewOf (s.handle h).base)).find? fun p =>
      p.2 == 5 && decide (0x9FFFF < s.scaleOff (s.nextSlot p.1) + 511)) = none := by
    simp only [List.find?_eq_none, List.mem_map]
    rintro _ ⟨h, hh, rfl⟩ beyond
    obtain ⟨block, beyond⟩ := (Bool.and_eq_true ..).mp beyond
    have inside := (ready h hh).scale (beq_iff_eq.mp block)
    have := of_decide_eq_true beyond
    simp only [State.scaleOff] at this
    omega
  rw [State.ringsTrap]
  simp only [views, first, second, third, fourth, ite_self]

theorem addrsTrap_none {as : List (Word × Nat × Nat)}
    (h : ∀ a ∈ as, viewOf a.1 = 0 ∧ offOf a.1 + a.2.1 ≤ 0xA0000 ∧ offOf a.1 % a.2.2 = 0) : State.addrsTrap as = none := by
  have first : (as.find? fun a => viewOf a.1 != 0 && !reservedView (viewOf a.1)) = none := by
    simp only [List.find?_eq_none]
    intro a ha; simp [(h a ha).1]
  have second : (as.find? fun a => viewOf a.1 != 0 || decide (0x9FFFF < offOf a.1 + a.2.1 - 1)) = none := by
    simp only [List.find?_eq_none]
    intro a ha
    have := (h a ha).2.1
    simp [(h a ha).1]; omega
  have third : (as.find? fun a => offOf a.1 % a.2.2 != 0) = none := by
    simp only [List.find?_eq_none]
    intro a ha; simp [(h a ha).2.2]
  rw [State.addrsTrap, first, second, third]

theorem tileTrap_ready {s : State} {t : AccType} {b : Reg} (h : TileReady s t b) : s.tileTrap t b = none := by
  have all : (tileBanks t b).all s.allocated = true := by
    rw [List.all_eq_true]
    exact fun x hx => (allocated_eq s x).trans (h.allocated x hx).2
  rw [State.tileTrap, if_neg, if_pos all]
  simp only [Bool.and_eq_true, beq_iff_eq, not_and]
  exact fun wide => by have := h.even wide; omega

/-- R28: a bank that is not allocated traps. -/
theorem tileTrap_free {s : State} {t : AccType} {b : Reg} (h : ∃ k ∈ tileBanks t b, s.c.accmap.getLsbD k = false) :
    s.tileTrap t b = some ⟨.accBank, 0, 0⟩ := by
  obtain ⟨k, hk, free⟩ := h
  have missing : ¬(tileBanks t b).all s.allocated = true := by
    rw [List.all_eq_true]
    exact fun all => by have := (allocated_eq s k).symm.trans (all k hk); rw [free] at this; cases this
  rw [State.tileTrap, if_neg missing, ite_self]

/-- What a matrix instruction names is ready: its rings, its addresses and its tile. -/
structure OperandsReady (s : State) (op : Instr) : Prop where
  rings : RingsFit s op (s.mxRings op)
  addrs : ∀ a ∈ s.mxAddrs op, viewOf a.1 = 0 ∧ offOf a.1 + a.2.1 ≤ 0xA0000 ∧ offOf a.1 % a.2.2 = 0
  tile : ∀ p, mxTile op = some p → TileReady s p.1 p.2

theorem mxTrap_none {s : State} {op : Instr} (h : OperandsReady s op) : s.mxTrap op = none := by
  have ready := h.rings.ready
  have tile : ((mxTile op).bind fun p => s.tileTrap p.1 p.2) = none := by
    rw [Option.bind_eq_none_iff]
    exact fun p hp => tileTrap_ready (h.tile p hp)
  have handles : (s.mxRings op).findSome? s.ringHandleTrap = none := by
    rw [List.findSome?_eq_none_iff]
    exact fun x hx => ringHandleTrap_ready (ready x hx)
  have slots : ((s.mxRings op).find? fun x => !s.slotReady x) = none := by
    rw [List.find?_eq_none]
    exact fun x hx => by simp [slotReady_ready (ready x hx)]
  rw [State.mxTrap]
  simp only [ringsTrap_none h.rings, addrsTrap_none h.addrs, tile, handles, slots]

/-- R132: with everything ready a matrix instruction enters the queue. -/
theorem enqueues_ready {s : State} {i : Instr} {q : MxOp} (run : exec i s = s.mxIssue i) (slice : SliceReady s i)
    (ready : OperandsReady s i) (entry : s.mxEntry i = q) : Enqueues i s q := by
  have slots : ((s.mxRings i).any fun h => !s.slotReady h) = false := by
    rw [List.any_eq_false]
    exact fun h hh => by simp [slotReady_ready (ready.rings.ready h hh)]
  have room := slice.room
  refine ⟨(s.mxEnter i).row, ?_⟩
  rw [run, State.mxIssue, State.classC_compute _ _ slice.compute, mxTrap_none ready, State.check_none, slots, if_neg (by decide),
    gangMeets_alone slice.alone]
  simp only [leaderTrap_alone slice.alone, State.check_none, slice.head, slewHolds_false slice]
  rw [if_neg (by simpa using room), ← entry]
  rfl

/-! The rings and the entries of the instructions. -/

section
variable {s : State} (alone : s.c.status.toNat / 256 % 4 = 0)
include alone

theorem mem_mxRings_mma {acc : AccType} {d : Reg} {x y h : HReg} (hh : h ∈ s.mxRings (.mma acc d x y)) : h = x ∨ h = y := by
  rw [State.mxRings, if_neg (by simp [gsz_zero alone])] at hh
  split at hh <;> simp at hh <;> tauto

theorem mem_mxRings_mmai {sat ua ub : Bool} {d : Reg} {x y h : HReg} (hh : h ∈ s.mxRings (.mmai sat ua ub d x y)) :
    h = x ∨ h = y := by
  rw [State.mxRings, if_neg (by simp [gsz_zero alone])] at hh
  split at hh <;> simp at hh <;> tauto

end

/-- Rings of view 0x6 fit every instruction but mma. -/
theorem ringsFit_int8 {s : State} {op : Instr} {hs : List HReg} (ready : ∀ h ∈ hs, RingReady s h)
    (int8 : ∀ h ∈ hs, viewOf (s.handle h).base = 6) (ok : State.viewOk op 6 = true) (acc : State.accBadFor op 6 = false) :
    RingsFit s op hs where
  ready := ready
  accepted h hh := by rw [int8 h hh, ok]
  together h hh k hk := by rw [int8 h hh, int8 k hk]
  accumulate h hh := by rw [int8 h hh, acc]

theorem ringsFit_nil (s : State) (op : Instr) : RingsFit s op [] :=
  ⟨nofun, nofun, nofun, nofun⟩

theorem offOf_mod (x : Word) {k : Nat} (hk : k ∣ 2 ^ 28) (h : x.toNat % k = 0) : offOf x % k = 0 := by
  rw [offOf, Nat.mod_mod_of_dvd _ hk, h]

/-- Settles O29: what each instruction names is ready by its hypotheses, and its entry is the one recorded. -/
theorem matrixInstructionsEnterTheQueue : Obligations.MatrixInstructionsEnterTheQueue := by
  intro s acc o sat ua ub bc d a b x y view entry pair
  have one {i : Instr} {t : AccType} {r : Reg} (tile : mxTile i = some (t, r)) (ready : TileReady s t r) :
      ∀ p, mxTile i = some p → TileReady s p.1 p.2 := by
    rintro p hp; cases tile.symm.trans hp; exact ready
  refine ⟨?_, ?_, ?_, ?_, ?_, ?_, ?_, ?_, ?_, ?_, ?_⟩
  · intro float slice tile rx ry x1 x5 y1 y5 same wide
    have ring {h : HReg} (hh : h ∈ s.mxRings (.mma acc d x y)) : h = x ∨ h = y := mem_mxRings_mma slice.alone hh
    have fit : RingsFit s (.mma acc d x y) (s.mxRings (.mma acc d x y)) := {
      ready := fun h hh => by rcases ring hh with rfl | rfl <;> assumption
      accepted := fun h hh => by rcases ring hh with rfl | rfl <;> exact decide_eq_true ⟨by assumption, by assumption⟩
      together := fun h hh k hk => by
        rcases ring hh with rfl | rfl <;> rcases ring hk with rfl | rfl
        · rfl
        · exact same.symm
        · exact same
        · rfl
      accumulate := fun h hh => by
        have narrow : viewClass (view h) = viewClass (view x) := by
          rcases ring hh with rfl | rfl
          · rfl
          · exact same.symm
        simp only [State.accBadFor, Bool.and_eq_false_imp, beq_iff_eq, bne_eq_false_iff_eq]
        exact fun two => wide (narrow.symm.trans two) }
    exact enqueues_ready rfl slice ⟨fit, nofun, one rfl tile⟩ (by simp only [State.mxEntry, leaderSlot_alone slice.alone]; rfl)
  · intro slice tile rx ry vx vy
    have ring {h : HReg} (hh : h ∈ s.mxRings (.mmai sat ua ub d x y)) : h = x ∨ h = y := mem_mxRings_mmai slice.alone hh
    have fit := ringsFit_int8 (op := .mmai sat ua ub d x y) (hs := s.mxRings (.mmai sat ua ub d x y))
      (fun h hh => by rcases ring hh with rfl | rfl <;> assumption)
      (fun h hh => by rcases ring hh with rfl | rfl <;> assumption) rfl rfl
    exact enqueues_ready rfl slice ⟨fit, nofun, one rfl tile⟩ (by simp only [State.mxEntry, leaderSlot_alone slice.alone]; rfl)
  · intro slice tile
    exact enqueues_ready rfl slice ⟨ringsFit_nil .., nofun, one rfl tile⟩ rfl
  · intro slice tile raw range aligned
    refine enqueues_ready rfl slice ⟨ringsFit_nil .., ?_, one rfl tile⟩ rfl
    exact List.forall_mem_singleton.mpr ⟨raw, range, offOf_mod _ (k := 64) (by decide) aligned⟩
  · intro slice tile raw range aligned
    refine enqueues_ready rfl slice ⟨ringsFit_nil .., ?_, one rfl tile⟩ rfl
    exact List.forall_mem_singleton.mpr ⟨raw, range, offOf_mod _ (k := 64) (by decide) aligned⟩
  · intro slice tile raw range aligned rawT rangeT alignedT
    refine enqueues_ready rfl slice ⟨ringsFit_nil .., ?_, one rfl tile⟩ rfl
    exact List.forall_mem_cons.mpr ⟨⟨raw, range, offOf_mod _ (k := 64) (by decide) aligned⟩,
      List.forall_mem_singleton.mpr ⟨rawT, rangeT, offOf_mod _ (k := 4) (by decide) alignedT⟩⟩
  · intro slice tile rx vx
    exact enqueues_ready rfl slice ⟨ringsFit_int8 (List.forall_mem_singleton.mpr rx) (List.forall_mem_singleton.mpr vx) rfl rfl,
      nofun, one rfl tile⟩ rfl
  · intro slice tile rx vx
    exact enqueues_ready rfl slice ⟨ringsFit_int8 (List.forall_mem_singleton.mpr rx) (List.forall_mem_singleton.mpr vx) rfl rfl,
      nofun, one rfl tile⟩ rfl
  · intro hx empty
    have run : exec (.mwait d) s = _ := State.classC_compute _ _ hx
    rw [Leaves, run, if_neg (not_not.mpr empty)]; rfl
  · intro hx queued
    have run : exec (.mwait d) s = _ := State.classC_compute _ _ hx
    rw [Waits, run, if_pos queued]; rfl
  · intro hx free
    have run : exec (.mzero acc d) s = s.mxIssue (.mzero acc d) := rfl
    have trap : s.mxTrap (.mzero acc d) = some ⟨.accBank, 0, 0⟩ := by
      have rings : s.ringsTrap (.mzero acc d) (s.mxRings (.mzero acc d)) = none := ringsTrap_none (ringsFit_nil ..)
      have addrs : State.addrsTrap (s.mxAddrs (.mzero acc d)) = none := addrsTrap_none nofun
      have tile : ((mxTile (.mzero acc d)).bind fun p => s.tileTrap p.1 p.2) = some ⟨.accBank, 0, 0⟩ := tileTrap_free free
      simp only [State.mxTrap, rings, addrs, tile]
    rw [Traps, run, State.mxIssue, State.classC_compute _ _ hx, trap, State.check_some, State.raise_compute _ _ hx]

end Sys2Proof.Proofs

namespace Sys2Proof.Proofs
open Machine

/-! # The starts of matrix instructions and the governor's window (R132, R213) -/

/-- The tile's governor with the windows ended that have passed. -/
def rolled (t : Tile) : Tile :=
  if t.clock / 64 ≤ t.slewWin then t else { t with
    slewWin := t.clock / 64, slewPrev := if t.clock / 64 = t.slewWin + 1 then t.slewCur else 0, slewCur := 0, slewFrom := t.slewLast }

/-- The window of a tile's governor covers n more starts. -/
def covers (t : Tile) (n : Nat) : Prop := t.slew = 0 ∨ t.slewCur + n ≤ t.slewPrev + t.slew.toNat

theorem slewRoll_eq (s : State) : s.slewRoll = { s with t := rolled s.t } := by
  unfold State.slewRoll rolled
  dsimp only
  split <;> rfl

/-- A window that is up to date stays. -/
theorem rolled_current {t : Tile} (h : t.clock / 64 ≤ t.slewWin) : rolled t = t := if_pos h

theorem rolled_window (t : Tile) : (rolled t).clock / 64 ≤ (rolled t).slewWin := by
  unfold rolled; split
  · assumption
  · exact le_rfl

/-- The starts of a gang, by the size in c.status (R33, R139). -/
theorem slewCount_eq (s : State) : s.slewCount =
    if s.c.status.toNat / 256 % 4 = 0 then 1 else if s.c.status.toNat / 256 % 4 = 1 then 2 else 4 := by
  rw [State.slewCount, gsz_eq]
  generalize s.c.status.toNat / 256 % 4 = size
  match size with
  | 0 => rfl
  | 1 => rfl
  | _ + 2 => rfl

theorem slewAllows_iff (s : State) : s.slewAllows 0 = true ↔ covers (rolled s.t) s.slewCount := by
  simp [State.slewAllows, slewRoll_eq, covers]

theorem slewStart_eq (s : State) (i n : Nat) :
    s.slewStart i n = { s with t := { rolled s.t with slewCur := (rolled s.t).slewCur + n, slewLast := i } } := by
  rw [State.slewStart, slewRoll_eq]

/-! The oldest instruction of the queue. -/

section
variable {s : State} {q : MxOp} {qs : List MxOp} (queue : s.c.mx = q :: qs)
include queue

theorem mxStart_started (h : q.started = true) : s.mxStart = s := by
  unfold State.mxStart
  rw [queue]
  simp only [h, if_true]

variable (new : q.started = false)
include new

theorem mxStart_plain (plain : isMma q.op = false) :
    s.mxStart = { s with c := { s.c with mx := { q with started := true } :: qs } } := by
  unfold State.mxStart
  rw [queue]
  simp only [new, plain, Bool.false_and, Bool.false_eq_true, if_false]

theorem mxStart_covered (mma : isMma q.op = true) (h : covers (rolled s.t) s.slewCount) : s.mxStart = { s with
    t := { rolled s.t with slewCur := (rolled s.t).slewCur + s.slewCount, slewLast := s.t.idx.val }
    c := { s.c with mx := { q with started := true } :: qs } } := by
  unfold State.mxStart
  rw [queue]
  simp only [new, mma, (slewAllows_iff s).mpr h, Bool.true_and, Bool.not_true, Bool.false_eq_true, if_false, if_true, slewStart_eq]

theorem mxStart_held (mma : isMma q.op = true) (h : ¬covers (rolled s.t) s.slewCount) : s.mxStart = s := by
  unfold State.mxStart
  rw [queue]
  simp only [new, mma, Bool.eq_false_iff.mpr (mt (slewAllows_iff s).mp h), Bool.true_and, Bool.not_false, Bool.false_eq_true, if_false,
    if_true]

end

/-! Several cores in one cc. -/

section
variable (s : State) (n : Nat) {i : Nat} (other : i ≠ s.t.idx.val)
include other

theorem slewServe_covered (h : covers (rolled s.t) n) : s.slewServe n i =
    { s with t := { rolled s.t with slewCur := (rolled s.t).slewCur + n, slewLast := i } } := by
  rw [← slewStart_eq, State.slewServe, slewRoll_eq, if_neg other, if_pos]
  simpa [covers] using h

theorem slewServe_held (h : ¬covers (rolled s.t) n) : s.slewServe n i = s := by
  rw [State.slewServe, slewRoll_eq, if_neg other, if_neg]
  simpa [covers] using h

end

/-- The cores of a tile in the order in which they are served, from the one after `from_` on. -/
def servingOrder (from_ : Nat) : List Nat := (List.range 16).map fun k => (from_ + 1 + k) % 16

theorem servingOrder_filter (from_ : Nat) (p : Nat → Bool) : (servingOrder from_).filter p =
    ((List.range 16).filter fun k => p ((from_ + 1 + k) % 16)).map fun k => (from_ + 1 + k) % 16 := by
  rw [servingOrder, List.filter_map]; rfl

/-- The numbers below n that are among an ascending list of them. -/
theorem filter_range_eq {n : Nat} {xs : List Nat} (sorted : xs.SortedLT) {p : Nat → Bool} (h : ∀ k, k < n → (p k = true ↔ k ∈ xs))
    (below : ∀ k ∈ xs, k < n) : (List.range n).filter p = xs := by
  have range : ((List.range n).filter p).SortedLT := (List.pairwise_lt_range.filter p).sortedLT
  refine range.eq_of_mem_iff sorted fun k => ?_
  rw [List.mem_filter, List.mem_range]
  exact ⟨fun ⟨hk, hp⟩ => (h k hk).mp hp, fun hk => ⟨below k hk, (h k (below k hk)).mpr hk⟩⟩

theorem serves_one (from_ : Nat) {i : Nat} (hi : i < 16) : (servingOrder from_).filter [i].contains = [i] := by
  have place : (List.range 16).filter (fun k => [i].contains ((from_ + 1 + k) % 16)) = [(i + 15 - from_ % 16) % 16] :=
    filter_range_eq (by simp [List.sortedLT_iff_pairwise]) (fun k hk => by simp; omega) (by simp; omega)
  rw [servingOrder_filter, place, List.map_singleton]
  exact congrArg (fun x => [x]) (by omega)

theorem serves_two {from_ i j : Nat} (hi : i < 16) (hj : j < 16) (hf : from_ < 16)
    (first : (i + 15 - from_) % 16 < (j + 15 - from_) % 16) {xs : List Nat} (hx : xs = [i, j] ∨ xs = [j, i]) :
    (servingOrder from_).filter xs.contains = [i, j] := by
  have mem (x : Nat) : xs.contains x = true ↔ x = i ∨ x = j := by rcases hx with rfl | rfl <;> simp [or_comm]
  have places : (List.range 16).filter (fun k => xs.contains ((from_ + 1 + k) % 16)) =
      [(i + 15 - from_) % 16, (j + 15 - from_) % 16] :=
    filter_range_eq (by simpa [List.sortedLT_iff_pairwise] using first) (fun k hk => by rw [mem]; simp; omega) (by simp; omega)
  rw [servingOrder_filter, places, List.map_cons, List.map_singleton]
  exact congrArg₂ (fun x y => [x, y]) (by omega) (by omega)

theorem completes_matrixStart_several {s : State} (flag : s.input.flag = true) {xs : List Nat}
    (order : (servingOrder (rolled s.t).slewFrom).filter s.input.nums.contains = xs) :
    Completes .matrixStart s (xs.foldl (State.slewServe s.input.n) s) := by
  show execMatrixStart s = _
  rw [execMatrixStart, if_pos flag, slewRoll_eq, ← order]; rfl

theorem completes_matrixStart_alone {s t : State} (flag : s.input.flag = false) (start : s.mxStart = t) :
    Completes .matrixStart s t := by
  show execMatrixStart s = _
  rw [execMatrixStart, flag, if_neg (by decide), start]

/-- R213: the starts of several cores in one cc. -/
theorem matrixStart_several (s : State) (flag : s.input.flag = true) {i j : Nat} (hi : i < 16) (hj : j < 16)
    (oi : i ≠ s.t.idx.val) (oj : j ≠ s.t.idx.val) :
    let counted : State := { s with t := { rolled s.t with slewCur := (rolled s.t).slewCur + s.input.n, slewLast := i } }
    (s.input.nums = [i] → covers (rolled s.t) s.input.n → Completes .matrixStart s counted) ∧
    (s.input.nums = [i] → ¬covers (rolled s.t) s.input.n → Completes .matrixStart s s) ∧
    (s.input.nums = [i, j] ∨ s.input.nums = [j, i] → covers (rolled s.t) s.input.n → ¬covers (rolled s.t) (2 * s.input.n) →
      (rolled s.t).slewFrom < 16 → (i + 15 - (rolled s.t).slewFrom) % 16 < (j + 15 - (rolled s.t).slewFrom) % 16 →
      Completes .matrixStart s counted) := by
  intro counted
  refine ⟨fun one room => ?_, fun one full => ?_, fun two room full hf first => ?_⟩
  · have run := completes_matrixStart_several (xs := [i]) flag (by rw [one]; exact serves_one _ hi)
    rwa [List.foldl_cons, List.foldl_nil, slewServe_covered s _ oi room] at run
  · have run := completes_matrixStart_several (xs := [i]) flag (by rw [one]; exact serves_one _ hi)
    rwa [List.foldl_cons, List.foldl_nil, slewServe_held s _ oi full] at run
  · have run := completes_matrixStart_several flag (serves_two hi hj hf first two)
    have current : rolled counted.t = counted.t := rolled_current (rolled_window s.t)
    have held : ¬covers (rolled counted.t) s.input.n := by
      rw [current]
      simpa only [covers, counted, Nat.two_mul, Nat.add_assoc] using full
    have idx : counted.t.idx = s.t.idx := by
      show (rolled s.t).idx = s.t.idx
      unfold rolled; split <;> rfl
    rwa [List.foldl_cons, List.foldl_cons, List.foldl_nil, slewServe_covered s _ oi room,
      slewServe_held counted _ (by rwa [idx]) held] at run

end Sys2Proof.Proofs

namespace Sys2Proof.Proofs
open Machine

/-! # The retirement of matrix instructions on integers (R130 to R134) -/

/-! Retirement: the effect, then the pops, the status and a drain's arrival. -/

@[simp] theorem popOf_s (s : State) (h : Option HReg) : (popOf s h).c.s = s.c.s := by cases h <;> rfl

/-- What a retirement without errors leaves, by its effect. -/
structure Retires (s : State) (q : MxOp) (e t : State) : Prop where
  mx : t.c.mx = e.c.mx
  mem : t.c.mem = e.c.mem
  acc : t.c.acc = e.c.acc
  regs : t.c.s = e.c.s
  handles : t.c.h = (popOf (popOf e q.popA) q.popB).c.h

/-- An engine's arrival changes the barriers only. -/
theorem engineArrive_eq (s : State) (src : BitVec 2) (bits : Word) :
    ∃ bar cycleBar, s.engineArrive src bits = { s with c := { s.c with bar := bar, cycleBar := cycleBar } } :=
  ⟨_, _, by rw [State.engineArrive, State.engineBarriers]⟩

theorem mxRetire_eq {s : State} (hm : s.c.memErr = []) (ha : s.c.accErr = []) (q : MxOp) : ∃ w status,
    let u := popOf (popOf (s.mxEffect q).1 q.popA) q.popB
    let v : State := { u with c := { u.c with mxStatus := status } }
    s.mxRetire q = if isDrain q.op then v.engineArrive 1 w else v := by
  unfold State.mxRetire
  rw [mxErrors_clean hm ha]
  exact ⟨_, _, rfl⟩

theorem retires_mxEffect {s : State} (hm : s.c.memErr = []) (ha : s.c.accErr = []) (q : MxOp) :
    Retires s q (s.mxEffect q).1 (s.mxRetire q) := by
  obtain ⟨w, status, eq⟩ := mxRetire_eq hm ha q
  rw [eq]
  split
  · obtain ⟨bar, cycleBar, arrive⟩ := engineArrive_eq (_ : State) 1 w
    rw [arrive]
    exact ⟨by simp, by simp, by simp, by simp, rfl⟩
  · exact ⟨by simp, by simp, by simp, by simp, rfl⟩

theorem mxEffect_mx (s : State) (q : MxOp) : (s.mxEffect q).1.c.mx = s.c.mx := by
  unfold State.mxEffect
  split <;> rfl

theorem mxEffect_s (s : State) (q : MxOp) : (s.mxEffect q).1.c.s = s.c.s := by
  unfold State.mxEffect
  split <;> rfl

/-! A tile that is written. -/

/-- The tile of a state holds these elements, and no other byte of the banks has changed. -/
structure TileHolds (old new : Memory) (t : AccType) (d : Reg) (x : Nat → Nat) : Prop where
  element : ∀ n, n < 1024 → tileElement new t d n = x n
  outside : ∀ k, k < 0x800 * d.val ∨ 0x800 * d.val + t.tileBytes ≤ k → new.read k = old.read k

theorem tileHolds_mxTileOut (s : State) (t : AccType) (d : Reg) {xs : List Nat} {x : Nat → Nat} (hx : xs.length = 1024)
    (h : ∀ n, n < 1024 → xs[n]? = some (x n)) (small : ∀ n, n < 1024 → x n < 256 ^ t.size) :
    TileHolds s.c.acc (s.mxTileOut t d xs).c.acc t d x where
  element n hn := tileElement_setTile s t d hx (h n hn) (small n hn)
  outside _ hk := setTile_outside s t d hx hk

/-- R133: an update element by element. -/
theorem tileHolds_mxUpdate (s : State) (t : AccType) (d : Reg) {f : Nat → Nat → Nat × Word} {x : Nat → Nat}
    (h : ∀ n, n < 1024 → (f n (tileElement s.c.acc t d n)).1 = x n) (small : ∀ n, n < 1024 → x n < 256 ^ t.size) :
    TileHolds s.c.acc (s.mxUpdate t d f).1.c.acc t d x := by
  refine tileHolds_mxTileOut s t d (by simp [tileElems_length]) (fun n hn => ?_) small
  have old : (s.tileElems t d)[n]? = some (tileElement s.c.acc t d n) := by
    have inside : n < (s.tileElems t d).length := by rwa [tileElems_length]
    rw [List.getElem?_eq_getElem inside, tileElems_getElem]
  simp [old, h n hn]

/-! Integer rows and sums (R55, R131). -/

theorem signedOf_eq (w x : Nat) : signedOf w x = signedBits w x := by
  unfold signedOf signedBits; rfl

theorem rneShift_eq (x : Int) (sh : Nat) : rneShift x sh = roundedShift x sh := by
  unfold rneShift roundedShift
  dsimp only
  generalize x % 2 ^ sh = r
  generalize x / 2 ^ sh = q
  generalize (2 : Int) ^ sh = d
  have parity := Int.emod_two_eq q
  by_cases h : d < 2 * r ∨ (d = 2 * r ∧ q % 2 = 1)
  · rw [if_pos h, if_neg (by omega)]
  · rw [if_neg h, if_pos (by omega)]

theorem accumI_eq (sat : Bool) (old : Nat) (d : Int) : (accumI sat old d).1 = laneBits .i32 sat (signedBits 32 old + d) := by
  rw [← signedOf_eq]; rfl

theorem laneBits_i32_lt (sat : Bool) (x : Int) : laneBits .i32 sat x < 2 ^ 32 := by
  show (_ % (2 : Int) ^ 32).toNat < 2 ^ 32
  omega

/-- Row or column r of a slot of local memory. -/
theorem rowInts_eq (m : Memory) (off : Nat) {r : Nat} (hr : r < 32) (u : Bool) :
    rowInts u (m.readBytes off 2048) r = (List.range 64).map fun k => slotByte m off r k u := by
  rw [rowInts, readBytes_slice m off (by omega), Memory.readBytes, List.map_map]
  refine List.map_congr_left fun k _ => ?_
  cases u with
  | true => exact congrArg Int.ofNat (Nat.mod_eq_of_lt (m.read (off + 64 * r + k)).isLt)
  | false => exact signedOf_eq 8 _

theorem rows_getD (m : Memory) (off : Nat) (u : Bool) {r : Nat} (hr : r < 32) :
    ((List.range 32).map (rowInts u (m.readBytes off 2048))).getD r [] = (List.range 64).map fun k => slotByte m off r k u := by
  rw [List.getD_eq_getElem _ _ (by simpa using hr), List.getElem_map, List.getElem_range, rowInts_eq m off hr]

theorem foldl_add_eq_sum (xs : List Int) : xs.foldl (· + ·) 0 = xs.sum := List.sum_eq_foldl.symm

theorem intDot_map (f g : Nat → Int) (n : Nat) :
    intDot ((List.range n).map f) ((List.range n).map g) = ((List.range n).map fun k => f k * g k).sum := by
  rw [intDot, foldl_add_eq_sum, List.zipWith_map, List.zipWith_self]

/-! The effects (R133, R134). -/

section
variable (s : State) {q : MxOp}

theorem effect_mzero {t : AccType} {d : Reg} (op : q.op = .mzero t d) :
    (s.mxEffect q).1.c.mem = s.c.mem ∧ TileHolds s.c.acc (s.mxEffect q).1.c.acc t d fun _ => 0 := by
  simp only [State.mxEffect, op]
  refine ⟨rfl, tileHolds_mxTileOut s t d List.length_replicate (fun n hn => ?_) fun _ _ => by positivity⟩
  rw [List.getElem?_replicate, if_pos hn]

theorem effect_mload {t : AccType} {bc : Bool} {d a : Reg} (op : q.op = .mload t bc d a) :
    (s.mxEffect q).1.c.mem = s.c.mem ∧ TileHolds s.c.acc (s.mxEffect q).1.c.acc t d fun n =>
      littleEndian s.c.mem (offOf q.opnd + t.size * (if bc then n % 32 else n)) t.size := by
  simp only [State.mxEffect, op]
  refine ⟨rfl, tileHolds_mxTileOut s t d (by simp) (fun n hn => ?_) fun n _ => littleEndian_lt ..⟩
  have size : 8 * t.size / 8 = t.size := by omega
  have inside : t.size * (if bc then n % 32 else n) + t.size ≤ mloadBytes t bc := by
    rw [← Nat.mul_succ, mloadBytes, AccType.tileBytes]
    cases bc with
    | false => rw [Nat.mul_comm]; exact Nat.mul_le_mul_right _ hn
    | true =>
      rw [if_pos rfl, if_pos rfl, show 1024 * t.size / 32 = t.size * 32 by omega]
      exact Nat.mul_le_mul_left _ (Nat.mod_lt n (by decide))
  simp only [List.getElem?_map, List.getElem?_range hn, Option.map_some]
  rw [elemBits_readBytes _ _ (by rwa [size]), size]

theorem effect_mdrain {t : AccType} {d a : Reg} (op : q.op = .mdrain t d a) :
    (s.mxEffect q).1.c.acc = s.c.acc ∧
    (∀ k, k < t.tileBytes → (s.mxEffect q).1.c.mem.read (offOf q.opnd + k) = s.c.acc.read (0x800 * a.val + k)) ∧
    ∀ k, k < offOf q.opnd ∨ offOf q.opnd + t.tileBytes ≤ k → (s.mxEffect q).1.c.mem.read k = s.c.mem.read k := by
  simp only [State.mxEffect, op]
  have length : (s.c.acc.readBytes (0x800 * a.val) t.tileBytes).length = t.tileBytes := Memory.readBytes_length ..
  refine ⟨rfl, fun k hk => ?_, fun k hk => Memory.read_writeBytes_outside _ _ _ _ (by rwa [length])⟩
  refine (Memory.read_writeBytes_inside _ _ _ _ (by rwa [length])).trans ?_
  rw [Memory.readBytes_getElem]

/-- Bytes of a number in two's complement. -/
theorem byte_wrapInt (z : Int) {n j : Nat} (hn : n = 1 ∨ n = 2) (hj : j < n) :
    BitVec.ofNat 8 (wrapInt (8 * n) z / 256 ^ j) = BitVec.ofInt 8 (z / 256 ^ j) := by
  apply BitVec.eq_of_toNat_eq
  rw [BitVec.toNat_ofNat, BitVec.toNat_ofInt, wrapInt]
  rcases hn with rfl | rfl
  · obtain rfl : j = 0 := by omega
    omega
  · obtain rfl | rfl : j = 0 ∨ j = 1 := by omega
    · omega
    · omega

/-- The range of an output element of mdrq (R134). -/
def requantMin (o : DrqType) : Int := match o with | .i8 => -128 | .u8 => 0 | .i16 => -32768
def requantMax (o : DrqType) : Int := match o with | .i8 => 127 | .u8 => 255 | .i16 => 32767

/-- R134: a byte of a requantised element. -/
theorem requant_byte (o : DrqType) (x m : Int) (sh : Nat) {j : Nat} (hj : j < o.bytes) :
    BitVec.ofNat 8 ((requant o x m sh).1 / 256 ^ j) =
      BitVec.ofInt 8 (Max.max (requantMin o) (Min.min (requantMax o) (roundedShift (x * m) sh)) / 256 ^ j) := by
  rw [← rneShift_eq]
  cases o with
  | i8 => exact byte_wrapInt _ (.inl rfl) hj
  | u8 => exact byte_wrapInt _ (.inl rfl) hj
  | i16 => exact byte_wrapInt _ (.inr rfl) hj

theorem effect_mdrq {o : DrqType} {d a b : Reg} (op : q.op = .mdrq o d a b) :
    (s.mxEffect q).1.c.acc = s.c.acc ∧
    (∀ n j, n < 1024 → j < o.bytes →
      let x := signedBits 32 (tileElement s.c.acc .i32 a n)
      let m := signedBits 32 (littleEndian s.c.mem (offOf q.tbl + 4 * (n % 32)) 4)
      let r := roundedShift (x * m) ((s.c.mem.read (offOf q.tbl + 128 + n % 32)).toNat % 64)
      (s.mxEffect q).1.c.mem.read (offOf q.opnd + o.bytes * n + j) =
        BitVec.ofInt 8 (Max.max (requantMin o) (Min.min (requantMax o) r) / 256 ^ j)) ∧
    ∀ k, k < offOf q.opnd ∨ offOf q.opnd + 1024 * o.bytes ≤ k → (s.mxEffect q).1.c.mem.read k = s.c.mem.read k := by
  simp only [State.mxEffect, op]
  let rs := (s.tileElems .i32 a).mapIdx fun n x => requant o (signedOf 32 x)
    (signedOf 32 (State.elemBits (s.c.mem.readBytes (offOf q.tbl) 160) 32 (n % 32)))
    (((s.c.mem.readBytes (offOf q.tbl) 160).getD (128 + n % 32) 0).toNat % 64)
  have count : rs.length = 1024 := by simp [rs, tileElems_length]
  have length := flatMap_length_const (fun r : Nat × Word => leBytes o.bytes r.1) (fun r => leBytes_length o.bytes r.1) rs
  rw [count] at length
  refine ⟨rfl, fun n j hn hj => ?_, fun k hk => Memory.read_writeBytes_outside _ _ _ _ (by rw [length, Nat.mul_comm]; exact hk)⟩
  have inside : o.bytes * n + j < o.bytes * 1024 :=
    calc o.bytes * n + j < o.bytes * n + o.bytes := by omega
      _ = o.bytes * (n + 1) := (Nat.mul_succ ..).symm
      _ ≤ o.bytes * 1024 := Nat.mul_le_mul_left _ hn
  have element : rs[n]'(by rwa [count]) = requant o (signedBits 32 (tileElement s.c.acc .i32 a n))
      (signedBits 32 (littleEndian s.c.mem (offOf q.tbl + 4 * (n % 32)) 4))
      ((s.c.mem.read (offOf q.tbl + 128 + n % 32)).toNat % 64) := by
    simp only [rs, List.getElem_mapIdx, tileElems_getElem, signedOf_eq]
    rw [elemBits_readBytes _ _ (by omega), readBytes_getD _ _ (by omega), Nat.add_assoc (offOf q.tbl)]
  rw [Nat.add_assoc]
  refine (read_writeBytes_getD _ _ _ (by rwa [length])).trans ?_
  refine (flatMap_getD (fun r : Nat × Word => leBytes o.bytes r.1) (fun r => leBytes_length o.bytes r.1) rs (by rwa [count])
    hj).trans ?_
  rw [List.getD_eq_getElem _ _ (by rwa [leBytes_length]), leBytes_getElem, element]
  exact requant_byte o _ _ _ hj

theorem effect_mmai {sat ua ub : Bool} {d : Reg} {a b : HReg} (op : q.op = .mmai sat ua ub d a b) (lead : q.lead = none) :
    (s.mxEffect q).1.c.mem = s.c.mem ∧ (s.mxEffect q).1.c.h = s.c.h ∧ TileHolds s.c.acc (s.mxEffect q).1.c.acc .i32 d fun n =>
      laneBits .i32 sat (signedBits 32 (tileElement s.c.acc .i32 d n) + ((List.range 64).map fun k =>
        slotByte s.c.mem q.slotA (n / 32) k ua * slotByte s.c.mem q.slotB (n % 32) k ub).sum) := by
  simp only [State.mxEffect, op, State.mxSlots, lead, Option.getD_none]
  refine ⟨rfl, rfl, tileHolds_mxUpdate s .i32 d (fun n hn => ?_) fun n _ => laneBits_i32_lt ..⟩
  rw [accumI_eq, rows_getD _ _ _ (show n / 32 < 32 by omega), rows_getD _ _ _ (Nat.mod_lt n (by decide)), intDot_map]

theorem effect_mrsum {sat u : Bool} {d b : Reg} {a : HReg} (op : q.op = .mrsum sat u d a b) :
    (s.mxEffect q).1.c.mem = s.c.mem ∧ TileHolds s.c.acc (s.mxEffect q).1.c.acc .i32 d fun n =>
      laneBits .i32 sat (signedBits 32 (tileElement s.c.acc .i32 d n) +
        q.opnd.toInt * ((List.range 64).map fun k => slotByte s.c.mem q.slotA (n / 32) k u).sum) := by
  simp only [State.mxEffect, op]
  refine ⟨rfl, tileHolds_mxUpdate s .i32 d (fun n hn => ?_) fun n _ => laneBits_i32_lt ..⟩
  rw [accumI_eq, rows_getD _ _ _ (show n / 32 < 32 by omega), foldl_add_eq_sum]

theorem effect_mcsum {sat u : Bool} {d b : Reg} {a : HReg} (op : q.op = .mcsum sat u d a b) :
    (s.mxEffect q).1.c.mem = s.c.mem ∧ TileHolds s.c.acc (s.mxEffect q).1.c.acc .i32 d fun n =>
      laneBits .i32 sat (signedBits 32 (tileElement s.c.acc .i32 d n) +
        q.opnd.toInt * ((List.range 64).map fun k => slotByte s.c.mem q.slotA (n % 32) k u).sum) := by
  simp only [State.mxEffect, op]
  refine ⟨rfl, tileHolds_mxUpdate s .i32 d (fun n hn => ?_) fun n _ => laneBits_i32_lt ..⟩
  rw [accumI_eq, rows_getD _ _ _ (Nat.mod_lt n (by decide)), foldl_add_eq_sum]

end

/-- R132: the pops of two rings. -/
theorem popOf_popOf_heads (s : State) {a b : HReg} (apart : a ≠ b) :
    (popOf (popOf s (some a)) (some b)).c.h[a].head = s.c.h[a].head + 1 ∧
    (popOf (popOf s (some a)) (some b)).c.h[b].head = s.c.h[b].head + 1 := by
  have ne : a.val ≠ b.val := fun h => apart (Fin.ext h)
  simp [popOf, State.advHead, State.setHandle, State.handle, ne, ne.symm]

/-- Settles O30: the starts by the governor's window, a retirement by its effect. -/
theorem matrixRetirementResults : Obligations.MatrixRetirementResults := by
  intro s q qs queue win u starts covers_ started counted
  have hu : u = rolled s.t := rfl
  have hstarts : starts = s.slewCount := (slewCount_eq s).symm
  refine ⟨fun flag => ⟨fun h => ?_, fun h plain => ?_, fun h mma => ⟨fun room => ?_, fun full => ?_⟩⟩,
    fun flag i j hi hj oi oj _ => matrixStart_several s flag hi hj oi oj, fun h hm ha lead _ => ?_, ?_⟩
  · exact completes_matrixStart_alone flag (mxStart_started queue h)
  · exact completes_matrixStart_alone flag (mxStart_plain queue h plain)
  · rw [hstarts] at room ⊢
    exact completes_matrixStart_alone flag (mxStart_covered queue h mma room)
  · rw [hstarts] at full
    exact completes_matrixStart_alone flag (mxStart_held queue h mma full)
  · let r : State := { s with c := { s.c with mx := qs } }
    obtain ⟨mx, mem, acc, -, handles⟩ := retires_mxEffect (s := r) hm ha q
    refine ⟨r.mxRetire q, ?_, mx.trans (mxEffect_mx r q), fun t d op => ?_, fun t bc d a op => ?_, fun t d a op => ?_,
      fun o d a b op => ?_, fun sat ua ub d a b op => ?_, fun sat u d a b op => ?_, fun sat u d a b op => ?_⟩
    · show execMatrixRetire s = _
      simp only [execMatrixRetire, queue, h, if_true]
      rfl
    · obtain ⟨keep, element, outside⟩ := effect_mzero r op
      rw [mem, acc]; exact ⟨keep, element, outside⟩
    · obtain ⟨keep, element, outside⟩ := effect_mload r op
      rw [mem, acc]; exact ⟨keep, element, outside⟩
    · rw [mem, acc]; exact effect_mdrain r op
    · rw [mem, acc]; exact effect_mdrq r op
    · obtain ⟨keep, rings, element, outside⟩ := effect_mmai r op lead
      rw [mem, acc, handles]
      refine ⟨keep, element, outside, fun popA popB apart => ?_⟩
      rw [popA, popB]
      have heads := popOf_popOf_heads (r.mxEffect q).1 apart
      rwa [rings] at heads
    · obtain ⟨keep, element, outside⟩ := effect_mrsum r op
      rw [mem, acc]; exact ⟨keep, outside, element⟩
    · obtain ⟨keep, element, outside⟩ := effect_mcsum r op
      rw [mem, acc]; exact ⟨keep, outside, element⟩
  · show execSlewWindow s = _
    rw [execSlewWindow, slewRoll_eq]
    rfl

end Sys2Proof.Proofs

namespace Sys2Proof.Proofs
open Machine

/-! # Gangs and follow mode (R33, R34, R139, R140) -/

/-! The fields of c.status. -/

/-- The bits of a word under a mask. -/
theorem getLsbD_and_mask {mask : Word} {p : Nat → Bool} (h : ∀ k, k < 32 → mask.getLsbD k = p k) (w : Word) (k : Nat) :
    (w &&& mask).getLsbD k = (w.getLsbD k && p k) := by
  rw [BitVec.getLsbD_and]
  by_cases hk : k < 32
  · rw [h k hk]
  · rw [BitVec.getLsbD_of_ge w k (by omega), Bool.false_and, Bool.false_and]

theorem gszMask_bit : ∀ k, k < 32 → (0xFFFFFCFF : Word).getLsbD k = (k != 8 && k != 9) := by decide
theorem folMask_bit : ∀ k, k < 32 → (0xFFFFFBFF : Word).getLsbD k = (k != 10) := by decide
theorem leadMask_bit : ∀ k, k < 32 → (0xFFFFF7FF : Word).getLsbD k = (k != 11) := by decide

/-- c.status with another GSZ (R19). -/
def withGsz (w : Word) (n : Nat) : Word := (w &&& 0xFFFFFCFF) ||| BitVec.ofNat 32 (n % 4 * 256)

theorem setGsz_eq (s : State) (n : Nat) : s.setGsz n = { s with c := { s.c with status := withGsz s.c.status n } } := rfl

/-- The bits of the field itself. -/
theorem gszField_bit (n : Nat) (k : Nat) :
    (BitVec.ofNat 32 (n % 4 * 256)).getLsbD k = (decide (8 ≤ k) && (n % 4).testBit (k - 8)) := by
  have small : n % 4 < 2 ^ 2 := Nat.mod_lt _ (by decide)
  rw [BitVec.getLsbD_ofNat, show n % 4 * 256 = 2 ^ 8 * (n % 4) by omega, Nat.testBit_two_pow_mul]
  by_cases hk : k < 32
  · simp [hk]
  · have high : (n % 4).testBit (k - 8) = false :=
      Nat.testBit_lt_two_pow (small.trans_le (Nat.pow_le_pow_right (by decide) (by omega)))
    simp [hk, high]

theorem withGsz_bit_other (w : Word) (n : Nat) {k : Nat} (h8 : k ≠ 8) (h9 : k ≠ 9) : (withGsz w n).getLsbD k = w.getLsbD k := by
  have clear : (BitVec.ofNat 32 (n % 4 * 256)).getLsbD k = false := by
    rw [gszField_bit]
    by_cases hk : 8 ≤ k
    · have small : n % 4 < 2 ^ 2 := Nat.mod_lt _ (by decide)
      rw [Nat.testBit_lt_two_pow (small.trans_le (Nat.pow_le_pow_right (by decide) (by omega))), Bool.and_false]
    · rw [decide_eq_false hk, Bool.false_and]
  rw [withGsz, BitVec.getLsbD_or, getLsbD_and_mask gszMask_bit, clear]
  simp [h8, h9]

/-- Without a gang the field is zero. -/
theorem withGsz_zero_bit (w : Word) (k : Nat) : (withGsz w 0).getLsbD k = (w.getLsbD k && k != 8 && k != 9) := by
  rw [withGsz, BitVec.getLsbD_or, getLsbD_and_mask gszMask_bit, gszField_bit]
  simp [Bool.and_assoc]

theorem withGsz_field (w : Word) {n : Nat} (hn : n < 4) : (withGsz w n).toNat / 256 % 4 = n := by
  show bitsOf (withGsz w n).toNat 8 2 = n
  refine Nat.eq_of_testBit_eq fun j => ?_
  rw [testBit_bitsOf, BitVec.testBit_toNat]
  by_cases hj : j < 2
  · have field : (0xFFFFFCFF : Word).getLsbD (j + 8) = false := by
      rw [gszMask_bit _ (by omega)]
      interval_cases j <;> rfl
    rw [withGsz, BitVec.getLsbD_or, BitVec.getLsbD_and, field, gszField_bit, Nat.mod_eq_of_lt hn]
    simp [hj]
  · have small : n < 2 ^ 2 := hn
    rw [decide_eq_false hj, Bool.false_and,
      Nat.testBit_lt_two_pow (small.trans_le (Nat.pow_le_pow_right (by decide) (by omega)))]

/-! The members of a group (R139). -/

/-- The columns of a group without this core's. -/
def otherColumns (s : State) (code : Nat) : List Nat := (s.group code).filter (· ≠ s.column)

/-- A group has this core's column once. -/
theorem otherColumns_length (s : State) (code : Nat) : (otherColumns s code).length + 1 = (s.group code).length := by
  have column : s.column < 4 := Nat.mod_lt _ (by decide)
  unfold otherColumns State.group
  generalize s.column = c at column
  interval_cases c <;> split <;> rfl

/-- Every other member of the group is on the row's wires, and all of them satisfy p. -/
def Met (s : State) (code : Nat) (p : RowCore → Prop) : Prop :=
  (s.partners code).length = (otherColumns s code).length ∧ ∀ r ∈ s.row, r.col.val ∈ otherColumns s code → p r

/-- Then the group waits no longer. -/
theorem Met.not_missing {s : State} {code : Nat} {p : RowCore → Prop} (met : Met s code p) {test : RowCore → Bool}
    (h : ∀ r, p r → test r = true) :
    ¬((s.partners code).length + 1 < (s.group code).length ∨ (s.partners code).all test = false) := by
  obtain ⟨count, all⟩ := met
  have length := otherColumns_length s code
  rintro (missing | bad)
  · omega
  · rw [List.all_eq_false] at bad
    obtain ⟨r, hr, no⟩ := bad
    rw [State.partners, List.mem_filter] at hr
    obtain ⟨mem, here⟩ := hr
    refine no (h r (all r mem ?_))
    simpa [otherColumns] using here

/-! mgang. -/

section
variable {s : State} (hx : s.inExchange = false)
include hx

theorem mgang_traps (size : s.gsz ≠ 0) {n : Fin 3} (hn : n.val ≠ 0) : Traps (.mgang n) s .illegal 4 0 := by
  show execMgang n s = _
  rw [execMgang, if_pos ⟨hn, size⟩, trap_compute hx]

variable (empty : s.c.mx = [])
include empty

theorem mgang_nothing (size : s.gsz = 0) : Leaves (.mgang 0) s s := by
  show execMgang 0 s = _
  rw [execMgang, if_neg (fun h => h.1 rfl), State.classC_compute _ _ hx, if_neg (not_not.mpr empty)]
  exact if_pos size

/-- R139: mgang where the group of this code has met. -/
theorem mgang_meets {n : Fin 3} {code : Nat} (hc : (if n.val = 0 then s.gsz else n.val) = code) (apart : n.val ≠ 0 → s.gsz = 0)
    (some_ : code ≠ 0) (clear : s.gangClash n.val code = false) (met : Met s code fun r => r.gang = some n) : ∃ row,
    Leaves (.mgang n) s { s with c := { s.c with status := withGsz s.c.status n.val }, row := row } := by
  refine ⟨(s.clearGang code).row, ?_⟩
  show execMgang n s = _
  rw [execMgang]
  simp only [hc]
  rw [if_neg (fun h => h.2 (apart h.1)), State.classC_compute _ _ hx, if_neg (not_not.mpr empty), if_neg some_, clear, if_neg (by decide),
    if_neg (met.not_missing fun r hr => by rw [hr]; exact beq_self_eq_true _)]
  rfl

end

/-! mfollow and munfollow. -/

section
variable {s : State} (hx : s.inExchange = false)
include hx

theorem mfollow_traps (size : s.gsz = 0) : Traps .mfollow s .illegal 5 0 := by
  show execMfollow s = _
  rw [execMfollow, if_pos (.inl size), trap_compute hx]

theorem mfollow_meets (size : s.gsz ≠ 0) (free : s.follower = false) (lead : s.leads = false)
    (met : Met s s.gsz fun r => r.wantsFollow = true ∨ r.following = true) :
    Completes .mfollow s { s.adv with
      stream := []
      c := { s.adv.c with status := s.adv.c.status ||| if (s.group s.gsz).head? = some s.column then 0x800 else 0x400 } } := by
  show execMfollow s = _
  rw [execMfollow, if_neg, State.classC_compute _ _ hx]
  · simp only
    rw [if_neg (met.not_missing fun r hr => by rcases hr with h | h <;> simp [h])]
    simp only [State.gangLeader, beq_iff_eq]
  · rintro (none | leading | following)
    · exact size none
    · rw [lead] at leading; cases leading
    · rw [free] at following; cases following

variable {a : Reg}

theorem munfollow_follower (follow : s.follower = true) (even : (s.reg a).toNat % 2 = 0) : Completes (.munfollow a) s
    (State.setPc { s with c := { s.c with status := s.c.status &&& 0xFFFFFBFF }, stream := [] } (s.reg a)) := by
  have aligned : (s.reg a).getLsbD 0 = false := by
    rw [BitVec.getLsbD, Nat.testBit_zero, even]; rfl
  show execMunfollow a s = _
  rw [execMunfollow, if_pos follow, State.classC_compute _ _ hx, aligned, if_neg (by decide)]

theorem munfollow_leader (free : s.follower = false) (lead : s.leads = true) :
    Leaves (.munfollow a) s { s with c := { s.c with status := s.c.status &&& 0xFFFFF7FF } } := by
  show execMunfollow a s = _
  rw [execMunfollow, free, if_neg (by decide), lead, if_neg (by decide), State.classC_compute _ _ hx]
  rfl

theorem munfollow_traps (free : s.follower = false) (lead : s.leads = false) : Traps (.munfollow a) s .illegal 5 0 := by
  show execMunfollow a s = _
  rw [execMunfollow, free, if_neg (by decide), if_pos lead, trap_compute hx]

end

/-- Settles O31: a group that has met goes on; the masks of c.status give the bits. -/
theorem gangAndFollowModes : Obligations.GangAndFollowModes := by
  intro s a n hx empty size others here
  have hsize : s.gsz = size := gsz_eq s
  have met {code : Nat} {p : RowCore → Prop} (h : here code p) : Met s code p := h
  refine ⟨fun zero => mgang_nothing hx empty (hsize.trans zero), fun zero hn clear h => ?_, fun some_ clear h => ?_,
    fun some_ hn => mgang_traps hx (hsize ▸ some_) hn, fun some_ free lead h => ?_, fun zero => mfollow_traps hx (hsize.trans zero),
    fun follow even => ⟨_, munfollow_follower hx follow even, getLsbD_and_mask folMask_bit _⟩,
    fun free lead => ⟨_, munfollow_leader hx free lead, getLsbD_and_mask leadMask_bit _⟩,
    fun free lead => munfollow_traps hx free lead⟩
  · obtain ⟨row, leaves⟩ := mgang_meets hx empty (if_neg hn) (fun _ => hsize.trans zero) hn clear (met h)
    exact ⟨row, _, leaves, withGsz_field _ (by omega), fun k h8 h9 => withGsz_bit_other _ _ h8 h9⟩
  · obtain ⟨row, leaves⟩ := mgang_meets (n := 0) hx empty ((if_pos rfl).trans hsize) (fun h => absurd rfl h) some_ clear (met h)
    exact ⟨row, _, leaves, withGsz_zero_bit _⟩
  · rw [← hsize] at h some_ ⊢
    exact mfollow_meets hx some_ free lead (met h)

end Sys2Proof.Proofs

namespace Sys2Proof.Proofs
open Machine

/-! # Forms that several rules share: converting accesses, gangs, the matrix slice (O60) -/

/-! Converting accesses (R124, R125). -/

/-- vstc leaves every byte outside its block and outside its scale bytes. -/
theorem vstc_outside {s : State} {t : ElemType} {a : Reg} {u : Bool} (h : ConvAccess s (s.reg a) t.lanes u) (d : Reg) (sat : Bool)
    {b4 : B4Type} (applies : viewOf (s.reg a) = 5 ∨ b4 = .int4) :
    let off := offOf (s.reg a)
    let size := if viewOf (s.reg a) = 5 then t.lanes / 2 else t.lanes * (viewElement (viewOf (s.reg a)) u).bytes
    let scales := s.c.sbase.toNat + off / 4
    ∃ m st fl, Completes (.vstc t d a sat u b4) s
        { (s.addFlags fl).adv with c := { (s.addFlags fl).adv.c with mem := m, stale := st } } ∧
      ∀ x, (x < off ∨ off + size ≤ x) → (viewOf (s.reg a) = 5 → x < scales ∨ scales + t.lanes / 8 ≤ x) →
        Memory.read m x = s.c.mem.read x := by
  intro off size scales
  by_cases view : viewOf (s.reg a) = 5
  · obtain ⟨st, run⟩ := exec_vstc_block h d sat b4 view
    have count : (s.b4Blocks t (s.vreg d) b4).length = t.lanes / 8 := by simp [State.b4Blocks]
    have whole := lanes_eq_blocks t
    have half : size = 4 * (t.lanes / 8) := (if_pos view).trans (by omega)
    refine ⟨_, st, _, completes_withMem run, fun x h1 h2 => blocksStored_outside _ ?_ ?_⟩
    · rwa [count, ← half]
    · rw [count]; exact h2 view
  · obtain rfl := applies.resolve_left view
    obtain ⟨m, st, fl, completes, -, -, outside⟩ := completes_vstc h d sat view
    exact ⟨m, st, fl, completes, fun x h1 _ => outside x (by rwa [show size = _ from if_neg view] at h1)⟩

theorem converting_completes (s : State) (t : ElemType) (d a : Reg) (sat u : Bool) (b4 : B4Type) (h : ConvAccess s (s.reg a) t.lanes u) :
    let off := offOf (s.reg a)
    let size := if viewOf (s.reg a) = 5 then t.lanes / 2 else t.lanes * (viewElement (viewOf (s.reg a)) u).bytes
    let scales := s.c.sbase.toNat + off / 4
    (∃ x fl, exec (.vldc t d a sat u) s = .next (State.adv ((s.addFlags fl).setV d x)) ∧
      ∀ k, k < t.lanes → laneAt t x k = (convElement s t (s.reg a) sat u k).1 % 2 ^ t.width) ∧
    (viewOf (s.reg a) = 5 ∨ b4 = .int4 → ∃ m st fl, exec (.vstc t d a sat u b4) s =
        .next { State.adv (s.addFlags fl) with c := { (State.adv (s.addFlags fl)).c with mem := m, stale := st } } ∧
      ∀ x, (x < off ∨ off + size ≤ x) → (viewOf (s.reg a) = 5 → x < scales ∨ scales + t.lanes / 8 ≤ x) →
        Memory.read m x = s.c.mem.read x) := by
  obtain ⟨loads, -⟩ := convertingLoadsAndStores
  obtain ⟨x, fl, completes, lane, -⟩ := loads s t d a sat u h
  exact ⟨⟨x, fl, completes, lane⟩, fun applies => vstc_outside h d sat applies⟩

/-! Gangs (R139, R140). -/

theorem gangs_complete (s : State) (a : Reg) (n : Fin 3) (hx : s.inExchange = false) (empty : s.c.mx = []) :
    let size := s.c.status.toNat / 256 % 4
    let col := s.t.idx.val % 4
    let others (code : Nat) : List Nat := (s.group code).filter (· ≠ col)
    let met (code : Nat) : Prop :=
      (s.row.filter fun r => (s.group code).contains r.col.val && r.col.val != col).length = (others code).length
    (size = 0 → exec (.mgang 0) s = .next (State.adv s)) ∧
    (size = 0 → n.val ≠ 0 → s.gangClash n.val n.val = false → met n.val →
      (∀ r ∈ s.row, r.col.val ∈ others n.val → r.gang = some n) → ∃ u, exec (.mgang n) s = .next (State.adv u) ∧
      u.c.status.toNat / 256 % 4 = n.val ∧ u.c.s = s.c.s ∧ u.c.mem = s.c.mem) ∧
    (size ≠ 0 → s.gangClash 0 size = false → met size → (∀ r ∈ s.row, r.col.val ∈ others size → r.gang = some 0) →
      ∃ u, exec (.mgang 0) s = .next (State.adv u) ∧ u.c.status.toNat / 256 % 4 = 0 ∧ u.c.s = s.c.s ∧ u.c.mem = s.c.mem) ∧
    (size ≠ 0 → s.c.status.getLsbD 10 = false → s.c.status.getLsbD 11 = false → met size →
      (∀ r ∈ s.row, r.col.val ∈ others size → r.wantsFollow = true ∨ r.following = true) →
      ∃ u, exec .mfollow s = .next u ∧ u.c.pc = (State.adv s).c.pc ∧ u.c.s = (State.adv s).c.s ∧ u.c.mem = s.c.mem ∧
        ((s.group size).head? = some col → u.c.status.getLsbD 11 = true) ∧
        ((s.group size).head? ≠ some col → u.c.status.getLsbD 10 = true)) ∧
    (s.c.status.getLsbD 10 = true → (s.reg a).toNat % 2 = 0 → ∃ u, exec (.munfollow a) s = .next u ∧ u.c.pc = s.reg a ∧
      u.c.status.getLsbD 10 = false ∧ u.c.s = s.c.s ∧ u.c.mem = s.c.mem) ∧
    (s.c.status.getLsbD 10 = false → s.c.status.getLsbD 11 = true → ∃ u, exec (.munfollow a) s = .next (State.adv u) ∧
      u.c.status.getLsbD 11 = false ∧ u.c.s = s.c.s ∧ u.c.mem = s.c.mem) := by
  intro size col others met
  have hsize : s.gsz = size := gsz_eq s
  have all {code : Nat} {p : RowCore → Prop} (count : met code) (h : ∀ r ∈ s.row, r.col.val ∈ others code → p r) : Met s code p :=
    ⟨count, h⟩
  refine ⟨fun zero => mgang_nothing hx empty (hsize.trans zero), fun zero hn clear count h => ?_, fun some_ clear count h => ?_,
    fun some_ free lead count h => ?_, fun follow even => ?_, fun free lead => ?_⟩
  · obtain ⟨row, leaves⟩ := mgang_meets hx empty (if_neg hn) (fun _ => hsize.trans zero) hn clear (all count h)
    exact ⟨_, leaves, withGsz_field _ (by omega), rfl, rfl⟩
  · obtain ⟨row, leaves⟩ := mgang_meets (n := 0) hx empty ((if_pos rfl).trans hsize) (fun h => absurd rfl h) some_ clear (all count h)
    exact ⟨_, leaves, withGsz_field _ (by decide), rfl, rfl⟩
  · rw [← hsize] at h count some_ ⊢
    refine ⟨_, mfollow_meets hx some_ free lead (all count h), rfl, rfl, State.adv_mem s, fun first => ?_, fun later => ?_⟩
    · show ((s.adv.c.status ||| if (s.group s.gsz).head? = some s.column then 0x800 else 0x400)).getLsbD 11 = true
      rw [if_pos (show (s.group s.gsz).head? = some s.column from first), BitVec.getLsbD_or, Bool.or_eq_true]
      exact .inr (by decide)
    · show ((s.adv.c.status ||| if (s.group s.gsz).head? = some s.column then 0x800 else 0x400)).getLsbD 10 = true
      rw [if_neg (show (s.group s.gsz).head? ≠ some s.column from later), BitVec.getLsbD_or, Bool.or_eq_true]
      exact .inr (by decide)
  · refine ⟨_, munfollow_follower hx follow even, rfl, (getLsbD_and_mask folMask_bit _ 10).trans (Bool.and_false _), rfl, rfl⟩
  · exact ⟨_, munfollow_leader hx free lead, (getLsbD_and_mask leadMask_bit _ 11).trans (Bool.and_false _), rfl, rfl⟩

/-! The matrix slice (R128). -/

theorem matrix_completes (s : State) (q : MxOp) (qs : List MxOp) (queue : s.c.mx = q :: qs) (flag : s.input.flag = false) :
    (q.started = false → isMma q.op = false → exec .matrixStart s =
      .next { s with c := { s.c with mx := { q with started := true } :: qs } }) ∧
    (∀ acc d, q.started = true → q.lead = none → s.input.n = 0 → s.c.accErr = [] → s.c.memErr = [] → q.op = .mzero acc d →
      ∃ t, exec .matrixRetire s = .next t ∧ t.c.mx = qs ∧ t.c.mem = s.c.mem ∧ t.c.s = s.c.s ∧
        ∀ n, n < 1024 → tileElement t.c.acc acc d n = 0) := by
  refine ⟨fun new plain => completes_matrixStart_alone flag (mxStart_plain queue new plain), fun acc d started _ _ ha hm op => ?_⟩
  let r : State := { s with c := { s.c with mx := qs } }
  obtain ⟨mx, mem, banks, regs, -⟩ := retires_mxEffect (s := r) hm ha q
  obtain ⟨keep, element, -⟩ := effect_mzero r op
  refine ⟨r.mxRetire q, ?_, mx.trans (mxEffect_mx r q), mem.trans keep, regs.trans (mxEffect_s r q), fun n hn => ?_⟩
  · show execMatrixRetire s = _
    simp only [execMatrixRetire, queue, started, if_true]
    rfl
  · rw [banks]; exact element n hn

end Sys2Proof.Proofs

namespace Sys2Proof.Proofs
open Machine

/-! # Every row of the table answers a next state (O60, log 1) -/

/-- The meaning is a next state: no fault and no refusal. -/
def Answers (r : Result) : Prop := ∃ t, r = .next t

namespace Answers
variable {s : State} {k : Result}

@[simp] theorem next (s : State) : Answers (.next s) := ⟨s, rfl⟩
@[simp] theorem wait (s : State) : Answers s.wait := next _
@[simp] theorem waitAt (s : State) (p : Pend) : Answers (s.waitAt p) := next _
@[simp] theorem fin (s : State) : Answers s.fin := next _
@[simp] theorem result (s : State) (d : Reg) (x : Word) : Answers (s.result d x) := next _
@[simp] theorem deferAt (s : State) (t : Trap) (off : Nat) : Answers (s.deferAt t off) := next _
@[simp] theorem receive (s : State) (cls : PacketClass) (f : Packet → State) : Answers (s.receive cls f) := next _
@[simp] theorem turnOver (s : State) (d : Reg) (x : Nat) : Answers (s.turnOver d x) := next _
@[simp] theorem endCommit (s : State) (d : Reg) (x : Nat) : Answers (s.endCommit d x) := next _

@[simp] theorem ite {c : Prop} [Decidable c] {a b : Result} : Answers (if c then a else b) ↔ (c → Answers a) ∧ (¬c → Answers b) := by
  by_cases h : c <;> simp [h]

@[simp] theorem raise (s : State) (t : Trap) : Answers (s.raise t) := by simp [State.raise]
@[simp] theorem trap (s : State) (c : Cause) (detail : Nat) (eaddr : Word) : Answers (s.trap c detail eaddr) := raise s _
@[simp] theorem eccTrap (s : State) (ea : Word) (mem n : Nat) : Answers (s.eccTrap ea mem n) := trap _ _ _ _

@[simp] theorem classC : Answers (s.classC k) ↔ (s.inExchange = false → Answers k) := by
  simp [State.classC]

@[simp] theorem privC : Answers (s.privC k) ↔ (s.svc = true → s.inExchange = false → Answers k) := by
  simp [State.privC]

@[simp] theorem check {t : Option Trap} : Answers (s.check t k) ↔ (t = none → Answers k) := by
  cases t <;> simp [State.check]

@[simp] theorem operand {ok : Bool} : Answers (s.operand ok k) ↔ (ok = true → Answers k) := by
  simp [State.operand]

@[simp] theorem fabAddr {a : Word} {n align : Nat} :
    Answers (s.fabAddr a n align k) ↔ (State.addrTrap a n align 4 = none → s.memBad (offOf a) n = false → Answers k) := by
  simp [State.fabAddr]

theorem access {k : State → Result} (h : Answers (k s)) (ea : Word) (size : Nat) (store : Bool) : Answers (s.access ea size store k) := by
  simp [State.access, h]

theorem inTurn {k : State → Result} (h : ∀ t, Answers (k t)) : Answers (s.inTurn k) := by
  simp [State.inTurn, h]

theorem withState {b : Nat} {k : DirEntry → Result} (h : ∀ e, Answers (k e)) : Answers (s.withState b k) := by
  unfold State.withState
  split
  · exact h _
  · exact trap _ _ _ _

/-! The shared shapes of an instruction. -/

@[simp] theorem load (s : State) (d : Reg) (ea : Word) (size : Nat) (ext : Nat → Word) : Answers (s.load d ea size ext) := by
  unfold State.load
  refine access ?_ ..
  exact result ..

@[simp] theorem store (s : State) (d : Reg) (ea : Word) (size : Nat) : Answers (s.store d ea size) := by
  unfold State.store
  refine access ?_ ..
  exact fin _
@[simp] theorem loadV (s : State) (d : Reg) (ea : Word) : Answers (s.loadV d ea) := by
  unfold State.loadV
  refine access ?_ ..
  exact fin _
@[simp] theorem storeV (s : State) (d : Reg) (ea : Word) : Answers (s.storeV d ea) := by
  unfold State.storeV
  refine access ?_ ..
  exact fin _

theorem accessAll (h : Answers k) (size : Nat) (store : Bool) (es : List (Nat × Word)) : Answers (s.accessAll size store k es) := by
  induction es with
  | nil => exact h
  | cons e es ih => exact access ih ..

@[simp] theorem transfer (s : State) (t : Word) (link : State → State) : Answers (s.transfer t link) := by simp [State.transfer]
@[simp] theorem branch (s : State) (taken : Bool) (off : BitVec 26) : Answers (s.branch taken off) := by simp [State.branch]
@[simp] theorem csrRead (s : State) (d : Reg) (n : Csr) : Answers (s.csrRead d n) := by simp [State.csrRead]
@[simp] theorem csrWrite (s : State) (n : Csr) (f : Word → Word) : Answers (s.csrWrite n f) := by simp [State.csrWrite]

@[simp] theorem handleWait (s : State) (d : HReg) (n present : Nat) (able : Bool) : Answers (s.handleWait d n present able) := by
  simp [State.handleWait]

@[simp] theorem handleAdvance (s : State) (d : HReg) (n present : Nat) (t : State) : Answers (s.handleAdvance d n present t) := by
  simp [State.handleAdvance]

@[simp] theorem headQueue (s : State) (q : HeadOp) : Answers (s.headQueue q) := by simp [State.headQueue]

theorem spillCheck (h : Answers k) (q : HeadOp) (spills : Bool) : Answers (s.spillCheck q spills k) := by
  simp [State.spillCheck, h]

@[simp] theorem mxIssue (s : State) (op : Instr) : Answers (s.mxIssue op) := by
  unfold State.mxIssue
  simp only [classC, check, ite, wait, implies_true, true_and]
  intros
  split <;> simp

@[simp] theorem exchangeAt (s : State) (off : Nat) (addr : Option (Word × Nat)) (fits : Slot → Bool) (act : State → State) :
    Answers (s.exchangeAt off addr fits act) := by
  simp [State.exchangeAt]

@[simp] theorem syncOn (s : State) (g : Tree) (seg : Nat) : Answers (s.syncOn g seg) := by simp [State.syncOn]

@[simp] theorem reduce (s : State) (g : Tree) (con : RedContrib) (out : State → List Word → Word → State) : Answers (s.reduce g con out) := by
  unfold State.reduce
  split <;> simp

@[simp] theorem reduceLanesOn (s : State) (op : RedOp) (t : ElemType) (sat : Bool) (d a : Reg) (g : Tree) (c : Reg) (n : Fin 16) :
    Answers (s.reduceLanesOn op t sat d a g c n) := by
  simp [State.reduceLanesOn]

@[simp] theorem fabRequest (s : State) (d a : Reg) (kind : FabKind) (k : State → FabOp → State) : Answers (s.fabRequest d a kind k) := by
  unfold State.fabRequest
  simp only [classC, check, ite, result, eccTrap, trap, implies_true, and_self]

@[simp] theorem collStep (s : State) (op : Nat) (f : State → Coll → CollStep → State) : Answers (s.collStep op f) := by
  unfold State.collStep
  split
  · exact next _
  · dsimp only
    split <;> simp

/-! The forms of drain. -/

@[simp] theorem drainWait (s : State) (d : Reg) (ps : List (Fin 32)) (first : Bool) : Answers (s.drainWait d ps first) := by
  simp [State.drainWait]

@[simp] theorem fecWait (s : State) (d : Reg) (ps : List (Fin 32)) (first : Bool) : Answers (s.fecWait d ps first) := by
  simp [State.fecWait]

@[simp] theorem retrainWait (s : State) (d : Reg) (ps : List (Fin 32)) (first : Bool) : Answers (s.retrainWait d ps first) := by
  simp [State.retrainWait]

theorem drainOp (s : State) (d a b : Reg) : Answers (s.drainOp d a b) := by
  unfold State.drainOp
  simp only [operand, privC, ite, result, implies_true, true_and]
  intros
  split
  · split <;> simp
  · split <;> simp
  · split <;> simp
  · simp

/-! The instructions whose meaning is not one of these shapes. -/

theorem aalloc (a b : Reg) (n : Nat) (s : State) : Answers (execAalloc a b n s) := by
  simp only [execAalloc, classC, ite, result, implies_true, true_and]
  intros
  split <;> simp

theorem afree (b : Reg) (n : Nat) (s : State) : Answers (execAfree b n s) := by simp [execAfree]

theorem spill (vec : Bool) (a : Reg) (s : State) : Answers (execSpill vec a s) := by
  simp only [execSpill, classC, ite, fin, implies_true, true_and]
  intros
  split <;> simp

theorem fill (vec : Bool) (a : Reg) (s : State) : Answers (execFill vec a s) := by simp [execFill]
theorem eret (s : State) : Answers (execEret s) := by simp [execEret]
theorem halt (s : State) : Answers (execHalt s) := by simp [execHalt]

theorem snap (d : Reg) (s : State) : Answers (execSnap d s) := by
  unfold execSnap
  rw [privC]
  intros
  cases s.c.pend with
  | snap n => cases n <;> simp
  | _ => exact waitAt ..

theorem fence (s : State) : Answers (execFence s) := by simp [execFence]
theorem evwr (a b : Reg) (s : State) : Answers (execEvwr a b s) := by simp [execEvwr]
theorem wreg (d a : Reg) (s : State) : Answers (execWreg d a s) := by simp [execWreg]

theorem wdereg (d a : Reg) (s : State) : Answers (execWdereg d a s) := by
  unfold execWdereg
  dsimp only
  split
  · simp
  · simp only [operand, privC]
    intros
    split <;> simp

theorem wderegTimeout (s : State) : Answers (execWderegTimeout s) := by
  unfold execWderegTimeout
  split <;> simp

theorem wwait (d a b : Reg) (s : State) : Answers (execWwait d a b s) := by
  simp only [execWwait, operand, classC, ite, result, implies_true, true_and]
  intros
  split <;> simp

theorem wwaitTimeout (s : State) : Answers (execWwaitTimeout s) := by
  unfold execWwaitTimeout
  split <;> simp

theorem putAckArrive (s : State) : Answers (execPutAckArrive s) := by simp [execPutAckArrive]

theorem tvstage (d a : Reg) (s : State) : Answers (execTvstage d a s) := by
  simp only [execTvstage, privC, fabAddr]
  intros
  exact inTurn fun t => turnOver ..

theorem tvcommit (d a : Reg) (s : State) : Answers (execTvcommit d a s) := by
  unfold execTvcommit
  split
  · simp
  · simp only [operand, privC]
    intros
    refine inTurn fun t => ?_
    split <;> simp

theorem commitTimeout (s : State) : Answers (execCommitTimeout s) := by
  unfold execCommitTimeout
  split
  · rw [ite]
    exact ⟨fun _ => endCommit .., fun _ => endCommit ..⟩
  · split <;> exact next _

theorem drainTimeout (s : State) : Answers (execDrainTimeout s) := by
  unfold execDrainTimeout
  split <;> simp

theorem fecChangeTimeout (s : State) : Answers (execFecChangeTimeout s) := by
  unfold execFecChangeTimeout
  split <;> simp

theorem lnkstat (d a : Reg) (s : State) : Answers (execLnkstat d a s) := by simp [execLnkstat]
theorem linkBringup (s : State) : Answers (execLinkBringup s) := by simp [execLinkBringup]
theorem frameReceive (s : State) : Answers (execFrameReceive s) := by simp [execFrameReceive]

theorem fecAck (s : State) : Answers (execFecAck s) := by
  unfold execFecAck
  dsimp only
  split <;> simp

theorem fecRequestRepeat (s : State) : Answers (execFecRequestRepeat s) := by
  unfold execFecRequestRepeat
  split <;> simp

theorem cpush (a : Reg) (s : State) : Answers (execCpush a s) := by simp [execCpush]
theorem cpushnb (d a : Reg) (s : State) : Answers (execCpushnb d a s) := by simp [execCpushnb]

theorem cset (n : Fin 3) (a b : Reg) (s : State) : Answers (execCset n a b s) := by
  simp only [execCset, classC]
  intros
  split <;> simp

theorem updateApply (s : State) : Answers (execUpdateApply s) := by
  unfold execUpdateApply
  dsimp only
  split <;> simp

theorem memoryError (s : State) : Answers (execMemoryError s) := by
  unfold execMemoryError
  dsimp only
  split <;> simp

theorem xload (d a : Reg) (s : State) : Answers (execXload d a s) := by simp [execXload]
theorem lgrant (d a : Reg) (s : State) : Answers (execLgrant d a s) := by simp [execLgrant]
theorem lrelease (a : Reg) (s : State) : Answers (execLrelease a s) := by simp [execLrelease]

theorem lmargin (d a : Reg) (s : State) : Answers (execLmargin d a s) := by
  simp only [execLmargin, classC]
  intros
  split <;> simp

theorem lmode (d a b : Reg) (s : State) : Answers (execLmode d a b s) := by simp [execLmode]

theorem settlingEnd (s : State) : Answers (execSettlingEnd s) := by
  unfold execSettlingEnd
  split
  · split <;> simp
  · simp

theorem linkStep (s : State) : Answers (execLinkStep s) := by
  unfold execLinkStep
  split <;> simp

theorem linkStepTimeout (s : State) : Answers (execLinkStepTimeout s) := by
  unfold execLinkStepTimeout
  split <;> simp

theorem barm (a : Reg) (n : BarName) (s : State) : Answers (execBarm a n s) := by simp [execBarm]
theorem barr (n : BarName) (s : State) : Answers (execBarr n s) := by simp [execBarr]
theorem bwait (a : Reg) (n : BarName) (s : State) : Answers (execBwait a n s) := by simp [execBwait]
theorem bexp (a : Reg) (n : BarName) (s : State) : Answers (execBexp a n s) := by simp [execBexp]
theorem wmsg (d : Reg) (s : State) : Answers (execWmsg d s) := by simp [execWmsg]
theorem rmsg (d a : Reg) (s : State) : Answers (execRmsg d a s) := by simp [execRmsg]
theorem msend (a b : Reg) (s : State) : Answers (execMsend a b s) := by simp [execMsend]

theorem monn (d a : Reg) (s : State) : Answers (execMonn d a s) := by
  simp only [execMonn, classC, check]
  intros
  split <;> simp

theorem waita (d a : Reg) (s : State) : Answers (execWaita d a s) := by
  simp only [execWaita, classC, check]
  intros
  split <;> simp

theorem clra (a : Reg) (s : State) : Answers (execClra a s) := by
  simp only [execClra, classC, check]
  intros
  split <;> simp

theorem mwait (d : Reg) (s : State) : Answers (execMwait d s) := by simp [execMwait]
theorem matrixStart (s : State) : Answers (execMatrixStart s) := by simp [execMatrixStart]

theorem matrixRetire (s : State) : Answers (execMatrixRetire s) := by
  unfold execMatrixRetire
  split <;> simp

theorem mgang (n : Fin 3) (s : State) : Answers (execMgang n s) := by simp [execMgang]
theorem mfollow (s : State) : Answers (execMfollow s) := by simp [execMfollow]
theorem munfollow (a : Reg) (s : State) : Answers (execMunfollow a s) := by simp [execMunfollow]

theorem exchangeBeatReceive (s : State) : Answers (execExchangeBeatReceive s) := by
  unfold execExchangeBeatReceive
  dsimp only
  split <;> simp

theorem xend (off : BitVec 13) (s : State) : Answers (execXend off s) := by simp [execXend]
theorem exchangePhaseEnd (s : State) : Answers (execExchangePhaseEnd s) := by simp [execExchangePhaseEnd]
theorem localPhaseEnd (s : State) : Answers (execLocalPhaseEnd s) := by simp [execLocalPhaseEnd]
theorem sync (a : Reg) (s : State) : Answers (execSync a s) := by simp [execSync]
theorem lsync (g : Tree) (a : Reg) (s : State) : Answers (execLsync g a s) := by simp [execLsync]

theorem phaseRelease (s : State) : Answers (execPhaseRelease s) := by
  simp only [execPhaseRelease, ite, next, implies_true, and_true]
  intros
  split <;> simp

theorem localRelease (s : State) : Answers (execLocalRelease s) := by
  simp only [execLocalRelease, ite, next, implies_true, and_true, true_and]
  intros
  split <;> simp

theorem stragglerExpiry (s : State) : Answers (execStragglerExpiry s) := by
  unfold execStragglerExpiry
  split <;> simp

theorem arrive (g : Tree) (s : State) : Answers (execArrive g s) := by simp [execArrive]

theorem await (g : Tree) (s : State) : Answers (execAwait g s) := by
  unfold execAwait
  split <;> simp

theorem treeComplete (s : State) : Answers (execTreeComplete s) := by simp [execTreeComplete]

theorem awaitStraggler (s : State) : Answers (execAwaitStraggler s) := by
  unfold execAwaitStraggler
  split <;> simp

theorem dom (g : Tree) (a b : Reg) (s : State) : Answers (execDom g a b s) := by simp [execDom]
theorem phaseQuery (d a : Reg) (s : State) : Answers (execPhaseQuery d a s) := by simp [execPhaseQuery]
theorem phaseCancel (d a : Reg) (s : State) : Answers (execPhaseCancel d a s) := by simp [execPhaseCancel, phaseQuery]

theorem reductionResult (s : State) : Answers (execReductionResult s) := by
  unfold execReductionResult
  split <;> simp

theorem reductionStraggler (s : State) : Answers (execReductionStraggler s) := by
  unfold execReductionStraggler
  split <;> simp

theorem tileGate (s : State) : Answers (execTileGate s) := by simp [execTileGate]
theorem tileUngate (s : State) : Answers (execTileUngate s) := by
  unfold execTileUngate
  dsimp only
  split <;> exact next _

theorem resetRelease (s : State) : Answers (execResetRelease s) := by
  unfold execResetRelease
  dsimp only
  split <;> exact next _

theorem snapshotLatch (s : State) : Answers (execSnapshotLatch s) := by simp [execSnapshotLatch]
theorem cstep (d a : Reg) (s : State) : Answers (execCstep d a s) := by simp [execCstep]
theorem cresume (d a b : Reg) (s : State) : Answers (execCresume d a b s) := by simp [execCresume]

theorem collectiveFreeze (s : State) : Answers (execCollectiveFreeze s) := by
  unfold execCollectiveFreeze
  split <;> simp

theorem loop (a : Reg) (e : BitVec 26) (s : State) : Answers (execLoop a e s) := by simp [execLoop]
theorem fetchFault (cause : Cause) (addr : Word) (s : State) : Answers (execFetchFault cause addr s) := by simp [execFetchFault]
theorem hset (d : HReg) (a : Reg) (s : State) : Answers (execHset d a s) := by simp [execHset]
theorem hreset (d : HReg) (s : State) : Answers (execHreset d s) := by simp [execHreset]

theorem headOpComplete (s : State) : Answers (execHeadOpComplete s) := by
  unfold execHeadOpComplete
  split <;> simp

theorem vpinit (d a b : Reg) (s : State) : Answers (execVpinit d a b s) := by
  unfold execVpinit
  split <;> simp

theorem vplabel (d a : Reg) (s : State) : Answers (execVplabel d a s) := withState fun e => by simp

theorem vpfold (d a b : Reg) (s : State) : Answers (execVpfold d a b s) :=
  withState fun e => by simp [spillCheck]

theorem vpmerge (d a : Reg) (s : State) : Answers (execVpmerge d a s) :=
  withState fun e => by simp [spillCheck]

theorem vpread (d a : Reg) (s : State) : Answers (execVpread d a s) := withState fun e => by simp
theorem vpregen (d a b : Reg) (s : State) : Answers (execVpregen d a b s) := by simp [execVpregen]

theorem vpspill (a : Reg) (s : State) : Answers (execVpspill a s) := by
  simp only [execVpspill, ite, trap, implies_true, true_and]
  exact fun _ => withState fun e => by simp

theorem vpstat (d : Reg) (s : State) : Answers (execVpstat d s) := by simp [execVpstat]

theorem convEcc (s : State) (ea : Word) (n : Nat) : Answers (s.convEcc ea n) := trap ..

theorem vldc (t : ElemType) (d a : Reg) (sat u : Bool) (s : State) : Answers (execVldc t d a sat u s) := by
  simp [execVldc, convEcc]

theorem vstc (t : ElemType) (d a : Reg) (sat u : Bool) (b4 : B4Type) (s : State) : Answers (execVstc t d a sat u b4 s) := by
  simp [execVstc, convEcc]

theorem vldb (t : ElemType) (d a : Reg) (m : VMod) (s : State) : Answers (execVldb t d a m s) := by
  unfold execVldb
  refine access ?_ ..
  exact fin _

theorem vldx (t : ElemType) (d a b : Reg) (m : VMod) (s : State) : Answers (execVldx t d a b m s) := by
  simp [execVldx, accessAll]

theorem vstx (t : ElemType) (d a b : Reg) (m : VMod) (s : State) : Answers (execVstx t d a b m s) := by
  simp [execVstx, accessAll]

theorem vldh (d : Reg) (a : HReg) (b : Reg) (s : State) : Answers (execVldh d a b s) := by simp [execVldh]
theorem vsth (d : Reg) (a : HReg) (b : Reg) (s : State) : Answers (execVsth d a b s) := by simp [execVsth]

theorem csrw (n : Csr) (a : Reg) (s : State) : Answers (execCsrw n a s) := by simp [execCsrw]
theorem csrs (n : Csr) (a : Reg) (s : State) : Answers (execCsrs n a s) := by simp [execCsrs]
theorem csrc (n : Csr) (a : Reg) (s : State) : Answers (execCsrc n a s) := by simp [execCsrc]
theorem ageWrite (a : Reg) (s : State) : Answers (execAgeWrite a s) := by simp [execAgeWrite]
theorem tvWrite (a : Reg) (s : State) : Answers (execTvWrite a s) := by simp [execTvWrite]
theorem xsend (cls : Fin 8) (a : Reg) (off : BitVec 13) (s : State) :
    Answers (execXsend cls a off s) := by
  simp [execXsend]

theorem xrecv (cls : Fin 8) (a : Reg) (off : BitVec 13) (s : State) :
    Answers (execXrecv cls a off s) := by
  simp [execXrecv]

theorem xrecva (ty : ElemType) (op : CombOp) (sat : Bool) (cls : Fin 8) (a : Reg) (off : BitVec 13) (s : State) :
    Answers (execXrecva ty op sat cls a off s) := by
  simp [execXrecva]

theorem xmc (lane : Fin 4) (cls : Fin 8) (a : Reg) (off : BitVec 13) (s : State) :
    Answers (execXmc lane cls a off s) := by
  simp [execXmc]

theorem xsel (port : Fin 5) (off : BitVec 13) (s : State) : Answers (execXsel port off s) := by simp [execXsel]
theorem wput (d a : Reg) (s : State) : Answers (execWput d a s) := by simp [execWput]
theorem wget (d a : Reg) (s : State) : Answers (execWget d a s) := by simp [execWget]
theorem wrtr (d a : Reg) (s : State) : Answers (execWrtr d a s) := by simp [execWrtr]
theorem transitPacket (s : State) : Answers (execTransitPacket s) := by simp [execTransitPacket]
theorem staleTv (s : State) : Answers (execStaleTv s) := by simp [execStaleTv]
theorem putArrive (s : State) : Answers (execPutArrive s) := by simp [execPutArrive]
theorem getArrive (s : State) : Answers (execGetArrive s) := by simp [execGetArrive]
theorem getDataArrive (s : State) : Answers (execGetDataArrive s) := by simp [execGetDataArrive]
theorem allowanceArrive (s : State) : Answers (execAllowanceArrive s) := by simp [execAllowanceArrive]
theorem rendezvousAnswer (s : State) : Answers (execRendezvousAnswer s) := by simp [execRendezvousAnswer]
theorem deregNoticeArrive (s : State) : Answers (execDeregNoticeArrive s) := by simp [execDeregNoticeArrive]
theorem deregAnswerArrive (s : State) : Answers (execDeregAnswerArrive s) := by simp [execDeregAnswerArrive]
theorem collectivePut (s : State) : Answers (execCollectivePut s) := by simp [execCollectivePut]
theorem collectiveWait (s : State) : Answers (execCollectiveWait s) := by simp [execCollectiveWait]
theorem collectiveReduce (s : State) : Answers (execCollectiveReduce s) := by simp [execCollectiveReduce]
theorem collectiveEnd (s : State) : Answers (execCollectiveEnd s) := by simp [execCollectiveEnd]
theorem redBar (g : Tree) (s : State) : Answers (execRedBar g s) := by simp [execRedBar]
theorem wcnt (d a b : Reg) (s : State) : Answers (execWcnt d a b s) := by simp [execWcnt]
theorem tvget (d a : Reg) (s : State) : Answers (execTvget d a s) := by simp [execTvget]
theorem cstat (d a : Reg) (s : State) : Answers (execCstat d a s) := by simp [execCstat]
theorem trapInstr (a : Reg) (s : State) : Answers (execTrap a s) := by simp [execTrap]
theorem hwaitf (d : HReg) (a : Reg) (s : State) : Answers (execHwaitf d a s) := by simp [execHwaitf]
theorem hwaite (d : HReg) (a : Reg) (s : State) : Answers (execHwaite d a s) := by simp [execHwaite]
theorem hadvc (d : HReg) (a : Reg) (s : State) : Answers (execHadvc d a s) := by simp [execHadvc]
theorem hadvp (d : HReg) (a : Reg) (s : State) : Answers (execHadvp d a s) := by simp [execHadvp]

/-- A class C instruction that always completes. -/
theorem classC_fin (s t : State) : Answers (s.classC t.fin) := by simp

/-- A class C instruction that always leaves a result. -/
theorem classC_result (s t : State) (d : Reg) (x : Word) : Answers (s.classC (t.result d x)) := by simp

end Answers
end Sys2Proof.Proofs

namespace Sys2Proof.Proofs
open Machine

/-- Every row of the table, an instruction or a step of an engine or of another agent, answers a next state: a plain
instruction by its shape, every other form by its own lemma. -/
theorem exec_answers (i : Instr) (s : State) : Answers (exec i s) := by
  cases i
  case hget | btest | bstat | mcnt | vmovs | kpop | aquery | cfree | cget | lstat =>
    exact Answers.classC_result ..
  case vadd | vsub | vmul | vmin | vmax | vand | vor | vxor | vfma | vabs | vneg | vshl | vshr | vsra | vsel | vcmpeq |
      vcmplt | vcmple | vexp | vrcp | vrsqrt | vsat | vcvt | vpack | vunpack | vshuf | vbcast | vmov | vredsum | vredmax |
      vredmin | vscan | vext | kand | kor | kxor | knot | kmov | cfence | binv =>
    exact Answers.classC_fin ..
  case add | sub | and | or | xor | shl | shr | sra | slt | sltu | seq | sne | min | max | minu | maxu | mul | mulh | mulhu
      | div | divu | rem | remu | madd | clz | ctz | popc | sextB | sextH | zextB | zextH | sel | addi | andi | ori | xori |
      slti | sltiu | shli | shri | srai =>
    exact Answers.result ..
  case ldW | ldB | ldBu | ldH | ldHu | ldWx =>
    exact Answers.load ..
  case stW | stB | stH | stWx =>
    exact Answers.store ..
  case bz | bnz | bltz | bgez | bgtz | blez =>
    exact Answers.branch ..
  case j | jal | jr | jalr =>
    exact Answers.transfer ..
  case csrr | cycRead =>
    exact Answers.csrRead ..
  case vld =>
    exact Answers.loadV ..
  case vst =>
    exact Answers.storeV ..
  case mma | mmai | mzero | mload | mdrain | mdrq | mrsum | mcsum =>
    exact Answers.mxIssue ..
  case redAdd | redMax | redMin | redAnd | redOr =>
    exact Answers.reduceLanesOn ..
  case drain | drainFec | drainRetrain | undrain =>
    exact Answers.drainOp ..
  case illegalEncoding =>
    exact Answers.trap ..
  case mailboxPost | load | store | gather | scatter | im2col | update | fillCommand | copyBeat | tlbWrite | tlbInvalidate |
      commandEndByFirmware | copyCompletion | scrubPass | measurementWindow | wavelengthFail | wavelengthRestore | lightDetect
      | lockAcquired | lockTimeout | burstLoss | lossOfLock | idleBurst | frameAck | fecRequest | fecRevert |
      drainMarkerArrive | commitMarkerArrive | launchSubmit | launchAdmit | agingRaise | counterWrite | launchComplete |
      launchEndedByFirmware | coreRestart | preemptSwap | preemptOverdue | shadowPage | partitionConfig | sensorSample |
      thermal | thermalMigration | slewWindow | powerGood | railFault | thermalTrip | bootSourceTimeout | boot | mgmtStatus |
      bootimg | attest | keyload | keyclear | mgmtSnap | snapread | evread | checkpoint | restore | svncommit | mgmtReset |
      eventRecordDeliver | logTailWrite | hostRegisterWrite | serviceInboxTake | resetNAssert | checkpointEnd =>
    exact Answers.next ..
  case loop => exact Answers.loop ..
  case eret => exact Answers.eret ..
  case halt => exact Answers.halt ..
  case snap => exact Answers.snap ..
  case xload => exact Answers.xload ..
  case fence => exact Answers.fence ..
  case evwr => exact Answers.evwr ..
  case hset => exact Answers.hset ..
  case hreset => exact Answers.hreset ..
  case barm => exact Answers.barm ..
  case barr => exact Answers.barr ..
  case bwait => exact Answers.bwait ..
  case bexp => exact Answers.bexp ..
  case wmsg => exact Answers.wmsg ..
  case rmsg => exact Answers.rmsg ..
  case msend => exact Answers.msend ..
  case waita => exact Answers.waita ..
  case clra => exact Answers.clra ..
  case monn => exact Answers.monn ..
  case vldc => exact Answers.vldc ..
  case vstc => exact Answers.vstc ..
  case vldb => exact Answers.vldb ..
  case vldx => exact Answers.vldx ..
  case vstx => exact Answers.vstx ..
  case vldh => exact Answers.vldh ..
  case vsth => exact Answers.vsth ..
  case mgang => exact Answers.mgang ..
  case mfollow => exact Answers.mfollow ..
  case munfollow => exact Answers.munfollow ..
  case mwait => exact Answers.mwait ..
  case aalloc => exact Answers.aalloc ..
  case afree => exact Answers.afree ..
  case spill => exact Answers.spill ..
  case fill => exact Answers.fill ..
  case cpush => exact Answers.cpush ..
  case cpushnb => exact Answers.cpushnb ..
  case cset => exact Answers.cset ..
  case xend => exact Answers.xend ..
  case sync => exact Answers.sync ..
  case lsync => exact Answers.lsync ..
  case arrive => exact Answers.arrive ..
  case await => exact Answers.await ..
  case dom => exact Answers.dom ..
  case phaseQuery => exact Answers.phaseQuery ..
  case phaseCancel => exact Answers.phaseCancel ..
  case vpinit => exact Answers.vpinit ..
  case vpfold => exact Answers.vpfold ..
  case vpmerge => exact Answers.vpmerge ..
  case vpread => exact Answers.vpread ..
  case vpregen => exact Answers.vpregen ..
  case vpspill => exact Answers.vpspill ..
  case vplabel => exact Answers.vplabel ..
  case vpstat => exact Answers.vpstat ..
  case lgrant => exact Answers.lgrant ..
  case lrelease => exact Answers.lrelease ..
  case lmargin => exact Answers.lmargin ..
  case lmode => exact Answers.lmode ..
  case wreg => exact Answers.wreg ..
  case wdereg => exact Answers.wdereg ..
  case wwait => exact Answers.wwait ..
  case tvstage => exact Answers.tvstage ..
  case tvcommit => exact Answers.tvcommit ..
  case cstep => exact Answers.cstep ..
  case cresume => exact Answers.cresume ..
  case lnkstat => exact Answers.lnkstat ..
  case fetchFault => exact Answers.fetchFault ..
  case matrixStart => exact Answers.matrixStart ..
  case matrixRetire => exact Answers.matrixRetire ..
  case updateApply => exact Answers.updateApply ..
  case exchangeBeatReceive => exact Answers.exchangeBeatReceive ..
  case reductionResult => exact Answers.reductionResult ..
  case reductionStraggler => exact Answers.reductionStraggler ..
  case phaseRelease => exact Answers.phaseRelease ..
  case stragglerExpiry => exact Answers.stragglerExpiry ..
  case exchangePhaseEnd => exact Answers.exchangePhaseEnd ..
  case localRelease => exact Answers.localRelease ..
  case localPhaseEnd => exact Answers.localPhaseEnd ..
  case treeComplete => exact Answers.treeComplete ..
  case awaitStraggler => exact Answers.awaitStraggler ..
  case headOpComplete => exact Answers.headOpComplete ..
  case settlingEnd => exact Answers.settlingEnd ..
  case linkStep => exact Answers.linkStep ..
  case linkStepTimeout => exact Answers.linkStepTimeout ..
  case drainTimeout => exact Answers.drainTimeout ..
  case commitTimeout => exact Answers.commitTimeout ..
  case wderegTimeout => exact Answers.wderegTimeout ..
  case wwaitTimeout => exact Answers.wwaitTimeout ..
  case linkBringup => exact Answers.linkBringup ..
  case frameReceive => exact Answers.frameReceive ..
  case fecAck => exact Answers.fecAck ..
  case fecRequestRepeat => exact Answers.fecRequestRepeat ..
  case fecChangeTimeout => exact Answers.fecChangeTimeout ..
  case putAckArrive => exact Answers.putAckArrive ..
  case collectiveFreeze => exact Answers.collectiveFreeze ..
  case tileGate => exact Answers.tileGate ..
  case tileUngate => exact Answers.tileUngate ..
  case resetRelease => exact Answers.resetRelease ..
  case snapshotLatch => exact Answers.snapshotLatch ..
  case memoryError => exact Answers.memoryError ..
  case wcnt => exact Answers.wcnt ..
  case tvget => exact Answers.tvget ..
  case cstat => exact Answers.cstat ..
  case trap => exact Answers.trapInstr ..
  case hwaitf => exact Answers.hwaitf ..
  case hwaite => exact Answers.hwaite ..
  case hadvc => exact Answers.hadvc ..
  case hadvp => exact Answers.hadvp ..
  case csrw => exact Answers.csrw ..
  case csrs => exact Answers.csrs ..
  case csrc => exact Answers.csrc ..
  case ageWrite => exact Answers.ageWrite ..
  case tvWrite => exact Answers.tvWrite ..
  case xsend => exact Answers.xsend ..
  case xrecv => exact Answers.xrecv ..
  case xrecva => exact Answers.xrecva ..
  case xmc => exact Answers.xmc ..
  case xsel => exact Answers.xsel ..
  case wput => exact Answers.wput ..
  case wget => exact Answers.wget ..
  case wrtr => exact Answers.wrtr ..
  case transitPacket => exact Answers.transitPacket ..
  case staleTv => exact Answers.staleTv ..
  case putArrive => exact Answers.putArrive ..
  case getArrive => exact Answers.getArrive ..
  case getDataArrive => exact Answers.getDataArrive ..
  case allowanceArrive => exact Answers.allowanceArrive ..
  case rendezvousAnswer => exact Answers.rendezvousAnswer ..
  case deregNoticeArrive => exact Answers.deregNoticeArrive ..
  case deregAnswerArrive => exact Answers.deregAnswerArrive ..
  case collectivePut => exact Answers.collectivePut ..
  case collectiveWait => exact Answers.collectiveWait ..
  case collectiveReduce => exact Answers.collectiveReduce ..
  case collectiveEnd => exact Answers.collectiveEnd ..
  case redBar => exact Answers.redBar ..

end Sys2Proof.Proofs

namespace Sys2Proof.Proofs
open Machine

/-! # The head unit's instructions (O60, R279 to R288) -/

theorem operand_trap_none {x : Word} {n align : Nat} (h : Operand x n align) (d : Nat) : State.addrTrap x n align d = none :=
  addrTrap_none h.view h.range h.aligned

section
variable {s : State} {e : DirEntry}

theorem withState_some {b : Nat} (h : s.stateAt b = some e) (k : DirEntry → Result) : s.withState b k = k e := by
  rw [State.withState, h]

/-- An operation enters the head unit's queue where the slice has left its banks and the queue has room (R265, R266). -/
theorem headQueue_takes {q : HeadOp} (slice : s.mxBusy q.banks = false) (room : s.c.head.length < 4) :
    s.headQueue q = .next (State.adv { s with c := { s.c with head := s.c.head ++ [q] } }) := by
  rw [State.headQueue, if_neg (by simp [slice, room])]
  rfl

theorem spillCheck_topK {q : HeadOp} (h : q.ent.mode = 0) (spills : Bool) (k : Result) : s.spillCheck q spills k = k :=
  if_pos (by simp [DirEntry.thresh, h])

theorem overlapsState_false {b n : Nat} (h : ∀ f ∈ s.c.dir, ¬(f.bank < b + n ∧ b < f.bank + f.nb)) : s.overlapsState b n = false := by
  simpa [State.overlapsState] using h

theorem newState_topK {d a b : Reg} (mode : s.c.vpcfg.toNat % 4 = 0) (low : 1 ≤ s.c.vpcfg.toNat / 2 ^ 8 % 2 ^ 7)
    (high : s.c.vpcfg.toNat / 2 ^ 8 % 2 ^ 7 ≤ 64) (one : 1 ≤ (s.reg a).toNat) (most : (s.reg a).toNat ≤ 32) :
    s.newState d a b = some
      { bank := d.val, t := (s.reg a).toNat, mode := 0, cap := s.c.vpcfg.toNat / 2 ^ 8 % 2 ^ 7, delta := 0
        nb := DirEntry.banksOf (s.reg a).toNat (s.c.vpcfg.toNat / 2 ^ 8 % 2 ^ 7) } := by
  have zero : bitsOf s.c.vpcfg.toNat 0 2 = 0 := by simpa [bitsOf] using mode
  have cap : bitsOf s.c.vpcfg.toNat 8 7 = s.c.vpcfg.toNat / 2 ^ 8 % 2 ^ 7 := rfl
  simp only [State.newState, zero, if_true, cap]
  rw [if_neg (by omega)]
  simp

/-- vpinit of a top-K state (R281). -/
theorem vpinit_topK {d a b : Reg} {x : DirEntry} (compute : s.inExchange = false) (new : s.newState d a b = some x)
    (banks : ∀ k, x.bank ≤ k → k < x.bank + x.nb → k < 32 ∧ s.c.accmap.getLsbD k = true) (slice : s.mxBusy x.banks = false)
    (room : s.c.head.length < 4) :
    exec (.vpinit d a b) s = .next (State.adv { s with c := { s.c with
      dir := s.c.dir.filter (fun f => !decide (f.bank < x.bank + x.nb ∧ x.bank < f.bank + f.nb)) ++ [x]
      head := s.c.head ++ [{ op := .vpinit d a b, x := 0, ent := x }] } }) := by
  have allocated : x.banks.all s.allocated = true := by
    simp only [DirEntry.banks, List.all_map, List.all_eq_true, List.mem_range, Function.comp_apply, State.allocated]
    intro i hi
    obtain ⟨h32, bit⟩ := banks (x.bank + i) (by omega) (by omega)
    simp [h32, bit]
  show execVpinit d a b s = _
  simp only [execVpinit, new, State.classC_compute _ _ compute]
  rw [if_neg (by simp [allocated]), if_neg (by simp [slice, room])]
  exact headQueue_takes slice room

theorem vplabel_takes {d a : Reg} (compute : s.inExchange = false) (room : s.c.head.length < 4) (state : s.stateAt d.val = some e)
    (slice : s.mxBusy e.banks = false) (list : Operand (s.reg a) (4 * e.t) 4) :
    HeadTakes (.vplabel d a) s { op := .vplabel d a, x := s.reg a, ent := e } := by
  show execVplabel d a s = _
  rw [execVplabel, withState_some state, State.classC_compute _ _ compute, operand_trap_none list]
  exact headQueue_takes slice room

theorem vpfold_takes {d a b : Reg} (compute : s.inExchange = false) (room : s.c.head.length < 4) (state : s.stateAt d.val = some e)
    (topK : e.mode = 0) (slice : s.mxBusy (e.banks ++ [a.val, a.val + 1]) = false) (tile : TileReady s .f32 a)
    (apart : ∀ f ∈ s.c.dir, ¬(f.bank < a.val + 2 ∧ a.val < f.bank + f.nb)) (index : (s.reg b).toNat ≤ 0xFFFFFFE0) :
    HeadTakes (.vpfold d a b) s { op := .vpfold d a b, x := s.reg b, ent := e } := by
  show execVpfold d a b s = _
  rw [execVpfold, withState_some state, if_neg (by simp [overlapsState_false apart]), if_neg (by omega),
    State.classC_compute _ _ compute, tileTrap_ready tile]
  exact (spillCheck_topK topK _ _).trans (headQueue_takes slice room)

theorem vpmerge_takes {d a : Reg} (compute : s.inExchange = false) (room : s.c.head.length < 4) (state : s.stateAt d.val = some e)
    (topK : e.mode = 0) (slice : s.mxBusy e.banks = false) (record : Operand (s.reg a) (e.t * e.block) 64) :
    HeadTakes (.vpmerge d a) s { op := .vpmerge d a, x := s.reg a, ent := e } := by
  show execVpmerge d a s = _
  rw [execVpmerge, withState_some state, State.classC_compute _ _ compute, operand_trap_none record]
  exact (spillCheck_topK topK _ _).trans (headQueue_takes slice room)

theorem vpread_takes {d a : Reg} (compute : s.inExchange = false) (room : s.c.head.length < 4) (state : s.stateAt a.val = some e)
    (slice : s.mxBusy e.banks = false) (record : Operand (s.reg d) (e.t * e.block) 64) :
    HeadTakes (.vpread d a) s { op := .vpread d a, x := s.reg d, ent := e } := by
  show execVpread d a s = _
  rw [execVpread, withState_some state, State.classC_compute _ _ compute, operand_trap_none record]
  exact headQueue_takes slice room

theorem vpregen_takes {d a b : Reg} (compute : s.inExchange = false) (room : s.c.head.length < 4)
    (slice : s.mxBusy [d.val, a.val, a.val + 1] = false) (source : TileReady s .f32 a) (dest : TileReady s .bf16 d)
    (apart : ∀ f ∈ s.c.dir, ¬(f.bank < d.val + 1 ∧ d.val < f.bank + f.nb) ∧ ¬(f.bank < a.val + 2 ∧ a.val < f.bank + f.nb))
    (first : d ≠ a) (second : d.val ≠ a.val + 1) (params : Operand (s.reg b) 264 8) :
    HeadTakes (.vpregen d a b) s { op := .vpregen d a b, x := s.reg b } := by
  show execVpregen d a b s = _
  have tiles : (s.overlapsState d.val 1 || s.overlapsState a.val 2 || d == a || d.val == a.val + 1) = false := by
    simp [overlapsState_false fun f hf => (apart f hf).1, overlapsState_false fun f hf => (apart f hf).2, first, second]
  rw [execVpregen, if_neg (by simp [tiles]), State.classC_compute _ _ compute, operand_trap_none params, tileTrap_ready source,
    tileTrap_ready dest]
  exact headQueue_takes slice room

theorem vpstat_reads {d : Reg} (compute : s.inExchange = false) (empty : s.c.head = []) :
    exec (.vpstat d) s =
      .next (State.adv (({ s with c := { s.c with headStatus := 0 } } : State).setReg d (s.c.headStatus.zeroExtend 32))) := by
  show execVpstat d s = _
  rw [execVpstat, State.classC_compute _ _ compute, if_neg (by simp [empty])]
  rfl

end

/-! vpspill (R287). -/

/-- A write to the banks or to local memory, with its errors: the registers, the state directory and c.vpst stay. -/
structure KeepsHead (s t : State) : Prop where
  regs : t.c.s = s.c.s
  dir : t.c.dir = s.c.dir
  vpst : t.c.vpst = s.c.vpst

namespace KeepsHead

theorem refl (s : State) : KeepsHead s s := ⟨rfl, rfl, rfl⟩
theorem trans {s t u : State} (h : KeepsHead s t) (k : KeepsHead t u) : KeepsHead s u :=
  ⟨k.regs.trans h.regs, k.dir.trans h.dir, k.vpst.trans h.vpst⟩

theorem foldl {α : Type} {f : State → α → State} (h : ∀ t x, KeepsHead t (f t x)) (s : State) (xs : List α) :
    KeepsHead s (xs.foldl f s) := by
  induction xs generalizing s with
  | nil => exact refl s
  | cons x xs ih => exact (h s x).trans (ih _)

theorem headAcc (s : State) (off : Nat) (bs : List Byte) : KeepsHead s (s.headAcc off bs) := ⟨rfl, rfl, rfl⟩
theorem engineMem (s : State) (off : Nat) (bs : List Byte) : KeepsHead s (s.engineMem off bs) := ⟨rfl, rfl, rfl⟩

theorem logError (s : State) (src mem addr : Nat) (tag : Word) : KeepsHead s (s.logError src mem addr tag) := by
  obtain ⟨l, eq⟩ := logRecord_eq s src 3 (BitVec.ofNat 32 (16 * mem + 1)) (BitVec.ofNat 32 addr) tag (BitVec.ofNat 32 (addr / 2 ^ 32))
  rw [State.logError, eq]
  exact ⟨rfl, rfl, rfl⟩

theorem logAcc (s : State) (off n : Nat) : KeepsHead s (s.logAcc off n) := foldl (fun t _ => logError t ..) s _

theorem emptyHeap (s : State) (e : DirEntry) (t : Nat) : KeepsHead s (s.emptyHeap e t).1 := by
  unfold State.emptyHeap
  dsimp only
  split
  · exact ((logAcc ..).trans (headAcc ..)).trans (headAcc ..)
  · exact (headAcc ..).trans (headAcc ..)

end KeepsHead

/-- Every heap of a state emptied, with the status that this raises. -/
def heapsEmptied (s : State) (e : DirEntry) : State × Nat :=
  (List.range e.t).foldl (fun m t => let r := m.1.emptyHeap e t; (r.1, m.2 ||| r.2)) (s, 0)

theorem heapsEmptied_keeps (s : State) (e : DirEntry) : KeepsHead s (heapsEmptied s e).1 := by
  have each (m : State × Nat) (xs : List Nat) :
      KeepsHead m.1 (xs.foldl (fun m t => let r := m.1.emptyHeap e t; (r.1, m.2 ||| r.2)) m).1 := by
    induction xs generalizing m with
    | nil => exact .refl _
    | cons x xs ih => exact (KeepsHead.emptyHeap m.1 e x).trans (ih ((m.1.emptyHeap e x).1, m.2 ||| (m.1.emptyHeap e x).2))
  exact each (s, 0) _

/-- No bit of a status below bit 8 reaches c.vpst. -/
theorem headStatus_bit7 (st : Nat) : (BitVec.ofNat 32 (st % 256 * 256)).getLsbD 7 = false := by
  rw [BitVec.getLsbD_ofNat, show st % 256 * 256 = st % 256 * 2 ^ 8 from rfl, Nat.testBit_mul_two_pow]
  simp

theorem spillHeaps_keeps (s : State) (e : DirEntry) (off : Nat) :
    (s.spillHeaps e off).c.vpst.getLsbD 7 = false ∧ (s.spillHeaps e off).c.dir = s.c.dir ∧ (s.spillHeaps e off).c.s = s.c.s := by
  let p := s.memWord off
  let out := (List.range e.t).flatMap (s.spillBytes e)
  let t := ((heapsEmptied s e).1.engineMem (offOf p) out).engineMem off (leBytes 4 (p.toNat + out.length))
  obtain ⟨regs, dir, -⟩ : KeepsHead s t := ((heapsEmptied_keeps s e).trans (.engineMem ..)).trans (.engineMem ..)
  obtain ⟨bar, cycleBar, eq⟩ := engineArrive_eq
    (({ t with c := { t.c with vpst := t.c.vpst &&& 0xFFFFFF7F } } : State).headNote (heapsEmptied s e).2) 2
    (BitVec.ofNat 32 ((heapsEmptied s e).2 % 256 * 65536))
  have spilt : s.spillHeaps e off = _ := eq
  rw [spilt]
  refine ⟨?_, dir, regs⟩
  generalize (heapsEmptied s e).2 = st
  show ((t.c.vpst &&& 0xFFFFFF7F) ||| BitVec.ofNat 32 (st % 256 * 256)).getLsbD 7 = false
  rw [BitVec.getLsbD_or, headStatus_bit7, BitVec.getLsbD_and, show (0xFFFFFF7F : Word).getLsbD 7 = false by decide]
  simp

/-- A token whose count is 0 has an empty heap: it spills nothing. -/
theorem spillBytes_empty {s : State} {e : DirEntry} {t : Nat} (h : tokenWord s e t 4 = 0) : s.spillBytes e t = [] := by
  have block : 64 ≤ e.block := by unfold DirEntry.block DirEntry.blockOf; omega
  have count : wordAt (s.c.acc.readBytes (e.tokenAt t) e.block) 4 = 0 := by
    rw [wordAt, readBytes_slice _ _ (by omega), ← littleEndian_eq_leNat]
    exact h
  have heap : (s.token e t).heap = [] := by simp [State.token, count, blockPairs]
  simp [State.spillBytes, heap]

theorem vpspill_empty {s : State} {e : DirEntry} {a : Reg} (compute : s.inExchange = false) (empty : s.c.head = [])
    (spilt : s.c.vpst.getLsbD 7 = true) (state : s.stateAt (s.c.vpst.toNat % 32) = some e) (slice : s.mxBusy e.banks = false)
    (clean : s.c.memErr = []) (counts : ∀ i, i < e.t → tokenWord s e i 4 = 0) (pointer : Operand (s.reg a) 4 4)
    (area : Operand (BitVec.ofNat 32 (littleEndian s.c.mem (offOf (s.reg a)) 4)) 1 8) :
    exec (.vpspill a) s = .next (State.adv (s.spillHeaps e (offOf (s.reg a)))) := by
  have none_ : (List.range e.t).flatMap (s.spillBytes e) = [] := by
    simpa [List.flatMap_eq_nil_iff] using fun i hi => spillBytes_empty (counts i hi)
  show execVpspill a s = _
  rw [execVpspill, if_neg (by simp [spilt]), show bitsOf s.c.vpst.toNat 0 5 = s.c.vpst.toNat % 32 by simp [bitsOf],
    withState_some state, State.classC_compute _ _ compute, operand_trap_none pointer]
  simp only [State.check]
  rw [if_neg (by simp [empty, slice]), if_neg (by simp [State.memBad, clean]), none_, memWord_eq]
  simp only [List.length_nil, Nat.zero_max, operand_trap_none area]
  rfl

end Sys2Proof.Proofs

namespace Sys2Proof.Proofs
open Machine

/-! # Grants (O60, R305 to R311) -/

section
variable {s : State} {d a b : Reg} {g : Grant}

theorem foreign_svc {k : Asker} (h : k.svc = true) : State.foreign k g = false := by simp [State.foreign, h]

theorem not_fibre {n : Nat} (h : g.part = some n) : g.fibre = false := by simp [Grant.fibre, h]

/-- A grant is held only by a local exchange that runs (R303). -/
theorem grantHeld_false {id : Nat} (own : s.grantOf s.p.num id = some g)
    (idle : s.laneRunning g.src g.lane g.dests = false) : s.grantHeld s.asker id = false := by
  simp [State.grantHeld, show s.asker.part = s.p.num from rfl, own, idle]

theorem lrelease_drops (compute : s.inExchange = false) (mine : s.input.flag = false) (svc : s.svc = true)
    (own : s.grantOf s.p.num ((s.reg a).toNat % 65536) = some g) (part : g.part = some s.p.num)
    (idle : s.laneRunning g.src g.lane g.dests = false) :
    exec (.lrelease a) s = .next (State.adv { s with chip := { s.chip with
      grants := s.chip.grants.filter fun x => !(x.id == g.id && x.part == g.part) } }) := by
  have drops : s.releaseId s.asker ((s.reg a).toNat % 65536) = s.dropGrant g := by
    rw [State.releaseId, show s.asker.part = s.p.num from rfl, own]
    simp only [foreign_svc (k := s.asker) svc, Bool.false_eq_true, if_false, State.releaseGrant, not_fibre part]
  show execLrelease a s = _
  rw [execLrelease, if_neg (by simp [mine]), State.classC_compute _ _ compute, if_neg (by simp [grantHeld_false own idle]), drops]
  rfl

theorem overBudget_same (part : Option Nat) (lbudget wave gu : Nat) : s.overBudget part lbudget wave gu gu = false := by
  simp [State.overBudget]

theorem modeFor_feasible {rx : Int} {margin mode : Nat} (h : mode ≤ 2) (room : sensitivity mode + margin ≤ rx) :
    modeFor rx margin mode = some mode := by
  rw [modeFor, if_neg (by omega), if_pos (by simpa using room)]

theorem budget_still (h : g.next = none) : g.budget = g.gu := by rw [Grant.budget, h]

/-- A change of a path's mode to itself: it settles again (R311). -/
theorem changeGrant_same {rx : Int} {n : Nat} (part : g.part = some n) (still : g.next = none) :
    s.changeGrant g g.gu g.mode rx = withGrant s g { g with rxp := rx, state := .settling } := by
  rw [State.changeGrant, if_neg (by simp [not_fibre part])]
  have eq : { g with gu := g.gu, mode := g.mode, rxp := rx, state := .settling, next := none } =
      ({ g with rxp := rx, state := .settling } : Grant) := by rw [← still]
  rw [eq]
  rfl

theorem lmode_settles (compute : s.inExchange = false) (mine : s.input.flag = false) (svc : s.svc = true)
    (own : s.grantOf s.p.num ((s.reg a).toNat % 65536) = some g) (part : g.part = some s.p.num)
    (idle : s.laneRunning g.src g.lane g.dests = false) (works : g.fail = false) (same : (s.reg b).toNat = g.mode) (mode : g.mode ≤ 2)
    (still : g.next = none) (room : sensitivity g.mode + g.margin ≤ s.rxMin g.gu g.src g.lane g.dests) :
    exec (.lmode d a b) s = .next (State.adv
      ((withGrant s g { g with rxp := s.rxMin g.gu g.src g.lane g.dests, state := .settling }).setReg d
        (BitVec.ofNat 32 ((s.reg a).toNat % 65536 * 65536 + g.mode * 256 + 0)))) := by
  have field0 : bitsOf g.mode 0 4 = g.mode := by simp only [bitsOf]; omega
  have field4 : bitsOf g.mode 4 12 = 0 := by simp only [bitsOf]; omega
  have field16 : bitsOf g.mode 16 16 = 0 := by simp only [bitsOf]; omega
  have change : s.modeChange s.asker ((s.reg a).toNat % 65536) (s.reg b).toNat =
      (withGrant s g { g with rxp := s.rxMin g.gu g.src g.lane g.dests, state := .settling },
        BitVec.ofNat 32 ((s.reg a).toNat % 65536 * 65536 + g.mode * 256 + 0)) := by
    rw [State.modeChange, show s.asker.part = s.p.num from rfl, own, same]
    simp only [foreign_svc (k := s.asker) svc, works, Bool.or_self, Bool.false_eq_true, if_false, field0, field4, field16, if_true,
      if_neg (show ¬(0 ≠ 0 ∨ 400 < 0 ∨ 3 < g.mode ∧ g.mode < 15) by omega), if_neg (show g.mode ≠ 15 by omega),
      modeFor_feasible mode room, budget_still still, overBudget_same, changeGrant_same part still, Nat.mod_mod]
  show execLmode d a b s = _
  rw [execLmode, if_neg (by simp [mine]), State.classC_compute _ _ compute, if_neg (by simp [grantHeld_false own idle])]
  simp only [change]
  rfl

theorem lmargin_reads {m : Int} (compute : s.inExchange = false) (own : s.grantOf s.p.num ((s.reg a).toNat % 65536) = some g)
    (measured : g.mmargin = some m) :
    exec (.lmargin d a) s = .next (State.adv ((withGrant s g { g with crc := 0 }).setReg d
      (BitVec.ofNat 32 (g.crc % 256 * 2 ^ 24 + g.worst % 256 * 2 ^ 16 + (m % 2 ^ 16).toNat)))) := by
  show execLmargin d a s = _
  rw [execLmargin, State.classC_compute _ _ compute, own]
  simp only [measured]
  rfl

theorem lstat_reads (compute : s.inExchange = false) (own : s.grantOf s.p.num ((s.reg a).toNat % 65536) = some g)
    (grant : (s.reg a).toNat < 0xFFFE) :
    exec (.lstat d a) s = .next (State.adv (s.setReg d
      (BitVec.ofNat 32 ((g.rxp % 2 ^ 16).toNat * 2 ^ 16 + g.mode % 16 * 256 + (if g.fail then 8 else 0) + g.state.code)))) := by
  have top : (s.reg a).getLsbD 31 = false := Nat.testBit_lt_two_pow (by omega)
  rw [Nat.mod_eq_of_lt (by omega)] at own
  have word : s.lstatWord (s.reg a) = g.word := by
    simp only [State.lstatWord, top, Bool.false_eq_true, if_false]
    rw [if_neg (by omega), if_neg (by omega), if_neg (by omega), own]
  show execLstat d a s = _
  rw [execLstat, State.classC_compute _ _ compute, word]
  rfl

end

/-! lgrant where nothing is granted (R307). -/

section
variable {s : State}

theorem rawBlock_clean {x : Word} {n align : Nat} (h : RawBlock s x n align) : s.memBad (offOf x) n = false := no_bad_word h.clean

theorem rawBlock_trap_none {x : Word} {n align : Nat} (h : RawBlock s x n align) (d : Nat) : State.addrTrap x n align d = none :=
  addrTrap_none h.view h.range h.aligned

theorem not_malformed {q : GrantReq} {dests : List Nat} (h : RequestOk s q dests) (listed : q.listed = true) :
    q.malformed s.asker dests = false := by
  obtain ⟨power, mode, margin, ⟨plain, lanex⟩, ⟨source, own⟩, fan, nodup, apart, tiles⟩ := h
  have fields : ¬(q.gu < 1 ∨ 400 < q.gu ∨ 3 < q.mode ∨ 255 < q.margin ∨ 175 < q.src) := by omega
  simp only [GrantReq.malformed, plain, fields, source, lanex, listed]
  simpa [State.asker, own, apart, nodup] using tiles

theorem freeId_first {n : Nat} (h : s.chip.grants = []) : s.freeId n = some 0 := by
  rw [State.freeId, List.range_succ_eq_map, List.find?_cons_of_pos (by simp [State.grantOf, h])]

theorem overBudget_first {part : Option Nat} {lbudget wave gu : Nat} (h : s.chip.grants = []) (own : gu ≤ lbudget) (power : gu ≤ 400) :
    s.overBudget part lbudget wave 0 gu = false := by
  have zero (p : Grant → Bool) : s.guSum p = 0 := by simp [State.guSum, h]
  simp only [State.overBudget, zero]
  simp only [Bool.and_eq_false_iff, Bool.or_eq_false_iff, decide_eq_false_iff_not]
  right
  exact ⟨⟨.inr (by omega), by omega⟩, by omega⟩

theorem decideGrant_first {q : GrantReq} {dests : List Nat} (none_ : s.chip.grants = []) (works : s.chip.failed = [])
    (request : RequestOk s q dests) (listed : q.listed = true) (margin : 1 ≤ q.margin)
    (room : sensitivity q.mode + q.margin ≤ s.rxMin q.gu q.src q.lane dests) (budget : q.gu ≤ s.p.lbudget.toNat) :
    s.decideGrant s.asker q dests = ({ s with chip := { s.chip with grants :=
      [{ id := 0, part := some s.p.num, owner := s.c.lid, src := q.src, lane := q.lane, dests := dests, gu := q.gu
         mode := q.mode, margin := q.margin, rxp := s.rxMin q.gu q.src q.lane dests }] } }, BitVec.ofNat 32 (q.mode * 256)) := by
  have free : s.laneTaken q.src q.lane dests = false := by simp [State.laneTaken, none_]
  simp only [State.decideGrant, request.source.1, if_true, not_malformed request listed, Bool.false_eq_true, if_false, freeId_first none_,
    free, works, List.contains_nil, Bool.or_self, if_neg (show q.margin ≠ 0 by omega), modeFor_feasible request.mode room,
    overBudget_first none_ (show q.gu ≤ s.asker.lbudget from budget) request.power.2, none_, List.nil_append]
  simp [State.asker]

theorem lgrant_first {d a : Reg} (compute : s.inExchange = false) (mine : s.input.flag = false) (none_ : s.chip.grants = [])
    (works : s.chip.failed = []) (block : RawBlock s (s.reg a) 16 16) :
    let q := grantReq (s.c.mem.readBytes (offOf (s.reg a)) 16)
    let dests := (s.c.mem.readBytes (offOf q.dlist) q.f).map (·.toNat)
    let rx := s.rxMin q.gu q.src q.lane dests
    RequestOk s q dests → q.listed = true → RawBlock s q.dlist q.f 1 → s.laneRunning q.src q.lane dests = false →
    1 ≤ q.margin → sensitivity q.mode + q.margin ≤ rx → q.gu ≤ s.p.lbudget.toNat →
    exec (.lgrant d a) s = .next (State.adv (({ s with chip := { s.chip with grants :=
      [{ id := 0, part := some s.p.num, owner := s.c.lid, src := q.src, lane := q.lane, dests := dests, gu := q.gu
         mode := q.mode, margin := q.margin, rxp := rx }] } } : State).setReg d (BitVec.ofNat 32 (q.mode * 256)))) := by
  intro q dests rx request listed list idle margin room budget
  show execLgrant d a s = _
  rw [execLgrant, if_neg (by simp [mine]), State.classC_compute _ _ compute, rawBlock_trap_none block]
  simp only [State.check]
  have lists : (if q.listed = true then State.addrTrap q.dlist q.f 1 4 else none) = none := by
    rw [if_pos listed, rawBlock_trap_none list]
  have asked : (if q.listed = true then dests else []) = dests := if_pos listed
  rw [show (if (grantReq (s.c.mem.readBytes (offOf (s.reg a)) 16)).listed = true then _ else none) = none from lists]
  simp only []
  rw [if_neg (by simp [rawBlock_clean block]), if_neg (by simp [rawBlock_clean list, q])]
  rw [show (if (grantReq (s.c.mem.readBytes (offOf (s.reg a)) 16)).listed = true then _ else []) = dests from asked,
    if_neg (by simp [idle, q])]
  rw [decideGrant_first none_ works request listed margin room budget]
  rfl

end
end Sys2Proof.Proofs

namespace Sys2Proof.Proofs
open Machine

/-! # The fabric engine's requests (O60, R329 to R331, R346) -/

/-- The core and the operations of the fabric engine stay; the ports and what leaves by them may change. -/
structure KeepsOps (s t : State) : Prop where
  core : t.c = s.c
  ops : t.chip.ops = s.chip.ops

/-- A port that now becomes DRAINED does so (R337). -/
def refreshed (s : State) (p : Fin 32) : State :=
  if s.drainedNow p then s.setPort p { s.port p with draining := false, drained := true } else s

/-- What holds of a state and is kept by each port that becomes DRAINED holds once all have been looked at. -/
theorem refreshPorts_rule {P : State → Prop} {s : State} (start : P s) (step : ∀ t p, P t → P (refreshed t p)) : P s.refreshPorts :=
  List.foldlRecOn _ refreshed start fun t h p _ => step t p h

namespace KeepsOps

theorem refl (s : State) : KeepsOps s s := ⟨rfl, rfl⟩
theorem trans {s t u : State} (h : KeepsOps s t) (k : KeepsOps t u) : KeepsOps s u := ⟨k.core.trans h.core, k.ops.trans h.ops⟩

theorem foldl {α : Type} {f : State → α → State} (h : ∀ t x, KeepsOps t (f t x)) (s : State) (xs : List α) :
    KeepsOps s (xs.foldl f s) := by
  induction xs generalizing s with
  | nil => exact refl s
  | cons x xs ih => exact (h s x).trans (ih _)

theorem setPort (s : State) (p : Fin 32) (x : Port) : KeepsOps s (s.setPort p x) := ⟨rfl, rfl⟩

theorem pump (s : State) (p : Fin 32) : KeepsOps s (s.pump p) := by
  refine (setPort s p _).trans (foldl (fun t f => ?_) _ _)
  exact ⟨rfl, rfl⟩

theorem transmit (s : State) (p : Fin 32) (l : Line) : KeepsOps s (s.transmit p l) := by
  have sent : KeepsOps s ((s.setPort p { s.port p with queue := (s.port p).queue ++ [l] }).pump p) := (setPort s p _).trans (pump _ p)
  unfold State.transmit
  cases l with
  | packet k =>
    dsimp only
    split
    · exact refl s
    · exact sent
  | drainMarker => exact sent
  | commitMarker v => exact sent

theorem sendPackets (s : State) (p : Fin 32) (ks : List Packet) : KeepsOps s (s.sendPackets p ks) := foldl (fun t _ => transmit t p _) s ks

theorem answerOwed (s : State) : KeepsOps s s.answerOwed := by
  unfold State.answerOwed
  dsimp only
  refine KeepsOps.trans ?_ (foldl (fun t w => transmit t _ _) _ _)
  exact ⟨rfl, rfl⟩

theorem refreshPorts (s : State) : KeepsOps s s.refreshPorts := by
  refine refreshPorts_rule (refl s) fun t p h => h.trans ?_
  unfold refreshed
  split
  · exact setPort t p _
  · exact refl t

end KeepsOps

section
variable {s : State}

theorem matchAllows_none (h : ∀ o ∈ s.chip.ops, o.state ≠ .waitAllow) : s.matchAllows = s := by
  have none_ : s.chip.ops.filter (·.state = .waitAllow) = [] := by simpa [List.filter_eq_nil_iff] using h
  simp only [State.matchAllows, none_, List.foldl_nil]

/-- Where no put waits for an allowance, what follows an operation changes no operation and nothing of the core. -/
theorem settle_keeps (h : ∀ o ∈ s.chip.ops, o.state ≠ .waitAllow) : KeepsOps s s.settle := by
  rw [State.settle, matchAllows_none h]
  exact (KeepsOps.answerOwed s).trans (.refreshPorts _)

theorem takeAllow_none (h : s.chip.allows = []) (o : FabOp) : s.takeAllow o = (s, o) := by
  simp [State.takeAllow, State.heldAllow, h]

/-- A new operation toward a port that neither drains nor is DRAINED is entered and sent (R329). -/
theorem newOp_sent (calm : FabricCalm s) {o : FabOp} {p : Fin 32} (way : s.route o.peer = .port p) (up : (s.port p).drained = false)
    (none_ : s.chip.allows = []) :
    (s.newOp o).c = s.c ∧ (s.newOp o).chip.ops = s.chip.ops ++ [{ o with id := s.chip.nextOp, state := .sent }] := by
  let n : FabOp := { o with id := s.chip.nextOp }
  let t : State := { s with chip := { s.chip with ops := s.chip.ops ++ [n], nextOp := s.chip.nextOp + 1 } }
  have start : s.newOp o = (t.setOp { n with state := .sent }).sendPackets p (t.packetsOf n) := by
    show t.startOp n = _
    rw [State.startOp, show t.route n.peer = .port p from way]
    simp only [takeAllow_none (s := t) none_]
    exact if_neg (by simp [show t.port p = s.port p from rfl, (calm.ports p).1, up])
  have others : s.chip.ops.map (fun x => if x.id = s.chip.nextOp then { n with state := .sent } else x) = s.chip.ops := by
    refine (List.map_congr_left fun x hx => if_neg ?_).trans (List.map_id' _)
    exact (calm.waiting x hx).2.ne
  obtain ⟨core, ops⟩ := KeepsOps.sendPackets (t.setOp { n with state := .sent }) p (t.packetsOf n)
  rw [start]
  refine ⟨core, ops.trans ?_⟩
  show (s.chip.ops ++ [n]).map (fun x => if x.id = s.chip.nextOp then { n with state := .sent } else x) = _
  rw [List.map_append, others]
  simp [n]

/-- What a request that starts leaves (R346): the core as it is, and one operation more. -/
def Starts (s u : State) (peer win : Nat) : Prop :=
  u.c = s.c ∧ ∃ o, u.chip.ops = s.chip.ops ++ [o] ∧ o.id = s.chip.nextOp ∧ o.peer = peer ∧ o.win = win

theorem newOp_starts (calm : FabricCalm s) {o : FabOp} {p : Fin 32} (way : s.route o.peer = .port p) (up : (s.port p).drained = false)
    (none_ : s.chip.allows = []) : Starts s (s.newOp o).settle o.peer o.win := by
  obtain ⟨core, ops⟩ := newOp_sent calm way up none_
  have sent : ∀ x ∈ (s.newOp o).chip.ops, x.state ≠ .waitAllow := by
    rw [ops]
    intro x hx
    rcases List.mem_append.mp hx with old | new
    · exact (calm.waiting x old).1
    · rw [List.mem_singleton.mp new]
      exact FabState.noConfusion
  obtain ⟨core', ops'⟩ := settle_keeps sent
  exact ⟨core'.trans core, _, ops'.trans ops, rfl, rfl, rfl⟩

theorem memWord_toNat (s : State) (a : Nat) : (s.memWord a).toNat = littleEndian s.c.mem a 4 := by
  rw [memWord_eq, BitVec.toNat_ofNat]
  exact Nat.mod_eq_of_lt (littleEndian_lt s.c.mem a 4)

/-- The request that fields describe (R329). -/
def askedOp (kind : FabKind) (lid peer win off laddr len tag : Nat) : FabOp :=
  { kind := kind, lid := lid, peer := peer, win := win, off := off, laddr := laddr, len := len, tag := BitVec.ofNat 16 tag }

variable {a : Reg} {kind : FabKind} {peer win off laddr len tag : Nat}

theorem request_eq (h : RequestAt s a kind peer win off laddr len tag) (lid : Nat) :
    State.request (fun i => (s.memWord (offOf (s.reg a) + 4 * i)).toNat) kind lid = askedOp kind lid peer win off laddr len tag := by
  obtain ⟨-, w0, w1, w2, w3, fields, units, -, -⟩ := h
  simp only [State.request, memWord_toNat, Nat.mul_zero, Nat.add_zero, Nat.mul_one, Nat.reduceMul, w0, w1, w2, w3, bitsOf, askedOp]
  have e1 : (peer + 2 ^ 16 * win) / 2 ^ 0 % 2 ^ 16 = peer := by omega
  have e2 : (peer + 2 ^ 16 * win) / 2 ^ 16 % 2 ^ 12 = win := by omega
  have e3 : (len + 2 ^ 16 * tag) / 2 ^ 0 % 2 ^ 16 = len := by omega
  have e4 : (len + 2 ^ 16 * tag) / 65536 = tag := by omega
  rw [e1, e2, e3, e4]

theorem badRequest_false (h : RequestAt s a kind peer win off laddr len tag) (lid : Nat) :
    State.badRequest (fun i => (s.memWord (offOf (s.reg a) + 4 * i)).toNat) (askedOp kind lid peer win off laddr len tag) = false := by
  obtain ⟨-, w0, -, -, -, fields, ⟨u1, u2, u3, u4, -⟩, local_, -⟩ := h
  have top : bitsOf (peer + 2 ^ 16 * win) 28 4 = 0 := by simp only [bitsOf]; omega
  have allow : kind = .allow → laddr = 0 := fun e => by rwa [if_pos e] at local_
  simp only [State.badRequest, memWord_toNat, Nat.mul_zero, Nat.add_zero, w0, top, askedOp, u1, u2, u3]
  simpa [Nat.ne_of_gt u4] using allow

theorem fabBusy_false (core : Option Nat) (allow : Bool) (h : s.chip.ops.length < 64) : s.fabBusy core allow = false := by
  have few (p : FabOp → Bool) := List.length_filter_le p s.chip.ops
  have mine := few fun o => o.core == core && (o.kind == .put || o.kind == .get || o.kind == .allow)
  have allows := few (·.kind == .allow)
  simp only [State.fabBusy, Bool.or_eq_false_iff, Bool.and_eq_false_iff, decide_eq_false_iff_not]
  exact ⟨by omega, .inr (by omega)⟩

theorem localTrap_none (h : RequestAt s a kind peer win off laddr len tag) :
    (if kind = .allow then none else State.addrTrap (BitVec.ofNat 32 laddr) len 1 6) = none := by
  have local_ := h.local_
  split at local_
  case isTrue e => rw [if_pos e]
  case isFalse e =>
    have off_ : (BitVec.ofNat 32 laddr).toNat = laddr := by rw [BitVec.toNat_ofNat]; omega
    rw [if_neg e]
    refine addrTrap_none ?_ ?_ (Nat.mod_one _)
    · rw [viewOf, off_]; omega
    · rw [offOf, off_]; omega

/-- A request that nothing stands in the way of starts its operation (R346). -/
theorem fabRequest_starts (compute : s.inExchange = false) (h : RequestAt s a kind peer win off laddr len tag) (d : Reg)
    (k : State → FabOp → State) :
    s.fabRequest d a kind k =
      .next (State.adv ((k s (askedOp kind s.c.lid peer win off (laddr % 2 ^ 28) len tag)).settle.setReg d 0)) := by
  rw [State.fabRequest, State.classC_compute _ _ compute, rawBlock_trap_none h.block]
  simp only [State.check, request_eq h]
  rw [show (askedOp kind s.c.lid peer win off laddr len tag).laddr = laddr from rfl,
    show (askedOp kind s.c.lid peer win off laddr len tag).len = len from rfl, localTrap_none h]
  simp only [rawBlock_clean h.block, badRequest_false h, fabBusy_false _ _ h.room, Bool.false_eq_true, if_false]
  rfl

theorem readUnits_clean (h : s.c.memErr = []) (off len : Nat) (tag : Word) : (s.readUnits off len tag).1 = s := by
  simp [State.readUnits, State.logWords, State.badWords, h]

/-- A put, a get or an allowance starts one operation toward its peer's window. -/
def StartsOp (i : Instr) (s : State) (d : Reg) (peer win : Nat) : Prop :=
  ∃ o : FabOp, o.peer = peer ∧ o.win = win ∧ exec i s = .next (State.adv ((s.newOp o).settle.setReg d 0))

theorem wput_starts {d : Reg} (compute : s.inExchange = false) (clean : s.c.memErr = []) (h : RequestAt s a .put peer win off laddr len tag) :
    StartsOp (.wput d a) s d peer win := by
  let o := askedOp .put s.c.lid peer win off (laddr % 2 ^ 28) len tag
  let r := s.readUnits o.laddr o.len (o.tag.zeroExtend 32)
  refine ⟨{ o with data := s.c.mem.readBytes o.laddr o.len, bad := r.2 }, rfl, rfl, ?_⟩
  show execWput d a s = _
  rw [execWput, fabRequest_starts compute h]
  show Host.Outcome.next (State.adv ((r.1.newOp { o with data := s.c.mem.readBytes o.laddr o.len, bad := r.2 }).settle.setReg d 0)) = _
  rw [show r.1 = s from readUnits_clean clean ..]

theorem wget_starts {d : Reg} (compute : s.inExchange = false) (h : RequestAt s a .get peer win off laddr len tag) :
    StartsOp (.wget d a) s d peer win := by
  refine ⟨askedOp .get s.c.lid peer win off (laddr % 2 ^ 28) len tag, rfl, rfl, ?_⟩
  show execWget d a s = _
  rw [execWget, fabRequest_starts compute h]

theorem wrtr_starts {d : Reg} {w : Window} (compute : s.inExchange = false) (h : RequestAt s a .allow peer win off laddr len tag)
    (open_ : s.window win = some w) (kind : w.kind = 2) (use : w.dereg = false) : StartsOp (.wrtr d a) s d peer win := by
  let o := askedOp .allow s.c.lid peer win off (laddr % 2 ^ 28) len tag
  have mine : (s.window o.win).any fun w => w.kind == 2 && !w.dereg := by
    simp [show o.win = win from rfl, open_, kind, use]
  refine ⟨o, rfl, rfl, ?_⟩
  show execWrtr d a s = _
  rw [execWrtr, fabRequest_starts compute h, State.allowPut, if_pos mine]

theorem requests_start (s : State) (d a : Reg) (p : Fin 32) (peer win off laddr len tag : Nat) (calm : FabricCalm s)
    (way : s.route peer = .port p) (up : (s.port p).drained = false) (none_ : s.chip.allows = []) (clean : s.c.memErr = []) :
    let leaves (i : Instr) : Prop := ∃ u : State, exec i s = .next (State.adv (u.setReg d 0)) ∧ u.c = s.c ∧
      ∃ o, u.chip.ops = s.chip.ops ++ [o] ∧ o.id = s.chip.nextOp ∧ o.peer = peer ∧ o.win = win
    (RequestAt s a .put peer win off laddr len tag → leaves (.wput d a)) ∧
    (RequestAt s a .get peer win off laddr len tag → leaves (.wget d a)) ∧
    (∀ w, RequestAt s a .allow peer win off laddr len tag → s.window win = some w → w.kind = 2 → w.dereg = false →
      leaves (.wrtr d a)) := by
  intro leaves
  have leaves_of {i : Instr} : StartsOp i s d peer win → leaves i := by
    rintro ⟨o, rfl, rfl, run⟩
    exact ⟨_, run, newOp_starts calm way up none_⟩
  exact ⟨fun h => leaves_of (wput_starts calm.compute clean h), fun h => leaves_of (wget_starts calm.compute h),
    fun w h open_ kind use => leaves_of (wrtr_starts calm.compute h open_ kind use)⟩

end
end Sys2Proof.Proofs

namespace Sys2Proof.Proofs
open Machine

/-! # Windows, counters and routing tables (O60, R327, R338, R340, R345, R347, R348) -/

/-- A number below a power of two meets no bit of a mask from that power on. -/
theorem and_mask_zero {x m : Word} {k : Nat} (low : x.toNat < 2 ^ k) (high : m.toNat % 2 ^ k = 0) : x &&& m = 0 := by
  refine BitVec.eq_of_getLsbD_eq fun i _ => ?_
  rw [BitVec.getLsbD_and, show (0 : Word).getLsbD i = false from BitVec.getLsbD_zero, Bool.and_eq_false_iff]
  rcases Nat.lt_or_ge i k with below | above
  · have bit := Nat.testBit_mod_two_pow m.toNat k i
    rw [high, Nat.zero_testBit, decide_eq_true below, Bool.true_and] at bit
    exact .inr bit.symm
  · exact .inl (Nat.testBit_lt_two_pow (lt_of_lt_of_le low (Nat.pow_le_pow_right (by decide) above)))

section
variable {s : State} {d a b : Reg} {w : Window}

theorem extract_toNat (x : Word) {n : Nat} (h : x.toNat < 2 ^ n) : (x.extractLsb' 0 n).toNat = x.toNat := by
  rw [BitVec.extractLsb'_toNat, Nat.shiftRight_zero, Nat.mod_eq_of_lt h]

theorem wcnt_reads (compute : s.inExchange = false) (number : (s.reg a).toNat < 4096) (open_ : s.window (s.reg a).toNat = some w)
    (origin : s.reg b = 0) : exec (.wcnt d a b) s = .next (State.adv (s.setReg d w.org)) := by
  have word : s.windowWord (s.reg a).toNat (s.reg b).toNat = w.org := by simp [State.windowWord, open_, origin]
  show execWcnt d a b s = _
  rw [execWcnt, State.operand, if_pos (by simp [number, origin]), State.classC_compute _ _ compute, word]
  rfl

/-- The words of wwait on an origin counter: the number of the window, bit 16 clear, nothing else (R347). -/
theorem wwait_fields (number : (s.reg a).toNat < 4096) :
    (s.reg a &&& 0xFFFEF000 == 0) = true ∧ ((s.reg a).extractLsb' 0 12).toNat = (s.reg a).toNat ∧ (s.reg a).getLsbD 16 = false :=
  ⟨by rw [and_mask_zero (k := 12) number (by decide)]; rfl, extract_toNat _ number, Nat.testBit_lt_two_pow (by omega)⟩

theorem wwait_ready (compute : s.inExchange = false) (number : (s.reg a).toNat < 4096) (open_ : s.window (s.reg a).toNat = some w)
    (reached : 0 ≤ (w.org - s.reg b).toInt) : exec (.wwait d a b) s = .next (State.adv (s.setReg d w.org)) := by
  obtain ⟨fields, window, origin⟩ := wwait_fields number
  have word : s.windowWord (s.reg a).toNat 0 = w.org := by simp [State.windowWord, open_]
  have ready : (0 : Word).sle (w.org - s.reg b) = true := by simpa [BitVec.sle] using reached
  show execWwait d a b s = _
  rw [execWwait, State.operand, if_pos fields, State.classC_compute _ _ compute, window, origin]
  simp only [Bool.false_eq_true, if_false, word, ready, if_true]
  rfl

/-! wdereg where no table is active and nothing is in flight (R340). -/

/-- A fabric engine without operations or allowances. -/
theorem withoutItems_self (ops : s.chip.ops = []) (allows : s.chip.allows = []) :
    ({ s with chip := { s.chip with ops := [], allows := [] } } : State) = s := by
  rw [← ops, ← allows]

theorem sendNotices_none {n : Nat} (open_ : s.window n = some w) (told : w.tell = []) :
    s.sendNotices n = s.setWindow { w with tell := [] } := by
  simp only [State.sendNotices, open_, told, List.filter_nil, List.foldl_nil]

theorem window_setWindow {n : Nat} {x : Window} (open_ : s.window n = some w) (same : x.win = n) :
    (s.setWindow x).window n = some x := by
  have found (ws : List Window) (h : (ws.find? (·.win = n)).isSome) :
      (ws.map fun y => if y.win = x.win then x else y).find? (·.win = n) = some x := by
    induction ws with
    | nil => simp at h
    | cons y ys ih =>
      by_cases hy : y.win = n
      · simp [same, hy]
      · rw [List.find?_cons_of_neg (by simpa using hy)] at h
        rw [List.map_cons, if_neg (by rw [same]; exact hy), List.find?_cons_of_neg (by simpa using hy)]
        exact ih h
  exact found _ (by rw [show s.chip.windows.find? (·.win = n) = some w from open_]; rfl)

theorem filter_setWindow (ws : List Window) {n : Nat} {x : Window} (same : x.win = n) :
    (ws.map fun y => if y.win = x.win then x else y).filter (·.win ≠ n) = ws.filter (·.win ≠ n) := by
  induction ws with
  | nil => rfl
  | cons y ys ih =>
    by_cases hy : y.win = n
    · rw [List.map_cons, if_pos (hy.trans same.symm), List.filter_cons_of_neg (by simp [same]), List.filter_cons_of_neg (by simp [hy]), ih]
    · rw [List.map_cons, if_neg (by rw [same]; exact hy), List.filter_cons_of_pos (by simpa using hy),
        List.filter_cons_of_pos (by simpa using hy), ih]

theorem wdereg_alone {n : Nat} (compute : s.inExchange = false) (svc : s.svc = true) (free : s.c.pend = .none) (eq : (s.reg a).toNat = n)
    (number : n < 4096) (open_ : s.window n = some w) (use : w.dereg = false) (none_ : s.chip.active = none) (ops : s.chip.ops = [])
    (allows : s.chip.allows = []) :
    exec (.wdereg d a) s = .next (State.adv
      (({ s with chip := { s.chip with windows := s.chip.windows.filter (·.win ≠ n) } } : State).setReg d 0)) := by
  have same : w.win = n := by simpa using List.find?_some open_
  let x : Window := { w with dereg := true, waits := [], tell := [] }
  have unreached : s.reachable = [] := by simp [State.reachable, none_]
  have opened : (s.setWindow x).window n = some x := window_setWindow open_ same
  have begun : s.beginDereg w = (s.setWindow x).setWindow x := by
    have still : (s.setWindow x).chip.ops = [] := ops
    have held : (s.setWindow x).chip.allows = [] := allows
    rw [State.beginDereg, unreached]
    simp only [show s.setWindow { w with dereg := true, waits := [], tell := [] } = s.setWindow x from rfl, still, List.filter_nil,
      List.foldl_nil, held]
    refine (congrArg (State.sendNotices · w.win) (withoutItems_self still held)).trans ?_
    rw [same]
    exact sendNotices_none opened rfl
  have done_ : ((s.setWindow x).setWindow x).deregDone n = true := by
    rw [State.deregDone, window_setWindow (x := x) opened same]
    rfl
  have dropped : ((s.setWindow x).setWindow x).dropWindow n =
      { s with chip := { s.chip with windows := s.chip.windows.filter (·.win ≠ n) } } := by
    have eq := filter_setWindow ((s.setWindow x).chip.windows) (x := x) same
    rw [show (s.setWindow x).chip.windows = s.chip.windows.map fun y => if y.win = x.win then x else y from rfl,
      filter_setWindow s.chip.windows (x := x) same] at eq
    exact congrArg (fun ws => ({ s with chip := { s.chip with windows := ws } } : State)) eq
  show execWdereg d a s = _
  rw [execWdereg, free, eq]
  dsimp only
  rw [State.operand, if_pos (by simp [number]), State.privC, if_pos svc, State.classC_compute _ _ compute, open_]
  simp only [use, Bool.false_eq_true, if_false, begun, done_, if_true, dropped]
  rfl

end
end Sys2Proof.Proofs

namespace Sys2Proof.Proofs
open Machine

section
variable {s : State} {d a : Reg}

theorem fabAddr_ready {x : Word} {n align : Nat} (h : RawBlock s x n align) (k : Result) : s.fabAddr x n align k = k := by
  rw [State.fabAddr, rawBlock_trap_none h, State.check, rawBlock_clean h]
  rfl

theorem privC_compute (svc : s.svc = true) (compute : s.inExchange = false) (k : Result) : s.privC k = k := by
  rw [State.privC, if_pos svc, State.classC_compute _ _ compute]

/-! wreg of a local plain window (R327, R345). -/

/-- The words of a descriptor of a local plain window within local memory. -/
structure PlainWindow (w : Nat → Nat) : Prop where
  kind : w 0 / 4096 = 4
  base : w 1 % 64 = 0
  key : w 2 = 0
  len : w 3 % 64 = 0 ∧ w 3 ≠ 0
  unused : w 4 = 0 ∧ w 5 = 0 ∧ w 6 = 0 ∧ w 7 = 0
  inside : w 1 + w 3 ≤ 0xA0000

theorem describe_plain {w : Nat → Nat} (h : PlainWindow w) (free : s.window (w 0 % 4096) = none) :
    s.describe w = ({ win := w 0 % 4096, loc := true, base := w 1, len := w 3, half := s.half }, 0) := by
  obtain ⟨kind, base, key, ⟨len, some_⟩, ⟨u4, u5, u6, u7⟩, inside⟩ := h
  have b0 : bitsOf (w 0) 0 12 = w 0 % 4096 := by simp [bitsOf]
  have b12 : bitsOf (w 0) 12 2 = 0 := by simp only [bitsOf]; omega
  have b14 : bitsOf (w 0) 14 1 = 1 := by simp only [bitsOf]; omega
  have b15 : bitsOf (w 0) 15 17 = 0 := by simp only [bitsOf]; omega
  have z (lo n : Nat) : bitsOf 0 lo n = 0 := by simp [bitsOf]
  have within : ¬0xA0000 < w 1 + w 3 := by omega
  simp [State.describe, b0, b12, b14, b15, key, z, free, base, len, some_, u4, u5, u6, u7, within]

theorem wreg_plain (compute : s.inExchange = false) (svc : s.svc = true) (block : RawBlock s (s.reg a) 32 32)
    {w : Nat → Nat} (words : ∀ i, w i = littleEndian s.c.mem (offOf (s.reg a) + 4 * i) 4) (plain : PlainWindow w)
    (free : s.window (w 0 % 4096) = none) :
    exec (.wreg d a) s = .next (State.adv (({ s with chip := { s.chip with
      windows := s.chip.windows ++ [{ win := w 0 % 4096, loc := true, base := w 1, len := w 3, half := s.half }]
      } } : State).setReg d 0)) := by
  have fields : (fun i => (s.memWord (offOf (s.reg a) + 4 * i)).toNat) = w := funext fun i => (memWord_toNat s _).trans (words i).symm
  show execWreg d a s = _
  rw [execWreg, privC_compute svc compute, fabAddr_ready block, fields, describe_plain plain free]
  rfl

/-! Routing tables (R348). -/

theorem serveAll_none (h : s.chip.later = []) : s.serveAll = s := by
  simp only [State.serveAll, h, List.length_nil, State.serveLater]

theorem turnOver_none (h : s.chip.later = []) (x : Nat) : s.turnOver d x = s.result d (BitVec.ofNat 32 x) := by
  rw [State.turnOver, serveAll_none h]

theorem inTurn_first (h : s.chip.commitBy = none ∧ s.chip.later = []) (k : State → Result) : s.inTurn k = k s := by
  obtain ⟨free, first⟩ := h
  simp only [State.inTurn, free, first, Option.isNone_none, Bool.and_self, if_true, List.filter_nil]
  rw [← first, ← free]

theorem tvget_active (compute : s.inExchange = false) (zero : s.reg a = 0) :
    ∃ x, exec (.tvget d a) s = .next (State.adv (s.setReg d x)) ∧ x.toNat % 2 ^ 16 = s.chip.tv.toNat % 2 ^ 16 := by
  refine ⟨if s.stagedTable.isSome = true then s.chip.tv &&& 0xFFFF ||| 0x10000 else s.chip.tv &&& 0xFFFF, ?_, ?_⟩
  · show execTvget d a s = _
    rw [execTvget, State.operand, if_pos (by simp [zero]), State.classC_compute _ _ compute]
    simp only [zero, if_true, true_and]
    rfl
  · have low (x y : Word) (h : y.toNat % 2 ^ 16 = 0) : (x ||| y).toNat % 2 ^ 16 = x.toNat % 2 ^ 16 := by
      rw [BitVec.toNat_or, Nat.or_mod_two_pow, h, Nat.or_zero]
    have mask : (s.chip.tv &&& 0xFFFF).toNat % 2 ^ 16 = s.chip.tv.toNat % 2 ^ 16 := by
      rw [BitVec.toNat_and, show (0xFFFF : Word).toNat = 2 ^ 16 - 1 from rfl, Nat.and_two_pow_sub_one_eq_mod, Nat.mod_mod]
    split
    · rw [low _ _ (by decide), mask]
    · exact mask

theorem filter_range_single {n k : Nat} (h : k < n) {p : Nat → Bool} (only : ∀ j, j < n → (p j = true ↔ j = k)) :
    (List.range n).filter p = [k] := by
  have eq : (List.range n).filter p = (List.range n).filter (· == k) :=
    List.filter_congr fun j hj => Bool.eq_iff_iff.mpr ((only j (List.mem_range.mp hj)).trans (beq_iff_eq).symm)
  rw [eq, List.filter_beq, List.count_eq_one_of_mem List.nodup_range (List.mem_range.mpr h)]
  rfl

/-- The inactive bank holds a table that is staged (R338). -/
def withTable (s : State) (r : Routing) : State := { s with chip := { s.chip with inactive := some r, staged := true } }

theorem stageTable_new {ver n : Nat} {routes : List Nat} (own : s.chip.num.toNat < n) (most : n ≤ 4096) (half : ver < 2 ^ 16)
    (new : ver ≠ s.chip.tv.toNat % 2 ^ 16) (ports : ∀ r ∈ routes, r < 32 ∨ 0xFE ≤ r)
    (self : ∀ j, j < n → (routes[j]? = some 0xFE ↔ j = s.chip.num.toNat)) :
    s.stageTable ver n routes = (withTable s { ver := BitVec.ofNat 16 ver, n := n, routes := routes }, 0) := by
  have one : (List.range n).filter (fun j => routes[j]? == some 0xFE) = [s.chipNum] :=
    filter_range_single own fun j hj => beq_iff_eq.trans (self j hj)
  have top : bitsOf ver 16 16 = 0 := by simp only [bitsOf]; omega
  have good : routes.any (fun x => decide (32 ≤ x ∧ x < 0xFE)) = false := by
    simp only [List.any_eq_false, decide_eq_true_eq]
    intro r hr
    have := ports r hr
    omega
  have fine : s.badTable ver n routes = false := by
    simp only [State.badTable, one, top, good]
    simp
    omega
  have other : BitVec.ofNat 16 ver ≠ s.chip.tv.extractLsb' 0 16 := by
    intro same
    have := congrArg BitVec.toNat same
    rw [BitVec.toNat_ofNat, Nat.mod_eq_of_lt half, BitVec.extractLsb'_toNat, Nat.shiftRight_zero] at this
    exact new this
  rw [State.stageTable, fine, if_neg (by simp), if_neg other]
  rfl

theorem tvstage_new (compute : s.inExchange = false) (svc : s.svc = true) (turn : s.chip.commitBy = none ∧ s.chip.later = [])
    {ver n : Nat} (hv : littleEndian s.c.mem (offOf (s.reg a)) 4 = ver) (hn : littleEndian s.c.mem (offOf (s.reg a) + 4) 4 = n)
    (head : RawBlock s (s.reg a) 8 4) (table : RawBlock s (s.reg a) (8 + n) 4) (own : s.chip.num.toNat < n) (most : n ≤ 4096)
    (half : ver < 2 ^ 16) (new : ver ≠ s.chip.tv.toNat % 2 ^ 16) {routes : List Nat}
    (read : (s.c.mem.readBytes (offOf (s.reg a) + 8) n).map (·.toNat) = routes)
    (ports : ∀ r ∈ routes, r < 32 ∨ 0xFE ≤ r) (self : ∀ j, j < n → (routes[j]? = some 0xFE ↔ j = s.chip.num.toNat)) :
    exec (.tvstage d a) s = .next (State.adv ((withTable s { ver := BitVec.ofNat 16 ver, n := n, routes := routes }).setReg d 0)) := by
  show execTvstage d a s = _
  simp only [execTvstage, privC_compute svc compute, fabAddr_ready head, memWord_toNat, hv, hn, fabAddr_ready table,
    inTurn_first turn, read, stageTable_new own most half new ports self]
  exact turnOver_none (s := withTable s _) turn.2 0

/-! tvcommit of a table without ports (R338). -/

/-- No port drains, so none becomes DRAINED. -/
theorem refreshPorts_still (h : ∀ p, (s.port p).draining = false) : s.refreshPorts = s := by
  refine refreshPorts_rule (P := (· = s)) rfl fun t p same => ?_
  subst same
  exact if_neg (by simp [State.drainedNow, h p])

theorem answerOwed_none (h : s.chip.owed = []) : s.answerOwed = s := by
  simp only [State.answerOwed, h, List.filter_nil, List.foldl_nil]
  rw [← h]

theorem settle_still (ops : s.chip.ops = []) (owed : s.chip.owed = []) (ports : ∀ p, (s.port p).draining = false) : s.settle = s := by
  rw [State.settle, matchAllows_none (by simp [ops]), answerOwed_none owed, refreshPorts_still ports]

variable {r : Routing}

theorem routedPorts_none (h : ∀ y ∈ r.routes, 32 ≤ y) : State.routedPorts r = [] := by
  rw [State.routedPorts, List.filter_eq_nil_iff]
  intro p _ routed
  have := h p.val (by simpa using routed)
  omega

/-- What committing a table without ports leaves of a chip where nothing is in flight. -/
def committed (s : State) (r : Routing) : State :=
  { s with chip := { s.chip with
    active := some r, inactive := s.chip.active, staged := false, tv := r.ver.zeroExtend 32, crossings := [] } }

theorem commit_idle (staged : s.stagedTable = some r) (closed : ∀ y ∈ r.routes, 32 ≤ y) (ops : s.chip.ops = []) (allows : s.chip.allows = [])
    (windows : s.chip.windows = []) (owed : s.chip.owed = []) (ports : ∀ p, (s.port p).draining = false) :
    s.commit = committed s r := by
  let t := committed s r
  have rest : ({ t with chip := { t.chip with ops := [], allows := [], windows := [] } } : State) = t := by
    rw [← ops, ← allows, ← windows]
    rfl
  have notices : t.resendNotices = t := by rw [State.resendNotices, show t.chip.windows = [] from windows]; rfl
  simp only [State.commit, staged, routedPorts_none closed, List.foldl_nil, ops, List.filter_nil, allows, windows, List.map_nil]
  refine (congrArg (fun u : State => u.resendNotices.settle) rest).trans ?_
  rw [notices]
  exact settle_still ops owed ports

theorem tvcommit_closed (calm : FabricCalm s) (svc : s.svc = true) (free : s.c.pend = .none) (staged : s.stagedTable = some r)
    (ver : r.ver.toNat = (s.reg a).toNat) (closed : ∀ y ∈ r.routes, 32 ≤ y) (dark : ∀ p, (s.port p).lock = .dark) (ops : s.chip.ops = [])
    (allows : s.chip.allows = []) (windows : s.chip.windows = []) :
    exec (.tvcommit d a) s = .next (State.adv ((committed s r).setReg d 0)) := by
  have still : ∀ p, (s.port p).draining = false := fun p => (calm.ports p).1
  have number : (s.reg a).toNat < 65536 := by rw [← ver]; exact r.ver.isLt
  have version : (s.reg a).extractLsb' 0 16 = r.ver := BitVec.eq_of_toNat_eq ((extract_toNat _ number).trans ver.symm)
  have table : s.commitTable r.ver = .ok r := by
    simp [State.commitTable, staged, routedPorts_none closed, dark]
  have markers : s.sendMarkers r = s := by rw [State.sendMarkers, routedPorts_none closed]; rfl
  have ready : s.commitReady r.ver = true := by simp [State.commitReady, staged, routedPorts_none closed]
  show execTvcommit d a s = _
  rw [execTvcommit, free]
  dsimp only
  rw [State.operand, if_pos (by simpa using number), privC_compute svc calm.compute, inTurn_first calm.turns]
  simp only [version, refreshPorts_still still, table, markers, ready, if_true,
    commit_idle staged closed ops allows windows calm.owed still]
  exact turnOver_none (s := committed s r) calm.turns.2 0

end
end Sys2Proof.Proofs

namespace Sys2Proof.Proofs
open Machine

/-! # Collectives and links (O60, R341, R349, R350) -/

section
variable {s : State} {d a b : Reg} {k : Coll}

theorem freeColls_all (h : s.chip.colls = []) : s.freeColls = List.range 16 := by
  simp [State.freeColls, State.coll, h]

/-- The words of a start record that is not malformed (R341). -/
structure StartWords (w : Nat → Nat) : Prop where
  line : w 0 % 32 = 0
  steps : 0 < w 1 / 2 ^ 16 ∧ w 1 < 2 ^ 32
  tag : w 2 < 2 ^ 16
  zero : w 3 = 0

theorem startRecord_ok {w : Nat → Nat} (h : StartWords w) :
    State.startRecord w = ({ pva := w 0 + 2 ^ 32 * (w 1 % 2 ^ 16), nstep := w 1 / 2 ^ 16, tag := BitVec.ofNat 16 (w 2) }, false) := by
  obtain ⟨line, ⟨steps, word⟩, tag, zero⟩ := h
  have b0 : bitsOf (w 1) 0 16 = w 1 % 2 ^ 16 := by simp only [bitsOf]; omega
  have b16 : bitsOf (w 1) 16 16 = w 1 / 2 ^ 16 := by simp only [bitsOf]; omega
  have t16 : bitsOf (w 2) 16 16 = 0 := by simp only [bitsOf]; omega
  have pva : (w 0 + 2 ^ 32 * (w 1 % 2 ^ 16)) % 32 = 0 := by omega
  have some_ : w 1 / 2 ^ 16 ≠ 0 := by omega
  simp only [State.startRecord, b0, b16, t16, zero, Nat.mul_comm (w 1 % 2 ^ 16), pva]
  simpa using some_

/-- cstep where no collective runs: it takes one of the 16 ids (R341, R349). -/
theorem cstep_first (compute : s.inExchange = false) (block : RawBlock s (s.reg a) 16 16) (none_ : s.chip.colls = []) {w : Nat → Nat}
    (words : ∀ i, w i = littleEndian s.c.mem (offOf (s.reg a) + 4 * i) 4) (start : StartWords w) :
    ∃ i, i < 16 ∧ exec (.cstep d a) s = .next (State.adv (({ s with chip := { s.chip with
      colls := [{ id := i, pva := w 0 + 2 ^ 32 * (w 1 % 2 ^ 16), nstep := w 1 / 2 ^ 16
                  tag := BitVec.ofNat 16 (w 2), lid := s.c.lid, asid := s.c.asid }] } } : State).setReg d
      (BitVec.ofNat 32 (i * 2 ^ 16)))) := by
  have fields : (fun i => (s.memWord (offOf (s.reg a) + 4 * i)).toNat) = w := funext fun i => (memWord_toNat s _).trans (words i).symm
  have id_ : (List.range 16).getD (Config.engineChoice s.tick % (List.range 16).length) 0 = Config.engineChoice s.tick % 16 := by
    simp [List.getD, Nat.mod_lt]
  refine ⟨Config.engineChoice s.tick % 16, Nat.mod_lt _ (by decide), ?_⟩
  show execCstep d a s = _
  rw [execCstep, State.classC_compute _ _ compute, fabAddr_ready block, fields, State.startColl, startRecord_ok start, freeColls_all none_, id_]
  simp only [Bool.false_eq_true, if_false, if_neg (show List.range 16 ≠ [] by decide), none_, List.nil_append]
  rfl

theorem cstat_reads (compute : s.inExchange = false) (number : (s.reg a).toNat < 16) (runs : s.coll (s.reg a).toNat = some k) :
    exec (.cstat d a) s = .next (State.adv (s.setReg d
      (BitVec.ofNat 32 (k.next % 2 ^ 16 * 2 ^ 16 + k.status % 2 ^ 8 * 2 ^ 8 + if k.frozen then 2 else 1)))) := by
  show execCstat d a s = _
  rw [execCstat, State.operand, if_pos (by simpa using number), State.classC_compute _ _ compute, State.collWord, runs]
  rfl

theorem cresume_resumes (compute : s.inExchange = false) (svc : s.svc = true) (number : (s.reg a).toNat < 16)
    (runs : s.coll (s.reg a).toNat = some k) (frozen : k.frozen = true) (some_ : (s.reg b).toNat % 2 ^ 16 ≠ 0xFFFF)
    (within : (s.reg b).toNat % 2 ^ 16 < k.nstep) :
    exec (.cresume d a b) s = .next (State.adv (({ s with chip := { s.chip with colls := s.chip.colls.map fun x =>
      if x.id = (s.reg a).toNat then { k with next := (s.reg b).toNat % 2 ^ 16, frozen := false, void := false } else x } }
        : State).setReg d 0)) := by
  have id_ : k.id = (s.reg a).toNat := by simpa using List.find?_some runs
  have step : ((s.reg b).extractLsb' 0 16).toNat = (s.reg b).toNat % 2 ^ 16 := by simp [BitVec.extractLsb'_toNat]
  show execCresume d a b s = _
  rw [execCresume, State.operand, if_pos (by simpa using number), privC_compute svc compute, step, State.resumeColl, runs]
  simp only [frozen, Bool.true_eq_false, if_false, some_, if_neg (show ¬k.nstep ≤ (s.reg b).toNat % 2 ^ 16 by omega), ← id_]
  rfl

end

/-! drain (R350). -/

section
variable {s : State} {d a b : Reg} {p : Fin 32}

theorem maskPorts_single (h : (s.reg a).toNat = 2 ^ p.val) : State.maskPorts (s.reg a) = [p] := by
  have eq : State.maskPorts (s.reg a) = (List.finRange 32).filter (· == p) := by
    refine List.filter_congr fun q _ => ?_
    rw [BitVec.getLsbD, h, Nat.testBit_two_pow, beq_eq_decide]
    exact decide_eq_decide.mpr ⟨fun e => Fin.ext e.symm, fun e => congrArg Fin.val e.symm⟩
  rw [eq, List.filter_beq, List.count_eq_one_of_mem (List.nodup_finRange 32) (List.mem_finRange p), List.replicate_one]

theorem drain_ends {x : Nat} (calm : FabricCalm s) (svc : s.svc = true) (mask : (s.reg a).toNat = 2 ^ p.val) (op : (s.reg b).toNat = 0)
    (waits : s.c.pend = .drain x) (drained : (s.port p).drained = true) : exec (.drain d a b) s = .next (State.adv (s.setReg d 0)) := by
  show s.drainOp d a b = _
  rw [State.drainOp, maskPorts_single mask, waits]
  simp only [op, show bitsOf 0 0 4 = 0 by decide, show bitsOf 0 4 2 = 0 by decide]
  rw [State.operand, if_pos (by decide), privC_compute svc calm.compute]
  simp only [List.isEmpty_cons, Bool.false_eq_true, if_false]
  simp only [State.drainWait, refreshPorts_still fun p => (calm.ports p).1, List.all_cons, drained, List.all_nil, Bool.and_self, if_true]
  rfl

theorem drainFec_ends {x : Nat} {ps : List Nat} (compute : s.inExchange = false) (svc : s.svc = true) (mask : (s.reg a).toNat = 2 ^ p.val)
    (op : (s.reg b).toNat = 1) (waits : s.c.pend = .fec ps x) (switched : (s.port p).fecReq = none) :
    exec (.drainFec d a b) s = .next (State.adv (s.setReg d 0)) := by
  show s.drainOp d a b = _
  rw [State.drainOp, maskPorts_single mask, op, waits]
  change s.privC (s.fecWait d [p] false) = _
  rw [privC_compute svc compute]
  simp only [State.fecWait, List.all_cons, switched, Option.isNone_none, List.all_nil, Bool.and_self, if_true]
  rfl

theorem drainRetrain_ends {x : Nat} {ps : List Nat} (compute : s.inExchange = false) (svc : s.svc = true)
    (mask : (s.reg a).toNat = 2 ^ p.val) (op : (s.reg b).toNat = 2) (waits : s.c.pend = .retrain ps x) (locked : (s.port p).lock = .locked) :
    exec (.drainRetrain d a b) s = .next (State.adv (s.setReg d 0)) := by
  show s.drainOp d a b = _
  rw [State.drainOp, maskPorts_single mask, op, waits]
  change s.privC (s.retrainWait d [p] false) = _
  rw [privC_compute svc compute]
  simp only [State.retrainWait, List.all_cons, locked, List.all_nil]
  rfl

/-- A window that is written back as it is leaves the windows, which bear different numbers, as they are. -/
theorem setWindow_self {w : Window} (nodup : (s.chip.windows.map (·.win)).Nodup) (mem : w ∈ s.chip.windows) : s.setWindow w = s := by
  have same : s.chip.windows.map (fun x => if x.win = w.win then w else x) = s.chip.windows := by
    refine (List.map_congr_left fun x hx => ?_).trans (List.map_id' _)
    split
    case isTrue e => exact (List.inj_on_of_nodup_map nodup hx mem e).symm
    case isFalse => rfl
  exact congrArg (fun ws => ({ s with chip := { s.chip with windows := ws } } : State)) same

/-- No notice waits: none goes out (R337). -/
theorem resendNotices_none (nodup : (s.chip.windows.map (·.win)).Nodup) (told : ∀ w ∈ s.chip.windows, w.tell = []) : s.resendNotices = s := by
  have one (n : Nat) : s.sendNotices n = s := by
    cases found : s.window n with
    | none => rw [State.sendNotices, found]
    | some w =>
      have mem : w ∈ s.chip.windows := List.mem_of_find?_eq_some found
      rw [sendNotices_none found (told w mem), ← told w mem]
      exact setWindow_self nodup mem
  have all (ns : List Nat) : ns.foldl State.sendNotices s = s := by
    induction ns with
    | nil => rfl
    | cons n ns ih => rw [List.foldl_cons, one, ih]
  exact all _

theorem port_setPort (s : State) (p q : Fin 32) (x : Port) : (s.setPort p x).port q = if q = p then x else s.port q := by
  show (s.chip.ports.set p x)[q] = _
  split
  case isTrue e => subst e; simp
  case isFalse e =>
    have apart : p.val ≠ q.val := fun h => e (Fin.ext h.symm)
    simpa [State.port] using Vector.getElem_set_ne (xs := s.chip.ports) (x := x) p.isLt q.isLt apart

theorem undrain_calm (calm : FabricCalm s) (svc : s.svc = true) (mask : (s.reg a).toNat = 2 ^ p.val) (op : (s.reg b).toNat = 3)
    (held : ∀ o ∈ s.chip.ops, o.state ≠ .held) (nodup : (s.chip.windows.map (·.win)).Nodup) (told : ∀ w ∈ s.chip.windows, w.tell = []) :
    ∃ q : Port, q.draining = false ∧ q.drained = false ∧ exec (.undrain d a b) s = .next (State.adv ((withPort s p q).setReg d 0)) := by
  let t := s.undrainPort p
  have still (q : Fin 32) : (t.port q).draining = false := by
    show (State.port (s.setPort p _) q).draining = false
    rw [port_setPort]
    split
    · rfl
    · exact (calm.ports q).1
  have none_ : t.chip.ops.filter (·.state == .held) = [] := by
    rw [List.filter_eq_nil_iff]
    intro o ho
    simpa using held o ho
  have resent : t.resendHeld = t := by
    rw [State.resendHeld, none_, List.foldl_nil, resendNotices_none (s := t) nodup told, State.settle,
      matchAllows_none (s := t) fun o ho => (calm.waiting o ho).1, answerOwed_none (s := t) calm.owed, refreshPorts_still still]
  refine ⟨{ s.port p with
    draining := false, drained := false, markerIn := false
    clearXc := if (s.port p).draining || (s.port p).drained then s.xc else (s.port p).clearXc }, rfl, rfl, ?_⟩
  show s.drainOp d a b = _
  rw [State.drainOp, maskPorts_single mask, op]
  change s.privC (t.resendHeld.result d 0) = _
  rw [privC_compute svc calm.compute, resent]
  rfl

/-! lnkstat (R350). -/

theorem refreshPorts_lock (s : State) (p : Fin 32) : (s.refreshPorts.port p).lock = (s.port p).lock := by
  refine refreshPorts_rule (P := fun t => (t.port p).lock = (s.port p).lock) rfl fun t q same => ?_
  unfold refreshed
  split
  · rw [port_setPort]
    split
    case isTrue e => rw [← same, e]
    case isFalse => exact same
  · exact same

/-- Bits 1:0 of the link word are the lock state. -/
theorem linkWord_lock (s : State) (p : Fin 32) : (s.linkWord p 0).toNat % 4 = (s.port p).lock.code := by
  have few : (s.port p).lock.code < 4 := by cases (s.port p).lock <;> decide
  have quarter (v : Bool) (n : Nat) (h : 2 ≤ n) : (if v then 2 ^ n else 0) % 4 = 0 := by
    split
    · exact Nat.mod_eq_zero_of_dvd (pow_dvd_pow 2 h)
    · rfl
  have b7 := quarter s.chip.burst 7 (by decide)
  have b6 := quarter (s.port p).fecReq.isSome 6 (by decide)
  have b3 := quarter (s.port p).retrain 3 (by decide)
  have b2 := quarter (s.port p).drained 2 (by decide)
  have peer : (if (s.port p).lock = .locked then (s.port p).peerChip % 65536 * 65536 + (s.port p).peerPort % 256 * 256
      else 0xFFFFFF00) % 4 = 0 := by
    split <;> omega
  simp only [State.linkWord, if_true, BitVec.toNat_ofNat]
  omega

theorem lnkstat_reads (compute : s.inExchange = false) (port : (s.reg a).toNat = p.val) :
    ∃ x : Word, exec (.lnkstat d a) s = .next (State.adv (s.setReg d x)) ∧ x.toNat % 4 = (s.port p).lock.code := by
  have low : (s.reg a).toNat < 2 ^ 5 := by rw [port]; exact p.isLt
  have number : ((s.reg a).extractLsb' 0 5).toFin = p := Fin.ext ((extract_toNat _ low).trans port)
  have plain : bitsOf (s.reg a).toNat 8 2 = 0 := by simp only [bitsOf]; omega
  refine ⟨s.refreshPorts.linkWord p 0, ?_, (linkWord_lock _ p).trans (congrArg Lock.code (refreshPorts_lock s p))⟩
  show execLnkstat d a s = _
  rw [execLnkstat]
  simp only [number, plain]
  rw [State.operand, if_pos (by rw [and_mask_zero (k := 5) low (by decide)]; rfl), State.classC_compute _ _ compute]
  rfl

end
end Sys2Proof.Proofs

namespace Sys2Proof.Proofs
open Machine

/-! # Steps of the engines in their plain cases (O60, R232 to R234, R239, R240, R267, R282) -/

/-- A part of the state that no step of a fold changes. -/
theorem foldl_field {α β : Type} {f : State → α → State} (part : State → β) (h : ∀ t x, part (f t x) = part t) (s : State)
    (xs : List α) :
    part (xs.foldl f s) = part s := by
  induction xs generalizing s with
  | nil => rfl
  | cons x xs ih => rw [List.foldl_cons, ih, h]

/-! The labels of a state (R282). -/

section
variable {e : DirEntry}

theorem natBytes_pair (x y : Nat) : natBytes [x, y] = leBytes 4 x ++ leBytes 4 y := by simp [natBytes]

/-- The labels written to the banks, a word for each of some tokens. -/
def labelled (e : DirEntry) (word : Nat → Nat) (ts : List Nat) (m : Memory) : Memory :=
  ts.foldl (fun m t => m.writeBytes (e.tokenAt t + 8) (natBytes [ninf32, word t])) m

/-- The blocks of two tokens lie apart. -/
theorem tokenAt_apart {t i : Nat} (h : t ≠ i) : e.tokenAt i + 64 ≤ e.tokenAt t ∨ e.tokenAt t + 64 ≤ e.tokenAt i := by
  have block : 64 ≤ e.block := by unfold DirEntry.block DirEntry.blockOf; omega
  unfold DirEntry.tokenAt
  rcases Nat.lt_or_gt_of_ne h with below | above
  · have := Nat.mul_le_mul_right e.block (show t + 1 ≤ i from below)
    rw [Nat.succ_mul] at this
    omega
  · have := Nat.mul_le_mul_right e.block (show i + 1 ≤ t from above)
    rw [Nat.succ_mul] at this
    omega

theorem labelled_word (word : Nat → Nat) (small : ∀ t, word t < 2 ^ 32) (m : Memory) {ts : List Nat} {i : Nat} (h : i ∈ ts) :
    littleEndian (labelled e word ts m) (e.tokenAt i + 12) 4 = word i := by
  induction ts using List.reverseRecOn with
  | nil => simp at h
  | append_singleton ts t ih =>
    have len : (natBytes [ninf32, word t]).length = 8 := by simp [natBytes_pair]
    rw [labelled, List.foldl_append, List.foldl_cons, List.foldl_nil, ← labelled, littleEndian_eq_leNat]
    by_cases last : t = i
    · subst last
      have read := Memory.readBytes_writeBytes (labelled e word ts m) (e.tokenAt t + 8) (natBytes [ninf32, word t])
      rw [len] at read
      rw [show e.tokenAt t + 12 = e.tokenAt t + 8 + 4 from rfl, ← readBytes_slice _ _ (show 4 + 4 ≤ 8 by decide), read,
        natBytes_pair, List.drop_left' (leBytes_length 4 _), List.take_of_length_le (by simp), leNat_leBytes]
      exact Nat.mod_eq_of_lt (small t)
    · have apart := tokenAt_apart (e := e) last
      rw [readBytes_writeBytes_apart _ _ _ _ _ (by rw [len]; omega), ← littleEndian_eq_leNat]
      exact ih ((List.mem_append.mp h).resolve_right fun new => last (List.mem_singleton.mp new).symm)

/-- vplabel completes: each token's label index is the word of the list (R282). -/
theorem vplabel_completes {s : State} {q : HeadOp} {qs : List HeadOp} {d a : Reg} (queue : s.c.head = q :: qs) (clean : s.c.memErr = [])
    (op : q.op = .vplabel d a) :
    ∃ t, exec .headOpComplete s = .next t ∧ t.c.head = qs ∧ t.c.mem = s.c.mem ∧ t.c.s = s.c.s ∧
      ∀ i, i < q.ent.t → tokenWord t q.ent i 3 = littleEndian s.c.mem (offOf q.x + 4 * i) 4 := by
  let u : State := { s with c := { s.c with head := qs } }
  let word (t : Nat) : Nat := (u.memWord (offOf q.x + 4 * t)).toNat
  let step (v : State) (t : Nat) : State := v.headAcc (q.ent.tokenAt t + 8) (natBytes [ninf32, word t])
  let v : State := (List.range q.ent.t).foldl step u
  have banks : v.c.acc = labelled q.ent word (List.range q.ent.t) s.c.acc :=
    (List.foldl_hom (fun w : State => w.c.acc) fun _ _ => rfl).symm
  have effect : u.headEffect q = (v, 0) := by
    rw [State.headEffect, op]
    exact if_neg (by simp [State.memBad, show u.c.memErr = [] from clean])
  refine ⟨v.headNote 0, ?_, foldl_field (f := step) (·.c.head) (fun _ _ => rfl) u _, foldl_field (f := step) (·.c.mem) (fun _ _ => rfl) u _,
    foldl_field (f := step) (·.c.s) (fun _ _ => rfl) u _, fun i hi => ?_⟩
  · show execHeadOpComplete s = _
    simp only [execHeadOpComplete, queue, show ({ s with c := { s.c with head := qs } } : State).headEffect q = (v, 0) from effect, op]
  · have written := labelled_word (e := q.ent) word (fun _ => BitVec.isLt _) s.c.acc (List.mem_range.mpr hi)
    rw [← banks] at written
    exact written.trans (memWord_toNat u _)

end

/-! Firmware and the TLB (R232 to R234). -/

section
variable {s : State}

/-- Nothing of this core waits on a notice. -/
structure NothingWaits (s : State) : Prop where
  copies : s.c.copy = [] ∧ s.sh.copy = []
  paged : s.p.paged = []
  colls : s.chip.colls = []

theorem serve_nothing (h : NothingWaits s) (ids : List Nat) :
    s.serve ids = { s with t := { s.t with notices := s.t.notices.filter fun n => !ids.contains n.id } } := by
  obtain ⟨⟨copy, shadow⟩, paged, colls⟩ := h
  have none_ {α : Type} (f : α → α) {xs : List α} (h : xs = []) : xs.map f = xs := by rw [h, List.map_nil]
  simp only [State.serve, State.onCopies, none_ _ copy, none_ _ shadow, none_ _ paged, none_ _ colls]

theorem writeTlb_unused {i : Nat} (h : s.tlbUses i = []) (e : TlbEntry) :
    s.writeTlb i e = { s with t := { s.t with tlb := (i, e) :: s.t.tlb.filter fun e => e.1 ≠ i }, out := s.out ++ [.tlbDone i] } := by
  rw [State.writeTlb, h]
  rfl

theorem tlbWrite_unused (number : s.input.n < 1024) (unused : s.tlbUses s.input.n = []) (notices : s.t.notices = []) (h : NothingWaits s) :
    exec .tlbWrite s = .next
      { s with t := { s.t with tlb := (s.input.n, s.input.tlb) :: s.t.tlb.filter fun e => e.1 ≠ s.input.n }
               out := s.out ++ [.tlbDone s.input.n] } := by
  let t := s.writeTlb s.input.n s.input.tlb
  have eq : t = _ := writeTlb_unused unused s.input.tlb
  have calm : NothingWaits t := by rw [eq]; exact ⟨h.copies, h.paged, h.colls⟩
  have still : t.t.notices = [] := by rw [eq]; exact notices
  show execTlbWrite s = _
  simp only [execTlbWrite, notices, List.filter_nil, List.map_nil, show s.postNotices [] = s from rfl]
  rw [if_pos ⟨number, by simp [State.posted]⟩, serve_nothing calm, still, List.filter_nil, ← still, eq]

theorem tlbInvalidate_unused (number : s.input.n < 1024) (unused : s.tlbUses s.input.n = []) :
    exec .tlbInvalidate s = .next
      { s with t := { s.t with tlb := (s.input.n, {}) :: s.t.tlb.filter fun e => e.1 ≠ s.input.n }
               out := s.out ++ [.tlbDone s.input.n] } := by
  show execTlbInvalidate s = _
  rw [execTlbInvalidate, if_pos number, writeTlb_unused unused]

/-- Firmware ends a wait of which this core knows nothing: the notice is served (R232). -/
theorem commandEnd_idle (foreground : s.input.flag2 = false ∧ s.input.flag = false ∧ s.input.win ≠ 1)
    (status : s.input.status = 2 ∨ s.input.status = 3 ∨ s.input.status = 10) (h : NothingWaits s) :
    ∃ t, exec .commandEndByFirmware s = .next t ∧ t.t.notices = s.t.notices.filter fun n => n.id ≠ s.input.op := by
  obtain ⟨coll, shadow, paged⟩ := foreground
  have ends : s.endStatus = true := by
    rcases status with e | e | e <;> simp [State.endStatus, stProt, stKey, e]
  have idle : s.serveIdle s.input.op = s.serve [s.input.op] := by
    simp [State.serveIdle, State.allCopies, h.copies.1, h.copies.2, h.paged, h.colls]
  refine ⟨s.serve [s.input.op], ?_, ?_⟩
  · show execCommandEndByFirmware s = _
    simp only [execCommandEndByFirmware, ends, coll, shadow, paged, Bool.true_eq_false, Bool.false_eq_true, if_false, State.endWait,
      h.copies.1, List.getElem?_nil, idle]
  · rw [serve_nothing h]
    exact List.filter_congr fun n _ => by simp

/-! LPDDR 6 (R229, R239, R240). -/

/-- Correcting the errors of a beat changes them, their counts and the log alone. -/
theorem gCorrect_eq (s : State) (beat : Nat) (tag : Word) : ∃ corrected log, s.gCorrect beat tag =
    { s with chip := { s.chip with soft := s.chip.soft.filter (· ≠ beat), corrected := corrected, log := log } } := by
  by_cases soft : s.chip.soft.contains beat = true
  · rw [State.gCorrect, if_pos soft]
    dsimp only
    split
    · obtain ⟨l, eq⟩ := logRecord_eq (_ : State) _ 3 0x20 _ tag _
      exact ⟨_, l, eq⟩
    · exact ⟨_, _, rfl⟩
  · have same : s.chip.soft.filter (· ≠ beat) = s.chip.soft := by
      refine List.filter_eq_self.mpr fun x hx => decide_eq_true ?_
      rintro rfl
      exact soft (List.contains_iff_mem.mpr hx)
    refine ⟨s.chip.corrected, s.chip.log, ?_⟩
    rw [State.gCorrect, if_neg soft, same]

/-- A word within a beat reads back under the key it was written with (R235). -/
theorem gread_gwrite (s : State) {pa key : Nat} {bs : List Byte} (len : bs.length = 4) (aligned : pa % 4 = 0) :
    (s.gwrite pa bs key).gread pa 4 key = bs := by
  have one : (pa + bs.length + 63) / 64 - pa / 64 = 1 := by omega
  have each (i : Nat) (hi : i < 4) : (pa + i) / 64 = pa / 64 := by omega
  refine List.ext_getElem (by simp [State.gread, len]) fun i h1 h2 => ?_
  have hi : i < bs.length := h2
  simp only [State.gread, List.getElem_map, List.getElem_range, each i (by omega), State.gwrite, one, List.range_one, List.map_cons,
    List.map_nil, Nat.add_zero, List.cons_append, List.find?_cons_of_pos (p := fun x : Nat × Nat => decide (x.1 = pa / 64)), decide_true,
    if_true]
  rw [Memory.read_writeBytes_inside _ _ _ i hi]

theorem updateApply_writes {k : Nat} (key : s.keyOf s.input.n = some k) (aligned : s.input.addr % 4 = 0)
    (fitted : s.input.addr < s.chip.capacity * 2 ^ 30) (slot : s.chip.fnSlots.contains s.input.op = true)
    (sound : s.chip.gerr.contains (s.input.addr / 64) = false) :
    ∃ t, exec .updateApply s = .next t ∧ t.c = s.c ∧ leNat (t.gread s.input.addr 4 k) =
      (updateWord s.input.op (BitVec.ofNat 32 (leNat (s.gread s.input.addr 4 k))) s.input.value (BitVec.ofNat 32 s.input.off)).toNat := by
  obtain ⟨corrected, log, eq⟩ := gCorrect_eq s (s.input.addr / 64) (BitVec.ofNat 32 s.input.seq)
  let new := updateWord s.input.op (BitVec.ofNat 32 (leNat (s.gread s.input.addr 4 k))) s.input.value (BitVec.ofNat 32 s.input.off)
  let u := s.gCorrect (s.input.addr / 64) (BitVec.ofNat 32 s.input.seq)
  have core : u.c = s.c := by rw [show u = _ from eq]
  have old : u.gread s.input.addr 4 k = s.gread s.input.addr 4 k := by rw [show u = _ from eq]; rfl
  have errors : u.chip.gerr = s.chip.gerr := by rw [show u = _ from eq]
  refine ⟨u.gwrite s.input.addr (leBytes 4 new.toNat) k, ?_, core, ?_⟩
  · show execUpdateApply s = _
    simp only [execUpdateApply, key]
    rw [if_pos ⟨aligned, fitted, slot⟩]
    show Host.Outcome.next (match u.updateAt s.input.op s.input.addr k s.input.value (BitVec.ofNat 32 s.input.off) with
      | (t, some _) => t
      | (t, none) => t.gLog s.input.addr (BitVec.ofNat 32 s.input.seq)) = _
    rw [State.updateAt, errors, sound, if_neg (by simp), old]
  · rw [gread_gwrite u (leBytes_length 4 _) aligned, leNat_leBytes]
    exact Nat.mod_eq_of_lt new.isLt

/-- A pass of the scrubber corrects every beat with correctable errors (R239). -/
theorem scrubPass_clears (s : State) :
    ∃ t, exec .scrubPass s = .next t ∧ t.chip.soft = [] ∧ t.chip.gmem = s.chip.gmem ∧ t.c = s.c := by
  have keeps (t : State) (b : Nat) : (t.gCorrect b 0).chip.gmem = t.chip.gmem ∧ (t.gCorrect b 0).c = t.c := by
    obtain ⟨corrected, log, eq⟩ := gCorrect_eq t b 0
    rw [eq]
    exact ⟨rfl, rfl⟩
  have left (t : State) (bs : List Nat) (x : Nat) :
      x ∈ (bs.foldl (fun t b => t.gCorrect b 0) t).chip.soft → x ∈ t.chip.soft ∧ x ∉ bs := by
    induction bs generalizing t with
    | nil => simp
    | cons b bs ih =>
      intro hx
      obtain ⟨corrected, log, eq⟩ := gCorrect_eq t b 0
      obtain ⟨mem, later⟩ := ih (t.gCorrect b 0) hx
      rw [eq] at mem
      obtain ⟨old, other⟩ := List.mem_filter.mp mem
      exact ⟨old, by simpa [later] using other⟩
  refine ⟨_, rfl, List.eq_nil_iff_forall_not_mem.mpr fun x hx => ?_, foldl_field (·.chip.gmem) (fun t b => (keeps t b).1) s _,
    foldl_field (·.c) (fun t b => (keeps t b).2) s _⟩
  obtain ⟨soft, cleared⟩ := left s s.chip.soft x hx
  exact cleared soft

theorem memoryError_local (flag : s.input.flag = true) (memory : s.input.mem = .local_) :
    exec .memoryError s = .next { s with c := { s.c with memErr := s.input.addr / 8 :: s.c.memErr } } := by
  show execMemoryError s = _
  simp only [execMemoryError, memory, flag, if_true]

end
end Sys2Proof.Proofs

namespace Sys2Proof.Proofs
open Machine

/-! # Time-outs (O60, R338, R345, R347, R350) -/

section
variable {s : State} {d a b : Reg} {f : Fetched} {x : Nat}

/-- A waiting instruction that has waited for `limit` exchange cycles ends with a result. -/
def timedOut (s : State) (f : Fetched) (x limit : Nat) (d : Reg) (v : Word) : State :=
  ((({ s with ir := f } : State).advanceTo (x + limit)).setReg d v).adv

/-- Nothing is waited for. -/
def freed (s : State) : State := { s with c := { s.c with pend := .none } }

/-- Completion clears what an instruction waited for: clearing it before makes no difference. -/
theorem adv_freed (s : State) : (freed s).adv = s.adv := by
  rw [State.adv_with (s := s) (t := freed s) ⟨rfl, rfl, rfl, rfl, rfl, rfl⟩, s.adv_eq]
  rfl

theorem setReg_freed (s : State) (d : Reg) (v : Word) : (freed s).setReg d v = freed (s.setReg d v) := by
  unfold State.setReg
  split <;> rfl

/-- A staged table of which a marker is missing is not ready (R338). -/
theorem commitReady_missing {v : Half}
    (missing : ∀ r, s.stagedTable = some r → ∃ p : Fin 32, p.val ∈ r.routes ∧ (s.port p).commitIn ≠ some v) :
    s.commitReady v = false := by
  cases staged : s.stagedTable with
  | none => rw [State.commitReady, staged]
  | some r =>
    obtain ⟨p, routed, absent⟩ := missing r staged
    rw [State.commitReady, staged]
    exact List.all_eq_false.mpr ⟨p, by simpa [State.routedPorts] using routed, by simpa using absent⟩

theorem advanceTo_later (s : State) (x : Nat) : (s.advanceTo x).chip.later = s.chip.later := rfl

/-- A commit that ends where nothing waits behind it. -/
theorem endCommit_alone (n : Nat) (none_ : s.chip.later = []) : s.endCommit d n = .next (s.setReg d (BitVec.ofNat 32 n)).adv := by
  rw [State.endCommit, show ({ s with c := { s.c with pend := .none } } : State) = freed s from rfl, turnOver_none (s := freed s) none_,
    State.result, setReg_freed, State.fin, adv_freed]

theorem commitTimeout_ends {v : Half} (waits : s.c.pend = .commit v x) (issue : s.c.issue = some (.tvcommit d a, f))
    (none_ : s.chip.later = [])
    (missing : ∀ r, s.stagedTable = some r → ∃ p : Fin 32, p.val ∈ r.routes ∧ (s.port p).commitIn ≠ some v) :
    exec .commitTimeout s = .next (timedOut s f x 1000000 d 3) := by
  show execCommitTimeout s = _
  rw [execCommitTimeout, waits, issue]
  refine (if_neg (by simp [commitReady_missing missing])).trans ?_
  rw [endCommit_alone 3 ((advanceTo_later { s with ir := f } _).trans none_)]
  rfl

/-- A port whose marker is not here is not changed: it cannot become DRAINED. -/
theorem refreshPorts_unmarked {p : Fin 32} (h : (s.port p).markerIn = false) : s.refreshPorts.port p = s.port p := by
  refine refreshPorts_rule (P := fun t => t.port p = s.port p) rfl fun t q same => ?_
  unfold refreshed
  split
  case isTrue now =>
    have other : p ≠ q := by
      rintro rfl
      simp [State.drainedNow, same, h] at now
    rw [port_setPort, if_neg other, same]
  case isFalse => exact same

theorem drainTimeout_ends (waits : s.c.pend = .drain x) (issue : s.c.issue = some (.drain d a b, f))
    (late : ∃ p : Fin 32, (s.reg a).getLsbD p.val = true ∧ (s.port p).drained = false ∧ (s.port p).markerIn = false) :
    exec .drainTimeout s = .next (timedOut s f x 1000000 d 2) := by
  obtain ⟨p, named, open_, marker⟩ := late
  have dest : s.drainDest = some (d, State.maskPorts (s.reg a), f) := by rw [State.drainDest, issue]
  have waiting : ((State.maskPorts (s.reg a)).all fun p => (s.refreshPorts.port p).drained) = false :=
    List.all_eq_false.mpr ⟨p, by simpa [State.maskPorts] using named, by rw [refreshPorts_unmarked marker, open_]; simp⟩
  show execDrainTimeout s = _
  simp only [execDrainTimeout, waits, dest, waiting, Bool.false_eq_true, if_false]
  rfl

theorem wderegTimeout_ends {w : Nat} {y : Window} (waits : s.c.pend = .dereg w x) (issue : s.c.issue = some (.wdereg d a, f))
    (limit : s.c.stragg ≠ 0) (open_ : s.window w = some y) (owed : y.waits ≠ []) :
    exec .wderegTimeout s = .next (timedOut s f x s.c.stragg.toNat d 2) := by
  have waiting : s.deregDone w = false := by simpa [State.deregDone, open_] using owed
  show execWderegTimeout s = _
  simp only [execWderegTimeout, waits, issue, if_neg limit, waiting, Bool.false_eq_true, if_false]
  rfl

theorem wwaitTimeout_ends {w : Window} {reg : Bool} (waits : s.c.pend = .wwait x reg) (issue : s.c.issue = some (.wwait d a b, f))
    (limit : s.c.stragg ≠ 0) (open_ : s.window ((s.reg a).toNat % 4096) = some w) (origin : (s.reg a).getLsbD 16 = false) :
    exec .wwaitTimeout s = .next (timedOut s f x s.c.stragg.toNat d w.org) := by
  let t := ({ s with ir := f } : State).advanceTo (x + s.c.stragg.toNat)
  have number : ((s.reg a).extractLsb' 0 12).toNat = (s.reg a).toNat % 4096 := by simp [BitVec.extractLsb'_toNat]
  have word : t.windowWord ((t.reg a).extractLsb' 0 12).toNat (if (t.reg a).getLsbD 16 then 1 else 0) = w.org := by
    have same : t.reg a = s.reg a := rfl
    have found : t.window ((s.reg a).toNat % 4096) = some w := open_
    rw [same, origin, number]
    simp [State.windowWord, found]
  show execWwaitTimeout s = _
  simp only [execWwaitTimeout, waits, issue, if_neg limit]
  exact congrArg (fun v => Host.Outcome.next (t.setReg d v).adv) word

end
end Sys2Proof.Proofs

namespace Sys2Proof.Proofs
open Machine

/-! # Every form completes (O60) -/

/-- Settles O60: each form by its lemma above, and that every row answers by the shapes of the meanings. -/
theorem everyFormCompletes : Obligations.EveryFormCompletes := by
  unfold Obligations.EveryFormCompletes
  refine ⟨⟨converting_completes, gangs_complete, fun s e d a b compute room => ?head, fun s d a b g compute mine svc own part => ?grants,
      fun s d a compute mine none_ works block => lgrant_first compute mine none_ works block, requests_start,
      fun s d a b w calm svc free => ?fabric, fun s d a b k compute svc => ?collectives, fun s d a b p x calm svc mask => ?drains,
      fun s d a p compute port => lnkstat_reads compute port, fun s i => exec_answers i s⟩,
    matrix_completes, fun s q qs d a queue _ clean op => vplabel_completes queue clean op, fun s => ?engines, fun s d a b f x _ => ?timeouts⟩
  case head =>
    exact ⟨fun mode low high one most banks slice => vpinit_topK compute (newState_topK mode low high one most) banks slice room,
      vplabel_takes compute room, vpfold_takes compute room, vpmerge_takes compute room, vpread_takes compute room,
      fun plain => plain ▸ vpregen_takes compute room, vpstat_reads compute, fun empty spilt state slice clean _ counts pointer area =>
        ⟨_, vpspill_empty compute empty spilt state slice clean counts pointer area, spillHeaps_keeps s e _⟩⟩
  case grants =>
    exact ⟨lrelease_drops compute mine svc own part,
      fun idle works same mode still => lmode_settles compute mine svc own part idle works same mode still,
      fun _ => lmargin_reads compute own, lstat_reads compute own⟩
  case fabric =>
    exact ⟨wcnt_reads calm.compute, wwait_ready calm.compute,
      fun number open_ use none_ ops allows => wdereg_alone calm.compute svc free rfl number open_ use none_ ops allows,
      fun block new kind base key len some_ unused inside => wreg_plain calm.compute svc block
        (w := fun i => littleEndian s.c.mem (offOf (s.reg a) + 4 * i) 4) (fun _ => rfl)
        ⟨kind, base, key, ⟨len, some_⟩, ⟨unused 4 (by decide) (by decide), unused 5 (by decide) (by decide),
          unused 6 (by decide) (by decide), unused 7 (by decide) (by decide)⟩, inside⟩ new,
      tvget_active calm.compute, fun head table own most half new ports self =>
        tvstage_new calm.compute svc calm.turns rfl rfl head table own most half new rfl ports self,
      fun r staged ver closed dark ops allows windows => tvcommit_closed calm svc free staged ver closed dark ops allows windows⟩
  case collectives =>
    exact ⟨fun block none_ line steps tag zero => cstep_first compute block none_
        (w := fun i => littleEndian s.c.mem (offOf (s.reg a) + 4 * i) 4) (fun _ => rfl) ⟨line, ⟨steps, littleEndian_lt _ _ 4⟩, tag, zero⟩,
      cstat_reads compute, cresume_resumes compute svc⟩
  case drains =>
    exact ⟨drain_ends calm svc mask, fun _ => drainFec_ends calm.compute svc mask, fun _ => drainRetrain_ends calm.compute svc mask,
      undrain_calm calm svc mask⟩
  case engines =>
    exact ⟨fun number unused _ notices copy shadow paged colls => tlbWrite_unused number unused notices ⟨⟨copy, shadow⟩, paged, colls⟩,
      tlbInvalidate_unused, fun coll shadowed pagedOut status copy shadow paged colls =>
        commandEnd_idle ⟨coll, shadowed, pagedOut⟩ status ⟨⟨copy, shadow⟩, paged, colls⟩,
      fun _ => updateApply_writes, scrubPass_clears s, memoryError_local⟩
  case timeouts =>
    exact ⟨fun _ => commitTimeout_ends, drainTimeout_ends, fun _ _ => wderegTimeout_ends, fun _ _ => wwaitTimeout_ends⟩

end Sys2Proof.Proofs
